-- ==== Sys2Proof/Word.lean ====
section
/-! DEFINITION. Sys2Proof/Word.lean: the word types of the Torith T64 and their plainest arithmetic (R1, R2, R3). -/

namespace Sys2Proof

/-- A 32-bit lane value, instruction word or register word. -/
abbrev Word := BitVec 32
/-- One byte. -/
abbrev Byte := BitVec 8
/-- A 7-bit register field `v0` to `v127` of an instruction (R38). -/
abbrev Fld := BitVec 7
/-- A mask of the 16 lanes of a group: bit l is lane l (R35). -/
abbrev Mask := BitVec 16
/-- A 64-bit value: a pair, an address, a time. -/
abbrev Word64 := BitVec 64

/-- The field of an even pair (R40). -/
def pairFld (p : BitVec 6) : Fld := p ++ (0 : BitVec 1)
/-- The field of a quad (R40). -/
def quadFld (p : BitVec 5) : Fld := p ++ (0 : BitVec 2)
/-- The field of an aligned group of eight (R287). -/
def octFld (p : BitVec 4) : Fld := p ++ (0 : BitVec 3)

/-- The lane numbers, ascending (R8). -/
def laneNums : List Nat := [0, 1, 2, 3, 4, 5, 6, 7, 8, 9, 10, 11, 12, 13, 14, 15]

/-- Is lane `l` in the mask? -/
def Mask.has (m : Mask) (l : Nat) : Bool := m.getLsbD l
/-- The lanes of a mask, ascending. -/
def Mask.lanes (m : Mask) : List Nat := laneNums.filter m.has
/-- The mask of the lanes that satisfy a test. -/
def Mask.of (f : Nat → Bool) : Mask := laneNums.foldl (fun m l => if f l then m ||| BitVec.twoPow 16 l else m) 0
/-- The lowest lane of a mask, `none` when it is empty. -/
def Mask.low (m : Mask) : Option Nat := m.lanes.head?
/-- The number of lanes of a mask. -/
def Mask.count (m : Mask) : Nat := m.lanes.length

/-- The little-endian value of a list of bytes (R3). -/
def leNat : List Byte → Nat
  | [] => 0
  | b :: bs => b.toNat + 256 * leNat bs

/-- The n little-endian bytes of a value (R3). -/
def leBytes : Nat → Nat → List Byte
  | 0, _ => []
  | n + 1, v => BitVec.ofNat 8 v :: leBytes n (v / 256)

/-- The low and the high half of a 64-bit value. -/
def lo32 (x : Word64) : Word := x.truncate 32
def hi32 (x : Word64) : Word := (x >>> 32).truncate 32
/-- A pair read as a 64-bit value: the even register holds bits [31:0] (R40). -/
def mk64 (lo hi : Word) : Word64 := hi ++ lo

/-- The bits [hi:lo] of a number (R2). -/
def bitsOf (x hi lo : Nat) : Nat := x / 2 ^ lo % 2 ^ (hi + 1 - lo)

/-- A value rounded up to a multiple of `m`. -/
def alignUp (x m : Nat) : Nat := (x + (m - 1)) / m * m

/-- The element at an index replaced; nothing happens beyond the end. -/
def setAt {α : Type} : List α → Nat → α → List α
  | [], _, _ => []
  | _ :: xs, 0, y => y :: xs
  | x :: xs, n + 1, y => x :: setAt xs n y

/-- The element at an index changed by a function. -/
def modAt {α : Type} : List α → Nat → (α → α) → List α
  | [], _, _ => []
  | x :: xs, 0, f => f x :: xs
  | x :: xs, n + 1, f => x :: modAt xs n f

/-- The element at an index removed. -/
def dropAt {α : Type} : List α → Nat → List α
  | [], _ => []
  | _ :: xs, 0 => xs
  | x :: xs, n + 1 => x :: dropAt xs n

/-- The index of the first element that satisfies a test. -/
def findAt {α : Type} (p : α → Bool) : List α → Option Nat
  | [] => none
  | x :: xs => if p x then some 0 else (findAt p xs).map (· + 1)

/-- A list paired with its indices. -/
def indexed {α : Type} (xs : List α) : List (Nat × α) := (List.range xs.length).zip xs

end Sys2Proof
end

