-- ==== Sys2Proof/Config.lean ====
section
/-! DEFINITION. Sys2Proof/Config.lean: what a part fixes and the free values, that is, what the spec leaves open. Each free value is an
opaque constant: no proof can see its value, so a claim holds whatever it is. The log entries name each one. -/

namespace Sys2Proof.Config

/-- Which of several steps that may happen comes next (R36, R105, R116 between partitions, R271): applied to a counter of the
state. Log entry 3. -/
opaque pick : Nat → Nat
/-- Which of several equal choices the device takes for a placement or an object slot (R28, R304, R400). Log entry 4. -/
opaque choose : Nat → Nat
/-- Whether a cached copy that differs from the home bytes serves an access (R18, R208, R235, R418, R421, R369). Log entry 5. -/
opaque stale : Nat → Bool
/-- Picoseconds of device time that pass with a step: any number, taken modulo 400, and one more (R7, R196). The cycles of the cluster clocks follow
from it (R22, R376). Log entry 6. -/
opaque elapsed : Nat → Nat
/-- A value that the spec leaves open where it names no other source for it. Log entry 7. -/
opaque freeNat : Nat → Nat
/-- The tag code that `tagq` reports, kept only where it is true of the register (R42, R139). Log entry 8. -/
opaque tag : Nat → Nat
/-- The home slice of a physical line (R18): any number; it is taken modulo 64. Log entry 9. -/
opaque homeSlice : Nat → Nat
/-- The index hash of a sync area (R251): any number; it is taken modulo the area's size. Log entry 9. -/
opaque syncHash : Nat → Nat
/-- Word `n` of the result of a dynamics command where it is not exact: a function of the command code, the body index, the descriptor
bytes and the state bytes, as R341 promises the same bits for the same input. Log entry 10. -/
opaque dynWord (op body : Nat) (model state : List Byte) (n : Nat) : Word
/-- Does the articulated inertia of some joint fail (status 7, R341), where it is not exact? Log entry 10. -/
opaque dynSingular (op : Nat) (model state : List Byte) : Bool
/-- The value a collision query proposes, taken only where R336 admits it. Log entry 11. -/
opaque geoWord (op : Nat) (map query : List Byte) (n : Nat) : Word
/-- SHA3-256, which the spec names and does not define (R424). Log entry 12. -/
opaque sha3 : List Byte → List Byte
/-- ML-DSA-44 verification of (public key, message, signature) (R424). Log entry 12. -/
opaque mldsaVerify (pk msg sig : List Byte) : Bool
/-- The identity key's signature over a message (R427). Log entry 12. -/
opaque mldsaSign : List Byte → List Byte
/-- The identity public key of the part, 1,312 bytes (R427). Log entry 12. -/
opaque identityKey : Nat → Byte
/-- The 32-byte key hash in fuses (R424). Log entry 12. -/
opaque fuseKeyHash : List Byte
/-- The SHA3-256 of the boot ROM (Table 19-4, MEAS0). Log entry 12. -/
opaque romHash : Nat → Byte
/-- The device serial number and stepping (Table 19-4). Log entry 12. -/
opaque serial : Word64
opaque stepping : Byte
/-- Is the installed DRAM 128 GiB instead of 64 GiB (Table 1-2)? Log entry 13. -/
opaque dram128 : Bool

end Sys2Proof.Config
end

