-- ==== Sys2Proof/Syntax.lean ====
section
/-! DEFINITION. Sys2Proof/Syntax.lean: the instructions and device steps of the Torith T64, one constructor per row of
spec/opcode_table.json. A coded instruction holds the bits of its word fields as the table gives them: a pair field of six
bits and a quad field of five name the first register divided by two or four (R40). A device step holds the indices and
values that say which step it is (spec/95). -/

namespace Sys2Proof

/-- The far side of a link (R21). -/
inductive Party where
  | host
  | peer
deriving DecidableEq, Repr

/-- A TIME request: who asks, and its value H (R414). -/
structure TimeAsk where
  src : Party
  h : BitVec 64
deriving DecidableEq, Repr

/-- The memory updates of Tables 12-1 to 12-3 and of R212. -/
inductive AtomOp where
  | add32 | addF32 | addBf16x2 | addF16x2 | minI | maxI | minZ | maxZ | and | or | xor | xch | inc | dec | minF32 | maxF32
  | add64 | minI64 | maxI64 | minZ64 | maxZ64 | xch64 | cas32 | cas64 | cas128 | maxp | st4 | st2
deriving DecidableEq, Repr

/-- The instructions of the part (rows 0 to 429 of the table) and its own steps (rows 430 to 525). -/
inductive Instr where
  /-- bra (R103): Unconditional uniform branch that moves the whole fragment to PC + 4 × offset. -/
  | bra (o : BitVec 21)
  /-- bany (R103): Uniform branch taken when p0 is 1 in at least one active lane. -/
  | bany (o : BitVec 21)
  /-- ball (R103): Uniform branch taken when p0 is 1 in every active lane. -/
  | ball (o : BitVec 21)
  /-- bnone (R103): Uniform branch taken when p0 is 0 in every active lane. -/
  | bnone (o : BitVec 21)
  /-- call (R103): Adds 32 to WB, writes the return address into v30:v31 of the new window and branches. -/
  | call (o : BitVec 21)
  /-- brd (R104): Divergent branch on p0 that splits the fragment and creates a split entry with a reconvergence address. -/
  | brd (toff : BitVec 21) (roff : BitVec 26)
  /-- brdr (R104): Divergent branch to per-lane register targets, splitting the fragment all-or-nothing. -/
  | brdr (a : BitVec 6) (roff : BitVec 26)
  /-- ret (R106): Branches to v30:v31 of the lowest active lane and subtracts 32 from WB. -/
  | ret
  /-- jmpr (R106): Uniform jump to the register-pair target of the lowest active lane. -/
  | jmpr (a : BitVec 6)
  /-- callr (R106): Uniform call to a register-pair target, advancing WB by 32 and writing the return address. -/
  | callr (a : BitVec 6)
  /-- exit (R107): Retires the active lanes, ending the fragment or group when no lane remains. -/
  | exit (g : Bool)
  /-- yield (R108): Moves the fragment behind every other ready fragment of its priority. -/
  | yield (g : Bool)
  /-- join (R109): Makes the fragment arrive at its innermost split entry as if its PC equalled RPC. -/
  | join
  /-- wbase (R110): Sets the fragment's window base WB to 32 × n. -/
  | wbase (g : Bool) (n : BitVec 4)
  /-- spin (R111): Marks the fragment spinning at once. -/
  | spin (g : Bool)
  /-- nop (R112): Has no effect; also the .text padding word. -/
  | nop (g : Bool)
  /-- fmask (R112): Writes all 16 bits of a predicate from the fragment's mask, its entry's lanes or its non-exited lanes. -/
  | fmask (g : Bool) (d : BitVec 3) (s : BitVec 2)
  /-- add (R128): Integer add modulo 2^32 per active lane. -/
  | add (g : Bool) (d a b : BitVec 7)
  /-- sub (R128): Integer subtract modulo 2^32 per active lane. -/
  | sub (g : Bool) (d a b : BitVec 7)
  /-- addc (R128): Add with carry in and out through p6. -/
  | addc (g : Bool) (d a b : BitVec 7)
  /-- subb (R128): Subtract with borrow in and out through p6. -/
  | subb (g : Bool) (d a b : BitVec 7)
  /-- min.i (R128): Signed minimum per lane. -/
  | minI (g : Bool) (d a b : BitVec 7)
  /-- max.i (R128): Signed maximum per lane. -/
  | maxI (g : Bool) (d a b : BitVec 7)
  /-- min.z (R128): Unsigned minimum per lane. -/
  | minZ (g : Bool) (d a b : BitVec 7)
  /-- max.z (R128): Unsigned maximum per lane. -/
  | maxZ (g : Bool) (d a b : BitVec 7)
  /-- abs (R128): Signed absolute value per lane. -/
  | abs (g : Bool) (d a : BitVec 7)
  /-- neg (R128): Two's-complement negation per lane. -/
  | neg (g : Bool) (d a : BitVec 7)
  /-- adds.i (R128): Signed saturating add. -/
  | addsI (g : Bool) (d a b : BitVec 7)
  /-- subs.i (R128): Signed saturating subtract. -/
  | subsI (g : Bool) (d a b : BitVec 7)
  /-- adds.z (R128): Unsigned saturating add. -/
  | addsZ (g : Bool) (d a b : BitVec 7)
  /-- subs.z (R128): Unsigned saturating subtract. -/
  | subsZ (g : Bool) (d a b : BitVec 7)
  /-- avg.z (R128): Unsigned rounded average. -/
  | avgZ (g : Bool) (d a b : BitVec 7)
  /-- sad.z (R128): Accumulates the unsigned absolute difference into d. -/
  | sadZ (g : Bool) (d a b : BitVec 7)
  /-- add (R128): Integer add of a sign-extended 7-bit immediate. -/
  | addImm (g : Bool) (d a i : BitVec 7)
  /-- sub (R128): Integer subtract of a sign-extended 7-bit immediate. -/
  | subImm (g : Bool) (d a i : BitVec 7)
  /-- addc (R128): Add with carry of an immediate through p6. -/
  | addcImm (g : Bool) (d a i : BitVec 7)
  /-- subb (R128): Subtract with borrow of an immediate through p6. -/
  | subbImm (g : Bool) (d a i : BitVec 7)
  /-- min.i (R128): Signed minimum with an immediate. -/
  | minIImm (g : Bool) (d a i : BitVec 7)
  /-- max.i (R128): Signed maximum with an immediate. -/
  | maxIImm (g : Bool) (d a i : BitVec 7)
  /-- min.z (R128): Unsigned minimum with a sign-extended immediate. -/
  | minZImm (g : Bool) (d a i : BitVec 7)
  /-- max.z (R128): Unsigned maximum with a sign-extended immediate. -/
  | maxZImm (g : Bool) (d a i : BitVec 7)
  /-- adds.i (R128): Signed saturating add of an immediate. -/
  | addsIImm (g : Bool) (d a i : BitVec 7)
  /-- subs.i (R128): Signed saturating subtract of an immediate. -/
  | subsIImm (g : Bool) (d a i : BitVec 7)
  /-- adds.z (R128): Unsigned saturating add of a sign-extended immediate. -/
  | addsZImm (g : Bool) (d a i : BitVec 7)
  /-- subs.z (R128): Unsigned saturating subtract of a sign-extended immediate. -/
  | subsZImm (g : Bool) (d a i : BitVec 7)
  /-- avg.z (R128): Unsigned rounded average with an immediate. -/
  | avgZImm (g : Bool) (d a i : BitVec 7)
  /-- sad.z (R128): Accumulates the absolute difference with an immediate into d. -/
  | sadZImm (g : Bool) (d a i : BitVec 7)
  /-- mul (R129): Low 32 bits of the product. -/
  | mul (g : Bool) (d a b : BitVec 7)
  /-- mulh.i (R129): High 32 bits of the signed product. -/
  | mulhI (g : Bool) (d a b : BitVec 7)
  /-- mulh.z (R129): High 32 bits of the unsigned product. -/
  | mulhZ (g : Bool) (d a b : BitVec 7)
  /-- mad (R129): Multiply-add into d, low 32 bits. -/
  | mad (g : Bool) (d a b : BitVec 7)
  /-- mulw.i (R129): Signed 64-bit product into a pair. -/
  | mulwI (g : Bool) (d : BitVec 6) (a b : BitVec 7)
  /-- mulw.z (R129): Unsigned 64-bit product into a pair. -/
  | mulwZ (g : Bool) (d : BitVec 6) (a b : BitVec 7)
  /-- madw.i (R129): Signed widening multiply-add into a pair. -/
  | madwI (g : Bool) (d : BitVec 6) (a b : BitVec 7)
  /-- madw.z (R129): Unsigned widening multiply-add into a pair. -/
  | madwZ (g : Bool) (d : BitVec 6) (a b : BitVec 7)
  /-- div.i (R129): Signed division truncating toward zero with defined results for zero and overflow. -/
  | divI (g : Bool) (d a b : BitVec 7)
  /-- div.z (R129): Unsigned division with a defined result for zero. -/
  | divZ (g : Bool) (d a b : BitVec 7)
  /-- rem.i (R129): Signed remainder. -/
  | remI (g : Bool) (d a b : BitVec 7)
  /-- rem.z (R129): Unsigned remainder. -/
  | remZ (g : Bool) (d a b : BitVec 7)
  /-- dp4.i8 (R129): Signed 4-byte dot product accumulated into d. -/
  | dp4I8 (g : Bool) (d a b : BitVec 7)
  /-- dp4.z8 (R129): Unsigned 4-byte dot product accumulated into d. -/
  | dp4Z8 (g : Bool) (d a b : BitVec 7)
  /-- and (R130): Bitwise and. -/
  | and (g : Bool) (d a b : BitVec 7)
  /-- or (R130): Bitwise or. -/
  | or (g : Bool) (d a b : BitVec 7)
  /-- xor (R130): Bitwise exclusive or. -/
  | xor (g : Bool) (d a b : BitVec 7)
  /-- andn (R130): a and not b. -/
  | andn (g : Bool) (d a b : BitVec 7)
  /-- orn (R130): a or not b. -/
  | orn (g : Bool) (d a b : BitVec 7)
  /-- not (R130): Bitwise complement. -/
  | not (g : Bool) (d a : BitVec 7)
  /-- popc (R130): Population count. -/
  | popc (g : Bool) (d a : BitVec 7)
  /-- clz (R130): Count leading zeros. -/
  | clz (g : Bool) (d a : BitVec 7)
  /-- ctz (R130): Count trailing zeros. -/
  | ctz (g : Bool) (d a : BitVec 7)
  /-- brev (R130): Bit reversal. -/
  | brev (g : Bool) (d a : BitVec 7)
  /-- bsel (R130): Bit select under the mask in d. -/
  | bsel (g : Bool) (d a b : BitVec 7)
  /-- prmt (R130): Byte permute of a and b under control bytes of d. -/
  | prmt (g : Bool) (d a b : BitVec 7)
  /-- shl (R131): Logical left shift by a register amount. -/
  | shl (g : Bool) (d a b : BitVec 7)
  /-- shr.z (R131): Logical right shift by a register amount. -/
  | shrZ (g : Bool) (d a b : BitVec 7)
  /-- shr.i (R131): Arithmetic right shift by a register amount. -/
  | shrI (g : Bool) (d a b : BitVec 7)
  /-- rol (R131): Rotate left. -/
  | rol (g : Bool) (d a b : BitVec 7)
  /-- ror (R131): Rotate right. -/
  | ror (g : Bool) (d a b : BitVec 7)
  /-- shlf (R131): Funnel shift left of a:d. -/
  | shlf (g : Bool) (d a b : BitVec 7)
  /-- shrf (R131): Funnel shift right of a:d. -/
  | shrf (g : Bool) (d a b : BitVec 7)
  /-- bfx.z (R131): Zero-extended bit-field extract. -/
  | bfxZ (g : Bool) (d a b : BitVec 7)
  /-- bfx.i (R131): Sign-extended bit-field extract. -/
  | bfxI (g : Bool) (d a b : BitVec 7)
  /-- bfi (R131): Bit-field insert into d. -/
  | bfi (g : Bool) (d a b : BitVec 7)
  /-- shl (R131): Logical left shift by an immediate. -/
  | shlImm (g : Bool) (d a i : BitVec 7)
  /-- shr.z (R131): Logical right shift by an immediate. -/
  | shrZImm (g : Bool) (d a i : BitVec 7)
  /-- shr.i (R131): Arithmetic right shift by an immediate. -/
  | shrIImm (g : Bool) (d a i : BitVec 7)
  /-- rol (R131): Rotate left by an immediate. -/
  | rolImm (g : Bool) (d a i : BitVec 7)
  /-- ror (R131): Rotate right by an immediate. -/
  | rorImm (g : Bool) (d a i : BitVec 7)
  /-- shlf (R131): Funnel shift left by an immediate. -/
  | shlfImm (g : Bool) (d a i : BitVec 7)
  /-- shrf (R131): Funnel shift right by an immediate. -/
  | shrfImm (g : Bool) (d a i : BitVec 7)
  /-- cmp.eq (R132): Compares for equality and combines into a predicate. -/
  | cmpEq (g : Bool) (c : BitVec 2) (p : BitVec 3) (a b : BitVec 7)
  /-- cmp.ne (R132): Compares for inequality into a predicate. -/
  | cmpNe (g : Bool) (c : BitVec 2) (p : BitVec 3) (a b : BitVec 7)
  /-- cmp.lt.i (R132): Signed less-than into a predicate. -/
  | cmpLtI (g : Bool) (c : BitVec 2) (p : BitVec 3) (a b : BitVec 7)
  /-- cmp.le.i (R132): Signed less-or-equal into a predicate. -/
  | cmpLeI (g : Bool) (c : BitVec 2) (p : BitVec 3) (a b : BitVec 7)
  /-- cmp.gt.i (R132): Signed greater-than into a predicate. -/
  | cmpGtI (g : Bool) (c : BitVec 2) (p : BitVec 3) (a b : BitVec 7)
  /-- cmp.ge.i (R132): Signed greater-or-equal into a predicate. -/
  | cmpGeI (g : Bool) (c : BitVec 2) (p : BitVec 3) (a b : BitVec 7)
  /-- cmp.lt.z (R132): Unsigned less-than into a predicate. -/
  | cmpLtZ (g : Bool) (c : BitVec 2) (p : BitVec 3) (a b : BitVec 7)
  /-- cmp.le.z (R132): Unsigned less-or-equal into a predicate. -/
  | cmpLeZ (g : Bool) (c : BitVec 2) (p : BitVec 3) (a b : BitVec 7)
  /-- cmp.gt.z (R132): Unsigned greater-than into a predicate. -/
  | cmpGtZ (g : Bool) (c : BitVec 2) (p : BitVec 3) (a b : BitVec 7)
  /-- cmp.ge.z (R132): Unsigned greater-or-equal into a predicate. -/
  | cmpGeZ (g : Bool) (c : BitVec 2) (p : BitVec 3) (a b : BitVec 7)
  /-- tst (R132): Tests a & b nonzero into a predicate. -/
  | tst (g : Bool) (c : BitVec 2) (p : BitVec 3) (a b : BitVec 7)
  /-- tstn (R132): Tests a & b zero into a predicate. -/
  | tstn (g : Bool) (c : BitVec 2) (p : BitVec 3) (a b : BitVec 7)
  /-- cmp.eq (R132): Equality with a sign-extended immediate into a predicate. -/
  | cmpEqImm (g : Bool) (c : BitVec 2) (p : BitVec 3) (a i : BitVec 7)
  /-- cmp.ne (R132): Inequality with an immediate into a predicate. -/
  | cmpNeImm (g : Bool) (c : BitVec 2) (p : BitVec 3) (a i : BitVec 7)
  /-- cmp.lt.i (R132): Signed less-than with an immediate. -/
  | cmpLtIImm (g : Bool) (c : BitVec 2) (p : BitVec 3) (a i : BitVec 7)
  /-- cmp.le.i (R132): Signed less-or-equal with an immediate. -/
  | cmpLeIImm (g : Bool) (c : BitVec 2) (p : BitVec 3) (a i : BitVec 7)
  /-- cmp.gt.i (R132): Signed greater-than with an immediate. -/
  | cmpGtIImm (g : Bool) (c : BitVec 2) (p : BitVec 3) (a i : BitVec 7)
  /-- cmp.ge.i (R132): Signed greater-or-equal with an immediate. -/
  | cmpGeIImm (g : Bool) (c : BitVec 2) (p : BitVec 3) (a i : BitVec 7)
  /-- cmp.lt.z (R132): Unsigned less-than with a sign-extended immediate. -/
  | cmpLtZImm (g : Bool) (c : BitVec 2) (p : BitVec 3) (a i : BitVec 7)
  /-- cmp.le.z (R132): Unsigned less-or-equal with an immediate. -/
  | cmpLeZImm (g : Bool) (c : BitVec 2) (p : BitVec 3) (a i : BitVec 7)
  /-- cmp.gt.z (R132): Unsigned greater-than with an immediate. -/
  | cmpGtZImm (g : Bool) (c : BitVec 2) (p : BitVec 3) (a i : BitVec 7)
  /-- cmp.ge.z (R132): Unsigned greater-or-equal with an immediate. -/
  | cmpGeZImm (g : Bool) (c : BitVec 2) (p : BitVec 3) (a i : BitVec 7)
  /-- tst (R132): Tests a & imm nonzero into a predicate. -/
  | tstImm (g : Bool) (c : BitVec 2) (p : BitVec 3) (a i : BitVec 7)
  /-- tstn (R132): Tests a & imm zero into a predicate. -/
  | tstnImm (g : Bool) (c : BitVec 2) (p : BitVec 3) (a i : BitVec 7)
  /-- add.64 (R133): 64-bit add of register pairs. -/
  | add64 (g : Bool) (d a b : BitVec 6)
  /-- sub.64 (R133): 64-bit subtract of register pairs. -/
  | sub64 (g : Bool) (d a b : BitVec 6)
  /-- mul.64 (R133): Low 64 bits of a 64-bit product. -/
  | mul64 (g : Bool) (d a b : BitVec 6)
  /-- shl.64 (R133): 64-bit left shift by a single-register amount. -/
  | shl64 (g : Bool) (d a : BitVec 6) (b : BitVec 7)
  /-- shr.z.64 (R133): 64-bit logical right shift. -/
  | shrZ64 (g : Bool) (d a : BitVec 6) (b : BitVec 7)
  /-- shr.i.64 (R133): 64-bit arithmetic right shift. -/
  | shrI64 (g : Bool) (d a : BitVec 6) (b : BitVec 7)
  /-- min.i.64 (R133): 64-bit signed minimum. -/
  | minI64 (g : Bool) (d a b : BitVec 6)
  /-- max.i.64 (R133): 64-bit signed maximum. -/
  | maxI64 (g : Bool) (d a b : BitVec 6)
  /-- min.z.64 (R133): 64-bit unsigned minimum. -/
  | minZ64 (g : Bool) (d a b : BitVec 6)
  /-- max.z.64 (R133): 64-bit unsigned maximum. -/
  | maxZ64 (g : Bool) (d a b : BitVec 6)
  /-- cmp.eq.64 (R133): 64-bit equality combined into a predicate. -/
  | cmpEq64 (g : Bool) (c : BitVec 2) (p : BitVec 3) (a b : BitVec 6)
  /-- cmp.lt.i.64 (R133): 64-bit signed less-than into a predicate. -/
  | cmpLtI64 (g : Bool) (c : BitVec 2) (p : BitVec 3) (a b : BitVec 6)
  /-- cmp.lt.z.64 (R133): 64-bit unsigned less-than into a predicate. -/
  | cmpLtZ64 (g : Bool) (c : BitVec 2) (p : BitVec 3) (a b : BitVec 6)
  /-- movi (R134): Writes a sign-extended 14-bit immediate. -/
  | movi (g : Bool) (d : BitVec 7) (i : BitVec 14)
  /-- movhi (R134): Writes a 14-bit immediate into bits 31:18, keeping d[17:0]. -/
  | movhi (g : Bool) (d : BitVec 7) (i : BitVec 14)
  /-- addi (R134): Adds a sign-extended 14-bit immediate to d. -/
  | addi (g : Bool) (d : BitVec 7) (i : BitVec 14)
  /-- li (R134): Writes a 32-bit immediate carried over two words. -/
  | li (g : Bool) (d : BitVec 7) (hi : BitVec 6) (lo : BitVec 26)
  /-- addi.32 (R134): Adds a 32-bit immediate. -/
  | addi32 (g : Bool) (d a : BitVec 7) (hi : BitVec 6) (lo : BitVec 26)
  /-- andi.32 (R134): Ands a 32-bit immediate. -/
  | andi32 (g : Bool) (d a : BitVec 7) (hi : BitVec 6) (lo : BitVec 26)
  /-- ori.32 (R134): Ors a 32-bit immediate. -/
  | ori32 (g : Bool) (d a : BitVec 7) (hi : BitVec 6) (lo : BitVec 26)
  /-- xori.32 (R134): Exclusive-ors a 32-bit immediate. -/
  | xori32 (g : Bool) (d a : BitVec 7) (hi : BitVec 6) (lo : BitVec 26)
  /-- mov (R135): Register copy per active lane. -/
  | mov (g : Bool) (d a : BitVec 7)
  /-- sel (R135): Selects a or b per lane by p0. -/
  | sel (g : Bool) (d a b : BitVec 7)
  /-- shfl.idx (R135): Shuffle from an indexed lane. -/
  | shflIdx (g : Bool) (d a b : BitVec 7)
  /-- shfl.up (R135): Shuffle from a lower lane. -/
  | shflUp (g : Bool) (d a b : BitVec 7)
  /-- shfl.dn (R135): Shuffle from a higher lane. -/
  | shflDn (g : Bool) (d a b : BitVec 7)
  /-- shfl.xor (R135): Butterfly shuffle by lane xor. -/
  | shflXor (g : Bool) (d a b : BitVec 7)
  /-- bcast (R135): Broadcasts one lane's value to every active lane. -/
  | bcast (g : Bool) (d a b : BitVec 7)
  /-- ballot (R135): Writes the mask of active lanes with a predicate set. -/
  | ballot (g : Bool) (d : BitVec 7) (a : BitVec 3)
  /-- match (R135): Writes the mask of active lanes with equal values. -/
  | matchLanes (g : Bool) (d a : BitVec 7)
  /-- lscan.add (R135): Inclusive prefix sum over active lanes. -/
  | lscanAdd (g : Bool) (d a : BitVec 7)
  /-- lred.add (R135): Integer sum over active lanes. -/
  | lredAdd (g : Bool) (d a : BitVec 7)
  /-- lred.min.i (R135): Signed minimum over active lanes. -/
  | lredMinI (g : Bool) (d a : BitVec 7)
  /-- lred.max.i (R135): Signed maximum over active lanes. -/
  | lredMaxI (g : Bool) (d a : BitVec 7)
  /-- lred.min.z (R135): Unsigned minimum over active lanes. -/
  | lredMinZ (g : Bool) (d a : BitVec 7)
  /-- lred.max.z (R135): Unsigned maximum over active lanes. -/
  | lredMaxZ (g : Bool) (d a : BitVec 7)
  /-- lred.add.f32 (R136): FP32 sum over active lanes in ascending lane order under RNE. -/
  | lredAddF32 (g : Bool) (d a : BitVec 7)
  /-- pand (R137): Predicate and. -/
  | pand (g : Bool) (d a b : BitVec 3)
  /-- por (R137): Predicate or. -/
  | por (g : Bool) (d a b : BitVec 3)
  /-- pxor (R137): Predicate exclusive or. -/
  | pxor (g : Bool) (d a b : BitVec 3)
  /-- pnot (R137): Predicate complement. -/
  | pnot (g : Bool) (d a : BitVec 3)
  /-- pmov (R137): Predicate copy. -/
  | pmov (g : Bool) (d a : BitVec 3)
  /-- p2v (R137): Predicate bit to vector 0 or 1. -/
  | p2v (g : Bool) (d : BitVec 7) (a : BitVec 3)
  /-- v2p (R137): Vector nonzero test to predicate. -/
  | v2p (g : Bool) (d : BitVec 3) (a : BitVec 7)
  /-- pany (R137): Or of a predicate over active lanes. -/
  | pany (g : Bool) (d a : BitVec 3)
  /-- pall (R137): And of a predicate over active lanes. -/
  | pall (g : Bool) (d a : BitVec 3)
  /-- lea (R138): 64-bit address = pair + (sext(b) << shift), shift from FN. -/
  | lea (g : Bool) (s : BitVec 3) (d a : BitVec 6) (b : BitVec 7)
  /-- tagq (R139): Reads a register's runtime tag as a hint. -/
  | tagq (g : Bool) (d a : BitVec 7)
  /-- srd (R140): Reads a special register, sampling the time latch for low halves. -/
  | srd (g : Bool) (d : BitVec 7) (i : BitVec 14)
  /-- swr (R140): Writes a special register from the lowest active lane with value checks. -/
  | swr (g : Bool) (d : BitVec 7) (i : BitVec 14)
  /-- fadd (R147): FP32 add under RNE. -/
  | fadd (g : Bool) (d a b : BitVec 7)
  /-- fsub (R147): FP32 subtract under RNE. -/
  | fsub (g : Bool) (d a b : BitVec 7)
  /-- fmul (R147): FP32 multiply under RNE. -/
  | fmul (g : Bool) (d a b : BitVec 7)
  /-- fma (R147): Fused multiply-add with one rounding. -/
  | fma (g : Bool) (d a b : BitVec 7)
  /-- fms (R147): Fused multiply-subtract. -/
  | fms (g : Bool) (d a b : BitVec 7)
  /-- fnma (R147): Fused d − a × b. -/
  | fnma (g : Bool) (d a b : BitVec 7)
  /-- fmin (R147): IEEE minimum. -/
  | fmin (g : Bool) (d a b : BitVec 7)
  /-- fmax (R147): IEEE maximum. -/
  | fmax (g : Bool) (d a b : BitVec 7)
  /-- fminn (R147): minimumNumber. -/
  | fminn (g : Bool) (d a b : BitVec 7)
  /-- fmaxn (R147): maximumNumber. -/
  | fmaxn (g : Bool) (d a b : BitVec 7)
  /-- fabs (R148): Clears the sign bit. -/
  | fabs (g : Bool) (d a : BitVec 7)
  /-- fneg (R148): Flips the sign bit. -/
  | fneg (g : Bool) (d a : BitVec 7)
  /-- fcpsgn (R148): Copies b's sign onto a. -/
  | fcpsgn (g : Bool) (d a b : BitVec 7)
  /-- frint (R149): Rounds to an integral FP32 value under a rounding code. -/
  | frint (g : Bool) (d a : BitVec 7) (m : BitVec 3)
  /-- ffrac (R147): Exact fractional part. -/
  | ffrac (g : Bool) (d a : BitVec 7)
  /-- fsat (R147): Clamps to [+0, 1.0]. -/
  | fsat (g : Bool) (d a : BitVec 7)
  /-- fcmp.eq (R150): Ordered equal into a predicate. -/
  | fcmpEq (g : Bool) (c : BitVec 2) (p : BitVec 3) (a b : BitVec 7)
  /-- fcmp.ne (R150): Unordered or not equal into a predicate. -/
  | fcmpNe (g : Bool) (c : BitVec 2) (p : BitVec 3) (a b : BitVec 7)
  /-- fcmp.lt (R150): Ordered less-than into a predicate. -/
  | fcmpLt (g : Bool) (c : BitVec 2) (p : BitVec 3) (a b : BitVec 7)
  /-- fcmp.le (R150): Ordered less-or-equal into a predicate. -/
  | fcmpLe (g : Bool) (c : BitVec 2) (p : BitVec 3) (a b : BitVec 7)
  /-- fcmp.gt (R150): Ordered greater-than into a predicate. -/
  | fcmpGt (g : Bool) (c : BitVec 2) (p : BitVec 3) (a b : BitVec 7)
  /-- fcmp.ge (R150): Ordered greater-or-equal into a predicate. -/
  | fcmpGe (g : Bool) (c : BitVec 2) (p : BitVec 3) (a b : BitVec 7)
  /-- fcmp.un (R150): Either operand NaN into a predicate. -/
  | fcmpUn (g : Bool) (c : BitVec 2) (p : BitVec 3) (a b : BitVec 7)
  /-- fcmp.or (R150): Neither operand NaN into a predicate. -/
  | fcmpOr (g : Bool) (c : BitVec 2) (p : BitVec 3) (a b : BitVec 7)
  /-- fclass (R151): One-hot class mask of an FP32 encoding. -/
  | fclass (g : Bool) (d a : BitVec 7)
  /-- rcp (R152): Correctly rounded reciprocal. -/
  | rcp (g : Bool) (d a : BitVec 7)
  /-- rsqrt (R152): Correctly rounded reciprocal square root. -/
  | rsqrt (g : Bool) (d a : BitVec 7)
  /-- sqrt (R152): Correctly rounded square root. -/
  | sqrt (g : Bool) (d a : BitVec 7)
  /-- exp2 (R152): Correctly rounded 2^a. -/
  | exp2 (g : Bool) (d a : BitVec 7)
  /-- log2 (R152): Correctly rounded log2 a. -/
  | log2 (g : Bool) (d a : BitVec 7)
  /-- sinpi (R152): Correctly rounded sin(πa). -/
  | sinpi (g : Bool) (d a : BitVec 7)
  /-- cospi (R152): Correctly rounded cos(πa). -/
  | cospi (g : Bool) (d a : BitVec 7)
  /-- tanh (R152): Correctly rounded tanh. -/
  | tanh (g : Bool) (d a : BitVec 7)
  /-- sigm (R152): Correctly rounded logistic sigmoid. -/
  | sigm (g : Bool) (d a : BitVec 7)
  /-- hadd2.f16 (R153): Packed FP16 pair add. -/
  | hadd2F16 (g : Bool) (d a b : BitVec 7)
  /-- hsub2.f16 (R153): Packed FP16 pair subtract. -/
  | hsub2F16 (g : Bool) (d a b : BitVec 7)
  /-- hmul2.f16 (R153): Packed FP16 pair multiply. -/
  | hmul2F16 (g : Bool) (d a b : BitVec 7)
  /-- hfma2.f16 (R153): Packed FP16 pair fused multiply-add. -/
  | hfma2F16 (g : Bool) (d a b : BitVec 7)
  /-- hmin2.f16 (R153): Packed FP16 pair minimum. -/
  | hmin2F16 (g : Bool) (d a b : BitVec 7)
  /-- hmax2.f16 (R153): Packed FP16 pair maximum. -/
  | hmax2F16 (g : Bool) (d a b : BitVec 7)
  /-- hadd2.bf16 (R153): Packed BF16 pair add. -/
  | hadd2Bf16 (g : Bool) (d a b : BitVec 7)
  /-- hsub2.bf16 (R153): Packed BF16 pair subtract. -/
  | hsub2Bf16 (g : Bool) (d a b : BitVec 7)
  /-- hmul2.bf16 (R153): Packed BF16 pair multiply. -/
  | hmul2Bf16 (g : Bool) (d a b : BitVec 7)
  /-- hfma2.bf16 (R153): Packed BF16 pair fused multiply-add. -/
  | hfma2Bf16 (g : Bool) (d a b : BitVec 7)
  /-- hmin2.bf16 (R153): Packed BF16 pair minimum. -/
  | hmin2Bf16 (g : Bool) (d a b : BitVec 7)
  /-- hmax2.bf16 (R153): Packed BF16 pair maximum. -/
  | hmax2Bf16 (g : Bool) (d a b : BitVec 7)
  /-- cvt (R155): Converts one element per lane between element formats under a rounding code. -/
  | cvt (g : Bool) (s : BitVec 4) (d a : BitVec 7) (e : BitVec 4) (m : BitVec 3)
  /-- fmt.set (R168): Writes one field of the fragment's FMT from an immediate. -/
  | fmtSet (g : Bool) (s : BitVec 3) (v : BitVec 7)
  /-- fmt.get (R168): Reads one field of the fragment's FMT into every active lane. -/
  | fmtGet (g : Bool) (d : BitVec 7) (s : BitVec 3)
  /-- sbexp (R170): Folds a 16×16 region into a square-block exponent. -/
  | sbexp (g : Bool) (d : BitVec 7) (a : BitVec 3)
  /-- sbq (R172): Encodes a region into a packed square block. -/
  | sbq (g : Bool) (d : BitVec 7) (a : BitVec 3) (w : BitVec 2) (b : BitVec 7)
  /-- sbdq (R173): Decodes a packed square block into a region. -/
  | sbdq (g : Bool) (d : BitVec 3) (w : BitVec 2) (a b : BitVec 7)
  /-- mxexp (R175): Computes the E8M0 shared exponent of a 32-element MX block. -/
  | mxexp (g : Bool) (d : BitVec 7) (a : BitVec 6) (e : BitVec 4)
  /-- mxq (R176): Quantises an MX block into packed elements. -/
  | mxq (g : Bool) (d : BitVec 7) (a : BitVec 6) (b : BitVec 7)
  /-- mxdq (R176): Dequantises a packed MX block to FP32. -/
  | mxdq (g : Bool) (d : BitVec 6) (a b : BitVec 7)
  /-- pack (R177): Packs narrow elements of k registers into one. -/
  | pack (g : Bool) (d a : BitVec 7) (e : BitVec 4)
  /-- unpack (R177): Unpacks narrow elements of one register into k. -/
  | unpack (g : Bool) (d a : BitVec 7) (e : BitVec 4)
  /-- uexp (R171): Computes quad micro-exponent bits of a region under E. -/
  | uexp (g : Bool) (d : BitVec 7) (a : BitVec 3) (w : BitVec 2)
  /-- tshape (R184): Sets a tile's shape fields and SHAPED, clearing EMASK. -/
  | tshape (g : Bool) (d : BitVec 6) (a : BitVec 7)
  /-- tzero (R184): Zeroes a tile's data and scale area and clears EMASK. -/
  | tzero (g : Bool) (d : BitVec 6)
  /-- tinfo (R184): Reads a tile control word without waiting. -/
  | tinfo (g : Bool) (d a : BitVec 6)
  /-- tfill (R184): Fills a tile's data with a 32-bit pattern. -/
  | tfill (g : Bool) (d : BitVec 6) (a : BitVec 7)
  /-- tfree (R184): Clears a tile's control word, data and side store. -/
  | tfree (g : Bool) (d : BitVec 6)
  /-- tmask (R184): Loads a tile's element mask from a register and sets EMASK. -/
  | tmask (g : Bool) (d : BitVec 6) (a : BitVec 7)
  /-- tmask.clr (R184): Clears a tile's EMASK. -/
  | tmaskClr (g : Bool) (d : BitVec 6)
  /-- mma (R191): Float-class matrix operation accumulating into D. -/
  | mma (g : Bool) (d : BitVec 6) (x : BitVec 1) (a : BitVec 6) (y : BitVec 1) (b : BitVec 6)
  /-- mma.z (R191): Float-class matrix operation starting from zero. -/
  | mmaZ (g : Bool) (d : BitVec 6) (x : BitVec 1) (a : BitVec 6) (y : BitVec 1) (b : BitVec 6)
  /-- mmi (R193): Integer-class matrix operation accumulating into D. -/
  | mmi (g : Bool) (d : BitVec 6) (x : BitVec 1) (a : BitVec 6) (y : BitVec 1) (b : BitVec 6)
  /-- mmi.z (R193): Integer-class matrix operation starting from zero. -/
  | mmiZ (g : Bool) (d : BitVec 6) (x : BitVec 1) (a : BitVec 6) (y : BitVec 1) (b : BitVec 6)
  /-- mmas (R195): Sparse 2:4 float-class matrix operation accumulating into D. -/
  | mmas (g : Bool) (d : BitVec 6) (x : BitVec 1) (a : BitVec 6) (y : BitVec 1) (b : BitVec 6) (pat : BitVec 1) (mt : BitVec 6)
  /-- mmas.z (R195): Sparse float-class matrix operation starting from zero. -/
  | mmasZ (g : Bool) (d : BitVec 6) (x : BitVec 1) (a : BitVec 6) (y : BitVec 1) (b : BitVec 6) (pat : BitVec 1) (mt : BitVec 6)
  /-- mmis (R195): Sparse integer-class matrix operation accumulating into D. -/
  | mmis (g : Bool) (d : BitVec 6) (x : BitVec 1) (a : BitVec 6) (y : BitVec 1) (b : BitVec 6) (pat : BitVec 1) (mt : BitVec 6)
  /-- mmis.z (R195): Sparse integer-class matrix operation starting from zero. -/
  | mmisZ (g : Bool) (d : BitVec 6) (x : BitVec 1) (a : BitVec 6) (y : BitVec 1) (b : BitVec 6) (pat : BitVec 1) (mt : BitVec 6)
  /-- trow (R185): Reads a tile row into registers. -/
  | trow (g : Bool) (d : BitVec 7) (a : BitVec 6) (b : BitVec 7)
  /-- twrow (R185): Writes a tile row from registers. -/
  | twrow (g : Bool) (d : BitVec 6) (a b : BitVec 7)
  /-- tcol (R185): Reads a tile column into registers. -/
  | tcol (g : Bool) (d : BitVec 7) (a : BitVec 6) (b : BitVec 7)
  /-- twcol (R185): Writes a tile column from registers. -/
  | twcol (g : Bool) (d : BitVec 6) (a b : BitVec 7)
  /-- tlds (R188): Loads a tile from scratchpad, all-or-nothing, completing asynchronously. -/
  | tlds (g : Bool) (d : BitVec 6) (a b : BitVec 7)
  /-- tsts (R188): Stores a tile to scratchpad. -/
  | tsts (g : Bool) (d : BitVec 6) (a b : BitVec 7)
  /-- tldg (R188): Loads a tile from global memory. -/
  | tldg (g : Bool) (d a : BitVec 6) (b : BitVec 7)
  /-- tstg (R188): Stores a tile to global memory. -/
  | tstg (g : Bool) (d a : BitVec 6) (b : BitVec 7)
  /-- mbclose (R198): Closes the group's open matrix operations into the next batch. -/
  | mbclose (g : Bool) (d : BitVec 7)
  /-- mbstat (R198): Writes the group's batch status word. -/
  | mbstat (g : Bool) (d : BitVec 7)
  /-- ld.i8 (R211): Global signed byte load. -/
  | ldI8 (g : Bool) (d : BitVec 7) (a : BitVec 6) (o : BitVec 7)
  /-- ld.z8 (R211): Global unsigned byte load. -/
  | ldZ8 (g : Bool) (d : BitVec 7) (a : BitVec 6) (o : BitVec 7)
  /-- ld.i16 (R211): Global signed halfword load. -/
  | ldI16 (g : Bool) (d : BitVec 7) (a : BitVec 6) (o : BitVec 7)
  /-- ld.z16 (R211): Global unsigned halfword load. -/
  | ldZ16 (g : Bool) (d : BitVec 7) (a : BitVec 6) (o : BitVec 7)
  /-- ld.32 (R211): Global word load with partial completion on faults. -/
  | ld32 (g : Bool) (d : BitVec 7) (a : BitVec 6) (o : BitVec 7)
  /-- ld.64 (R211): Global 64-bit load into a pair. -/
  | ld64 (g : Bool) (d a : BitVec 6) (o : BitVec 7)
  /-- ld.128 (R211): Global 128-bit load into a quad. -/
  | ld128 (g : Bool) (d : BitVec 5) (a : BitVec 6) (o : BitVec 7)
  /-- ld.b (R213): One global word load broadcast to every active lane. -/
  | ldB (g : Bool) (d : BitVec 7) (a : BitVec 6) (o : BitVec 7)
  /-- st.8 (R211): Global byte store. -/
  | st8 (g : Bool) (d : BitVec 7) (a : BitVec 6) (o : BitVec 7)
  /-- st.16 (R211): Global halfword store. -/
  | st16 (g : Bool) (d : BitVec 7) (a : BitVec 6) (o : BitVec 7)
  /-- st.32 (R211): Global word store. -/
  | st32 (g : Bool) (d : BitVec 7) (a : BitVec 6) (o : BitVec 7)
  /-- st.64 (R211): Global 64-bit store from a pair. -/
  | st64 (g : Bool) (d a : BitVec 6) (o : BitVec 7)
  /-- st.128 (R211): Global 128-bit store from a quad. -/
  | st128 (g : Bool) (d : BitVec 5) (a : BitVec 6) (o : BitVec 7)
  /-- st.n4 (R212): Global 4-bit element store at an element address. -/
  | stN4 (g : Bool) (d : BitVec 7) (a : BitVec 6) (o : BitVec 7)
  /-- st.n2 (R212): Global 2-bit element store at an element address. -/
  | stN2 (g : Bool) (d : BitVec 7) (a : BitVec 6) (o : BitVec 7)
  /-- lds.i8 (R211): Scratchpad signed byte load. -/
  | ldsI8 (g : Bool) (d a o : BitVec 7)
  /-- lds.z8 (R211): Scratchpad unsigned byte load. -/
  | ldsZ8 (g : Bool) (d a o : BitVec 7)
  /-- lds.i16 (R211): Scratchpad signed halfword load. -/
  | ldsI16 (g : Bool) (d a o : BitVec 7)
  /-- lds.z16 (R211): Scratchpad unsigned halfword load. -/
  | ldsZ16 (g : Bool) (d a o : BitVec 7)
  /-- lds.32 (R211): Scratchpad word load. -/
  | lds32 (g : Bool) (d a o : BitVec 7)
  /-- lds.64 (R211): Scratchpad 64-bit load. -/
  | lds64 (g : Bool) (d : BitVec 6) (a o : BitVec 7)
  /-- lds.128 (R211): Scratchpad 128-bit load. -/
  | lds128 (g : Bool) (d : BitVec 5) (a o : BitVec 7)
  /-- lds.b (R213): One scratchpad word load broadcast to every active lane. -/
  | ldsB (g : Bool) (d a o : BitVec 7)
  /-- sts.8 (R211): Scratchpad byte store. -/
  | sts8 (g : Bool) (d a o : BitVec 7)
  /-- sts.16 (R211): Scratchpad halfword store. -/
  | sts16 (g : Bool) (d a o : BitVec 7)
  /-- sts.32 (R211): Scratchpad word store. -/
  | sts32 (g : Bool) (d a o : BitVec 7)
  /-- sts.64 (R211): Scratchpad 64-bit store. -/
  | sts64 (g : Bool) (d : BitVec 6) (a o : BitVec 7)
  /-- sts.128 (R211): Scratchpad 128-bit store. -/
  | sts128 (g : Bool) (d : BitVec 5) (a o : BitVec 7)
  /-- sts.n4 (R212): Scratchpad 4-bit element store. -/
  | stsN4 (g : Bool) (d a o : BitVec 7)
  /-- sts.n2 (R212): Scratchpad 2-bit element store. -/
  | stsN2 (g : Bool) (d a o : BitVec 7)
  /-- ldx (R218): Global load with 24-bit offset, cache policy and L2 class. -/
  | ldx (g : Bool) (d : BitVec 7) (a : BitVec 6) (l c : BitVec 2) (z : BitVec 3) (o : BitVec 24)
  /-- stx (R218): Global store with 24-bit offset, cache policy and L2 class. -/
  | stx (g : Bool) (d : BitVec 7) (a : BitVec 6) (l c : BitVec 2) (z : BitVec 3) (o : BitVec 24)
  /-- ldsx (R218): Scratchpad load with 24-bit offset. -/
  | ldsx (g : Bool) (d a : BitVec 7) (z : BitVec 3) (o : BitVec 24)
  /-- stsx (R218): Scratchpad store with 24-bit offset. -/
  | stsx (g : Bool) (d a : BitVec 7) (z : BitVec 3) (o : BitVec 24)
  /-- ld.acq.32 (R243): All-or-nothing 32-bit acquire load at a scope. -/
  | ldAcq32 (g : Bool) (d : BitVec 7) (a : BitVec 6) (s : BitVec 2)
  /-- ld.acq.64 (R243): All-or-nothing 64-bit acquire load at a scope. -/
  | ldAcq64 (g : Bool) (d a : BitVec 6) (s : BitVec 2)
  /-- st.rel.32 (R244): All-or-nothing 32-bit release store at a scope. -/
  | stRel32 (g : Bool) (d : BitVec 7) (a : BitVec 6) (s : BitVec 2)
  /-- st.rel.64 (R244): All-or-nothing 64-bit release store at a scope. -/
  | stRel64 (g : Bool) (d a : BitVec 6) (s : BitVec 2)
  /-- fence.acq (R245): Acquire fence ordering earlier loads and atomics before later accesses. -/
  | fenceAcq (g : Bool) (s : BitVec 2)
  /-- fence.rel (R245): Release fence, ticking the clock and capturing K. -/
  | fenceRel (g : Bool) (s : BitVec 2)
  /-- fence.ar (R245): Acquire-release fence. -/
  | fenceAr (g : Bool) (s : BitVec 2)
  /-- fence.sc (R245): Sequentially consistent fence. -/
  | fenceSc (g : Bool) (s : BitVec 2)
  /-- pf (R219): Prefetches lines into L1 and L2, never faulting. -/
  | pf (g : Bool) (a : BitVec 6) (o : BitVec 7)
  /-- pf2 (R219): Prefetches lines into L2 only. -/
  | pf2 (g : Bool) (a : BitVec 6) (o : BitVec 7)
  /-- icinv (R220): Invalidates instruction-cache copies of lines in the cores of a scope. -/
  | icinv (g : Bool) (a : BitVec 6) (s : BitVec 2)
  /-- l1inv (R221): Drops the lines of active lanes' addresses from the core's L1. -/
  | l1inv (g : Bool) (a : BitVec 6)
  /-- l1inv.all (R221): Drops every line of the core's L1. -/
  | l1invAll (g : Bool)
  /-- evict (R221): Drops a line from L1 and marks it evict-first at its home slice. -/
  | evict (g : Bool) (a : BitVec 6)
  /-- l2part (R222): Privileged write of the context's L2 way mask, returning the old mask. -/
  | l2part (g : Bool) (d a : BitVec 7)
  /-- wpath (R224): Waits until a path counter is at or below a threshold. -/
  | wpath (g : Bool) (a : BitVec 7) (p : BitVec 2)
  /-- wbatch (R225): Waits until a matrix batch completes. -/
  | wbatch (g : Bool) (a : BitVec 7)
  /-- wfut (R226): Waits for a future to leave PENDING and consumes it. -/
  | wfut (g : Bool) (d : BitVec 7) (k : BitVec 5)
  /-- wany (R227): Waits for any named future and consumes the lowest ready one. -/
  | wany (g : Bool) (d a : BitVec 7)
  /-- fpoll (R226): Polls a future without waiting. -/
  | fpoll (g : Bool) (d : BitVec 7) (k : BitVec 5)
  /-- wtree (R228): Waits until a subtree has ended and returns its status. -/
  | wtree (g : Bool) (d a : BitVec 7)
  /-- rclk (R259): Reads the group's knowledge vector, one slot per lane. -/
  | rclk (g : Bool) (d : BitVec 7)
  /-- rtick (R260): Advances the group's logical clock. -/
  | rtick (g : Bool)
  /-- rmode (R261): Sets the group's race mode if granted. -/
  | rmode (g : Bool) (m : BitVec 2)
  /-- rnext (R262): Consumes the oldest race record of the context's race ring. -/
  | rnext (g : Bool) (d : BitVec 7)
  /-- rclr (R263): Resets race metadata for a byte range. -/
  | rclr (g : Bool) (a : BitVec 6) (b : BitVec 7)
  /-- aadd (R269): Returning 32-bit integer atomic add. -/
  | aadd (g : Bool) (d : BitVec 7) (a : BitVec 6) (o s : BitVec 2)
  /-- aadd.f32 (R269): Returning FP32 atomic add. -/
  | aaddF32 (g : Bool) (d : BitVec 7) (a : BitVec 6) (o s : BitVec 2)
  /-- aadd.bf16x2 (R269): Returning packed BF16 pair atomic add. -/
  | aaddBf16x2 (g : Bool) (d : BitVec 7) (a : BitVec 6) (o s : BitVec 2)
  /-- aadd.f16x2 (R269): Returning packed FP16 pair atomic add. -/
  | aaddF16x2 (g : Bool) (d : BitVec 7) (a : BitVec 6) (o s : BitVec 2)
  /-- amin.i (R269): Returning signed atomic minimum. -/
  | aminI (g : Bool) (d : BitVec 7) (a : BitVec 6) (o s : BitVec 2)
  /-- amax.i (R269): Returning signed atomic maximum. -/
  | amaxI (g : Bool) (d : BitVec 7) (a : BitVec 6) (o s : BitVec 2)
  /-- amin.z (R269): Returning unsigned atomic minimum. -/
  | aminZ (g : Bool) (d : BitVec 7) (a : BitVec 6) (o s : BitVec 2)
  /-- amax.z (R269): Returning unsigned atomic maximum. -/
  | amaxZ (g : Bool) (d : BitVec 7) (a : BitVec 6) (o s : BitVec 2)
  /-- aand (R269): Returning atomic and. -/
  | aand (g : Bool) (d : BitVec 7) (a : BitVec 6) (o s : BitVec 2)
  /-- aor (R269): Returning atomic or. -/
  | aor (g : Bool) (d : BitVec 7) (a : BitVec 6) (o s : BitVec 2)
  /-- axor (R269): Returning atomic exclusive or. -/
  | axor (g : Bool) (d : BitVec 7) (a : BitVec 6) (o s : BitVec 2)
  /-- axch (R269): Returning atomic exchange. -/
  | axch (g : Bool) (d : BitVec 7) (a : BitVec 6) (o s : BitVec 2)
  /-- ainc (R269): Returning bounded atomic increment. -/
  | ainc (g : Bool) (d : BitVec 7) (a : BitVec 6) (o s : BitVec 2)
  /-- adec (R269): Returning bounded atomic decrement. -/
  | adec (g : Bool) (d : BitVec 7) (a : BitVec 6) (o s : BitVec 2)
  /-- amin.f32 (R269): Returning FP32 atomic minimumNumber. -/
  | aminF32 (g : Bool) (d : BitVec 7) (a : BitVec 6) (o s : BitVec 2)
  /-- amax.f32 (R269): Returning FP32 atomic maximumNumber. -/
  | amaxF32 (g : Bool) (d : BitVec 7) (a : BitVec 6) (o s : BitVec 2)
  /-- aadd.64 (R270): Returning 64-bit atomic add on global or scratchpad. -/
  | aadd64 (g : Bool) (d : BitVec 6) (a : BitVec 7) (o s : BitVec 2) (p : BitVec 1)
  /-- amin.i.64 (R270): Returning 64-bit signed atomic minimum. -/
  | aminI64 (g : Bool) (d : BitVec 6) (a : BitVec 7) (o s : BitVec 2) (p : BitVec 1)
  /-- amax.i.64 (R270): Returning 64-bit signed atomic maximum. -/
  | amaxI64 (g : Bool) (d : BitVec 6) (a : BitVec 7) (o s : BitVec 2) (p : BitVec 1)
  /-- amin.z.64 (R270): Returning 64-bit unsigned atomic minimum. -/
  | aminZ64 (g : Bool) (d : BitVec 6) (a : BitVec 7) (o s : BitVec 2) (p : BitVec 1)
  /-- amax.z.64 (R270): Returning 64-bit unsigned atomic maximum. -/
  | amaxZ64 (g : Bool) (d : BitVec 6) (a : BitVec 7) (o s : BitVec 2) (p : BitVec 1)
  /-- axch.64 (R270): Returning 64-bit atomic exchange. -/
  | axch64 (g : Bool) (d : BitVec 6) (a : BitVec 7) (o s : BitVec 2) (p : BitVec 1)
  /-- acas (R270): 32-bit compare-and-swap returning the old value. -/
  | acas (g : Bool) (d a : BitVec 7) (o s : BitVec 2) (p : BitVec 1) (c : BitVec 7)
  /-- acas.64 (R270): 64-bit compare-and-swap. -/
  | acas64 (g : Bool) (d : BitVec 6) (a : BitVec 7) (o s : BitVec 2) (p : BitVec 1) (c : BitVec 6)
  /-- acas.128 (R270): 128-bit compare-and-swap. -/
  | acas128 (g : Bool) (d : BitVec 5) (a : BitVec 7) (o s : BitVec 2) (p : BitVec 1) (c : BitVec 5)
  /-- amaxp (R270): 128-bit key-payload maximum, storing the payload only with a strictly greater key. -/
  | amaxp (g : Bool) (d : BitVec 5) (a : BitVec 7) (o s : BitVec 2) (p : BitVec 1)
  /-- red.add (R271): Fire-and-forget 32-bit integer add reduction. -/
  | redAdd (g : Bool) (d : BitVec 7) (a : BitVec 6) (o : BitVec 1) (s : BitVec 2)
  /-- red.add.f32 (R271): Fire-and-forget FP32 add reduction. -/
  | redAddF32 (g : Bool) (d : BitVec 7) (a : BitVec 6) (o : BitVec 1) (s : BitVec 2)
  /-- red.add.bf16x2 (R272): Packed BF16 pair add reduction, each half atomic on its own. -/
  | redAddBf16x2 (g : Bool) (d : BitVec 7) (a : BitVec 6) (o : BitVec 1) (s : BitVec 2)
  /-- red.add.f16x2 (R272): Packed FP16 pair add reduction. -/
  | redAddF16x2 (g : Bool) (d : BitVec 7) (a : BitVec 6) (o : BitVec 1) (s : BitVec 2)
  /-- red.min.i (R271): Signed minimum reduction. -/
  | redMinI (g : Bool) (d : BitVec 7) (a : BitVec 6) (o : BitVec 1) (s : BitVec 2)
  /-- red.max.i (R271): Signed maximum reduction. -/
  | redMaxI (g : Bool) (d : BitVec 7) (a : BitVec 6) (o : BitVec 1) (s : BitVec 2)
  /-- red.min.z (R271): Unsigned minimum reduction. -/
  | redMinZ (g : Bool) (d : BitVec 7) (a : BitVec 6) (o : BitVec 1) (s : BitVec 2)
  /-- red.max.z (R271): Unsigned maximum reduction. -/
  | redMaxZ (g : Bool) (d : BitVec 7) (a : BitVec 6) (o : BitVec 1) (s : BitVec 2)
  /-- red.and (R271): And reduction. -/
  | redAnd (g : Bool) (d : BitVec 7) (a : BitVec 6) (o : BitVec 1) (s : BitVec 2)
  /-- red.or (R271): Or reduction. -/
  | redOr (g : Bool) (d : BitVec 7) (a : BitVec 6) (o : BitVec 1) (s : BitVec 2)
  /-- red.xor (R271): Exclusive-or reduction. -/
  | redXor (g : Bool) (d : BitVec 7) (a : BitVec 6) (o : BitVec 1) (s : BitVec 2)
  /-- red.add.64 (R271): 64-bit integer add reduction. -/
  | redAdd64 (g : Bool) (d a : BitVec 6) (o : BitVec 1) (s : BitVec 2)
  /-- red.min.f32 (R271): FP32 minimumNumber reduction. -/
  | redMinF32 (g : Bool) (d : BitVec 7) (a : BitVec 6) (o : BitVec 1) (s : BitVec 2)
  /-- red.max.f32 (R271): FP32 maximumNumber reduction. -/
  | redMaxF32 (g : Bool) (d : BitVec 7) (a : BitVec 6) (o : BitVec 1) (s : BitVec 2)
  /-- vconf (R274): Writes the mask of lower lanes with equal keys and sets p0 on class leaders. -/
  | vconf (g : Bool) (d a : BitVec 7) (w : BitVec 1)
  /-- vconfl (R274): Writes the mask of higher lanes with equal keys and sets p0 on the last of each class. -/
  | vconfl (g : Bool) (d a : BitVec 7) (w : BitVec 1)
  /-- vuniq (R274): Counts the classes of equal keys. -/
  | vuniq (g : Bool) (d a : BitVec 7) (w : BitVec 1)
  /-- scomb.f32 (R275): Folds each class of equal addresses onto its leader with FP32 adds in lane order. -/
  | scombF32 (g : Bool) (d : BitVec 7) (a : BitVec 6)
  /-- scomb.i32 (R275): Folds each class with integer adds. -/
  | scombI32 (g : Bool) (d : BitVec 7) (a : BitVec 6)
  /-- scomb.bf16x2 (R275): Folds each class with per-half BF16 adds. -/
  | scombBf16x2 (g : Bool) (d : BitVec 7) (a : BitVec 6)
  /-- bar.arr (R277): Arrives n times at a scratchpad barrier word and returns its generation. -/
  | barArr (g : Bool) (d a b : BitVec 7)
  /-- bar.wait (R278): Waits until the barrier's generation differs from the operand. -/
  | barWait (g : Bool) (a b : BitVec 7)
  /-- bar.sync (R277): Arrives once and waits for the phase to complete. -/
  | barSync (g : Bool) (a : BitVec 7)
  /-- bar.init (R277): Initialises a barrier word with an expected count. -/
  | barInit (g : Bool) (a b : BitVec 7)
  /-- bar.arrx (R277): Arrives once announcing engine credit in 16-byte units. -/
  | barArrx (g : Bool) (d a b : BitVec 7)
  /-- cbar.init (R279): Initialises a barrier word of the block's cbar set. -/
  | cbarInit (g : Bool) (d a : BitVec 7)
  /-- cbar.arr (R279): Arrives at a cbar word and returns its generation. -/
  | cbarArr (g : Bool) (d a : BitVec 7)
  /-- cbar.wait (R279): Waits on a cbar word's generation. -/
  | cbarWait (g : Bool) (d a : BitVec 7)
  /-- cbar.sync (R279): Arrives at a cbar word and waits for the phase. -/
  | cbarSync (g : Bool) (a : BitVec 7)
  /-- waddr.eq (R281): Waits until a masked memory word equals a value. -/
  | waddrEq (g : Bool) (d a : BitVec 6) (s : BitVec 2)
  /-- waddr.ne (R281): Waits until a masked memory word differs from a value. -/
  | waddrNe (g : Bool) (d a : BitVec 6) (s : BitVec 2)
  /-- waddr.lt (R281): Waits until a masked memory word is below a value. -/
  | waddrLt (g : Bool) (d a : BitVec 6) (s : BitVec 2)
  /-- waddr.ge (R281): Waits until a masked memory word is at or above a value. -/
  | waddrGe (g : Bool) (d a : BitVec 6) (s : BitVec 2)
  /-- waddr.any (R281): Waits until a masked memory word changes from its registration value. -/
  | waddrAny (g : Bool) (d a : BitVec 6) (s : BitVec 2)
  /-- cpt (R292): Issues a tensor-box copy into scratchpad from a leader lane. -/
  | cpt (g : Bool) (d : BitVec 7) (a : BitVec 4) (b : BitVec 5) (l s : BitVec 2) (e q k : BitVec 1) (p : BitVec 3)
  /-- cpm (R292): Issues a multicast tensor-box copy into every receiver ring. -/
  | cpm (g : Bool) (d : BitVec 7) (a : BitVec 4) (b : BitVec 5) (m : BitVec 4) (l s : BitVec 2) (e q : BitVec 1) (p : BitVec 3)
  /-- cps (R292): Issues a tensor-box copy from scratchpad to global memory. -/
  | cps (g : Bool) (d : BitVec 7) (a : BitVec 4) (b : BitVec 5) (l s : BitVec 2) (e q k : BitVec 1) (p : BitVec 3)
  /-- cpf (R292): Issues a flat contiguous copy in either direction. -/
  | cpf (g : Bool) (d : BitVec 7) (a b : BitVec 6) (w : BitVec 1) (l s : BitVec 2) (e q k : BitVec 1) (p : BitVec 3)
  /-- cpr (R292): Issues a tensor-box reduction into global memory. -/
  | cpr (g : Bool) (d : BitVec 7) (a : BitVec 4) (b : BitVec 5) (r : BitVec 4) (l s : BitVec 2) (e q k : BitVec 1) (p : BitVec 3)
  /-- gth (R295): Issues an indexed row gather into scratchpad. -/
  | gth (g : Bool) (d : BitVec 7) (a b : BitVec 5) (l s : BitVec 2) (e q k : BitVec 1) (p : BitVec 3)
  /-- sct (R295): Issues an indexed row scatter to global memory. -/
  | sct (g : Bool) (d : BitVec 7) (a b : BitVec 5) (l s : BitVec 2) (e q k : BitVec 1) (p : BitVec 3)
  /-- sctr (R295): Issues an indexed row scatter-reduction into global memory. -/
  | sctr (g : Bool) (d : BitVec 7) (a b : BitVec 5) (r : BitVec 4) (l s : BitVec 2) (e q k : BitVec 1) (p : BitVec 3)
  /-- rb.init (R297): Initialises a ring-buffer header in each receiver scratchpad slice. -/
  | rbInit (g : Bool) (a b : BitVec 7)
  /-- rb.await (R298): Waits until a ring slot is complete and returns its offset and status. -/
  | rbAwait (g : Bool) (d : BitVec 6) (a b : BitVec 7)
  /-- rb.rel (R299): Releases ring slots and returns credit. -/
  | rbRel (g : Bool) (a b : BitVec 7)
  /-- rb.stat (R300): Reads a ring's write index and credit summary. -/
  | rbStat (g : Bool) (d : BitVec 6) (a : BitVec 7)
  /-- rb.cred (R300): Reads one receiver's ring credit. -/
  | rbCred (g : Bool) (d a b : BitVec 7)
  /-- spawn (R306): Creates one child group per active lane, placing or enqueuing it. -/
  | spawn (g : Bool) (d : BitVec 7) (a : BitVec 6) (k : BitVec 4)
  /-- tree.open (R312): Allocates a subtree object and makes it current. -/
  | treeOpen (g : Bool) (d : BitVec 7)
  /-- tree.close (R312): Releases a subtree's hold. -/
  | treeClose (g : Bool) (a : BitVec 7)
  /-- tree.close.free (R312): Releases a subtree's hold and requests release of the object. -/
  | treeCloseFree (g : Bool) (a : BitVec 7)
  /-- tree.cancel (R312): Cancels an open subtree and its child subtrees. -/
  | treeCancel (g : Bool) (a : BitVec 7)
  /-- tree.stat (R312): Reads a subtree's state word and parent handle. -/
  | treeStat (g : Bool) (d : BitVec 6) (a : BitVec 7)
  /-- dl.set (R312): Arms or disarms a subtree deadline. -/
  | dlSet (g : Bool) (a : BitVec 7) (b : BitVec 6)
  /-- dl.get (R312): Reads a subtree deadline. -/
  | dlGet (g : Bool) (d : BitVec 6) (a : BitVec 7)
  /-- dl.chk (R312): Reads the time remaining before a subtree deadline. -/
  | dlChk (g : Bool) (d a : BitVec 7)
  /-- nalloc (R315): Grants pool nodes to active lanes in ascending order, zero when exhausted. -/
  | nalloc (g : Bool) (d : BitVec 6) (a : BitVec 7)
  /-- nalloc.t (R315): Grants pool nodes or traps with POOL when too few are free. -/
  | nallocT (g : Bool) (d : BitVec 6) (a : BitVec 7)
  /-- nfree (R316): Returns nodes to a pool's free list as a release. -/
  | nfree (g : Bool) (a : BitVec 6) (b : BitVec 7)
  /-- nreset (R317): Makes every node of a pool free. -/
  | nreset (g : Bool) (a : BitVec 7)
  /-- ninfo (R317): Reads a pool's free count and geometry. -/
  | ninfo (g : Bool) (d : BitVec 6) (a : BitVec 7)
  /-- cq.push (R320): Appends one row per active lane to a Syzygy queue under a future. -/
  | cqPush (g : Bool) (d a : BitVec 7) (k : BitVec 5)
  /-- cq.take (R321): Takes the oldest ready Syzygy buffer into a tile. -/
  | cqTake (g : Bool) (d : BitVec 6) (a : BitVec 7) (t : BitVec 6)
  /-- cq.put (R323): Delivers result rows of a take to their owner lanes. -/
  | cqPut (g : Bool) (a : BitVec 6) (b : BitVec 7)
  /-- cq.flush (R322): Makes a non-empty filling buffer ready. -/
  | cqFlush (g : Bool) (a : BitVec 7)
  /-- cq.cfg (R325): Writes a Syzygy queue's configuration word when it is idle. -/
  | cqCfg (g : Bool) (a b : BitVec 7)
  /-- cq.stat (R325): Reads a Syzygy queue's buffer counts and configuration. -/
  | cqStat (g : Bool) (d : BitVec 6) (a : BitVec 7)
  /-- fd.pop (R326): Waits for and removes feed records, one per active lane. -/
  | fdPop (g : Bool) (d a : BitVec 7)
  /-- fd.try (R326): Removes available feed records without waiting. -/
  | fdTry (g : Bool) (d a : BitVec 7)
  /-- fd.push (R327): Appends feed records as a release while room remains. -/
  | fdPush (g : Bool) (a b : BitVec 7)
  /-- fd.stat (R328): Reads a feed's record count and free room. -/
  | fdStat (g : Bool) (d : BitVec 6) (a : BitVec 7)
  /-- col.ray (R336): Issues a ray query against an occupancy octree. -/
  | colRay (g : Bool) (d a b : BitVec 6) (s : BitVec 2) (e q : BitVec 1) (k : BitVec 5)
  /-- col.sph (R336): Issues a sphere overlap query. -/
  | colSph (g : Bool) (d a b : BitVec 6) (s : BitVec 2) (e q : BitVec 1) (k : BitVec 5)
  /-- col.box (R336): Issues an axis-aligned box overlap query. -/
  | colBox (g : Bool) (d a b : BitVec 6) (s : BitVec 2) (e q : BitVec 1) (k : BitVec 5)
  /-- col.sweep (R336): Issues a swept-sphere query. -/
  | colSweep (g : Bool) (d a b : BitVec 6) (s : BitVec 2) (e q : BitVec 1) (k : BitVec 5)
  /-- col.dist (R336): Issues a nearest-distance query. -/
  | colDist (g : Bool) (d a b : BitVec 6) (s : BitVec 2) (e q : BitVec 1) (k : BitVec 5)
  /-- col.upd (R337): Issues leaf voxel state updates to an octree. -/
  | colUpd (g : Bool) (d a b : BitVec 6) (s : BitVec 2) (e q : BitVec 1) (k : BitVec 5)
  /-- dyn.fk (R340): Issues forward kinematics per lane. -/
  | dynFk (g : Bool) (d a b : BitVec 6) (s : BitVec 2) (e q : BitVec 1) (k : BitVec 5)
  /-- dyn.id (R340): Issues inverse dynamics per lane. -/
  | dynId (g : Bool) (d a b : BitVec 6) (s : BitVec 2) (e q : BitVec 1) (k : BitVec 5)
  /-- dyn.fd (R340): Issues forward dynamics per lane. -/
  | dynFd (g : Bool) (d a b : BitVec 6) (s : BitVec 2) (e q : BitVec 1) (k : BitVec 5)
  /-- dyn.step (R341): Issues one integration step per lane. -/
  | dynStep (g : Bool) (d a b : BitVec 6) (s : BitVec 2) (e q : BitVec 1) (k : BitVec 5)
  /-- dyn.jac (R340): Issues a body Jacobian computation per lane. -/
  | dynJac (g : Bool) (d a b n : BitVec 6) (s : BitVec 2) (e q : BitVec 1) (k : BitVec 5)
  /-- dyn.mass (R340): Issues a joint-space mass matrix computation per lane. -/
  | dynMass (g : Bool) (d a b : BitVec 6) (s : BitVec 2) (e q : BitVec 1) (k : BitVec 5)
  /-- trap (R351): Stops the block with code TRAP for the user handler. -/
  | trap (g : Bool) (i : BitVec 14)
  /-- sys (R352): Stops the block and sends a system-call request to the host through Chovis. -/
  | sys (g : Bool) (d a : BitVec 7) (s : BitVec 5) (c : BitVec 2)
  /-- brk (R351): Stops the block with code BRK for the debug agent. -/
  | brk (g : Bool) (i : BitVec 14)
  /-- eret (R355): Returns from the system handler to TRAPPC and releases the block. -/
  | eret (g : Bool)
  /-- eret.r (R355): Returns from the system handler replaying the stopping instruction in TRAPMASK lanes. -/
  | eretR (g : Bool)
  /-- tret (R355): Returns from the user handler to TRAPPC. -/
  | tret (g : Bool)
  /-- phint (R357): Gives the fragment a liveness map of registers and scratchpad. -/
  | phint (g : Bool) (mh mm ml : BitVec 7) (t : BitVec 2) (r : BitVec 8) (mt : BitVec 11)
  /-- ppoint (R358): Records a liveness map and stops there if a pre-emption or park request is pending. -/
  | ppoint (g : Bool) (mh mm ml : BitVec 7) (t : BitVec 2) (r : BitVec 8) (mt : BitVec 11)
  /-- tmark (R381): Writes a MARK trace packet when traced. -/
  | tmark (g : Bool) (a : BitVec 7)
  /-- tstamp (R381): Samples device time into a pair and a STAMP packet. -/
  | tstamp (g : Bool) (d : BitVec 6)
  /-- pctr (R382): Reads a selected 64-bit performance counter. -/
  | pctr (g : Bool) (d : BitVec 6) (a : BitVec 7)
  /-- tctl.off (R383): Clears the group's trace enable and options. -/
  | tctlOff (g : Bool)
  /-- tctl.on (R383): Sets the group's trace enable and options and writes START packets. -/
  | tctlOn (g : Bool) (o : BitVec 3)
  /-- tctl.flush (R383): Stalls until every earlier trace packet reaches the ring. -/
  | tctlFlush (g : Bool)
  /-- FRAGMENT_ARRIVE (R99): A fragment whose PC equals its innermost RPC arrives instead of issuing, fusing the entry when all lanes have arrived. -/
  | fragmentArrive (gi fi : Nat)
  /-- FRAGMENT_AGED (R118): A ready fragment that has not issued for 63 core cycles becomes aged and is taken first within its priority. -/
  | fragmentAged (gi fi : Nat)
  /-- LOAD_RETURN (R51): A load or scratchpad access returns, writes its destination and its path counter falls in order. -/
  | loadReturn (gi n : Nat)
  /-- ATOMIC_RETURN (R267): A returning atomic's old values reach its destination and the at counter falls. -/
  | atomicReturn (gi n : Nat)
  /-- ACCESS_CHECK_RETURN (R214): Translation, bounds and race checks of a memory instruction return, letting it complete or raising its fault. -/
  | accessCheckReturn (gi : Nat)
  /-- ACCESS_PERFORMED (R245): An issued access performs at its scope, releasing fences and releases stalled on it. -/
  | accessPerformed (n : Nat)
  /-- BLOCK_PARK (R113): The device parks a block whose groups all wait on children or futures while no core can hold the oldest queued child. -/
  | blockPark (bi : Nat)
  /-- BLOCK_RESTORE (R363): A saved or parked block is reloaded into free slots, late results land and saved matrix operations re-issue. -/
  | blockRestore (bi : Nat)
  /-- PREEMPTION_REQUEST (R366): A real-time block that cannot be placed requests pre-emption of lower-priority victim blocks. -/
  | preemptionRequest (li : Nat)
  /-- PREEMPT_FORCED_STOP (R360): A victim group not stopped 2,048 core cycles after the request is stopped and saved with all registers. -/
  | preemptForcedStop (gi : Nat)
  /-- MATRIX_QUIESCENCE (R199): The Orrery engine stops in-flight operations at a K-slice boundary and writes resume records. -/
  | matrixQuiescence (gi : Nat)
  /-- SAVE_COMPLETE (R360): The save engine finishes writing a block image after the drain and frees slots, registers, tiles and scratchpad. -/
  | saveComplete (bi : Nat)
  /-- MATRIX_OP_COMPLETE (R197): A matrix operation writes D, returns its completion token, clears BUSY and may complete its batch. -/
  | matrixOpComplete (gi : Nat)
  /-- TILE_TRANSFER_COMPLETE (R188): The data of a checked tile transfer has moved and the tile's BUSY clears. -/
  | tileTransferComplete (gi n : Nat)
  /-- SIBLING_STOP (R344): A sibling group receiving a halt stops within four skid instructions and sets its trap registers. -/
  | siblingStop (gi : Nat)
  /-- HANDLER_ENTRY (R349): After earlier accesses perform, the handler fragment starts in the stopping group at its handler. -/
  | handlerEntry (bi : Nat)
  /-- CHOVIS_FAULT_RECORD (R405): Chovis writes a fault record to the context's fault ring and raises the fault interrupt. -/
  | chovisFaultRecord (n : Nat)
  /-- SYS_REPLY (R353): The host's REPLY = 1 wakes Chovis, which writes replies into D and resumes the block. -/
  | sysReply (n : Nat)
  /-- EVENT_RING_ROOM (R406): A consumer's RIDX advance gives room, letting Chovis write a held record. -/
  | eventRingRoom (n : Nat)
  /-- WOA_POLL (R282): A waiter without a table entry re-reads its word every 512 ns of device time. -/
  | woaPoll (n : Nat)
  /-- COPY_COMMAND_COMPLETE (R291): A copy or gather command completes, writing its status word and advancing its ring or arriving at its barrier. -/
  | copyCommandComplete (n : Nat)
  /-- COLLISION_COMMAND_COMPLETE (R331): A collision command writes its last result record and its future becomes READY. -/
  | collisionCommandComplete (n : Nat)
  /-- DYNAMICS_COMMAND_COMPLETE (R331): A dynamics command writes its last result record and its future becomes READY. -/
  | dynamicsCommandComplete (n : Nat)
  /-- REPLAYABLE_FAULT_RECORD (R422): A failed engine, pool, queue or packet translation is forwarded as a replayable fault record and the access waits. -/
  | replayableFaultRecord (n : Nat)
  /-- FAULT_RESPONSE_TIMEOUT (R422): An unanswered replayable fault fails its waiting accesses after 100 ms. -/
  | faultResponseTimeout (n : Nat)
  /-- TRANSLATION_WALK_COMPLETE (R420): A page-table walk ends and delivers its result to every merged miss. -/
  | translationWalkComplete (core pasid va : Nat)
  /-- SYZYGY_TIMEOUT (R322): A filling Syzygy buffer becomes ready when its timeout passes. -/
  | syzygyTimeout (q : Nat)
  /-- DEADLINE_EXPIRE (R313): A subtree's deadline comparator cancels it at the first tick at or after the deadline. -/
  | deadlineExpire (n : Nat)
  /-- QUEUE_MAP (R388): The mapper maps the highest-priority waiting queue with work onto a free thread, unmapping a victim if needed. -/
  | queueMap (q : Nat)
  /-- QUEUE_UNMAP_IDLE (R388): An unpinned mapped queue is unmapped after its ring stays empty for 10 µs. -/
  | queueUnmapIdle (q : Nat)
  /-- LAUNCH (R400): Queue packet that assigns a LID and places the blocks of a launch. -/
  | launch (q : Nat) (p : List Byte)
  /-- FEED (R395): Queue packet that appends records to a feed queue. -/
  | feed (q : Nat) (p : List Byte)
  /-- WAIT (R395): Queue packet that waits for a memory condition. -/
  | wait (q : Nat) (p : List Byte)
  /-- WAIT_TIMEOUT (R395): A WAIT packet's timeout expires and the queue stops with error 5. -/
  | waitTimeout (q : Nat)
  /-- SIGNAL (R395): Queue packet that stores or adds a value at .sys. -/
  | signal (q : Nat) (p : List Byte)
  /-- FETCH_FENCE (R397): Queue packet that discards the fetch-ahead window beyond itself. -/
  | fetchFence (q : Nat) (p : List Byte)
  /-- CALL_PACKET (R395): Queue packet that enters a buffer of packets. -/
  | callPacket (q : Nat) (p : List Byte)
  /-- RETURN (R395): Queue packet that leaves the innermost CALL buffer. -/
  | returnPacket (q : Nat) (p : List Byte)
  /-- TIMESTAMP (R394): Queue packet that writes device time to memory. -/
  | timestamp (q : Nat) (p : List Byte)
  /-- PRIORITY (R395): Queue packet that rewrites the queue's priority level. -/
  | priority (q : Nat) (p : List Byte)
  /-- COPY (R395): Queue packet that hands a memory copy to a copy engine. -/
  | copy (q : Nat) (p : List Byte)
  /-- EVENT (R395): Queue packet that writes a value and raises an interrupt vector. -/
  | event (q : Nat) (p : List Byte)
  /-- NOP_PACKET (R394): Queue packet that does nothing. -/
  | nopPacket (q : Nat) (p : List Byte)
  /-- RESERVE_CORES (R395): Queue packet that reserves masked cores to the context, pre-empting others. -/
  | reserveCores (q : Nat) (p : List Byte)
  /-- RELEASE_CORES (R395): RESERVE_CORES with REL = 1, returning masked cores to general use. -/
  | releaseCores (q : Nat) (p : List Byte)
  /-- WATCHDOG_EXPIRE (R408): The deadlock watchdog count reaches WDOG and every block of the context is terminated. -/
  | watchdogExpire (pasid : Nat)
  /-- XTMO_EXPIRE (R409): A group stays in one external wait for XTMO and its block is terminated. -/
  | xtmoExpire (gi : Nat)
  /-- CTX_CREATE (R404): Driver command that creates a context from a context record. -/
  | ctxCreate (i : Nat) (r : List Byte)
  /-- CTX_TEARDOWN (R407): Driver command that disables queues, terminates blocks and advances the PASID generation. -/
  | ctxTeardown (i : Nat) (r : List Byte)
  /-- TEARDOWN_COMPLETE (R407): Once the context's outstanding requests return, its objects are freed and STATUS is written. -/
  | teardownComplete (pasid : Nat)
  /-- QUEUE_SET (R389): Driver command that places, pins or restarts a queue descriptor. -/
  | queueSet (i : Nat) (r : List Byte)
  /-- POOL_BIND (R305): Driver command that allocates a pool and returns its handle. -/
  | poolBind (i : Nat) (r : List Byte)
  /-- CQ_BIND (R319): Driver command that allocates a Syzygy queue with a configuration word. -/
  | cqBind (i : Nat) (r : List Byte)
  /-- FEED_BIND (R305): Driver command that allocates a feed queue. -/
  | feedBind (i : Nat) (r : List Byte)
  /-- BLOCK_RESUME (R342): Driver command that resumes a halted block as eret.r with given trap registers. -/
  | blockResume (i : Nat) (r : List Byte)
  /-- BLOCK_TERM (R343): Driver command that terminates a block. -/
  | blockTerm (i : Nat) (r : List Byte)
  /-- DBG_SET (R370): Driver command that writes a group's debug control word. -/
  | dbgSet (i : Nat) (r : List Byte)
  /-- DBG_ICINV (R369): Driver command that invalidates instruction caches at device scope for a patch. -/
  | dbgIcinv (i : Nat) (r : List Byte)
  /-- PROF (R380): Driver command that enables profiling or reads its aggregates. -/
  | prof (i : Nat) (r : List Byte)
  /-- DUMP_SET (R386): Driver command that registers or removes the fatal dump region. -/
  | dumpSet (i : Nat) (r : List Byte)
  /-- DRIVER_UNKNOWN_COMMAND (R403): A driver record with an unlisted command code completes with outcome 1. -/
  | driverUnknownCommand (i : Nat) (r : List Byte)
  /-- DRVRING (R403): Management write that registers the driver ring and resets its next index. -/
  | drvring (v : BitVec 64)
  /-- CTL (R426): Management write with the key that resets the device. -/
  | ctl (v : BitVec 64)
  /-- INVAL_CTL (R421): Management write of GO that starts a TLB invalidation of a range or PASID. -/
  | invalCtl (v : BitVec 64)
  /-- INVALIDATION_COMPLETE (R421): An invalidation ends with no stale entry or walk, clearing BUSY. -/
  | invalidationComplete
  /-- FRESP (R422): Management write answering a replayable fault by token, retrying or failing its accesses. -/
  | fresp (v : BitVec 64)
  /-- POWER (R428): Management write of the power budget, effective within 1 ms. -/
  | power (v : BitVec 64)
  /-- MBX_BOOT_IMAGE (R425): Mailbox operation 1 that verifies and runs a recovery image. -/
  | mbxBootImage (len : BitVec 24)
  /-- MBX_QUOTE (R427): Mailbox operation 2 that writes a signed attestation quote. -/
  | mbxQuote (len : BitVec 24)
  /-- MGMT_REGISTER_WRITE (R426): A write to a management register with no behaviour of its own, such as PEERWIN. -/
  | mgmtRegisterWrite (off : Nat) (v : BitVec 64)
  /-- TIME (R414): A host TIME request answered with arrival and answer device times. -/
  | time (ask : TimeAsk)
  /-- PEER_TIME_EXCHANGE (R414): Every 1 ms firmware exchanges time with the peer and updates PEEROFF: it sends a request, and takes the answer. -/
  | peerTimeExchange
  /-- RD (R412): A Borkai read from the host or peer performed at its home. -/
  | rd (src : Party) (pa len : Nat)
  /-- WR (R412): A Borkai write from the host or peer, resetting race records and waking waits. -/
  | wr (src : Party) (pa : Nat) (bytes : List Byte)
  /-- ATM (R411): A Borkai atomic, reduction or sub-byte store performed by the home. -/
  | atm (src : Party) (op : AtomOp) (pa : Nat) (v c : BitVec 128)
  /-- OWN (R412): The host obtains a cacheable copy of a device line, recorded in the directory. -/
  | own (pa : Nat)
  /-- SNP (R412): The host's response to a recall lets the pending device write perform. -/
  | snp (pa : Nat)
  /-- PEER_LINK_CHANGE (R413): The peer link changes state, raising device event 3. -/
  | peerLinkChange (up : Bool)
  /-- LINK_FAILURE (R411): An unrecoverable Borkai link error is a fatal error of cause 2. -/
  | linkFailure
  /-- POWER_ON (R423): Power-on reset enters RESET and starts the boot ROM. -/
  | powerOn
  /-- ROM (R423): The boot ROM reads fuses, brings up links and reads the flash image. -/
  | rom
  /-- VERIFY (R424): The firmware image is authenticated, leading to FWINIT or HOLD. -/
  | verify
  /-- FWINIT (R423): Firmware trains DRAM, clears SRAM, derives the identity key and enters READY or HOLD. -/
  | fwinit
  /-- FATAL_ERROR (R386): A fatal error stops every core, writes the dump and enters FATAL. -/
  | fatalError (cause : Nat)
  /-- THROTTLE (R428): The device lowers cluster clocks to hold the hottest junction at or below 105 °C. -/
  | throttle (on : Bool) (temp : Nat)
  /-- PINNED_CLOCK_LOWER (R428): At 110 °C pinned clocks are lowered, THERM bit 9 set and event 1 raised. -/
  | pinnedClockLower
  /-- THERMAL_TRIP (R428): At 115 °C the device takes a fatal error of cause 3. -/
  | thermalTrip
  /-- CLOCK_CHANGE (R23): The device changes a cluster clock to meet its power budget, writing a FREQ packet. -/
  | clockChange (cl mhz : Nat)
  /-- SYNC (R375): A SYNC trace packet is written in each cycle whose count is a multiple of 65,536. -/
  | sync (cl : Nat)
  /-- STALL (R374): With the ST option a STALL packet is written in the 256th consecutive non-issue cycle. -/
  | stall (gi : Nat)
  /-- TRACE_LOSS_RESYNC (R377): When buffer room returns, LOSS, SYNC and START packets are written to affected rings. -/
  | traceLossResync (cl : Nat)
  /-- TRACE_DRAIN (R372): Trace packets drain from the cluster buffer to context rings and WIDX advances. -/
  | traceDrain (cl : Nat)
  /-- PROFILE_SAMPLE (R380): A partition samples its next occupied slot every 2^k core cycles. -/
  | profileSample (core part : Nat)
  /-- ILLEGAL_INSTRUCTION (R89): A fragment issues a word with a reserved major, a reserved function code or MAJ 0x3E as a first word, which raises ILL. -/
  | illegalInstruction (w0 w1 : Word) (detail : Nat)
  /-- INSTRUCTION_FETCH_FAULT (R63): A fragment reaches a PC whose fetch fails translation or lacks execute permission, which raises PAGE or PROT before any word is decoded. -/
  | instructionFetchFault (code addr : Nat)
  /-- COMPLETION_PATH_RETURN (R220): An icinv, rclr or rnext issued on path cf completes, its cf counter falls and the waiting fragment continues. -/
  | completionPathReturn (gi n : Nat)
deriving DecidableEq, Repr

end Sys2Proof
end

