-- ==== Sys2Proof/Machine/State.lean ====
section
/-! DEFINITION. Sys2Proof/Machine/State.lean: everything the spec gives the machine, as plain data, and its state at power-on. -/

namespace Sys2Proof.Machine

open Sys2Proof

/-- Why a step stops with a fault. -/
inductive Fault where
  /-- Raised by `exec` of a coded instruction in a state in which no fragment is issuing (`State.cur` is `none`). Safe: `step` always
  names the issuing fragment before it calls `exec`, so no run of the machine meets it. -/
  | noIssuer
deriving DecidableEq, Repr

/-- Why a step is refused. -/
inductive Refusal where
  /-- Raised by an arm of `exec` whose instruction has no meaning yet. Safe. -/
  | notModelled (mnemonic : String)
deriving DecidableEq, Repr

/-- A register: one 32-bit value for each of the 16 lanes (2.2). -/
abbrev LaneVec := Vector Word 16
/-- A knowledge vector: 16 slots of 24 bits (R249). -/
abbrev KVec := Vector (BitVec 24) 16
/-- Bytes by address in canonical form: addresses rise strictly and no entry holds 0, which is what an unlisted address reads as. -/
abbrev Mem := List Host.Cell

/-- The states of a group (Table 5-1). -/
inductive GState where
  | resident | parked | saved | retiring | retired
deriving DecidableEq, Repr

/-- The kind of a handler fragment (R355). -/
inductive HKind where
  | user | system
deriving DecidableEq, Repr

/-- The four paths of R51. -/
inductive Path where
  | gm | sp | at | cf
deriving DecidableEq, Repr

/-- The race modes of R247. -/
inductive RaceMode where
  | off | trap | report
deriving DecidableEq, Repr

/-- What a blocked instruction of a fragment waits for (Table 5-7). -/
inductive Stall where
  /-- sources, registers or predicates (512 + p), with results owed, in these lanes: code 10 -/
  | regs (rs : List Nat) (lanes : Mask)
  /-- destinations with results owed: code 10 -/
  | dest (rs : List Nat) (lanes : Mask)
  /-- the hazard of a tile (R182): code 10 -/
  | tile (t : Nat) (writer : Bool)
  /-- a barrier word at a scratchpad offset, until its generation differs: code 3 -/
  | barrier (off : Nat) (gen : BitVec 4)
  /-- a cluster barrier word: code 3 -/
  | cbar (ix : Nat) (gen : BitVec 4)
  /-- a wait-on-address entry, by its number: code 4 -/
  | woa (n : Nat)
  /-- a batch number: code 5 -/
  | batch (n : Nat)
  /-- 16 outstanding batches: code 5 -/
  | close
  /-- a future, with the order of the wait: code 6 -/
  | future (k : Nat) (seq : Nat)
  /-- any future of a mask: code 6 -/
  | any (mask : Word) (seq : Nat)
  /-- the end of a subtree: code 6 -/
  | tree (handle : Word)
  /-- a subtree has ended: what its waiter will return with; ready -/
  | treeEnd (cancelled : Bool) (know : KVec)
  /-- completion of a ring index: code 7 -/
  | ring (off : Nat) (index : Nat)
  /-- ring credit for an issue: code 7 -/
  | credit (off : Nat) (mask : BitVec 4)
  /-- a path counter at or below a threshold: code 8 -/
  | path (p : Path) (t : Nat)
  /-- earlier accesses of the fragment (fences, releases): code 11 -/
  | drain
  /-- race checks of the group's memory instruction: code 11 -/
  | checks
  /-- an entry of the completion path, by its number: code 11 -/
  | done (n : Nat)
  /-- engine command limits of the core and context: code 11 -/
  | engine (kind : Nat)
  /-- trace bytes of the cluster, by packet number: code 11 -/
  | flush (n : Nat)
  /-- a record in a feed: code 15 -/
  | feed (handle : Word)
  /-- room in a Syzygy queue for n rows: code 15 -/
  | room (handle : Word) (n : Nat)
  /-- a ready buffer of a Syzygy queue: code 15 -/
  | take (handle : Word)
  /-- a translation that waits for the host, by its token (R422): code 11 -/
  | xlate (token : Word)
  /-- the reply of a system call made by a handler: code 2 -/
  | reply (n : Nat)
  /-- earlier accesses, before the lanes of a `spawn` are placed: code 15 -/
  | spawning
  /-- the phase of a barrier word has completed, or its word was initialised: the vector that its return merges; ready -/
  | phaseOver (key : Nat) (know : KVec)
  /-- lines that the host caches and must give back first (R412): code 11 -/
  | recall (lines : List Nat)
  /-- room in the context's replay ring (R384): code 11 -/
  | replay
deriving DecidableEq, Repr

/-- A liveness map in effect (R357). -/
structure LiveMap where
  map : Word := 0
  smode : BitVec 2 := 0
  ridx : BitVec 8 := 0
deriving DecidableEq, Repr

/-- A sync record captured by an atomic for a later acquire fence (R245, R251). -/
structure SyncCap where
  vec : KVec
  scope : BitVec 2
  rid : BitVec 18
  btag : BitVec 16
  /-- synchronisation was lost: the fence saturates its vector whatever the scopes -/
  lost : Bool := false
deriving DecidableEq, Repr

/-- A fragment (Table 2-1, R98, R119). -/
structure Frag where
  /-- number of the fragment in its group, never reused -/
  fid : Nat := 0
  pc : BitVec 52 := 0
  amask : Mask := 0xFFFF
  fmt : Word := 0
  wb : Nat := 0
  latch : Word64 := 0
  /-- issue number of the latest sampling read behind the latch (R53, R100) -/
  sampled : Nat := 0
  /-- innermost enclosing split entry -/
  inner : Option Nat := none
  /-- the spin mark -/
  spin : Bool := false
  /-- watched branch and the target of its last taken execution (R119) -/
  loop : Option (BitVec 52 × BitVec 52) := none
  quiet : Nat := 0
  /-- something not quiet happened in this iteration -/
  noisy : Bool := false
  lastIssue : Nat := 0
  /-- core cycle of its latest issue, placement or restore (R118) -/
  readyAt : Nat := 0
  aged : Bool := false
  map : Option LiveMap := none
  handler : Option HKind := none
  stall : Option Stall := none
  /-- the instruction at the PC is re-issued in exactly these lanes (R355) -/
  replay : Option Mask := none
  /-- conditional outcomes held for the next COND packet (R374) -/
  held : List Bool := []
  /-- vector, clock and scope captured by the last release fence (R245) -/
  relVec : Option (KVec × BitVec 24 × BitVec 2) := none
  caps : List SyncCap := []
  /-- earlier fragments whose accesses precede this fragment's (R102, R232) -/
  before : List Nat := []
  /-- L1 fills up to this number no longer serve the fragment (R208) -/
  acquired : Nat := 0
  /-- the external wait it has been in since, for XTMO (R409) -/
  waitFrom : Option Nat := none
  /-- an uncorrectable error stands in its FMT, or in what else the scheduler keeps of it (R356) -/
  badFmt : Bool := false
  badSched : Bool := false
  /-- the arrival of the `bar.sync` or `cbar.sync` at the PC is made: its word and the generation recorded (R280) -/
  arrival : Option (Nat × BitVec 4) := none
deriving DecidableEq, Repr

/-- A split entry (Table 5-2). -/
structure Split where
  rpc : BitVec 52 := 0
  lanes : Mask := 0
  arrived : Mask := 0
  wb : Nat := 0
  parent : Option Nat := none
  fmt : Word := 0
  latch : Word64 := 0
  sampled : Nat := 0
  /-- fragments that have arrived, for the ordering of R102 -/
  before : List Nat := []
  acquired : Nat := 0
  handler : Option HKind := none
  /-- what the arrived fragments carry for later releases and acquire fences (R245) -/
  relVec : Option (KVec × BitVec 24 × BitVec 2) := none
  caps : List SyncCap := []
deriving DecidableEq, Repr

/-- Stamps of a tile (Table 17-3). -/
structure Stamp where
  nops : Nat := 0
  in0 : Nat := 0
  in1 : Nat := 0
  opi : Nat := 0
  ops : Nat := 0
  ope : Nat := 0
  out0 : Nat := 0
  out1 : Nat := 0
  /-- `tzero` has come since: the next transfer in begins an epoch (R379) -/
  zeroed : Bool := false
deriving DecidableEq, Repr

/-- A tile: its data, its side store and the stored fields of its control word (Table 2-2, R180). -/
structure Tile where
  data : Mem := []
  scaleArea : Mem := []
  rowMask : BitVec 256 := 0
  colMask : BitVec 256 := 0
  resumeRec : BitVec 128 := 0
  elem : BitVec 4 := 0
  scale : BitVec 2 := 0
  rows : BitVec 8 := 0
  rbytes : BitVec 5 := 0
  shaped : Bool := false
  emask : Bool := false
  resume : Bool := false
  /-- an uncorrectable soft error stands in the tile or its side store -/
  bad : Bool := false
  /-- the tile named by an ECC owed to the next reader of this accumulator (R200) -/
  owed : Option Nat := none
  stamp : Option Stamp := none
deriving DecidableEq, Repr

/-- Future states (Table 2-3). -/
inductive FutState where
  | free | pending | ready | void
deriving DecidableEq, Repr

/-- An error of an engine command delivered at a wait (R302, R332, R257). -/
structure Deferred where
  code : Nat
  lanes : Mask
  addr : Nat
  info : Word
  /-- a wait has raised it -/
  told : Bool := false
  /-- the issue number of its command, and whether the slot's status has been written since (R298) -/
  cmd : Nat := 0
  stale : Bool := false
deriving DecidableEq, Repr

/-- A future with the registers it reserves. -/
structure Future where
  st : FutState := .free
  lanes : Mask := 0
  first : Nat := 0
  count : Nat := 0
  err : Option Deferred := none
  vecs : List KVec := []
deriving DecidableEq, Repr

/-- An issued matrix operation (R191, Table 9-7). -/
structure MatOp where
  seq : Nat
  dt : Nat
  af : BitVec 7
  bf : BitVec 7
  int : Bool
  z : Bool
  sp : Bool := false
  pat : Bool := false
  mt : Nat := 0
  fmt : Word
  batch : Option Nat := none
  nextj : Nat := 0
deriving DecidableEq, Repr

/-- The two address spaces (chapter 10). -/
inductive Space where
  | glob
  | scratch
deriving DecidableEq, Repr

/-- Access classes of Table 11-5. -/
inductive Cls where
  | plain | atomic | engine | strong
deriving DecidableEq, Repr

/-- A tile transfer whose data has not moved (R188): for each 16-byte chunk its tile offset and the address it stands at. -/
structure Xfer where
  seq : Nat
  fid : Nat
  tile : Nat
  store : Bool
  scl : Bool
  space : Space
  chunks : List (Nat × Nat)
  /-- some of its bytes are race-tracked -/
  tracked : Bool := false
deriving DecidableEq, Repr

/-- A register word owed to a lane. -/
structure RegWrite where
  reg : Nat
  lane : Nat
  val : Word
deriving DecidableEq, Repr

/-- What the return of an outstanding instruction does beyond its register writes. -/
inductive OutAct where
  | none
  | icinv (cores : List Nat) (lines : List Nat)
  | rclr (ranges : List (Nat × Nat))
  | rnext (reg : Nat) (lanes : Mask)
deriving DecidableEq, Repr

/-- A destination register marked poisoned (R217). -/
structure Poison where
  reg : Nat
  lanes : Mask
  addr : Nat
  detail : Nat
deriving DecidableEq, Repr

/-- An instruction counted on a path that has not returned in order (R51). -/
structure Outst where
  path : Path
  seq : Nat
  fid : Nat
  returned : Bool := false
  writes : List RegWrite := []
  preds : List (Nat × Nat × Bool) := []
  poison : List Poison := []
  act : OutAct := .none
deriving DecidableEq, Repr

/-- One lane's update of memory. -/
structure LaneAcc where
  lane : Nat
  va : Nat
  pa : Nat
  size : Nat
  op : AtomOp := .xch
  plain : Bool := true
  val : BitVec 128 := 0
  cmp : BitVec 128 := 0
  tracked : Bool := false
  /-- cache policy and L2 class of Table 10-5 -/
  pol : Nat := 1
  lcls : Nat := 0
deriving DecidableEq, Repr

/-- A store or reduction that has been issued and not performed (R94, R345). -/
structure Store where
  gi : Nat
  fid : Nat
  seq : Nat
  /-- earlier fragments of its program order (R232) -/
  before : List Nat := []
  /-- performs only after every earlier access of its fragment (R244, R273) -/
  ordered : Bool := false
  acc : List LaneAcc
  cls : Cls
  scope : BitVec 2
  /-- core, for its L1 -/
  core : Nat := 0
  pasid : Nat := 0
  know : KVec := Vector.replicate 16 0
  id : BitVec 18 := 0
  btag : BitVec 16 := 0
  pc : BitVec 52 := 0
  /-- the vector it carries as a release, its clock and scope (R245, R251) -/
  rel : Option (KVec × BitVec 24 × BitVec 2) := none
  clk : BitVec 24 := 0
deriving DecidableEq, Repr

/-- A memory instruction whose race checks have not returned (R214, R255): how it is re-issued when they have. -/
structure Check where
  fid : Nat
  seq : Nat
  passed : Bool := false
deriving DecidableEq, Repr

/-- A fault kept while another stop of the block is handled (R348). -/
structure PendFault where
  code : Nat
  fid : Nat
  pc : Nat
  addr : Word64
  mask : Mask
  info : Word
deriving DecidableEq, Repr

/-- How a group stands towards a halt of its block (R344). -/
inductive Hold where
  | run
  | skid
  | stopped
  /-- single step without FREEZE: only this group is halted (R371) -/
  | solo
deriving DecidableEq, Repr

/-- The trap registers 0x020 to 0x027 (Table 2-4). -/
structure Trap where
  code : Word := 0
  pcLo : Word := 0
  pcHi : Word := 0
  addrLo : Word := 0
  addrHi : Word := 0
  mask : Word := 0
  info : Word := 0
  skid : Word := 0
deriving DecidableEq, Repr

/-- A group (Table 2-1, chapters 5, 9, 11 and 16). -/
structure Group where
  block : Nat := 0
  gid : Nat := 0
  core : Nat := 0
  slot : Nat := 0
  /-- identifier of R248 -/
  id : BitVec 18 := 0
  state : GState := .resident
  regs : List LaneVec := []
  preds : Vector Mask 8 := Vector.replicate 8 0
  exited : Mask := 0
  frags : List Frag := []
  /-- the group's 15 split entries -/
  splits : List (Option Split) := List.replicate 15 none
  nextFid : Nat := 1
  tiles : List Tile := []
  futures : List Future := List.replicate 32 {}
  ops : List MatOp := []
  opSeq : Nat := 0
  /-- operations issued since the last `mbclose`, and the tiles whose errors they met (R198, R200) -/
  opened : Nat := 0
  openErr : List Nat := []
  /-- number the next `mbclose` assigns, and the closed batches outstanding, oldest first -/
  nextBatch : BitVec 4 := 0
  closed : List (BitVec 4) := []
  batchErr : List (BitVec 4 × Nat) := []
  /-- errors that engine commands of the group left at barrier words and ring slots: key and error (R302) -/
  barErr : List (Nat × Deferred) := []
  xfers : List Xfer := []
  outst : List Outst := []
  poison : List Poison := []
  check : Option Check := none
  clk : BitVec 24 := 0
  know : KVec := Vector.replicate 16 0
  race : RaceMode := .off
  /-- no scratchpad race is reported until the next barrier phase (R254) -/
  spBlind : Bool := false
  prio : Nat := 0
  ceiling : Nat := 0
  /-- SUBT, and the subtree the group was created in (R309) -/
  subt : Word := 0
  member : Word := 0
  trap : Trap := {}
  hold : Hold := .run
  skid : Nat := 0
  pending : Option PendFault := none
  frame : Option Frag := none
  /-- stopping fragment, while the block stops -/
  stopFid : Nat := 0
  debugStep : Bool := false
  debugFreeze : Bool := false
  traced : Bool := false
  optLc : Bool := false
  optSt : Bool := false
  optTs : Bool := false
  /-- whole cycles without an issue up to now, and whether their STALL packet is written (R374) -/
  idle : Nat := 0
  idleTold : Bool := false
  /-- the PC of the latest instruction that it has issued in the running cycle, and in the cycle before (R121, R380) -/
  issuedNow : Option (BitVec 52) := none
  issuedLast : Option (BitVec 52) := none
  /-- the code of its latest whole cycle, and for each code the whole cycles since its latest placement or restore (R121, R382) -/
  code : Nat := 0
  codes : List Nat := List.replicate 16 0
  /-- global loads that missed L1 since then (R382) -/
  misses : Nat := 0
  issued : Nat := 0
  placedAt : Nat := 0
  matDone : Nat := 0
  /-- the two counts at its latest placement or restore (R382) -/
  issuedFrom : Nat := 0
  matFrom : Nat := 0
  /-- a pre-emption request of its block is pending, and when it came -/
  preempt : Option Nat := none
  /-- stopped for a save, and its matrix operations stopped too (R199) -/
  quiesced : Bool := false
  matHeld : Bool := false
  /-- cancelled: stops at its next instruction boundary (R313) -/
  struck : Bool := false
  /-- physical registers that its saved image holds (Table 16-5a) -/
  smap : List Nat := []
  /-- the latest L1 fill that an acquire of one of its fragments has retired (R208, R238) -/
  acquired : Nat := 0
deriving DecidableEq, Repr

/-- Who handles a stop (R342). -/
inductive Target where
  | user | system | chovis
deriving DecidableEq, Repr

/-- Where a halt of a block stands; `replaying`: the stopped instruction is issued again before the block is released (R355). -/
inductive HaltPhase where
  | stopping | handling | chovis | replaying
deriving DecidableEq, Repr

/-- The halt of a block (R344). -/
structure Halt where
  stopper : Nat
  code : Nat
  target : Target
  phase : HaltPhase := .stopping
  /-- the cycle of the stop, and whether it has passed: until then a stop of a lower GID goes first (R348) -/
  cyc : Nat := 0
  told : Bool := false
deriving DecidableEq, Repr

/-- Where a block is (Table 5-1, R363). -/
inductive Place where
  | placed | parked | saved | done
deriving DecidableEq, Repr

/-- A block of groups. -/
structure Block where
  launch : Nat := 0
  bid : Word := 0
  gcount : Nat := 1
  /-- a spawned child's block of one group (R306) -/
  child : Bool := false
  place : Place := .placed
  cores : List Nat := []
  spSize : Nat := 0
  sp : Mem := []
  spBad : List Nat := []
  /-- scratchpad race records (R254), and whether they are kept -/
  spRec : Mem := []
  spRace : Bool := false
  cbar : List Word64 := List.replicate 16 0
  btag : BitVec 16 := 0
  committed : Bool := false
  halt : Option Halt := none
  terminated : Bool := false
  /-- vectors captured by arrivals of the running phase of a barrier word (key), and the merged vector of the last phase of each of its
  generations (16 × key + generation) (R249) -/
  arrived : List (Nat × KVec) := []
  phases : List (Nat × KVec) := []
  /-- the slot-wise maximum of the vectors of its groups that have retired, its completion vector (Table 11-4) -/
  know : KVec := Vector.replicate 16 0
  /-- ring slots completed out of order, by header and index; and, for each index that WIDX has passed, what its await acquires (R291) -/
  ringDone : List (Nat × Nat × KVec) := []
  ringVecs : List (Nat × Nat × KVec) := []
  /-- pending pre-emption: the reason of the save image, 0 none -/
  reason : Nat := 0
  /-- it is parked or saved since, and where its image stands -/
  since : Nat := 0
  image : Nat := 0
  /-- the image as the device wrote it, and the scratchpad ranges in it (Table 16-5) -/
  img : List Byte := []
  ranges : List (Nat × Nat) := []
deriving DecidableEq, Repr

/-- A kernel descriptor (Table 18-5). -/
structure Kernel where
  entry : Nat := 0
  bdim : Nat := 1
  tiles : Nat := 0
  nreg : Nat := 0
  scratch : Nat := 0
  span : Bool := false
  sprace : Bool := false
  race : Bool := false
  idem : Bool := false
  coop : Bool := false
  prio : Nat := 0
  fmt : Word := 0
  handler : Nat := 0
  livemap : Nat := 0
  livecnt : Nat := 0
deriving DecidableEq, Repr

/-- A launch (18.6). -/
structure Launch where
  lid : Word := 0
  ctx : Nat := 0
  level : Nat := 0
  kernel : Kernel := {}
  karg : Word64 := 0
  nblk : Word := 0
  evt : Nat := 0
  eval : Word64 := 0
  stat : Nat := 0
  rsv : Bool := false
  /-- next block index to place, and blocks discarded under R365 that go first -/
  next : Nat := 0
  again : List Nat := []
  /-- cores that pre-emption frees for its next block (R114, R366) -/
  claim : List Nat := []
  fblk : Nat := 0
  /-- queue and packet number that wait for its completion -/
  queue : Nat := 0
  packet : Nat := 0
  know : KVec := Vector.replicate 16 0
  done : Bool := false
  /-- accesses of its completion that wait for the host (R422) -/
  waits : List Word := []
deriving DecidableEq, Repr

/-- Profiling of a context (R380). -/
structure Prof where
  k : Nat := 8
  ranges : List (Nat × Nat) := []
  /-- 65 rows of 16 counters: one per range, then the outside counters -/
  counts : List (List Nat) := []
deriving DecidableEq, Repr

/-- A context: the copy of its record (Table 18-9) and what the device keeps for it. -/
structure Ctx where
  pasid : Nat := 0
  gen : BitVec 8 := 0
  alive : Bool := true
  root : Nat := 0
  pinWays : BitVec 16 := 0
  ways : BitVec 16 := 0
  ceiling : BitVec 2 := 0
  raceDef : RaceMode := .off
  raceGrant : BitVec 3 := 0
  trace : Bool := false
  stamp : Bool := false
  replay : Bool := false
  traceDef : Bool := false
  cap : Nat := 8
  syncK : Nat := 6
  shadow : Nat := 0
  save : Nat := 0
  saveLog : Nat := 0
  sysh : Nat := 0
  /-- the six rings of Table 18-9, base and n: race, fault, system-call, debug, stamp, replay -/
  rings : List (Nat × Nat) := List.replicate 6 (0, 0)
  traceBase : Nat := 0
  wdog : Nat := 0
  xtmo : Nat := 0
  sync : Nat := 0
  know : KVec := Vector.replicate 16 0
  raceSeq : Nat := 0
  raceDrops : Nat := 0
  /-- since when every group waits internally (R408) -/
  wdogFrom : Option Nat := none
  prof : Option Prof := none
  /-- a teardown is in progress: the address of the driver record to answer (R407) -/
  tearing : Option Nat := none
deriving DecidableEq, Repr

/-- A buffer of packets entered by CALL (R395). -/
structure CallFrame where
  addr : Nat
  units : Nat
  pos : Nat := 0
deriving DecidableEq, Repr

/-- What a queue thread is doing inside a packet. -/
inductive Proc where
  | idle
  | launch (li : Nat)
  | feed (handle : Word) (records : List (List Byte))
  /-- when the word was first tested, and TMO -/
  | wait (since tmo : Nat)
  /-- the masked cores -/
  | reserve (mask : Nat)
deriving DecidableEq, Repr

/-- A packet processed and not completed (R392). -/
structure Flight where
  index : Nat
  units : Nat
  intr : Bool
  /-- parts of it (itself, and packets of its buffers) that have not completed -/
  parts : Nat
  ended : Bool := false
  /-- parts that an error in a CALL buffer gave up; they hold DONE back until the queue restarts -/
  lost : Nat := 0
deriving DecidableEq, Repr

/-- A queue as Chovis holds it (18.2). -/
structure Queue where
  enabled : Bool := false
  pasid : Nat := 0
  desc : Nat := 0
  base : Nat := 0
  logsz : Nat := 0
  prio : Nat := 0
  rt : Bool := false
  intvec : Byte := 0
  pin : Bool := false
  mapped : Bool := false
  /-- the thread that it owns while it is mapped (R20) -/
  thread : Nat := 0
  /-- since when it waits for a thread, its ring is empty, its thread is blocked (R388) -/
  since : Option Nat := none
  emptyAt : Option Nat := none
  blockedAt : Option Nat := none
  /-- issues that the thread still owes to the packet at hand before its last (Table 18-4) -/
  lag : Option Nat := none
  ridx : Nat := 0
  done : Nat := 0
  stopped : Bool := false
  proc : Proc := .idle
  /-- units of the packet in processing -/
  units : Nat := 0
  /-- an error that the thread will see when it is idle (R395, R401) -/
  owedErr : Nat := 0
  calls : List CallFrame := []
  flights : List Flight := []
  /-- the 16-byte units of the window, from RIDX on (R396) -/
  win : List (List Byte) := []
  /-- kernel descriptors held for the window's launches -/
  winDesc : List (Nat × List Byte) := []
  /-- a packet access that waits for the host (R422) -/
  xtok : Option Word := none
  /-- a descriptor access that waits for the host, or has failed -/
  dtok : Option Word := none
  /-- ERR, and STATE as last written to the descriptor (Table 18-1) -/
  err : Nat := 0
  shown : Nat := 0
deriving DecidableEq, Repr

/-- States of a subtree object (R308). -/
inductive TreeState where
  | free | open | ended | cancelled
deriving DecidableEq, Repr

/-- A subtree object (14.3). -/
structure Subtree where
  st : TreeState := .free
  gen : Nat := 0
  ctx : Nat := 0
  hold : Bool := false
  relReq : Bool := false
  parent : Word := 0
  deadline : Nat := 0
  opener : Nat := 0
  ended : Bool := false
  know : KVec := Vector.replicate 16 0
deriving DecidableEq, Repr

/-- A pool (14.4). -/
structure Pool where
  bound : Bool := false
  gen : Nat := 0
  ctx : Nat := 0
  base : Nat := 0
  nodeb : Nat := 64
  cap : Nat := 0
  head : Nat := 0
  bump : Nat := 0
  free : Nat := 0
  vec : KVec := Vector.replicate 16 0
deriving DecidableEq, Repr

/-- A row of a Syzygy buffer (14.5). -/
structure Row where
  valid : Bool := true
  put : Bool := false
  /-- its result still goes to its owner: no row of the push was voided -/
  wanted : Bool := true
  gi : Nat := 0
  lane : Nat := 0
  fut : Nat := 0
  words : List Word := []
  vec : KVec := Vector.replicate 16 0
deriving DecidableEq, Repr

/-- States of a Syzygy buffer. -/
inductive BufState where
  | free | filling | ready | taken
deriving DecidableEq, Repr

/-- A Syzygy buffer. -/
structure Buf where
  st : BufState := .free
  rows : List Row := []
  since : Nat := 0
  /-- order among ready buffers -/
  order : Nat := 0
  seq : Nat := 0
  taker : Nat := 0
deriving DecidableEq, Repr

/-- A Syzygy queue (R319). -/
structure Syzygy where
  bound : Bool := false
  gen : Nat := 0
  ctx : Nat := 0
  cfg : Word := 0
  bufs : List Buf := List.replicate 4 {}
  seq : Nat := 0
  order : Nat := 0
deriving DecidableEq, Repr

/-- A feed queue (14.6). -/
structure Feed where
  bound : Bool := false
  gen : Nat := 0
  ctx : Nat := 0
  base : Nat := 0
  n : Nat := 4
  bytes : Nat := 16
  head : Nat := 0
  tail : Nat := 0
  vecs : List (Option KVec) := []
deriving DecidableEq, Repr

/-- A child that waits for a slot (R28, R306). -/
structure Child where
  parent : Nat
  launch : Nat
  entry : BitVec 52
  lanes : Mask
  args : List Word
  fmt : Word
  prio : Nat
  race : RaceMode
  member : Word
  know : KVec
  traced : Bool
  optLc : Bool
  optSt : Bool
  optTs : Bool
deriving DecidableEq, Repr

/-- A copy, gather or scatter command (chapter 13): what it captured at issue. -/
structure CopyCmd where
  /-- issuing group, or none for a COPY packet of a queue -/
  gi : Option Nat := none
  queue : Nat := 0
  ctx : Nat := 0
  block : Nat := 0
  core : Nat := 0
  lane : Nat := 0
  /-- 0 cpt, 1 cpm, 2 cps, 3 cpf, 4 cpr, 5 gth, 6 sct, 7 sctr, 8 COPY packet -/
  kind : Nat := 0
  record : List Word := []
  coords : List Int := []
  data : Nat := 0
  gaddr : Nat := 0
  stride : Nat := 0
  rowBytes : Nat := 0
  bytes : Nat := 0
  index : List Nat := []
  /-- the L2 class of its global accesses (Table 10-5), and the error and the race that the reading of its index list met -/
  lcls : Nat := 0
  listErr : Option (Nat × Nat) := none
  listRace : Option Deferred := none
  dir : Bool := false
  rop : Nat := 0
  mcast : BitVec 4 := 0
  rel : Bool := false
  acq : Bool := false
  scope : BitVec 2 := 0
  barrier : Bool := false
  obj : Nat := 0
  slot : Nat := 0
  /-- the places it had reserved, when its ring has been initialised since it was accepted (R297) -/
  kept : Option (List Nat) := none
  /-- race mode of the issuing group, and the translation faults it waits for -/
  race : RaceMode := .off
  waits : List Word := []
  /-- fragments whose earlier accesses come before the command's, and the issue number (R208, R240) -/
  fids : List Nat := []
  since : Nat := 0
  id : BitVec 18 := 0
  clk : BitVec 24 := 0
  know : KVec := Vector.replicate 16 0
  pc : BitVec 52 := 0
deriving DecidableEq, Repr

/-- A collision or dynamics command (chapter 15). -/
structure LaneCmd where
  gi : Nat := 0
  ctx : Nat := 0
  core : Nat := 0
  op : Nat := 0
  lanes : Mask := 0
  head : Nat := 0
  recs : List (Nat × Nat × Nat) := []
  fut : Nat := 0
  body : Nat := 0
  race : RaceMode := .off
  waits : List Word := []
  fids : List Nat := []
  since : Nat := 0
  rel : Bool := false
  scope : BitVec 2 := 0
  id : BitVec 18 := 0
  clk : BitVec 24 := 0
  know : KVec := Vector.replicate 16 0
  pc : BitVec 52 := 0
deriving DecidableEq, Repr

/-- A copy of a line in a core's L1 (R208). -/
structure L1Line where
  core : Nat
  line : Nat
  bytes : List Byte
  fill : Nat
  /-- brought in by a `.cs` access: the first victim (Table 10-5) -/
  stream : Bool := false
  /-- an uncorrectable error stands in the copy (R356) -/
  bad : Bool := false
deriving DecidableEq, Repr

/-- A line held in L2 (R18, R209): the way of its home slice and the context that brought it in. -/
structure L2Line where
  line : Nat
  way : Nat
  pasid : Nat
  /-- 0 evicted first, 1 normal, 2 evicted last (Table 10-5) -/
  rank : Nat := 1
deriving DecidableEq, Repr

/-- A copy of a line of code in a core's instruction cache (R220). -/
structure ILine where
  core : Nat
  pasid : Nat
  gen : BitVec 8
  line : Nat
  bytes : List Byte
deriving DecidableEq, Repr

/-- The result of a walk: the page's frame and its permissions (Table 19-3). -/
structure Xlate where
  /-- the number of the 4 KiB frame -/
  frame : Nat
  r : Bool
  w : Bool
  x : Bool
  trk : Bool
  ext : Bool
  cpol : BitVec 2
  dcls : BitVec 2
  /-- the level at which the leaf stands (R416) -/
  level : Nat := 0
deriving DecidableEq, Repr
/-- Where the page begins. -/
def Xlate.page (x : Xlate) : Nat := 4096 * x.frame

/-- A translation held in the TLB of a core, or in the L2 TLB of a cluster (R420). -/
structure TlbEntry where
  /-- the core, or the cluster -/
  core : Nat
  pasid : Nat
  gen : BitVec 8
  vpn : Nat
  x : Xlate
deriving DecidableEq, Repr

/-- A table entry held in the walk cache (R420): its level, the bits of the virtual address above those that the level indexes below, the entry. -/
structure WalkEntry where
  pasid : Nat
  gen : BitVec 8
  level : Nat
  key : Nat
  entry : Nat
deriving DecidableEq, Repr

/-- A detected race (Table 11-7): type 0 RAW, 1 WAW, 2 WAR, and what is known of the other party. -/
structure RaceHit where
  type : Nat
  oclass : Nat
  oscope : Nat
  oclk : Nat
  oslot : Nat
  oid : Nat
  bytes : Nat
  kslot : Nat
deriving DecidableEq, Repr

/-- Comparisons of R281. -/
inductive WoaCmp where
  | eq | ne | lt | ge | any
deriving DecidableEq, Repr

/-- Who waits on an address (R281, R388, R398, R403). -/
inductive Waiter where
  | frag (gi fid : Nat)
  | queue (q : Nat)
deriving DecidableEq, Repr

/-- A wait-on-address entry (R281, R282). -/
structure Woa where
  n : Nat
  who : Waiter
  pa : Nat
  va : Nat
  mask : Word
  cmp : WoaCmp
  exp : Word
  /-- polled because the table was full or the word is remote (R282, R412) -/
  polls : Bool := false
  nextPoll : Nat := 0
  hit : Option Word := none
  /-- the satisfying write came from outside the part, for the replay record (R384) -/
  ext : Bool := false
  /-- at `.sys` scope or on an EXTERNAL page: not an internal wait (R283) -/
  outer : Bool := false
  /-- its scope, and is its word on a tracked page (R281) -/
  scope : BitVec 2 := 3
  tracked : Bool := false
  /-- the satisfying read has been checked and recorded: the vector that its return merges, and the race in trap mode (R281) -/
  seen : Bool := false
  know : KVec := Vector.replicate 16 0
  race : Option RaceHit := none
  /-- in report mode, a race whose record is still to be written; and whether that read met an uncorrectable error (R356) -/
  report : Option RaceHit := none
  bad : Bool := false
deriving DecidableEq, Repr

/-- A translation fault that waits for the host (R422, Table 19-5). -/
structure XFault where
  token : Word
  pasid : Nat
  gen : BitVec 8
  page : Nat
  source : Nat
  acc : Nat
  code : Nat
  level : Nat
  lid : Word
  gid : BitVec 18
  time : Nat
  /-- written to the fault ring -/
  told : Bool := false
  failed : Bool := false
deriving DecidableEq, Repr

/-- A record that Chovis owes to a ring (R405, R368). -/
structure ChovisRec where
  ctx : Nat
  /-- ring of Table 18-11: 1 fault, 3 debug -/
  ring : Nat
  bytes : List Byte
  /-- interrupt source: 1 fault, 2 debug -/
  src : Nat
  held : Bool := false
deriving DecidableEq, Repr

/-- A system call in progress (R352, R353). -/
structure SysReq where
  ctx : Nat
  gi : Nat
  fid : Nat
  bytes : List Byte
  dreg : Nat
  lanes : Mask
  inHandler : Bool
  /-- index in the ring once written -/
  entry : Option Nat := none
deriving DecidableEq, Repr

/-- A trace packet in a cluster's buffer (R373). -/
structure Packet where
  pasid : Nat
  ty : Byte
  cpos : Nat := 0
  low : Nat := 0
  gslot : Nat := 0
  lstamp : Option (BitVec 24) := none
  cyc : Nat
  payload : List Byte
  /-- its DT is 0 whatever came before (R375, R377) -/
  dt0 : Bool := false
  /-- the cluster's clock in MHz when it entered, for CLK0 (R372) -/
  clk : Nat := 0
deriving DecidableEq, Repr

/-- A cluster's trace unit (17.3, 17.4). -/
structure TraceUnit where
  buf : List Packet := []
  /-- packets put in and drained since reset -/
  entered : Nat := 0
  drained : Nat := 0
  dropped : Nat := 0
  total : Nat := 0
  /-- contexts to resynchronise -/
  lossy : List Nat := []
  /-- rings started: context and cycle of the last packet -/
  rings : List (Nat × Nat) := []
  /-- the cycle of its latest SYNC or FREQ, from which the next SYNC counts (R375) -/
  lastSync : Nat := 0
  /-- contexts whose ring has had its first SYNC (R372) -/
  synced : List Nat := []
  /-- a resynchronisation under way: its next stage, the cycle of that stage, the contexts (R377) -/
  resync : Option (Nat × Nat × List Nat) := none
deriving DecidableEq, Repr

/-- Boot states (Table 19-6). -/
inductive Boot where
  | reset | rom | verify | fwinit | ready | hold | mbxrun | fatal
deriving DecidableEq, Repr

/-- The management registers that hold state (Table 19-4). -/
structure Mgmt where
  boot : Boot := .reset
  err : Byte := 0
  drvring : Word64 := 0
  invalVa : Word64 := 0
  /-- the range and the context of the invalidation that runs, as they stood at GO (R421) -/
  invalAt : Word64 := 0
  invalAtAll : Bool := false
  invalAtPasid : BitVec 20 := 0
  invalBusy : Bool := false
  invalAll : Bool := false
  invalPasid : BitVec 20 := 0
  peerOff : Word64 := 0
  peerUp : Bool := false
  peerValid : Bool := false
  peerWin : Word64 := 0
  power : BitVec 9 := 220
  temp : Byte := 0
  throttling : Bool := false
  pinnedLow : Bool := false
  mbxBusy : Bool := false
  mbxResult : BitVec 7 := 0
  mbxOp : Byte := 0
  mbxLen : BitVec 24 := 0
  meas1 : List Byte := List.replicate 32 0
  svn : Word := 0
  /-- the identity key has been derived (R427) -/
  identity : Bool := false
deriving DecidableEq, Repr

/-- A message that the part has sent over a link (R411 to R414). -/
inductive Msg where
  | int (m : Word)
  | data (party : Party) (bytes : List Byte)
  | ack (party : Party)
  | old (party : Party) (v : BitVec 128)
  | error (party : Party)
  /-- the answer to a TIME request, and a request to the peer (R414) -/
  | time (party : Party) (h d1 d2 : Word64)
  | timeAsk (h : Word64)
  /-- what a read of the management window gives (R426) -/
  | reg (off : Nat) (v : Word64)
  | snoop (line : Nat)
deriving DecidableEq, Repr

/-- Where an uncorrectable soft error strikes (Table 16-4): a register of a group in some lanes, a predicate, the FMT of a fragment, what else the
scheduler keeps of a fragment, the line of a physical address at its home, a copy of a line in a core's L1, bytes of a block's scratchpad, a tile. -/
inductive Upset where
  | reg (gi r : Nat) (lanes : Mask)
  | pred (gi p : Nat)
  | fmt (gi fid : Nat)
  | sched (gi fid : Nat)
  | home (pa : Nat)
  | l1 (core line : Nat)
  | scratch (bi off : Nat)
  | tile (gi t : Nat)
deriving DecidableEq, Repr

/-- What reaches the part from outside, or befalls it, and has not been taken: the step that takes it is the device step of the
same name. -/
inductive Input where
  | rd (src : Party) (pa len : Nat)
  | wr (src : Party) (pa : Nat) (bytes : List Byte)
  | atm (src : Party) (op : AtomOp) (pa : Nat) (v c : BitVec 128)
  | own (pa : Nat)
  | snp (pa : Nat)
  | time (src : Party) (h : Word64)
  /-- the peer's answer to a TIME request of the part: no step of its own -/
  | peerTime (h d1 d2 : Word64)
  /-- n bytes written to the management window; n bytes read: no step of their own, nor a write of another size than 8 (R426) -/
  | mgmt (off n : Nat) (v : Word64)
  | mgmtRead (off n : Nat)
  /-- firmware from the mailbox begins to rewrite the flash, and has rewritten it: no steps of their own (R425) -/
  | flashErase
  | flashWrite (bytes : List Byte)
  | powerOn
  | peerLink (up : Bool)
  | linkFailure
  | fatal (cause : Nat)
  | throttle (on : Bool) (temp : Nat)
  | pinnedLow
  | thermalTrip
  | clock (cl mhz : Nat)
  /-- bytes of host or peer memory change there: no step, for nothing reaches the part -/
  | elsewhere (pa : Nat) (bytes : List Byte)
  /-- a soft error that ECC corrects in an SRAM of a core, and one that it cannot correct (R13, R356): no step of their own -/
  | corrected (core : Nat)
  | upset (u : Upset)
deriving DecidableEq, Repr

/-- The pipes of a partition (Table 5-6). -/
inductive Pipe where
  | vector | uniform | memory | special
deriving DecidableEq, Repr

/-- What a fragment has done in the running cycle of its core: it issued an instruction or was only tried, the pipes that the instruction may have taken, and
what R116 compares (R116, R117, R122). -/
structure Issued where
  part : Nat
  gi : Nat
  fid : Nat
  did : Bool := true
  pipes : List Pipe
  prio : Nat := 0
  spin : Bool := false
  /-- the registers and predicates (512 + p) that it writes, whether it wrote FMT, and whether the fragment goes on behind it in the same window -/
  writes : List Nat := []
  fmt : Bool := false
  straight : Bool := true
deriving DecidableEq, Repr

/-- The state of the machine. -/
structure State where
  /-- device time in ns, a 64-bit count (R7), and the picoseconds of the running nanosecond -/
  time : Nat := 0
  fine : Nat := 0
  /-- how far each cluster is in its running cycle, in ps × MHz, below 10^6 (R376) -/
  phase : List Nat := List.replicate 16 0
  /-- issues of the running cycles (R116) -/
  issues : List Issued := []
  /-- the thread of Chovis's service port that was served last (R20) -/
  service : Nat := 0
  /-- it has issued in the running cycle of Chovis -/
  serviced : Bool := false
  /-- does the instruction that issues read FMT (R56, R356)? -/
  readsFmt : Bool := false
  /-- steps taken, the argument of the free times -/
  steps : Nat := 0
  /-- free values drawn -/
  draws : Nat := 0
  /-- issue number of the latest issued instruction -/
  seq : Nat := 0
  /-- the issuing group and the place of its fragment -/
  cur : Option (Nat × Nat) := none
  /-- physical memory (Table 19-1) -/
  mem : Mem := []
  /-- bytes not yet rewritten of the lines that hold an uncorrectable error at their home: such a line stays poisoned as a whole until every
  byte of it has been written (R217) -/
  memBad : List Nat := []
  groups : List Group := []
  blocks : List Block := []
  launches : List Launch := []
  ctxs : List Ctx := []
  /-- generation of each PASID torn down before (R404) -/
  gens : List (Nat × BitVec 8) := []
  /-- queues by number -/
  queues : List (Nat × Queue) := []
  trees : List Subtree := List.replicate 256 {}
  pools : List Pool := List.replicate 256 {}
  syzygy : List Syzygy := List.replicate 128 {}
  feeds : List Feed := List.replicate 64 {}
  spawnq : List Child := []
  unperf : List Store := []
  copies : List CopyCmd := []
  cols : List LaneCmd := []
  dyns : List LaneCmd := []
  l1 : List L1Line := []
  fillNo : Nat := 0
  icache : List ILine := []
  tlb : List TlbEntry := []
  /-- the L2 TLBs of the clusters, the walk cache (R17, R420) and L2 (R18, R209) -/
  tlb2 : List TlbEntry := []
  walks : List WalkEntry := []
  l2 : List L2Line := []
  woas : List Woa := []
  woaNo : Nat := 0
  xfaults : List XFault := []
  token : Nat := 0
  chovis : List ChovisRec := []
  sysreqs : List SysReq := []
  /-- creations in each slot, by 256 × core + slot (R248) -/
  slotGens : List (Nat × Nat) := []
  btags : BitVec 16 := 0
  lid : Word := 0
  /-- context that a core is reserved to, and the clock pinned for it (R34, R395) -/
  reserved : List (Option Nat) := List.replicate 64 none
  pinned : List Nat := List.replicate 64 0
  /-- scratchpad bytes of each core's split (R205) -/
  split : List Nat := List.replicate 64 0
  clock : List Nat := List.replicate 16 1800
  cyc : List Nat := List.replicate 16 0
  traces : List TraceUnit := List.replicate 16 {}
  corrected : List Nat := List.replicate 64 0
  /-- last slot sampled by each partition for a context, by 1024 × PASID + 16 × core + partition, and the cycle (R380) -/
  samples : List (Nat × Nat × Nat) := []
  /-- device lines that the host caches (R412) -/
  hostLines : List Nat := []
  /-- those among them that a store waits for the host to give back -/
  recalls : List Nat := []
  inputs : List Input := []
  outbox : List Msg := []
  mgmt : Mgmt := {}
  drvNext : Nat := 0
  mailbox : Mem := []
  flash : Mem := []
  flashLen : Nat := 0
  /-- a rewriting of the flash has begun and not ended; a reset keeps it (R425) -/
  flashOpen : Bool := false
  fuseSvn : Word := 0
  dumpBase : Nat := 0
  dumpSize : Nat := 0
  fatal : Nat := 0
  /-- the dump of the fatal error waits for the engines' current commands (R386) -/
  dumpOwed : Bool := false
  /-- device time of the last exchange with the peer, and the value of the request that is not answered (R414) -/
  peerAt : Nat := 0
  peerAsk : Option Word64 := none
  /-- the peer's answer that firmware has not taken: H, D1, D2 and the device time at which it came -/
  peerSaid : Option (Word64 × Word64 × Word64 × Word64) := none
  /-- replay records that wait for room, by PASID, the oldest first (R384) -/
  replayQ : List (Nat × List Byte) := []
deriving DecidableEq, Repr

/-- The machine at power-on (R423, Table 19-6): boot state RESET, every register at its reset value, memory with nothing listed. -/
def State.reset : State := {}

end Sys2Proof.Machine
end

