-- ==== Sys2Proof/WellFormed.lean ====
section
/-! DEFINITION. Sys2Proof/WellFormed.lean: the operand values of an instruction that decoding refuses after the field positions
themselves are read (checks 3 of R61): reserved operand codes (ILL detail 5), operands whose alignment depends on another
field (detail 6) and special register numbers (detail 7). -/

namespace Sys2Proof

/-- Rounding codes 5 and 6 are reserved (R86, R149). -/
def badRound (m : BitVec 3) : Bool := m == 5 || m == 6

/-- `fmt.set` values outside Table R168, and selector 7. -/
def badFmtField (s : BitVec 3) (v : Fld) : Bool :=
  match s.toNat with
  | 0 => decide (15 < v.toNat)
  | 1 => decide (15 < v.toNat)
  | 2 => decide (3 < v.toNat)
  | 3 => decide (3 < v.toNat)
  | 4 => decide (1 < v.toNat)
  | 5 => decide (4 < v.toNat)
  | 6 => decide (7 < v.toNat)
  | _ => true

/-- A scope without an acquire or release flag is reserved (R292, R329). -/
def badFlags (scope : BitVec 2) (rel acq : BitVec 1) : Bool := scope != 0 && rel == 0 && acq == 0

/-- The bit width of an element code (Table 2-7, R64). -/
def elemWidth (e : BitVec 4) : Nat :=
  match e.toNat with
  | 0 => 32 | 1 => 16 | 2 => 16 | 3 => 8 | 4 => 8 | 5 => 6 | 6 => 6 | 7 => 4
  | 8 => 8 | 9 => 8 | 10 => 4 | 11 => 4 | 12 => 2 | 13 => 2 | 14 => 4 | _ => 8

/-- Elements of a packed register (R159, R177). -/
def packCount (e : BitVec 4) : Nat := 32 / elemWidth e

/-- Registers of a packed square block of width code w (R167, R169): half the element width. -/
def sbRegs (w : BitVec 2) : Nat :=
  match w.toNat with
  | 1 => 1
  | 2 => 2
  | 3 => 4
  | _ => 1

/-- Register alignment of the MEMX data field of a load size (Table 10-1). -/
def ldAlign (z : BitVec 3) : Nat :=
  match z.toNat with
  | 5 => 2
  | 6 => 4
  | _ => 1

/-- Register alignment of the MEMX data field of a store size (Table 10-1). -/
def stAlign (z : BitVec 3) : Nat :=
  match z.toNat with
  | 3 => 2
  | 4 => 4
  | _ => 1

/-- A register field that is not a multiple of its alignment (R40). -/
def badSize (d : Fld) (n : Nat) : Bool := decide (d.toNat % n ≠ 0)

/-- The special register numbers of Table 2-4. -/
def sregKnown (i : BitVec 14) : Bool :=
  (decide (i.toNat ≤ 0x18) && i != 0x17) || (decide (0x20 ≤ i.toNat) && decide (i.toNat ≤ 0x27))

/-- The writable special registers of Table 2-4. -/
def sregWritable (i : BitVec 14) : Bool :=
  i == 0x0B || i == 0x0C || i == 0x18 || (decide (0x20 ≤ i.toNat) && decide (i.toNat ≤ 0x27))

/-- A reserved operand code (R86, R87, R167 and the entries): ILL detail 5. For an element code of `mxexp` outside 3 to 8 no rule names a fault; it is taken as the
other reserved codes are: DESIGN CHOICE, log entry 75. -/
def Instr.badCode : Instr → Bool
  | .fmask _ _ s => s == 3
  | .frint _ _ _ m => badRound m
  | .cvt _ _ _ _ e m => badRound m || decide (13 ≤ e.toNat)
  | .fmtSet _ s v => badFmtField s v
  | .sbq _ _ _ w _ => w == 0
  | .sbdq _ _ w _ _ => w == 0
  | .uexp _ _ _ w => w == 0
  | .mxexp _ _ _ e => decide (e.toNat < 3) || decide (8 < e.toNat)
  | .pack _ _ a e => e == 0 || decide (127 < a.toNat + packCount e - 1)
  | .unpack _ d _ e => e == 0 || decide (127 < d.toNat + packCount e - 1)
  | .rmode _ m => m == 3
  | .icinv _ _ s => s == 3
  | .ldx _ _ _ _ c z _ => z == 7 || c == 3
  | .stx _ _ _ _ c z _ => z == 7 || c == 3
  | .ldsx _ _ _ z _ => z == 7
  | .stsx _ _ _ z _ => z == 7
  | .cpt _ _ _ _ _ s e q _ _ => badFlags s e q
  | .cps _ _ _ _ _ s e q _ _ => badFlags s e q
  | .cpf _ _ _ _ _ _ s e q _ _ => badFlags s e q
  | .gth _ _ _ _ _ s e q _ _ => badFlags s e q
  | .sct _ _ _ _ _ s e q _ _ => badFlags s e q
  | .cpm _ _ _ _ m _ s e q _ => badFlags s e q || m == 0
  | .cpr _ _ _ _ r _ s e q _ _ => badFlags s e q || decide (6 ≤ r.toNat)
  | .sctr _ _ _ _ r _ s e q _ _ => badFlags s e q || decide (6 ≤ r.toNat)
  | .colRay _ _ _ _ s e q _ => badFlags s e q
  | .colSph _ _ _ _ s e q _ => badFlags s e q
  | .colBox _ _ _ _ s e q _ => badFlags s e q
  | .colSweep _ _ _ _ s e q _ => badFlags s e q
  | .colDist _ _ _ _ s e q _ => badFlags s e q
  | .colUpd _ _ _ _ s e q _ => badFlags s e q
  | .dynFk _ _ _ _ s e q _ => badFlags s e q
  | .dynId _ _ _ _ s e q _ => badFlags s e q
  | .dynFd _ _ _ _ s e q _ => badFlags s e q
  | .dynStep _ _ _ _ s e q _ => badFlags s e q
  | .dynJac _ _ _ _ _ s e q _ => badFlags s e q
  | .dynMass _ _ _ _ s e q _ => badFlags s e q
  | .phint _ _ _ _ t r _ => t == 3 || (t != 1 && r != 0)
  | .ppoint _ _ _ _ t r _ => t == 3 || (t != 1 && r != 0)
  | _ => false

/-- An operand misaligned for its width (R40, R167, R270, R274): ILL detail 6. -/
def Instr.badAlign : Instr → Bool
  | .sbq _ d _ w _ => decide (d.toNat % sbRegs w ≠ 0)
  | .sbdq _ _ w a _ => decide (a.toNat % sbRegs w ≠ 0)
  | .ldx _ d _ _ _ z _ => badSize d (ldAlign z)
  | .stx _ d _ _ _ z _ => badSize d (stAlign z)
  | .ldsx _ d _ z _ => badSize d (ldAlign z)
  | .stsx _ d _ z _ => badSize d (stAlign z)
  | .aadd64 _ _ a _ _ p => !p.getLsbD 0 && a.getLsbD 0
  | .aminI64 _ _ a _ _ p => !p.getLsbD 0 && a.getLsbD 0
  | .amaxI64 _ _ a _ _ p => !p.getLsbD 0 && a.getLsbD 0
  | .aminZ64 _ _ a _ _ p => !p.getLsbD 0 && a.getLsbD 0
  | .amaxZ64 _ _ a _ _ p => !p.getLsbD 0 && a.getLsbD 0
  | .axch64 _ _ a _ _ p => !p.getLsbD 0 && a.getLsbD 0
  | .acas _ _ a _ _ p _ => !p.getLsbD 0 && a.getLsbD 0
  | .acas64 _ _ a _ _ p _ => !p.getLsbD 0 && a.getLsbD 0
  | .acas128 _ _ a _ _ p _ => !p.getLsbD 0 && a.getLsbD 0
  | .amaxp _ _ a _ _ p => !p.getLsbD 0 && a.getLsbD 0
  | .vconf _ _ a w => w.getLsbD 0 && a.getLsbD 0
  | .vconfl _ _ a w => w.getLsbD 0 && a.getLsbD 0
  | .vuniq _ _ a w => w.getLsbD 0 && a.getLsbD 0
  | _ => false

/-- An unlisted or read-only special register number (R52): ILL detail 7. -/
def Instr.badSreg : Instr → Bool
  | .srd _ _ i => !sregKnown i
  | .swr _ _ i => !sregWritable i
  | _ => false

/-- Is this one of the device's own steps, which have no instruction word (spec/95)? -/
def Instr.isStep : Instr → Bool
  | .fragmentArrive .. => true
  | .fragmentAged .. => true
  | .loadReturn .. => true
  | .atomicReturn .. => true
  | .accessCheckReturn .. => true
  | .accessPerformed .. => true
  | .blockPark .. => true
  | .blockRestore .. => true
  | .preemptionRequest .. => true
  | .preemptForcedStop .. => true
  | .matrixQuiescence .. => true
  | .saveComplete .. => true
  | .matrixOpComplete .. => true
  | .tileTransferComplete .. => true
  | .siblingStop .. => true
  | .handlerEntry .. => true
  | .chovisFaultRecord .. => true
  | .sysReply .. => true
  | .eventRingRoom .. => true
  | .woaPoll .. => true
  | .copyCommandComplete .. => true
  | .collisionCommandComplete .. => true
  | .dynamicsCommandComplete .. => true
  | .replayableFaultRecord .. => true
  | .faultResponseTimeout .. => true
  | .translationWalkComplete .. => true
  | .syzygyTimeout .. => true
  | .deadlineExpire .. => true
  | .queueMap .. => true
  | .queueUnmapIdle .. => true
  | .launch .. => true
  | .feed .. => true
  | .wait .. => true
  | .waitTimeout .. => true
  | .signal .. => true
  | .fetchFence .. => true
  | .callPacket .. => true
  | .returnPacket .. => true
  | .timestamp .. => true
  | .priority .. => true
  | .copy .. => true
  | .event .. => true
  | .nopPacket .. => true
  | .reserveCores .. => true
  | .releaseCores .. => true
  | .watchdogExpire .. => true
  | .xtmoExpire .. => true
  | .ctxCreate .. => true
  | .ctxTeardown .. => true
  | .teardownComplete .. => true
  | .queueSet .. => true
  | .poolBind .. => true
  | .cqBind .. => true
  | .feedBind .. => true
  | .blockResume .. => true
  | .blockTerm .. => true
  | .dbgSet .. => true
  | .dbgIcinv .. => true
  | .prof .. => true
  | .dumpSet .. => true
  | .driverUnknownCommand .. => true
  | .drvring .. => true
  | .ctl .. => true
  | .invalCtl .. => true
  | .invalidationComplete .. => true
  | .fresp .. => true
  | .power .. => true
  | .mbxBootImage .. => true
  | .mbxQuote .. => true
  | .mgmtRegisterWrite .. => true
  | .time .. => true
  | .peerTimeExchange .. => true
  | .rd .. => true
  | .wr .. => true
  | .atm .. => true
  | .own .. => true
  | .snp .. => true
  | .peerLinkChange .. => true
  | .linkFailure .. => true
  | .powerOn .. => true
  | .rom .. => true
  | .verify .. => true
  | .fwinit .. => true
  | .fatalError .. => true
  | .throttle .. => true
  | .pinnedClockLower .. => true
  | .thermalTrip .. => true
  | .clockChange .. => true
  | .sync .. => true
  | .stall .. => true
  | .traceLossResync .. => true
  | .traceDrain .. => true
  | .profileSample .. => true
  | .illegalInstruction .. => true
  | .instructionFetchFault .. => true
  | .completionPathReturn .. => true
  | _ => false

/-- A coded instruction whose operands decoding accepts. -/
def Instr.wellFormed (i : Instr) : Bool := !i.isStep && !i.badCode && !i.badAlign && !i.badSreg

end Sys2Proof
end

