-- ==== Sys2Proof/Machine/Ops.lean ====
section
/-! DEFINITION. Sys2Proof/Machine/Ops.lean: the named operations over memory, registers, fragments and groups that every meaning is
made of; taking a stop and returning from one (chapter 16). -/

namespace Sys2Proof.Machine

open Sys2Proof

/-! ### Bytes -/

/-- The byte at an address; an unlisted address reads 0. Log entry 14. -/
def Mem.get : Mem → Nat → Byte
  | [], _ => 0
  | (k, b) :: m, a => if a = k then b else if a < k then 0 else Mem.get m a

/-- One byte written, keeping the canonical form. -/
def Mem.set : Mem → Nat → Byte → Mem
  | [], a, b => if b = 0 then [] else [(a, b)]
  | (k, v) :: m, a, b =>
    if a < k then (if b = 0 then (k, v) :: m else (a, b) :: (k, v) :: m)
    else if a = k then (if b = 0 then m else (a, b) :: m)
    else (k, v) :: Mem.set m a b

/-- Every address of the memory is above a bound, addresses rise and no byte is 0. -/
def Mem.wfFrom : Nat → Mem → Bool
  | _, [] => true
  | lo, (k, b) :: m => decide (lo ≤ k) && b != 0 && Mem.wfFrom (k + 1) m

/-- The canonical form of memory. -/
def Mem.wf (m : Mem) : Bool := Mem.wfFrom 0 m

/-- The bytes from an address on. -/
def Mem.read (m : Mem) (a : Nat) : Nat → List Byte
  | 0 => []
  | n + 1 => m.get a :: Mem.read m (a + 1) n

/-- Bytes written from an address on. -/
def Mem.write (m : Mem) (a : Nat) : List Byte → Mem
  | [] => m
  | b :: bs => Mem.write (m.set a b) (a + 1) bs

/-- A little-endian value of n bytes (R3). -/
def Mem.le (m : Mem) (a n : Nat) : Nat := leNat (m.read a n)

/-- Bytes removed: they read 0. -/
def Mem.zero (m : Mem) (a n : Nat) : Mem := m.write a (List.replicate n 0)

/-! ### Lanes, registers, predicates -/

/-- A register that is all zero (R37). -/
def zeroVec : LaneVec := Vector.replicate 16 0

/-- One lane of a physical register. -/
def Group.lane (g : Group) (p l : Nat) : Word := (g.regs[p]?.getD zeroVec)[l]?.getD 0

/-- The lanes of a mask of one register replaced, the others kept (R41). -/
def putLanes (v : LaneVec) (m : Mask) (f : Nat → Word) : LaneVec :=
  Vector.ofFn fun i => if m.has i then f i else v[i]

/-- The poison marks of the lanes of a register cleared (R217). -/
def clearPoison (ps : List Poison) (r : Nat) (m : Mask) : List Poison :=
  ps.filterMap fun p =>
    if p.reg = r then (if p.lanes &&& ~~~m = 0 then none else some { p with lanes := p.lanes &&& ~~~m }) else some p

/-- A physical register written in the lanes of a mask (R41); a write clears the poison marks of those lanes (R217). -/
def Group.setReg (g : Group) (p : Nat) (m : Mask) (f : Nat → Word) : Group :=
  { g with regs := modAt g.regs p (fun v => putLanes v m f), poison := clearPoison g.poison p m }

/-- A predicate of a group. -/
def Group.pred (g : Group) (p : Nat) : Mask := g.preds[p]?.getD 0

/-- A predicate written in the lanes of a mask; predicate p stands as 512 + p among the marks of soft errors (R356). -/
def Group.setPred (g : Group) (p : Nat) (m : Mask) (f : Nat → Bool) : Group :=
  { g with
    preds := Vector.ofFn fun i => if i.val = p then Mask.of (fun l => if m.has l then f l else (g.preds[i]).has l) else g.preds[i],
    poison := clearPoison g.poison (512 + p) m }

/-- The mark that an instruction meets which reads registers and predicates in the lanes of a mask: that of the lowest such lane (R217, R356). -/
def Group.poisonIn (g : Group) (rs : List Nat) (m : Mask) : Option Poison :=
  laneNums.findSome? fun l => if m.has l then g.poison.find? (fun p => rs.contains p.reg && p.lanes.has l) else none

/-! ### Places in the state -/

def State.group (s : State) (gi : Nat) : Group := s.groups[gi]?.getD {}
def State.block (s : State) (bi : Nat) : Block := s.blocks[bi]?.getD {}
def State.launch (s : State) (li : Nat) : Launch := s.launches[li]?.getD {}
def State.modG (s : State) (gi : Nat) (f : Group → Group) : State := { s with groups := modAt s.groups gi f }
def State.modB (s : State) (bi : Nat) (f : Block → Block) : State := { s with blocks := modAt s.blocks bi f }
def State.modL (s : State) (li : Nat) (f : Launch → Launch) : State := { s with launches := modAt s.launches li f }
def Group.frag (g : Group) (fi : Nat) : Frag := g.frags[fi]?.getD {}
def State.modF (s : State) (gi fi : Nat) (f : Frag → Frag) : State :=
  s.modG gi fun g => { g with frags := modAt g.frags fi f }

/-- The block, launch and context of a group. -/
def State.blockOf (s : State) (g : Group) : Block := s.block g.block
def State.launchOf (s : State) (g : Group) : Launch := s.launch (s.blockOf g).launch

/-- The context with a PASID, and its place in the list. -/
def State.ctxAt (s : State) (pasid : Nat) : Option Nat := findAt (fun c => c.alive && c.pasid == pasid) s.ctxs
def State.ctx (s : State) (pasid : Nat) : Ctx :=
  match s.ctxAt pasid with
  | some k => s.ctxs[k]?.getD { alive := false }
  | none => { alive := false }
def State.modC (s : State) (pasid : Nat) (f : Ctx → Ctx) : State :=
  match s.ctxAt pasid with
  | some k => { s with ctxs := modAt s.ctxs k f }
  | none => s
def State.ctxOf (s : State) (g : Group) : Ctx := s.ctx (s.launchOf g).ctx

/-- A queue by its number. -/
def State.queue (s : State) (q : Nat) : Queue :=
  match s.queues.find? (fun e => e.1 == q) with
  | some e => e.2
  | none => {}
def setAssoc {α : Type} : List (Nat × α) → Nat → α → List (Nat × α)
  | [], k, v => [(k, v)]
  | (j, w) :: xs, k, v => if k < j then (k, v) :: (j, w) :: xs else if k = j then (k, v) :: xs else (j, w) :: setAssoc xs k v
def State.setQueue (s : State) (q : Nat) (v : Queue) : State := { s with queues := setAssoc s.queues q v }
def State.modQ (s : State) (q : Nat) (f : Queue → Queue) : State := s.setQueue q (f (s.queue q))

/-- The groups of a block that have not retired, by their places. -/
def State.groupsOf (s : State) (bi : Nat) : List Nat :=
  (indexed s.groups).filterMap fun e => if e.2.block = bi && e.2.state != .retired then some e.1 else none

/-- A group's fragment by its number. -/
def Group.fragAt (g : Group) (fid : Nat) : Option Nat := findAt (fun f => f.fid == fid) g.frags

/-- The cluster of a core (R14). -/
def clusterOf (core : Nat) : Nat := core / 4
def State.cycle (s : State) (core : Nat) : Nat := s.cyc[clusterOf core]?.getD 0

/-- A free value drawn (log entry 7): the value and the state with the counter advanced. -/
def State.draw (s : State) : State × Nat := ({ s with draws := s.draws + 1 }, Config.freeNat s.draws)
/-- A choice of the device among n things (log entry 4); none is drawn when there is only one. -/
def State.chooseOf (s : State) (n : Nat) : State × Nat :=
  if n ≤ 1 then (s, 0) else ({ s with draws := s.draws + 1 }, Config.choose s.draws % n)
/-- n free values drawn (log entry 7), as a function of their places. -/
def State.drawMany (s : State) (n : Nat) : State × (Nat → Nat) := ({ s with draws := s.draws + n }, fun k => Config.freeNat (s.draws + k))
/-- n free bytes. -/
def State.drawBytes (s : State) (n : Nat) : State × List Byte := let (s, f) := s.drawMany n; (s, (List.range n).map fun k => BitVec.ofNat 8 (f k))
/-- Things in an order that the device chooses. -/
def mixFrom {α : Type} (n : Nat) : List α → List α
  | [] => []
  | x :: xs =>
    let ys := mixFrom (n + 1) xs
    let k := Config.choose n % (ys.length + 1)
    ys.take k ++ x :: ys.drop k
/-- The order in which things that the spec leaves unordered happen (R188, R293, R296, R331; log entry 4); none is drawn for one thing. -/
def State.mixed {α : Type} (s : State) (xs : List α) : State × List α :=
  if xs.length ≤ 1 then (s, xs) else ({ s with draws := s.draws + xs.length }, mixFrom s.draws xs)

/-! ### Clocks and vectors (R249) -/

/-- The slot hash of an identifier (R248). -/
def slotHash (id : BitVec 18) : Nat :=
  (id.extractLsb' 0 4 ^^^ id.extractLsb' 4 4 ^^^ id.extractLsb' 8 4 ^^^ id.extractLsb' 12 4 ^^^ ((0 : BitVec 2) ++ id.extractLsb' 16 2)).toNat

def KVec.get (k : KVec) (j : Nat) : Nat := (k[j]?.getD 0).toNat
def maxB {n : Nat} (a b : BitVec n) : BitVec n := if a.toNat ≤ b.toNat then b else a
/-- Slot-wise maximum (Table 0-1, Merge). -/
def KVec.merge (a b : KVec) : KVec := Vector.ofFn fun i => maxB a[i] b[i]
def KVec.zero : KVec := Vector.replicate 16 0
/-- Every slot saturated (Table 11-4, last but one row). -/
def KVec.top : KVec := Vector.replicate 16 0xFFFFFF
def KVec.raise (k : KVec) (j : Nat) (c : BitVec 24) : KVec := Vector.ofFn fun i => if i.val = j then maxB k[i] c else k[i]

/-- Merge(vector): knowledge never decreases (R249). -/
def Group.learn (g : Group) (v : KVec) : Group := { g with know := g.know.merge v }
/-- Tick(): the clock stays at 0xFFFFFF, and the group's own slot follows it (Table 0-1, R249). -/
def Group.tick (g : Group) : Group :=
  let c := if g.clk = 0xFFFFFF then g.clk else g.clk + 1
  { g with clk := c, know := g.know.raise (slotHash g.id) c }
/-- The group's identifier CORE, GSLOT, generation (R248). -/
def mkId (core slot gen : Nat) : BitVec 18 := BitVec.ofNat 6 core ++ BitVec.ofNat 8 slot ++ BitVec.ofNat 4 gen

/-! ### Physical memory at its home (R230, R264, R281, R412) -/

/-- The condition of a wait-on-address entry (R281). -/
def WoaCmp.holds (c : WoaCmp) (x e k : Word) : Bool :=
  match c with
  | .eq => x &&& k == e &&& k
  | .ne => x &&& k != e &&& k
  | .lt => decide ((x &&& k).toNat < (e &&& k).toNat)
  | .ge => decide ((e &&& k).toNat ≤ (x &&& k).toNat)
  | .any => x &&& k != e &&& k

/-- The word of memory at a physical address. -/
def State.word (s : State) (pa : Nat) : Word := BitVec.ofNat 32 (s.mem.le pa 4)

/-- Every registered entry whose word a write touched is tested against the value now held; the first write that satisfies it
wakes the waiter (R281). Entries that poll are not tested here (R282). -/
def wakeWoas (s : State) (pa n : Nat) : State :=
  { s with woas := s.woas.map fun w =>
      if !w.polls && w.hit.isNone && decide (w.pa < pa + n) && decide (pa < w.pa + 4) && w.cmp.holds (s.word w.pa) w.exp w.mask
      then { w with hit := some (s.word w.pa) } else w }

/-- The device lines of n bytes that the host caches are given up by a write. What the part writes of itself waits until the host has given them back
(`orHold`); a write that comes over a link takes them at once, with the recall in the same step (R412). -/
def recallHost (s : State) (pa n : Nat) : State :=
  let hit := s.hostLines.filter fun l => decide (l * 64 < pa + n) && decide (pa < l * 64 + 64)
  { s with hostLines := s.hostLines.filter (fun l => !hit.contains l), recalls := s.recalls.filter (fun l => !hit.contains l),
           outbox := (hit.filter fun l => !s.recalls.contains l).map Msg.snoop ++ s.outbox }

/-- Bytes written at their home: host copies are recalled, the bytes and their soft-error marks change, waiters are tested (R217,
R281, R412). -/
def State.writeMem (s : State) (pa : Nat) (bs : List Byte) : State :=
  let s := recallHost s pa bs.length
  wakeWoas { s with mem := s.mem.write pa bs, memBad := s.memBad.filter fun a => !(decide (pa ≤ a) && decide (a < pa + bs.length)) } pa bs.length

/-- A little-endian value written at its home. -/
def State.writeLe (s : State) (pa n v : Nat) : State := s.writeMem pa (leBytes n v)

/-- Does an uncorrectable error stand in the lines of these bytes? -/
def State.badAt (s : State) (pa n : Nat) : Bool := s.memBad.any fun a => decide (pa / 64 ≤ a / 64) && decide (a / 64 * 64 < pa + n)
/-- Does a byte of the scratchpad carry an uncorrectable error? -/
def Block.spBadAt (b : Block) (o len : Nat) : Bool := b.spBad.any fun a => decide (o ≤ a) && decide (a < o + len)

/-- Nanoseconds since a device time; the count wraps after 2^64 (R7). -/
def State.since (s : State) (t : Nat) : Nat := (s.time + 2 ^ 64 - t % 2 ^ 64) % 2 ^ 64

/-- Has a device time come? Times lie less than 2^63 ns ahead. -/
def State.past (s : State) (t : Nat) : Bool := decide (s.since t < 2 ^ 63)

/-- Cycles of Chovis, which runs at 1.2 GHz, and the queue thread whose issue slot the running one is (R20). -/
def State.chovisCycles (s : State) : Nat := (s.time * 1000 + s.fine) * 6 / 5000
def State.slotNow (s : State) : Nat := s.chovisCycles % 32

/-- An interrupt message (R413). -/
def State.interrupt (s : State) (src vec pasid : Nat) : State :=
  { s with outbox := Msg.int (BitVec.ofNat 32 (src % 4 * 2 ^ 28 + vec % 256 * 2 ^ 20 + pasid % 2 ^ 20)) :: s.outbox }

/-! ### Event rings (R406) -/

/-- The entry bytes of the six rings (Table 18-11). -/
def ringEntry : Nat → Nat
  | 2 => 512
  | 5 => 16
  | _ => 64

def Ctx.ring (c : Ctx) (r : Nat) : Nat × Nat := c.rings[r]?.getD (0, 0)

/-- Entries of a ring that are free. -/
def State.ringRoom (s : State) (base n : Nat) : Nat :=
  2 ^ n - (s.mem.le base 8 + 2 ^ 64 - s.mem.le (base + 8) 8) % 2 ^ 64

/-- An entry appended to a ring with room: its bytes, then WIDX (Table 18-10). -/
def State.ringPut (s : State) (base n e : Nat) (bs : List Byte) : State :=
  let w := s.mem.le base 8
  (s.writeMem (base + 64 + e * (w % 2 ^ n)) bs).writeLe base 8 (w + 1)

/-- An entry dropped: DROPS rises, saturating (Table 18-10). -/
def State.ringDrop (s : State) (base : Nat) : State :=
  let d := s.mem.le (base + 16) 4
  s.writeLe (base + 16) 4 (if d = 2 ^ 32 - 1 then d else d + 1)

/-! ### Replay records (R384) -/

/-- A replay record: header, then payload in 16-byte units. -/
def replayBytes (time ty : Nat) (id : BitVec 18) (payload : List Byte) : List Byte :=
  let len := (payload.length + 15) / 16
  leBytes 1 ty ++ leBytes 1 len ++ leBytes 2 0 ++ leBytes 4 id.toNat ++ leBytes 8 time ++ payload ++ List.replicate (16 * len - payload.length) 0
/-- The records of a payload: LEN counts 255 units at most, and what is longer goes on in a second record of the same type (log entry 69). -/
def replayRecords (time ty : Nat) (id : BitVec 18) (payload : List Byte) : List (List Byte) :=
  if payload.length ≤ 4080 then [replayBytes time ty id payload]
  else [replayBytes time ty id (payload.take 4080), replayBytes time ty id (payload.drop 4080)]
/-- Does a record of a context stand back for want of room in its ring? -/
def replayOwed (s : State) (pasid : Nat) : Bool := s.replayQ.any fun r => r.1 == pasid
/-- A record goes to a context's replay ring, wrapping unit by unit; without room for all of it, or behind records that stand back, it stands back too. -/
def replayPut (s : State) (pasid : Nat) (bs : List Byte) : State :=
  let (base, n) := (s.ctx pasid).ring 5
  let k := bs.length / 16
  if replayOwed s pasid || decide (s.ringRoom base n < k) then { s with replayQ := s.replayQ ++ [(pasid, bs)] }
  else
    let w := s.mem.le base 8
    let s := (List.range k).foldl (fun s j => s.writeMem (base + 64 + 16 * ((w + j) % 2 ^ n)) ((bs.drop (16 * j)).take 16)) s
    s.writeLe base 8 (w + k)
/-- An event of a context is logged. A context without the grant or the ring logs nothing. -/
def State.replayLog (s : State) (pasid ty : Nat) (id : BitVec 18) (payload : List Byte) : State :=
  let c := s.ctx pasid
  if !c.replay || (c.ring 5).1 == 0 then s else (replayRecords s.time ty id payload).foldl (fun s bs => replayPut s pasid bs) s
/-- The records that stand back are written as room returns, the oldest of a context first (R384). -/
def drainReplay (s : State) : State := s.replayQ.foldl (fun s r => replayPut s r.1 r.2) { s with replayQ := [] }

/-! ### What holds a step back (R384, R412) -/

/-- Does what a step logs stand back: records of a context stood back before it, or its first found no room? A full ring stalls the source (R384). -/
def replayStuck (s t : State) : Bool :=
  let n (s : State) (p : Nat) : Nat := (s.replayQ.filter fun r => r.1 == p).length
  t.replayQ.any fun r => decide (n s r.1 < n t r.1)
    && (replayOwed s r.1 || let b := ((s.ctx r.1).ring 5).1; t.mem.le b 8 == s.mem.le b 8)
/-- The lines that the host caches and a step writes (R412). -/
def recallsOf (s t : State) : List Nat := s.hostLines.filter fun l => !t.hostLines.contains l
/-- May what would take a state to another not happen yet? -/
def heldBack (s t : State) : Bool := replayStuck s t || !(recallsOf s t).isEmpty
/-- A step of the part that would write lines which the host caches recalls them and does not happen; one that finds its replay ring full does not happen
either. Both come again (R384, R412). -/
def orHold (s t : State) : State :=
  if !heldBack s t then t
  else
    let ls := (recallsOf s t).filter fun l => !s.recalls.contains l
    { s with recalls := s.recalls ++ ls, outbox := ls.map Msg.snoop ++ s.outbox }

/-! ### Trace packets (R372 to R378) -/

/-- The largest slot of the knowledge vector (R378). -/
def lstampOf (k : KVec) : BitVec 24 := k.toList.foldl maxB 0

/-- Bytes of a packet (R373). -/
def Packet.size (p : Packet) : Nat := (if p.lstamp.isSome then 8 else 5) + p.payload.length

def capAt (n lim : Nat) : Nat := if lim ≤ n then lim else n

/-- The contexts with a traced group on a cluster. -/
def tracedCtxs (s : State) (cl : Nat) : List Nat :=
  ((s.groups.filter fun g => g.traced && clusterOf g.core == cl && (g.state == .resident || g.state == .retiring)).map fun g => (s.launchOf g).ctx).eraseDups

/-- SYNC, FREQ and LOSS. -/
def Packet.ofUnit (p : Packet) : Bool := p.ty == 0x0C || p.ty == 0x0D || p.ty == 0x0E
/-- May a packet enter before another that is in the buffer: both of one cycle, of different groups or two fragments' STARTs (R374, R375)? -/
def Packet.swaps (p q : Packet) : Bool :=
  p.cyc == q.cyc && !p.ofUnit && !q.ofUnit
    && (p.cpos != q.cpos || p.gslot != q.gslot || (p.ty == 0x0A && q.ty == 0x0A && p.low != q.low))
/-- The packets that a flush waits for (R383), by their number. -/
def flushMark (s : State) : Nat :=
  s.groups.foldl (fun m g => g.frags.foldl (fun m f => match f.stall with | some (.flush n) => if m < n then n else m | _ => m) m) 0
/-- How many packets at the end of a cluster's buffer a packet may enter before. -/
def packetPlaces (s : State) (cl : Nat) (p : Packet) : Nat :=
  let t := s.traces[cl]?.getD {}
  ((t.buf.drop (flushMark s - t.drained)).reverse.takeWhile p.swaps).length
/-- Bytes in a buffer. -/
def bufBytes (buf : List Packet) : Nat := buf.foldl (fun n q => n + q.size) 0
/-- Packets of groups given up, the newest first, until so many bytes are free: what stays, and what goes. -/
def shed : Nat → List Packet → List Packet × List Packet
  | _, [] => ([], [])
  | n, q :: qs =>
    if n = 0 then (q :: qs, [])
    else if q.ofUnit then let r := shed n qs; (q :: r.1, r.2)
    else let r := shed (n - q.size) qs; (r.1, q :: r.2)
/-- The bytes owed to a resynchronisation: LOSS, SYNC and a START for each traced fragment (R377). -/
def resyncOwed (s : State) (cl : Nat) (lossy : List Nat) : Nat :=
  30 * lossy.length + s.groups.foldl (fun n g =>
    if g.traced && (g.state == .resident || g.state == .retiring) && clusterOf g.core == cl && lossy.contains (s.launchOf g).ctx then
      n + (if g.optLc then 18 else 15) * g.frags.length
    else n) 0
/-- Those of a resynchronisation under way that are still to come. -/
def resyncLeft (s : State) (cl : Nat) (t : TraceUnit) : Nat :=
  match t.resync with
  | some (stage, _, ps) => resyncOwed s cl ps - (if stage = 1 then 9 else 30) * ps.length
  | none => 0
/-- Packets counted as dropped: every context with a traced group on the cluster then waits for resynchronisation (R377). -/
def TraceUnit.lose (t : TraceUnit) (ctxs : List Nat) (ps : List Packet) : TraceUnit :=
  { t with
    dropped := capAt (t.dropped + ps.length) (2 ^ 32 - 1), total := t.total + ps.length, lossy := (t.lossy ++ ps.map (·.pasid) ++ ctxs).eraseDups }
/-- A packet enters a cluster's 64 KiB buffer, among those of its cycle in an order that the device chooses (log entry 4), or is dropped
whole and counted. A SYNC, FREQ or LOSS is not dropped: the newest packets of groups make room for it (log entry 52). A fragment whose context
is being resynchronised writes none until its START (R372, R375, R377). -/
def State.packet (s : State) (cl : Nat) (p : Packet) : State :=
  let p := { p with clk := s.clock[cl]?.getD 0 }
  let t := s.traces[cl]?.getD {}
  if !p.ofUnit && (match t.resync with | some (_, _, ps) => ps.contains p.pasid | none => false) then s
  else if p.ofUnit then
    let excess := bufBytes t.buf + p.size - 65536
    let r := shed excess t.buf.reverse
    let t := if r.2.isEmpty then t else { t.lose (tracedCtxs s cl) r.2 with buf := r.1.reverse, entered := t.entered - r.2.length }
    let t := if 65536 < bufBytes t.buf + p.size then t.lose (tracedCtxs s cl) [p] else { t with buf := t.buf ++ [p], entered := t.entered + 1 }
    { s with traces := setAt s.traces cl t }
  else if !t.lossy.isEmpty || decide (65536 < bufBytes t.buf + p.size + resyncLeft s cl t) then
    { s with traces := setAt s.traces cl (t.lose (tracedCtxs s cl) [p]) }
  else
    let (s, k) := s.chooseOf (packetPlaces s cl p + 1)
    { s with traces := setAt s.traces cl { t with buf := t.buf.take (t.buf.length - k) ++ p :: t.buf.drop (t.buf.length - k), entered := t.entered + 1 } }

/-- A group's packet of a type, when the group is traced (R372, R373). -/
def State.trace (s : State) (gi : Nat) (ty low : Nat) (payload : List Byte) : State :=
  let g := s.group gi
  if !g.traced then s
  else s.packet (clusterOf g.core)
    { pasid := (s.launchOf g).ctx, ty := BitVec.ofNat 8 ty, cpos := g.core % 4, low := low, gslot := g.slot,
      lstamp := if g.optLc then some (lstampOf g.know) else none, cyc := s.cycle g.core, payload := payload }

def lowLane (m : Mask) : Nat := m.low.getD 0
def pcBytes (pc : BitVec 52) : List Byte := leBytes 7 pc.toNat
def maskBytes (m : Mask) : List Byte := leBytes 2 m.toNat

/-- The outcomes a fragment holds, written as one COND packet (R374). -/
def State.flushCond (s : State) (gi fi : Nat) : State :=
  let f := (s.group gi).frag fi
  if f.held.isEmpty then s
  else
    let bits := f.held.foldr (fun b n => (if b then 1 else 0) + 2 * n) 0
    (s.trace gi 0x01 (lowLane f.amask) (leBytes 1 f.held.length ++ leBytes 2 bits)).modF gi fi fun f => { f with held := [] }

/-- The same for every fragment of a group: it stops, or ends (R374). -/
def State.flushGroup (s : State) (gi : Nat) : State := (List.range (s.group gi).frags.length).foldl (fun s fi => s.flushCond gi fi) s

/-- A group stands still for its save: its fragments write the outcomes that they hold (R360, R374). -/
def State.standStill (s : State) (gi : Nat) : State := (s.flushGroup gi).modG gi fun g => { g with quiesced := true }

/-- A fragment's packet: its held outcomes first, then the packet (R374). -/
def State.traceFrag (s : State) (gi fi ty : Nat) (payload : List Byte) : State :=
  let s := s.flushCond gi fi
  let f := (s.group gi).frag fi
  s.trace gi ty (lowLane f.amask) payload

/-- A conditional outcome: held, and written when 16 are held (R374). -/
def State.traceCond (s : State) (gi fi : Nat) (taken : Bool) : State :=
  if !(s.group gi).traced then s
  else
    let s := s.modF gi fi fun f => { f with held := f.held ++ [taken] }
    if ((s.group gi).frag fi).held.length < 16 then s else s.flushCond gi fi

/-! ### Debts of a group -/

/-- Registers and predicates with results owed to them, with the lanes: outstanding returns and PENDING futures (R49, R51). -/
def Group.owes (g : Group) (r l : Nat) : Bool :=
  g.outst.any (fun o => !o.returned && (o.writes.any (fun w => w.reg == r && w.lane == l)
      || o.poison.any (fun p => p.reg == r && p.lanes.has l)
      || o.preds.any (fun p => 512 + p.1 == r && p.2.1 == l)
      || (match o.act with | .rnext d m => d == r && m.has l | _ => false)))
  || g.futures.any (fun f => f.st == .pending && f.lanes.has l && decide (f.first ≤ r) && decide (r < f.first + f.count))

/-- The value of a path counter: entries stay until every older one of the path has returned (R51). -/
def Group.count (g : Group) (p : Path) : Nat := (g.outst.filter (fun o => o.path == p)).length

/-- Accesses of the fragment, and of the fragments it continues, that have been issued and not performed. -/
def State.unperfOf (s : State) (gi : Nat) (f : Frag) : List Store :=
  s.unperf.filter fun e => e.gi == gi && (e.fid == f.fid || f.before.contains e.fid)

/-- Tile transfers of the fragment and of those it continues whose data has not moved. -/
def Group.xfersOf (g : Group) (f : Frag) : List Xfer := g.xfers.filter fun x => x.fid == f.fid || f.before.contains x.fid

/-! ### The issuing fragment -/

/-- The fragment that issues, with its group as they stand at issue and the active lanes Lanes(). -/
structure Iss where
  gi : Nat
  fi : Nat
  g : Group
  f : Frag
  lanes : Mask

/-- Lanes(): AMASK, restricted to p0 under a guard; a replay acts in exactly its own lanes (Table 0-1, R355). -/
def activeLanes (g : Group) (f : Frag) (guard : Bool) : Mask :=
  match f.replay with
  | some m => m
  | none => if guard then f.amask &&& g.pred 0 else f.amask

/-- The issuing fragment of a state, if there is one. -/
def State.issuing (s : State) (guard : Bool) : Option Iss :=
  match s.cur with
  | none => none
  | some (gi, fi) =>
    let g := s.group gi
    let f := g.frag fi
    some ⟨gi, fi, g, f, activeLanes g f guard⟩

/-- The outcome of one step of a meaning. -/
abbrev Res := Host.Outcome State Fault Refusal

/-- A meaning runs for the issuing fragment; without one the step stops (Fault.noIssuer). -/
def withIss (s : State) (guard : Bool) (k : Iss → State) : Res :=
  match s.issuing guard with
  | none => .fault .noIssuer
  | some i => .next (k i)

/-- The physical register of a field (R38). -/
def Iss.phys (i : Iss) (fld : Nat) : Nat := i.f.wb + fld
/-- One lane of the register a field names. -/
def Iss.reg (i : Iss) (fld l : Nat) : Word := i.g.lane (i.phys fld) l
/-- One lane of the pair a field names (R40). -/
def Iss.pair (i : Iss) (fld l : Nat) : Word64 := mk64 (i.reg fld l) (i.reg (fld + 1) l)
/-- The lowest active lane. -/
def Iss.lo (i : Iss) : Nat := lowLane i.lanes
def Iss.N (i : Iss) : Nat := i.g.regs.length
/-- The PC of the instruction. -/
def Iss.pcN (i : Iss) : Nat := i.f.pc.toNat

/-! ### Cancellation, retirement of lanes and termination -/

/-- The sibling's trap registers at a stop (R346). -/
def siblingTrap (g : Group) (fid : BitVec 18) : Trap :=
  let f := g.frags.foldl (fun (b : Frag) x => if b.lastIssue ≤ x.lastIssue then x else b) (g.frag 0)
  { pcLo := f.pc.truncate 32, pcHi := (f.pc >>> 32).truncate 32,
    skid := BitVec.ofNat 32 (fid.toNat * 32 + g.skid % 16) }

/-- Wait-on-address entries of a group released; the waits re-register when they re-issue (R282). -/
def dropWoas (s : State) (gi : Nat) : State :=
  let s := { s with woas := s.woas.filter fun w => match w.who with | .frag g _ => g != gi | _ => true }
  s.modG gi fun g => { g with frags := g.frags.map fun f => match f.stall with | some (.woa _) => { f with stall := none } | _ => f }

/-- A row of a push is voided: its owner's future becomes VOID, and no later row of that push is delivered (R320, R324). -/
def voidFuture (s : State) (gi k : Nat) : State :=
  let row (r : Row) : Row := if r.gi == gi && r.fut == k then { r with wanted := false } else r
  let buf (b : Buf) : Buf := { b with rows := b.rows.map row }
  let queue (q : Syzygy) : Syzygy := { q with bufs := q.bufs.map buf }
  let s : State := { s with syzygy := s.syzygy.map queue }
  s.modG gi fun g => { g with futures := modAt g.futures k fun f => if f.st == .pending then { f with st := .void } else f }

/-- A buffer whose rows are all put or void is free again (R322, R323). -/
def Buf.settle (b : Buf) : Buf :=
  if (b.st == .taken || b.st == .ready) && b.rows.all (fun r => !r.valid || r.put) then {} else b

/-- Rows that a struck group pushed and no one has taken are dropped; takes that it holds are voided (R322, R324, Table 14-3). -/
def dropRows (s : State) (gi : Nat) (cancelled : Bool) : State :=
  let owners := s.syzygy.flatMap fun q => q.bufs.flatMap fun b =>
    if b.st == .taken && b.taker == gi then b.rows.filterMap (fun r => if r.valid && !r.put && r.wanted then some (r.gi, r.fut) else none) else []
  let s := { s with syzygy := s.syzygy.map fun q => { q with bufs := q.bufs.map fun b =>
    let b := if b.st == .taken && b.taker == gi then { b with rows := b.rows.map fun r => if r.put then r else { r with valid := false } } else b
    let b := if cancelled && (b.st == .filling || b.st == .ready) then
      { b with rows := b.rows.map fun r => if r.gi == gi then { r with valid := false } else r } else b
    b.settle } }
  owners.foldl (fun s o => voidFuture s o.1 o.2) s

/-- What cancellation does to any group: rows that it pushed are dropped, takes that it holds are voided, its futures become VOID (R322, R324,
Table 14-3). -/
def abandonWork (s : State) (gi : Nat) : State :=
  (dropRows s gi true).modG gi fun g => { g with
    futures := g.futures.map fun f => if f.st == .pending then { f with
      st := .void } else f }

/-- A group stops at its instruction boundary for good and its lanes are gone: every fragment and open entry ends, waits are
abandoned (R124, R313, R343). A parked or saved group keeps its image and retires at its restore (R115); one that is retiring goes on to retire. -/
def strikeGroup (s : State) (gi : Nat) : State :=
  match (s.group gi).state with
  | .retired => s
  | .retiring => abandonWork s gi
  | .parked => (abandonWork s gi).modG gi fun g => { g with struck := true }
  | .saved => (abandonWork s gi).modG gi fun g => { g with struck := true }
  | .resident =>
    (abandonWork (dropWoas (s.flushGroup gi) gi) gi).modG gi fun g => { g with
      frags := [], splits := List.replicate 15 none, exited := 0xFFFF, check := none, pending := none, frame := none,
      struck := true, hold := .run, state := .retiring }

/-- Termination of a block: every group stops and retires, and the launch records the block as faulted (R343). -/
def terminateBlock (s : State) (bi : Nat) : State :=
  let b := s.block bi
  if b.terminated || b.place == .done then s
  else
    let s := (s.groupsOf bi).foldl strikeGroup s
    let s := s.modB bi fun b => { b with terminated := true, halt := none }
    s.modL b.launch fun l => { l with fblk := capAt (l.fblk + 1) (2 ^ 24 - 1) }

/-! ### Fault records of Chovis (R405) -/

def trapWords (t : Trap) : List Word := [t.code, t.pcLo, t.pcHi, t.addrLo, t.addrHi, t.mask, t.info, t.skid]
def trapBytes (t : Trap) : List Byte := (trapWords t).flatMap fun w => leBytes 4 w.toNat

/-- The 64-byte record of R405. -/
def faultRecord (s : State) (gi kind code second : Nat) : List Byte :=
  let g := s.group gi
  leBytes 4 (kind + code % 256 * 256 + second % 256 * 65536) ++ leBytes 4 (s.launchOf g).lid.toNat ++ leBytes 4 g.id.toNat
    ++ leBytes 4 (s.blockOf g).bid.toNat ++ trapBytes g.trap ++ leBytes 8 s.time ++ leBytes 8 0

/-- A record that Chovis will write to a ring of the group's context (R405, R368). -/
def oweRecord (s : State) (gi ring : Nat) (bs : List Byte) : State :=
  { s with chovis := s.chovis ++ [{ ctx := (s.launchOf (s.group gi)).ctx, ring := ring, bytes := bs, src := if ring = 3 then 2 else 1 }] }

/-! ### Taking a stop (R342 to R351) -/

/-- What a stop reports: code, PC, address, lanes left, detail. -/
structure StopInfo where
  code : Nat
  pc : Nat
  addr : Word64 := 0
  mask : Mask
  info : Word := 0

/-- Where a stop goes (Table 16-1): user, system or Chovis, with absent handlers passed over (R342). -/
def stopTarget (k : Kernel) (c : Ctx) (code : Nat) (info : Word) : Target :=
  let sys : Target := if c.sysh = 0 then .chovis else .system
  if code = 0x0C ∨ code = 0x0D ∨ code = 0x0E ∨ code = 0x11 then .chovis
  else if code = 0x0B ∨ (code = 0x09 ∧ info &&& 0xFF = 0) then (if k.handler = 0 then sys else .user)
  else sys

/-- The stopping group's trap registers (R346). -/
def stopTrap (g : Group) (si : StopInfo) : Trap :=
  { code := BitVec.ofNat 32 si.code, pcLo := BitVec.ofNat 32 si.pc, pcHi := BitVec.ofNat 32 (si.pc / 2 ^ 32 % 2 ^ 20),
    addrLo := lo32 si.addr, addrHi := hi32 si.addr, mask := si.mask.setWidth 32, info := si.info,
    skid := BitVec.ofNat 32 (g.id.toNat * 32 + 16 + g.skid % 16) }

/-- A sibling's halt begins: it may issue up to four more instructions (R344). One that is still held, for a pending fault or by the stop
before, stands already and issues none (R348). -/
def haltSibling (fid : BitVec 18) (s : State) (gi : Nat) : State :=
  s.modG gi fun g =>
    if g.hold == .run then { g with hold := .skid, skid := 0 }
    else if g.hold == .stopped then { g with trap := siblingTrap g fid }
    else g

/-- The fragment of a group leaves its issue: the replay mark is spent and nothing it waited for is kept. -/
def State.unissue (s : State) (gi fi : Nat) : State := s.modF gi fi fun f => { f with stall := none, replay := none }

/-- A group raises the stop of its block: its trap registers are written, it stands, and the halt goes to its siblings (R344, R346). -/
def startHalt (s : State) (gi fi : Nat) (si : StopInfo) : State :=
  let g := s.group gi
  let s := (dropWoas (s.unissue gi fi) gi).modG gi fun x =>
    { x with trap := stopTrap { x with skid := 0 } si, hold := .stopped, stopFid := (g.frag fi).fid, skid := 0 }
  let target := stopTarget (s.launchOf g).kernel (s.ctxOf g) si.code si.info
  let s := s.modB g.block fun b => { b with halt := some { stopper := gi, code := si.code, target := target, cyc := s.cycle g.core } }
  ((s.groupsOf g.block).filter (· != gi)).foldl (haltSibling g.id) s

/-- A stop met while another of its block is handled: it is kept, and its group stands (R348). -/
def pendStop (s : State) (gi fi : Nat) (si : StopInfo) (stopper : Nat) : State :=
  let g := s.group gi
  (dropWoas (s.unissue gi fi) gi).modG gi fun x =>
    { x with pending := some ⟨si.code, (g.frag fi).fid, si.pc, si.addr, si.mask, si.info⟩, hold := .stopped, trap := siblingTrap x (s.group stopper).id }

/-- Bits [1:0] of a PC are zero (R62). -/
def alignPc (pc : BitVec 52) : BitVec 52 := pc &&& ~~~3

/-- The PC that the trap registers hold: bits [1:0] of a PC are zero (R62). -/
def Trap.pc (t : Trap) : BitVec 52 := alignPc ((t.pcHi.truncate 20 : BitVec 20) ++ t.pcLo)

/-- The group that raised the stop of this cycle gives way to one of a lower GID: its own stop becomes pending (R348). -/
def yieldHalt (s : State) (h : Halt) : State :=
  s.modG h.stopper fun x =>
    { x with pending := some ⟨h.code, x.stopFid, x.trap.pc.toNat, x.trap.addrHi ++ x.trap.addrLo, x.trap.mask.truncate 16, x.trap.info⟩ }

/-- Is the cycle in which a core's block began to halt still the running one, so that several of its groups may raise stops in it (R348)? -/
def Halt.young (s : State) (h : Halt) (core : Nat) : Bool := h.phase == .stopping && !h.told && h.cyc == s.cycle core

/-- Is a fragment in the skid of its block's halt (R344)? Then its own fault leaves its instruction without effect (R348); not so a stop of the cycle
in which the halt began, nor the replay of a stopped instruction. -/
def inSkid (s : State) (i : Iss) : Bool :=
  match (s.blockOf i.g).halt with
  | none => false
  | some h => i.f.handler.isNone && h.phase != .replaying && !h.young s i.g.core

/-- Taking a stop: the one operation every fault, trap and system call goes through (R344 to R350). A handler's own stop is a double
fault; a stop met while the block already halts is kept pending, unless it comes in the same cycle from a group of lower GID; otherwise the
group raises the stop. Its EXC packet is written when the cycle is over. -/
def takeStop (s : State) (gi fi : Nat) (si : StopInfo) : State :=
  let s := s.flushGroup gi
  let g := s.group gi
  let f := g.frag fi
  if f.handler.isSome then
    -- double fault: the trap registers keep the first stop (R350)
    let s := s.traceFrag gi fi 0x08 (leBytes 1 si.code ++ leBytes 7 si.pc)
    terminateBlock (oweRecord s gi 1 (faultRecord s gi 2 (((s.blockOf g).halt.map (·.code)).getD 0) si.code)) g.block
  else
    match (s.blockOf g).halt with
    | none => startHalt s gi fi si
    | some h =>
      if h.phase == .replaying then startHalt s gi fi si
      else if h.young s g.core && decide (g.gid < (s.group h.stopper).gid) then startHalt (yieldHalt s h) gi fi si
      else pendStop s gi fi si h.stopper

/-- The cycle of a stop is over: the stopping group is settled, and its EXC packet is written (R348, R374). -/
def tellStop (s : State) (bi : Nat) : State :=
  match (s.block bi).halt with
  | none => s
  | some h =>
    if h.told then s
    else
      let g := s.group h.stopper
      let s := match g.fragAt g.stopFid with
        | some fi => s.traceFrag h.stopper fi 0x08 (leBytes 1 h.code ++ leBytes 7 g.trap.pc.toNat)
        | none => s
      s.modB bi fun b => { b with halt := b.halt.map fun h => { h with told := true } }

/-- A fault of the issuing instruction: TRAPPC is the instruction (Table 16-1). -/
def faultAt (s : State) (i : Iss) (code : Nat) (mask : Mask) (info : Word := 0) (addr : Word64 := 0) : State :=
  takeStop s i.gi i.fi ⟨code, i.pcN, addr, mask, info⟩

/-! ### Waiting and advancing -/

/-- The instruction waits: nothing happens and it is issued again when what it waits for has come. -/
def State.wait (s : State) (i : Iss) (w : Stall) : State := s.modF i.gi i.fi fun f => { f with stall := some w }

/-- The block has committed (R365). -/
def State.commit (s : State) (i : Iss) : State := s.modB i.g.block fun b => { b with committed := true }

/-- What a branch tells the spin detector: its target and whether it was taken; `near` for the branches that Table 5-7a can watch. -/
structure BranchInfo where
  target : BitVec 52
  taken : Bool
  near : Bool := true

/-- Is the target of a branch 0 to 15 words before it (Table 5-7a)? -/
def watched (pc target : BitVec 52) : Bool := decide (target.toNat ≤ pc.toNat) && decide (pc.toNat - target.toNat ≤ 60)

/-- The spin detector at a branch that may be watched or may leave the loop it watches (R119). A taken branch begins a loop where none is watched;
the watched one counts its iterations; not taken, it ends the mark; every other branch resets the count, and one that leaves the loop, or
is taken where there is none, ends the mark. DESIGN CHOICE, log entry 80: the execution that begins the loop is not the first of its quiet iterations, so the
mark comes at the fifth taken execution. Unsafe. -/
def Frag.branched (f : Frag) (pc : BitVec 52) (b : BranchInfo) : Frag :=
  let near := b.near && watched pc b.target
  match f.loop with
  | none =>
    if near && b.taken then { f with loop := some (pc, b.target), quiet := 0, noisy := false }
    else if near || b.taken then { f with quiet := 0, spin := false }
    else f
  | some (w, t) =>
    if near && w == pc then
      if b.taken then
        let q := if f.noisy then 0 else f.quiet + 1
        { f with loop := some (pc, b.target), quiet := q, noisy := false, spin := f.spin || decide (4 ≤ q) }
      else { f with loop := none, quiet := 0, spin := false }
    else if !b.taken then (if near then { f with quiet := 0 } else f)
    else
      let stays := decide (t.toNat ≤ b.target.toNat) && decide (b.target.toNat ≤ w.toNat)
      let f := { f with quiet := 0, spin := f.spin && stays }
      if near then { f with loop := some (pc, b.target), noisy := false } else if stays then f else { f with loop := none }

/-- The spin detector after an issue (R119). -/
def Frag.detect (f : Frag) (pc : BitVec 52) (noisy : Bool) (br : Option BranchInfo) : Frag :=
  let f := if noisy then { f with noisy := true, spin := false } else f
  match br with
  | none => f
  | some b => f.branched pc b

/-- Do the registers or predicates of two groups differ in a lane of a mask? -/
def Group.differs (a b : Group) (m : Mask) : Bool :=
  (a.regs.zip b.regs).any (fun e => m.lanes.any fun l => e.1[l]?.getD 0 != e.2[l]?.getD 0)
    || (a.preds.toList.zip b.preds.toList).any fun e => (e.1 ^^^ e.2) &&& m != 0

/-- A result that reaches a group and changes a value in an active lane of a fragment ends its spin mark (R119); `old` is the group before it. -/
def Group.roused (g old : Group) : Group :=
  { g with frags := g.frags.map fun f => if g.differs old f.amask then { f with
      noisy := true, spin := false } else f }

/-- The halt of a single step: the group alone without FREEZE, the whole block with it (R370, R371). -/
def stepStop (s : State) (gi fi : Nat) : State :=
  let g := s.group gi
  let f := g.frag fi
  let si : StopInfo := ⟨0x0D, f.pc.toNat, 0, f.amask, 0⟩
  if g.debugFreeze then
    let s := takeStop s gi fi si
    ((s.groupsOf g.block).filter (· != gi)).foldl (fun s k =>
      if (s.group k).hold == .skid then
        (dropWoas (s.flushGroup k) k).modG k fun x => { x with hold := .stopped, trap := siblingTrap x g.id }
      else s) s
  else
    let s := (s.flushGroup gi).traceFrag gi fi 0x08 (leBytes 1 0x0D ++ leBytes 7 f.pc.toNat)
    let s := (dropWoas (s.unissue gi fi) gi).modG gi fun g => { g with trap := stopTrap { g with skid := 0 } si, hold := .solo, stopFid := f.fid }
    oweRecord s gi 3 (faultRecord s gi 7 0x0D 0)

/-- The step stop of a group in the skid of another stop of its block: it is kept pending, unless it holds the block and takes that stop's place (R344, R348). -/
def stepInSkid (s : State) (gi fi : Nat) : State :=
  let g := s.group gi
  match (s.blockOf g).halt with
  | none => s
  | some h =>
    if g.debugFreeze && h.young s g.core && decide (g.gid < (s.group h.stopper).gid) then stepStop s gi fi
    else let f := g.frag fi; pendStop (s.flushGroup gi) gi fi ⟨0x0D, f.pc.toNat, 0, f.amask, 0⟩ h.stopper

/-- After an instruction of a group that is single-stepped has issued: it stops at the fragment that issued, or, when a split,
arrival or exit ended that fragment, at the group's youngest (R371). Stepping is suspended while a handler runs; the return of one is its own
last instruction, and a replay that it begins counts when it issues. -/
def stepCheck (s : State) (gi fid issued : Nat) (handler : Bool) : State :=
  let g := s.group gi
  let fi := (g.fragAt fid).getD (g.frags.length - 1)
  if g.debugStep && !handler && decide (issued < g.issued) && g.frame.isNone && g.state == .resident && !g.frags.isEmpty then
    match g.hold with
    | .run => stepStop s gi fi
    | .skid => stepInSkid s gi fi
    | .stopped => s
    | .solo => s
  else s

/-- The instruction has issued: its fragment goes to a new PC; the counts of issue, skid and the spin detector follow (R62, R116,
R119, R344). -/
def State.advanceTo (s : State) (i : Iss) (pc : BitVec 52) (noisy : Bool := false) (br : Option BranchInfo := none) : State :=
  let g := s.group i.gi
  let changed := noisy || g.differs i.g i.lanes
  let s := { s with seq := s.seq + 1 }
  let s := s.modG i.gi fun g => { g with
    issued := g.issued + 1, skid := (if g.hold == .skid then g.skid + 1 else g.skid), issuedNow := some i.f.pc }
  s.modF i.gi i.fi fun f =>
    { f.detect i.f.pc changed br with
      pc := pc, stall := none, replay := none, arrival := none, lastIssue := s.seq, readyAt := s.cycle i.g.core, aged := false, waitFrom := none }

/-- The next instruction in order: PC + 4, or PC + 8 for format X (R62). DESIGN CHOICE, log entry 79: behind the last word of the address space, where PC + 4
is no address, it is 0. Unsafe. -/
def State.advance (s : State) (i : Iss) (size : Nat := 4) (noisy : Bool := false) : State :=
  s.advanceTo i (i.f.pc + BitVec.ofNat 52 size) noisy

/-- A register write of the issuing instruction in its active lanes (R41). -/
def State.putReg (s : State) (i : Iss) (fld : Nat) (f : Nat → Word) : State :=
  s.modG i.gi fun g => g.setReg (i.phys fld) i.lanes f
/-- The same for a pair (R40). -/
def State.putPair (s : State) (i : Iss) (fld : Nat) (f : Nat → Word64) : State :=
  (s.putReg i fld fun l => lo32 (f l)).putReg i (fld + 1) fun l => hi32 (f l)
/-- A predicate write of the issuing instruction in its active lanes. -/
def State.putPred (s : State) (i : Iss) (p : Nat) (f : Nat → Bool) : State := s.modG i.gi fun g => g.setPred p i.lanes f

/-- Check 5 of R61 for registers, the scoreboard and soft errors: REGB for a register beyond the allocation, even with no active lane (R39); a
wait while a result is owed to a source in a lane of `on`, where the instruction reads it, or to another operand in an active lane (R49); ECC
for a source that is poisoned or holds an uncorrectable error in a lane of `on`, with the lanes `blame` in TRAPMASK, for a predicate that it reads in such a lane
(the guard p0 in every lane of the fragment), and for the fragment's own state (R217, R356). The predicates stand as 512 + p; it reads `preds` and writes
`dests`. This holds for every instruction: `pf`, `pf2`, `icinv`, `l1inv` and `evict` raise ECC for a poisoned address too (log entry 53). -/
def withOperandsOn (s : State) (guard : Bool) (reads writes : List Nat) (preds : List Nat) (on blame : Iss → Mask) (k : Iss → State)
    (dests : List Nat := []) : Res :=
  withIss s guard fun i =>
    let rs := reads.map i.phys
    let ws := writes.map i.phys
    let ps := preds.map (512 + ·)
    let gs := if guard then [512] else []
    let qs := gs ++ ps
    let ds := ws ++ dests.map (512 + ·)
    if (rs ++ ws).any (fun r => decide (i.N ≤ r)) then faultAt s i 0x02 i.lanes
    else if i.lanes.lanes.any (fun l => ds.any fun r => i.g.owes r l) then s.wait i (.dest ds i.lanes)
    else if i.lanes.lanes.any (fun l => qs.any fun r => i.g.owes r l) then s.wait i (.regs qs i.lanes)
    else if (on i).lanes.any (fun l => rs.any fun r => i.g.owes r l) then s.wait i (.regs rs (on i))
    else
      match (((i.g.poisonIn gs i.f.amask).or (i.g.poisonIn ps i.lanes)).map fun p => (p, i.lanes)).or ((i.g.poisonIn rs (on i)).map fun p => (p, blame i)) with
      | some (p, m) => faultAt s i 0x10 m (BitVec.ofNat 32 p.detail) (BitVec.ofNat 64 p.addr)
      | none => if i.f.badSched || (i.f.badFmt && s.readsFmt) then faultAt s i 0x10 i.lanes 1 else k i

/-- The same for an instruction that reads its sources in every active lane. -/
def withOperands (s : State) (guard : Bool) (reads writes : List Nat) (preds : List Nat) (k : Iss → State) (dests : List Nat := []) : Res :=
  withOperandsOn s guard reads writes preds (·.lanes) (·.lanes) k dests

/-- An instruction that acts once: nothing but the PC's advance when Lanes() is empty (R91). -/
def once (s : State) (i : Iss) (size : Nat) (k : State) : State := if i.lanes = 0 then s.advance i size else k

/-! ### Returning from a stop (R355) -/

/-- The group of a block that holds a pending fault and has the lowest GID. -/
def firstPending (s : State) (gs : List Nat) : Option Nat :=
  (gs.filter fun gi => (s.group gi).pending.isSome).foldl (fun (b : Option Nat) gi => match b with
    | none => some gi
    | some x => if (s.group gi).gid < (s.group x).gid then some gi else some x) none

/-- The pending stop of the lowest GID is taken, unless the block halts already (R348). One of a single step holds the block only with FREEZE (R371). -/
def takePending (s : State) (bi : Nat) : State :=
  if (s.block bi).halt.isSome then s
  else
    match firstPending s (s.groupsOf bi) with
    | none => s
    | some gi =>
      match (s.group gi).pending with
      | none => s
      | some p =>
        let fi := ((s.group gi).fragAt p.fid).getD 0
        let t := s.modG gi fun g => { g with pending := none }
        if p.code = 0x0D then stepStop t gi fi else takeStop t gi fi ⟨p.code, p.pc, p.addr, p.mask, p.info⟩

/-- Every held group of a block runs on, but those with a pending fault: the lowest GID among them takes its own at once, and the block halts
again, the others still standing (R348). -/
def releaseBlock (s : State) (bi : Nat) : State :=
  let s := s.modB bi fun b => { b with halt := none }
  let gs := s.groupsOf bi
  let s := gs.foldl (fun s gi => s.modG gi fun g =>
    if g.hold == .solo then g else { g with hold := if g.pending.isSome then .stopped else .run, skid := 0, stopFid := 0 }) s
  gs.foldl (fun s _ => takePending s bi) s

/-- The trace packet of a return to a PC: EXC with code 0 (Table 17-2, R374). -/
def traceReturn (s : State) (gi fi : Nat) (pc : BitVec 52) : State := s.traceFrag gi fi 0x08 (leBytes 1 0 ++ pcBytes pc)

/-- The handler fragment ends and the trap frame is a fragment again, at a PC and with a replay mask (R349, R355). What the handler
accessed comes before what the fragment goes on to access. -/
def restoreFrame (s : State) (gi : Nat) (pc : BitVec 52) (replay : Option Mask) : State :=
  let s := s.modG gi fun g =>
    match g.frame with
    | none => g
    | some f =>
      let own := (g.frags.filter fun x => x.handler.isSome).flatMap fun x => x.fid :: x.before
      { g with frame := none, frags := g.frags.filter (fun x => x.handler.isNone) ++
                 [{ f with pc := pc, replay := replay, stall := none, arrival := if pc = f.pc then f.arrival else none, before := (f.before ++ own).eraseDups.filter (· != f.fid) }] }
  traceReturn s gi ((s.group gi).frags.length - 1) pc

/-- The block of a return: released, or, when the stopped instruction is issued again, held until it has been (R355). -/
def releaseOrReplay (s : State) (bi : Nat) (replay : Option Mask) : State :=
  if replay.isNone then releaseBlock s bi
  else
    let s := (s.groupsOf bi).foldl (fun s k => s.modG k fun g => { g with skid := 0 }) s
    s.modB bi fun b => { b with halt := b.halt.map fun h => { h with phase := .replaying } }

/-- The return of a handler to TRAPPC (R355: `eret`, `tret`), or to the replay of the stopped instruction (`eret.r`), which issues before the
held groups are released. -/
def returnFromStop (s : State) (gi : Nat) (pc : BitVec 52) (replay : Option Mask) : State :=
  releaseOrReplay (restoreFrame s gi pc replay) (s.group gi).block replay

end Sys2Proof.Machine
end

