-- ==== Sys2Proof/Machine/Objects.lean ====
section
/-! DEFINITION. Sys2Proof/Machine/Objects.lean: handles of subtrees, pools, Syzygy queues and feeds (R304), and what reads an object. -/

namespace Sys2Proof.Machine

open Sys2Proof

/-- INDEX and GEN of a handle (R304). -/
def hIndex (h : Word) : Nat := h.toNat % 256
def hGen (h : Word) : Nat := h.toNat / 256
def mkHandle (index gen : Nat) : Word := BitVec.ofNat 32 (gen % 2 ^ 24 * 256 + index % 256)
/-- The generation of a slot's next allocation: 0 is skipped when it wraps (R304). -/
def nextGen (g : Nat) : Nat := if g + 1 ≥ 2 ^ 24 then 1 else g + 1

def State.tree (s : State) (k : Nat) : Subtree := s.trees[k]?.getD {}
def State.pool (s : State) (k : Nat) : Pool := s.pools[k]?.getD {}
def State.syz (s : State) (k : Nat) : Syzygy := s.syzygy[k]?.getD {}
def State.feedQ (s : State) (k : Nat) : Feed := s.feeds[k]?.getD {}
def State.modTree (s : State) (k : Nat) (f : Subtree → Subtree) : State := { s with trees := modAt s.trees k f }
def State.modPool (s : State) (k : Nat) (f : Pool → Pool) : State := { s with pools := modAt s.pools k f }
def State.modSyz (s : State) (k : Nat) (f : Syzygy → Syzygy) : State := { s with syzygy := modAt s.syzygy k f }
def State.modFeed (s : State) (k : Nat) (f : Feed → Feed) : State := { s with feeds := modAt s.feeds k f }

/-- Does a handle name a subtree, pool, Syzygy queue or feed of a context (R304)? -/
def State.treeNamed (s : State) (pasid : Nat) (h : Word) : Bool :=
  let t := s.tree (hIndex h)
  t.st != .free && t.ctx == pasid && t.gen == hGen h
def State.poolNamed (s : State) (pasid : Nat) (h : Word) : Bool :=
  let t := s.pool (hIndex h)
  t.bound && t.ctx == pasid && t.gen == hGen h
def State.syzNamed (s : State) (pasid : Nat) (h : Word) : Bool :=
  let t := s.syz (hIndex h)
  decide (hIndex h < 128) && t.bound && t.ctx == pasid && t.gen == hGen h
def State.feedNamed (s : State) (pasid : Nat) (h : Word) : Bool :=
  let t := s.feedQ (hIndex h)
  decide (hIndex h < 64) && t.bound && t.ctx == pasid && t.gen == hGen h

/-- The PASID of a group's context. -/
def State.pasidOf (s : State) (g : Group) : Nat := (s.launchOf g).ctx

/-- The deadline that DL_LO and DL_HI read: 0 when SUBT is 0 or names nothing (14.3). -/
def State.deadlineOf (s : State) (g : Group) : Nat :=
  if s.treeNamed (s.pasidOf g) g.subt then (s.tree (hIndex g.subt)).deadline else 0

end Sys2Proof.Machine
end

