-- ==== Sys2Proof/Machine/Translate.lean ====
section
/-! DEFINITION. Sys2Proof/Machine/Translate.lean: physical addresses, page tables, TLBs (chapter 19, R202, R210, R410, R415 to R420). -/

namespace Sys2Proof.Machine

open Sys2Proof

/-- An argument for an opaque function that no other use in this step shares: the step, a tag, a number. -/
def State.oracle (s : State) (tag x : Nat) : Nat := 2 ^ 64 * (16 * s.steps + tag) + x

/-! ### Physical addresses (Table 19-1) -/

def localPa (pa : Nat) : Bool := decide (pa < 2 ^ 36) || (Config.dram128 && decide (pa < 2 ^ 37))
def peerPa (pa : Nat) : Bool := decide (2 ^ 46 ≤ pa) && decide (pa < 2 ^ 47)
def hostPa (pa : Nat) : Bool := decide (2 ^ 47 ≤ pa) && decide (pa < 2 ^ 48)
/-- A frame that an entry may name (R410). -/
def framePa (pa : Nat) : Bool := localPa pa || peerPa pa || hostPa pa

/-! ### Walks (R416 to R418) -/

/-- The five levels: number, lowest VA bit, index bits. -/
def walkLevels : List (Nat × Nat × Nat) := [(4, 48, 4), (3, 39, 9), (2, 30, 9), (1, 21, 9), (0, 12, 9)]

/-- What a walk gives: a page, or an invalid entry at a level. -/
inductive WalkRes where
  | page (x : Xlate) (bits : Nat)
  | invalid (level : Nat)
deriving DecidableEq, Repr

/-- Is a leaf entry valid at a level (R418)? -/
def leafValid (e level low : Nat) : Bool :=
  let frame := bitsOf e 47 12 * 4096
  decide (level ≤ 2) && bitsOf e 63 60 == 0 && bitsOf e 55 48 == 0 && bitsOf e 8 5 == 0 && bitsOf e 57 56 != 3
    && frame % 2 ^ low == 0 && !(bitsOf e 3 3 == 1 && bitsOf e 2 2 == 0) && framePa frame
    && !(bitsOf e 11 11 == 1 && level != 0)
/-- Is a table entry valid: only V and FRAME are set, and the table lies in local DRAM (R417, R418)? -/
def tableValid (e level : Nat) : Bool :=
  let frame := bitsOf e 47 12 * 4096
  level != 0 && bitsOf e 63 48 == 0 && bitsOf e 11 2 == 0 && localPa frame

/-- The fields of a leaf at a level (Table 19-3), with the page's base. The tracked bit counts only in local DRAM (R410). -/
def leafOf (level e : Nat) : Xlate :=
  let frame := bitsOf e 47 12
  { frame := frame, r := bitsOf e 2 2 == 1, w := bitsOf e 3 3 == 1, x := bitsOf e 4 4 == 1,
    trk := bitsOf e 9 9 == 1 && localPa (4096 * frame), ext := bitsOf e 10 10 == 1,
    cpol := BitVec.ofNat 2 (bitsOf e 57 56), dcls := BitVec.ofNat 2 (bitsOf e 59 58), level := level }

/-- May a level-0 entry serve its run of 16: a valid leaf with CONT? -/
def contLeaf (e : Nat) : Bool := e % 2 == 1 && bitsOf e 1 1 == 1 && bitsOf e 11 11 == 1 && leafValid e 0 12
/-- With CONT the 16 aligned entries should map one run. Where one of them carries it and they disagree, the device may translate any address of
the run with any one of the 16 (R418; log entry 7): the entry that serves, a page's frame moved to this page of the run. -/
def contEntry (s : State) (base va e : Nat) : Nat :=
  let k := bitsOf va 15 12
  let ent (j : Nat) : Nat := s.mem.le (base + 8 * (bitsOf va 20 16 * 16 + j)) 8
  if !((List.range 16).any fun j => contLeaf (ent j)) then e
  else if (List.range 16).all fun j => ent j + 4096 * k == e + 4096 * j && bitsOf (ent 0) 15 12 == 0 then e
  else
    let x := ent (Config.freeNat (s.oracle 4 (va / 65536)) % 16)
    if x % 4 = 3 then x - 4096 * bitsOf x 15 12 + 4096 * k else x

/-- The walk over the levels that are left, from a table's base; `held` is the entry that the walker uses at a level for the one in memory. -/
def walkFrom (s : State) (held : Nat → Nat → Nat) (va : Nat) : List (Nat × Nat × Nat) → Nat → WalkRes
  | [], _ => .invalid 0
  | (level, low, n) :: rest, base =>
    let m := s.mem.le (base + 8 * bitsOf va (low + n - 1) low) 8
    let e := held level (if level = 0 then contEntry s base va m else m)
    if e % 2 = 0 then .invalid level
    else if bitsOf e 1 1 = 1 then (if leafValid e level low then .page (leafOf level e) low else .invalid level)
    else if tableValid e level then walkFrom s held va rest (bitsOf e 47 12 * 4096)
    else .invalid level

/-- The 4 KiB frame of an address within a page of 2^bits bytes. -/
def Xlate.at (x : Xlate) (va bits : Nat) : Xlate := { x with frame := x.frame + va % 2 ^ bits / 4096 }

/-- A walk from a ROOT (R416), which must lie in local DRAM (R418). -/
def walkWith (s : State) (held : Nat → Nat → Nat) (root va : Nat) : WalkRes :=
  if !localPa root then .invalid 4
  else
    match walkFrom s held va walkLevels root with
    | .page x bits => .page (x.at va bits) 12
    | .invalid l => .invalid l
/-- A walk of the tables as memory holds them. -/
def walk (s : State) (root va : Nat) : WalkRes := walkWith s (fun _ e => e) root va

/-- The bits of an address that name the entry of a level. -/
def walkKey (level va : Nat) : Nat := va / 2 ^ (12 + 9 * level)
/-- The table entry of the walk cache for a level and an address. -/
def walkHeld (s : State) (pasid va level : Nat) : Option WalkEntry :=
  s.walks.find? fun w => w.pasid == pasid && w.gen == (s.ctx pasid).gen && w.level == level && w.key == walkKey level va
/-- A walk as the walker makes it: a cached table entry that no longer agrees with memory may still serve (R420, R421; log entry 5). -/
def walkNow (s : State) (pasid va : Nat) : WalkRes :=
  walkWith s (fun level e => match walkHeld s pasid va level with
    | some w => if w.entry != e && Config.stale (s.oracle 5 (8 * (va / 4096) + level)) then w.entry else e
    | none => e) (s.ctx pasid).root va

/-- The table entries that a walk passes: level and entry. -/
def walkPath (s : State) (va : Nat) : List (Nat × Nat × Nat) → Nat → List (Nat × Nat)
  | [], _ => []
  | (level, low, n) :: rest, base =>
    let e := s.mem.le (base + 8 * bitsOf va (low + n - 1) low) 8
    if e % 2 = 1 ∧ bitsOf e 1 1 = 0 ∧ tableValid e level then (level, e) :: walkPath s va rest (bitsOf e 47 12 * 4096) else []
/-- The walk cache takes the table entries of a walk, and nothing else (R420). -/
def fillWalks (s : State) (pasid va : Nat) : State :=
  let c := s.ctx pasid
  let fresh := (walkPath s va walkLevels c.root).filter fun e => (walkHeld s pasid va e.1).isNone
  { s with walks := fresh.map (fun e => ⟨pasid, c.gen, e.1, walkKey e.1 va, e.2⟩) ++ s.walks }

/-- What translation gives for one address. -/
inductive XRes where
  | ok (x : Xlate)
  | page (level : Nat)
deriving DecidableEq, Repr

/-- The translation that a TLB holds for an address, tagged with PASID and generation (R420). -/
def tlbFind (ts : List TlbEntry) (unit pasid : Nat) (gen : BitVec 8) (va : Nat) : Option TlbEntry :=
  ts.find? fun t => t.core == unit && t.pasid == pasid && t.gen == gen && t.vpn == va / 4096
/-- The entry that a core finds: in its own TLB, else in its cluster's (R17, R420). -/
def tlbHit (s : State) (core pasid va : Nat) : Option TlbEntry :=
  let gen := (s.ctx pasid).gen
  (tlbFind s.tlb core pasid gen va).orElse fun _ => tlbFind s.tlb2 (clusterOf core) pasid gen va

/-- Translation on a core: a TLB entry that no longer agrees with the tables may still serve (R420, R421; log entry 5). A peer frame
needs its link (R415). -/
def xlate (s : State) (core pasid va : Nat) : XRes :=
  let w := walkNow s pasid va
  let r : XRes := match tlbHit s core pasid va with
    | some t =>
      (match w with
      | .page x _ => if t.x = x then .ok x else if Config.stale (s.oracle 0 (va / 4096)) then .ok t.x else .ok x
      | .invalid l => if Config.stale (s.oracle 0 (va / 4096)) then .ok t.x else .page l)
    | none =>
      (match w with
      | .page x _ => .ok x
      | .invalid l => .page l)
  match r with
  | .ok x => if peerPa x.page && !s.mgmt.peerUp then .page x.level else .ok x
  | .page l => .page l

/-- The TLB of a core, and its cluster's, take the translation of a page: what the cluster holds already, else what a walk gives. Misses of a page merge
into that walk. Invalid entries are never cached (R420). -/
def fillPage (s : State) (core pasid va : Nat) : State :=
  let gen := (s.ctx pasid).gen
  match tlbFind s.tlb core pasid gen va, tlbFind s.tlb2 (clusterOf core) pasid gen va with
  | some _, _ => s
  | none, some t => { s with tlb := { t with core := core } :: s.tlb }
  | none, none =>
    match walkNow s pasid va with
    | .page x _ =>
      let s := fillWalks s pasid va
      { s with tlb := ⟨core, pasid, gen, va / 4096, x⟩ :: s.tlb, tlb2 := ⟨clusterOf core, pasid, gen, va / 4096, x⟩ :: s.tlb2 }
    | .invalid _ => s
/-- The same for several addresses. -/
def fillTlb (s : State) (core pasid : Nat) (vas : List Nat) : State := vas.foldl (fun s va => fillPage s core pasid va) s

/-- The kinds of permission (R418). -/
inductive AccKind where
  | read | write | atomic | fetch
deriving DecidableEq, Repr

def Xlate.permits (x : Xlate) (k : AccKind) : Bool :=
  match k with
  | .read => x.r
  | .write => x.w
  | .atomic => x.r && x.w
  | .fetch => x.x

/-- A peer refuses an access outside the window it has set, which this device does not know (R415; log entry 7). -/
def peerRefuses (s : State) (pa : Nat) : Bool := peerPa pa && Config.freeNat (s.oracle 1 pa) % 2 == 1

/-- The page as an access of a context sees it: its DRAM class is the lower of the page's class and the context's ceiling, 0 being the highest (R210). -/
def Xlate.served (x : Xlate) (c : Ctx) : Xlate := { x with dcls := maxB x.dcls c.ceiling }

/-- Translation and permission of one canonical access: the physical address, or the fault code and the level (R214, R418). -/
def access (s : State) (core pasid va : Nat) (k : AccKind) : Except (Nat × Nat) (Nat × Xlate) :=
  if 2 ^ 52 ≤ va then .error (0x03, 4)
  else
    match xlate s core pasid va with
    | .page l => .error (0x03, l)
    | .ok x =>
      if !x.permits k then .error (0x04, x.level)
      else if peerRefuses s (x.page + va % 4096) then .error (0x03, x.level)
      else .ok (x.page + va % 4096, x.served (s.ctx pasid))

/-- A page counts as tracked for its context when a shadow directory stands (R419). -/
def isTracked (s : State) (pasid : Nat) (x : Xlate) : Bool := x.trk && (s.ctx pasid).shadow != 0

/-- The walk of an address completes on a core and its page enters the TLB (R416 to R420). -/
def execTranslationWalkComplete (core pasid va : Nat) (s : State) : Res :=
  .next (if decide (core < 64) && (s.ctx pasid).alive && decide (va < 2 ^ 52) then fillTlb s core pasid [va] else s)

end Sys2Proof.Machine
end

