-- ==== Sys2Proof/Machine/Race.lean ====
section
/-! DEFINITION. Sys2Proof/Machine/Race.lean: line records, sync records, scratchpad records and race records (11.8, R246 to R257). -/

namespace Sys2Proof.Machine

open Sys2Proof

/-- Who accesses: identifier, clock and vector captured at issue (R252, R257). -/
structure RaceParty where
  pasid : Nat
  id : BitVec 18
  clk : BitVec 24
  know : KVec

/-- One access as the detector sees it: lane, addresses, bytes, class code (Table 11-5), scope code. -/
structure RaceAcc where
  lane : Nat
  va : Nat
  pa : Nat
  len : Nat
  write : Bool
  cls : Nat
  scope : Nat

def Cls.code : Cls → Nat
  | .plain => 0
  | .atomic => 1
  | .engine => 2
  | .strong => 3
/-- Atomic and strong accesses never race with one another (R246). -/
def syncClass (c : Nat) : Bool := c == 1 || c == 3

/-! ### Line records (Table 11-5, R252) -/

/-- The address of a line's record, through the shadow directory (R419). -/
def shadowAt (s : State) (pasid pa : Nat) : Option Nat :=
  let base := (s.ctx pasid).shadow
  let e := s.mem.le (base + 8 * bitsOf pa 36 21) 8
  if base = 0 || !localPa pa || e % 2 == 0 then none else some (bitsOf e 47 19 * 2 ^ 19 + 16 * (pa % 2 ^ 21 / 64))

def recMask (m : Nat) : Nat := bitsOf m 63 0
def recWid (m : Nat) : Nat := bitsOf m 81 64
def recWclk (m : Nat) : Nat := bitsOf m 105 82
def recWscope (m : Nat) : Nat := bitsOf m 107 106
def recClass (m : Nat) : Nat := bitsOf m 109 108
def recRstate (m : Nat) : Nat := bitsOf m 111 110
def recRclk (m : Nat) : Nat := bitsOf m 123 112
def recRslot (m : Nat) : Nat := bitsOf m 127 124
/-- A record built from its fields. -/
def recMk (mask wid wclk wscope cls rstate rclk rslot : Nat) : Nat :=
  mask % 2 ^ 64 + 2 ^ 64 * wid + 2 ^ 82 * wclk + 2 ^ 106 * wscope + 2 ^ 108 * cls + 2 ^ 110 * rstate + 2 ^ 112 * (rclk % 4096) + 2 ^ 124 * rslot
/-- A record with another reader state. -/
def recSetRstate (m st : Nat) : Nat := m - 2 ^ 110 * recRstate m + 2 ^ 110 * st

/-- The bytes of a line that an access covers, as a mask. -/
def lineBytes (pa len : Nat) : Nat := (2 ^ len - 1) * 2 ^ (pa % 64) % 2 ^ 64

/-- The check of R252. -/
def raceCheck (m : Nat) (p : RaceParty) (x : RaceAcc) : Option RaceHit :=
  let b := lineBytes x.pa x.len
  let c := Nat.land (recMask m) b
  let ws := slotHash (BitVec.ofNat 18 (recWid m))
  if c ≠ 0 ∧ recWclk m ≠ 0xFFFFFF ∧ !(syncClass x.cls && syncClass (recClass m)) ∧ p.know.get ws < recWclk m then
    some ⟨if x.write then 1 else 0, recClass m, recWscope m, recWclk m, ws, recWid m, c, p.know.get ws⟩
  else if x.write ∧ (recRstate m = 1 ∨ recRstate m = 2) ∧ c ≠ 0 ∧ !(syncClass x.cls && recRstate m == 2) ∧ p.know.get (recRslot m) < recRclk m then
    some ⟨2, if recRstate m = 1 then 0 else 3, 2, recRclk m, recRslot m, 0, c, p.know.get (recRslot m)⟩
  else none

/-- The update of R252. -/
def raceUpdate (m : Nat) (p : RaceParty) (x : RaceAcc) : Nat :=
  let b := lineBytes x.pa x.len
  if x.write then
    let rs := if recRstate m = 3 then 3 else 0
    if recWid m = p.id.toNat ∧ recWclk m = p.clk.toNat ∧ recClass m = x.cls then
      recMk (Nat.lor (recMask m) b) (recWid m) (recWclk m) (recWscope m) (recClass m) rs (recRclk m) (recRslot m)
    else recMk b p.id.toNat p.clk.toNat x.scope x.cls rs (recRclk m) (recRslot m)
  else if Nat.land b (recMask m) = recMask m ∧ recMask m ≠ 0 ∧ recRstate m ≠ 3 then
    recMk (recMask m) (recWid m) (recWclk m) (recWscope m) (recClass m) (if syncClass x.cls then 2 else 1) p.clk.toNat (slotHash p.id)
  else m

def lineRec (s : State) (pasid pa : Nat) : Option (Nat × Nat) := (shadowAt s pasid pa).map fun a => (a, s.mem.le a 16)
/-- The device's own bookkeeping in memory: not an access. -/
def State.putRec (s : State) (a m : Nat) : State := { s with mem := s.mem.write a (leBytes 16 m) }

/-- The race of one access against its line's record. -/
def checkAcc (s : State) (p : RaceParty) (x : RaceAcc) : Option RaceHit := (lineRec s p.pasid x.pa).bind fun r => raceCheck r.2 p x
/-- The records of the accesses updated, one after another. -/
def recordAccs (s : State) (p : RaceParty) (xs : List RaceAcc) : State :=
  xs.foldl (fun s x => match lineRec s p.pasid x.pa with
    | some (a, m) => s.putRec a (raceUpdate m p x)
    | none => s) s
def setRstate (s : State) (pasid pa st : Nat) : State :=
  match lineRec s pasid pa with
  | some (a, m) => s.putRec a (recSetRstate m st)
  | none => s

/-! ### Sync records (Table 11-6, R251) -/

/-- The address of the sync record that a line maps to. -/
def syncAt (s : State) (pasid pa : Nat) : Option Nat :=
  let c := s.ctx pasid
  if c.sync = 0 then none
  else some (c.sync + Config.homeSlice (pa / 64) % 64 * 2 ^ (c.syncK + 6) + 64 * (Config.syncHash (pa / 64) % 2 ^ c.syncK))

/-- A sync record read: live (a dead one is all zero, log entry 16), tag, offset, length, scope, block tag, identifier, vector. -/
structure SyncRec where
  live : Bool
  tag : Nat
  off : Nat
  len : Nat
  scope : Nat
  btag : Nat
  rid : Nat
  vec : KVec

def syncRead (s : State) (a : Nat) : SyncRec :=
  let v := s.mem.le a 48
  let w := s.mem.le (a + 48) 8
  let x := s.mem.le (a + 56) 8
  { live := v != 0 || w != 0 || x != 0, tag := bitsOf w 45 0, scope := bitsOf w 47 46, off := bitsOf w 53 48, len := bitsOf w 57 54 + 1,
    rid := bitsOf x 17 0, btag := bitsOf x 57 42, vec := Vector.ofFn fun j => BitVec.ofNat 24 (v / 2 ^ (24 * j.val)) }

def vecNat (k : KVec) : Nat := k.toList.foldr (fun b n => b.toNat + 2 ^ 24 * n) 0

/-- A release that writes a tracked line stores its record; a live record of another line that it replaces loses that line's
synchronisation (R251). -/
def syncStore (s : State) (pasid pa len : Nat) (vec : KVec) (clk : BitVec 24) (scope : BitVec 2) (id : BitVec 18) (btag : BitVec 16) : State :=
  match syncAt s pasid pa with
  | none => s
  | some a =>
    let old := syncRead s a
    let s := if old.live && old.tag != pa / 64 then setRstate s pasid (old.tag * 64) 3 else s
    let w := pa / 64 % 2 ^ 46 + 2 ^ 46 * scope.toNat + 2 ^ 48 * (pa % 64) + 2 ^ 54 * (len - 1)
    let x := id.toNat + 2 ^ 18 * clk.toNat + 2 ^ 42 * btag.toNat
    let s := { s with mem := s.mem.write a (leBytes 48 (vecNat vec) ++ leBytes 8 w ++ leBytes 8 x) }
    match lineRec s pasid pa with
    | some (_, m) => if recRstate m = 3 then setRstate s pasid pa 0 else s
    | none => s

/-- The live record of a line, if any of its bytes are touched. -/
def syncHit (s : State) (pasid pa len : Nat) : Option (Nat × SyncRec) :=
  match syncAt s pasid pa with
  | none => none
  | some a =>
    let r := syncRead s a
    if r.live && r.tag == pa / 64 && decide (r.off < pa % 64 + len) && decide (pa % 64 < r.off + r.len) then some (a, r) else none

/-- A record dies: its bytes are zeroed. -/
def syncKill (s : State) (pasid pa len : Nat) : State :=
  match syncHit s pasid pa len with
  | some (a, _) => { s with mem := s.mem.zero a 64 }
  | none => s

/-- Do the scopes of a record and an acquirer qualify, the narrower deciding (R251)? -/
def scopeMatch (scope : Nat) (rid btag : Nat) (id : BitVec 18) (tag : BitVec 16) : Bool :=
  match scope with
  | 0 => rid == id.toNat
  | 1 => btag == tag.toNat
  | _ => true

/-- What an acquire of bytes of a tracked line merges: everything when synchronisation is lost (Table 11-4), else the record's vector
when the scopes qualify. -/
def syncAcquire (s : State) (pasid pa len : Nat) (scope : BitVec 2) (id : BitVec 18) (btag : BitVec 16) : KVec :=
  let lost := (s.ctx pasid).sync == 0 || (match lineRec s pasid pa with | some (_, m) => recRstate m == 3 | none => false)
  if lost then KVec.top
  else
    match syncHit s pasid pa len with
    | some (_, r) => if scopeMatch (if scope.toNat ≤ r.scope then scope.toNat else r.scope) r.rid r.btag id btag then r.vec else KVec.zero
    | none => KVec.zero

/-- The record an atomic captures for a later acquire fence (R245, R251); lost synchronisation is captured as a saturated vector. -/
def syncCapture (s : State) (pasid pa len : Nat) : Option SyncCap :=
  let lost := (s.ctx pasid).sync == 0 || (match lineRec s pasid pa with | some (_, m) => recRstate m == 3 | none => false)
  if lost then some { vec := KVec.top, scope := 3, rid := 0, btag := 0, lost := true }
  else (syncHit s pasid pa len).map fun h => { vec := h.2.vec, scope := BitVec.ofNat 2 h.2.scope, rid := BitVec.ofNat 18 h.2.rid, btag := BitVec.ofNat 16 h.2.btag }

/-- The record of a line reset (R253): no writer, no reader, or synchronisation lost if a live sync record died. `rclr` clears reader state 3; a write from
outside does not, for R251 lets only a release or `rclr` clear it, and R246 no report of what is ordered. DESIGN CHOICE, log entry 58: R253 has RSTATE := 0 for
such a write; the fields that it does not name become zero. Unsafe. -/
def resetLine (s : State) (pasid pa : Nat) (clears : Bool) : State :=
  let hit := (syncHit s pasid (pa / 64 * 64) 64).isSome
  let s := syncKill s pasid (pa / 64 * 64) 64
  match lineRec s pasid pa with
  | some (a, m) => s.putRec a (recMk 0 0 0 0 0 (if hit || (!clears && recRstate m == 3) then 3 else 0) 0 0)
  | none => s

/-- A write of the host, a peer or Chovis resets the records of its lines in every context that records them (R241, R253). -/
def resetLines (s : State) (pa n : Nat) : State :=
  s.ctxs.foldl (fun s c => if !c.alive || c.shadow == 0 then s else
    (List.range ((pa % 64 + n + 63) / 64)).foldl (fun s k => resetLine s c.pasid (pa / 64 * 64 + 64 * k) false) s) s

/-- A write of the host, a peer or Chovis to memory (R241). -/
def State.outsideWrite (s : State) (pa : Nat) (bs : List Byte) : State := (resetLines s pa bs.length).writeMem pa bs

/-! ### Race records (R255, R256, Table 11-7) -/

/-- The lowest set bit of a mask of bytes. -/
def lowBit (m : Nat) : Nat := ((List.range 64).find? fun k => m / 2 ^ k % 2 == 1).getD 0

/-- TRAPINFO of a race (R255). -/
def raceInfo (h : RaceHit) (eng lost : Bool) : Word :=
  BitVec.ofNat 32 (h.type * 2 ^ 30 + h.oclass * 2 ^ 28 + (if eng then 2 ^ 27 else 0) + (if lost then 2 ^ 26 else 0) + h.oscope * 2 ^ 24 + h.oclk)

/-- A race record appended to the context's ring, or dropped and counted when the ring is full or absent: the state and whether it
was lost. -/
def raceRecord (s : State) (p : RaceParty) (x : RaceAcc) (h : RaceHit) (pc : BitVec 52) (lanes : Mask) (lid : Word) (trap eng : Bool) : State × Bool :=
  let c := s.ctx p.pasid
  let (base, n) := c.ring 0
  let drop (s : State) : State := s.modC p.pasid fun c => { c with raceDrops := capAt (c.raceDrops + 1) 8191 }
  if base = 0 then (s, true)
  else if s.ringRoom base n = 0 then ((drop s).ringDrop base, true)
  else
    let va := x.va / 64 * 64 + lowBit h.bytes
    let bs := leBytes 8 va ++ leBytes 8 pc.toNat
      ++ leBytes 4 (h.type * 2 ^ 30 + x.cls * 2 ^ 28 + x.scope * 2 ^ 26 + p.clk.toNat)
      ++ leBytes 4 (h.oclass * 2 ^ 28 + h.oscope * 2 ^ 26 + h.oclk)
      ++ leBytes 4 p.id.toNat ++ leBytes 4 (h.oslot * 2 ^ 18 + h.oid) ++ leBytes 4 lanes.toNat ++ leBytes 4 h.kslot
      ++ leBytes 8 h.bytes ++ leBytes 8 s.time ++ leBytes 4 lid.toNat
      ++ leBytes 4 (2 ^ 31 + (if trap then 2 ^ 30 else 0) + (if eng then 2 ^ 29 else 0) + c.raceDrops * 2 ^ 16 + c.raceSeq % 65536)
    ((s.ringPut base n 64 bs).modC p.pasid fun c => { c with raceDrops := 0, raceSeq := c.raceSeq + 1 }, false)

/-! ### Scratchpad records (R254) -/

/-- The words of 64 bytes that an access covers, as a mask. -/
def spWords (o len : Nat) : Nat := (2 ^ ((o % 64 + len + 3) / 4 - o % 64 / 4) - 1) * 2 ^ (o % 64 / 4) % 2 ^ 16

/-- The bytes of the words of a mask. -/
def wordBytes (c : Nat) : Nat := (List.range 16).foldl (fun n j => if c / 2 ^ j % 2 = 1 then n + 15 * 2 ^ (4 * j) else n) 0
/-- The check of R254: RAW and WAW only. The conflicting bytes are those of the access in the words of the last writer. DESIGN CHOICE, log entry 59:
the record keeps neither a scope nor an identifier, and the model reports OSCOPE 2 and OID 0 for the other party. Unsafe. -/
def spCheck (rec : Nat) (p : RaceParty) (x : RaceAcc) : Option RaceHit :=
  let c := Nat.land (bitsOf rec 31 16) (spWords x.pa x.len)
  let slot := bitsOf rec 15 12
  if c ≠ 0 ∧ !(syncClass x.cls && syncClass (bitsOf rec 11 10)) ∧ p.know.get slot < bitsOf rec 7 0 then
    some ⟨if x.write then 1 else 0, bitsOf rec 11 10, 2, bitsOf rec 7 0, slot, 0, Nat.land (wordBytes c) (lineBytes x.pa x.len), p.know.get slot⟩
  else none

/-- The update of a scratchpad record by a write. -/
def spUpdate (rec : Nat) (p : RaceParty) (x : RaceAcc) : Nat :=
  let w := spWords x.pa x.len
  let tail := slotHash p.id * 2 ^ 12 + x.cls * 2 ^ 10 + p.clk.toNat % 256
  if !x.write then rec
  else if rec % 65536 = tail then Nat.lor (bitsOf rec 31 16) w * 65536 + tail
  else w * 65536 + tail

def Block.spRecord (b : Block) (o : Nat) : Nat := b.spRec.le (o / 64 * 4) 4
def Block.putSpRec (b : Block) (o v : Nat) : Block := { b with spRec := b.spRec.write (o / 64 * 4) (leBytes 4 v) }

/-- A group as a racing party. -/
def raceParty (s : State) (g : Group) : RaceParty := ⟨s.pasidOf g, g.id, g.clk, g.know⟩

end Sys2Proof.Machine
end

