-- ==== Sys2Proof/Machine/Real.lean ====
section
/-! DEFINITION. Sys2Proof/Machine/Real.lean: the values of the floating-point and integer element formats as exact dyadic numbers,
rounding (R142), and the arithmetic of chapter 7 on encodings. -/

namespace Sys2Proof.Machine

open Sys2Proof

/-- A rounding mode (R142). -/
inductive RMode where
  | rne | rz | ru | rd | rna
deriving DecidableEq, Repr

/-- The rounding codes 0 to 4 (R86); the codes above are refused before they come here. -/
def RMode.ofCode (c : Nat) : RMode :=
  match c with
  | 0 => .rne
  | 1 => .rz
  | 2 => .ru
  | 3 => .rd
  | _ => .rna

/-- A floating-point format: exponent and fraction bits, bias, whether the top exponent holds infinity and NaN, the largest finite
magnitude's encoding, and the canonical NaN, if any (Tables 7-3 and 8-1). -/
structure FFmt where
  eb : Nat
  fb : Nat
  bias : Nat
  inf : Bool
  maxMag : Nat
  nan : Option Nat
deriving DecidableEq, Repr

def fp32 : FFmt := ⟨8, 23, 127, true, 0x7F7FFFFF, some 0x7FC00000⟩
def bf16 : FFmt := ⟨8, 7, 127, true, 0x7F7F, some 0x7FC0⟩
def fp16 : FFmt := ⟨5, 10, 15, true, 0x7BFF, some 0x7E00⟩
def e5m2 : FFmt := ⟨5, 2, 15, true, 0x7B, some 0x7E⟩
def e4m3 : FFmt := ⟨4, 3, 7, false, 0x7E, some 0x7F⟩
def e3m2 : FFmt := ⟨3, 2, 3, false, 0x1F, none⟩
def e2m3 : FFmt := ⟨2, 3, 1, false, 0x1F, none⟩
def e2m1 : FFmt := ⟨2, 1, 1, false, 0x7, none⟩

/-- The floating-point format of an element code 0 to 7 (Table 2-7). -/
def ffmtOf (c : Nat) : FFmt :=
  match c with
  | 0 => fp32
  | 1 => bf16
  | 2 => fp16
  | 3 => e5m2
  | 4 => e4m3
  | 5 => e3m2
  | 6 => e2m3
  | _ => e2m1

/-- An exact value: NaN, an infinity, or (-1)^neg × m × 2^e, a zero keeping its sign. -/
inductive Val where
  | nan
  | inf (neg : Bool)
  | fin (neg : Bool) (m : Nat) (e : Int)
deriving DecidableEq, Repr

/-- Bits of a format without its sign. -/
def FFmt.magBits (f : FFmt) : Nat := f.eb + f.fb
/-- The weight of the last place of the subnormals. -/
def FFmt.emin (f : FFmt) : Int := 1 - (f.bias : Int) - f.fb
/-- The infinity's encoding, without sign. -/
def FFmt.infMag (f : FFmt) : Nat := (2 ^ f.eb - 1) * 2 ^ f.fb

/-- The sign and the magnitude bits of an encoding. -/
def FFmt.signOf (f : FFmt) (x : Nat) : Bool := x / 2 ^ f.magBits % 2 = 1
def FFmt.magOf (f : FFmt) (x : Nat) : Nat := x % 2 ^ f.magBits
/-- A sign and magnitude bits put together. -/
def FFmt.join (f : FFmt) (neg : Bool) (mag : Nat) : Nat := (if neg then 2 ^ f.magBits else 0) + mag
/-- The canonical quiet NaN (R145); a format without NaN has 0 here. -/
def FFmt.nanBits (f : FFmt) : Nat := f.nan.getD 0

/-- The value of an encoding (R158, Table 8-1). -/
def FFmt.value (f : FFmt) (x : Nat) : Val :=
  let neg := f.signOf x
  let mag := f.magOf x
  if f.inf && decide (f.infMag ≤ mag) then (if mag = f.infMag then .inf neg else .nan)
  else if !f.inf && f.nan == some mag then .nan
  else
    let e := mag / 2 ^ f.fb
    let fr := mag % 2 ^ f.fb
    if e = 0 then .fin neg fr f.emin else .fin neg (2 ^ f.fb + fr) (f.emin + (e - 1 : Nat))

/-- Is an encoding subnormal: nonzero and below the smallest normal? -/
def FFmt.subnormal (f : FFmt) (x : Nat) : Bool := f.magOf x != 0 && decide (f.magOf x < 2 ^ f.fb)
/-- The flush of R144: a subnormal is replaced by the zero of its sign. -/
def FFmt.flush (f : FFmt) (ftz : Bool) (x : Nat) : Nat := if ftz && f.subnormal x then f.join (f.signOf x) 0 else x

/-- m × 2^e rounded to a whole number of 2^g under a mode (R142). -/
def roundGrid (mode : RMode) (neg : Bool) (m : Nat) (e g : Int) : Nat :=
  if g ≤ e then m * 2 ^ (e - g).toNat
  else
    let k := (g - e).toNat
    let q := m / 2 ^ k
    let r := m % 2 ^ k
    let up : Bool := match mode with
      | .rne => decide (2 ^ k < 2 * r) || (2 * r == 2 ^ k && q % 2 == 1)
      | .rz => false
      | .ru => !neg && r != 0
      | .rd => neg && r != 0
      | .rna => decide (2 ^ k ≤ 2 * r)
    if up then q + 1 else q

/-- What rounding gives: the magnitude's encoding, or overflow with whether R142 then gives an infinity. -/
inductive Rounded where
  | fits (mag : Nat)
  | huge (inf : Bool)
deriving DecidableEq, Repr

/-- Round(x, fmt, mode) of (-1)^neg × m × 2^e, without the sign (R142). -/
def FFmt.round (f : FFmt) (mode : RMode) (neg : Bool) (m : Nat) (e : Int) : Rounded :=
  if m = 0 then .fits 0
  else
    let top := e + (Nat.log2 m : Nat) - f.fb
    let g := if top < f.emin then f.emin else top
    let n := roundGrid mode neg m e g
    let mag := (g - f.emin).toNat * 2 ^ f.fb + n
    if mag ≤ f.maxMag then .fits mag
    else .huge (match mode with | .rne => true | .rna => true | .rz => false | .ru => !neg | .rd => neg)

/-- An arithmetic result: rounded under RNE, then the result flush (R143, R144), NaN canonical (R145). -/
def FFmt.arith (f : FFmt) (ftz : Bool) (v : Val) : Nat :=
  match v with
  | .nan => f.nanBits
  | .inf neg => f.join neg f.infMag
  | .fin neg m e =>
    match f.round .rne neg m e with
    | .fits mag => f.flush ftz (f.join neg mag)
    | .huge inf => f.join neg (if inf then f.infMag else f.maxMag)

/-! ### Exact operations on values (R146, R147) -/

def Val.neg : Val → Val
  | .nan => .nan
  | .inf n => .inf (!n)
  | .fin n m e => .fin (!n) m e

/-- The signed integer of a finite value on the grid 2^g, for g at most its exponent. -/
def signed (neg : Bool) (m : Nat) (e g : Int) : Int :=
  let x : Int := m * 2 ^ (e - g).toNat
  if neg then -x else x

/-- Exact sum; an exact zero of unlike signs is +0 and two zeros of one sign keep it (R146). -/
def Val.add : Val → Val → Val
  | .nan, _ => .nan
  | _, .nan => .nan
  | .inf a, .inf b => if a = b then .inf a else .nan
  | .inf a, .fin .. => .inf a
  | .fin .., .inf b => .inf b
  | .fin an am ae, .fin bn bm be =>
    let g := if ae ≤ be then ae else be
    let x := signed an am ae g + signed bn bm be g
    if x = 0 then .fin (an && bn) 0 g else .fin (decide (x < 0)) x.natAbs g

/-- Exact product; 0 × ∞ is NaN (R147). -/
def Val.mul : Val → Val → Val
  | .nan, _ => .nan
  | _, .nan => .nan
  | .inf a, .inf b => .inf (a != b)
  | .inf a, .fin b m _ => if m = 0 then .nan else .inf (a != b)
  | .fin a m _, .inf b => if m = 0 then .nan else .inf (a != b)
  | .fin an am ae, .fin bn bm be => .fin (an != bn) (am * bm) (ae + be)

/-- a × 2^k. -/
def Val.scale (v : Val) (k : Int) : Val :=
  match v with
  | .fin n m e => .fin n m (e + k)
  | _ => v

def Val.isNan : Val → Bool
  | .nan => true
  | _ => false
def Val.isZero : Val → Bool
  | .fin _ 0 _ => true
  | _ => false
def Val.sign : Val → Bool
  | .nan => false
  | .inf n => n
  | .fin n _ _ => n

/-- a < b of two values that are not NaN, zeros equal. -/
def Val.lt : Val → Val → Bool
  | .nan, _ => false
  | _, .nan => false
  | .inf a, .inf b => a && !b
  | .inf a, .fin .. => a
  | .fin .., .inf b => !b
  | .fin an am ae, .fin bn bm be =>
    let g := if ae ≤ be then ae else be
    decide (signed an am ae g < signed bn bm be g)
def Val.eq (a b : Val) : Bool := !a.isNan && !b.isNan && !a.lt b && !b.lt a

/-- An integer as a value. -/
def Val.ofInt (x : Int) : Val := .fin (decide (x < 0)) x.natAbs 0

/-! ### The operations of Tables 7-1 and of R153, on encodings -/

/-- The value of an operand after the input flush. -/
def FFmt.inp (f : FFmt) (ftz : Bool) (x : Nat) : Val := f.value (f.flush ftz x)

def FFmt.addOp (f : FFmt) (ftz : Bool) (a b : Nat) : Nat := f.arith ftz ((f.inp ftz a).add (f.inp ftz b))
def FFmt.subOp (f : FFmt) (ftz : Bool) (a b : Nat) : Nat := f.arith ftz ((f.inp ftz a).add (f.inp ftz b).neg)
def FFmt.mulOp (f : FFmt) (ftz : Bool) (a b : Nat) : Nat := f.arith ftz ((f.inp ftz a).mul (f.inp ftz b))
/-- a × b + d, one rounding. -/
def FFmt.fmaOp (f : FFmt) (ftz : Bool) (a b d : Nat) : Nat :=
  f.arith ftz (((f.inp ftz a).mul (f.inp ftz b)).add (f.inp ftz d))
/-- a × b - d, one rounding. -/
def FFmt.fmsOp (f : FFmt) (ftz : Bool) (a b d : Nat) : Nat :=
  f.arith ftz (((f.inp ftz a).mul (f.inp ftz b)).add (f.inp ftz d).neg)
/-- d - a × b, one rounding. -/
def FFmt.fnmaOp (f : FFmt) (ftz : Bool) (a b d : Nat) : Nat :=
  f.arith ftz ((f.inp ftz d).add ((f.inp ftz a).mul (f.inp ftz b)).neg)

/-- Does a come before b, with -0 below +0 (minimum and maximum of Table 7-1)? -/
def before (a b : Val) : Bool := a.lt b || (a.eq b && a.isZero && a.sign && !b.sign)

/-- Minimum: NaN if either is (IEEE 754-2019 minimum). -/
def FFmt.minOp (f : FFmt) (ftz : Bool) (a b : Nat) : Nat :=
  let x := f.inp ftz a
  let y := f.inp ftz b
  if x.isNan || y.isNan then f.nanBits else if before y x then f.flush ftz b else f.flush ftz a
def FFmt.maxOp (f : FFmt) (ftz : Bool) (a b : Nat) : Nat :=
  let x := f.inp ftz a
  let y := f.inp ftz b
  if x.isNan || y.isNan then f.nanBits else if before x y then f.flush ftz b else f.flush ftz a
/-- minimumNumber: the other operand if exactly one is NaN. -/
def FFmt.minnOp (f : FFmt) (ftz : Bool) (a b : Nat) : Nat :=
  if (f.value a).isNan && !(f.value b).isNan then f.flush ftz b
  else if (f.value b).isNan && !(f.value a).isNan then f.flush ftz a
  else f.minOp ftz a b
def FFmt.maxnOp (f : FFmt) (ftz : Bool) (a b : Nat) : Nat :=
  if (f.value a).isNan && !(f.value b).isNan then f.flush ftz b
  else if (f.value b).isNan && !(f.value a).isNan then f.flush ftz a
  else f.maxOp ftz a b

/-- Rounding to an integral value: the sign kept on zero, infinities unchanged (R149). -/
def frint (ftz : Bool) (mode : RMode) (a : Nat) : Nat :=
  match fp32.inp ftz a with
  | .nan => fp32.nanBits
  | .inf _ => a
  | .fin neg m e => fp32.arith ftz (.fin neg (roundGrid mode neg m e 0) 0)

/-- a - trunc(a), with the sign of a on zero; infinities give NaN (Table 7-1). -/
def ffrac (ftz : Bool) (a : Nat) : Nat :=
  match fp32.inp ftz a with
  | .nan => fp32.nanBits
  | .inf _ => fp32.nanBits
  | .fin neg m e => if 0 ≤ e then fp32.join neg 0 else fp32.arith ftz (.fin neg (m % 2 ^ (-e).toNat) e)

/-- a clamped to [+0, 1.0]; -0 and NaN give +0 (Table 7-1). -/
def fsat (ftz : Bool) (a : Nat) : Nat :=
  let v := fp32.inp ftz a
  if v.isNan || v.sign || v.isZero then 0
  else if (Val.ofInt 1).lt v then 0x3F800000
  else fp32.flush ftz a

/-- The class mask of R151. -/
def fclass (a : Nat) : Nat :=
  match fp32.value a with
  | .inf neg => if neg then 1 else 2 ^ 7
  | .nan => if a / 2 ^ 22 % 2 = 0 then 2 ^ 8 else 2 ^ 9
  | .fin neg m _ =>
    if m = 0 then (if neg then 2 ^ 3 else 2 ^ 4)
    else if fp32.subnormal a then (if neg then 2 ^ 2 else 2 ^ 5)
    else (if neg then 2 ^ 1 else 2 ^ 6)

/-- Both halves of a packed pair, each on its own (R153). -/
def halves (f : Nat → Nat → Nat → Nat) (a b d : Word) : Word :=
  BitVec.ofNat 32 (f (a.toNat % 65536) (b.toNat % 65536) (d.toNat % 65536) % 65536
    + 65536 * (f (a.toNat / 65536) (b.toNat / 65536) (d.toNat / 65536) % 65536))

/-! ### Conversion (R154 to R157) -/

/-- Width, least and largest value of an integer code 8 to 12 (Table 7-3). -/
def intRange (c : Nat) : Int × Int :=
  match c with
  | 8 => (-128, 127)
  | 9 => (0, 255)
  | 10 => (-8, 7)
  | 11 => (0, 15)
  | _ => (-2, 1)

/-- Bits of an element code (Table 2-7). -/
def codeWidth (c : Nat) : Nat :=
  match c with
  | 0 => 32 | 1 => 16 | 2 => 16 | 3 => 8 | 4 => 8 | 5 => 6 | 6 => 6 | 7 => 4
  | 8 => 8 | 9 => 8 | 10 => 4 | 11 => 4 | 12 => 2 | 13 => 2 | 14 => 4 | _ => 8

/-- The integer that w bits hold under an integer code. -/
def intOf (c x : Nat) : Int :=
  let w := codeWidth c
  let y := x % 2 ^ w
  if (c = 8 ∨ c = 10 ∨ c = 12) ∧ 2 ^ (w - 1) ≤ y then (y : Int) - 2 ^ w else y

/-- The exact value of an element after the source flush (R155). -/
def srcVal (ftz : Bool) (c x : Nat) : Val :=
  if c < 8 then
    let f := ffmtOf c
    f.inp (ftz && decide (c < 3)) (x % 2 ^ codeWidth c)
  else .ofInt (intOf c x)

/-- A value converted to a floating-point element (R155, Table 7-4). -/
def toFloat (ftz sat : Bool) (mode : RMode) (c : Nat) (v : Val) : Nat :=
  let f := ffmtOf c
  let special (neg : Bool) (inf : Bool) : Nat :=
    if !sat && inf then (if f.inf then f.join neg f.infMag else match f.nan with | some n => n | none => f.join neg f.maxMag)
    else f.join neg f.maxMag
  match v with
  | .nan => f.nanBits
  | .inf neg => special neg true
  | .fin neg m e =>
    match f.round mode neg m e with
    | .fits mag => f.flush (ftz && decide (c < 3)) (f.join neg mag)
    | .huge inf => special neg inf

/-- A value converted to an integer element: rounded and clamped, NaN gives 0 (R156). -/
def toIntElem (mode : RMode) (c : Nat) (v : Val) : Nat :=
  let (lo, hi) := intRange c
  let x : Int := match v with
    | .nan => 0
    | .inf neg => if neg then lo else hi
    | .fin neg m e => let n : Int := roundGrid mode neg m e 0; if neg then -n else n
  let y := if x < lo then lo else if hi < x then hi else x
  (y % 2 ^ codeWidth c).toNat

/-- One element converted from code c to code e (R154 to R157). -/
def convert (ftz sat : Bool) (mode : RMode) (c e x : Nat) : Nat :=
  if e < 8 then toFloat ftz sat mode e (srcVal ftz c x)
  else if c < 8 then toIntElem mode e (srcVal ftz c x)
  else if sat then toIntElem .rne e (srcVal ftz c x)
  else (intOf c x % 2 ^ codeWidth e).toNat

end Sys2Proof.Machine
end

