-- ==== Sys2Proof/Machine/Access.lean ====
section
/-! DEFINITION. Sys2Proof/Machine/Access.lean: the memory updates of atomics and reductions, the L1, performing stores, the checks of
memory instructions and what they leave outstanding (chapters 10 to 12). -/

namespace Sys2Proof.Machine

open Sys2Proof

/-! ### The arithmetic of slices and banks (R265, Tables 12-1 to 12-3, R212) -/

/-- A function on the 16-bit halves of a value of 2 or 4 bytes. -/
def onHalves (f : Nat → Nat → Nat) (m v : Nat) : Nat := f (m % 65536) (v % 65536) + 65536 * f (m / 65536 % 65536) (v / 65536 % 65536)

def sgn32 (x : Nat) : Int := (BitVec.ofNat 32 x).toInt
def sgn64 (x : Nat) : Int := (BitVec.ofNat 64 x).toInt

/-- The new value of memory from the old value m, the operand v and, for a compare and swap, the new value c. -/
def atomApply (op : AtomOp) (m v c : Nat) : Nat :=
  match op with
  | .add32 => (m + v) % 2 ^ 32
  | .addF32 => fp32.addOp false m v
  | .addBf16x2 => onHalves (bf16.addOp false) m v
  | .addF16x2 => onHalves (fp16.addOp false) m v
  | .minI => if sgn32 v < sgn32 m then v else m
  | .maxI => if sgn32 m < sgn32 v then v else m
  | .minZ => if v < m then v else m
  | .maxZ => if m < v then v else m
  | .and => Nat.land m v
  | .or => Nat.lor m v
  | .xor => Nat.xor m v
  | .xch => v
  | .inc => if v ≤ m then 0 else m + 1
  | .dec => if m = 0 ∨ v < m then v else m - 1
  | .minF32 => fp32.minnOp false m v
  | .maxF32 => fp32.maxnOp false m v
  | .add64 => (m + v) % 2 ^ 64
  | .minI64 => if sgn64 v < sgn64 m then v else m
  | .maxI64 => if sgn64 m < sgn64 v then v else m
  | .minZ64 => if v < m then v else m
  | .maxZ64 => if m < v then v else m
  | .xch64 => v
  | .cas32 => if m = v then c else m
  | .cas64 => if m = v then c else m
  | .cas128 => if m = v then c else m
  | .maxp => if sgn64 (m % 2 ^ 64) < sgn64 (v % 2 ^ 64) then v else m
  -- sub-byte elements: c is the element's index in the byte
  | .st4 => m - m / 16 ^ c % 16 * 16 ^ c + v % 16 * 16 ^ c
  | .st2 => m - m / 4 ^ c % 4 * 4 ^ c + v % 4 * 4 ^ c

/-! ### L2 (R18, R209, Table 10-5) -/

/-- Lines of a slice, and of one of its 16 ways: 2 MiB in lines of 64 bytes. -/
def sliceOf (line : Nat) : Nat := Config.homeSlice line % 64
/-- Where an allocation stands in the order of replacement: class 0 `.ln`, 1 `.lf`, 2 `.ll`, 3 `.lx` (Table 10-5). -/
def l2Rank (cls : Nat) : Nat :=
  match cls with
  | 0 => 1
  | 2 => 2
  | _ => 0
/-- The line that an allocation replaces: of the candidates one of the lowest rank, the oldest among those. -/
def l2Victim (xs : List L2Line) : Option L2Line :=
  (List.range 3).findSome? fun r => (xs.filter fun x => x.rank == r).getLast?
/-- Ways pinned to contexts other than one. -/
def pinnedElse (s : State) (pasid : Nat) : BitVec 16 :=
  s.ctxs.foldl (fun m c => if c.alive && c.pasid != pasid then m ||| c.pinWays else m) 0

/-- An access at the home slice: a hit is served from any way; a miss allocates into the ways of the context's mask, but for those that are pinned to another
context now (R209, log entry 73), `.lx` only for a store. No line
homed elsewhere is held (R412). A way of a slice holds 2,048 lines; the spec gives no placement within it, and the model has none (log entry 60). -/
def touchL2 (s : State) (pasid cls : Nat) (store : Bool) (pa : Nat) : State :=
  let line := pa / 64
  let ways := (List.range 16).filter fun w => ((s.ctx pasid).ways &&& ~~~pinnedElse s pasid).getLsbD w
  if !localPa pa || s.l2.any (fun x => x.line == line) || ways.isEmpty || (cls == 3 && !store) then s
  else
    let here := s.l2.filter fun x => sliceOf x.line == sliceOf line
    let free := ways.filter fun w => decide ((here.filter fun x => x.way == w).length < 2048)
    match free with
    | w :: _ => { s with l2 := ⟨line, w, pasid, l2Rank cls⟩ :: s.l2 }
    | [] => (match l2Victim (here.filter fun x => ways.contains x.way) with
      | some v => { s with l2 := ⟨line, v.way, pasid, l2Rank cls⟩ :: s.l2.filter fun x => x.line != v.line }
      | none => s)
/-- A line is evicted first from its home slice (R221). -/
def evictFirst (s : State) (line : Nat) : State := { s with l2 := s.l2.map fun x => if x.line == line then { x with rank := 0 } else x }

/-! ### L1 (R208, R236) -/

def dropL1 (s : State) (core pa len : Nat) : State :=
  { s with l1 := s.l1.filter fun x => !(x.core == core && decide (x.line * 64 < pa + len) && decide (pa < x.line * 64 + 64)) }

/-- Bytes put into a line's copy. -/
def patchLine (x : L1Line) (pa : Nat) (bs : List Byte) : L1Line :=
  { x with bytes := (indexed x.bytes).map fun b =>
      let a := x.line * 64 + b.1
      if decide (pa ≤ a) && decide (a < pa + bs.length) then bs[a - pa]?.getD b.2 else b.2 }
def updateL1 (s : State) (core pa : Nat) (bs : List Byte) : State :=
  { s with l1 := s.l1.map fun x => if x.core == core && x.line == pa / 64 then patchLine x pa bs else x }
/-- A line filled into an L1; `stream` for `.cs`, whose line is the first victim of its set. -/
def fillL1 (s : State) (core line : Nat) (stream : Bool := false) : State :=
  { s with fillNo := s.fillNo + 1,
           l1 := { core := core, line := line, bytes := s.mem.read (line * 64) 64, fill := s.fillNo + 1, stream := stream }
             :: s.l1.filter fun x => !(x.core == core && x.line == line) }

/-- What a load finds: the state behind it, its bytes, none where an uncorrectable error stands in what serves it (R217, R356), and whether it missed
the L1. -/
structure Found where
  s : State
  bytes : Option (List Byte)
  miss : Bool := false

/-- The bytes at their home, unless an uncorrectable error stands in their line. -/
def homeBytes (s : State) (pa len : Nat) : Option (List Byte) := if s.badAt pa len then none else some (s.mem.read pa len)
/-- A load: an older L1 copy may serve it when no acquire of the fragment retired it (log entry 5); otherwise the home line does, and fills or drops the
copy (R208, R236). A line with an error at its home fills no copy. -/
def loadBytes (s : State) (core acquired pol pa len : Nat) : Found :=
  let home := homeBytes s pa len
  let filled := if home.isNone then dropL1 s core pa len else fillL1 s core (pa / 64) (pol == 2)
  if pol = 1 || !localPa pa then { s := dropL1 s core pa len, bytes := home }
  else
    match s.l1.find? fun x => x.core == core && x.line == pa / 64 with
    | some x =>
      if decide (acquired < x.fill) && (x.bytes == s.mem.read (pa / 64 * 64) 64 || Config.stale (s.oracle 2 (pa / 64))) then
        { s := s, bytes := if x.bad then none else some ((x.bytes.drop (pa % 64)).take len) }
      else { s := filled, bytes := home, miss := true }
    | none => { s := filled, bytes := home, miss := true }

/-! ### Stores and reductions performing (R94, R211, R252, R271) -/

/-- What the detector sees of a store's lane. -/
def raceAccOf (e : Store) (x : LaneAcc) : RaceAcc := ⟨x.lane, x.va, x.pa, x.size, true, e.cls.code, if e.cls = .plain then 2 else e.scope.toNat⟩

/-- The cores whose L1 follows a store of a group: the issuing core, and the one where the group stands since (R208). -/
def Store.cores (s : State) (e : Store) : List Nat := [e.core, (s.group e.gi).core].eraseDups

/-- One lane's update performs at its home: bytes, the issuing core's L1 copy, sync records of tracked lines. A reduction into bytes
with an uncorrectable error leaves them as they are, with its line in L2 as it was. -/
def performLane (s : State) (e : Store) (x : LaneAcc) : State :=
  let old := s.mem.le x.pa x.size
  let new := if x.plain then x.val.toNat else atomApply x.op old x.val.toNat x.cmp.toNat
  if !x.plain && s.badAt x.pa x.size then s
  else
    let bs := leBytes x.size new
    let s := (touchL2 s e.pasid x.lcls true x.pa).writeMem x.pa bs
    let s := (e.cores s).foldl (fun s core => if x.pol = 1 || e.cls != .plain then dropL1 s core x.pa x.size else updateL1 s core x.pa bs) s
    if !x.tracked then s
    else
      let s := if e.cls = .plain then syncKill s e.pasid x.pa x.size else s
      match e.rel with
      | some (v, c, sc) => syncStore s e.pasid x.pa x.size v c sc e.id e.btag
      | none => s

/-- A store performs, lane by lane in ascending order (R211). -/
def performStore (s : State) (e : Store) : State := e.acc.foldl (fun s x => performLane s e x) s

/-- Do two stores touch a common byte? -/
def overlaps (a b : Store) : Bool :=
  a.acc.any fun x => b.acc.any fun y => decide (x.pa < y.pa + y.size) && decide (y.pa < x.pa + x.size)
/-- Do two stores touch a common line that is homed elsewhere? The transactions of the part to it perform in issue order (R412). -/
def sharesRemote (a b : Store) : Bool := a.acc.any fun x => !localPa x.pa && b.acc.any fun y => x.pa / 64 == y.pa / 64

/-- Is b an earlier access of the same program order as a (R102, R232)? -/
def precedes (b a : Store) : Bool := b.gi == a.gi && decide (b.seq < a.seq) && (b.fid == a.fid || a.before.contains b.fid)

/-- Must a store perform before another: earlier in its program order over common bytes, or before an ordered one (R208, R237, R244, R273), or earlier from
the part to a remote line of its (R412)? -/
def mustPrecede (b a : Store) : Bool := (precedes b a && (a.ordered || overlaps b a)) || (decide (b.seq < a.seq) && sharesRemote b a)
/-- Does a tile transfer go to a remote line of some places? -/
def Xfer.toRemote (x : Xfer) (pas : List Nat) : Bool := x.space == .glob && x.chunks.any fun c => !localPa c.2 && pas.any fun p => c.2 / 64 == p / 64
/-- Has a tile transfer of the part, issued before a store, yet to move to or from a remote line of it (R412)? -/
def Store.behindXfer (s : State) (e : Store) : Bool := s.groups.any fun g => g.xfers.any fun x => decide (x.seq < e.seq) && x.toRemote (e.acc.map (·.pa))
/-- May a store perform now? An ordered one waits for the tile transfers before it, too. -/
def canPerform (s : State) (e : Store) : Bool :=
  s.unperf.all (fun b => !mustPrecede b e) && !e.behindXfer s
    && (!e.ordered || (s.group e.gi).xfers.all (fun x => !(decide (x.seq < e.seq) && (x.fid == e.fid || e.before.contains x.fid))))

/-- The stores of a kind, with those that must come before them, oldest first. -/
def dueBefore (s : State) (hit : Store → Bool) : List Store := s.unperf.foldr (fun e ds => if hit e || ds.any (mustPrecede e) then e :: ds else ds) []
/-- They perform at once. -/
def drainHit (s : State) (hit : Store → Bool) : State :=
  let due := dueBefore s hit
  due.foldl performStore { s with unperf := s.unperf.filter fun e => !due.contains e }
/-- Does a store touch some bytes? -/
def Store.touches (e : Store) (pas : List (Nat × Nat)) : Bool := e.acc.any fun x => pas.any fun p => decide (x.pa < p.1 + p.2) && decide (p.1 < x.pa + x.size)
/-- Does it go to a remote line of theirs? -/
def Store.toRemote (e : Store) (pas : List (Nat × Nat)) : Bool := e.acc.any fun x => !localPa x.pa && pas.any fun p => x.pa / 64 == p.1 / 64
/-- Does a store perform before a fragment's access to some bytes: of its program order over those bytes, or of the part to their remote lines (R208, R412)? -/
def Store.ahead (e : Store) (gi : Nat) (f : Frag) (pas : List (Nat × Nat)) : Bool :=
  (e.gi == gi && (e.fid == f.fid || f.before.contains e.fid) && e.touches pas) || e.toRemote pas
/-- The stores ahead of an access perform. -/
def drainOwn (s : State) (gi : Nat) (f : Frag) (pas : List (Nat × Nat)) : State := drainHit s fun e => e.ahead gi f pas
/-- Must an access wait for a tile transfer of the part: one that has yet to move to or from a remote line of it, or of a store ahead of it (R412)? -/
def xferAhead (s : State) (gi : Nat) (f : Frag) (pas : List (Nat × Nat)) : Bool :=
  s.groups.any (fun g => g.xfers.any fun x => x.toRemote (pas.map (·.1))) || (dueBefore s fun e => e.ahead gi f pas).any (·.behindXfer s)

/-- Accesses of the fragment that fences and releases wait for: stores not performed, tile transfers not moved (R245). -/
def owesAccess (s : State) (i : Iss) : Bool := !(s.unperfOf i.gi i.f).isEmpty || !(i.g.xfersOf i.f).isEmpty
/-- A strong store that has not performed holds the fragment's later strong accesses (R237). -/
def owesStrong (s : State) (i : Iss) : Bool := (s.unperfOf i.gi i.f).any fun e => e.cls == .strong

/-! ### Forms and checks (R211 to R216) -/

/-- A form of memory access: space, bytes, direction, sub-byte elements (0 none, 1 four bits, 2 two bits), cache policy and L2 class
(Table 10-5), permission. -/
structure MemForm where
  space : Space := .glob
  size : Nat
  write : Bool := false
  sub : Nat := 0
  pol : Nat := 0
  lcls : Nat := 0
  kind : AccKind := .read

/-- The byte address behind an address: an element address counts elements (R212). -/
def MemForm.byteOf (m : MemForm) (ea : Int) : Int := if m.sub = 0 then ea else ea / 2 ^ m.sub
def log2Size (n : Nat) : Nat := Nat.log2 n
/-- TRAPINFO of R216. -/
def MemForm.info (m : MemForm) : Word :=
  BitVec.ofNat 32 ((if m.sub = 0 then log2Size m.size else 15) * 16 + (if m.space = .scratch then 2 else 0) + (if m.write then 1 else 0))

/-- One lane's check: its address as an operand and as a byte address, and a fault code or where it goes (R214). -/
structure LaneChk where
  lane : Nat
  ea : Int
  va : Nat
  res : Except Nat (Nat × Option Xlate)

def LaneChk.code (c : LaneChk) : Nat := match c.res with | .error k => k | .ok _ => 0
def LaneChk.good (c : LaneChk) : Bool := match c.res with | .error _ => false | .ok _ => true
def LaneChk.pa (c : LaneChk) : Nat := match c.res with | .error _ => 0 | .ok p => p.1
def LaneChk.xl (c : LaneChk) : Option Xlate := match c.res with | .error _ => none | .ok p => p.2

/-- The checks of one lane in the order of R214, races apart. -/
def checkLane (s : State) (i : Iss) (m : MemForm) (lane : Nat) (ea : Int) : LaneChk :=
  let b := m.byteOf ea
  let res : Except Nat (Nat × Option Xlate) :=
    if m.sub = 0 ∧ ea % m.size ≠ 0 then .error 0x05
    else
      match m.space with
      | .scratch => if 0 ≤ b ∧ b + m.size ≤ (s.blockOf i.g).spSize then .ok (b.toNat, none) else .error 0x06
      | .glob =>
        match access s i.g.core (s.pasidOf i.g) b.toNat m.kind with
        | .error e => .error e.1
        | .ok (pa, x) => .ok (pa, some x)
  ⟨lane, ea, b.toNat, res⟩

def badLanes (cs : List LaneChk) : Mask := cs.foldl (fun m c => if c.good then m else m ||| BitVec.twoPow 16 c.lane) 0
/-- TRAPADDR of a lane (R216): a global address, or an offset of 32 bits zero-extended. -/
def trapAddr (m : MemForm) (ea : Int) : Word64 :=
  match m.space with
  | .glob => BitVec.ofInt 64 ea
  | .scratch => (BitVec.ofInt 32 ea).setWidth 64

/-- Is a lane's location tracked: a tracked page of the context, or tracked scratchpad (R246, R254)? -/
def LaneChk.tracked (s : State) (i : Iss) (c : LaneChk) : Bool :=
  match c.res with
  | .error _ => false
  | .ok (_, some x) => isTracked s (s.pasidOf i.g) x
  | .ok (_, none) => (s.blockOf i.g).spRace

/-- What the detector sees of a checked lane. -/
def LaneChk.acc (c : LaneChk) (len : Nat) (write : Bool) (cls scope : Nat) : RaceAcc := ⟨c.lane, c.va, c.pa, len, write, cls, scope⟩

/-- The races of the tracked lanes (R252, R254). -/
def racesOf (s : State) (i : Iss) (space : Space) (xs : List RaceAcc) : List (RaceAcc × RaceHit) :=
  let p := raceParty s i.g
  xs.filterMap fun x => (match space with
    | .glob => checkAcc s p x
    | .scratch => if i.g.spBlind then none else spCheck ((s.blockOf i.g).spRecord x.pa) p x).map fun h => (x, h)

/-- The updates of R252 and R254. -/
def recordAll (s : State) (i : Iss) (space : Space) (xs : List RaceAcc) : State :=
  let p := raceParty s i.g
  match space with
  | .glob => recordAccs s p xs
  | .scratch => xs.foldl (fun s x => s.modB i.g.block fun b => b.putSpRec x.pa (spUpdate (b.spRecord x.pa) p x)) s

/-- A memory instruction on a tracked location waits for its race checks, and its group issues nothing past it (R214, R255). -/
def gated (s : State) (i : Iss) (tracked : Bool) (k : State → State) : State :=
  if !tracked || i.g.race = .off then k s
  else
    match i.g.check with
    | some c => if c.fid = i.f.fid ∧ c.passed then k (s.modG i.gi fun g => { g with check := none }) else s.wait i .checks
    | none => (s.modG i.gi fun g => { g with check := some { fid := i.f.fid, seq := s.seq + 1 } }).wait i .checks

/-- The races of an instruction dealt with: in trap mode it stops with no effect, in report mode a record is written and it goes on
(R255, R256); then its records are updated. -/
def withRaces (s : State) (i : Iss) (space : Space) (xs : List RaceAcc) (k : State → State) : State :=
  if i.g.race = .off then k s
  else
    let hits := racesOf s i space xs
    let lanes := hits.foldl (fun m h => m ||| BitVec.twoPow 16 h.1.lane) (0 : Mask)
    match hits with
    | [] => k (recordAll s i space xs)
    | (x, h) :: _ =>
      let (s, lost) := raceRecord s (raceParty s i.g) x h i.f.pc lanes (s.launchOf i.g).lid (i.g.race == .trap) false
      if i.g.race = .trap then
        faultAt s i 0x07 i.lanes (raceInfo h false lost) (BitVec.ofNat 64 (x.va / 64 * 64 + lowBit h.bytes))
      else k (recordAll s i space xs)

/-- The fault of the lowest failed lane, everything or nothing (R243, R266, R278). -/
def faultWhole (s : State) (i : Iss) (m : MemForm) (cs : List LaneChk) : State :=
  match cs.find? fun c => !c.good with
  | some c => faultAt s i c.code i.lanes m.info (trapAddr m c.ea)
  | none => s

/-- Partial completion (R215): the lanes that passed have their effect, the failed ones stand in TRAPMASK. A skid instruction that
faults has no effect at all (R348). -/
def faultPartial (s : State) (i : Iss) (m : MemForm) (cs : List LaneChk) (effect : State → State) : State :=
  match cs.find? fun c => !c.good with
  | none => s
  | some c =>
    if inSkid s i then faultAt s i c.code i.lanes m.info (trapAddr m c.ea)
    else faultAt (effect s) i c.code (badLanes cs) m.info (trapAddr m c.ea)

/-- An instruction counted on a path enters the list of outstanding ones (R51). -/
def State.owe (s : State) (i : Iss) (p : Path) (ws : List RegWrite) (poison : List Poison := []) (act : OutAct := .none)
    (preds : List (Nat × Nat × Bool) := []) : State :=
  s.modG i.gi fun g => { g with outst := g.outst ++ [{ path := p, seq := s.seq + 1, fid := i.f.fid, writes := ws, preds := preds, poison := poison, act := act }] }

/-- An issue that would raise a path counter above 63 waits (R51). -/
def pathFull (i : Iss) (p : Path) : Bool := decide (63 ≤ i.g.count p)

/-- The register writes of n words in one lane. -/
def laneWrites (i : Iss) (fld lane n v : Nat) : List RegWrite :=
  (List.range n).map fun k => ⟨i.phys (fld + k), lane, BitVec.ofNat 32 (v / 2 ^ (32 * k))⟩
def twoPowMask (l : Nat) : Mask := BitVec.twoPow 16 l

/-- The pages of the good lanes enter the core's TLB (R420). -/
def touch (s : State) (i : Iss) (cs : List LaneChk) : State :=
  fillTlb s i.g.core (s.pasidOf i.g) (cs.filterMap fun c => if c.xl.isSome then some c.va else none)

/-- An acquire of `.blk` or wider scope by a fragment retires its core's L1 fills (R208); one of `.grp` scope retires those that an acquire of a sibling
has retired, which may have come before it (R238). -/
def retireFills (s : State) (gi fi : Nat) (scope : BitVec 2) : State :=
  if scope = 0 then
    s.modF gi fi fun f => { f with acquired := if f.acquired ≤ (s.group gi).acquired then (s.group gi).acquired else f.acquired }
  else (s.modG gi fun g => { g with acquired := s.fillNo }).modF gi fi fun f => { f with acquired := s.fillNo }
/-- An acquire by a fragment: L1 fills retire, and what its atomics captured before it is no longer kept (R208, R245; log entry 61). -/
def acquireFills (s : State) (gi fi : Nat) (scope : BitVec 2) : State :=
  (retireFills s gi fi scope).modF gi fi fun f => { f with caps := [] }

/-- Tick() of the issuing group (Table 0-1). -/
def tickG (s : State) (gi : Nat) : State := s.modG gi Group.tick
def mergeG (s : State) (gi : Nat) (v : KVec) : State := s.modG gi fun g => g.learn v

/-- A release by the issuing fragment: K and clock are captured, then Tick() (Table 11-4). An ordered release also replaces the vector
that a release fence has the fragment carry (R245). -/
def releaseAt (s : State) (i : Iss) (scope : BitVec 2) : State × (KVec × BitVec 24 × BitVec 2) :=
  let g := s.group i.gi
  let s := s.modF i.gi i.fi fun f => { f with relVec := f.relVec.map fun r => (g.know, g.clk, r.2.2) }
  (tickG s i.gi, (g.know, g.clk, scope))

/-- A store record for the fragment, with what it carries as a release. -/
def mkStore (s : State) (i : Iss) (acc : List LaneAcc) (cls : Cls) (scope : BitVec 2) (ordered : Bool)
    (rel : Option (KVec × BitVec 24 × BitVec 2)) : Store :=
  { gi := i.gi, fid := i.f.fid, seq := s.seq + 1, before := i.f.before, ordered := ordered, acc := acc, cls := cls, scope := scope, core := i.g.core,
    pasid := s.pasidOf i.g, know := i.g.know, id := i.g.id, btag := (s.blockOf i.g).btag, pc := i.f.pc, clk := i.g.clk, rel := rel }

end Sys2Proof.Machine
end

