-- ==== Sys2Proof/Machine/Operands.lean ====
section
/-! DEFINITION. Sys2Proof/Machine/Operands.lean: the operand forms of the register instructions: which register fields are read and
written, and the lane-wise shapes the families share (R38 to R41, R126, R127). -/

namespace Sys2Proof.Machine

open Sys2Proof

/-- The two registers of a pair and the four of a quad, as fields. -/
def pairOf (p : BitVec 6) : List Nat := [(pairFld p).toNat, (pairFld p).toNat + 1]
def quadOf (q : BitVec 5) : List Nat := let b := (quadFld q).toNat; [b, b + 1, b + 2, b + 3]
/-- n registers from a field on. -/
def runOf (f : Nat) (n : Nat) : List Nat := (List.range n).map (f + ·)

/-- One register result per active lane, from sources read before the write (R126). -/
def laneOp (s : State) (g : Bool) (reads : List Nat) (d : Fld) (f : Iss → Nat → Word) (size : Nat := 4) : Res :=
  withOperands s g reads [d.toNat] [] fun i => (s.putReg i d.toNat (f i)).advance i size

/-- d := f a. -/
def laneOp1 (s : State) (g : Bool) (d a : Fld) (f : Word → Word) : Res :=
  laneOp s g [a.toNat] d fun i l => f (i.reg a.toNat l)
/-- d := f a b, both registers. -/
def laneOp2 (s : State) (g : Bool) (d a b : Fld) (f : Word → Word → Word) : Res :=
  laneOp s g [a.toNat, b.toNat] d fun i l => f (i.reg a.toNat l) (i.reg b.toNat l)
/-- d := f a c, with a constant. -/
def laneOpI (s : State) (g : Bool) (d a : Fld) (c : Word) (f : Word → Word → Word) : Res :=
  laneOp s g [a.toNat] d fun i l => f (i.reg a.toNat l) c
/-- d := f a b d, the destination an input. -/
def laneOp3 (s : State) (g : Bool) (d a b : Fld) (f : Word → Word → Word → Word) : Res :=
  laneOp s g [a.toNat, b.toNat, d.toNat] d fun i l => f (i.reg a.toNat l) (i.reg b.toNat l) (i.reg d.toNat l)
/-- d := f a c d, with a constant. -/
def laneOp3I (s : State) (g : Bool) (d a : Fld) (c : Word) (f : Word → Word → Word → Word) : Res :=
  laneOp s g [a.toNat, d.toNat] d fun i l => f (i.reg a.toNat l) c (i.reg d.toNat l)

/-- A pair result per active lane. -/
def lanePair (s : State) (g : Bool) (reads : List Nat) (d : BitVec 6) (f : Iss → Nat → Word64) : Res :=
  withOperands s g reads (pairOf d) [] fun i => (s.putPair i (pairFld d).toNat (f i)).advance i

/-- d := f a b, all pairs. -/
def lanePair2 (s : State) (g : Bool) (d a b : BitVec 6) (f : Word64 → Word64 → Word64) : Res :=
  lanePair s g (pairOf a ++ pairOf b) d fun i l => f (i.pair (pairFld a).toNat l) (i.pair (pairFld b).toNat l)

/-- d := f a c with a 32-bit constant of format X. -/
def laneOpX (s : State) (g : Bool) (d a : Fld) (c : Word) (f : Word → Word → Word) : Res :=
  laneOp s g [a.toNat] d (fun i l => f (i.reg a.toNat l) c) 8

/-- A predicate result per active lane (R126, R137). -/
def lanePred (s : State) (g : Bool) (reads preds : List Nat) (d : BitVec 3) (f : Iss → Nat → Bool) : Res :=
  withOperands s g reads [] preds (dests := [d.toNat]) fun i => (s.putPred i d.toNat (f i)).advance i

end Sys2Proof.Machine
end

