-- ==== Sys2Proof/Machine/Memory.lean ====
section
/-! DEFINITION. Sys2Proof/Machine/Memory.lean: loads, stores, ordered accesses and fences, cache control, waits, race instructions (majors
0x1E to 0x26, chapters 10 and 11). -/

namespace Sys2Proof.Machine

open Sys2Proof

/-! ### One memory instruction (R211 to R216, R243, R255) -/

/-- A tile transfer before this access in program order touches its bytes and has not moved: the access waits for it (R208). -/
def xferClash (i : Iss) (space : Space) (write : Bool) (cs : List LaneChk) (len : Nat) : Bool :=
  (i.g.xfersOf i.f).any fun x => x.space == space && (write || x.store)
    && x.chunks.any fun c => cs.any fun k => k.good && decide (c.2 < (if space = .glob then k.pa else k.va) + len)
      && decide ((if space = .glob then k.pa else k.va) < c.2 + 16)

/-- The physical bytes of the good lanes. -/
def goodBytes (cs : List LaneChk) (len : Nat) : List (Nat × Nat) := (cs.filter (·.good)).map fun c => (c.pa, len)

/-- A memory instruction whose lanes have been checked: it waits for race checks on tracked locations, stops with no effect for a race
in trap mode, completes in part for other failures (R215), or, when it acts as a whole, not at all (R243). -/
def memAccess (s : State) (i : Iss) (m : MemForm) (cs : List LaneChk) (cls scope : Nat) (whole : Bool) (size : Nat)
    (effect : State → State) : State :=
  let tr := cs.filter fun c => c.tracked s i
  let bad := badLanes cs
  if xferClash i m.space m.write cs m.size then s.wait i .drain
  else
    gated s i (!tr.isEmpty) fun s =>
      let s := touch s i cs
      let accs := tr.map fun c => c.acc m.size m.write cls scope
      let hits := if i.g.race = .trap then racesOf s i m.space accs else []
      let first := (hits.head?.map (·.1.lane)).getD 16
      if bad ≠ 0 ∧ whole ∧ lowLane bad < first then faultWhole s i m cs
      else if bad ≠ 0 ∧ inSkid s i ∧ hits.isEmpty then faultWhole s i m cs
      else
        withRaces s i m.space accs fun s =>
          if bad = 0 then (effect s).advance i size m.write else faultPartial s i m cs effect

/-! ### Loads (Table 10-1, R211, R213) -/

/-- Bytes, registers and sign extension of a load code. -/
def ldSize (z : Nat) : Nat :=
  match z with
  | 0 => 1 | 1 => 1 | 2 => 2 | 3 => 2 | 4 => 4 | 5 => 8 | 6 => 16 | _ => 4
def ldCount (z : Nat) : Nat :=
  match z with
  | 5 => 2 | 6 => 4 | _ => 1
def ldExtend (z v : Nat) : Nat :=
  match z with
  | 0 => ((BitVec.ofNat 8 v).signExtend 32).toNat
  | 2 => ((BitVec.ofNat 16 v).signExtend 32).toNat
  | _ => v

/-- The policy and L2 class in force for a lane: an L1-uncached page acts as `.cg`, and a page may ask for `.lf` (R218, Table 19-3). -/
def polOf (pol : Nat) (c : LaneChk) : Nat :=
  match c.xl with
  | some x => if x.cpol = 1 then 1 else pol
  | none => pol
def clsOf (cls : Nat) (c : LaneChk) : Nat :=
  match c.xl with
  | some x => if x.cpol = 2 then 1 else cls
  | none => cls

/-- What a checked lane reads (R217). A global read that the L1 does not serve goes to the home slice and its L2 (R209). -/
def readLane (s : State) (i : Iss) (m : MemForm) (c : LaneChk) : Found :=
  match m.space with
  | .scratch =>
    let b := s.blockOf i.g
    { s := s, bytes := if b.spBadAt c.pa m.size then none else some (b.sp.read c.pa m.size) }
  | .glob =>
    let r := loadBytes s i.g.core i.f.acquired (polOf m.pol c) c.pa m.size
    if r.miss || polOf m.pol c == 1 then { r with s := touchL2 r.s (s.pasidOf i.g) (clsOf m.lcls c) false c.pa } else r

/-- What a load has so far: the state, the words for registers, the poison marks, and whether a lane missed the L1. -/
structure LoadRun where
  s : State
  words : List RegWrite := []
  poison : List Poison := []
  miss : Bool := false

/-- One lane of a load: what it reads goes to the registers of the lanes in `dst`, or marks them poisoned. -/
def loadLane (i : Iss) (m : MemForm) (z d : Nat) (dst : List Nat) (a : LoadRun) (c : LaneChk) : LoadRun :=
  let r := readLane a.s i m c
  match r.bytes with
  | some bs => { a with s := r.s, miss := a.miss || r.miss, words := a.words ++ dst.flatMap fun l => laneWrites i d l (ldCount z) (ldExtend z (leNat bs)) }
  | none =>
    let marks := (List.range (ldCount z)).map fun k =>
      (⟨i.phys (d + k), dst.foldl (fun m l => m ||| twoPowMask l) 0, (trapAddr { space := m.space, size := 1 } c.ea).toNat, 2⟩ : Poison)
    { a with s := r.s, miss := a.miss || r.miss, poison := a.poison ++ marks }

/-- The lanes of a load one after another; the instruction is then outstanding on its path until it returns (R51). One that missed the L1 in a lane counts
as one that missed it (R382). -/
def loadAll (s : State) (i : Iss) (m : MemForm) (z d : Nat) (cs : List LaneChk) (dst : LaneChk → List Nat) : State :=
  let r := (cs.filter (·.good)).foldl (fun a c => loadLane i m z d (dst c) a c) { s := s }
  let s := if r.miss then r.s.modG i.gi fun g => { g with misses := g.misses + 1 } else r.s
  s.owe i (if m.space = .glob then .gm else .sp) r.words r.poison

/-- A load (R211, R213): one access per lane, or, in the broadcast form, one in all from the operands of the lowest lane. -/
def loadOp (s : State) (g : Bool) (space : Space) (z pol lcls size d : Nat) (areg : List Nat) (ea : Iss → Nat → Int) : Res :=
  let one := z = 7
  withOperandsOn s g areg (runOf d (ldCount z)) [] (fun i => if one && i.lanes != 0 then twoPowMask i.lo else i.lanes) (·.lanes) fun i => once s i size <|
    let path : Path := if space = .glob then .gm else .sp
    let m : MemForm := { space := space, size := ldSize z, pol := pol, lcls := lcls }
    if pathFull i path then s.wait i (.path path 62)
    else
      let cs := (if one then [i.lo] else i.lanes.lanes).map fun l => checkLane s i m l (ea i l)
      if space = .glob ∧ xferAhead s i.gi i.f (goodBytes cs m.size) then s.wait i .drain
      else memAccess s i m cs 0 2 one size fun s =>
        let s := if space = .glob then drainOwn s i.gi i.f (goodBytes cs m.size) else s
        loadAll s i m z d cs fun c => if one then i.lanes.lanes else [c.lane]

/-- A global address of a lane: the pair plus a scaled offset, modulo 2^64. -/
def gEa (a : BitVec 6) (off : Int) (i : Iss) (l : Nat) : Int := (i.pair (pairFld a).toNat l + BitVec.ofInt 64 off).toNat
/-- A scratchpad offset of a lane, exact. -/
def sEa (a : Fld) (off : Int) (i : Iss) (l : Nat) : Int := (i.reg a.toNat l).toNat + off

def ldg (s : State) (g : Bool) (z d : Nat) (a : BitVec 6) (o : Fld) : Res :=
  loadOp s g .glob z 0 0 4 d (pairOf a) (gEa a (o.toInt * ldSize z))
def lds (s : State) (g : Bool) (z d : Nat) (a o : Fld) : Res :=
  loadOp s g .scratch z 0 0 4 d [a.toNat] (sEa a (o.toInt * ldSize z))

/-- `ld.i8`. -/
def execLdI8 (g : Bool) (d : Fld) (a : BitVec 6) (o : Fld) (s : State) : Res := ldg s g 0 d.toNat a o
/-- `ld.z8`. -/
def execLdZ8 (g : Bool) (d : Fld) (a : BitVec 6) (o : Fld) (s : State) : Res := ldg s g 1 d.toNat a o
/-- `ld.i16`. -/
def execLdI16 (g : Bool) (d : Fld) (a : BitVec 6) (o : Fld) (s : State) : Res := ldg s g 2 d.toNat a o
/-- `ld.z16`. -/
def execLdZ16 (g : Bool) (d : Fld) (a : BitVec 6) (o : Fld) (s : State) : Res := ldg s g 3 d.toNat a o
/-- `ld.32`. -/
def execLd32 (g : Bool) (d : Fld) (a : BitVec 6) (o : Fld) (s : State) : Res := ldg s g 4 d.toNat a o
/-- `ld.64`. -/
def execLd64 (g : Bool) (d a : BitVec 6) (o : Fld) (s : State) : Res := ldg s g 5 (pairFld d).toNat a o
/-- `ld.128`. -/
def execLd128 (g : Bool) (d : BitVec 5) (a : BitVec 6) (o : Fld) (s : State) : Res := ldg s g 6 (quadFld d).toNat a o
/-- `ld.b` (R213). -/
def execLdB (g : Bool) (d : Fld) (a : BitVec 6) (o : Fld) (s : State) : Res := ldg s g 7 d.toNat a o
/-- `lds.i8`. -/
def execLdsI8 (g : Bool) (d a o : Fld) (s : State) : Res := lds s g 0 d.toNat a o
/-- `lds.z8`. -/
def execLdsZ8 (g : Bool) (d a o : Fld) (s : State) : Res := lds s g 1 d.toNat a o
/-- `lds.i16`. -/
def execLdsI16 (g : Bool) (d a o : Fld) (s : State) : Res := lds s g 2 d.toNat a o
/-- `lds.z16`. -/
def execLdsZ16 (g : Bool) (d a o : Fld) (s : State) : Res := lds s g 3 d.toNat a o
/-- `lds.32`. -/
def execLds32 (g : Bool) (d a o : Fld) (s : State) : Res := lds s g 4 d.toNat a o
/-- `lds.64`. -/
def execLds64 (g : Bool) (d : BitVec 6) (a o : Fld) (s : State) : Res := lds s g 5 (pairFld d).toNat a o
/-- `lds.128`. -/
def execLds128 (g : Bool) (d : BitVec 5) (a o : Fld) (s : State) : Res := lds s g 6 (quadFld d).toNat a o
/-- `lds.b` (R213). -/
def execLdsB (g : Bool) (d a o : Fld) (s : State) : Res := lds s g 7 d.toNat a o

/-! ### Stores (R211, R212) -/

/-- Bytes, registers and sub-byte kind of a store code; `unit` is what its offset counts in. -/
def stSize (z : Nat) : Nat :=
  match z with
  | 0 => 1 | 1 => 2 | 2 => 4 | 3 => 8 | 4 => 16 | _ => 1
def stCount (z : Nat) : Nat :=
  match z with
  | 3 => 2 | 4 => 4 | _ => 1
def stSub (z : Nat) : Nat :=
  match z with
  | 5 => 1 | 6 => 2 | _ => 0

/-- The registers of a run as one number in a lane. -/
def Iss.run (i : Iss) (d n l : Nat) : Nat := (List.range n).foldr (fun k v => (i.reg (d + k) l).toNat + 2 ^ 32 * v) 0

def stForm (space : Space) (z pol lcls : Nat) : MemForm :=
  { space := space, size := stSize z, write := true, sub := stSub z, pol := pol, lcls := lcls, kind := if stSub z = 0 then .write else .atomic }

/-- One lane's update of a store, under the policy of its page (R218). -/
def storeAcc (s : State) (i : Iss) (m : MemForm) (z d : Nat) (c : LaneChk) : LaneAcc :=
  { pol := polOf m.pol c, lcls := clsOf m.lcls c, lane := c.lane, va := c.va, pa := c.pa, size := stSize z, op := if stSub z = 2 then .st2 else .st4, plain := stSub z = 0,
    val := BitVec.ofNat 128 (i.run d (stCount z) c.lane), cmp := BitVec.ofInt 128 (c.ea % 2 ^ stSub z), tracked := c.tracked s i }

/-- A store or reduction leaves the core and performs later, on a tracked location too: the check at its line's home has returned, and a read that no
order puts behind it may still find the word as it was (R94, R235, R432). -/
def issueStore (s : State) (e : Store) : State := if e.acc.isEmpty then s else { s with unperf := s.unperf ++ [e] }

/-- One lane's update of a block's scratchpad; a write removes the soft-error marks of its bytes. -/
def Block.spPut (b : Block) (o : Nat) (bs : List Byte) : Block :=
  { b with sp := b.sp.write o bs, spBad := b.spBad.filter fun a => !(decide (o ≤ a) && decide (a < o + bs.length)) }
def spStoreLane (s : State) (i : Iss) (x : LaneAcc) : State :=
  s.modB i.g.block fun b =>
    if x.plain then b.spPut x.pa (leBytes x.size x.val.toNat)
    else if b.spBad.contains x.pa then b
    else b.spPut x.pa (leBytes x.size (atomApply x.op (b.sp.le x.pa x.size) x.val.toNat x.cmp.toNat))

/-- A store (R211, R212). -/
def storeOp (s : State) (g : Bool) (space : Space) (z pol lcls size d : Nat) (areg : List Nat) (ea : Iss → Nat → Int) : Res :=
  withOperands s g (areg ++ runOf d (stCount z)) [] [] fun i => once s i size <|
    let m := stForm space z pol lcls
    if space = .scratch ∧ pathFull i .sp then s.wait i (.path .sp 62)
    else
      let cs := i.lanes.lanes.map fun l => checkLane s i m l (ea i l)
      memAccess s i m cs 0 2 false size fun s =>
        let good := cs.filter (·.good)
        match space with
        | .scratch => ((good.map (storeAcc s i m z d)).foldl (fun s x => spStoreLane s i x) s).owe i .sp []
        | .glob => issueStore s (mkStore s i (good.map (storeAcc s i m z d)) .plain 2 false i.f.relVec)

/-- What an offset of the M format counts in: the size, or elements. -/
def stUnit (z : Nat) : Int := if stSub z = 0 then stSize z else 1
def stg (s : State) (g : Bool) (z d : Nat) (a : BitVec 6) (o : Fld) : Res :=
  storeOp s g .glob z 0 0 4 d (pairOf a) (gEa a (o.toInt * stUnit z))
def sts (s : State) (g : Bool) (z d : Nat) (a o : Fld) : Res :=
  storeOp s g .scratch z 0 0 4 d [a.toNat] (sEa a (o.toInt * stUnit z))

/-- `st.8`. -/
def execSt8 (g : Bool) (d : Fld) (a : BitVec 6) (o : Fld) (s : State) : Res := stg s g 0 d.toNat a o
/-- `st.16`. -/
def execSt16 (g : Bool) (d : Fld) (a : BitVec 6) (o : Fld) (s : State) : Res := stg s g 1 d.toNat a o
/-- `st.32`. -/
def execSt32 (g : Bool) (d : Fld) (a : BitVec 6) (o : Fld) (s : State) : Res := stg s g 2 d.toNat a o
/-- `st.64`. -/
def execSt64 (g : Bool) (d a : BitVec 6) (o : Fld) (s : State) : Res := stg s g 3 (pairFld d).toNat a o
/-- `st.128`. -/
def execSt128 (g : Bool) (d : BitVec 5) (a : BitVec 6) (o : Fld) (s : State) : Res := stg s g 4 (quadFld d).toNat a o
/-- `st.n4` (R212). -/
def execStN4 (g : Bool) (d : Fld) (a : BitVec 6) (o : Fld) (s : State) : Res := stg s g 5 d.toNat a o
/-- `st.n2` (R212). -/
def execStN2 (g : Bool) (d : Fld) (a : BitVec 6) (o : Fld) (s : State) : Res := stg s g 6 d.toNat a o
/-- `sts.8`. -/
def execSts8 (g : Bool) (d a o : Fld) (s : State) : Res := sts s g 0 d.toNat a o
/-- `sts.16`. -/
def execSts16 (g : Bool) (d a o : Fld) (s : State) : Res := sts s g 1 d.toNat a o
/-- `sts.32`. -/
def execSts32 (g : Bool) (d a o : Fld) (s : State) : Res := sts s g 2 d.toNat a o
/-- `sts.64`. -/
def execSts64 (g : Bool) (d : BitVec 6) (a o : Fld) (s : State) : Res := sts s g 3 (pairFld d).toNat a o
/-- `sts.128`. -/
def execSts128 (g : Bool) (d : BitVec 5) (a o : Fld) (s : State) : Res := sts s g 4 (quadFld d).toNat a o
/-- `sts.n4` (R212). -/
def execStsN4 (g : Bool) (d a o : Fld) (s : State) : Res := sts s g 5 d.toNat a o
/-- `sts.n2` (R212). -/
def execStsN2 (g : Bool) (d a o : Fld) (s : State) : Res := sts s g 6 d.toNat a o

/-! ### MEMX (R218): a byte offset of 24 bits, not scaled, a policy and a class; the class narrows only where data is kept -/

/-- `ldx`. -/
def execLdx (g : Bool) (d : Fld) (a : BitVec 6) (l c : BitVec 2) (z : BitVec 3) (o : BitVec 24) (s : State) : Res :=
  loadOp s g .glob z.toNat c.toNat l.toNat 8 d.toNat (pairOf a) (gEa a o.toInt)
/-- `stx`. -/
def execStx (g : Bool) (d : Fld) (a : BitVec 6) (l c : BitVec 2) (z : BitVec 3) (o : BitVec 24) (s : State) : Res :=
  storeOp s g .glob z.toNat c.toNat l.toNat 8 d.toNat (pairOf a) (gEa a o.toInt)
/-- `ldsx`. -/
def execLdsx (g : Bool) (d a : Fld) (z : BitVec 3) (o : BitVec 24) (s : State) : Res :=
  loadOp s g .scratch z.toNat 0 0 8 d.toNat [a.toNat] (sEa a o.toInt)
/-- `stsx`. -/
def execStsx (g : Bool) (d a : Fld) (z : BitVec 3) (o : BitVec 24) (s : State) : Res :=
  storeOp s g .scratch z.toNat 0 0 8 d.toNat [a.toNat] (sEa a o.toInt)

/-! ### ORD (R242 to R245) -/

/-- What an acquire of the good lanes merges: the live sync records their reads return (R251). -/
def acquireVecs (s : State) (i : Iss) (cs : List LaneChk) (len : Nat) (scope : BitVec 2) : KVec :=
  (cs.filter fun c => c.good && c.tracked s i).foldl
    (fun v c => v.merge (syncAcquire s (s.pasidOf i.g) c.pa len scope i.g.id (s.blockOf i.g).btag)) KVec.zero

/-- `ld.acq`: all or nothing, past the L1, an acquire (R243). -/
def ldAcq (s : State) (g : Bool) (z d : Nat) (a : BitVec 6) (sc : BitVec 2) : Res :=
  withOperands s g (pairOf a) (runOf d (ldCount z)) [] fun i => once s i 4 <|
    let m : MemForm := { size := ldSize z, pol := 1 }
    if pathFull i .gm then s.wait i (.path .gm 62)
    else if owesStrong s i then s.wait i .drain
    else
      let cs := i.lanes.lanes.map fun l => checkLane s i m l (gEa a 0 i l)
      if xferAhead s i.gi i.f (goodBytes cs m.size) then s.wait i .drain
      else memAccess s i m cs 3 sc.toNat true 4 fun s =>
        let s := drainOwn s i.gi i.f (goodBytes cs m.size)
        let v := acquireVecs s i cs m.size sc
        let s := loadAll s i m z d cs fun c => [c.lane]
        acquireFills (mergeG s i.gi v) i.gi i.fi sc

/-- `ld.acq.32`. -/
def execLdAcq32 (g : Bool) (d : Fld) (a : BitVec 6) (sc : BitVec 2) (s : State) : Res := ldAcq s g 4 d.toNat a sc
/-- `ld.acq.64`. -/
def execLdAcq64 (g : Bool) (d a : BitVec 6) (sc : BitVec 2) (s : State) : Res := ldAcq s g 5 (pairFld d).toNat a sc

/-- `st.rel`: all or nothing, a strong release that performs after every earlier access of the fragment (R244); it is issued when the fragment's tile transfers
have moved (R188). -/
def stRel (s : State) (g : Bool) (z d : Nat) (a : BitVec 6) (sc : BitVec 2) : Res :=
  withOperands s g (pairOf a ++ runOf d (stCount z)) [] [] fun i => once s i 4 <|
    let m := stForm .glob z 1 0
    let cs := i.lanes.lanes.map fun l => checkLane s i m l (gEa a 0 i l)
    if !(i.g.xfersOf i.f).isEmpty then s.wait i .drain
    else
      memAccess s i m cs 3 sc.toNat true 4 fun s =>
        let (s, rel) := releaseAt s i sc
        (issueStore s (mkStore s i (cs.map (storeAcc s i m z d)) .strong sc true (some rel))).commit i

/-- `st.rel.32`. -/
def execStRel32 (g : Bool) (d : Fld) (a : BitVec 6) (sc : BitVec 2) (s : State) : Res := stRel s g 2 d.toNat a sc
/-- `st.rel.64`. -/
def execStRel64 (g : Bool) (d a : BitVec 6) (sc : BitVec 2) (s : State) : Res := stRel s g 3 (pairFld d).toNat a sc

/-- The acquire side of a fence: the records that earlier atomics captured are merged where the scopes qualify, lost synchronisation at any scope, and L1
fills retire (R245, R249, R251). -/
def fenceAcquire (s : State) (i : Iss) (sc : BitVec 2) : State :=
  let tag := (s.blockOf i.g).btag
  let v := i.f.caps.foldl (fun v c =>
    if c.lost || scopeMatch (if sc.toNat ≤ c.scope.toNat then sc.toNat else c.scope.toNat) c.rid.toNat c.btag.toNat i.g.id tag then v.merge c.vec else v) KVec.zero
  acquireFills (mergeG s i.gi v) i.gi i.fi sc

/-- The release side: K and clock are captured for later writes of the fragment, then Tick() (R245). -/
def fenceRelease (s : State) (i : Iss) (sc : BitVec 2) : State :=
  let g := s.group i.gi
  tickG ((s.modF i.gi i.fi fun f => { f with relVec := some (g.know, g.clk, sc) }).commit i) i.gi

/-- A fence (R245). -/
def fenceOp (s : State) (g : Bool) (sc : BitVec 2) (acq rel : Bool) : Res :=
  withOperands s g [] [] [] fun i => once s i 4 <|
    if rel && owesAccess s i then s.wait i .drain
    else if (i.g.xfersOf i.f).any (fun x => !x.store) then s.wait i .drain
    else
      let s := if acq then fenceAcquire s i sc else s
      let s := if rel then fenceRelease s i sc else s
      s.advance i 4 rel

/-- `fence.acq`. -/
def execFenceAcq (g : Bool) (sc : BitVec 2) (s : State) : Res := fenceOp s g sc true false
/-- `fence.rel`. -/
def execFenceRel (g : Bool) (sc : BitVec 2) (s : State) : Res := fenceOp s g sc false true
/-- `fence.ar`. -/
def execFenceAr (g : Bool) (sc : BitVec 2) (s : State) : Res := fenceOp s g sc true true
/-- `fence.sc`: strong, as every earlier access has performed when it completes and no later one has (R237). -/
def execFenceSc (g : Bool) (sc : BitVec 2) (s : State) : Res := fenceOp s g sc true true

/-! ### CACHE (R219 to R222) -/

/-- The lines, by physical number, of the lanes whose addresses translate, with permission and policy. -/
def lanePages (s : State) (i : Iss) (a : BitVec 6) (off : Int) : List (Nat × Xlate) :=
  i.lanes.lanes.filterMap fun l =>
    let va := (gEa a off i l).toNat
    if 2 ^ 52 ≤ va then none
    else
      match xlate s i.g.core (s.pasidOf i.g) va with
      | .ok x => some ((x.page + va % 4096) / 64, x)
      | .page _ => none

/-- A prefetch: the readable lines come into L2 as of a load under `.ln`, and under `l1` into the L1 as of one under `.ca`; never a fault (R219). -/
def prefetch (s : State) (g l1 : Bool) (a : BitVec 6) (o : Fld) : Res :=
  withOperands s g (pairOf a) [] [] fun i =>
    ((lanePages s i a (64 * o.toInt)).foldl (fun s p =>
      if !p.2.r then s
      else
        let s := touchL2 s (s.pasidOf i.g) (if p.2.cpol = 2 then 1 else 0) false (p.1 * 64)
        if l1 && p.2.cpol != 1 && localPa (p.1 * 64) && !s.badAt (p.1 * 64) 64 then fillL1 s i.g.core p.1 else s) s).advance i
/-- `pf` (R219). -/
def execPf (g : Bool) (a : BitVec 6) (o : Fld) (s : State) : Res := prefetch s g true a o
/-- `pf2` (R219). -/
def execPf2 (g : Bool) (a : BitVec 6) (o : Fld) (s : State) : Res := prefetch s g false a o

/-- The cores that a scope of `icinv` names (R220). -/
def icinvCores (s : State) (i : Iss) (sc : Nat) : List Nat :=
  match sc with
  | 0 => [i.g.core]
  | 1 => (s.blockOf i.g).cores
  | _ => List.range 64

/-- The fragment waits until an entry of path cf has completed (R220, R263). -/
def waitDone (s : State) (i : Iss) (n : Nat) : State := s.modF i.gi i.fi fun f => { f with stall := some (.done n) }

/-- `icinv` (R220). -/
def execIcinv (g : Bool) (a : BitVec 6) (sc : BitVec 2) (s : State) : Res :=
  withOperands s g (pairOf a) [] [] fun i => once s i 4 <|
    if pathFull i .cf then s.wait i (.path .cf 62)
    else
      let lines := i.lanes.lanes.map fun l => (gEa a 0 i l).toNat / 64
      waitDone ((s.owe i .cf [] [] (.icinv (icinvCores s i sc.toNat) lines)).advance i) i (s.seq + 1)

/-- `l1inv` (R221). -/
def execL1inv (g : Bool) (a : BitVec 6) (s : State) : Res :=
  withOperands s g (pairOf a) [] [] fun i =>
    ((lanePages s i a 0).foldl (fun s p => dropL1 s i.g.core (p.1 * 64) 64) s).advance i
/-- `l1inv.all` (R221). -/
def execL1invAll (g : Bool) (s : State) : Res :=
  withOperands s g [] [] [] fun i => once s i 4 <| ({ s with l1 := s.l1.filter fun x => x.core != i.g.core } : State).advance i
/-- `evict`: its lines leave the L1 and are evicted first from their home slices (R221). -/
def execEvict (g : Bool) (a : BitVec 6) (s : State) : Res :=
  withOperands s g (pairOf a) [] [] fun i =>
    ((lanePages s i a 0).foldl (fun s p => evictFirst (dropL1 s i.g.core (p.1 * 64) 64) p.1) s).advance i

/-- The check of rights that comes before the operands (R61, R88): PROT with a detail when it fails. -/
def withRight (s : State) (g : Bool) (ok : Iss → Bool) (detail : Word) (k : Res) : Res :=
  match s.issuing g with
  | none => .fault .noIssuer
  | some i => if ok i then k else .next (faultAt s i 0x04 i.lanes detail)
/-- System mode (R88). -/
def Iss.system (i : Iss) : Bool := i.f.handler == some .system

/-- `l2part` (R222). -/
def execL2part (g : Bool) (d a : Fld) (s : State) : Res :=
  withRight s g Iss.system 5 <|
    withOperands s g [a.toNat] [d.toNat] [] fun i => once s i 4 <|
      let v := i.reg a.toNat i.lo
      let p := s.pasidOf i.g
      if 2 ^ 16 ≤ v.toNat then faultAt s i 0x04 i.lanes 2
      else if v.truncate 16 &&& pinnedElse s p != 0 then faultAt s i 0x04 i.lanes 1
      else ((s.modC p fun c => { c with ways := v.truncate 16 }).putReg i d.toNat fun _ => ((s.ctx p).ways).setWidth 32).advance i

/-! ### WAIT (R223 to R229) -/

def pathOf (p : Nat) : Path :=
  match p with
  | 0 => .gm | 1 => .sp | 2 => .at | _ => .cf

/-- `wpath` (R224): an acquire at `.grp` only. -/
def execWpath (g : Bool) (a : Fld) (p : BitVec 2) (s : State) : Res :=
  withOperands s g [a.toNat] [] [] fun i => once s i 4 <|
    let t := if (i.reg a.toNat i.lo).toNat < 63 then (i.reg a.toNat i.lo).toNat else 63
    if i.g.count (pathOf p.toNat) ≤ t then (acquireFills s i.gi i.fi 0).advance i else s.wait i (.path (pathOf p.toNat) t)

/-- `wbatch` (R225): an acquire of the engine's release (R197, R240). -/
def execWbatch (g : Bool) (a : Fld) (s : State) : Res :=
  withOperands s g [a.toNat] [] [] fun i => once s i 4 <|
    let b : BitVec 4 := (i.reg a.toNat i.lo).truncate 4
    if i.g.closed.contains b then s.wait i (.batch b.toNat)
    else
      match i.g.batchErr.find? fun e => e.1 == b with
      | some e => faultAt (s.modG i.gi fun g => { g with batchErr := g.batchErr.filter fun x => x.1 != b }) i 0x10 i.lanes (BitVec.ofNat 32 (e.2 * 256 + 4))
      | none => (acquireFills s i.gi i.fi 2).advance i

def Group.fut (g : Group) (k : Nat) : Future := g.futures[k]?.getD {}
/-- The lowest future of a mask that has left PENDING. -/
def lowestDone (g : Group) (m : Word) : Option Nat :=
  (List.range 32).find? fun k => m.getLsbD k && ((g.fut k).st == .ready || (g.fut k).st == .void)

/-- A future that another fragment's earlier wait takes as soon as it leaves PENDING (R226). -/
def claimed (i : Iss) (k : Nat) : Bool :=
  let mine := match i.f.stall with | some (.future _ n) => some n | some (.any _ n) => some n | _ => none
  i.g.frags.any fun f => f.fid != i.f.fid && (match f.stall with
    | some (.future j n) => j == k && (match mine with | some x => decide (n < x) | none => true)
    | some (.any m n) => lowestDone i.g m == some k && (match mine with | some x => decide (n < x) | none => true)
    | _ => false)

/-- The state of a future as the issuing fragment finds it: FREE when a sibling's wait has the first claim. -/
def futSeen (i : Iss) (k : Nat) : FutState :=
  let f := i.g.fut k
  if f.st != .pending && claimed i k then .free else f.st

/-- A future is consumed: it becomes FREE, and the wait acquires what released it (R226, R249). -/
def consume (s : State) (i : Iss) (k : Nat) : State :=
  let f := i.g.fut k
  let s := s.modG i.gi fun g => { g with futures := setAt g.futures k {}, know := f.vecs.foldl KVec.merge g.know }
  if f.st == .ready then acquireFills s i.gi i.fi 2 else s

/-- An engine's error delivered at a wait; it stands in the wait's own lanes unless the error names lanes (R302, R332). -/
def faultErr (s : State) (i : Iss) (e : Deferred) : State :=
  faultAt s i e.code (if e.lanes = 0 then i.lanes else e.lanes) e.info (BitVec.ofNat 64 e.addr)

/-- The first wait that would consume a future delivers the error its command left, once, and has no other effect (R332, R257). -/
def deliver (s : State) (i : Iss) (k : Nat) (ok : State) : State :=
  match (i.g.fut k).err with
  | some e => faultErr (s.modG i.gi fun g => { g with futures := modAt g.futures k fun f => { f with err := none } }) i e
  | none => ok

/-- A wait on futures begins, in its place among the waits, or goes on. -/
def waitFut (s : State) (i : Iss) (mk : Nat → Stall) : State :=
  match i.f.stall with
  | some (.future _ _) => s
  | some (.any _ _) => s
  | _ => ({ s with seq := s.seq + 1 } : State).wait i (mk (s.seq + 1))

def voidBit (i : Iss) (k : Nat) : Nat := if (i.g.fut k).st == .void then 1 else 0

/-- `wfut` (R226, R229). -/
def execWfut (g : Bool) (d : Fld) (k : BitVec 5) (s : State) : Res :=
  withOperands s g [] [d.toNat] [] fun i => once s i 4 <|
    match futSeen i k.toNat with
    | .free => faultAt s i 0x0F i.lanes 0
    | .pending => waitFut s i (.future k.toNat)
    | _ => deliver s i k.toNat (((consume s i k.toNat).putReg i d.toNat fun _ => BitVec.ofNat 32 (voidBit i k.toNat)).advance i)

/-- `wany` (R227, R229). -/
def execWany (g : Bool) (d a : Fld) (s : State) : Res :=
  withOperands s g [a.toNat] [d.toNat] [] fun i => once s i 4 <|
    let m := i.reg a.toNat i.lo
    if m = 0 then faultAt s i 0x0F i.lanes 1
    else if (List.range 32).any fun k => m.getLsbD k && futSeen i k == .free then faultAt s i 0x0F i.lanes 0
    else
      match lowestDone i.g m with
      | none => waitFut s i (.any m)
      | some k => deliver s i k (((consume s i k).putReg i d.toNat fun _ => BitVec.ofNat 32 (k + 256 * voidBit i k)).advance i)

/-- `fpoll` (R226, R229). -/
def execFpoll (g : Bool) (d : Fld) (k : BitVec 5) (s : State) : Res :=
  withOperands s g [] [d.toNat] [] fun i => once s i 4 <|
    match futSeen i k.toNat with
    | .free => faultAt s i 0x0F i.lanes 0
    | .pending => (s.putReg i d.toNat fun _ => 2).advance i
    | _ => deliver s i k.toNat (((consume s i k.toNat).putReg i d.toNat fun _ => BitVec.ofNat 32 (voidBit i k.toNat)).advance i)

/-- The return of a `wtree`: an acquire at `.dev` of everything the subtree's groups retired with, and the status (R228). -/
def treeReturn (s : State) (i : Iss) (d : Fld) (cancelled : Bool) (know : KVec) : State :=
  ((acquireFills (mergeG s i.gi know) i.gi i.fi 2).putReg i d.toNat fun _ => if cancelled then 1 else 0).advance i

/-- `wtree` (R228, R229): the end wakes every waiter with its status, also when it releases the object at once (R308). -/
def execWtree (g : Bool) (d a : Fld) (s : State) : Res :=
  withOperands s g [a.toNat] [d.toNat] [] fun i => once s i 4 <|
    let h := i.reg a.toNat i.lo
    let t := s.tree (hIndex h)
    match i.f.stall with
    | some (.treeEnd c k) => treeReturn s i d c k
    | _ =>
      if !s.treeNamed (s.pasidOf i.g) h then faultAt s i 0x0F i.lanes 2
      else if !t.ended then s.wait i (.tree h)
      else treeReturn s i d (t.st == .cancelled) t.know

/-! ### RACE (R258 to R263) -/

/-- `rclk` (R259). -/
def execRclk (g : Bool) (d : Fld) (s : State) : Res :=
  withOperands s g [] [d.toNat] [] fun i => (s.putReg i d.toNat fun l => BitVec.ofNat 32 (i.g.know.get l)).advance i
/-- `rtick` (R260). -/
def execRtick (g : Bool) (s : State) : Res :=
  withOperands s g [] [] [] fun i => once s i 4 <| (tickG s i.gi).advance i

def raceModeOf (m : Nat) : RaceMode :=
  match m with
  | 0 => .off | 1 => .trap | _ => .report

/-- `rmode` (R261). -/
def execRmode (g : Bool) (m : BitVec 2) (s : State) : Res :=
  withRight s g (fun i => i.system || (s.ctxOf i.g).raceGrant.getLsbD m.toNat) 6 <|
    withOperands s g [] [] [] fun i => once s i 4 <| (s.modG i.gi fun g => { g with race := raceModeOf m.toNat }).advance i

/-- `rnext` (R262): the record is delivered when the entry on path cf completes. -/
def execRnext (g : Bool) (d : Fld) (s : State) : Res :=
  withOperands s g [] [d.toNat] [] fun i => once s i 4 <|
    if pathFull i .cf then s.wait i (.path .cf 62)
    else (s.owe i .cf [] [] (.rnext (i.phys d.toNat) i.lanes)).advance i

/-- `rclr` (R263): it performs after every earlier access; later ones wait for its completion. -/
def execRclr (g : Bool) (a : BitVec 6) (b : Fld) (s : State) : Res :=
  withOperands s g (pairOf a ++ [b.toNat]) [] [] fun i => once s i 4 <|
    if pathFull i .cf then s.wait i (.path .cf 62)
    else if owesAccess s i then s.wait i .drain
    else
      let rs := i.lanes.lanes.map fun l => ((i.pair (pairFld a).toNat l).toNat, (i.reg b.toNat l).toNat)
      waitDone ((s.owe i .cf [] [] (.rclr rs)).advance i) i (s.seq + 1)

end Sys2Proof.Machine
end

