-- ==== Sys2Proof/Machine/Atomic.lean ====
section
/-! DEFINITION. Sys2Proof/Machine/Atomic.lean: returning atomics, reductions, conflict detection, barriers, waits on memory words (majors
0x27 to 0x2C, chapter 12). -/

namespace Sys2Proof.Machine

open Sys2Proof

/-! ### Returning atomics (R264 to R270) -/

/-- Does an uncorrectable error stand in the line that a lane's word lies in (R266)? DESIGN CHOICE, log entry 62: R266 speaks of the line at the home slice;
the model raises ECC in the same way for a scratchpad atomic on 64 aligned bytes that hold an error. Unsafe. -/
def lineBad (s : State) (i : Iss) (space : Space) (c : LaneChk) : Bool :=
  match space with
  | .glob => s.badAt (c.pa / 64 * 64) 64
  | .scratch => (s.blockOf i.g).spBad.any fun a => a / 64 == c.pa / 64

/-- A record of the order in which an object serialised the group's operation (Table 17-5). -/
def logOrder (s : State) (i : Iss) (object : Nat) : State :=
  s.replayLog (s.pasidOf i.g) 6 i.g.id (leBytes 8 object ++ leBytes 4 i.g.id.toNat ++ leBytes 4 (s.group i.gi).clk.toNat)

/-- One lane's update: the old value, and memory or scratchpad with the new one. -/
def atomLane (s : State) (i : Iss) (space : Space) (e : Store) (x : LaneAcc) : State × Nat :=
  match space with
  | .glob =>
    let old := s.mem.le x.pa x.size
    let s := performLane s e x
    (if x.tracked then logOrder s i x.pa else s, old)
  | .scratch => (spStoreLane s i x, (s.blockOf i.g).sp.le x.pa x.size)

/-- The lanes in ascending order, each reading what the one before left (R268); their old values reach D over path `at` (R267). -/
def atomAll (s : State) (i : Iss) (space : Space) (d n : Nat) (e : Store) : State :=
  let r := e.acc.foldl (fun (a : State × List RegWrite) x =>
    let y := atomLane a.1 i space e x
    (y.1, a.2 ++ laneWrites i d x.lane n y.2)) (s, [])
  r.1.owe i .at r.2

/-- The sync records that an atomic's lanes capture for a later acquire fence (R251). -/
def captureAll (s : State) (i : Iss) (cs : List LaneChk) (len : Nat) : State :=
  let caps := (cs.filter fun c => c.good && c.tracked s i).filterMap fun c => syncCapture s (s.pasidOf i.g) c.pa len
  s.modF i.gi i.fi fun f => { f with caps := f.caps ++ caps }

/-- What a write of the fragment carries as a release: its own capture, or what a release fence left to carry (R245). -/
def carries (s : State) (i : Iss) (release : Bool) (sc : BitVec 2) : State × Option (KVec × BitVec 24 × BitVec 2) :=
  if release then let r := releaseAt s i sc; (r.1, some r.2) else (s, i.f.relVec)

/-- A returning atomic (R266 to R268). `order`: 0 relaxed, 1 acquire, 2 release, 3 both. -/
def atomOp (s : State) (g : Bool) (areg dreg creg : List Nat) (d c n : Nat) (bytes : Nat) (space : Space) (op : AtomOp) (order sc : BitVec 2)
    (size : Nat) (ea : Iss → Nat → Int) : Res :=
  withOperands s g (areg ++ dreg ++ creg) dreg [] fun i => once s i size <|
    let acq := order = 1 ∨ order = 3
    let rel := order = 2 ∨ order = 3
    let cls : Cls := if order = 0 then .atomic else .strong
    let m : MemForm := { space := space, size := bytes, write := true, pol := 1, kind := .atomic }
    let cs := i.lanes.lanes.map fun l => checkLane s i m l (ea i l)
    if pathFull i .at then s.wait i (.path .at 62)
    else if rel ∧ owesAccess s i then s.wait i .drain
    else if order ≠ 0 ∧ owesStrong s i then s.wait i .drain
    else if space = .glob ∧ xferAhead s i.gi i.f (goodBytes cs bytes) then s.wait i .drain
    else
      match (if badLanes cs = 0 then cs.find? (lineBad s i space) else none) with
      | some k => faultAt s i 0x10 i.lanes 3 (trapAddr m k.ea)
      | none =>
        memAccess s i m cs cls.code sc.toNat true size fun s =>
          let s := if space = .glob then drainOwn s i.gi i.f (goodBytes cs bytes) else s
          let v := if acq ∧ space = .glob then acquireVecs s i cs bytes sc else KVec.zero
          let s := mergeG (if space = .glob then captureAll s i cs bytes else s) i.gi v
          let s := if acq then acquireFills s i.gi i.fi sc else s
          let s := if acq ∧ space = .scratch ∧ (s.blockOf i.g).spRace then s.modG i.gi fun g => { g with spBlind := true } else s
          let (s, carried) := carries s i rel sc
          let acc : List LaneAcc := cs.map fun k =>
            { lane := k.lane, va := k.va, pa := k.pa, size := bytes, op := op, plain := false, val := BitVec.ofNat 128 (i.run d n k.lane),
              cmp := BitVec.ofNat 128 (i.run c n k.lane), tracked := k.tracked s i }
          (atomAll s i space d n (mkStore s i acc cls sc false carried)).commit i

/-- ATOM: a 32-bit word of global memory (R269). -/
def atom32 (s : State) (g : Bool) (op : AtomOp) (d : Fld) (a : BitVec 6) (o sc : BitVec 2) : Res :=
  atomOp s g (pairOf a) [d.toNat] [] d.toNat d.toNat 1 4 .glob op o sc 4 (gEa a 0)

/-- `aadd`. -/
def execAadd (g : Bool) (d : Fld) (a : BitVec 6) (o sc : BitVec 2) (s : State) : Res := atom32 s g .add32 d a o sc
/-- `aadd.f32`. -/
def execAaddF32 (g : Bool) (d : Fld) (a : BitVec 6) (o sc : BitVec 2) (s : State) : Res := atom32 s g .addF32 d a o sc
/-- `aadd.bf16x2`. -/
def execAaddBf16x2 (g : Bool) (d : Fld) (a : BitVec 6) (o sc : BitVec 2) (s : State) : Res := atom32 s g .addBf16x2 d a o sc
/-- `aadd.f16x2`. -/
def execAaddF16x2 (g : Bool) (d : Fld) (a : BitVec 6) (o sc : BitVec 2) (s : State) : Res := atom32 s g .addF16x2 d a o sc
/-- `amin.i`. -/
def execAminI (g : Bool) (d : Fld) (a : BitVec 6) (o sc : BitVec 2) (s : State) : Res := atom32 s g .minI d a o sc
/-- `amax.i`. -/
def execAmaxI (g : Bool) (d : Fld) (a : BitVec 6) (o sc : BitVec 2) (s : State) : Res := atom32 s g .maxI d a o sc
/-- `amin.z`. -/
def execAminZ (g : Bool) (d : Fld) (a : BitVec 6) (o sc : BitVec 2) (s : State) : Res := atom32 s g .minZ d a o sc
/-- `amax.z`. -/
def execAmaxZ (g : Bool) (d : Fld) (a : BitVec 6) (o sc : BitVec 2) (s : State) : Res := atom32 s g .maxZ d a o sc
/-- `aand`. -/
def execAand (g : Bool) (d : Fld) (a : BitVec 6) (o sc : BitVec 2) (s : State) : Res := atom32 s g .and d a o sc
/-- `aor`. -/
def execAor (g : Bool) (d : Fld) (a : BitVec 6) (o sc : BitVec 2) (s : State) : Res := atom32 s g .or d a o sc
/-- `axor`. -/
def execAxor (g : Bool) (d : Fld) (a : BitVec 6) (o sc : BitVec 2) (s : State) : Res := atom32 s g .xor d a o sc
/-- `axch`. -/
def execAxch (g : Bool) (d : Fld) (a : BitVec 6) (o sc : BitVec 2) (s : State) : Res := atom32 s g .xch d a o sc
/-- `ainc`. -/
def execAinc (g : Bool) (d : Fld) (a : BitVec 6) (o sc : BitVec 2) (s : State) : Res := atom32 s g .inc d a o sc
/-- `adec`. -/
def execAdec (g : Bool) (d : Fld) (a : BitVec 6) (o sc : BitVec 2) (s : State) : Res := atom32 s g .dec d a o sc
/-- `amin.f32`. -/
def execAminF32 (g : Bool) (d : Fld) (a : BitVec 6) (o sc : BitVec 2) (s : State) : Res := atom32 s g .minF32 d a o sc
/-- `amax.f32`. -/
def execAmaxF32 (g : Bool) (d : Fld) (a : BitVec 6) (o sc : BitVec 2) (s : State) : Res := atom32 s g .maxF32 d a o sc

/-- ATOMW: n registers of D (and C), in either space (R270). -/
def atomW (s : State) (g : Bool) (op : AtomOp) (d n : Nat) (a : Fld) (o sc : BitVec 2) (sp : BitVec 1) (c : Option Nat := none) : Res :=
  let creg := match c with | some k => runOf k n | none => []
  if sp = 1 then atomOp s g [a.toNat] (runOf d n) creg d (c.getD d) n (4 * n) .scratch op o sc 8 (sEa a 0)
  else atomOp s g [a.toNat, a.toNat + 1] (runOf d n) creg d (c.getD d) n (4 * n) .glob op o sc 8 (gEa (a.extractLsb' 1 6) 0)

/-- `aadd.64`. -/
def execAadd64 (g : Bool) (d : BitVec 6) (a : Fld) (o sc : BitVec 2) (p : BitVec 1) (s : State) : Res := atomW s g .add64 (pairFld d).toNat 2 a o sc p
/-- `amin.i.64`. -/
def execAminI64 (g : Bool) (d : BitVec 6) (a : Fld) (o sc : BitVec 2) (p : BitVec 1) (s : State) : Res := atomW s g .minI64 (pairFld d).toNat 2 a o sc p
/-- `amax.i.64`. -/
def execAmaxI64 (g : Bool) (d : BitVec 6) (a : Fld) (o sc : BitVec 2) (p : BitVec 1) (s : State) : Res := atomW s g .maxI64 (pairFld d).toNat 2 a o sc p
/-- `amin.z.64`. -/
def execAminZ64 (g : Bool) (d : BitVec 6) (a : Fld) (o sc : BitVec 2) (p : BitVec 1) (s : State) : Res := atomW s g .minZ64 (pairFld d).toNat 2 a o sc p
/-- `amax.z.64`. -/
def execAmaxZ64 (g : Bool) (d : BitVec 6) (a : Fld) (o sc : BitVec 2) (p : BitVec 1) (s : State) : Res := atomW s g .maxZ64 (pairFld d).toNat 2 a o sc p
/-- `axch.64`. -/
def execAxch64 (g : Bool) (d : BitVec 6) (a : Fld) (o sc : BitVec 2) (p : BitVec 1) (s : State) : Res := atomW s g .xch64 (pairFld d).toNat 2 a o sc p
/-- `acas`. -/
def execAcas (g : Bool) (d a : Fld) (o sc : BitVec 2) (p : BitVec 1) (c : Fld) (s : State) : Res := atomW s g .cas32 d.toNat 1 a o sc p (some c.toNat)
/-- `acas.64`. -/
def execAcas64 (g : Bool) (d : BitVec 6) (a : Fld) (o sc : BitVec 2) (p : BitVec 1) (c : BitVec 6) (s : State) : Res :=
  atomW s g .cas64 (pairFld d).toNat 2 a o sc p (some (pairFld c).toNat)
/-- `acas.128`. -/
def execAcas128 (g : Bool) (d : BitVec 5) (a : Fld) (o sc : BitVec 2) (p : BitVec 1) (c : BitVec 5) (s : State) : Res :=
  atomW s g .cas128 (quadFld d).toNat 4 a o sc p (some (quadFld c).toNat)
/-- `amaxp`. -/
def execAmaxp (g : Bool) (d : BitVec 5) (a : Fld) (o sc : BitVec 2) (p : BitVec 1) (s : State) : Res := atomW s g .maxp (quadFld d).toNat 4 a o sc p

/-! ### Reductions (R271 to R273) -/

/-- The updates of one lane: one, or the two halves of a packed pair, each on its own (R272). `half`: 0 whole, 1 low, 2 high. -/
def redAcc (s : State) (i : Iss) (op : AtomOp) (d n half : Nat) (c : LaneChk) : LaneAcc :=
  let v := i.run d n c.lane
  match half with
  | 0 => { lane := c.lane, va := c.va, pa := c.pa, size := 4 * n, op := op, plain := false, val := BitVec.ofNat 128 v, tracked := c.tracked s i }
  | 1 => { lane := c.lane, va := c.va, pa := c.pa, size := 2, op := op, plain := false, val := BitVec.ofNat 128 (v % 65536), tracked := c.tracked s i }
  | _ => { lane := c.lane, va := c.va + 2, pa := c.pa + 2, size := 2, op := op, plain := false, val := BitVec.ofNat 128 (v / 65536), tracked := c.tracked s i }

/-- A reduction (R271 to R273). DESIGN CHOICE, log entry 82: one with release order ticks the clock whatever its lanes meet, also when every lane fails and
again at its replay. Unsafe. -/
def redOp (s : State) (g : Bool) (op : AtomOp) (d n : Nat) (a : BitVec 6) (o : BitVec 1) (sc : BitVec 2) (halves : List Nat := [0]) : Res :=
  withOperands s g (pairOf a ++ runOf d n) [] [] fun i => once s i 4 <|
    let rel := o = 1
    let cls : Cls := if rel then .strong else .atomic
    let m : MemForm := { size := 4 * n, write := true, pol := 1, kind := .atomic }
    let cs := i.lanes.lanes.map fun l => checkLane s i m l (gEa a 0 i l)
    if rel && !(i.g.xfersOf i.f).isEmpty then s.wait i .drain
    else
      memAccess s i m cs cls.code sc.toNat false 4 fun s =>
        let good := cs.filter (·.good)
        let (s, carried) := carries s i rel sc
        (halves.foldl (fun s h => issueStore s (mkStore s i (good.map (redAcc s i op d n h)) cls sc rel carried)) s).commit i

/-- `red.add`. -/
def execRedAdd (g : Bool) (d : Fld) (a : BitVec 6) (o : BitVec 1) (sc : BitVec 2) (s : State) : Res := redOp s g .add32 d.toNat 1 a o sc
/-- `red.add.f32`. -/
def execRedAddF32 (g : Bool) (d : Fld) (a : BitVec 6) (o : BitVec 1) (sc : BitVec 2) (s : State) : Res := redOp s g .addF32 d.toNat 1 a o sc
/-- `red.add.bf16x2` (R272). -/
def execRedAddBf16x2 (g : Bool) (d : Fld) (a : BitVec 6) (o : BitVec 1) (sc : BitVec 2) (s : State) : Res := redOp s g .addBf16x2 d.toNat 1 a o sc [1, 2]
/-- `red.add.f16x2` (R272). -/
def execRedAddF16x2 (g : Bool) (d : Fld) (a : BitVec 6) (o : BitVec 1) (sc : BitVec 2) (s : State) : Res := redOp s g .addF16x2 d.toNat 1 a o sc [1, 2]
/-- `red.min.i`. -/
def execRedMinI (g : Bool) (d : Fld) (a : BitVec 6) (o : BitVec 1) (sc : BitVec 2) (s : State) : Res := redOp s g .minI d.toNat 1 a o sc
/-- `red.max.i`. -/
def execRedMaxI (g : Bool) (d : Fld) (a : BitVec 6) (o : BitVec 1) (sc : BitVec 2) (s : State) : Res := redOp s g .maxI d.toNat 1 a o sc
/-- `red.min.z`. -/
def execRedMinZ (g : Bool) (d : Fld) (a : BitVec 6) (o : BitVec 1) (sc : BitVec 2) (s : State) : Res := redOp s g .minZ d.toNat 1 a o sc
/-- `red.max.z`. -/
def execRedMaxZ (g : Bool) (d : Fld) (a : BitVec 6) (o : BitVec 1) (sc : BitVec 2) (s : State) : Res := redOp s g .maxZ d.toNat 1 a o sc
/-- `red.and`. -/
def execRedAnd (g : Bool) (d : Fld) (a : BitVec 6) (o : BitVec 1) (sc : BitVec 2) (s : State) : Res := redOp s g .and d.toNat 1 a o sc
/-- `red.or`. -/
def execRedOr (g : Bool) (d : Fld) (a : BitVec 6) (o : BitVec 1) (sc : BitVec 2) (s : State) : Res := redOp s g .or d.toNat 1 a o sc
/-- `red.xor`. -/
def execRedXor (g : Bool) (d : Fld) (a : BitVec 6) (o : BitVec 1) (sc : BitVec 2) (s : State) : Res := redOp s g .xor d.toNat 1 a o sc
/-- `red.add.64`. -/
def execRedAdd64 (g : Bool) (d a : BitVec 6) (o : BitVec 1) (sc : BitVec 2) (s : State) : Res := redOp s g .add64 (pairFld d).toNat 2 a o sc
/-- `red.min.f32`. -/
def execRedMinF32 (g : Bool) (d : Fld) (a : BitVec 6) (o : BitVec 1) (sc : BitVec 2) (s : State) : Res := redOp s g .minF32 d.toNat 1 a o sc
/-- `red.max.f32`. -/
def execRedMaxF32 (g : Bool) (d : Fld) (a : BitVec 6) (o : BitVec 1) (sc : BitVec 2) (s : State) : Res := redOp s g .maxF32 d.toNat 1 a o sc

/-! ### Conflict detection (R274, R275) -/

/-- The registers and the value of a key of one or two words. -/
def keyRegs (a : Fld) (w : BitVec 1) : List Nat := if w = 1 then [a.toNat, a.toNat + 1] else [a.toNat]
def keyOf (i : Iss) (a : Fld) (w : BitVec 1) (l : Nat) : Word64 :=
  if w = 1 then i.pair a.toNat l else (i.reg a.toNat l).setWidth 64

/-- The lanes of a lane's class that satisfy a relation to it. -/
def classMask (i : Iss) (key : Nat → Word64) (rel : Nat → Nat → Bool) (l : Nat) : Mask :=
  Mask.of fun m => i.lanes.has m && rel m l && key m == key l

/-- `vconf` and `vconfl`: the mask of the class on one side, and p0 where it is empty. -/
def conflict (s : State) (g : Bool) (d a : Fld) (w : BitVec 1) (rel : Nat → Nat → Bool) : Res :=
  withOperands s g (keyRegs a w) [d.toNat] [] (dests := [0]) fun i =>
    let m := classMask i (keyOf i a w) rel
    ((s.putReg i d.toNat fun l => (m l).setWidth 32).putPred i 0 fun l => m l == 0).advance i

/-- `vconf`. -/
def execVconf (g : Bool) (d a : Fld) (w : BitVec 1) (s : State) : Res := conflict s g d a w fun m l => decide (m < l)
/-- `vconfl`. -/
def execVconfl (g : Bool) (d a : Fld) (w : BitVec 1) (s : State) : Res := conflict s g d a w fun m l => decide (l < m)
/-- `vuniq`: the number of classes. -/
def execVuniq (g : Bool) (d a : Fld) (w : BitVec 1) (s : State) : Res :=
  withOperands s g (keyRegs a w) [d.toNat] [] fun i =>
    let n := (i.lanes.lanes.filter fun l => classMask i (keyOf i a w) (fun m l => decide (m < l)) l == 0).length
    (s.putReg i d.toNat fun _ => BitVec.ofNat 32 n).advance i

/-- `scomb`: each class of equal addresses folded onto its leader in lane order (R275). -/
def combineClasses (s : State) (g : Bool) (d : Fld) (a : BitVec 6) (f : Nat → Nat → Nat) : Res :=
  withOperands s g (d.toNat :: pairOf a) [d.toNat] [] (dests := [0]) fun i =>
    let key := i.pair (pairFld a).toNat
    let leader (l : Nat) : Bool := classMask i key (fun m l => decide (m < l)) l == 0
    let sum (l : Nat) : Word :=
      BitVec.ofNat 32 ((classMask i key (fun m l => decide (l < m)) l).lanes.foldl (fun n m => f n (i.reg d.toNat m).toNat) (i.reg d.toNat l).toNat)
    ((s.putReg i d.toNat fun l => if leader l then sum l else i.reg d.toNat l).putPred i 0 leader).advance i

/-- `scomb.f32`. -/
def execScombF32 (g : Bool) (d : Fld) (a : BitVec 6) (s : State) : Res := combineClasses s g d a (fun m v => atomApply .addF32 m v 0)
/-- `scomb.i32`. -/
def execScombI32 (g : Bool) (d : Fld) (a : BitVec 6) (s : State) : Res := combineClasses s g d a (fun m v => atomApply .add32 m v 0)
/-- `scomb.bf16x2`. -/
def execScombBf16x2 (g : Bool) (d : Fld) (a : BitVec 6) (s : State) : Res := combineClasses s g d a (fun m v => atomApply .addBf16x2 m v 0)

/-! ### Barriers (R276 to R280) -/

/-- The fields of a barrier word (Table 12-4). -/
structure BarWord where
  gen : BitVec 4
  expect : Nat
  arrv : Nat
  cred : BitVec 20
  rest : BitVec 16 := 0

def BarWord.ofNat (w : Nat) : BarWord :=
  { gen := BitVec.ofNat 4 (bitsOf w 63 60), expect := bitsOf w 59 48, arrv := bitsOf w 47 36, cred := BitVec.ofNat 20 (bitsOf w 35 16),
    rest := BitVec.ofNat 16 w }
/-- A barrier operation writes the reserved bits zero. -/
def BarWord.toNat (b : BarWord) : Nat := b.gen.toNat * 2 ^ 60 + b.expect * 2 ^ 48 + b.arrv * 2 ^ 36 + b.cred.toNat * 2 ^ 16

/-- arrive(w, n, c) and the completion of a phase (R277): the new word, and whether the phase completed. -/
def BarWord.arrive (b : BarWord) (n : Nat) (c : BitVec 20) : BarWord × Bool :=
  let a := if b.arrv + n < 4095 then b.arrv + n else 4095
  let k := b.cred + c
  if b.expect ≤ a ∧ k = 0 then ({ b with arrv := 0, cred := 0, gen := b.gen + 1 }, true) else ({ b with arrv := a, cred := k }, false)

/-- The word of a barrier: an offset of the scratchpad, or, from 2^40 on, a word of the `cbar` set. -/
def cbarKey (ix : Nat) : Nat := 2 ^ 40 + ix
def Block.barWord (b : Block) (key : Nat) : BarWord :=
  BarWord.ofNat (if 2 ^ 40 ≤ key then (b.cbar[key - 2 ^ 40]?.getD 0).toNat else b.sp.le key 8)
def Block.putBar (b : Block) (key : Nat) (w : BarWord) : Block :=
  if 2 ^ 40 ≤ key then { b with cbar := setAt b.cbar (key - 2 ^ 40) (BitVec.ofNat 64 w.toNat) } else b.spPut key (leBytes 8 w.toNat)

def vecAt (xs : List (Nat × KVec)) (key : Nat) : KVec := ((xs.find? fun e => e.1 == key).map (·.2)).getD KVec.zero

/-- One arrival at a barrier of a block: the vector captured with it joins the running phase; a completed phase's merged vector is kept
for the waits on its generation (R249, R277). -/
def arriveAt (s : State) (bi key n : Nat) (c : BitVec 20) (vec : KVec) : State :=
  s.modB bi fun b =>
    let gen := (b.barWord key).gen
    let (w, done) := (b.barWord key).arrive n c
    let v := (vecAt b.arrived key).merge vec
    let b := b.putBar key w
    if done then { b with phases := setAssoc b.phases (16 * key + gen.toNat) v, arrived := b.arrived.filter fun e => e.1 != key }
    else { b with arrived := setAssoc b.arrived key v }

/-- A fragment's arrival: a release at `.blk` (R277), which commits the block (R365). -/
def arriveBy (s : State) (i : Iss) (key n : Nat) (c : BitVec 20) : State :=
  let s := arriveAt s i.g.block key n c (s.group i.gi).know
  tickG (s.commit i) i.gi
/-- An arrival is a release: it waits until the fragment's earlier accesses have performed and its transfers have moved (R188, R233, R277). -/
def released (s : State) (i : Iss) (k : State) : State := if owesAccess s i then s.wait i .drain else k

/-- The merged vector of the phase that ended a generation of a barrier word. -/
def phaseVec (b : Block) (key : Nat) (gen : BitVec 4) : KVec := vecAt b.phases (16 * key + gen.toNat)
/-- The return of a wait on a phase: an acquire at `.blk` that merges every vector captured in it, after which scratchpad races are
reported again (R249, R254, R277). -/
def phaseReturn (s : State) (i : Iss) (know : KVec) : State :=
  acquireFills ((mergeG s i.gi know).modG i.gi fun g => { g with spBlind := false }) i.gi i.fi 1

/-- An error that an engine command of this group left at a barrier word, delivered at the group's first wait on it (R302). -/
def barError (i : Iss) (key : Nat) : Option Deferred := ((i.g.barErr.find? fun e => e.1 == key).map (·.2))

/-- The stall of a wait on a generation of a word. -/
def barStall (key : Nat) (gen : BitVec 4) : Stall := if 2 ^ 40 ≤ key then .cbar (key - 2 ^ 40) gen else .barrier key gen
/-- A wait on a barrier word returns: with an error that a command of the group left there, or as an acquire of the phase. -/
def barReturn (s : State) (i : Iss) (key : Nat) (know : KVec) : State :=
  match barError i key with
  | some e => faultErr (s.modG i.gi fun g => { g with barErr := g.barErr.filter fun x => x.1 != key }) i e
  | none => (phaseReturn s i know).advance i
/-- A wait on a generation: it returns as soon as GEN differs (R278). -/
def barrierWait (s : State) (i : Iss) (key : Nat) (gen : BitVec 4) : State :=
  let b := s.blockOf i.g
  if (b.barWord key).gen = gen then s.wait i (barStall key gen) else barReturn s i key (phaseVec b key gen)
/-- A wait that stands already goes on: it has been woken, or is tested again. None stands: the instruction begins. -/
def barResume (s : State) (i : Iss) (k : State) : State :=
  match i.f.stall with
  | some (.barrier o gen) => barrierWait s i o gen
  | some (.cbar ix gen) => barrierWait s i (cbarKey ix) gen
  | some (.phaseOver key know) => barReturn s i key know
  | _ => k
/-- The completion or initialisation of a word wakes every fragment that waits on another generation than the one it has now; what a completed phase captured
goes with the wake (R277, R278). -/
def wakeBars (s : State) : State :=
  let wake (b : Block) (f : Frag) : Frag :=
    let go (key : Nat) (gen : BitVec 4) : Frag :=
      if (b.barWord key).gen = gen then f else { f with stall := some (.phaseOver key (phaseVec b key gen)) }
    match f.stall with
    | some (.barrier o gen) => go o gen
    | some (.cbar ix gen) => go (cbarKey ix) gen
    | _ => f
  { s with groups := s.groups.map fun g => { g with frags := g.frags.map (wake (s.blockOf g)) } }
/-- The arrival of a `bar.sync`: it is made once, however often the instruction is issued (R280), and is not quiet (Table 5-7a). -/
def syncOnce (s : State) (i : Iss) (key : Nat) : State :=
  match i.f.arrival with
  | some (k, gen) => barrierWait s i k gen
  | none => released s i <|
    let gen := ((s.blockOf i.g).barWord key).gen
    barrierWait ((arriveBy s i key 1 0).modF i.gi i.fi fun f => { f with arrival := some (key, gen), noisy := true, spin := false }) i key gen

/-- The checks of an offset, and of the race records of the places that an instruction goes on to access: strong accesses of `.blk` scope (R276, R278,
R297). `read`: the instruction reads the places, and an uncorrectable error in the 64 bytes around one raises ECC with detail 3, as for an atomic at its line
(R13, R266; log entry 62). DESIGN CHOICE, log entry 76: such an access counts on no path, `sp` among them. -/
def wordsAccess (s : State) (i : Iss) (a : Fld) (size : Nat) (write read : Bool) (places : Nat → List Nat) (k : Nat → State → State) : State :=
  let m : MemForm := { space := .scratch, size := size, write := write }
  let c := checkLane s i m i.lo (i.reg a.toNat i.lo).toNat
  let b := s.blockOf i.g
  if !c.good then faultAt s i c.code i.lanes m.info (trapAddr m c.ea)
  else
    let os := (places c.pa).filter fun o => decide (o + size ≤ b.spSize)
    match (if read then os.find? fun o => b.spBadAt (o / 64 * 64) 64 else none) with
    | some o => faultAt s i 0x10 i.lanes 3 (BitVec.ofNat 64 o)
    | none =>
      let accs : List RaceAcc := os.map fun o => ⟨i.lo, o, o, size, write, 3, 1⟩
      gated s i (c.tracked s i && !os.isEmpty) fun s => withRaces s i .scratch (if c.tracked s i then accs else []) (k c.pa)
/-- The same for the one word at the offset. -/
def wordAccess (s : State) (i : Iss) (a : Fld) (size : Nat) (write read : Bool) (k : Nat → State → State) : State :=
  wordsAccess s i a size write read (fun o => [o]) k
/-- The access of a barrier instruction to its word. `bar.init` alone does not read it. -/
def barAccess (s : State) (i : Iss) (a : Fld) (write : Bool) (k : Nat → State → State) (read : Bool := true) : State := wordAccess s i a 8 write read k

/-- A barrier word initialised: no phase of it is running, and none has completed. -/
def initBar (b : Block) (key n : Nat) : Block :=
  { b.putBar key { gen := 0, expect := if n = 0 then 1 else n, arrv := 0, cred := 0 } with
    arrived := b.arrived.filter fun e => e.1 != key, phases := b.phases.filter fun e => e.1 / 16 != key }

/-- `bar.arr` (R277). -/
def execBarArr (g : Bool) (d a b : Fld) (s : State) : Res :=
  withOperands s g [a.toNat, b.toNat] [d.toNat] [] fun i => once s i 4 <| released s i <| barAccess s i a true fun o s =>
    let gen := ((s.blockOf i.g).barWord o).gen
    ((arriveBy s i o ((i.reg b.toNat i.lo).toNat % 4096) 0).putReg i d.toNat fun _ => gen.setWidth 32).advance i 4 true
/-- `bar.wait` (R278). -/
def execBarWait (g : Bool) (a b : Fld) (s : State) : Res :=
  withOperands s g [a.toNat, b.toNat] [] [] fun i => once s i 4 <| barResume s i <|
    barAccess s i a false fun o s => barrierWait s i o ((i.reg b.toNat i.lo).truncate 4)
/-- `bar.sync` (R277, R280). -/
def execBarSync (g : Bool) (a : Fld) (s : State) : Res :=
  withOperands s g [a.toNat] [] [] fun i => once s i 4 <| barResume s i <|
    if i.f.arrival.isSome then syncOnce s i 0
    else released s i <| barAccess s i a true fun o s => syncOnce s i o
/-- `bar.init` (R277). -/
def execBarInit (g : Bool) (a b : Fld) (s : State) : Res :=
  withOperands s g [a.toNat, b.toNat] [] [] fun i => once s i 4 <| barAccess s i a true (read := false) fun o s =>
    (s.modB i.g.block fun bl => initBar bl o ((i.reg b.toNat i.lo).toNat % 4096)).advance i 4 true
/-- `bar.arrx` (R277). -/
def execBarArrx (g : Bool) (d a b : Fld) (s : State) : Res :=
  withOperands s g [a.toNat, b.toNat] [d.toNat] [] fun i => once s i 4 <| released s i <| barAccess s i a true fun o s =>
    let gen := ((s.blockOf i.g).barWord o).gen
    ((arriveBy s i o 1 ((i.reg b.toNat i.lo).truncate 20)).putReg i d.toNat fun _ => gen.setWidth 32).advance i 4 true

/-- The `cbar` word that a register names (R279). -/
def cbarIx (i : Iss) (a : Fld) : Nat := (i.reg a.toNat i.lo).toNat % 16

/-- `cbar.init` (R279). -/
def execCbarInit (g : Bool) (d a : Fld) (s : State) : Res :=
  withOperands s g [d.toNat, a.toNat] [] [] fun i => once s i 4 <|
    (s.modB i.g.block fun bl => initBar bl (cbarKey (cbarIx i a)) ((i.reg d.toNat i.lo).toNat % 4096)).advance i 4 true
/-- `cbar.arr` (R279). -/
def execCbarArr (g : Bool) (d a : Fld) (s : State) : Res :=
  withOperands s g [a.toNat] [d.toNat] [] fun i => once s i 4 <| released s i <|
    let k := cbarKey (cbarIx i a)
    let gen := ((s.blockOf i.g).barWord k).gen
    ((arriveBy s i k 1 0).putReg i d.toNat fun _ => gen.setWidth 32).advance i 4 true
/-- `cbar.wait` (R279). -/
def execCbarWait (g : Bool) (d a : Fld) (s : State) : Res :=
  withOperands s g [d.toNat, a.toNat] [] [] fun i => once s i 4 <| barResume s i <|
    barrierWait s i (cbarKey (cbarIx i a)) ((i.reg d.toNat i.lo).truncate 4)
/-- `cbar.sync` (R279, R280). -/
def execCbarSync (g : Bool) (a : Fld) (s : State) : Res :=
  withOperands s g [a.toNat] [] [] fun i => once s i 4 <| barResume s i <| syncOnce s i (cbarKey (cbarIx i a))

/-! ### Wait on address (R281 to R283) -/

/-- Does the table of the word's home slice have a free entry; is the word polled because it has none or is remote (R282, R412)? -/
def polledWord (s : State) (pa : Nat) : Bool :=
  !localPa pa || decide (1024 ≤ (s.woas.filter fun w => !w.polls && Config.homeSlice (w.pa / 64) % 64 == Config.homeSlice (pa / 64) % 64).length)

/-- A wait registers an entry and the fragment sleeps; its registration read, unsatisfied, is not checked (R281). -/
def register (s : State) (i : Iss) (c : LaneChk) (mask exp : Word) (cmp : WoaCmp) (sc : BitVec 2) : State :=
  let n := s.woaNo + 1
  let e : Woa := { n := n, who := .frag i.gi i.f.fid, pa := c.pa, va := c.va, mask := mask, cmp := cmp, exp := exp, polls := polledWord s c.pa,
                   nextPoll := s.time + 512, outer := sc == 3 || (match c.xl with | some x => x.ext | none => false), scope := sc, tracked := c.tracked s i }
  let own (k : Check) : Bool := k.fid == i.f.fid
  let s := s.modG i.gi fun g => { g with check := if (g.check.map own).getD false then none else g.check }
  ({ s with woas := s.woas ++ [e], woaNo := n } : State).wait i (.woa n)

/-- The return of a wait: its entry is released, the value reaches D, and what the satisfying read acquired is merged (R281). A value read from a line that
holds an uncorrectable error poisons D, with the word's address, as a load's does (R217, R356; log entry 62). -/
def woaReturn (s : State) (i : Iss) (d : Nat) (sc : BitVec 2) (v : Word) (know : KVec) (bad : Option Nat) : State :=
  let s := { s with woas := s.woas.filter fun w => w.who != .frag i.gi i.f.fid }
  let s := (acquireFills (mergeG s i.gi know) i.gi i.fi sc).putReg i d fun _ => v
  (match bad with
    | some a => s.modG i.gi fun g => { g with poison := ⟨i.phys d, i.lanes, a, 2⟩ :: g.poison }
    | none => s).advance i
/-- The satisfying read as the detector sees it: one strong read (R281). -/
def woaAcc (lane va pa : Nat) (sc : BitVec 2) : RaceAcc := ⟨lane, va, pa, 4, false, 3, sc.toNat⟩
/-- An entry that is satisfied returns; a race that its read met in trap mode stops the instruction instead. -/
def woaWake (s : State) (i : Iss) (d : Nat) (w : Woa) (v : Word) : State :=
  match w.race with
  | some h =>
    let s := { s with woas := s.woas.filter fun x => x.n != w.n }
    let (s, lost) := raceRecord s (raceParty s i.g) (woaAcc i.lo w.va w.pa w.scope) h i.f.pc (twoPowMask i.lo) (s.launchOf i.g).lid true false
    faultAt s i 0x07 i.lanes (raceInfo h false lost) (BitVec.ofNat 64 (w.va / 64 * 64 + lowBit h.bytes))
  | none =>
    let s := if w.ext then s.replayLog (s.pasidOf i.g) 3 i.g.id (leBytes 8 w.va ++ leBytes 4 v.toNat ++ leBytes 4 i.g.clk.toNat) else s
    let s := match w.report with
      | some h => (raceRecord s (raceParty s i.g) (woaAcc i.lo w.va w.pa w.scope) h i.f.pc (twoPowMask i.lo) (s.launchOf i.g).lid false false).1
      | none => s
    woaReturn s i d w.scope v w.know (if w.bad then some w.va else none)

/-- The slice's read at the wake or at the poll that satisfies a condition: it is checked and recorded there, and its acquire merges the sync record
that is live then (R281). A record of a race in report mode whose ring line the host has to give back first is written at the return (R412). -/
def seeWoa (s : State) (w : Woa) : State :=
  match w.who with
  | .queue _ => s
  | .frag gi fid =>
    let g := s.group gi
    let p := raceParty s g
    let x := woaAcc (lowLane (g.frag ((g.fragAt fid).getD 0)).amask) w.va w.pa w.scope
    let know := if w.tracked then syncAcquire s p.pasid w.pa 4 w.scope g.id (s.blockOf g).btag else KVec.zero
    let hit := if w.tracked && g.race != .off then checkAcc s p x else none
    let done (s : State) (race report : Option RaceHit) : State :=
      { s with woas := s.woas.map fun y => if y.n = w.n then { y with seen := true, know := know, race := race, report := report, bad := s.badAt w.pa 4 } else y }
    if !w.tracked || g.race == .off then done s none none
    else
      match hit with
      | none => done (recordAccs s p [x]) none none
      | some h =>
        if g.race == .trap then done s (some h) none
        else
          let pc := (g.frag ((g.fragAt fid).getD 0)).pc
          let t := (raceRecord s p x h pc (twoPowMask x.lane) (s.launchOf g).lid false false).1
          if heldBack s t then done (recordAccs s p [x]) none (some h) else done (recordAccs t p [x]) none none
/-- Every entry that a write of this step has satisfied is read. -/
def seeWoas (s : State) : State := (s.woas.filter fun w => w.hit.isSome && !w.seen).foldl seeWoa s

/-- A WOA instruction (R281): the read goes past the L1, whose copy it drops (R236). -/
def woaOp (s : State) (g : Bool) (d a : BitVec 6) (sc : BitVec 2) (cmp : WoaCmp) : Res :=
  withOperands s g (pairOf d ++ pairOf a) [(pairFld d).toNat] [] fun i => once s i 4 <|
    let m : MemForm := { size := 4, pol := 1 }
    let c := checkLane s i m i.lo (gEa a 0 i i.lo)
    let dn := (pairFld d).toNat
    if !c.good then faultAt s i c.code i.lanes m.info (trapAddr m c.ea)
    else if xferClash i .glob false [c] 4 || xferAhead s i.gi i.f [(c.pa, 4)] then s.wait i .drain
    else
      let s := (touch (dropL1 (drainOwn s i.gi i.f [(c.pa, 4)]) i.g.core c.pa 4) i [c]).commit i
      match s.woas.find? fun w => w.who == .frag i.gi i.f.fid with
      | some w => (match w.hit, w.seen with
        | some v, true => woaWake s i dn w v
        | _, _ => s.wait i (.woa w.n))
      | none =>
        let v := s.word c.pa
        let mask := i.reg (dn + 1) i.lo
        if cmp != .any && cmp.holds v (i.reg dn i.lo) mask then
          gated s i (c.tracked s i) fun s => withRaces s i .glob (if c.tracked s i then [c.acc 4 false 3 sc.toNat] else []) fun s =>
            woaReturn s i dn sc v (acquireVecs s i [c] 4 sc) (if s.badAt c.pa 4 then some c.va else none)
        else register s i c mask (if cmp = .any then v else i.reg dn i.lo) cmp sc

/-- `waddr.eq`. -/
def execWaddrEq (g : Bool) (d a : BitVec 6) (sc : BitVec 2) (s : State) : Res := woaOp s g d a sc .eq
/-- `waddr.ne`. -/
def execWaddrNe (g : Bool) (d a : BitVec 6) (sc : BitVec 2) (s : State) : Res := woaOp s g d a sc .ne
/-- `waddr.lt`. -/
def execWaddrLt (g : Bool) (d a : BitVec 6) (sc : BitVec 2) (s : State) : Res := woaOp s g d a sc .lt
/-- `waddr.ge`. -/
def execWaddrGe (g : Bool) (d a : BitVec 6) (sc : BitVec 2) (s : State) : Res := woaOp s g d a sc .ge
/-- `waddr.any`. -/
def execWaddrAny (g : Bool) (d a : BitVec 6) (sc : BitVec 2) (s : State) : Res := woaOp s g d a sc .any

end Sys2Proof.Machine
end

