-- ==== Sys2Proof/Decode.lean ====
section
/-! DEFINITION. Sys2Proof/Decode.lean: how the words at a fragment's PC become an instruction or an ILL fault (chapter 4, R58 to
R61, R83 to R90), and the encoder. -/

namespace Sys2Proof

/-- Why a word is refused: the causes of ILL raised at decode (Table 4-4). -/
inductive DecodeError where
  /-- check 1, detail 0 -/
  | reservedMajor
  /-- check 1, detail 2: MAJ 0x3E in a first word -/
  | extFirst
  /-- check 3, detail 3: a format-X first word without its second -/
  | missingExt
  /-- check 2, detail 4 -/
  | reservedFn
  /-- check 3, detail 5: a reserved field or operand code, or G = 1 where it is not allowed -/
  | reservedField
  /-- check 3, detail 6: an odd pair or misaligned quad field -/
  | misaligned
  /-- check 3, detail 7: a special register number -/
  | badSreg
deriving DecidableEq, Repr

/-- The detail code of Table 4-4. -/
def DecodeError.detail : DecodeError → Nat
  | .reservedMajor => 0
  | .extFirst => 2
  | .missingExt => 3
  | .reservedFn => 4
  | .reservedField => 5
  | .misaligned => 6
  | .badSreg => 7

/-- The fields of a first word (Table 2-6). -/
structure WordFields where
  maj : BitVec 6
  g : Bool
  fn : BitVec 4
  d : BitVec 7
  a : BitVec 7
  b : BitVec 7
deriving DecidableEq, Repr

/-- The fields read out of a word (Table 2-6). -/
def WordFields.ofWord (w : Word) : WordFields :=
  ⟨w.extractLsb' 26 6, w.getLsbD 25, w.extractLsb' 21 4, w.extractLsb' 14 7, w.extractLsb' 7 7, w.extractLsb' 0 7⟩

/-- The word of the fields (Table 2-6). -/
def WordFields.toWord (f : WordFields) : Word :=
  f.maj ++ BitVec.ofBool f.g ++ f.fn ++ f.d ++ f.a ++ f.b

/-- The second word of format X that carries a payload (R59). -/
def extWord (x : BitVec 26) : Word := (0x3E : BitVec 6) ++ x

/-- The format-X majors (R83). -/
def isX (maj : BitVec 6) : Bool :=
  maj == 0x02 || maj == 0x0E || maj == 0x1B || maj == 0x22 || maj == 0x28 || maj == 0x2D || maj == 0x2E ||
  maj == 0x34 || maj == 0x35 || maj == 0x37

/-- The reserved majors: 0x00, 0x39 to 0x3D and 0x3F (R83). -/
def isReservedMajor (maj : BitVec 6) : Bool := maj == 0 || (decide (0x39 ≤ maj.toNat) && maj != 0x3E)

/-- Check 3 of R61 with the lowest detail reported (R90). -/
def accept (res mis : Bool) (i : Instr) : Except DecodeError Instr :=
  if res || i.badCode then .error .reservedField
  else if mis || i.badAlign then .error .misaligned
  else if i.badSreg then .error .badSreg
  else .ok i

/-- Decoding of major 0x01 by its function codes (Table 4-2): bra, bany, ball, bnone, call. -/
noncomputable def decodeMaj01 (f : WordFields) : Except DecodeError Instr :=
  match f.fn.toNat with
  | 0 => accept (f.g) (false) (.bra (f.d ++ f.a ++ f.b))
  | 1 => accept (f.g) (false) (.bany (f.d ++ f.a ++ f.b))
  | 2 => accept (f.g) (false) (.ball (f.d ++ f.a ++ f.b))
  | 3 => accept (f.g) (false) (.bnone (f.d ++ f.a ++ f.b))
  | 4 => accept (f.g) (false) (.call (f.d ++ f.a ++ f.b))
  | _ => .error .reservedFn

/-- Decoding of major 0x02 by its function codes (Table 4-2): brd, brdr. -/
noncomputable def decodeMaj02 (f : WordFields) (x : BitVec 26) : Except DecodeError Instr :=
  match f.fn.toNat with
  | 0 => accept (f.g) (false) (.brd (f.d ++ f.a ++ f.b) x)
  | 1 => accept (f.g || f.d != 0 || f.b != 0) (f.a.extractLsb' 0 1 != 0) (.brdr (f.a.extractLsb' 1 6) x)
  | _ => .error .reservedFn

/-- Decoding of major 0x03 by its function codes (Table 4-2): ret, jmpr, callr, exit, yield, join, wbase, spin, nop, fmask. -/
noncomputable def decodeMaj03 (f : WordFields) : Except DecodeError Instr :=
  match f.fn.toNat with
  | 0 => accept (f.g || f.d != 0 || f.a != 0 || f.b != 0) (false) (.ret)
  | 1 => accept (f.g || f.d != 0 || f.b != 0) (f.a.extractLsb' 0 1 != 0) (.jmpr (f.a.extractLsb' 1 6))
  | 2 => accept (f.g || f.d != 0 || f.b != 0) (f.a.extractLsb' 0 1 != 0) (.callr (f.a.extractLsb' 1 6))
  | 3 => accept (f.d != 0 || f.a != 0 || f.b != 0) (false) (.exit f.g)
  | 4 => accept (f.d != 0 || f.a != 0 || f.b != 0) (false) (.yield f.g)
  | 5 => accept (f.g || f.d != 0 || f.a != 0 || f.b != 0) (false) (.join)
  | 6 => accept (f.d != 0 || f.a != 0 || f.b.extractLsb' 4 3 != 0) (false) (.wbase f.g (f.b.extractLsb' 0 4))
  | 7 => accept (f.d != 0 || f.a != 0 || f.b != 0) (false) (.spin f.g)
  | 8 => accept (f.d != 0 || f.a != 0 || f.b != 0) (false) (.nop f.g)
  | 9 => accept (f.d.extractLsb' 3 4 != 0 || f.a != 0 || f.b.extractLsb' 2 5 != 0) (false) (.fmask f.g (f.d.extractLsb' 0 3) (f.b.extractLsb' 0 2))
  | _ => .error .reservedFn

/-- Decoding of major 0x04 by its function codes (Table 4-2): add, sub, addc, subb, min_i, max_i, min_z, max_z, abs, neg, adds_i, subs_i, adds_z, subs_z, avg_z, sad_z. -/
noncomputable def decodeMaj04 (f : WordFields) : Except DecodeError Instr :=
  match f.fn.toNat with
  | 0 => accept (false) (false) (.add f.g f.d f.a f.b)
  | 1 => accept (false) (false) (.sub f.g f.d f.a f.b)
  | 2 => accept (false) (false) (.addc f.g f.d f.a f.b)
  | 3 => accept (false) (false) (.subb f.g f.d f.a f.b)
  | 4 => accept (false) (false) (.minI f.g f.d f.a f.b)
  | 5 => accept (false) (false) (.maxI f.g f.d f.a f.b)
  | 6 => accept (false) (false) (.minZ f.g f.d f.a f.b)
  | 7 => accept (false) (false) (.maxZ f.g f.d f.a f.b)
  | 8 => accept (f.b != 0) (false) (.abs f.g f.d f.a)
  | 9 => accept (f.b != 0) (false) (.neg f.g f.d f.a)
  | 10 => accept (false) (false) (.addsI f.g f.d f.a f.b)
  | 11 => accept (false) (false) (.subsI f.g f.d f.a f.b)
  | 12 => accept (false) (false) (.addsZ f.g f.d f.a f.b)
  | 13 => accept (false) (false) (.subsZ f.g f.d f.a f.b)
  | 14 => accept (false) (false) (.avgZ f.g f.d f.a f.b)
  | 15 => accept (false) (false) (.sadZ f.g f.d f.a f.b)
  | _ => .error .reservedFn

/-- Decoding of major 0x05 by its function codes (Table 4-2): add_imm, sub_imm, addc_imm, subb_imm, min_i_imm, max_i_imm, min_z_imm, max_z_imm, adds_i_imm, subs_i_imm, adds_z_imm, subs_z_imm, avg_z_imm, sad_z_imm. -/
noncomputable def decodeMaj05 (f : WordFields) : Except DecodeError Instr :=
  match f.fn.toNat with
  | 0 => accept (false) (false) (.addImm f.g f.d f.a f.b)
  | 1 => accept (false) (false) (.subImm f.g f.d f.a f.b)
  | 2 => accept (false) (false) (.addcImm f.g f.d f.a f.b)
  | 3 => accept (false) (false) (.subbImm f.g f.d f.a f.b)
  | 4 => accept (false) (false) (.minIImm f.g f.d f.a f.b)
  | 5 => accept (false) (false) (.maxIImm f.g f.d f.a f.b)
  | 6 => accept (false) (false) (.minZImm f.g f.d f.a f.b)
  | 7 => accept (false) (false) (.maxZImm f.g f.d f.a f.b)
  | 10 => accept (false) (false) (.addsIImm f.g f.d f.a f.b)
  | 11 => accept (false) (false) (.subsIImm f.g f.d f.a f.b)
  | 12 => accept (false) (false) (.addsZImm f.g f.d f.a f.b)
  | 13 => accept (false) (false) (.subsZImm f.g f.d f.a f.b)
  | 14 => accept (false) (false) (.avgZImm f.g f.d f.a f.b)
  | 15 => accept (false) (false) (.sadZImm f.g f.d f.a f.b)
  | _ => .error .reservedFn

/-- Decoding of major 0x06 by its function codes (Table 4-2): mul, mulh_i, mulh_z, mad, mulw_i, mulw_z, madw_i, madw_z, div_i, div_z, rem_i, rem_z, dp4_i8, dp4_z8. -/
noncomputable def decodeMaj06 (f : WordFields) : Except DecodeError Instr :=
  match f.fn.toNat with
  | 0 => accept (false) (false) (.mul f.g f.d f.a f.b)
  | 1 => accept (false) (false) (.mulhI f.g f.d f.a f.b)
  | 2 => accept (false) (false) (.mulhZ f.g f.d f.a f.b)
  | 3 => accept (false) (false) (.mad f.g f.d f.a f.b)
  | 4 => accept (false) (f.d.extractLsb' 0 1 != 0) (.mulwI f.g (f.d.extractLsb' 1 6) f.a f.b)
  | 5 => accept (false) (f.d.extractLsb' 0 1 != 0) (.mulwZ f.g (f.d.extractLsb' 1 6) f.a f.b)
  | 6 => accept (false) (f.d.extractLsb' 0 1 != 0) (.madwI f.g (f.d.extractLsb' 1 6) f.a f.b)
  | 7 => accept (false) (f.d.extractLsb' 0 1 != 0) (.madwZ f.g (f.d.extractLsb' 1 6) f.a f.b)
  | 8 => accept (false) (false) (.divI f.g f.d f.a f.b)
  | 9 => accept (false) (false) (.divZ f.g f.d f.a f.b)
  | 10 => accept (false) (false) (.remI f.g f.d f.a f.b)
  | 11 => accept (false) (false) (.remZ f.g f.d f.a f.b)
  | 12 => accept (false) (false) (.dp4I8 f.g f.d f.a f.b)
  | 13 => accept (false) (false) (.dp4Z8 f.g f.d f.a f.b)
  | _ => .error .reservedFn

/-- Decoding of major 0x07 by its function codes (Table 4-2): and, or, xor, andn, orn, not, popc, clz, ctz, brev, bsel, prmt. -/
noncomputable def decodeMaj07 (f : WordFields) : Except DecodeError Instr :=
  match f.fn.toNat with
  | 0 => accept (false) (false) (.and f.g f.d f.a f.b)
  | 1 => accept (false) (false) (.or f.g f.d f.a f.b)
  | 2 => accept (false) (false) (.xor f.g f.d f.a f.b)
  | 3 => accept (false) (false) (.andn f.g f.d f.a f.b)
  | 4 => accept (false) (false) (.orn f.g f.d f.a f.b)
  | 5 => accept (f.b != 0) (false) (.not f.g f.d f.a)
  | 6 => accept (f.b != 0) (false) (.popc f.g f.d f.a)
  | 7 => accept (f.b != 0) (false) (.clz f.g f.d f.a)
  | 8 => accept (f.b != 0) (false) (.ctz f.g f.d f.a)
  | 9 => accept (f.b != 0) (false) (.brev f.g f.d f.a)
  | 10 => accept (false) (false) (.bsel f.g f.d f.a f.b)
  | 11 => accept (false) (false) (.prmt f.g f.d f.a f.b)
  | _ => .error .reservedFn

/-- Decoding of major 0x08 by its function codes (Table 4-2): shl, shr_z, shr_i, rol, ror, shlf, shrf, bfx_z, bfx_i, bfi. -/
noncomputable def decodeMaj08 (f : WordFields) : Except DecodeError Instr :=
  match f.fn.toNat with
  | 0 => accept (false) (false) (.shl f.g f.d f.a f.b)
  | 1 => accept (false) (false) (.shrZ f.g f.d f.a f.b)
  | 2 => accept (false) (false) (.shrI f.g f.d f.a f.b)
  | 3 => accept (false) (false) (.rol f.g f.d f.a f.b)
  | 4 => accept (false) (false) (.ror f.g f.d f.a f.b)
  | 5 => accept (false) (false) (.shlf f.g f.d f.a f.b)
  | 6 => accept (false) (false) (.shrf f.g f.d f.a f.b)
  | 7 => accept (false) (false) (.bfxZ f.g f.d f.a f.b)
  | 8 => accept (false) (false) (.bfxI f.g f.d f.a f.b)
  | 9 => accept (false) (false) (.bfi f.g f.d f.a f.b)
  | _ => .error .reservedFn

/-- Decoding of major 0x09 by its function codes (Table 4-2): shl_imm, shr_z_imm, shr_i_imm, rol_imm, ror_imm, shlf_imm, shrf_imm. -/
noncomputable def decodeMaj09 (f : WordFields) : Except DecodeError Instr :=
  match f.fn.toNat with
  | 0 => accept (false) (false) (.shlImm f.g f.d f.a f.b)
  | 1 => accept (false) (false) (.shrZImm f.g f.d f.a f.b)
  | 2 => accept (false) (false) (.shrIImm f.g f.d f.a f.b)
  | 3 => accept (false) (false) (.rolImm f.g f.d f.a f.b)
  | 4 => accept (false) (false) (.rorImm f.g f.d f.a f.b)
  | 5 => accept (false) (false) (.shlfImm f.g f.d f.a f.b)
  | 6 => accept (false) (false) (.shrfImm f.g f.d f.a f.b)
  | _ => .error .reservedFn

/-- Decoding of major 0x0A by its function codes (Table 4-2): cmp_eq, cmp_ne, cmp_lt_i, cmp_le_i, cmp_gt_i, cmp_ge_i, cmp_lt_z, cmp_le_z, cmp_gt_z, cmp_ge_z, tst, tstn. -/
noncomputable def decodeMaj0A (f : WordFields) : Except DecodeError Instr :=
  match f.fn.toNat with
  | 0 => accept (f.d.extractLsb' 5 2 != 0) (false) (.cmpEq f.g (f.d.extractLsb' 3 2) (f.d.extractLsb' 0 3) f.a f.b)
  | 1 => accept (f.d.extractLsb' 5 2 != 0) (false) (.cmpNe f.g (f.d.extractLsb' 3 2) (f.d.extractLsb' 0 3) f.a f.b)
  | 2 => accept (f.d.extractLsb' 5 2 != 0) (false) (.cmpLtI f.g (f.d.extractLsb' 3 2) (f.d.extractLsb' 0 3) f.a f.b)
  | 3 => accept (f.d.extractLsb' 5 2 != 0) (false) (.cmpLeI f.g (f.d.extractLsb' 3 2) (f.d.extractLsb' 0 3) f.a f.b)
  | 4 => accept (f.d.extractLsb' 5 2 != 0) (false) (.cmpGtI f.g (f.d.extractLsb' 3 2) (f.d.extractLsb' 0 3) f.a f.b)
  | 5 => accept (f.d.extractLsb' 5 2 != 0) (false) (.cmpGeI f.g (f.d.extractLsb' 3 2) (f.d.extractLsb' 0 3) f.a f.b)
  | 6 => accept (f.d.extractLsb' 5 2 != 0) (false) (.cmpLtZ f.g (f.d.extractLsb' 3 2) (f.d.extractLsb' 0 3) f.a f.b)
  | 7 => accept (f.d.extractLsb' 5 2 != 0) (false) (.cmpLeZ f.g (f.d.extractLsb' 3 2) (f.d.extractLsb' 0 3) f.a f.b)
  | 8 => accept (f.d.extractLsb' 5 2 != 0) (false) (.cmpGtZ f.g (f.d.extractLsb' 3 2) (f.d.extractLsb' 0 3) f.a f.b)
  | 9 => accept (f.d.extractLsb' 5 2 != 0) (false) (.cmpGeZ f.g (f.d.extractLsb' 3 2) (f.d.extractLsb' 0 3) f.a f.b)
  | 10 => accept (f.d.extractLsb' 5 2 != 0) (false) (.tst f.g (f.d.extractLsb' 3 2) (f.d.extractLsb' 0 3) f.a f.b)
  | 11 => accept (f.d.extractLsb' 5 2 != 0) (false) (.tstn f.g (f.d.extractLsb' 3 2) (f.d.extractLsb' 0 3) f.a f.b)
  | _ => .error .reservedFn

/-- Decoding of major 0x0B by its function codes (Table 4-2): cmp_eq_imm, cmp_ne_imm, cmp_lt_i_imm, cmp_le_i_imm, cmp_gt_i_imm, cmp_ge_i_imm, cmp_lt_z_imm, cmp_le_z_imm, cmp_gt_z_imm, cmp_ge_z_imm, tst_imm, tstn_imm. -/
noncomputable def decodeMaj0B (f : WordFields) : Except DecodeError Instr :=
  match f.fn.toNat with
  | 0 => accept (f.d.extractLsb' 5 2 != 0) (false) (.cmpEqImm f.g (f.d.extractLsb' 3 2) (f.d.extractLsb' 0 3) f.a f.b)
  | 1 => accept (f.d.extractLsb' 5 2 != 0) (false) (.cmpNeImm f.g (f.d.extractLsb' 3 2) (f.d.extractLsb' 0 3) f.a f.b)
  | 2 => accept (f.d.extractLsb' 5 2 != 0) (false) (.cmpLtIImm f.g (f.d.extractLsb' 3 2) (f.d.extractLsb' 0 3) f.a f.b)
  | 3 => accept (f.d.extractLsb' 5 2 != 0) (false) (.cmpLeIImm f.g (f.d.extractLsb' 3 2) (f.d.extractLsb' 0 3) f.a f.b)
  | 4 => accept (f.d.extractLsb' 5 2 != 0) (false) (.cmpGtIImm f.g (f.d.extractLsb' 3 2) (f.d.extractLsb' 0 3) f.a f.b)
  | 5 => accept (f.d.extractLsb' 5 2 != 0) (false) (.cmpGeIImm f.g (f.d.extractLsb' 3 2) (f.d.extractLsb' 0 3) f.a f.b)
  | 6 => accept (f.d.extractLsb' 5 2 != 0) (false) (.cmpLtZImm f.g (f.d.extractLsb' 3 2) (f.d.extractLsb' 0 3) f.a f.b)
  | 7 => accept (f.d.extractLsb' 5 2 != 0) (false) (.cmpLeZImm f.g (f.d.extractLsb' 3 2) (f.d.extractLsb' 0 3) f.a f.b)
  | 8 => accept (f.d.extractLsb' 5 2 != 0) (false) (.cmpGtZImm f.g (f.d.extractLsb' 3 2) (f.d.extractLsb' 0 3) f.a f.b)
  | 9 => accept (f.d.extractLsb' 5 2 != 0) (false) (.cmpGeZImm f.g (f.d.extractLsb' 3 2) (f.d.extractLsb' 0 3) f.a f.b)
  | 10 => accept (f.d.extractLsb' 5 2 != 0) (false) (.tstImm f.g (f.d.extractLsb' 3 2) (f.d.extractLsb' 0 3) f.a f.b)
  | 11 => accept (f.d.extractLsb' 5 2 != 0) (false) (.tstnImm f.g (f.d.extractLsb' 3 2) (f.d.extractLsb' 0 3) f.a f.b)
  | _ => .error .reservedFn

/-- Decoding of major 0x0C by its function codes (Table 4-2): add_64, sub_64, mul_64, shl_64, shr_z_64, shr_i_64, min_i_64, max_i_64, min_z_64, max_z_64, cmp_eq_64, cmp_lt_i_64, cmp_lt_z_64. -/
noncomputable def decodeMaj0C (f : WordFields) : Except DecodeError Instr :=
  match f.fn.toNat with
  | 0 => accept (false) (f.d.extractLsb' 0 1 != 0 || f.a.extractLsb' 0 1 != 0 || f.b.extractLsb' 0 1 != 0) (.add64 f.g (f.d.extractLsb' 1 6) (f.a.extractLsb' 1 6) (f.b.extractLsb' 1 6))
  | 1 => accept (false) (f.d.extractLsb' 0 1 != 0 || f.a.extractLsb' 0 1 != 0 || f.b.extractLsb' 0 1 != 0) (.sub64 f.g (f.d.extractLsb' 1 6) (f.a.extractLsb' 1 6) (f.b.extractLsb' 1 6))
  | 2 => accept (false) (f.d.extractLsb' 0 1 != 0 || f.a.extractLsb' 0 1 != 0 || f.b.extractLsb' 0 1 != 0) (.mul64 f.g (f.d.extractLsb' 1 6) (f.a.extractLsb' 1 6) (f.b.extractLsb' 1 6))
  | 3 => accept (false) (f.d.extractLsb' 0 1 != 0 || f.a.extractLsb' 0 1 != 0) (.shl64 f.g (f.d.extractLsb' 1 6) (f.a.extractLsb' 1 6) f.b)
  | 4 => accept (false) (f.d.extractLsb' 0 1 != 0 || f.a.extractLsb' 0 1 != 0) (.shrZ64 f.g (f.d.extractLsb' 1 6) (f.a.extractLsb' 1 6) f.b)
  | 5 => accept (false) (f.d.extractLsb' 0 1 != 0 || f.a.extractLsb' 0 1 != 0) (.shrI64 f.g (f.d.extractLsb' 1 6) (f.a.extractLsb' 1 6) f.b)
  | 6 => accept (false) (f.d.extractLsb' 0 1 != 0 || f.a.extractLsb' 0 1 != 0 || f.b.extractLsb' 0 1 != 0) (.minI64 f.g (f.d.extractLsb' 1 6) (f.a.extractLsb' 1 6) (f.b.extractLsb' 1 6))
  | 7 => accept (false) (f.d.extractLsb' 0 1 != 0 || f.a.extractLsb' 0 1 != 0 || f.b.extractLsb' 0 1 != 0) (.maxI64 f.g (f.d.extractLsb' 1 6) (f.a.extractLsb' 1 6) (f.b.extractLsb' 1 6))
  | 8 => accept (false) (f.d.extractLsb' 0 1 != 0 || f.a.extractLsb' 0 1 != 0 || f.b.extractLsb' 0 1 != 0) (.minZ64 f.g (f.d.extractLsb' 1 6) (f.a.extractLsb' 1 6) (f.b.extractLsb' 1 6))
  | 9 => accept (false) (f.d.extractLsb' 0 1 != 0 || f.a.extractLsb' 0 1 != 0 || f.b.extractLsb' 0 1 != 0) (.maxZ64 f.g (f.d.extractLsb' 1 6) (f.a.extractLsb' 1 6) (f.b.extractLsb' 1 6))
  | 10 => accept (f.d.extractLsb' 5 2 != 0) (f.a.extractLsb' 0 1 != 0 || f.b.extractLsb' 0 1 != 0) (.cmpEq64 f.g (f.d.extractLsb' 3 2) (f.d.extractLsb' 0 3) (f.a.extractLsb' 1 6) (f.b.extractLsb' 1 6))
  | 11 => accept (f.d.extractLsb' 5 2 != 0) (f.a.extractLsb' 0 1 != 0 || f.b.extractLsb' 0 1 != 0) (.cmpLtI64 f.g (f.d.extractLsb' 3 2) (f.d.extractLsb' 0 3) (f.a.extractLsb' 1 6) (f.b.extractLsb' 1 6))
  | 12 => accept (f.d.extractLsb' 5 2 != 0) (f.a.extractLsb' 0 1 != 0 || f.b.extractLsb' 0 1 != 0) (.cmpLtZ64 f.g (f.d.extractLsb' 3 2) (f.d.extractLsb' 0 3) (f.a.extractLsb' 1 6) (f.b.extractLsb' 1 6))
  | _ => .error .reservedFn

/-- Decoding of major 0x0D by its function codes (Table 4-2): movi, movhi, addi. -/
noncomputable def decodeMaj0D (f : WordFields) : Except DecodeError Instr :=
  match f.fn.toNat with
  | 0 => accept (false) (false) (.movi f.g f.d (f.a ++ f.b))
  | 1 => accept (false) (false) (.movhi f.g f.d (f.a ++ f.b))
  | 2 => accept (false) (false) (.addi f.g f.d (f.a ++ f.b))
  | _ => .error .reservedFn

/-- Decoding of major 0x0E by its function codes (Table 4-2): li, addi_32, andi_32, ori_32, xori_32. -/
noncomputable def decodeMaj0E (f : WordFields) (x : BitVec 26) : Except DecodeError Instr :=
  match f.fn.toNat with
  | 0 => accept (f.a != 0 || f.b.extractLsb' 6 1 != 0) (false) (.li f.g f.d (f.b.extractLsb' 0 6) x)
  | 1 => accept (f.b.extractLsb' 6 1 != 0) (false) (.addi32 f.g f.d f.a (f.b.extractLsb' 0 6) x)
  | 2 => accept (f.b.extractLsb' 6 1 != 0) (false) (.andi32 f.g f.d f.a (f.b.extractLsb' 0 6) x)
  | 3 => accept (f.b.extractLsb' 6 1 != 0) (false) (.ori32 f.g f.d f.a (f.b.extractLsb' 0 6) x)
  | 4 => accept (f.b.extractLsb' 6 1 != 0) (false) (.xori32 f.g f.d f.a (f.b.extractLsb' 0 6) x)
  | _ => .error .reservedFn

/-- Decoding of major 0x0F by its function codes (Table 4-2): mov, sel, shfl_idx, shfl_up, shfl_dn, shfl_xor, bcast, ballot, match, lscan_add, lred_add, lred_min_i, lred_max_i, lred_min_z, lred_max_z, lred_add_f32. -/
noncomputable def decodeMaj0F (f : WordFields) : Except DecodeError Instr :=
  match f.fn.toNat with
  | 0 => accept (f.b != 0) (false) (.mov f.g f.d f.a)
  | 1 => accept (false) (false) (.sel f.g f.d f.a f.b)
  | 2 => accept (false) (false) (.shflIdx f.g f.d f.a f.b)
  | 3 => accept (false) (false) (.shflUp f.g f.d f.a f.b)
  | 4 => accept (false) (false) (.shflDn f.g f.d f.a f.b)
  | 5 => accept (false) (false) (.shflXor f.g f.d f.a f.b)
  | 6 => accept (false) (false) (.bcast f.g f.d f.a f.b)
  | 7 => accept (f.a.extractLsb' 3 4 != 0 || f.b != 0) (false) (.ballot f.g f.d (f.a.extractLsb' 0 3))
  | 8 => accept (f.b != 0) (false) (.matchLanes f.g f.d f.a)
  | 9 => accept (f.b != 0) (false) (.lscanAdd f.g f.d f.a)
  | 10 => accept (f.b != 0) (false) (.lredAdd f.g f.d f.a)
  | 11 => accept (f.b != 0) (false) (.lredMinI f.g f.d f.a)
  | 12 => accept (f.b != 0) (false) (.lredMaxI f.g f.d f.a)
  | 13 => accept (f.b != 0) (false) (.lredMinZ f.g f.d f.a)
  | 14 => accept (f.b != 0) (false) (.lredMaxZ f.g f.d f.a)
  | 15 => accept (f.b != 0) (false) (.lredAddF32 f.g f.d f.a)
  | _ => .error .reservedFn

/-- Decoding of major 0x10 by its function codes (Table 4-2): pand, por, pxor, pnot, pmov, p2v, v2p, pany, pall. -/
noncomputable def decodeMaj10 (f : WordFields) : Except DecodeError Instr :=
  match f.fn.toNat with
  | 0 => accept (f.d.extractLsb' 3 4 != 0 || f.a.extractLsb' 3 4 != 0 || f.b.extractLsb' 3 4 != 0) (false) (.pand f.g (f.d.extractLsb' 0 3) (f.a.extractLsb' 0 3) (f.b.extractLsb' 0 3))
  | 1 => accept (f.d.extractLsb' 3 4 != 0 || f.a.extractLsb' 3 4 != 0 || f.b.extractLsb' 3 4 != 0) (false) (.por f.g (f.d.extractLsb' 0 3) (f.a.extractLsb' 0 3) (f.b.extractLsb' 0 3))
  | 2 => accept (f.d.extractLsb' 3 4 != 0 || f.a.extractLsb' 3 4 != 0 || f.b.extractLsb' 3 4 != 0) (false) (.pxor f.g (f.d.extractLsb' 0 3) (f.a.extractLsb' 0 3) (f.b.extractLsb' 0 3))
  | 3 => accept (f.d.extractLsb' 3 4 != 0 || f.a.extractLsb' 3 4 != 0 || f.b != 0) (false) (.pnot f.g (f.d.extractLsb' 0 3) (f.a.extractLsb' 0 3))
  | 4 => accept (f.d.extractLsb' 3 4 != 0 || f.a.extractLsb' 3 4 != 0 || f.b != 0) (false) (.pmov f.g (f.d.extractLsb' 0 3) (f.a.extractLsb' 0 3))
  | 5 => accept (f.a.extractLsb' 3 4 != 0 || f.b != 0) (false) (.p2v f.g f.d (f.a.extractLsb' 0 3))
  | 6 => accept (f.d.extractLsb' 3 4 != 0 || f.b != 0) (false) (.v2p f.g (f.d.extractLsb' 0 3) f.a)
  | 7 => accept (f.d.extractLsb' 3 4 != 0 || f.a.extractLsb' 3 4 != 0 || f.b != 0) (false) (.pany f.g (f.d.extractLsb' 0 3) (f.a.extractLsb' 0 3))
  | 8 => accept (f.d.extractLsb' 3 4 != 0 || f.a.extractLsb' 3 4 != 0 || f.b != 0) (false) (.pall f.g (f.d.extractLsb' 0 3) (f.a.extractLsb' 0 3))
  | _ => .error .reservedFn

/-- Decoding of major 0x11 by its function codes (Table 4-2): lea, tagq. -/
noncomputable def decodeMaj11 (f : WordFields) : Except DecodeError Instr :=
  match f.fn.toNat with
  | 0 => accept (false) (f.d.extractLsb' 0 1 != 0 || f.a.extractLsb' 0 1 != 0) (.lea f.g (f.fn.extractLsb' 0 3) (f.d.extractLsb' 1 6) (f.a.extractLsb' 1 6) f.b)
  | 1 => accept (false) (f.d.extractLsb' 0 1 != 0 || f.a.extractLsb' 0 1 != 0) (.lea f.g (f.fn.extractLsb' 0 3) (f.d.extractLsb' 1 6) (f.a.extractLsb' 1 6) f.b)
  | 2 => accept (false) (f.d.extractLsb' 0 1 != 0 || f.a.extractLsb' 0 1 != 0) (.lea f.g (f.fn.extractLsb' 0 3) (f.d.extractLsb' 1 6) (f.a.extractLsb' 1 6) f.b)
  | 3 => accept (false) (f.d.extractLsb' 0 1 != 0 || f.a.extractLsb' 0 1 != 0) (.lea f.g (f.fn.extractLsb' 0 3) (f.d.extractLsb' 1 6) (f.a.extractLsb' 1 6) f.b)
  | 4 => accept (false) (f.d.extractLsb' 0 1 != 0 || f.a.extractLsb' 0 1 != 0) (.lea f.g (f.fn.extractLsb' 0 3) (f.d.extractLsb' 1 6) (f.a.extractLsb' 1 6) f.b)
  | 5 => accept (false) (f.d.extractLsb' 0 1 != 0 || f.a.extractLsb' 0 1 != 0) (.lea f.g (f.fn.extractLsb' 0 3) (f.d.extractLsb' 1 6) (f.a.extractLsb' 1 6) f.b)
  | 6 => accept (false) (f.d.extractLsb' 0 1 != 0 || f.a.extractLsb' 0 1 != 0) (.lea f.g (f.fn.extractLsb' 0 3) (f.d.extractLsb' 1 6) (f.a.extractLsb' 1 6) f.b)
  | 7 => accept (false) (f.d.extractLsb' 0 1 != 0 || f.a.extractLsb' 0 1 != 0) (.lea f.g (f.fn.extractLsb' 0 3) (f.d.extractLsb' 1 6) (f.a.extractLsb' 1 6) f.b)
  | 8 => accept (f.b != 0) (false) (.tagq f.g f.d f.a)
  | _ => .error .reservedFn

/-- Decoding of major 0x12 by its function codes (Table 4-2): srd, swr. -/
noncomputable def decodeMaj12 (f : WordFields) : Except DecodeError Instr :=
  match f.fn.toNat with
  | 0 => accept (false) (false) (.srd f.g f.d (f.a ++ f.b))
  | 1 => accept (false) (false) (.swr f.g f.d (f.a ++ f.b))
  | _ => .error .reservedFn

/-- Decoding of major 0x13 by its function codes (Table 4-2): fadd, fsub, fmul, fma, fms, fnma, fmin, fmax, fminn, fmaxn, fabs, fneg, fcpsgn, frint, ffrac, fsat. -/
noncomputable def decodeMaj13 (f : WordFields) : Except DecodeError Instr :=
  match f.fn.toNat with
  | 0 => accept (false) (false) (.fadd f.g f.d f.a f.b)
  | 1 => accept (false) (false) (.fsub f.g f.d f.a f.b)
  | 2 => accept (false) (false) (.fmul f.g f.d f.a f.b)
  | 3 => accept (false) (false) (.fma f.g f.d f.a f.b)
  | 4 => accept (false) (false) (.fms f.g f.d f.a f.b)
  | 5 => accept (false) (false) (.fnma f.g f.d f.a f.b)
  | 6 => accept (false) (false) (.fmin f.g f.d f.a f.b)
  | 7 => accept (false) (false) (.fmax f.g f.d f.a f.b)
  | 8 => accept (false) (false) (.fminn f.g f.d f.a f.b)
  | 9 => accept (false) (false) (.fmaxn f.g f.d f.a f.b)
  | 10 => accept (f.b != 0) (false) (.fabs f.g f.d f.a)
  | 11 => accept (f.b != 0) (false) (.fneg f.g f.d f.a)
  | 12 => accept (false) (false) (.fcpsgn f.g f.d f.a f.b)
  | 13 => accept (f.b.extractLsb' 3 4 != 0) (false) (.frint f.g f.d f.a (f.b.extractLsb' 0 3))
  | 14 => accept (f.b != 0) (false) (.ffrac f.g f.d f.a)
  | 15 => accept (f.b != 0) (false) (.fsat f.g f.d f.a)
  | _ => .error .reservedFn

/-- Decoding of major 0x14 by its function codes (Table 4-2): fcmp_eq, fcmp_ne, fcmp_lt, fcmp_le, fcmp_gt, fcmp_ge, fcmp_un, fcmp_or, fclass. -/
noncomputable def decodeMaj14 (f : WordFields) : Except DecodeError Instr :=
  match f.fn.toNat with
  | 0 => accept (f.d.extractLsb' 5 2 != 0) (false) (.fcmpEq f.g (f.d.extractLsb' 3 2) (f.d.extractLsb' 0 3) f.a f.b)
  | 1 => accept (f.d.extractLsb' 5 2 != 0) (false) (.fcmpNe f.g (f.d.extractLsb' 3 2) (f.d.extractLsb' 0 3) f.a f.b)
  | 2 => accept (f.d.extractLsb' 5 2 != 0) (false) (.fcmpLt f.g (f.d.extractLsb' 3 2) (f.d.extractLsb' 0 3) f.a f.b)
  | 3 => accept (f.d.extractLsb' 5 2 != 0) (false) (.fcmpLe f.g (f.d.extractLsb' 3 2) (f.d.extractLsb' 0 3) f.a f.b)
  | 4 => accept (f.d.extractLsb' 5 2 != 0) (false) (.fcmpGt f.g (f.d.extractLsb' 3 2) (f.d.extractLsb' 0 3) f.a f.b)
  | 5 => accept (f.d.extractLsb' 5 2 != 0) (false) (.fcmpGe f.g (f.d.extractLsb' 3 2) (f.d.extractLsb' 0 3) f.a f.b)
  | 6 => accept (f.d.extractLsb' 5 2 != 0) (false) (.fcmpUn f.g (f.d.extractLsb' 3 2) (f.d.extractLsb' 0 3) f.a f.b)
  | 7 => accept (f.d.extractLsb' 5 2 != 0) (false) (.fcmpOr f.g (f.d.extractLsb' 3 2) (f.d.extractLsb' 0 3) f.a f.b)
  | 8 => accept (f.b != 0) (false) (.fclass f.g f.d f.a)
  | _ => .error .reservedFn

/-- Decoding of major 0x15 by its function codes (Table 4-2): rcp, rsqrt, sqrt, exp2, log2, sinpi, cospi, tanh, sigm. -/
noncomputable def decodeMaj15 (f : WordFields) : Except DecodeError Instr :=
  match f.fn.toNat with
  | 0 => accept (f.b != 0) (false) (.rcp f.g f.d f.a)
  | 1 => accept (f.b != 0) (false) (.rsqrt f.g f.d f.a)
  | 2 => accept (f.b != 0) (false) (.sqrt f.g f.d f.a)
  | 3 => accept (f.b != 0) (false) (.exp2 f.g f.d f.a)
  | 4 => accept (f.b != 0) (false) (.log2 f.g f.d f.a)
  | 5 => accept (f.b != 0) (false) (.sinpi f.g f.d f.a)
  | 6 => accept (f.b != 0) (false) (.cospi f.g f.d f.a)
  | 7 => accept (f.b != 0) (false) (.tanh f.g f.d f.a)
  | 8 => accept (f.b != 0) (false) (.sigm f.g f.d f.a)
  | _ => .error .reservedFn

/-- Decoding of major 0x16 by its function codes (Table 4-2): hadd2_f16, hsub2_f16, hmul2_f16, hfma2_f16, hmin2_f16, hmax2_f16, hadd2_bf16, hsub2_bf16, hmul2_bf16, hfma2_bf16, hmin2_bf16, hmax2_bf16. -/
noncomputable def decodeMaj16 (f : WordFields) : Except DecodeError Instr :=
  match f.fn.toNat with
  | 0 => accept (false) (false) (.hadd2F16 f.g f.d f.a f.b)
  | 1 => accept (false) (false) (.hsub2F16 f.g f.d f.a f.b)
  | 2 => accept (false) (false) (.hmul2F16 f.g f.d f.a f.b)
  | 3 => accept (false) (false) (.hfma2F16 f.g f.d f.a f.b)
  | 4 => accept (false) (false) (.hmin2F16 f.g f.d f.a f.b)
  | 5 => accept (false) (false) (.hmax2F16 f.g f.d f.a f.b)
  | 8 => accept (false) (false) (.hadd2Bf16 f.g f.d f.a f.b)
  | 9 => accept (false) (false) (.hsub2Bf16 f.g f.d f.a f.b)
  | 10 => accept (false) (false) (.hmul2Bf16 f.g f.d f.a f.b)
  | 11 => accept (false) (false) (.hfma2Bf16 f.g f.d f.a f.b)
  | 12 => accept (false) (false) (.hmin2Bf16 f.g f.d f.a f.b)
  | 13 => accept (false) (false) (.hmax2Bf16 f.g f.d f.a f.b)
  | _ => .error .reservedFn

/-- Decoding of major 0x17 by its function codes (Table 4-2): cvt. -/
noncomputable def decodeMaj17 (f : WordFields) : Except DecodeError Instr :=
  match f.fn.toNat with
  | 0 => accept (false) (false) (.cvt f.g f.fn f.d f.a (f.b.extractLsb' 3 4) (f.b.extractLsb' 0 3))
  | 1 => accept (false) (false) (.cvt f.g f.fn f.d f.a (f.b.extractLsb' 3 4) (f.b.extractLsb' 0 3))
  | 2 => accept (false) (false) (.cvt f.g f.fn f.d f.a (f.b.extractLsb' 3 4) (f.b.extractLsb' 0 3))
  | 3 => accept (false) (false) (.cvt f.g f.fn f.d f.a (f.b.extractLsb' 3 4) (f.b.extractLsb' 0 3))
  | 4 => accept (false) (false) (.cvt f.g f.fn f.d f.a (f.b.extractLsb' 3 4) (f.b.extractLsb' 0 3))
  | 5 => accept (false) (false) (.cvt f.g f.fn f.d f.a (f.b.extractLsb' 3 4) (f.b.extractLsb' 0 3))
  | 6 => accept (false) (false) (.cvt f.g f.fn f.d f.a (f.b.extractLsb' 3 4) (f.b.extractLsb' 0 3))
  | 7 => accept (false) (false) (.cvt f.g f.fn f.d f.a (f.b.extractLsb' 3 4) (f.b.extractLsb' 0 3))
  | 8 => accept (false) (false) (.cvt f.g f.fn f.d f.a (f.b.extractLsb' 3 4) (f.b.extractLsb' 0 3))
  | 9 => accept (false) (false) (.cvt f.g f.fn f.d f.a (f.b.extractLsb' 3 4) (f.b.extractLsb' 0 3))
  | 10 => accept (false) (false) (.cvt f.g f.fn f.d f.a (f.b.extractLsb' 3 4) (f.b.extractLsb' 0 3))
  | 11 => accept (false) (false) (.cvt f.g f.fn f.d f.a (f.b.extractLsb' 3 4) (f.b.extractLsb' 0 3))
  | 12 => accept (false) (false) (.cvt f.g f.fn f.d f.a (f.b.extractLsb' 3 4) (f.b.extractLsb' 0 3))
  | _ => .error .reservedFn

/-- Decoding of major 0x18 by its function codes (Table 4-2): fmt_set, fmt_get, sbexp, sbq, sbdq, mxexp, mxq, mxdq, pack, unpack, uexp. -/
noncomputable def decodeMaj18 (f : WordFields) : Except DecodeError Instr :=
  match f.fn.toNat with
  | 0 => accept (f.d.extractLsb' 3 4 != 0 || f.a != 0) (false) (.fmtSet f.g (f.d.extractLsb' 0 3) f.b)
  | 1 => accept (f.a != 0 || f.b.extractLsb' 3 4 != 0) (false) (.fmtGet f.g f.d (f.b.extractLsb' 0 3))
  | 2 => accept (f.a.extractLsb' 0 4 != 0 || f.b != 0) (false) (.sbexp f.g f.d (f.a.extractLsb' 4 3))
  | 3 => accept (f.a.extractLsb' 2 2 != 0) (false) (.sbq f.g f.d (f.a.extractLsb' 4 3) (f.a.extractLsb' 0 2) f.b)
  | 4 => accept (f.d.extractLsb' 2 2 != 0) (false) (.sbdq f.g (f.d.extractLsb' 4 3) (f.d.extractLsb' 0 2) f.a f.b)
  | 5 => accept (f.b.extractLsb' 4 3 != 0) (f.a.extractLsb' 0 1 != 0) (.mxexp f.g f.d (f.a.extractLsb' 1 6) (f.b.extractLsb' 0 4))
  | 6 => accept (false) (f.a.extractLsb' 0 1 != 0) (.mxq f.g f.d (f.a.extractLsb' 1 6) f.b)
  | 7 => accept (false) (f.d.extractLsb' 0 1 != 0) (.mxdq f.g (f.d.extractLsb' 1 6) f.a f.b)
  | 8 => accept (f.b.extractLsb' 4 3 != 0) (false) (.pack f.g f.d f.a (f.b.extractLsb' 0 4))
  | 9 => accept (f.b.extractLsb' 4 3 != 0) (false) (.unpack f.g f.d f.a (f.b.extractLsb' 0 4))
  | 10 => accept (f.a.extractLsb' 2 2 != 0 || f.b != 0) (false) (.uexp f.g f.d (f.a.extractLsb' 4 3) (f.a.extractLsb' 0 2))
  | _ => .error .reservedFn

/-- Decoding of major 0x19 by its function codes (Table 4-2): tshape, tzero, tinfo, tfill, tfree, tmask, tmask_clr. -/
noncomputable def decodeMaj19 (f : WordFields) : Except DecodeError Instr :=
  match f.fn.toNat with
  | 0 => accept (f.d.extractLsb' 6 1 != 0 || f.b != 0) (false) (.tshape f.g (f.d.extractLsb' 0 6) f.a)
  | 1 => accept (f.d.extractLsb' 6 1 != 0 || f.a != 0 || f.b != 0) (false) (.tzero f.g (f.d.extractLsb' 0 6))
  | 2 => accept (f.a.extractLsb' 6 1 != 0 || f.b != 0) (f.d.extractLsb' 0 1 != 0) (.tinfo f.g (f.d.extractLsb' 1 6) (f.a.extractLsb' 0 6))
  | 3 => accept (f.d.extractLsb' 6 1 != 0 || f.b != 0) (false) (.tfill f.g (f.d.extractLsb' 0 6) f.a)
  | 4 => accept (f.d.extractLsb' 6 1 != 0 || f.a != 0 || f.b != 0) (false) (.tfree f.g (f.d.extractLsb' 0 6))
  | 5 =>
      if f.b == 1 then accept (f.d.extractLsb' 6 1 != 0 || f.a != 0) (false) (.tmaskClr f.g (f.d.extractLsb' 0 6))
      else accept (f.d.extractLsb' 6 1 != 0 || f.b != 0) (false) (.tmask f.g (f.d.extractLsb' 0 6) f.a)
  | _ => .error .reservedFn

/-- Decoding of major 0x1A by its function codes (Table 4-2): mma, mma_z, mmi, mmi_z. -/
noncomputable def decodeMaj1A (f : WordFields) : Except DecodeError Instr :=
  match f.fn.toNat with
  | 0 => accept (f.d.extractLsb' 6 1 != 0) (false) (.mma f.g (f.d.extractLsb' 0 6) (f.a.extractLsb' 6 1) (f.a.extractLsb' 0 6) (f.b.extractLsb' 6 1) (f.b.extractLsb' 0 6))
  | 1 => accept (f.d.extractLsb' 6 1 != 0) (false) (.mmaZ f.g (f.d.extractLsb' 0 6) (f.a.extractLsb' 6 1) (f.a.extractLsb' 0 6) (f.b.extractLsb' 6 1) (f.b.extractLsb' 0 6))
  | 2 => accept (f.d.extractLsb' 6 1 != 0) (false) (.mmi f.g (f.d.extractLsb' 0 6) (f.a.extractLsb' 6 1) (f.a.extractLsb' 0 6) (f.b.extractLsb' 6 1) (f.b.extractLsb' 0 6))
  | 3 => accept (f.d.extractLsb' 6 1 != 0) (false) (.mmiZ f.g (f.d.extractLsb' 0 6) (f.a.extractLsb' 6 1) (f.a.extractLsb' 0 6) (f.b.extractLsb' 6 1) (f.b.extractLsb' 0 6))
  | _ => .error .reservedFn

/-- Decoding of major 0x1B by its function codes (Table 4-2): mmas, mmas_z, mmis, mmis_z. -/
noncomputable def decodeMaj1B (f : WordFields) (x : BitVec 26) : Except DecodeError Instr :=
  match f.fn.toNat with
  | 0 => accept (f.d.extractLsb' 6 1 != 0 || x.extractLsb' 7 19 != 0) (false) (.mmas f.g (f.d.extractLsb' 0 6) (f.a.extractLsb' 6 1) (f.a.extractLsb' 0 6) (f.b.extractLsb' 6 1) (f.b.extractLsb' 0 6) (x.extractLsb' 6 1) (x.extractLsb' 0 6))
  | 1 => accept (f.d.extractLsb' 6 1 != 0 || x.extractLsb' 7 19 != 0) (false) (.mmasZ f.g (f.d.extractLsb' 0 6) (f.a.extractLsb' 6 1) (f.a.extractLsb' 0 6) (f.b.extractLsb' 6 1) (f.b.extractLsb' 0 6) (x.extractLsb' 6 1) (x.extractLsb' 0 6))
  | 2 => accept (f.d.extractLsb' 6 1 != 0 || x.extractLsb' 7 19 != 0) (false) (.mmis f.g (f.d.extractLsb' 0 6) (f.a.extractLsb' 6 1) (f.a.extractLsb' 0 6) (f.b.extractLsb' 6 1) (f.b.extractLsb' 0 6) (x.extractLsb' 6 1) (x.extractLsb' 0 6))
  | 3 => accept (f.d.extractLsb' 6 1 != 0 || x.extractLsb' 7 19 != 0) (false) (.mmisZ f.g (f.d.extractLsb' 0 6) (f.a.extractLsb' 6 1) (f.a.extractLsb' 0 6) (f.b.extractLsb' 6 1) (f.b.extractLsb' 0 6) (x.extractLsb' 6 1) (x.extractLsb' 0 6))
  | _ => .error .reservedFn

/-- Decoding of major 0x1C by its function codes (Table 4-2): trow, twrow, tcol, twcol, tlds, tsts, tldg, tstg. -/
noncomputable def decodeMaj1C (f : WordFields) : Except DecodeError Instr :=
  match f.fn.toNat with
  | 0 => accept (f.a.extractLsb' 6 1 != 0) (false) (.trow f.g f.d (f.a.extractLsb' 0 6) f.b)
  | 1 => accept (f.d.extractLsb' 6 1 != 0) (false) (.twrow f.g (f.d.extractLsb' 0 6) f.a f.b)
  | 2 => accept (f.a.extractLsb' 6 1 != 0) (false) (.tcol f.g f.d (f.a.extractLsb' 0 6) f.b)
  | 3 => accept (f.d.extractLsb' 6 1 != 0) (false) (.twcol f.g (f.d.extractLsb' 0 6) f.a f.b)
  | 4 => accept (f.d.extractLsb' 6 1 != 0) (false) (.tlds f.g (f.d.extractLsb' 0 6) f.a f.b)
  | 5 => accept (f.d.extractLsb' 6 1 != 0) (false) (.tsts f.g (f.d.extractLsb' 0 6) f.a f.b)
  | 6 => accept (f.d.extractLsb' 6 1 != 0) (f.a.extractLsb' 0 1 != 0) (.tldg f.g (f.d.extractLsb' 0 6) (f.a.extractLsb' 1 6) f.b)
  | 7 => accept (f.d.extractLsb' 6 1 != 0) (f.a.extractLsb' 0 1 != 0) (.tstg f.g (f.d.extractLsb' 0 6) (f.a.extractLsb' 1 6) f.b)
  | _ => .error .reservedFn

/-- Decoding of major 0x1D by its function codes (Table 4-2): mbclose, mbstat. -/
noncomputable def decodeMaj1D (f : WordFields) : Except DecodeError Instr :=
  match f.fn.toNat with
  | 0 => accept (f.a != 0 || f.b != 0) (false) (.mbclose f.g f.d)
  | 1 => accept (f.a != 0 || f.b != 0) (false) (.mbstat f.g f.d)
  | _ => .error .reservedFn

/-- Decoding of major 0x1E by its function codes (Table 4-2): ld_i8, ld_z8, ld_i16, ld_z16, ld_32, ld_64, ld_128, ld_b. -/
noncomputable def decodeMaj1E (f : WordFields) : Except DecodeError Instr :=
  match f.fn.toNat with
  | 0 => accept (false) (f.a.extractLsb' 0 1 != 0) (.ldI8 f.g f.d (f.a.extractLsb' 1 6) f.b)
  | 1 => accept (false) (f.a.extractLsb' 0 1 != 0) (.ldZ8 f.g f.d (f.a.extractLsb' 1 6) f.b)
  | 2 => accept (false) (f.a.extractLsb' 0 1 != 0) (.ldI16 f.g f.d (f.a.extractLsb' 1 6) f.b)
  | 3 => accept (false) (f.a.extractLsb' 0 1 != 0) (.ldZ16 f.g f.d (f.a.extractLsb' 1 6) f.b)
  | 4 => accept (false) (f.a.extractLsb' 0 1 != 0) (.ld32 f.g f.d (f.a.extractLsb' 1 6) f.b)
  | 5 => accept (false) (f.d.extractLsb' 0 1 != 0 || f.a.extractLsb' 0 1 != 0) (.ld64 f.g (f.d.extractLsb' 1 6) (f.a.extractLsb' 1 6) f.b)
  | 6 => accept (false) (f.d.extractLsb' 0 2 != 0 || f.a.extractLsb' 0 1 != 0) (.ld128 f.g (f.d.extractLsb' 2 5) (f.a.extractLsb' 1 6) f.b)
  | 7 => accept (false) (f.a.extractLsb' 0 1 != 0) (.ldB f.g f.d (f.a.extractLsb' 1 6) f.b)
  | _ => .error .reservedFn

/-- Decoding of major 0x1F by its function codes (Table 4-2): st_8, st_16, st_32, st_64, st_128, st_n4, st_n2. -/
noncomputable def decodeMaj1F (f : WordFields) : Except DecodeError Instr :=
  match f.fn.toNat with
  | 0 => accept (false) (f.a.extractLsb' 0 1 != 0) (.st8 f.g f.d (f.a.extractLsb' 1 6) f.b)
  | 1 => accept (false) (f.a.extractLsb' 0 1 != 0) (.st16 f.g f.d (f.a.extractLsb' 1 6) f.b)
  | 2 => accept (false) (f.a.extractLsb' 0 1 != 0) (.st32 f.g f.d (f.a.extractLsb' 1 6) f.b)
  | 3 => accept (false) (f.d.extractLsb' 0 1 != 0 || f.a.extractLsb' 0 1 != 0) (.st64 f.g (f.d.extractLsb' 1 6) (f.a.extractLsb' 1 6) f.b)
  | 4 => accept (false) (f.d.extractLsb' 0 2 != 0 || f.a.extractLsb' 0 1 != 0) (.st128 f.g (f.d.extractLsb' 2 5) (f.a.extractLsb' 1 6) f.b)
  | 5 => accept (false) (f.a.extractLsb' 0 1 != 0) (.stN4 f.g f.d (f.a.extractLsb' 1 6) f.b)
  | 6 => accept (false) (f.a.extractLsb' 0 1 != 0) (.stN2 f.g f.d (f.a.extractLsb' 1 6) f.b)
  | _ => .error .reservedFn

/-- Decoding of major 0x20 by its function codes (Table 4-2): lds_i8, lds_z8, lds_i16, lds_z16, lds_32, lds_64, lds_128, lds_b. -/
noncomputable def decodeMaj20 (f : WordFields) : Except DecodeError Instr :=
  match f.fn.toNat with
  | 0 => accept (false) (false) (.ldsI8 f.g f.d f.a f.b)
  | 1 => accept (false) (false) (.ldsZ8 f.g f.d f.a f.b)
  | 2 => accept (false) (false) (.ldsI16 f.g f.d f.a f.b)
  | 3 => accept (false) (false) (.ldsZ16 f.g f.d f.a f.b)
  | 4 => accept (false) (false) (.lds32 f.g f.d f.a f.b)
  | 5 => accept (false) (f.d.extractLsb' 0 1 != 0) (.lds64 f.g (f.d.extractLsb' 1 6) f.a f.b)
  | 6 => accept (false) (f.d.extractLsb' 0 2 != 0) (.lds128 f.g (f.d.extractLsb' 2 5) f.a f.b)
  | 7 => accept (false) (false) (.ldsB f.g f.d f.a f.b)
  | _ => .error .reservedFn

/-- Decoding of major 0x21 by its function codes (Table 4-2): sts_8, sts_16, sts_32, sts_64, sts_128, sts_n4, sts_n2. -/
noncomputable def decodeMaj21 (f : WordFields) : Except DecodeError Instr :=
  match f.fn.toNat with
  | 0 => accept (false) (false) (.sts8 f.g f.d f.a f.b)
  | 1 => accept (false) (false) (.sts16 f.g f.d f.a f.b)
  | 2 => accept (false) (false) (.sts32 f.g f.d f.a f.b)
  | 3 => accept (false) (f.d.extractLsb' 0 1 != 0) (.sts64 f.g (f.d.extractLsb' 1 6) f.a f.b)
  | 4 => accept (false) (f.d.extractLsb' 0 2 != 0) (.sts128 f.g (f.d.extractLsb' 2 5) f.a f.b)
  | 5 => accept (false) (false) (.stsN4 f.g f.d f.a f.b)
  | 6 => accept (false) (false) (.stsN2 f.g f.d f.a f.b)
  | _ => .error .reservedFn

/-- Decoding of major 0x22 by its function codes (Table 4-2): ldx, stx, ldsx, stsx. -/
noncomputable def decodeMaj22 (f : WordFields) (x : BitVec 26) : Except DecodeError Instr :=
  match f.fn.toNat with
  | 0 => accept (x.extractLsb' 24 2 != 0) (f.a.extractLsb' 0 1 != 0) (.ldx f.g f.d (f.a.extractLsb' 1 6) (f.b.extractLsb' 5 2) (f.b.extractLsb' 3 2) (f.b.extractLsb' 0 3) (x.extractLsb' 0 24))
  | 1 => accept (x.extractLsb' 24 2 != 0) (f.a.extractLsb' 0 1 != 0) (.stx f.g f.d (f.a.extractLsb' 1 6) (f.b.extractLsb' 5 2) (f.b.extractLsb' 3 2) (f.b.extractLsb' 0 3) (x.extractLsb' 0 24))
  | 2 => accept (f.b.extractLsb' 3 4 != 0 || x.extractLsb' 24 2 != 0) (false) (.ldsx f.g f.d f.a (f.b.extractLsb' 0 3) (x.extractLsb' 0 24))
  | 3 => accept (f.b.extractLsb' 3 4 != 0 || x.extractLsb' 24 2 != 0) (false) (.stsx f.g f.d f.a (f.b.extractLsb' 0 3) (x.extractLsb' 0 24))
  | _ => .error .reservedFn

/-- Decoding of major 0x23 by its function codes (Table 4-2): ld_acq_32, ld_acq_64, st_rel_32, st_rel_64, fence_acq, fence_rel, fence_ar, fence_sc. -/
noncomputable def decodeMaj23 (f : WordFields) : Except DecodeError Instr :=
  match f.fn.toNat with
  | 0 => accept (f.b.extractLsb' 0 5 != 0) (f.a.extractLsb' 0 1 != 0) (.ldAcq32 f.g f.d (f.a.extractLsb' 1 6) (f.b.extractLsb' 5 2))
  | 1 => accept (f.b.extractLsb' 0 5 != 0) (f.d.extractLsb' 0 1 != 0 || f.a.extractLsb' 0 1 != 0) (.ldAcq64 f.g (f.d.extractLsb' 1 6) (f.a.extractLsb' 1 6) (f.b.extractLsb' 5 2))
  | 2 => accept (f.b.extractLsb' 0 5 != 0) (f.a.extractLsb' 0 1 != 0) (.stRel32 f.g f.d (f.a.extractLsb' 1 6) (f.b.extractLsb' 5 2))
  | 3 => accept (f.b.extractLsb' 0 5 != 0) (f.d.extractLsb' 0 1 != 0 || f.a.extractLsb' 0 1 != 0) (.stRel64 f.g (f.d.extractLsb' 1 6) (f.a.extractLsb' 1 6) (f.b.extractLsb' 5 2))
  | 4 => accept (f.d != 0 || f.a != 0 || f.b.extractLsb' 0 5 != 0) (false) (.fenceAcq f.g (f.b.extractLsb' 5 2))
  | 5 => accept (f.d != 0 || f.a != 0 || f.b.extractLsb' 0 5 != 0) (false) (.fenceRel f.g (f.b.extractLsb' 5 2))
  | 6 => accept (f.d != 0 || f.a != 0 || f.b.extractLsb' 0 5 != 0) (false) (.fenceAr f.g (f.b.extractLsb' 5 2))
  | 7 => accept (f.d != 0 || f.a != 0 || f.b.extractLsb' 0 5 != 0) (false) (.fenceSc f.g (f.b.extractLsb' 5 2))
  | _ => .error .reservedFn

/-- Decoding of major 0x24 by its function codes (Table 4-2): pf, pf2, icinv, l1inv, l1inv_all, evict, l2part. -/
noncomputable def decodeMaj24 (f : WordFields) : Except DecodeError Instr :=
  match f.fn.toNat with
  | 0 => accept (f.d != 0) (f.a.extractLsb' 0 1 != 0) (.pf f.g (f.a.extractLsb' 1 6) f.b)
  | 1 => accept (f.d != 0) (f.a.extractLsb' 0 1 != 0) (.pf2 f.g (f.a.extractLsb' 1 6) f.b)
  | 2 => accept (f.d != 0 || f.b.extractLsb' 0 5 != 0) (f.a.extractLsb' 0 1 != 0) (.icinv f.g (f.a.extractLsb' 1 6) (f.b.extractLsb' 5 2))
  | 3 =>
      if f.b == 1 then accept (f.d != 0 || f.a != 0) (false) (.l1invAll f.g)
      else accept (f.d != 0 || f.b != 0) (f.a.extractLsb' 0 1 != 0) (.l1inv f.g (f.a.extractLsb' 1 6))
  | 4 => accept (f.d != 0 || f.b != 0) (f.a.extractLsb' 0 1 != 0) (.evict f.g (f.a.extractLsb' 1 6))
  | 5 => accept (f.b != 0) (false) (.l2part f.g f.d f.a)
  | _ => .error .reservedFn

/-- Decoding of major 0x25 by its function codes (Table 4-2): wpath, wbatch, wfut, wany, fpoll, wtree. -/
noncomputable def decodeMaj25 (f : WordFields) : Except DecodeError Instr :=
  match f.fn.toNat with
  | 0 => accept (f.d != 0 || f.b.extractLsb' 2 5 != 0) (false) (.wpath f.g f.a (f.b.extractLsb' 0 2))
  | 1 => accept (f.d != 0 || f.b != 0) (false) (.wbatch f.g f.a)
  | 2 => accept (f.a != 0 || f.b.extractLsb' 5 2 != 0) (false) (.wfut f.g f.d (f.b.extractLsb' 0 5))
  | 3 => accept (f.b != 0) (false) (.wany f.g f.d f.a)
  | 4 => accept (f.a != 0 || f.b.extractLsb' 5 2 != 0) (false) (.fpoll f.g f.d (f.b.extractLsb' 0 5))
  | 5 => accept (f.b != 0) (false) (.wtree f.g f.d f.a)
  | _ => .error .reservedFn

/-- Decoding of major 0x26 by its function codes (Table 4-2): rclk, rtick, rmode, rnext, rclr. -/
noncomputable def decodeMaj26 (f : WordFields) : Except DecodeError Instr :=
  match f.fn.toNat with
  | 0 => accept (f.a != 0 || f.b != 0) (false) (.rclk f.g f.d)
  | 1 => accept (f.d != 0 || f.a != 0 || f.b != 0) (false) (.rtick f.g)
  | 2 => accept (f.d != 0 || f.a != 0 || f.b.extractLsb' 2 5 != 0) (false) (.rmode f.g (f.b.extractLsb' 0 2))
  | 3 => accept (f.a != 0 || f.b != 0) (false) (.rnext f.g f.d)
  | 4 => accept (f.d != 0) (f.a.extractLsb' 0 1 != 0) (.rclr f.g (f.a.extractLsb' 1 6) f.b)
  | _ => .error .reservedFn

/-- Decoding of major 0x27 by its function codes (Table 4-2): aadd, aadd_f32, aadd_bf16x2, aadd_f16x2, amin_i, amax_i, amin_z, amax_z, aand, aor, axor, axch, ainc, adec, amin_f32, amax_f32. -/
noncomputable def decodeMaj27 (f : WordFields) : Except DecodeError Instr :=
  match f.fn.toNat with
  | 0 => accept (f.b.extractLsb' 4 3 != 0) (f.a.extractLsb' 0 1 != 0) (.aadd f.g f.d (f.a.extractLsb' 1 6) (f.b.extractLsb' 2 2) (f.b.extractLsb' 0 2))
  | 1 => accept (f.b.extractLsb' 4 3 != 0) (f.a.extractLsb' 0 1 != 0) (.aaddF32 f.g f.d (f.a.extractLsb' 1 6) (f.b.extractLsb' 2 2) (f.b.extractLsb' 0 2))
  | 2 => accept (f.b.extractLsb' 4 3 != 0) (f.a.extractLsb' 0 1 != 0) (.aaddBf16x2 f.g f.d (f.a.extractLsb' 1 6) (f.b.extractLsb' 2 2) (f.b.extractLsb' 0 2))
  | 3 => accept (f.b.extractLsb' 4 3 != 0) (f.a.extractLsb' 0 1 != 0) (.aaddF16x2 f.g f.d (f.a.extractLsb' 1 6) (f.b.extractLsb' 2 2) (f.b.extractLsb' 0 2))
  | 4 => accept (f.b.extractLsb' 4 3 != 0) (f.a.extractLsb' 0 1 != 0) (.aminI f.g f.d (f.a.extractLsb' 1 6) (f.b.extractLsb' 2 2) (f.b.extractLsb' 0 2))
  | 5 => accept (f.b.extractLsb' 4 3 != 0) (f.a.extractLsb' 0 1 != 0) (.amaxI f.g f.d (f.a.extractLsb' 1 6) (f.b.extractLsb' 2 2) (f.b.extractLsb' 0 2))
  | 6 => accept (f.b.extractLsb' 4 3 != 0) (f.a.extractLsb' 0 1 != 0) (.aminZ f.g f.d (f.a.extractLsb' 1 6) (f.b.extractLsb' 2 2) (f.b.extractLsb' 0 2))
  | 7 => accept (f.b.extractLsb' 4 3 != 0) (f.a.extractLsb' 0 1 != 0) (.amaxZ f.g f.d (f.a.extractLsb' 1 6) (f.b.extractLsb' 2 2) (f.b.extractLsb' 0 2))
  | 8 => accept (f.b.extractLsb' 4 3 != 0) (f.a.extractLsb' 0 1 != 0) (.aand f.g f.d (f.a.extractLsb' 1 6) (f.b.extractLsb' 2 2) (f.b.extractLsb' 0 2))
  | 9 => accept (f.b.extractLsb' 4 3 != 0) (f.a.extractLsb' 0 1 != 0) (.aor f.g f.d (f.a.extractLsb' 1 6) (f.b.extractLsb' 2 2) (f.b.extractLsb' 0 2))
  | 10 => accept (f.b.extractLsb' 4 3 != 0) (f.a.extractLsb' 0 1 != 0) (.axor f.g f.d (f.a.extractLsb' 1 6) (f.b.extractLsb' 2 2) (f.b.extractLsb' 0 2))
  | 11 => accept (f.b.extractLsb' 4 3 != 0) (f.a.extractLsb' 0 1 != 0) (.axch f.g f.d (f.a.extractLsb' 1 6) (f.b.extractLsb' 2 2) (f.b.extractLsb' 0 2))
  | 12 => accept (f.b.extractLsb' 4 3 != 0) (f.a.extractLsb' 0 1 != 0) (.ainc f.g f.d (f.a.extractLsb' 1 6) (f.b.extractLsb' 2 2) (f.b.extractLsb' 0 2))
  | 13 => accept (f.b.extractLsb' 4 3 != 0) (f.a.extractLsb' 0 1 != 0) (.adec f.g f.d (f.a.extractLsb' 1 6) (f.b.extractLsb' 2 2) (f.b.extractLsb' 0 2))
  | 14 => accept (f.b.extractLsb' 4 3 != 0) (f.a.extractLsb' 0 1 != 0) (.aminF32 f.g f.d (f.a.extractLsb' 1 6) (f.b.extractLsb' 2 2) (f.b.extractLsb' 0 2))
  | 15 => accept (f.b.extractLsb' 4 3 != 0) (f.a.extractLsb' 0 1 != 0) (.amaxF32 f.g f.d (f.a.extractLsb' 1 6) (f.b.extractLsb' 2 2) (f.b.extractLsb' 0 2))
  | _ => .error .reservedFn

/-- Decoding of major 0x28 by its function codes (Table 4-2): aadd_64, amin_i_64, amax_i_64, amin_z_64, amax_z_64, axch_64, acas, acas_64, acas_128, amaxp. -/
noncomputable def decodeMaj28 (f : WordFields) (x : BitVec 26) : Except DecodeError Instr :=
  match f.fn.toNat with
  | 0 => accept (f.b.extractLsb' 4 3 != 0 || x.extractLsb' 8 18 != 0 || x.extractLsb' 0 7 != 0) (f.d.extractLsb' 0 1 != 0) (.aadd64 f.g (f.d.extractLsb' 1 6) f.a (f.b.extractLsb' 2 2) (f.b.extractLsb' 0 2) (x.extractLsb' 7 1))
  | 1 => accept (f.b.extractLsb' 4 3 != 0 || x.extractLsb' 8 18 != 0 || x.extractLsb' 0 7 != 0) (f.d.extractLsb' 0 1 != 0) (.aminI64 f.g (f.d.extractLsb' 1 6) f.a (f.b.extractLsb' 2 2) (f.b.extractLsb' 0 2) (x.extractLsb' 7 1))
  | 2 => accept (f.b.extractLsb' 4 3 != 0 || x.extractLsb' 8 18 != 0 || x.extractLsb' 0 7 != 0) (f.d.extractLsb' 0 1 != 0) (.amaxI64 f.g (f.d.extractLsb' 1 6) f.a (f.b.extractLsb' 2 2) (f.b.extractLsb' 0 2) (x.extractLsb' 7 1))
  | 3 => accept (f.b.extractLsb' 4 3 != 0 || x.extractLsb' 8 18 != 0 || x.extractLsb' 0 7 != 0) (f.d.extractLsb' 0 1 != 0) (.aminZ64 f.g (f.d.extractLsb' 1 6) f.a (f.b.extractLsb' 2 2) (f.b.extractLsb' 0 2) (x.extractLsb' 7 1))
  | 4 => accept (f.b.extractLsb' 4 3 != 0 || x.extractLsb' 8 18 != 0 || x.extractLsb' 0 7 != 0) (f.d.extractLsb' 0 1 != 0) (.amaxZ64 f.g (f.d.extractLsb' 1 6) f.a (f.b.extractLsb' 2 2) (f.b.extractLsb' 0 2) (x.extractLsb' 7 1))
  | 5 => accept (f.b.extractLsb' 4 3 != 0 || x.extractLsb' 8 18 != 0 || x.extractLsb' 0 7 != 0) (f.d.extractLsb' 0 1 != 0) (.axch64 f.g (f.d.extractLsb' 1 6) f.a (f.b.extractLsb' 2 2) (f.b.extractLsb' 0 2) (x.extractLsb' 7 1))
  | 6 => accept (f.b.extractLsb' 4 3 != 0 || x.extractLsb' 8 18 != 0) (false) (.acas f.g f.d f.a (f.b.extractLsb' 2 2) (f.b.extractLsb' 0 2) (x.extractLsb' 7 1) (x.extractLsb' 0 7))
  | 7 => accept (f.b.extractLsb' 4 3 != 0 || x.extractLsb' 8 18 != 0) (f.d.extractLsb' 0 1 != 0 || x.extractLsb' 0 1 != 0) (.acas64 f.g (f.d.extractLsb' 1 6) f.a (f.b.extractLsb' 2 2) (f.b.extractLsb' 0 2) (x.extractLsb' 7 1) (x.extractLsb' 1 6))
  | 8 => accept (f.b.extractLsb' 4 3 != 0 || x.extractLsb' 8 18 != 0) (f.d.extractLsb' 0 2 != 0 || x.extractLsb' 0 2 != 0) (.acas128 f.g (f.d.extractLsb' 2 5) f.a (f.b.extractLsb' 2 2) (f.b.extractLsb' 0 2) (x.extractLsb' 7 1) (x.extractLsb' 2 5))
  | 9 => accept (f.b.extractLsb' 4 3 != 0 || x.extractLsb' 8 18 != 0 || x.extractLsb' 0 7 != 0) (f.d.extractLsb' 0 2 != 0) (.amaxp f.g (f.d.extractLsb' 2 5) f.a (f.b.extractLsb' 2 2) (f.b.extractLsb' 0 2) (x.extractLsb' 7 1))
  | _ => .error .reservedFn

/-- Decoding of major 0x29 by its function codes (Table 4-2): red_add, red_add_f32, red_add_bf16x2, red_add_f16x2, red_min_i, red_max_i, red_min_z, red_max_z, red_and, red_or, red_xor, red_add_64, red_min_f32, red_max_f32. -/
noncomputable def decodeMaj29 (f : WordFields) : Except DecodeError Instr :=
  match f.fn.toNat with
  | 0 => accept (f.b.extractLsb' 4 3 != 0 || f.b.extractLsb' 2 1 != 0) (f.a.extractLsb' 0 1 != 0) (.redAdd f.g f.d (f.a.extractLsb' 1 6) (f.b.extractLsb' 3 1) (f.b.extractLsb' 0 2))
  | 1 => accept (f.b.extractLsb' 4 3 != 0 || f.b.extractLsb' 2 1 != 0) (f.a.extractLsb' 0 1 != 0) (.redAddF32 f.g f.d (f.a.extractLsb' 1 6) (f.b.extractLsb' 3 1) (f.b.extractLsb' 0 2))
  | 2 => accept (f.b.extractLsb' 4 3 != 0 || f.b.extractLsb' 2 1 != 0) (f.a.extractLsb' 0 1 != 0) (.redAddBf16x2 f.g f.d (f.a.extractLsb' 1 6) (f.b.extractLsb' 3 1) (f.b.extractLsb' 0 2))
  | 3 => accept (f.b.extractLsb' 4 3 != 0 || f.b.extractLsb' 2 1 != 0) (f.a.extractLsb' 0 1 != 0) (.redAddF16x2 f.g f.d (f.a.extractLsb' 1 6) (f.b.extractLsb' 3 1) (f.b.extractLsb' 0 2))
  | 4 => accept (f.b.extractLsb' 4 3 != 0 || f.b.extractLsb' 2 1 != 0) (f.a.extractLsb' 0 1 != 0) (.redMinI f.g f.d (f.a.extractLsb' 1 6) (f.b.extractLsb' 3 1) (f.b.extractLsb' 0 2))
  | 5 => accept (f.b.extractLsb' 4 3 != 0 || f.b.extractLsb' 2 1 != 0) (f.a.extractLsb' 0 1 != 0) (.redMaxI f.g f.d (f.a.extractLsb' 1 6) (f.b.extractLsb' 3 1) (f.b.extractLsb' 0 2))
  | 6 => accept (f.b.extractLsb' 4 3 != 0 || f.b.extractLsb' 2 1 != 0) (f.a.extractLsb' 0 1 != 0) (.redMinZ f.g f.d (f.a.extractLsb' 1 6) (f.b.extractLsb' 3 1) (f.b.extractLsb' 0 2))
  | 7 => accept (f.b.extractLsb' 4 3 != 0 || f.b.extractLsb' 2 1 != 0) (f.a.extractLsb' 0 1 != 0) (.redMaxZ f.g f.d (f.a.extractLsb' 1 6) (f.b.extractLsb' 3 1) (f.b.extractLsb' 0 2))
  | 8 => accept (f.b.extractLsb' 4 3 != 0 || f.b.extractLsb' 2 1 != 0) (f.a.extractLsb' 0 1 != 0) (.redAnd f.g f.d (f.a.extractLsb' 1 6) (f.b.extractLsb' 3 1) (f.b.extractLsb' 0 2))
  | 9 => accept (f.b.extractLsb' 4 3 != 0 || f.b.extractLsb' 2 1 != 0) (f.a.extractLsb' 0 1 != 0) (.redOr f.g f.d (f.a.extractLsb' 1 6) (f.b.extractLsb' 3 1) (f.b.extractLsb' 0 2))
  | 10 => accept (f.b.extractLsb' 4 3 != 0 || f.b.extractLsb' 2 1 != 0) (f.a.extractLsb' 0 1 != 0) (.redXor f.g f.d (f.a.extractLsb' 1 6) (f.b.extractLsb' 3 1) (f.b.extractLsb' 0 2))
  | 11 => accept (f.b.extractLsb' 4 3 != 0 || f.b.extractLsb' 2 1 != 0) (f.d.extractLsb' 0 1 != 0 || f.a.extractLsb' 0 1 != 0) (.redAdd64 f.g (f.d.extractLsb' 1 6) (f.a.extractLsb' 1 6) (f.b.extractLsb' 3 1) (f.b.extractLsb' 0 2))
  | 12 => accept (f.b.extractLsb' 4 3 != 0 || f.b.extractLsb' 2 1 != 0) (f.a.extractLsb' 0 1 != 0) (.redMinF32 f.g f.d (f.a.extractLsb' 1 6) (f.b.extractLsb' 3 1) (f.b.extractLsb' 0 2))
  | 13 => accept (f.b.extractLsb' 4 3 != 0 || f.b.extractLsb' 2 1 != 0) (f.a.extractLsb' 0 1 != 0) (.redMaxF32 f.g f.d (f.a.extractLsb' 1 6) (f.b.extractLsb' 3 1) (f.b.extractLsb' 0 2))
  | _ => .error .reservedFn

/-- Decoding of major 0x2A by its function codes (Table 4-2): vconf, vconfl, vuniq, scomb_f32, scomb_i32, scomb_bf16x2. -/
noncomputable def decodeMaj2A (f : WordFields) : Except DecodeError Instr :=
  match f.fn.toNat with
  | 0 => accept (f.b.extractLsb' 1 6 != 0) (false) (.vconf f.g f.d f.a (f.b.extractLsb' 0 1))
  | 1 => accept (f.b.extractLsb' 1 6 != 0) (false) (.vconfl f.g f.d f.a (f.b.extractLsb' 0 1))
  | 2 => accept (f.b.extractLsb' 1 6 != 0) (false) (.vuniq f.g f.d f.a (f.b.extractLsb' 0 1))
  | 3 => accept (f.b != 0) (f.a.extractLsb' 0 1 != 0) (.scombF32 f.g f.d (f.a.extractLsb' 1 6))
  | 4 => accept (f.b != 0) (f.a.extractLsb' 0 1 != 0) (.scombI32 f.g f.d (f.a.extractLsb' 1 6))
  | 5 => accept (f.b != 0) (f.a.extractLsb' 0 1 != 0) (.scombBf16x2 f.g f.d (f.a.extractLsb' 1 6))
  | _ => .error .reservedFn

/-- Decoding of major 0x2B by its function codes (Table 4-2): bar_arr, bar_wait, bar_sync, bar_init, bar_arrx, cbar_init, cbar_arr, cbar_wait, cbar_sync. -/
noncomputable def decodeMaj2B (f : WordFields) : Except DecodeError Instr :=
  match f.fn.toNat with
  | 0 => accept (false) (false) (.barArr f.g f.d f.a f.b)
  | 1 => accept (f.d != 0) (false) (.barWait f.g f.a f.b)
  | 2 => accept (f.d != 0 || f.b != 0) (false) (.barSync f.g f.a)
  | 3 => accept (f.d != 0) (false) (.barInit f.g f.a f.b)
  | 4 => accept (false) (false) (.barArrx f.g f.d f.a f.b)
  | 5 =>
      if f.b == 1 then accept (false) (false) (.cbarArr f.g f.d f.a)
      else if f.b == 2 then accept (false) (false) (.cbarWait f.g f.d f.a)
      else if f.b == 3 then accept (f.d != 0) (false) (.cbarSync f.g f.a)
      else accept (f.b != 0) (false) (.cbarInit f.g f.d f.a)
  | _ => .error .reservedFn

/-- Decoding of major 0x2C by its function codes (Table 4-2): waddr_eq, waddr_ne, waddr_lt, waddr_ge, waddr_any. -/
noncomputable def decodeMaj2C (f : WordFields) : Except DecodeError Instr :=
  match f.fn.toNat with
  | 0 => accept (f.b.extractLsb' 2 5 != 0) (f.d.extractLsb' 0 1 != 0 || f.a.extractLsb' 0 1 != 0) (.waddrEq f.g (f.d.extractLsb' 1 6) (f.a.extractLsb' 1 6) (f.b.extractLsb' 0 2))
  | 1 => accept (f.b.extractLsb' 2 5 != 0) (f.d.extractLsb' 0 1 != 0 || f.a.extractLsb' 0 1 != 0) (.waddrNe f.g (f.d.extractLsb' 1 6) (f.a.extractLsb' 1 6) (f.b.extractLsb' 0 2))
  | 2 => accept (f.b.extractLsb' 2 5 != 0) (f.d.extractLsb' 0 1 != 0 || f.a.extractLsb' 0 1 != 0) (.waddrLt f.g (f.d.extractLsb' 1 6) (f.a.extractLsb' 1 6) (f.b.extractLsb' 0 2))
  | 3 => accept (f.b.extractLsb' 2 5 != 0) (f.d.extractLsb' 0 1 != 0 || f.a.extractLsb' 0 1 != 0) (.waddrGe f.g (f.d.extractLsb' 1 6) (f.a.extractLsb' 1 6) (f.b.extractLsb' 0 2))
  | 4 => accept (f.b.extractLsb' 2 5 != 0) (f.d.extractLsb' 0 1 != 0 || f.a.extractLsb' 0 1 != 0) (.waddrAny f.g (f.d.extractLsb' 1 6) (f.a.extractLsb' 1 6) (f.b.extractLsb' 0 2))
  | _ => .error .reservedFn

/-- Decoding of major 0x2D by its function codes (Table 4-2): cpt, cpm, cps, cpf, cpr. -/
noncomputable def decodeMaj2D (f : WordFields) (x : BitVec 26) : Except DecodeError Instr :=
  match f.fn.toNat with
  | 0 => accept (x.extractLsb' 19 7 != 0 || x.extractLsb' 15 4 != 0 || x.extractLsb' 14 1 != 0 || x.extractLsb' 10 4 != 0) (f.a.extractLsb' 0 3 != 0 || f.b.extractLsb' 0 2 != 0) (.cpt f.g f.d (f.a.extractLsb' 3 4) (f.b.extractLsb' 2 5) (x.extractLsb' 8 2) (x.extractLsb' 6 2) (x.extractLsb' 5 1) (x.extractLsb' 4 1) (x.extractLsb' 3 1) (x.extractLsb' 0 3))
  | 1 => accept (x.extractLsb' 19 7 != 0 || x.extractLsb' 15 4 != 0 || x.extractLsb' 14 1 != 0 || x.extractLsb' 3 1 != 0) (f.a.extractLsb' 0 3 != 0 || f.b.extractLsb' 0 2 != 0) (.cpm f.g f.d (f.a.extractLsb' 3 4) (f.b.extractLsb' 2 5) (x.extractLsb' 10 4) (x.extractLsb' 8 2) (x.extractLsb' 6 2) (x.extractLsb' 5 1) (x.extractLsb' 4 1) (x.extractLsb' 0 3))
  | 2 => accept (x.extractLsb' 19 7 != 0 || x.extractLsb' 15 4 != 0 || x.extractLsb' 14 1 != 0 || x.extractLsb' 10 4 != 0) (f.a.extractLsb' 0 3 != 0 || f.b.extractLsb' 0 2 != 0) (.cps f.g f.d (f.a.extractLsb' 3 4) (f.b.extractLsb' 2 5) (x.extractLsb' 8 2) (x.extractLsb' 6 2) (x.extractLsb' 5 1) (x.extractLsb' 4 1) (x.extractLsb' 3 1) (x.extractLsb' 0 3))
  | 3 => accept (x.extractLsb' 19 7 != 0 || x.extractLsb' 15 4 != 0 || x.extractLsb' 10 4 != 0) (f.a.extractLsb' 0 1 != 0 || f.b.extractLsb' 0 1 != 0) (.cpf f.g f.d (f.a.extractLsb' 1 6) (f.b.extractLsb' 1 6) (x.extractLsb' 14 1) (x.extractLsb' 8 2) (x.extractLsb' 6 2) (x.extractLsb' 5 1) (x.extractLsb' 4 1) (x.extractLsb' 3 1) (x.extractLsb' 0 3))
  | 4 => accept (x.extractLsb' 19 7 != 0 || x.extractLsb' 14 1 != 0 || x.extractLsb' 10 4 != 0) (f.a.extractLsb' 0 3 != 0 || f.b.extractLsb' 0 2 != 0) (.cpr f.g f.d (f.a.extractLsb' 3 4) (f.b.extractLsb' 2 5) (x.extractLsb' 15 4) (x.extractLsb' 8 2) (x.extractLsb' 6 2) (x.extractLsb' 5 1) (x.extractLsb' 4 1) (x.extractLsb' 3 1) (x.extractLsb' 0 3))
  | _ => .error .reservedFn

/-- Decoding of major 0x2E by its function codes (Table 4-2): gth, sct, sctr. -/
noncomputable def decodeMaj2E (f : WordFields) (x : BitVec 26) : Except DecodeError Instr :=
  match f.fn.toNat with
  | 0 => accept (x.extractLsb' 19 7 != 0 || x.extractLsb' 15 4 != 0 || x.extractLsb' 14 1 != 0 || x.extractLsb' 10 4 != 0) (f.a.extractLsb' 0 2 != 0 || f.b.extractLsb' 0 2 != 0) (.gth f.g f.d (f.a.extractLsb' 2 5) (f.b.extractLsb' 2 5) (x.extractLsb' 8 2) (x.extractLsb' 6 2) (x.extractLsb' 5 1) (x.extractLsb' 4 1) (x.extractLsb' 3 1) (x.extractLsb' 0 3))
  | 1 => accept (x.extractLsb' 19 7 != 0 || x.extractLsb' 15 4 != 0 || x.extractLsb' 14 1 != 0 || x.extractLsb' 10 4 != 0) (f.a.extractLsb' 0 2 != 0 || f.b.extractLsb' 0 2 != 0) (.sct f.g f.d (f.a.extractLsb' 2 5) (f.b.extractLsb' 2 5) (x.extractLsb' 8 2) (x.extractLsb' 6 2) (x.extractLsb' 5 1) (x.extractLsb' 4 1) (x.extractLsb' 3 1) (x.extractLsb' 0 3))
  | 2 => accept (x.extractLsb' 19 7 != 0 || x.extractLsb' 14 1 != 0 || x.extractLsb' 10 4 != 0) (f.a.extractLsb' 0 2 != 0 || f.b.extractLsb' 0 2 != 0) (.sctr f.g f.d (f.a.extractLsb' 2 5) (f.b.extractLsb' 2 5) (x.extractLsb' 15 4) (x.extractLsb' 8 2) (x.extractLsb' 6 2) (x.extractLsb' 5 1) (x.extractLsb' 4 1) (x.extractLsb' 3 1) (x.extractLsb' 0 3))
  | _ => .error .reservedFn

/-- Decoding of major 0x2F by its function codes (Table 4-2): rb_init, rb_await, rb_rel, rb_stat, rb_cred. -/
noncomputable def decodeMaj2F (f : WordFields) : Except DecodeError Instr :=
  match f.fn.toNat with
  | 0 => accept (f.d != 0) (false) (.rbInit f.g f.a f.b)
  | 1 => accept (false) (f.d.extractLsb' 0 1 != 0) (.rbAwait f.g (f.d.extractLsb' 1 6) f.a f.b)
  | 2 => accept (f.d != 0) (false) (.rbRel f.g f.a f.b)
  | 3 => accept (f.b != 0) (f.d.extractLsb' 0 1 != 0) (.rbStat f.g (f.d.extractLsb' 1 6) f.a)
  | 4 => accept (false) (false) (.rbCred f.g f.d f.a f.b)
  | _ => .error .reservedFn

/-- Decoding of major 0x30 by its function codes (Table 4-2): spawn, tree_open, tree_close, tree_close_free, tree_cancel, tree_stat, dl_set, dl_get, dl_chk. -/
noncomputable def decodeMaj30 (f : WordFields) : Except DecodeError Instr :=
  match f.fn.toNat with
  | 0 => accept (f.b.extractLsb' 4 3 != 0) (f.a.extractLsb' 0 1 != 0) (.spawn f.g f.d (f.a.extractLsb' 1 6) (f.b.extractLsb' 0 4))
  | 1 => accept (f.a != 0 || f.b != 0) (false) (.treeOpen f.g f.d)
  | 2 =>
      if f.b == 1 then accept (f.d != 0) (false) (.treeCloseFree f.g f.a)
      else accept (f.d != 0 || f.b != 0) (false) (.treeClose f.g f.a)
  | 3 => accept (f.d != 0 || f.b != 0) (false) (.treeCancel f.g f.a)
  | 4 => accept (f.b != 0) (f.d.extractLsb' 0 1 != 0) (.treeStat f.g (f.d.extractLsb' 1 6) f.a)
  | 5 => accept (f.d != 0) (f.b.extractLsb' 0 1 != 0) (.dlSet f.g f.a (f.b.extractLsb' 1 6))
  | 6 => accept (f.b != 0) (f.d.extractLsb' 0 1 != 0) (.dlGet f.g (f.d.extractLsb' 1 6) f.a)
  | 7 => accept (f.b != 0) (false) (.dlChk f.g f.d f.a)
  | _ => .error .reservedFn

/-- Decoding of major 0x31 by its function codes (Table 4-2): nalloc, nalloc_t, nfree, nreset, ninfo. -/
noncomputable def decodeMaj31 (f : WordFields) : Except DecodeError Instr :=
  match f.fn.toNat with
  | 0 => accept (f.b != 0) (f.d.extractLsb' 0 1 != 0) (.nalloc f.g (f.d.extractLsb' 1 6) f.a)
  | 1 => accept (f.b != 0) (f.d.extractLsb' 0 1 != 0) (.nallocT f.g (f.d.extractLsb' 1 6) f.a)
  | 2 => accept (f.d != 0) (f.a.extractLsb' 0 1 != 0) (.nfree f.g (f.a.extractLsb' 1 6) f.b)
  | 3 => accept (f.d != 0 || f.b != 0) (false) (.nreset f.g f.a)
  | 4 => accept (f.b != 0) (f.d.extractLsb' 0 1 != 0) (.ninfo f.g (f.d.extractLsb' 1 6) f.a)
  | _ => .error .reservedFn

/-- Decoding of major 0x32 by its function codes (Table 4-2): cq_push, cq_take, cq_put, cq_flush, cq_cfg, cq_stat. -/
noncomputable def decodeMaj32 (f : WordFields) : Except DecodeError Instr :=
  match f.fn.toNat with
  | 0 => accept (f.b.extractLsb' 5 2 != 0) (false) (.cqPush f.g f.d f.a (f.b.extractLsb' 0 5))
  | 1 => accept (f.b.extractLsb' 6 1 != 0) (f.d.extractLsb' 0 1 != 0) (.cqTake f.g (f.d.extractLsb' 1 6) f.a (f.b.extractLsb' 0 6))
  | 2 => accept (f.d != 0) (f.a.extractLsb' 0 1 != 0) (.cqPut f.g (f.a.extractLsb' 1 6) f.b)
  | 3 => accept (f.d != 0 || f.b != 0) (false) (.cqFlush f.g f.a)
  | 4 => accept (f.d != 0) (false) (.cqCfg f.g f.a f.b)
  | 5 => accept (f.b != 0) (f.d.extractLsb' 0 1 != 0) (.cqStat f.g (f.d.extractLsb' 1 6) f.a)
  | _ => .error .reservedFn

/-- Decoding of major 0x33 by its function codes (Table 4-2): fd_pop, fd_try, fd_push, fd_stat. -/
noncomputable def decodeMaj33 (f : WordFields) : Except DecodeError Instr :=
  match f.fn.toNat with
  | 0 => accept (f.b != 0) (false) (.fdPop f.g f.d f.a)
  | 1 => accept (f.b != 0) (false) (.fdTry f.g f.d f.a)
  | 2 => accept (f.d != 0) (false) (.fdPush f.g f.a f.b)
  | 3 => accept (f.b != 0) (f.d.extractLsb' 0 1 != 0) (.fdStat f.g (f.d.extractLsb' 1 6) f.a)
  | _ => .error .reservedFn

/-- Decoding of major 0x34 by its function codes (Table 4-2): col_ray, col_sph, col_box, col_sweep, col_dist, col_upd. -/
noncomputable def decodeMaj34 (f : WordFields) (x : BitVec 26) : Except DecodeError Instr :=
  match f.fn.toNat with
  | 0 => accept (x.extractLsb' 9 17 != 0) (f.d.extractLsb' 0 1 != 0 || f.a.extractLsb' 0 1 != 0 || f.b.extractLsb' 0 1 != 0) (.colRay f.g (f.d.extractLsb' 1 6) (f.a.extractLsb' 1 6) (f.b.extractLsb' 1 6) (x.extractLsb' 7 2) (x.extractLsb' 6 1) (x.extractLsb' 5 1) (x.extractLsb' 0 5))
  | 1 => accept (x.extractLsb' 9 17 != 0) (f.d.extractLsb' 0 1 != 0 || f.a.extractLsb' 0 1 != 0 || f.b.extractLsb' 0 1 != 0) (.colSph f.g (f.d.extractLsb' 1 6) (f.a.extractLsb' 1 6) (f.b.extractLsb' 1 6) (x.extractLsb' 7 2) (x.extractLsb' 6 1) (x.extractLsb' 5 1) (x.extractLsb' 0 5))
  | 2 => accept (x.extractLsb' 9 17 != 0) (f.d.extractLsb' 0 1 != 0 || f.a.extractLsb' 0 1 != 0 || f.b.extractLsb' 0 1 != 0) (.colBox f.g (f.d.extractLsb' 1 6) (f.a.extractLsb' 1 6) (f.b.extractLsb' 1 6) (x.extractLsb' 7 2) (x.extractLsb' 6 1) (x.extractLsb' 5 1) (x.extractLsb' 0 5))
  | 3 => accept (x.extractLsb' 9 17 != 0) (f.d.extractLsb' 0 1 != 0 || f.a.extractLsb' 0 1 != 0 || f.b.extractLsb' 0 1 != 0) (.colSweep f.g (f.d.extractLsb' 1 6) (f.a.extractLsb' 1 6) (f.b.extractLsb' 1 6) (x.extractLsb' 7 2) (x.extractLsb' 6 1) (x.extractLsb' 5 1) (x.extractLsb' 0 5))
  | 4 => accept (x.extractLsb' 9 17 != 0) (f.d.extractLsb' 0 1 != 0 || f.a.extractLsb' 0 1 != 0 || f.b.extractLsb' 0 1 != 0) (.colDist f.g (f.d.extractLsb' 1 6) (f.a.extractLsb' 1 6) (f.b.extractLsb' 1 6) (x.extractLsb' 7 2) (x.extractLsb' 6 1) (x.extractLsb' 5 1) (x.extractLsb' 0 5))
  | 5 => accept (x.extractLsb' 9 17 != 0) (f.d.extractLsb' 0 1 != 0 || f.a.extractLsb' 0 1 != 0 || f.b.extractLsb' 0 1 != 0) (.colUpd f.g (f.d.extractLsb' 1 6) (f.a.extractLsb' 1 6) (f.b.extractLsb' 1 6) (x.extractLsb' 7 2) (x.extractLsb' 6 1) (x.extractLsb' 5 1) (x.extractLsb' 0 5))
  | _ => .error .reservedFn

/-- Decoding of major 0x35 by its function codes (Table 4-2): dyn_fk, dyn_id, dyn_fd, dyn_step, dyn_jac, dyn_mass. -/
noncomputable def decodeMaj35 (f : WordFields) (x : BitVec 26) : Except DecodeError Instr :=
  match f.fn.toNat with
  | 0 => accept (x.extractLsb' 15 11 != 0 || x.extractLsb' 9 6 != 0) (f.d.extractLsb' 0 1 != 0 || f.a.extractLsb' 0 1 != 0 || f.b.extractLsb' 0 1 != 0) (.dynFk f.g (f.d.extractLsb' 1 6) (f.a.extractLsb' 1 6) (f.b.extractLsb' 1 6) (x.extractLsb' 7 2) (x.extractLsb' 6 1) (x.extractLsb' 5 1) (x.extractLsb' 0 5))
  | 1 => accept (x.extractLsb' 15 11 != 0 || x.extractLsb' 9 6 != 0) (f.d.extractLsb' 0 1 != 0 || f.a.extractLsb' 0 1 != 0 || f.b.extractLsb' 0 1 != 0) (.dynId f.g (f.d.extractLsb' 1 6) (f.a.extractLsb' 1 6) (f.b.extractLsb' 1 6) (x.extractLsb' 7 2) (x.extractLsb' 6 1) (x.extractLsb' 5 1) (x.extractLsb' 0 5))
  | 2 => accept (x.extractLsb' 15 11 != 0 || x.extractLsb' 9 6 != 0) (f.d.extractLsb' 0 1 != 0 || f.a.extractLsb' 0 1 != 0 || f.b.extractLsb' 0 1 != 0) (.dynFd f.g (f.d.extractLsb' 1 6) (f.a.extractLsb' 1 6) (f.b.extractLsb' 1 6) (x.extractLsb' 7 2) (x.extractLsb' 6 1) (x.extractLsb' 5 1) (x.extractLsb' 0 5))
  | 3 => accept (x.extractLsb' 15 11 != 0 || x.extractLsb' 9 6 != 0) (f.d.extractLsb' 0 1 != 0 || f.a.extractLsb' 0 1 != 0 || f.b.extractLsb' 0 1 != 0) (.dynStep f.g (f.d.extractLsb' 1 6) (f.a.extractLsb' 1 6) (f.b.extractLsb' 1 6) (x.extractLsb' 7 2) (x.extractLsb' 6 1) (x.extractLsb' 5 1) (x.extractLsb' 0 5))
  | 4 => accept (x.extractLsb' 15 11 != 0) (f.d.extractLsb' 0 1 != 0 || f.a.extractLsb' 0 1 != 0 || f.b.extractLsb' 0 1 != 0) (.dynJac f.g (f.d.extractLsb' 1 6) (f.a.extractLsb' 1 6) (f.b.extractLsb' 1 6) (x.extractLsb' 9 6) (x.extractLsb' 7 2) (x.extractLsb' 6 1) (x.extractLsb' 5 1) (x.extractLsb' 0 5))
  | 5 => accept (x.extractLsb' 15 11 != 0 || x.extractLsb' 9 6 != 0) (f.d.extractLsb' 0 1 != 0 || f.a.extractLsb' 0 1 != 0 || f.b.extractLsb' 0 1 != 0) (.dynMass f.g (f.d.extractLsb' 1 6) (f.a.extractLsb' 1 6) (f.b.extractLsb' 1 6) (x.extractLsb' 7 2) (x.extractLsb' 6 1) (x.extractLsb' 5 1) (x.extractLsb' 0 5))
  | _ => .error .reservedFn

/-- Decoding of major 0x36 by its function codes (Table 4-2): trap, sys, brk, eret, eret_r, tret. -/
noncomputable def decodeMaj36 (f : WordFields) : Except DecodeError Instr :=
  match f.fn.toNat with
  | 0 => accept (f.d != 0) (false) (.trap f.g (f.a ++ f.b))
  | 1 => accept (false) (false) (.sys f.g f.d f.a (f.b.extractLsb' 2 5) (f.b.extractLsb' 0 2))
  | 2 => accept (f.d != 0) (false) (.brk f.g (f.a ++ f.b))
  | 3 => accept (f.d != 0 || f.a != 0 || f.b != 0) (false) (.eret f.g)
  | 4 => accept (f.d != 0 || f.a != 0 || f.b != 0) (false) (.eretR f.g)
  | 5 => accept (f.d != 0 || f.a != 0 || f.b != 0) (false) (.tret f.g)
  | _ => .error .reservedFn

/-- Decoding of major 0x37 by its function codes (Table 4-2): phint, ppoint. -/
noncomputable def decodeMaj37 (f : WordFields) (x : BitVec 26) : Except DecodeError Instr :=
  match f.fn.toNat with
  | 0 => accept (x.extractLsb' 21 5 != 0) (false) (.phint f.g f.d f.a f.b (x.extractLsb' 19 2) (x.extractLsb' 11 8) (x.extractLsb' 0 11))
  | 1 => accept (x.extractLsb' 21 5 != 0) (false) (.ppoint f.g f.d f.a f.b (x.extractLsb' 19 2) (x.extractLsb' 11 8) (x.extractLsb' 0 11))
  | _ => .error .reservedFn

/-- Decoding of major 0x38 by its function codes (Table 4-2): tmark, tstamp, pctr, tctl_off, tctl_on, tctl_flush. -/
noncomputable def decodeMaj38 (f : WordFields) : Except DecodeError Instr :=
  match f.fn.toNat with
  | 0 => accept (f.d != 0 || f.b != 0) (false) (.tmark f.g f.a)
  | 1 => accept (f.a != 0 || f.b != 0) (f.d.extractLsb' 0 1 != 0) (.tstamp f.g (f.d.extractLsb' 1 6))
  | 2 => accept (f.b != 0) (f.d.extractLsb' 0 1 != 0) (.pctr f.g (f.d.extractLsb' 1 6) f.a)
  | 3 =>
      if f.b.extractLsb' 0 3 == 1 then accept (f.d != 0 || f.a != 0 || f.b.extractLsb' 6 1 != 0) (false) (.tctlOn f.g (f.b.extractLsb' 3 3))
      else if f.b == 2 then accept (f.d != 0 || f.a != 0) (false) (.tctlFlush f.g)
      else accept (f.d != 0 || f.a != 0 || f.b != 0) (false) (.tctlOff f.g)
  | _ => .error .reservedFn

/-- Decoding of the fields of a one-word major (R83, R84). -/
noncomputable def decodeOne (f : WordFields) : Except DecodeError Instr :=
  match f.maj.toNat with
  | 1 => decodeMaj01 f
  | 3 => decodeMaj03 f
  | 4 => decodeMaj04 f
  | 5 => decodeMaj05 f
  | 6 => decodeMaj06 f
  | 7 => decodeMaj07 f
  | 8 => decodeMaj08 f
  | 9 => decodeMaj09 f
  | 10 => decodeMaj0A f
  | 11 => decodeMaj0B f
  | 12 => decodeMaj0C f
  | 13 => decodeMaj0D f
  | 15 => decodeMaj0F f
  | 16 => decodeMaj10 f
  | 17 => decodeMaj11 f
  | 18 => decodeMaj12 f
  | 19 => decodeMaj13 f
  | 20 => decodeMaj14 f
  | 21 => decodeMaj15 f
  | 22 => decodeMaj16 f
  | 23 => decodeMaj17 f
  | 24 => decodeMaj18 f
  | 25 => decodeMaj19 f
  | 26 => decodeMaj1A f
  | 28 => decodeMaj1C f
  | 29 => decodeMaj1D f
  | 30 => decodeMaj1E f
  | 31 => decodeMaj1F f
  | 32 => decodeMaj20 f
  | 33 => decodeMaj21 f
  | 35 => decodeMaj23 f
  | 36 => decodeMaj24 f
  | 37 => decodeMaj25 f
  | 38 => decodeMaj26 f
  | 39 => decodeMaj27 f
  | 41 => decodeMaj29 f
  | 42 => decodeMaj2A f
  | 43 => decodeMaj2B f
  | 44 => decodeMaj2C f
  | 47 => decodeMaj2F f
  | 48 => decodeMaj30 f
  | 49 => decodeMaj31 f
  | 50 => decodeMaj32 f
  | 51 => decodeMaj33 f
  | 54 => decodeMaj36 f
  | 56 => decodeMaj38 f
  | _ => .error .reservedMajor

/-- Decoding of the fields and payload of a format-X major (R83, R84). -/
noncomputable def decodeX (f : WordFields) (x : BitVec 26) : Except DecodeError Instr :=
  match f.maj.toNat with
  | 2 => decodeMaj02 f x
  | 14 => decodeMaj0E f x
  | 27 => decodeMaj1B f x
  | 34 => decodeMaj22 f x
  | 40 => decodeMaj28 f x
  | 45 => decodeMaj2D f x
  | 46 => decodeMaj2E f x
  | 52 => decodeMaj34 f x
  | 53 => decodeMaj35 f x
  | 55 => decodeMaj37 f x
  | _ => .error .reservedMajor

/-- The function codes a format-X major lists (Table 4-2), for check 2 of R61, which comes before the second word is examined. -/
def xFnCount (maj : BitVec 6) : Nat :=
  match maj.toNat with
  | 0x02 => 2 | 0x0E => 5 | 0x1B => 4 | 0x22 => 4 | 0x28 => 10 | 0x2D => 5 | 0x2E => 3 | 0x34 => 6 | 0x35 => 6 | 0x37 => 2
  | _ => 0

/-- Does the device fetch a second word for this first word (step 3 of R89)? -/
def needsSecond (w0 : Word) : Bool := isX (WordFields.ofWord w0).maj

/-- One decode of a first word and the word after it (R89, R90). The second word is looked at only for a format-X major. -/
noncomputable def decode (w0 w1 : Word) : Except DecodeError Instr :=
  let f := WordFields.ofWord w0
  if isReservedMajor f.maj then .error .reservedMajor
  else if f.maj == 0x3E then .error .extFirst
  else if isX f.maj then
    if xFnCount f.maj ≤ f.fn.toNat then .error .reservedFn
    else if w1.extractLsb' 26 6 != 0x3E then .error .missingExt
    else decodeX f (w1.extractLsb' 0 26)
  else decodeOne f

/-- The words of a coded instruction: the fields of its first word and the payload of its second (R58, R59 and the entries). A
device step has no words; its entry here is the reserved word 0. -/
def encodeFields : Instr → WordFields × Option (BitVec 26)
  | .bra o => (⟨1, false, 0, o.extractLsb' 14 7, o.extractLsb' 7 7, o.extractLsb' 0 7⟩, none)
  | .bany o => (⟨1, false, 1, o.extractLsb' 14 7, o.extractLsb' 7 7, o.extractLsb' 0 7⟩, none)
  | .ball o => (⟨1, false, 2, o.extractLsb' 14 7, o.extractLsb' 7 7, o.extractLsb' 0 7⟩, none)
  | .bnone o => (⟨1, false, 3, o.extractLsb' 14 7, o.extractLsb' 7 7, o.extractLsb' 0 7⟩, none)
  | .call o => (⟨1, false, 4, o.extractLsb' 14 7, o.extractLsb' 7 7, o.extractLsb' 0 7⟩, none)
  | .brd toff roff => (⟨2, false, 0, toff.extractLsb' 14 7, toff.extractLsb' 7 7, toff.extractLsb' 0 7⟩, some (roff))
  | .brdr a roff => (⟨2, false, 1, (0 : BitVec 7), a ++ (0 : BitVec 1), (0 : BitVec 7)⟩, some (roff))
  | .ret => (⟨3, false, 0, (0 : BitVec 7), (0 : BitVec 7), (0 : BitVec 7)⟩, none)
  | .jmpr a => (⟨3, false, 1, (0 : BitVec 7), a ++ (0 : BitVec 1), (0 : BitVec 7)⟩, none)
  | .callr a => (⟨3, false, 2, (0 : BitVec 7), a ++ (0 : BitVec 1), (0 : BitVec 7)⟩, none)
  | .exit g => (⟨3, g, 3, (0 : BitVec 7), (0 : BitVec 7), (0 : BitVec 7)⟩, none)
  | .yield g => (⟨3, g, 4, (0 : BitVec 7), (0 : BitVec 7), (0 : BitVec 7)⟩, none)
  | .join => (⟨3, false, 5, (0 : BitVec 7), (0 : BitVec 7), (0 : BitVec 7)⟩, none)
  | .wbase g n => (⟨3, g, 6, (0 : BitVec 7), (0 : BitVec 7), (0 : BitVec 3) ++ n⟩, none)
  | .spin g => (⟨3, g, 7, (0 : BitVec 7), (0 : BitVec 7), (0 : BitVec 7)⟩, none)
  | .nop g => (⟨3, g, 8, (0 : BitVec 7), (0 : BitVec 7), (0 : BitVec 7)⟩, none)
  | .fmask g d s => (⟨3, g, 9, (0 : BitVec 4) ++ d, (0 : BitVec 7), (0 : BitVec 5) ++ s⟩, none)
  | .add g d a b => (⟨4, g, 0, d, a, b⟩, none)
  | .sub g d a b => (⟨4, g, 1, d, a, b⟩, none)
  | .addc g d a b => (⟨4, g, 2, d, a, b⟩, none)
  | .subb g d a b => (⟨4, g, 3, d, a, b⟩, none)
  | .minI g d a b => (⟨4, g, 4, d, a, b⟩, none)
  | .maxI g d a b => (⟨4, g, 5, d, a, b⟩, none)
  | .minZ g d a b => (⟨4, g, 6, d, a, b⟩, none)
  | .maxZ g d a b => (⟨4, g, 7, d, a, b⟩, none)
  | .abs g d a => (⟨4, g, 8, d, a, (0 : BitVec 7)⟩, none)
  | .neg g d a => (⟨4, g, 9, d, a, (0 : BitVec 7)⟩, none)
  | .addsI g d a b => (⟨4, g, 10, d, a, b⟩, none)
  | .subsI g d a b => (⟨4, g, 11, d, a, b⟩, none)
  | .addsZ g d a b => (⟨4, g, 12, d, a, b⟩, none)
  | .subsZ g d a b => (⟨4, g, 13, d, a, b⟩, none)
  | .avgZ g d a b => (⟨4, g, 14, d, a, b⟩, none)
  | .sadZ g d a b => (⟨4, g, 15, d, a, b⟩, none)
  | .addImm g d a i => (⟨5, g, 0, d, a, i⟩, none)
  | .subImm g d a i => (⟨5, g, 1, d, a, i⟩, none)
  | .addcImm g d a i => (⟨5, g, 2, d, a, i⟩, none)
  | .subbImm g d a i => (⟨5, g, 3, d, a, i⟩, none)
  | .minIImm g d a i => (⟨5, g, 4, d, a, i⟩, none)
  | .maxIImm g d a i => (⟨5, g, 5, d, a, i⟩, none)
  | .minZImm g d a i => (⟨5, g, 6, d, a, i⟩, none)
  | .maxZImm g d a i => (⟨5, g, 7, d, a, i⟩, none)
  | .addsIImm g d a i => (⟨5, g, 10, d, a, i⟩, none)
  | .subsIImm g d a i => (⟨5, g, 11, d, a, i⟩, none)
  | .addsZImm g d a i => (⟨5, g, 12, d, a, i⟩, none)
  | .subsZImm g d a i => (⟨5, g, 13, d, a, i⟩, none)
  | .avgZImm g d a i => (⟨5, g, 14, d, a, i⟩, none)
  | .sadZImm g d a i => (⟨5, g, 15, d, a, i⟩, none)
  | .mul g d a b => (⟨6, g, 0, d, a, b⟩, none)
  | .mulhI g d a b => (⟨6, g, 1, d, a, b⟩, none)
  | .mulhZ g d a b => (⟨6, g, 2, d, a, b⟩, none)
  | .mad g d a b => (⟨6, g, 3, d, a, b⟩, none)
  | .mulwI g d a b => (⟨6, g, 4, d ++ (0 : BitVec 1), a, b⟩, none)
  | .mulwZ g d a b => (⟨6, g, 5, d ++ (0 : BitVec 1), a, b⟩, none)
  | .madwI g d a b => (⟨6, g, 6, d ++ (0 : BitVec 1), a, b⟩, none)
  | .madwZ g d a b => (⟨6, g, 7, d ++ (0 : BitVec 1), a, b⟩, none)
  | .divI g d a b => (⟨6, g, 8, d, a, b⟩, none)
  | .divZ g d a b => (⟨6, g, 9, d, a, b⟩, none)
  | .remI g d a b => (⟨6, g, 10, d, a, b⟩, none)
  | .remZ g d a b => (⟨6, g, 11, d, a, b⟩, none)
  | .dp4I8 g d a b => (⟨6, g, 12, d, a, b⟩, none)
  | .dp4Z8 g d a b => (⟨6, g, 13, d, a, b⟩, none)
  | .and g d a b => (⟨7, g, 0, d, a, b⟩, none)
  | .or g d a b => (⟨7, g, 1, d, a, b⟩, none)
  | .xor g d a b => (⟨7, g, 2, d, a, b⟩, none)
  | .andn g d a b => (⟨7, g, 3, d, a, b⟩, none)
  | .orn g d a b => (⟨7, g, 4, d, a, b⟩, none)
  | .not g d a => (⟨7, g, 5, d, a, (0 : BitVec 7)⟩, none)
  | .popc g d a => (⟨7, g, 6, d, a, (0 : BitVec 7)⟩, none)
  | .clz g d a => (⟨7, g, 7, d, a, (0 : BitVec 7)⟩, none)
  | .ctz g d a => (⟨7, g, 8, d, a, (0 : BitVec 7)⟩, none)
  | .brev g d a => (⟨7, g, 9, d, a, (0 : BitVec 7)⟩, none)
  | .bsel g d a b => (⟨7, g, 10, d, a, b⟩, none)
  | .prmt g d a b => (⟨7, g, 11, d, a, b⟩, none)
  | .shl g d a b => (⟨8, g, 0, d, a, b⟩, none)
  | .shrZ g d a b => (⟨8, g, 1, d, a, b⟩, none)
  | .shrI g d a b => (⟨8, g, 2, d, a, b⟩, none)
  | .rol g d a b => (⟨8, g, 3, d, a, b⟩, none)
  | .ror g d a b => (⟨8, g, 4, d, a, b⟩, none)
  | .shlf g d a b => (⟨8, g, 5, d, a, b⟩, none)
  | .shrf g d a b => (⟨8, g, 6, d, a, b⟩, none)
  | .bfxZ g d a b => (⟨8, g, 7, d, a, b⟩, none)
  | .bfxI g d a b => (⟨8, g, 8, d, a, b⟩, none)
  | .bfi g d a b => (⟨8, g, 9, d, a, b⟩, none)
  | .shlImm g d a i => (⟨9, g, 0, d, a, i⟩, none)
  | .shrZImm g d a i => (⟨9, g, 1, d, a, i⟩, none)
  | .shrIImm g d a i => (⟨9, g, 2, d, a, i⟩, none)
  | .rolImm g d a i => (⟨9, g, 3, d, a, i⟩, none)
  | .rorImm g d a i => (⟨9, g, 4, d, a, i⟩, none)
  | .shlfImm g d a i => (⟨9, g, 5, d, a, i⟩, none)
  | .shrfImm g d a i => (⟨9, g, 6, d, a, i⟩, none)
  | .cmpEq g c p a b => (⟨10, g, 0, (0 : BitVec 2) ++ c ++ p, a, b⟩, none)
  | .cmpNe g c p a b => (⟨10, g, 1, (0 : BitVec 2) ++ c ++ p, a, b⟩, none)
  | .cmpLtI g c p a b => (⟨10, g, 2, (0 : BitVec 2) ++ c ++ p, a, b⟩, none)
  | .cmpLeI g c p a b => (⟨10, g, 3, (0 : BitVec 2) ++ c ++ p, a, b⟩, none)
  | .cmpGtI g c p a b => (⟨10, g, 4, (0 : BitVec 2) ++ c ++ p, a, b⟩, none)
  | .cmpGeI g c p a b => (⟨10, g, 5, (0 : BitVec 2) ++ c ++ p, a, b⟩, none)
  | .cmpLtZ g c p a b => (⟨10, g, 6, (0 : BitVec 2) ++ c ++ p, a, b⟩, none)
  | .cmpLeZ g c p a b => (⟨10, g, 7, (0 : BitVec 2) ++ c ++ p, a, b⟩, none)
  | .cmpGtZ g c p a b => (⟨10, g, 8, (0 : BitVec 2) ++ c ++ p, a, b⟩, none)
  | .cmpGeZ g c p a b => (⟨10, g, 9, (0 : BitVec 2) ++ c ++ p, a, b⟩, none)
  | .tst g c p a b => (⟨10, g, 10, (0 : BitVec 2) ++ c ++ p, a, b⟩, none)
  | .tstn g c p a b => (⟨10, g, 11, (0 : BitVec 2) ++ c ++ p, a, b⟩, none)
  | .cmpEqImm g c p a i => (⟨11, g, 0, (0 : BitVec 2) ++ c ++ p, a, i⟩, none)
  | .cmpNeImm g c p a i => (⟨11, g, 1, (0 : BitVec 2) ++ c ++ p, a, i⟩, none)
  | .cmpLtIImm g c p a i => (⟨11, g, 2, (0 : BitVec 2) ++ c ++ p, a, i⟩, none)
  | .cmpLeIImm g c p a i => (⟨11, g, 3, (0 : BitVec 2) ++ c ++ p, a, i⟩, none)
  | .cmpGtIImm g c p a i => (⟨11, g, 4, (0 : BitVec 2) ++ c ++ p, a, i⟩, none)
  | .cmpGeIImm g c p a i => (⟨11, g, 5, (0 : BitVec 2) ++ c ++ p, a, i⟩, none)
  | .cmpLtZImm g c p a i => (⟨11, g, 6, (0 : BitVec 2) ++ c ++ p, a, i⟩, none)
  | .cmpLeZImm g c p a i => (⟨11, g, 7, (0 : BitVec 2) ++ c ++ p, a, i⟩, none)
  | .cmpGtZImm g c p a i => (⟨11, g, 8, (0 : BitVec 2) ++ c ++ p, a, i⟩, none)
  | .cmpGeZImm g c p a i => (⟨11, g, 9, (0 : BitVec 2) ++ c ++ p, a, i⟩, none)
  | .tstImm g c p a i => (⟨11, g, 10, (0 : BitVec 2) ++ c ++ p, a, i⟩, none)
  | .tstnImm g c p a i => (⟨11, g, 11, (0 : BitVec 2) ++ c ++ p, a, i⟩, none)
  | .add64 g d a b => (⟨12, g, 0, d ++ (0 : BitVec 1), a ++ (0 : BitVec 1), b ++ (0 : BitVec 1)⟩, none)
  | .sub64 g d a b => (⟨12, g, 1, d ++ (0 : BitVec 1), a ++ (0 : BitVec 1), b ++ (0 : BitVec 1)⟩, none)
  | .mul64 g d a b => (⟨12, g, 2, d ++ (0 : BitVec 1), a ++ (0 : BitVec 1), b ++ (0 : BitVec 1)⟩, none)
  | .shl64 g d a b => (⟨12, g, 3, d ++ (0 : BitVec 1), a ++ (0 : BitVec 1), b⟩, none)
  | .shrZ64 g d a b => (⟨12, g, 4, d ++ (0 : BitVec 1), a ++ (0 : BitVec 1), b⟩, none)
  | .shrI64 g d a b => (⟨12, g, 5, d ++ (0 : BitVec 1), a ++ (0 : BitVec 1), b⟩, none)
  | .minI64 g d a b => (⟨12, g, 6, d ++ (0 : BitVec 1), a ++ (0 : BitVec 1), b ++ (0 : BitVec 1)⟩, none)
  | .maxI64 g d a b => (⟨12, g, 7, d ++ (0 : BitVec 1), a ++ (0 : BitVec 1), b ++ (0 : BitVec 1)⟩, none)
  | .minZ64 g d a b => (⟨12, g, 8, d ++ (0 : BitVec 1), a ++ (0 : BitVec 1), b ++ (0 : BitVec 1)⟩, none)
  | .maxZ64 g d a b => (⟨12, g, 9, d ++ (0 : BitVec 1), a ++ (0 : BitVec 1), b ++ (0 : BitVec 1)⟩, none)
  | .cmpEq64 g c p a b => (⟨12, g, 10, (0 : BitVec 2) ++ c ++ p, a ++ (0 : BitVec 1), b ++ (0 : BitVec 1)⟩, none)
  | .cmpLtI64 g c p a b => (⟨12, g, 11, (0 : BitVec 2) ++ c ++ p, a ++ (0 : BitVec 1), b ++ (0 : BitVec 1)⟩, none)
  | .cmpLtZ64 g c p a b => (⟨12, g, 12, (0 : BitVec 2) ++ c ++ p, a ++ (0 : BitVec 1), b ++ (0 : BitVec 1)⟩, none)
  | .movi g d i => (⟨13, g, 0, d, i.extractLsb' 7 7, i.extractLsb' 0 7⟩, none)
  | .movhi g d i => (⟨13, g, 1, d, i.extractLsb' 7 7, i.extractLsb' 0 7⟩, none)
  | .addi g d i => (⟨13, g, 2, d, i.extractLsb' 7 7, i.extractLsb' 0 7⟩, none)
  | .li g d hi lo => (⟨14, g, 0, d, (0 : BitVec 7), (0 : BitVec 1) ++ hi⟩, some (lo))
  | .addi32 g d a hi lo => (⟨14, g, 1, d, a, (0 : BitVec 1) ++ hi⟩, some (lo))
  | .andi32 g d a hi lo => (⟨14, g, 2, d, a, (0 : BitVec 1) ++ hi⟩, some (lo))
  | .ori32 g d a hi lo => (⟨14, g, 3, d, a, (0 : BitVec 1) ++ hi⟩, some (lo))
  | .xori32 g d a hi lo => (⟨14, g, 4, d, a, (0 : BitVec 1) ++ hi⟩, some (lo))
  | .mov g d a => (⟨15, g, 0, d, a, (0 : BitVec 7)⟩, none)
  | .sel g d a b => (⟨15, g, 1, d, a, b⟩, none)
  | .shflIdx g d a b => (⟨15, g, 2, d, a, b⟩, none)
  | .shflUp g d a b => (⟨15, g, 3, d, a, b⟩, none)
  | .shflDn g d a b => (⟨15, g, 4, d, a, b⟩, none)
  | .shflXor g d a b => (⟨15, g, 5, d, a, b⟩, none)
  | .bcast g d a b => (⟨15, g, 6, d, a, b⟩, none)
  | .ballot g d a => (⟨15, g, 7, d, (0 : BitVec 4) ++ a, (0 : BitVec 7)⟩, none)
  | .matchLanes g d a => (⟨15, g, 8, d, a, (0 : BitVec 7)⟩, none)
  | .lscanAdd g d a => (⟨15, g, 9, d, a, (0 : BitVec 7)⟩, none)
  | .lredAdd g d a => (⟨15, g, 10, d, a, (0 : BitVec 7)⟩, none)
  | .lredMinI g d a => (⟨15, g, 11, d, a, (0 : BitVec 7)⟩, none)
  | .lredMaxI g d a => (⟨15, g, 12, d, a, (0 : BitVec 7)⟩, none)
  | .lredMinZ g d a => (⟨15, g, 13, d, a, (0 : BitVec 7)⟩, none)
  | .lredMaxZ g d a => (⟨15, g, 14, d, a, (0 : BitVec 7)⟩, none)
  | .lredAddF32 g d a => (⟨15, g, 15, d, a, (0 : BitVec 7)⟩, none)
  | .pand g d a b => (⟨16, g, 0, (0 : BitVec 4) ++ d, (0 : BitVec 4) ++ a, (0 : BitVec 4) ++ b⟩, none)
  | .por g d a b => (⟨16, g, 1, (0 : BitVec 4) ++ d, (0 : BitVec 4) ++ a, (0 : BitVec 4) ++ b⟩, none)
  | .pxor g d a b => (⟨16, g, 2, (0 : BitVec 4) ++ d, (0 : BitVec 4) ++ a, (0 : BitVec 4) ++ b⟩, none)
  | .pnot g d a => (⟨16, g, 3, (0 : BitVec 4) ++ d, (0 : BitVec 4) ++ a, (0 : BitVec 7)⟩, none)
  | .pmov g d a => (⟨16, g, 4, (0 : BitVec 4) ++ d, (0 : BitVec 4) ++ a, (0 : BitVec 7)⟩, none)
  | .p2v g d a => (⟨16, g, 5, d, (0 : BitVec 4) ++ a, (0 : BitVec 7)⟩, none)
  | .v2p g d a => (⟨16, g, 6, (0 : BitVec 4) ++ d, a, (0 : BitVec 7)⟩, none)
  | .pany g d a => (⟨16, g, 7, (0 : BitVec 4) ++ d, (0 : BitVec 4) ++ a, (0 : BitVec 7)⟩, none)
  | .pall g d a => (⟨16, g, 8, (0 : BitVec 4) ++ d, (0 : BitVec 4) ++ a, (0 : BitVec 7)⟩, none)
  | .lea g s d a b => (⟨17, g, (0 : BitVec 1) ++ s, d ++ (0 : BitVec 1), a ++ (0 : BitVec 1), b⟩, none)
  | .tagq g d a => (⟨17, g, 8, d, a, (0 : BitVec 7)⟩, none)
  | .srd g d i => (⟨18, g, 0, d, i.extractLsb' 7 7, i.extractLsb' 0 7⟩, none)
  | .swr g d i => (⟨18, g, 1, d, i.extractLsb' 7 7, i.extractLsb' 0 7⟩, none)
  | .fadd g d a b => (⟨19, g, 0, d, a, b⟩, none)
  | .fsub g d a b => (⟨19, g, 1, d, a, b⟩, none)
  | .fmul g d a b => (⟨19, g, 2, d, a, b⟩, none)
  | .fma g d a b => (⟨19, g, 3, d, a, b⟩, none)
  | .fms g d a b => (⟨19, g, 4, d, a, b⟩, none)
  | .fnma g d a b => (⟨19, g, 5, d, a, b⟩, none)
  | .fmin g d a b => (⟨19, g, 6, d, a, b⟩, none)
  | .fmax g d a b => (⟨19, g, 7, d, a, b⟩, none)
  | .fminn g d a b => (⟨19, g, 8, d, a, b⟩, none)
  | .fmaxn g d a b => (⟨19, g, 9, d, a, b⟩, none)
  | .fabs g d a => (⟨19, g, 10, d, a, (0 : BitVec 7)⟩, none)
  | .fneg g d a => (⟨19, g, 11, d, a, (0 : BitVec 7)⟩, none)
  | .fcpsgn g d a b => (⟨19, g, 12, d, a, b⟩, none)
  | .frint g d a m => (⟨19, g, 13, d, a, (0 : BitVec 4) ++ m⟩, none)
  | .ffrac g d a => (⟨19, g, 14, d, a, (0 : BitVec 7)⟩, none)
  | .fsat g d a => (⟨19, g, 15, d, a, (0 : BitVec 7)⟩, none)
  | .fcmpEq g c p a b => (⟨20, g, 0, (0 : BitVec 2) ++ c ++ p, a, b⟩, none)
  | .fcmpNe g c p a b => (⟨20, g, 1, (0 : BitVec 2) ++ c ++ p, a, b⟩, none)
  | .fcmpLt g c p a b => (⟨20, g, 2, (0 : BitVec 2) ++ c ++ p, a, b⟩, none)
  | .fcmpLe g c p a b => (⟨20, g, 3, (0 : BitVec 2) ++ c ++ p, a, b⟩, none)
  | .fcmpGt g c p a b => (⟨20, g, 4, (0 : BitVec 2) ++ c ++ p, a, b⟩, none)
  | .fcmpGe g c p a b => (⟨20, g, 5, (0 : BitVec 2) ++ c ++ p, a, b⟩, none)
  | .fcmpUn g c p a b => (⟨20, g, 6, (0 : BitVec 2) ++ c ++ p, a, b⟩, none)
  | .fcmpOr g c p a b => (⟨20, g, 7, (0 : BitVec 2) ++ c ++ p, a, b⟩, none)
  | .fclass g d a => (⟨20, g, 8, d, a, (0 : BitVec 7)⟩, none)
  | .rcp g d a => (⟨21, g, 0, d, a, (0 : BitVec 7)⟩, none)
  | .rsqrt g d a => (⟨21, g, 1, d, a, (0 : BitVec 7)⟩, none)
  | .sqrt g d a => (⟨21, g, 2, d, a, (0 : BitVec 7)⟩, none)
  | .exp2 g d a => (⟨21, g, 3, d, a, (0 : BitVec 7)⟩, none)
  | .log2 g d a => (⟨21, g, 4, d, a, (0 : BitVec 7)⟩, none)
  | .sinpi g d a => (⟨21, g, 5, d, a, (0 : BitVec 7)⟩, none)
  | .cospi g d a => (⟨21, g, 6, d, a, (0 : BitVec 7)⟩, none)
  | .tanh g d a => (⟨21, g, 7, d, a, (0 : BitVec 7)⟩, none)
  | .sigm g d a => (⟨21, g, 8, d, a, (0 : BitVec 7)⟩, none)
  | .hadd2F16 g d a b => (⟨22, g, 0, d, a, b⟩, none)
  | .hsub2F16 g d a b => (⟨22, g, 1, d, a, b⟩, none)
  | .hmul2F16 g d a b => (⟨22, g, 2, d, a, b⟩, none)
  | .hfma2F16 g d a b => (⟨22, g, 3, d, a, b⟩, none)
  | .hmin2F16 g d a b => (⟨22, g, 4, d, a, b⟩, none)
  | .hmax2F16 g d a b => (⟨22, g, 5, d, a, b⟩, none)
  | .hadd2Bf16 g d a b => (⟨22, g, 8, d, a, b⟩, none)
  | .hsub2Bf16 g d a b => (⟨22, g, 9, d, a, b⟩, none)
  | .hmul2Bf16 g d a b => (⟨22, g, 10, d, a, b⟩, none)
  | .hfma2Bf16 g d a b => (⟨22, g, 11, d, a, b⟩, none)
  | .hmin2Bf16 g d a b => (⟨22, g, 12, d, a, b⟩, none)
  | .hmax2Bf16 g d a b => (⟨22, g, 13, d, a, b⟩, none)
  | .cvt g s d a e m => (⟨23, g, s, d, a, e ++ m⟩, none)
  | .fmtSet g s v => (⟨24, g, 0, (0 : BitVec 4) ++ s, (0 : BitVec 7), v⟩, none)
  | .fmtGet g d s => (⟨24, g, 1, d, (0 : BitVec 7), (0 : BitVec 4) ++ s⟩, none)
  | .sbexp g d a => (⟨24, g, 2, d, a ++ (0 : BitVec 4), (0 : BitVec 7)⟩, none)
  | .sbq g d a w b => (⟨24, g, 3, d, a ++ (0 : BitVec 2) ++ w, b⟩, none)
  | .sbdq g d w a b => (⟨24, g, 4, d ++ (0 : BitVec 2) ++ w, a, b⟩, none)
  | .mxexp g d a e => (⟨24, g, 5, d, a ++ (0 : BitVec 1), (0 : BitVec 3) ++ e⟩, none)
  | .mxq g d a b => (⟨24, g, 6, d, a ++ (0 : BitVec 1), b⟩, none)
  | .mxdq g d a b => (⟨24, g, 7, d ++ (0 : BitVec 1), a, b⟩, none)
  | .pack g d a e => (⟨24, g, 8, d, a, (0 : BitVec 3) ++ e⟩, none)
  | .unpack g d a e => (⟨24, g, 9, d, a, (0 : BitVec 3) ++ e⟩, none)
  | .uexp g d a w => (⟨24, g, 10, d, a ++ (0 : BitVec 2) ++ w, (0 : BitVec 7)⟩, none)
  | .tshape g d a => (⟨25, g, 0, (0 : BitVec 1) ++ d, a, (0 : BitVec 7)⟩, none)
  | .tzero g d => (⟨25, g, 1, (0 : BitVec 1) ++ d, (0 : BitVec 7), (0 : BitVec 7)⟩, none)
  | .tinfo g d a => (⟨25, g, 2, d ++ (0 : BitVec 1), (0 : BitVec 1) ++ a, (0 : BitVec 7)⟩, none)
  | .tfill g d a => (⟨25, g, 3, (0 : BitVec 1) ++ d, a, (0 : BitVec 7)⟩, none)
  | .tfree g d => (⟨25, g, 4, (0 : BitVec 1) ++ d, (0 : BitVec 7), (0 : BitVec 7)⟩, none)
  | .tmask g d a => (⟨25, g, 5, (0 : BitVec 1) ++ d, a, (0 : BitVec 7)⟩, none)
  | .tmaskClr g d => (⟨25, g, 5, (0 : BitVec 1) ++ d, (0 : BitVec 7), (1 : BitVec 7)⟩, none)
  | .mma g d x a y b => (⟨26, g, 0, (0 : BitVec 1) ++ d, x ++ a, y ++ b⟩, none)
  | .mmaZ g d x a y b => (⟨26, g, 1, (0 : BitVec 1) ++ d, x ++ a, y ++ b⟩, none)
  | .mmi g d x a y b => (⟨26, g, 2, (0 : BitVec 1) ++ d, x ++ a, y ++ b⟩, none)
  | .mmiZ g d x a y b => (⟨26, g, 3, (0 : BitVec 1) ++ d, x ++ a, y ++ b⟩, none)
  | .mmas g d x a y b pat mt => (⟨27, g, 0, (0 : BitVec 1) ++ d, x ++ a, y ++ b⟩, some ((0 : BitVec 19) ++ pat ++ mt))
  | .mmasZ g d x a y b pat mt => (⟨27, g, 1, (0 : BitVec 1) ++ d, x ++ a, y ++ b⟩, some ((0 : BitVec 19) ++ pat ++ mt))
  | .mmis g d x a y b pat mt => (⟨27, g, 2, (0 : BitVec 1) ++ d, x ++ a, y ++ b⟩, some ((0 : BitVec 19) ++ pat ++ mt))
  | .mmisZ g d x a y b pat mt => (⟨27, g, 3, (0 : BitVec 1) ++ d, x ++ a, y ++ b⟩, some ((0 : BitVec 19) ++ pat ++ mt))
  | .trow g d a b => (⟨28, g, 0, d, (0 : BitVec 1) ++ a, b⟩, none)
  | .twrow g d a b => (⟨28, g, 1, (0 : BitVec 1) ++ d, a, b⟩, none)
  | .tcol g d a b => (⟨28, g, 2, d, (0 : BitVec 1) ++ a, b⟩, none)
  | .twcol g d a b => (⟨28, g, 3, (0 : BitVec 1) ++ d, a, b⟩, none)
  | .tlds g d a b => (⟨28, g, 4, (0 : BitVec 1) ++ d, a, b⟩, none)
  | .tsts g d a b => (⟨28, g, 5, (0 : BitVec 1) ++ d, a, b⟩, none)
  | .tldg g d a b => (⟨28, g, 6, (0 : BitVec 1) ++ d, a ++ (0 : BitVec 1), b⟩, none)
  | .tstg g d a b => (⟨28, g, 7, (0 : BitVec 1) ++ d, a ++ (0 : BitVec 1), b⟩, none)
  | .mbclose g d => (⟨29, g, 0, d, (0 : BitVec 7), (0 : BitVec 7)⟩, none)
  | .mbstat g d => (⟨29, g, 1, d, (0 : BitVec 7), (0 : BitVec 7)⟩, none)
  | .ldI8 g d a o => (⟨30, g, 0, d, a ++ (0 : BitVec 1), o⟩, none)
  | .ldZ8 g d a o => (⟨30, g, 1, d, a ++ (0 : BitVec 1), o⟩, none)
  | .ldI16 g d a o => (⟨30, g, 2, d, a ++ (0 : BitVec 1), o⟩, none)
  | .ldZ16 g d a o => (⟨30, g, 3, d, a ++ (0 : BitVec 1), o⟩, none)
  | .ld32 g d a o => (⟨30, g, 4, d, a ++ (0 : BitVec 1), o⟩, none)
  | .ld64 g d a o => (⟨30, g, 5, d ++ (0 : BitVec 1), a ++ (0 : BitVec 1), o⟩, none)
  | .ld128 g d a o => (⟨30, g, 6, d ++ (0 : BitVec 2), a ++ (0 : BitVec 1), o⟩, none)
  | .ldB g d a o => (⟨30, g, 7, d, a ++ (0 : BitVec 1), o⟩, none)
  | .st8 g d a o => (⟨31, g, 0, d, a ++ (0 : BitVec 1), o⟩, none)
  | .st16 g d a o => (⟨31, g, 1, d, a ++ (0 : BitVec 1), o⟩, none)
  | .st32 g d a o => (⟨31, g, 2, d, a ++ (0 : BitVec 1), o⟩, none)
  | .st64 g d a o => (⟨31, g, 3, d ++ (0 : BitVec 1), a ++ (0 : BitVec 1), o⟩, none)
  | .st128 g d a o => (⟨31, g, 4, d ++ (0 : BitVec 2), a ++ (0 : BitVec 1), o⟩, none)
  | .stN4 g d a o => (⟨31, g, 5, d, a ++ (0 : BitVec 1), o⟩, none)
  | .stN2 g d a o => (⟨31, g, 6, d, a ++ (0 : BitVec 1), o⟩, none)
  | .ldsI8 g d a o => (⟨32, g, 0, d, a, o⟩, none)
  | .ldsZ8 g d a o => (⟨32, g, 1, d, a, o⟩, none)
  | .ldsI16 g d a o => (⟨32, g, 2, d, a, o⟩, none)
  | .ldsZ16 g d a o => (⟨32, g, 3, d, a, o⟩, none)
  | .lds32 g d a o => (⟨32, g, 4, d, a, o⟩, none)
  | .lds64 g d a o => (⟨32, g, 5, d ++ (0 : BitVec 1), a, o⟩, none)
  | .lds128 g d a o => (⟨32, g, 6, d ++ (0 : BitVec 2), a, o⟩, none)
  | .ldsB g d a o => (⟨32, g, 7, d, a, o⟩, none)
  | .sts8 g d a o => (⟨33, g, 0, d, a, o⟩, none)
  | .sts16 g d a o => (⟨33, g, 1, d, a, o⟩, none)
  | .sts32 g d a o => (⟨33, g, 2, d, a, o⟩, none)
  | .sts64 g d a o => (⟨33, g, 3, d ++ (0 : BitVec 1), a, o⟩, none)
  | .sts128 g d a o => (⟨33, g, 4, d ++ (0 : BitVec 2), a, o⟩, none)
  | .stsN4 g d a o => (⟨33, g, 5, d, a, o⟩, none)
  | .stsN2 g d a o => (⟨33, g, 6, d, a, o⟩, none)
  | .ldx g d a l c z o => (⟨34, g, 0, d, a ++ (0 : BitVec 1), l ++ c ++ z⟩, some ((0 : BitVec 2) ++ o))
  | .stx g d a l c z o => (⟨34, g, 1, d, a ++ (0 : BitVec 1), l ++ c ++ z⟩, some ((0 : BitVec 2) ++ o))
  | .ldsx g d a z o => (⟨34, g, 2, d, a, (0 : BitVec 4) ++ z⟩, some ((0 : BitVec 2) ++ o))
  | .stsx g d a z o => (⟨34, g, 3, d, a, (0 : BitVec 4) ++ z⟩, some ((0 : BitVec 2) ++ o))
  | .ldAcq32 g d a s => (⟨35, g, 0, d, a ++ (0 : BitVec 1), s ++ (0 : BitVec 5)⟩, none)
  | .ldAcq64 g d a s => (⟨35, g, 1, d ++ (0 : BitVec 1), a ++ (0 : BitVec 1), s ++ (0 : BitVec 5)⟩, none)
  | .stRel32 g d a s => (⟨35, g, 2, d, a ++ (0 : BitVec 1), s ++ (0 : BitVec 5)⟩, none)
  | .stRel64 g d a s => (⟨35, g, 3, d ++ (0 : BitVec 1), a ++ (0 : BitVec 1), s ++ (0 : BitVec 5)⟩, none)
  | .fenceAcq g s => (⟨35, g, 4, (0 : BitVec 7), (0 : BitVec 7), s ++ (0 : BitVec 5)⟩, none)
  | .fenceRel g s => (⟨35, g, 5, (0 : BitVec 7), (0 : BitVec 7), s ++ (0 : BitVec 5)⟩, none)
  | .fenceAr g s => (⟨35, g, 6, (0 : BitVec 7), (0 : BitVec 7), s ++ (0 : BitVec 5)⟩, none)
  | .fenceSc g s => (⟨35, g, 7, (0 : BitVec 7), (0 : BitVec 7), s ++ (0 : BitVec 5)⟩, none)
  | .pf g a o => (⟨36, g, 0, (0 : BitVec 7), a ++ (0 : BitVec 1), o⟩, none)
  | .pf2 g a o => (⟨36, g, 1, (0 : BitVec 7), a ++ (0 : BitVec 1), o⟩, none)
  | .icinv g a s => (⟨36, g, 2, (0 : BitVec 7), a ++ (0 : BitVec 1), s ++ (0 : BitVec 5)⟩, none)
  | .l1inv g a => (⟨36, g, 3, (0 : BitVec 7), a ++ (0 : BitVec 1), (0 : BitVec 7)⟩, none)
  | .l1invAll g => (⟨36, g, 3, (0 : BitVec 7), (0 : BitVec 7), (1 : BitVec 7)⟩, none)
  | .evict g a => (⟨36, g, 4, (0 : BitVec 7), a ++ (0 : BitVec 1), (0 : BitVec 7)⟩, none)
  | .l2part g d a => (⟨36, g, 5, d, a, (0 : BitVec 7)⟩, none)
  | .wpath g a p => (⟨37, g, 0, (0 : BitVec 7), a, (0 : BitVec 5) ++ p⟩, none)
  | .wbatch g a => (⟨37, g, 1, (0 : BitVec 7), a, (0 : BitVec 7)⟩, none)
  | .wfut g d k => (⟨37, g, 2, d, (0 : BitVec 7), (0 : BitVec 2) ++ k⟩, none)
  | .wany g d a => (⟨37, g, 3, d, a, (0 : BitVec 7)⟩, none)
  | .fpoll g d k => (⟨37, g, 4, d, (0 : BitVec 7), (0 : BitVec 2) ++ k⟩, none)
  | .wtree g d a => (⟨37, g, 5, d, a, (0 : BitVec 7)⟩, none)
  | .rclk g d => (⟨38, g, 0, d, (0 : BitVec 7), (0 : BitVec 7)⟩, none)
  | .rtick g => (⟨38, g, 1, (0 : BitVec 7), (0 : BitVec 7), (0 : BitVec 7)⟩, none)
  | .rmode g m => (⟨38, g, 2, (0 : BitVec 7), (0 : BitVec 7), (0 : BitVec 5) ++ m⟩, none)
  | .rnext g d => (⟨38, g, 3, d, (0 : BitVec 7), (0 : BitVec 7)⟩, none)
  | .rclr g a b => (⟨38, g, 4, (0 : BitVec 7), a ++ (0 : BitVec 1), b⟩, none)
  | .aadd g d a o s => (⟨39, g, 0, d, a ++ (0 : BitVec 1), (0 : BitVec 3) ++ o ++ s⟩, none)
  | .aaddF32 g d a o s => (⟨39, g, 1, d, a ++ (0 : BitVec 1), (0 : BitVec 3) ++ o ++ s⟩, none)
  | .aaddBf16x2 g d a o s => (⟨39, g, 2, d, a ++ (0 : BitVec 1), (0 : BitVec 3) ++ o ++ s⟩, none)
  | .aaddF16x2 g d a o s => (⟨39, g, 3, d, a ++ (0 : BitVec 1), (0 : BitVec 3) ++ o ++ s⟩, none)
  | .aminI g d a o s => (⟨39, g, 4, d, a ++ (0 : BitVec 1), (0 : BitVec 3) ++ o ++ s⟩, none)
  | .amaxI g d a o s => (⟨39, g, 5, d, a ++ (0 : BitVec 1), (0 : BitVec 3) ++ o ++ s⟩, none)
  | .aminZ g d a o s => (⟨39, g, 6, d, a ++ (0 : BitVec 1), (0 : BitVec 3) ++ o ++ s⟩, none)
  | .amaxZ g d a o s => (⟨39, g, 7, d, a ++ (0 : BitVec 1), (0 : BitVec 3) ++ o ++ s⟩, none)
  | .aand g d a o s => (⟨39, g, 8, d, a ++ (0 : BitVec 1), (0 : BitVec 3) ++ o ++ s⟩, none)
  | .aor g d a o s => (⟨39, g, 9, d, a ++ (0 : BitVec 1), (0 : BitVec 3) ++ o ++ s⟩, none)
  | .axor g d a o s => (⟨39, g, 10, d, a ++ (0 : BitVec 1), (0 : BitVec 3) ++ o ++ s⟩, none)
  | .axch g d a o s => (⟨39, g, 11, d, a ++ (0 : BitVec 1), (0 : BitVec 3) ++ o ++ s⟩, none)
  | .ainc g d a o s => (⟨39, g, 12, d, a ++ (0 : BitVec 1), (0 : BitVec 3) ++ o ++ s⟩, none)
  | .adec g d a o s => (⟨39, g, 13, d, a ++ (0 : BitVec 1), (0 : BitVec 3) ++ o ++ s⟩, none)
  | .aminF32 g d a o s => (⟨39, g, 14, d, a ++ (0 : BitVec 1), (0 : BitVec 3) ++ o ++ s⟩, none)
  | .amaxF32 g d a o s => (⟨39, g, 15, d, a ++ (0 : BitVec 1), (0 : BitVec 3) ++ o ++ s⟩, none)
  | .aadd64 g d a o s p => (⟨40, g, 0, d ++ (0 : BitVec 1), a, (0 : BitVec 3) ++ o ++ s⟩, some ((0 : BitVec 18) ++ p ++ (0 : BitVec 7)))
  | .aminI64 g d a o s p => (⟨40, g, 1, d ++ (0 : BitVec 1), a, (0 : BitVec 3) ++ o ++ s⟩, some ((0 : BitVec 18) ++ p ++ (0 : BitVec 7)))
  | .amaxI64 g d a o s p => (⟨40, g, 2, d ++ (0 : BitVec 1), a, (0 : BitVec 3) ++ o ++ s⟩, some ((0 : BitVec 18) ++ p ++ (0 : BitVec 7)))
  | .aminZ64 g d a o s p => (⟨40, g, 3, d ++ (0 : BitVec 1), a, (0 : BitVec 3) ++ o ++ s⟩, some ((0 : BitVec 18) ++ p ++ (0 : BitVec 7)))
  | .amaxZ64 g d a o s p => (⟨40, g, 4, d ++ (0 : BitVec 1), a, (0 : BitVec 3) ++ o ++ s⟩, some ((0 : BitVec 18) ++ p ++ (0 : BitVec 7)))
  | .axch64 g d a o s p => (⟨40, g, 5, d ++ (0 : BitVec 1), a, (0 : BitVec 3) ++ o ++ s⟩, some ((0 : BitVec 18) ++ p ++ (0 : BitVec 7)))
  | .acas g d a o s p c => (⟨40, g, 6, d, a, (0 : BitVec 3) ++ o ++ s⟩, some ((0 : BitVec 18) ++ p ++ c))
  | .acas64 g d a o s p c => (⟨40, g, 7, d ++ (0 : BitVec 1), a, (0 : BitVec 3) ++ o ++ s⟩, some ((0 : BitVec 18) ++ p ++ c ++ (0 : BitVec 1)))
  | .acas128 g d a o s p c => (⟨40, g, 8, d ++ (0 : BitVec 2), a, (0 : BitVec 3) ++ o ++ s⟩, some ((0 : BitVec 18) ++ p ++ c ++ (0 : BitVec 2)))
  | .amaxp g d a o s p => (⟨40, g, 9, d ++ (0 : BitVec 2), a, (0 : BitVec 3) ++ o ++ s⟩, some ((0 : BitVec 18) ++ p ++ (0 : BitVec 7)))
  | .redAdd g d a o s => (⟨41, g, 0, d, a ++ (0 : BitVec 1), (0 : BitVec 3) ++ o ++ (0 : BitVec 1) ++ s⟩, none)
  | .redAddF32 g d a o s => (⟨41, g, 1, d, a ++ (0 : BitVec 1), (0 : BitVec 3) ++ o ++ (0 : BitVec 1) ++ s⟩, none)
  | .redAddBf16x2 g d a o s => (⟨41, g, 2, d, a ++ (0 : BitVec 1), (0 : BitVec 3) ++ o ++ (0 : BitVec 1) ++ s⟩, none)
  | .redAddF16x2 g d a o s => (⟨41, g, 3, d, a ++ (0 : BitVec 1), (0 : BitVec 3) ++ o ++ (0 : BitVec 1) ++ s⟩, none)
  | .redMinI g d a o s => (⟨41, g, 4, d, a ++ (0 : BitVec 1), (0 : BitVec 3) ++ o ++ (0 : BitVec 1) ++ s⟩, none)
  | .redMaxI g d a o s => (⟨41, g, 5, d, a ++ (0 : BitVec 1), (0 : BitVec 3) ++ o ++ (0 : BitVec 1) ++ s⟩, none)
  | .redMinZ g d a o s => (⟨41, g, 6, d, a ++ (0 : BitVec 1), (0 : BitVec 3) ++ o ++ (0 : BitVec 1) ++ s⟩, none)
  | .redMaxZ g d a o s => (⟨41, g, 7, d, a ++ (0 : BitVec 1), (0 : BitVec 3) ++ o ++ (0 : BitVec 1) ++ s⟩, none)
  | .redAnd g d a o s => (⟨41, g, 8, d, a ++ (0 : BitVec 1), (0 : BitVec 3) ++ o ++ (0 : BitVec 1) ++ s⟩, none)
  | .redOr g d a o s => (⟨41, g, 9, d, a ++ (0 : BitVec 1), (0 : BitVec 3) ++ o ++ (0 : BitVec 1) ++ s⟩, none)
  | .redXor g d a o s => (⟨41, g, 10, d, a ++ (0 : BitVec 1), (0 : BitVec 3) ++ o ++ (0 : BitVec 1) ++ s⟩, none)
  | .redAdd64 g d a o s => (⟨41, g, 11, d ++ (0 : BitVec 1), a ++ (0 : BitVec 1), (0 : BitVec 3) ++ o ++ (0 : BitVec 1) ++ s⟩, none)
  | .redMinF32 g d a o s => (⟨41, g, 12, d, a ++ (0 : BitVec 1), (0 : BitVec 3) ++ o ++ (0 : BitVec 1) ++ s⟩, none)
  | .redMaxF32 g d a o s => (⟨41, g, 13, d, a ++ (0 : BitVec 1), (0 : BitVec 3) ++ o ++ (0 : BitVec 1) ++ s⟩, none)
  | .vconf g d a w => (⟨42, g, 0, d, a, (0 : BitVec 6) ++ w⟩, none)
  | .vconfl g d a w => (⟨42, g, 1, d, a, (0 : BitVec 6) ++ w⟩, none)
  | .vuniq g d a w => (⟨42, g, 2, d, a, (0 : BitVec 6) ++ w⟩, none)
  | .scombF32 g d a => (⟨42, g, 3, d, a ++ (0 : BitVec 1), (0 : BitVec 7)⟩, none)
  | .scombI32 g d a => (⟨42, g, 4, d, a ++ (0 : BitVec 1), (0 : BitVec 7)⟩, none)
  | .scombBf16x2 g d a => (⟨42, g, 5, d, a ++ (0 : BitVec 1), (0 : BitVec 7)⟩, none)
  | .barArr g d a b => (⟨43, g, 0, d, a, b⟩, none)
  | .barWait g a b => (⟨43, g, 1, (0 : BitVec 7), a, b⟩, none)
  | .barSync g a => (⟨43, g, 2, (0 : BitVec 7), a, (0 : BitVec 7)⟩, none)
  | .barInit g a b => (⟨43, g, 3, (0 : BitVec 7), a, b⟩, none)
  | .barArrx g d a b => (⟨43, g, 4, d, a, b⟩, none)
  | .cbarInit g d a => (⟨43, g, 5, d, a, (0 : BitVec 7)⟩, none)
  | .cbarArr g d a => (⟨43, g, 5, d, a, (1 : BitVec 7)⟩, none)
  | .cbarWait g d a => (⟨43, g, 5, d, a, (2 : BitVec 7)⟩, none)
  | .cbarSync g a => (⟨43, g, 5, (0 : BitVec 7), a, (3 : BitVec 7)⟩, none)
  | .waddrEq g d a s => (⟨44, g, 0, d ++ (0 : BitVec 1), a ++ (0 : BitVec 1), (0 : BitVec 5) ++ s⟩, none)
  | .waddrNe g d a s => (⟨44, g, 1, d ++ (0 : BitVec 1), a ++ (0 : BitVec 1), (0 : BitVec 5) ++ s⟩, none)
  | .waddrLt g d a s => (⟨44, g, 2, d ++ (0 : BitVec 1), a ++ (0 : BitVec 1), (0 : BitVec 5) ++ s⟩, none)
  | .waddrGe g d a s => (⟨44, g, 3, d ++ (0 : BitVec 1), a ++ (0 : BitVec 1), (0 : BitVec 5) ++ s⟩, none)
  | .waddrAny g d a s => (⟨44, g, 4, d ++ (0 : BitVec 1), a ++ (0 : BitVec 1), (0 : BitVec 5) ++ s⟩, none)
  | .cpt g d a b l s e q k p => (⟨45, g, 0, d, a ++ (0 : BitVec 3), b ++ (0 : BitVec 2)⟩, some ((0 : BitVec 7) ++ (0 : BitVec 4) ++ (0 : BitVec 1) ++ (0 : BitVec 4) ++ l ++ s ++ e ++ q ++ k ++ p))
  | .cpm g d a b m l s e q p => (⟨45, g, 1, d, a ++ (0 : BitVec 3), b ++ (0 : BitVec 2)⟩, some ((0 : BitVec 7) ++ (0 : BitVec 4) ++ (0 : BitVec 1) ++ m ++ l ++ s ++ e ++ q ++ (0 : BitVec 1) ++ p))
  | .cps g d a b l s e q k p => (⟨45, g, 2, d, a ++ (0 : BitVec 3), b ++ (0 : BitVec 2)⟩, some ((0 : BitVec 7) ++ (0 : BitVec 4) ++ (0 : BitVec 1) ++ (0 : BitVec 4) ++ l ++ s ++ e ++ q ++ k ++ p))
  | .cpf g d a b w l s e q k p => (⟨45, g, 3, d, a ++ (0 : BitVec 1), b ++ (0 : BitVec 1)⟩, some ((0 : BitVec 7) ++ (0 : BitVec 4) ++ w ++ (0 : BitVec 4) ++ l ++ s ++ e ++ q ++ k ++ p))
  | .cpr g d a b r l s e q k p => (⟨45, g, 4, d, a ++ (0 : BitVec 3), b ++ (0 : BitVec 2)⟩, some ((0 : BitVec 7) ++ r ++ (0 : BitVec 1) ++ (0 : BitVec 4) ++ l ++ s ++ e ++ q ++ k ++ p))
  | .gth g d a b l s e q k p => (⟨46, g, 0, d, a ++ (0 : BitVec 2), b ++ (0 : BitVec 2)⟩, some ((0 : BitVec 7) ++ (0 : BitVec 4) ++ (0 : BitVec 1) ++ (0 : BitVec 4) ++ l ++ s ++ e ++ q ++ k ++ p))
  | .sct g d a b l s e q k p => (⟨46, g, 1, d, a ++ (0 : BitVec 2), b ++ (0 : BitVec 2)⟩, some ((0 : BitVec 7) ++ (0 : BitVec 4) ++ (0 : BitVec 1) ++ (0 : BitVec 4) ++ l ++ s ++ e ++ q ++ k ++ p))
  | .sctr g d a b r l s e q k p => (⟨46, g, 2, d, a ++ (0 : BitVec 2), b ++ (0 : BitVec 2)⟩, some ((0 : BitVec 7) ++ r ++ (0 : BitVec 1) ++ (0 : BitVec 4) ++ l ++ s ++ e ++ q ++ k ++ p))
  | .rbInit g a b => (⟨47, g, 0, (0 : BitVec 7), a, b⟩, none)
  | .rbAwait g d a b => (⟨47, g, 1, d ++ (0 : BitVec 1), a, b⟩, none)
  | .rbRel g a b => (⟨47, g, 2, (0 : BitVec 7), a, b⟩, none)
  | .rbStat g d a => (⟨47, g, 3, d ++ (0 : BitVec 1), a, (0 : BitVec 7)⟩, none)
  | .rbCred g d a b => (⟨47, g, 4, d, a, b⟩, none)
  | .spawn g d a k => (⟨48, g, 0, d, a ++ (0 : BitVec 1), (0 : BitVec 3) ++ k⟩, none)
  | .treeOpen g d => (⟨48, g, 1, d, (0 : BitVec 7), (0 : BitVec 7)⟩, none)
  | .treeClose g a => (⟨48, g, 2, (0 : BitVec 7), a, (0 : BitVec 7)⟩, none)
  | .treeCloseFree g a => (⟨48, g, 2, (0 : BitVec 7), a, (1 : BitVec 7)⟩, none)
  | .treeCancel g a => (⟨48, g, 3, (0 : BitVec 7), a, (0 : BitVec 7)⟩, none)
  | .treeStat g d a => (⟨48, g, 4, d ++ (0 : BitVec 1), a, (0 : BitVec 7)⟩, none)
  | .dlSet g a b => (⟨48, g, 5, (0 : BitVec 7), a, b ++ (0 : BitVec 1)⟩, none)
  | .dlGet g d a => (⟨48, g, 6, d ++ (0 : BitVec 1), a, (0 : BitVec 7)⟩, none)
  | .dlChk g d a => (⟨48, g, 7, d, a, (0 : BitVec 7)⟩, none)
  | .nalloc g d a => (⟨49, g, 0, d ++ (0 : BitVec 1), a, (0 : BitVec 7)⟩, none)
  | .nallocT g d a => (⟨49, g, 1, d ++ (0 : BitVec 1), a, (0 : BitVec 7)⟩, none)
  | .nfree g a b => (⟨49, g, 2, (0 : BitVec 7), a ++ (0 : BitVec 1), b⟩, none)
  | .nreset g a => (⟨49, g, 3, (0 : BitVec 7), a, (0 : BitVec 7)⟩, none)
  | .ninfo g d a => (⟨49, g, 4, d ++ (0 : BitVec 1), a, (0 : BitVec 7)⟩, none)
  | .cqPush g d a k => (⟨50, g, 0, d, a, (0 : BitVec 2) ++ k⟩, none)
  | .cqTake g d a t => (⟨50, g, 1, d ++ (0 : BitVec 1), a, (0 : BitVec 1) ++ t⟩, none)
  | .cqPut g a b => (⟨50, g, 2, (0 : BitVec 7), a ++ (0 : BitVec 1), b⟩, none)
  | .cqFlush g a => (⟨50, g, 3, (0 : BitVec 7), a, (0 : BitVec 7)⟩, none)
  | .cqCfg g a b => (⟨50, g, 4, (0 : BitVec 7), a, b⟩, none)
  | .cqStat g d a => (⟨50, g, 5, d ++ (0 : BitVec 1), a, (0 : BitVec 7)⟩, none)
  | .fdPop g d a => (⟨51, g, 0, d, a, (0 : BitVec 7)⟩, none)
  | .fdTry g d a => (⟨51, g, 1, d, a, (0 : BitVec 7)⟩, none)
  | .fdPush g a b => (⟨51, g, 2, (0 : BitVec 7), a, b⟩, none)
  | .fdStat g d a => (⟨51, g, 3, d ++ (0 : BitVec 1), a, (0 : BitVec 7)⟩, none)
  | .colRay g d a b s e q k => (⟨52, g, 0, d ++ (0 : BitVec 1), a ++ (0 : BitVec 1), b ++ (0 : BitVec 1)⟩, some ((0 : BitVec 17) ++ s ++ e ++ q ++ k))
  | .colSph g d a b s e q k => (⟨52, g, 1, d ++ (0 : BitVec 1), a ++ (0 : BitVec 1), b ++ (0 : BitVec 1)⟩, some ((0 : BitVec 17) ++ s ++ e ++ q ++ k))
  | .colBox g d a b s e q k => (⟨52, g, 2, d ++ (0 : BitVec 1), a ++ (0 : BitVec 1), b ++ (0 : BitVec 1)⟩, some ((0 : BitVec 17) ++ s ++ e ++ q ++ k))
  | .colSweep g d a b s e q k => (⟨52, g, 3, d ++ (0 : BitVec 1), a ++ (0 : BitVec 1), b ++ (0 : BitVec 1)⟩, some ((0 : BitVec 17) ++ s ++ e ++ q ++ k))
  | .colDist g d a b s e q k => (⟨52, g, 4, d ++ (0 : BitVec 1), a ++ (0 : BitVec 1), b ++ (0 : BitVec 1)⟩, some ((0 : BitVec 17) ++ s ++ e ++ q ++ k))
  | .colUpd g d a b s e q k => (⟨52, g, 5, d ++ (0 : BitVec 1), a ++ (0 : BitVec 1), b ++ (0 : BitVec 1)⟩, some ((0 : BitVec 17) ++ s ++ e ++ q ++ k))
  | .dynFk g d a b s e q k => (⟨53, g, 0, d ++ (0 : BitVec 1), a ++ (0 : BitVec 1), b ++ (0 : BitVec 1)⟩, some ((0 : BitVec 11) ++ (0 : BitVec 6) ++ s ++ e ++ q ++ k))
  | .dynId g d a b s e q k => (⟨53, g, 1, d ++ (0 : BitVec 1), a ++ (0 : BitVec 1), b ++ (0 : BitVec 1)⟩, some ((0 : BitVec 11) ++ (0 : BitVec 6) ++ s ++ e ++ q ++ k))
  | .dynFd g d a b s e q k => (⟨53, g, 2, d ++ (0 : BitVec 1), a ++ (0 : BitVec 1), b ++ (0 : BitVec 1)⟩, some ((0 : BitVec 11) ++ (0 : BitVec 6) ++ s ++ e ++ q ++ k))
  | .dynStep g d a b s e q k => (⟨53, g, 3, d ++ (0 : BitVec 1), a ++ (0 : BitVec 1), b ++ (0 : BitVec 1)⟩, some ((0 : BitVec 11) ++ (0 : BitVec 6) ++ s ++ e ++ q ++ k))
  | .dynJac g d a b n s e q k => (⟨53, g, 4, d ++ (0 : BitVec 1), a ++ (0 : BitVec 1), b ++ (0 : BitVec 1)⟩, some ((0 : BitVec 11) ++ n ++ s ++ e ++ q ++ k))
  | .dynMass g d a b s e q k => (⟨53, g, 5, d ++ (0 : BitVec 1), a ++ (0 : BitVec 1), b ++ (0 : BitVec 1)⟩, some ((0 : BitVec 11) ++ (0 : BitVec 6) ++ s ++ e ++ q ++ k))
  | .trap g i => (⟨54, g, 0, (0 : BitVec 7), i.extractLsb' 7 7, i.extractLsb' 0 7⟩, none)
  | .sys g d a s c => (⟨54, g, 1, d, a, s ++ c⟩, none)
  | .brk g i => (⟨54, g, 2, (0 : BitVec 7), i.extractLsb' 7 7, i.extractLsb' 0 7⟩, none)
  | .eret g => (⟨54, g, 3, (0 : BitVec 7), (0 : BitVec 7), (0 : BitVec 7)⟩, none)
  | .eretR g => (⟨54, g, 4, (0 : BitVec 7), (0 : BitVec 7), (0 : BitVec 7)⟩, none)
  | .tret g => (⟨54, g, 5, (0 : BitVec 7), (0 : BitVec 7), (0 : BitVec 7)⟩, none)
  | .phint g mh mm ml t r mt => (⟨55, g, 0, mh, mm, ml⟩, some ((0 : BitVec 5) ++ t ++ r ++ mt))
  | .ppoint g mh mm ml t r mt => (⟨55, g, 1, mh, mm, ml⟩, some ((0 : BitVec 5) ++ t ++ r ++ mt))
  | .tmark g a => (⟨56, g, 0, (0 : BitVec 7), a, (0 : BitVec 7)⟩, none)
  | .tstamp g d => (⟨56, g, 1, d ++ (0 : BitVec 1), (0 : BitVec 7), (0 : BitVec 7)⟩, none)
  | .pctr g d a => (⟨56, g, 2, d ++ (0 : BitVec 1), a, (0 : BitVec 7)⟩, none)
  | .tctlOff g => (⟨56, g, 3, (0 : BitVec 7), (0 : BitVec 7), (0 : BitVec 7)⟩, none)
  | .tctlOn g o => (⟨56, g, 3, (0 : BitVec 7), (0 : BitVec 7), (0 : BitVec 1) ++ o ++ (1 : BitVec 3)⟩, none)
  | .tctlFlush g => (⟨56, g, 3, (0 : BitVec 7), (0 : BitVec 7), (2 : BitVec 7)⟩, none)
  | _ => (⟨0, false, 0, 0, 0, 0⟩, none)

/-- The instruction's words in memory order (R58). -/
def encode (i : Instr) : List Word :=
  match encodeFields i with
  | (f, none) => [f.toWord]
  | (f, some x) => [f.toWord, extWord x]

/-- Decoding of an instruction's words; a missing second word reads as 0. -/
noncomputable def decodeWords : List Word → Except DecodeError Instr
  | [] => .error .reservedMajor
  | [w0] => decode w0 0
  | w0 :: w1 :: _ => decode w0 w1

/-- The instruction that the words of a row of the opcode table decode to: bit 0 is the least significant bit of the first word,
and the second word's bits count on from 32. -/
noncomputable def decodeTableWord (nbits w : Nat) : Option Instr :=
  match decode (BitVec.ofNat 32 (w % 2 ^ nbits)) (BitVec.ofNat 32 (w % 2 ^ nbits / 2 ^ 32)) with
  | .ok i => some i
  | .error _ => none

end Sys2Proof
end

