-- ==== Sys2Proof/Machine/Arith.lean ====
section
/-! DEFINITION. Sys2Proof/Machine/Arith.lean: the integer functions of Tables 6-1 to 6-7, on one lane's values. -/

namespace Sys2Proof.Machine

open Sys2Proof

def sext7 (i : BitVec 7) : Word := i.signExtend 32
def sext14 (i : BitVec 14) : Word := i.signExtend 32

def minI (a b : Word) : Word := if a.toInt ≤ b.toInt then a else b
def maxI (a b : Word) : Word := if a.toInt ≤ b.toInt then b else a
def minZ (a b : Word) : Word := if a.toNat ≤ b.toNat then a else b
def maxZ (a b : Word) : Word := if a.toNat ≤ b.toNat then b else a
def minI64 (a b : Word64) : Word64 := if a.toInt ≤ b.toInt then a else b
def maxI64 (a b : Word64) : Word64 := if a.toInt ≤ b.toInt then b else a
def minZ64 (a b : Word64) : Word64 := if a.toNat ≤ b.toNat then a else b
def maxZ64 (a b : Word64) : Word64 := if a.toNat ≤ b.toNat then b else a

/-- |a|, wrapping at the most negative value (Table 6-1). -/
def absI (a : Word) : Word := if a.toInt < 0 then 0 - a else a
def clampInt (lo hi x : Int) : Int := if x < lo then lo else if hi < x then hi else x
def satI (x : Int) : Word := BitVec.ofInt 32 (clampInt (-2147483648) 2147483647 x)
def satZ (x : Int) : Word := BitVec.ofInt 32 (clampInt 0 4294967295 x)
def addsI (a b : Word) : Word := satI (a.toInt + b.toInt)
def subsI (a b : Word) : Word := satI (a.toInt - b.toInt)
def addsZ (a b : Word) : Word := satZ (a.toNat + b.toNat)
def subsZ (a b : Word) : Word := satZ ((a.toNat : Int) - b.toNat)
/-- (a + b + 1) ÷ 2 in 33 bits. -/
def avgZ (a b : Word) : Word := BitVec.ofNat 32 ((a.toNat + b.toNat + 1) / 2)
/-- d + |a - b|, unsigned, wrapping. -/
def sadZ (a b d : Word) : Word := d + (if a.toNat ≤ b.toNat then b - a else a - b)

def mulhI (a b : Word) : Word := BitVec.ofInt 32 ((a.toInt * b.toInt) / 2 ^ 32)
def mulhZ (a b : Word) : Word := BitVec.ofNat 32 (a.toNat * b.toNat / 2 ^ 32)
def mulwI (a b : Word) : Word64 := BitVec.ofInt 64 (a.toInt * b.toInt)
def mulwZ (a b : Word) : Word64 := BitVec.ofNat 64 (a.toNat * b.toNat)
/-- Signed quotient toward zero with the defined values of Table 6-2. -/
def divI (a b : Word) : Word := if b = 0 then 0xFFFFFFFF else BitVec.ofInt 32 (a.toInt.tdiv b.toInt)
def divZ (a b : Word) : Word := if b = 0 then 0xFFFFFFFF else BitVec.ofNat 32 (a.toNat / b.toNat)
def remI (a b : Word) : Word := if b = 0 then a else BitVec.ofInt 32 (a.toInt.tmod b.toInt)
def remZ (a b : Word) : Word := if b = 0 then a else BitVec.ofNat 32 (a.toNat % b.toNat)
/-- Byte i of a word. -/
def byteOf (a : Word) (i : Nat) : Byte := a.extractLsb' (8 * i) 8
def dp4I (a b d : Word) : Word :=
  d + BitVec.ofInt 32 ([0, 1, 2, 3].foldl (fun n i => n + (byteOf a i).toInt * (byteOf b i).toInt) 0)
def dp4Z (a b d : Word) : Word :=
  d + BitVec.ofNat 32 ([0, 1, 2, 3].foldl (fun n i => n + (byteOf a i).toNat * (byteOf b i).toNat) 0)

def bits32 : List Nat := List.range 32
def popc (a : Word) : Word := BitVec.ofNat 32 (bits32.filter a.getLsbD).length
/-- Leading zeros, 32 for 0. -/
def clz (a : Word) : Word := BitVec.ofNat 32 ((bits32.takeWhile fun i => !a.getLsbD (31 - i)).length)
/-- Trailing zeros, 32 for 0. -/
def ctz (a : Word) : Word := BitVec.ofNat 32 ((bits32.takeWhile fun i => !a.getLsbD i).length)
def brev (a : Word) : Word := a.reverse
def bsel (a b d : Word) : Word := a &&& d ||| b &&& ~~~d

/-- One result byte of `prmt` (R130). -/
def prmtByte (a b d : Word) (i : Nat) : Byte :=
  let c := (byteOf d i).toNat
  let y := if c % 8 < 4 then byteOf a (c % 8) else byteOf b (c % 8 - 4)
  match c / 8 % 4 with
  | 0 => y
  | 1 => 0
  | 2 => if y.getLsbD 7 then 0xFF else 0
  | _ => ~~~y
def prmt (a b d : Word) : Word := prmtByte a b d 3 ++ prmtByte a b d 2 ++ prmtByte a b d 1 ++ prmtByte a b d 0

/-- Shifts by an unsigned amount; 32 and more shift everything out (Table 6-4). -/
def shl (a s : Word) : Word := a <<< s.toNat
def shrZ (a s : Word) : Word := a >>> s.toNat
def shrI (a s : Word) : Word := a.sshiftRight s.toNat
def rolW (a s : Word) : Word := a.rotateLeft (s.toNat % 32)
def rorW (a s : Word) : Word := a.rotateRight (s.toNat % 32)
def min32 (n : Nat) : Nat := if n ≤ 32 then n else 32
/-- Funnel shifts: a is the high word and d the low word. -/
def shlf (a s d : Word) : Word := ((a ++ d : BitVec 64) <<< min32 s.toNat).extractLsb' 32 32
def shrf (a s d : Word) : Word := ((a ++ d : BitVec 64) >>> min32 s.toNat).extractLsb' 0 32
/-- Position and length of a bit field. -/
def bfPos (b : Word) : Nat := min32 (b.toNat % 256)
def bfLen (b : Word) : Nat := min32 (b.toNat / 256 % 256)
def bfxZ (a b : Word) : Word := BitVec.ofNat 32 ((a >>> bfPos b).toNat % 2 ^ bfLen b)
def bfxI (a b : Word) : Word :=
  if bfLen b = 0 then 0
  else
    let f := (a.sshiftRight (bfPos b)).toNat % 2 ^ bfLen b
    if f < 2 ^ (bfLen b - 1) then BitVec.ofNat 32 f else BitVec.ofInt 32 ((f : Int) - 2 ^ bfLen b)
/-- Field insert; bits at positions 32 or above are dropped. -/
def bfi (a b d : Word) : Word :=
  let m : Word := BitVec.ofNat 32 ((2 ^ bfLen b - 1) * 2 ^ bfPos b)
  d &&& ~~~m ||| BitVec.ofNat 32 (a.toNat * 2 ^ bfPos b) &&& m

def shl64 (a : Word64) (s : Word) : Word64 := a <<< s.toNat
def shrZ64 (a : Word64) (s : Word) : Word64 := a >>> s.toNat
def shrI64 (a : Word64) (s : Word) : Word64 := a.sshiftRight s.toNat

/-- movhi: imm14 in bits [31:18], d[17:0] kept (Table 6-7). -/
def movhi (imm : BitVec 14) (d : Word) : Word := imm ++ d.extractLsb' 0 18

end Sys2Proof.Machine
end

