-- ==== Sys2Proof/Machine/Flags.lean ====
section
/-! DEFINITION. Sys2Proof/Machine/Flags.lean: the predicate computations: conditions, their combination into a predicate (R132),
the carry p6 (R128) and predicate logic (R137). -/

namespace Sys2Proof.Machine

open Sys2Proof

/-- The combine codes: set, and, or, xor (R132). -/
def combine (c : BitVec 2) (old new : Bool) : Bool :=
  match c.toNat with
  | 0 => new
  | 1 => old && new
  | 2 => old || new
  | _ => old != new

/-- A condition on two registers combined into pD in active lanes (R132, R150): every combine code but `set` reads pD. -/
def cmpOp (s : State) (g : Bool) (c : BitVec 2) (p : BitVec 3) (reads : List Nat) (f : Iss → Nat → Bool) : Res :=
  lanePred s g reads (if c = 0 then [] else [p.toNat]) p fun i l => combine c ((i.g.pred p.toNat).has l) (f i l)

/-- Register form of ICMP. -/
def cmpR (s : State) (g : Bool) (c : BitVec 2) (p : BitVec 3) (a b : Fld) (f : Word → Word → Bool) : Res :=
  cmpOp s g c p [a.toNat, b.toNat] fun i l => f (i.reg a.toNat l) (i.reg b.toNat l)
/-- Immediate form of ICMP (R85). -/
def cmpI (s : State) (g : Bool) (c : BitVec 2) (p : BitVec 3) (a : Fld) (b : Word) (f : Word → Word → Bool) : Res :=
  cmpOp s g c p [a.toNat] fun i l => f (i.reg a.toNat l) b

/-- A comparison of pairs (R133). -/
def cmpPair (s : State) (g : Bool) (c : BitVec 2) (p : BitVec 3) (a b : BitVec 6) (f : Word64 → Word64 → Bool) : Res :=
  cmpOp s g c p (pairOf a ++ pairOf b) fun i l => f (i.pair (pairFld a).toNat l) (i.pair (pairFld b).toNat l)

/-- The conditions of Table 6-5. -/
def condEq (a b : Word) : Bool := a == b
def condNe (a b : Word) : Bool := a != b
def condLtI (a b : Word) : Bool := decide (a.toInt < b.toInt)
def condLeI (a b : Word) : Bool := decide (a.toInt ≤ b.toInt)
def condGtI (a b : Word) : Bool := decide (b.toInt < a.toInt)
def condGeI (a b : Word) : Bool := decide (b.toInt ≤ a.toInt)
def condLtZ (a b : Word) : Bool := decide (a.toNat < b.toNat)
def condLeZ (a b : Word) : Bool := decide (a.toNat ≤ b.toNat)
def condGtZ (a b : Word) : Bool := decide (b.toNat < a.toNat)
def condGeZ (a b : Word) : Bool := decide (b.toNat ≤ a.toNat)
def condTst (a b : Word) : Bool := a &&& b != 0
def condTstn (a b : Word) : Bool := a &&& b == 0

/-- The carry in of `addc` and `subb` as a number. -/
def carryNat (b : Bool) : Nat := if b then 1 else 0

/-- An add or subtract with carry: result and new p6 from a, b and the old p6 (R128); only active lanes of d and p6 change. -/
def carryOp (s : State) (g : Bool) (d : Fld) (reads : List Nat) (b : Iss → Nat → Word) (a : Iss → Nat → Word)
    (f : Word → Word → Bool → Word × Bool) : Res :=
  withOperands s g reads [d.toNat] [6] (dests := [6]) fun i =>
    let r := fun l => f (a i l) (b i l) ((i.g.pred 6).has l)
    ((s.putReg i d.toNat fun l => (r l).1).putPred i 6 fun l => (r l).2).advance i

/-- a + b + p6, and whether the unsigned sum exceeds 2^32 - 1 (Table 6-1). -/
def addCarry (a b : Word) (c : Bool) : Word × Bool :=
  let n := a.toNat + b.toNat + carryNat c
  (BitVec.ofNat 32 n, decide (2 ^ 32 ≤ n))
/-- a - b - p6, and whether unsigned a < b + p6 (Table 6-1). -/
def subBorrow (a b : Word) (c : Bool) : Word × Bool :=
  (a - b - BitVec.ofNat 32 (carryNat c), decide (a.toNat < b.toNat + carryNat c))

/-- Predicate logic of two predicates in active lanes (R137). -/
def predOp2 (s : State) (g : Bool) (d a b : BitVec 3) (f : Bool → Bool → Bool) : Res :=
  lanePred s g [] [a.toNat, b.toNat] d fun i l => f ((i.g.pred a.toNat).has l) ((i.g.pred b.toNat).has l)
/-- Predicate logic of one predicate over the active lanes (R137). -/
def predOp1 (s : State) (g : Bool) (d a : BitVec 3) (f : Iss → Nat → Mask → Bool) : Res :=
  lanePred s g [] [a.toNat] d fun i l => f i l (i.g.pred a.toNat)

end Sys2Proof.Machine
end

