-- ==== Sys2Proof/Machine/Special.lean ====
section
/-! DEFINITION. Sys2Proof/Machine/Special.lean: the special functions of Table 7-2, correctly rounded (R152). The algebraic ones are
computed exactly with a sticky bit. The others are enclosed between two fixed-point numbers at a precision; when both round to the
same encoding, that is the correctly rounded result, else the precision is doubled. -/

namespace Sys2Proof.Machine

open Sys2Proof

/-- A value strictly between n and n + 1 units of 2^e stands as n + 1/2 when it is not n itself: with e far below the last place of
the result it rounds the same way. -/
def sticky (neg : Bool) (n : Nat) (exact : Bool) (e : Int) : Val := if exact then .fin neg n e else .fin neg (2 * n + 1) (e - 1)

/-- Steps of Newton's iteration for the integer square root. -/
def isqrtSteps : Nat → Nat → Nat → Nat
  | 0, _, x => x
  | k + 1, n, x => let y := (x + n / x) / 2; if y < x then isqrtSteps k n y else x
/-- The integer square root, rounded down. -/
def isqrt (n : Nat) : Nat := if n = 0 then 0 else isqrtSteps (Nat.log2 n + 8) n (2 ^ (Nat.log2 n / 2 + 1))

/-- 1/a (Table 7-2). -/
def rcpVal (v : Val) : Val :=
  match v with
  | .nan => .nan
  | .inf n => .fin n 0 0
  | .fin n m e => if m = 0 then .inf n else sticky n (2 ^ 240 / m) (2 ^ 240 % m == 0) (-240 - e)

/-- √a (Table 7-2). -/
def sqrtVal (v : Val) : Val :=
  match v with
  | .nan => .nan
  | .inf n => if n then .nan else .inf false
  | .fin n m e =>
    if m = 0 then v
    else if n then .nan
    else
      let (m, e) := if e % 2 = 0 then (m, e) else (2 * m, e - 1)
      let x := m * 2 ^ 160
      let r := isqrt x
      sticky false r (r * r == x) (e / 2 - 80)

/-- 1/√a (Table 7-2). -/
def rsqrtVal (v : Val) : Val :=
  match v with
  | .nan => .nan
  | .inf n => if n then .nan else .fin false 0 0
  | .fin n m e =>
    if m = 0 then .inf n
    else if n then .nan
    else
      let (m, e) := if e % 2 = 0 then (m, e) else (2 * m, e - 1)
      let r := isqrt (2 ^ 240 / m)
      sticky false r (r * r * m == 2 ^ 240) (-120 - e / 2)

/-! ### Fixed-point series: numbers are integers in units of 2^-q -/

/-- Σ over k of z^(2k+1)/(2k+1), the sign alternating when `alt` (atan, atanh), from the power p = z^(2k+1). -/
def oddSeries (q : Nat) (alt : Bool) (z2 : Nat) : Nat → Nat → Nat → Int → Int
  | 0, _, _, acc => acc
  | n + 1, k, p, acc =>
    let t : Int := p / (2 * k + 1)
    oddSeries q alt z2 n (k + 1) (p * z2 / 2 ^ q) (if alt && k % 2 == 1 then acc - t else acc + t)
/-- atanh and atan of z < 1. -/
def atanhFix (q z : Nat) : Int := oddSeries q false (z * z / 2 ^ q) q 0 z 0
def atanFix (q z : Nat) : Int := oddSeries q true (z * z / 2 ^ q) q 0 z 0
def ln2Fix (q : Nat) : Nat := (2 * atanhFix q (2 ^ q / 3)).toNat
def piFix (q : Nat) : Nat := (16 * atanFix q (2 ^ q / 5) - 4 * atanFix q (2 ^ q / 239)).toNat

/-- Σ x^k/k!, from the term t of index k. -/
def expSeries (q x : Nat) : Nat → Nat → Nat → Nat → Nat
  | 0, _, _, acc => acc
  | n + 1, k, t, acc => expSeries q x n (k + 1) (t * x / 2 ^ q / (k + 1)) (acc + t)
/-- e^x for x below 1. -/
def expFix (q x : Nat) : Nat := expSeries q x q 0 (2 ^ q) 0

/-- Alternating series of sine (k = 1) and cosine (k = 0) from the term t of degree k. -/
def trigSeries (q x2 : Nat) : Nat → Nat → Bool → Nat → Int → Int
  | 0, _, _, _, acc => acc
  | n + 1, k, minus, t, acc =>
    trigSeries q x2 n (k + 2) (!minus) (t * x2 / 2 ^ q / ((k + 1) * (k + 2))) (if minus then acc - t else acc + t)
def sinFix (q x : Nat) : Nat := (trigSeries q (x * x / 2 ^ q) q 1 false x 0).toNat
def cosFix (q x : Nat) : Nat := (trigSeries q (x * x / 2 ^ q) q 0 false (2 ^ q) 0).toNat

/-- m × 2^e in units of 2^-q, rounded down. -/
def fixOf (q m : Nat) (e : Int) : Nat :=
  let k := e + q
  if 0 ≤ k then m * 2 ^ k.toNat else m / 2 ^ (-k).toNat

/-- 2^x for x = m × 2^e ≥ 0 below 2^9, as mantissa in units of 2^-q and exponent. -/
def exp2Fix (q m : Nat) (e : Int) : Nat × Nat :=
  let x := fixOf q m e
  (expFix q (x % 2 ^ q * ln2Fix q / 2 ^ q), x / 2 ^ q)

/-- e^-x for x = m × 2^e ≥ 0, in units of 2^-q; above 2^12 it is below every unit that matters. -/
def expNegFix (q m : Nat) (e : Int) : Nat :=
  if 12 ≤ e + (Nat.log2 m : Nat) then 0
  else
    let x := fixOf q m e
    let l := ln2Fix q
    let k := x / l
    let r := expFix q (x - k * l)
    2 ^ (2 * q) / r / 2 ^ k

/-- A function's sign, its approximation in units of 2^-q and the exponent by which that is scaled. -/
structure Approx where
  neg : Bool
  n : Nat
  e : Int

/-- The six transcendental functions of a finite argument (-1)^neg × m × 2^e, m ≠ 0, apart from their exact cases. -/
def approx (fn q : Nat) (neg : Bool) (m : Nat) (e : Int) : Approx :=
  match fn with
  | 3 =>
    -- exp2: 2^-x = 2^(1-⌈x⌉) × 2^(⌈x⌉-x-1)
    if 9 ≤ e + (Nat.log2 m : Nat) then (if neg then ⟨false, 0, 0⟩ else ⟨false, 2 ^ q, 400⟩)
    else
      let (r, k) := exp2Fix q m e
      if neg then ⟨false, 2 ^ (2 * q) / r, -(k : Int)⟩ else ⟨false, r, k⟩
  | 4 =>
    -- log2 of m × 2^e
    let k := Nat.log2 m
    let x := fixOf q m (-(k : Int))
    let l := 2 * atanhFix q ((x - 2 ^ q) * 2 ^ q / (x + 2 ^ q))
    let t := (e + k) * 2 ^ q + l * 2 ^ q / (ln2Fix q : Int)
    ⟨decide (t < 0), t.natAbs, 0⟩
  | 5 =>
    -- sinpi, with the argument reduced modulo 2
    let r := if 0 ≤ e then (m * 2 ^ e.toNat % 2) * 2 ^ q else (m % 2 ^ (1 + (-e).toNat)) * 2 ^ q / 2 ^ (-e).toNat
    let up := decide (2 ^ q ≤ r)
    let r := r % 2 ^ q
    let y := if 2 * r ≤ 2 ^ q then r else 2 ^ q - r
    ⟨neg != up, sinFix q (y * piFix q / 2 ^ q), 0⟩
  | 6 =>
    let r := if 0 ≤ e then (m * 2 ^ e.toNat % 2) * 2 ^ q else (m % 2 ^ (1 + (-e).toNat)) * 2 ^ q / 2 ^ (-e).toNat
    -- cos(π r) for r in 0..2: even about 1, and odd about 1/2
    let r := if r ≤ 2 ^ q then r else 2 * 2 ^ q - r
    let minus := decide (2 ^ q < 2 * r)
    let y := if minus then 2 ^ q - r else r
    -- near 1/2 as a sine of the distance, so that small values keep their places
    ⟨minus, sinFix q ((2 ^ q - 2 * y) * piFix q / 2 ^ q / 2), 0⟩
  | 7 =>
    let t := expNegFix q m (e + 1)
    ⟨neg, (2 ^ q - t) * 2 ^ q / (2 ^ q + t), 0⟩
  | _ =>
    let t := expNegFix q m e
    if neg then ⟨false, t * 2 ^ q / (2 ^ q + t), 0⟩ else ⟨false, 2 ^ (2 * q) / (2 ^ q + t), 0⟩

/-- The result of a function at a precision: both ends of the enclosure rounded; a wider precision when they differ. -/
def enclose (ftz : Bool) (fn : Nat) (neg : Bool) (m : Nat) (e : Int) : Nat → Nat → Nat
  | 0, q => fp32.arith ftz (.fin (approx fn q neg m e).neg (approx fn q neg m e).n ((approx fn q neg m e).e - q))
  | k + 1, q =>
    let a := approx fn q neg m e
    let err := 2 ^ 32
    let lo := fp32.arith ftz (.fin a.neg (a.n - err) (a.e - q))
    let hi := fp32.arith ftz (.fin a.neg (a.n + err) (a.e - q))
    if lo = hi then lo else enclose ftz fn neg m e k (2 * q)

/-- Is m × 2^e an integer, and is it an odd multiple of 1/2? -/
def isIntegral (m : Nat) (e : Int) : Bool := decide (0 ≤ e) || m % 2 ^ (-e).toNat == 0
def isHalf (m : Nat) (e : Int) : Bool := !isIntegral m e && isIntegral m (e + 1)
def isOdd (m : Nat) (e : Int) : Bool := if 0 ≤ e then m * 2 ^ e.toNat % 2 == 1 else m / 2 ^ (-e).toNat % 2 == 1

/-- FSPEC on an encoding (Table 7-2): fn is the function code. -/
def fspec (fn : Nat) (ftz : Bool) (a : Nat) : Nat :=
  let v := fp32.inp ftz a
  match fn with
  | 0 => fp32.arith ftz (rcpVal v)
  | 1 => fp32.arith ftz (rsqrtVal v)
  | 2 => fp32.arith ftz (sqrtVal v)
  | _ =>
    match v with
    | .nan => fp32.nanBits
    | .inf neg =>
      match fn with
      | 3 => if neg then 0 else fp32.infMag
      | 4 => if neg then fp32.nanBits else fp32.infMag
      | 7 => fp32.join neg 0x3F800000
      | 8 => if neg then 0 else 0x3F800000
      | _ => fp32.nanBits
    | .fin neg m e =>
      match fn with
      | 3 => if m = 0 then 0x3F800000 else enclose ftz 3 neg m e 3 320
      | 4 =>
        if m = 0 then fp32.join true fp32.infMag
        else if neg then fp32.nanBits
        else if m = 2 ^ Nat.log2 m ∧ e + (Nat.log2 m : Nat) = 0 then 0
        else enclose ftz 4 false m e 3 320
      | 5 => if isIntegral m e then fp32.join neg 0 else enclose ftz 5 neg m e 3 320
      | 6 =>
        if isIntegral m e then (if isOdd m e then 0xBF800000 else 0x3F800000)
        else if isHalf m e then 0
        else enclose ftz 6 false m e 3 320
      | 7 => if m = 0 then fp32.join neg 0 else enclose ftz 7 neg m e 3 320
      | _ => if m = 0 then 0x3F000000 else enclose ftz 8 neg m e 3 320

end Sys2Proof.Machine
end

