-- ==== Sys2Proof/Machine/Float.lean ====
section
/-! DEFINITION. Sys2Proof/Machine/Float.lean: the floating-point instructions of majors 0x13 to 0x17 (chapter 7). -/

namespace Sys2Proof.Machine

open Sys2Proof

/-- FMT fields of the issuing fragment (Table 2-5). -/
def fmtBits (f : Word) (hi lo : Nat) : Nat := bitsOf f.toNat hi lo
def fmtFtz (f : Word) : Bool := f.getLsbD 12
def fmtSat (f : Word) : Bool := f.getLsbD 19
def fmtRnd (f : Word) : RMode := .ofCode (fmtBits f 18 16)
def Iss.ftz (i : Iss) : Bool := fmtFtz i.f.fmt
/-- The rounding mode of a rounding code: 7 is FMT.RND (R86, R149). -/
def Iss.mode (i : Iss) (c : BitVec 3) : RMode := if c = 7 then fmtRnd i.f.fmt else .ofCode c.toNat

/-- A function of encodings on one lane's words, under the fragment's FTZ. -/
def bits1 (f : Nat → Nat) (x : Word) : Word := BitVec.ofNat 32 (f x.toNat)
def bits2 (f : Nat → Nat → Nat) (x y : Word) : Word := BitVec.ofNat 32 (f x.toNat y.toNat)

/-- One-, two- and three-operand forms under FTZ (R144, R147). -/
def fOp1 (s : State) (g : Bool) (d a : Fld) (f : Iss → Nat → Nat) : Res :=
  laneOp s g [a.toNat] d fun i l => bits1 (f i) (i.reg a.toNat l)
def fOp2 (s : State) (g : Bool) (d a b : Fld) (f : Bool → Nat → Nat → Nat) : Res :=
  laneOp s g [a.toNat, b.toNat] d fun i l => bits2 (f i.ftz) (i.reg a.toNat l) (i.reg b.toNat l)
def fOp3 (s : State) (g : Bool) (d a b : Fld) (f : Bool → Nat → Nat → Nat → Nat) : Res :=
  laneOp s g [a.toNat, b.toNat, d.toNat] d fun i l =>
    BitVec.ofNat 32 (f i.ftz (i.reg a.toNat l).toNat (i.reg b.toNat l).toNat (i.reg d.toNat l).toNat)
/-- A condition on two FP32 operands after the input flush, combined into a predicate (R150). -/
def fcmpOp (s : State) (g : Bool) (c : BitVec 2) (p : BitVec 3) (a b : Fld) (f : Val → Val → Bool) : Res :=
  cmpOp s g c p [a.toNat, b.toNat] fun i l => f (fp32.inp i.ftz (i.reg a.toNat l).toNat) (fp32.inp i.ftz (i.reg b.toNat l).toNat)
/-- A packed operation of two or three operands (R153). -/
def hOp2 (s : State) (g : Bool) (d a b : Fld) (f : Bool → Nat → Nat → Nat) : Res :=
  laneOp s g [a.toNat, b.toNat] d fun i l => halves (fun x y _ => f i.ftz x y) (i.reg a.toNat l) (i.reg b.toNat l) 0
def hOp3 (s : State) (g : Bool) (d a b : Fld) (f : Bool → Nat → Nat → Nat → Nat) : Res :=
  laneOp s g [a.toNat, b.toNat, d.toNat] d fun i l => halves (f i.ftz) (i.reg a.toNat l) (i.reg b.toNat l) (i.reg d.toNat l)


/-! ### F32 (Table 7-1) -/

/-- `fadd` (Table 7-1). -/
def execFadd (g : Bool) (d a b : Fld) (s : State) : Res := fOp2 s g d a b fp32.addOp
/-- `fsub` (Table 7-1). -/
def execFsub (g : Bool) (d a b : Fld) (s : State) : Res := fOp2 s g d a b fp32.subOp
/-- `fmul` (Table 7-1). -/
def execFmul (g : Bool) (d a b : Fld) (s : State) : Res := fOp2 s g d a b fp32.mulOp
/-- `fmin` (Table 7-1). -/
def execFmin (g : Bool) (d a b : Fld) (s : State) : Res := fOp2 s g d a b fp32.minOp
/-- `fmax` (Table 7-1). -/
def execFmax (g : Bool) (d a b : Fld) (s : State) : Res := fOp2 s g d a b fp32.maxOp
/-- `fminn` (Table 7-1). -/
def execFminn (g : Bool) (d a b : Fld) (s : State) : Res := fOp2 s g d a b fp32.minnOp
/-- `fmaxn` (Table 7-1). -/
def execFmaxn (g : Bool) (d a b : Fld) (s : State) : Res := fOp2 s g d a b fp32.maxnOp
/-- `fma` (Table 7-1); d is an input. -/
def execFma (g : Bool) (d a b : Fld) (s : State) : Res := fOp3 s g d a b fp32.fmaOp
/-- `fms` (Table 7-1); d is an input. -/
def execFms (g : Bool) (d a b : Fld) (s : State) : Res := fOp3 s g d a b fp32.fmsOp
/-- `fnma` (Table 7-1); d is an input. -/
def execFnma (g : Bool) (d a b : Fld) (s : State) : Res := fOp3 s g d a b fp32.fnmaOp
/-- `fabs` (R148). -/
def execFabs (g : Bool) (d a : Fld) (s : State) : Res := laneOp1 s g d a (· &&& 0x7FFFFFFF)
/-- `fneg` (R148). -/
def execFneg (g : Bool) (d a : Fld) (s : State) : Res := laneOp1 s g d a (· ^^^ 0x80000000)
/-- `fcpsgn` (R148). -/
def execFcpsgn (g : Bool) (d a b : Fld) (s : State) : Res := laneOp2 s g d a b fun x y => x &&& 0x7FFFFFFF ||| y &&& 0x80000000
/-- `frint` (R149). -/
def execFrint (g : Bool) (d a : Fld) (m : BitVec 3) (s : State) : Res := fOp1 s g d a fun i => frint i.ftz (i.mode m)
/-- `ffrac` (Table 7-1). -/
def execFfrac (g : Bool) (d a : Fld) (s : State) : Res := fOp1 s g d a fun i => ffrac i.ftz
/-- `fsat` (Table 7-1). -/
def execFsat (g : Bool) (d a : Fld) (s : State) : Res := fOp1 s g d a fun i => fsat i.ftz

/-! ### FCMP (R150, R151) -/

/-- `fcmp.eq` (R150). -/
def execFcmpEq (g : Bool) (c : BitVec 2) (p : BitVec 3) (a b : Fld) (s : State) : Res :=
  fcmpOp s g c p a b fun x y => Val.eq x y
/-- `fcmp.ne` (R150). -/
def execFcmpNe (g : Bool) (c : BitVec 2) (p : BitVec 3) (a b : Fld) (s : State) : Res :=
  fcmpOp s g c p a b fun x y => !Val.eq x y
/-- `fcmp.lt` (R150). -/
def execFcmpLt (g : Bool) (c : BitVec 2) (p : BitVec 3) (a b : Fld) (s : State) : Res :=
  fcmpOp s g c p a b fun x y => Val.lt x y
/-- `fcmp.le` (R150). -/
def execFcmpLe (g : Bool) (c : BitVec 2) (p : BitVec 3) (a b : Fld) (s : State) : Res :=
  fcmpOp s g c p a b fun x y => Val.lt x y || Val.eq x y
/-- `fcmp.gt` (R150). -/
def execFcmpGt (g : Bool) (c : BitVec 2) (p : BitVec 3) (a b : Fld) (s : State) : Res :=
  fcmpOp s g c p a b fun x y => Val.lt y x
/-- `fcmp.ge` (R150). -/
def execFcmpGe (g : Bool) (c : BitVec 2) (p : BitVec 3) (a b : Fld) (s : State) : Res :=
  fcmpOp s g c p a b fun x y => Val.lt y x || Val.eq x y
/-- `fcmp.un` (R150). -/
def execFcmpUn (g : Bool) (c : BitVec 2) (p : BitVec 3) (a b : Fld) (s : State) : Res :=
  fcmpOp s g c p a b fun x y => x.isNan || y.isNan
/-- `fcmp.or` (R150). -/
def execFcmpOr (g : Bool) (c : BitVec 2) (p : BitVec 3) (a b : Fld) (s : State) : Res :=
  fcmpOp s g c p a b fun x y => !x.isNan && !y.isNan
/-- `fclass` (R151). -/
def execFclass (g : Bool) (d a : Fld) (s : State) : Res := fOp1 s g d a fun _ => fclass

/-! ### FSPEC (Table 7-2) -/

/-- `rcp` (Table 7-2). -/
def execRcp (g : Bool) (d a : Fld) (s : State) : Res := fOp1 s g d a fun i => fspec 0 i.ftz
/-- `rsqrt` (Table 7-2). -/
def execRsqrt (g : Bool) (d a : Fld) (s : State) : Res := fOp1 s g d a fun i => fspec 1 i.ftz
/-- `sqrt` (Table 7-2). -/
def execSqrt (g : Bool) (d a : Fld) (s : State) : Res := fOp1 s g d a fun i => fspec 2 i.ftz
/-- `exp2` (Table 7-2). -/
def execExp2 (g : Bool) (d a : Fld) (s : State) : Res := fOp1 s g d a fun i => fspec 3 i.ftz
/-- `log2` (Table 7-2). -/
def execLog2 (g : Bool) (d a : Fld) (s : State) : Res := fOp1 s g d a fun i => fspec 4 i.ftz
/-- `sinpi` (Table 7-2). -/
def execSinpi (g : Bool) (d a : Fld) (s : State) : Res := fOp1 s g d a fun i => fspec 5 i.ftz
/-- `cospi` (Table 7-2). -/
def execCospi (g : Bool) (d a : Fld) (s : State) : Res := fOp1 s g d a fun i => fspec 6 i.ftz
/-- `tanh` (Table 7-2). -/
def execTanh (g : Bool) (d a : Fld) (s : State) : Res := fOp1 s g d a fun i => fspec 7 i.ftz
/-- `sigm` (Table 7-2). -/
def execSigm (g : Bool) (d a : Fld) (s : State) : Res := fOp1 s g d a fun i => fspec 8 i.ftz

/-! ### FH2 (R153) -/

/-- `hadd2.f16` (R153). -/
def execHadd2F16 (g : Bool) (d a b : Fld) (s : State) : Res := hOp2 s g d a b fp16.addOp
/-- `hsub2.f16` (R153). -/
def execHsub2F16 (g : Bool) (d a b : Fld) (s : State) : Res := hOp2 s g d a b fp16.subOp
/-- `hmul2.f16` (R153). -/
def execHmul2F16 (g : Bool) (d a b : Fld) (s : State) : Res := hOp2 s g d a b fp16.mulOp
/-- `hmin2.f16` (R153). -/
def execHmin2F16 (g : Bool) (d a b : Fld) (s : State) : Res := hOp2 s g d a b fp16.minOp
/-- `hmax2.f16` (R153). -/
def execHmax2F16 (g : Bool) (d a b : Fld) (s : State) : Res := hOp2 s g d a b fp16.maxOp
/-- `hfma2.f16` (R153); d is an input. -/
def execHfma2F16 (g : Bool) (d a b : Fld) (s : State) : Res := hOp3 s g d a b fp16.fmaOp
/-- `hadd2.bf16` (R153). -/
def execHadd2Bf16 (g : Bool) (d a b : Fld) (s : State) : Res := hOp2 s g d a b bf16.addOp
/-- `hsub2.bf16` (R153). -/
def execHsub2Bf16 (g : Bool) (d a b : Fld) (s : State) : Res := hOp2 s g d a b bf16.subOp
/-- `hmul2.bf16` (R153). -/
def execHmul2Bf16 (g : Bool) (d a b : Fld) (s : State) : Res := hOp2 s g d a b bf16.mulOp
/-- `hmin2.bf16` (R153). -/
def execHmin2Bf16 (g : Bool) (d a b : Fld) (s : State) : Res := hOp2 s g d a b bf16.minOp
/-- `hmax2.bf16` (R153). -/
def execHmax2Bf16 (g : Bool) (d a b : Fld) (s : State) : Res := hOp2 s g d a b bf16.maxOp
/-- `hfma2.bf16` (R153); d is an input. -/
def execHfma2Bf16 (g : Bool) (d a b : Fld) (s : State) : Res := hOp3 s g d a b bf16.fmaOp

/-! ### FCVT (R154 to R157) -/

/-- `cvt` from element code sc to code e under rounding code m (R154). -/
def execCvt (g : Bool) (sc : BitVec 4) (d a : Fld) (e : BitVec 4) (m : BitVec 3) (s : State) : Res :=
  fOp1 s g d a fun i => convert i.ftz (fmtSat i.f.fmt) (i.mode m) sc.toNat e.toNat

end Sys2Proof.Machine
end

