-- ==== Sys2Proof/Machine/Lane.lean ====
section
/-! DEFINITION. Sys2Proof/Machine/Lane.lean: lane moves and reductions, predicate logic, addresses and tags, special registers (majors
0x0F to 0x12, chapter 6). -/

namespace Sys2Proof.Machine

open Sys2Proof

/-! ### MOV (Table 6-8) -/

/-- A value read from a source lane of L, or the lane's own value (R135). -/
def laneFrom (i : Iss) (a l : Nat) (src : Int) : Word :=
  if 0 ≤ src && decide (src < 16) && i.lanes.has src.toNat then i.reg a src.toNat else i.reg a l

/-- A shuffle: the source lane from the lane's own b (R135). -/
def shuffle (s : State) (g : Bool) (d a b : Fld) (src : Word → Nat → Int) : Res :=
  laneOp s g [a.toNat, b.toNat] d fun i l => laneFrom i a.toNat l (src (i.reg b.toNat l) l)

/-- The same value in every active lane, from the values of the active lanes in ascending order. -/
def laneReduce (s : State) (g : Bool) (d a : Fld) (f : Iss → List Word → Word) : Res :=
  laneOp s g [a.toNat] d fun i _ => f i (i.lanes.lanes.map (i.reg a.toNat))

def foldWords (f : Word → Word → Word) : List Word → Word
  | [] => 0
  | x :: xs => xs.foldl f x

/-- The FP32 sum in ascending lane order; the starting value is flushed and canonicalised, not rounded (R136). -/
def sumF32 (ftz : Bool) : List Word → Word
  | [] => 0
  | x :: xs => BitVec.ofNat 32 (xs.foldl (fun n y => fp32.addOp ftz n y.toNat)
      (if (fp32.value x.toNat).isNan then fp32.nanBits else fp32.flush ftz x.toNat))

/-- `mov`. -/
def execMov (g : Bool) (d a : Fld) (s : State) : Res := laneOp1 s g d a id
/-- `sel`: a where p0 is 1, else b. -/
def execSel (g : Bool) (d a b : Fld) (s : State) : Res :=
  withOperands s g [a.toNat, b.toNat] [d.toNat] [0] fun i =>
    (s.putReg i d.toNat fun l => if (i.g.pred 0).has l then i.reg a.toNat l else i.reg b.toNat l).advance i
/-- `shfl.idx`. -/
def execShflIdx (g : Bool) (d a b : Fld) (s : State) : Res := shuffle s g d a b fun x _ => (x.toNat % 16 : Nat)
/-- `shfl.up`. -/
def execShflUp (g : Bool) (d a b : Fld) (s : State) : Res := shuffle s g d a b fun x l => (l : Int) - (x.toNat % 32 : Nat)
/-- `shfl.dn`. -/
def execShflDn (g : Bool) (d a b : Fld) (s : State) : Res := shuffle s g d a b fun x l => (l : Int) + (x.toNat % 32 : Nat)
/-- `shfl.xor`. -/
def execShflXor (g : Bool) (d a b : Fld) (s : State) : Res := shuffle s g d a b fun x l => (Nat.xor l (x.toNat % 16) : Nat)
/-- `bcast`: from the lane that the lowest active lane's b names, else the lowest lane's own value. -/
def execBcast (g : Bool) (d a b : Fld) (s : State) : Res :=
  laneOp s g [a.toNat, b.toNat] d fun i _ => laneFrom i a.toNat i.lo ((i.reg b.toNat i.lo).toNat % 16 : Nat)
/-- `ballot`. -/
def execBallot (g : Bool) (d : Fld) (a : BitVec 3) (s : State) : Res :=
  withOperands s g [] [d.toNat] [a.toNat] fun i =>
    (s.putReg i d.toNat fun _ => (i.lanes &&& i.g.pred a.toNat).setWidth 32).advance i
/-- `match`. -/
def execMatchLanes (g : Bool) (d a : Fld) (s : State) : Res :=
  laneOp s g [a.toNat] d fun i l => (Mask.of fun m => i.lanes.has m && i.reg a.toNat m == i.reg a.toNat l).setWidth 32
/-- `lscan.add`. -/
def execLscanAdd (g : Bool) (d a : Fld) (s : State) : Res :=
  laneOp s g [a.toNat] d fun i l => ((i.lanes.lanes.filter (· ≤ l)).map (i.reg a.toNat)).foldl (· + ·) 0
/-- `lred.add`. -/
def execLredAdd (g : Bool) (d a : Fld) (s : State) : Res := laneReduce s g d a fun _ => foldWords (· + ·)
/-- `lred.min.i`. -/
def execLredMinI (g : Bool) (d a : Fld) (s : State) : Res := laneReduce s g d a fun _ => foldWords minI
/-- `lred.max.i`. -/
def execLredMaxI (g : Bool) (d a : Fld) (s : State) : Res := laneReduce s g d a fun _ => foldWords maxI
/-- `lred.min.z`. -/
def execLredMinZ (g : Bool) (d a : Fld) (s : State) : Res := laneReduce s g d a fun _ => foldWords minZ
/-- `lred.max.z`. -/
def execLredMaxZ (g : Bool) (d a : Fld) (s : State) : Res := laneReduce s g d a fun _ => foldWords maxZ
/-- `lred.add.f32` (R136). -/
def execLredAddF32 (g : Bool) (d a : Fld) (s : State) : Res := laneReduce s g d a fun i => sumF32 i.ftz

/-! ### PRED (Table 6-9) -/

/-- `pand`. -/
def execPand (g : Bool) (d a b : BitVec 3) (s : State) : Res := predOp2 s g d a b (· && ·)
/-- `por`. -/
def execPor (g : Bool) (d a b : BitVec 3) (s : State) : Res := predOp2 s g d a b (· || ·)
/-- `pxor`. -/
def execPxor (g : Bool) (d a b : BitVec 3) (s : State) : Res := predOp2 s g d a b (· != ·)
/-- `pnot`. -/
def execPnot (g : Bool) (d a : BitVec 3) (s : State) : Res := predOp1 s g d a fun _ l p => !p.has l
/-- `pmov`. -/
def execPmov (g : Bool) (d a : BitVec 3) (s : State) : Res := predOp1 s g d a fun _ l p => p.has l
/-- `p2v`. -/
def execP2v (g : Bool) (d : Fld) (a : BitVec 3) (s : State) : Res :=
  withOperands s g [] [d.toNat] [a.toNat] fun i =>
    (s.putReg i d.toNat fun l => if (i.g.pred a.toNat).has l then 1 else 0).advance i
/-- `v2p`. -/
def execV2p (g : Bool) (d : BitVec 3) (a : Fld) (s : State) : Res := lanePred s g [a.toNat] [] d fun i l => i.reg a.toNat l != 0
/-- `pany`: the OR over Lanes(). -/
def execPany (g : Bool) (d a : BitVec 3) (s : State) : Res := predOp1 s g d a fun i _ p => p &&& i.lanes != 0
/-- `pall`: the AND over Lanes(). -/
def execPall (g : Bool) (d a : BitVec 3) (s : State) : Res := predOp1 s g d a fun i _ p => i.lanes &&& ~~~p == 0

/-! ### ADDR (R138, R139) -/

/-- `lea`: d := a + (sext b << sh), modulo 2^64. -/
def execLea (g : Bool) (sh : BitVec 3) (d a : BitVec 6) (b : Fld) (s : State) : Res :=
  lanePair s g (pairOf a ++ [b.toNat]) d fun i l => i.pair (pairFld a).toNat l + ((i.reg b.toNat l).signExtend 64 <<< sh.toNat)

/-- Is a tag code true of a register in all 16 lanes (R42)? -/
def tagTrue (v : LaneVec) (code : Nat) : Bool :=
  match code with
  | 1 => v.toList.all (· == v[0])
  | 2 => laneNums.all fun l => v[l]?.getD 0 == v[0] + BitVec.ofNat 32 l * (v[1] - v[0])
  | _ => false

/-- `tagq`: a code that is true of the register, or VARYING (R42, R139); which is free. Log entry 8. -/
def execTagq (g : Bool) (d a : Fld) (s : State) : Res :=
  withOperands s g [a.toNat] [d.toNat] [] fun i =>
    let c := Config.tag s.draws % 3
    let v : Word := if tagTrue (i.g.regs[i.phys a.toNat]?.getD zeroVec) c then BitVec.ofNat 32 c else 0
    ({ s with draws := s.draws + 1 }.putReg i d.toNat fun _ => v).advance i

/-! ### SREG (R52 to R55, R140, R141) -/

/-- The 64-bit source behind a sampling number (R53). -/
def sampleOf (s : State) (i : Iss) (n : Nat) : Option Word64 :=
  match n with
  | 0x10 => some (BitVec.ofNat 64 s.time)
  | 0x12 => some (BitVec.ofNat 64 (s.cycle i.g.core))
  | 0x15 => some (BitVec.ofNat 64 (s.deadlineOf i.g))
  | _ => none

/-- The value of a special register that does not sample, in one lane (Table 2-4). -/
def sregValue (s : State) (i : Iss) (n l : Nat) : Word :=
  let b := s.blockOf i.g
  let la := s.launchOf i.g
  let t := i.g.trap
  match n with
  | 0x00 => BitVec.ofNat 32 l
  | 0x01 => BitVec.ofNat 32 i.g.slot
  | 0x02 => BitVec.ofNat 32 i.g.gid
  | 0x03 => b.bid
  | 0x04 => BitVec.ofNat 32 b.gcount
  | 0x05 => la.lid
  | 0x06 => BitVec.ofNat 32 i.g.core
  | 0x07 => BitVec.ofNat 32 (clusterOf i.g.core)
  | 0x08 => la.nblk
  | 0x09 => i.g.subt
  | 0x0A => BitVec.ofNat 32 b.spSize
  | 0x0B => BitVec.ofNat 32 i.f.wb
  | 0x0C => i.f.fmt
  | 0x0D => i.f.amask.setWidth 32
  | 0x0E => lo32 la.karg
  | 0x0F => hi32 la.karg
  | 0x11 => hi32 i.f.latch
  | 0x13 => hi32 i.f.latch
  | 0x16 => hi32 i.f.latch
  | 0x14 => i.g.clk.setWidth 32
  | 0x18 => BitVec.ofNat 32 i.g.prio
  | 0x20 => t.code
  | 0x21 => t.pcLo
  | 0x22 => t.pcHi
  | 0x23 => t.addrLo
  | 0x24 => t.addrHi
  | 0x25 => t.mask
  | 0x26 => t.info
  | 0x27 => t.skid
  | _ => 0

/-- A sampling read: the latch takes the whole source, and a context that logs replay logs it (R53, Table 17-5). -/
def State.sample (s : State) (i : Iss) (v : Word64) : State :=
  (s.modF i.gi i.fi fun f => { f with latch := v, sampled := s.seq + 1 }).replayLog (s.pasidOf i.g) 7 i.g.id (leBytes 8 v.toNat)

/-- `srd` (R52, R53): the value in every active lane. -/
def execSrd (g : Bool) (d : Fld) (n : BitVec 14) (s : State) : Res :=
  withOperands s g [] [d.toNat] [] fun i => once s i 4 <|
    match sampleOf s i n.toNat with
    | some v => ((s.sample i v).putReg i d.toNat fun _ => lo32 v).advance i
    | none => (s.putReg i d.toNat (sregValue s i n.toNat)).advance i

/-- Is a value refused for FMT: reserved bits, accumulator 2 or 3, rounding 5 to 7 (R54)? -/
def badFmt (v : Word) : Bool := decide (2 ^ 20 ≤ v.toNat) || decide (2 ≤ bitsOf v.toNat 15 14) || decide (5 ≤ bitsOf v.toNat 18 16)

/-- WB, FMT of the issuing fragment; a write to WB ends a liveness map (R357). -/
def State.setWb (s : State) (i : Iss) (wb : Nat) : State := s.modF i.gi i.fi fun f => { f with wb := wb, map := none }
def State.setFmt (s : State) (i : Iss) (v : Word) : State := s.modF i.gi i.fi fun f => { f with fmt := v, badFmt := false }
def State.setTrap (s : State) (i : Iss) (f : Trap → Trap) : State := s.modG i.gi fun g => { g with trap := f g.trap }

/-- ILL of a value check: TRAPADDR holds the instruction's word, and 0 above it (R90). -/
def faultIll (s : State) (i : Iss) (w : WordFields) (detail : Word) : State :=
  faultAt s i 0x01 i.lanes detail (w.toWord.setWidth 64)

/-- `swr` (R54): the lowest active lane's value, its checks after masking. -/
def execSwr (g : Bool) (d : Fld) (n : BitVec 14) (s : State) : Res :=
  withOperands s g [d.toNat] [] [] fun i => once s i 4 <|
    let v := i.reg d.toNat i.lo
    let w : WordFields := ⟨0x12, g, 1, d, n.extractLsb' 7 7, n.extractLsb' 0 7⟩
    match n.toNat with
    | 0x0B => if v.toNat % 32 ≠ 0 ∨ i.N < v.toNat + 32 then faultAt s i 0x02 i.lanes else (s.setWb i v.toNat).advance i
    | 0x0C => if badFmt v then faultIll s i w 1 else (s.setFmt i v).advance i
    | 0x18 =>
      if 128 ≤ v.toNat then faultIll s i w 5
      else if i.g.ceiling < v.toNat then faultAt s i 0x04 i.lanes 7
      else (s.modG i.gi fun g => { g with prio := v.toNat }).advance i
    | 0x20 => (s.setTrap i fun t => { t with code := v }).advance i
    | 0x21 => (s.setTrap i fun t => { t with pcLo := v }).advance i
    | 0x22 => (s.setTrap i fun t => { t with pcHi := v &&& 0xFFFFF }).advance i
    | 0x23 => (s.setTrap i fun t => { t with addrLo := v }).advance i
    | 0x24 => (s.setTrap i fun t => { t with addrHi := v }).advance i
    | 0x25 => (s.setTrap i fun t => { t with mask := v &&& 0xFFFF }).advance i
    | 0x26 => (s.setTrap i fun t => { t with info := v }).advance i
    | 0x27 => (s.setTrap i fun t => { t with skid := v &&& 0x7FFFFF }).advance i
    | _ => s.advance i

end Sys2Proof.Machine
end

