-- ==== Sys2Proof/Machine/Control.lean ====
section
/-! DEFINITION. Sys2Proof/Machine/Control.lean: branches, splits, arrival and fusion, exits, the control instructions (majors 0x01 to
0x03, chapter 5). -/

namespace Sys2Proof.Machine

open Sys2Proof

/-! ### Arrival and fusion (R99 to R102) -/

/-- Two captures of a release fence put together: the merged vector, the later clock, the narrower scope. The spec does not say what a fused
fragment carries when its arrivals carry different captures: the model's choice (log entry 54). -/
def mergeRel (x y : Option (KVec × BitVec 24 × BitVec 2)) : Option (KVec × BitVec 24 × BitVec 2) :=
  match x, y with
  | none, y => y
  | x, none => x
  | some (v, c, a), some (w, d, b) => some (v.merge w, maxB c d, if a.toNat ≤ b.toNat then a else b)

/-- Fragment numbers whose accesses have not all performed. -/
def pruneBefore (s : State) (gi : Nat) (fids : List Nat) : List Nat :=
  (fids.filter fun k => s.unperf.any (fun e => e.gi == gi && e.fid == k) || (s.group gi).xfers.any (fun x => x.fid == k)
    || (s.group gi).outst.any (fun o => o.fid == k && !o.returned)).eraseDups

/-- Fusion of an entry: one fragment at RPC with its lanes; FMT, WB and latch come from the entry (R57, R100). -/
def fuse (s : State) (gi e : Nat) : State :=
  match ((s.group gi).splits[e]?).join with
  | none => s
  | some en =>
    let s := s.modG gi fun g => { g with
      splits := setAt g.splits e none, nextFid := g.nextFid + 1,
      frags := g.frags ++ [{ fid := g.nextFid, pc := en.rpc, amask := en.lanes, fmt := en.fmt, wb := en.wb, latch := en.latch,
                             sampled := en.sampled, inner := en.parent, lastIssue := s.seq, readyAt := s.cycle g.core,
                             handler := en.handler, relVec := en.relVec, caps := en.caps, before := en.before, acquired := en.acquired }] }
    s.trace gi 0x04 (lowLane en.lanes) (maskBytes en.lanes)

/-- Arrival of a fragment at its innermost entry: its lanes are added, it ends, and the entry fuses when all have arrived (R99, R100). -/
def arrive (s : State) (gi fi : Nat) : State :=
  let s := s.flushCond gi fi
  let f := (s.group gi).frag fi
  match f.inner with
  | none => s
  | some e =>
    match ((s.group gi).splits[e]?).join with
    | none => s
    | some en =>
      let newer := decide (en.sampled < f.sampled)
      let en' : Split := { en with
        arrived := en.arrived ||| f.amask, latch := (if newer then f.latch else en.latch), sampled := (if newer then f.sampled else en.sampled),
        before := pruneBefore s gi (en.before ++ f.fid :: f.before), acquired := (if en.acquired ≤ f.acquired then f.acquired else en.acquired),
        relVec := mergeRel en.relVec f.relVec, caps := en.caps ++ f.caps }
      let s := s.modG gi fun g => { g with splits := setAt g.splits e (some en'), frags := dropAt g.frags fi }
      if en'.arrived = en'.lanes then fuse s gi e else s

/-- Exited lanes leave every entry that covers them; an empty entry is freed, and one whose lanes have all arrived fuses (R101). -/
def leaveEntries (s : State) (gi : Nat) (m : Mask) : State :=
  let s := s.modG gi fun g => { g with splits := g.splits.map fun x => match x with
    | none => none
    | some en => let l := en.lanes &&& ~~~m; if l = 0 then none else some { en with lanes := l, arrived := en.arrived &&& ~~~m } }
  (List.range 15).foldl (fun s e => match ((s.group gi).splits[e]?).join with
    | some en => if en.arrived = en.lanes then fuse s gi e else s
    | none => s) s

/-- A group with no lane left retires as soon as nothing is owed to it (R94). -/
def beginRetire (s : State) (gi : Nat) : State :=
  s.modG gi fun g => if g.exited = 0xFFFF && (g.state == .resident) then { g with state := .retiring, frags := [] } else g

/-- The lanes of a mask exit from a fragment, which ends when none is left (R107). -/
def exitLanes (s : State) (gi fi : Nat) (m : Mask) : State :=
  let s := s.traceFrag gi fi 0x05 (maskBytes m)
  let s := s.modG gi fun g => { g with
    exited := g.exited ||| m,
    frame := g.frame.bind fun f => if f.amask &&& ~~~m = 0 then none else some { f with amask := f.amask &&& ~~~m } }
  let s := s.modF gi fi fun f => { f with amask := f.amask &&& ~~~m }
  let s := if ((s.group gi).frag fi).amask = 0 then s.modG gi fun g => { g with frags := dropAt g.frags fi } else s
  beginRetire (leaveEntries s gi m) gi

/-! ### Targets (R62) -/

/-- An offset in words from the PC, exact. -/
def pcOff (i : Iss) (off : Int) : Int := (i.pcN : Int) + 4 * off
def inSpace (t : Int) : Bool := decide (0 ≤ t) && decide (t ≤ 2 ^ 52 - 4)
/-- The fault code of a register-held target, if it has one (R62). -/
def badTarget (t : Word64) : Option Nat := if t.toNat % 4 ≠ 0 then some 0x05 else if 2 ^ 52 ≤ t.toNat then some 0x03 else none

/-- A uniform control transfer: it ends a liveness map (R357). -/
def goTo (s : State) (i : Iss) (pc : BitVec 52) (br : Option BranchInfo := none) : State :=
  (s.modF i.gi i.fi fun f => { f with map := none }).advanceTo i pc false br

/-- A J-format branch: the target is checked whether or not it is taken (R103). -/
def uniformBranch (s : State) (o : BitVec 21) (cond : Bool) (test : Iss → Bool) : Res :=
  withOperands s false [] [] (if cond then [0] else []) fun i =>
    let t := pcOff i o.toInt
    if !inSpace t then faultAt s i 0x03 i.lanes 0 (BitVec.ofInt 64 t)
    else
      let pc : BitVec 52 := BitVec.ofInt 52 t
      let s := if cond then s.traceCond i.gi i.fi (test i) else s
      goTo s i (if test i then pc else i.f.pc + 4) (some ⟨pc, test i, true⟩)

/-- `bra` (R103). -/
def execBra (o : BitVec 21) (s : State) : Res := uniformBranch s o false fun _ => true
/-- `bany` (R103). -/
def execBany (o : BitVec 21) (s : State) : Res := uniformBranch s o true fun i => i.lanes &&& i.g.pred 0 != 0
/-- `ball` (R103). -/
def execBall (o : BitVec 21) (s : State) : Res := uniformBranch s o true fun i => i.lanes &&& ~~~i.g.pred 0 == 0
/-- `bnone` (R103). -/
def execBnone (o : BitVec 21) (s : State) : Res := uniformBranch s o true fun i => i.lanes &&& i.g.pred 0 == 0

/-- The window moves up by 32 and the return address is written in the new window (R79, R103, R106). -/
def callTo (s : State) (i : Iss) (pc : BitVec 52) : State :=
  let i' : Iss := { i with f := { i.f with wb := i.f.wb + 32 } }
  goTo ((s.setWb i (i.f.wb + 32)).putPair i' 30 fun _ => (i.f.pc + 4).setWidth 64) i pc (some ⟨pc, true, false⟩)

/-- Do v30:v31 of the next window exist (R79)? -/
def Iss.hasWindow (i : Iss) : Bool := decide (i.f.wb + 64 ≤ i.N)
/-- A result owed to the registers v30:v31 of the next window holds the call up (R49). -/
def callWaits (i : Iss) : Bool := i.lanes.lanes.any fun l => i.g.owes (i.f.wb + 62) l || i.g.owes (i.f.wb + 63) l

/-- `call` (R103). -/
def execCall (o : BitVec 21) (s : State) : Res :=
  withOperands s false [] [] [] fun i =>
    let t := pcOff i o.toInt
    if !inSpace t then faultAt s i 0x03 i.lanes 0 (BitVec.ofInt 64 t)
    else if !i.hasWindow then faultAt s i 0x02 i.lanes
    else if callWaits i then s.wait i (.dest [i.f.wb + 62, i.f.wb + 63] i.lanes)
    else callTo s i (BitVec.ofInt 52 t)

/-- `ret` (R106). -/
def execRet (s : State) : Res :=
  withOperands s false [30, 31] [] [] fun i =>
    let t := i.pair 30 i.lo
    if i.f.wb < 32 then faultAt s i 0x02 i.lanes
    else
      match badTarget t with
      | some c => faultAt s i c i.lanes 0 t
      | none => goTo ((s.setWb i (i.f.wb - 32)).traceFrag i.gi i.fi 0x02 (pcBytes (t.truncate 52))) i (t.truncate 52) (some ⟨t.truncate 52, true, false⟩)

/-- `jmpr` (R106). -/
def execJmpr (a : BitVec 6) (s : State) : Res :=
  withOperands s false (pairOf a) [] [] fun i =>
    let t := i.pair (pairFld a).toNat i.lo
    match badTarget t with
    | some c => faultAt s i c i.lanes 0 t
    | none => goTo (s.traceFrag i.gi i.fi 0x02 (pcBytes (t.truncate 52))) i (t.truncate 52) (some ⟨t.truncate 52, true, false⟩)

/-- `callr` (R106). -/
def execCallr (a : BitVec 6) (s : State) : Res :=
  withOperands s false (pairOf a) [] [] fun i =>
    let t := i.pair (pairFld a).toNat i.lo
    match badTarget t with
    | some c => faultAt s i c i.lanes 0 t
    | none =>
      if !i.hasWindow then faultAt s i 0x02 i.lanes
      else if callWaits i then s.wait i (.dest [i.f.wb + 62, i.f.wb + 63] i.lanes)
      else callTo (s.traceFrag i.gi i.fi 0x02 (pcBytes (t.truncate 52))) i (t.truncate 52)

/-! ### Divergent branches (R104, R105) -/

/-- The distinct targets with their lanes, in the order of their lowest lanes. -/
def targetSets (lanes : List Nat) (tgt : Nat → Word64) : List (Word64 × Mask) :=
  lanes.foldl (fun xs l => if xs.any (fun x => x.1 == tgt l) then xs.map (fun x => if x.1 == tgt l then (x.1, x.2 ||| BitVec.twoPow 16 l) else x)
    else xs ++ [(tgt l, BitVec.twoPow 16 l)]) []

/-- The sets with the lanes that a replay leaves out: they go on behind the instruction (log entry 15). -/
def withRest (ts : List (Word64 × Mask)) (next : Word64) (rest : Mask) : List (Word64 × Mask) :=
  if rest = 0 then ts
  else if ts.any (fun t => t.1 == next) then ts.map fun t => if t.1 == next then (t.1, t.2 ||| rest) else t
  else ts ++ [(next, rest)]
/-- Sets in the order of their lowest lanes. -/
def byLane (ts : List (Word64 × Mask)) : List (Word64 × Mask) := laneNums.filterMap fun l => ts.find? fun t => lowLane t.2 == l

/-- A new fragment of a split, from the fragment that splits (R104). -/
def splitFrag (s : State) (i : Iss) (e k : Nat) (pc : BitVec 52) (m : Mask) : Frag :=
  { i.f with
    fid := k, pc := pc, amask := m, inner := some e, spin := false, loop := none, quiet := 0, noisy := false, lastIssue := s.seq,
    readyAt := s.cycle i.g.core, aged := false, map := none, stall := none, replay := none, held := [], waitFrom := none,
    before := pruneBefore s i.gi (i.f.fid :: i.f.before) }

/-- The split: an entry over the fragment's lanes and one fragment per target; the fragment that split ends (R104). -/
def splitTo (s : State) (i : Iss) (rpc : BitVec 52) (ts : List (Word64 × Mask)) (payload : List Byte) : State :=
  let s := s.advanceTo i i.f.pc true
  let s := s.traceFrag i.gi i.fi 0x03 payload
  match findAt (fun x : Option Split => x.isNone) (s.group i.gi).splits with
  | none => s
  | some e =>
    let en : Split := { rpc := rpc, lanes := i.f.amask, wb := i.f.wb, fmt := i.f.fmt, latch := i.f.latch, sampled := i.f.sampled,
                        parent := i.f.inner, handler := i.f.handler }
    s.modG i.gi fun g => { g with
      splits := setAt g.splits e (some en), nextFid := g.nextFid + ts.length,
      frags := dropAt g.frags i.fi ++ (indexed ts).map fun x => splitFrag s i e (g.nextFid + x.1) (x.2.1.truncate 52) x.2.2 }

/-- Both divergent branches once their targets are known (R104): `aim` is the target of `brd`, which decides whether the detector watches it. -/
def divergent (s : State) (i : Iss) (roff : BitVec 26) (tgt : Nat → Word64) (aim : Option (BitVec 52)) : State :=
  let rpc := pcOff i roff.toInt
  if !inSpace rpc then faultAt s i 0x03 i.lanes 0 (BitVec.ofInt 64 rpc)
  else
    let bad := Mask.of fun l => i.lanes.has l && (badTarget (tgt l)).isSome
    match bad.low with
    | some l => faultAt s i ((badTarget (tgt l)).getD 0x03) bad 0 (tgt l)
    | none =>
      let next : Word64 := (i.f.pc + 8).setWidth 64
      let ts := withRest (targetSets i.lanes.lanes tgt) next (i.f.amask &&& ~~~i.lanes)
      let byReg := aim.isNone
      match ts with
      | [] => s.advance i 8
      | [(t, _)] =>
        let pc : BitVec 52 := t.truncate 52
        let taken := byReg || (i.g.pred 0).has i.lo
        let s := if byReg then s.traceFrag i.gi i.fi 0x02 (pcBytes pc) else s.traceCond i.gi i.fi taken
        goTo s i pc (some ⟨aim.getD pc, taken, true⟩)
      | ts =>
        -- brd lists the target first, brdr ascending lowest lanes with the targets (R374)
        let ts := if byReg then byLane ts else (ts.filter fun t => t.1 != next) ++ ts.filter fun t => t.1 == next
        let payload := leBytes 1 ((if byReg then 128 else 0) + ts.length)
          ++ ts.flatMap fun t => maskBytes t.2 ++ (if byReg then leBytes 7 t.1.toNat else [])
        splitTo s i (BitVec.ofInt 52 rpc) ts payload

/-- `brd` (R104). -/
def execBrd (toff : BitVec 21) (roff : BitVec 26) (s : State) : Res :=
  withOperands s false [] [] [0] fun i =>
    divergent s i roff (fun l => if (i.g.pred 0).has l then BitVec.ofInt 64 (pcOff i toff.toInt) else (i.f.pc.setWidth 64) + 8)
      (some (BitVec.ofInt 52 (pcOff i toff.toInt)))
/-- `brdr` (R104). -/
def execBrdr (a : BitVec 6) (roff : BitVec 26) (s : State) : Res :=
  withOperands s false (pairOf a) [] [] fun i => divergent s i roff (fun l => i.pair (pairFld a).toNat l) none

/-! ### CTL (R107 to R112) -/

/-- `exit` (R107). -/
def execExit (g : Bool) (s : State) : Res :=
  withOperands s g [] [] [] fun i => once s i 4 <|
    exitLanes (goTo s i (i.f.pc + 4)) i.gi i.fi i.lanes
/-- `yield` (R108): last issued now, behind every other ready fragment of its priority. -/
def execYield (g : Bool) (s : State) : Res := withOperands s g [] [] [] fun i => s.advance i
/-- `join` (R109). -/
def execJoin (s : State) : Res :=
  withOperands s false [] [] [] fun i =>
    match i.f.inner with
    | none => goTo s i (i.f.pc + 4)
    | some _ => arrive (goTo s i i.f.pc) i.gi i.fi
/-- `wbase` (R110). -/
def execWbase (g : Bool) (n : BitVec 4) (s : State) : Res :=
  withOperands s g [] [] [] fun i => once s i 4 <|
    if i.N < 32 * n.toNat + 32 then faultAt s i 0x02 i.lanes else (s.setWb i (32 * n.toNat)).advance i
/-- `spin` (R111). -/
def execSpin (g : Bool) (s : State) : Res :=
  withOperands s g [] [] [] fun i => once s i 4 <| (s.advance i).modF i.gi i.fi fun f => { f with spin := true }
/-- `nop`. -/
def execNop (g : Bool) (s : State) : Res := withOperands s g [] [] [] fun i => s.advance i
/-- The mask that `fmask` writes (R112). -/
def fmaskOf (i : Iss) (sel : Nat) : Mask :=
  match sel with
  | 0 => i.f.amask
  | 1 => (match i.f.inner with
    | some e => (((i.g.splits[e]?).join).map (·.lanes)).getD 0
    | none => ~~~i.g.exited)
  | _ => ~~~i.g.exited
/-- `fmask` (R112): all 16 bits of pD, once. -/
def execFmask (g : Bool) (d : BitVec 3) (sel : BitVec 2) (s : State) : Res :=
  withOperands s g [] [] [] (dests := [d.toNat]) fun i => once s i 4 <|
    (s.modG i.gi fun g => g.setPred d.toNat 0xFFFF (fmaskOf i sel.toNat).has).advance i

end Sys2Proof.Machine
end

