-- ==== Sys2Proof/Machine/Engine.lean ====
section
/-! DEFINITION. Sys2Proof/Machine/Engine.lean: what every engine and unit shares: translation faults that wait for the host (R422), accesses
of a command and their race checks (R240, R257), the errors it leaves for a wait. -/

namespace Sys2Proof.Machine

open Sys2Proof

/-! ### Replayable translation faults (R422, Table 19-5) -/

/-- One access that a command or unit needs, by address and kind. -/
structure Need where
  va : Nat
  kind : AccKind

def AccKind.bits : AccKind → Nat
  | .read => 1
  | .write => 2
  | .fetch => 4
  | .atomic => 8

/-- Who asks: context, core, SOURCE of Table 19-5, launch and group. -/
structure Asker where
  pasid : Nat
  core : Nat
  source : Nat
  lid : Word
  gid : BitVec 18

/-- The failures of a list of needs that the host may resolve: canonical addresses only, one per page and kind. -/
def failures (s : State) (a : Asker) (ns : List Need) : List (Nat × Nat × Nat × Nat) :=
  ns.foldl (fun fs n =>
    if 2 ^ 52 ≤ n.va then fs
    else
      match access s a.core a.pasid n.va n.kind with
      | .ok _ => fs
      | .error (code, level) =>
        let page := n.va / 4096 * 4096
        if fs.any fun f => f.1 == page && f.2.1 == n.kind.bits then fs else fs ++ [(page, n.kind.bits, code, level)]) []

/-- The record on which a failure waits. -/
def XFault.covers (x : XFault) (a : Asker) (gen : BitVec 8) (f : Nat × Nat × Nat × Nat) : Bool :=
  x.pasid == a.pasid && x.gen == gen && x.source == a.source && x.page == f.1 && x.acc == f.2.1

/-- What comes of asking: everything translates or has finally failed, or a token to wait for. -/
inductive Asked where
  | go
  | wait (tokens : List Word)

/-- Translation of all needs of a command. A failure that no record stands for gets one; a record that is not answered is waited for;
a record that failed among those the command waited on lets it go on with that failure (R422). -/
def ask (s : State) (a : Asker) (held : List Word) (ns : List Need) : State × Asked :=
  let gen := (s.ctx a.pasid).gen
  let r := (failures s a ns).foldl (fun (r : State × List Word) f =>
    let s := r.1
    match s.xfaults.find? fun x => x.covers a gen f && !x.failed with
    | some x => (s, r.2 ++ [x.token])
    | none =>
      if s.xfaults.any fun x => x.covers a gen f && x.failed && held.contains x.token then r
      else
        let t := s.token + 1
        let tok : Word := BitVec.ofNat 32 t
        let x : XFault := { token := tok, pasid := a.pasid, gen := gen, page := f.1, source := a.source, acc := f.2.1, code := f.2.2.1,
                            level := f.2.2.2, lid := a.lid, gid := a.gid, time := s.time }
        ({ s with token := t, xfaults := s.xfaults ++ [x] }, r.2 ++ [tok])) (s, [])
  -- what has failed stays held until the command completes
  (r.1, if r.2.isEmpty then .go else .wait (r.2 ++ held.filter fun t => s.xfaults.any fun x => x.token == t && x.failed))

/-- The pages that have finally failed for a command, with the access and its code: they fail it whatever the tables say by then (R332, R422). -/
def deadPages (s : State) (held : List Word) : List (Nat × Nat × Nat) :=
  s.xfaults.filterMap fun x => if x.failed && held.contains x.token then some (x.page, x.acc, x.code) else none

/-- Is a token waited for by any command, fragment or queue? -/
def heldToken (s : State) (t : Word) : Bool :=
  s.copies.any (fun c => c.waits.contains t) || s.cols.any (fun c => c.waits.contains t) || s.dyns.any (fun c => c.waits.contains t)
    || s.groups.any (fun g => g.frags.any fun f => f.stall == some (.xlate t)) || s.queues.any (fun q => q.2.xtok == some t || q.2.dtok == some t)
    || s.launches.any fun l => l.waits.contains t
/-- Failed records that nothing waits for any more are dropped. -/
def dropFailed (s : State) : State := { s with xfaults := s.xfaults.filter fun x => !x.failed || heldToken s x.token }

/-- The asker behind a group. -/
def askerOf (s : State) (g : Group) (source : Nat) : Asker := ⟨s.pasidOf g, g.core, source, (s.launchOf g).lid, g.id⟩

/-! ### Accesses of a command (R240, R257, R293) -/

/-- The party a command's accesses are checked under: captured at issue. -/
structure CmdParty where
  pasid : Nat
  core : Nat
  block : Nat
  id : BitVec 18
  clk : BitVec 24
  know : KVec
  race : RaceMode
  pc : BitVec 52
  lid : Word
  lane : Nat
  spBlind : Bool := false
  /-- issuing group, its fragments that come before, the issue number -/
  origin : Option (Nat × List Nat × Nat) := none
  /-- L2 class of its global accesses -/
  lcls : Nat := 0
  /-- pages that have finally failed for it -/
  dead : List (Nat × Nat × Nat) := []

def CmdParty.racer (p : CmdParty) : RaceParty := ⟨p.pasid, p.id, p.clk, p.know⟩

/-- What a command has met so far: the state, its first error and its first race. -/
structure CmdRun where
  s : State
  err : Option (Nat × Nat) := none
  race : Option Deferred := none
  moved : Nat := 0

/-- The first error of a command is kept (Table 13-5). -/
def CmdRun.fail (r : CmdRun) (code addr : Nat) : CmdRun := { r with err := r.err.orElse fun _ => some (code, addr) }

/-- Earlier stores of the issuing fragment's program order that touch bytes of the command perform first, and those of the part to a remote line of its
(R208, R240, R412). -/
def drainCmd (s : State) (p : CmdParty) (pa len : Nat) : State :=
  drainHit s fun e => e.toRemote [(pa, len)] || (match p.origin with
    | none => false
    | some (gi, fids, seq) => e.gi == gi && fids.contains e.fid && decide (e.seq ≤ seq) && e.touches [(pa, len)])

/-- The completion code of a chunk that did not translate (Table 13-5). -/
def chunkCode (s : State) (p : CmdParty) (va : Nat) (k : AccKind) : Except Nat (Nat × Xlate) :=
  let failed (c : Nat) : Nat := if c = 0x04 then 18 else 17
  if 2 ^ 52 ≤ va then .error 16
  else if let some d := p.dead.find? fun d => d.1 == va / 4096 * 4096 && d.2.1 == k.bits then .error (failed d.2.2)
  else
    match access s p.core p.pasid va k with
    | .ok r => .ok r
    | .error (c, _) => .error (failed c)

/-- The race check and record of one engine access: a record for each race, and in trap mode an error for the wait that consumes the
completion (R257). -/
def engineRace (r : CmdRun) (p : CmdParty) (x : Xlate) (va pa len : Nat) (write : Bool) (cls : Nat) : CmdRun :=
  if p.race = .off || !isTracked r.s p.pasid x then r
  else
    let a : RaceAcc := ⟨p.lane, va, pa, len, write, cls, 2⟩
    let r := match checkAcc r.s p.racer a with
      | none => r
      | some h =>
        let (s, lost) := raceRecord r.s p.racer a h p.pc (twoPowMask p.lane) p.lid (p.race == RaceMode.trap) true
        let e : Deferred := { code := 0x07, lanes := 0, addr := va / 64 * 64 + lowBit h.bytes, info := raceInfo h true lost }
        { r with s := s, race := if p.race = RaceMode.trap then r.race.orElse fun _ => some e else r.race }
    { r with s := recordAccs r.s p.racer [a] }

/-- An engine's access at the home slice, under the mask of the issuing group's context (R209). -/
def CmdRun.l2 (r : CmdRun) (p : CmdParty) (x : Xlate) (store : Bool) (pa : Nat) : CmdRun :=
  { r with s := touchL2 r.s p.pasid (if x.cpol = 2 then 1 else p.lcls) store pa }
/-- A read by an engine: bytes at their home, none where translation failed or an uncorrectable error stands. -/
def engineRead (r : CmdRun) (p : CmdParty) (va len cls : Nat) : CmdRun × Option (List Byte) :=
  match chunkCode r.s p va .read with
  | .error c => (r.fail c va, none)
  | .ok (pa, x) =>
    let r := ({ r with s := drainCmd r.s p pa len } : CmdRun).l2 p x false pa
    if r.s.badAt pa len then (r.fail 19 va, none)
    else (engineRace r p x va pa len false cls, some (r.s.mem.read pa len))

/-- A write by an engine: it drops the issuing core's L1 copy and kills the sync records it overlaps (R208, R251). -/
def engineWrite (r : CmdRun) (p : CmdParty) (va cls : Nat) (bs : List Byte) : CmdRun × Bool :=
  match chunkCode r.s p va .write with
  | .error c => (r.fail c va, false)
  | .ok (pa, x) =>
    let r := ({ r with s := drainCmd r.s p pa bs.length } : CmdRun).l2 p x true pa
    let r := engineRace r p x va pa bs.length true cls
    let s := dropL1 (r.s.writeMem pa bs) p.core pa bs.length
    ({ r with s := if isTracked s p.pasid x then syncKill s p.pasid pa bs.length else s }, true)

/-- The race check of an engine's scratchpad access (R254, R293). -/
def engineSpRace (r : CmdRun) (p : CmdParty) (o len : Nat) (write : Bool) : CmdRun :=
  let b := r.s.block p.block
  if p.race = .off || !b.spRace then r
  else
    let a : RaceAcc := ⟨p.lane, o, o, len, write, 2, 1⟩
    let r := match (if p.spBlind then none else spCheck (b.spRecord o) p.racer a) with
      | none => r
      | some h =>
        let (s, lost) := raceRecord r.s p.racer a h p.pc (twoPowMask p.lane) p.lid (p.race == RaceMode.trap) true
        let e : Deferred := { code := 0x07, lanes := 0, addr := o / 64 * 64 + lowBit h.bytes, info := raceInfo h true lost }
        { r with s := s, race := if p.race = RaceMode.trap then r.race.orElse fun _ => some e else r.race }
    { r with s := r.s.modB p.block fun b => b.putSpRec o (spUpdate (b.spRecord o) p.racer a) }

/-- A scratchpad read and write of a command. -/
def spRead (r : CmdRun) (p : CmdParty) (o len : Nat) : CmdRun × Option (List Byte) :=
  let b := r.s.block p.block
  if b.spBadAt o len then (r.fail 19 o, none) else (engineSpRace r p o len false, some (b.sp.read o len))
def spWrite (r : CmdRun) (p : CmdParty) (o : Nat) (bs : List Byte) : CmdRun :=
  let r := engineSpRace r p o bs.length true
  { r with s := r.s.modB p.block fun b => b.spPut o bs }

/-- The first error of a command as its group's wait raises it (R302): ENG, or the race of R257. -/
def CmdRun.deferred (r : CmdRun) : Option Deferred :=
  match r.err with
  | some (c, a) => some { code := 0x0A, lanes := 0, addr := a, info := BitVec.ofNat 32 c }
  | none => r.race

/-- Has the issuing group retired? Its error then goes to the fault ring (R302). -/
def issuerGone (s : State) (gi : Nat) : Bool := (s.group gi).state == .retired || (s.group gi).state == .retiring
/-- The record of an engine error whose issuer has retired (R302, R405). -/
def orphanError (s : State) (gi : Nat) (e : Deferred) : State :=
  let g := s.group gi
  let t : Trap := { code := BitVec.ofNat 32 e.code, addrLo := BitVec.ofNat 32 e.addr, addrHi := BitVec.ofNat 32 (e.addr / 2 ^ 32), mask := e.lanes.setWidth 32, info := e.info }
  oweRecord s gi 1 (leBytes 4 (5 + e.code * 256) ++ leBytes 4 (s.launchOf g).lid.toNat ++ leBytes 4 g.id.toNat ++ leBytes 4 (s.blockOf g).bid.toNat
    ++ trapBytes t ++ leBytes 8 s.time ++ leBytes 8 0)

end Sys2Proof.Machine
end

