-- ==== Sys2Proof/Machine/Copy.lean ====
section
/-! DEFINITION. Sys2Proof/Machine/Copy.lean: layout records, rings, copy and gather commands (majors 0x2D to 0x2F, chapter 13). -/

namespace Sys2Proof.Machine

open Sys2Proof

/-! ### Slices and rings (R204, R289 to R291) -/

/-- Bytes of a slice of a block's scratchpad (R204). -/
def Block.sliceBytes (b : Block) : Nat := let c := if b.cores.isEmpty then 1 else b.cores.length; 64 * ((b.spSize + (64 * c - 1)) / (64 * c))
def Block.sliceOf (b : Block) (o : Nat) : Nat := if b.sliceBytes = 0 then 0 else o / b.sliceBytes
/-- The same place in another slice. -/
def Block.inSlice (b : Block) (o k : Nat) : Nat := k * b.sliceBytes + (o - b.sliceOf o * b.sliceBytes)

/-- A ring header (Table 13-2). -/
structure Ring where
  nslot : Nat
  slotu : Nat
  rmask : BitVec 4
  own : Nat
  ridx : Word
  widx : Word
  issue : Word

def Block.ring (b : Block) (o : Nat) : Ring :=
  let w := b.sp.le o 8
  { nslot := bitsOf w 63 56 + 1, slotu := bitsOf w 55 45, rmask := BitVec.ofNat 4 (bitsOf w 44 41), own := bitsOf w 40 39,
    ridx := BitVec.ofNat 32 (b.sp.le (o + 8) 4), widx := BitVec.ofNat 32 (b.sp.le (o + 12) 4), issue := BitVec.ofNat 32 (b.sp.le (o + 16) 4) }
def Ring.statusBytes (r : Ring) : Nat := alignUp (4 * r.nslot) 64
def Ring.slotBytes (r : Ring) : Nat := 64 * r.slotu
/-- Bytes from the header to the end of the slots. -/
def Ring.area (r : Ring) : Nat := 64 + r.statusBytes + r.nslot * r.slotBytes
/-- The status word and the data of the slot of an index. -/
def Ring.statusAt (r : Ring) (o : Nat) (ix : Word) : Nat := o + 64 + 4 * (ix.toNat % r.nslot)
def Ring.slotAt (r : Ring) (o : Nat) (ix : Word) : Nat := o + 64 + r.statusBytes + ix.toNat % r.nslot * r.slotBytes

def Block.credit (b : Block) (o k : Nat) : Nat := b.sp.le (o + 24 + 2 * k) 2
def Block.setCredit (b : Block) (o k v : Nat) : Block := { b with sp := b.sp.write (o + 24 + 2 * k) (leBytes 2 v) }
def Block.setWord (b : Block) (o : Nat) (v : Word) : Block := { b with sp := b.sp.write o (leBytes 4 v.toNat) }
/-- The owner's header of a ring. -/
def Block.ownerOf (b : Block) (o : Nat) : Nat := b.inSlice o (b.ring o).own
def maskSet (m : BitVec 4) : List Nat := [0, 1, 2, 3].filter m.getLsbD

/-- Does the area of a ring keep to R289 in every slice of a mask? -/
def ringFits (b : Block) (o : Nat) (r : Ring) (m : BitVec 4) : Bool :=
  let at0 := o - b.sliceOf o * b.sliceBytes
  decide (at0 + r.area ≤ b.sliceBytes) && (maskSet m).all fun k => decide (b.inSlice o k + r.area ≤ b.spSize)

/-- The completion of a slot at one header: WIDX advances over completed slots in index order; each index keeps what its await
acquires, the vectors of every slot up to it (R291, R298). -/
def ringAdvance (b : Block) (o : Nat) : Nat → Block
  | 0 => b
  | n + 1 =>
    let r := b.ring o
    match b.ringDone.find? fun d => d.1 == o && d.2.1 == r.widx.toNat with
    | none => b
    | some d =>
      let before := ((b.ringVecs.find? fun v => v.1 == o && v.2.1 == (r.widx - 1).toNat).map (·.2.2)).getD KVec.zero
      let b := b.setWord (o + 12) (r.widx + 1)
      ringAdvance { b with ringDone := b.ringDone.filter (fun x => !(x.1 == o && x.2.1 == r.widx.toNat)),
                           ringVecs := (o, r.widx.toNat, before.merge d.2.2) :: b.ringVecs.filter fun x => !(x.1 == o && x.2.1 == r.widx.toNat) } o n

/-- A command's completion on a ring header: its status word, the slot marked, WIDX (R290, R291); the race check of the status word stands with the command
(R293). -/
def ringComplete (b : Block) (o : Nat) (ix status : Word) (v : KVec) : Block :=
  let r := b.ring o
  let b := b.setWord (r.statusAt o ix) status
  ringAdvance { b with ringDone := (o, ix.toNat, v) :: b.ringDone } o (b.ringDone.length + 1)

/-! ### RING (R297 to R300) -/

/-- A ring instruction's header access: ALIGN or SPB of 64 bytes (Table 13-6). -/
def ringAccess (s : State) (i : Iss) (a : Fld) (write : Bool) (k : Nat → State → State) : State := wordAccess s i a 64 write true k
def faultEng (s : State) (i : Iss) (m : Mask) (detail : Nat) : State := faultAt s i 0x0A m (BitVec.ofNat 32 detail)

/-- The header that `rb.init` writes in a slice (R297). -/
def initHeader (b : Block) (o c : Nat) (rmask : BitVec 4) (own : Nat) (owner : Bool) : Block :=
  let n := c % 256 + 1
  let low := c % 256 * 2 ^ 56 + bitsOf c 18 8 * 2 ^ 45 + rmask.toNat * 2 ^ 41 + own * 2 ^ 39
  let creds := [0, 1, 2, 3].flatMap fun k => leBytes 2 (if owner && rmask.getLsbD k then n else 0)
  let b := { b with sp := b.sp.write o (leBytes 8 low ++ leBytes 16 0 ++ creds ++ leBytes 32 0 ++ List.replicate (alignUp (4 * n) 64) 0) }
  { b with ringDone := b.ringDone.filter (fun x => x.1 != o), ringVecs := b.ringVecs.filter fun x => x.1 != o }

/-- Does a command bring data in? -/
def CopyCmd.into (c : CopyCmd) : Bool := c.kind = 0 ∨ c.kind = 1 ∨ (c.kind = 3 ∧ !c.dir) ∨ c.kind = 5
/-- The scratchpad places of a command's data: the slot of each receiver, or its data offset. -/
def CopyCmd.places (c : CopyCmd) (b : Block) : List Nat :=
  if !c.into || c.barrier then [c.data]
  else if c.kept.isSome then c.kept.getD []
  else
    let r := b.ring c.obj
    let slot := r.slotAt c.obj (BitVec.ofNat 32 c.slot)
    (maskSet (if c.kind = 1 then r.rmask else BitVec.ofNat 4 (2 ^ r.own))).map fun k => b.inSlice slot k

/-- The counts and the contents of a ring at one header are undefined (R297; log entry 7). -/
def looseRing (s : State) (bi o : Nat) : State :=
  let (s, bs) := s.drawBytes (((s.block bi).ring o).area - 8)
  s.modB bi fun b => { b with sp := b.sp.write (o + 8) bs }
/-- Commands outstanding on a ring that is initialised at some headers: they keep the places that they reserved. -/
def onRing (b : Block) (bi : Nat) (heads : List Nat) (c : CopyCmd) : Bool :=
  c.gi.isSome && c.block == bi && !c.barrier && (heads.contains c.obj || (maskSet (b.ring c.obj).rmask).any fun k => heads.contains (b.inSlice c.obj k))

/-- The key under which an error of a ring slot is kept for the issuing group. -/
def slotKey (o : Nat) (ix : Word) : Nat := 2 ^ 72 + o * 2 ^ 32 + ix.toNat

/-- What `rb.init` asks for at an offset: the ring, and the headers that it writes, none when it is invalid (R297). -/
def ringInit (s : State) (i : Iss) (b : Fld) (o : Nat) : Ring × List Nat :=
  let c := (i.reg b.toNat i.lo).toNat
  let bl := s.blockOf i.g
  let own := bl.sliceOf o
  let rmask : BitVec 4 := if bitsOf c 22 19 = 0 then BitVec.ofNat 4 (2 ^ own) else BitVec.ofNat 4 (bitsOf c 22 19)
  let r : Ring := { nslot := c % 256 + 1, slotu := bitsOf c 18 8, rmask := rmask, own := own, ridx := 0, widx := 0, issue := 0 }
  let bad := decide (2 ^ 23 ≤ c) || decide (1024 < r.slotu) || decide (4 ≤ own) || !rmask.getLsbD own
    || (maskSet rmask).any (fun k => decide (bl.cores.length ≤ k)) || !ringFits bl o r rmask
  (r, if bad then [] else (maskSet rmask).map (bl.inSlice o))
/-- The header and the index of a slot's key. -/
def keyHead (k : Nat) : Nat := k % 2 ^ 72 / 2 ^ 32
def keyIndex (k : Nat) : Nat := k % 2 ^ 32
/-- Errors that commands left at ring slots whose status no longer tells them: the ring has been initialised, or a later command has completed in the slot
(R298). -/
def staleErrs (s : State) (bi : Nat) (p : Nat × Deferred → Bool) : State :=
  let old (e : Nat × Deferred) : Nat × Deferred := if 2 ^ 72 ≤ e.1 ∧ p e then (e.1, { e.2 with stale := true }) else e
  { s with groups := s.groups.map fun g => if g.block = bi then { g with barErr := g.barErr.map old } else g }

/-- `rb.init` (R297): each header write is a strong access. -/
def execRbInit (g : Bool) (a b : Fld) (s : State) : Res :=
  withOperands s g [a.toNat, b.toNat] [] [] fun i => once s i 4 <| wordsAccess s i a 64 true false (fun o => (ringInit s i b o).2) fun o s =>
    let bl := s.blockOf i.g
    let (r, heads) := ringInit s i b o
    if heads.isEmpty then faultEng s i i.lanes 4
    else
      let stray := s.copies.any (onRing bl i.g.block heads)
      let copies := s.copies.map fun x => if onRing bl i.g.block heads x && x.kept.isNone then { x with kept := some (x.places bl) } else x
      let s := (staleErrs { s with copies := copies } i.g.block fun e => heads.contains (keyHead e.1)).modB i.g.block fun bl =>
        (maskSet r.rmask).foldl (fun bl k => initHeader bl (bl.inSlice o k) (i.reg b.toNat i.lo).toNat r.rmask r.own (k == r.own)) bl
      (if stray then heads.foldl (fun s h => looseRing s i.g.block h) s else s).advance i 4 true

/-- Has WIDX passed an index (R298)? -/
def ringPassed (b : Block) (o : Nat) (ix : Word) : Bool := let d := ((b.ring o).widx - ix).toNat; decide (1 ≤ d) && decide (d ≤ 2 ^ 31)

/-- An error kept for the issuing group that a wait raises: the same command's entries at other headers of its ring are raised with it. -/
def tellErr (s : State) (gi : Nat) (e : Deferred) : State :=
  s.modG gi fun g => { g with barErr := g.barErr.map fun x => if x.2.cmd = e.cmd then (x.1, { x.2 with told := true }) else x }
/-- Is an error of the group raised by an await of an index: a race once, at the command's own index; an error while the slot's status carries it, whatever
index of the slot is awaited (R257, R298)? -/
def raisedAt (r : Ring) (o : Nat) (ix : Word) (status : Nat) (e : Nat × Deferred) : Bool :=
  decide (2 ^ 72 ≤ e.1) && keyHead e.1 == o && !e.2.stale
    && (if e.2.code = 0x07 then !e.2.told && keyIndex e.1 == ix.toNat else decide (2 ^ 31 ≤ status) && keyIndex e.1 % r.nslot == ix.toNat % r.nslot)
/-- The return of `rb.await`: a race that its command met is raised once, and an error as long as the slot's status carries it, both for the issuing group alone;
else the slot, its status, and the acquire of every slot up to it (R257, R298, R302). -/
def awaitReturn (s : State) (i : Iss) (d : BitVec 6) (o : Nat) (ix : Word) : State :=
  let bl := s.blockOf i.g
  let r := bl.ring o
  let status := bl.sp.le (r.statusAt o ix) 4
  match i.g.barErr.find? (raisedAt r o ix status) with
  | some (_, e) => faultErr (tellErr s i.gi e) i (if e.code = 0x07 then e else { e with info := BitVec.ofNat 32 (bitsOf status 30 24) })
  | none =>
    let v := ((bl.ringVecs.find? fun v => v.1 == o && v.2.1 == ix.toNat).map (·.2.2)).getD KVec.zero
    let s := acquireFills (mergeG s i.gi v) i.gi i.fi 1
    ((s.putReg i (pairFld d).toNat fun _ => BitVec.ofNat 32 (r.slotAt o ix)).putReg i ((pairFld d).toNat + 1) fun _ => BitVec.ofNat 32 status).advance i
/-- `rb.await` (R298). -/
def execRbAwait (g : Bool) (d : BitVec 6) (a b : Fld) (s : State) : Res :=
  withOperands s g [a.toNat, b.toNat] (pairOf d) [] fun i => once s i 4 <|
    let fin (o : Nat) (ix : Word) (s : State) : State :=
      if ringPassed (s.blockOf i.g) o ix then awaitReturn s i d o ix else s.wait i (.ring o ix.toNat)
    match i.f.stall with
    | some (.ring o ix) => fin o (BitVec.ofNat 32 ix) s
    | _ => ringAccess s i a false fun o s => fin o (i.reg b.toNat i.lo) s

/-- The headers that an instruction on the ring at an offset accesses: its own and the owner's. -/
def ringHeads (s : State) (i : Iss) (o : Nat) : List Nat := [o, (s.blockOf i.g).ownerOf o].eraseDups
/-- Is a count of `rb.rel` one that it releases (R299)? -/
def relCount (s : State) (i : Iss) (o : Nat) (n : Word) : Bool :=
  let r := (s.blockOf i.g).ring o
  decide (n.toNat ≤ 256) && decide (n.toNat ≤ (r.widx - r.ridx).toNat)
/-- `rb.rel` (R299): a count that has no effect is no access. -/
def execRbRel (g : Bool) (a b : Fld) (s : State) : Res :=
  withOperands s g [a.toNat, b.toNat] [] [] fun i => once s i 4 <|
    let n := i.reg b.toNat i.lo
    if n != 0 && owesAccess s i then s.wait i .drain
    else
      wordsAccess s i a 64 true true (fun o => if n == 0 || !relCount s i o n then [] else ringHeads s i o) fun o s =>
        let bl := s.blockOf i.g
        let r := bl.ring o
        if n = 0 then s.advance i
        else if !relCount s i o n then faultEng s i i.lanes 8
        else
          let s := s.modB i.g.block fun bl =>
            let own := bl.ownerOf o
            let k := bl.sliceOf o
            (bl.setWord (o + 8) (r.ridx + n)).setCredit own k (bl.credit own k + n.toNat)
          (tickG (s.commit i) i.gi).advance i 4 true

/-- The least credit over the receivers of a ring's owner. -/
def leastCredit (b : Block) (own : Nat) : Nat :=
  match (maskSet (b.ring own).rmask).map (b.credit own) with
  | [] => 0
  | x :: xs => xs.foldl (fun m y => if y < m then y else m) x

/-- `rb.stat` (R300). -/
def execRbStat (g : Bool) (d : BitVec 6) (a : Fld) (s : State) : Res :=
  withOperands s g [a.toNat] (pairOf d) [] fun i => once s i 4 <| wordsAccess s i a 64 false true (ringHeads s i) fun o s =>
    let bl := s.blockOf i.g
    let own := bl.ownerOf o
    ((s.putReg i (pairFld d).toNat fun _ => (bl.ring o).widx).putReg i ((pairFld d).toNat + 1) fun _ =>
      BitVec.ofNat 32 (leastCredit bl own * 65536 + ((bl.ring own).issue - (bl.ring own).widx).toNat % 65536)).advance i
/-- `rb.cred` (R300). -/
def execRbCred (g : Bool) (d a b : Fld) (s : State) : Res :=
  withOperands s g [a.toNat, b.toNat] [d.toNat] [] fun i => once s i 4 <| wordsAccess s i a 64 false true (ringHeads s i) fun o s =>
    let bl := s.blockOf i.g
    let own := bl.ownerOf o
    let k := (i.reg b.toNat i.lo).toNat % 4
    (s.putReg i d.toNat fun _ => BitVec.ofNat 32 (if (bl.ring own).rmask.getLsbD k then bl.credit own k else 0)).advance i

/-! ### Layout records (R287, R288) -/

/-- A layout record read (Table 13-1). -/
structure Layout where
  base : Nat
  box0 : Nat
  box1 : Nat
  box2 : Nat
  elem : Nat
  dim0 : Nat
  dim1 : Nat
  dim2 : Nat
  rank : Nat
  fill : Byte
  stride1 : Nat
  stride2 : Nat

def word (ws : List Word) (k : Nat) : Nat := (ws[k]?.getD 0).toNat

def Layout.of (w : List Word) : Layout :=
  { base := word w 0 + 2 ^ 32 * (word w 1 % 2 ^ 20), box0 := word w 1 / 2 ^ 24 + 1, box1 := word w 2 % 256 + 1, box2 := word w 3 % 256 + 1,
    elem := bitsOf (word w 1) 23 20, dim0 := word w 2 / 256, dim1 := word w 3 / 256, dim2 := word w 4 / 256, rank := bitsOf (word w 4) 7 6 + 1,
    fill := if bitsOf (word w 4) 4 4 = 1 then 0xFF else 0,
    stride1 := word w 5 + 2 ^ 32 * (word w 7 % 256), stride2 := word w 6 + 2 ^ 32 * bitsOf (word w 7) 15 8 }

/-- Bytes of the box (R288). -/
def Layout.boxBytes (l : Layout) : Nat := 16 * l.box0 * l.box1 * l.box2

/-- The ENG detail of an invalid record or geometry (R288, Table 13-5). DESIGN CHOICE, log entry 77: the spec gives no order inside the second step of R301; the
model reports detail 1 before detail 2. Unsafe. -/
def layoutError (w : List Word) (c0 : Int) (reduce : Bool) : Option Nat :=
  let l := Layout.of w
  let width := codeWidth l.elem
  let bad := bitsOf (word w 4) 5 5 ≠ 0 ∨ word w 4 % 16 ≠ 0 ∨ 2 ^ 16 ≤ word w 7 ∨ l.rank = 4 ∨ l.dim0 = 0
    ∨ (2 ≤ l.rank ∧ l.dim1 = 0) ∨ (3 ≤ l.rank ∧ l.dim2 = 0)
    ∨ (l.rank < 2 ∧ (l.dim1 ≠ 0 ∨ l.box1 ≠ 1 ∨ l.stride1 ≠ 0)) ∨ (l.rank < 3 ∧ (l.dim2 ≠ 0 ∨ l.box2 ≠ 1 ∨ l.stride2 ≠ 0))
  if bad then some 1
  else if l.base % 16 ≠ 0 ∨ l.stride1 % 16 ≠ 0 ∨ l.stride2 % 16 ≠ 0 ∨ l.dim0 * width % 128 ≠ 0 ∨ c0 * width % 128 ≠ 0 ∨ (reduce ∧ l.elem ≠ 0) then some 2
  else none

/-- The chunks of a box: dense offset, and the global address where it lies inside the tensor (R288). A dimension beyond the rank is 1, and its coordinate is
taken as it is given. -/
def Layout.chunks (l : Layout) (at_ : List Int) : List (Nat × Option Nat) :=
  let c0 : Int := at_[0]?.getD 0
  let c1 : Int := at_[1]?.getD 0
  let c2 : Int := at_[2]?.getD 0
  let d1 : Int := if l.rank < 2 then 1 else l.dim1
  let d2 : Int := if l.rank < 3 then 1 else l.dim2
  let w : Int := codeWidth l.elem
  (List.range l.box2).flatMap fun (i2 : Nat) => (List.range l.box1).flatMap fun (i1 : Nat) => (List.range l.box0).map fun (j : Nat) =>
    let x : Int := c0 * w / 8 + 16 * (j : Int)
    let inb := decide (0 ≤ x) && decide (x < l.dim0 * w / 8) && decide (0 ≤ c1 + i1) && decide (c1 + i1 < d1) && decide (0 ≤ c2 + i2) && decide (c2 + i2 < d2)
    ((16 * j + 16 * l.box0 * (i1 + l.box1 * i2) : Nat), if inb then some ((l.base + x + (c1 + i1) * l.stride1 + (c2 + i2) * l.stride2) % 2 ^ 64).toNat else none)

/-! ### Issue (R284 to R286, R301) -/

/-- The leader: the lowest active lane whose bit of the leader predicate is 1 (R284). -/
def leader (i : Iss) (p : BitVec 3) : Option Nat := (i.lanes &&& i.g.pred p.toNat).low

/-- The fault of a scratchpad operand of a command: its offset's alignment, then its range (R301). -/
def spFault (s : State) (i : Iss) (o len align : Nat) (write : Bool) : Option (Nat × Word × Nat) :=
  let info : Word := BitVec.ofNat 32 (log2Size align * 16 + 2 + (if write then 1 else 0))
  if o % align ≠ 0 then some (0x05, info, o) else if (s.blockOf i.g).spSize < o + len then some (0x06, info, o) else none

/-- Does a ring suit a command (R289, R291, R301): none, or the ENG detail. `recv`: bytes it must take into a slot. DESIGN CHOICE, log entry 77: a ring of
several receivers, or of another than its owner, is unsuited to every command but `cpm`; detail 4 goes before detail 6 and both before detail 3. Unsafe. -/
def ringError (b : Block) (o : Nat) (c : CopyCmd) (recv : Option Nat) : Option Nat :=
  let r := b.ring o
  let single : BitVec 4 := BitVec.ofNat 4 (2 ^ r.own)
  if b.sliceOf o ≠ r.own ∨ !r.rmask.getLsbD r.own ∨ 1024 < r.slotu ∨ !ringFits b o r r.rmask ∨ (c.kind ≠ 1 ∧ r.rmask ≠ single) then some 4
  else if c.kind = 1 ∧ (c.mcast ≠ r.rmask ∨ (maskSet c.mcast).any fun k => decide (b.cores.length ≤ k)) then some 6
  else if 65536 < c.bytes then some 3
  else
    match recv with
    | some n => if r.slotBytes < n then some 3 else none
    | none => none

/-- Commands of a core that are outstanding at its engine (R286). -/
def copyCount (s : State) (core : Nat) : Nat := (s.copies.filter fun c => c.gi.isSome && c.core == core).length
/-- Is the engine's limit for a core, or the context's drain cap on it, reached (R286, R361)? -/
def copyFull (s : State) (core pasid : Nat) : Bool :=
  decide (64 ≤ copyCount s core) || decide ((s.ctx pasid).cap ≤ (s.copies.filter fun c => c.gi.isSome && c.core == core && c.ctx == pasid).length)

/-- The party of a copy command. -/
def CopyCmd.party (c : CopyCmd) (s : State) : CmdParty :=
  { pasid := c.ctx, core := c.core, block := c.block, id := c.id, clk := c.clk, know := c.know, race := c.race, pc := c.pc,
    lid := (s.launch (s.block c.block).launch).lid, lane := c.lane, spBlind := match c.gi with | some g => (s.group g).spBlind | none => false,
    origin := c.gi.map fun g => (g, c.fids, c.since), lcls := c.lcls, dead := deadPages s c.waits }

/-- The index list of a command is read where it stands (R295): each entry is an engine access (R293), and one that holds an uncorrectable error names no row
and gives the command its error. -/
def readList (s : State) (c : CopyCmd) (list n : Nat) : State × CopyCmd :=
  let p := c.party s
  let bad (k : Nat) : Bool := (s.block c.block).spBadAt (list + 4 * k) 4
  let ks := List.range n
  let r : CmdRun := ks.foldl (fun r k => engineSpRace r p (list + 4 * k) 4 false) { s := s }
  (r.s, { c with
    index := ks.map fun k => if bad k then 2 ^ 32 - 1 else (s.block c.block).sp.le (list + 4 * k) 4,
    listErr := (ks.find? bad).map fun k => (19, list + 4 * k), listRace := r.race })

/-- A command built from what the leader lane holds; the rest is filled in at acceptance. -/
def acceptCopy (s : State) (i : Iss) (ln : Nat) (c : CopyCmd) (list : Option (Nat × Nat)) : State :=
  let b := s.blockOf i.g
  let r := b.ring c.obj
  let recv : BitVec 4 := if c.kind = 1 then r.rmask else BitVec.ofNat 4 (2 ^ r.own)
  if copyFull s i.g.core (s.pasidOf i.g) then s.wait i (.engine 1)
  else if !c.barrier ∧ (maskSet recv).any (fun k => b.credit c.obj k == 0) then s.wait i (.credit c.obj recv)
  else
    let s := if c.barrier then s else
      s.modB i.g.block fun b => (maskSet recv).foldl (fun b k => b.setCredit c.obj k (b.credit c.obj k - 1)) (b.setWord (c.obj + 16) (r.issue + 1))
    let c := { c with gi := some i.gi, ctx := s.pasidOf i.g, block := i.g.block, core := i.g.core, lane := ln, slot := r.issue.toNat,
                      race := i.g.race, fids := i.f.fid :: i.f.before, since := s.seq, id := i.g.id, clk := i.g.clk, know := i.g.know, pc := i.f.pc }
    let (s, c) := match list with | some (o, n) => readList s c o n | none => (s, c)
    (tickG (({ s with copies := s.copies ++ [c] } : State).commit i) i.gi).advance i 8 true

/-- The checks of R301 in order, then acceptance. `data`: scratchpad data area and whether the command writes it; `list`: index list and its
length. DESIGN CHOICE, log entry 77: a data offset is misaligned when it is no multiple of 16, and TRAPINFO then has LGS 4. Unsafe. -/
def issueCopy (s : State) (i : Iss) (ln : Nat) (c : CopyCmd) (data : Option (Nat × Bool)) (list : Option (Nat × Nat)) (invalid : Option Nat)
    (into : Bool) : State :=
  let b := s.blockOf i.g
  let m := twoPowMask ln
  let obj := if c.barrier then spFault s i c.obj 8 8 true else spFault s i c.obj 64 64 true
  let dat := data.bind fun d => spFault s i d.1 c.bytes 16 d.2
  let lst := list.bind fun o => spFault s i o.1 (4 * o.2) 4 false
  let area := if c.barrier || obj.isSome then none else spFault s i c.obj ((b.ring c.obj).area) 64 true
  match obj.orElse fun _ => dat.orElse fun _ => lst.orElse fun _ => area with
  | some (code, info, o) => faultAt s i code m info (BitVec.ofNat 64 o)
  | none =>
    match invalid with
    | some d => faultEng s i m d
    | none =>
      match (if c.barrier then (if 65536 < c.bytes then some 3 else none) else ringError b c.obj c (if into then some c.bytes else none)) with
      | some d => faultEng s i m d
      | none => acceptCopy s i ln c list

/-- A CPY or GTH instruction: its leader, from whose lane alone it reads its operands, or nothing at all (R284, R285). -/
def copyOp (s : State) (g : Bool) (reads : List Nat) (p : BitVec 3) (k : Iss → Nat → State) : Res :=
  let of (i : Iss) : Mask := match leader i p with | some ln => twoPowMask ln | none => 0
  withOperandsOn s g reads [] [p.toNat] of of fun i =>
    match leader i p with
    | none => s.advance i 8
    | some ln => k i ln

/-- A tensor command (FN 0, 1, 2, 4): record, coordinates, data offset (R292). -/
def tensorOp (s : State) (g : Bool) (kind : Nat) (d : Fld) (a : BitVec 4) (b : BitVec 5) (rop : Nat) (mcast : BitVec 4)
    (l sc : BitVec 2) (rel acq ck : BitVec 1) (p : BitVec 3) : Res :=
  let rec0 := (octFld a).toNat
  let q := (quadFld b).toNat
  copyOp s g (d.toNat :: runOf rec0 8 ++ runOf q 4) p fun i ln =>
    let w := (List.range 8).map fun k => i.reg (rec0 + k) ln
    let co := (List.range 3).map fun k => (i.reg (q + k) ln).toInt
    let into := kind = 0 ∨ kind = 1
    let data := (i.reg (q + 3) ln).toNat
    let c : CopyCmd := { kind := kind, record := w, coords := co, data := data, bytes := (Layout.of w).boxBytes, rop := rop, mcast := mcast, lcls := l.toNat,
                         rel := rel == 1, acq := acq == 1, scope := sc, barrier := ck == 1, obj := (i.reg d.toNat ln).toNat }
    issueCopy s i ln c (if into && !c.barrier then none else some (data, into)) none (layoutError w (co[0]?.getD 0) (kind == 4)) (into && !c.barrier)

/-- `cpt`. -/
def execCpt (g : Bool) (d : Fld) (a : BitVec 4) (b : BitVec 5) (l sc : BitVec 2) (e q k : BitVec 1) (p : BitVec 3) (s : State) : Res :=
  tensorOp s g 0 d a b 0 0 l sc e q k p
/-- `cpm`. -/
def execCpm (g : Bool) (d : Fld) (a : BitVec 4) (b : BitVec 5) (m : BitVec 4) (l sc : BitVec 2) (e q : BitVec 1) (p : BitVec 3) (s : State) : Res :=
  tensorOp s g 1 d a b 0 m l sc e q 0 p
/-- `cps`. -/
def execCps (g : Bool) (d : Fld) (a : BitVec 4) (b : BitVec 5) (l sc : BitVec 2) (e q k : BitVec 1) (p : BitVec 3) (s : State) : Res :=
  tensorOp s g 2 d a b 0 0 l sc e q k p
/-- `cpr`. -/
def execCpr (g : Bool) (d : Fld) (a : BitVec 4) (b : BitVec 5) (r : BitVec 4) (l sc : BitVec 2) (e q k : BitVec 1) (p : BitVec 3) (s : State) : Res :=
  tensorOp s g 4 d a b r.toNat 0 l sc e q k p
/-- `cpf`. DESIGN CHOICE, log entry 77: a byte count that is 0 or no multiple of 16 raises ENG with detail 2, for which Table 13-5 names none. Unsafe. -/
def execCpf (g : Bool) (d : Fld) (a b : BitVec 6) (w : BitVec 1) (l sc : BitVec 2) (e q k : BitVec 1) (p : BitVec 3) (s : State) : Res :=
  copyOp s g (d.toNat :: pairOf a ++ pairOf b) p fun i ln =>
    let n := (i.reg ((pairFld b).toNat + 1) ln).toNat
    let data := (i.reg (pairFld b).toNat ln).toNat
    let ga := (i.pair (pairFld a).toNat ln).toNat
    let c : CopyCmd := { kind := 3, data := data, gaddr := ga, bytes := n, dir := w == 1, lcls := l.toNat, rel := e == 1, acq := q == 1, scope := sc, barrier := k == 1,
                         obj := (i.reg d.toNat ln).toNat }
    let into := !c.dir && !c.barrier
    issueCopy s i ln c (if into then none else some (data, !c.dir)) none (if ga % 16 ≠ 0 ∨ n % 16 ≠ 0 ∨ n = 0 then some 2 else none) into

/-- A gather or scatter (R295): base, stride and row bytes in A, index list, count and data offset in B. Detail 2 of an operand goes before detail 7 (log entry
77). -/
def gatherOp (s : State) (g : Bool) (kind : Nat) (d : Fld) (a b : BitVec 5) (rop : Nat) (l sc : BitVec 2) (rel acq ck : BitVec 1) (p : BitVec 3) : Res :=
  let qa := (quadFld a).toNat
  let qb := (quadFld b).toNat
  copyOp s g (d.toNat :: runOf qa 4 ++ runOf qb 4) p fun i ln =>
    let base := (i.pair qa ln).toNat
    let stride := (i.reg (qa + 2) ln).toNat
    let rw := (i.reg (qa + 3) ln).toNat
    let list := (i.reg qb ln).toNat
    let n := (i.reg (qb + 1) ln).toNat
    let data := (i.reg (qb + 2) ln).toNat
    let rows := rw % 2 ^ 13
    let badRow := 2 ^ 13 ≤ rw ∨ rows = 0 ∨ rows % 16 ≠ 0 ∨ 4096 < rows
    let c : CopyCmd := { kind := kind, data := data, gaddr := base, stride := stride, rowBytes := rows, bytes := n * rows, rop := rop, lcls := l.toNat,
                         rel := rel == 1, acq := acq == 1, scope := sc, barrier := ck == 1, obj := (i.reg d.toNat ln).toNat }
    let into := kind = 5 && !c.barrier
    issueCopy s i ln c (if into then none else some (data, kind == 5)) (some (list, n))
      (if base % 16 ≠ 0 ∨ stride % 16 ≠ 0 then some 2 else if n = 0 ∨ 4096 < n ∨ badRow then some 7 else none) into

/-- `gth`. -/
def execGth (g : Bool) (d : Fld) (a b : BitVec 5) (l sc : BitVec 2) (e q k : BitVec 1) (p : BitVec 3) (s : State) : Res :=
  gatherOp s g 5 d a b 0 l sc e q k p
/-- `sct`. -/
def execSct (g : Bool) (d : Fld) (a b : BitVec 5) (l sc : BitVec 2) (e q k : BitVec 1) (p : BitVec 3) (s : State) : Res :=
  gatherOp s g 6 d a b 0 l sc e q k p
/-- `sctr`. -/
def execSctr (g : Bool) (d : Fld) (a b : BitVec 5) (r : BitVec 4) (l sc : BitVec 2) (e q k : BitVec 1) (p : BitVec 3) (s : State) : Res :=
  gatherOp s g 7 d a b r.toNat l sc e q k p

/-! ### Execution and completion (R290 to R296, R302) -/

/-- One chunk of a command: its scratchpad offset within the data area, its global address or none, the bytes it gets when none. -/
structure Chunk where
  off : Nat
  va : Option Nat
  fill : Byte := 0

/-- The chunks of a command. -/
def CopyCmd.chunks (c : CopyCmd) : List Chunk :=
  match c.kind with
  | 3 => (List.range (c.bytes / 16)).map fun k => ⟨16 * k, some ((c.gaddr + 16 * k) % 2 ^ 64), 0⟩
  | 8 => (List.range (c.bytes / 16)).map fun k => ⟨16 * k, some ((c.gaddr + 16 * k) % 2 ^ 64), 0⟩
  | k =>
    if 5 ≤ k then
      (indexed c.index).flatMap fun x => (List.range (c.rowBytes / 16)).map fun j =>
        ⟨x.1 * c.rowBytes + 16 * j, if x.2 = 2 ^ 32 - 1 then none else some ((c.gaddr + x.2 * c.stride + 16 * j) % 2 ^ 64), 0⟩
    else ((Layout.of c.record).chunks c.coords).map fun x => ⟨x.1, x.2, (Layout.of c.record).fill⟩

/-- Does a command reduce? -/
def CopyCmd.reduces (c : CopyCmd) : Bool := c.kind = 4 ∨ c.kind = 7
/-- The reduction of a ROP code, and whether it works half by half (Table 13-3, R272). -/
def ropOf (r : Nat) : AtomOp :=
  match r with
  | 0 => .add32 | 1 => .addF32 | 2 => .addBf16x2 | 3 => .addF16x2 | 4 => .minF32 | _ => .maxF32

def CopyCmd.kindOf (c : CopyCmd) : AccKind := if c.into then .read else if c.reduces then .atomic else .write

/-- The reduction of the words of a chunk into global memory at the home slice (R292, R295). -/
def reduceChunk (r : CmdRun) (p : CmdParty) (va rop : Nat) (bs : List Byte) : CmdRun × Bool :=
  match chunkCode r.s p va .atomic with
  | .error c => (r.fail c va, false)
  | .ok (pa, x) =>
    let r := ({ r with s := drainCmd r.s p pa 16 } : CmdRun).l2 p x true pa
    if r.s.badAt pa 16 then (r.fail 19 va, false)
    else
      let r := engineRace r p x va pa 16 true 2
      let new := (List.range 4).flatMap fun k => leBytes 4 (atomApply (ropOf rop) (r.s.mem.le (pa + 4 * k) 4) (leNat ((bs.drop (4 * k)).take 4)) 0)
      let s := dropL1 (r.s.writeMem pa new) p.core pa 16
      ({ r with s := if isTracked s p.pasid x then syncKill s p.pasid pa 16 else s }, true)

/-- One chunk moves (R292, R293, R302). -/
def copyChunk (c : CopyCmd) (p : CmdParty) (places : List Nat) (r : CmdRun) (k : Chunk) : CmdRun :=
  let put (r : CmdRun) (bs : List Byte) : CmdRun := places.foldl (fun r o => spWrite r p (o + k.off) bs) r
  match k.va with
  | none => if c.into then put r (List.replicate 16 k.fill) else r
  | some va =>
    if c.into then
      match engineRead r p va 16 2 with
      | (r, some bs) => { put r bs with moved := r.moved + 1 }
      | (r, none) => put r (List.replicate 16 k.fill)
    else
      match spRead r p (c.data + k.off) 16 with
      | (r, none) => r
      | (r, some bs) =>
        let (r, ok) := if c.reduces then reduceChunk r p va c.rop bs else engineWrite r p va 2 bs
        if ok then { r with moved := r.moved + 1 } else r

/-- The completion of a command: its barrier arrival, or the status word and WIDX of its ring or rings (R290, R291, R294), and what its
group's next wait will raise (R302, R257). -/
def finishCopy (r : CmdRun) (c : CopyCmd) (gi : Nat) : State :=
  let ring := (r.s.block c.block).ring c.obj
  let heads := (maskSet (if c.kind = 1 then ring.rmask else BitVec.ofNat 4 (2 ^ ring.own))).map ((r.s.block c.block).inSlice c.obj)
  let statuses := if c.barrier then [] else heads.map fun o => ring.statusAt o (BitVec.ofNat 32 c.slot)
  let r := statuses.foldl (fun r o => engineSpRace r (c.party r.s) o 4 true) r
  let s := r.s
  let ix : Word := BitVec.ofNat 32 c.slot
  let status : Word := BitVec.ofNat 32 (match r.err with | some (k, _) => 2 ^ 31 + k * 2 ^ 24 + r.moved | none => r.moved)
  let s :=
    if c.barrier then arriveAt s c.block c.obj 0 (BitVec.ofInt 20 (-(c.bytes / 16 : Nat))) c.know
    else
      let before (e : Nat × Deferred) : Bool := e.2.code == 0x0A && heads.contains (keyHead e.1) && keyIndex e.1 % ring.nslot == ix.toNat % ring.nslot
      let s := staleErrs (s.modB c.block fun b => heads.foldl (fun b o => ringComplete b o ix status c.know) b) c.block before
      if c.kept.isSome then heads.foldl (fun s o => looseRing s c.block o) s else s
  match r.deferred with
  | none => s
  | some e =>
    let e := { e with cmd := c.since }
    if issuerGone s gi then (if e.code = 0x0A then orphanError s gi e else s)
    else s.modG gi fun g => { g with barErr := g.barErr ++ (if c.barrier then [(c.obj, e)] else heads.map fun o => (slotKey o ix, e)) }

/-- The translations that a command needs. -/
def CopyCmd.needs (c : CopyCmd) : List Need := c.chunks.filterMap fun k => k.va.map fun va => ⟨va, c.kindOf⟩

end Sys2Proof.Machine
end

