-- ==== Sys2Proof/Machine/Bodies.lean ====
section
/-! DEFINITION. Sys2Proof/Machine/Bodies.lean: the algorithms of the dynamics engine on body models (R339 to R341), in FP32 operations that round as R340
and R341 say. R341 fixes the order within a sum, a matrix product and a cross product, and not every product of "the standard formulations": an algorithm
runs in each formulation of `forms`, and a result is known where all of them give it (log entry 10). -/

namespace Sys2Proof.Machine

open Sys2Proof

/-! ### FP32 operations -/

/-- A float, when it is known. -/
abbrev Ex := Option Val

/-- A value rounded under RNE (R340). -/
def rounded (v : Val) : Ex := some (fp32.value (fp32.arith false v))
def Ex.ofBits (x : Nat) : Ex := some (fp32.value (x % 2 ^ 32))
def Ex.zero : Ex := some (.fin false 0 0)
def Ex.one : Ex := some (.fin false 1 0)
def Ex.two : Ex := some (.fin false 1 1)
def Ex.half : Ex := some (.fin false 1 (-1))
def Ex.neg (a : Ex) : Ex := a.map Val.neg
/-- A product and a sum before they are rounded: a NaN whatever the other operand. -/
def Ex.times (a b : Ex) : Ex := if a = some .nan ∨ b = some .nan then some .nan else a.bind fun x => b.map x.mul
def Ex.plus (a b : Ex) : Ex := if a = some .nan ∨ b = some .nan then some .nan else a.bind fun x => b.map x.add
def Ex.add (a b : Ex) : Ex := (Ex.plus a b).bind rounded
def Ex.sub (a b : Ex) : Ex := Ex.add a b.neg
def Ex.mul (a b : Ex) : Ex := (Ex.times a b).bind rounded
def Ex.fma (a b c : Ex) : Ex := (Ex.plus (Ex.times a b) c).bind rounded
/-- A quotient before it is rounded: 62 further bits, the last one sticky. -/
def Val.quot : Val → Val → Val
  | .nan, _ => .nan
  | _, .nan => .nan
  | .inf _, .inf _ => .nan
  | .inf a, .fin b _ _ => .inf (a != b)
  | .fin a _ _, .inf b => .fin (a != b) 0 0
  | .fin an am ae, .fin bn bm be =>
    if bm = 0 then (if am = 0 then .nan else .inf (an != bn))
    else .fin (an != bn) (2 * (am * 2 ^ 62 / bm) + if am * 2 ^ 62 % bm = 0 then 0 else 1) (ae - be - 63)
def Ex.div (a b : Ex) : Ex := if a = some .nan ∨ b = some .nan then some .nan else (a.bind fun x => b.map x.quot).bind rounded
/-- What two computations of one result agree on; zeros of either sign are one result. -/
def Ex.agree (a b : Ex) : Ex := a.bind fun x => b.bind fun y => if x.eq y || (x == .nan && y == .nan) then some x else none

/-! ### Vectors and matrices, as lists of rows -/

/-- Σ aᵢbᵢ (R341): the first product rounded, then one fma for each other. -/
def rDot (a b : List Ex) : Ex :=
  match a.zip b with
  | [] => Ex.zero
  | p :: ps => ps.foldl (fun acc q => Ex.fma q.1 q.2 acc) (Ex.mul p.1 p.2)
def matVec (m : List (List Ex)) (v : List Ex) : List Ex := m.map fun r => rDot r v
/-- a × b with the subtracted product rounded first. -/
def cross (a b : List Ex) : List Ex :=
  let g (v : List Ex) (k : Nat) : Ex := v[k]?.getD none
  let c (y z : Nat) : Ex := Ex.fma (g a y) (g b z) (Ex.mul (g a z) (g b y)).neg
  [c 1 2, c 2 0, c 0 1]
def addVec (a b : List Ex) : List Ex := List.zipWith Ex.add a b
def subVec (a b : List Ex) : List Ex := List.zipWith Ex.sub a b
def scaleVec (k : Ex) (a : List Ex) : List Ex := a.map (Ex.mul k)
/-- Column k of a matrix, and the transpose of one with n columns. -/
def colOf (m : List (List Ex)) (k : Nat) : List Ex := m.map fun r => r[k]?.getD none
def transpose (n : Nat) (m : List (List Ex)) : List (List Ex) := (List.range n).map (colOf m)
/-- a × b, where b has n columns, under a reading of one row times one column. -/
def mulBy (dot : List Ex → List Ex → Ex) (n : Nat) (a b : List (List Ex)) : List (List Ex) := let cols := transpose n b; a.map fun r => cols.map (dot r)
def matMul (n : Nat) (a b : List (List Ex)) : List (List Ex) := mulBy rDot n a b
def agreeVec (a b : List Ex) : List Ex := List.zipWith Ex.agree a b
def agreeMat (a b : List (List Ex)) : List (List Ex) := List.zipWith agreeVec a b
def addMat (a b : List (List Ex)) : List (List Ex) := List.zipWith addVec a b
def negMat (a : List (List Ex)) : List (List Ex) := a.map fun r => r.map Ex.neg
def scaleMat (k : Ex) (a : List (List Ex)) : List (List Ex) := a.map (scaleVec k)
/-- a bᵀ. -/
def outer (a b : List Ex) : List (List Ex) := a.map fun x => b.map (Ex.mul x)
def zeros (n : Nat) : List Ex := List.replicate n Ex.zero
def unitMat (n : Nat) : List (List Ex) := (List.range n).map fun i => (List.range n).map fun j => if i = j then Ex.one else Ex.zero
/-- The matrix of v ×. -/
def skew (v : List Ex) : List (List Ex) :=
  let x : Ex := v[0]?.getD none
  let y : Ex := v[1]?.getD none
  let z : Ex := v[2]?.getD none
  [[Ex.zero, z.neg, y], [z, Ex.zero, x.neg], [y.neg, x, Ex.zero]]
/-- Four 3 × 3 blocks. -/
def blocks4 (a b c d : List (List Ex)) : List (List Ex) := List.zipWith (· ++ ·) a b ++ List.zipWith (· ++ ·) c d
def zero3 : List (List Ex) := List.replicate 3 (zeros 3)

/-! ### Formulations -/

/-- What R341 leaves to a formulation: whether 6-vectors are multiplied by 6 × 6 matrices or by 3 × 3 matrices and cross products; and whether products and
sums of three are taken from the right, and quotients by an inverse. -/
structure Form where
  wide : Bool
  late : Bool
def forms : List Form := [⟨false, false⟩, ⟨true, false⟩, ⟨false, true⟩, ⟨true, true⟩]
/-- What all formulations agree on. -/
def inAll (run : Form → List Ex) : List Ex := (forms.drop 1).foldl (fun acc f => agreeVec acc (run f)) (run ⟨false, false⟩)

/-- A row of six times a column. -/
def Form.dot (f : Form) (a b : List Ex) : Ex := if f.wide then rDot a b else Ex.add (rDot (a.take 3) (b.take 3)) (rDot (a.drop 3) (b.drop 3))
def Form.mulVec (f : Form) (m : List (List Ex)) (v : List Ex) : List Ex := m.map fun r => f.dot r v
/-- A product of three 6 × 6 matrices. -/
def Form.mul3 (f : Form) (a b c : List (List Ex)) : List (List Ex) :=
  if f.late then mulBy f.dot 6 a (mulBy f.dot 6 b c) else mulBy f.dot 6 (mulBy f.dot 6 a b) c
/-- A sum of three vectors. -/
def Form.add3 (f : Form) (a b c : List Ex) : List Ex := if f.late then addVec a (addVec b c) else addVec (addVec a b) c
def Form.quot (f : Form) (a b : Ex) : Ex := if f.late then Ex.mul a (Ex.div Ex.one b) else Ex.div a b
/-- v × on motions and v ×* on forces: angular parts first (R341). -/
def crossMotion (v : List Ex) : List (List Ex) := blocks4 (skew (v.take 3)) zero3 (skew (v.drop 3)) (skew (v.take 3))
def Form.motionCross (f : Form) (v u : List Ex) : List Ex :=
  if f.wide then f.mulVec (crossMotion v) u
  else cross (v.take 3) (u.take 3) ++ addVec (cross (v.take 3) (u.drop 3)) (cross (v.drop 3) (u.take 3))
def Form.forceCross (f : Form) (v u : List Ex) : List Ex :=
  if f.wide then f.mulVec (negMat (transpose 6 (crossMotion v))) u
  else addVec (cross (v.take 3) (u.take 3)) (cross (v.drop 3) (u.drop 3)) ++ cross (v.take 3) (u.drop 3)

/-! ### Body models (Table 15-6) -/

def wordAt (bs : List Byte) (k : Nat) : Nat := leNat ((bs.drop (4 * k)).take 4)
/-- NQ, NV and NJ of a header. -/
def modelNq (h : List Byte) : Nat := bitsOf (wordAt h 0) 23 16
def modelNv (h : List Byte) : Nat := bitsOf (wordAt h 0) 15 8
def modelNj (h : List Byte) : Nat := wordAt h 0 % 128
/-- Type and parent of a joint. -/
def jointType (js : List Byte) (j : Nat) : Nat := wordAt js (32 * j) % 4
def jointParent (js : List Byte) (j : Nat) : Nat := bitsOf (wordAt js (32 * j)) 15 8
/-- Coordinates that the joints add up to. -/
def sumOver (js : List Byte) (n free : Nat) : Nat := (List.range n).foldl (fun t j => t + if jointType js j = 2 then free else 1) 0
/-- Coordinates before a joint. -/
def coordAt (js : List Byte) (j free : Nat) : Nat := sumOver js j free

/-- Floats of a record from a word on. -/
def floatsAt (bs : List Byte) (k n : Nat) : List Ex := (List.range n).map fun i => Ex.ofBits (wordAt bs (k + i))
/-- Rows of three. -/
def rows3 (v : List Ex) : List (List Ex) := [v.take 3, (v.drop 3).take 3, (v.drop 6).take 3]

/-- A body with the joint that carries it: the rotation from its parent's frame to its own, as the joint's turn after ROT; POS, and the joint's own shift
in the joint frame; the columns of the joint's motions; mass, centre of mass and inertia. -/
structure Link where
  parent : Option Nat
  turn : List (List Ex)
  fix : List (List Ex)
  spot : List Ex
  shift : Option (List Ex)
  cols : List (List Ex)
  mass : Ex
  com : List Ex
  mom : List (List Ex)

/-- The rotation into a frame that has turned about an axis, with c, s of R341 and t = 1 − c: as c·1 − s·(a ×) + t·aaᵀ and as 1 − s·(a ×) + t·(a ×)²,
where both give it. -/
def turned (axis : List Ex) (q : Nat) : List (List Ex) :=
  let x := fp32.mulOp false q 0x3EA2F983
  let c := Ex.ofBits (fspec 6 false x)
  let s := Ex.ofBits (fspec 5 false x)
  let t := Ex.sub Ex.one c
  let odd := scaleMat s.neg (skew axis)
  agreeMat (addMat (scaleMat t (outer axis axis)) (addMat (scaleMat c (unitMat 3)) odd))
    (addMat (scaleMat t (matMul 3 (skew axis) (skew axis))) (addMat (unitMat 3) odd))
/-- The rotation into the frame of a quaternion x, y, z, w: the transpose of the body's, as 1 − 2w(v ×) + 2(v ×)² and as (w² − v·v)1 − 2w(v ×) + 2vvᵀ, where
both give it. -/
def quatRot (h : List Ex) : List (List Ex) :=
  let v := h.take 3
  let w : Ex := h[3]?.getD none
  let odd := scaleMat (Ex.mul Ex.two w).neg (skew v)
  agreeMat (addMat (addMat (unitMat 3) (scaleMat Ex.two (matMul 3 (skew v) (skew v)))) odd)
    (addMat (addMat (scaleMat (Ex.sub (Ex.mul w w) (rDot v v)) (unitMat 3)) (scaleMat Ex.two (outer v v))) odd)

/-- The body of joint j. DEDUCED, log entry 10: ROT, "from the parent frame to the joint frame", takes coordinates of the one to the other, as the
"body-to-world rotation" of Table 15-7 does. Unsafe. -/
def linkOf (js st : List Byte) (j : Nat) : Link :=
  let f (k n : Nat) : List Ex := floatsAt js (32 * j + k) n
  let axis := f 1 3
  let g (k : Nat) : Ex := (f 20 6)[k]?.getD none
  let q := coordAt js j 7
  let link (parent : Option Nat) (turn : List (List Ex)) (shift : Option (List Ex)) (cols : List (List Ex)) : Link :=
    ⟨parent, turn, rows3 (f 4 9), f 13 3, shift, cols, (f 16 1)[0]?.getD none, f 17 3, [[g 0, g 3, g 4], [g 3, g 1, g 5], [g 4, g 5, g 2]]⟩
  let parent := if j = 0 then none else some (jointParent js j)
  match jointType js j with
  | 0 => link parent (turned axis (wordAt st q)) none [axis ++ zeros 3]
  | 1 => link parent (unitMat 3) (some (scaleVec (Ex.ofBits (wordAt st q)) axis)) [zeros 3 ++ axis]
  | _ => link none (quatRot (floatsAt st (q + 3) 4)) (some (floatsAt st q 3)) (unitMat 6)

/-- The rotation from the parent's frame; the origin in the parent's frame. -/
def Link.rot (l : Link) : List (List Ex) := if l.turn = unitMat 3 then l.fix else matMul 3 l.turn l.fix
def Link.pos (l : Link) : List Ex := match l.shift with | none => l.spot | some d => addVec l.spot (matVec (transpose 3 l.fix) d)
/-- The transform of motions from the parent's frame. -/
def Link.xform (l : Link) : List (List Ex) := blocks4 l.rot zero3 (negMat (matMul 3 l.rot (skew l.pos))) l.rot
/-- A motion of the parent in the body's frame; a force on the body in the parent's. -/
def Form.toBody (f : Form) (l : Link) (v : List Ex) : List Ex :=
  if f.wide then f.mulVec l.xform v else matVec l.rot (v.take 3) ++ matVec l.rot (subVec (v.drop 3) (cross l.pos (v.take 3)))
def Form.toParent (f : Form) (l : Link) (u : List Ex) : List Ex :=
  if f.wide then f.mulVec (transpose 6 l.xform) u
  else
    let back := transpose 3 l.rot
    let p := matVec back (u.drop 3)
    addVec (matVec back (u.take 3)) (cross l.pos p) ++ p
/-- The inertia about the body's origin, as a 6 × 6 matrix. -/
def Form.inertia (f : Form) (l : Link) : List (List Ex) :=
  let c := skew l.com
  let mc := scaleMat l.mass c
  let i := if f.late then scaleMat l.mass (matMul 3 c (transpose 3 c)) else matMul 3 mc (transpose 3 c)
  blocks4 (addMat l.mom i) mc (transpose 3 mc) (scaleMat l.mass (unitMat 3))
/-- The momentum of a body that moves, or the force behind its acceleration. -/
def Form.heavy (f : Form) (l : Link) (v : List Ex) : List Ex :=
  if f.wide then f.mulVec (f.inertia l) v
  else
    let h := scaleVec l.mass l.com
    addVec (matVec ((f.inertia l).take 3 |>.map (·.take 3)) (v.take 3)) (cross h (v.drop 3)) ++ subVec (scaleVec l.mass (v.drop 3)) (cross h (v.take 3))
/-- The coordinates of joint j among the velocities. -/
def ownCoords (js : List Byte) (xs : List Ex) (j : Nat) : List Ex := (xs.drop (coordAt js j 6)).take (if jointType js j = 2 then 6 else 1)
/-- The motion of a joint at given rates. -/
def Link.motion (l : Link) (rates : List Ex) : List Ex := match l.cols, rates with | [c], [r] => scaleVec r c | _, _ => rates
/-- The part of a force that works along the joint's motions. -/
def Form.along (f : Form) (l : Link) (u : List Ex) : List Ex := match l.cols with | [c] => [f.dot c u] | _ => u

/-- What a body takes from its parent, or from the base. -/
def fromParent {α : Type} (xs : List α) (p : Option Nat) (base : α) : α := match p with | some k => xs[k]?.getD base | none => base

/-! ### `dyn.fk` and `dyn.jac` -/

/-- Rotation to the world and origin of each body, known where it does not matter which of the rotations are multiplied first. -/
def poses (ls : List Link) : List (List (List Ex) × List Ex) :=
  ls.foldl (fun ps l =>
    let p := fromParent ps l.parent (unitMat 3, zeros 3)
    let base := l.parent.isNone
    let joint := if base then transpose 3 l.fix else matMul 3 p.1 (transpose 3 l.fix)
    let r := agreeMat (if base then transpose 3 l.rot else matMul 3 p.1 (transpose 3 l.rot)) (if l.turn = unitMat 3 then joint else matMul 3 joint (transpose 3 l.turn))
    let o := addVec p.2 (matVec p.1 l.pos)
    ps ++ [(r, match l.shift with | none => o | some d => agreeVec o (addVec (addVec p.2 (matVec p.1 l.spot)) (matVec joint d)))]) []
def fkFloats (ls : List Link) : List Ex := (poses ls).flatMap fun p => p.1.flatMap id ++ p.2
/-- The joints between a body and the base. -/
def chainOf (ls : List Link) : Nat → Nat → List Nat
  | 0, _ => []
  | n + 1, j => j :: match (ls[j]?.bind (·.parent)) with | some k => chainOf ls n k | none => []
/-- The world-frame Jacobian of a body's origin, by rows. -/
def jacFloats (ls : List Link) (body : Nat) : List Ex :=
  let ps := poses ls
  let path := chainOf ls ls.length body
  let o := (ps[body]?.getD (unitMat 3, zeros 3)).2
  let cols := (List.range ls.length).flatMap fun j =>
    match ls[j]?, ps[j]? with
    | some l, some p =>
      l.cols.map fun c =>
        if !path.contains j then zeros 6
        else
          -- a column is a rotation about the joint's origin, or a translation
          let w := matVec p.1 (c.take 3)
          if (c.take 3).all (· == Ex.zero) then zeros 3 ++ matVec p.1 (c.drop 3) else w ++ cross w (subVec o p.2)
    | _, _ => []
  (List.range 6).flatMap fun r => cols.map fun col => col[r]?.getD none

/-! ### `dyn.id`, `dyn.mass`, `dyn.fd` -/

/-- The inward pass of forces: each body adds its own into its parent when it is visited. -/
def inward (f : Form) (ls : List Link) (us : List (List Ex)) : List (List Ex) :=
  ((List.range ls.length).reverse).foldl (fun us j =>
    match ls[j]? with
    | some l => (match l.parent with | some p => modAt us p (addVec · (f.toParent l (us[j]?.getD []))) | none => us)
    | none => us) us

/-- Recursive Newton–Euler: the joint forces of a motion under gravity. -/
def idFloats (f : Form) (ls : List Link) (js : List Byte) (grav qd qdd : List Ex) : List Ex :=
  let base : List Ex × List Ex := (zeros 6, zeros 3 ++ grav.map Ex.neg)
  let va := (indexed ls).foldl (fun vs e =>
    let p := fromParent vs e.2.parent base
    let vj := e.2.motion (ownCoords js qd e.1)
    let v := addVec (f.toBody e.2 p.1) vj
    vs ++ [(v, f.add3 (f.toBody e.2 p.2) (e.2.motion (ownCoords js qdd e.1)) (f.motionCross v vj))]) []
  let us := List.zipWith (fun l x => addVec (f.heavy l x.2) (f.forceCross x.1 (f.heavy l x.1))) ls va
  (List.zipWith (fun l u => f.along l u) ls (inward f ls us)).flatMap id

/-- Composite rigid bodies: element (r, c) of the mass matrix. -/
def massFloats (f : Form) (ls : List Link) (js : List Byte) : List Ex :=
  let comp := ((List.range ls.length).reverse).foldl (fun is j =>
    match ls[j]? with
    | some l => (match l.parent with
      | some p => modAt is p (addMat · (f.mul3 (transpose 6 l.xform) (is[j]?.getD []) l.xform))
      | none => is)
    | none => is) (ls.map f.inertia)
  -- the force of each joint column, carried to every joint on the way to the base
  let carry (j : Nat) (u : List Ex) : List (Nat × List Ex) :=
    (chainOf ls ls.length j).foldl (fun acc k =>
      acc ++ [(k, match acc.getLast? with | some (i, v) => ((ls[i]?).map fun l => f.toParent l v).getD [] | none => u)]) []
  let entries := (indexed ls).flatMap fun e => (indexed e.2.cols).flatMap fun c =>
    (carry e.1 (f.mulVec (comp[e.1]?.getD []) c.2)).flatMap fun k =>
      (indexed ((ls[k.1]?.map (·.cols)).getD [])).map fun b => (coordAt js k.1 6 + b.1, coordAt js e.1 6 + c.1, f.dot b.2 k.2)
  let nv := sumOver js ls.length 6
  (List.range nv).flatMap fun r => (List.range nv).map fun c => ((entries.find? fun x => x.1 == r && x.2.1 == c).map (·.2.2)).getD Ex.zero

/-- What the inward pass of the articulated-body algorithm keeps of a joint, for each of its coordinates: U, the inertia about it, the force left. -/
structure Artic where
  u : List (List Ex)
  d : List Ex
  rest : List Ex

/-- The accelerations of a joint: of one coordinate, a quotient; of a free joint, whose 6 × 6 system has no order of solution in R341, only where its
articulated inertia is diagonal. -/
def artAccel (f : Form) (t : Artic) (l : Link) (a : List Ex) : List Ex :=
  match l.cols with
  | [_] => [f.quot (Ex.sub (t.rest[0]?.getD none) (f.dot (t.u[0]?.getD []) a)) (t.d[0]?.getD none)]
  | _ =>
    let diagonal := (indexed t.u).all fun r => (indexed r.2).all fun x => x.1 == r.1 || (match x.2 with | some v => v.isZero | none => false)
    if !diagonal then List.replicate 6 none
    else
      agreeVec (List.zipWith f.quot (subVec t.rest (f.mulVec t.u a)) t.d) (subVec (List.zipWith f.quot t.rest t.d) a)

/-- The articulated-body algorithm: the accelerations, and the inertias about the axes of joints of one coordinate. -/
def fdFloats (f : Form) (ls : List Link) (js : List Byte) (grav qd tau : List Ex) : List Ex × List Ex :=
  let base : List Ex := zeros 6
  let vs := (indexed ls).foldl (fun vs e =>
    let vj := e.2.motion (ownCoords js qd e.1)
    let v := addVec (f.toBody e.2 (fromParent vs e.2.parent (base, base)).1) vj
    vs ++ [(v, f.motionCross v vj)]) []
  let start := List.zipWith (fun l x => (f.inertia l, f.forceCross x.1 (f.heavy l x.1))) ls vs
  let pass := ((List.range ls.length).reverse).foldl (fun (acc : List (List (List Ex) × List Ex) × List (Nat × Artic)) j =>
    match ls[j]?, acc.1[j]? with
    | some l, some (ia, pa) =>
      let us := l.cols.map (f.mulVec ia)
      let ds := (indexed us).map fun u => f.dot (l.cols[u.1]?.getD []) u.2
      let rests := List.zipWith Ex.sub (ownCoords js tau j) (f.along l pa)
      let u := us[0]?.getD []
      let d : Ex := ds[0]?.getD none
      let ia' := addMat ia (negMat (if f.late then scaleMat (Ex.div Ex.one d) (outer u u) else outer u (u.map fun x => Ex.div x d)))
      let pa' := f.add3 pa (f.mulVec ia' (vs[j]?.getD (base, base)).2) (scaleVec (f.quot (rests[0]?.getD none) d) u)
      let ys := match l.parent with
        | some p => modAt acc.1 p fun y => (addMat y.1 (f.mul3 (transpose 6 l.xform) ia' l.xform), addVec y.2 (f.toParent l pa'))
        | none => acc.1
      (ys, (j, ⟨us, ds, rests⟩) :: acc.2)
    | _, _ => acc) (start, [])
  let arts := pass.2
  let out := (indexed ls).foldl (fun (acc : List (List Ex) × List Ex) e =>
    let a := addVec (f.toBody e.2 (fromParent acc.1 e.2.parent (zeros 3 ++ grav.map Ex.neg))) ((vs[e.1]?.getD (base, base)).2)
    match arts.find? fun x => x.1 == e.1 with
    | some (_, t) =>
      let qdd := artAccel f t e.2 a
      (acc.1 ++ [addVec a (e.2.motion qdd)], acc.2 ++ qdd)
    | none => (acc.1 ++ [a], acc.2)) ([], [])
  (out.2, arts.filterMap fun x => match x.2.d with | [d] => some d | _ => none)

end Sys2Proof.Machine
end

