-- ==== Sys2Proof/Machine/Matrix.lean ====
section
/-! DEFINITION. Sys2Proof/Machine/Matrix.lean: tiles, tile moves and transfers, matrix operations and batches (majors 0x19 to 0x1D,
chapter 9). -/

namespace Sys2Proof.Machine

open Sys2Proof

/-! ### Tiles (R178 to R183) -/

def Group.tile (g : Group) (t : Nat) : Tile := g.tiles[t]?.getD {}
def State.modTile (s : State) (gi t : Nat) (f : Tile → Tile) : State := s.modG gi fun g => { g with tiles := modAt g.tiles t f }

/-- Row bytes, stored rows, element width and elements of a stored row (R178). -/
def Tile.rb (t : Tile) : Nat := 16 * (t.rbytes.toNat + 1)
def Tile.height (t : Tile) : Nat := t.rows.toNat + 1
def Tile.width (t : Tile) : Nat := codeWidth t.elem.toNat
def Tile.ecount (t : Tile) : Nat := t.rb * 8 / t.width

/-- A stored row as one little-endian number. -/
def Tile.rowNat (t : Tile) (r : Nat) : Nat := t.data.le (r * t.rb) t.rb
/-- The bits of a stored element of a row. -/
def Tile.bits (t : Tile) (row c : Nat) : Nat := row / 2 ^ (t.width * c) % 2 ^ t.width
/-- A stored element replaced in its row. -/
def Tile.putElem (t : Tile) (r c v : Nat) : Tile :=
  let row := t.rowNat r
  { t with data := t.data.write (r * t.rb) (leBytes t.rb (row - t.bits row c * 2 ^ (t.width * c) + v % 2 ^ t.width * 2 ^ (t.width * c))) }

/-- Does a matrix operation name a tile, other than as its accumulator? -/
def MatOp.uses (o : MatOp) (t : Nat) : Bool := o.af.toNat % 64 == t || o.bf.toNat % 64 == t || (o.sp && o.mt == t)
/-- Outstanding writes of a tile, and reads or writes (R182). -/
def Group.tileWritten (g : Group) (t : Nat) : Bool := g.ops.any (fun o => o.dt == t) || g.xfers.any fun x => x.tile == t && !x.store
def Group.tileUsed (g : Group) (t : Nat) : Bool := g.tileWritten t || g.ops.any (fun o => o.uses t) || g.xfers.any fun x => x.tile == t

/-- The control word (Table 2-2). -/
def tileWord (g : Group) (k : Nat) : Word64 :=
  let t := g.tile k
  BitVec.ofNat 64 (t.elem.toNat + 2 ^ 4 * t.scale.toNat + 2 ^ 8 * t.rows.toNat + 2 ^ 16 * t.rbytes.toNat + (if t.shaped then 2 ^ 24 else 0)
    + (if t.emask then 2 ^ 25 else 0) + (if g.tileWritten k then 2 ^ 32 else 0) + (if t.resume then 2 ^ 33 else 0))

/-- TRAPINFO of a TILE fault (R183). -/
def tileInfo (detail t : Nat) : Word := BitVec.ofNat 32 (detail + t * 256)
def faultTile (s : State) (i : Iss) (detail t : Nat) : State := faultAt s i 0x08 i.lanes (tileInfo detail t)

/-- The checks before masking of an instruction on one tile: the registers that it names, its tile's index (R45), and its shape where it needs one
(TILE 1). R61 puts REGB and TILE in one check with no order between them; REGB first is the model's choice (log entry 64). -/
def withTile (s : State) (g : Bool) (regs : List Nat) (t : BitVec 6) (shaped : Bool) (k : Tile → Res) : Res :=
  match s.issuing g with
  | none => .fault .noIssuer
  | some i =>
    if regs.any fun r => decide (i.N ≤ i.phys r) then .next (faultAt s i 0x02 i.lanes)
    else if i.g.tiles.length ≤ t.toNat then .next (faultTile s i 0 t.toNat)
    else if shaped && !(i.g.tile t.toNat).shaped then .next (faultTile s i 1 t.toNat)
    else k (i.g.tile t.toNat)

/-- The hazard of a tile (R182): a writer waits for every outstanding use, a reader for every outstanding write. -/
def tileWait (s : State) (i : Iss) (t : Nat) (writer : Bool) (k : State) : State :=
  if (if writer then i.g.tileUsed t else i.g.tileWritten t) then s.wait i (.tile t writer) else k

/-- An uncorrectable tile error owed to the next reader of an accumulator (R200). -/
def tileOwed (s : State) (i : Iss) (t : Nat) (k : State) : State :=
  match (i.g.tile t).owed with
  | some b => faultAt (s.modTile i.gi t fun x => { x with owed := none }) i 0x10 i.lanes (BitVec.ofNat 32 (b * 256 + 4))
  | none => k

/-! ### Stamps (R379) -/

/-- A change of the stamp of a tile in an epoch. -/
def stampMod (s : State) (gi t : Nat) (f : Stamp → Stamp) : State := s.modTile gi t fun x => { x with stamp := x.stamp.map f }
/-- A transfer into a tile is issued: an epoch begins if none runs, or if `tzero` has come since. The new record then takes the old one's place, whose
epoch has not ended as R379 lists the ends (log entry 65). -/
def stampIn (s : State) (gi t : Nat) : State :=
  if (s.group gi).optTs then
    s.modTile gi t fun x => { x with stamp := match x.stamp with
      | some y => some (if y.zeroed then { in0 := s.time } else y)
      | none => some { in0 := s.time } }
  else s
/-- An operation that names a tile is issued. -/
def stampOp (s : State) (gi t : Nat) : State :=
  stampMod s gi t fun x => { x with nops := capAt (x.nops + 1) 255, opi := if x.nops = 0 then s.time else x.opi }
/-- An operation that names a tile completes: the first of the epoch has started in the engine at a time since its issue that the device chooses. -/
def stampDone (s : State) (gi t : Nat) : State :=
  stampMod s gi t fun x => { x with
    ops := if x.ope = 0 then x.opi + Config.freeNat (s.oracle 6 gi) % (s.time - x.opi + 1) else x.ops, ope := s.time }

/-- The end of an epoch: the record goes to the context's stamp ring (Table 17-3). -/
def stampEnd (s : State) (gi t : Nat) : State :=
  let g := s.group gi
  match (g.tile t).stamp with
  | none => s
  | some x =>
    let (base, n) := (s.ctxOf g).ring 4
    let bs := leBytes 4 (g.id.toNat * 2 ^ 14 + t * 256 + x.nops) ++ leBytes 4 (s.launchOf g).lid.toNat
      ++ [x.in0, x.in1, x.opi, x.ops, x.ope, x.out0, x.out1].flatMap (leBytes 8)
    let s := s.modTile gi t fun y => { y with stamp := none }
    if base = 0 then s else if s.ringRoom base n = 0 then s.ringDrop base else s.ringPut base n 64 bs

/-! ### TCFG (R184) -/

/-- Is a shape accepted (R47, Table 9-1)? -/
def shapeOk (v : Nat) : Bool :=
  let elem := v % 16
  let scale := bitsOf v 5 4
  let rows := bitsOf v 15 8 + 1
  let rb := 16 * (bitsOf v 20 16 + 1)
  let e := rb * 8 / codeWidth elem
  let sq := if scale = 2 then 16 else 32
  decide (rows * rb ≤ 4096) && bitsOf v 7 6 == 0 && decide (v < 2 ^ 21) &&
  (if elem ≤ 2 then scale == 0
   else if elem ≤ 4 ∨ elem = 7 ∨ elem = 8 then decide (scale ≤ 1)
   else if elem ≤ 6 then decide (scale ≤ 1) && rb % 48 == 0
   else if elem ≤ 12 then scale == 0
   else decide (2 ≤ scale) && rows % sq == 0 && e % sq == 0)

/-- A TCFG instruction that changes its tile (R184). -/
def tcfg (s : State) (g : Bool) (d : BitVec 6) (reads : List Nat) (k : Iss → State) : Res :=
  withTile s g reads d false fun _ => withOperands s g reads [] [] fun i => once s i 4 <| tileWait s i d.toNat true (k i)

/-- `tshape`. -/
def execTshape (g : Bool) (d : BitVec 6) (a : Fld) (s : State) : Res :=
  tcfg s g d [a.toNat] fun i =>
    let v := (i.reg a.toNat i.lo).toNat
    if !shapeOk v then faultTile s i 2 d.toNat
    else
      ((stampEnd s i.gi d.toNat).modTile i.gi d.toNat fun t => { t with
        elem := BitVec.ofNat 4 v, scale := BitVec.ofNat 2 (v / 2 ^ 4), rows := BitVec.ofNat 8 (v / 2 ^ 8), rbytes := BitVec.ofNat 5 (v / 2 ^ 16),
        shaped := true, emask := false }).advance i
/-- `tzero`. -/
def execTzero (g : Bool) (d : BitVec 6) (s : State) : Res :=
  tcfg s g d [] fun i =>
    (stampMod (s.modTile i.gi d.toNat fun t => { t with data := [], scaleArea := [], emask := false, bad := false }) i.gi d.toNat fun x =>
      { x with zeroed := true }).advance i
/-- `tinfo`: no wait. -/
def execTinfo (g : Bool) (d a : BitVec 6) (s : State) : Res :=
  withTile s g (pairOf d) a false fun _ => withOperands s g [] (pairOf d) [] fun i =>
    (s.putPair i (pairFld d).toNat fun _ => tileWord i.g a.toNat).advance i
/-- `tfill`. -/
def execTfill (g : Bool) (d : BitVec 6) (a : Fld) (s : State) : Res :=
  tcfg s g d [a.toNat] fun i =>
    let bs := leBytes 4 (i.reg a.toNat i.lo).toNat
    (s.modTile i.gi d.toNat fun t => { t with data := Mem.write [] 0 ((List.replicate 1024 bs).flatten) }).advance i
/-- `tfree`. -/
def execTfree (g : Bool) (d : BitVec 6) (s : State) : Res :=
  tcfg s g d [] fun i => ((stampEnd s i.gi d.toNat).modTile i.gi d.toNat fun _ => {}).advance i
/-- The mask words of lanes from a first one on, as one number. -/
def maskWords (i : Iss) (a first : Nat) : Nat :=
  (List.range 8).foldr (fun k n => (if i.lanes.has (first + k) then (i.reg a (first + k)).toNat else 0) + 2 ^ 32 * n) 0
/-- `tmask`. -/
def execTmask (g : Bool) (d : BitVec 6) (a : Fld) (s : State) : Res :=
  tcfg s g d [a.toNat] fun i =>
    (s.modTile i.gi d.toNat fun t => { t with
      rowMask := BitVec.ofNat 256 (maskWords i a.toNat 0), colMask := BitVec.ofNat 256 (maskWords i a.toNat 8), emask := true }).advance i
/-- `tmask.clr`. -/
def execTmaskClr (g : Bool) (d : BitVec 6) (s : State) : Res :=
  tcfg s g d [] fun i => (s.modTile i.gi d.toNat fun t => { t with emask := false }).advance i

/-! ### TMOV: rows and columns (R185, R186) -/

/-- Registers of a row, and of a column. -/
def Tile.rowRegs (t : Tile) : Nat := (t.rb + 63) / 64
def Tile.colRegs (t : Tile) : Nat := (t.height + 15) / 16

/-- A move between a tile and registers: the register check from the shape, then the index check in range `lim` (TILE 7). -/
def tileMove (s : State) (g : Bool) (t : BitVec 6) (fld b : Fld) (writer : Bool) (regs lim : Tile → Nat) (k : Iss → Tile → Nat → State) : Res :=
  withTile s g [fld.toNat, b.toNat] t true fun tl =>
    let rs := runOf fld.toNat (regs tl)
    if 128 < fld.toNat + regs tl then withIss s g fun i => faultAt s i 0x02 i.lanes
    else
      withOperands s g (if writer then b.toNat :: rs else [b.toNat]) (if writer then [] else rs) [] fun i => once s i 4 <|
        tileWait s i t.toNat writer <| (if writer then id else tileOwed s i t.toNat) <|
          let x := (i.reg b.toNat i.lo).toNat
          if lim tl ≤ x then faultTile s i 7 t.toNat else k i tl x

/-- `trow`. -/
def execTrow (g : Bool) (d : Fld) (a : BitVec 6) (b : Fld) (s : State) : Res :=
  tileMove s g a d b false Tile.rowRegs Tile.height fun i t r =>
    ((List.range t.rowRegs).foldl (fun s j => s.putReg i (d.toNat + j) fun l =>
      if 64 * j + 4 * l < t.rb then BitVec.ofNat 32 (t.data.le (r * t.rb + 64 * j + 4 * l) 4) else 0) s).advance i
/-- `twrow`. -/
def execTwrow (g : Bool) (d : BitVec 6) (a b : Fld) (s : State) : Res :=
  tileMove s g d a b true Tile.rowRegs Tile.height fun i t r =>
    (s.modTile i.gi d.toNat fun x =>
      let data := (List.range t.rowRegs).foldl (fun m j => i.lanes.lanes.foldl (fun m l =>
        if 64 * j + 4 * l < t.rb then m.write (r * t.rb + 64 * j + 4 * l) (leBytes 4 (i.reg (a.toNat + j) l).toNat) else m) m) x.data
      { x with data := data }).advance i
/-- `tcol`. -/
def execTcol (g : Bool) (d : Fld) (a : BitVec 6) (b : Fld) (s : State) : Res :=
  tileMove s g a d b false Tile.colRegs Tile.ecount fun i t c =>
    ((List.range t.colRegs).foldl (fun s j => s.putReg i (d.toNat + j) fun l =>
      if 16 * j + l < t.height then BitVec.ofNat 32 (t.bits (t.rowNat (16 * j + l)) c) else 0) s).advance i
/-- `twcol`. -/
def execTwcol (g : Bool) (d : BitVec 6) (a b : Fld) (s : State) : Res :=
  tileMove s g d a b true Tile.colRegs Tile.ecount fun i t c =>
    (s.modTile i.gi d.toNat fun x =>
      (List.range t.colRegs).foldl (fun x j => i.lanes.lanes.foldl (fun x l =>
        if 16 * j + l < t.height then x.putElem (16 * j + l) c (i.reg (a.toNat + j) l).toNat else x) x) x).advance i

/-! ### Tile transfers (R187, R188) -/

/-- The chunks of a transfer: tile (or scale area) offset and address. -/
def xferChunks (t : Tile) (space : Space) (a ctl : Nat) : List (Nat × Int) :=
  let wrap (x : Nat) : Int := match space with | .glob => (x % 2 ^ 64 : Nat) | .scratch => x
  if 2 ^ 31 ≤ ctl then (List.range 48).map fun k => (16 * k, wrap (a + 16 * k))
  else (List.range t.height).flatMap fun r => (List.range (t.rb / 16)).map fun k => (r * t.rb + 16 * k, wrap (a + r * (ctl % 2 ^ 24) + 16 * k))

/-- The fault of a chunk: TRAPMASK = AMASK (R188). -/
def faultChunk (s : State) (i : Iss) (code : Nat) (info : Word) (addr : Word64) : State := faultAt s i code i.f.amask info addr

/-- The first thing with the least key. -/
def leastOf {α : Type} (key : α → Nat) : List α → Option α
  | [] => none
  | x :: xs => some (match leastOf key xs with | some y => if key y < key x then y else x | none => x)

/-- The checks of a transfer's chunks, races among them (R188, R252): all or nothing. The failing chunk of the lowest address gives the fault. -/
def xferChecked (s : State) (i : Iss) (m : MemForm) (cs : List LaneChk) (k : State → State) : State :=
  let xs := if i.g.race = .off then [] else (cs.filter fun c => c.tracked s i).map fun c => { c.acc 16 m.write 0 2 with lane := i.lo }
  let races := racesOf s i m.space xs
  let failed := leastOf (fun c => c.ea.toNat) (cs.filter fun c => !c.good)
  let before (va : Nat) : Bool := match failed with | some c => decide (va < c.ea.toNat) | none => true
  let report (r : RaceAcc × RaceHit) : State × Bool :=
    raceRecord s (raceParty s i.g) r.1 r.2 i.f.pc (twoPowMask i.lo) (s.launchOf i.g).lid (i.g.race == .trap) false
  match (if i.g.race = .trap then leastOf (fun r => r.1.va) (races.filter fun r => before r.1.va) else none), failed, races with
  | some r, _, _ => let (s, lost) := report r; faultChunk s i 0x07 (raceInfo r.2 false lost) (BitVec.ofNat 64 r.1.va)
  | none, some c, _ => faultChunk s i c.code m.info (trapAddr m c.ea)
  | none, none, r :: _ => k (recordAll (report r).1 i m.space xs)
  | none, none, [] => k (recordAll s i m.space xs)

/-- A tile transfer (R187, R188): checked whole at issue; its data moves later. -/
def tileXfer (s : State) (g : Bool) (t : BitVec 6) (space : Space) (store : Bool) (areg : List Nat) (b : Fld) (addr : Iss → Nat) : Res :=
  withTile s g (b.toNat :: areg) t true fun tl => withOperands s g (b.toNat :: areg) [] [] fun i => once s i 4 <|
    tileWait s i t.toNat (!store) <| (if store then tileOwed s i t.toNat else id) <|
      let ctl := (i.reg b.toNat i.lo).toNat
      let a := addr i
      let m : MemForm := { space := space, size := 16, write := store, pol := 1, kind := if store then .write else .read }
      if bitsOf ctl 30 24 ≠ 0 ∨ ctl % 16 ≠ 0 then faultTile s i 8 t.toNat
      else if a % 16 ≠ 0 then faultChunk s i 0x05 m.info (trapAddr m a)
      else
        let cks := xferChunks tl space a ctl
        let cs := cks.map fun c => checkLane s i m i.lo c.2
        if xferClash i space store cs 16 || (space == .glob && xferAhead s i.gi i.f (goodBytes cs 16)) then s.wait i .drain
        else
          gated s i (cs.any fun c => c.tracked s i) fun s =>
            xferChecked s i m cs fun s =>
              let s := touch s i cs
              let s := if space = .glob then drainOwn s i.gi i.f (goodBytes cs 16) else s
              let x : Xfer := { seq := s.seq + 1, fid := i.f.fid, tile := t.toNat, store := store, scl := decide (2 ^ 31 ≤ ctl), space := space,
                                chunks := (cks.zip cs).map fun p => (p.1.1, p.2.pa), tracked := cs.any fun c => c.tracked s i }
              let s := s.modG i.gi fun g => { g with xfers := g.xfers ++ [x] }
              let s := if store then stampMod s i.gi t.toNat fun y => { y with out0 := if y.out0 = 0 then s.time else y.out0 } else stampIn s i.gi t.toNat
              s.advance i 4 store

/-- `tlds`. -/
def execTlds (g : Bool) (d : BitVec 6) (a b : Fld) (s : State) : Res :=
  tileXfer s g d .scratch false [a.toNat] b fun i => (i.reg a.toNat i.lo).toNat
/-- `tsts`. -/
def execTsts (g : Bool) (d : BitVec 6) (a b : Fld) (s : State) : Res :=
  tileXfer s g d .scratch true [a.toNat] b fun i => (i.reg a.toNat i.lo).toNat
/-- `tldg`. -/
def execTldg (g : Bool) (d a : BitVec 6) (b : Fld) (s : State) : Res :=
  tileXfer s g d .glob false (pairOf a) b fun i => (i.pair (pairFld a).toNat i.lo).toNat
/-- `tstg`. -/
def execTstg (g : Bool) (d a : BitVec 6) (b : Fld) (s : State) : Res :=
  tileXfer s g d .glob true (pairOf a) b fun i => (i.pair (pairFld a).toNat i.lo).toNat

/-- One chunk moves past L1, whose copy in the issuing core it drops; a plain write kills the sync records it overlaps (R208, R236, R251). -/
def moveChunk (s : State) (gi : Nat) (x : Xfer) (c : Nat × Nat) : State :=
  let g := s.group gi
  let t := g.tile x.tile
  if x.store then
    let bs := (if x.scl then t.scaleArea else t.data).read c.1 16
    match x.space with
    | .scratch => s.modB g.block fun b => b.spPut c.2 bs
    | .glob =>
      let s := dropL1 ((touchL2 s (s.pasidOf g) 0 true c.2).writeMem c.2 bs) g.core c.2 16
      if x.tracked then syncKill s (s.pasidOf g) c.2 16 else s
  else
    let bs := match x.space with | .scratch => (s.blockOf g).sp.read c.2 16 | .glob => s.mem.read c.2 16
    let bad := match x.space with | .scratch => (s.blockOf g).spBadAt c.2 16 | .glob => s.badAt c.2 16
    let s := match x.space with | .scratch => s | .glob => dropL1 (touchL2 s (s.pasidOf g) 0 false c.2) g.core c.2 16
    s.modTile gi x.tile fun t =>
      let t := if x.scl then { t with scaleArea := t.scaleArea.write c.1 bs } else { t with data := t.data.write c.1 bs }
      { t with bad := t.bad || bad }

/-- All chunks of a transfer move, in an order that the device chooses. -/
def moveAll (s : State) (gi : Nat) (x : Xfer) : State := let (s, cs) := s.mixed x.chunks; cs.foldl (fun s c => moveChunk s gi x c) s

/-- TILE_TRANSFER_COMPLETE: the data of a checked transfer has moved (R188). -/
def execTileTransferComplete (gi n : Nat) (s : State) : Res :=
  .next (match (s.group gi).xfers.find? fun x => x.seq == n with
    | none => s
    | some x =>
      let s := moveAll s gi x
      let s := stampMod s gi x.tile fun y => if x.store then { y with out1 := s.time } else if y.opi = 0 then { y with in1 := s.time } else y
      s.modG gi fun g => { g with xfers := g.xfers.filter fun y => y.seq != n })

/-! ### Matrix operations (R189 to R195) -/

/-- A tile read as an operand: rows prepared, through a port, perhaps sparse with its metadata rows. -/
structure Operand where
  t : Tile
  rows : List Nat
  col : Bool
  sparse : Bool := false
  mrows : List Nat := []
  ftz : Bool

def Operand.of (t : Tile) (col ftz : Bool) : Operand := { t := t, rows := (List.range t.height).map t.rowNat, col := col, ftz := ftz }
/-- Rows of the logical operand and its K (R189, R195). -/
def Operand.outer (o : Operand) : Nat := if o.col then o.t.ecount else o.t.height
def Operand.depth (o : Operand) : Nat := if o.sparse then 2 * o.t.ecount else if o.col then o.t.height else o.t.ecount

/-- Is a stored element kept by the element mask (R181)? -/
def Tile.kept (t : Tile) (r c : Nat) : Bool := !t.emask || (t.rowMask.getLsbD r && t.colMask.getLsbD (c / 8))

/-- The value of a stored element with its block's scale: for MX32 the byte of operand row m and K-block j, for square blocks the block
and quad of its storage position (R158, R160, R163, R180). `k` is the position that picks the K-block and `depth` the operand's logical K; of a sparse
operand k is the storage position (R195; log entry 66). -/
def Operand.value (o : Operand) (r c m k depth : Nat) : Val :=
  let t := o.t
  let b := t.bits (o.rows[r]?.getD 0) c
  let code := t.elem.toNat
  if code < 13 then
    let v := srcVal o.ftz code b
    if t.scale = 1 then
      let x := (t.scaleArea.get (m * (depth / 32) + k / 32)).toNat
      if x = 0xFF then .nan else v.scale ((x : Int) - 127 - (if code = 8 then 6 else 0))
    else v
  else
    let sq := if t.scale = 2 then 16 else 32
    let ix := r / sq * (t.ecount / sq) + c / sq
    let e := (t.scaleArea.get ix).toNat
    let qr := r % sq / 2
    let qc := c % sq / 2
    let mu := ((t.scaleArea.get (256 + ix * (sq * sq / 32) + qc * (sq / 16) + qr / 8)).toNat / 2 ^ (qr % 8)) % 2
    let w := t.width
    if e = 0xFF then .nan else .fin (b / 2 ^ (w - 1) == 1) (b % 2 ^ (w - 1)) ((e : Int) - 127 - mu - (w - 2 : Nat))

/-- The element at logical row m and depth k; none when absent (R181, R195). -/
def Operand.elem (o : Operand) (m k : Nat) : Option Val :=
  if o.sparse then
    let q := k / 4
    let nib := (o.mrows[m]?.getD 0) / 16 ^ q % 16
    let pick : Option Nat := if k % 4 = nib % 4 then some (2 * q) else if nib % 4 < nib / 4 ∧ k % 4 = nib / 4 then some (2 * q + 1) else none
    pick.bind fun c => if o.t.kept m c then some (o.value m c m c o.depth) else none
  else
    let (r, c) := if o.col then (k, m) else (m, k)
    if o.t.kept r c then some (o.value r c m k o.depth) else none

/-- The products of a slice in ascending k: exact, both present, not skipped (R191, R192). -/
def sliceTerms (a b : Operand) (skip : Bool) (m n j depth : Nat) : List Val :=
  (List.range (if 32 * j + 32 ≤ depth then 32 else depth - 32 * j)).filterMap fun d =>
    match a.elem m (32 * j + d), b.elem n (32 * j + d) with
    | some x, some y => if skip && (x.isZero || y.isZero) then none else some (x.mul y)
    | _, _ => none

/-- One slice added to an FP32 accumulator (R191). -/
def floatSlice (ftz each : Bool) (acc : Nat) (p : List Val) : Nat :=
  match p with
  | [] => acc
  | x :: xs =>
    if each then p.foldl (fun acc t => fp32.arith ftz ((fp32.value acc).add t)) acc
    else
      let sum := fp32.arith ftz (xs.foldl Val.add x)
      fp32.arith ftz ((fp32.value acc).add (fp32.value sum))

/-- The integer of a finite value with exponent 0. -/
def valInt : Val → Int
  | .fin neg m _ => if neg then -m else m
  | _ => 0
/-- One slice added to an INT32 accumulator (R193). -/
def intSlice (acc : Nat) (p : List Val) : Nat := ((acc + (p.map valInt).foldl (· + ·) 0 : Int) % 2 ^ 32).toNat

/-- The two operands of an operation. -/
def MatOp.operands (o : MatOp) (g : Group) : Operand × Operand :=
  let ftz := fmtFtz o.fmt
  let mk (f : BitVec 7) (sp : Bool) : Operand :=
    let x := Operand.of (g.tile (f.toNat % 64)) (f.getLsbD 6) ftz
    if sp then { x with sparse := true, mrows := (List.range (g.tile o.mt).height).map (g.tile o.mt).rowNat } else x
  (mk o.af (o.sp && !o.pat), mk o.bf (o.sp && o.pat))

/-- An accumulator element after the slices from j0 up to j1 (R191, R193, R199). -/
def MatOp.element (o : MatOp) (a b : Operand) (d0 j0 j1 m n : Nat) : Nat :=
  let start := if j0 = 0 then (if o.z then 0 else if o.int then d0 else fp32.flush (fmtFtz o.fmt) d0) else d0
  (List.range (j1 - j0)).foldl (fun acc dj =>
    let p := sliceTerms a b (o.fmt.getLsbD 13) m n (j0 + dj) a.depth
    if o.int then intSlice acc p else floatSlice (fmtFtz o.fmt) (fmtBits o.fmt 3 0 == 0 || fmtBits o.fmt 7 4 == 0) acc p) start

/-- The K-slices of an operation. -/
def MatOp.slices (o : MatOp) (g : Group) : Nat := ((o.operands g).1.depth + 31) / 32

/-- The accumulator tile's data after the slices of an operation up to one (R191). -/
def MatOp.run (o : MatOp) (g : Group) (upTo : Nat) : Mem :=
  let (a, b) := o.operands g
  let d := g.tile o.dt
  (List.range a.outer).foldl (fun mem m => (List.range b.outer).foldl (fun mem n =>
    mem.write (4 * (m * b.outer + n)) (leBytes 4 (o.element a b (d.data.le (4 * (m * b.outer + n)) 4) o.nextj upTo m n))) mem) d.data

/-- A tile with an uncorrectable error that an operation reads (R200). -/
def MatOp.badTile (o : MatOp) (g : Group) : Option Nat :=
  ([o.af.toNat % 64, o.bf.toNat % 64] ++ (if o.sp then [o.mt] else []) ++ (if o.z && o.nextj == 0 then [] else [o.dt])).find? fun t => (g.tile t).bad

/-- Is a format accepted by a class (R190)? -/
def classTakes (int : Bool) (code scale : Nat) : Bool :=
  if int then decide (8 ≤ code) && decide (code ≤ 12) && scale == 0 else decide (code ≤ 7) || decide (13 ≤ code) || (code == 8 && scale == 1)

/-- The first failing check of R191, by the lowest detail code and the tile of R183. -/
def matFault (g : Group) (o : MatOp) : Option (Nat × Nat) :=
  let ta := o.af.toNat % 64
  let tb := o.bf.toNat % 64
  let named := [ta, tb, o.dt] ++ (if o.sp then [o.mt] else [])
  let A := g.tile ta
  let B := g.tile tb
  let D := g.tile o.dt
  let M := g.tile o.mt
  let (ae, be, asc, bsc) := (fmtBits o.fmt 3 0, fmtBits o.fmt 7 4, fmtBits o.fmt 9 8, fmtBits o.fmt 11 10)
  let (a, b) := o.operands g
  let mx := asc = 1 ∨ bsc = 1
  let S := if o.pat then B else A
  match named.find? fun t => decide (g.tiles.length ≤ t) with
  | some t => some (0, t)
  | none =>
    match named.find? fun t => !(g.tile t).shaped with
    | some t => some (1, t)
    | none =>
      if A.elem.toNat ≠ ae then some (3, ta)
      else if B.elem.toNat ≠ be then some (3, tb)
      else if A.scale.toNat ≠ asc then some (4, ta)
      else if B.scale.toNat ≠ bsc then some (4, tb)
      else if a.outer = 0 ∨ 32 < a.outer ∨ (mx ∧ a.depth % 32 ≠ 0) then some (5, ta)
      else if b.outer = 0 ∨ 32 < b.outer ∨ b.depth ≠ a.depth ∨ (mx ∧ b.depth % 32 ≠ 0) then some (5, tb)
      else if D.elem ≠ 0 ∨ D.scale ≠ 0 ∨ D.height ≠ a.outer ∨ D.rb ≠ 4 * b.outer then some (5, o.dt)
      else if fmtBits o.fmt 15 14 ≠ (if o.int then 1 else 0) then some (6, ta)
      else if !classTakes o.int ae asc then some (6, ta)
      else if !classTakes o.int be bsc then some (6, tb)
      else if o.sp ∧ (if o.pat then o.bf.getLsbD 6 else o.af.getLsbD 6) then some (9, if o.pat then tb else ta)
      else if o.sp ∧ (M.elem ≠ 11 ∨ M.scale ≠ 0 ∨ M.height ≠ S.height ∨ M.ecount < S.ecount / 2) then some (9, o.mt)
      else if o.dt = ta ∨ o.dt = tb ∨ (o.sp ∧ o.dt = o.mt) then some (10, o.dt)
      else none

/-- Operations that wait in a core's engine queue (R197). -/
def engineQueue (s : State) (core : Nat) : Nat := s.groups.foldl (fun n g => if g.core == core && (g.state == .resident || g.state == .retiring) then n + g.ops.length else n) 0

/-- A matrix operation (R191, R194): the tile indices are checked before masking, the rest at issue; it then waits in the open set. -/
def matOp (s : State) (g : Bool) (d : BitVec 6) (af bf : BitVec 7) (int z : Bool) (sp : Option (BitVec 1 × BitVec 6)) (size : Nat) : Res :=
  match s.issuing g with
  | none => .fault .noIssuer
  | some i =>
    let o : MatOp := { seq := i.g.opSeq, dt := d.toNat, af := af, bf := bf, int := int, z := z, sp := sp.isSome,
                       pat := (sp.map fun p => p.1 == 1).getD false, mt := (sp.map fun p => p.2.toNat).getD 0, fmt := i.f.fmt }
    let named := [af.toNat % 64, bf.toNat % 64, o.dt] ++ (if o.sp then [o.mt] else [])
    match named.find? fun t => decide (i.g.tiles.length ≤ t) with
    | some t => .next (faultTile s i 0 t)
    | none => withOperands s g [] [] [] fun i => once s i size <|
        if i.g.tileUsed o.dt then s.wait i (.tile o.dt true)
        else
          match named.find? fun t => i.g.tileWritten t with
          | some t => s.wait i (.tile t false)
          | none =>
            match matFault i.g o with
            | some (c, t) => faultTile s i c t
            | none =>
              match (if z then none else (i.g.tile o.dt).owed), named.find? fun t => t != o.dt && (i.g.tile t).owed.isSome with
              | some _, _ => tileOwed s i o.dt s
              | none, some t => tileOwed s i t s
              | none, none =>
                if 64 ≤ engineQueue s i.g.core then s.wait i (.engine 0)
                else
                  let s := named.eraseDups.foldl (fun s t => stampOp s i.gi t) s
                  (s.modG i.gi fun g => { g with ops := g.ops ++ [o], opSeq := g.opSeq + 1, opened := g.opened + 1 }).advance i size true

/-- The operand field of a tile with its port flag. -/
def portFld (x : BitVec 1) (a : BitVec 6) : BitVec 7 := x ++ a

/-- `mma`. -/
def execMma (g : Bool) (d : BitVec 6) (x : BitVec 1) (a : BitVec 6) (y : BitVec 1) (b : BitVec 6) (s : State) : Res :=
  matOp s g d (portFld x a) (portFld y b) false false none 4
/-- `mma.z`. -/
def execMmaZ (g : Bool) (d : BitVec 6) (x : BitVec 1) (a : BitVec 6) (y : BitVec 1) (b : BitVec 6) (s : State) : Res :=
  matOp s g d (portFld x a) (portFld y b) false true none 4
/-- `mmi`. -/
def execMmi (g : Bool) (d : BitVec 6) (x : BitVec 1) (a : BitVec 6) (y : BitVec 1) (b : BitVec 6) (s : State) : Res :=
  matOp s g d (portFld x a) (portFld y b) true false none 4
/-- `mmi.z`. -/
def execMmiZ (g : Bool) (d : BitVec 6) (x : BitVec 1) (a : BitVec 6) (y : BitVec 1) (b : BitVec 6) (s : State) : Res :=
  matOp s g d (portFld x a) (portFld y b) true true none 4
/-- `mmas`. -/
def execMmas (g : Bool) (d : BitVec 6) (x : BitVec 1) (a : BitVec 6) (y : BitVec 1) (b : BitVec 6) (pat : BitVec 1) (mt : BitVec 6) (s : State) : Res :=
  matOp s g d (portFld x a) (portFld y b) false false (some (pat, mt)) 8
/-- `mmas.z`. -/
def execMmasZ (g : Bool) (d : BitVec 6) (x : BitVec 1) (a : BitVec 6) (y : BitVec 1) (b : BitVec 6) (pat : BitVec 1) (mt : BitVec 6) (s : State) : Res :=
  matOp s g d (portFld x a) (portFld y b) false true (some (pat, mt)) 8
/-- `mmis`. -/
def execMmis (g : Bool) (d : BitVec 6) (x : BitVec 1) (a : BitVec 6) (y : BitVec 1) (b : BitVec 6) (pat : BitVec 1) (mt : BitVec 6) (s : State) : Res :=
  matOp s g d (portFld x a) (portFld y b) true false (some (pat, mt)) 8
/-- `mmis.z`. -/
def execMmisZ (g : Bool) (d : BitVec 6) (x : BitVec 1) (a : BitVec 6) (y : BitVec 1) (b : BitVec 6) (pat : BitVec 1) (mt : BitVec 6) (s : State) : Res :=
  matOp s g d (portFld x a) (portFld y b) true true (some (pat, mt)) 8

/-! ### Batches (R197, R198) -/

/-- Batches complete in number order once every token of their operations has returned (R197). -/
def settleBatches : List (BitVec 4) → List MatOp → List (BitVec 4)
  | [], _ => []
  | b :: bs, ops => if ops.any fun o => o.batch == some b.toNat then b :: bs else settleBatches bs ops

/-- `mbclose` (R198). -/
def execMbclose (g : Bool) (d : Fld) (s : State) : Res :=
  withOperands s g [] [d.toNat] [] fun i => once s i 4 <|
    if 16 ≤ i.g.closed.length then s.wait i .close
    else
      let n := i.g.nextBatch
      let ops := i.g.ops.map fun o => if o.batch = none then { o with batch := some n.toNat } else o
      ((s.modG i.gi fun g => { g with
        ops := ops, opened := 0, nextBatch := n + 1, closed := settleBatches (g.closed ++ [n]) ops, openErr := [],
        batchErr := (g.batchErr.filter fun e => e.1 != n) ++ g.openErr.map fun t => (n, t) }).putReg i d.toNat fun _ => n.setWidth 32).advance i
/-- `mbstat` (R198). -/
def execMbstat (g : Bool) (d : Fld) (s : State) : Res :=
  withOperands s g [] [d.toNat] [] fun i =>
    let bits := i.g.closed.foldl (fun n b => Nat.lor n (2 ^ b.toNat)) 0
    (s.putReg i d.toNat fun _ => BitVec.ofNat 32 (i.g.nextBatch.toNat * 2 ^ 24 + (if 255 < i.g.opened then 255 else i.g.opened) * 2 ^ 16 + bits)).advance i

/-- Is a group's engine work held for its save, and until its restore? Operations of a group that retires complete (R199, R200). -/
def Group.matStopped (g : Group) : Bool := g.matHeld && g.state != .retiring && g.state != .retired
/-- MATRIX_OP_COMPLETE: the group's oldest operation writes D, or, with a tile error, leaves it and owes the error (R197, R200). -/
def execMatrixOpComplete (gi : Nat) (s : State) : Res :=
  .next (if (s.group gi).matStopped then s else match (s.group gi).ops with
    | [] => s
    | o :: rest =>
      let g := s.group gi
      let bad := o.badTile g
      let data := if bad.isSome then (g.tile o.dt).data else o.run g (o.slices g)
      let named := ([o.af.toNat % 64, o.bf.toNat % 64, o.dt] ++ (if o.sp then [o.mt] else [])).eraseDups
      let s := named.foldl (fun s t => stampDone s gi t) s
      let s := s.modTile gi o.dt fun t => { t with data := data, resume := false, resumeRec := 0, owed := bad.orElse fun _ => t.owed }
      s.modG gi fun g => { g with
        ops := rest, closed := settleBatches g.closed rest, matDone := g.matDone + 1,
        batchErr := match bad, o.batch with | some t, some b => g.batchErr ++ [(BitVec.ofNat 4 b, t)] | _, _ => g.batchErr,
        openErr := match bad, o.batch with | some t, none => g.openErr ++ [t] | _, _ => g.openErr })

end Sys2Proof.Machine
end

