-- ==== Sys2Proof/Machine/Placement.lean ====
section
/-! DEFINITION. Sys2Proof/Machine/Placement.lean: what a core can hold, placing blocks and groups, the first trace packets of a group (R16,
R26 to R28, R37, R205, R206, R248, R372, R400). -/

namespace Sys2Proof.Machine

open Sys2Proof

/-! ### Room on a core -/

/-- Does a group hold a slot (Table 5-1)? -/
def Group.holdsSlot (g : Group) : Bool := g.state == .resident || g.state == .retiring
/-- The groups that hold a slot of a core, and what they leave free (R16). -/
def coreGroups (s : State) (core : Nat) : List Group := s.groups.filter fun g => g.core == core && g.holdsSlot
def freeSlots (s : State) (core : Nat) : List Nat := (List.range 256).filter fun k => (coreGroups s core).all fun g => g.slot != k
def regsFree (s : State) (core : Nat) : Nat := 8192 - (coreGroups s core).foldl (fun n g => n + g.regs.length) 0
def tilesFree (s : State) (core : Nat) : Nat := 64 - (coreGroups s core).foldl (fun n g => n + g.tiles.length) 0
/-- The blocks that stand on a core. The scratchpad of a completed block is freed only when no command touches it any more (R303). -/
def coreBlocks (s : State) (core : Nat) : List Block :=
  ((indexed s.blocks).filter fun e => e.2.cores.contains core && (e.2.place == .placed
    || (e.2.place == .done && s.copies.any fun c => c.gi.isSome && c.block == e.1))).map (·.2)

/-- The footprint on each core of a block of `sp` scratchpad bytes on c cores (R204, R206). -/
def footOf (sp c : Nat) (spRace : Bool) : Nat :=
  let q := if c ≤ 1 then sp else 64 * ((sp + (64 * c - 1)) / (64 * c))
  alignUp (q + (if spRace then q / 16 else 0) + (if c ≤ 1 then 128 else 0)) 64
def Block.foot (b : Block) : Nat := footOf b.spSize b.cores.length b.spRace
/-- Scratchpad of a core's split that its blocks take. -/
def spUsed (s : State) (core : Nat) : Nat := (coreBlocks s core).foldl (fun n b => n + b.foot) 0

/-- What a block asks of its cores: its context, whether only cores reserved to it serve (RSV), groups, registers and tiles of each,
scratchpad, and whether it may span. -/
structure Plan where
  ctx : Nat
  rsv : Bool := false
  groups : Nat
  nreg : Nat
  tiles : Nat
  sp : Nat
  spRace : Bool := false
  span : Bool := false
  /-- the launch whose block it is, for the cores that pre-emption frees (R114) -/
  by_ : Option Nat := none

/-- May the plan's context use a core (R34, R400)? -/
def Plan.allowed (p : Plan) (s : State) (core : Nat) : Bool :=
  match (s.reserved[core]?).join with
  | none => !p.rsv
  | some c => c == p.ctx
/-- The same for a core that pre-emption does not free for another launch's block (R114). -/
def Plan.usable (p : Plan) (s : State) (core : Nat) : Bool :=
  p.allowed s core && (indexed s.launches).all fun l => !l.2.claim.contains core || p.by_ == some l.1

/-- Groups of the plan that slots, registers and tiles allow. -/
def Plan.most (p : Plan) (slots regs tiles : Nat) : Nat :=
  let a := if p.nreg = 0 then slots else if regs / p.nreg < slots then regs / p.nreg else slots
  if p.tiles = 0 then a else if tiles / p.tiles < a then tiles / p.tiles else a
def Plan.room (p : Plan) (s : State) (core : Nat) : Nat := p.most (freeSlots s core).length (regsFree s core) (tilesFree s core)
/-- Groups that an idle core could hold. -/
def Plan.idle (p : Plan) : Nat := p.most 256 8192 64

/-- Does the footprint fit in the unallocated scratchpad of a core, or of the split an empty core would take (R205, R206)? -/
def Plan.spFits (p : Plan) (s : State) (core c : Nat) : Bool :=
  let f := footOf p.sp c p.spRace
  decide (f ≤ 524288) && ((coreBlocks s core).isEmpty || decide (spUsed s core + f ≤ s.split[core]?.getD 0))

/-- Sets of 2 to 4 cores of a cluster. -/
def coreSets (cl : Nat) : List (List Nat) :=
  [0b11, 0b101, 0b1001, 0b110, 0b1010, 0b1100, 0b111, 0b1011, 0b1101, 0b1110, 0b1111].map fun m => (List.range 4).filterMap fun k => if Nat.testBit m k then some (4 * cl + k) else none

/-- Does a block fit now on a set of cores (R26)? -/
def Plan.fits (p : Plan) (s : State) (cores : List Nat) : Bool :=
  cores.all (fun c => p.usable s c && p.spFits s c cores.length) && decide (p.groups ≤ cores.foldl (fun n c => n + p.room s c) 0)
/-- The places a block could take now: single cores, and spans where none holds it whole (R26). -/
def Plan.places (p : Plan) (s : State) : List (List Nat) :=
  let one := ((List.range 64).map fun c => [c]).filter (p.fits s)
  if one.isEmpty && p.span then (List.range 16).flatMap fun cl => (coreSets cl).filter (p.fits s) else one
/-- Could a block ever stand on a set of cores, were they idle (R26, R400)? -/
def Plan.everOn (p : Plan) (s : State) (cores : List Nat) : Bool :=
  cores.all (p.allowed s) && decide (footOf p.sp cores.length p.spRace ≤ 524288) && decide (p.groups ≤ cores.length * p.idle)
def Plan.ever (p : Plan) (s : State) : Bool :=
  (List.range 64).any (fun c => p.everOn s [c]) || (p.span && (List.range 16).any fun cl => (coreSets cl).any (p.everOn s))

/-- The split of an empty core that a block is placed on (R205). DESIGN CHOICE, log entry 81: of a block that spans c cores, each core counts the groups
divided by c, rounded up, and at a restore the groups that are left. Unsafe. -/
def Plan.splitOf (p : Plan) (s : State) (core c : Nat) : Nat :=
  let f := footOf p.sp c p.spRace
  let per := (p.groups + (c - 1)) / c
  let n := if per = 0 then 1 else p.room s core / per
  let x := 32768 * (((if n = 0 then 1 else n) * f + 32767) / 32768)
  if 524288 < x then 524288 else x
def Plan.setSplits (p : Plan) (s : State) (cores : List Nat) : State :=
  { s with split := cores.foldl (fun xs c => if (coreBlocks s c).isEmpty then setAt xs c (p.splitOf s c cores.length) else xs) s.split }

/-! ### Trace packets that begin a group (R372, R374) -/

/-- Is a context's group traced on a cluster? -/
def tracedOn (s : State) (cl pasid : Nat) (but : Option Nat) : Bool :=
  (indexed s.groups).any fun e => some e.1 != but && e.2.traced && e.2.holdsSlot && clusterOf e.2.core == cl && s.pasidOf e.2 == pasid
/-- The device time, in ns, at which the running cycle of a cluster began. A packet of the cycle has occurred then (R376; log entry 84). -/
def cycleStart (s : State) (cl : Nat) : Nat := (s.time * 1000 + s.fine - s.phase[cl]?.getD 0 / (s.clock[cl]?.getD 0)) / 1000 % 2 ^ 64
def syncPayload (s : State) (cl : Nat) : List Byte := leBytes 8 (cycleStart s cl) ++ leBytes 8 (s.cyc[cl]?.getD 0)
/-- The SYNC of a context that gains a traced group on a cluster where it had none (R372). -/
def traceGain (s : State) (gi : Nat) : State :=
  let g := s.group gi
  let cl := clusterOf g.core
  if !g.traced || tracedOn s cl (s.pasidOf g) (some gi) then s
  else s.packet cl { pasid := s.pasidOf g, ty := 0x0C, cyc := s.cycle g.core, payload := syncPayload s cl, dt0 := true }
/-- A START for each fragment of a group (R374). -/
def traceStart (s : State) (gi reason : Nat) : State :=
  (s.group gi).frags.foldl (fun s f => s.trace gi 0x0A (lowLane f.amask) (pcBytes f.pc ++ maskBytes f.amask ++ leBytes 1 reason)) s

/-! ### Placing (R37, R248, R400) -/

/-- A group created in a slot takes the slot's next generation (R248). DESIGN CHOICE, log entry 63: the spec gives a count modulo 16 and no first value; the
first group that is created in a slot after reset takes generation 1. Unsafe. -/
def takeSlot (s : State) (core slot : Nat) : State × BitVec 18 :=
  let key := 256 * core + slot
  let n := ((s.slotGens.find? fun e => e.1 == key).map (·.2)).getD 0 + 1
  ({ s with slotGens := setAssoc s.slotGens key n }, mkId core slot (n % 16))

/-- A core and slot for one group, among those the plan allows (R400; log entry 4). -/
def Plan.slotFor (p : Plan) (s : State) (cores : List Nat) : State × Nat × Nat :=
  let places := cores.flatMap fun c => if p.room s c = 0 then [] else (freeSlots s c).map fun k => (c, k)
  let (s, k) := s.chooseOf places.length
  (s, places[k]?.getD (0, 0))

/-- A new group takes its slot and becomes RESIDENT. -/
def Plan.seat (p : Plan) (s : State) (cores : List Nat) (g : Group) : State :=
  let (s, core, slot) := p.slotFor s cores
  let (s, id) := takeSlot s core slot
  let gi := s.groups.length
  let g := { g with
    core := core, slot := slot, id := id, placedAt := s.cycle core, acquired := s.fillNo,
    frags := g.frags.map fun f => { f with lastIssue := s.seq, readyAt := s.cycle core, acquired := s.fillNo } }
  traceStart (traceGain { s with groups := s.groups ++ [g] } gi) gi 0

/-- A block is placed with its groups, each on the core that `seats` names for it, else where the device chooses. -/
def Plan.placeAs (p : Plan) (s : State) (cores seats : List Nat) (b : Block) (gs : List Group) : State :=
  let s := p.setSplits s cores
  let bi := s.blocks.length
  let s := { s with btags := s.btags + 1, blocks := s.blocks ++ [{ b with place := .placed, cores := cores, btag := s.btags + 1 }] }
  (indexed gs).foldl (fun s e => p.seat s (match seats[e.1]? with | some c => [c] | none => cores) { e.2 with block := bi }) s
/-- The same where the device chooses for every group. -/
def Plan.place (p : Plan) (s : State) (cores : List Nat) (b : Block) (gs : List Group) : State := p.placeAs s cores [] b gs

/-- The ways in which n things spread over places with room for so many each. -/
def spreads : List Nat → Nat → List (List Nat)
  | [], n => if n = 0 then [[]] else []
  | r :: rs, n => (List.range ((if r < n then r else n) + 1)).flatMap fun k => (spreads rs (n - k)).map (k :: ·)
/-- Every way to seat the plan's groups on a set of cores: a core for each group. -/
def Plan.seatings (p : Plan) (s : State) (cores : List Nat) : List (List Nat) :=
  (spreads (cores.map (p.room s)) p.groups).map fun ks => (cores.zip ks).flatMap fun e => List.replicate e.2 e.1

/-- The fresh state of a group of a launch (R37). -/
def freshGroup (nreg tiles : Nat) (f : Frag) : Group :=
  { regs := List.replicate nreg zeroVec, tiles := List.replicate tiles {}, frags := [f], exited := ~~~f.amask }

/-! ### Spawned children (R28, R306) -/

/-- What a child asks of a core. -/
def Child.plan (c : Child) (s : State) : Plan :=
  let l := s.launch c.launch
  { ctx := l.ctx, groups := 1, nreg := l.kernel.nreg, tiles := l.kernel.tiles, sp := 0 }

/-- The group of a child. -/
def Child.group (c : Child) (s : State) : Group :=
  let k := (s.launch c.launch).kernel
  let g := freshGroup k.nreg k.tiles { pc := c.entry, amask := c.lanes, fmt := c.fmt }
  { g with
    regs := (c.args.map fun v => (Vector.replicate 16 v : LaneVec)) ++ g.regs.drop c.args.length,
    prio := c.prio, ceiling := c.prio, race := c.race, subt := c.member, member := c.member, know := c.know,
    traced := c.traced, optLc := c.optLc, optSt := c.optSt, optTs := c.optTs }

/-- A child takes a slot of a core. -/
def placeChild (s : State) (c : Child) (core : Nat) : State :=
  (c.plan s).place s [core] { launch := c.launch, bid := 0xFFFFFFFF, child := true } [c.group s]

/-- A child goes to its parent's core, else to another of the cluster, else to the spawn queue: the status of R306. -/
def spawnChild (s : State) (c : Child) (home : Nat) : State × Nat :=
  let p := c.plan s
  let near := ((List.range 4).map (4 * clusterOf home + ·)).filter fun k => k != home && p.fits s [k]
  if p.fits s [home] then (placeChild s c home, 1)
  else if !near.isEmpty then
    let (s, k) := s.chooseOf near.length
    (placeChild s c (near[k]?.getD 0), 1)
  else if s.spawnq.length < 4096 then ({ s with spawnq := s.spawnq ++ [c] }, 2)
  else (s, 0)

end Sys2Proof.Machine
end

