-- ==== Sys2Proof/Machine/Search.lean ====
section
/-! DEFINITION. Sys2Proof/Machine/Search.lean: spawn, subtrees, pools, Syzygy queues and feeds (majors 0x30 to 0x33, chapter 14). -/

namespace Sys2Proof.Machine

open Sys2Proof

/-! ### Subtrees (R308 to R311) -/

def treeHandle (s : State) (k : Nat) : Word := mkHandle k (s.tree k).gen

/-- Member groups of a subtree that have not retired, those in the spawn queue among them (R309). A retired group counts while a store
or reduction it issued has not performed (R94, R228). -/
def memberCount (s : State) (pasid : Nat) (h : Word) : Nat :=
  ((indexed s.groups).filter fun e => e.2.member == h && s.pasidOf e.2 == pasid && (e.2.state != .retired || s.unperf.any fun w => w.gi == e.1)).length
    + (s.spawnq.filter fun c => c.member == h && (s.launch c.launch).ctx == pasid).length
/-- Child subtrees that have not ended. -/
def childCount (s : State) (pasid : Nat) (h : Word) : Nat :=
  (s.trees.filter fun t => t.st != .free && !t.ended && t.parent == h && t.ctx == pasid).length
/-- The counter of R309. -/
def treeCount (s : State) (k : Nat) : Nat :=
  let t := s.tree k
  (if t.hold then 1 else 0) + memberCount s t.ctx (treeHandle s k) + childCount s t.ctx (treeHandle s k)

/-- Open subtrees below a set of subtrees, the set itself first. -/
def cancelSet (s : State) : Nat → List Nat → List Nat
  | 0, xs => xs
  | n + 1, xs =>
    let more := (List.range 256).filter fun j => !xs.contains j && (s.tree j).st == .open && xs.any fun x => (s.tree j).parent == treeHandle s x && (s.tree j).ctx == (s.tree x).ctx
    if more.isEmpty then xs else cancelSet s n (xs ++ more)

/-- One subtree is struck: it is CANCELLED, its queued children are removed and its members stop (Table 14-3). -/
def strikeOne (s : State) (k : Nat) : State :=
  let t := s.tree k
  let h := treeHandle s k
  let s := s.modTree k fun t => { t with st := .cancelled }
  let s := { s with spawnq := s.spawnq.filter fun c => !(c.member == h && (s.launch c.launch).ctx == t.ctx) }
  let members := (indexed s.groups).filterMap fun e => if e.2.member == h && s.pasidOf e.2 == t.ctx && e.2.state != .retired && !e.2.struck then some e.1 else none
  members.foldl (fun s gi =>
    let g := s.group gi
    strikeGroup (s.replayLog t.ctx 4 g.id (leBytes 8 h.toNat ++ leBytes 8 g.issued)) gi) s

/-- Cancellation of a subtree and of every child subtree (R310, R313). -/
def strikeTree (s : State) (k : Nat) : State :=
  if (s.tree k).st != .open then s else (cancelSet s 256 [k]).foldl strikeOne s

/-- A subtree object released: its generation stays for the next allocation (R304, R311). -/
def releaseTree (t : Subtree) : Subtree := { gen := t.gen }

/-- Has an opener retired (R311)? -/
def openerGone (s : State) (t : Subtree) : Bool := (s.group t.opener).state == .retired

/-- A subtree ends when its counter is zero, or, cancelled, when no member and no child subtree remains: every waiter learns the status
and the vectors its groups retired with, which its parent's also take in (R228, R310). -/
def endTree (s : State) (k : Nat) : State :=
  let t := s.tree k
  let h := treeHandle s k
  let left := memberCount s t.ctx h + childCount s t.ctx h
  let finished := (t.st == .open && !t.hold && left == 0) || (t.st == .cancelled && left == 0)
  if t.ended || !finished then s
  else
    let c := t.st == .cancelled
    let s := s.modTree k fun t => { t with ended := true, st := if c then .cancelled else .ended }
    let s := if s.treeNamed t.ctx t.parent then s.modTree (hIndex t.parent) fun p => { p with know := p.know.merge t.know } else s
    { s with groups := s.groups.map fun g => if s.pasidOf g != t.ctx then g else
        { g with frags := g.frags.map fun f => if f.stall == some (.tree h) then { f with stall := some (.treeEnd c t.know) } else f } }

/-- An ended object is released once `tree.close.free` asked for it or its opener has retired (R311). -/
def freeTree (s : State) (k : Nat) : State :=
  let t := s.tree k
  if t.st != .free && t.ended && (t.relReq || openerGone s t) then s.modTree k releaseTree else s

/-! ### SPAWN and the subtree instructions (R306, R307, R312) -/

/-- Is the current subtree one that creates nothing: cancelled, ended, or released after its end? -/
def deadSubtree (s : State) (g : Group) : Bool := g.subt != 0 && !(s.treeNamed (s.pasidOf g) g.subt && (s.tree (hIndex g.subt)).st == .open)

/-- One lane's child (R306, R307): the status, and the parent's Tick() after its release to the child. -/
def spawnLane (s : State) (i : Iss) (d a : Fld) (k l : Nat) : State × Nat :=
  let g := s.group i.gi
  let n0 := (i.reg d.toNat l).toNat % 32
  let n := if 16 < n0 then 16 else n0
  if n = 0 ∨ deadSubtree s g then (s, 0)
  else
    let c : Child := {
      parent := i.gi, launch := (s.blockOf g).launch, entry := (i.pair a.toNat l).truncate 52, lanes := BitVec.ofNat 16 (2 ^ n - 1),
      args := (List.range k).map fun j => i.reg (a.toNat + 2 + j) l, fmt := i.f.fmt, prio := g.prio, race := g.race, member := g.subt, know := g.know,
      traced := g.traced, optLc := g.optLc, optSt := g.optSt, optTs := g.optTs }
    let (s, st) := spawnChild s c g.core
    (if st = 0 then s else tickG s i.gi, st)

/-- `spawn` (R306, R307): a release to each child, which the fragment's earlier accesses precede; the fragment waits with reason 15. -/
def execSpawn (g : Bool) (d : Fld) (a : BitVec 6) (k : BitVec 4) (s : State) : Res :=
  let e := pairFld a
  withOperands s g (d.toNat :: runOf e.toNat (2 + k.toNat)) [d.toNat] [] (dests := [0]) fun i => once s i 4 <|
    match i.lanes.lanes.find? fun l => (badTarget (i.pair e.toNat l)).isSome with
    | some l => faultAt s i ((badTarget (i.pair e.toNat l)).getD 0x03) i.lanes 0 (i.pair e.toNat l)
    | none =>
      if owesAccess s i then s.wait i .spawning
      else
        let r := i.lanes.lanes.foldl (fun (x : State × List (Nat × Nat)) l =>
          let y := spawnLane x.1 i d e k.toNat l
          (y.1, (l, y.2) :: x.2)) (s.commit i, [])
        let st (l : Nat) : Nat := ((r.2.find? fun x => x.1 == l).map (·.2)).getD 0
        ((r.1.putReg i d.toNat fun l => BitVec.ofNat 32 (st l)).putPred i 0 fun l => st l != 0).advance i 4 true

/-- `tree.open` (R309, R312). -/
def execTreeOpen (g : Bool) (d : Fld) (s : State) : Res :=
  withOperands s g [] [d.toNat] [] fun i => once s i 4 <|
    let s := s.commit i
    let free := (List.range 256).filter fun k => (s.tree k).st == .free
    if free.isEmpty then (s.putReg i d.toNat fun _ => 0).advance i 4 true
    else
      let (s, c) := s.chooseOf free.length
      let k := free[c]?.getD 0
      let gen := nextGen (s.tree k).gen
      let parent : Word := if i.g.subt = 0 ∨ deadSubtree s i.g then 0 else i.g.subt
      let s := s.modTree k fun _ => { st := .open, gen := gen, ctx := s.pasidOf i.g, hold := true, parent := parent, opener := i.gi }
      let h := mkHandle k gen
      (((logOrder s i h.toNat).modG i.gi fun g => { g with subt := h }).putReg i d.toNat fun _ => h).advance i 4 true

/-- A subtree instruction on a named handle (R304): FUT detail 2 when it names nothing. -/
def treeOp (s : State) (g : Bool) (a : Fld) (reads writes : List Nat) (k : Iss → Word → Nat → State → State) : Res :=
  withOperands s g (a.toNat :: reads) writes [] fun i => once s i 4 <|
    let h := i.reg a.toNat i.lo
    if s.treeNamed (s.pasidOf i.g) h then k i h (hIndex h) (logOrder (s.commit i) i h.toNat) else faultAt s i 0x0F i.lanes 2

/-- `tree.close` and `tree.close.free` (R312). -/
def treeClose (s : State) (g : Bool) (a : Fld) (free : Bool) : Res :=
  treeOp s g a [] [] fun i h k s =>
    let s := s.modTree k fun t => { t with hold := false, relReq := t.relReq || free }
    ((if i.g.subt = h then s.modG i.gi fun x => { x with subt := (s.tree k).parent } else s)).advance i 4 true
/-- `tree.close`. -/
def execTreeClose (g : Bool) (a : Fld) (s : State) : Res := treeClose s g a false
/-- `tree.close.free`. -/
def execTreeCloseFree (g : Bool) (a : Fld) (s : State) : Res := treeClose s g a true
/-- `tree.cancel`. -/
def execTreeCancel (g : Bool) (a : Fld) (s : State) : Res := treeOp s g a [] [] fun i _ k s => strikeTree (s.advance i 4 true) k

/-- The state word of `tree.stat` (R312). -/
def treeWord (s : State) (k : Nat) : Nat :=
  let t := s.tree k
  capAt (treeCount s k) (2 ^ 24 - 1) * 256 + (if t.ended then 32 else 0) + (if t.relReq then 16 else 0) + (if t.deadline != 0 then 8 else 0)
    + (if t.hold then 4 else 0) + (match t.st with | .free => 0 | .open => 1 | .ended => 2 | .cancelled => 3)
/-- `tree.stat`: zero for a handle that names nothing. -/
def execTreeStat (g : Bool) (d : BitVec 6) (a : Fld) (s : State) : Res :=
  withOperands s g [a.toNat] (pairOf d) [] fun i => once s i 4 <|
    let h := i.reg a.toNat i.lo
    let named := s.treeNamed (s.pasidOf i.g) h
    let s := s.commit i
    let w : Word64 := if named then mk64 (BitVec.ofNat 32 (treeWord s (hIndex h))) (s.tree (hIndex h)).parent else 0
    ((if named then logOrder s i h.toNat else s).putPair i (pairFld d).toNat fun _ => w).advance i 4 true

/-- `dl.set`: a deadline at or before the present cancels at once. -/
def execDlSet (g : Bool) (a : Fld) (b : BitVec 6) (s : State) : Res :=
  treeOp s g a (pairOf b) [] fun i _ k s =>
    let v := (i.pair (pairFld b).toNat i.lo).toNat
    if (s.tree k).st != .open then s.advance i 4 true
    else
      let s := (s.modTree k fun t => { t with deadline := v }).advance i 4 true
      if v != 0 && decide (v ≤ s.time) then strikeTree s k else s
/-- `dl.get`. -/
def execDlGet (g : Bool) (d : BitVec 6) (a : Fld) (s : State) : Res :=
  treeOp s g a [] (pairOf d) fun i _ k s => (s.putPair i (pairFld d).toNat fun _ => BitVec.ofNat 64 (s.tree k).deadline).advance i 4 true
/-- The time that `dl.chk` reports. -/
def dlLeft (s : State) (t : Subtree) : Nat :=
  if t.st != .open then 0 else if t.deadline = 0 then 2 ^ 32 - 1 else capAt (t.deadline - s.time) (2 ^ 32 - 1)
/-- `dl.chk`. -/
def execDlChk (g : Bool) (d a : Fld) (s : State) : Res :=
  treeOp s g a [] [d.toNat] fun i _ k s =>
    let v := dlLeft s (s.tree k)
    ((s.replayLog (s.pasidOf i.g) 7 i.g.id (leBytes 8 v)).putReg i d.toNat fun _ => BitVec.ofNat 32 v).advance i 4 true

/-- DEADLINE_EXPIRE: the comparator strikes the subtree in the first tick at or after its deadline (R313). -/
def execDeadlineExpire (n : Nat) (s : State) : Res :=
  let t := s.tree n
  .next (if t.st == .open && t.deadline != 0 && decide (t.deadline ≤ s.time) then strikeTree s n else s)

/-! ### Units that reach memory in a group's place (R318, R422) -/

/-- An instruction whose unit needs translations: it waits while a fault record stands, and fails when one has failed. -/
def withUnit (s : State) (i : Iss) (source : Nat) (needs : List Need) (k : State → State) : State :=
  let dead : Bool := match i.f.stall with | some (.xlate t) => s.xfaults.any fun x => x.token == t && x.failed | _ => false
  if dead then faultAt (dropFailed (s.modF i.gi i.fi fun f => { f with stall := none })) i 0x0A i.lanes 17
  else
    match ask s (askerOf s i.g source) [] needs with
    | (s, .wait (t :: _)) => s.wait i (.xlate t)
    | (s, _) => k s

/-- A unit's read and write at a translated address, without a race check. -/
def unitRead (s : State) (core pasid va n : Nat) : List Byte :=
  match access s core pasid va .read with
  | .ok (pa, _) => s.mem.read pa n
  | .error _ => List.replicate n 0
def unitWrite (s : State) (core pasid va : Nat) (bs : List Byte) : State :=
  match access s core pasid va .write with
  | .ok (pa, x) =>
    let s := dropL1 ((touchL2 s pasid 0 true pa).writeMem pa bs) core pa bs.length
    if isTracked s pasid x then syncKill s pasid pa bs.length else s
  | .error _ => s

/-! ### Pools (R315 to R318) -/

/-- n grants, or the address of a link that does not translate. -/
def grants (s : State) (core pasid : Nat) : Nat → Pool → Except Nat (Pool × List Nat)
  | 0, p => .ok (p, [])
  | n + 1, p =>
    if p.head ≠ 0 then
      match access s core pasid p.head .read with
      | .error _ => .error p.head
      | .ok (pa, _) => (grants s core pasid n { p with head := s.mem.le pa 8, free := p.free - 1 }).map fun r => (r.1, p.head :: r.2)
    else if p.bump < p.cap then
      (grants s core pasid n { p with bump := p.bump + 1, free := p.free - 1 }).map fun r => (r.1, (p.base + p.bump * p.nodeb) :: r.2)
    else (grants s core pasid n p).map fun r => (r.1, 0 :: r.2)

/-- An instruction on a named pool: POOL detail 1 when the handle names nothing. -/
def poolOp (s : State) (g : Bool) (h : Fld) (reads writes dests : List Nat) (k : Iss → Word → Pool → State → State) : Res :=
  withOperands s g (h.toNat :: reads) writes [] (dests := dests) fun i => once s i 4 <|
    let hd := i.reg h.toNat i.lo
    if s.poolNamed (s.pasidOf i.g) hd then k i hd (s.pool (hIndex hd)) (s.commit i) else faultAt s i 0x09 i.lanes 1

/-- A grant has been made: addresses and p0 are owed on path `at`, and the pool's vector is acquired at `.dev` (R315, R318). -/
def granted (s : State) (i : Iss) (d : BitVec 6) (h : Word) (p : Pool) (ns : List Nat) : State :=
  let xs := i.lanes.lanes.zip ns
  let s := logOrder (s.modPool (hIndex h) fun _ => p) i h.toNat
  let s := s.owe i .at (xs.flatMap fun x => laneWrites i (pairFld d).toNat x.1 2 x.2) [] .none (xs.map fun x => (0, x.1, x.2 != 0))
  (acquireFills (mergeG s i.gi p.vec) i.gi i.fi 2).advance i 4 true

/-- `nalloc` and `nalloc.t` (R315). -/
def allocOp (s : State) (g : Bool) (d : BitVec 6) (a : Fld) (whole : Bool) : Res :=
  poolOp s g a [] (pairOf d) [0] fun i h p s =>
    let n := i.lanes.count
    if whole ∧ p.free < n then faultAt s i 0x09 i.lanes (BitVec.ofNat 32 (p.free * 256))
    else if pathFull i .at then s.wait i (.path .at 62)
    else
      match grants s i.g.core (s.pasidOf i.g) n p with
      | .error va =>
        if 2 ^ 52 ≤ va then faultAt s i 0x0A i.lanes 17 else withUnit s i 3 [⟨va, .read⟩] fun s => faultAt s i 0x0A i.lanes 17
      | .ok (p, ns) => granted s i d h p ns
/-- `nalloc`. -/
def execNalloc (g : Bool) (d : BitVec 6) (a : Fld) (s : State) : Res := allocOp s g d a false
/-- `nalloc.t`. -/
def execNallocT (g : Bool) (d : BitVec 6) (a : Fld) (s : State) : Res := allocOp s g d a true

/-- Is an address an allocated node of the pool (R316)? -/
def Pool.isNode (p : Pool) (n : Nat) : Bool := decide (p.base ≤ n) && decide (n < p.base + p.bump * p.nodeb) && (n - p.base) % p.nodeb == 0

/-- The release side of an instruction on a pool: its vector takes in the group's, then Tick() (R316, R317). -/
def poolRelease (s : State) (i : Iss) (h : Word) : State :=
  tickG (logOrder (s.modPool (hIndex h) fun p => { p with vec := p.vec.merge (s.group i.gi).know }) i h.toNat) i.gi

/-- `nfree` (R316). -/
def execNfree (g : Bool) (a : BitVec 6) (b : Fld) (s : State) : Res :=
  poolOp s g b (pairOf a) [] [] fun i h p s =>
    let ns := (i.lanes.lanes.map fun l => (i.pair (pairFld a).toNat l).toNat).filter (· != 0)
    if ns.any fun n => !p.isNode n then faultAt s i 0x09 i.lanes 2
    else if owesAccess s i then s.wait i .drain
    else
      withUnit s i 3 (ns.map fun n => ⟨n, .write⟩) fun s =>
        let r := ns.foldl (fun (x : State × Pool) n =>
          (unitWrite x.1 i.g.core (s.pasidOf i.g) n (leBytes 8 x.2.head), { x.2 with head := n, free := x.2.free + 1 })) (s, p)
        (poolRelease (r.1.modPool (hIndex h) fun _ => r.2) i h).advance i 4 true
/-- `nreset` (R317). -/
def execNreset (g : Bool) (a : Fld) (s : State) : Res :=
  poolOp s g a [] [] [] fun i h _ s =>
    if owesAccess s i then s.wait i .drain
    else (poolRelease (s.modPool (hIndex h) fun p => { p with head := 0, bump := 0, free := p.cap }) i h).advance i 4 true
/-- `ninfo` (R317). -/
def execNinfo (g : Bool) (d : BitVec 6) (a : Fld) (s : State) : Res :=
  poolOp s g a [] (pairOf d) [] fun i h p s =>
    let w := (p.cap - 1) % 2 ^ 24 + (p.nodeb / 64 - 1) * 2 ^ 24
    ((logOrder s i h.toNat).putPair i (pairFld d).toNat fun _ => mk64 (BitVec.ofNat 32 p.free) (BitVec.ofNat 32 w)).advance i 4 true

/-! ### Register blocks whose size an object gives (R319, Table 14-6) -/

/-- The checks of blocks of registers, made after masking: REGB, then the scoreboard and poison. -/
def withBlocks (s : State) (i : Iss) (reads writes : List (Nat × Nat)) (preds : List Nat) (early : Option State) (k : State) : State :=
  let all := reads ++ writes
  if all.any fun b => decide (128 < b.1 + b.2) || decide (i.N < i.phys (b.1 + b.2)) then faultAt s i 0x02 i.lanes
  else
    match early with
    | some e => e
    | none =>
      let rs := (reads.flatMap fun b => runOf b.1 b.2).map i.phys
      let ds := (writes.flatMap fun b => runOf b.1 b.2).map i.phys ++ preds.map (512 + ·)
      if i.lanes.lanes.any (fun l => ds.any fun r => i.g.owes r l) then s.wait i (.dest ds i.lanes)
      else if i.lanes.lanes.any (fun l => rs.any fun r => i.g.owes r l) then s.wait i (.regs rs i.lanes)
      else
        match i.g.poisonIn rs i.lanes with
        | some p => faultAt s i 0x10 i.lanes (BitVec.ofNat 32 p.detail) (BitVec.ofNat 64 p.addr)
        | none => k

/-! ### Syzygy queues (R319 to R325) -/

/-- Rows per tile, row words R, result words W and the timeout in ns (R319). -/
def Syzygy.rows (q : Syzygy) : Nat := match q.cfg.toNat % 4 with | 0 => 8 | 1 => 16 | _ => 32
def Syzygy.rowWords (q : Syzygy) : Nat := 4 * (bitsOf q.cfg.toNat 3 2 + 1)
def Syzygy.resWords (q : Syzygy) : Nat := bitsOf q.cfg.toNat 7 4 + 1
def Syzygy.timeout (q : Syzygy) : Nat := 64 * (q.cfg.toNat / 256)
def Syzygy.filling (q : Syzygy) : Option Nat := findAt (fun b => b.st == .filling) q.bufs
def Syzygy.buf (q : Syzygy) (k : Nat) : Buf := q.bufs[k]?.getD {}
/-- Rows that the filling and free buffers still take. -/
def Syzygy.room (q : Syzygy) : Nat :=
  q.bufs.foldl (fun n b => match b.st with | .filling => n + (q.rows - b.rows.length) | .free => n + q.rows | _ => n) 0
def Syzygy.modBuf (q : Syzygy) (k : Nat) (f : Buf → Buf) : Syzygy := { q with bufs := modAt q.bufs k f }
/-- A buffer becomes ready, and free again when it holds no valid row (R322). -/
def Syzygy.makeReady (q : Syzygy) (k : Nat) : Syzygy := { q.modBuf k fun b => ({ b with st := .ready, order := q.order + 1 } : Buf).settle with order := q.order + 1 }
/-- One row appended: to the filling buffer, else to the first free one, which becomes it (R320). -/
def Syzygy.push (q : Syzygy) (now : Nat) (r : Row) : Syzygy :=
  let k := (q.filling.orElse fun _ => findAt (fun b => b.st == .free) q.bufs).getD 0
  let q := q.modBuf k fun b => if b.st == .filling then { b with rows := b.rows ++ [r] } else { st := .filling, rows := [r], since := now }
  if q.rows ≤ (q.buf k).rows.length then q.makeReady k else q

/-- An instruction on a named Syzygy queue: nothing with an empty Lanes(), ENG detail 32 when the handle names nothing. R17 has a queue serve its own
cluster alone but for `cq.push`, and no rule says what the others do from another cluster: they are served as from its own (log entry 67). -/
def cqOp (s : State) (g : Bool) (a : Fld) (reads writes : List Nat) (k : Iss → Word → Syzygy → State) : Res :=
  withOperands s g (a.toNat :: reads) writes [] fun i => once s i 4 <|
    let h := i.reg a.toNat i.lo
    if s.syzNamed (s.pasidOf i.g) h then k i h (s.syz (hIndex h)) else faultEng s i i.lanes 32

/-- `cq.push` (R320). One that waits for room has been issued, and commits the block (R365). -/
def execCqPush (g : Bool) (d a : Fld) (k : BitVec 5) (s : State) : Res :=
  cqOp s g a [] [] fun i h q =>
    let busy : Option State := if (i.g.fut k.toNat).st = .free then none else some (faultAt s i 0x0F i.lanes 0)
    withBlocks s i [(a.toNat + 1, q.rowWords)] [(d.toNat, q.resWords)] [] busy <|
      if q.room < i.lanes.count then (s.commit i).wait i (.room h i.lanes.count)
      else if owesAccess s i then s.wait i .drain
      else
        let row (l : Nat) : Row := { gi := i.gi, lane := l, fut := k.toNat, words := (List.range q.rowWords).map fun j => i.reg (a.toNat + 1 + j) l, vec := i.g.know }
        let s := (s.commit i).modSyz (hIndex h) fun q => i.lanes.lanes.foldl (fun q l => q.push s.time (row l)) q
        let s := s.modG i.gi fun g => { g with futures := setAt g.futures k.toNat { st := .pending, lanes := i.lanes, first := i.phys d.toNat, count := q.resWords } }
        (tickG (logOrder s i h.toNat) i.gi).advance i 4 true

/-- The oldest ready buffer. -/
def Syzygy.oldest (q : Syzygy) : Option Nat :=
  (indexed q.bufs).foldl (fun m e => if e.2.st != .ready then m else match m with
    | none => some e.1
    | some j => if e.2.order < (q.buf j).order then some e.1 else m) none

/-- The rows of a buffer that are valid, as a mask. -/
def Buf.validMask (b : Buf) : Nat := (indexed b.rows).foldl (fun m e => if e.2.valid then m + 2 ^ e.1 else m) 0

/-- A buffer written into a tile: void rows are zero, and the element mask leaves them out (R321). The bytes beyond the rows stay (R178). -/
def takeTile (t : Tile) (q : Syzygy) (b : Buf) : Tile :=
  let rb := 4 * q.rowWords
  { t with
    data := (indexed b.rows).foldl (fun m e =>
      if e.2.valid then m.write (e.1 * rb) (e.2.words.flatMap fun w => leBytes 4 w.toNat) else m)
      (t.data.write 0 (List.replicate (q.rows * rb) 0)),
    rowMask := BitVec.ofNat 256 b.validMask, colMask := BitVec.allOnes 256, emask := true, bad := false }

/-- `cq.take` (R321). One that waits for a ready buffer has been issued: it commits the block and begins the tile's stamp epoch (R365, R379). -/
def execCqTake (g : Bool) (d : BitVec 6) (a : Fld) (t : BitVec 6) (s : State) : Res :=
  withTile s g (a.toNat :: pairOf d) t false fun tl => cqOp s g a [] (pairOf d) fun i h q =>
    if !tl.shaped then faultTile s i 1 t.toNat
    else if tl.height ≠ q.rows ∨ tl.rb ≠ 4 * q.rowWords then faultTile s i 5 t.toNat
    else
      tileWait s i t.toNat true <|
        match q.oldest with
        | none => (stampIn (s.commit i) i.gi t.toNat).wait i (.take h)
        | some k =>
          let b := q.buf k
          let s := ((stampIn (s.commit i) i.gi t.toNat).modTile i.gi t.toNat fun x => takeTile x q b)
          let s := stampMod s i.gi t.toNat fun x => if x.opi = 0 then { x with in1 := s.time } else x
          let s := s.modSyz (hIndex h) fun q => { q.modBuf k fun b => { b with st := .taken, seq := q.seq, taker := i.gi } with seq := q.seq + 1 }
          let s := b.rows.foldl (fun s r => if r.valid then mergeG s i.gi r.vec else s) (logOrder s i h.toNat)
          let id := q.seq % 2 ^ 22 * 2 ^ 10 + k * 256 + hIndex h
          ((acquireFills s i.gi i.fi 2).putPair i (pairFld d).toNat fun _ => mk64 (BitVec.ofNat 32 id) (BitVec.ofNat 32 b.validMask)).advance i 4 true

/-- Are rows of a push still to be put? -/
def rowsLeft (s : State) (gi k : Nat) : Bool :=
  s.syzygy.any fun q => q.bufs.any fun b => b.rows.any fun r => r.valid && r.wanted && !r.put && r.gi == gi && r.fut == k

/-- One result row delivered (R323): the owner lane receives its words while its future is pending, and the future is READY with its
last row. -/
def putRow (s : State) (qi k r : Nat) (ws : List Word) (vec : KVec) : State :=
  let row := (((s.syz qi).buf k).rows[r]?).getD {}
  let s := s.modSyz qi fun q => q.modBuf k fun b => { b with rows := modAt b.rows r fun x => { x with put := true } }
  let f := (s.group row.gi).fut row.fut
  if !row.wanted || f.st != .pending then s
  else
    let s := s.modG row.gi fun g => ((indexed ws).foldl (fun g w => g.setReg (f.first + w.1) (twoPowMask row.lane) fun _ => w.2) g).roused g
    let done := !rowsLeft s row.gi row.fut
    s.modG row.gi fun g => { g with futures := modAt g.futures row.fut fun f => { f with vecs := f.vecs ++ [vec], st := if done then .ready else f.st } }

/-- `cq.put` (R323). -/
def execCqPut (g : Bool) (a : BitVec 6) (b : Fld) (s : State) : Res :=
  withOperands s g (pairOf a) [] [] fun i => once s i 4 <|
    let t := (i.reg (pairFld a).toNat i.lo).toNat
    let r0 := (i.reg ((pairFld a).toNat + 1) i.lo).toNat
    let qi := t % 128
    let k := bitsOf t 9 8
    let q := s.syz qi
    if !q.bound ∨ q.ctx ≠ s.pasidOf i.g then faultEng s i i.lanes 33
    else
      let gone : Option State :=
        if bitsOf t 7 7 ≠ 0 ∨ (q.buf k).st ≠ .taken ∨ (q.buf k).seq % 2 ^ 22 ≠ t / 2 ^ 10 then some (faultEng s i i.lanes 33) else none
      withBlocks s i [(b.toNat, q.resWords)] [] [] gone <|
        if owesAccess s i then s.wait i .drain
        else
          let open_ (l : Nat) : Bool := match ((q.buf k).rows[r0 + l]?) with | some r => decide (r0 + l < q.rows) && r.valid && !r.put | none => false
          let s := (i.lanes.lanes.filter open_).foldl
            (fun s l => putRow s qi k (r0 + l) ((List.range q.resWords).map fun j => i.reg (b.toNat + j) l) i.g.know) (s.commit i)
          let s := s.modSyz qi fun q => q.modBuf k Buf.settle
          (tickG (logOrder s i (mkHandle qi q.gen).toNat) i.gi).advance i 4 true

/-- `cq.flush` (R322). -/
def execCqFlush (g : Bool) (a : Fld) (s : State) : Res :=
  cqOp s g a [] [] fun i h q =>
    let s := match q.filling with
      | some k => if (q.buf k).rows.any (·.valid) then s.modSyz (hIndex h) fun q => q.makeReady k else s
      | none => s
    (logOrder (s.commit i) i h.toNat).advance i 4 true
/-- `cq.cfg` (R325): every buffer free, no push waiting. -/
def execCqCfg (g : Bool) (a b : Fld) (s : State) : Res :=
  cqOp s g a [b.toNat] [] fun i h q =>
    let v := i.reg b.toNat i.lo
    let waiting := s.groups.any fun g => g.frags.any fun f => match f.stall with | some (.room x _) => x == h | _ => false
    if v.toNat % 4 = 3 ∨ waiting ∨ q.bufs.any (fun x => x.st != .free) then faultEng s i i.lanes 34
    else (logOrder ((s.commit i).modSyz (hIndex h) fun q => { q with cfg := v }) i h.toNat).advance i 4 true
/-- `cq.stat` (R325). -/
def execCqStat (g : Bool) (d : BitVec 6) (a : Fld) (s : State) : Res :=
  cqOp s g a [] (pairOf d) fun i h q =>
    let rows := match q.filling with | some k => ((q.buf k).rows.filter (·.valid)).length | none => 0
    let n (x : BufState) : Nat := (q.bufs.filter fun b => b.st == x).length
    ((logOrder (s.commit i) i h.toNat).putPair i (pairFld d).toNat fun _ => mk64 (BitVec.ofNat 32 (n .taken * 2 ^ 11 + n .ready * 2 ^ 8 + rows)) q.cfg).advance i 4 true

/-- SYZYGY_TIMEOUT: the filling buffer becomes ready when its timeout has passed since its first row (R322). -/
def execSyzygyTimeout (qi : Nat) (s : State) : Res :=
  let q := s.syz qi
  .next (match q.filling with
    | some k => if q.bound && q.timeout != 0 && decide (q.timeout ≤ s.since (q.buf k).since) then s.modSyz qi fun q => q.makeReady k else s
    | none => s)

/-! ### Feeds (R326 to R328) -/

def Feed.words (f : Feed) : Nat := f.bytes / 4
def Feed.count (f : Feed) : Nat := f.tail - f.head
def Feed.size (f : Feed) : Nat := 2 ^ f.n
/-- Where the record of an index stands. -/
def Feed.at (f : Feed) (ix : Nat) : Nat := f.base + f.bytes * (ix % f.size)

/-- An instruction on a named feed, with its register block if it has one (Table 14-6). -/
def feedOp (s : State) (g : Bool) (a : Fld) (writes dests : List Nat) (block : Option (Fld × Bool)) (k : Iss → Word → Feed → State) : Res :=
  withOperands s g [a.toNat] writes [] (dests := dests) fun i => once s i 4 <|
    let h := i.reg a.toNat i.lo
    let f := s.feedQ (hIndex h)
    if !s.feedNamed (s.pasidOf i.g) h then faultEng s i i.lanes 32
    else
      match block with
      | none => k i h f
      | some (b, w) => withBlocks s i (if w then [] else [(b.toNat, f.words)]) (if w then [(b.toNat, f.words)] else []) [] none (k i h f)

/-- Records removed for the active lanes in ascending order (R326). -/
def popRecords (s : State) (i : Iss) (d : Fld) (h : Word) (f : Feed) : State :=
  let n := if f.count < i.lanes.count then f.count else i.lanes.count
  let got := (i.lanes.lanes.take n)
  withUnit s i 4 ((List.range n).map fun j => ⟨f.at (f.head + j), .read⟩) fun s =>
    let recs := (List.range n).map fun j => unitRead s i.g.core (s.pasidOf i.g) (f.at (f.head + j)) f.bytes
    let s := (got.zip recs).foldl (fun s x => (List.range f.words).foldl (fun s j =>
      s.modG i.gi fun g => g.setReg (i.phys (d.toNat + j)) (twoPowMask x.1) fun _ => BitVec.ofNat 32 (leNat ((x.2.drop (4 * j)).take 4))) s) s
    let s := s.putPred i 0 fun l => got.contains l
    let s := (f.vecs.take n).foldl (fun s v => match v with | some v => mergeG s i.gi v | none => s) s
    let s := (if n = 0 then s else acquireFills s i.gi i.fi 2).modFeed (hIndex h) fun f => { f with head := f.head + n, vecs := f.vecs.drop n }
    (logOrder (s.commit i) i h.toNat).advance i 4 true

/-- `fd.pop` (R326). -/
def execFdPop (g : Bool) (d a : Fld) (s : State) : Res :=
  feedOp s g a [] [0] (some (d, true)) fun i h f => if f.count = 0 then (s.commit i).wait i (.feed h) else popRecords s i d h f
/-- `fd.try` (R326). -/
def execFdTry (g : Bool) (d a : Fld) (s : State) : Res := feedOp s g a [] [0] (some (d, true)) fun i h f => popRecords s i d h f
/-- `fd.push` (R327). -/
def execFdPush (g : Bool) (a b : Fld) (s : State) : Res :=
  feedOp s g a [] [0] (some (b, false)) fun i h f =>
    let n := if f.size - f.count < i.lanes.count then f.size - f.count else i.lanes.count
    let put := i.lanes.lanes.take n
    if owesAccess s i then s.wait i .drain
    else
      withUnit s i 4 ((List.range n).map fun j => ⟨f.at (f.tail + j), .write⟩) fun s =>
        let s := (indexed put).foldl (fun s x => unitWrite s i.g.core (s.pasidOf i.g) (f.at (f.tail + x.1))
          ((List.range f.words).flatMap fun j => leBytes 4 (i.reg (b.toNat + j) x.2).toNat)) s
        let s := s.modFeed (hIndex h) fun f => { f with tail := f.tail + n, vecs := f.vecs ++ List.replicate n (some i.g.know) }
        (tickG (logOrder ((s.putPred i 0 fun l => put.contains l).commit i) i h.toNat) i.gi).advance i 4 true
/-- `fd.stat` (R328). -/
def execFdStat (g : Bool) (d : BitVec 6) (a : Fld) (s : State) : Res :=
  feedOp s g a (pairOf d) [] none fun i h f =>
    ((logOrder (s.commit i) i h.toNat).putPair i (pairFld d).toNat fun _ => mk64 (BitVec.ofNat 32 f.count) (BitVec.ofNat 32 (f.size - f.count))).advance i 4 true

end Sys2Proof.Machine
end

