-- ==== Sys2Proof/Machine/LaneEngine.lean ====
section
/-! DEFINITION. Sys2Proof/Machine/LaneEngine.lean: what the commands of the collision and dynamics engines share: issue (R329, R330), lane
reads and result records (R331 to R333). -/

namespace Sys2Proof.Machine

open Sys2Proof

/-! ### Issue (R330) -/

/-- The alignment fault of a command's addresses: the map or model first, then each lane's record and result. -/
def laneAddrFault (head : Nat) (recs : List (Nat × Nat × Nat)) : Option (Nat × Word × Nat) :=
  let all := (head, 64, (0x60 : Word)) :: recs.flatMap fun r => [(r.2.1, 16, (0x40 : Word)), (r.2.2, 16, 0x41)]
  match all.find? fun x => x.1 % x.2.1 != 0 with
  | some x => some (0x05, x.2.2, x.1)
  | none => (all.find? fun x => decide (2 ^ 52 ≤ x.1)).map fun x => (0x03, x.2.2, x.1)

/-- A collision or dynamics command is issued (R330): `dyn` names the engine, `op` the function code. -/
def laneCmdOp (s : State) (g : Bool) (dyn : Bool) (op : Nat) (d a b : BitVec 6) (sc : BitVec 2) (rel : BitVec 1) (k : BitVec 5) (body : Nat) : Res :=
  withOperands s g (pairOf d ++ pairOf a ++ pairOf b) [] [] fun i => once s i 8 <|
    let addr (x : BitVec 6) (l : Nat) : Nat := (i.pair (pairFld x).toNat l).toNat
    let recs := i.lanes.lanes.map fun l => (l, addr b l, addr d l)
    if (i.g.fut k.toNat).st ≠ .free then faultAt s i 0x0F i.lanes 0
    else
      match laneAddrFault (addr a i.lo) recs with
      | some (c, info, x) => faultAt s i c i.lanes info (BitVec.ofNat 64 x)
      | none =>
        let out := (if dyn then s.dyns else s.cols).filter fun c => c.core == i.g.core
        if 32 ≤ out.length then s.wait i (.engine (if dyn then 3 else 2))
        else
          let c : LaneCmd := {
            gi := i.gi, ctx := s.pasidOf i.g, core := i.g.core, op := op, lanes := i.lanes, head := addr a i.lo, recs := recs, fut := k.toNat, body := body,
            race := i.g.race, fids := i.f.fid :: i.f.before, since := s.seq, rel := rel == 1, scope := sc, id := i.g.id, clk := i.g.clk,
            know := i.g.know, pc := i.f.pc }
          let s := s.commit i
          let s := if dyn then { s with dyns := s.dyns ++ [c] } else { s with cols := s.cols ++ [c] }
          let s := s.modG i.gi fun g => { g with futures := setAt g.futures k.toNat { st := .pending, lanes := i.lanes } }
          (tickG s i.gi).advance i 8 true

/-! ### Execution -/

/-- A run of a command: what it has met, and the addresses that did not translate. -/
structure LaneRun where
  r : CmdRun
  miss : List Need := []
  /-- result records that could not be written: lane, address, ENG detail -/
  lost : List (Nat × Nat × Nat) := []

def LaneCmd.party (c : LaneCmd) (s : State) (lane : Nat) : CmdParty :=
  { pasid := c.ctx, core := c.core, block := (s.group c.gi).block, id := c.id, clk := c.clk, know := c.know, race := c.race, pc := c.pc,
    lid := (s.launchOf (s.group c.gi)).lid, lane := lane, origin := some (c.gi, c.fids, c.since),
    dead := deadPages s c.waits }

/-- The lane status of a failed access (Table 15-2). -/
def statusOf (code : Nat) : Nat := if code = 19 then 6 else 5

/-- One access of up to 16 bytes: its bytes, or the status it ends the lane with. -/
def laneGet1 (x : LaneRun) (p : CmdParty) (va len cls : Nat) (k : AccKind := .read) : LaneRun × Except Nat (List Byte) :=
  match chunkCode x.r.s p va k with
  | .error c => ({ x with miss := x.miss ++ [⟨va, k⟩] }, .error (statusOf c))
  | .ok _ =>
    let y := engineRead x.r p va len cls
    match y.2 with
    | some bs => ({ x with r := y.1 }, .ok bs)
    | none => ({ x with r := { y.1 with err := x.r.err } }, .error 6)
/-- n bytes in pieces of at most 16. -/
def laneGet (x : LaneRun) (p : CmdParty) (cls : Nat) : Nat → Nat → Nat → LaneRun × Except Nat (List Byte)
  | 0, _, _ => (x, .ok [])
  | fuel + 1, va, len =>
    if len = 0 then (x, .ok [])
    else
      match laneGet1 x p va (if len < 16 then len else 16) cls with
      | (x, .error e) => (x, .error e)
      | (x, .ok bs) =>
        match laneGet x p cls fuel ((va + 16) % 2 ^ 64) (len - 16) with
        | (x, .error e) => (x, .error e)
        | (x, .ok cs) => (x, .ok (bs ++ cs))
/-- A result record written in pieces of at most 16 bytes; a piece that cannot be written loses the lane's outcome (R332). -/
def lanePut (x : LaneRun) (p : CmdParty) (va : Nat) (bs : List Byte) : LaneRun :=
  let bad := (List.range ((bs.length + 15) / 16)).findSome? fun k =>
    match chunkCode x.r.s p ((va + 16 * k) % 2 ^ 64) .write with
    | .error c => some ((va + 16 * k) % 2 ^ 64, c)
    | .ok _ => none
  match bad with
  | some (a, c) => { x with miss := x.miss ++ [⟨a, .write⟩], lost := x.lost ++ [(p.lane, va, if c = 18 then 18 else 17)] }
  | none =>
    { x with r := (List.range ((bs.length + 15) / 16)).foldl (fun r k => (engineWrite r p ((va + 16 * k) % 2 ^ 64) 2 ((bs.drop (16 * k)).take 16)).1) x.r }

/-- The error that the future's first wait raises: records that could not be written, else the command's first race (R332, R257). -/
def LaneRun.deferred (x : LaneRun) : Option Deferred :=
  match x.lost.find? fun l => x.lost.all fun m => decide (l.1 ≤ m.1) with
  | none => x.r.race
  | some (_, a, c) => some { code := 0x0A, lanes := x.lost.foldl (fun m l => m ||| twoPowMask l.1) 0, addr := a, info := BitVec.ofNat 32 c }

/-- A command completes: its future is READY, with the error its first wait delivers (R331, R332). -/
def finishLane (x : LaneRun) (c : LaneCmd) : State :=
  let s := x.r.s
  if issuerGone s c.gi then (match x.deferred with | some e => if e.code = 0x0A then orphanError s c.gi e else s | none => s)
  else s.modG c.gi fun g => { g with futures := modAt g.futures c.fut fun f =>
    if f.st == .pending then { f with st := .ready, err := x.deferred, vecs := [c.know] } else f }

/-- A command is run when everything it needs translates or has finally failed (R422). -/
def runLaneCmd (s : State) (c : LaneCmd) (source : Nat) (run : State → LaneCmd → LaneRun) : State × Option (List Word) :=
  let g := s.group c.gi
  let a : Asker := ⟨c.ctx, c.core, source, (s.launchOf g).lid, c.id⟩
  match ask s a c.waits (run s c).miss with
  | (s, .wait ts) => (s, some ts)
  | (s, .go) => (finishLane (run s c) c, none)

end Sys2Proof.Machine
end

