-- ==== Sys2Proof/Machine/Dynamics.lean ====
section
/-! DEFINITION. Sys2Proof/Machine/Dynamics.lean: dynamics commands (major 0x35, chapter 15). A float that follows from the words of
R340 and R341 (Bodies.lean) is computed, every other is `Config.dynWord` of the descriptor and the state (log entry 10); what R341 derives from the floats by
a stated operation is computed. -/

namespace Sys2Proof.Machine

open Sys2Proof

/-- `dyn.fk`. -/
def execDynFk (g : Bool) (d a b : BitVec 6) (sc : BitVec 2) (e _q : BitVec 1) (k : BitVec 5) (s : State) : Res := laneCmdOp s g true 0 d a b sc e k 0
/-- `dyn.id`. -/
def execDynId (g : Bool) (d a b : BitVec 6) (sc : BitVec 2) (e _q : BitVec 1) (k : BitVec 5) (s : State) : Res := laneCmdOp s g true 1 d a b sc e k 0
/-- `dyn.fd`. -/
def execDynFd (g : Bool) (d a b : BitVec 6) (sc : BitVec 2) (e _q : BitVec 1) (k : BitVec 5) (s : State) : Res := laneCmdOp s g true 2 d a b sc e k 0
/-- `dyn.step`. -/
def execDynStep (g : Bool) (d a b : BitVec 6) (sc : BitVec 2) (e _q : BitVec 1) (k : BitVec 5) (s : State) : Res := laneCmdOp s g true 3 d a b sc e k 0
/-- `dyn.jac`. -/
def execDynJac (g : Bool) (d a b n : BitVec 6) (sc : BitVec 2) (e _q : BitVec 1) (k : BitVec 5) (s : State) : Res := laneCmdOp s g true 4 d a b sc e k n.toNat
/-- `dyn.mass`. -/
def execDynMass (g : Bool) (d a b : BitVec 6) (sc : BitVec 2) (e _q : BitVec 1) (k : BitVec 5) (s : State) : Res := laneCmdOp s g true 5 d a b sc e k 0

/-! ### Descriptors (R339) -/

/-- Is a header valid as far as it goes? -/
def headerOk (h : List Byte) : Bool :=
  bitsOf (wordAt h 0) 31 24 == 0 && bitsOf (wordAt h 0) 7 7 == 0 && leNat (h.drop 16) == 0 && decide (1 ≤ modelNj h) && decide (modelNj h ≤ 64)
/-- Is one joint record valid? -/
def jointOk (js : List Byte) (j : Nat) : Bool :=
  bitsOf (wordAt js (32 * j)) 31 16 == 0 && bitsOf (wordAt js (32 * j)) 7 2 == 0 && leNat ((js.drop (128 * j + 104)).take 24) == 0
    && jointType js j != 3 && (if j = 0 then jointParent js j == 0xFF else jointType js j != 2 && decide (jointParent js j < j))
def modelOk (h js : List Byte) : Bool :=
  let n := modelNj h
  headerOk h && (List.range n).all (jointOk js) && sumOver js n 7 == modelNq h && sumOver js n 6 == modelNv h

/-! ### Results (R340, R341) -/

/-- A float of a result, NaN canonical (R340). -/
def canonical (x : Nat) : Nat := if fp32.infMag < fp32.magOf x then fp32.nanBits else x % 2 ^ 32
/-- The free value behind result float n of an algorithm. -/
def dynFree (op body : Nat) (model state : List Byte) (n : Nat) : Word := Config.dynWord op body model state n
/-- A result float: the known one, a NaN among them, with a zero of either sign; else a free value. -/
def dynFloat (op body : Nat) (model state : List Byte) (known : List Ex) (n : Nat) : Nat :=
  match known[n]?.getD none with
  | some v => if v.isZero then fp32.join ((dynFree op body model state n).getLsbD 31) 0 else fp32.arith false v
  | none => canonical (dynFree op body model state n).toNat

/-- The links of a model. -/
def linksOf (h js st : List Byte) : List Link := (List.range (modelNj h)).map (linkOf js st)
/-- The known floats of an algorithm (R341), and for `dyn.fd` the articulated inertias. -/
def dynKnown (op body : Nat) (h js st : List Byte) : List Ex :=
  let nq := modelNq h
  let nv := modelNv h
  let grav := floatsAt h 1 3
  let qd := floatsAt st nq nv
  let u := floatsAt st (nq + nv) nv
  let ls := linksOf h js st
  match op with
  | 0 => fkFloats ls
  | 1 => inAll fun f => idFloats f ls js grav qd u
  | 2 => inAll fun f => (fdFloats f ls js grav qd u).1
  | 4 => jacFloats ls body
  | _ => inAll fun f => massFloats f ls js
def dynInertias (h js st : List Byte) : List Ex :=
  let nq := modelNq h
  let nv := modelNv h
  inAll fun f => (fdFloats f (linksOf h js st) js (floatsAt h 1 3) (floatsAt st nq nv) (floatsAt st (nq + nv) nv)).2
/-- Does the articulated inertia of some joint fail (status 7, R341): it does when a known one is not positive or not finite, and does not when all are
known, positive and finite; else the device decides, also where a NaN of the state has reached an inertia, which R340 and R341 judge differently. -/
def singular (h js st : List Byte) : Bool :=
  let ds := dynInertias h js st
  let clean := (floatsAt st 0 (modelNq h + 2 * modelNv h)).all (· != some .nan)
  let pos (d : Ex) : Bool := match d with | some v => (Val.ofInt 0).lt v && v.lt (.inf false) | none => false
  if ds.any fun d => d != none && (clean || d != some .nan) && !pos d then true else if ds.all pos then false else Config.dynSingular 2 (h ++ js) st

/-- The new pose of a free joint: p + dt·(R v′), and h + (dt/2)·h ⊗ (ω′, 0) normalised by rsqrt of its squared norm. R341 does not say where the sums
round between p or h and its increment: a coordinate is known where one rounding and two agree. -/
def freeStep (dt : Ex) (pose rates : List Ex) : List Ex :=
  let h := pose.drop 3
  let hv := h.take 3
  let hw : Ex := h[3]?.getD none
  let w := rates.take 3
  let sum (p k x : Ex) : Ex := Ex.agree (Ex.fma k x p) (Ex.add p (Ex.mul k x))
  let pos := List.zipWith (fun p x => sum p dt x) (pose.take 3) (matVec (transpose 3 (quatRot h)) (rates.drop 3))
  let prod := agreeVec (addVec (scaleVec hw w) (cross hv w)) (List.zipWith (Ex.fma hw) w (cross hv w)) ++ [(rDot hv w).neg]
  let half := Ex.mul dt Ex.half
  let g := List.zipWith (fun p x => sum p half x) h prod
  let r := (rDot g g).bind fun n => Ex.ofBits (fspec 1 false (fp32.arith false n))
  pos ++ g.map (Ex.mul r)

/-- The step of one joint (R341): a revolute or prismatic coordinate is one fma. -/
def stepQ (h js st : List Byte) (qdNew : List Nat) : List Nat :=
  (List.range (modelNj h)).flatMap fun j =>
    let q := coordAt js j 7
    let dt := wordAt st (modelNq h + 2 * modelNv h)
    if jointType js j = 2 then
      let known := freeStep (Ex.ofBits dt) (floatsAt st q 7) (((qdNew.drop (coordAt js j 6)).take 6).map Ex.ofBits)
      (List.range 7).map fun k => dynFloat 3 0 (h ++ js) st (List.replicate q none ++ known) (q + k)
    else [fp32.fmaOp false dt (qdNew[coordAt js j 6]?.getD 0) (wordAt st q)]

/-- The floats of a completed lane (Table 15-7). -/
def dynResult (op body : Nat) (h js st : List Byte) : List Nat :=
  let nv := modelNv h
  let nq := modelNq h
  let m := h ++ js
  match op with
  | 0 => (List.range (12 * modelNj h)).map (dynFloat 0 0 m st (dynKnown 0 0 h js st))
  | 1 => (List.range nv).map (dynFloat 1 0 m st (dynKnown 1 0 h js st))
  | 2 => (List.range nv).map (dynFloat 2 0 m st (dynKnown 2 0 h js st))
  | 3 =>
    -- the state of `dyn.fd` is q, qd and u
    let fd := st.take (4 * (nq + 2 * nv))
    let dt := wordAt st (nq + 2 * nv)
    let known := dynKnown 2 0 h js fd
    let qd := (List.range nv).map fun k => fp32.fmaOp false dt (dynFloat 2 0 m fd known k) (wordAt st (nq + k))
    stepQ h js st qd ++ qd
  | 4 => (List.range (6 * nv)).map (dynFloat 4 body m st (dynKnown 4 body h js st))
  | _ =>
    let known := dynKnown 5 0 h js st
    (List.range (nv * nv)).map fun n =>
      let r := n / nv
      let c := n % nv
      dynFloat 5 0 m st known (if r ≤ c then n else c * nv + r)

/-- Result floats of a command, and the floats of state that it reads (Table 15-7). -/
def dynCount (op nq nv nj : Nat) : Nat :=
  match op with
  | 0 => 12 * nj | 1 => nv | 2 => nv | 3 => nq + nv | 4 => 6 * nv | _ => nv * nv
def dynReads (op nq nv : Nat) : Nat :=
  match op with
  | 0 => nq | 1 => nq + 2 * nv | 2 => nq + 2 * nv | 3 => nq + 2 * nv + 1 | _ => nq

/-- A lane that ended with a status: every result float is the canonical NaN (Table 15-2). -/
def dynStatus (n floats : Nat) : List Byte := leBytes 16 n ++ (List.replicate floats (leBytes 4 fp32.nanBits)).flatten

/-- One lane. -/
def dynLane (c : LaneCmd) (h js : List Byte) (x : LaneRun) (p : CmdParty) (b : Nat) : LaneRun × List Byte :=
  let n := dynCount c.op (modelNq h) (modelNv h) (modelNj h)
  if c.op = 4 ∧ modelNj h ≤ c.body then (x, dynStatus 2 n)
  else
    match laneGet x p 2 256 b (4 * dynReads c.op (modelNq h) (modelNv h)) with
    | (x, .error e) => (x, dynStatus e n)
    | (x, .ok st) =>
      let fd := if c.op = 3 then st.take (4 * (modelNq h + 2 * modelNv h)) else st
      if (c.op = 2 ∨ c.op = 3) ∧ singular h js fd then (x, dynStatus 7 n)
      else (x, leBytes 16 0 ++ (dynResult c.op c.body h js st).flatMap (leBytes 4))

/-- A whole command: the descriptor once, then the lanes in any order (R331, R339, R340). -/
def runDynamics (s : State) (c : LaneCmd) : LaneRun :=
  let p0 := c.party s (lowLane c.lanes)
  let (s, recs) := s.mixed c.recs
  let all (x : LaneRun) (rec_ : List Byte) : LaneRun := recs.foldl (fun x l => lanePut x (c.party s l.1) l.2.2 rec_) x
  match laneGet { r := { s := s } } p0 2 4 c.head 64 with
  | (x, .error e) => all x (dynStatus e 0)
  | (x, .ok h) =>
    let n := dynCount c.op (modelNq h) (modelNv h) (modelNj h)
    if !headerOk h then all x (dynStatus 1 n)
    else
      match laneGet x p0 2 512 ((c.head + 64) % 2 ^ 64) (128 * modelNj h) with
      | (x, .error e) => all x (dynStatus e n)
      | (x, .ok js) =>
        if !modelOk h js then all x (dynStatus 1 n)
        else recs.foldl (fun x l => let p := c.party s l.1; let y := dynLane c h js x p l.2.1; lanePut y.1 p l.2.2 y.2) x

/-- DYNAMICS_COMMAND_COMPLETE: the n-th outstanding command writes its records and its future becomes READY, or it waits for the host
(R331, R332). -/
def execDynamicsCommandComplete (n : Nat) (s : State) : Res :=
  .next (match s.dyns[n]? with
    | none => s
    | some c =>
      match runLaneCmd s c 2 runDynamics with
      | (s, some ts) => { s with dyns := modAt s.dyns n fun c => { c with waits := ts } }
      | (s, none) => dropFailed { s with dyns := dropAt s.dyns n })

end Sys2Proof.Machine
end

