-- ==== Sys2Proof/Machine/Geometry.lean ====
section
/-! DEFINITION. Sys2Proof/Machine/Geometry.lean: collision commands (major 0x34, chapter 15): the occupancy octree, queries, map update. The
engine's own arithmetic is open within the bounds of R336: the model takes the value of `Config.geoWord` (log entry 11) where R336
admits it, and a value it does admit otherwise. -/

namespace Sys2Proof.Machine

open Sys2Proof

/-! ### GEO (R329, R330) -/

/-- `col.ray`. -/
def execColRay (g : Bool) (d a b : BitVec 6) (sc : BitVec 2) (e _q : BitVec 1) (k : BitVec 5) (s : State) : Res := laneCmdOp s g false 0 d a b sc e k 0
/-- `col.sph`. -/
def execColSph (g : Bool) (d a b : BitVec 6) (sc : BitVec 2) (e _q : BitVec 1) (k : BitVec 5) (s : State) : Res := laneCmdOp s g false 1 d a b sc e k 0
/-- `col.box`. -/
def execColBox (g : Bool) (d a b : BitVec 6) (sc : BitVec 2) (e _q : BitVec 1) (k : BitVec 5) (s : State) : Res := laneCmdOp s g false 2 d a b sc e k 0
/-- `col.sweep`. -/
def execColSweep (g : Bool) (d a b : BitVec 6) (sc : BitVec 2) (e _q : BitVec 1) (k : BitVec 5) (s : State) : Res := laneCmdOp s g false 3 d a b sc e k 0
/-- `col.dist`. -/
def execColDist (g : Bool) (d a b : BitVec 6) (sc : BitVec 2) (e _q : BitVec 1) (k : BitVec 5) (s : State) : Res := laneCmdOp s g false 4 d a b sc e k 0
/-- `col.upd` (R337). -/
def execColUpd (g : Bool) (d a b : BitVec 6) (sc : BitVec 2) (e _q : BitVec 1) (k : BitVec 5) (s : State) : Res := laneCmdOp s g false 5 d a b sc e k 0

/-! ### Exact numbers -/

/-- A finite value as a rational. -/
def Val.rat : Val → Rat
  | .fin neg m e =>
    let x : Rat := if 0 ≤ e then ((m * 2 ^ e.toNat : Nat) : Rat) else (m : Rat) / ((2 ^ (-e).toNat : Nat) : Rat)
    if neg then -x else x
  | _ => 0
/-- The FP32 encoding nearest to a rational, ties to even. -/
def ratBits (x : Rat) : Nat :=
  let n := x.num.natAbs * 2 ^ 200
  fp32.arith false (sticky (decide (x < 0)) (n / x.den) (n % x.den == 0) (-200))
/-- Is an FP32 encoding finite; its value. -/
def finiteBits (x : Nat) : Bool := decide (fp32.magOf x < fp32.infMag)
def bitsRat (x : Nat) : Rat := Val.rat (fp32.value x)

/-- A closed box by its low and high corner on each axis. -/
abbrev Box := List (Rat × Rat)
/-- A box enlarged on every side. -/
def Box.grow (b : Box) (e : Rat) : Box := List.map (fun p => (p.1 - e, p.2 + e)) b
/-- Squared distance of a point from a box. -/
def Box.dist2 (b : Box) (p : List Rat) : Rat :=
  (List.zip b p).foldl (fun n x => let d := if x.2 < x.1.1 then x.1.1 - x.2 else if x.1.2 < x.2 then x.2 - x.1.2 else 0; n + d * d) 0

/-- The parameters in [0, top] at which P + tQ lies in a box: their least and greatest, if any. -/
def raySpan (b : Box) (p q : List Rat) (top : Option Rat) : Option (Rat × Option Rat) :=
  (List.zip b (List.zip p q)).foldl (fun r x => match r with
    | none => none
    | some (lo, hi) =>
      let pk := x.2.1
      let qk := x.2.2
      if qk = 0 then (if x.1.1 ≤ pk ∧ pk ≤ x.1.2 then some (lo, hi) else none)
      else
        let u := (x.1.1 - pk) / qk
        let v := (x.1.2 - pk) / qk
        let l := if u < v then u else v
        let h := if u < v then v else u
        let lo := if lo < l then l else lo
        let hi := match hi with | none => some h | some y => some (if h < y then h else y)
        match hi with | some y => if y < lo then none else some (lo, hi) | none => some (lo, hi)) (some (0, top))

/-- The point P + s(Q - P). -/
def along (p q : List Rat) (t : Rat) : List Rat := (List.zip p q).map fun x => x.1 + t * (x.2 - x.1)
/-- Parameters of [0, y] where the squared distance from a box to the moving point may be least: the ends, the crossings of its faces,
and the vertex of each quadratic piece between them. -/
def sweepStops (b : Box) (p q : List Rat) (y : Rat) : List Rat :=
  let cross := (List.zip b (List.zip p q)).flatMap fun x =>
    let d := x.2.2 - x.2.1
    if d = 0 then [] else [(x.1.1 - x.2.1) / d, (x.1.2 - x.2.1) / d]
  let cuts := ((0 :: y :: cross).filter fun t => decide (0 ≤ t) && decide (t ≤ y)).mergeSort
  let f (t : Rat) : Rat := b.dist2 (along p q t)
  cuts ++ (cuts.zip (cuts.drop 1)).filterMap fun c =>
    let w := c.2 - c.1
    let m := (c.1 + c.2) / 2
    let curve := f c.1 + f c.2 - 2 * f m
    if w = 0 ∨ curve = 0 then none
    else
      let t := m - (f c.2 - f c.1) * w / (4 * curve)
      if c.1 ≤ t ∧ t ≤ c.2 then some t else none
/-- Does the ball of squared radius r2 meet the box at some parameter of [0, y]? -/
def sweepReach (b : Box) (p q : List Rat) (r2 y : Rat) : Bool := decide (0 ≤ y) && (sweepStops b p q y).any fun t => decide (b.dist2 (along p q t) ≤ r2)

/-! ### Queries (R336) -/

/-- A query record: function code, P, Q, S (`none` for an infinite S). -/
structure Query where
  op : Nat
  p : List Rat
  q : List Rat
  r : Option Rat

def Query.rad (q : Query) : Rat := q.r.getD 0
/-- Does a box meet the query with its VALUE at or below a bound (no bound for the queries without a VALUE)? -/
def Query.reach (q : Query) (b : Box) (y : Option Rat) : Bool :=
  match q.op with
  | 0 =>
    let top := match q.r, y with | none, t => t | some r, none => some r | some r, some t => some (if r < t then r else t)
    (match top with | some t => decide (0 ≤ t) | none => true) && (raySpan b q.p q.q top).isSome
  | 1 => decide (b.dist2 q.p ≤ q.rad * q.rad)
  | 2 => (List.zip b (List.zip q.p q.q)).all fun x => decide (x.1.1 ≤ x.2.1 + x.2.2) && decide (x.2.1 - x.2.2 ≤ x.1.2)
  | 3 => sweepReach b q.p q.q (q.rad * q.rad) (match y with | some t => if t < 1 then t else 1 | none => 1)
  | _ =>
    let r := match y with | some t => if t < q.rad then t else q.rad | none => q.rad
    decide (0 ≤ r) && decide (b.dist2 q.p ≤ r * r)
/-- Has the query a VALUE? -/
def Query.valued (q : Query) : Bool := q.op != 1 && q.op != 2

/-- A bound on the least VALUE of a box that meets the query, by doubling and then halving: never below it. -/
def upFrom (q : Query) (b : Box) : Nat → Rat → Rat
  | 0, y => y
  | n + 1, y => if q.reach b (some y) then y else upFrom q b n (2 * y)
def halve (q : Query) (b : Box) : Nat → Rat → Rat → Rat
  | 0, _, hi => hi
  | n + 1, lo, hi => let m := (lo + hi) / 2; if q.reach b (some m) then halve q b n lo m else halve q b n m hi
def Query.least (q : Query) (b : Box) : Rat :=
  if q.reach b (some 0) then 0 else let hi := upFrom q b 300 (1 / 2 ^ 40); halve q b 80 0 hi

/-- A fixed-point square root, rounded down. -/
def ratSqrt (x : Rat) : Rat := if x ≤ 0 then 0 else (isqrt ((x.num.natAbs * 2 ^ 200) / x.den) : Nat) / ((2 ^ 100 : Nat) : Rat)

/-! ### Maps (R334, R335) -/

/-- A map header. -/
structure Map where
  nodes : Nat
  depth : Nat
  origin : List Rat
  size : Rat
  ncount : Nat
  unkocc : Bool
  /-- ORIGIN is not finite: where its voxels lie is open -/
  astray : Bool := false

def leAt (bs : List Byte) (k n : Nat) : Nat := leNat ((bs.drop k).take n)
/-- The header, if valid. -/
def mapOf (bs : List Byte) : Option Map :=
  let w := leAt bs 0 8
  let o := [leAt bs 8 4, leAt bs 12 4, leAt bs 16 4]
  let sz := leAt bs 20 4
  if bitsOf w 63 56 ≠ 0 ∨ leAt bs 28 4 ≥ 2 ∨ leAt bs 32 32 ≠ 0 ∨ bitsOf w 51 0 % 64 ≠ 0 ∨ !finiteBits sz ∨ bitsRat sz ≤ 0 ∨ leAt bs 24 4 = 0 then none
  else some { nodes := bitsOf w 51 0, depth := bitsOf w 55 52 + 1, origin := o.map bitsRat, size := bitsRat sz, ncount := leAt bs 24 4,
              unkocc := leAt bs 28 4 == 1, astray := o.any fun x => !finiteBits x }

/-- The cube of a voxel. -/
def Map.box (m : Map) (level : Nat) (key : List Nat) : Box :=
  let w := m.size / ((2 ^ level : Nat) : Rat)
  (m.origin.zip key).map fun x => (x.1 + w * (x.2 : Nat), x.1 + w * ((x.2 + 1 : Nat) : Rat))
def Map.eps (m : Map) : Rat := m.size / ((2 ^ 20 : Nat) : Rat)
/-- Does a voxel meet a query, enlarged by ε or as it is? Under an ORIGIN that is not finite the spec gives no answer: the device's choice (log entry 11). -/
def Map.meets (m : Map) (q : Query) (level : Nat) (key : List Nat) (grown : Bool) : Bool :=
  if m.astray then Config.stale (key.foldl (fun n k => n * 2 ^ 17 + k) (2 * level + if grown then 1 else 0))
  else q.reach (if grown then (m.box level key).grow m.eps else m.box level key) none
/-- Is a node word valid at its place in a walk; the state of a child; the rank of a mixed child (R335)? -/
def nodeOk (w level : Nat) : Bool := bitsOf w 31 20 == 0 && bitsOf w 19 16 == level
def cstate (w c : Nat) : Nat := w / 4 ^ c % 4
def mixedRank (w c : Nat) : Nat := ((List.range c).filter fun k => cstate w k == 3).length
/-- The status of a mixed child at the leaf level: past level 16, or not. -/
def tooDeep (m : Map) : Nat := if m.depth = 16 then 3 else 1

/-- A hit voxel that a walk met: level, key, state, and whether its own cube meets the query, or only the enlarged one. -/
structure Hit where
  level : Nat
  key : List Nat
  cls : Nat
  exact : Bool

/-- A walk so far: the run, the node words read, hits in depth-first order, a status that ended it, and whether it may stop. -/
structure Walk where
  x : LaneRun
  words : List Byte := []
  hits : List Hit := []
  status : Nat := 0
  ended : Bool := false

/-- The node word of an index, or the status that ends the walk. -/
def readNode (x : LaneRun) (p : CmdParty) (m : Map) (ix level : Nat) : LaneRun × Except Nat Nat :=
  if m.ncount ≤ ix then (x, .error 1)
  else
    match laneGet1 x p ((m.nodes + 64 * ix) % 2 ^ 64) 8 1 with
    | (x, .error e) => (x, .error e)
    | (x, .ok bs) => if nodeOk (leNat bs) level then (x, .ok (leNat bs)) else (x, .error 1)

/-- The walk below a node: children in ascending order whose enlarged cubes meet the query; a query without a VALUE ends at its first
exact hit. The fuel is the levels that are left. -/
def walkNode (p : CmdParty) (m : Map) (q : Query) : Nat → Nat → Nat → List Nat → Walk → Walk
  | 0, _, _, _, w => { w with status := 1, ended := true }
  | fuel + 1, ix, level, key, w =>
    match readNode w.x p m ix level with
    | (x, .error e) => { w with x := x, status := e, ended := true }
    | (x, .ok node) =>
      (List.range 8).foldl (fun w c =>
        let st := cstate node c
        let k := (key.zip [c % 2, c / 2 % 2, c / 4]).map fun z => 2 * z.1 + z.2
        if w.ended || !m.meets q (level + 1) k true then w
        else if st = 3 then
          (if m.depth ≤ level + 1 then { w with status := tooDeep m, ended := true }
           else walkNode p m q fuel (bitsOf node 63 32 + mixedRank node c) (level + 1) k w)
        else if st = 1 ∨ (st = 2 ∧ m.unkocc) then
          let exact := m.meets q (level + 1) k false
          { w with hits := w.hits ++ [⟨level + 1, k, st, exact⟩], ended := exact && !q.valued }
        else w) { w with x := x, words := w.words ++ leBytes 8 node }

/-- The query and the box that give a hit its VALUE: its own cube. The distance to a cube that only its enlargement brings within S lies a little beyond S; a ray
or a sweep that meets the enlarged cube alone has no VALUE for the cube itself, and takes that of the enlarged one (log entry 11). -/
def Map.measure (m : Map) (q : Query) (h : Hit) : Query × Box :=
  let b := m.box h.level h.key
  if h.exact then (q, b) else if q.op = 4 then ({ q with r := some (q.rad + 2 * m.eps) }, b) else (q, b.grow m.eps)
/-- The exact VALUE of a hit. -/
def Map.valueAt (m : Map) (q : Query) (h : Hit) : Rat := (m.measure q h).1.least (m.measure q h).2
/-- The hits that R336 lets the engine report: for a VALUE, those whose enlarged cube comes no later than every exact hit; without one,
those up to the first exact hit. -/
def admissible (m : Map) (q : Query) (hits : List Hit) : List Hit :=
  let exact := hits.filter (·.exact)
  if exact.isEmpty || m.astray || !q.valued then hits
  else
    let best := exact.foldl (fun (b : Option Rat) h => let v := q.least (m.box h.level h.key); match b with | none => some v | some y => some (if v < y then v else y)) none
    hits.filter fun h => q.reach ((m.box h.level h.key).grow m.eps) best

/-- The VALUE of a reported voxel: the engine's, where it lies within the bound of R336, else the nearest FP32. -/
def valueOf (m : Map) (q : Query) (h : Hit) (proposal : Nat) : Nat :=
  let (near, b) := m.measure q h
  let tol := if q.op = 0 then ratSqrt (m.eps * m.eps / (q.q.foldl (fun n x => n + x * x) 0)) else m.eps
  let x := bitsRat proposal
  if m.astray then proposal % 2 ^ 32
  else if finiteBits proposal && decide (0 ≤ x) && near.reach b (some (x + tol)) && !(decide (0 ≤ x - tol) && near.reach b (some (x - tol)) && decide (x ≠ 0)) then proposal
  else ratBits (near.least b)

/-- The hit that a lane reports: of those that tie in VALUE with the one picked the first in depth-first order. -/
def firstTie (m : Map) (q : Query) (hits : List Hit) (h : Hit) : Hit :=
  if !q.valued || m.astray then h else (hits.find? fun x => m.valueAt q x == m.valueAt q h).getD h

/-- A result record of a lane that found a voxel, or did not (R336). LEVEL has four bits, of which a level of 16 leaves 0 (log entry 68). -/
def hitRecord (h : Option Hit) (value : Nat) (dist : Bool) : List Byte :=
  match h with
  | none => leBytes 4 0 ++ leBytes 4 (if dist then fp32.infMag else 0) ++ leBytes 8 0
  | some h =>
    let k (n : Nat) : Nat := h.key[n]?.getD 0
    leBytes 4 (256 + h.cls * 512 + h.level % 16 * 65536) ++ leBytes 4 value ++ leBytes 4 (k 0 + 65536 * k 1) ++ leBytes 4 (k 2)
/-- A lane that ended with a status. -/
def statusRecord (n : Nat) : List Byte := leBytes 16 n

/-- A query record read (R336): its status, or the query. -/
def queryOf (op : Nat) (bs : List Byte) : Except Nat Query :=
  let w (k : Nat) : Nat := leAt bs (4 * k) 4
  let P := [w 0, w 1, w 2]
  let Q := [w 3, w 4, w 5]
  let usesQ := op = 0 ∨ op = 2 ∨ op = 3
  let usesS := op ≠ 2
  let infS := op = 0 && w 6 == fp32.infMag
  if P.any (fun x => !finiteBits x) ∨ (usesQ ∧ Q.any fun x => !finiteBits x) ∨ (usesS ∧ !infS ∧ !finiteBits (w 6)) ∨ (usesS ∧ !infS ∧ bitsRat (w 6) < 0)
    ∨ (op = 2 ∧ Q.any fun x => decide (bitsRat x < 0)) ∨ (op = 0 ∧ Q.all fun x => bitsRat x == 0) then .error 2
  else .ok { op := op, p := P.map bitsRat, q := if usesQ then Q.map bitsRat else [0, 0, 0], r := if infS then none else if usesS then some (bitsRat (w 6)) else some 0 }

/-- One lane of a query. -/
def queryLane (c : LaneCmd) (m : Map) (head : List Byte) (x : LaneRun) (p : CmdParty) (b : Nat) : LaneRun × List Byte :=
  match laneGet x p 2 4 b 32 with
  | (x, .error e) => (x, statusRecord e)
  | (x, .ok bs) =>
    match queryOf c.op bs with
    | .error e => (x, statusRecord e)
    | .ok q =>
      let w := walkNode p m q m.depth 0 0 [0, 0, 0] { x := x }
      if w.status ≠ 0 then (w.x, statusRecord w.status)
      else
        let pick (n : Nat) : Nat := (Config.geoWord c.op (head ++ w.words) bs n).toNat
        let hits := admissible m q w.hits
        let none_ := !w.hits.any (·.exact) && pick 0 % 2 == 0
        match (if none_ then none else hits[pick 1 % (if hits.isEmpty then 1 else hits.length)]?) with
        | none => (w.x, hitRecord none 0 (c.op == 4))
        | some h => let h := firstTie m q hits h; (w.x, hitRecord (some h) (if q.valued then valueOf m q h (pick 2) else 0) false)

/-! ### Map update (R337, R338) -/

/-- The child that holds a leaf voxel below a node of a level. -/
def childOf (m : Map) (level : Nat) (key : List Nat) : Nat :=
  let bit (n : Nat) : Nat := (key[n]?.getD 0) / 2 ^ (m.depth - 1 - level) % 2
  bit 0 + 2 * bit 1 + 4 * bit 2

/-- The walk of an update to the node at level DEPTH - 1: its index and word, or a status. -/
def walkUpd (p : CmdParty) (m : Map) (key : List Nat) : Nat → Nat → Nat → LaneRun → LaneRun × Except Nat (Nat × Nat)
  | 0, _, _, x => (x, .error 1)
  | fuel + 1, ix, level, x =>
    match readNode x p m ix level with
    | (x, .error e) => (x, .error e)
    | (x, .ok w) =>
      let c := childOf m level key
      if level + 1 = m.depth then (x, if cstate w c = 3 then .error (tooDeep m) else .ok (ix, w))
      else if cstate w c ≠ 3 then (x, .error 4)
      else walkUpd p m key fuel (bitsOf w 63 32 + mixedRank w c) (level + 1) x

/-- A node's state field written at its home as one access of class 1, and logged for replay (R338, Table 17-5). -/
def setChild (x : LaneRun) (p : CmdParty) (m : Map) (ix w c st : Nat) : LaneRun × Nat :=
  let va := (m.nodes + 64 * ix) % 2 ^ 64
  let new := w - cstate w c * 4 ^ c + st * 4 ^ c
  match chunkCode x.r.s p (va + c / 4) .atomic with
  | .error e => ({ x with miss := x.miss ++ [⟨va, .atomic⟩] }, statusOf e)
  | .ok (pa, xl) =>
    let r := engineRace x.r p xl (va + c / 4) pa 1 true 1
    let s := dropL1 ((r.l2 p xl true pa).s.writeMem pa (leBytes 1 (new / 256 ^ (c / 4)))) p.core pa 1
    let s := s.replayLog p.pasid 5 p.id (leBytes 8 va ++ leBytes 8 new)
    ({ x with r := { r with s := s } }, 0)

/-- One lane of an update. -/
def updLane (m : Map) (x : LaneRun) (p : CmdParty) (b : Nat) : LaneRun × List Byte :=
  match laneGet1 x p b 8 2 with
  | (x, .error e) => (x, statusRecord e)
  | (x, .ok bs) =>
    let key := [leAt bs 0 2, leAt bs 2 2, leAt bs 4 2]
    let st := leAt bs 6 1 % 4
    if st = 3 ∨ key.any fun k => decide (2 ^ m.depth ≤ k) then (x, statusRecord 2)
    else
      match walkUpd p m key m.depth 0 0 x with
      | (x, .error e) => (x, statusRecord e)
      | (x, .ok (ix, w)) => let y := setChild x p m ix w (childOf m (m.depth - 1) key) st; (y.1, statusRecord y.2)

/-- A whole command: the header once, then the lanes, those of `col.upd` in ascending order and others in any (R331, R334, R337). -/
def runCollision (s : State) (c : LaneCmd) : LaneRun :=
  let p0 := c.party s (lowLane c.lanes)
  let (s, recs) := if c.op = 5 then (s, c.recs) else s.mixed c.recs
  match laneGet { r := { s := s } } p0 2 4 c.head 64 with
  | (x, .error e) => recs.foldl (fun x l => lanePut x (c.party s l.1) l.2.2 (statusRecord e)) x
  | (x, .ok head) =>
    match mapOf head with
    | none => recs.foldl (fun x l => lanePut x (c.party s l.1) l.2.2 (statusRecord 1)) x
    | some m =>
      recs.foldl (fun x l =>
        let p := c.party s l.1
        let y := if c.op = 5 then updLane m x p l.2.1 else queryLane c m head x p l.2.1
        lanePut y.1 p l.2.2 y.2) x

/-- COLLISION_COMMAND_COMPLETE: the n-th outstanding command writes its records and its future becomes READY, or it waits for the host
to resolve a translation (R331, R332). -/
def execCollisionCommandComplete (n : Nat) (s : State) : Res :=
  .next (match s.cols[n]? with
    | none => s
    | some c =>
      match runLaneCmd s c 1 runCollision with
      | (s, some ts) => { s with cols := modAt s.cols n fun c => { c with waits := ts } }
      | (s, none) => dropFailed { s with cols := dropAt s.cols n })

end Sys2Proof.Machine
end

