-- ==== Sys2Proof/Machine/Fetch.lean ====
section
/-! DEFINITION. Sys2Proof/Machine/Fetch.lean: fetching instruction words, and the two steps of a fragment whose fetch or decode fails (R61,
R63, R89, R220, R369). -/

namespace Sys2Proof.Machine

open Sys2Proof

/-- The copy of a line of code that a core's instruction cache holds. -/
def iLine (s : State) (core pasid va : Nat) : Option ILine :=
  s.icache.find? fun x => x.core == core && x.pasid == pasid && x.gen == (s.ctx pasid).gen && x.line == va / 64

/-- One word of code: its bytes, or the fault code. A cached copy that differs from memory may serve until an invalidation (R220, R369;
log entry 5). -/
def fetchWord (s : State) (core pasid va : Nat) : Except Nat Word :=
  match access s core pasid va .fetch with
  | .error e => .error e.1
  | .ok (pa, _) =>
    let now := s.mem.read pa 4
    match iLine s core pasid va with
    | none => .ok (BitVec.ofNat 32 (leNat now))
    | some x =>
      let old := (x.bytes.drop (va % 64)).take 4
      .ok (BitVec.ofNat 32 (leNat (if old = now then now else if Config.stale (s.oracle 3 va) then old else now)))

/-- A fetch leaves its line in the core's instruction cache and its page in the TLB; a copy that another line's bytes have made stale
stays until it is invalidated. -/
def fetchFill (s : State) (core pasid va : Nat) : State :=
  let s := fillTlb s core pasid [va]
  match access s core pasid va .fetch, iLine s core pasid va with
  | .ok (pa, _), none => { s with icache := ⟨core, pasid, (s.ctx pasid).gen, va / 64, s.mem.read (pa / 64 * 64) 64⟩ :: s.icache }
  | _, _ => s

/-- ILLEGAL_INSTRUCTION: ILL with the detail of Table 4-4; TRAPADDR holds the first word and, where it was fetched, the second (R90),
and TRAPMASK is Lanes() as bit 25 of the first word defines it (R89). -/
def execIllegalInstruction (w0 w1 : Word) (detail : Nat) (s : State) : Res :=
  withIss s (w0.getLsbD 25) fun i => faultAt s i 0x01 i.lanes (BitVec.ofNat 32 detail) (w1 ++ w0)

/-- INSTRUCTION_FETCH_FAULT: PAGE or PROT at the fragment's PC, with its whole AMASK (R63). -/
def execInstructionFetchFault (code addr : Nat) (s : State) : Res :=
  withIss s false fun i => faultAt s i code i.f.amask 0 (BitVec.ofNat 64 addr)

end Sys2Proof.Machine
end

