-- ==== Sys2Proof/Machine/Trap.lean ====
section
/-! DEFINITION. Sys2Proof/Machine/Trap.lean: trap instructions, handlers, system calls, liveness points and the steps of a halt (majors 0x36
and 0x37, chapter 16; R368, R405, R406). -/

namespace Sys2Proof.Machine

open Sys2Proof

/-! ### trap, brk (R351) -/

/-- `trap` (R351): code TRAP, TRAPPC the next instruction. -/
def execTrap (g : Bool) (n : BitVec 14) (s : State) : Res :=
  withOperands s g [] [] [] fun i => once s i 4 <| takeStop s i.gi i.fi ⟨0x0B, i.pcN + 4, 0, i.lanes, n.setWidth 32⟩
/-- `brk` (R351): code BRK, TRAPPC the `brk` itself. -/
def execBrk (g : Bool) (n : BitVec 14) (s : State) : Res :=
  withOperands s g [] [] [] fun i => once s i 4 <| faultAt s i 0x0C i.lanes (n.setWidth 32)

/-! ### Writes of Chovis to rings (R353, R405, R406) -/

/-- An entry that Chovis appends to a ring: its bytes, then WIDX. -/
def chovisPut (s : State) (base n e : Nat) (bs : List Byte) : State :=
  let w := s.mem.le base 8
  (s.outsideWrite (base + 64 + e * (w % 2 ^ n)) bs).outsideWrite base (leBytes 8 (w + 1))

/-- The n-th record of Chovis is written and its interrupt raised, or held while the ring is full. Without the ring only the interrupt is
raised (R405, R406). -/
def putRecord (s : State) (n : Nat) : State :=
  match s.chovis[n]? with
  | none => s
  | some r =>
    let (base, k) := (s.ctx r.ctx).ring r.ring
    let gone : State := { s with chovis := dropAt s.chovis n }
    if !(s.ctx r.ctx).alive then gone
    else if base = 0 then gone.interrupt r.src 0 r.ctx
    else if s.ringRoom base k = 0 then { s with chovis := modAt s.chovis n fun r => { r with held := true } }
    else (chovisPut gone base k 64 r.bytes).interrupt r.src 0 r.ctx

/-- CHOVIS_FAULT_RECORD: Chovis writes a fault or debug record (R368, R405). -/
def execChovisFaultRecord (n : Nat) (s : State) : Res := .next (putRecord s n)

/-! ### sys (R352 to R354) -/

/-- The request record (Table 16-3), padded to the entry with REPLY = 0. -/
def sysBytes (s : State) (i : Iss) (a : Fld) (sv : BitVec 5) (w : Nat) : List Byte :=
  let words := laneNums.flatMap fun l => (List.range w).flatMap fun j => leBytes 4 (if i.lanes.has l then (i.reg (a.toNat + j) l).toNat else 0)
  leBytes 4 (i.lanes.toNat + sv.toNat * 2 ^ 16 + (w - 1) * 2 ^ 21) ++ leBytes 4 (s.launchOf i.g).lid.toNat ++ leBytes 4 i.g.id.toNat ++ leBytes 4 0
    ++ leBytes 8 i.pcN ++ leBytes 8 s.time ++ leBytes 32 0 ++ words ++ List.replicate (512 - 64 - 64 * w) 0

/-- A request goes to the system-call ring when it has room (R353). -/
def postSys (s : State) (n : Nat) : State :=
  match s.sysreqs[n]? with
  | none => s
  | some r =>
    let (base, k) := (s.ctx r.ctx).ring 2
    if r.entry.isSome || base == 0 || s.ringRoom base k == 0 then s
    else
      let w := s.mem.le base 8
      (chovisPut { s with sysreqs := modAt s.sysreqs n fun r => { r with entry := some w } } base k 512 r.bytes).interrupt 1 0 r.ctx

/-- Has a context a system-call ring? -/
def hasSysRing (s : State) (pasid : Nat) : Bool := ((s.ctx pasid).ring 2).1 != 0

/-- `sys` (R352); in a handler only the fragment waits (R354). -/
def execSys (g : Bool) (d a : Fld) (sv : BitVec 5) (c : BitVec 2) (s : State) : Res :=
  withOperands s g (runOf a.toNat (c.toNat + 1)) [d.toNat] [] fun i => once s i 4 <|
    let s := s.commit i
    let inside := i.f.handler.isSome
    let p := s.pasidOf i.g
    if inside && i.f.stall == some (.reply i.f.fid) then s.wait i (.reply i.f.fid)
    else if inside && !hasSysRing s p then (s.putReg i d.toNat fun _ => 0xFFFFFFFF).advance i
    else
      let r : SysReq := { ctx := p, gi := i.gi, fid := i.f.fid, bytes := sysBytes s i a sv (c.toNat + 1), dreg := i.phys d.toNat, lanes := i.lanes, inHandler := inside }
      let s := { s with sysreqs := s.sysreqs ++ [r] }
      if inside then (postSys s (s.sysreqs.length - 1)).wait i (.reply i.f.fid)
      else takeStop s i.gi i.fi ⟨0x0E, i.pcN + 4, 0, i.lanes, sv.setWidth 32⟩

/-- The block of a group whose stop Chovis handles goes on with the stopping fragment at a PC (R342, R352). -/
def resumeChovis (s : State) (gi : Nat) (pc : BitVec 52) (replay : Option Mask) : State :=
  let g := s.group gi
  let s := match g.fragAt g.stopFid with
    | some fi => traceReturn (s.modF gi fi fun f =>
        { f with
          pc := pc, replay := replay, stall := none, arrival := if pc = f.pc then f.arrival else none }) gi fi pc
    | none => s
  if g.hold == .solo then s.modG gi fun g => { g with hold := .run, stopFid := 0 } else releaseOrReplay s g.block replay

/-- The replies reach D in the active lanes and the waiter goes on: an acquire at `.sys` (R352, R354). The instruction counts as issued now, and a group
that is single-stepped stops behind it (R371). -/
def finishSys (s : State) (n : Nat) (reply : Nat → Word) : State :=
  match s.sysreqs[n]? with
  | none => s
  | some r =>
    let s := { s with sysreqs := dropAt s.sysreqs n }
    let s := s.modG r.gi fun g => g.setReg r.dreg r.lanes reply
    match (s.group r.gi).fragAt r.fid with
    | none => s
    | some fi =>
      let s := acquireFills (s.modF r.gi fi fun f => { f with noisy := true, spin := false }) r.gi fi 3
      let s : State := { s with seq := s.seq + 1 }
      let s := s.modG r.gi fun g => { g with issued := g.issued + 1, issuedNow := some (g.frag fi).pc }
      if r.inHandler then
        s.modF r.gi fi fun f =>
          { f with pc := f.pc + 4, stall := none, replay := none, lastIssue := s.seq, readyAt := s.cycle (s.group r.gi).core, aged := false, waitFrom := none }
      else stepCheck (resumeChovis s r.gi (s.group r.gi).trap.pc none) r.gi r.fid ((s.group r.gi).issued - 1) false

/-- The address of a request's entry. -/
def sysEntry (s : State) (r : SysReq) (w : Nat) : Nat := let (base, k) := (s.ctx r.ctx).ring 2; base + 64 + 512 * (w % 2 ^ k)
/-- Has the host replied? -/
def sysDue (s : State) (r : SysReq) : Bool :=
  match r.entry with
  | some w => s.mem.le (sysEntry s r w + 384) 4 == 1
  | none => false
/-- SYS_REPLY: REPLY = 1 wakes Chovis (R353). -/
def execSysReply (n : Nat) (s : State) : Res :=
  .next (match s.sysreqs[n]? with
    | some r => if !sysDue s r then s else
        match r.entry with
        | some w => finishSys s n fun l => BitVec.ofNat 32 (s.mem.le (sysEntry s r w + 320 + 4 * l) 4)
        | none => s
    | none => s)

/-- May the n-th request that waits for room be written: its handler or its halted block waits for Chovis? -/
def sysPostable (s : State) (n : Nat) : Bool :=
  match s.sysreqs[n]? with
  | none => false
  | some r =>
    let (base, k) := (s.ctx r.ctx).ring 2
    let halted := match (s.blockOf (s.group r.gi)).halt with | some h => h.phase == .chovis && h.stopper == r.gi | none => false
    r.entry.isNone && base != 0 && s.ringRoom base k != 0 && (r.inHandler || halted)

/-- Is there room for the n-th record that Chovis holds; held requests of `sys` count on after the records? -/
def roomDue (s : State) (n : Nat) : Bool :=
  match s.chovis[n]? with
  | some r => r.held && (let (base, k) := (s.ctx r.ctx).ring r.ring; s.ringRoom base k != 0)
  | none => sysPostable s (n - s.chovis.length)
/-- EVENT_RING_ROOM: room has come for what Chovis holds (R406). -/
def execEventRingRoom (n : Nat) (s : State) : Res :=
  .next (if !roomDue s n then s else if n < s.chovis.length then putRecord s n else postSys s (n - s.chovis.length))

/-! ### A halt goes on (R344, R345, R349) -/

/-- SIBLING_STOP: a sibling stops within its four skid instructions and sets its trap registers (R344, R346). -/
def execSiblingStop (gi : Nat) (s : State) : Res :=
  let g := s.group gi
  .next (match (s.blockOf g).halt with
    | some h =>
      if g.hold == .skid then
        (dropWoas (s.flushGroup gi) gi).modG gi fun g => { g with hold := .stopped, trap := siblingTrap g (s.group h.stopper).id }
      else s
    | none => s)

/-- Everything the groups of a block accessed before the stop has performed and returned (R345). -/
def blockDrained (s : State) (bi : Nat) : Bool :=
  (s.groupsOf bi).all fun gi => let g := s.group gi; g.outst.isEmpty && g.xfers.isEmpty && s.unperf.all fun e => e.gi != gi

/-- Is every group of a halting block stopped, with nothing still to perform, and is the cycle of the stop over? -/
def handlerDue (s : State) (bi : Nat) : Bool :=
  match (s.block bi).halt with
  | some h => (s.block bi).place == .placed && h.phase == .stopping && h.told && (s.groupsOf bi).all (fun gi => (s.group gi).hold == .stopped || (s.group gi).hold == .solo) && blockDrained s bi
  | none => false

/-- The handler fragment: the stopping fragment becomes the trap frame (R349). -/
def startHandler (s : State) (gi : Nat) (kind : HKind) (entry : Word64) : State :=
  s.modG gi fun g =>
    match g.fragAt g.stopFid with
    | none => g
    | some fi =>
      let f := g.frag fi
      let h : Frag := { fid := g.nextFid, pc := alignPc (entry.truncate 52), amask := f.amask, fmt := f.fmt, wb := f.wb, latch := f.latch, sampled := f.sampled,
                        handler := some kind, lastIssue := s.seq, readyAt := s.cycle g.core, before := f.fid :: f.before, acquired := f.acquired }
      { g with frame := some f, frags := dropAt g.frags fi ++ [h], nextFid := g.nextFid + 1 }

/-- HANDLER_ENTRY: the handler that Table 16-1 names takes over (R342, R349, R352, R368). -/
def execHandlerEntry (bi : Nat) (s : State) : Res :=
  .next (if !handlerDue s bi then s else
    match (s.block bi).halt with
    | none => s
    | some h =>
      let g := s.group h.stopper
      let go (p : HaltPhase) (s : State) : State := s.modB bi fun b => { b with halt := b.halt.map fun h => { h with phase := p } }
      match h.target with
      | .user => go .handling (startHandler s h.stopper .user (BitVec.ofNat 64 (s.launchOf g).kernel.handler))
      | .system => go .handling (startHandler s h.stopper .system (BitVec.ofNat 64 (s.ctxOf g).sysh))
      | .chovis =>
        let s := go .chovis s
        if h.code = 0x0E then
          match findAt (fun r => r.gi == h.stopper && r.fid == g.stopFid && r.entry.isNone) s.sysreqs with
          | some n => if hasSysRing s (s.pasidOf g) then postSys s n else finishSys s n fun _ => 0xFFFFFFFF
          | none => s
        else if h.code = 0x0C ∨ h.code = 0x0D then oweRecord s h.stopper 3 (faultRecord s h.stopper 7 h.code 0)
        else oweRecord s h.stopper 1 (faultRecord s h.stopper 1 h.code 0))

/-! ### Returns (R355) -/

/-- Where `eret.r` and a host resume go on: the replay of the instruction at TRAPPC in the lanes left, or the PC behind it. -/
def replayPoint (s : State) (gi : Nat) (amask : Mask) : BitVec 52 × Option Mask :=
  let g := s.group gi
  let pc := g.trap.pc
  let m : Mask := g.trap.mask.truncate 16 &&& amask
  if m ≠ 0 then (pc, some m)
  else
    match fetchWord s g.core (s.pasidOf g) pc.toNat with
    | .error _ => (pc, none)
    | .ok w => (pc + (if isX (WordFields.ofWord w).maj then 8 else 4), none)

/-- What the three returns share: a handler fragment of the right kind with no open entry of its own. -/
def returnOp (s : State) (i : Iss) (kind : HKind) (g : Bool) (fn : BitVec 4) (replay : Bool) : State :=
  if i.f.handler ≠ some kind then faultAt s i 0x04 i.lanes 3
  else if i.f.inner.isSome then faultIll s i ⟨0x36, g, fn, 0, 0, 0⟩ 5
  else
    let s := s.advanceTo i i.f.pc
    let s := s.flushCond i.gi i.fi
    let g := s.group i.gi
    if replay then
      let (pc, m) := replayPoint s i.gi ((g.frame.map (·.amask)).getD 0)
      returnFromStop s i.gi pc m
    else returnFromStop s i.gi g.trap.pc none

/-- `eret` (R355). -/
def execEret (g : Bool) (s : State) : Res :=
  withRight s g Iss.system 3 <| withOperands s g [] [] [] fun i => once s i 4 <| returnOp s i .system g 3 false
/-- `eret.r` (R355). -/
def execEretR (g : Bool) (s : State) : Res :=
  withRight s g Iss.system 3 <| withOperands s g [] [] [] fun i => once s i 4 <| returnOp s i .system g 4 true
/-- `tret` (R355). -/
def execTret (g : Bool) (s : State) : Res :=
  withOperands s g [] [] [] fun i => once s i 4 <| returnOp s i .user g 5 false

/-! ### Liveness points (R357, R358) -/

/-- The map that the fields of a PHINT instruction give. -/
def liveMap (mh mm ml : BitVec 7) (t : BitVec 2) (r : BitVec 8) (mt : BitVec 11) : LiveMap := { map := mt ++ mh ++ mm ++ ml, smode := t, ridx := r }

/-- `phint` (R357). -/
def execPhint (g : Bool) (mh mm ml : BitVec 7) (t : BitVec 2) (r : BitVec 8) (mt : BitVec 11) (s : State) : Res :=
  withOperands s g [] [] [] fun i => once s i 8 <|
    (s.advance i 8).modF i.gi i.fi fun f => { f with map := some (liveMap mh mm ml t r mt) }
/-- `ppoint` (R358): with a request pending the group stops at the boundary behind it. -/
def execPpoint (g : Bool) (mh mm ml : BitVec 7) (t : BitVec 2) (r : BitVec 8) (mt : BitVec 11) (s : State) : Res :=
  withOperands s g [] [] [] fun i => once s i 8 <|
    let s := (s.advance i 8).modF i.gi i.fi fun f => { f with map := some (liveMap mh mm ml t r mt) }
    if i.g.preempt.isSome then s.standStill i.gi else s

end Sys2Proof.Machine
end

