-- ==== Sys2Proof/Machine/Trace.lean ====
section
/-! DEFINITION. Sys2Proof/Machine/Trace.lean: trace instructions, stall codes, the trace buffers and profile samples (major 0x38, chapter 17,
R121). -/

namespace Sys2Proof.Machine

open Sys2Proof

/-! ### TRC (R381 to R383) -/

/-- `tmark` (R381). -/
def execTmark (g : Bool) (a : Fld) (s : State) : Res :=
  withOperands s g [a.toNat] [] [] fun i => once s i 4 <|
    (s.traceFrag i.gi i.fi 0x06 (leBytes 4 (i.reg a.toNat i.lo).toNat)).advance i
/-- `tstamp` (R381). -/
def execTstamp (g : Bool) (d : BitVec 6) (s : State) : Res :=
  withOperands s g [] (pairOf d) [] fun i => once s i 4 <|
    let s := s.replayLog (s.pasidOf i.g) 7 i.g.id (leBytes 8 s.time)
    ((s.traceFrag i.gi i.fi 0x07 (leBytes 8 s.time)).putPair i (pairFld d).toNat fun _ => BitVec.ofNat 64 s.time).advance i

/-- The counter of a selector (R382). -/
def counterOf (s : State) (g : Group) (sel : Nat) : Nat :=
  if sel = 0 then g.issued - g.issuedFrom
  else if sel = 1 then s.cycle g.core - g.placedAt
  else if 16 ≤ sel ∧ sel ≤ 31 then g.codes[sel - 16]?.getD 0
  else if sel = 32 then s.corrected[g.core]?.getD 0
  else if sel = 33 then g.matDone - g.matFrom
  else if sel = 34 then g.misses
  else if sel = 35 then (s.traces[clusterOf g.core]?.getD {}).total
  else 0
/-- `pctr` (R382). -/
def execPctr (g : Bool) (d : BitVec 6) (a : Fld) (s : State) : Res :=
  withOperands s g [a.toNat] (pairOf d) [] fun i => once s i 4 <|
    let v := counterOf s i.g ((i.reg a.toNat i.lo).toNat % 256)
    ((s.replayLog (s.pasidOf i.g) 7 i.g.id (leBytes 8 v)).putPair i (pairFld d).toNat fun _ => BitVec.ofNat 64 v).advance i

/-- What user mode needs for a `tctl` beyond `.off`: a trace ring and the TRACE grant, and STAMP for TS (R383). -/
def tctlOk (s : State) (ts : Bool) (i : Iss) : Bool :=
  let c := s.ctxOf i.g
  i.system || (c.traceBase != 0 && c.trace && (!ts || c.stamp))

/-- `tctl.off` (R383). -/
def execTctlOff (g : Bool) (s : State) : Res :=
  withOperands s g [] [] [] fun i => once s i 4 <|
    (s.modG i.gi fun g => { g with traced := false, optLc := false, optSt := false, optTs := false }).advance i
/-- `tctl.on` (R383): a START with reason 1 for each fragment, behind what the fragment holds. -/
def execTctlOn (g : Bool) (o : BitVec 3) (s : State) : Res :=
  withRight s g (tctlOk s (o.getLsbD 2)) 4 <|
    withOperands s g [] [] [] fun i => once s i 4 <|
      let s := (s.advance i).modG i.gi fun g => { g with traced := true, optLc := o.getLsbD 0, optSt := o.getLsbD 1, optTs := o.getLsbD 2 }
      let s := if i.g.traced then s else traceGain s i.gi
      (List.range i.g.frags.length).foldl (fun s fi =>
        let f := (s.group i.gi).frag fi
        s.traceFrag i.gi fi 0x0A (pcBytes f.pc ++ maskBytes f.amask ++ [1])) s
/-- Have the packets of a trace unit up to a number gone to the rings? -/
def flushed (t : TraceUnit) (n : Nat) : Bool := decide (n ≤ t.drained) || decide (t.entered ≤ t.drained)
/-- `tctl.flush` (R383): everything the cluster has written so far is in the rings. -/
def execTctlFlush (g : Bool) (s : State) : Res :=
  withRight s g (tctlOk s false) 4 <|
    withOperands s g [] [] [] fun i => once s i 4 <|
      let t := s.traces[clusterOf i.g.core]?.getD {}
      let n := match i.f.stall with | some (.flush n) => n | _ => t.entered
      if flushed t n then s.advance i else s.wait i (.flush n)

/-! ### Buffers and rings (R372 to R377) -/

/-- SYNC is due in the cycle that comes 65,536 cycles after the cluster's latest SYNC or FREQ (R375). -/
def syncDue (s : State) (cl : Nat) : Bool := decide ((s.traces[cl]?.getD {}).lastSync + 65536 ≤ s.cyc[cl]?.getD 0)
/-- A packet of the cluster itself. -/
def unitPacket (s : State) (cl pasid ty : Nat) (payload : List Byte) (dt0 : Bool := false) : State :=
  s.packet cl { pasid := pasid, ty := BitVec.ofNat 8 ty, cyc := s.cyc[cl]?.getD 0, payload := payload, dt0 := dt0 }
/-- SYNC: to the ring of every context with a traced group on the cluster (R375). -/
def execSync (cl : Nat) (s : State) : Res :=
  .next (if !syncDue s cl then s else
    let s := (tracedCtxs s cl).foldl (fun s p => unitPacket s cl p 0x0C (syncPayload s cl)) s
    { s with traces := modAt s.traces cl fun t => { t with lastSync := s.cyc[cl]?.getD 0 } })

/-- The 256th consecutive cycle without an issue is over, under the ST option (R374). -/
def stallDue (s : State) (gi : Nat) : Bool :=
  let g := s.group gi
  g.state == .resident && g.traced && g.optSt && !g.idleTold && g.idle == 256
/-- STALL: in the 256th cycle, with that cycle's code (R374). -/
def execStall (gi : Nat) (s : State) : Res :=
  .next (if !stallDue s gi then s else
    let g := s.group gi
    (s.packet (clusterOf g.core)
      { pasid := s.pasidOf g, ty := 0x09, cpos := g.core % 4, gslot := g.slot, lstamp := if g.optLc then some (lstampOf g.know) else none,
        cyc := s.cycle g.core - 1, payload := leBytes 1 g.code }).modG gi fun g => { g with idleTold := true })

/-- The bytes of a packet, with the cycles since the last one of its ring (Table 17-1). -/
def Packet.bytes (p : Packet) (dt : Nat) : List Byte :=
  [p.ty, BitVec.ofNat 8 (p.cpos * 64 + (if p.lstamp.isSome then 32 else 0) + p.low), BitVec.ofNat 8 p.gslot] ++ leBytes 2 dt
    ++ (match p.lstamp with | some v => leBytes 3 v.toNat | none => []) ++ p.payload

/-- Bytes written into a ring of bytes, wrapping. -/
def ringBytes (s : State) (base size off : Nat) (bs : List Byte) : State :=
  let o := off % size
  (s.writeMem (base + o) (bs.take (size - o))).writeMem base (bs.drop (size - o))

/-- Has the ring of the oldest packet room for it; a context without a ring takes anything. -/
def drainRoom (s : State) (cl : Nat) (p : Packet) : Bool :=
  let c := s.ctx p.pasid
  let h := c.traceBase + 64 * cl
  c.traceBase == 0 || s.mem.le (h + 24) 8 == 0 || decide (p.size + s.mem.le h 8 ≤ s.mem.le (h + 24) 8 + s.mem.le (h + 8) 8)
def drainDue (s : State) (cl : Nat) : Bool :=
  match (s.traces[cl]?.getD {}).buf with
  | [] => false
  | p :: _ => drainRoom s cl p

/-- TRACE_DRAIN: the oldest packet goes to its context's ring and WIDX covers it; the ring's first SYNC sets CLK0 to the clock at which it was taken
(R372, R376). -/
def execTraceDrain (cl : Nat) (s : State) : Res :=
  .next (match (s.traces[cl]?.getD {}).buf with
    | [] => s
    | p :: rest =>
      if !drainRoom s cl p then s
      else
        let t := s.traces[cl]?.getD {}
        let last := t.rings.find? fun r => r.1 == p.pasid
        let dt := match last with | some r => if p.dt0 then 0 else p.cyc - r.2 | none => 0
        let c := s.ctx p.pasid
        let h := c.traceBase + 64 * cl
        let size := s.mem.le (h + 24) 8
        let s := if c.traceBase = 0 ∨ size = 0 then s else
          let bs := p.bytes dt
          let w := s.mem.le h 8
          let s := ringBytes s (s.mem.le (h + 16) 8) size w bs
          let s := if p.ty = 0x0C ∧ !t.synced.contains p.pasid then s.writeLe (h + 32) 2 p.clk else s
          s.writeLe h 8 (w + bs.length)
        { s with traces := modAt s.traces cl fun t => { t with
            buf := rest, drained := t.drained + 1, rings := setAssoc t.rings p.pasid p.cyc,
            synced := if p.ty = 0x0C then (p.pasid :: t.synced).eraseDups else t.synced } })

/-- A stage of a resynchronisation is due: the first cycle with room for all that it owes, then each of the two cycles behind it (R377). -/
def resyncDue (s : State) (cl : Nat) : Bool :=
  let t := s.traces[cl]?.getD {}
  match t.resync with
  | some (_, c, _) => decide (c ≤ s.cyc[cl]?.getD 0)
  | none => !t.lossy.isEmpty && decide (bufBytes t.buf + resyncOwed s cl t.lossy ≤ 65536)

/-- TRACE_LOSS_RESYNC: in cycle r a LOSS, in r + 1 a SYNC, in r + 2 the STARTs of every context that lost packets (R377). -/
def execTraceLossResync (cl : Nat) (s : State) : Res :=
  .next (if !resyncDue s cl then s else
    let t := s.traces[cl]?.getD {}
    let r := s.cyc[cl]?.getD 0
    let upd (f : TraceUnit → TraceUnit) (s : State) : State := { s with traces := modAt s.traces cl f }
    match t.resync with
    | none =>
      t.lossy.foldl (fun s p => unitPacket s cl p 0x0E (leBytes 4 t.dropped) true)
        (upd (fun t => { t with resync := some (1, r + 1, t.lossy), lossy := [], dropped := 0 }) s)
    | some (1, _, ps) => ps.foldl (fun s p => unitPacket s cl p 0x0C (syncPayload s cl)) (upd (fun t => { t with resync := some (2, r + 1, ps) }) s)
    | some (_, _, ps) =>
      let s := upd (fun t => { t with resync := none }) s
      (indexed s.groups).foldl (fun s e =>
        if e.2.traced && e.2.holdsSlot && clusterOf e.2.core == cl && ps.contains (s.pasidOf e.2) then
          traceStart (s.modG e.1 fun g => { g with frags := g.frags.map fun f => { f with held := [] } }) e.1 4
        else s) s)

/-! ### Samples (R380) -/

/-- The groups that a partition samples: those in its slots, and PARKED groups that left them. -/
def partGroups (s : State) (core part : Nat) : List Group :=
  s.groups.filter fun g => g.core == core && g.slot / 16 == part && (g.holdsSlot || g.state == .parked)
/-- The group in the next occupied slot after a slot. -/
def nextSlot (gs : List Group) (last : Nat) : Option Group :=
  (List.range 256).findSome? fun k => gs.find? fun g => g.slot == (last + 1 + k) % 256
/-- The place and the cycle of the last sample that a partition took for a context. -/
def lastSample (s : State) (pasid core part : Nat) : Nat × Nat :=
  ((s.samples.find? fun e => e.1 == 1024 * pasid + 16 * core + part).map (·.2)).getD (255, 0)
/-- The contexts for which a partition samples the cycle that is over: each at its own rate, every 2^k cycles (R380, log entry 56). -/
def sampleCtxs (s : State) (core part : Nat) : List Nat :=
  s.ctxs.filterMap fun c => match c.prof with
    | some p =>
      if c.alive && s.cycle core % 2 ^ p.k == 0 && (lastSample s c.pasid core part).2 != s.cycle core then some c.pasid else none
    | none => none
def sampleDue (s : State) (core part : Nat) : Bool :=
  decide (core < 64) && decide (part < 16) && !(sampleCtxs s core part).isEmpty && !(partGroups s core part).isEmpty

/-- The PC that a sample records: that of the instruction which the group issued in the cycle, else the lowest-lane fragment's. -/
def samplePc (g : Group) : Nat :=
  match g.issuedLast, g.frags with
  | some pc, _ => pc.toNat
  | none, [] => 0
  | none, f :: fs => (fs.foldl (fun b x => if lowLane x.amask < lowLane b.amask then x else b) f).pc.toNat
/-- The code of a group's latest whole cycle; a PARKED group reports 14 (R121, R380). -/
def codeOf (g : Group) : Nat := if g.state = .parked then 14 else g.code

/-- One sample counted in a context's ranges, or outside them. -/
def Prof.count (p : Prof) (pc code : Nat) : Prof :=
  let row := (findAt (fun r => decide (r.1 ≤ pc) && decide (pc < r.2)) p.ranges).getD 64
  { p with counts := modAt p.counts row fun cs => modAt cs code fun n => capAt (n + 1) (2 ^ 32 - 1) }

/-- A sample that a partition takes for a context: of its next occupied slot, counted when the group there is the context's. -/
def takeSample (core part : Nat) (s : State) (pasid : Nat) : State :=
  match nextSlot (partGroups s core part) (lastSample s pasid core part).1 with
  | none => s
  | some g =>
    let s := if s.pasidOf g = pasid then s.modC pasid fun c => { c with prof := c.prof.map fun p => p.count (samplePc g) (codeOf g) } else s
    { s with samples := setAssoc s.samples (1024 * pasid + 16 * core + part) (g.slot, s.cycle core) }

/-- PROFILE_SAMPLE. -/
def execProfileSample (core part : Nat) (s : State) : Res :=
  .next (if !sampleDue s core part then s else (sampleCtxs s core part).foldl (takeSample core part) s)

end Sys2Proof.Machine
end

