-- ==== Sys2Proof/Machine/Ready.lean ====
section
/-! DEFINITION. Sys2Proof/Machine/Ready.lean: when a fragment may issue, and the selection among the ready fragments of a partition (R94, R116,
R118, R344, R349, R360). -/

namespace Sys2Proof.Machine

open Sys2Proof

/-- Has what a blocked instruction waits for come? It is then issued again. -/
def stallOver (s : State) (gi : Nat) (f : Frag) (w : Stall) : Bool :=
  let g := s.group gi
  let b := s.blockOf g
  match w with
  | .regs rs m => !(m.lanes.any fun l => rs.any fun r => g.owes r l)
  | .dest rs m => !(m.lanes.any fun l => rs.any fun r => g.owes r l)
  | .tile t wr => !(if wr then g.tileUsed t else g.tileWritten t)
  | .barrier o gen => (b.barWord o).gen != gen
  | .cbar ix gen => (b.barWord (cbarKey ix)).gen != gen
  | .woa n => s.woas.all fun w => w.n != n || (w.hit.isSome && w.seen)
  | .batch n => !g.closed.contains (BitVec.ofNat 4 n)
  | .close => decide (g.closed.length < 16)
  | .future k n => (g.fut k).st != .pending && !(g.frags.any fun x => x.fid != f.fid && (match x.stall with
      | some (.future j m) => j == k && decide (m < n)
      | some (.any mk m) => lowestDone g mk == some k && decide (m < n)
      | _ => false))
  | .any mk n => (match lowestDone g mk with
    | none => false
    | some k => !(g.frags.any fun x => x.fid != f.fid && (match x.stall with
      | some (.future j m) => j == k && decide (m < n)
      | some (.any mk' m) => lowestDone g mk' == some k && decide (m < n)
      | _ => false)))
  | .tree h => !s.treeNamed (s.pasidOf g) h
  | .treeEnd _ _ => true
  | .ring o ix => ringPassed b o (BitVec.ofNat 32 ix)
  | .credit o m => (maskSet m).all fun k => b.credit o k != 0
  | .path p t => decide (g.count p ≤ t)
  | .drain => (s.unperfOf gi f).isEmpty && (g.xfersOf f).isEmpty
  | .spawning => (s.unperfOf gi f).isEmpty && (g.xfersOf f).isEmpty
  | .checks => (match g.check with | some c => c.fid == f.fid && c.passed | none => true)
  | .done n => g.outst.all fun o => o.seq != n
  | .engine 0 => decide (engineQueue s g.core < 64)
  | .engine 1 => !copyFull s g.core (s.pasidOf g)
  | .engine 2 => decide ((s.cols.filter fun c => c.core == g.core).length < 32)
  | .engine _ => decide ((s.dyns.filter fun c => c.core == g.core).length < 32)
  | .flush n => flushed (s.traces[clusterOf g.core]?.getD {}) n
  | .feed h => !s.feedNamed (s.pasidOf g) h || (s.feedQ (hIndex h)).count != 0
  | .room h n => !s.syzNamed (s.pasidOf g) h || decide (n ≤ (s.syz (hIndex h)).room)
  | .take h => !s.syzNamed (s.pasidOf g) h || (s.syz (hIndex h)).oldest.isSome
  | .xlate t => s.xfaults.all fun x => x.token != t || x.failed
  | .reply fid => s.sysreqs.all fun r => !(r.gi == gi && r.fid == fid && r.inHandler)
  | .phaseOver _ _ => true
  | .recall ls => s.hostLines.all fun l => !ls.contains l
  | .replay => !replayOwed s (s.pasidOf g) && (let (base, n) := (s.ctx (s.pasidOf g)).ring 5; s.ringRoom base n != 0)

/-- May a fragment of a group issue at all: its group is resident and not held? -/
def mayRun (s : State) (gi : Nat) (f : Frag) : Bool :=
  let g := s.group gi
  let free := match (s.blockOf g).halt with
    | none => g.hold == .run
    | some h => (match h.phase with
      | .stopping => g.hold == .skid && decide (g.skid < 4)
      | .handling => gi == h.stopper && f.handler.isSome
      | .replaying => gi == h.stopper && f.replay.isSome
      | .chovis => false)
  s.mgmt.boot == .ready && g.state == .resident && !g.quiesced && free && (g.frame.isNone || f.handler.isSome)
    && (match g.check with | some c => c.fid == f.fid | none => true)
/-- Is a fragment ready (R116)? -/
def isReady (s : State) (gi fi : Nat) : Bool :=
  let f := (s.group gi).frag fi
  mayRun s gi f && (match f.stall with | some w => stallOver s gi f w | none => true)

/-- Does a fragment stand at the reconvergence address of its innermost entry (R99)? A replay issues instead (R355). -/
def arriving (s : State) (gi fi : Nat) : Bool :=
  let g := s.group gi
  let f := g.frag fi
  f.replay.isNone && f.stall.isNone && (match f.inner with
    | none => false
    | some e => match (g.splits[e]?).join with | some en => en.rpc == f.pc | none => false)

/-! ### What a fragment issues next -/

/-- Does an instruction read FMT (R56)? The matrix, conversion, quantisation and floating-point majors, `lred.add.f32`, `srd` of FMT and `spawn`. -/
def readsFmt (w : Word) : Bool :=
  let x := WordFields.ofWord w
  let m := x.maj.toNat
  [0x13, 0x15, 0x16, 0x17, 0x18, 0x1A, 0x1B].contains m || (m == 0x14 && x.fn.toNat != 8) || (m == 0x0F && x.fn.toNat == 15)
    || (m == 0x12 && x.fn.toNat == 0 && x.a == 0 && x.b.toNat == 0x0C) || (m == 0x30 && x.fn.toNat == 0)

/-- The address of code that a fragment issues next and its core has no copy of: it has no decoded instruction available (Table 5-7, code 9). -/
def codeMissing (s : State) (gi fi : Nat) : Option Nat :=
  let g := s.group gi
  let p := s.pasidOf g
  let pc := (g.frag fi).pc.toNat
  match iLine s g.core p pc with
  | none => some pc
  | some _ =>
    match fetchWord s g.core p pc with
    | .error _ => none
    | .ok w => if needsSecond w && (iLine s g.core p (pc + 4)).isNone then some (pc + 4) else none
/-! ### Ageing (R118) -/

/-- FRAGMENT_AGED is due: ready, and 63 core cycles without an issue (R118). -/
def agedDue (s : State) (gi fi : Nat) : Bool :=
  let g := s.group gi
  let f := g.frag fi
  !f.aged && isReady s gi fi && decide (f.readyAt + 63 ≤ s.cycle g.core)

/-- The ready fragments of the part: group and place. -/
def readyFrags (s : State) : List (Nat × Nat) :=
  (List.range s.groups.length).flatMap fun gi => ((List.range (s.group gi).frags.length).filter fun fi => isReady s gi fi).map fun fi => (gi, fi)
end Sys2Proof.Machine
end

