-- ==== Sys2Proof/Machine/Events.lean ====
section
/-! DEFINITION. Sys2Proof/Machine/Events.lean: the device steps of fragments and of what groups have issued: arrival, ageing, returns, performing
stores, polls, replayable translation faults (R51, R99, R118, R214, R220, R245, R262, R263, R267, R282, R422). -/

namespace Sys2Proof.Machine

open Sys2Proof

/-- FRAGMENT_ARRIVE: a fragment at the RPC of its innermost entry arrives instead of issuing (R99). -/
def execFragmentArrive (gi fi : Nat) (s : State) : Res := .next (if arriving s gi fi then arrive s gi fi else s)
/-- FRAGMENT_AGED (R118). -/
def execFragmentAged (gi fi : Nat) (s : State) : Res := .next (if agedDue s gi fi then s.modF gi fi fun f => { f with aged := true } else s)

/-! ### Returns (R51, R94, R217) -/

/-- The oldest returned entries of a path leave the list: the counter falls in order (R51). -/
def pruneOuts (p : Path) : List Outst → List Outst
  | [] => []
  | o :: os => if o.path != p then o :: pruneOuts p os else if o.returned then pruneOuts p os else o :: os

/-- Register words, predicates and poison marks that a return delivers; a RETIRING group discards them (R94). -/
def deliverOut (g : Group) (o : Outst) : Group :=
  if g.state == .retiring || g.state == .retired then g
  else
    let g := o.writes.foldl (fun g w => g.setReg w.reg (twoPowMask w.lane) fun _ => w.val) g
    let g := o.preds.foldl (fun g p => g.setPred p.1 (twoPowMask p.2.1) fun _ => p.2.2) g
    o.poison.foldl (fun g p => { g with poison := { p with lanes := p.lanes } :: clearPoison g.poison p.reg p.lanes }) g

/-- A return of an outstanding instruction; a value that changes ends a spin mark (R119). -/
def returnOut (s : State) (gi n : Nat) (ok : Outst → Bool) : State :=
  match (s.group gi).outst.find? fun o => o.seq == n && !o.returned && ok o with
  | none => s
  | some o =>
    let g := s.group gi
    let g' := (deliverOut g o).roused g
    s.modG gi fun _ => { g' with
      outst := pruneOuts o.path (g'.outst.map fun x => if x.seq = n ∧ x.path = o.path then { x with returned := true } else x) }

/-- LOAD_RETURN: a load or scratchpad access returns (R51). -/
def execLoadReturn (gi n : Nat) (s : State) : Res := .next (returnOut s gi n fun o => o.path == .gm || o.path == .sp)
/-- ATOMIC_RETURN (R267). -/
def execAtomicReturn (gi n : Nat) (s : State) : Res := .next (returnOut s gi n fun o => o.path == .at)

/-- Code lines leave the instruction caches of some cores (R220, R369). -/
def dropCode (s : State) (pasid : Nat) (cores lines : List Nat) : State :=
  { s with icache := s.icache.filter fun x => !(x.pasid == pasid && cores.contains x.core && lines.contains x.line) }

/-- The records of the lines of a range of tracked pages reset (R263). -/
def clearRange (s : State) (core pasid va n : Nat) : State :=
  if n = 0 then s
  else
    (List.range ((va % 64 + n + 63) / 64)).foldl (fun s k =>
      let a := (va / 64 * 64 + 64 * k) % 2 ^ 64
      if 2 ^ 52 ≤ a then s
      else
        match xlate s core pasid a with
        | .ok x => if isTracked s pasid x && x.w then resetLine s pasid (x.page + a % 4096) true else s
        | .page _ => s) s

/-- The oldest unread race record, consumed; nothing when the ring is empty or absent (R262). -/
def takeRace (s : State) (pasid : Nat) : State × Option (List Byte) :=
  let (base, n) := (s.ctx pasid).ring 0
  let r := s.mem.le (base + 8) 8
  if base = 0 ∨ s.mem.le base 8 = r then (s, none)
  else (s.writeLe (base + 8) 8 (r + 1), some (s.mem.read (base + 64 + 64 * (r % 2 ^ n)) 64))

/-- What an entry of path cf does as it completes. -/
def completeAct (s : State) (gi : Nat) (a : OutAct) : State :=
  let g := s.group gi
  let p := s.pasidOf g
  match a with
  | .none => s
  | .icinv cores lines => dropCode s p cores lines
  | .rclr rs => rs.foldl (fun s r => clearRange s g.core p r.1 r.2) s
  | .rnext reg m =>
    let (s, bs) := takeRace s p
    s.modG gi fun g => if g.state == .retiring || g.state == .retired then g else
      (g.setReg reg m fun l => BitVec.ofNat 32 (leNat (((bs.getD []).drop (4 * l)).take 4))).roused g

/-- COMPLETION_PATH_RETURN: an `icinv`, `rclr` or `rnext` completes (R220, R262, R263). -/
def execCompletionPathReturn (gi n : Nat) (s : State) : Res :=
  .next (match (s.group gi).outst.find? fun o => o.seq == n && o.path == .cf && !o.returned with
    | none => s
    | some o => returnOut (completeAct s gi o.act) gi n fun o => o.path == .cf)

/-- ACCESS_CHECK_RETURN: the checks of a group's memory instruction have returned; it is issued again, to complete or to fault (R214,
R255). -/
def execAccessCheckReturn (gi : Nat) (s : State) : Res :=
  .next (match (s.group gi).check with
    | some c => if c.passed then s else s.modG gi fun g => { g with
        check := some { c with passed := true }, frags := g.frags.map fun f => if f.fid = c.fid ∧ f.stall = some .checks then { f with stall := none } else f }
    | none => s)

/-! ### Stores perform (R94, R245, R412) -/

/-- The device lines of a store that the host caches. -/
def hostHeld (s : State) (e : Store) : List Nat :=
  s.hostLines.filter fun l => e.acc.any fun x => decide (l * 64 < x.pa + x.size) && decide (x.pa < l * 64 + 64)
/-- May a store perform, or its recall be sent? -/
def performDue (s : State) (n : Nat) : Bool :=
  match s.unperf[n]? with
  | some e => canPerform s e && (let h := hostHeld s e; h.isEmpty || h.any fun l => !s.recalls.contains l)
  | none => false
/-- The update of a store that is the next to perform: the device chooses the place, the lowest lane there comes first (R211, R271). -/
def nextUpdate (s : State) (n : Nat) (e : Store) : Option LaneAcc :=
  let place := (e.acc[Config.freeNat (s.oracle 7 n) % e.acc.length]?).map (·.pa)
  e.acc.find? fun x => some x.pa == place
/-- One update of a store performs, and with the last the store is done: updates of other instructions may fall between those of one (R271, R434). -/
def performOne (s : State) (n : Nat) (e : Store) : State :=
  match nextUpdate s n e with
  | none => { s with unperf := dropAt s.unperf n }
  | some x =>
    let rest := e.acc.erase x
    performLane { s with unperf := if rest.isEmpty then dropAt s.unperf n else setAt s.unperf n { e with acc := rest } } e x
/-- ACCESS_PERFORMED: a lane's store or reduction performs; lines that the host caches are recalled first, and the store waits for them (R412). -/
def execAccessPerformed (n : Nat) (s : State) : Res :=
  .next (match s.unperf[n]? with
    | none => s
    | some e =>
      if !canPerform s e then s
      else
        match (hostHeld s e).filter fun l => !s.recalls.contains l with
        | [] => if (hostHeld s e).isEmpty then performOne s n e else s
        | ls => { s with recalls := s.recalls ++ ls, outbox := ls.map Msg.snoop ++ s.outbox })

/-! ### Polls (R282, R412) -/

/-- WOA_POLL: a waiter without a table entry reads its word again every 512 ns. A word at home elsewhere was written from outside (R384). -/
def execWoaPoll (n : Nat) (s : State) : Res :=
  .next { s with woas := s.woas.map fun w =>
    if w.n != n || !w.polls || w.hit.isSome || !s.past w.nextPoll then w
    else if w.cmp.holds (s.word w.pa) w.exp w.mask then { w with hit := some (s.word w.pa), ext := w.ext || !localPa w.pa }
    else { w with nextPoll := s.time + 512 } }

/-! ### Replayable translation faults (R422) -/

/-- The 64-byte record of Table 19-5. -/
def XFault.bytes (x : XFault) : List Byte :=
  leBytes 4 (6 + x.code * 2 ^ 8 + x.source * 2 ^ 24 + x.acc * 2 ^ 28) ++ leBytes 4 (x.pasid + x.gen.toNat * 2 ^ 20) ++ leBytes 8 x.page
    ++ leBytes 4 x.gid.toNat ++ leBytes 4 x.token.toNat ++ leBytes 4 x.lid.toNat ++ leBytes 4 x.level ++ leBytes 8 x.time ++ leBytes 24 0

/-- A record waits to be written, and its ring has room or is absent. -/
def recordDue (s : State) (n : Nat) : Bool :=
  match s.xfaults[n]? with
  | some x => let (base, k) := (s.ctx x.pasid).ring 1; !x.told && !x.failed && (base == 0 || s.ringRoom base k != 0)
  | none => false
/-- REPLAYABLE_FAULT_RECORD: Chovis forwards the fault and raises the context's fault interrupt. -/
def execReplayableFaultRecord (n : Nat) (s : State) : Res :=
  .next (if !recordDue s n then s else
    match s.xfaults[n]? with
    | none => s
    | some x =>
      let (base, k) := (s.ctx x.pasid).ring 1
      let s : State := { s with xfaults := modAt s.xfaults n fun x => { x with told := true } }
      (if base = 0 then s else chovisPut s base k 64 x.bytes).interrupt 1 0 x.pasid)

/-- Has a fault gone unanswered for 100 ms? -/
def faultLate (s : State) (n : Nat) : Bool :=
  match s.xfaults[n]? with
  | some x => !x.failed && decide (100000000 ≤ s.since x.time)
  | none => false
/-- FAULT_RESPONSE_TIMEOUT: the accesses that wait on it fail. -/
def execFaultResponseTimeout (n : Nat) (s : State) : Res :=
  .next (if faultLate s n then dropFailed { s with xfaults := modAt s.xfaults n fun x => { x with failed := true } } else s)

end Sys2Proof.Machine
end

