-- ==== Sys2Proof/Machine/Launch.lean ====
section
/-! DEFINITION. Sys2Proof/Machine/Launch.lean: what Chovis writes for a queue, kernel descriptors, placing the blocks of a launch, the completion
of launches (R27, R37, R247, R389, R392 to R394, R399 to R401). -/

namespace Sys2Proof.Machine

open Sys2Proof

/-- The n-byte little-endian field at an offset of a record. -/
def fieldAt (bs : List Byte) (off n : Nat) : Nat := leNat ((bs.drop off).take n)

/-! ### Accesses of Chovis in a context -/

/-- Chovis stands behind the last core: it translates without a core's TLB. -/
def chovisCore : Nat := 64
/-- Where Chovis finds an address of a context. -/
def chovisPa (s : State) (pasid va : Nat) (k : AccKind) : Option Nat :=
  if !(s.ctx pasid).alive then none
  else
    match access s chovisCore pasid va k with
    | .ok (pa, _) => some pa
    | .error _ => none
/-- Bytes written by Chovis, a release at `.sys`; nothing where the address does not translate. -/
def chovisWrite (s : State) (pasid va : Nat) (bs : List Byte) : Option State := (chovisPa s pasid va .write).map fun pa => s.outsideWrite pa bs
/-- Bytes read by Chovis within a page. -/
def chovisRead (s : State) (pasid va n : Nat) : Option (List Byte) := (chovisPa s pasid va .read).map fun pa => s.mem.read pa n

/-- Is an operand reached? -/
def reached (s : State) (pasid : Nat) (n : Need) : Bool := (chovisPa s pasid n.va n.kind).isSome
/-- A device field of a queue's descriptor is written (Table 18-1). -/
def putDesc (s : State) (q off n v : Nat) : State :=
  (chovisWrite s (s.queue q).pasid ((s.queue q).desc + off) (leBytes n v)).getD s
/-- The descriptor, which lies in one page, as a queue writes it. -/
def Queue.descNeed (x : Queue) : Need := ⟨x.desc, .write⟩
/-- ERR and STATE are written; where the descriptor does not translate, they are still to be shown. -/
def showState (s : State) (q err st : Nat) : State :=
  let x := s.queue q
  (putDesc s q 40 8 (err * 256 + st)).modQ q fun y => { y with err := err, shown := if reached s x.pasid x.descNeed then st else 8 }

/-- DONE passes the oldest packets that have ended and completed, while the descriptor translates; the packets with INTR raise INTVEC (R392). -/
def advanceDone (q : Nat) : Nat → State → State
  | 0, s => s
  | n + 1, s =>
    match (s.queue q).flights with
    | [] => s
    | f :: fs =>
      if !f.ended || f.parts != 0 || !reached s (s.queue q).pasid (s.queue q).descNeed then s
      else
        let d := (f.index + f.units) % 2 ^ 64
        let s := putDesc (s.modQ q fun x => { x with flights := fs, done := d }) q 32 8 d
        advanceDone q n (if f.intr then s.interrupt 0 (s.queue q).intvec.toNat (s.queue q).pasid else s)
/-- One part of a packet has completed. -/
def partDone (s : State) (q index : Nat) : State :=
  let s := s.modQ q fun x => { x with flights := x.flights.map fun f => if f.index = index then { f with parts := f.parts - 1 } else f }
  advanceDone q ((s.queue q).flights.length) s

/-- The flights when the packet in processing is abandoned. A CALL packet whose buffers are given up does not complete, so that DONE does not pass it
until the queue restarts (log entry 70). -/
def abandon (x : Queue) : List Flight :=
  let begun := x.proc != .idle
  match x.calls with
  | [] => if begun then x.flights.dropLast else x.flights
  | cs => modAt x.flights (x.flights.length - 1) fun f => { f with lost := f.lost + cs.length + if begun then 1 else 0 }
/-- A packet that breaks a rule stops its queue (R394). -/
def stopQueue (s : State) (q err : Nat) : State :=
  let s := { s with woas := s.woas.filter fun w => w.who != Waiter.queue q }
  let s := s.modQ q fun x => { x with
    stopped := true, flights := abandon x, proc := .idle, calls := [], win := [], winDesc := [], xtok := none, owedErr := 0, lag := none }
  let s := showState s q err 3
  let s := s.interrupt 0 (s.queue q).intvec.toNat (s.queue q).pasid
  advanceDone q (s.queue q).flights.length s
/-- An access of a queue's descriptor goes on when it translates; else the thread asks the host, and a final failure stops the queue with ERR 4 (R394, R422). -/
def withDesc (s : State) (q : Nat) (k : State → State) : State :=
  let x := s.queue q
  if reached s x.pasid x.descNeed then k (s.modQ q fun x => { x with dtok := none })
  else
    match ask s ⟨x.pasid, chovisCore, 5, 0, 0⟩ x.dtok.toList [x.descNeed] with
    | (s, .wait (t :: _)) => s.modQ q fun x => { x with dtok := some t }
    | (s, _) => if x.enabled && !x.stopped then stopQueue s q 4 else s

/-! ### Kernel descriptors (R77, R399) -/

/-- A descriptor that Table 18-5 and R77 admit. -/
def Kernel.ofBytes (bs : List Byte) : Option Kernel :=
  let f := fieldAt bs
  let shape := f 8 4
  let flags := f 16 4
  let bit (n : Nat) : Bool := bitsOf flags n n == 1
  let k : Kernel := {
    entry := f 0 8, bdim := bitsOf shape 18 11, tiles := bitsOf shape 10 4, nreg := 32 * (shape % 16 + 1), scratch := f 12 4,
    span := bit 4, sprace := bit 3, race := bit 2, idem := bit 1, coop := bit 0, prio := f 20 4, fmt := BitVec.ofNat 32 (f 24 4),
    handler := f 32 8, livemap := f 40 8, livecnt := f 48 4 }
  let bad := decide (2 ^ 52 ≤ k.entry) || k.entry % 4 != 0 || decide (2 ^ 19 ≤ shape) || k.bdim == 0 || decide (192 < k.bdim) || decide (64 < k.tiles)
    || k.scratch % 64 != 0 || decide ((if k.span then 2097152 else 524288) < k.scratch) || decide (32 ≤ flags) || (k.sprace && !k.race)
    || decide (128 ≤ k.prio) || badFmt k.fmt || f 28 4 != 0 || decide (256 < k.livecnt) || ((bs.drop 52).take 76).any (· != 0)
  if bad then none else some k

/-! ### Placing a launch (R26, R27, R37, R400) -/

/-- What a launch asks of its cores. -/
def launchPlan (s : State) (li : Nat) : Plan :=
  let l := s.launch li
  { ctx := l.ctx, rsv := l.rsv, groups := l.kernel.bdim, nreg := l.kernel.nreg, tiles := l.kernel.tiles, sp := l.kernel.scratch,
    spRace := l.kernel.sprace, span := l.kernel.span, by_ := some li }

/-- A group of a launch as it starts (R37, R247, R249, R366). -/
def launchGroup (s : State) (li gid : Nat) : Group :=
  let l := s.launch li
  let c := s.ctx l.ctx
  let k := l.kernel
  { freshGroup k.nreg k.tiles { pc := BitVec.ofNat 52 k.entry, fmt := k.fmt } with
    gid := gid, prio := l.level, ceiling := l.level, race := if k.race then c.raceDef else .off, know := c.know,
    traced := c.traceDef && c.traceBase != 0 }

/-- Blocks discarded under R365 go first, then ascending BID. -/
def Launch.nextBid (l : Launch) : Option Nat :=
  if l.done then none else match l.again with
  | b :: _ => some b
  | [] => if l.next < l.nblk.toNat then some l.next else none
def Launch.takeBid (l : Launch) : Launch :=
  match l.again with
  | _ :: bs => { l with again := bs, claim := [] }
  | [] => { l with next := l.next + 1, claim := [] }

/-- The next block of a launch stands on a set of cores, its groups on the cores named for them, else where the device chooses. -/
def placeNext (s : State) (li : Nat) (cores seats : List Nat) : State :=
  match (s.launch li).nextBid with
  | none => s
  | some bid =>
    let k := (s.launch li).kernel
    let gs := (List.range k.bdim).map (launchGroup s li)
    let p := launchPlan s li
    p.placeAs (s.modL li Launch.takeBid) cores seats { launch := li, bid := BitVec.ofNat 32 bid, gcount := k.bdim, spSize := k.scratch, spRace := k.sprace } gs

/-- The next block of a launch placed where it fits, at a place that the device chooses or at the first (R400; log entry 4). -/
def tryPlace (s : State) (li : Nat) (draw : Bool) : Option State :=
  match (launchPlan s li).places s with
  | [] => none
  | xs =>
    let (s, k) := if draw then s.chooseOf xs.length else (s, 0)
    some (placeNext s li (xs[k]?.getD []) [])

/-- Every block of a launch placed together, or none (R27). -/
def placeAll (li : Nat) (draw : Bool) : Nat → State → Option State
  | 0, s => if (s.launch li).nextBid.isNone then some s else none
  | n + 1, s => if (s.launch li).nextBid.isNone then some s else (tryPlace s li draw).bind (placeAll li draw n)
/-- The same over every choice of cores and seats, until one serves. -/
def placeSome (li : Nat) : Nat → State → Option State
  | 0, s => if (s.launch li).nextBid.isNone then some s else none
  | n + 1, s =>
    if (s.launch li).nextBid.isNone then some s
    else
      let p := launchPlan s li
      (p.places s).findSome? fun cores => (p.seatings s cores).findSome? fun seats => placeSome li n (placeNext s li cores seats)
/-- Every block of a launch stands together, where any choice of places serves: as the device chooses, else any. More groups than the part could hold never
do. -/
def placeWhole (s : State) (li : Nat) : Option State :=
  let n := (s.launch li).nblk.toNat
  let p := launchPlan s li
  if 64 * p.idle < n * p.groups then none else (placeAll li true n s).orElse fun _ => (placeAll li false n s).orElse fun _ => placeSome li n s

/-- The part with every core idle. -/
def idlePart (s : State) : State :=
  { s with groups := [], blocks := [], copies := [], split := List.replicate 64 0, launches := s.launches.map fun l => { l with claim := [] } }
/-- The status with which a launch fails before it places anything, 0 when it does not (R400). -/
def launchFails (s : State) (li : Nat) : Nat :=
  if !(launchPlan s li).ever s then 1
  else if (s.launch li).kernel.coop && (placeWhole (idlePart s) li).isNone then 2
  else 0

/-- One more placement for a launch, if it can be made: all blocks at once of a co-operative launch, else the next (R27, R400). -/
def placeMore (s : State) (li : Nat) : Option State :=
  let l := s.launch li
  if l.nextBid.isNone then none
  else if l.kernel.coop && l.next == 0 then placeWhole s li
  else tryPlace s li true

/-! ### Completion (R401) -/

/-- The status record of a launch (Table 18-6). -/
def launchRecord (s : State) (fblk status : Nat) (lid : Word) : List Byte := leBytes 4 (fblk * 256 + status) ++ leBytes 4 lid.toNat ++ leBytes 8 s.time

/-- The record, the event value and DONE, each a release at `.sys` and each skipped at address 0. -/
def finishLaunch (s : State) (q index pasid : Nat) (stat evt : Nat) (eval : Word64) (fblk status : Nat) (lid : Word) : State :=
  let put (va : Nat) (bs : List Byte) (s : State) : State := if va = 0 then s else (chovisWrite s pasid va bs).getD s
  partDone (put evt (leBytes 8 eval.toNat) (put stat (launchRecord s fblk status lid) s)) q index
/-- The translations that a completion needs. -/
def finishNeeds (stat evt : Nat) : List Need := (if stat = 0 then [] else [⟨stat, .write⟩]) ++ if evt = 0 then [] else [⟨evt, .write⟩]

/-- Have a launch's blocks and the groups spawned from them all completed, with every store of theirs performed (R393, R401)? -/
def launchOver (s : State) (li : Nat) : Bool :=
  let l := s.launch li
  !l.done && l.nextBid.isNone && s.blocks.all (fun b => b.launch != li || b.place == .done) && s.spawnq.all (fun c => c.launch != li)
    && s.unperf.all fun e => (s.blockOf (s.group e.gi)).launch != li
/-- A launch completes. Where STAT or EVT does not translate, it waits for the host; with a final failure DONE does not pass its packet, and its queue stops
with ERR 4 when its thread sees it (R394, R422; log entry 71). -/
def completeLaunch (s : State) (li : Nat) : State :=
  let l := s.launch li
  let ended (s : State) : State := s.modL li fun l => { l with done := true, claim := [], waits := [] }
  if (finishNeeds l.stat l.evt).all (reached s l.ctx) then
    finishLaunch (ended s) l.queue l.packet l.ctx l.stat l.evt l.eval l.fblk (if l.fblk = 0 then 0 else 4) l.lid
  else
    match ask s ⟨l.ctx, chovisCore, 5, l.lid, 0⟩ l.waits (finishNeeds l.stat l.evt) with
    | (s, .wait ts) => s.modL li fun l => { l with waits := ts }
    | (s, .go) => dropFailed ((ended s).modQ l.queue fun x => { x with owedErr := 4 })

/-! ### What a group waits in (R408, R409) -/

/-- The waits that the watchdog counts, and those it does not. -/
inductive WaitKind where
  | none | internal | external
deriving DecidableEq, Repr

/-- The wait of a fragment. -/
def fragWait (s : State) (gi : Nat) (f : Frag) : WaitKind :=
  match f.stall with
  | none => .none
  | some w =>
    if stallOver s gi f w then .none
    else
      match w with
      | .barrier _ _ => .internal
      | .cbar _ _ => .internal
      | .batch _ => .internal
      | .future _ _ => .internal
      | .any _ _ => .internal
      | .tree _ => .internal
      | .ring _ _ => .internal
      | .take _ => .internal
      | .feed _ => .internal
      | .woa n => if s.woas.any fun x => x.n == n && x.outer then .external else .internal
      | .reply _ => .external
      | .regs _ _ => .none
      | .dest _ _ => .none
      | .tile _ _ => .none
      | .close => .none
      | .treeEnd _ _ => .none
      | .credit _ _ => .none
      | .path _ _ => .none
      | .drain => .none
      | .checks => .none
      | .done _ => .none
      | .engine _ => .none
      | .flush _ => .none
      | .room _ _ => .none
      | .xlate _ => .none
      | .spawning => .internal
      | .phaseOver _ _ => .none
      | .recall _ => .none
      | .replay => .none

/-- The wait of a group: external when one of its fragments waits so, internal when all of them do. A system call that halts the block is
external for its group (R353). -/
def groupWait (s : State) (gi : Nat) : WaitKind :=
  let g := s.group gi
  match (s.blockOf g).halt with
  | some h => if h.code = 0x0E ∧ h.stopper = gi ∧ h.phase = .chovis then .external else .none
  | none =>
    if (g.state ≠ .resident ∧ g.state ≠ .parked ∧ g.state ≠ .saved) ∨ g.struck then .none
    else
      let ks := g.frags.map (fragWait s gi)
      if ks.contains .external then .external else if !ks.isEmpty && ks.all (· == .internal) then .internal else .none

end Sys2Proof.Machine
end

