-- ==== Sys2Proof/Machine/Preempt.lean ====
section
/-! DEFINITION. Sys2Proof/Machine/Preempt.lean: parking, pre-emption, the save image and restore (R113 to R115, R199, R356, R359 to R366,
Tables 16-5 to 16-8). -/

namespace Sys2Proof.Machine

open Sys2Proof

/-! ### Parking (R113) -/

/-- Is a fragment in a wait that may park its block, unsatisfied? -/
def parkWait (s : State) (gi : Nat) (f : Frag) : Bool :=
  match f.stall with
  | some w => (match w with | .tree _ => true | .future _ _ => true | .any _ _ => true | _ => false) && !stallOver s gi f w
  | none => false
/-- Does no core hold the oldest queued child? -/
def childStuck (s : State) : Bool :=
  match s.spawnq with
  | [] => false
  | c :: _ => (List.range 64).all fun k => !(c.plan s).fits s [k]
def parkDue (s : State) (bi : Nat) : Bool :=
  let b := s.block bi
  b.place == .placed && decide (bi < s.blocks.length) && b.reason == 0 && childStuck s && !(s.groupsOf bi).isEmpty
    && (s.groupsOf bi).all fun gi => let g := s.group gi; g.state == .resident && !g.frags.isEmpty && g.frags.all (parkWait s gi)
/-- A group stops for a save or its discarding: a memory instruction whose checks have not returned is issued again at restore. -/
def quiesceGroup (s : State) (gi : Nat) : State :=
  (s.standStill gi).modG gi fun g => { g with
    check := none, frags := g.frags.map fun f => if f.stall = some .checks then { f with
      stall := none } else f }

/-- BLOCK_PARK: the groups, all of which wait, stop for the save. -/
def execBlockPark (bi : Nat) (s : State) : Res :=
  .next (if !parkDue s bi then s else (s.groupsOf bi).foldl State.standStill (s.modB bi fun b => { b with reason := 1 }))

/-! ### Pre-emption requests (R360, R365, R366) -/

/-- The priority of a block: the highest of its groups'. -/
def blockPrio (s : State) (bi : Nat) : Nat := (s.groupsOf bi).foldl (fun n gi => if n < (s.group gi).prio then (s.group gi).prio else n) 0

/-- What a block asked to go away shows in `reason` while it is being discarded; no image of it is written. -/
def discarding : Nat := 4
/-- Have the groups of a block that is being discarded stopped, with no load outstanding and the matrix engine quiet (R365)? -/
def discardDue (s : State) (bi : Nat) : Bool :=
  let b := s.block bi
  b.place == .placed && b.reason == discarding && !b.terminated
    && (s.groupsOf bi).all fun gi => let g := s.group gi; g.outst.isEmpty && g.xfers.isEmpty && (g.ops.isEmpty || g.matStopped)
/-- An uncommitted block of an idempotent launch is discarded and goes back to its launch (R365): the stamp epochs of its tiles end (R379), its vectors
reach the context. -/
def discardBlock (s : State) (bi : Nat) : State :=
  let b := s.block bi
  let s := (s.groupsOf bi).foldl (fun s gi =>
    let s := (List.range (s.group gi).tiles.length).foldl (fun s t => stampEnd s gi t) s
    let s := s.modC (s.pasidOf (s.group gi)) fun c => { c with know := c.know.merge (s.group gi).know }
    s.modG gi fun g => { g with
      state := .retired, frags := [], splits := List.replicate 15 none, frame := none, pending := none, check := none, regs := [], tiles := [],
      ops := [], futures := List.replicate 32 {}, hold := .run, debugStep := false, debugFreeze := false }) s
  (s.modB bi fun b => { b with place := .done, halt := none }).modL b.launch fun l => { l with again := l.again ++ [b.bid.toNat] }

/-- May a block be discarded? -/
def discardable (s : State) (bi : Nat) : Bool :=
  let b := s.block bi
  (s.launch b.launch).kernel.idem && !b.committed && !b.child && !b.terminated

/-- A request reaches a block: 2 for pre-emption, 3 for a context switch (R360, R363, Table 16-6). A block that may be discarded stops at once (R365). -/
def requestBlock (reason : Nat) (s : State) (bi : Nat) : State :=
  if discardable s bi then
    (s.groupsOf bi).foldl (fun s gi => quiesceGroup (dropWoas s gi) gi) (s.modB bi fun b => { b with reason := discarding })
  else
    let s := s.modB bi fun b => { b with reason := reason }
    (s.groupsOf bi).foldl (fun s gi => s.modG gi fun g => { g with preempt := some (s.cycle g.core) }) s

/-- The part as it would stand without some blocks. -/
def withoutBlocks (s : State) (bs : List Nat) : State :=
  { s with
    blocks := (indexed s.blocks).map fun e => if bs.contains e.1 then { e.2 with place := .saved } else e.2,
    groups := s.groups.map fun g => if bs.contains g.block && g.holdsSlot then { g with state := .saved } else g }

/-- Blocks that stand and are not on their way out. -/
def standing (s : State) : List Nat :=
  (List.range s.blocks.length).filter fun bi => let b := s.block bi; b.place == .placed && b.reason == 0 && !b.terminated
/-- Does a block stand on a core that is reserved to its own context? Another context's pre-emption does not touch it (R34, R366). -/
def sheltered (s : State) (pasid bi : Nat) : Bool :=
  let b := s.block bi
  (s.launch b.launch).ctx != pasid && b.cores.any fun c => ((s.reserved[c]?).join).isSome
/-- The blocks that a request of a context may take, in the order of R366: lowest PRIO, then most recently placed. -/
def victims (s : State) (pasid level : Nat) : List Nat :=
  let all := (standing s).filter fun bi => decide (blockPrio s bi < level) && !sheltered s pasid bi
  (List.range level).flatMap fun p => (all.filter fun bi => blockPrio s bi == p).reverse

/-- The victims on a set of cores, as many as it takes for the plan to fit. -/
def takeUntil (s : State) (p : Plan) (cores : List Nat) : List Nat → List Nat → Option (List Nat)
  | [], took => if p.fits (withoutBlocks s took) cores then some took else none
  | v :: vs, took => if p.fits (withoutBlocks s took) cores then some took else takeUntil s p cores vs (took ++ [v])

/-- The cores that a co-operative launch will take whole and the victims that it takes for it, in the order of R366. -/
def wholePlan (s : State) (li : Nat) : List Nat → List Nat → Option (List Nat × List Nat)
  | took, vs =>
    match placeWhole (withoutBlocks s took) li with
    | some t => some (((t.blocks.drop s.blocks.length).flatMap (·.cores)).eraseDups, took)
    | none => match vs with
      | [] => none
      | v :: vs => wholePlan s li (took ++ [v]) vs
/-- The cores that a launch's next block will take and the victims on them. -/
def blockPlanOf (s : State) (li : Nat) : Option (List Nat × List Nat) :=
  let p := launchPlan s li
  let vs := victims s p.ctx (s.launch li).level
  let on (cs : List Nat) : List Nat := vs.filter fun bi => (s.block bi).cores.any cs.contains
  let tried (sets : List (List Nat)) : List (List Nat × List Nat) := sets.filterMap fun cs => (takeUntil s p cs (on cs) []).map fun t => (cs, t)
  let one := tried ((List.range 64).map fun c => [c])
  let all := if one.isEmpty && p.span then tried ((List.range 16).flatMap coreSets) else one
  (vs.findSome? fun v => all.find? fun x => x.2.head? == some v).orElse fun _ => all.head?
/-- What pre-emption frees for a launch: room for all blocks of a co-operative one, else for its next (R27, R366). -/
def preemptPlan (s : State) (li : Nat) : Option (List Nat × List Nat) :=
  let l := s.launch li
  if l.kernel.coop && l.next == 0 then wholePlan s li [] (victims s l.ctx l.level) else blockPlanOf s li

/-- A launch of the real-time band whose next block does not fit, with no request of it pending. -/
def preemptDue (s : State) (li : Nat) : Bool :=
  let l := s.launch li
  decide (112 ≤ l.level) && l.nextBid.isSome && (placeMore s li).isNone && l.claim.isEmpty && (preemptPlan s li).isSome
/-- PREEMPTION_REQUEST: the cores are freed for that block alone (R114, R366). -/
def execPreemptionRequest (li : Nat) (s : State) : Res :=
  .next (if !preemptDue s li then s else
    match preemptPlan s li with
    | none => s
    | some (cores, vs) => vs.foldl (requestBlock 2) (s.modL li fun l => { l with claim := cores }))

/-! ### Stopping (R199, R358, R360) -/

/-- Waits in which a group stops at once: its instruction is issued again at restore (R360). -/
def Stall.blocking : Stall → Bool
  | .regs _ _ => false
  | .dest _ _ => false
  | .tile _ _ => false
  | .drain => false
  | .checks => false
  | .done _ => false
  | .flush _ => false
  | .reply _ => false
  | .recall _ => false
  | .replay => false
  | .spawning => true
  | .phaseOver _ _ => true
  | .barrier _ _ => true
  | .cbar _ _ => true
  | .woa _ => true
  | .batch _ => true
  | .close => true
  | .future _ _ => true
  | .any _ _ => true
  | .tree _ => true
  | .treeEnd _ _ => true
  | .ring _ _ => true
  | .credit _ _ => true
  | .path _ _ => true
  | .engine _ => true
  | .feed _ => true
  | .room _ _ => true
  | .take _ => true
  | .xlate _ => true

/-- Does a group with a request pending stop now: every fragment has a map in effect, or waits in a blocking instruction (R360)? -/
def stopsNow (g : Group) : Bool :=
  g.preempt.isSome && !g.quiesced && g.state == .resident
    && (g.frags.all (fun f => f.map.isSome) || g.frags.all fun f => match f.stall with | some w => w.blocking | none => false)

def forcedDue (s : State) (gi : Nat) : Bool :=
  let g := s.group gi
  match g.preempt with
  | some t => g.state == .resident && !g.quiesced && decide (t + 2048 ≤ s.cycle g.core)
  | none => false
/-- PREEMPT_FORCED_STOP: the group stops at its next boundary. A fragment of it has no map in effect, else it had stopped before, so all its
registers are saved (R359, R360); the maps of its other fragments stay in effect (R357). -/
def execPreemptForcedStop (gi : Nat) (s : State) : Res := .next (if forcedDue s gi then quiesceGroup s gi else s)

/-- The resume record of an operation (Table 9-7). -/
def MatOp.resumeBits (o : MatOp) : BitVec 128 :=
  let flag (b : Bool) (n : Nat) : Nat := if b then 2 ^ n else 0
  BitVec.ofNat 128 (o.nextj * 2 ^ 112 + o.fmt.toNat * 2 ^ 80 + (o.batch.getD 0) * 2 ^ 76 + flag o.batch.isSome 75 + flag o.z 74 + flag o.int 73
    + flag o.sp 72 + flag o.pat 71 + o.mt * 2 ^ 64 + o.seq % 2 ^ 32 * 2 ^ 32 + o.dt * 2 ^ 14 + o.af.toNat * 2 ^ 7 + o.bf.toNat)

/-- Every outstanding operation of a group writes its resume record, in issue order (R199). -/
def writeRecords (s : State) (gi : Nat) : State :=
  (s.group gi).ops.foldl (fun s o => s.modTile gi o.dt fun t => { t with resume := true, resumeRec := o.resumeBits }) s

def matrixQuiesceDue (s : State) (gi : Nat) : Bool :=
  let g := s.group gi
  g.state == .resident && (s.blockOf g).reason != 0 && !g.ops.isEmpty && !g.matHeld
/-- MATRIX_QUIESCENCE: the operation in flight stops at a slice boundary, which the part's timing chooses (log entry 6), and every
outstanding operation leaves its record (R199). Those that are issued behind it do so at the save. -/
def execMatrixQuiescence (gi : Nat) (s : State) : Res :=
  .next (if !matrixQuiesceDue s gi then s else
    match (s.group gi).ops with
    | [] => s
    | o :: rest =>
      let (s, r) := s.draw
      let g := s.group gi
      let j := if (o.badTile g).isSome then o.nextj else o.nextj + r % (if o.nextj < o.slices g then o.slices g - o.nextj else 1)
      let s := if j = o.nextj then s else s.modTile gi o.dt fun t => { t with data := o.run g j }
      writeRecords (s.modG gi fun g => { g with ops := { o with nextj := j } :: rest, matHeld := true }) gi)

/-! ### The save image (R359, R364) -/

/-- The physical registers that a map names (R357). -/
def LiveMap.regs (m : LiveMap) (wb n : Nat) : List Nat :=
  (List.range 32).flatMap fun i => if m.map.getLsbD i then (List.range 4).map (fun k => wb + 4 * i + k) |>.filter (· < n) else []
/-- The fragments of a group, the trap frame among them. -/
def Group.allFrags (g : Group) : List Frag := g.frags ++ g.frame.toList

/-- Registers with results owed: outstanding returns, PENDING futures, replies to `sys` (R357). -/
def owedRegs (s : State) (gi : Nat) : List Nat :=
  let g := s.group gi
  g.outst.flatMap (fun o => if o.returned then [] else o.writes.map (·.reg) ++ o.poison.map (·.reg) ++ (match o.act with | .rnext d _ => [d] | _ => []))
    ++ g.futures.flatMap (fun f => if f.st = .pending then (List.range f.count).map (f.first + ·) else [])
    ++ s.sysreqs.filterMap fun r => if r.gi = gi then some r.dreg else none
/-- The saved map of a group, ascending (R359). -/
def savedRegs (s : State) (gi : Nat) : List Nat :=
  let g := s.group gi
  let n := g.regs.length
  if g.allFrags.any fun f => f.map.isNone then List.range n
  else
    let named := g.allFrags.flatMap (fun f => match f.map with | some m => m.regs f.wb n | none => []) ++ owedRegs s gi
    (List.range n).filter named.contains

/-- A range put into a list of ranges in ascending offset; ranges that meet become one. -/
def addRange : List (Nat × Nat) → Nat × Nat → List (Nat × Nat)
  | [], r => if r.2 = 0 then [] else [r]
  | (o, n) :: rs, (p, m) =>
    if m = 0 then (o, n) :: rs
    else if p + m < o then (p, m) :: (o, n) :: rs
    else if o + n < p then (o, n) :: addRange rs (p, m)
    else addRange rs ((if o < p then o else p), (if o + n < p + m then p + m else o + n) - (if o < p then o else p))

/-- The scratchpad range of a fragment; none asks for the whole allocation (R359). -/
def fragRange (s : State) (b : Block) (f : Frag) : Option (Nat × Nat) :=
  let k := (s.launch b.launch).kernel
  match f.map with
  | none => none
  | some m =>
    if m.smode = 0 then some (0, 0)
    else if m.smode = 1 ∧ m.ridx.toNat < k.livecnt ∧ k.livemap ≠ 0 then
      match chovisRead s (s.launch b.launch).ctx (k.livemap + 8 * m.ridx.toNat) 8 with
      | none => none
      | some bs =>
        let o := fieldAt bs 0 4
        let n := fieldAt bs 4 4
        some (o, if b.spSize ≤ o then 0 else if b.spSize < o + n then b.spSize - o else n)
    else none
/-- The scratchpad ranges that a block saves. -/
def savedRanges (s : State) (bi : Nat) : List (Nat × Nat) :=
  let b := s.block bi
  let rs := ((s.groupsOf bi).flatMap fun gi => (s.group gi).allFrags).map (fragRange s b)
  if rs.any (·.isNone) then addRange [] (0, b.spSize) else rs.foldl (fun xs r => addRange xs (r.getD (0, 0))) []

/-- A number with the bits of a list set. -/
def bitSet (xs : List Nat) : Nat := xs.eraseDups.foldl (fun n k => n + 2 ^ k) 0
def padTo (bs : List Byte) (n : Nat) : List Byte := bs ++ List.replicate (n - bs.length) 0
def align64 (bs : List Byte) : List Byte := padTo bs (alignUp bs.length 64)
def RaceMode.code : RaceMode → Nat
  | .off => 0
  | .trap => 1
  | .report => 2
def FutState.code : FutState → Nat
  | .free => 0
  | .pending => 1
  | .ready => 2
  | .void => 3

/-- The block header (Table 16-6). -/
def headerBytes (s : State) (bi : Nat) : List Byte :=
  let b := s.block bi
  padTo (leBytes 4 (b.reason * 2 ^ 24 + (if b.committed then 2 ^ 16 else 0) + 1) ++ leBytes 4 (s.launch b.launch).lid.toNat ++ leBytes 4 b.bid.toNat
    ++ leBytes 4 ((s.groupsOf bi).length * 2 ^ 16 + b.btag.toNat) ++ leBytes 4 b.spSize ++ leBytes 4 (b.cores.length * 2 ^ 24 + b.ranges.length)
    ++ leBytes 8 b.since ++ b.cbar.flatMap fun w => leBytes 8 w.toNat) 256
/-- A group record (Table 16-7). -/
def groupBytes (g : Group) : List Byte :=
  let hmode := (match g.frags.findSome? (·.handler) with | some .user => 1 | some .system => 2 | none => 0)
  let mode := if g.pending.isNone then hmode else if hmode = 0 then 3 else 4
  let fut (f : Future) : List Byte := leBytes 4 (f.lanes.toNat * 2 ^ 16 + f.count * 2 ^ 11 + f.first * 2 ^ 2 + f.st.code)
  let pend : List Byte := match g.pending with
    | some p => leBytes 4 p.code ++ leBytes 8 p.pc ++ leBytes 8 p.addr.toNat ++ leBytes 4 p.info.toNat
    | none => leBytes 24 0
  leBytes 4 ((g.splits.filter (·.isSome)).length * 2 ^ 28 + g.allFrags.length * 2 ^ 23 + mode * 2 ^ 20 + g.race.code * 2 ^ 18 + g.id.toNat)
    ++ leBytes 4 g.clk.toNat ++ leBytes 48 (vecNat g.know)
    ++ leBytes 4 (g.tiles.length * 2 ^ 16 + (g.regs.length / 32 - 1) * 2 ^ 8 + g.prio) ++ leBytes 4 g.subt.toNat ++ trapBytes g.trap
    ++ leBytes 4 (g.count .gm + g.count .sp * 2 ^ 8 + g.count .at * 2 ^ 16 + g.count .cf * 2 ^ 24)
    ++ leBytes 4 (bitSet (g.closed.map (·.toNat)) * 2 ^ 16 + capAt g.opened 255 * 2 ^ 4 + g.nextBatch.toNat) ++ g.futures.flatMap fut ++ pend
/-- A tile's side store. -/
def sideBytes (g : Group) (k : Nat) : List Byte :=
  let t := g.tile k
  leBytes 8 (tileWord g k).toNat ++ leBytes 16 t.resumeRec.toNat ++ leBytes 32 t.rowMask.toNat ++ leBytes 32 t.colMask.toNat ++ t.scaleArea.read 0 768 ++ leBytes 40 0
def regBytes (g : Group) : List Byte := g.smap.flatMap fun p => laneNums.flatMap fun l => leBytes 4 (g.lane p l).toNat
/-- A fragment record (Table 16-8). -/
def fragBytes (f : Frag) (frame : Bool) : List Byte :=
  let m := f.map.getD {}
  leBytes 8 ((if frame then 2 ^ 63 else 0) + (if f.spin then 2 ^ 62 else 0) + (f.inner.getD 15) * 2 ^ 58 + f.wb / 32 * 2 ^ 54 + f.pc.toNat) ++ leBytes 4 f.fmt.toNat
    ++ leBytes 4 (f.amask.toNat * 2 ^ 16 + (if f.map.isSome then 2 ^ 15 else 0) + m.smode.toNat * 2 ^ 13 + m.ridx.toNat * 2 ^ 5)
    ++ leBytes 4 m.map.toNat ++ leBytes 4 0 ++ leBytes 8 f.latch.toNat
/-- A split entry (Table 5-2). -/
def splitBytes (e : Split) : List Byte :=
  leBytes 24 (e.latch.toNat * 2 ^ 128 + e.fmt.toNat * 2 ^ 96 + 2 ^ 95 + (e.parent.getD 15) * 2 ^ 90 + e.wb / 32 * 2 ^ 86 + e.arrived.toNat * 2 ^ 70
    + e.lanes.toNat * 2 ^ 54 + e.rpc.toNat / 4)
/-- The group state and the fragment records of a group's scheduler section (Tables 16-5a and 16-8); its split entries follow. -/
def schedBytes (g : Group) : List Byte :=
  leBytes 64 (bitSet g.smap) ++ leBytes 64 (bitSet ((g.poison.map (·.reg)).filter (· < 512))) ++ g.preds.toList.flatMap (fun p => leBytes 2 p.toNat)
    ++ leBytes 4 ((if g.traced then 1 else 0) + (if g.optLc then 2 else 0) + (if g.optSt then 4 else 0) + (if g.optTs then 8 else 0)) ++ leBytes 44 0
    ++ (g.frags.flatMap fun f => fragBytes f false) ++ g.frame.toList.flatMap fun f => fragBytes f true

/-- The groups of a block in GID order. -/
def byGid (s : State) (bi : Nat) : List Nat :=
  let gs := s.groupsOf bi
  (List.range (s.block bi).gcount).flatMap fun n => gs.filter fun gi => (s.group gi).gid == n
/-- What an alteration of a piece of an image makes undefined: the block, a group's control flow (R97), a group's tiles (Table 9-7), nothing. -/
inductive Reach where
  | block
  | flow (gi : Nat)
  | tiles (gi : Nat)
  | nothing
deriving DecidableEq, Repr
/-- A piece of an image: its bytes, the bits of it that a restore reads, and what it reaches. -/
structure Piece where
  bytes : List Byte
  reads : Nat := 0
  reach : Reach := .block
/-- The bits of a split entry, and of a resume record, that are not reserved (Tables 5-2 and 9-7). -/
def entryReads : Nat := 2 ^ 192 - 1 - 2 ^ 94 - 15 * 2 ^ 50
def resumeReads : Nat := 2 ^ 128 - 1 - 255 * 2 ^ 120 - 2 ^ 70 - 4095 * 2 ^ 20
/-- Pieces up to the next multiple of 64 bytes. -/
def section64 (ps : List Piece) : List Piece :=
  let n := (ps.flatMap (·.bytes)).length
  ps ++ [{ bytes := List.replicate (alignUp n 64 - n) 0, reach := .nothing }]
/-- A tile's side store in pieces. -/
def sidePieces (g : Group) (gi k : Nat) : List Piece :=
  let bs := sideBytes g k
  [{ bytes := bs.take 8 }, { bytes := (bs.drop 8).take 16, reads := resumeReads, reach := .tiles gi }, { bytes := bs.drop 24 }]
/-- A group's scheduler section in pieces. -/
def schedPieces (g : Group) (gi : Nat) : List Piece :=
  { bytes := schedBytes g } :: g.splits.filterMap fun e => e.map fun e => { bytes := splitBytes e, reads := entryReads, reach := .flow gi }
/-- The whole image (Table 16-5). -/
def imagePieces (s : State) (bi : Nat) : List Piece :=
  let b := s.block bi
  let gs := (byGid s bi).map fun gi => (gi, s.group gi)
  section64 (({ bytes := headerBytes s bi } : Piece) :: gs.map fun g => { bytes := groupBytes g.2 })
    ++ section64 (gs.flatMap fun g => (List.range g.2.tiles.length).flatMap (sidePieces g.2 g.1))
    ++ section64 (gs.map fun g => { bytes := regBytes g.2 })
    ++ section64 (gs.flatMap fun g => g.2.tiles.map fun t => { bytes := t.data.read 0 4096 })
    ++ section64 (gs.flatMap fun g => schedPieces g.2 g.1)
    ++ section64 [{ bytes := (b.ranges.flatMap fun r => leBytes 4 r.1 ++ leBytes 4 r.2) ++ b.ranges.flatMap fun r => b.sp.read r.1 r.2 }]
def imageBytes (s : State) (bi : Nat) : List Byte := (imagePieces s bi).flatMap (·.bytes)

/-! ### Save (R359, R360) -/

/-- The images that stand in a context's save area. -/
def images (s : State) (pasid : Nat) : List (Nat × Nat) :=
  s.blocks.filterMap fun b => if (b.place = .parked ∨ b.place = .saved) ∧ (s.launch b.launch).ctx = pasid then some (b.image, b.img.length) else none
/-- The lowest place in the save area with room for n bytes. -/
def imagePlace (s : State) (pasid n : Nat) : Option Nat :=
  let c := s.ctx pasid
  let xs := images s pasid
  let free (a : Nat) : Bool := decide (c.save ≤ a) && decide (a + n ≤ c.save + 2 ^ c.saveLog) && xs.all fun x => decide (a + n ≤ x.1) || decide (x.1 + x.2 ≤ a)
  (c.save :: xs.map fun x => x.1 + x.2).foldl (fun m a => if !free a then m else match m with | some b => some (if a < b then a else b) | none => some a) none

/-- The block as it is saved: what the maps and ranges leave out reads zero after restore (R357, R359). -/
def trimBlock (s : State) (bi : Nat) : State :=
  let rs := savedRanges s bi
  let s := (s.groupsOf bi).foldl (fun s gi =>
    let keep := savedRegs s gi
    s.modG gi fun g => { g with smap := keep, regs := (indexed g.regs).map fun e => if keep.contains e.1 then e.2 else zeroVec }) s
  s.modB bi fun b => { b with
    ranges := rs, since := s.time, sp := b.sp.filter fun c => rs.any fun r => decide (r.1 ≤ c.1) && decide (c.1 < r.1 + r.2) }

/-- Has a group of a block on its way out stopped, with nothing that its save waits for (R199, R267, R360)? -/
def groupSavable (g : Group) : Bool :=
  g.state == .resident && g.quiesced && (g.ops.isEmpty || g.matHeld) && g.xfers.isEmpty && g.count .at == 0
/-- The state after a block's save, when nothing is missing. -/
def savedState (s : State) (bi : Nat) : Option State :=
  let b := s.block bi
  let gs := s.groupsOf bi
  if b.place != .placed || b.reason == 0 || b.reason == discarding || gs.isEmpty || !(gs.all fun gi => groupSavable (s.group gi)) || s.copies.any (fun c => c.gi.isSome && c.block == bi) then none
  else
    let s := gs.foldl writeRecords (trimBlock s bi)
    let img := imageBytes s bi
    let pasid := (s.launch b.launch).ctx
    (imagePlace s pasid img.length).map fun a =>
      let s := gs.foldl dropWoas s
      let s := gs.foldl (fun s gi => s.modG gi fun g => { g with
        state := if b.reason = 1 then .parked else .saved, preempt := none, issuedNow := none, issuedLast := none }) s
      (s.writeMem a img).modB bi fun b => { b with place := if b.reason = 1 then .parked else .saved, image := a, img := img }
/-- SAVE_COMPLETE: the image stands and the slots, registers, tiles and scratchpad are free. -/
def execSaveComplete (bi : Nat) (s : State) : Res := .next ((savedState s bi).getD s)

/-- Late results that reach a saved block reach its image too (R115, R360). -/
def syncImage (s : State) (bi : Nat) : State :=
  let b := s.block bi
  if b.place ≠ .parked ∧ b.place ≠ .saved then s
  else
    let img := imageBytes s bi
    if img = b.img ∨ img.length ≠ b.img.length then s
    else
      let s := (indexed (img.zip b.img)).foldl (fun s e => if e.2.1 = e.2.2 then s else s.writeMem (b.image + e.1) [e.2.1]) s
      s.modB bi fun b => { b with img := img }

/-! ### Restore (R114, R115, R356, R363) -/

/-- What a block asks of its cores again. -/
def blockPlan (s : State) (bi : Nat) : Plan :=
  let b := s.block bi
  let l := s.launch b.launch
  { ctx := l.ctx, rsv := l.rsv && !b.child && !b.terminated, groups := (s.groupsOf bi).length, nreg := l.kernel.nreg, tiles := l.kernel.tiles, sp := b.spSize,
    spRace := b.spRace, by_ := some b.launch }
/-- Sets of as many cores as the image spans where a block fits now. -/
def restorePlaces (s : State) (bi : Nat) : List (List Nat) :=
  let n := (s.block bi).cores.length
  let sets := if n ≤ 1 then (List.range 64).map fun c => [c] else ((List.range 16).flatMap coreSets).filter fun cs => cs.length == n
  sets.filter ((blockPlan s bi).fits s)
/-- A saved block always waits for its restore, a parked one once a wait of its groups is satisfied or cancelled (R114). Late results are
waited for. -/
def eligible (s : State) (bi : Nat) : Bool :=
  let b := s.block bi
  let gs := s.groupsOf bi
  let awake := match b.place with
    | .saved => true
    | .parked => b.terminated || gs.any fun gi => let g := s.group gi; g.struck || g.frags.any fun f => !parkWait s gi f
    | _ => false
  awake && gs.all (fun gi => (s.group gi).outst.isEmpty)
/-- The order of R114: higher PRIO, then the longer parked or saved. -/
def restoreBefore (s : State) (a b : Nat) : Bool :=
  let p := blockPrio s a
  let q := blockPrio s b
  decide (q < p) || (p == q && (decide ((s.block a).since < (s.block b).since) || ((s.block a).since == (s.block b).since && decide (a < b))))
/-- The blocks that may be restored now. -/
def restorable (s : State) : List Nat :=
  (List.range s.blocks.length).filter fun bi => ((s.block bi).place == .parked || (s.block bi).place == .saved) && eligible s bi && !(restorePlaces s bi).isEmpty
def restoreDue (s : State) (bi : Nat) : Bool := (restorable s).contains bi && (restorable s).all fun k => k == bi || restoreBefore s bi k

/-- A group is resident again in a slot (R55, R248, R363, R382); one that was cancelled meanwhile retires at once (R115). No line that stands in the L1 of the core serves what its fragments go on to
load, be they running, arrived at a split entry or waiting under a handler: their own stores may be newer (R208). -/
def reseat (p : Plan) (cores : List Nat) (s : State) (gi : Nat) : State :=
  let (s, core, slot) := p.slotFor s cores
  let s := s.modG gi fun g => { g with
    state := .resident, core := core, slot := slot, quiesced := false, matHeld := false, smap := [],
    placedAt := s.cycle core, idle := 0, idleTold := false, issuedNow := none, issuedLast := none, codes := List.replicate 16 0, misses := 0,
    issuedFrom := g.issued, matFrom := g.matDone, acquired := s.fillNo,
    frags := g.frags.map fun f => { f with
      acquired := s.fillNo, readyAt := s.cycle core, aged := false, stall := match f.stall with | some (.flush _) => none | w => w }
    frame := g.frame.map fun f => { f with
      acquired := s.fillNo }
    splits := g.splits.map fun e => e.map fun x => { x with
      acquired := s.fillNo } }
  if (s.group gi).struck then strikeGroup s gi else traceStart (traceGain s gi) gi 2

/-- A fragment with free values where its record holds what directs its issue (Table 16-8). -/
def Frag.scrambled (f : Nat → Nat) (x : Frag) : Frag :=
  { x with
    pc := alignPc (BitVec.ofNat 52 (f 0)), amask := BitVec.ofNat 16 (f 1), fmt := BitVec.ofNat 32 (f 2), wb := 32 * (f 3 % 16), latch := BitVec.ofNat 64 (f 4),
    spin := f 5 % 2 == 1, inner := if f 6 % 16 = 15 then none else some (f 6 % 16),
    map := if f 7 % 2 = 0 then none else some { map := BitVec.ofNat 32 (f 8), smode := BitVec.ofNat 2 (f 9), ridx := BitVec.ofNat 8 (f 10) } }
/-- A split entry with free values (Table 5-2). -/
def Split.scrambled (f : Nat → Nat) (x : Split) : Split :=
  { x with
    rpc := alignPc (BitVec.ofNat 52 (f 0)), lanes := BitVec.ofNat 16 (f 1), arrived := BitVec.ofNat 16 (f 2), wb := 32 * (f 3 % 16),
    parent := if f 4 % 16 = 15 then none else some (f 4 % 16), fmt := BitVec.ofNat 32 (f 5), latch := BitVec.ofNat 64 (f 6) }
/-- A group with a free control flow: what its fragments and its open entries hold. -/
def Group.lost (f : Nat → Nat) (g : Group) : Group :=
  { g with
    frags := (indexed g.frags).map fun e => e.2.scrambled fun k => f (11 * e.1 + k),
    frame := g.frame.map fun x => x.scrambled fun k => f (176 + k),
    splits := (indexed g.splits).map fun e => e.2.map fun x => x.scrambled fun k => f (187 + 7 * e.1 + k) }
/-- A tile with free values in its data, scale area and element mask. -/
def Tile.scrambled (f : Nat → Nat) (t : Tile) : Tile :=
  { t with
    data := t.data.write 0 ((List.range 4096).map fun k => BitVec.ofNat 8 (f k)),
    scaleArea := t.scaleArea.write 0 ((List.range 768).map fun k => BitVec.ofNat 8 (f (4096 + k))),
    rowMask := BitVec.ofNat 256 (f 4864), colMask := BitVec.ofNat 256 (f 4865) }
/-- A tile with free values in its control word too. -/
def Tile.unshaped (f : Nat → Nat) (t : Tile) : Tile :=
  { t.scrambled f with
    resumeRec := BitVec.ofNat 128 (f 4866), elem := BitVec.ofNat 4 (f 4867), scale := BitVec.ofNat 2 (f 4868), rows := BitVec.ofNat 8 (f 4869),
    rbytes := BitVec.ofNat 5 (f 4870), shaped := f 4871 % 2 == 1, emask := f 4872 % 2 == 1, resume := f 4873 % 2 == 1 }
/-- A future with free values. -/
def Future.scrambled (f : Nat → Nat) (x : Future) : Future :=
  { x with
    st := (match f 0 % 4 with | 0 => .free | 1 => .pending | 2 => .ready | _ => .void), lanes := BitVec.ofNat 16 (f 1), first := f 2 % 512, count := f 3 % 32 }
/-- Trap registers with free values. -/
def Trap.scrambled (f : Nat → Nat) : Trap :=
  let w (k : Nat) : Word := BitVec.ofNat 32 (f k)
  { code := w 0, pcLo := w 1, pcHi := w 2 &&& 0xFFFFF, addrLo := w 3, addrHi := w 4, mask := w 5 &&& 0xFFFF, info := w 6, skid := w 7 &&& 0x7FFFFF }
/-- What HMODE says of a handler (Table 16-7). -/
def hmodeOf (n : Nat) : Option HKind := if n % 3 = 0 then none else if n % 3 = 1 then some .user else some .system
/-- Free poison marks: the poison map says which of n registers have one (Table 16-5a). -/
def scrambledMarks (f : Nat → Nat) (n : Nat) : List Poison :=
  (List.range n).filterMap fun r => if f (3 * r) % 2 = 0 then none else some ⟨r, BitVec.ofNat 16 (f (3 * r + 1)), f (3 * r + 2) % 2 ^ 64, 1⟩
/-- A group with free values in its registers, predicates, marks, trace options, record and control flow (Tables 16-5a and 16-7). -/
def Group.scrambled (f : Nat → Nat) (g : Group) : Group :=
  let n := 16 * g.regs.length
  let h (k : Nat) : Nat := f (n + k)
  let l := g.lost fun k => h (200 + k)
  { l with
    frags := l.frags.map fun x => { x with
      handler := if x.handler.isSome then hmodeOf (h 33) else none }
    id := BitVec.ofNat 18 (h 34), traced := h 35 % 2 == 1, optTs := h 36 % 2 == 1, poison := scrambledMarks (fun k => h (600 + k)) g.regs.length,
    regs := (indexed g.regs).map fun e => Vector.ofFn fun l => BitVec.ofNat 32 (f (16 * e.1 + l.val)),
    preds := Vector.ofFn fun p => BitVec.ofNat 16 (h p.val),
    know := Vector.ofFn fun j => BitVec.ofNat 24 (h (8 + j.val)), clk := BitVec.ofNat 24 (h 24), prio := h 25 % 128, subt := BitVec.ofNat 32 (h 26),
    race := raceModeOf (h 27 % 3), nextBatch := BitVec.ofNat 4 (h 28), optLc := h 29 % 2 == 1, optSt := h 30 % 2 == 1, opened := h 31 % 256,
    closed := g.closed.map fun b => b ^^^ BitVec.ofNat 4 (h 32), trap := Trap.scrambled fun k => h (40 + k),
    pending := (if h 52 % 2 = 0 then none else some (g.pending.getD ⟨0, 0, 0, 0, 0, 0⟩)).map fun p => { p with
      code := h 48 % 256, pc := 4 * (h 49 % 2 ^ 50), addr := BitVec.ofNat 64 (h 50), info := BitVec.ofNat 32 (h 51) },
    futures := (indexed g.futures).map fun e => e.2.scrambled fun k => h (60 + 4 * e.1 + k) }

/-- What software has altered of an image that stands at an address: what each altered piece reaches. -/
def alteredFrom (m : Mem) : Nat → List Piece → List Reach
  | _, [] => []
  | a, p :: ps =>
    let n := p.bytes.length
    let was := leNat p.bytes
    let is_ := leNat (m.read a n)
    let same := if p.reads = 0 then was == is_ else was &&& p.reads == is_ &&& p.reads
    (if same then [] else [p.reach]) ++ alteredFrom m (a + n) ps
/-- An altered image leaves undefined what its altered pieces reach: a group's control flow, a group's tiles, or the whole block, its `cbar` words, committed
bit and saved scratchpad with it (R97, R364, Table 9-7; log entry 7). -/
def scramble (s : State) (bi : Nat) (rs : List Reach) : State :=
  let part (t : State) (gi : Nat) : State :=
    let g := t.group gi
    let n := g.tiles.length
    if rs.contains .block then
      let (t, f) := t.drawMany (19 * g.regs.length + 600)
      let (t, h) := t.drawMany (4874 * n)
      t.modG gi fun g => { g.scrambled f with tiles := (indexed g.tiles).map fun e => e.2.unshaped fun k => h (4874 * e.1 + k) }
    else
      let t := if rs.contains (.flow gi) then let (t, f) := t.drawMany 300; t.modG gi (Group.lost f) else t
      if rs.contains (.tiles gi) then
        let (t, h) := t.drawMany (4866 * n)
        t.modG gi fun g => { g with tiles := (indexed g.tiles).map fun e => e.2.scrambled fun k => h (4866 * e.1 + k) }
      else t
  let s := (s.groupsOf bi).foldl part s
  if !rs.contains .block then s
  else
    let (s, f) := s.drawMany 17
    let s := s.modB bi fun b => { b with cbar := (List.range 16).map fun k => BitVec.ofNat 64 (f k), committed := f 16 % 2 == 1 }
    (s.block bi).ranges.foldl (fun s r =>
      let (s, bs) := s.drawBytes r.2
      s.modB bi fun b => { b with sp := b.sp.write r.1 bs }) s

/-- BLOCK_RESTORE: the image is read back and the groups are resident again; an uncorrectable error in it terminates the block. -/
def execBlockRestore (bi : Nat) (s : State) : Res :=
  .next (if !restoreDue s bi then s else
    let b := s.block bi
    let bad := s.badAt b.image b.img.length
    let s := if bad then s else scramble s bi (alteredFrom s.mem b.image (imagePieces s bi))
    let xs := restorePlaces s bi
    let (s, k) := s.chooseOf xs.length
    let cores := xs[k]?.getD []
    let p := blockPlan s bi
    let gs := s.groupsOf bi
    let s := p.setSplits s cores
    let s := s.modB bi fun b => { b with place := .placed, cores := cores, reason := 0, img := [], ranges := [] }
    let s := gs.foldl (reseat p cores) s
    if bad then terminateBlock s bi else s)

end Sys2Proof.Machine
end

