-- ==== Sys2Proof/Machine/Queue.lean ====
section
/-! DEFINITION. Sys2Proof/Machine/Queue.lean: queue threads, the window, the packets of Table 18-4 and the commands of copy engines that complete
(R290 to R296, R302, R387 to R398, R400). -/

namespace Sys2Proof.Machine

open Sys2Proof

/-! ### Rings and windows (R390, R396 to R398) -/

/-- Is a queue served? -/
def Queue.serving (x : Queue) : Bool := x.enabled && !x.stopped
/-- The address of the unit of an index. -/
def Queue.unitVa (x : Queue) (i : Nat) : Nat := x.base + 16 * (i % 2 ^ (x.logsz + 8))
def widxOf (s : State) (x : Queue) : Option Nat := (chovisRead s x.pasid (x.desc + 16) 8).map leNat
/-- Units that the producers have written and the thread has not passed. -/
def workOf (s : State) (x : Queue) : Nat := match widxOf s x with | some w => (w + 2 ^ 64 - x.ridx) % 2 ^ 64 | none => 0
def readUnit (s : State) (x : Queue) (i : Nat) : Option (List Byte) := chovisRead s x.pasid (x.unitVa i) 16

def unitType (u : List Byte) : Nat := fieldAt u 0 1
def unitSize (u : List Byte) : Nat := fieldAt u 1 1
/-- Units of the packet that a header begins; a NOP's other units are ignored. -/
def packetUnits (u : List Byte) : Nat := if unitSize u = 0 then 1 else unitSize u
def fetchUnits (u : List Byte) : Nat := if unitType u = 0x0C then 1 else packetUnits u

/-- Units read into the window while they translate (R396). -/
def extendWin (s : State) (x : Queue) : Nat → List (List Byte) → List (List Byte)
  | 0, win => win
  | n + 1, win => match readUnit s x (x.ridx + win.length) with | some u => extendWin s x n (win ++ [u]) | none => win

/-- The headers of the packets that a window holds, with their places in it. -/
def winHeads : Nat → Nat → List (List Byte) → List (Nat × List Byte)
  | 0, _, _ => []
  | n + 1, k, win =>
    match win.drop k with
    | [] => []
    | u :: _ => if unitType u = 0 then [] else (k, u) :: winHeads n (k + packetUnits u) win

/-- The descriptors of the launches in a window. -/
def fillDescs (s : State) (x : Queue) : List (Nat × List Byte) :=
  (winHeads 64 0 x.win).foldl (fun ds h =>
    let va := fieldAt h.2 8 8
    let ix := x.ridx + h.1
    if unitType h.2 != 1 || unitSize h.2 != 4 || va % 128 != 0 || ds.any (fun d => d.1 == ix) then ds
    else match chovisRead s x.pasid va 128 with | some bs => ds ++ [(ix, bs)] | none => ds) x.winDesc

/-- A header that read TYPE 0 has changed: its packet is fetched again (R398). -/
def refetch (s : State) (x : Queue) : Queue :=
  match x.win with
  | [] => x
  | u :: rest =>
    if unitType u ≠ 0 then x
    else
      match readUnit s x x.ridx with
      | some v =>
        if fieldAt v 0 4 = fieldAt u 0 4 then x
        else
          let n := packetUnits v
          let fresh := extendWin s x (n - 1) [v]
          { x with win := if fresh.length < n then fresh else fresh ++ rest.drop (n - 1), winDesc := x.winDesc.filter fun d => d.1 != x.ridx }
      | none => x

/-- The window holds what stands between RIDX and the lesser of WIDX and RIDX + 64 (R396). -/
def fillWindow (s : State) (q : Nat) : State :=
  let x := s.queue q
  if !x.mapped || !x.serving then s
  else
    let x := refetch s x
    let n := capAt (workOf s x) 64
    let x := { x with win := extendWin s x (n - x.win.length) x.win }
    s.setQueue q { x with winDesc := fillDescs s x }

/-! ### The next packet (R391, R392) -/

/-- Is a token that a queue waits for answered? -/
def tokenOver (s : State) (t : Option Word) : Bool :=
  match t with
  | none => true
  | some t => s.xfaults.all fun x => x.token != t || x.failed
/-- The index that the packets of a CALL buffer count against. -/
def Queue.lastIndex (x : Queue) : Nat := ((x.flights.getLast?).map (·.index)).getD x.ridx

/-- The address of each unit of the next packet, as far as it is known; none when there is no next packet. -/
def nextHead (s : State) (x : Queue) : Option (List Byte) :=
  match x.calls with
  | [] => x.win.head?
  | f :: _ => if f.pos < f.units then chovisRead s x.pasid (f.addr + 16 * f.pos) 16 else none
def nextUnit (s : State) (x : Queue) (k : Nat) : Option (List Byte) :=
  match x.calls with
  | [] => (match x.win[k]? with | some u => some u | none => readUnit s x (x.ridx + k))
  | f :: _ => chovisRead s x.pasid (f.addr + 16 * (f.pos + k)) 16
/-- All units of the next packet. -/
def nextUnits (s : State) (x : Queue) (n : Nat) : Option (List Byte) :=
  (List.range n).foldr (fun k acc => match nextUnit s x k, acc with | some u, some us => some (u ++ us) | _, _ => none) (some [])

/-- May a thread begin a packet at all? -/
def threadFree (s : State) (x : Queue) : Bool :=
  s.mgmt.boot == .ready && x.mapped && x.serving && x.proc == .idle && x.owedErr == 0 && tokenOver s x.xtok
/-- The packet that a thread begins now: written, and with BARRIER = 1 only when DONE has reached its index. -/
def nextPacket (s : State) (q : Nat) : Option (List Byte) :=
  let x := s.queue q
  if !threadFree s x then none
  else
    match nextHead s x with
    | none => none
    | some u =>
      if x.calls.isEmpty && unitType u == 0 then none
      else if bitsOf (fieldAt u 0 4) 16 16 = 1 ∧ x.done ≠ (if x.calls.isEmpty then x.ridx else x.lastIndex) then none
      else nextUnits s x (fetchUnits u)

/-! ### Processing begins and ends (R392) -/

/-- A packet begins: a flight of its own, or a part of its CALL packet. -/
def beginPacket (s : State) (q units : Nat) (intr : Bool) : State :=
  s.modQ q fun x =>
    { x with
      units := units, xtok := none, lag := none,
      flights := if x.calls.isEmpty then x.flights ++ [{ index := x.ridx, units := units, intr := intr, parts := 1 }]
                 else modAt x.flights (x.flights.length - 1) fun f => { f with parts := f.parts + 1 } }

/-- What the end of the packet in processing writes: its header word, and the descriptor. -/
def endNeeds (x : Queue) : List Need :=
  [⟨(match x.calls with | [] => x.unitVa x.ridx | f :: _ => f.addr + 16 * f.pos), .write⟩, x.descNeed]
/-- Processing of a packet ends: its header word is zeroed, then RIDX passes it, then DONE if it has completed already (R392). -/
def endPacket (s : State) (q : Nat) : State :=
  let x := s.queue q
  let s := { s with woas := s.woas.filter fun w => w.who != Waiter.queue q }
  match x.calls with
  | [] =>
    let s := (chovisWrite s x.pasid (x.unitVa x.ridx) (leBytes 4 0)).getD s
    let r := (x.ridx + x.units) % 2 ^ 64
    let s := s.modQ q fun x => { x with
      proc := .idle, xtok := none, ridx := r, win := x.win.drop x.units, winDesc := x.winDesc.filter (fun d => decide (x.ridx + x.units ≤ d.1)),
      flights := modAt x.flights (x.flights.length - 1) fun f => { f with ended := true } }
    advanceDone q (s.queue q).flights.length (putDesc s q 8 8 r)
  | f :: fs =>
    let s := (chovisWrite s x.pasid (f.addr + 16 * f.pos) (leBytes 4 0)).getD s
    s.modQ q fun x => { x with proc := .idle, xtok := none, calls := { f with pos := f.pos + x.units } :: fs }
/-- Processing ends and the packet has completed. -/
def finishPacket (s : State) (q : Nat) : State := let ix := (s.queue q).lastIndex; partDone (endPacket s q) q ix

/-- The replay record of a packet that a thread has fetched (Table 17-5). -/
def logPacket (s : State) (q : Nat) (p : List Byte) : State := s.replayLog (s.queue q).pasid 1 0 (leBytes 8 q ++ leBytes 8 (s.queue q).ridx ++ p)
/-- A packet stops its queue. -/
def refuse (s : State) (q : Nat) (p : List Byte) (err : Nat) : State := stopQueue (logPacket s q p) q err

/-- A packet that has passed its checks is taken up. -/
def takeUp (s : State) (q : Nat) (p : List Byte) : State := beginPacket (logPacket s q p) q (packetUnits p) (bitsOf (fieldAt p 0 4) 17 17 == 1)

/-- The operands of a packet translate, or the thread waits for the host, or the queue stops (R422, ERR 4). -/
def withNeeds (s : State) (q : Nat) (ns : List Need) (k : State → State) : State :=
  let x := s.queue q
  if ns.all (reached s x.pasid) then k s
  else
    match ask s ⟨x.pasid, chovisCore, 5, 0, 0⟩ x.xtok.toList ns with
    | (s, .wait (t :: _)) => s.modQ q fun x => { x with xtok := some t }
    | (s, _) => dropFailed (stopQueue s q 4)

/-- A packet whose SIZE, reserved bits and alignment are as Table 18-4 says begins; the first rule broken stops the queue (R394); what its
end writes must translate. `zero`:
the bytes and masks of reserved fields; `bad`: an error of the fields. -/
def packetOp (q : Nat) (p : List Byte) (types : List Nat) (size : Option Nat) (zero : List (Nat × Nat)) (bad : Option Nat) (s : State) (k : State → State) : Res :=
  .next (if nextPacket s q != some p || !types.contains (unitType p) then s else
    if unitSize p == 0 || (match size with | some n => unitSize p != n | none => false) then refuse s q p 2
    else if decide (2 ^ 18 ≤ fieldAt p 0 4) || zero.any (fun z => fieldAt p z.1 z.2 != 0) then refuse s q p 3
    else
      match bad with
      | some e => refuse s q p e
      | none => withNeeds s q (endNeeds (s.queue q)) k)
/-! ### Packets (R395) -/

/-- LAUNCH (R400): LID, level, and the launch begins, fails or, with no block, completes. -/
def launchPacket (s : State) (q : Nat) (p : List Byte) (d : List Byte) : State :=
  let x := s.queue q
  let w := fieldAt p 4 4
  let prio := if bitsOf w 7 7 = 1 then w % 128 else bitsOf (fieldAt d 20 4) 6 0
  let level := if prio < x.prio then prio else x.prio
  if 112 ≤ level ∧ !x.rt then refuse s q p 7
  else
    let lid : Word := if s.lid + 1 = 0 then 1 else s.lid + 1
    let stat := fieldAt p 48 8
    let evt := fieldAt p 32 8
    -- a launch that ends as it begins writes its completion at once
    let atOnce (st : Nat) (id : Word) : State :=
      withNeeds s q (finishNeeds stat evt) fun s =>
        let s := takeUp { s with lid := lid } q p
        let ix := (s.queue q).lastIndex
        finishLaunch (endPacket s q) q ix x.pasid stat evt (BitVec.ofNat 64 (fieldAt p 40 8)) 0 st id
    match Kernel.ofBytes d with
    | none => atOnce 3 0
    | some k =>
      let n : Word := BitVec.ofNat 32 (fieldAt p 24 4)
      if n = 0 then atOnce 0 lid
      else
        let s' := takeUp { s with lid := lid } q p
        let l : Launch := {
          lid := lid, ctx := x.pasid, level := level, kernel := k, karg := BitVec.ofNat 64 (fieldAt p 16 8), nblk := n, evt := evt,
          eval := BitVec.ofNat 64 (fieldAt p 40 8), stat := stat, rsv := bitsOf w 8 8 == 1, queue := q, packet := (s'.queue q).lastIndex }
        let li := s.launches.length
        let s' : State := { s' with launches := s'.launches ++ [l] }
        let st := launchFails s' li
        if st ≠ 0 then atOnce st 0 else s'.modQ q fun x => { x with proc := .launch li }
/-- LAUNCH. -/
def execLaunch (q : Nat) (p : List Byte) (s : State) : Res :=
  let va := fieldAt p 8 8
  packetOp q p [1] (some 4) [(28, 4), (56, 8)]
    (if 2 ^ 9 ≤ fieldAt p 4 4 ∨ va % 128 ≠ 0 ∨ fieldAt p 32 8 % 8 ≠ 0 ∨ fieldAt p 48 8 % 16 ≠ 0 then some 3 else none) s fun s =>
    match (s.queue q).winDesc.find? fun d => (s.queue q).calls.isEmpty && d.1 == (s.queue q).ridx with
    | some d => launchPacket s q p d.2
    | none => withNeeds s q [⟨va, .read⟩] fun s => launchPacket s q p ((chovisRead s (s.queue q).pasid va 128).getD [])

/-- Records go to a feed's tail while there is room; the packet ends with the last (R326, R395). -/
def feedMore (q : Nat) : Nat → State → State
  | 0, s => s
  | n + 1, s =>
    let x := s.queue q
    match x.proc with
    | .feed h (r :: rs) =>
      let f := s.feedQ (hIndex h)
      if f.size ≤ f.count then s
      else
        let va := f.at f.tail
        withNeeds s q [⟨va, .write⟩] fun s =>
          let s := (chovisWrite s x.pasid va r).getD s
          let s := s.replayLog x.pasid 2 0 (leBytes 8 h.toNat ++ leBytes 8 f.tail ++ r)
          let s := s.modFeed (hIndex h) fun f => { f with tail := f.tail + 1, vecs := f.vecs ++ [none] }
          feedMore q n (s.modQ q fun x => { x with proc := .feed h rs, xtok := none })
    | .feed _ [] => finishPacket s q
    | _ => s
/-- FEED. -/
def execFeed (q : Nat) (p : List Byte) (s : State) : Res :=
  packetOp q p [2] none [(12, 4)] none s fun s =>
    let h : Word := BitVec.ofNat 32 (fieldAt p 4 4)
    let n := fieldAt p 8 4
    let b := (s.feedQ (hIndex h)).bytes
    if !s.feedNamed (s.queue q).pasid h then refuse s q p 7
    else if n = 0 ∨ unitSize p ≠ 1 + n * b / 16 then refuse s q p 2
    else
      let s := takeUp s q p
      feedMore q (n + 1) (s.modQ q fun x => { x with proc := .feed h ((List.range n).map fun k => ((p.drop (16 + b * k)).take b)) })

/-- The comparison of a WAIT packet. -/
def waitCmp (c : Nat) : WoaCmp :=
  match c with
  | 0 => .eq | 1 => .ne | 2 => .lt | _ => .ge
/-- A WAIT packet's watch of a word that does not translate: it stands at no place. -/
def noPlace : Nat := 2 ^ 64
/-- A WAIT packet watches its word where the word now lies, and reads it there at once (R421). -/
def watchWord (q : Nat) (w : Woa) (s : State) : State :=
  match chovisPa s (s.queue q).pasid w.va .read with
  | none => s
  | some pa =>
    let v := s.word pa
    let y : Woa := { w with
      pa := pa, polls := polledWord s pa, nextPoll := s.time + 512, hit := if w.cmp.holds v w.exp w.mask then some v else none, ext := w.ext || !localPa pa }
    ({ s with woas := s.woas.map fun x => if x.n = w.n then y else x } : State).modQ q fun x => { x with xtok := none }
/-- A WAIT packet's word is translated again: where that fails, the thread asks the host (R422). -/
def watchAgain (s : State) (q : Nat) (w : Woa) : State :=
  let lost : Woa := { w with pa := noPlace, polls := false }
  withNeeds { s with woas := s.woas.map fun x => if x.n = w.n then lost else x } q [⟨w.va, .read⟩] (watchWord q w)
/-- WAIT. -/
def execWait (q : Nat) (p : List Byte) (s : State) : Res :=
  let va := fieldAt p 8 8
  packetOp q p [3] (some 2) [] (if 4 ≤ fieldAt p 4 4 ∨ va % 4 ≠ 0 then some 3 else none) s fun s =>
    withNeeds s q [⟨va, .read⟩] fun s =>
      let pa := (chovisPa s (s.queue q).pasid va .read).getD 0
      let e : Word := BitVec.ofNat 32 (fieldAt p 16 4)
      let m : Word := BitVec.ofNat 32 (fieldAt p 20 4)
      let c := waitCmp (fieldAt p 4 4)
      let s := takeUp s q p
      if c.holds (s.word pa) e m then finishPacket s q
      else
        let n := s.woaNo + 1
        let w : Woa := { n := n, who := .queue q, pa := pa, va := va, mask := m, cmp := c, exp := e, polls := polledWord s pa, nextPoll := s.time + 512, outer := true }
        ({ s with woas := s.woas ++ [w], woaNo := n } : State).modQ q fun x => { x with proc := .wait s.time (fieldAt p 24 8) }

def waitLate (s : State) (q : Nat) : Bool :=
  (s.queue q).serving && (match (s.queue q).proc with | .wait t n => n != 0 && decide (n ≤ s.since t) | _ => false)
    && !s.woas.any fun w => w.who == Waiter.queue q && w.hit.isSome
/-- WAIT_TIMEOUT: TMO has passed before the condition held (ERR 5). -/
def execWaitTimeout (q : Nat) (s : State) : Res := .next (if waitLate s q then stopQueue s q 5 else s)

/-- SIGNAL. -/
def execSignal (q : Nat) (p : List Byte) (s : State) : Res :=
  let op := fieldAt p 4 4
  let va := fieldAt p 8 8
  let n := if op % 2 = 1 then 8 else 4
  packetOp q p [4] (some 2) [(24, 8)] (if 4 ≤ op ∨ va % n ≠ 0 then some 3 else none) s fun s =>
    withNeeds s q [⟨va, if 2 ≤ op then .atomic else .write⟩] fun s =>
      let pa := (chovisPa s (s.queue q).pasid va .write).getD 0
      let v := fieldAt p 16 8 + if 2 ≤ op then s.mem.le pa n else 0
      finishPacket ((takeUp s q p).outsideWrite pa (leBytes n v)) q

/-- FETCH_FENCE: nothing beyond it stays in the window (R397). -/
def execFetchFence (q : Nat) (p : List Byte) (s : State) : Res :=
  packetOp q p [5] (some 1) [(4, 12)] none s fun s =>
    let s := takeUp s q p
    finishPacket (s.modQ q fun x => if x.calls.isEmpty then { x with win := x.win.take 1, winDesc := [] } else { x with win := [], winDesc := [] }) q

/-- CALL: a buffer of packets is entered. -/
def execCallPacket (q : Nat) (p : List Byte) (s : State) : Res :=
  let n := fieldAt p 16 4
  packetOp q p [6] (some 2) [(4, 4), (20, 12)] (if fieldAt p 8 8 % 16 ≠ 0 ∨ n = 0 ∨ 2 ^ 24 < n then some 3 else none) s fun s =>
    if 4 ≤ (s.queue q).calls.length then refuse s q p 6
    else (endPacket (takeUp s q p) q).modQ q fun x => { x with calls := { addr := fieldAt p 8 8, units := n } :: x.calls }

/-- The innermost buffer is left; its CALL packet has completed as far as it goes itself. -/
def leaveBuffer (s : State) (q : Nat) : State :=
  let ix := (s.queue q).lastIndex
  partDone (s.modQ q fun x => { x with calls := x.calls.drop 1 }) q ix
/-- RETURN. -/
def execReturnPacket (q : Nat) (p : List Byte) (s : State) : Res :=
  packetOp q p [7] (some 1) [(4, 12)] none s fun s =>
    if (s.queue q).calls.isEmpty then refuse s q p 6 else leaveBuffer (finishPacket (takeUp s q p) q) q

/-- TIMESTAMP. -/
def execTimestamp (q : Nat) (p : List Byte) (s : State) : Res :=
  let va := fieldAt p 8 8
  packetOp q p [8] (some 1) [(4, 4)] (if va % 8 ≠ 0 then some 3 else none) s fun s =>
    withNeeds s q [⟨va, .write⟩] fun s =>
      let s := takeUp s q p
      finishPacket ((chovisWrite s (s.queue q).pasid va (leBytes 8 s.time)).getD s) q

/-- PRIORITY: PRIO of the descriptor is rewritten. -/
def execPriority (q : Nat) (p : List Byte) (s : State) : Res :=
  let n := fieldAt p 4 4
  packetOp q p [9] (some 1) [(8, 8)] (if 128 ≤ n then some 3 else none) s fun s =>
    if 112 ≤ n ∧ !(s.queue q).rt then refuse s q p 7
    else
      let x := s.queue q
      withNeeds s q [⟨x.desc + 24, .read⟩, ⟨x.desc + 24, .write⟩] fun s =>
        let w := leNat ((chovisRead s x.pasid (x.desc + 24) 4).getD [])
        let s := (takeUp s q p).modQ q fun x => { x with prio := n }
        finishPacket (putDesc s q 24 4 (w - bitsOf w 30 24 * 2 ^ 24 + n * 2 ^ 24)) q

/-- COPY: the engine of cluster (queue mod 16) accepts the copy. Its accesses are checked and recorded under a party of their own, whose clock is
saturated and which knows every clock, so that they are ordered with everything and no report names them (log entry 72). -/
def execCopy (q : Nat) (p : List Byte) (s : State) : Res :=
  let src := fieldAt p 8 8
  let dst := fieldAt p 16 8
  let n := fieldAt p 24 4
  packetOp q p [10] (some 3) [(4, 4), (28, 20)] (if src % 16 ≠ 0 ∨ dst % 16 ≠ 0 ∨ n % 16 ≠ 0 ∨ n = 0 then some 3 else none) s fun s =>
    let s := takeUp s q p
    let c : CopyCmd := { queue := q, ctx := (s.queue q).pasid, core := 4 * (q % 16), kind := 8, race := .report, clk := 0xFFFFFF, know := KVec.top, gaddr := src, data := dst, bytes := n, slot := (s.queue q).lastIndex }
    endPacket { s with copies := s.copies ++ [c] } q

/-- EVENT: the value is written, VEC is raised. -/
def execEvent (q : Nat) (p : List Byte) (s : State) : Res :=
  let va := fieldAt p 8 8
  let vec := fieldAt p 4 4
  packetOp q p [11] (some 2) [(24, 8)] (if 256 ≤ vec ∨ va % 8 ≠ 0 then some 3 else none) s fun s =>
    withNeeds s q (if va = 0 then [] else [⟨va, .write⟩]) fun s =>
      let s := takeUp s q p
      let s := if va = 0 then s else (chovisWrite s (s.queue q).pasid va (leBytes 8 (fieldAt p 16 8))).getD s
      finishPacket (s.interrupt 0 vec (s.queue q).pasid) q

/-- NOP. A TYPE that Table 18-4 does not list stops the queue with ERR 1, and so does TYPE 0 in a CALL buffer. -/
def execNopPacket (q : Nat) (p : List Byte) (s : State) : Res :=
  .next (if nextPacket s q != some p || (unitType p != 0x0C && decide (1 ≤ unitType p) && decide (unitType p ≤ 0x0D)) then s else
    if unitType p ≠ 0x0C then refuse s q p 1
    else if unitSize p = 0 then refuse s q p 2
    else if 2 ^ 18 ≤ fieldAt p 0 4 then refuse s q p 3
    else withNeeds s q (endNeeds (s.queue q)) fun s => finishPacket (takeUp s q p) q)

/-! ### RESERVE_CORES (R34, R395) -/

def maskCores (m : Nat) : List Nat := (List.range 64).filter fun c => m / 2 ^ c % 2 = 1
/-- Do masked cores hold only a context's work? -/
def onlyCtx (s : State) (pasid m : Nat) : Bool := (maskCores m).all fun c => (coreBlocks s c).all fun b => (s.launch b.launch).ctx == pasid
/-- Cores reserved to a context or returned, with the clock pinned for them. -/
def setReserved (s : State) (cores : List Nat) (owner : Option Nat) (clk : Nat) : State :=
  { s with reserved := cores.foldl (fun xs c => setAt xs c owner) s.reserved, pinned := cores.foldl (fun xs c => setAt xs c clk) s.pinned }
/-- The fields that both forms share. -/
def reserveOp (q : Nat) (p : List Byte) (rel : Bool) (s : State) (k : State → State) : Res :=
  if bitsOf (fieldAt p 4 4) 0 0 ≠ (if rel then 1 else 0) then .next s
  else
    packetOp q p [13] (some 2) [(18, 2), (20, 12)] (if 2 ≤ fieldAt p 4 4 then some 3 else none) s fun s =>
      if !(s.queue q).rt then refuse s q p 7 else k s
/-- RESERVE_CORES with REL = 0: blocks of other contexts on the cores are pre-empted, for a context switch (R363). DESIGN CHOICE, log entry 85: one of them
that also stands on a core reserved to its own context is pre-empted like the others (R395), though R34 lets no other context's pre-emption touch that core.
Unsafe. -/
def execReserveCores (q : Nat) (p : List Byte) (s : State) : Res :=
  reserveOp q p false s fun s =>
    let m := fieldAt p 8 8
    let pasid := (s.queue q).pasid
    let cores := maskCores m
    if cores.any fun c => match (s.reserved[c]?).join with | some x => x != pasid | none => false then refuse s q p 7
    else
      let clk := fieldAt p 16 2
      let s := setReserved (takeUp s q p) cores (some pasid) clk
      let s := { s with launches := s.launches.map fun l => if l.ctx != pasid && l.claim.any cores.contains then { l with claim := [] } else l }
      let others := (standing s).filter fun bi => let b := s.block bi; b.cores.any cores.contains && (s.launch b.launch).ctx != pasid
      (others.foldl (requestBlock 3) s).modQ q fun x => { x with proc := .reserve m }
/-- RESERVE_CORES with REL = 1: the context's cores return to general use. -/
def execReleaseCores (q : Nat) (p : List Byte) (s : State) : Res :=
  reserveOp q p true s fun s =>
    let pasid := (s.queue q).pasid
    let s := takeUp s q p
    finishPacket (setReserved s ((maskCores (fieldAt p 8 8)).filter fun c => (s.reserved[c]?).join == some pasid) none 0) q

/-! ### Copy commands complete (R290 to R296, R302, R395) -/

/-- One chunk of a COPY packet. -/
def copyPacketChunk (c : CopyCmd) (p : CmdParty) (r : CmdRun) (k : Chunk) : CmdRun :=
  match engineRead r p ((c.gaddr + k.off) % 2 ^ 64) 16 2 with
  | (r, none) => r
  | (r, some bs) => (engineWrite r p ((c.data + k.off) % 2 ^ 64) 2 bs).1
/-- The translations that a COPY packet needs. -/
def copyPacketNeeds (c : CopyCmd) : List Need := c.chunks.flatMap fun k => [⟨(c.gaddr + k.off) % 2 ^ 64, .read⟩, ⟨(c.data + k.off) % 2 ^ 64, .write⟩]

/-- A command runs whole: every chunk moves, then it completes. -/
def runCopy (s : State) (c : CopyCmd) : State :=
  let p := c.party s
  let (s, cks) := s.mixed c.chunks
  match c.gi with
  | none =>
    let r := cks.foldl (copyPacketChunk c p) { s := s }
    let s := partDone r.s c.queue c.slot
    if r.err.isSome then s.modQ c.queue fun x => { x with owedErr := 4 } else s
  | some gi => finishCopy (cks.foldl (copyChunk c p (c.places (s.block c.block))) { s := s, err := c.listErr, race := c.listRace }) c gi

/-- COPY_COMMAND_COMPLETE: the n-th outstanding command completes, or waits for the host (R422). -/
def execCopyCommandComplete (n : Nat) (s : State) : Res :=
  .next (match s.copies[n]? with
    | none => s
    | some c =>
      let a : Asker := match c.gi with
        | some gi => ⟨c.ctx, c.core, 0, (s.launchOf (s.group gi)).lid, c.id⟩
        | none => ⟨c.ctx, c.core, 0, 0, 0⟩
      match ask s a c.waits (if c.gi.isNone then copyPacketNeeds c else c.needs) with
      | (s, .wait ts) => { s with copies := modAt s.copies n fun c => { c with waits := ts } }
      | (s, .go) => dropFailed (runCopy { s with copies := dropAt s.copies n } c))

/-! ### Issue slots (R20, Table 18-4) -/

/-- The issues that processing of a packet takes. -/
def packetIssues (s : State) (p : List Byte) : Nat :=
  match unitType p with
  | 1 => 3
  | 2 => 2 + fieldAt p 8 4 * (s.feedQ (hIndex (BitVec.ofNat 32 (fieldAt p 4 4)))).bytes / 64
  | 3 => 3
  | 4 => 2
  | 6 => 2
  | 8 => 2
  | 9 => 2
  | 10 => 2
  | 11 => 2
  | 13 => 4
  | _ => 1
/-- A queue's thread counts the issues of the packet at hand: it is processed in the last of them (R20). One that appears in the thread's own slot begins with
the next. -/
def countIssues (s : State) (q : Nat) : State :=
  let x := s.queue q
  match nextPacket s q with
  | none => if x.lag.isNone then s else s.modQ q fun x => { x with lag := none }
  | some p =>
    if x.lag.isSome then s
    else s.modQ q fun x => { x with lag := some (packetIssues s p - 1 + if s.slotNow = x.thread then 1 else 0) }
/-- Does a queue's thread process the packet at hand in the running slot? -/
def slotDue (s : State) (q : Nat) : Bool := let x := s.queue q; x.mapped && x.thread == s.slotNow && x.lag == some 0
/-- The slot of a thread is over. -/
def slotOver (s : State) (slot : Nat) : State :=
  { s with queues := s.queues.map fun e => if e.2.mapped && e.2.thread == slot then (e.1, { e.2 with lag := e.2.lag.map (· - 1) }) else e }

/-! ### Mapping (R388) -/

/-- Does an unmapped queue wait for a thread? -/
def wantsThread (s : State) (x : Queue) : Bool := x.serving && !x.mapped && (x.pin || workOf s x != 0)
/-- Is a mapped queue's thread blocked: nothing in processing, and its ring empty, its next header not written or its BARRIER waiting? The ring of a queue
that has stopped may be empty like any other. -/
def threadBlocked (s : State) (q : Nat) : Bool :=
  let x := s.queue q
  x.mapped && x.proc == .idle && x.calls.isEmpty && x.xtok.isNone && x.owedErr == 0 && (workOf s x == 0 || (x.serving && (nextPacket s q).isNone))
/-- Does one wait longer than another, by the times since which they wait? -/
def waitsLonger (s : State) (a b : Option Nat) : Bool :=
  match a, b with
  | some a, some b => decide (s.since b < s.since a)
  | some _, none => true
  | none, _ => false
/-- Pinned queues first, then higher PRIO, then the longer wait. -/
def mapsBefore (s : State) (a b : Nat × Queue) : Bool :=
  if a.2.pin != b.2.pin then a.2.pin
  else if a.2.prio ≠ b.2.prio then decide (b.2.prio < a.2.prio)
  else waitsLonger s a.2.since b.2.since || (!waitsLonger s b.2.since a.2.since && decide (a.1 < b.1))
/-- The queue that loses its thread to another. -/
def mapVictim (s : State) (x : Queue) : Option Nat :=
  let vs := s.queues.filter fun e => !e.2.pin && threadBlocked s e.1 && (x.pin || decide (e.2.prio < x.prio))
  (vs.find? fun a => vs.all fun b => b.1 == a.1 || decide (a.2.prio < b.2.prio) || (a.2.prio == b.2.prio
    && (waitsLonger s a.2.blockedAt b.2.blockedAt || (!waitsLonger s b.2.blockedAt a.2.blockedAt && decide (a.1 < b.1))))).map (·.1)
def mappedCount (s : State) : Nat := (s.queues.filter fun e => e.2.mapped).length
def mapDue (s : State) (q : Nat) : Bool :=
  let x := s.queue q
  s.mgmt.boot == .ready && wantsThread s x && s.queues.all (fun e => e.1 == q || !wantsThread s e.2 || mapsBefore s (q, x) e)
    && (decide (mappedCount s < 32) || (mapVictim s x).isSome)
/-- Since when a queue waits for a thread, its ring is empty, its thread is blocked (R388). -/
def countQueue (s : State) (q : Nat) : State :=
  let x := s.queue q
  let since (b : Bool) (t : Option Nat) : Option Nat := if b then some (t.getD s.time) else none
  let y := { x with
    since := since (wantsThread s x) x.since, blockedAt := since (threadBlocked s q) x.blockedAt,
    emptyAt := since (threadBlocked s q && workOf s x == 0) x.emptyAt }
  if y = x then s else s.setQueue q y
/-- A queue loses its thread: it keeps no window. -/
def unmap (s : State) (q : Nat) : State := s.modQ q fun x => { x with mapped := false, win := [], winDesc := [], emptyAt := none, blockedAt := none, lag := none }
/-- A thread that no queue owns. -/
def freeThread (s : State) : Nat := ((List.range 32).find? fun k => s.queues.all fun e => !e.2.mapped || e.2.thread != k).getD 0
/-- QUEUE_MAP. -/
def execQueueMap (q : Nat) (s : State) : Res :=
  .next (if !mapDue s q then s else
    let s := if mappedCount s < 32 then s else match mapVictim s (s.queue q) with | some v => unmap s v | none => s
    s.modQ q fun x => { x with mapped := true, thread := freeThread s, since := none })

def unmapDue (s : State) (q : Nat) : Bool :=
  let x := s.queue q
  x.mapped && !x.pin && threadBlocked s q && workOf s x == 0 && (match x.emptyAt with | some t => decide (10000 ≤ s.since t) | none => false)
/-- QUEUE_UNMAP_IDLE: the ring has stayed empty for 10 µs. -/
def execQueueUnmapIdle (q : Nat) (s : State) : Res := .next (if unmapDue s q then unmap s q else s)

end Sys2Proof.Machine
end

