-- ==== Sys2Proof/Machine/Driver.lean ====
section
/-! DEFINITION. Sys2Proof/Machine/Driver.lean: the driver ring and its commands, teardown, the watchdog (R305, R343, R369, R370, R380, R386, R389,
R403 to R409, R455). -/

namespace Sys2Proof.Machine

open Sys2Proof

/-! ### The driver ring (R403, R455) -/

/-- Where the record of an index stands. -/
def driverAt (s : State) (i : Nat) : Nat := bitsOf s.mgmt.drvring.toNat 51 0 + 64 * (i % 2 ^ bitsOf s.mgmt.drvring.toNat 63 56)
/-- The record at the next index, when it is new and the thread is free. -/
def driverNext (s : State) : Option (Nat × List Byte) :=
  let r := s.mem.read (driverAt s s.drvNext) 64
  if s.mgmt.boot == .ready && s.mgmt.drvring != 0 && fieldAt r 0 1 != 0 && s.ctxs.all (fun c => !c.alive || c.tearing.isNone) then some (s.drvNext, r)
  else none

/-- RESULT, zero in bytes 0 to 3, then STATUS, in the record at an address. -/
def reply (s : State) (a result outcome : Nat) : State :=
  let s := (s.outsideWrite (a + 8) (leBytes 8 result)).outsideWrite a (leBytes 4 0)
  s.outsideWrite (a + 4) (leBytes 4 (2 ^ 31 + outcome))
/-- The record of an index is answered and the thread goes to the next. -/
def answer (s : State) (i result outcome : Nat) : State := { reply s (driverAt s i) result outcome with drvNext := i + 1 }

/-- What a command answers: the state, RESULT and the outcome. -/
structure Answer where
  s : State
  result : Nat := 0
  outcome : Nat := 0

/-- The j-th 8-byte argument of a record. -/
def argOf (r : List Byte) (j : Nat) : Nat := fieldAt r (16 + 8 * j) 8
/-- Is a nonzero byte outside the arguments, which end at a byte? -/
def strayByte (r : List Byte) (end_ : Nat) : Bool := fieldAt r 1 3 != 0 || (r.drop end_).any (· != 0)

/-- A command of the ring's next record with n arguments: the first check that fails gives outcome 1, else the command answers. -/
def driverOp (code n i : Nat) (r : List Byte) (s : State) (bad : (Nat → Nat) → Bool) (k : (Nat → Nat) → Answer) : Res :=
  .next (if driverNext s != some (i, r) || fieldAt r 0 1 != code then s
    else if strayByte r (16 + 8 * n) || bad (argOf r) then answer s i 0 1
    else let x := k (argOf r); answer x.s i x.result x.outcome)
/-- The same for a command on a context: outcome 3 when none holds the PASID. -/
def ctxOp (code n at_ i : Nat) (r : List Byte) (s : State) (bad : (Nat → Nat) → Bool) (k : (Nat → Nat) → Answer) : Res :=
  driverOp code n i r s (fun a => decide (2 ^ 20 ≤ a at_) || bad a) fun a => if (s.ctx (a at_)).alive then k a else { s := s, outcome := 3 }

/-- A code that Table 18-8 does not list. -/
def execDriverUnknownCommand (i : Nat) (r : List Byte) (s : State) : Res :=
  .next (if driverNext s != some (i, r) || decide (fieldAt r 0 1 ≤ 12) then s else answer s i 0 1)

/-! ### CTX_CREATE (R404) -/

/-- The race mode of a code. -/
def raceMode (n : Nat) : RaceMode :=
  match n with
  | 0 => .off
  | 1 => .trap
  | _ => .report

/-- The context that a record describes; none when a field breaks Table 18-9. DESIGN CHOICE, log entry 78: the spec gives no outcome for a sync area's k
above 16 (R251) or for a ring's n outside 4 to 16 (R256, R406), and the model creates such a context. Unsafe. -/
def Ctx.ofRecord (bs : List Byte) : Option Ctx :=
  let f := fieldAt bs
  let set := f 12 4
  let bit (n : Nat) : Bool := bitsOf set n n == 1
  let rings := (List.range 6).map fun k => (bitsOf (f (40 + 8 * k) 8) 51 0, bitsOf (f (40 + 8 * k) 8) 63 56)
  let k := bitsOf set 20 17 + 6
  let bad := decide (2 ^ 21 ≤ set) || bitsOf set 3 2 == 3 || ((bs.drop 112).take 144).any (· != 0)
    || rings.any (fun r => r.1 % 64 != 0 || decide (2 ^ 48 ≤ r.1)) || (List.range 6).any (fun k => bitsOf (f (40 + 8 * k) 8) 55 52 != 0)
    || f 104 8 % 2 ^ (k + 12) != 0
  if bad then none else some {
    root := f 0 8, pinWays := BitVec.ofNat 16 (f 10 2), ways := BitVec.ofNat 16 (f 8 2), ceiling := BitVec.ofNat 2 set,
    raceDef := raceMode (bitsOf set 3 2), raceGrant := BitVec.ofNat 3 (bitsOf set 6 4), trace := bit 7, stamp := bit 8, replay := bit 9,
    traceDef := bit 10, cap := bitsOf set 16 11 + 1, syncK := k, shadow := f 16 8, save := bitsOf (f 24 8) 55 0, saveLog := bitsOf (f 24 8) 63 56,
    sysh := f 32 8, rings := rings, traceBase := f 88 8, wdog := (if f 96 4 = 2 ^ 32 - 1 then 500 else f 96 4), xtmo := f 100 4, sync := f 104 8 }

/-- The lowest PASID from 1 that no context holds. -/
def freePasid (s : State) : Nat := ((List.range (s.ctxs.length + 1)).find? fun k => s.ctxs.all fun c => !c.alive || c.pasid != k + 1).getD 0 + 1
/-- The generation of a PASID (R404). -/
def genOf (s : State) (pasid : Nat) : BitVec 8 := ((s.gens.find? fun e => e.1 == pasid).map (·.2)).getD 0
/-- Ways that contexts hold pinned. -/
def pinnedWays (s : State) : BitVec 16 := s.ctxs.foldl (fun m c => if c.alive then m ||| c.pinWays else m) 0
/-- The header of an event ring (Table 18-10). -/
def ringHeader (e : Nat) : List Byte := leBytes 20 0 ++ leBytes 4 e ++ leBytes 40 0

/-- CTX_CREATE. A context whose mask includes a way that this one pins keeps its mask as it is: R404 refuses only what other contexts hold pinned; its lines
enter that way no more (R209, log entry 73). -/
def execCtxCreate (i : Nat) (r : List Byte) (s : State) : Res :=
  driverOp 1 1 i r s (fun a => !framePa (a 0)) fun a =>
    match Ctx.ofRecord (s.mem.read (a 0) 256) with
    | none => { s := s, outcome := 1 }
    | some c =>
      if pinnedWays s &&& (c.pinWays ||| c.ways) ≠ 0 then { s := s, outcome := 4 }
      else
        let p := freePasid s
        let g := genOf s p
        let s : State := { s with
          ctxs := s.ctxs ++ [{ c with pasid := p, gen := g }],
          traces := s.traces.map fun t => { t with rings := t.rings.filter (fun e => e.1 != p), synced := t.synced.filter (· != p) } }
        let s := (indexed c.rings).foldl (fun s e => if e.2.1 = 0 then s else s.outsideWrite e.2.1 (ringHeader (ringEntry e.1))) s
        { s := s, result := p + 2 ^ 20 * g.toNat }

/-! ### QUEUE_SET (R389) -/

/-- A queue as its descriptor gives it; none when a field breaks Table 18-1. -/
def Queue.ofDesc (bs : List Byte) (pasid desc : Nat) : Option Queue :=
  let f := fieldAt bs
  let w := f 24 4
  let v := f 28 4
  if decide (2 ^ 52 ≤ f 0 8) || f 0 8 % 64 != 0 || decide (2 ^ 10 ≤ v) || bitsOf v 8 8 != 0 || f 48 16 != 0 || bitsOf w 19 0 != pasid then none
  else some {
    enabled := bitsOf w 31 31 == 1, pasid := pasid, desc := desc, base := f 0 8, logsz := bitsOf w 23 20, prio := bitsOf w 30 24,
    rt := bitsOf v 9 9 == 1, intvec := BitVec.ofNat 8 v, ridx := f 8 8, done := f 32 8 }

/-- Packets of a queue number that is given to another descriptor no longer count there. -/
def orphan (s : State) (q : Nat) : State :=
  { s with
    launches := s.launches.map fun l => if l.queue = q then { l with queue := 4096 } else l,
    copies := s.copies.map fun c => if c.gi.isNone && c.queue == q then { c with queue := 4096 } else c,
    woas := s.woas.filter fun w => w.who != Waiter.queue q }

/-- The queue after QUEUE_SET, from what the descriptor holds and what the number held before. -/
def setQueueOf (old new : Queue) (restart pin : Bool) : Queue :=
  let x : Queue := if restart && old.pasid == new.pasid then { new with
      ridx := old.ridx, done := old.done, proc := old.proc, units := old.units, calls := old.calls, mapped := old.mapped, thread := old.thread,
      flights := old.flights.map fun f => { f with parts := f.parts - f.lost, lost := 0 } }
    else new
  { x with pin := pin, mapped := x.mapped && x.enabled }

/-- QUEUE_SET: places, pins or restarts a queue. -/
def execQueueSet (i : Nat) (r : List Byte) (s : State) : Res :=
  ctxOp 3 4 1 i r s (fun a => decide (4096 ≤ a 0) || decide (4 ≤ a 3)) fun a =>
    let q := a 0
    let pin := a 3 % 2 == 1
    let restart := decide (2 ≤ a 3)
    match if a 2 % 64 = 0 then chovisRead s (a 1) (a 2) 64 else none with
    | none => { s := s, outcome := 1 }
    | some bs =>
      match Queue.ofDesc bs (a 1) (a 2) with
      | none => { s := s, outcome := 1 }
      | some x =>
        if !restart && x.ridx != x.done then { s := s, outcome := 1 }
        else if decide (112 ≤ x.prio) && !x.rt then { s := s, outcome := 4 }
        else if pin && decide (32 ≤ (s.queues.filter fun e => e.2.pin && e.1 != q).length) then { s := s, outcome := 2 }
        else
          let old := s.queue q
          let s := if restart && old.pasid == a 1 then s else orphan s q
          { s := showState (s.setQueue q (setQueueOf old x restart pin)) q 0 (if x.enabled then 0 else 4) }

/-! ### Binding commands (R304, R305, R319) -/

/-- One of the free slots, as the device chooses (log entry 4). -/
def freeSlot (s : State) (slots : List Nat) : Option (State × Nat) :=
  match slots with
  | [] => none
  | xs => let (s, k) := s.chooseOf xs.length; some (s, xs[k]?.getD 0)

/-- POOL_BIND. -/
def execPoolBind (i : Nat) (r : List Byte) (s : State) : Res :=
  ctxOp 4 4 0 i r s (fun a => a 1 % 64 != 0 || a 2 % 64 != 0 || decide (a 2 < 64) || decide (4096 < a 2) || decide (a 3 < 1) || decide (2 ^ 24 < a 3)) fun a =>
    match freeSlot s ((List.range 256).filter fun k => !(s.pool k).bound) with
    | none => { s := s, outcome := 2 }
    | some (s, k) =>
      let g := nextGen (s.pool k).gen
      { s := s.modPool k fun _ => { bound := true, gen := g, ctx := a 0, base := a 1, nodeb := a 2, cap := a 3, free := a 3 },
        result := (mkHandle k g).toNat }

/-- CQ_BIND: the free Syzygy queues of the cluster. -/
def execCqBind (i : Nat) (r : List Byte) (s : State) : Res :=
  ctxOp 5 3 0 i r s (fun a => decide (16 ≤ a 1) || decide (2 ^ 32 ≤ a 2) || a 2 % 4 == 3) fun a =>
    match freeSlot s (((List.range 8).map (8 * a 1 + ·)).filter fun k => !(s.syz k).bound) with
    | none => { s := s, outcome := 2 }
    | some (s, k) =>
      let g := nextGen (s.syz k).gen
      { s := s.modSyz k fun _ => { bound := true, gen := g, ctx := a 0, cfg := BitVec.ofNat 32 (a 2) }, result := (mkHandle k g).toNat }

/-- FEED_BIND: rings of 2^4 to 2^16 records. -/
def execFeedBind (i : Nat) (r : List Byte) (s : State) : Res :=
  ctxOp 6 4 0 i r s (fun a => a 1 % 64 != 0 || decide (a 2 < 4) || decide (16 < a 2) || !([16, 32, 64].contains (a 3))) fun a =>
    match freeSlot s ((List.range 64).filter fun k => !(s.feedQ k).bound) with
    | none => { s := s, outcome := 2 }
    | some (s, k) =>
      let g := nextGen (s.feedQ k).gen
      { s := s.modFeed k fun _ => { bound := true, gen := g, ctx := a 0, base := a 1, n := a 2, bytes := a 3 }, result := (mkHandle k g).toNat }

/-! ### Commands on groups (R342, R343, R369, R370) -/

/-- The group that holds an identifier. -/
def groupById (s : State) (id : Nat) : Option Nat := findAt (fun g => g.id.toNat == id && g.state != .retired) s.groups
/-- A command on a group: outcome 3 when none holds the identifier. -/
def groupOp (code n i : Nat) (r : List Byte) (s : State) (bad : (Nat → Nat) → Bool) (k : (Nat → Nat) → Nat → Answer) : Res :=
  driverOp code n i r s (fun a => decide (2 ^ 18 ≤ a 0) || bad a) fun a =>
    match groupById s (a 0) with
    | some gi => k a gi
    | none => { s := s, outcome := 3 }

/-- The trap registers that a record holds, each kept to its width (Table 2-4). -/
def trapOf (r : List Byte) : Trap :=
  let w (k : Nat) : Word := BitVec.ofNat 32 (fieldAt r (24 + 4 * k) 4)
  { code := w 0, pcLo := w 1, pcHi := w 2 &&& 0xFFFFF, addrLo := w 3, addrHi := w 4, mask := w 5 &&& 0xFFFF, info := w 6, skid := w 7 &&& 0x7FFFFF }
/-- Does a group wait for the host behind a stop that went to Chovis? -/
def hostHalted (s : State) (gi : Nat) : Bool :=
  (s.group gi).hold == .solo || (match (s.blockOf (s.group gi)).halt with | some h => h.phase == .chovis && h.stopper == gi | none => false)
/-- BLOCK_RESUME: as `eret.r` with the trap registers given; a system call that is resumed past takes no reply. -/
def execBlockResume (i : Nat) (r : List Byte) (s : State) : Res :=
  groupOp 7 5 i r s (fun _ => false) fun _ gi =>
    if !hostHalted s gi then { s := s, outcome := 3 }
    else
      let s := { s with sysreqs := s.sysreqs.filter fun q => !(q.gi == gi && !q.inHandler) }
      let s := s.modG gi fun g => { g with trap := trapOf r }
      let g := s.group gi
      let (pc, m) := replayPoint s gi (((g.fragAt g.stopFid).map fun fi => (g.frag fi).amask).getD 0)
      { s := resumeChovis s gi pc m }
/-- BLOCK_TERM. -/
def execBlockTerm (i : Nat) (r : List Byte) (s : State) : Res :=
  groupOp 8 1 i r s (fun _ => false) fun _ gi => { s := terminateBlock s (s.group gi).block }
/-- DBG_SET: bits [31:2] of the control word are ignored. -/
def execDbgSet (i : Nat) (r : List Byte) (s : State) : Res :=
  groupOp 9 2 i r s (fun a => decide (2 ^ 32 ≤ a 1)) fun a gi =>
    { s := s.modG gi fun g => { g with debugStep := bitsOf (a 1) 0 0 == 1, debugFreeze := bitsOf (a 1) 1 1 == 1 } }
/-- DBG_ICINV: the line leaves every instruction cache. -/
def execDbgIcinv (i : Nat) (r : List Byte) (s : State) : Res :=
  ctxOp 10 2 0 i r s (fun _ => false) fun a => { s := dropCode s (a 0) (List.range 64) [a 1 / 64] }

/-! ### PROF and DUMP_SET (R380, R386) -/

/-- The ranges of a table. -/
def profRanges (s : State) (a : Nat) : List (Nat × Nat) := (List.range 64).map fun k => (s.mem.le (a + 16 * k) 8, s.mem.le (a + 16 * k + 8) 8)
/-- The aggregates: 80 bytes a range, then the counters outside every range. -/
def Prof.bytes (p : Prof) : List Byte :=
  let row (k : Nat) : List Byte := (p.counts[k]?.getD []).flatMap fun n => leBytes 4 n
  ((List.range 64).flatMap fun k => leBytes 8 ((p.ranges[k]?.getD (0, 0)).1) ++ leBytes 8 ((p.ranges[k]?.getD (0, 0)).2) ++ row k) ++ row 64
/-- PROF: with READ = 0 profiling begins, every counter at zero; with READ = 1 the aggregates are written. -/
def execProf (i : Nat) (r : List Byte) (s : State) : Res :=
  ctxOp 11 5 0 i r s (fun a => decide (2 ≤ a 4) || a 3 % 64 != 0 || (a 4 == 0 && (decide (a 2 < 8) || decide (20 < a 2) || !framePa (a 1)))
      || (a 4 == 1 && !framePa (a 3))) fun a =>
    if a 4 = 0 then
      { s := s.modC (a 0) fun c => { c with prof := some { k := a 2, ranges := profRanges s (a 1), counts := List.replicate 65 (List.replicate 16 0) } } }
    else
      match (s.ctx (a 0)).prof with
      | none => { s := s, outcome := 3 }
      | some p => { s := s.outsideWrite (a 3) p.bytes }

/-- DUMP_SET: a base of 0 removes the region. -/
def execDumpSet (i : Nat) (r : List Byte) (s : State) : Res :=
  driverOp 12 2 i r s (fun a => a 0 % 64 != 0 || (a 0 != 0 && !(localPa (a 0) || hostPa (a 0)))) fun a =>
    { s := { s with dumpBase := a 0, dumpSize := if a 0 = 0 then 0 else a 1 } }

/-! ### Teardown (R407) -/

/-- A queue is disabled; the packet in processing is abandoned. -/
def disableQueue (s : State) (q : Nat) : State :=
  let x := s.queue q
  let s := { s with woas := s.woas.filter fun w => w.who != Waiter.queue q }
  let s := match chovisRead s x.pasid (x.desc + 27) 1 with
    | some [b] => putDesc s q 27 1 (b.toNat % 128)
    | _ => s
  let s := s.modQ q fun x => { x with
    enabled := false, mapped := false, flights := abandon x, proc := .idle, calls := [], win := [], winDesc := [], xtok := none, owedErr := 0, lag := none,
    since := none, emptyAt := none, blockedAt := none }
  showState s q x.err 4

/-- Everything of a context stops. What is parked or saved retires at its restore (Table 14-3). -/
def stopContext (s : State) (pasid : Nat) : State :=
  let s := ((s.queues.filter fun e => e.2.pasid == pasid).map (·.1)).foldl disableQueue s
  let blocks := (List.range s.blocks.length).filter fun bi => (s.launch (s.block bi).launch).ctx == pasid && (s.block bi).place != .done
  let s := blocks.foldl terminateBlock s
  let s := { s with spawnq := s.spawnq.filter fun c => (s.launch c.launch).ctx != pasid }
  let s := { s with launches := s.launches.map fun l => if l.ctx = pasid then { l with next := l.nblk.toNat, again := [], claim := [] } else l }
  let s := setReserved s ((List.range 64).filter fun c => (s.reserved[c]?).join == some pasid) none 0
  let g := genOf s pasid + 1
  let s := { s with gens := setAssoc s.gens pasid g }
  let s := s.modC pasid fun c => { c with gen := g }
  dropFailed { s with xfaults := s.xfaults.map fun x => if x.pasid = pasid then { x with gen := g, failed := true } else x }
/-- CTX_TEARDOWN: its record is answered when nothing of the context is outstanding; a write of DRVRING meanwhile takes effect behind it. -/
def execCtxTeardown (i : Nat) (r : List Byte) (s : State) : Res :=
  .next (if driverNext s != some (i, r) || fieldAt r 0 1 != 2 then s
    else if strayByte r 24 || decide (2 ^ 20 ≤ argOf r 0) then answer s i 0 1
    else if !(s.ctx (argOf r 0)).alive then answer s i 0 3
    else (stopContext { s with drvNext := i + 1 } (argOf r 0)).modC (argOf r 0) fun c => { c with tearing := some (driverAt s i) })

/-- Is nothing of a context outstanding? -/
def quiet (s : State) (pasid : Nat) : Bool :=
  s.groups.all (fun g => s.pasidOf g != pasid || g.state == .retired) && s.blocks.all (fun b => (s.launch b.launch).ctx != pasid || b.place == .done)
    && s.unperf.all (fun e => e.pasid != pasid) && s.copies.all (fun c => c.ctx != pasid) && s.cols.all (fun c => c.ctx != pasid)
    && s.dyns.all (fun c => c.ctx != pasid) && s.chovis.all fun r => r.ctx != pasid || r.held
def teardownDue (s : State) (pasid : Nat) : Bool := (s.ctx pasid).alive && (s.ctx pasid).tearing.isSome && quiet s pasid
/-- Launches whose records are not yet written receive status 4, with every block counted. -/
def failLaunches (s : State) (pasid : Nat) : State :=
  (List.range s.launches.length).foldl (fun s li =>
    let l := s.launch li
    if l.ctx ≠ pasid ∨ l.done then s
    else finishLaunch (s.modL li fun l => { l with done := true }) l.queue l.packet pasid l.stat l.evt l.eval (capAt l.nblk.toNat (2 ^ 24 - 1)) 4 l.lid) s
/-- The objects of a context are free again; their generations stay. -/
def freeObjects (s : State) (pasid : Nat) : State :=
  { s with
    trees := s.trees.map fun t => if t.ctx = pasid ∧ t.st ≠ .free then releaseTree t else t,
    pools := s.pools.map fun p => if p.ctx = pasid ∧ p.bound then { gen := p.gen } else p,
    syzygy := s.syzygy.map fun q => if q.ctx = pasid ∧ q.bound then { gen := q.gen } else q,
    feeds := s.feeds.map fun f => if f.ctx = pasid ∧ f.bound then { gen := f.gen } else f }
/-- What the trace units still hold of a context goes to no ring: PASID 0 is never assigned (R404). -/
def TraceUnit.forget (t : TraceUnit) (pasid : Nat) : TraceUnit :=
  { t with
    buf := t.buf.map fun p => if p.pasid = pasid then { p with pasid := 0 } else p, lossy := t.lossy.filter (· != pasid),
    rings := t.rings.filter (fun e => e.1 != pasid), synced := t.synced.filter (· != pasid),
    resync := t.resync.map fun r => (r.1, r.2.1, r.2.2.filter (· != pasid)) }
/-- TEARDOWN_COMPLETE. Nothing that the part holds for the PASID is left to a later context. -/
def execTeardownComplete (pasid : Nat) (s : State) : Res :=
  .next (if !teardownDue s pasid then s else
    match (s.ctx pasid).tearing with
    | none => s
    | some a =>
      let s := freeObjects (failLaunches s pasid) pasid
      let s := { s with
        tlb := s.tlb.filter (fun t => t.pasid != pasid), tlb2 := s.tlb2.filter (fun t => t.pasid != pasid), walks := s.walks.filter (fun w => w.pasid != pasid),
        icache := s.icache.filter (fun x => x.pasid != pasid), chovis := s.chovis.filter (fun r => r.ctx != pasid),
        sysreqs := s.sysreqs.filter (fun r => r.ctx != pasid), replayQ := s.replayQ.filter (fun r => r.1 != pasid),
        samples := s.samples.filter (fun e => e.1 / 1024 != pasid), traces := s.traces.map (TraceUnit.forget · pasid),
        xfaults := s.xfaults.filter (fun x => x.pasid != pasid), queues := s.queues.filter fun e => e.2.pasid != pasid }
      reply (s.modC pasid fun c => { c with alive := false, tearing := none, prof := none }) a 0 0)

/-! ### The watchdog (R408, R409) -/

/-- A block stops with WDOG behind one of its groups and is terminated; its record is owed. -/
def wdogStop (s : State) (gi kind : Nat) : State :=
  let g := s.group gi
  let lowest (b x : Nat) : Nat := if lowLane (g.frag x).amask < lowLane (g.frag b).amask then x else b
  let fi := (List.range g.frags.length).foldl lowest 0
  let pc := (g.frag fi).pc.toNat
  let s := s.traceFrag gi fi 0x08 (leBytes 1 0x11 ++ leBytes 7 pc)
  let s := s.modG gi fun g => { g with trap := stopTrap { g with skid := 0 } ⟨0x11, pc, 0, 0, 0⟩ }
  let s := ((s.groupsOf g.block).filter (· != gi)).foldl (fun s k => s.modG k fun x => { x with trap := siblingTrap { x with skid := 0 } g.id }) s
  terminateBlock (oweRecord s gi 1 (faultRecord s gi kind 0x11 0)) g.block

/-- The group of a block with the lowest GID. -/
def lowestGid (s : State) (bi : Nat) : Option Nat :=
  (s.groupsOf bi).foldl (fun m gi => match m with
    | none => some gi
    | some k => if (s.group gi).gid < (s.group k).gid then some gi else some k) none
def wdogDue (s : State) (pasid : Nat) : Bool :=
  let c := s.ctx pasid
  match c.wdogFrom with
  | some t => c.alive && c.wdog != 0 && decide (1000000 * c.wdog ≤ s.since t)
  | none => false
/-- WATCHDOG_EXPIRE: every block of the context is terminated, with KIND 3. -/
def execWatchdogExpire (pasid : Nat) (s : State) : Res :=
  .next (if !wdogDue s pasid then s else
    let blocks := (List.range s.blocks.length).filter fun bi => (s.launch (s.block bi).launch).ctx == pasid && (s.block bi).place != .done && !(s.block bi).terminated
    blocks.foldl (fun s bi => match lowestGid s bi with | some gi => wdogStop s gi 3 | none => s) (s.modC pasid fun c => { c with wdogFrom := none }))

/-- Has a fragment of a group stayed in one external wait for XTMO (R409)? -/
def xtmoDue (s : State) (gi : Nat) : Bool :=
  let g := s.group gi
  let n := (s.ctxOf g).xtmo
  n != 0 && g.state != .retired && !g.struck
    && g.frags.any fun f => match f.waitFrom with | some t => decide (1000000 * n ≤ s.since t) | none => false
/-- XTMO_EXPIRE: the group's block is terminated, with KIND 4. -/
def execXtmoExpire (gi : Nat) (s : State) : Res := .next (if xtmoDue s gi then wdogStop s gi 4 else s)

end Sys2Proof.Machine
end

