-- ==== Sys2Proof/Machine/Device.lean ====
section
/-! DEFINITION. Sys2Proof/Machine/Device.lean: the management window, boot, mailbox, the Borkai link, fatal errors, power and clocks (R21 to R23,
R241, R375, R386, R411 to R415, R421 to R428). -/

namespace Sys2Proof.Machine

open Sys2Proof

/-! ### Boot states and events (R413, R423) -/

def Boot.code : Boot → Nat
  | .reset => 0
  | .rom => 1
  | .verify => 2
  | .fwinit => 3
  | .ready => 4
  | .hold => 5
  | .mbxrun => 6
  | .fatal => 7

def State.setMgmt (s : State) (f : Mgmt → Mgmt) : State := { s with mgmt := f s.mgmt }
/-- Device event VEC (R413). -/
def deviceEvent (s : State) (vec : Nat) : State := s.interrupt 3 vec 0
/-- A boot state is entered, with the ERROR field of BOOTST; device event 0. -/
def enterBoot (s : State) (b : Boot) (err : Nat) : State := deviceEvent (s.setMgmt fun m => { m with boot := b, err := BitVec.ofNat 8 err }) 0

/-- A reset of the device: everything but flash, fuses, the link's messages and physical memory beyond `lost` returns to its value at
power-on. The counters of free values go on. -/
def resetDevice (s : State) (lost : Nat) : State :=
  { steps := s.steps, draws := s.draws, mem := s.mem.filter (fun c => decide (lost ≤ c.1)), memBad := s.memBad.filter (fun a => decide (lost ≤ a)),
    flash := s.flash, flashLen := s.flashLen, flashOpen := s.flashOpen, fuseSvn := s.fuseSvn, inputs := s.inputs, outbox := s.outbox }

/-- POWER_ON: power-on reset enters RESET, in which local DRAM has lost its contents; in RESET the boot ROM starts. -/
def execPowerOn (s : State) : Res :=
  .next (if s.mgmt.boot = .reset then enterBoot s .rom 0 else deviceEvent (resetDevice s (2 ^ 37)) 0)

/-! ### Firmware images (R424, Table 19-7) -/

/-- The error code of the image in a store, 0 when it passes. `room` is what the store leaves for the payload. -/
def imageError (m : Mem) (room : Nat) (minSvn : Nat) : Nat :=
  let plen := m.le 8 4
  let pk := m.read 64 1312
  if m.le 0 4 != 0x4D495753 || (m.read 16 48).any (· != 0) || (m.read 3796 44).any (· != 0) || decide (plen ≤ m.le 12 4) then 2
  else if Config.sha3 pk ≠ Config.fuseKeyHash then 3
  else if room < plen then 6
  else if !Config.mldsaVerify pk (m.read 0 64 ++ m.read 3840 plen) (m.read 1376 2420) then 4
  else if m.le 4 4 < minSvn then 5
  else 0
/-- MEAS1 and SVN of a running image. -/
def runImage (s : State) (m : Mem) : State :=
  let h := Config.sha3 (m.read 0 64 ++ m.read 3840 (m.le 8 4))
  s.setMgmt fun x => { x with meas1 := (List.range 32).map (fun k => h[k]?.getD 0), svn := BitVec.ofNat 32 (m.le 4 4) }

/-- ROM: fuses, links, and the image read from flash. -/
def execRom (s : State) : Res :=
  .next (if s.mgmt.boot ≠ .rom then s else if s.flashLen < 3840 then enterBoot s .hold 1 else enterBoot s .verify 0)
/-- VERIFY. A flash whose rewriting a reset has cut short fails one of the checks of R424; which, the spec does not say (R425, log entry 30). -/
def execVerify (s : State) : Res :=
  .next (if s.mgmt.boot ≠ .verify then s
    else if s.flashOpen then let (s, k) := s.chooseOf 5; enterBoot s .hold (2 + k)
    else
      let e := imageError s.flash (s.flashLen - 3840) s.fuseSvn.toNat
      if e = 0 then enterBoot (runImage s s.flash) .fwinit 0 else enterBoot s .hold e)
/-- The image that runs from the mailbox begins to rewrite the flash, and has rewritten it (R425). -/
def eraseFlash (s : State) : State := if s.mgmt.boot = .mbxrun then { s with flashOpen := true } else s
def writeFlash (s : State) (bs : List Byte) : State :=
  if s.mgmt.boot = .mbxrun ∧ s.flashOpen then { s with flash := Mem.write [] 0 bs, flashLen := bs.length, flashOpen := false } else s
/-- FWINIT: DRAM training or the firmware may fail, which the part decides (log entry 4). -/
def execFwinit (s : State) : Res :=
  .next (if s.mgmt.boot ≠ .fwinit then s else
    let s : State := { s with mailbox := [] }
    let (s, k) := s.chooseOf 3
    if k = 1 then enterBoot s .hold 7
    else if k = 2 then enterBoot s .hold 8
    else
      let s := s.setMgmt fun m => { m with identity := true }
      enterBoot { s with fuseSvn := if s.fuseSvn.toNat < s.mgmt.svn.toNat then s.mgmt.svn else s.fuseSvn } .ready 0)

/-! ### The management window (R425, R426, Table 19-4) -/

/-- What HOLD leaves reachable. -/
def holdReach (off : Nat) : Bool := [0x00, 0x08, 0x10, 0x18, 0x70, 0x100, 0x108, 0x110, 0x118].contains off || decide (0x80000 ≤ off)
def mgmtReach (s : State) (off : Nat) : Bool := s.mgmt.boot != .hold || holdReach off

/-- Eight bytes of a list of bytes at an offset, as a register shows them. -/
def show8 (f : Nat → Byte) (k : Nat) : Word64 := BitVec.ofNat 64 (leNat ((List.range 8).map fun j => f (k + j)))
/-- A bit at a place of a register. -/
def flag (b : Bool) (n : Nat) : Nat := if b then 2 ^ n else 0

/-- A read of the window: 8 bytes at an aligned offset. -/
def mgmtRead (s : State) (off : Nat) : Word64 :=
  let m := s.mgmt
  if off % 8 ≠ 0 ∨ 0x100000 ≤ off ∨ !mgmtReach s off then 0
  else if 0x80000 ≤ off then BitVec.ofNat 64 (s.mailbox.le (off - 0x80000) 8)
  else if 0x100 ≤ off ∧ off < 0x120 then show8 Config.romHash (off - 0x100)
  else if 0x120 ≤ off ∧ off < 0x140 then show8 (fun k => m.meas1[k]?.getD 0) (off - 0x120)
  else if 0x1000 ≤ off ∧ off < 0x1520 then (if m.identity then show8 Config.identityKey (off - 0x1000) else 0)
  else
    match off with
    | 0x00 => BitVec.ofNat 64 (0x0640 * 2 ^ 16 + Config.stepping.toNat * 2 ^ 8 + 1)
    | 0x08 => Config.serial
    | 0x10 => BitVec.ofNat 64 ((if s.dumpOwed then Boot.ready.code else m.boot.code) * 2 ^ 8 + m.err.toNat)
    | 0x20 => m.drvring
    | 0x28 => m.invalVa
    | 0x30 => BitVec.ofNat 64 (flag m.invalBusy 63 + flag m.invalAll 24 + m.invalPasid.toNat)
    | 0x40 => BitVec.ofNat 64 s.time
    | 0x48 => m.peerOff
    | 0x50 => BitVec.ofNat 64 (flag m.peerUp 0 + flag m.peerValid 1)
    | 0x58 => m.peerWin
    | 0x60 => m.power.setWidth 64
    | 0x68 => BitVec.ofNat 64 (m.temp.toNat + flag m.throttling 8 + flag m.pinnedLow 9)
    | 0x70 => BitVec.ofNat 64 (flag m.mbxBusy 63 + m.mbxResult.toNat * 2 ^ 56 + m.mbxOp.toNat * 2 ^ 48 + m.mbxLen.toNat)
    | 0x140 => m.svn.setWidth 64
    | _ => 0

/-- The host reads n bytes of the window: 8 at a time, or it reads zero (R426). -/
def readWindow (s : State) (off n : Nat) : State := { s with outbox := .reg off (if n = 8 then mgmtRead s off else 0) :: s.outbox }

/-- DRVRING: the thread's next index becomes 0; writable in READY only. -/
def execDrvring (v : BitVec 64) (s : State) : Res :=
  .next (if s.mgmt.boot ≠ .ready then s else { s.setMgmt fun m => { m with drvring := v &&& 0xFF0FFFFFFFFFFFFF } with drvNext := 0 })
/-- CTL: with the key and bit 0 the device is reset. -/
def execCtl (v : BitVec 64) (s : State) : Res :=
  .next (if bitsOf v.toNat 63 48 = 0xA5C3 ∧ v.getLsbD 0 then deviceEvent (resetDevice s 0) 0 else s)
/-- INVAL_CTL: GO begins an invalidation of the range that INVAL_VA then holds; a GO is ignored while one runs. -/
def execInvalCtl (v : BitVec 64) (s : State) : Res :=
  .next (if !mgmtReach s 0x30 then s
    else s.setMgmt fun m =>
      let m := { m with invalAll := v.getLsbD 24, invalPasid := v.truncate 20 }
      if m.invalBusy || !v.getLsbD 32 then m else { m with invalBusy := true, invalAt := m.invalVa, invalAtAll := m.invalAll, invalAtPasid := m.invalPasid })

/-- Is a page in the range that is invalidated? -/
def invalHits (m : Mgmt) (vpn : Nat) : Bool :=
  m.invalAtAll || (decide (bitsOf m.invalAt.toNat 51 12 ≤ vpn) && decide (vpn < bitsOf m.invalAt.toNat 51 12 + 2 ^ bitsOf m.invalAt.toNat 5 0))
/-- Have all accesses that went through such a page performed (R421)? -/
def invalDue (s : State) : Bool :=
  let p := s.mgmt.invalAtPasid.toNat
  s.mgmt.invalBusy
    && s.unperf.all (fun e => e.pasid != p || e.acc.all fun x => !invalHits s.mgmt (x.va / 4096))
    && s.groups.all fun g => g.xfers.isEmpty || s.pasidOf g != p || g.xfers.all fun x => x.space != .glob
/-- Does an entry of the walk cache lead to a page of the range? -/
def walkHits (m : Mgmt) (w : WalkEntry) : Bool :=
  let n := 2 ^ (9 * w.level)
  let lo := bitsOf m.invalAt.toNat 51 12
  m.invalAtAll || (decide (w.key * n < lo + 2 ^ bitsOf m.invalAt.toNat 5 0) && decide (lo < (w.key + 1) * n))
/-- Does a wait watch a word through a page of the range, with no satisfying read yet? -/
def woaHits (s : State) (w : Woa) : Bool :=
  let pasid := match w.who with | .frag gi _ => s.pasidOf (s.group gi) | .queue q => (s.queue q).pasid
  w.hit.isNone && pasid == s.mgmt.invalAtPasid.toNat && invalHits s.mgmt (w.va / 4096)
/-- A wait leaves the frame of an entry that is invalidated: a fragment registers again, a WAIT packet watches the word's new place or asks the host for it
(R421, R422). -/
def rewatch (s : State) (w : Woa) : State :=
  match w.who with
  | .frag gi fid =>
    ({ s with woas := s.woas.filter fun x => x.n != w.n } : State).modG gi fun g => { g with
      frags := g.frags.map fun f => if f.fid = fid ∧ f.stall = some (.woa w.n) then { f with stall := none } else f }
  | .queue q => watchAgain s q w
/-- INVALIDATION_COMPLETE. -/
def execInvalidationComplete (s : State) : Res :=
  .next (if !invalDue s then s else
    let p := s.mgmt.invalAtPasid.toNat
    let gone (t : TlbEntry) : Bool := t.pasid == p && invalHits s.mgmt t.vpn
    let ws := s.woas.filter (woaHits s)
    ws.foldl rewatch { s with
      tlb := s.tlb.filter (fun t => !gone t), tlb2 := s.tlb2.filter (fun t => !gone t), walks := s.walks.filter (fun w => !(w.pasid == p && walkHits s.mgmt w)),
      mgmt := { s.mgmt with invalBusy := false } })

/-- FRESP: the accesses that wait on a record walk again, or fail. -/
def execFresp (v : BitVec 64) (s : State) : Res :=
  let t : Word := v.truncate 32
  .next (if !mgmtReach s 0x38 then s
    else if v.getLsbD 63 then dropFailed { s with xfaults := s.xfaults.map fun x => if x.token = t then { x with failed := true } else x }
    else { s with xfaults := s.xfaults.filter fun x => x.token != t || x.failed })

/-- POWER: 120 to 320 W. -/
def execPower (v : BitVec 64) (s : State) : Res :=
  let w := bitsOf v.toNat 8 0
  .next (if w < 120 ∨ 320 < w ∨ !mgmtReach s 0x60 then s else s.setMgmt fun m => { m with power := BitVec.ofNat 9 w })

/-- MGMT_REGISTER_WRITE: INVAL_VA, PEERWIN, other operations of MBX, the mailbox; every other offset, and one that is not
a multiple of 8, ignores it. -/
def execMgmtRegisterWrite (off : Nat) (v : BitVec 64) (s : State) : Res :=
  .next (if !mgmtReach s off || off % 8 != 0 then s
    else if 0x80000 ≤ off then (if off + 8 ≤ 0x100000 then { s with mailbox := s.mailbox.write (off - 0x80000) (leBytes 8 v.toNat) } else s)
    else
      match off with
      | 0x28 => s.setMgmt fun m => { m with invalVa := v &&& 0x000FFFFFFFFFF03F }
      | 0x58 => s.setMgmt fun m => { m with peerWin := v &&& 0x0000FFFFFFE0003F }
      | 0x70 =>
        let op := bitsOf v.toNat 55 48
        if s.mgmt.mbxBusy || op == 1 || op == 2 then s
        else s.setMgmt fun m => { m with mbxOp := BitVec.ofNat 8 op, mbxLen := v.truncate 24 }
      | _ => s)

/-! ### The mailbox (R425, R427) -/

/-- An operation of the mailbox ends: OP, LEN, RESULT, device event 4. -/
def mbxDone (s : State) (op : Nat) (len : BitVec 24) (result : Nat) : State :=
  deviceEvent (s.setMgmt fun m => { m with mbxOp := BitVec.ofNat 8 op, mbxLen := len, mbxBusy := false, mbxResult := BitVec.ofNat 7 result }) 4
/-- MBX_BOOT_IMAGE: in HOLD the image is checked and runs. What RESULT shows in other states is not stated (log entry 7). -/
def execMbxBootImage (len : BitVec 24) (s : State) : Res :=
  .next (if s.mgmt.mbxBusy then s
    else if s.mgmt.boot ≠ .hold then let (s, r) := s.draw; mbxDone s 1 len r
    else
      let e := imageError s.mailbox (524288 - 3840) s.fuseSvn.toNat
      if e ≠ 0 then mbxDone s 1 len e
      else enterBoot (mbxDone (runImage s s.mailbox) 1 len 0) .mbxrun 0)
/-- MBX_QUOTE. -/
def execMbxQuote (len : BitVec 24) (s : State) : Res :=
  .next (if s.mgmt.mbxBusy then s
    else if s.mgmt.boot ≠ .ready then mbxDone s 2 len 1
    else
      let body := s.mailbox.read 0 32 ++ (List.range 32).map Config.romHash ++ s.mgmt.meas1 ++ leBytes 8 Config.serial.toNat ++ leBytes 4 s.mgmt.svn.toNat
        ++ leBytes 4 s.mgmt.boot.code ++ leBytes 8 s.time ++ leBytes 8 0
      let sig := Config.mldsaSign body
      mbxDone { s with mailbox := s.mailbox.write 0x1000 (body ++ (List.range 2420).map fun k => sig[k]?.getD 0) } 2 len 0)

/-! ### The Borkai link (R411 to R415) -/

/-- Does the device take a transaction of a class other than MGMT from a party? -/
def linkTakes (s : State) (src : Party) : Bool := s.mgmt.boot != .hold && (src == .host || s.mgmt.peerUp)
/-- TIME: the value of the host or the peer, with the device times of arrival and answer. -/
def execTime (ask : TimeAsk) (s : State) : Res :=
  .next (if !linkTakes s ask.src then s else { s with outbox := .time ask.src ask.h (BitVec.ofNat 64 s.time) (BitVec.ofNat 64 s.time) :: s.outbox })

/-- The next exchange with the peer is due; the peer has answered the last one. -/
def peerTimeDue (s : State) : Bool := s.mgmt.boot == .ready && s.mgmt.peerUp && decide (1000000 ≤ s.since s.peerAt)
def peerTimeHeard (s : State) : Bool := s.mgmt.boot == .ready && s.mgmt.peerUp && s.peerSaid.isSome
/-- The peer's answer to the request that stands reaches the part. -/
def hearPeer (s : State) (h d1 d2 : Word64) : State := if s.peerAsk = some h then { s with peerSaid := some (h, d1, d2, BitVec.ofNat 64 s.time) } else s
/-- The midpoint estimate of the peer's offset from an exchange: sent at h, taken at d1, answered at d2, received at t. The half nanosecond is dropped. -/
def midpoint (h d1 d2 t : Word64) : Word64 := BitVec.ofInt 64 (((d1 - h).toInt + (d2 - t).toInt) / 2)
/-- PEER_TIME_EXCHANGE: firmware takes the answer that has come, which gives PEEROFF; else, every 1 ms, it sends a TIME request to the peer. -/
def execPeerTimeExchange (s : State) : Res :=
  .next (match if peerTimeHeard s then s.peerSaid else none with
    | some (h, d1, d2, t) => { s.setMgmt fun m => { m with peerOff := midpoint h d1 d2 t, peerValid := true } with peerAsk := none, peerSaid := none }
    | none =>
      let now : Word64 := BitVec.ofNat 64 s.time
      if !peerTimeDue s then s else { s with peerAt := s.time, peerAsk := some now, outbox := .timeAsk now :: s.outbox })

/-- Is a peer access inside the window of PEERWIN? -/
def inPeerWin (s : State) (pa n : Nat) : Bool :=
  let k := bitsOf s.mgmt.peerWin.toNat 5 0
  let base := bitsOf s.mgmt.peerWin.toNat 47 21 * 2 ^ 21
  decide (21 ≤ k) && decide (k ≤ 37) && decide (base ≤ pa) && decide (pa + n ≤ base + 2 ^ k)
/-- Does its home perform it? -/
def homeTakes (s : State) (src : Party) (pa n : Nat) : Bool :=
  localPa pa && localPa (pa + n - 1) && (src == .host || inPeerWin s pa n)
/-- A transaction that its home performs, or answers with an error. -/
def atHome (s : State) (src : Party) (pa n : Nat) (ok : Bool) (k : State) : Res :=
  .next (if !linkTakes s src then s else if ok && homeTakes s src pa n then k else { s with outbox := .error src :: s.outbox })

/-- RD. -/
def execRd (src : Party) (pa len : Nat) (s : State) : Res :=
  atHome s src pa len (decide (1 ≤ len) && decide (len ≤ 64)) { s with outbox := .data src (s.mem.read pa len) :: s.outbox }

/-- A write from outside: entries that it satisfies show the host as their source (R384). -/
def linkWrite (s : State) (pa : Nat) (bs : List Byte) : State :=
  let woken (w : Woa) : Bool := s.woas.any fun o => o.n == w.n && o.hit.isNone
  let t := s.outsideWrite pa bs
  { t with woas := t.woas.map fun w => if w.hit.isSome && woken w then { w with ext := true } else w }
/-- WR. -/
def execWr (src : Party) (pa : Nat) (bytes : List Byte) (s : State) : Res :=
  let s' := linkWrite s pa bytes
  atHome s src pa bytes.length (decide (1 ≤ bytes.length) && decide (bytes.length ≤ 64)) { s' with outbox := .ack src :: s'.outbox }

/-- The bytes of memory that an operation updates. -/
def atomBytes (op : AtomOp) : Nat :=
  match op with
  | .add64 => 8 | .minI64 => 8 | .maxI64 => 8 | .minZ64 => 8 | .maxZ64 => 8 | .xch64 => 8 | .cas64 => 8
  | .cas128 => 16 | .maxp => 16 | .st4 => 1 | .st2 => 1
  | .add32 => 4 | .addF32 => 4 | .addBf16x2 => 4 | .addF16x2 => 4 | .minI => 4 | .maxI => 4 | .minZ => 4 | .maxZ => 4 | .and => 4 | .or => 4
  | .xor => 4 | .xch => 4 | .inc => 4 | .dec => 4 | .minF32 => 4 | .maxF32 => 4 | .cas32 => 4
/-- ATM: the home performs the operation and answers with the old value. -/
def execAtm (src : Party) (op : AtomOp) (pa : Nat) (v c : BitVec 128) (s : State) : Res :=
  let n := atomBytes op
  let old := s.mem.le pa n
  let s' := linkWrite s pa (leBytes n (atomApply op old (v.toNat % 2 ^ (8 * n)) (c.toNat % 2 ^ (8 * n))))
  atHome s src pa n (pa % n == 0) { s' with outbox := .old src (BitVec.ofNat 128 old) :: s'.outbox }

/-- OWN: the host holds a copy of a device line. -/
def execOwn (pa : Nat) (s : State) : Res :=
  let l := pa / 64
  atHome s .host (64 * l) 64 true
    { s with
      hostLines := if s.hostLines.contains l then s.hostLines else s.hostLines ++ [l],
      outbox := .data .host (s.mem.read (64 * l) 64) :: s.outbox }
/-- SNP: the host gives a line back. -/
def execSnp (pa : Nat) (s : State) : Res :=
  .next (if !linkTakes s .host then s
    else { s with hostLines := s.hostLines.filter (· != pa / 64), recalls := s.recalls.filter (· != pa / 64) })

/-- PEER_LINK_CHANGE: device event 3. -/
def execPeerLinkChange (up : Bool) (s : State) : Res :=
  .next (if s.mgmt.peerUp = up then s else deviceEvent (s.setMgmt fun m => { m with peerUp := up }) 3)

/-! ### Fatal errors (R386, Table 17-6) -/

/-- The lowest-lane fragment's PC. -/
def lowestPc (g : Group) : Nat := samplePc { g with issuedLast := none }
/-- The 32 bytes of a slot. -/
def slotSummary (s : State) (core slot : Nat) : List Byte :=
  match (coreGroups s core).find? fun g => g.slot == slot with
  | none => leBytes 32 0
  | some g =>
    leBytes 4 (g.id.toNat + (if g.state = .resident then 1 else 2) * 2 ^ 18) ++ leBytes 8 (lowestPc g)
      ++ maskBytes (g.frags.foldl (fun m f => m ||| f.amask) 0) ++ leBytes 1 g.frags.length ++ leBytes 1 (codeOf g) ++ leBytes 4 (s.launchOf g).lid.toNat
      ++ leBytes 4 g.trap.code.toNat ++ leBytes 8 g.trap.pc.toNat
/-- A core's section: number, clock, scratchpad and L1 bytes, then its slots. -/
def coreSection (s : State) (core : Nat) : List Byte :=
  let sp := s.split[core]?.getD 0
  padTo (leBytes 4 core ++ leBytes 4 (s.clock[clusterOf core]?.getD 0) ++ leBytes 4 sp ++ leBytes 4 (655360 - sp)) 64
    ++ (List.range 256).flatMap (slotSummary s core)
/-- A core's split tables, slot by slot. -/
def splitSection (s : State) (core : Nat) : List Byte :=
  (List.range 256).flatMap fun slot =>
    match (coreGroups s core).find? fun g => g.slot == slot with
    | none => leBytes 360 0
    | some g => (List.range 15).flatMap fun k => match (g.splits[k]?).join with | some e => splitBytes e | none => leBytes 24 0
/-- The groups with a trap record: those that a stop holds, or with a fault pending. -/
def trapGroups (s : State) : List Group := s.groups.filter fun g => g.holdsSlot && (g.hold != .run || g.pending.isSome)
def trapRecord (g : Group) : List Byte :=
  let pend : List Byte := match g.pending with
    | some p => leBytes 4 p.code ++ leBytes 8 p.pc ++ leBytes 8 p.addr.toNat ++ leBytes 4 p.info.toNat
    | none => leBytes 24 0
  padTo (leBytes 4 g.id.toNat ++ trapBytes g.trap ++ pend) 64
/-- The entries of the 32 serving threads: 8 bytes a field. -/
def threadSection (s : State) : List Byte :=
  let one (x : Queue) : List Byte := leBytes 8 x.base ++ leBytes 8 (2 ^ (x.logsz + 12)) ++ leBytes 8 x.ridx ++ leBytes 8 ((widxOf s x).getD 0) ++ leBytes 8 x.pasid
    ++ leBytes 8 x.prio ++ leBytes 8 x.shown ++ leBytes 8 0
  padTo (((s.queues.filter fun e => e.2.mapped).take 32).flatMap fun e => one e.2) 2048
/-- The newest bytes of a cluster's buffer. -/
def traceTail (s : State) (cl : Nat) : List Byte :=
  let t := s.traces[cl]?.getD {}
  let step (acc : List (Nat × Nat) × List Byte) (p : Packet) : List (Nat × Nat) × List Byte :=
    let dt := match acc.1.find? fun r => r.1 == p.pasid with | some r => if p.dt0 then 0 else p.cyc - r.2 | none => 0
    (setAssoc acc.1 p.pasid p.cyc, acc.2 ++ p.bytes dt)
  let bs := (t.buf.foldl step (t.rings, [])).2
  let bs := bs.drop (bs.length - 4096)
  leBytes 8 bs.length ++ bs
/-- The sections behind the header. -/
def dumpSections (s : State) : List (List Byte) :=
  [(List.range 64).flatMap (coreSection s), (List.range 64).flatMap (splitSection s), (trapGroups s).flatMap trapRecord, threadSection s,
   (List.range 16).flatMap (traceTail s)].map align64
/-- Where sections begin. -/
def offsetsFrom : Nat → List (List Byte) → List Nat
  | _, [] => []
  | o, x :: xs => o :: offsetsFrom (o + x.length) xs
/-- The dump, cut to the region. -/
def dumpBytes (s : State) (cause : Nat) : List Byte :=
  let xs := dumpSections s
  let body := xs.flatMap id
  let n := if s.dumpSize < 256 + body.length then s.dumpSize else 256 + body.length
  let head := padTo (leBytes 4 1 ++ leBytes 4 cause ++ leBytes 8 s.time ++ leBytes 8 n ++ leBytes 4 (if n < 256 + body.length then 1 else 0)
    ++ leBytes 4 (trapGroups s).length ++ (offsetsFrom 256 xs).flatMap fun o => leBytes 8 o) 256
  (head ++ body).take n

/-- Of the commands of each of the 16 engines of a kind, the one that the engine is at: which, the device chooses (log entry 4). -/
def currentOf {α : Type} (cl : α → Nat) (s : State) (xs : List α) : State × List α :=
  (List.range 16).foldl (fun r k =>
    let mine := xs.filter fun x => cl x == k
    let (s, j) := r.1.chooseOf mine.length
    (s, r.2 ++ (mine[j]?).toList)) (s, [])
/-- Every engine keeps its current command alone (R386). -/
def keepCurrent (s : State) : State :=
  let (s, copies) := currentOf (fun c : CopyCmd => clusterOf c.core) s s.copies
  let (s, cols) := currentOf (fun c : LaneCmd => clusterOf c.core) s s.cols
  let (s, dyns) := currentOf (fun c : LaneCmd => clusterOf c.core) s s.dyns
  let (s, mats) := (List.range 64).foldl (fun (r : State × List Nat) k =>
    let mine := (List.range r.1.groups.length).filter fun gi => let g := r.1.group gi; g.core == k && g.holdsSlot && !g.ops.isEmpty && !g.matStopped
    let (s, j) := r.1.chooseOf mine.length
    (s, r.2 ++ (mine[j]?).toList)) (s, [])
  { s with
    copies := copies, cols := cols, dyns := dyns,
    groups := (indexed s.groups).map fun e => { e.2 with ops := if mats.contains e.1 then e.2.ops.take 1 else [] } }
/-- Is a dump owed, and have the engines completed their current commands (R386)? -/
def dumpDue (s : State) : Bool := s.dumpOwed && s.copies.isEmpty && s.cols.isEmpty && s.dyns.isEmpty && s.groups.all fun g => g.ops.isEmpty
/-- The dump is written, the cause is shown, device events 0 and 2 are raised (R386, R413). -/
def fatalDump (s : State) : State :=
  if !dumpDue s then s
  else
    let s := if s.dumpBase = 0 then s else s.outsideWrite s.dumpBase (dumpBytes s s.fatal)
    deviceEvent (enterBoot { s with dumpOwed := false } .fatal s.fatal) 2
/-- A fatal error: every core stops, and the engines behind their current commands; the dump follows. -/
def fatalStop (s : State) (cause : Nat) : State :=
  if s.mgmt.boot ≠ .ready then s else fatalDump { (keepCurrent s).setMgmt fun m => { m with boot := .fatal } with fatal := cause, dumpOwed := true }
/-- FATAL_ERROR: causes 1 to 5. -/
def execFatalError (cause : Nat) (s : State) : Res := .next (if cause = 0 ∨ 5 < cause then s else fatalStop s cause)
/-- LINK_FAILURE: cause 2. -/
def execLinkFailure (s : State) : Res := .next (fatalStop s 2)

/-! ### Power and clocks (R22, R23, R375, R428) -/

/-- The highest clock that firmware has pinned on a cluster: of the cores that are reserved (R23, R34, R395). -/
def pinOf (s : State) (cl : Nat) : Nat :=
  (List.range 4).foldl (fun m k =>
    let c := 4 * cl + k
    if ((s.reserved[c]?).join).isSome && decide (m < s.pinned[c]?.getD 0) then s.pinned[c]?.getD 0 else m) 0
def clockOf (s : State) (cl : Nat) : Nat := s.clock[cl]?.getD 0
/-- Is a clock lower than it is pinned to be? -/
def belowPin (s : State) : Bool := (List.range 16).any fun cl => decide (clockOf s cl < pinOf s cl)
/-- The lowest clock that a cluster may take: only at 110 °C is a pinned clock lowered (R23, R428). -/
def clockFloor (s : State) (cl : Nat) : Nat :=
  let pin := if 110 ≤ s.mgmt.temp.toNat then 0 else if clockOf s cl < pinOf s cl then clockOf s cl else pinOf s cl
  if pin = 0 then 1 else pin

/-- A cluster takes a clock: a FREQ goes to each of its traced contexts, and conversions count from it, whose cycle begins anew with it (R375, R376). -/
def setClock (s : State) (cl mhz : Nat) : State :=
  let s : State := { s with clock := setAt s.clock cl mhz, phase := setAt s.phase cl 0 }
  let n := s.cyc[cl]?.getD 0
  let s := (tracedCtxs s cl).foldl (fun s p => unitPacket s cl p 0x0D (leBytes 8 s.time ++ leBytes 8 n ++ leBytes 2 mhz)) s
  { s with traces := modAt s.traces cl fun t => { t with lastSync := n } }
/-- CLOCK_CHANGE: at most 2.2 GHz, never below a pinned clock. THERM bit 9 stays while a clock is lower than it is pinned to be, and at 110 °C (R23, R428). -/
def execClockChange (cl mhz : Nat) (s : State) : Res :=
  .next (if 16 ≤ cl ∨ 2200 < mhz ∨ mhz < clockFloor s cl then s else
    let t := setClock s cl mhz
    t.setMgmt fun m => { m with pinnedLow := m.pinnedLow && (decide (110 ≤ m.temp.toNat) || belowPin t) })

/-- The clock that the device lowers a cluster to for its temperature: below every pinned clock at 110 °C, and otherwise one cluster of its choice, by as much
as it chooses (R23, R428; log entry 34). -/
def cooler (s : State) (f : Nat → Nat) (cl : Nat) : Nat :=
  let cur := clockOf s cl
  let able := (List.range 16).filter fun k => decide (clockFloor s k < clockOf s k)
  if 110 ≤ s.mgmt.temp.toNat ∧ 1 < pinOf s cl ∧ pinOf s cl ≤ cur then 1 + f cl % (pinOf s cl - 1)
  else if able[f 16 % able.length]? = some cl then clockFloor s cl + f cl % (cur - clockFloor s cl)
  else cur
/-- The device lowers clocks. -/
def lowerClocks (s : State) : State :=
  let (s, f) := s.drawMany 17
  let new := (List.range 16).map (cooler s f)
  (List.range 16).foldl (fun s cl => if new[cl]?.getD 0 = clockOf s cl then s else setClock s cl (new[cl]?.getD 0)) s
/-- The hottest junction stands at a temperature. Above 105 °C, or earlier as the device chooses, clocks are lowered, which THERM bit 8 shows; from 110 °C pinned
clocks are lowered too, which bit 9 shows while one still is, with device event 1; from 115 °C the device takes a thermal trip (R23, R428). -/
def heat (s : State) (on : Bool) (temp : Nat) : State :=
  let hot := decide (110 ≤ temp)
  let low := on || decide (105 < temp)
  let t := s.setMgmt fun m => { m with temp := BitVec.ofNat 8 (capAt temp 255), throttling := low }
  let t := if low then lowerClocks t else t
  let t := t.setMgmt fun m => { m with pinnedLow := hot || (m.pinnedLow && belowPin t) }
  let t := if hot && !s.mgmt.pinnedLow then deviceEvent t 1 else t
  if 115 ≤ temp then fatalStop t 3 else t
/-- THROTTLE: the hottest junction has a temperature, and the device may lower clocks for it. -/
def execThrottle (on : Bool) (temp : Nat) (s : State) : Res := .next (heat s on temp)
/-- PINNED_CLOCK_LOWER: it has reached 110 °C; device event 1 is raised each time. -/
def execPinnedClockLower (s : State) : Res :=
  let t := heat s true (if s.mgmt.temp.toNat < 110 then 110 else s.mgmt.temp.toNat)
  .next (if s.mgmt.pinnedLow then deviceEvent t 1 else t)
/-- THERMAL_TRIP: it has reached 115 °C. -/
def execThermalTrip (s : State) : Res := .next (heat s true (if s.mgmt.temp.toNat < 115 then 115 else s.mgmt.temp.toNat))

end Sys2Proof.Machine
end

