-- ==== Sys2Proof/Machine/Integer.lean ====
section
/-! DEFINITION. Sys2Proof/Machine/Integer.lean: the integer instructions of majors 0x04 to 0x0E (chapter 6). -/

namespace Sys2Proof.Machine

open Sys2Proof

/-! ### IALU and IALUI (Table 6-1) -/

/-- `add` (Table 6-1). -/
def execAdd (g : Bool) (d a b : Fld) (s : State) : Res := laneOp2 s g d a b (· + ·)
/-- `sub` (Table 6-1). -/
def execSub (g : Bool) (d a b : Fld) (s : State) : Res := laneOp2 s g d a b (· - ·)
/-- `min.i` (Table 6-1). -/
def execMinI (g : Bool) (d a b : Fld) (s : State) : Res := laneOp2 s g d a b minI
/-- `max.i` (Table 6-1). -/
def execMaxI (g : Bool) (d a b : Fld) (s : State) : Res := laneOp2 s g d a b maxI
/-- `min.z` (Table 6-1). -/
def execMinZ (g : Bool) (d a b : Fld) (s : State) : Res := laneOp2 s g d a b minZ
/-- `max.z` (Table 6-1). -/
def execMaxZ (g : Bool) (d a b : Fld) (s : State) : Res := laneOp2 s g d a b maxZ
/-- `adds.i` (Table 6-1). -/
def execAddsI (g : Bool) (d a b : Fld) (s : State) : Res := laneOp2 s g d a b addsI
/-- `subs.i` (Table 6-1). -/
def execSubsI (g : Bool) (d a b : Fld) (s : State) : Res := laneOp2 s g d a b subsI
/-- `adds.z` (Table 6-1). -/
def execAddsZ (g : Bool) (d a b : Fld) (s : State) : Res := laneOp2 s g d a b addsZ
/-- `subs.z` (Table 6-1). -/
def execSubsZ (g : Bool) (d a b : Fld) (s : State) : Res := laneOp2 s g d a b subsZ
/-- `avg.z` (Table 6-1). -/
def execAvgZ (g : Bool) (d a b : Fld) (s : State) : Res := laneOp2 s g d a b avgZ
/-- `abs` (Table 6-1). -/
def execAbs (g : Bool) (d a : Fld) (s : State) : Res := laneOp1 s g d a absI
/-- `neg` (Table 6-1). -/
def execNeg (g : Bool) (d a : Fld) (s : State) : Res := laneOp1 s g d a (0 - ·)
/-- `sad.z` (Table 6-1); d is an input. -/
def execSadZ (g : Bool) (d a b : Fld) (s : State) : Res := laneOp3 s g d a b sadZ
/-- `addc` (Table 6-1). -/
def execAddc (g : Bool) (d a b : Fld) (s : State) : Res :=
  carryOp s g d [a.toNat, b.toNat] (fun i l => i.reg b.toNat l) (fun i l => i.reg a.toNat l) addCarry
/-- `addc` with an immediate (Table 6-1). -/
def execAddcImm (g : Bool) (d a : Fld) (i : BitVec 7) (s : State) : Res :=
  carryOp s g d [a.toNat] (fun _ _ => sext7 i) (fun j l => j.reg a.toNat l) addCarry
/-- `subb` (Table 6-1). -/
def execSubb (g : Bool) (d a b : Fld) (s : State) : Res :=
  carryOp s g d [a.toNat, b.toNat] (fun i l => i.reg b.toNat l) (fun i l => i.reg a.toNat l) subBorrow
/-- `subb` with an immediate (Table 6-1). -/
def execSubbImm (g : Bool) (d a : Fld) (i : BitVec 7) (s : State) : Res :=
  carryOp s g d [a.toNat] (fun _ _ => sext7 i) (fun j l => j.reg a.toNat l) subBorrow
/-- `add` with an immediate (R85, Table 6-1). -/
def execAddImm (g : Bool) (d a : Fld) (i : BitVec 7) (s : State) : Res := laneOpI s g d a (sext7 i) (· + ·)
/-- `sub` with an immediate (R85, Table 6-1). -/
def execSubImm (g : Bool) (d a : Fld) (i : BitVec 7) (s : State) : Res := laneOpI s g d a (sext7 i) (· - ·)
/-- `min.i` with an immediate (R85, Table 6-1). -/
def execMinIImm (g : Bool) (d a : Fld) (i : BitVec 7) (s : State) : Res := laneOpI s g d a (sext7 i) minI
/-- `max.i` with an immediate (R85, Table 6-1). -/
def execMaxIImm (g : Bool) (d a : Fld) (i : BitVec 7) (s : State) : Res := laneOpI s g d a (sext7 i) maxI
/-- `min.z` with an immediate (R85, Table 6-1). -/
def execMinZImm (g : Bool) (d a : Fld) (i : BitVec 7) (s : State) : Res := laneOpI s g d a (sext7 i) minZ
/-- `max.z` with an immediate (R85, Table 6-1). -/
def execMaxZImm (g : Bool) (d a : Fld) (i : BitVec 7) (s : State) : Res := laneOpI s g d a (sext7 i) maxZ
/-- `adds.i` with an immediate (R85, Table 6-1). -/
def execAddsIImm (g : Bool) (d a : Fld) (i : BitVec 7) (s : State) : Res := laneOpI s g d a (sext7 i) addsI
/-- `subs.i` with an immediate (R85, Table 6-1). -/
def execSubsIImm (g : Bool) (d a : Fld) (i : BitVec 7) (s : State) : Res := laneOpI s g d a (sext7 i) subsI
/-- `adds.z` with an immediate (R85, Table 6-1). -/
def execAddsZImm (g : Bool) (d a : Fld) (i : BitVec 7) (s : State) : Res := laneOpI s g d a (sext7 i) addsZ
/-- `subs.z` with an immediate (R85, Table 6-1). -/
def execSubsZImm (g : Bool) (d a : Fld) (i : BitVec 7) (s : State) : Res := laneOpI s g d a (sext7 i) subsZ
/-- `avg.z` with an immediate (R85, Table 6-1). -/
def execAvgZImm (g : Bool) (d a : Fld) (i : BitVec 7) (s : State) : Res := laneOpI s g d a (sext7 i) avgZ
/-- `sad.z` with an immediate (R85, Table 6-1); d is an input. -/
def execSadZImm (g : Bool) (d a : Fld) (i : BitVec 7) (s : State) : Res := laneOp3I s g d a (sext7 i) sadZ

/-! ### IMUL (Table 6-2) -/

/-- `mul` (Table 6-2). -/
def execMul (g : Bool) (d a b : Fld) (s : State) : Res := laneOp2 s g d a b (· * ·)
/-- `mulh.i` (Table 6-2). -/
def execMulhI (g : Bool) (d a b : Fld) (s : State) : Res := laneOp2 s g d a b mulhI
/-- `mulh.z` (Table 6-2). -/
def execMulhZ (g : Bool) (d a b : Fld) (s : State) : Res := laneOp2 s g d a b mulhZ
/-- `div.i` (Table 6-2). -/
def execDivI (g : Bool) (d a b : Fld) (s : State) : Res := laneOp2 s g d a b divI
/-- `div.z` (Table 6-2). -/
def execDivZ (g : Bool) (d a b : Fld) (s : State) : Res := laneOp2 s g d a b divZ
/-- `rem.i` (Table 6-2). -/
def execRemI (g : Bool) (d a b : Fld) (s : State) : Res := laneOp2 s g d a b remI
/-- `rem.z` (Table 6-2). -/
def execRemZ (g : Bool) (d a b : Fld) (s : State) : Res := laneOp2 s g d a b remZ
/-- `mad` (Table 6-2); d is an input. -/
def execMad (g : Bool) (d a b : Fld) (s : State) : Res := laneOp3 s g d a b (fun x y z => x * y + z)
/-- `dp4.i8` (Table 6-2); d is an input. -/
def execDp4I8 (g : Bool) (d a b : Fld) (s : State) : Res := laneOp3 s g d a b dp4I
/-- `dp4.z8` (Table 6-2); d is an input. -/
def execDp4Z8 (g : Bool) (d a b : Fld) (s : State) : Res := laneOp3 s g d a b dp4Z
/-- `mulw.i` (Table 6-2). -/
def execMulwI (g : Bool) (d : BitVec 6) (a b : Fld) (s : State) : Res :=
  lanePair s g [a.toNat, b.toNat] d fun i l => mulwI (i.reg a.toNat l) (i.reg b.toNat l)
/-- `mulw.z` (Table 6-2). -/
def execMulwZ (g : Bool) (d : BitVec 6) (a b : Fld) (s : State) : Res :=
  lanePair s g [a.toNat, b.toNat] d fun i l => mulwZ (i.reg a.toNat l) (i.reg b.toNat l)
/-- `madw.i` (Table 6-2); the pair d is an input. -/
def execMadwI (g : Bool) (d : BitVec 6) (a b : Fld) (s : State) : Res :=
  lanePair s g (pairOf d ++ [a.toNat, b.toNat]) d fun i l => mulwI (i.reg a.toNat l) (i.reg b.toNat l) + i.pair (pairFld d).toNat l
/-- `madw.z` (Table 6-2); the pair d is an input. -/
def execMadwZ (g : Bool) (d : BitVec 6) (a b : Fld) (s : State) : Res :=
  lanePair s g (pairOf d ++ [a.toNat, b.toNat]) d fun i l => mulwZ (i.reg a.toNat l) (i.reg b.toNat l) + i.pair (pairFld d).toNat l

/-! ### LOGIC (Table 6-3) -/

/-- `and` (Table 6-3). -/
def execAnd (g : Bool) (d a b : Fld) (s : State) : Res := laneOp2 s g d a b (· &&& ·)
/-- `or` (Table 6-3). -/
def execOr (g : Bool) (d a b : Fld) (s : State) : Res := laneOp2 s g d a b (· ||| ·)
/-- `xor` (Table 6-3). -/
def execXor (g : Bool) (d a b : Fld) (s : State) : Res := laneOp2 s g d a b (· ^^^ ·)
/-- `andn` (Table 6-3). -/
def execAndn (g : Bool) (d a b : Fld) (s : State) : Res := laneOp2 s g d a b (fun x y => x &&& ~~~y)
/-- `orn` (Table 6-3). -/
def execOrn (g : Bool) (d a b : Fld) (s : State) : Res := laneOp2 s g d a b (fun x y => x ||| ~~~y)
/-- `not` (Table 6-3). -/
def execNot (g : Bool) (d a : Fld) (s : State) : Res := laneOp1 s g d a (~~~ ·)
/-- `popc` (Table 6-3). -/
def execPopc (g : Bool) (d a : Fld) (s : State) : Res := laneOp1 s g d a popc
/-- `clz` (Table 6-3). -/
def execClz (g : Bool) (d a : Fld) (s : State) : Res := laneOp1 s g d a clz
/-- `ctz` (Table 6-3). -/
def execCtz (g : Bool) (d a : Fld) (s : State) : Res := laneOp1 s g d a ctz
/-- `brev` (Table 6-3). -/
def execBrev (g : Bool) (d a : Fld) (s : State) : Res := laneOp1 s g d a brev
/-- `bsel` (Table 6-3); d is an input. -/
def execBsel (g : Bool) (d a b : Fld) (s : State) : Res := laneOp3 s g d a b bsel
/-- `prmt` (Table 6-3); d is an input. -/
def execPrmt (g : Bool) (d a b : Fld) (s : State) : Res := laneOp3 s g d a b prmt

/-! ### SHIFT and SHIFTI (Table 6-4) -/

/-- `shl` (Table 6-4). -/
def execShl (g : Bool) (d a b : Fld) (s : State) : Res := laneOp2 s g d a b shl
/-- `shr.z` (Table 6-4). -/
def execShrZ (g : Bool) (d a b : Fld) (s : State) : Res := laneOp2 s g d a b shrZ
/-- `shr.i` (Table 6-4). -/
def execShrI (g : Bool) (d a b : Fld) (s : State) : Res := laneOp2 s g d a b shrI
/-- `rol` (Table 6-4). -/
def execRol (g : Bool) (d a b : Fld) (s : State) : Res := laneOp2 s g d a b rolW
/-- `ror` (Table 6-4). -/
def execRor (g : Bool) (d a b : Fld) (s : State) : Res := laneOp2 s g d a b rorW
/-- `bfx.z` (Table 6-4). -/
def execBfxZ (g : Bool) (d a b : Fld) (s : State) : Res := laneOp2 s g d a b bfxZ
/-- `bfx.i` (Table 6-4). -/
def execBfxI (g : Bool) (d a b : Fld) (s : State) : Res := laneOp2 s g d a b bfxI
/-- `shlf` (Table 6-4); d is an input. -/
def execShlf (g : Bool) (d a b : Fld) (s : State) : Res := laneOp3 s g d a b shlf
/-- `shrf` (Table 6-4); d is an input. -/
def execShrf (g : Bool) (d a b : Fld) (s : State) : Res := laneOp3 s g d a b shrf
/-- `bfi` (Table 6-4); d is an input. -/
def execBfi (g : Bool) (d a b : Fld) (s : State) : Res := laneOp3 s g d a b bfi
/-- `shl` by an unsigned immediate (R85, Table 6-4). -/
def execShlImm (g : Bool) (d a : Fld) (i : BitVec 7) (s : State) : Res := laneOpI s g d a (i.zeroExtend 32) shl
/-- `shr.z` by an unsigned immediate (R85, Table 6-4). -/
def execShrZImm (g : Bool) (d a : Fld) (i : BitVec 7) (s : State) : Res := laneOpI s g d a (i.zeroExtend 32) shrZ
/-- `shr.i` by an unsigned immediate (R85, Table 6-4). -/
def execShrIImm (g : Bool) (d a : Fld) (i : BitVec 7) (s : State) : Res := laneOpI s g d a (i.zeroExtend 32) shrI
/-- `rol` by an unsigned immediate (R85, Table 6-4). -/
def execRolImm (g : Bool) (d a : Fld) (i : BitVec 7) (s : State) : Res := laneOpI s g d a (i.zeroExtend 32) rolW
/-- `ror` by an unsigned immediate (R85, Table 6-4). -/
def execRorImm (g : Bool) (d a : Fld) (i : BitVec 7) (s : State) : Res := laneOpI s g d a (i.zeroExtend 32) rorW
/-- `shlf` by an unsigned immediate (R85, Table 6-4); d is an input. -/
def execShlfImm (g : Bool) (d a : Fld) (i : BitVec 7) (s : State) : Res := laneOp3I s g d a (i.zeroExtend 32) shlf
/-- `shrf` by an unsigned immediate (R85, Table 6-4); d is an input. -/
def execShrfImm (g : Bool) (d a : Fld) (i : BitVec 7) (s : State) : Res := laneOp3I s g d a (i.zeroExtend 32) shrf

/-! ### ICMP and ICMPI (Table 6-5) -/

/-- `cmp.eq` (Table 6-5). -/
def execCmpEq (g : Bool) (c : BitVec 2) (p : BitVec 3) (a b : Fld) (s : State) : Res := cmpR s g c p a b condEq
/-- `cmp.eq` with an immediate (R85, Table 6-5). -/
def execCmpEqImm (g : Bool) (c : BitVec 2) (p : BitVec 3) (a : Fld) (i : BitVec 7) (s : State) : Res := cmpI s g c p a (sext7 i) condEq
/-- `cmp.ne` (Table 6-5). -/
def execCmpNe (g : Bool) (c : BitVec 2) (p : BitVec 3) (a b : Fld) (s : State) : Res := cmpR s g c p a b condNe
/-- `cmp.ne` with an immediate (R85, Table 6-5). -/
def execCmpNeImm (g : Bool) (c : BitVec 2) (p : BitVec 3) (a : Fld) (i : BitVec 7) (s : State) : Res := cmpI s g c p a (sext7 i) condNe
/-- `cmp.lt.i` (Table 6-5). -/
def execCmpLtI (g : Bool) (c : BitVec 2) (p : BitVec 3) (a b : Fld) (s : State) : Res := cmpR s g c p a b condLtI
/-- `cmp.lt.i` with an immediate (R85, Table 6-5). -/
def execCmpLtIImm (g : Bool) (c : BitVec 2) (p : BitVec 3) (a : Fld) (i : BitVec 7) (s : State) : Res := cmpI s g c p a (sext7 i) condLtI
/-- `cmp.le.i` (Table 6-5). -/
def execCmpLeI (g : Bool) (c : BitVec 2) (p : BitVec 3) (a b : Fld) (s : State) : Res := cmpR s g c p a b condLeI
/-- `cmp.le.i` with an immediate (R85, Table 6-5). -/
def execCmpLeIImm (g : Bool) (c : BitVec 2) (p : BitVec 3) (a : Fld) (i : BitVec 7) (s : State) : Res := cmpI s g c p a (sext7 i) condLeI
/-- `cmp.gt.i` (Table 6-5). -/
def execCmpGtI (g : Bool) (c : BitVec 2) (p : BitVec 3) (a b : Fld) (s : State) : Res := cmpR s g c p a b condGtI
/-- `cmp.gt.i` with an immediate (R85, Table 6-5). -/
def execCmpGtIImm (g : Bool) (c : BitVec 2) (p : BitVec 3) (a : Fld) (i : BitVec 7) (s : State) : Res := cmpI s g c p a (sext7 i) condGtI
/-- `cmp.ge.i` (Table 6-5). -/
def execCmpGeI (g : Bool) (c : BitVec 2) (p : BitVec 3) (a b : Fld) (s : State) : Res := cmpR s g c p a b condGeI
/-- `cmp.ge.i` with an immediate (R85, Table 6-5). -/
def execCmpGeIImm (g : Bool) (c : BitVec 2) (p : BitVec 3) (a : Fld) (i : BitVec 7) (s : State) : Res := cmpI s g c p a (sext7 i) condGeI
/-- `cmp.lt.z` (Table 6-5). -/
def execCmpLtZ (g : Bool) (c : BitVec 2) (p : BitVec 3) (a b : Fld) (s : State) : Res := cmpR s g c p a b condLtZ
/-- `cmp.lt.z` with an immediate (R85, Table 6-5). -/
def execCmpLtZImm (g : Bool) (c : BitVec 2) (p : BitVec 3) (a : Fld) (i : BitVec 7) (s : State) : Res := cmpI s g c p a (sext7 i) condLtZ
/-- `cmp.le.z` (Table 6-5). -/
def execCmpLeZ (g : Bool) (c : BitVec 2) (p : BitVec 3) (a b : Fld) (s : State) : Res := cmpR s g c p a b condLeZ
/-- `cmp.le.z` with an immediate (R85, Table 6-5). -/
def execCmpLeZImm (g : Bool) (c : BitVec 2) (p : BitVec 3) (a : Fld) (i : BitVec 7) (s : State) : Res := cmpI s g c p a (sext7 i) condLeZ
/-- `cmp.gt.z` (Table 6-5). -/
def execCmpGtZ (g : Bool) (c : BitVec 2) (p : BitVec 3) (a b : Fld) (s : State) : Res := cmpR s g c p a b condGtZ
/-- `cmp.gt.z` with an immediate (R85, Table 6-5). -/
def execCmpGtZImm (g : Bool) (c : BitVec 2) (p : BitVec 3) (a : Fld) (i : BitVec 7) (s : State) : Res := cmpI s g c p a (sext7 i) condGtZ
/-- `cmp.ge.z` (Table 6-5). -/
def execCmpGeZ (g : Bool) (c : BitVec 2) (p : BitVec 3) (a b : Fld) (s : State) : Res := cmpR s g c p a b condGeZ
/-- `cmp.ge.z` with an immediate (R85, Table 6-5). -/
def execCmpGeZImm (g : Bool) (c : BitVec 2) (p : BitVec 3) (a : Fld) (i : BitVec 7) (s : State) : Res := cmpI s g c p a (sext7 i) condGeZ
/-- `tst` (Table 6-5). -/
def execTst (g : Bool) (c : BitVec 2) (p : BitVec 3) (a b : Fld) (s : State) : Res := cmpR s g c p a b condTst
/-- `tst` with an immediate (R85, Table 6-5). -/
def execTstImm (g : Bool) (c : BitVec 2) (p : BitVec 3) (a : Fld) (i : BitVec 7) (s : State) : Res := cmpI s g c p a (sext7 i) condTst
/-- `tstn` (Table 6-5). -/
def execTstn (g : Bool) (c : BitVec 2) (p : BitVec 3) (a b : Fld) (s : State) : Res := cmpR s g c p a b condTstn
/-- `tstn` with an immediate (R85, Table 6-5). -/
def execTstnImm (g : Bool) (c : BitVec 2) (p : BitVec 3) (a : Fld) (i : BitVec 7) (s : State) : Res := cmpI s g c p a (sext7 i) condTstn

/-! ### I64 (Table 6-6) -/

/-- `add.64` (Table 6-6). -/
def execAdd64 (g : Bool) (d a b : BitVec 6) (s : State) : Res := lanePair2 s g d a b (· + ·)
/-- `sub.64` (Table 6-6). -/
def execSub64 (g : Bool) (d a b : BitVec 6) (s : State) : Res := lanePair2 s g d a b (· - ·)
/-- `mul.64` (Table 6-6). -/
def execMul64 (g : Bool) (d a b : BitVec 6) (s : State) : Res := lanePair2 s g d a b (· * ·)
/-- `min.i.64` (Table 6-6). -/
def execMinI64 (g : Bool) (d a b : BitVec 6) (s : State) : Res := lanePair2 s g d a b minI64
/-- `max.i.64` (Table 6-6). -/
def execMaxI64 (g : Bool) (d a b : BitVec 6) (s : State) : Res := lanePair2 s g d a b maxI64
/-- `min.z.64` (Table 6-6). -/
def execMinZ64 (g : Bool) (d a b : BitVec 6) (s : State) : Res := lanePair2 s g d a b minZ64
/-- `max.z.64` (Table 6-6). -/
def execMaxZ64 (g : Bool) (d a b : BitVec 6) (s : State) : Res := lanePair2 s g d a b maxZ64
/-- `shl.64` (Table 6-6). -/
def execShl64 (g : Bool) (d a : BitVec 6) (b : Fld) (s : State) : Res :=
  lanePair s g (pairOf a ++ [b.toNat]) d fun i l => Machine.shl64 (i.pair (pairFld a).toNat l) (i.reg b.toNat l)
/-- `shr.z.64` (Table 6-6). -/
def execShrZ64 (g : Bool) (d a : BitVec 6) (b : Fld) (s : State) : Res :=
  lanePair s g (pairOf a ++ [b.toNat]) d fun i l => Machine.shrZ64 (i.pair (pairFld a).toNat l) (i.reg b.toNat l)
/-- `shr.i.64` (Table 6-6). -/
def execShrI64 (g : Bool) (d a : BitVec 6) (b : Fld) (s : State) : Res :=
  lanePair s g (pairOf a ++ [b.toNat]) d fun i l => Machine.shrI64 (i.pair (pairFld a).toNat l) (i.reg b.toNat l)
/-- `cmp.eq.64` (Table 6-6). -/
def execCmpEq64 (g : Bool) (c : BitVec 2) (p : BitVec 3) (a b : BitVec 6) (s : State) : Res := cmpPair s g c p a b (fun x y => x == y)
/-- `cmp.lt.i.64` (Table 6-6). -/
def execCmpLtI64 (g : Bool) (c : BitVec 2) (p : BitVec 3) (a b : BitVec 6) (s : State) : Res := cmpPair s g c p a b (fun x y => decide (x.toInt < y.toInt))
/-- `cmp.lt.z.64` (Table 6-6). -/
def execCmpLtZ64 (g : Bool) (c : BitVec 2) (p : BitVec 3) (a b : BitVec 6) (s : State) : Res := cmpPair s g c p a b (fun x y => decide (x.toNat < y.toNat))

/-! ### MOVI and LI (Table 6-7) -/

/-- `movi` (Table 6-7). -/
def execMovi (g : Bool) (d : Fld) (i : BitVec 14) (s : State) : Res := laneOp s g [] d fun _ _ => sext14 i
/-- `movhi` (Table 6-7); d is an input. -/
def execMovhi (g : Bool) (d : Fld) (i : BitVec 14) (s : State) : Res := laneOp1 s g d d (movhi i)
/-- `addi` (Table 6-7); d is an input. -/
def execAddi (g : Bool) (d : Fld) (i : BitVec 14) (s : State) : Res := laneOp1 s g d d (· + sext14 i)
/-- `li` (Table 6-7). -/
def execLi (g : Bool) (d : Fld) (hi : BitVec 6) (lo : BitVec 26) (s : State) : Res := laneOp s g [] d (fun _ _ => hi ++ lo) 8
/-- `addi.32` (Table 6-7). -/
def execAddi32 (g : Bool) (d a : Fld) (hi : BitVec 6) (lo : BitVec 26) (s : State) : Res := laneOpX s g d a (hi ++ lo) (· + ·)
/-- `andi.32` (Table 6-7). -/
def execAndi32 (g : Bool) (d a : Fld) (hi : BitVec 6) (lo : BitVec 26) (s : State) : Res := laneOpX s g d a (hi ++ lo) (· &&& ·)
/-- `ori.32` (Table 6-7). -/
def execOri32 (g : Bool) (d a : Fld) (hi : BitVec 6) (lo : BitVec 26) (s : State) : Res := laneOpX s g d a (hi ++ lo) (· ||| ·)
/-- `xori.32` (Table 6-7). -/
def execXori32 (g : Bool) (d a : Fld) (hi : BitVec 6) (lo : BitVec 26) (s : State) : Res := laneOpX s g d a (hi ++ lo) (· ^^^ ·)

end Sys2Proof.Machine
end

