-- ==== Sys2Proof/Machine/Quant.lean ====
section
/-! DEFINITION. Sys2Proof/Machine/Quant.lean: FMT fields, square blocks, microscaling, pack and unpack (major 0x18, chapter 8). -/

namespace Sys2Proof.Machine

open Sys2Proof

/-! ### FMT fields (R168) -/

/-- Bits [lo + n - 1 : lo] of a word replaced. -/
def putBits (w : Word) (lo n v : Nat) : Word :=
  w &&& ~~~BitVec.ofNat 32 ((2 ^ n - 1) * 2 ^ lo) ||| BitVec.ofNat 32 (v % 2 ^ n * 2 ^ lo)

/-- A field of FMT written (R168). -/
def fmtPut (f : Word) (sel v : Nat) : Word :=
  match sel with
  | 0 => putBits f 0 4 v
  | 1 => putBits f 4 4 v
  | 2 => putBits f 8 2 v
  | 3 => putBits f 10 2 v
  | 4 => putBits f 14 2 v
  | 5 => putBits f 16 3 v
  | _ => putBits (putBits f 12 2 (v % 4)) 19 1 (v / 4)

/-- A field of FMT read; 7 reads it all (R168). -/
def fmtRead (f : Word) (sel : Nat) : Nat :=
  match sel with
  | 0 => fmtBits f 3 0
  | 1 => fmtBits f 7 4
  | 2 => fmtBits f 9 8
  | 3 => fmtBits f 11 10
  | 4 => fmtBits f 15 14
  | 5 => fmtBits f 18 16
  | 6 => fmtBits f 13 12 + 4 * fmtBits f 19 19
  | _ => f.toNat

/-- `fmt.set` (R168). -/
def execFmtSet (g : Bool) (sel : BitVec 3) (v : Fld) (s : State) : Res :=
  withOperands s g [] [] [] fun i => once s i 4 <|
    (s.modF i.gi i.fi fun f => { f with fmt := fmtPut f.fmt sel.toNat v.toNat }).advance i
/-- `fmt.get` (R168). -/
def execFmtGet (g : Bool) (d : Fld) (sel : BitVec 3) (s : State) : Res :=
  laneOp s g [] d fun i _ => BitVec.ofNat 32 (fmtRead i.f.fmt sel.toNat)

/-! ### Square blocks (R160, R169 to R173) -/

/-- The first register of a block field (R167). -/
def blockBase (a : BitVec 3) : Nat := 16 * a.toNat
/-- Bits of an SB element of a width code: 2, 4, 8 (R167). -/
def sbWidth (w : BitVec 2) : Nat := 2 ^ w.toNat
/-- The value of element (r, c) of a 16 × 16 region after the input flush; a lane outside Lanes() is absent (R166, R169). -/
def regionVal (i : Iss) (base r c : Nat) : Option Val :=
  if i.lanes.has c then some (fp32.inp i.ftz (i.reg (base + r) c).toNat) else none

def Val.abs : Val → Val
  | .nan => .nan
  | .inf _ => .inf false
  | .fin _ m e => .fin false m e
/-- The larger magnitude. -/
def maxAbs (a b : Val) : Val := if a.lt b.abs then b.abs else a
def amaxOf (vs : List Val) : Val := vs.foldl maxAbs (.fin false 0 0)
def clampN (lo hi : Int) (x : Int) : Nat := (if x < lo then lo else if hi < x then hi else x).toNat

/-- The block exponent of the present values of a region (R170). -/
def sbExponent (vs : List Val) : Nat :=
  if vs.any Val.isNan then 0xFF
  else
    match amaxOf vs with
    | .fin _ m e => if m = 0 then 0 else clampN 0 254 (e + (Nat.log2 m : Nat) + 127)
    | _ => 254

/-- `sbexp` (R170). -/
def execSbexp (g : Bool) (d : Fld) (a : BitVec 3) (s : State) : Res :=
  laneOp s g (d.toNat :: runOf (blockBase a) 16) d fun i _ =>
    let vs := laneNums.flatMap fun r => laneNums.filterMap fun c => regionVal i (blockBase a) r c
    let e := sbExponent vs
    let old := (i.reg d.toNat i.lo).toNat / 256 % 256
    BitVec.ofNat 32 ((if e < old then old else e) * 256)

/-- The present values of quad (qr, qc), as `regionVal` reads them: under FMT.FTZ a subnormal counts as a zero here too. R171 names no such flush, where R170 and
R172 do: DESIGN CHOICE, log entry 75. -/
def quadVals (i : Iss) (base qr qc : Nat) : List Val :=
  [(0, 0), (0, 1), (1, 0), (1, 1)].filterMap fun p => regionVal i base (2 * qr + p.1) (2 * qc + p.2)

/-- A quad's micro-exponent bit under E (R171). A NaN beside an E that is not 0xFF gives it no stated value: `free`, log entry 7. -/
def quadBit (e m : Nat) (vs : List Val) (free : Bool) : Bool :=
  if e = 0xFF then false
  else if vs.any Val.isNan then free
  else !(Val.fin false (2 ^ m - 1) ((e : Int) - 127 - m)).lt (amaxOf vs)

/-- `uexp` (R171). -/
def execUexp (g : Bool) (d : Fld) (a : BitVec 3) (w : BitVec 2) (s : State) : Res :=
  withOperands s g (d.toNat :: runOf (blockBase a) 16) [d.toNat] [] fun i =>
    let e := (i.reg d.toNat i.lo).toNat / 256 % 256
    let bit := fun qr qc => quadBit e (sbWidth w - 1) (quadVals i (blockBase a) qr qc) (Config.freeNat s.draws / 2 ^ (8 * qr + qc) % 2 == 1)
    let mu := fun qc => [0, 1, 2, 3, 4, 5, 6, 7].foldl (fun n qr => n + (if bit qr qc then 2 ^ qr else 0)) 0
    ({ s with draws := s.draws + 1 }.putReg i d.toNat fun l => BitVec.ofNat 32 (e * 256 + mu (l / 2))).advance i

/-- The exponent of one step of an element: block exponent, the lane's micro-exponent bit, width (R160). -/
def sbStep (i : Iss) (b e m r c : Nat) : Int :=
  (e : Int) - 127 - ((i.reg b c).toNat / 2 ^ (r / 2) % 2 : Nat) - ((m : Int) - 1)

/-- The code of one element (R172). -/
def sbCode (i : Iss) (base b e m r c : Nat) : Nat :=
  match regionVal i base r c with
  | none => 0
  | some v =>
    if e = 0xFF then 0
    else
      match v with
      | .nan => 0
      | .inf neg => (if neg then 2 ^ m else 0) + (2 ^ m - 1)
      | .fin neg x ex =>
        let q := roundGrid (fmtRnd i.f.fmt) neg x ex (sbStep i b e m r c)
        (if neg then 2 ^ m else 0) + (if q < 2 ^ m - 1 then q else 2 ^ m - 1)

/-- `sbq` (R172): lane l of register D + j holds the elements from (16 j + l) × 32 ÷ w on, row by row (R169). -/
def execSbq (g : Bool) (d : Fld) (a : BitVec 3) (w : BitVec 2) (b : Fld) (s : State) : Res :=
  withOperands s g (b.toNat :: runOf (blockBase a) 16) (runOf d.toNat (sbRegs w)) [] fun i =>
    let wd := sbWidth w
    let e := (i.reg b.toNat i.lo).toNat / 256 % 256
    let word := fun j l => BitVec.ofNat 32 ((List.range (32 / wd)).foldl (fun n k =>
      let x := (16 * j + l) * (32 / wd) + k
      n + sbCode i (blockBase a) b.toNat e (wd - 1) (x / 16) (x % 16) * 2 ^ (wd * k)) 0)
    ((List.range (sbRegs w)).foldl (fun s j => s.putReg i (d.toNat + j) (word j)) s).advance i

/-- The code of element (r, c) in a packed block; a lane outside Lanes() reads zero (R166, R173). -/
def packedCode (i : Iss) (a wd r c : Nat) : Nat :=
  let n := 32 / wd
  let x := 16 * r + c
  let lane := x / n % 16
  if i.lanes.has lane then (i.reg (a + x / n / 16) lane).toNat / 2 ^ (wd * (x % n)) % 2 ^ wd else 0

/-- `sbdq` (R173). -/
def execSbdq (g : Bool) (d : BitVec 3) (w : BitVec 2) (a b : Fld) (s : State) : Res :=
  withOperands s g (b.toNat :: runOf a.toNat (sbRegs w)) (runOf (blockBase d) 16) [] fun i =>
    let wd := sbWidth w
    let e := (i.reg b.toNat i.lo).toNat / 256 % 256
    let val := fun r c =>
      let x := packedCode i a.toNat wd r c
      if e = 0xFF then BitVec.ofNat 32 fp32.nanBits
      else BitVec.ofNat 32 (fp32.arith i.ftz (.fin (x / 2 ^ (wd - 1) % 2 == 1) (x % 2 ^ (wd - 1)) (sbStep i b.toNat e (wd - 1) r c)))
    (laneNums.foldl (fun s r => s.putReg i (blockBase d + r) (val r)) s).advance i

/-! ### Microscaling (R165, R174 to R176) -/

/-- emax of an element code (R165). -/
def mxEmax (c : Nat) : Int :=
  match c with
  | 3 => 15
  | 4 => 8
  | 5 => 4
  | 6 => 2
  | 7 => 2
  | _ => 0

/-- Element n of an MX block in a pair of registers (R174). -/
def mxElem (i : Iss) (a n : Nat) : Option Nat := if i.lanes.has (n % 16) then some (i.reg (a + n / 16) (n % 16)).toNat else none

/-- The shared exponent of the present elements (R165). -/
def mxExponent (c : Nat) (vs : List Val) : Nat :=
  match amaxOf vs with
  | .fin _ m e =>
    if vs.any Val.isNan then 0xFF
    else if m = 0 then 0
    else clampN 0 254 (e + (Nat.log2 m : Nat) - mxEmax c + 127)
  | _ => 0xFF

/-- `mxexp` (R175). -/
def execMxexp (g : Bool) (d : Fld) (a : BitVec 6) (e : BitVec 4) (s : State) : Res :=
  laneOp s g (pairOf a) d fun i _ =>
    let vs := (List.range 32).filterMap fun n => (mxElem i (pairFld a).toNat n).map (fp32.inp i.ftz ·)
    BitVec.ofNat 32 (e.toNat * 256 + mxExponent e.toNat vs)

/-- X and the element code of a scale word (R174). -/
def mxScale (i : Iss) (b : Nat) : Nat × Nat := let w := (i.reg b i.lo).toNat; (w % 256, w / 256 % 16)
def mxCode (c : Nat) : Bool := decide (3 ≤ c) && decide (c ≤ 8)
def mxShift (c : Nat) : Int := if c = 8 then 6 else 0

/-- One element of `mxq` (R176). Under FMT.FTZ the FP32 input is flushed before it is scaled, and the product never is; R176 leaves open which of the two the
flush of `cvt` means: DESIGN CHOICE, log entry 75. -/
def mxqElem (i : Iss) (x c bits : Nat) : Nat :=
  if x = 0xFF then (if c < 8 then (ffmtOf c).nanBits else 0)
  else
    let v := (fp32.inp i.ftz bits).scale (127 - (x : Int) + mxShift c)
    if c < 8 then toFloat i.ftz (fmtSat i.f.fmt) (fmtRnd i.f.fmt) c v else toIntElem (fmtRnd i.f.fmt) c v

/-- `mxq` (R176). -/
def execMxq (g : Bool) (d : Fld) (a : BitVec 6) (b : Fld) (s : State) : Res :=
  laneOp s g (b.toNat :: pairOf a) d fun i l =>
    let (x, c) := mxScale i b.toNat
    if !mxCode c then 0
    else
      let blk := (List.range 32).foldl (fun n k => n + mxqElem i x c ((mxElem i (pairFld a).toNat k).getD 0) * 2 ^ (codeWidth c * k)) 0
      BitVec.ofNat 32 (blk / 2 ^ (32 * l))

/-- One element of `mxdq` (R176). -/
def mxdqElem (i : Iss) (x c a n : Nat) : Word :=
  if !mxCode c then BitVec.ofNat 32 fp32.nanBits
  else
    let w := codeWidth c
    let blk := laneNums.foldl (fun t l => t + (if i.lanes.has l then (i.reg a l).toNat else 0) * 2 ^ (32 * l)) 0
    let e := blk / 2 ^ (w * n) % 2 ^ w
    let v := if c < 8 then (ffmtOf c).value e else .ofInt (intOf c e)
    if x = 0xFF then BitVec.ofNat 32 fp32.nanBits else BitVec.ofNat 32 (fp32.arith i.ftz (v.scale ((x : Int) - 127 - mxShift c)))

/-- `mxdq` (R176). -/
def execMxdq (g : Bool) (d : BitVec 6) (a b : Fld) (s : State) : Res :=
  withOperands s g [a.toNat, b.toNat] (pairOf d) [] fun i =>
    let (x, c) := mxScale i b.toNat
    let f := (pairFld d).toNat
    ((s.putReg i f fun l => mxdqElem i x c a.toNat l).putReg i (f + 1) fun l => mxdqElem i x c a.toNat (16 + l)).advance i

/-! ### pack and unpack (R177) -/

/-- `pack`. -/
def execPack (g : Bool) (d a : Fld) (e : BitVec 4) (s : State) : Res :=
  laneOp s g (runOf a.toNat (packCount e)) d fun i l =>
    BitVec.ofNat 32 ((List.range (packCount e)).foldl (fun n j =>
      n + (i.reg (a.toNat + j) l).toNat % 2 ^ elemWidth e * 2 ^ (elemWidth e * j)) 0)

/-- One element of `unpack`: sign-extended for I8, I4 and I2. -/
def unpackElem (e : BitVec 4) (x : Word) (j : Nat) : Word :=
  let y := x.toNat / 2 ^ (elemWidth e * j) % 2 ^ elemWidth e
  if e = 8 ∨ e = 10 ∨ e = 12 then BitVec.ofInt 32 (intOf e.toNat y) else BitVec.ofNat 32 y

/-- `unpack`. -/
def execUnpack (g : Bool) (d a : Fld) (e : BitVec 4) (s : State) : Res :=
  withOperands s g [a.toNat] (runOf d.toNat (packCount e)) [] fun i =>
    ((List.range (packCount e)).foldl (fun s j => s.putReg i (d.toNat + j) fun l => unpackElem e (i.reg a.toNat l) j) s).advance i

end Sys2Proof.Machine
end

