-- ==== Sys2Proof/Machine/Dispatch.lean ====
section
/-! DEFINITION. Sys2Proof/Machine/Dispatch.lean: one arm per constructor of Instr, each a direct call of its meaning. -/

namespace Sys2Proof.Machine

open Sys2Proof

def exec (i : Instr) (s : State) : Host.Outcome State Fault Refusal :=
  match i with
  | .bra o => Sys2Proof.Machine.execBra o s
  | .bany o => Sys2Proof.Machine.execBany o s
  | .ball o => Sys2Proof.Machine.execBall o s
  | .bnone o => Sys2Proof.Machine.execBnone o s
  | .call o => Sys2Proof.Machine.execCall o s
  | .brd toff roff => Sys2Proof.Machine.execBrd toff roff s
  | .brdr a roff => Sys2Proof.Machine.execBrdr a roff s
  | .ret => Sys2Proof.Machine.execRet s
  | .jmpr a => Sys2Proof.Machine.execJmpr a s
  | .callr a => Sys2Proof.Machine.execCallr a s
  | .exit g => Sys2Proof.Machine.execExit g s
  | .yield g => Sys2Proof.Machine.execYield g s
  | .join => Sys2Proof.Machine.execJoin s
  | .wbase g n => Sys2Proof.Machine.execWbase g n s
  | .spin g => Sys2Proof.Machine.execSpin g s
  | .nop g => Sys2Proof.Machine.execNop g s
  | .fmask g d sc => Sys2Proof.Machine.execFmask g d sc s
  | .add g d a b => Sys2Proof.Machine.execAdd g d a b s
  | .sub g d a b => Sys2Proof.Machine.execSub g d a b s
  | .addc g d a b => Sys2Proof.Machine.execAddc g d a b s
  | .subb g d a b => Sys2Proof.Machine.execSubb g d a b s
  | .minI g d a b => Sys2Proof.Machine.execMinI g d a b s
  | .maxI g d a b => Sys2Proof.Machine.execMaxI g d a b s
  | .minZ g d a b => Sys2Proof.Machine.execMinZ g d a b s
  | .maxZ g d a b => Sys2Proof.Machine.execMaxZ g d a b s
  | .abs g d a => Sys2Proof.Machine.execAbs g d a s
  | .neg g d a => Sys2Proof.Machine.execNeg g d a s
  | .addsI g d a b => Sys2Proof.Machine.execAddsI g d a b s
  | .subsI g d a b => Sys2Proof.Machine.execSubsI g d a b s
  | .addsZ g d a b => Sys2Proof.Machine.execAddsZ g d a b s
  | .subsZ g d a b => Sys2Proof.Machine.execSubsZ g d a b s
  | .avgZ g d a b => Sys2Proof.Machine.execAvgZ g d a b s
  | .sadZ g d a b => Sys2Proof.Machine.execSadZ g d a b s
  | .addImm g d a im => Sys2Proof.Machine.execAddImm g d a im s
  | .subImm g d a im => Sys2Proof.Machine.execSubImm g d a im s
  | .addcImm g d a im => Sys2Proof.Machine.execAddcImm g d a im s
  | .subbImm g d a im => Sys2Proof.Machine.execSubbImm g d a im s
  | .minIImm g d a im => Sys2Proof.Machine.execMinIImm g d a im s
  | .maxIImm g d a im => Sys2Proof.Machine.execMaxIImm g d a im s
  | .minZImm g d a im => Sys2Proof.Machine.execMinZImm g d a im s
  | .maxZImm g d a im => Sys2Proof.Machine.execMaxZImm g d a im s
  | .addsIImm g d a im => Sys2Proof.Machine.execAddsIImm g d a im s
  | .subsIImm g d a im => Sys2Proof.Machine.execSubsIImm g d a im s
  | .addsZImm g d a im => Sys2Proof.Machine.execAddsZImm g d a im s
  | .subsZImm g d a im => Sys2Proof.Machine.execSubsZImm g d a im s
  | .avgZImm g d a im => Sys2Proof.Machine.execAvgZImm g d a im s
  | .sadZImm g d a im => Sys2Proof.Machine.execSadZImm g d a im s
  | .mul g d a b => Sys2Proof.Machine.execMul g d a b s
  | .mulhI g d a b => Sys2Proof.Machine.execMulhI g d a b s
  | .mulhZ g d a b => Sys2Proof.Machine.execMulhZ g d a b s
  | .mad g d a b => Sys2Proof.Machine.execMad g d a b s
  | .mulwI g d a b => Sys2Proof.Machine.execMulwI g d a b s
  | .mulwZ g d a b => Sys2Proof.Machine.execMulwZ g d a b s
  | .madwI g d a b => Sys2Proof.Machine.execMadwI g d a b s
  | .madwZ g d a b => Sys2Proof.Machine.execMadwZ g d a b s
  | .divI g d a b => Sys2Proof.Machine.execDivI g d a b s
  | .divZ g d a b => Sys2Proof.Machine.execDivZ g d a b s
  | .remI g d a b => Sys2Proof.Machine.execRemI g d a b s
  | .remZ g d a b => Sys2Proof.Machine.execRemZ g d a b s
  | .dp4I8 g d a b => Sys2Proof.Machine.execDp4I8 g d a b s
  | .dp4Z8 g d a b => Sys2Proof.Machine.execDp4Z8 g d a b s
  | .and g d a b => Sys2Proof.Machine.execAnd g d a b s
  | .or g d a b => Sys2Proof.Machine.execOr g d a b s
  | .xor g d a b => Sys2Proof.Machine.execXor g d a b s
  | .andn g d a b => Sys2Proof.Machine.execAndn g d a b s
  | .orn g d a b => Sys2Proof.Machine.execOrn g d a b s
  | .not g d a => Sys2Proof.Machine.execNot g d a s
  | .popc g d a => Sys2Proof.Machine.execPopc g d a s
  | .clz g d a => Sys2Proof.Machine.execClz g d a s
  | .ctz g d a => Sys2Proof.Machine.execCtz g d a s
  | .brev g d a => Sys2Proof.Machine.execBrev g d a s
  | .bsel g d a b => Sys2Proof.Machine.execBsel g d a b s
  | .prmt g d a b => Sys2Proof.Machine.execPrmt g d a b s
  | .shl g d a b => Sys2Proof.Machine.execShl g d a b s
  | .shrZ g d a b => Sys2Proof.Machine.execShrZ g d a b s
  | .shrI g d a b => Sys2Proof.Machine.execShrI g d a b s
  | .rol g d a b => Sys2Proof.Machine.execRol g d a b s
  | .ror g d a b => Sys2Proof.Machine.execRor g d a b s
  | .shlf g d a b => Sys2Proof.Machine.execShlf g d a b s
  | .shrf g d a b => Sys2Proof.Machine.execShrf g d a b s
  | .bfxZ g d a b => Sys2Proof.Machine.execBfxZ g d a b s
  | .bfxI g d a b => Sys2Proof.Machine.execBfxI g d a b s
  | .bfi g d a b => Sys2Proof.Machine.execBfi g d a b s
  | .shlImm g d a im => Sys2Proof.Machine.execShlImm g d a im s
  | .shrZImm g d a im => Sys2Proof.Machine.execShrZImm g d a im s
  | .shrIImm g d a im => Sys2Proof.Machine.execShrIImm g d a im s
  | .rolImm g d a im => Sys2Proof.Machine.execRolImm g d a im s
  | .rorImm g d a im => Sys2Proof.Machine.execRorImm g d a im s
  | .shlfImm g d a im => Sys2Proof.Machine.execShlfImm g d a im s
  | .shrfImm g d a im => Sys2Proof.Machine.execShrfImm g d a im s
  | .cmpEq g c p a b => Sys2Proof.Machine.execCmpEq g c p a b s
  | .cmpNe g c p a b => Sys2Proof.Machine.execCmpNe g c p a b s
  | .cmpLtI g c p a b => Sys2Proof.Machine.execCmpLtI g c p a b s
  | .cmpLeI g c p a b => Sys2Proof.Machine.execCmpLeI g c p a b s
  | .cmpGtI g c p a b => Sys2Proof.Machine.execCmpGtI g c p a b s
  | .cmpGeI g c p a b => Sys2Proof.Machine.execCmpGeI g c p a b s
  | .cmpLtZ g c p a b => Sys2Proof.Machine.execCmpLtZ g c p a b s
  | .cmpLeZ g c p a b => Sys2Proof.Machine.execCmpLeZ g c p a b s
  | .cmpGtZ g c p a b => Sys2Proof.Machine.execCmpGtZ g c p a b s
  | .cmpGeZ g c p a b => Sys2Proof.Machine.execCmpGeZ g c p a b s
  | .tst g c p a b => Sys2Proof.Machine.execTst g c p a b s
  | .tstn g c p a b => Sys2Proof.Machine.execTstn g c p a b s
  | .cmpEqImm g c p a im => Sys2Proof.Machine.execCmpEqImm g c p a im s
  | .cmpNeImm g c p a im => Sys2Proof.Machine.execCmpNeImm g c p a im s
  | .cmpLtIImm g c p a im => Sys2Proof.Machine.execCmpLtIImm g c p a im s
  | .cmpLeIImm g c p a im => Sys2Proof.Machine.execCmpLeIImm g c p a im s
  | .cmpGtIImm g c p a im => Sys2Proof.Machine.execCmpGtIImm g c p a im s
  | .cmpGeIImm g c p a im => Sys2Proof.Machine.execCmpGeIImm g c p a im s
  | .cmpLtZImm g c p a im => Sys2Proof.Machine.execCmpLtZImm g c p a im s
  | .cmpLeZImm g c p a im => Sys2Proof.Machine.execCmpLeZImm g c p a im s
  | .cmpGtZImm g c p a im => Sys2Proof.Machine.execCmpGtZImm g c p a im s
  | .cmpGeZImm g c p a im => Sys2Proof.Machine.execCmpGeZImm g c p a im s
  | .tstImm g c p a im => Sys2Proof.Machine.execTstImm g c p a im s
  | .tstnImm g c p a im => Sys2Proof.Machine.execTstnImm g c p a im s
  | .add64 g d a b => Sys2Proof.Machine.execAdd64 g d a b s
  | .sub64 g d a b => Sys2Proof.Machine.execSub64 g d a b s
  | .mul64 g d a b => Sys2Proof.Machine.execMul64 g d a b s
  | .shl64 g d a b => Sys2Proof.Machine.execShl64 g d a b s
  | .shrZ64 g d a b => Sys2Proof.Machine.execShrZ64 g d a b s
  | .shrI64 g d a b => Sys2Proof.Machine.execShrI64 g d a b s
  | .minI64 g d a b => Sys2Proof.Machine.execMinI64 g d a b s
  | .maxI64 g d a b => Sys2Proof.Machine.execMaxI64 g d a b s
  | .minZ64 g d a b => Sys2Proof.Machine.execMinZ64 g d a b s
  | .maxZ64 g d a b => Sys2Proof.Machine.execMaxZ64 g d a b s
  | .cmpEq64 g c p a b => Sys2Proof.Machine.execCmpEq64 g c p a b s
  | .cmpLtI64 g c p a b => Sys2Proof.Machine.execCmpLtI64 g c p a b s
  | .cmpLtZ64 g c p a b => Sys2Proof.Machine.execCmpLtZ64 g c p a b s
  | .movi g d im => Sys2Proof.Machine.execMovi g d im s
  | .movhi g d im => Sys2Proof.Machine.execMovhi g d im s
  | .addi g d im => Sys2Proof.Machine.execAddi g d im s
  | .li g d hi lo => Sys2Proof.Machine.execLi g d hi lo s
  | .addi32 g d a hi lo => Sys2Proof.Machine.execAddi32 g d a hi lo s
  | .andi32 g d a hi lo => Sys2Proof.Machine.execAndi32 g d a hi lo s
  | .ori32 g d a hi lo => Sys2Proof.Machine.execOri32 g d a hi lo s
  | .xori32 g d a hi lo => Sys2Proof.Machine.execXori32 g d a hi lo s
  | .mov g d a => Sys2Proof.Machine.execMov g d a s
  | .sel g d a b => Sys2Proof.Machine.execSel g d a b s
  | .shflIdx g d a b => Sys2Proof.Machine.execShflIdx g d a b s
  | .shflUp g d a b => Sys2Proof.Machine.execShflUp g d a b s
  | .shflDn g d a b => Sys2Proof.Machine.execShflDn g d a b s
  | .shflXor g d a b => Sys2Proof.Machine.execShflXor g d a b s
  | .bcast g d a b => Sys2Proof.Machine.execBcast g d a b s
  | .ballot g d a => Sys2Proof.Machine.execBallot g d a s
  | .matchLanes g d a => Sys2Proof.Machine.execMatchLanes g d a s
  | .lscanAdd g d a => Sys2Proof.Machine.execLscanAdd g d a s
  | .lredAdd g d a => Sys2Proof.Machine.execLredAdd g d a s
  | .lredMinI g d a => Sys2Proof.Machine.execLredMinI g d a s
  | .lredMaxI g d a => Sys2Proof.Machine.execLredMaxI g d a s
  | .lredMinZ g d a => Sys2Proof.Machine.execLredMinZ g d a s
  | .lredMaxZ g d a => Sys2Proof.Machine.execLredMaxZ g d a s
  | .lredAddF32 g d a => Sys2Proof.Machine.execLredAddF32 g d a s
  | .pand g d a b => Sys2Proof.Machine.execPand g d a b s
  | .por g d a b => Sys2Proof.Machine.execPor g d a b s
  | .pxor g d a b => Sys2Proof.Machine.execPxor g d a b s
  | .pnot g d a => Sys2Proof.Machine.execPnot g d a s
  | .pmov g d a => Sys2Proof.Machine.execPmov g d a s
  | .p2v g d a => Sys2Proof.Machine.execP2v g d a s
  | .v2p g d a => Sys2Proof.Machine.execV2p g d a s
  | .pany g d a => Sys2Proof.Machine.execPany g d a s
  | .pall g d a => Sys2Proof.Machine.execPall g d a s
  | .lea g sc d a b => Sys2Proof.Machine.execLea g sc d a b s
  | .tagq g d a => Sys2Proof.Machine.execTagq g d a s
  | .srd g d im => Sys2Proof.Machine.execSrd g d im s
  | .swr g d im => Sys2Proof.Machine.execSwr g d im s
  | .fadd g d a b => Sys2Proof.Machine.execFadd g d a b s
  | .fsub g d a b => Sys2Proof.Machine.execFsub g d a b s
  | .fmul g d a b => Sys2Proof.Machine.execFmul g d a b s
  | .fma g d a b => Sys2Proof.Machine.execFma g d a b s
  | .fms g d a b => Sys2Proof.Machine.execFms g d a b s
  | .fnma g d a b => Sys2Proof.Machine.execFnma g d a b s
  | .fmin g d a b => Sys2Proof.Machine.execFmin g d a b s
  | .fmax g d a b => Sys2Proof.Machine.execFmax g d a b s
  | .fminn g d a b => Sys2Proof.Machine.execFminn g d a b s
  | .fmaxn g d a b => Sys2Proof.Machine.execFmaxn g d a b s
  | .fabs g d a => Sys2Proof.Machine.execFabs g d a s
  | .fneg g d a => Sys2Proof.Machine.execFneg g d a s
  | .fcpsgn g d a b => Sys2Proof.Machine.execFcpsgn g d a b s
  | .frint g d a m => Sys2Proof.Machine.execFrint g d a m s
  | .ffrac g d a => Sys2Proof.Machine.execFfrac g d a s
  | .fsat g d a => Sys2Proof.Machine.execFsat g d a s
  | .fcmpEq g c p a b => Sys2Proof.Machine.execFcmpEq g c p a b s
  | .fcmpNe g c p a b => Sys2Proof.Machine.execFcmpNe g c p a b s
  | .fcmpLt g c p a b => Sys2Proof.Machine.execFcmpLt g c p a b s
  | .fcmpLe g c p a b => Sys2Proof.Machine.execFcmpLe g c p a b s
  | .fcmpGt g c p a b => Sys2Proof.Machine.execFcmpGt g c p a b s
  | .fcmpGe g c p a b => Sys2Proof.Machine.execFcmpGe g c p a b s
  | .fcmpUn g c p a b => Sys2Proof.Machine.execFcmpUn g c p a b s
  | .fcmpOr g c p a b => Sys2Proof.Machine.execFcmpOr g c p a b s
  | .fclass g d a => Sys2Proof.Machine.execFclass g d a s
  | .rcp g d a => Sys2Proof.Machine.execRcp g d a s
  | .rsqrt g d a => Sys2Proof.Machine.execRsqrt g d a s
  | .sqrt g d a => Sys2Proof.Machine.execSqrt g d a s
  | .exp2 g d a => Sys2Proof.Machine.execExp2 g d a s
  | .log2 g d a => Sys2Proof.Machine.execLog2 g d a s
  | .sinpi g d a => Sys2Proof.Machine.execSinpi g d a s
  | .cospi g d a => Sys2Proof.Machine.execCospi g d a s
  | .tanh g d a => Sys2Proof.Machine.execTanh g d a s
  | .sigm g d a => Sys2Proof.Machine.execSigm g d a s
  | .hadd2F16 g d a b => Sys2Proof.Machine.execHadd2F16 g d a b s
  | .hsub2F16 g d a b => Sys2Proof.Machine.execHsub2F16 g d a b s
  | .hmul2F16 g d a b => Sys2Proof.Machine.execHmul2F16 g d a b s
  | .hfma2F16 g d a b => Sys2Proof.Machine.execHfma2F16 g d a b s
  | .hmin2F16 g d a b => Sys2Proof.Machine.execHmin2F16 g d a b s
  | .hmax2F16 g d a b => Sys2Proof.Machine.execHmax2F16 g d a b s
  | .hadd2Bf16 g d a b => Sys2Proof.Machine.execHadd2Bf16 g d a b s
  | .hsub2Bf16 g d a b => Sys2Proof.Machine.execHsub2Bf16 g d a b s
  | .hmul2Bf16 g d a b => Sys2Proof.Machine.execHmul2Bf16 g d a b s
  | .hfma2Bf16 g d a b => Sys2Proof.Machine.execHfma2Bf16 g d a b s
  | .hmin2Bf16 g d a b => Sys2Proof.Machine.execHmin2Bf16 g d a b s
  | .hmax2Bf16 g d a b => Sys2Proof.Machine.execHmax2Bf16 g d a b s
  | .cvt g sc d a e m => Sys2Proof.Machine.execCvt g sc d a e m s
  | .fmtSet g sc v => Sys2Proof.Machine.execFmtSet g sc v s
  | .fmtGet g d sc => Sys2Proof.Machine.execFmtGet g d sc s
  | .sbexp g d a => Sys2Proof.Machine.execSbexp g d a s
  | .sbq g d a w b => Sys2Proof.Machine.execSbq g d a w b s
  | .sbdq g d w a b => Sys2Proof.Machine.execSbdq g d w a b s
  | .mxexp g d a e => Sys2Proof.Machine.execMxexp g d a e s
  | .mxq g d a b => Sys2Proof.Machine.execMxq g d a b s
  | .mxdq g d a b => Sys2Proof.Machine.execMxdq g d a b s
  | .pack g d a e => Sys2Proof.Machine.execPack g d a e s
  | .unpack g d a e => Sys2Proof.Machine.execUnpack g d a e s
  | .uexp g d a w => Sys2Proof.Machine.execUexp g d a w s
  | .tshape g d a => Sys2Proof.Machine.execTshape g d a s
  | .tzero g d => Sys2Proof.Machine.execTzero g d s
  | .tinfo g d a => Sys2Proof.Machine.execTinfo g d a s
  | .tfill g d a => Sys2Proof.Machine.execTfill g d a s
  | .tfree g d => Sys2Proof.Machine.execTfree g d s
  | .tmask g d a => Sys2Proof.Machine.execTmask g d a s
  | .tmaskClr g d => Sys2Proof.Machine.execTmaskClr g d s
  | .mma g d x a y b => Sys2Proof.Machine.execMma g d x a y b s
  | .mmaZ g d x a y b => Sys2Proof.Machine.execMmaZ g d x a y b s
  | .mmi g d x a y b => Sys2Proof.Machine.execMmi g d x a y b s
  | .mmiZ g d x a y b => Sys2Proof.Machine.execMmiZ g d x a y b s
  | .mmas g d x a y b pat mt => Sys2Proof.Machine.execMmas g d x a y b pat mt s
  | .mmasZ g d x a y b pat mt => Sys2Proof.Machine.execMmasZ g d x a y b pat mt s
  | .mmis g d x a y b pat mt => Sys2Proof.Machine.execMmis g d x a y b pat mt s
  | .mmisZ g d x a y b pat mt => Sys2Proof.Machine.execMmisZ g d x a y b pat mt s
  | .trow g d a b => Sys2Proof.Machine.execTrow g d a b s
  | .twrow g d a b => Sys2Proof.Machine.execTwrow g d a b s
  | .tcol g d a b => Sys2Proof.Machine.execTcol g d a b s
  | .twcol g d a b => Sys2Proof.Machine.execTwcol g d a b s
  | .tlds g d a b => Sys2Proof.Machine.execTlds g d a b s
  | .tsts g d a b => Sys2Proof.Machine.execTsts g d a b s
  | .tldg g d a b => Sys2Proof.Machine.execTldg g d a b s
  | .tstg g d a b => Sys2Proof.Machine.execTstg g d a b s
  | .mbclose g d => Sys2Proof.Machine.execMbclose g d s
  | .mbstat g d => Sys2Proof.Machine.execMbstat g d s
  | .ldI8 g d a o => Sys2Proof.Machine.execLdI8 g d a o s
  | .ldZ8 g d a o => Sys2Proof.Machine.execLdZ8 g d a o s
  | .ldI16 g d a o => Sys2Proof.Machine.execLdI16 g d a o s
  | .ldZ16 g d a o => Sys2Proof.Machine.execLdZ16 g d a o s
  | .ld32 g d a o => Sys2Proof.Machine.execLd32 g d a o s
  | .ld64 g d a o => Sys2Proof.Machine.execLd64 g d a o s
  | .ld128 g d a o => Sys2Proof.Machine.execLd128 g d a o s
  | .ldB g d a o => Sys2Proof.Machine.execLdB g d a o s
  | .st8 g d a o => Sys2Proof.Machine.execSt8 g d a o s
  | .st16 g d a o => Sys2Proof.Machine.execSt16 g d a o s
  | .st32 g d a o => Sys2Proof.Machine.execSt32 g d a o s
  | .st64 g d a o => Sys2Proof.Machine.execSt64 g d a o s
  | .st128 g d a o => Sys2Proof.Machine.execSt128 g d a o s
  | .stN4 g d a o => Sys2Proof.Machine.execStN4 g d a o s
  | .stN2 g d a o => Sys2Proof.Machine.execStN2 g d a o s
  | .ldsI8 g d a o => Sys2Proof.Machine.execLdsI8 g d a o s
  | .ldsZ8 g d a o => Sys2Proof.Machine.execLdsZ8 g d a o s
  | .ldsI16 g d a o => Sys2Proof.Machine.execLdsI16 g d a o s
  | .ldsZ16 g d a o => Sys2Proof.Machine.execLdsZ16 g d a o s
  | .lds32 g d a o => Sys2Proof.Machine.execLds32 g d a o s
  | .lds64 g d a o => Sys2Proof.Machine.execLds64 g d a o s
  | .lds128 g d a o => Sys2Proof.Machine.execLds128 g d a o s
  | .ldsB g d a o => Sys2Proof.Machine.execLdsB g d a o s
  | .sts8 g d a o => Sys2Proof.Machine.execSts8 g d a o s
  | .sts16 g d a o => Sys2Proof.Machine.execSts16 g d a o s
  | .sts32 g d a o => Sys2Proof.Machine.execSts32 g d a o s
  | .sts64 g d a o => Sys2Proof.Machine.execSts64 g d a o s
  | .sts128 g d a o => Sys2Proof.Machine.execSts128 g d a o s
  | .stsN4 g d a o => Sys2Proof.Machine.execStsN4 g d a o s
  | .stsN2 g d a o => Sys2Proof.Machine.execStsN2 g d a o s
  | .ldx g d a l c z o => Sys2Proof.Machine.execLdx g d a l c z o s
  | .stx g d a l c z o => Sys2Proof.Machine.execStx g d a l c z o s
  | .ldsx g d a z o => Sys2Proof.Machine.execLdsx g d a z o s
  | .stsx g d a z o => Sys2Proof.Machine.execStsx g d a z o s
  | .ldAcq32 g d a sc => Sys2Proof.Machine.execLdAcq32 g d a sc s
  | .ldAcq64 g d a sc => Sys2Proof.Machine.execLdAcq64 g d a sc s
  | .stRel32 g d a sc => Sys2Proof.Machine.execStRel32 g d a sc s
  | .stRel64 g d a sc => Sys2Proof.Machine.execStRel64 g d a sc s
  | .fenceAcq g sc => Sys2Proof.Machine.execFenceAcq g sc s
  | .fenceRel g sc => Sys2Proof.Machine.execFenceRel g sc s
  | .fenceAr g sc => Sys2Proof.Machine.execFenceAr g sc s
  | .fenceSc g sc => Sys2Proof.Machine.execFenceSc g sc s
  | .pf g a o => Sys2Proof.Machine.execPf g a o s
  | .pf2 g a o => Sys2Proof.Machine.execPf2 g a o s
  | .icinv g a sc => Sys2Proof.Machine.execIcinv g a sc s
  | .l1inv g a => Sys2Proof.Machine.execL1inv g a s
  | .l1invAll g => Sys2Proof.Machine.execL1invAll g s
  | .evict g a => Sys2Proof.Machine.execEvict g a s
  | .l2part g d a => Sys2Proof.Machine.execL2part g d a s
  | .wpath g a p => Sys2Proof.Machine.execWpath g a p s
  | .wbatch g a => Sys2Proof.Machine.execWbatch g a s
  | .wfut g d k => Sys2Proof.Machine.execWfut g d k s
  | .wany g d a => Sys2Proof.Machine.execWany g d a s
  | .fpoll g d k => Sys2Proof.Machine.execFpoll g d k s
  | .wtree g d a => Sys2Proof.Machine.execWtree g d a s
  | .rclk g d => Sys2Proof.Machine.execRclk g d s
  | .rtick g => Sys2Proof.Machine.execRtick g s
  | .rmode g m => Sys2Proof.Machine.execRmode g m s
  | .rnext g d => Sys2Proof.Machine.execRnext g d s
  | .rclr g a b => Sys2Proof.Machine.execRclr g a b s
  | .aadd g d a o sc => Sys2Proof.Machine.execAadd g d a o sc s
  | .aaddF32 g d a o sc => Sys2Proof.Machine.execAaddF32 g d a o sc s
  | .aaddBf16x2 g d a o sc => Sys2Proof.Machine.execAaddBf16x2 g d a o sc s
  | .aaddF16x2 g d a o sc => Sys2Proof.Machine.execAaddF16x2 g d a o sc s
  | .aminI g d a o sc => Sys2Proof.Machine.execAminI g d a o sc s
  | .amaxI g d a o sc => Sys2Proof.Machine.execAmaxI g d a o sc s
  | .aminZ g d a o sc => Sys2Proof.Machine.execAminZ g d a o sc s
  | .amaxZ g d a o sc => Sys2Proof.Machine.execAmaxZ g d a o sc s
  | .aand g d a o sc => Sys2Proof.Machine.execAand g d a o sc s
  | .aor g d a o sc => Sys2Proof.Machine.execAor g d a o sc s
  | .axor g d a o sc => Sys2Proof.Machine.execAxor g d a o sc s
  | .axch g d a o sc => Sys2Proof.Machine.execAxch g d a o sc s
  | .ainc g d a o sc => Sys2Proof.Machine.execAinc g d a o sc s
  | .adec g d a o sc => Sys2Proof.Machine.execAdec g d a o sc s
  | .aminF32 g d a o sc => Sys2Proof.Machine.execAminF32 g d a o sc s
  | .amaxF32 g d a o sc => Sys2Proof.Machine.execAmaxF32 g d a o sc s
  | .aadd64 g d a o sc p => Sys2Proof.Machine.execAadd64 g d a o sc p s
  | .aminI64 g d a o sc p => Sys2Proof.Machine.execAminI64 g d a o sc p s
  | .amaxI64 g d a o sc p => Sys2Proof.Machine.execAmaxI64 g d a o sc p s
  | .aminZ64 g d a o sc p => Sys2Proof.Machine.execAminZ64 g d a o sc p s
  | .amaxZ64 g d a o sc p => Sys2Proof.Machine.execAmaxZ64 g d a o sc p s
  | .axch64 g d a o sc p => Sys2Proof.Machine.execAxch64 g d a o sc p s
  | .acas g d a o sc p c => Sys2Proof.Machine.execAcas g d a o sc p c s
  | .acas64 g d a o sc p c => Sys2Proof.Machine.execAcas64 g d a o sc p c s
  | .acas128 g d a o sc p c => Sys2Proof.Machine.execAcas128 g d a o sc p c s
  | .amaxp g d a o sc p => Sys2Proof.Machine.execAmaxp g d a o sc p s
  | .redAdd g d a o sc => Sys2Proof.Machine.execRedAdd g d a o sc s
  | .redAddF32 g d a o sc => Sys2Proof.Machine.execRedAddF32 g d a o sc s
  | .redAddBf16x2 g d a o sc => Sys2Proof.Machine.execRedAddBf16x2 g d a o sc s
  | .redAddF16x2 g d a o sc => Sys2Proof.Machine.execRedAddF16x2 g d a o sc s
  | .redMinI g d a o sc => Sys2Proof.Machine.execRedMinI g d a o sc s
  | .redMaxI g d a o sc => Sys2Proof.Machine.execRedMaxI g d a o sc s
  | .redMinZ g d a o sc => Sys2Proof.Machine.execRedMinZ g d a o sc s
  | .redMaxZ g d a o sc => Sys2Proof.Machine.execRedMaxZ g d a o sc s
  | .redAnd g d a o sc => Sys2Proof.Machine.execRedAnd g d a o sc s
  | .redOr g d a o sc => Sys2Proof.Machine.execRedOr g d a o sc s
  | .redXor g d a o sc => Sys2Proof.Machine.execRedXor g d a o sc s
  | .redAdd64 g d a o sc => Sys2Proof.Machine.execRedAdd64 g d a o sc s
  | .redMinF32 g d a o sc => Sys2Proof.Machine.execRedMinF32 g d a o sc s
  | .redMaxF32 g d a o sc => Sys2Proof.Machine.execRedMaxF32 g d a o sc s
  | .vconf g d a w => Sys2Proof.Machine.execVconf g d a w s
  | .vconfl g d a w => Sys2Proof.Machine.execVconfl g d a w s
  | .vuniq g d a w => Sys2Proof.Machine.execVuniq g d a w s
  | .scombF32 g d a => Sys2Proof.Machine.execScombF32 g d a s
  | .scombI32 g d a => Sys2Proof.Machine.execScombI32 g d a s
  | .scombBf16x2 g d a => Sys2Proof.Machine.execScombBf16x2 g d a s
  | .barArr g d a b => Sys2Proof.Machine.execBarArr g d a b s
  | .barWait g a b => Sys2Proof.Machine.execBarWait g a b s
  | .barSync g a => Sys2Proof.Machine.execBarSync g a s
  | .barInit g a b => Sys2Proof.Machine.execBarInit g a b s
  | .barArrx g d a b => Sys2Proof.Machine.execBarArrx g d a b s
  | .cbarInit g d a => Sys2Proof.Machine.execCbarInit g d a s
  | .cbarArr g d a => Sys2Proof.Machine.execCbarArr g d a s
  | .cbarWait g d a => Sys2Proof.Machine.execCbarWait g d a s
  | .cbarSync g a => Sys2Proof.Machine.execCbarSync g a s
  | .waddrEq g d a sc => Sys2Proof.Machine.execWaddrEq g d a sc s
  | .waddrNe g d a sc => Sys2Proof.Machine.execWaddrNe g d a sc s
  | .waddrLt g d a sc => Sys2Proof.Machine.execWaddrLt g d a sc s
  | .waddrGe g d a sc => Sys2Proof.Machine.execWaddrGe g d a sc s
  | .waddrAny g d a sc => Sys2Proof.Machine.execWaddrAny g d a sc s
  | .cpt g d a b l sc e q k p => Sys2Proof.Machine.execCpt g d a b l sc e q k p s
  | .cpm g d a b m l sc e q p => Sys2Proof.Machine.execCpm g d a b m l sc e q p s
  | .cps g d a b l sc e q k p => Sys2Proof.Machine.execCps g d a b l sc e q k p s
  | .cpf g d a b w l sc e q k p => Sys2Proof.Machine.execCpf g d a b w l sc e q k p s
  | .cpr g d a b r l sc e q k p => Sys2Proof.Machine.execCpr g d a b r l sc e q k p s
  | .gth g d a b l sc e q k p => Sys2Proof.Machine.execGth g d a b l sc e q k p s
  | .sct g d a b l sc e q k p => Sys2Proof.Machine.execSct g d a b l sc e q k p s
  | .sctr g d a b r l sc e q k p => Sys2Proof.Machine.execSctr g d a b r l sc e q k p s
  | .rbInit g a b => Sys2Proof.Machine.execRbInit g a b s
  | .rbAwait g d a b => Sys2Proof.Machine.execRbAwait g d a b s
  | .rbRel g a b => Sys2Proof.Machine.execRbRel g a b s
  | .rbStat g d a => Sys2Proof.Machine.execRbStat g d a s
  | .rbCred g d a b => Sys2Proof.Machine.execRbCred g d a b s
  | .spawn g d a k => Sys2Proof.Machine.execSpawn g d a k s
  | .treeOpen g d => Sys2Proof.Machine.execTreeOpen g d s
  | .treeClose g a => Sys2Proof.Machine.execTreeClose g a s
  | .treeCloseFree g a => Sys2Proof.Machine.execTreeCloseFree g a s
  | .treeCancel g a => Sys2Proof.Machine.execTreeCancel g a s
  | .treeStat g d a => Sys2Proof.Machine.execTreeStat g d a s
  | .dlSet g a b => Sys2Proof.Machine.execDlSet g a b s
  | .dlGet g d a => Sys2Proof.Machine.execDlGet g d a s
  | .dlChk g d a => Sys2Proof.Machine.execDlChk g d a s
  | .nalloc g d a => Sys2Proof.Machine.execNalloc g d a s
  | .nallocT g d a => Sys2Proof.Machine.execNallocT g d a s
  | .nfree g a b => Sys2Proof.Machine.execNfree g a b s
  | .nreset g a => Sys2Proof.Machine.execNreset g a s
  | .ninfo g d a => Sys2Proof.Machine.execNinfo g d a s
  | .cqPush g d a k => Sys2Proof.Machine.execCqPush g d a k s
  | .cqTake g d a t => Sys2Proof.Machine.execCqTake g d a t s
  | .cqPut g a b => Sys2Proof.Machine.execCqPut g a b s
  | .cqFlush g a => Sys2Proof.Machine.execCqFlush g a s
  | .cqCfg g a b => Sys2Proof.Machine.execCqCfg g a b s
  | .cqStat g d a => Sys2Proof.Machine.execCqStat g d a s
  | .fdPop g d a => Sys2Proof.Machine.execFdPop g d a s
  | .fdTry g d a => Sys2Proof.Machine.execFdTry g d a s
  | .fdPush g a b => Sys2Proof.Machine.execFdPush g a b s
  | .fdStat g d a => Sys2Proof.Machine.execFdStat g d a s
  | .colRay g d a b sc e q k => Sys2Proof.Machine.execColRay g d a b sc e q k s
  | .colSph g d a b sc e q k => Sys2Proof.Machine.execColSph g d a b sc e q k s
  | .colBox g d a b sc e q k => Sys2Proof.Machine.execColBox g d a b sc e q k s
  | .colSweep g d a b sc e q k => Sys2Proof.Machine.execColSweep g d a b sc e q k s
  | .colDist g d a b sc e q k => Sys2Proof.Machine.execColDist g d a b sc e q k s
  | .colUpd g d a b sc e q k => Sys2Proof.Machine.execColUpd g d a b sc e q k s
  | .dynFk g d a b sc e q k => Sys2Proof.Machine.execDynFk g d a b sc e q k s
  | .dynId g d a b sc e q k => Sys2Proof.Machine.execDynId g d a b sc e q k s
  | .dynFd g d a b sc e q k => Sys2Proof.Machine.execDynFd g d a b sc e q k s
  | .dynStep g d a b sc e q k => Sys2Proof.Machine.execDynStep g d a b sc e q k s
  | .dynJac g d a b n sc e q k => Sys2Proof.Machine.execDynJac g d a b n sc e q k s
  | .dynMass g d a b sc e q k => Sys2Proof.Machine.execDynMass g d a b sc e q k s
  | .trap g im => Sys2Proof.Machine.execTrap g im s
  | .sys g d a sc c => Sys2Proof.Machine.execSys g d a sc c s
  | .brk g im => Sys2Proof.Machine.execBrk g im s
  | .eret g => Sys2Proof.Machine.execEret g s
  | .eretR g => Sys2Proof.Machine.execEretR g s
  | .tret g => Sys2Proof.Machine.execTret g s
  | .phint g mh mm ml t r mt => Sys2Proof.Machine.execPhint g mh mm ml t r mt s
  | .ppoint g mh mm ml t r mt => Sys2Proof.Machine.execPpoint g mh mm ml t r mt s
  | .tmark g a => Sys2Proof.Machine.execTmark g a s
  | .tstamp g d => Sys2Proof.Machine.execTstamp g d s
  | .pctr g d a => Sys2Proof.Machine.execPctr g d a s
  | .tctlOff g => Sys2Proof.Machine.execTctlOff g s
  | .tctlOn g o => Sys2Proof.Machine.execTctlOn g o s
  | .tctlFlush g => Sys2Proof.Machine.execTctlFlush g s
  | .fragmentArrive gi fi => Sys2Proof.Machine.execFragmentArrive gi fi s
  | .fragmentAged gi fi => Sys2Proof.Machine.execFragmentAged gi fi s
  | .loadReturn gi n => Sys2Proof.Machine.execLoadReturn gi n s
  | .atomicReturn gi n => Sys2Proof.Machine.execAtomicReturn gi n s
  | .accessCheckReturn gi => Sys2Proof.Machine.execAccessCheckReturn gi s
  | .accessPerformed n => Sys2Proof.Machine.execAccessPerformed n s
  | .blockPark bi => Sys2Proof.Machine.execBlockPark bi s
  | .blockRestore bi => Sys2Proof.Machine.execBlockRestore bi s
  | .preemptionRequest li => Sys2Proof.Machine.execPreemptionRequest li s
  | .preemptForcedStop gi => Sys2Proof.Machine.execPreemptForcedStop gi s
  | .matrixQuiescence gi => Sys2Proof.Machine.execMatrixQuiescence gi s
  | .saveComplete bi => Sys2Proof.Machine.execSaveComplete bi s
  | .matrixOpComplete gi => Sys2Proof.Machine.execMatrixOpComplete gi s
  | .tileTransferComplete gi n => Sys2Proof.Machine.execTileTransferComplete gi n s
  | .siblingStop gi => Sys2Proof.Machine.execSiblingStop gi s
  | .handlerEntry bi => Sys2Proof.Machine.execHandlerEntry bi s
  | .chovisFaultRecord n => Sys2Proof.Machine.execChovisFaultRecord n s
  | .sysReply n => Sys2Proof.Machine.execSysReply n s
  | .eventRingRoom n => Sys2Proof.Machine.execEventRingRoom n s
  | .woaPoll n => Sys2Proof.Machine.execWoaPoll n s
  | .copyCommandComplete n => Sys2Proof.Machine.execCopyCommandComplete n s
  | .collisionCommandComplete n => Sys2Proof.Machine.execCollisionCommandComplete n s
  | .dynamicsCommandComplete n => Sys2Proof.Machine.execDynamicsCommandComplete n s
  | .replayableFaultRecord n => Sys2Proof.Machine.execReplayableFaultRecord n s
  | .faultResponseTimeout n => Sys2Proof.Machine.execFaultResponseTimeout n s
  | .translationWalkComplete core pasid va => Sys2Proof.Machine.execTranslationWalkComplete core pasid va s
  | .syzygyTimeout q => Sys2Proof.Machine.execSyzygyTimeout q s
  | .deadlineExpire n => Sys2Proof.Machine.execDeadlineExpire n s
  | .queueMap q => Sys2Proof.Machine.execQueueMap q s
  | .queueUnmapIdle q => Sys2Proof.Machine.execQueueUnmapIdle q s
  | .launch q p => Sys2Proof.Machine.execLaunch q p s
  | .feed q p => Sys2Proof.Machine.execFeed q p s
  | .wait q p => Sys2Proof.Machine.execWait q p s
  | .waitTimeout q => Sys2Proof.Machine.execWaitTimeout q s
  | .signal q p => Sys2Proof.Machine.execSignal q p s
  | .fetchFence q p => Sys2Proof.Machine.execFetchFence q p s
  | .callPacket q p => Sys2Proof.Machine.execCallPacket q p s
  | .returnPacket q p => Sys2Proof.Machine.execReturnPacket q p s
  | .timestamp q p => Sys2Proof.Machine.execTimestamp q p s
  | .priority q p => Sys2Proof.Machine.execPriority q p s
  | .copy q p => Sys2Proof.Machine.execCopy q p s
  | .event q p => Sys2Proof.Machine.execEvent q p s
  | .nopPacket q p => Sys2Proof.Machine.execNopPacket q p s
  | .reserveCores q p => Sys2Proof.Machine.execReserveCores q p s
  | .releaseCores q p => Sys2Proof.Machine.execReleaseCores q p s
  | .watchdogExpire pasid => Sys2Proof.Machine.execWatchdogExpire pasid s
  | .xtmoExpire gi => Sys2Proof.Machine.execXtmoExpire gi s
  | .ctxCreate im r => Sys2Proof.Machine.execCtxCreate im r s
  | .ctxTeardown im r => Sys2Proof.Machine.execCtxTeardown im r s
  | .teardownComplete pasid => Sys2Proof.Machine.execTeardownComplete pasid s
  | .queueSet im r => Sys2Proof.Machine.execQueueSet im r s
  | .poolBind im r => Sys2Proof.Machine.execPoolBind im r s
  | .cqBind im r => Sys2Proof.Machine.execCqBind im r s
  | .feedBind im r => Sys2Proof.Machine.execFeedBind im r s
  | .blockResume im r => Sys2Proof.Machine.execBlockResume im r s
  | .blockTerm im r => Sys2Proof.Machine.execBlockTerm im r s
  | .dbgSet im r => Sys2Proof.Machine.execDbgSet im r s
  | .dbgIcinv im r => Sys2Proof.Machine.execDbgIcinv im r s
  | .prof im r => Sys2Proof.Machine.execProf im r s
  | .dumpSet im r => Sys2Proof.Machine.execDumpSet im r s
  | .driverUnknownCommand im r => Sys2Proof.Machine.execDriverUnknownCommand im r s
  | .drvring v => Sys2Proof.Machine.execDrvring v s
  | .ctl v => Sys2Proof.Machine.execCtl v s
  | .invalCtl v => Sys2Proof.Machine.execInvalCtl v s
  | .invalidationComplete => Sys2Proof.Machine.execInvalidationComplete s
  | .fresp v => Sys2Proof.Machine.execFresp v s
  | .power v => Sys2Proof.Machine.execPower v s
  | .mbxBootImage len => Sys2Proof.Machine.execMbxBootImage len s
  | .mbxQuote len => Sys2Proof.Machine.execMbxQuote len s
  | .mgmtRegisterWrite off v => Sys2Proof.Machine.execMgmtRegisterWrite off v s
  | .time h => Sys2Proof.Machine.execTime h s
  | .peerTimeExchange => Sys2Proof.Machine.execPeerTimeExchange s
  | .rd src pa len => Sys2Proof.Machine.execRd src pa len s
  | .wr src pa bytes => Sys2Proof.Machine.execWr src pa bytes s
  | .atm src op pa v c => Sys2Proof.Machine.execAtm src op pa v c s
  | .own pa => Sys2Proof.Machine.execOwn pa s
  | .snp pa => Sys2Proof.Machine.execSnp pa s
  | .peerLinkChange up => Sys2Proof.Machine.execPeerLinkChange up s
  | .linkFailure => Sys2Proof.Machine.execLinkFailure s
  | .powerOn => Sys2Proof.Machine.execPowerOn s
  | .rom => Sys2Proof.Machine.execRom s
  | .verify => Sys2Proof.Machine.execVerify s
  | .fwinit => Sys2Proof.Machine.execFwinit s
  | .fatalError cause => Sys2Proof.Machine.execFatalError cause s
  | .throttle on temp => Sys2Proof.Machine.execThrottle on temp s
  | .pinnedClockLower => Sys2Proof.Machine.execPinnedClockLower s
  | .thermalTrip => Sys2Proof.Machine.execThermalTrip s
  | .clockChange cl mhz => Sys2Proof.Machine.execClockChange cl mhz s
  | .sync cl => Sys2Proof.Machine.execSync cl s
  | .stall gi => Sys2Proof.Machine.execStall gi s
  | .traceLossResync cl => Sys2Proof.Machine.execTraceLossResync cl s
  | .traceDrain cl => Sys2Proof.Machine.execTraceDrain cl s
  | .profileSample core part => Sys2Proof.Machine.execProfileSample core part s
  | .illegalInstruction w0 w1 detail => Sys2Proof.Machine.execIllegalInstruction w0 w1 detail s
  | .instructionFetchFault code addr => Sys2Proof.Machine.execInstructionFetchFault code addr s
  | .completionPathReturn gi n => Sys2Proof.Machine.execCompletionPathReturn gi n s

end Sys2Proof.Machine
end

