-- ==== Sys2Proof/Machine/Settle.lean ====
section
/-! DEFINITION. Sys2Proof/Machine/Settle.lean: what comes about inside a step behind its instruction or event: retirement and completion, ends of
subtrees, queue threads that go on, slots offered, the counts of the watchdogs, capacities of the caches (R31, R114, R310, R311, R388, R392, R394,
R400, R401, R408, R409, R420). -/

namespace Sys2Proof.Machine

open Sys2Proof

/-! ### Retirement and completion (R94, R401) -/

/-- Has the last result owed to a RETIRING group returned? -/
def retireDue (g : Group) : Bool :=
  g.state == .retiring && g.outst.isEmpty && g.ops.isEmpty && g.xfers.isEmpty && g.futures.all fun f => f.st != .pending
/-- The errors of a group's commands that no wait of it has met, each once, though a command for several receivers left it at each (R302). -/
def Group.untold (g : Group) : List Deferred :=
  ((g.barErr.filter fun x => x.2.code == 0x0A && !x.2.told).map fun x => { x.2 with stale := false }).eraseDups
/-- A group is RETIRED: its slot, registers and tiles are free, open stamp epochs end, the debug word clears, its vector goes to the
completion vectors of its subtree, block and launch and to its context's retirement vector, and the errors that it has not met go to the fault ring (R94, R249, R302, R370, R379). -/
def retireGroup (s : State) (gi : Nat) : State :=
  let s := (s.group gi).untold.foldl (fun s e => orphanError s gi e) (dropRows s gi false)
  let s := (List.range (s.group gi).tiles.length).foldl (fun s t => stampEnd s gi t) s
  let g := s.group gi
  let p := s.pasidOf g
  let s := if s.treeNamed p g.member then s.modTree (hIndex g.member) fun t => { t with know := t.know.merge g.know } else s
  let s := s.modB g.block fun b => { b with know := b.know.merge g.know }
  let s := s.modL (s.blockOf g).launch fun l => { l with know := l.know.merge g.know }
  let s := s.modC p fun c => { c with know := c.know.merge g.know }
  s.modG gi fun g => { g with
    state := .retired, regs := [], tiles := [], poison := [], closed := [], batchErr := [], openErr := [], barErr := [], debugStep := false,
    debugFreeze := false, preempt := none }
def retireAll (s : State) : State :=
  ((List.range s.groups.length).filter fun gi => retireDue (s.group gi)).foldl (fun s gi => orHold s (retireGroup s gi)) s

/-- Groups with a request pending that stop now (R360). -/
def quiesceAll (s : State) : State :=
  ((List.range s.groups.length).filter fun gi => stopsNow (s.group gi)).foldl (fun s gi => orHold s (quiesceGroup s gi)) s

/-- Blocks that have stopped for their discarding (R365). -/
def discardAll (s : State) : State :=
  ((List.range s.blocks.length).filter (discardDue s)).foldl (fun s bi => orHold s (discardBlock s bi)) s

/-- Subtrees end and are released, the innermost first (R310, R311). -/
def settleTrees (s : State) : State :=
  let live (s : State) : List Nat := (List.range s.trees.length).filter fun k => (s.tree k).st != .free
  let once (s : State) : State := (live s).foldl (fun s k => freeTree (endTree s k) k) s
  (live s).foldl (fun s _ => once s) s

/-- Blocks whose groups have all retired, with nothing of theirs still to perform. -/
def blockOver (s : State) (bi : Nat) : Bool :=
  (s.block bi).place != .done && (indexed s.groups).all fun e => e.2.block != bi || (e.2.state == .retired && s.unperf.all fun w => w.gi != e.1)
def completeBlocks (s : State) : State :=
  ((List.range s.blocks.length).filter (blockOver s)).foldl (fun s bi => s.modB bi fun b => { b with place := .done, halt := none, img := [] }) s
/-- Launches that are over; those of a context in teardown are answered with it (R407). -/
def completeLaunches (s : State) : State :=
  ((List.range s.launches.length).filter fun li => launchOver s li && (s.ctx (s.launch li).ctx).tearing.isNone).foldl (fun s li => orHold s (completeLaunch s li)) s

/-- System calls of fragments that are gone. -/
def dropCalls (s : State) : State :=
  { s with sysreqs := s.sysreqs.filter fun r => let g := s.group r.gi; !g.struck && (g.frags.any (fun f => f.fid == r.fid)) }

/-! ### The watchdogs' counts (R408, R409) -/

/-- Is a fragment in an external wait, a system call that halts its block among them (R353, R408)? -/
def waitsOutside (s : State) (gi : Nat) (f : Frag) : Bool :=
  groupWait s gi == .external && (match (s.blockOf (s.group gi)).halt with
    | some _ => f.fid == (s.group gi).stopFid
    | none => fragWait s gi f == .external)
/-- Since when each fragment stays in an external wait. -/
def countWaits (s : State) : State :=
  { s with groups := (indexed s.groups).map fun e => { e.2 with
      frags := e.2.frags.map fun f => { f with waitFrom := if waitsOutside s e.1 f then some (f.waitFrom.getD s.time) else none } } }
/-- Does the deadlock watchdog of a context count? -/
def deadlocked (s : State) (pasid : Nat) : Bool :=
  let gs := (List.range s.groups.length).filter fun gi => (s.group gi).state != .retired && s.pasidOf (s.group gi) == pasid
  !gs.isEmpty && gs.all (fun gi => groupWait s gi == .internal && (s.group gi).ops.isEmpty)
    && s.copies.all (fun c => c.ctx != pasid) && s.cols.all (fun c => c.ctx != pasid) && s.dyns.all (fun c => c.ctx != pasid)
    && s.queues.all fun e => e.2.pasid != pasid || ((nextPacket s e.1).isNone && (match e.2.proc with | .wait _ _ => false | _ => true))
def countDeadlocks (s : State) : State :=
  { s with ctxs := s.ctxs.map fun c =>
      if c.alive && deadlocked s c.pasid then { c with wdogFrom := some (c.wdogFrom.getD s.time) } else { c with wdogFrom := none } }

/-! ### Queue threads (R388, R391, R392, R394 to R398, R422) -/

/-- What a free thread must read before it knows its next packet. -/
def fetchNeeds (s : State) (x : Queue) : List Need :=
  let read (va : Nat) : Need := ⟨va, .read⟩
  match x.calls with
  | [] =>
    let n := match x.win with | u :: _ => (if unitType u = 0 then 1 else fetchUnits u) | [] => if workOf s x = 0 then 0 else 1
    read (x.desc + 16) :: ((List.range n).drop x.win.length).map fun k => read (x.unitVa (x.ridx + k))
  | f :: _ =>
    if f.units ≤ f.pos then []
    else
      let va (k : Nat) : Nat := f.addr + 16 * (f.pos + k)
      match chovisRead s x.pasid (va 0) 16 with
      | none => [read (va 0)]
      | some u => (List.range (fetchUnits u)).map fun k => read (va k)
/-- A fetch that does not translate waits for the host, or stops the queue with ERR 4. -/
def askFetch (s : State) (q : Nat) : State :=
  let x := s.queue q
  if threadFree s x then withNeeds s q (fetchNeeds s x) id else s

/-- A thread that waits goes on when what it waits for has come. -/
def goOn (s : State) (q : Nat) : State :=
  let x := s.queue q
  match x.proc with
  | .idle =>
    if x.owedErr ≠ 0 then stopQueue s q x.owedErr
    else match x.calls with
      | f :: _ => if f.units ≤ f.pos then leaveBuffer s q else s
      | [] => s
  | .launch li => if (s.launch li).nextBid.isNone && tokenOver s x.xtok then withNeeds s q (endNeeds x) fun s => endPacket s q else s
  | .feed _ rs => if tokenOver s x.xtok then feedMore q (rs.length + 1) s else s
  | .wait _ _ =>
    (match s.woas.find? fun w => w.who == Waiter.queue q && (w.hit.isSome || w.pa == noPlace) with
    | some w =>
      if !tokenOver s x.xtok then s
      else if w.hit.isNone then watchAgain s q w
      else withNeeds s q (endNeeds x) fun s =>
        finishPacket (if w.ext then s.replayLog x.pasid 3 0 (leBytes 8 w.va ++ leBytes 4 ((w.hit.map (·.toNat)).getD 0) ++ leBytes 4 0) else s) q
    | none => s)
  | .reserve m => if onlyCtx s x.pasid m && tokenOver s x.xtok then withNeeds s q (endNeeds x) fun s => finishPacket s q else s

/-- STATE of a queue (Table 18-1). -/
def stateOf (s : State) (q : Nat) : Nat :=
  let x := s.queue q
  if !x.enabled then 4
  else if x.stopped then 3
  else if x.proc != .idle then 2
  else if (nextPacket s q).isSome then 1
  else if !x.calls.isEmpty || workOf s x != 0 then 2
  else 0
/-- STATE is written when it changes. -/
def tellState (s : State) (q : Nat) : State :=
  let st := stateOf s q
  if st = (s.queue q).shown then s else withDesc s q fun s => showState s q (if st = 3 then (s.queue q).err else 0) st
/-- DONE advances past completed packets; where the descriptor does not translate, the thread asks the host (R392, R422). -/
def passDone (s : State) (q : Nat) : State :=
  match (s.queue q).flights with
  | f :: fs => if f.ended && f.parts == 0 then withDesc s q (advanceDone q (fs.length + 1)) else s
  | [] => s

/-- One queue: its window and its STATE; its thread goes on in its own issue slot (R20). -/
def serveQueue (s : State) (q : Nat) : State :=
  if !(s.ctx (s.queue q).pasid).alive || s.mgmt.boot != .ready then s
  else
    let s := if (s.queue q).serving then askFetch (fillWindow s q) q else s
    let x := s.queue q
    let s := if x.serving && (if x.mapped then x.thread == s.slotNow else x.owedErr != 0) then goOn s q else s
    countQueue (countIssues (tellState (passDone s q) q) q) q
def serveQueues (s : State) : State := (s.queues.map (·.1)).foldl (fun s q => orHold s (serveQueue s q)) s

/-! ### Slots offered (R28, R114, R400) -/

/-- A queued child that fits: its place in the queue and the cores. -/
def childOffer (s : State) : Option (Nat × Child × List Nat) :=
  (indexed s.spawnq).findSome? fun e =>
    let ks := (List.range 64).filter fun k => (e.2.plan s).fits s [k]
    if ks.isEmpty then none else some (e.1, e.2, ks)
/-- The launches in the order in which their blocks are placed: those with a discarded block first, then as they began (R400). -/
def launchOrder (s : State) : List Nat :=
  let ls := List.range s.launches.length
  (ls.filter fun li => !(s.launch li).again.isEmpty) ++ ls.filter fun li => (s.launch li).again.isEmpty
/-- What fits takes the slot: blocks to restore come first, then queued children, then the blocks of launches. -/
def offerSlots (s : State) : State :=
  if s.mgmt.boot ≠ .ready ∨ !(restorable s).isEmpty then s
  else
    match childOffer s with
    | some (n, c, ks) =>
      let (s, k) := s.chooseOf ks.length
      placeChild { s with spawnq := dropAt s.spawnq n } c (ks[k]?.getD 0)
    | none => ((launchOrder s).findSome? (placeMore s)).getD s

/-! ### Capacities of the caches (R205, R208, R420) -/

/-- The newest copies of each core, up to its capacity: `seen` are those kept before. -/
def keepNewest {α : Type} (core : α → Nat) (cap : Nat → Nat) : List α → List α → List α
  | [], _ => []
  | x :: xs, seen =>
    if (seen.filter fun y => core y == core x).length < cap (core x) then x :: keepNewest core cap xs (x :: seen)
    else keepNewest core cap xs seen
/-- Entries of the TLB of a core, and of a cluster's L2 TLB (R420). -/
def tlbCap : Nat := 96
def tlb2Cap : Nat := 4096
/-- Lines of the L1 of a core: what its split leaves of the array (R205). -/
def l1Cap (s : State) (core : Nat) : Nat := (655360 - s.split[core]?.getD 0) / 64
/-- Lines of an instruction cache of 48 KiB. -/
def iCap : Nat := 768
/-- The lines that an L1 keeps: the newest, those that `.cs` accesses brought in going first (R208). -/
def keepL1 (s : State) : List L1Line :=
  let keep := keepNewest (·.core) (l1Cap s) (s.l1.filter (!·.stream) ++ s.l1.filter (·.stream)) []
  keepNewest (·.core) (l1Cap s) (s.l1.filter keep.contains) []
/-- The oldest copies beyond the capacity of a cache are evicted. -/
def evictAll (s : State) : State :=
  { s with
    tlb := keepNewest (·.core) (fun _ => tlbCap) s.tlb [], tlb2 := keepNewest (·.core) (fun _ => tlb2Cap) s.tlb2 [], l1 := keepL1 s,
    icache := keepNewest (·.core) (fun _ => iCap) s.icache [] }

/-! ### What comes from outside and is no step (R13, R356, R425, R426) -/

/-- An uncorrectable soft error strikes (R13, Table 16-4). -/
def strikeAt (s : State) (u : Upset) : State :=
  let mark (gi r : Nat) (m : Mask) : State := s.modG gi fun g => { g with poison := ⟨r, m, 0, 1⟩ :: clearPoison g.poison r m }
  let markFrag (gi fid : Nat) (f : Frag → Frag) : State := s.modG gi fun g => { g with frags := g.frags.map fun x => if x.fid = fid then f x else x }
  match u with
  | .reg gi r m => if r < (s.group gi).regs.length ∧ m ≠ 0 then mark gi r m else s
  | .pred gi p => if p < 8 then mark gi (512 + p) 0xFFFF else s
  | .fmt gi fid => markFrag gi fid fun f => { f with badFmt := true }
  | .sched gi fid => markFrag gi fid fun f => { f with badSched := true }
  | .home pa => { s with memBad := (s.memBad ++ (List.range 64).map (pa / 64 * 64 + ·)).eraseDups }
  | .l1 core line => { s with l1 := s.l1.map fun x => if x.core = core ∧ x.line = line then { x with bad := true } else x }
  | .scratch bi off => s.modB bi fun b => { b with spBad := (b.spBad ++ [off]).eraseDups }
  | .tile gi t => s.modTile gi t fun x => { x with bad := true }
/-- The state behind an input that is no step: what the host and the peer write to their own memory, which the part sees when it next reads there; soft
errors; the flash; the peer's answer to a TIME request; reads of the window, and writes of it that are ignored for their size. -/
def quietInput (s : State) : Input → Option State
  | .elsewhere pa bs => some (if peerPa pa || hostPa pa then { s with mem := s.mem.write pa bs } else s)
  | .corrected core => some { s with corrected := modAt s.corrected core (· + 1) }
  | .upset u => some (strikeAt s u)
  | .flashErase => some (eraseFlash s)
  | .flashWrite bs => some (writeFlash s bs)
  | .mgmtRead off n => some (readWindow s off n)
  | .peerTime h d1 d2 => some (hearPeer s h d1 d2)
  | .mgmt _ n _ => if n = 8 then none else some s
  | _ => none
/-- Those at the head of what has come. -/
def quietInputs : List Input → State → State
  | [], s => { s with inputs := [] }
  | x :: xs, s => match quietInput s x with | some s => quietInputs xs s | none => { s with inputs := x :: xs }

/-- Everything that comes about inside a step behind its instruction or event. -/
def settle (s : State) : State :=
  let s := quietInputs s.inputs s
  let s := settleTrees (quiesceAll (discardAll (retireAll s)))
  let s := dropCalls (completeLaunches (completeBlocks s))
  let s := offerSlots (serveQueues s)
  let s := (List.range s.blocks.length).foldl (fun s bi => orHold s (syncImage s bi)) s
  let s := orHold s (drainReplay s)
  let s := seeWoas (wakeBars s)
  evictAll (countDeadlocks (countWaits s))

end Sys2Proof.Machine
end

