-- ==== Sys2Proof/Machine/Select.lean ====
section
/-! DEFINITION. Sys2Proof/Machine/Select.lean: the fragment that issues and what it issues, the pipes, and the selection among the ready fragments of a
partition (R61, R63, R99, R116, R117, R118). -/

namespace Sys2Proof.Machine

open Sys2Proof

/-! ### The fragment that issues (R61, R63, R99) -/

/-- What a fragment that is selected does: it arrives, its fetch fails, its words raise ILL, or they are an instruction. The fetch leaves
its line and its translation in the core. -/
noncomputable def fragInstr (s : State) (gi fi : Nat) : State × Instr :=
  if arriving s gi fi then (s, .fragmentArrive gi fi)
  else
    let g := s.group gi
    let p := s.pasidOf g
    let pc := (g.frag fi).pc.toNat
    let s' : State := { s with cur := some (gi, fi) }
    match fetchWord s g.core p pc with
    | .error code => (s', .instructionFetchFault code pc)
    | .ok w0 =>
      let s' := fetchFill s' g.core p pc
      let second : Except Nat Word := if isX (WordFields.ofWord w0).maj then fetchWord s g.core p (pc + 4) else .ok 0
      match second with
      | .error code => (s', .instructionFetchFault code (pc + 4))
      | .ok w1 =>
        let s' := if isX (WordFields.ofWord w0).maj then fetchFill s' g.core p (pc + 4) else s'
        match decode w0 w1 with
        | .ok i => ({ s' with readsFmt := readsFmt w0 }, i)
        | .error e => (s', .illegalInstruction w0 w1 e.detail)

/-- What the next instruction of a fragment would wait for, were it tried now. -/
noncomputable def wouldWait (s : State) (gi fi : Nat) : Option Stall :=
  let x := fragInstr s gi fi
  let f := (s.group gi).frag fi
  match exec x.2 x.1 with
  | .next t => if (t.group gi).issued = (s.group gi).issued then ((t.group gi).fragAt f.fid).bind fun k => ((t.group gi).frag k).stall else none
  | .fault _ => none
  | .refused _ => none

/-- What an instruction names to the scoreboard (R49): its sources and its destinations, predicates as 512 + p. -/
structure Uses where
  srcs : List Nat := []
  dests : List Nat := []

/-- The state with results owed to some registers and predicates of a group, and a fragment that waits for nothing. -/
def owing (s : State) (gi fi : Nat) (xs : List Nat) : State :=
  (s.modG gi fun g => { g with
    outst := g.outst ++ [{ path := .cf, seq := 0, fid := 0, poison := xs.map fun r => ⟨r, 0xFFFF, 0, 0⟩ }] }).modF gi fi fun f => { f with
      stall := none }
/-- What the next instruction of a fragment uses of a list of registers and predicates: were results owed to them, it would wait for these. -/
noncomputable def usesAmong (s : State) (gi fi : Nat) : Nat → List Nat → Uses
  | 0, _ => {}
  | n + 1, xs =>
    match wouldWait (owing s gi fi xs) gi fi with
    | some (.dest ds _) => let u := usesAmong s gi fi n (xs.filter fun r => !ds.contains r); { u with dests := ds ++ u.dests }
    | some (.regs rs _) => let u := usesAmong s gi fi n (xs.filter fun r => !rs.contains r); { u with srcs := rs ++ u.srcs }
    | _ => {}
/-- What the next instruction of a fragment uses. -/
noncomputable def usesOf (s : State) (gi fi : Nat) : Uses := usesAmong s gi fi 4 (List.range 520)

/-! ### Pipes (R117, Table 5-6) -/

/-- The majors of lane arithmetic, logic, shifts, comparisons, moves and lane operations. -/
def laneMajors : List Nat := [0x04, 0x05, 0x06, 0x07, 0x08, 0x09, 0x0A, 0x0B, 0x0C, 0x0D, 0x0E, 0x0F, 0x11, 0x13, 0x14, 0x16, 0x17]
/-- Division and remainder among the functions of IMUL. -/
def imulSlow (fn : Nat) : Bool := decide (8 ≤ fn) && decide (fn ≤ 11)
/-- The pipes an instruction of a group with these source registers may go to. A lane instruction goes to the uniform pipe when the tags of all its operands
say so; the tags are free where they are true (R42, R43, log entry 8), so the model lets both pipes serve where every source is UNIFORM or AFFINE in fact. -/
def pipesOf (g : Group) (srcs : List Nat) (w : Word) : List Pipe :=
  let x := WordFields.ofWord w
  let m := x.maj.toNat
  let steady (r : Nat) : Bool := let v := g.regs[r]?.getD zeroVec; decide (512 ≤ r) || tagTrue v 1 || tagTrue v 2
  if [0x01, 0x02, 0x03, 0x10, 0x12].contains m then [.uniform]
  else if 0x19 ≤ m ∧ m ≤ 0x35 then [.memory]
  else if m = 0x15 ∨ (m = 0x06 ∧ imulSlow x.fn.toNat) then [.special]
  else if laneMajors.contains m && srcs.all steady then [.vector, .uniform]
  else [.vector]
/-- The pipes of a fragment's next instruction. -/
noncomputable def nextPipes (s : State) (gi fi : Nat) : List Pipe :=
  let g := s.group gi
  match fetchWord s g.core (s.pasidOf g) (g.frag fi).pc.toNat with
  | .error _ => [.vector, .uniform, .memory, .special]
  | .ok w => pipesOf g (usesOf s gi fi).srcs w

/-! ### Selection (R116, R118) -/

/-- The order of R116 and R118 as a key: the smaller goes first. -/
structure IssueKey where
  prio : Nat
  cls : Nat
  last : Nat
  lane : Nat

def issueKey (g : Group) (f : Frag) : IssueKey :=
  { prio := 127 - g.prio, cls := if f.aged then 0 else if f.spin then 2 else 1, last := f.lastIssue, lane := lowLane f.amask }
def IssueKey.before (a b : IssueKey) : Bool :=
  decide (a.prio < b.prio) || (a.prio == b.prio && (decide (a.cls < b.cls) || (a.cls == b.cls && (decide (a.last < b.last)
    || (a.last == b.last && decide (a.lane < b.lane))))))

/-- The partition of a group. -/
def partOf (g : Group) : Nat := 16 * g.core + g.slot / 16
/-- What a partition has issued in the running cycle. -/
def issuedBy (s : State) (part : Nat) : List Issued := s.issues.filter fun x => x.part == part && x.did
/-- Is a pipe left for an instruction in this cycle: one that the partition's other instruction of the cycle does not need, and, of the four partitions that
share the special-function pipe, one alone (R116, Table 5-6)? -/
def pipeLeft (s : State) (part : Nat) (ps : List Pipe) : Bool :=
  (issuedBy s part).all (fun x => ps.any fun p => x.pipes.any (· != p))
    && (s.issues.all (fun x => x.part / 4 != part / 4 || x.pipes != [.special]) || ps != [.special])
/-- Has a fragment been tried in this cycle without an issue? -/
def triedNow (s : State) (gi fid : Nat) : Bool := s.issues.any fun x => x.gi == gi && x.fid == fid && !x.did
/-- May a ready fragment take its partition's next place in this cycle: an instruction or its fault is at hand, and a pipe is left? -/
noncomputable def mayTake (s : State) (gi fi : Nat) : Bool :=
  let g := s.group gi
  !triedNow s gi (g.frag fi).fid && decide ((issuedBy s (partOf g)).length < 2)
    && (arriving s gi fi || ((codeMissing s gi fi).isNone && pipeLeft s (partOf g) (nextPipes s gi fi)))
/-- Is the next instruction of a fragment independent of the one that it has issued in this cycle (R116)? DEDUCED, log entry 55: it names nothing that the first
has written, reads no FMT that the first has written, and stands in order behind it in the same register window. Safe. -/
noncomputable def independent (s : State) (gi fi : Nat) (y : Issued) : Bool :=
  let g := s.group gi
  let u := usesOf s gi fi
  y.straight && (u.srcs ++ u.dests).all (fun r => !y.writes.contains r)
    && (!y.fmt || (match fetchWord s g.core (s.pasidOf g) (g.frag fi).pc.toNat with | .ok w => !readsFmt w | .error _ => true))
/-- The fragments that the partitions may take next: the first in the selection order; once one has issued in the cycle, the same fragment again where its next
instruction is independent of the first, else the next fragment in the order (R116). -/
noncomputable def selected (s : State) : List (Nat × Nat) :=
  let all := (readyFrags s).filter fun x => mayTake s x.1 x.2
  let part (x : Nat × Nat) : Nat := partOf (s.group x.1)
  let key (x : Nat × Nat) : IssueKey := let g := s.group x.1; issueKey g (g.frag x.2)
  let mine (x : Nat × Nat) : List Issued := (issuedBy s (part x)).filter fun y => y.gi == x.1 && y.fid == ((s.group x.1).frag x.2).fid
  let again := all.filter fun x => (mine x).any (independent s x.1 x.2)
  all.filter fun x =>
    if again.any fun y => part y == part x then again.contains x
    else (mine x).isEmpty && all.all fun y => y == x || !(mine y).isEmpty || part y != part x || !(key y).before (key x)

end Sys2Proof.Machine
end

