-- ==== Sys2Proof/Machine/Due.lean ====
section
/-! DEFINITION. Sys2Proof/Machine/Due.lean: which steps may come next, which one does, and what it runs: the part's own events, what reaches it from
outside, and the fragments that issue (R36, R61, R63, R99, R116, R375). -/

namespace Sys2Proof.Machine

open Sys2Proof

/-! ### Events that may happen now -/

/-- One event for each index below a bound at which it is due. -/
def dueAt (n : Nat) (due : Nat → Bool) (mk : Nat → Instr) : List Instr := ((List.range n).filter due).map mk

/-- Boot goes on (Table 19-6). -/
noncomputable def bootEvents (s : State) : List Instr :=
  match s.mgmt.boot with
  | .rom => [.rom]
  | .verify => [.verify]
  | .fwinit => [.fwinit]
  | _ => []

/-- Returns of a group's outstanding instructions. -/
noncomputable def returnEvents (s : State) (gi : Nat) : List Instr :=
  ((s.group gi).outst.filter fun o => !o.returned).map fun o =>
    match o.path with
    | .gm => .loadReturn gi o.seq
    | .sp => .loadReturn gi o.seq
    | .at => .atomicReturn gi o.seq
    | .cf => .completionPathReturn gi o.seq
/-- What the memory system and the engines of a group owe. -/
noncomputable def memoryEvents (s : State) : List Instr :=
  let gs := List.range s.groups.length
  dueAt s.unperf.length (performDue s) .accessPerformed ++ gs.flatMap (returnEvents s)
    ++ gs.flatMap (fun gi => (s.group gi).xfers.map fun x => .tileTransferComplete gi x.seq)
    ++ (gs.filter fun gi => !(s.group gi).ops.isEmpty && !(s.group gi).matStopped).map .matrixOpComplete
    ++ (gs.filter fun gi => match (s.group gi).check with | some c => !c.passed | none => false).map .accessCheckReturn
    ++ (if invalDue s then [.invalidationComplete] else [])

/-- Events of groups and blocks. -/
noncomputable def groupEvents (s : State) : List Instr :=
  let n := s.groups.length
  let b := s.blocks.length
  dueAt b (parkDue s) .blockPark ++ dueAt b (restoreDue s) .blockRestore ++ dueAt s.launches.length (preemptDue s) .preemptionRequest
    ++ dueAt n (forcedDue s) .preemptForcedStop ++ dueAt n (matrixQuiesceDue s) .matrixQuiescence ++ dueAt b (fun bi => (savedState s bi).isSome) .saveComplete
    ++ dueAt n (fun gi => (s.group gi).hold == .skid && (s.blockOf (s.group gi)).halt.isSome) .siblingStop ++ dueAt b (handlerDue s) .handlerEntry
    ++ dueAt n (xtmoDue s) .xtmoExpire
/-- A ready fragment whose page of code is not in the TLB of its core: its walk may complete first. -/
noncomputable def walkEvents (s : State) : List Instr :=
  (readyFrags s).filterMap fun x =>
    let g := s.group x.1
    let va := (g.frag x.2).pc.toNat
    let p := s.pasidOf g
    if (tlbFind s.tlb g.core p (s.ctx p).gen va).isSome then none
    else match walkNow s p va with
      | .page _ _ => some (.translationWalkComplete g.core p va)
      | .invalid _ => none

/-- Does a command of a fragment belong to a block that a pre-emption drains (R361)? -/
def ofVictim (s : State) (c : CopyCmd) : Bool := c.gi.isSome && (s.block c.block).reason != 0
/-- Engine commands that were accepted complete (R33); at an engine those of a block that drains go first (R361). One that waits for the host is retried when
its records are answered. -/
noncomputable def commandEvents (s : State) : List Instr :=
  let answered (ts : List Word) : Bool := ts.all fun t => tokenOver s (some t)
  let may (c : CopyCmd) : Bool := answered c.waits
  let ahead (c : CopyCmd) : Bool := !ofVictim s c && s.copies.any fun d => clusterOf d.core == clusterOf c.core && ofVictim s d && may d
  dueAt s.copies.length (fun n => match s.copies[n]? with | some c => may c && !ahead c | none => false) .copyCommandComplete
    ++ dueAt s.cols.length (fun n => match s.cols[n]? with | some c => answered c.waits | none => false) .collisionCommandComplete
    ++ dueAt s.dyns.length (fun n => match s.dyns[n]? with | some c => answered c.waits | none => false) .dynamicsCommandComplete
/-- A subtree strikes in the first tick of device time at which its deadline has come (R313), unless the strike is held back. -/
def deadlineDue (s : State) (k : Nat) : Bool := let t := s.tree k; t.st == .open && t.deadline != 0 && decide (t.deadline ≤ s.time)
noncomputable def deadlineEvents (s : State) : List Instr := dueAt s.trees.length (deadlineDue s) .deadlineExpire
/-- Is a step not held back? -/
def goesThrough (s : State) (r : Res) : Bool :=
  match r with
  | .next t => !heldBack s t
  | .fault _ => false
  | .refused _ => false
def deadlineForced (s : State) : List Nat := (List.range s.trees.length).filter fun k => deadlineDue s k && goesThrough s (execDeadlineExpire k s)
/-- A filling buffer is ready when its timeout has passed since its first row (R322). -/
def timeoutDue (s : State) (k : Nat) : Bool :=
  let q := s.syz k
  q.bound && q.timeout != 0 && (match q.filling with | some b => decide (q.timeout ≤ s.since (q.buf b).since) | none => false)
/-- What device time itself brings about in the tick it reaches: strikes of deadlines, timeouts of Syzygy buffers (R313, R322). -/
noncomputable def timeForced (s : State) : List Instr :=
  (deadlineForced s).map .deadlineExpire ++ ((List.range s.syzygy.length).filter fun k => timeoutDue s k && goesThrough s (execSyzygyTimeout k s)).map .syzygyTimeout
/-- Events of engines, objects and waits. -/
noncomputable def engineEvents (s : State) : List Instr :=
  commandEvents s ++ (s.woas.filter fun w => w.polls && w.hit.isNone && s.past w.nextPoll).map (fun w => .woaPoll w.n)
    ++ dueAt s.syzygy.length (timeoutDue s) .syzygyTimeout ++ deadlineEvents s

/-- Replayable faults that wait to be forwarded, or that the host has left unanswered (R422). -/
noncomputable def hostEvents (s : State) : List Instr :=
  dueAt s.xfaults.length (recordDue s) .replayableFaultRecord ++ dueAt s.xfaults.length (faultLate s) .faultResponseTimeout
/-- Records that Chovis owes, replies, faults that wait for the host. -/
noncomputable def chovisEvents (s : State) : List Instr :=
  dueAt s.chovis.length (fun n => match s.chovis[n]? with | some r => !r.held | none => false) .chovisFaultRecord
    ++ dueAt s.sysreqs.length (fun n => match s.sysreqs[n]? with | some r => sysDue s r | none => false) .sysReply
    ++ dueAt (s.chovis.length + s.sysreqs.length) (roomDue s) .eventRingRoom ++ hostEvents s
/-- What time brings: the peer's next exchange and the watchdogs. -/
noncomputable def timedEvents (s : State) : List Instr :=
  (if peerTimeDue s || peerTimeHeard s then [.peerTimeExchange] else []) ++ (s.ctxs.filter fun c => wdogDue s c.pasid).map fun c => .watchdogExpire c.pasid

/-- The step of a packet (Table 18-4). -/
noncomputable def packetInstr (q : Nat) (p : List Byte) : Instr :=
  match unitType p with
  | 1 => .launch q p
  | 2 => .feed q p
  | 3 => .wait q p
  | 4 => .signal q p
  | 5 => .fetchFence q p
  | 6 => .callPacket q p
  | 7 => .returnPacket q p
  | 8 => .timestamp q p
  | 9 => .priority q p
  | 10 => .copy q p
  | 11 => .event q p
  | 13 => if bitsOf (fieldAt p 4 4) 0 0 = 1 then .releaseCores q p else .reserveCores q p
  | _ => .nopPacket q p
/-- The step of a driver record (Table 18-8). -/
noncomputable def driverInstr (i : Nat) (r : List Byte) : Instr :=
  match fieldAt r 0 1 with
  | 1 => .ctxCreate i r
  | 2 => .ctxTeardown i r
  | 3 => .queueSet i r
  | 4 => .poolBind i r
  | 5 => .cqBind i r
  | 6 => .feedBind i r
  | 7 => .blockResume i r
  | 8 => .blockTerm i r
  | 9 => .dbgSet i r
  | 10 => .dbgIcinv i r
  | 11 => .prof i r
  | 12 => .dumpSet i r
  | _ => .driverUnknownCommand i r
/-- The packets that queue threads process in the running slot of the queue port (R20), and WAITs that time out. -/
noncomputable def packetEvents (s : State) : List Instr :=
  (s.queues.map (·.1)).filterMap fun q => if slotDue s q then (nextPacket s q).map (packetInstr q) else none
noncomputable def queueEvents (s : State) : List Instr := packetEvents s ++ ((s.queues.map (·.1)).filter (waitLate s)).map .waitTimeout

/-! ### The service port (R20) -/

/-- The reserved threads: 0 the queue mapper, 1 the driver ring, 2 fault forwarding, 3 boot, 4 the dump writer, 5 attestation, 6 power management. DEDUCED, log entry
86: Table 19-4 and R428 give what the host asks of the last two, and boot takes the image of the mailbox. -/
def serviceThreads : Nat := 7
/-- The thread that an input from outside is for. In RESET there is none, for no cycle of Chovis passes. -/
def inputThread (s : State) : Option Nat :=
  if s.mgmt.boot = .reset then none
  else match s.inputs.head? with
    | some (.mgmt 0x60 _ _) => some 6
    | some (.mgmt 0x70 _ v) => if bitsOf v.toNat 55 48 = 1 then some 3 else if bitsOf v.toNat 55 48 = 2 then some 5 else none
    | some (.throttle _ _) => some 6
    | some .pinnedLow => some 6
    | some (.clock _ _) => some 6
    | _ => none
/-- What a thread of the service port has to do of itself. -/
noncomputable def serviceThread (s : State) (k : Nat) : List Instr :=
  let ready := decide (s.mgmt.boot = .ready)
  match k with
  | 0 => if ready then ((s.queues.map (·.1)).filter (mapDue s)).map .queueMap ++ ((s.queues.map (·.1)).filter (unmapDue s)).map .queueUnmapIdle else []
  | 1 =>
    if ready then (match driverNext s with | some (i, r) => [driverInstr i r] | none => [])
      ++ (s.ctxs.filter fun c => teardownDue s c.pasid).map (fun c => .teardownComplete c.pasid)
    else []
  | 2 => if ready then chovisEvents s else if s.dumpOwed then hostEvents s else []
  | 3 => bootEvents s
  | _ => []
/-- Has a thread something to do? -/
noncomputable def threadReady (s : State) (k : Nat) : Bool := !(serviceThread s k).isEmpty || inputThread s == some k || (k == 4 && dumpDue s)
/-- The thread that the port serves next: the first ready one behind the last served. -/
noncomputable def serviceNext (s : State) : Option Nat :=
  ((List.range serviceThreads).map fun j => (s.service + 1 + j) % serviceThreads).find? (threadReady s)
/-- The thread that it serves now: one in a cycle of Chovis, behind the queue port, whose accesses to memory go first. -/
noncomputable def serviceNow (s : State) : Option Nat := if s.serviced || !(packetEvents s).isEmpty then none else serviceNext s
/-- Its events. -/
noncomputable def serviceEvents (s : State) : List Instr := match serviceNow s with | some k => serviceThread s k | none => []
/-- May the oldest input be taken now? -/
noncomputable def inputServed (s : State) : Bool := match inputThread s with | some k => serviceNow s == some k | none => true
/-- The service port has served a thread. -/
def State.servedBy (s : State) (k : Nat) : State := { s with service := k, serviced := true }

/-- Trace buffers go to their rings. -/
noncomputable def traceEvents (s : State) : List Instr := dueAt 16 (drainDue s) .traceDrain

/-- What belongs to the running cycle of a cluster and goes before everything else in it, taking no time: the STALLs and samples of the cycle that is
over, then SYNC, then a resynchronisation, then the marks of aged fragments (R118, R374, R375, R377, R380). -/
noncomputable def cycleEvents (s : State) : List Instr :=
  let closing := dueAt s.groups.length (stallDue s) .stall
    ++ (if s.ctxs.all fun c => c.prof.isNone then [] else (List.range 64).flatMap fun c => dueAt 16 (sampleDue s c) (.profileSample c))
  let sync := dueAt 16 (syncDue s) .sync
  let resync := dueAt 16 (resyncDue s) .traceLossResync
  let aged := if s.mgmt.boot = .ready then (List.range s.groups.length).flatMap fun gi => dueAt (s.group gi).frags.length (agedDue s gi) (.fragmentAged gi) else []
  if !closing.isEmpty then closing else if !sync.isEmpty then sync else if !resync.isEmpty then resync else aged

/-- Everything that the part may do next of itself. After a fatal error what engines had begun completes and nothing else begins (R386). -/
noncomputable def dueEvents (s : State) : List Instr :=
  (if s.mgmt.boot = .reset then [.powerOn] else []) ++ serviceEvents s ++ memoryEvents s
    ++ (if s.mgmt.boot = .ready then groupEvents s ++ walkEvents s ++ engineEvents s ++ timedEvents s ++ queueEvents s
        else if s.mgmt.boot = .fatal then commandEvents s else []) ++ traceEvents s

/-! ### What may not wait (R20, R118, R313) -/

/-- How much device time passes behind a step, in picoseconds: less than a cycle of any clock (R7, R22). -/
noncomputable def passing (s : State) : Nat := 1 + Config.elapsed s.steps % 400
/-- The clusters whose running cycle ends within the next picoseconds (R22, R376). -/
def endingCycles (s : State) (dt : Nat) : List Nat :=
  (List.range 16).filter fun cl => decide (1000000 ≤ s.phase[cl]?.getD 0 + dt * s.clock[cl]?.getD 0)
/-- Does a cycle of Chovis end within them? -/
def endsSlot (s : State) (dt : Nat) : Bool := decide ((s.time * 1000 + s.fine) * 6 / 5000 < (s.time * 1000 + s.fine + dt) * 6 / 5000)

/-! ### What reaches the part from outside -/

/-- The step of a write to a management register (Table 19-4). -/
noncomputable def mgmtInstr (off : Nat) (v : Word64) : Instr :=
  match off with
  | 0x18 => .ctl v
  | 0x20 => .drvring v
  | 0x30 => .invalCtl v
  | 0x38 => .fresp v
  | 0x60 => .power v
  | 0x70 =>
    if bitsOf v.toNat 55 48 = 1 then .mbxBootImage (v.truncate 24)
    else if bitsOf v.toNat 55 48 = 2 then .mbxQuote (v.truncate 24)
    else .mgmtRegisterWrite off v
  | _ => .mgmtRegisterWrite off v
/-- The step that takes an input. -/
noncomputable def inputInstr : Input → Instr
  | .rd src pa len => .rd src pa len
  | .wr src pa bs => .wr src pa bs
  | .atm src op pa v c => .atm src op pa v c
  | .own pa => .own pa
  | .snp pa => .snp pa
  | .time src h => .time ⟨src, h⟩
  | .peerTime _ _ _ => .nop false
  | .mgmt off _ v => mgmtInstr off v
  | .powerOn => .powerOn
  | .peerLink up => .peerLinkChange up
  | .linkFailure => .linkFailure
  | .fatal c => .fatalError c
  | .throttle on t => .throttle on t
  | .pinnedLow => .pinnedClockLower
  | .thermalTrip => .thermalTrip
  | .clock cl mhz => .clockChange cl mhz
  | .elsewhere _ _ => .nop false
  | .corrected _ => .nop false
  | .upset _ => .nop false
  | .mgmtRead _ _ => .nop false
  | .flashErase => .nop false
  | .flashWrite _ => .nop false
/-- Is there an input for a step to take? What is no step comes about by itself (`quietInput`). -/
def inputWaits (s : State) : Bool := match s.inputs with | [] => false | x :: _ => (quietInput s x).isNone

/-! ### The step that comes next -/

/-- One step that may come next. -/
inductive Choice where
  /-- an event of the part -/
  | event (i : Instr)
  /-- the oldest input -/
  | input
  /-- a fragment that its partition selects -/
  | frag (gi fi : Nat)
  /-- a line of code reaches the core of a fragment that waits for it -/
  | fetch (gi fi : Nat)
deriving DecidableEq, Repr

/-- The ready fragments that wait for a line of code; one whose fetch fails waits for none. -/
noncomputable def fetching (s : State) : List (Nat × Nat) :=
  (readyFrags s).filter fun x => !arriving s x.1 x.2 && (match codeMissing s x.1 x.2 with
    | some va => let g := s.group x.1; (fetchWord s g.core (s.pasidOf g) va).toBool
    | none => false)
/-- A fragment whose fetch fails has its fault at hand. -/
noncomputable def faulting (s : State) : List (Nat × Nat) :=
  (readyFrags s).filter fun x => !arriving s x.1 x.2 && (match codeMissing s x.1 x.2 with
    | some va => let g := s.group x.1; !(fetchWord s g.core (s.pasidOf g) va).toBool && !triedNow s x.1 (g.frag x.2).fid
    | none => false)

/-- What comes before time may pass any further: strikes of deadlines and timeouts of Syzygy buffers; aged fragments that their partitions take first, before the cycle of their cluster ends;
the packets and the service work of the running cycle of Chovis, before that cycle ends (R20, R118, R313, R322). -/
noncomputable def forced (s : State) : List Choice :=
  let dt := passing s
  let strikes := if s.mgmt.boot = .ready then (timeForced s).map Choice.event else []
  let aged := ((readyFrags s).filter fun x => let g := s.group x.1
    (g.frag x.2).aged && (issuedBy s (partOf g)).isEmpty && (endingCycles s dt).contains (clusterOf g.core) && (selected s).contains x).map fun x => Choice.frag x.1 x.2
  let work := (packetEvents s ++ serviceEvents s).map Choice.event ++ (if inputWaits s && (inputThread s).isSome && inputServed s then [.input] else [])
  let port := work.filter fun _ => endsSlot s dt
  if !strikes.isEmpty then strikes else if !port.isEmpty then port else aged

/-- All of them. -/
noncomputable def choices (s : State) : List Choice :=
  match cycleEvents s with
  | [] =>
    (match forced s with
    | [] => (if inputWaits s && inputServed s then [.input] else []) ++ (dueEvents s).map .event ++ (selected s ++ faulting s).map (fun x => .frag x.1 x.2)
        ++ (fetching s).map fun x => .fetch x.1 x.2
    | xs => xs)
  | es => es.map .event
/-- The one that comes next: where several may, the spec leaves open which (R36, R116; log entry 3). -/
noncomputable def chosen (s : State) : Option Choice :=
  match choices s with
  | [] => none
  | [c] => some c
  | cs => cs[Config.pick s.steps % cs.length]?
/-- The state in which it runs, and the step of the table that it is. A line of code comes with the walk of its page. -/
noncomputable def Choice.take (s : State) : Choice → State × Instr
  | .event i => (s, i)
  | .input => match s.inputs with
    | [] => (s, .nop false)
    | x :: xs => ({ s with inputs := xs }, inputInstr x)
  | .frag gi fi => fragInstr s gi fi
  | .fetch gi fi =>
    let g := s.group gi
    let va := (codeMissing s gi fi).getD (g.frag fi).pc.toNat
    (fetchFill s g.core (s.pasidOf g) va, .translationWalkComplete g.core (s.pasidOf g) va)

/-- A fragment has had its turn in this cycle: what it issued, or that it issued nothing (R116). -/
noncomputable def noteIssue (s t : State) (gi fi : Nat) : State :=
  let g := s.group gi
  let f := g.frag fi
  let f' := (((t.group gi).fragAt f.fid).map (t.group gi).frag).getD f
  let n : Nat := match fetchWord s g.core (s.pasidOf g) f.pc.toNat with | .ok w => if isX (WordFields.ofWord w).maj then 8 else 4 | .error _ => 4
  { t with
    issues := t.issues ++ [{
      part := partOf g, gi := gi, fid := f.fid, did := decide (g.issued < (t.group gi).issued), pipes := nextPipes s gi fi, prio := g.prio, spin := f.spin,
      writes := (usesOf s gi fi).dests, fmt := f'.fmt != f.fmt, straight := f'.pc == f.pc + BitVec.ofNat 52 n && f'.wb == f.wb }] }
/-- A packet that could not begin comes again in its thread's next slot (R20). -/
def retrySlot (t : State) : State := { t with queues := t.queues.map fun e => if slotDue t e.1 then (e.1, { e.2 with lag := some 1 }) else e }
/-- What is kept of an event's turn: a slot of the queue port has had its packet, the service port its thread (R20). -/
noncomputable def Choice.noteEvent (s t : State) (i : Instr) : State :=
  if (packetEvents s).contains i then retrySlot t
  else if (serviceEvents s).contains i then t.servedBy ((serviceNow s).getD s.service)
  else t
/-- Does a wait last until other groups have acted, or an engine? -/
def Stall.onOthers : Stall → Bool
  | .regs _ _ => false
  | .dest _ _ => false
  | .tile _ _ => false
  | .batch _ => false
  | .close => false
  | .path _ _ => false
  | .drain => false
  | .checks => false
  | .done _ => false
  | .engine _ => false
  | .flush _ => false
  | .xlate _ => false
  | .reply _ => false
  | .recall _ => false
  | .replay => false
  | .barrier _ _ => true
  | .cbar _ _ => true
  | .woa _ => true
  | .future _ _ => true
  | .any _ _ => true
  | .tree _ => true
  | .treeEnd _ _ => true
  | .ring _ _ => true
  | .credit _ _ => true
  | .feed _ => true
  | .room _ _ => true
  | .take _ => true
  | .spawning => true
  | .phaseOver _ _ => true
/-- Behind the turn of a fragment: when it replayed the stopped instruction and that has been issued, every held group of the block goes on; a stop that it raised
is a new stop (R355). DEDUCED, log entry 83: a replayed instruction that waits for other groups has been issued; one whose operands, path or checks are
still to come has not. Unsafe. -/
def endReplay (s t : State) (gi fi : Nat) : State :=
  let f := (s.group gi).frag fi
  let g := t.group gi
  let issued := decide ((s.group gi).issued < g.issued) || (((g.fragAt f.fid).bind fun k => (g.frag k).stall).map Stall.onOthers).getD false
  match (t.blockOf g).halt with
  | some h => if f.replay.isSome && issued && h.phase == .replaying && h.stopper == gi then releaseBlock t g.block else t
  | none => t

/-- The same of an input's turn. -/
def Choice.noteInput (s t : State) : State := match inputThread s with | some k => t.servedBy k | none => t
/-- What a fragment waits for when its instruction is held back (R384, R412). -/
def heldStall (s t : State) (gi fi : Nat) : State :=
  let w : Stall := if replayStuck s t then .replay else .recall (recallsOf s t)
  (orHold s t).modF gi fi fun f => { f with stall := if f.stall.isNone then some w else f.stall }
/-- Behind the turn of a choice: a step that is held back has not happened (R384, R412); a fragment's turn is noted, the block of a replay is released, and a
group that is single-stepped stops (R116, R355, R371). What comes over a link is not held back. -/
noncomputable def Choice.after (s t : State) : Choice → State
  | .event i => Choice.noteEvent s (orHold s t) i
  | .input => Choice.noteInput s t
  | .fetch _ _ => t
  | .frag gi fi =>
    let f := (s.group gi).frag fi
    if heldBack s t then noteIssue s (heldStall s t gi fi) gi fi
    else stepCheck (endReplay s (noteIssue s t gi fi) gi fi) gi f.fid (s.group gi).issued f.handler.isSome

end Sys2Proof.Machine
end

