-- ==== Sys2Proof/Machine/Cycle.lean ====
section
/-! DEFINITION. Sys2Proof/Machine/Cycle.lean: device time, the cycles of the cluster clocks, and what each cycle reports of its groups (R6, R7, R22, R116,
R118, R121, R122, R376; Table 5-7). -/

namespace Sys2Proof.Machine

open Sys2Proof

/-! ### Stall codes (R121, R122, Table 5-7) -/

/-- The code of what a blocked instruction waits for. -/
def Stall.code : Stall → Nat
  | .regs _ _ => 10
  | .dest _ _ => 10
  | .tile _ _ => 10
  | .barrier _ _ => 3
  | .cbar _ _ => 3
  | .woa _ => 4
  | .batch _ => 5
  | .close => 5
  | .future _ _ => 6
  | .any _ _ => 6
  | .tree _ => 6
  | .treeEnd _ _ => 6
  | .ring _ _ => 7
  | .credit _ _ => 7
  | .path _ _ => 8
  | .drain => 11
  | .checks => 11
  | .done _ => 11
  | .engine _ => 11
  | .flush _ => 11
  | .feed _ => 15
  | .room _ _ => 15
  | .take _ => 15
  | .xlate _ => 11
  | .reply _ => 2
  | .phaseOver _ _ => 3
  | .recall _ => 11
  | .replay => 11
  | .spawning => 15

/-- The code of a fragment that nothing holds and whose latest wait is over: its instruction is not at hand (9), its operands are owed (10, or the code of what
it would wait for), its pipe is taken (11), or it was passed over (12, 13). Where its partition issued nothing, the result of its own last instruction was
not available yet (10; log entry 57). -/
noncomputable def readyCode (s : State) (gi fi : Nat) : Nat :=
  let g := s.group gi
  let f := g.frag fi
  let xs := issuedBy s (partOf g)
  if !arriving s gi fi && (codeMissing s gi fi).isSome then 9
  else
    match (if arriving s gi fi then none else wouldWait s gi fi) with
    | some w => w.code
    | none =>
      match xs with
      | [] => 10
      | x :: _ =>
        if !arriving s gi fi && !pipeLeft s (partOf g) (nextPipes s gi fi) then 11
        else if f.spin && !f.aged && !x.spin && x.prio == g.prio then 12
        else 13

/-- The code of one fragment of a group. A group that a pre-emption request has reached reports 1 until it is saved, also while its block is halted (R360); one
that is being parked reports its waits; a sibling that FREEZE holds reports 1 (R371). -/
noncomputable def fragCode (s : State) (gi fi : Nat) : Nat :=
  let g := s.group gi
  let f := g.frag fi
  let parking := (s.blockOf g).reason = 1
  let free : Nat := match f.stall with
    | some w => if stallOver s gi f w ∧ ¬parking then readyCode s gi fi else w.code
    | none => readyCode s gi fi
  if (g.quiesced ∧ ¬parking) ∨ g.preempt.isSome then 1
  else
    match (s.blockOf g).halt with
    | some h =>
      if h.phase = .stopping ∨ (h.code = 0x0D ∧ g.hold = .stopped ∧ gi ≠ h.stopper) then 1
      else if mayRun s gi f ∨ f.handler.isSome then free
      else 2
    | none => if g.hold = .solo then 2 else free

/-- The code of a group for the cycle that ends: 0 when one of its fragments has issued in it, else the lowest of its fragments (R121). -/
noncomputable def groupCode (s : State) (gi : Nat) : Nat :=
  let g := s.group gi
  match g.state with
  | .parked => 14
  | .retiring => 10
  | _ =>
    if g.issuedNow.isSome then 0
    else
      match (List.range g.frags.length).map (fragCode s gi) with
      | [] => 10
      | x :: xs => xs.foldl (fun m y => if y < m then y else m) x

/-! ### The end of a cycle -/

/-- What a group keeps of a cycle that is over: its code and the count of that code, and whether it issued (R121, R374, R380, R382). -/
def Group.cycleOver (g : Group) (code : Nat) : Group :=
  { g with
    code := code, codes := modAt g.codes code (· + 1), idle := if g.issuedNow.isSome then 0 else g.idle + 1,
    idleTold := g.idleTold && g.issuedNow.isNone, issuedLast := g.issuedNow, issuedNow := none }

/-- A cycle of a cluster ends: the stops raised in it are settled, its groups report, and the next cycle begins with nothing issued (R116, R121, R348). -/
noncomputable def endCycle (s : State) (cl : Nat) : State :=
  let s := (List.range s.blocks.length).foldl (fun s bi => match (s.block bi).halt with
    | some h => if clusterOf (s.group h.stopper).core = cl then tellStop s bi else s
    | none => s) s
  { s with
    groups := (indexed s.groups).map fun e => if e.2.holdsSlot && clusterOf e.2.core == cl then e.2.cycleOver (groupCode s e.1) else e.2,
    issues := s.issues.filter fun x => x.part / 64 != cl, cyc := modAt s.cyc cl (· + 1) }

/-- A cycle of Chovis ends: the slot of a queue thread is over, and the service port may serve again (R20). -/
def endSlot (s : State) : State := { slotOver s s.slotNow with serviced := false }

/-- Device time goes on by less than a cycle of any clock, and the cycles that end with it end (R7, R22, R23, R376; log entry 6). -/
noncomputable def passTime (s : State) (dt : Nat) : State :=
  let ps := s.time * 1000 + s.fine + dt
  let slot := endsSlot s dt
  let s := (endingCycles s dt).foldl endCycle s
  let s := if slot then endSlot s else s
  { s with
    phase := (indexed s.phase).map fun e => (e.2 + dt * s.clock[e.1]?.getD 0) % 1000000,
    time := ps / 1000 % 2 ^ 64, fine := ps % 1000,
    traces := (indexed s.traces).map fun e =>
      if (tracedCtxs s e.1).isEmpty && decide (e.2.lastSync + 65536 ≤ s.cyc[e.1]?.getD 0) then { e.2 with lastSync := s.cyc[e.1]?.getD 0 } else e.2 }

/-- The dump writer has its turn on the service port (R20, R386). -/
noncomputable def serveDump (s : State) : State := if serviceNow s = some 4 then (orHold s (fatalDump s)).servedBy 4 else s

/-- The end of a step: what comes about behind it, then time passes, unless something is still to come before it may (R6, R7, R20, R118, R313). Nothing else
moves device time but a reset: in RESET it stands at 0. -/
noncomputable def finish (s t : State) : State :=
  let u : State := { serveDump (settle t) with cur := none, readsFmt := false, steps := s.steps + 1, time := s.time, fine := s.fine }
  if u.mgmt.boot = .reset then { u with time := 0, fine := 0 }
  else if !(cycleEvents u).isEmpty || !(forced u).isEmpty then u
  else passTime u (passing u)

end Sys2Proof.Machine
end

