-- ==== Sys2Proof/Machine/Step.lean ====
section
/-! DEFINITION. Sys2Proof/Machine/Step.lean: one step of the machine, and the state in which a given instruction is the one that it fetches. -/

namespace Sys2Proof.Machine

open Sys2Proof

/-- One step: the step of the table that comes next, and what comes about behind it. When nothing may happen, time passes. -/
noncomputable def step (s : State) : Host.Outcome State Fault Refusal :=
  match chosen s with
  | none => .next (finish s s)
  | some c =>
    match exec (c.take s).2 (c.take s).1 with
    | .next t => .next (finish s (c.after s t))
    | .fault r => .fault r
    | .refused r => .refused r

/-! ### Placing one instruction -/

/-- Where the instruction stands: its virtual address and its physical address. -/
def fetchVa : Nat := 0x10000
def fetchPa : Nat := 0x210000

/-- Page tables at 0x1000 that map the first 2 MiB of the context's addresses to the physical addresses from 2 MiB on, with every
permission, and the words of the instruction. -/
def fetchMem (m : Mem) (nbits w : Nat) : Mem :=
  let m := (m.write 0x1000 (leBytes 8 0x2001)).write 0x2000 (leBytes 8 0x3001)
  let m := (m.write 0x3000 (leBytes 8 0x4001)).write 0x4000 (leBytes 8 0x20001F)
  m.write fetchPa (leBytes 8 (w % 2 ^ nbits))

/-- A kernel of one group with 128 registers, 8 tiles and 4 KiB of scratchpad, launched with one block. -/
def fetchLaunch : Launch :=
  { lid := 1, ctx := 1, kernel := { entry := fetchVa, bdim := 1, tiles := 8, nreg := 128, scratch := 4096 }, nblk := 1, next := 1, queue := 4096 }
def fetchGroup : Group :=
  { regs := List.replicate 128 zeroVec, tiles := List.replicate 8 {}, frags := [{ pc := BitVec.ofNat 52 fetchVa }], id := mkId 0 0 1 }

/-- The device serves one context, whose one launch has one block of one group, about to issue the instruction placed; everything else
that a step could take up is idle. It stands for boot, the driver's commands and a LAUNCH packet. Log entry 1. -/
def State.withFetchWord (s : State) (nbits w : Nat) : State :=
  { s with
    cur := none, inputs := [], mem := fetchMem s.mem nbits w, memBad := [],
    mgmt := { s.mgmt with boot := .ready, drvring := 0, invalBusy := false, peerUp := false },
    ctxs := [{ pasid := 1, root := 0x1000 }], gens := [], launches := [fetchLaunch],
    blocks := [{ gcount := 1, cores := [0], spSize := 4096, btag := 1 }], groups := [fetchGroup],
    queues := [], trees := List.replicate 256 {}, pools := List.replicate 256 {}, syzygy := List.replicate 128 {}, feeds := List.replicate 64 {},
    spawnq := [], unperf := [], copies := [], cols := [], dyns := [], l1 := [],
    icache := [⟨0, 1, 0, fetchVa / 64, (fetchMem s.mem nbits w).read fetchPa 64⟩], tlb2 := [], walks := [], l2 := [],
    tlb := [⟨0, 1, 0, fetchVa / 4096, { frame := fetchPa / 4096, r := true, w := true, x := true, trk := false, ext := false, cpol := 0, dcls := 0, level := 1 }⟩],
    woas := [], xfaults := [], chovis := [], sysreqs := [], slotGens := [(0, 1)], btags := 1, lid := 1,
    reserved := List.replicate 64 none, split := List.replicate 64 32768, cyc := List.replicate 16 0, phase := List.replicate 16 0, issues := [], traces := List.replicate 16 {},
    samples := [], replayQ := [], hostLines := [], recalls := [], serviced := false, dumpOwed := false }

end Sys2Proof.Machine
end

