-- ==== Sys2Proof/Safety.lean ====
section
/-! DEFINITION. Sys2Proof/Safety.lean: what counts as a safe run, and the terms in which claims about the machine are stated: when an
instruction can issue at once, and what it leaves as it was. -/

namespace Sys2Proof

open Sys2Proof.Machine

/-- A run of k steps is safe when no step of it ends in a fault or a refusal. Stops of groups, errors of queues and fatal errors of the
device are states of the machine, not faults. -/
def SafeFor (k : Nat) (s : State) : Prop := ∃ t, Host.Core.run core k s = .next t

end Sys2Proof

namespace Sys2Proof.Machine

open Sys2Proof

/-! ### Invariants of every step -/

/-- Every memory of the part is in canonical form: addresses rise strictly and no entry holds 0. -/
structure Canonical (s : State) : Prop where
  mem : s.mem.wf = true
  mailbox : s.mailbox.wf = true
  scratch : ∀ b ∈ s.blocks, b.sp.wf = true
  tiles : ∀ g ∈ s.groups, ∀ t ∈ g.tiles, t.data.wf = true ∧ t.scaleArea.wf = true

/-- No cache holds more than it has room for: a core's TLB 96 pages, its cluster's 4,096 (R420), its L1 what the split leaves of
640 KiB (R205), its instruction cache 48 KiB. -/
structure WithinCapacity (s : State) : Prop where
  tlb : ∀ core, (s.tlb.filter fun x => x.core == core).length ≤ 96
  tlb2 : ∀ cluster, (s.tlb2.filter fun x => x.core == cluster).length ≤ 4096
  l1 : ∀ core, 64 * (s.l1.filter fun x => x.core == core).length ≤ 655360 - s.split[core]?.getD 0
  icache : ∀ core, 64 * (s.icache.filter fun x => x.core == core).length ≤ 49152

/-! ### When an instruction can issue -/

/-- `i` is the fragment of `s` that issues, under a guard or not, and it stands in its lists. -/
structure Issuing (s : State) (guard : Bool) (i : Iss) : Prop where
  cur : s.issuing guard = some i
  gi : i.gi < s.groups.length
  fi : i.fi < i.g.frags.length

/-- The fragment `i` can issue an instruction that reads the registers `reads` and the predicates `preds` and writes the registers `writes`
and the predicates `dests`: all registers lie in the group's allocation (R39), none of the four is owed a result in an active lane (R49),
and what it reads is not poisoned: a source there, the guard in a lane of the fragment, its scheduler state, an FMT that it reads (R217,
R356). -/
structure CanIssue (s : State) (guard : Bool) (reads writes preds : List Nat) (i : Iss) (dests : List Nat := []) : Prop extends Issuing s guard i where
  held : ∀ r ∈ reads ++ writes, i.phys r < i.N
  free : ∀ l ∈ i.lanes.lanes, ∀ r ∈ (reads ++ writes).map i.phys ++ (if guard then [512] else []) ++ (preds ++ dests).map (512 + ·), i.g.owes r l = false
  clean : ∀ p ∈ i.g.poison, p.reg ∈ reads.map i.phys → p.lanes &&& i.lanes = 0
  cleanGuard : ∀ p ∈ i.g.poison, guard = true → p.reg = 512 → p.lanes &&& i.f.amask = 0
  cleanPred : ∀ p ∈ i.g.poison, p.reg ∈ preds.map (512 + ·) → p.lanes &&& i.lanes = 0
  sound : i.f.badSched = false ∧ (i.f.badFmt = true → s.readsFmt = false)

/-! ### What an instruction of registers and predicates leaves -/

/-- The registers after the words `ws l` have been written to the registers from field `d` on, in each active lane l: word k in register
`d + k`. -/
def Iss.after (i : Iss) (d : Nat) (ws : Nat → List Word) (p l : Nat) : Word :=
  if i.lanes.has l = true ∧ i.phys d ≤ p then ((ws l)[p - i.phys d]?).getD (i.g.lane p l) else i.g.lane p l

/-- The predicates as they were. -/
def Iss.preds (i : Iss) (p l : Nat) : Bool := (i.g.pred p).has l

/-- The predicates after predicate `d` has been written in each active lane. -/
def Iss.afterPred (i : Iss) (d : Nat) (f : Nat → Bool) (p l : Nat) : Bool := if p = d ∧ i.lanes.has l = true then f l else i.preds p l

/-- `t` is `s` after an instruction of the fragment `i` that wrote registers and predicates of its group, and fields of its fragment as
`base` has them: register p of the group holds `reg p l` in lane l, predicate p holds `pred p l`, the fragment stands at `pc`, and
everything else is unchanged, but for the counts of issue and the marks of the spin detector. -/
structure Went (s t : State) (i : Iss) (base : Frag) (pc : BitVec 52) (reg : Nat → Nat → Word) (pred : Nat → Nat → Bool) : Prop where
  regs : ∀ p l, p < i.N → l < 16 → (t.group i.gi).lane p l = reg p l
  count : (t.group i.gi).regs.length = i.N
  preds : ∀ p l, p < 8 → l < 16 → ((t.group i.gi).pred p).has l = pred p l
  at_ : ((t.group i.gi).frag i.fi).pc = pc
  /-- the issuing fragment keeps all else that chapter 5 gives it -/
  frag : ∃ spin loop quiet noisy readyAt, (t.group i.gi).frag i.fi =
    { base with
      pc := pc, stall := none, replay := none, arrival := none, lastIssue := s.seq + 1, readyAt := readyAt, aged := false, waitFrom := none,
      spin := spin, loop := loop, quiet := quiet, noisy := noisy }
  siblings : ∀ k, k ≠ i.fi → (t.group i.gi).frags[k]? = i.g.frags[k]?
  /-- the group keeps its tiles, futures, clock, trap registers and all else; a register write may clear poison marks -/
  group : ∃ regs preds poison frags skid, t.group i.gi =
    { i.g with
      regs := regs, preds := preds, poison := poison, frags := frags, issued := i.g.issued + 1, skid := skid, issuedNow := some i.f.pc }
  others : ∀ k, k ≠ i.gi → t.groups[k]? = s.groups[k]?
  rest : t = { s with groups := t.groups, seq := s.seq + 1 }
  mem : ∀ a, t.mem.get a = s.mem.get a

/-- The same for an instruction of `size` bytes that changed registers and predicates only and goes on behind itself. -/
abbrev Wrote (s t : State) (i : Iss) (size : Nat) (reg : Nat → Nat → Word) (pred : Nat → Nat → Bool) : Prop :=
  Went s t i i.f (i.f.pc + BitVec.ofNat 52 size) reg pred

/-- The instruction `x` completes: whenever it can issue, it puts the words `ws` into the registers from field `d` on and changes nothing
else but the PC. -/
def PutsRegs (x : Instr) (guard : Bool) (reads : List Nat) (d n : Nat) (preds : List Nat) (size : Nat) (ws : Iss → Nat → List Word) : Prop :=
  ∀ s i, CanIssue s guard reads ((List.range n).map (d + ·)) preds i →
    ∃ t, exec x s = .next t ∧ Wrote s t i size (i.after d (ws i)) i.preds

/-- The instruction `x` completes: whenever it can issue, it puts `f` into predicate `d` and changes nothing else but the PC. -/
def PutsPred (x : Instr) (guard : Bool) (reads : List Nat) (d : Nat) (preds : List Nat) (f : Iss → Nat → Bool) : Prop :=
  ∀ s i, CanIssue s guard reads [] preds i [d] →
    ∃ t, exec x s = .next t ∧ Wrote s t i 4 i.g.lane (i.afterPred d (f i))

/-- The instruction `x` completes: whenever it can issue, it puts the words `ws` into the registers from field `d` on and `f` into
predicate `q`, and changes nothing else but the PC. -/
def PutsBoth (x : Instr) (guard : Bool) (reads : List Nat) (d n : Nat) (q : Nat) (preds : List Nat) (ws : Iss → Nat → List Word) (f : Iss → Nat → Bool) : Prop :=
  ∀ s i, CanIssue s guard reads ((List.range n).map (d + ·)) preds i [q] →
    ∃ t, exec x s = .next t ∧ Wrote s t i 4 (i.after d (ws i)) (i.afterPred q (f i))

/-! ### The forms of the register instructions -/

/-- `mk g d a`: d := f a, lane by lane. -/
def Lane1 (mk : Bool → Fld → Fld → Instr) (f : Word → Word) : Prop :=
  ∀ g d a, PutsRegs (mk g d a) g [a.toNat] d.toNat 1 [] 4 fun i l => [f (i.reg a.toNat l)]
/-- `mk g d a b`: d := f a b. -/
def Lane2 (mk : Bool → Fld → Fld → Fld → Instr) (f : Word → Word → Word) : Prop :=
  ∀ g d a b, PutsRegs (mk g d a b) g [a.toNat, b.toNat] d.toNat 1 [] 4 fun i l => [f (i.reg a.toNat l) (i.reg b.toNat l)]
/-- `mk g d a b`: d := f a b d; d is read too. -/
def Lane3 (mk : Bool → Fld → Fld → Fld → Instr) (f : Word → Word → Word → Word) : Prop :=
  ∀ g d a b, PutsRegs (mk g d a b) g [a.toNat, b.toNat, d.toNat] d.toNat 1 [] 4 fun i l => [f (i.reg a.toNat l) (i.reg b.toNat l) (i.reg d.toNat l)]
/-- `mk g d a imm`: d := f a c, where c is the 7-bit field extended by `ext`. -/
def LaneImm (ext : BitVec 7 → Word) (mk : Bool → Fld → Fld → BitVec 7 → Instr) (f : Word → Word → Word) : Prop :=
  ∀ g d a n, PutsRegs (mk g d a n) g [a.toNat] d.toNat 1 [] 4 fun i l => [f (i.reg a.toNat l) (ext n)]
/-- `mk g d a imm`: d := f a c d. -/
def LaneImm3 (ext : BitVec 7 → Word) (mk : Bool → Fld → Fld → BitVec 7 → Instr) (f : Word → Word → Word → Word) : Prop :=
  ∀ g d a n, PutsRegs (mk g d a n) g [a.toNat, d.toNat] d.toNat 1 [] 4 fun i l => [f (i.reg a.toNat l) (ext n) (i.reg d.toNat l)]
/-- `mk g d a hi lo`, eight bytes long: d := f a c, where c is the constant of 32 bits. -/
def LaneConst (mk : Bool → Fld → Fld → BitVec 6 → BitVec 26 → Instr) (f : Word → Word → Word) : Prop :=
  ∀ g d a hi lo, PutsRegs (mk g d a hi lo) g [a.toNat] d.toNat 1 [] 8 fun i l => [f (i.reg a.toNat l) (hi ++ lo)]
/-- The words of a pair: the low one in the even register (R40). -/
def pairWords (x : Word64) : List Word := [lo32 x, hi32 x]
/-- `mk g d a b`: the pair d := f a b, from two registers. -/
def Wide2 (mk : Bool → BitVec 6 → Fld → Fld → Instr) (f : Word → Word → Word64) : Prop :=
  ∀ g d a b, PutsRegs (mk g d a b) g [a.toNat, b.toNat] (pairFld d).toNat 2 [] 4 fun i l => pairWords (f (i.reg a.toNat l) (i.reg b.toNat l))
/-- `mk g d a b`: the pair d := f a b + d. -/
def Wide3 (mk : Bool → BitVec 6 → Fld → Fld → Instr) (f : Word → Word → Word64) : Prop :=
  ∀ g d a b, PutsRegs (mk g d a b) g (pairOf d ++ [a.toNat, b.toNat]) (pairFld d).toNat 2 [] 4 fun i l =>
    pairWords (f (i.reg a.toNat l) (i.reg b.toNat l) + i.pair (pairFld d).toNat l)
/-- `mk g d a b`: the pair d := f a b, from two pairs. -/
def Pair2 (mk : Bool → BitVec 6 → BitVec 6 → BitVec 6 → Instr) (f : Word64 → Word64 → Word64) : Prop :=
  ∀ g d a b, PutsRegs (mk g d a b) g (pairOf a ++ pairOf b) (pairFld d).toNat 2 [] 4 fun i l =>
    pairWords (f (i.pair (pairFld a).toNat l) (i.pair (pairFld b).toNat l))
/-- `mk g d a b`: the pair d := f a b, from a pair and a register. -/
def PairReg (mk : Bool → BitVec 6 → BitVec 6 → Fld → Instr) (f : Word64 → Word → Word64) : Prop :=
  ∀ g d a b, PutsRegs (mk g d a b) g (pairOf a ++ [b.toNat]) (pairFld d).toNat 2 [] 4 fun i l =>
    pairWords (f (i.pair (pairFld a).toNat l) (i.reg b.toNat l))

/-- The combine codes `.`, `.and`, `.or`, `.xor` of a comparison (R132). -/
def combined (c : BitVec 2) (old new : Bool) : Bool := if c = 0 then new else if c = 1 then old && new else if c = 2 then old || new else old.xor new
/-- `mk g c p a b`: predicate p := p combined with f a b. -/
def Cmp2 (mk : Bool → BitVec 2 → BitVec 3 → Fld → Fld → Instr) (f : Word → Word → Prop) [∀ x y, Decidable (f x y)] : Prop :=
  ∀ g c p a b, PutsPred (mk g c p a b) g [a.toNat, b.toNat] p.toNat (if c = 0 then [] else [p.toNat]) fun i l => combined c (i.preds p.toNat l) (f (i.reg a.toNat l) (i.reg b.toNat l))
/-- `mk g c p a imm`: predicate p := p combined with f a c, where c is the 7-bit field sign-extended (R85). -/
def CmpImm (mk : Bool → BitVec 2 → BitVec 3 → Fld → BitVec 7 → Instr) (f : Word → Word → Prop) [∀ x y, Decidable (f x y)] : Prop :=
  ∀ g c p a n, PutsPred (mk g c p a n) g [a.toNat] p.toNat (if c = 0 then [] else [p.toNat]) fun i l => combined c (i.preds p.toNat l) (f (i.reg a.toNat l) (n.signExtend 32))
/-- `mk g c p a b`: predicate p := p combined with f a b, of two pairs. -/
def CmpPairs (mk : Bool → BitVec 2 → BitVec 3 → BitVec 6 → BitVec 6 → Instr) (f : Word64 → Word64 → Prop) [∀ x y, Decidable (f x y)] : Prop :=
  ∀ g c p a b, PutsPred (mk g c p a b) g (pairOf a ++ pairOf b) p.toNat (if c = 0 then [] else [p.toNat]) fun i l =>
    combined c (i.preds p.toNat l) (f (i.pair (pairFld a).toNat l) (i.pair (pairFld b).toNat l))

/-! ### Instructions with an effect of their own -/

/-- The instruction `x` completes: whenever it can issue with a lane active and `cond` holds, `eff` is the next state. -/
def Does (x : Instr) (guard : Bool) (reads writes preds : List Nat) (cond : State → Iss → Prop) (eff : State → Iss → State) : Prop :=
  ∀ s i, CanIssue s guard reads writes preds i → i.lanes ≠ 0 → cond s i → exec x s = .next (eff s i)

/-- Nothing that the fragment stored, reduced or transferred is still on its way (R245). -/
def Quiet (s : State) (i : Iss) : Prop := s.unperfOf i.gi i.f = [] ∧ i.g.xfersOf i.f = []

/-- No store and no tile transfer of the part is still on its way to a remote line of the bytes `pas`: an access to them makes no store perform and waits for
no transfer (R412). -/
def Settled (s : State) (pas : List (Nat × Nat)) : Prop :=
  (∀ e ∈ s.unperf, e.toRemote pas = false) ∧ ∀ g ∈ s.groups, ∀ x ∈ g.xfers, x.toRemote (pas.map (·.1)) = false

/-- An access of the form `m` at the address `ea` finds its bytes at the place `pa` (R212, R214): aligned, inside the block's scratchpad or
mapped with the permission it needs, race tracking off there, no uncorrectable error. -/
def Reaches (s : State) (i : Iss) (m : MemForm) (ea : Int) (pa : Nat) : Prop :=
  (m.sub = 0 → ea % m.size = 0) ∧
  match m.space with
  | .scratch => m.byteOf ea = pa ∧ m.byteOf ea + m.size ≤ (s.blockOf i.g).spSize ∧ (s.blockOf i.g).spRace = false ∧ (s.blockOf i.g).spBad = []
  | .glob => ∃ x, access s i.g.core (s.pasidOf i.g) (m.byteOf ea).toNat m.kind = .ok (pa, x) ∧ isTracked s (s.pasidOf i.g) x = false ∧ s.memBad = []

/-- The fragment `i` is `size` bytes on, its group's registers and predicates hold `reg` and `pred`, and every other group of `s` is as before. -/
def Moves (s t : State) (i : Iss) (size : Nat) (reg : Nat → Nat → Word) (pred : Nat → Nat → Bool) : Prop :=
  ((t.group i.gi).frag i.fi).pc = i.f.pc + BitVec.ofNat 52 size ∧ (∀ p l, p < i.N → l < 16 → (t.group i.gi).lane p l = reg p l)
    ∧ (∀ p l, p < 8 → l < 16 → ((t.group i.gi).pred p).has l = pred p l) ∧ ∀ k, k < s.groups.length → k ≠ i.gi → t.groups[k]? = s.groups[k]?

/-- `t` is behind an instruction of the fragment `i` in `s`: the fragment stands at the next instruction, its group's registers and predicates hold `reg` and
`pred`, memory and every other group of `s` are as before. -/
def Goes (s t : State) (i : Iss) (reg : Nat → Nat → Word) (pred : Nat → Nat → Bool) : Prop :=
  ((t.group i.gi).frag i.fi).pc = i.f.pc + 4 ∧ (∀ p l, p < i.N → l < 16 → (t.group i.gi).lane p l = reg p l)
    ∧ (∀ p l, p < 8 → l < 16 → ((t.group i.gi).pred p).has l = pred p l) ∧ t.mem = s.mem ∧ ∀ k, k < s.groups.length → k ≠ i.gi → t.groups[k]? = s.groups[k]?

/-- A clock after Tick(): it stays at its greatest value (R249). -/
def ticked (c : BitVec 24) : BitVec 24 := if c = 0xFFFFFF then c else c + 1

/-- The fragment `i` may take a stop that goes to its handler: it is not a handler itself, its block does not halt already, and no trace holds outcomes of
its branches (R344, R350, R374). -/
def MayStop (s : State) (i : Iss) : Prop :=
  i.f.handler = none ∧ (s.blockOf i.g).halt = none ∧ i.g.block < s.blocks.length ∧ i.g.traced = false ∧ i.f.held = []

/-- Where a stop other than a trap goes (Table 16-1): the context's system handler, else Chovis. -/
def sysTarget (s : State) (i : Iss) : Target := if (s.ctxOf i.g).sysh = 0 then .chovis else .system

/-- `t` is `s` after the fragment `i` has taken a stop (R344, R346): its trap registers tell of it, its group stands, its block halts towards the target, and
the block's other running groups begin to stop, a held one's trap registers naming the stopper. No register, no predicate and no byte of memory has changed. -/
def Stopped (s t : State) (i : Iss) (code : Nat) (pc : BitVec 52) (addr : Word64) (mask : Mask) (info : Word) (target : Target) : Prop :=
  (t.group i.gi).trap = { code := BitVec.ofNat 32 code, pcLo := pc.truncate 32, pcHi := (pc >>> 32).truncate 32, addrLo := lo32 addr, addrHi := hi32 addr,
                          mask := mask.setWidth 32, info := info, skid := BitVec.ofNat 32 (i.g.id.toNat * 32 + 16) }
    ∧ (t.group i.gi).hold = .stopped ∧ (t.group i.gi).stopFid = i.f.fid ∧ (t.group i.gi).regs = i.g.regs ∧ (t.group i.gi).preds = i.g.preds
    ∧ ((t.group i.gi).frag i.fi).pc = i.f.pc ∧ (t.blockOf i.g).halt = some { stopper := i.gi, code := code, target := target, cyc := s.cycle i.g.core }
    ∧ (∀ k y, k ≠ i.gi → s.groups[k]? = some y →
        t.groups[k]? = some (if y.block = i.g.block ∧ y.state ≠ .retired then
          (match y.hold with
          | .run => { y with hold := .skid, skid := 0 }
          | .stopped => { y with trap := siblingTrap y i.g.id }
          | _ => y) else y))
    ∧ t.mem = s.mem ∧ t.unperf = s.unperf

/-- The fragment's lane words from field `d` on as one number, the first word lowest. -/
def runNat (i : Iss) (d n l : Nat) : Nat := (List.range n).foldr (fun k v => (i.reg (d + k) l).toNat + 2 ^ 32 * v) 0

end Sys2Proof.Machine
end

