-- ==== Sys2Proof/Certificates/Slice0/Obligations.lean ====
section
/-! DEFINITION. Sys2Proof/Certificates/Slice0/Obligations.lean: the claims about the machine, in the terms of Sys2Proof/Safety.lean. -/

open Sys2Proof Sys2Proof.Machine

/-! ### Integer instructions (chapter 6) -/

/-- Tables 6-1 and 6-2, register forms: what each instruction puts in d; all arithmetic wraps unless it saturates. -/
def Obligations.IntegerRegisterResults : Prop :=
  Lane2 .add (fun x y => x + y) ∧ Lane2 .sub (fun x y => x - y)
  ∧ Lane2 .minI (fun x y => if x.toInt ≤ y.toInt then x else y) ∧ Lane2 .maxI (fun x y => if x.toInt ≤ y.toInt then y else x)
  ∧ Lane2 .minZ (fun x y => if x.toNat ≤ y.toNat then x else y) ∧ Lane2 .maxZ (fun x y => if x.toNat ≤ y.toNat then y else x)
  ∧ Lane1 .abs (fun x => if x.toInt < 0 then 0 - x else x) ∧ Lane1 .neg (fun x => 0 - x)
  ∧ Lane2 .addsI (fun x y => BitVec.ofInt 32 (clampInt (-(2 ^ 31)) (2 ^ 31 - 1) (x.toInt + y.toInt)))
  ∧ Lane2 .subsI (fun x y => BitVec.ofInt 32 (clampInt (-(2 ^ 31)) (2 ^ 31 - 1) (x.toInt - y.toInt)))
  ∧ Lane2 .addsZ (fun x y => BitVec.ofInt 32 (clampInt 0 (2 ^ 32 - 1) (x.toNat + y.toNat)))
  ∧ Lane2 .subsZ (fun x y => BitVec.ofInt 32 (clampInt 0 (2 ^ 32 - 1) (x.toNat - y.toNat)))
  ∧ Lane2 .avgZ (fun x y => BitVec.ofNat 32 ((x.toNat + y.toNat + 1) / 2))
  ∧ Lane3 .sadZ (fun x y z => z + if x.toNat ≤ y.toNat then y - x else x - y)
  ∧ Lane2 .mul (fun x y => x * y)
  ∧ Lane2 .mulhI (fun x y => BitVec.ofInt 32 (x.toInt * y.toInt / 2 ^ 32)) ∧ Lane2 .mulhZ (fun x y => BitVec.ofNat 32 (x.toNat * y.toNat / 2 ^ 32))
  ∧ Lane3 .mad (fun x y z => x * y + z)
  ∧ Wide2 .mulwI (fun x y => BitVec.ofInt 64 (x.toInt * y.toInt)) ∧ Wide2 .mulwZ (fun x y => BitVec.ofNat 64 (x.toNat * y.toNat))
  ∧ Wide3 .madwI (fun x y => BitVec.ofInt 64 (x.toInt * y.toInt)) ∧ Wide3 .madwZ (fun x y => BitVec.ofNat 64 (x.toNat * y.toNat))
  ∧ Lane2 .divI (fun x y => if y = 0 then 0xFFFFFFFF else BitVec.ofInt 32 (x.toInt.tdiv y.toInt))
  ∧ Lane2 .divZ (fun x y => if y = 0 then 0xFFFFFFFF else BitVec.ofNat 32 (x.toNat / y.toNat))
  ∧ Lane2 .remI (fun x y => if y = 0 then x else BitVec.ofInt 32 (x.toInt.tmod y.toInt))
  ∧ Lane2 .remZ (fun x y => if y = 0 then x else BitVec.ofNat 32 (x.toNat % y.toNat))
  ∧ Lane3 .dp4I8 dp4I ∧ Lane3 .dp4Z8 dp4Z

/-- Table 6-1, immediate forms: b is the 7-bit field sign-extended (R85). -/
def Obligations.IntegerImmediateResults : Prop :=
  let L := LaneImm (BitVec.signExtend 32)
  L .addImm (fun x y => x + y) ∧ L .subImm (fun x y => x - y)
  ∧ L .minIImm (fun x y => if x.toInt ≤ y.toInt then x else y) ∧ L .maxIImm (fun x y => if x.toInt ≤ y.toInt then y else x)
  ∧ L .minZImm (fun x y => if x.toNat ≤ y.toNat then x else y) ∧ L .maxZImm (fun x y => if x.toNat ≤ y.toNat then y else x)
  ∧ L .addsIImm (fun x y => BitVec.ofInt 32 (clampInt (-(2 ^ 31)) (2 ^ 31 - 1) (x.toInt + y.toInt)))
  ∧ L .subsIImm (fun x y => BitVec.ofInt 32 (clampInt (-(2 ^ 31)) (2 ^ 31 - 1) (x.toInt - y.toInt)))
  ∧ L .addsZImm (fun x y => BitVec.ofInt 32 (clampInt 0 (2 ^ 32 - 1) (x.toNat + y.toNat)))
  ∧ L .subsZImm (fun x y => BitVec.ofInt 32 (clampInt 0 (2 ^ 32 - 1) (x.toNat - y.toNat)))
  ∧ L .avgZImm (fun x y => BitVec.ofNat 32 ((x.toNat + y.toNat + 1) / 2))
  ∧ LaneImm3 (BitVec.signExtend 32) .sadZImm (fun x y z => z + if x.toNat ≤ y.toNat then y - x else x - y)

/-- Table 6-1: `addc` and `subb` in both forms take p6 in and write the carry or borrow to p6 of the active lanes (R128). -/
def Obligations.CarryChainResults : Prop :=
  let sum (x y : Word) (c : Bool) : Nat := x.toNat + y.toNat + c.toNat
  let c (i : Iss) (l : Nat) : Bool := i.preds 6 l
  (∀ g d a b, PutsBoth (.addc g d a b) g [a.toNat, b.toNat] d.toNat 1 6 [6]
    (fun i l => [BitVec.ofNat 32 (sum (i.reg a.toNat l) (i.reg b.toNat l) (c i l))])
    fun i l => decide (2 ^ 32 ≤ sum (i.reg a.toNat l) (i.reg b.toNat l) (c i l)))
  ∧ (∀ g d a (n : BitVec 7), PutsBoth (.addcImm g d a n) g [a.toNat] d.toNat 1 6 [6]
    (fun i l => [BitVec.ofNat 32 (sum (i.reg a.toNat l) (n.signExtend 32) (c i l))])
    fun i l => decide (2 ^ 32 ≤ sum (i.reg a.toNat l) (n.signExtend 32) (c i l)))
  ∧ (∀ g d a b, PutsBoth (.subb g d a b) g [a.toNat, b.toNat] d.toNat 1 6 [6]
    (fun i l => [i.reg a.toNat l - i.reg b.toNat l - BitVec.ofNat 32 (c i l).toNat])
    fun i l => decide ((i.reg a.toNat l).toNat < (i.reg b.toNat l).toNat + (c i l).toNat))
  ∧ (∀ g d a (n : BitVec 7), PutsBoth (.subbImm g d a n) g [a.toNat] d.toNat 1 6 [6]
    (fun i l => [i.reg a.toNat l - n.signExtend 32 - BitVec.ofNat 32 (c i l).toNat])
    fun i l => decide ((i.reg a.toNat l).toNat < (n.signExtend 32 : Word).toNat + (c i l).toNat))

/-- Tables 6-3 and 6-4: logic, bit counts, permutes, shifts and bit fields; a shift by 32 or more shifts everything out. -/
def Obligations.LogicAndShiftResults : Prop :=
  let I := LaneImm (BitVec.zeroExtend 32)
  let shl (x s : Word) : Word := if s.toNat < 32 then x <<< s.toNat else 0
  let shrZ (x s : Word) : Word := if s.toNat < 32 then x >>> s.toNat else 0
  let shrI (x s : Word) : Word := BitVec.ofInt 32 (x.toInt / 2 ^ s.toNat)
  Lane2 .and (fun x y => x &&& y) ∧ Lane2 .or (fun x y => x ||| y) ∧ Lane2 .xor (fun x y => x ^^^ y)
  ∧ Lane2 .andn (fun x y => x &&& ~~~y) ∧ Lane2 .orn (fun x y => x ||| ~~~y) ∧ Lane1 .not (fun x => ~~~x)
  ∧ Lane1 .popc popc ∧ Lane1 .clz clz ∧ Lane1 .ctz ctz ∧ Lane1 .brev brev
  ∧ Lane3 .bsel (fun x y z => x &&& z ||| y &&& ~~~z) ∧ Lane3 .prmt prmt
  ∧ Lane2 .shl shl ∧ I .shlImm shl ∧ Lane2 .shrZ shrZ ∧ I .shrZImm shrZ ∧ Lane2 .shrI shrI ∧ I .shrIImm shrI
  ∧ Lane2 .rol (fun x s => x.rotateLeft (s.toNat % 32)) ∧ I .rolImm (fun x s => x.rotateLeft (s.toNat % 32))
  ∧ Lane2 .ror (fun x s => x.rotateRight (s.toNat % 32)) ∧ I .rorImm (fun x s => x.rotateRight (s.toNat % 32))
  ∧ Lane3 .shlf shlf ∧ LaneImm3 (BitVec.zeroExtend 32) .shlfImm shlf ∧ Lane3 .shrf shrf ∧ LaneImm3 (BitVec.zeroExtend 32) .shrfImm shrf
  ∧ Lane2 .bfxZ bfxZ ∧ Lane2 .bfxI bfxI ∧ Lane3 .bfi bfi

/-- Tables 6-5 and 6-6: each comparison combines its condition into the predicate (R132, R133). -/
def Obligations.IntegerComparisons : Prop :=
  Cmp2 .cmpEq (fun x y => x = y) ∧ CmpImm .cmpEqImm (fun x y => x = y) ∧ Cmp2 .cmpNe (fun x y => x ≠ y) ∧ CmpImm .cmpNeImm (fun x y => x ≠ y)
  ∧ Cmp2 .cmpLtI (fun x y => x.toInt < y.toInt) ∧ CmpImm .cmpLtIImm (fun x y => x.toInt < y.toInt)
  ∧ Cmp2 .cmpLeI (fun x y => x.toInt ≤ y.toInt) ∧ CmpImm .cmpLeIImm (fun x y => x.toInt ≤ y.toInt)
  ∧ Cmp2 .cmpGtI (fun x y => x.toInt > y.toInt) ∧ CmpImm .cmpGtIImm (fun x y => x.toInt > y.toInt)
  ∧ Cmp2 .cmpGeI (fun x y => x.toInt ≥ y.toInt) ∧ CmpImm .cmpGeIImm (fun x y => x.toInt ≥ y.toInt)
  ∧ Cmp2 .cmpLtZ (fun x y => x.toNat < y.toNat) ∧ CmpImm .cmpLtZImm (fun x y => x.toNat < y.toNat)
  ∧ Cmp2 .cmpLeZ (fun x y => x.toNat ≤ y.toNat) ∧ CmpImm .cmpLeZImm (fun x y => x.toNat ≤ y.toNat)
  ∧ Cmp2 .cmpGtZ (fun x y => x.toNat > y.toNat) ∧ CmpImm .cmpGtZImm (fun x y => x.toNat > y.toNat)
  ∧ Cmp2 .cmpGeZ (fun x y => x.toNat ≥ y.toNat) ∧ CmpImm .cmpGeZImm (fun x y => x.toNat ≥ y.toNat)
  ∧ Cmp2 .tst (fun x y => x &&& y ≠ 0) ∧ CmpImm .tstImm (fun x y => x &&& y ≠ 0)
  ∧ Cmp2 .tstn (fun x y => x &&& y = 0) ∧ CmpImm .tstnImm (fun x y => x &&& y = 0)
  ∧ CmpPairs .cmpEq64 (fun x y => x = y) ∧ CmpPairs .cmpLtI64 (fun x y => x.toInt < y.toInt) ∧ CmpPairs .cmpLtZ64 (fun x y => x.toNat < y.toNat)

/-- Tables 6-6 and 6-7: 64-bit results in pairs, and the moves of constants. -/
def Obligations.PairAndConstantResults : Prop :=
  Pair2 .add64 (fun x y => x + y) ∧ Pair2 .sub64 (fun x y => x - y) ∧ Pair2 .mul64 (fun x y => x * y)
  ∧ PairReg .shl64 (fun x s => if s.toNat < 64 then x <<< s.toNat else 0) ∧ PairReg .shrZ64 (fun x s => if s.toNat < 64 then x >>> s.toNat else 0)
  ∧ PairReg .shrI64 (fun x s => BitVec.ofInt 64 (x.toInt / 2 ^ s.toNat))
  ∧ Pair2 .minI64 (fun x y => if x.toInt ≤ y.toInt then x else y) ∧ Pair2 .maxI64 (fun x y => if x.toInt ≤ y.toInt then y else x)
  ∧ Pair2 .minZ64 (fun x y => if x.toNat ≤ y.toNat then x else y) ∧ Pair2 .maxZ64 (fun x y => if x.toNat ≤ y.toNat then y else x)
  ∧ (∀ g d n, PutsRegs (.movi g d n) g [] d.toNat 1 [] 4 fun _ _ => [n.signExtend 32])
  ∧ (∀ g d (n : BitVec 14), PutsRegs (.movhi g d n) g [d.toNat] d.toNat 1 [] 4 fun i l => [n ++ (i.reg d.toNat l).extractLsb' 0 18])
  ∧ (∀ g d n, PutsRegs (.addi g d n) g [d.toNat] d.toNat 1 [] 4 fun i l => [i.reg d.toNat l + n.signExtend 32])
  ∧ (∀ g d hi lo, PutsRegs (.li g d hi lo) g [] d.toNat 1 [] 8 fun _ _ => [hi ++ lo])
  ∧ LaneConst .addi32 (fun x y => x + y) ∧ LaneConst .andi32 (fun x y => x &&& y) ∧ LaneConst .ori32 (fun x y => x ||| y)
  ∧ LaneConst .xori32 (fun x y => x ^^^ y)

/-! ### Lanes, predicates, addresses (chapter 6) -/

/-- Table 6-8: moves, shuffles and reductions. A shuffle whose source lane is not an active lane of the group gives the lane's own value
(R135); the results of reductions reach every active lane. For `bcast` R135 and the row of Table 6-8 differ where the source lane is not active: that it
gives a[m] there is the model's choice (log entry 18, DEDUCED). -/
def Obligations.LaneMovesAndReductions : Prop :=
  let from_ (i : Iss) (a l : Nat) (src : Int) : Word := if 0 ≤ src ∧ src < 16 ∧ i.lanes.has src.toNat = true then i.reg a src.toNat else i.reg a l
  let Shuffle (mk : Bool → Fld → Fld → Fld → Instr) (src : Nat → Nat → Int) : Prop :=
    ∀ g d a b, PutsRegs (mk g d a b) g [a.toNat, b.toNat] d.toNat 1 [] 4 fun i l => [from_ i a.toNat l (src (i.reg b.toNat l).toNat l)]
  let values (i : Iss) (a : Fld) : List Word := i.lanes.lanes.map (i.reg a.toNat)
  let Reduce (mk : Bool → Fld → Fld → Instr) (f : Iss → List Word → Word) : Prop :=
    ∀ g d a, PutsRegs (mk g d a) g [a.toNat] d.toNat 1 [] 4 fun i _ => [f i (values i a)]
  Lane1 .mov (fun x => x)
  ∧ (∀ g d a b, PutsRegs (.sel g d a b) g [a.toNat, b.toNat] d.toNat 1 [0] 4 fun i l => [if i.preds 0 l then i.reg a.toNat l else i.reg b.toNat l])
  ∧ Shuffle .shflIdx (fun b _ => (b % 16 : Nat)) ∧ Shuffle .shflUp (fun b l => l - (b % 32 : Nat)) ∧ Shuffle .shflDn (fun b l => l + (b % 32 : Nat))
  ∧ Shuffle .shflXor (fun b l => (Nat.xor l (b % 16) : Nat))
  ∧ (∀ g d a b, PutsRegs (.bcast g d a b) g [a.toNat, b.toNat] d.toNat 1 [] 4 fun i _ => [from_ i a.toNat i.lo ((i.reg b.toNat i.lo).toNat % 16 : Nat)])
  ∧ (∀ g d p, PutsRegs (.ballot g d p) g [] d.toNat 1 [p.toNat] 4 fun i _ => [(i.lanes &&& i.g.pred p.toNat).setWidth 32])
  ∧ (∀ g d a, PutsRegs (.matchLanes g d a) g [a.toNat] d.toNat 1 [] 4 fun i l =>
      [(Mask.of fun m => i.lanes.has m && i.reg a.toNat m == i.reg a.toNat l).setWidth 32])
  ∧ (∀ g d a, PutsRegs (.lscanAdd g d a) g [a.toNat] d.toNat 1 [] 4 fun i l =>
      [((i.lanes.lanes.filter fun m => decide (m ≤ l)).map (i.reg a.toNat)).foldl (fun x y => x + y) 0])
  ∧ Reduce .lredAdd (fun _ xs => xs.foldl (fun x y => x + y) 0)
  ∧ Reduce .lredMinI (fun _ => foldWords fun x y => if x.toInt ≤ y.toInt then x else y)
  ∧ Reduce .lredMaxI (fun _ => foldWords fun x y => if x.toInt ≤ y.toInt then y else x)
  ∧ Reduce .lredMinZ (fun _ => foldWords fun x y => if x.toNat ≤ y.toNat then x else y)
  ∧ Reduce .lredMaxZ (fun _ => foldWords fun x y => if x.toNat ≤ y.toNat then y else x)
  ∧ Reduce .lredAddF32 (fun i => sumF32 i.ftz)

/-- Table 6-9: predicate logic in the active lanes (R137), and the moves between predicates and registers. -/
def Obligations.PredicateLogic : Prop :=
  let P2 (mk : Bool → BitVec 3 → BitVec 3 → BitVec 3 → Instr) (f : Bool → Bool → Bool) : Prop :=
    ∀ g d a b, PutsPred (mk g d a b) g [] d.toNat [a.toNat, b.toNat] fun i l => f (i.preds a.toNat l) (i.preds b.toNat l)
  let P1 (mk : Bool → BitVec 3 → BitVec 3 → Instr) (f : Iss → Nat → Nat → Bool) : Prop :=
    ∀ g d a, PutsPred (mk g d a) g [] d.toNat [a.toNat] fun i l => f i a.toNat l
  P2 .pand (fun x y => x && y) ∧ P2 .por (fun x y => x || y) ∧ P2 .pxor (fun x y => x.xor y)
  ∧ P1 .pnot (fun i a l => !i.preds a l) ∧ P1 .pmov (fun i a l => i.preds a l)
  ∧ P1 .pany (fun i a _ => i.lanes.lanes.any (i.preds a)) ∧ P1 .pall (fun i a _ => i.lanes.lanes.all (i.preds a))
  ∧ (∀ g d a, PutsRegs (.p2v g d a) g [] d.toNat 1 [a.toNat] 4 fun i l => [if i.preds a.toNat l then 1 else 0])
  ∧ (∀ g d a, PutsPred (.v2p g d a) g [a.toNat] d.toNat [] fun i l => decide (i.reg a.toNat l ≠ 0))

/-- R138, R259, R274, R275: addresses, race clocks, conflict classes and their combination. The class of a lane is the active lanes with
its key; a leader has no lane of its class below it. -/
def Obligations.AddressAndConflictResults : Prop :=
  let key (i : Iss) (a : Fld) (w : BitVec 1) (l : Nat) : Word64 := if w = 1 then i.pair a.toNat l else (i.reg a.toNat l).setWidth 64
  let keys (a : Fld) (w : BitVec 1) : List Nat := if w = 1 then [a.toNat, a.toNat + 1] else [a.toNat]
  let below (i : Iss) (k : Nat → Word64) (l : Nat) : Mask := Mask.of fun m => i.lanes.has m && decide (m < l) && k m == k l
  let above (i : Iss) (k : Nat → Word64) (l : Nat) : Mask := Mask.of fun m => i.lanes.has m && decide (l < m) && k m == k l
  let sum (f : Nat → Nat → Nat) (i : Iss) (d : Nat) (k : Nat → Word64) (l : Nat) : Word :=
    BitVec.ofNat 32 ((above i k l).lanes.foldl (fun n m => f n (i.reg d m).toNat) (i.reg d l).toNat)
  let Combine (mk : Bool → Fld → BitVec 6 → Instr) (f : Nat → Nat → Nat) : Prop :=
    ∀ g d a, PutsBoth (mk g d a) g (d.toNat :: pairOf a) d.toNat 1 0 []
      (fun i l => [if below i (i.pair (pairFld a).toNat) l = 0 then sum f i d.toNat (i.pair (pairFld a).toNat) l else i.reg d.toNat l])
      fun i l => decide (below i (i.pair (pairFld a).toNat) l = 0)
  (∀ g sh d a b, PutsRegs (.lea g sh d a b) g (pairOf a ++ [b.toNat]) (pairFld d).toNat 2 [] 4 fun i l =>
      pairWords (i.pair (pairFld a).toNat l + ((i.reg b.toNat l).signExtend 64 <<< sh.toNat)))
  ∧ (∀ g d, PutsRegs (.rclk g d) g [] d.toNat 1 [] 4 fun i l => [BitVec.ofNat 32 (i.g.know.get l)])
  ∧ (∀ g d a w, PutsBoth (.vconf g d a w) g (keys a w) d.toNat 1 0 [] (fun i l => [(below i (key i a w) l).setWidth 32]) fun i l => decide (below i (key i a w) l = 0))
  ∧ (∀ g d a w, PutsBoth (.vconfl g d a w) g (keys a w) d.toNat 1 0 [] (fun i l => [(above i (key i a w) l).setWidth 32]) fun i l => decide (above i (key i a w) l = 0))
  ∧ (∀ g d a w, PutsRegs (.vuniq g d a w) g (keys a w) d.toNat 1 [] 4 fun i _ =>
      [BitVec.ofNat 32 (i.lanes.lanes.filter fun l => decide (below i (key i a w) l = 0)).length])
  ∧ Combine .scombF32 (fun m v => fp32.addOp false m v) ∧ Combine .scombI32 (fun m v => (m + v) % 2 ^ 32)
  ∧ Combine .scombBf16x2 (fun m v => bf16.addOp false (m % 65536) (v % 65536) + 65536 * bf16.addOp false (m / 65536 % 65536) (v / 65536 % 65536))

/-! ### Floating point and number formats (chapters 7 and 8) -/

/-- Table 7-1: an FP32 operation rounds its exact result to nearest even once, under the fragment's FTZ (R144, R147). The sign operations work on
bits alone (R148). -/
def Obligations.FloatResults : Prop :=
  let F1 (mk : Bool → Fld → Fld → Instr) (f : Iss → Nat → Nat) : Prop :=
    ∀ g d a, PutsRegs (mk g d a) g [a.toNat] d.toNat 1 [] 4 fun i l => [BitVec.ofNat 32 (f i (i.reg a.toNat l).toNat)]
  let F2 (mk : Bool → Fld → Fld → Fld → Instr) (f : Bool → Nat → Nat → Nat) : Prop :=
    ∀ g d a b, PutsRegs (mk g d a b) g [a.toNat, b.toNat] d.toNat 1 [] 4 fun i l => [BitVec.ofNat 32 (f i.ftz (i.reg a.toNat l).toNat (i.reg b.toNat l).toNat)]
  let F3 (mk : Bool → Fld → Fld → Fld → Instr) (f : Bool → Nat → Nat → Nat → Nat) : Prop :=
    ∀ g d a b, PutsRegs (mk g d a b) g [a.toNat, b.toNat, d.toNat] d.toNat 1 [] 4 fun i l =>
      [BitVec.ofNat 32 (f i.ftz (i.reg a.toNat l).toNat (i.reg b.toNat l).toNat (i.reg d.toNat l).toNat)]
  let inp (z : Bool) (x : Nat) : Val := fp32.inp z x
  F2 .fadd (fun z x y => fp32.arith z ((inp z x).add (inp z y))) ∧ F2 .fsub fp32.subOp ∧ F2 .fmul (fun z x y => fp32.arith z ((inp z x).mul (inp z y)))
  ∧ F3 .fma (fun z x y w => fp32.arith z (((inp z x).mul (inp z y)).add (inp z w))) ∧ F3 .fms fp32.fmsOp ∧ F3 .fnma fp32.fnmaOp
  ∧ F2 .fmin fp32.minOp ∧ F2 .fmax fp32.maxOp ∧ F2 .fminn fp32.minnOp ∧ F2 .fmaxn fp32.maxnOp
  ∧ Lane1 .fabs (fun x => x &&& 0x7FFFFFFF) ∧ Lane1 .fneg (fun x => x ^^^ 0x80000000)
  ∧ Lane2 .fcpsgn (fun x y => x &&& 0x7FFFFFFF ||| y &&& 0x80000000)
  ∧ (∀ g d a m, PutsRegs (.frint g d a m) g [a.toNat] d.toNat 1 [] 4 fun i l => [BitVec.ofNat 32 (frint i.ftz (i.mode m) (i.reg a.toNat l).toNat)])
  ∧ F1 .ffrac (fun i => ffrac i.ftz) ∧ F1 .fsat (fun i => fsat i.ftz) ∧ F1 .fclass (fun _ => fclass)
  ∧ F1 .rcp (fun i => fspec 0 i.ftz) ∧ F1 .rsqrt (fun i => fspec 1 i.ftz) ∧ F1 .sqrt (fun i => fspec 2 i.ftz) ∧ F1 .exp2 (fun i => fspec 3 i.ftz)
  ∧ F1 .log2 (fun i => fspec 4 i.ftz) ∧ F1 .sinpi (fun i => fspec 5 i.ftz) ∧ F1 .cospi (fun i => fspec 6 i.ftz) ∧ F1 .tanh (fun i => fspec 7 i.ftz)
  ∧ F1 .sigm (fun i => fspec 8 i.ftz)
  ∧ (∀ g sc d a e m, PutsRegs (.cvt g sc d a e m) g [a.toNat] d.toNat 1 [] 4 fun i l =>
      [BitVec.ofNat 32 (convert i.ftz (fmtSat i.f.fmt) (i.mode m) sc.toNat e.toNat (i.reg a.toNat l).toNat)])

/-- R150: the FP32 comparisons compare values after the input flush; every comparison with a NaN is false but `fcmp.ne` and `fcmp.un`. -/
def Obligations.FloatComparisons : Prop :=
  let C (mk : Bool → BitVec 2 → BitVec 3 → Fld → Fld → Instr) (f : Val → Val → Bool) : Prop :=
    ∀ g c p a b, PutsPred (mk g c p a b) g [a.toNat, b.toNat] p.toNat (if c = 0 then [] else [p.toNat]) fun i l =>
      combined c (i.preds p.toNat l) (f (fp32.inp i.ftz (i.reg a.toNat l).toNat) (fp32.inp i.ftz (i.reg b.toNat l).toNat))
  C .fcmpEq Val.eq ∧ C .fcmpNe (fun x y => !Val.eq x y) ∧ C .fcmpLt Val.lt ∧ C .fcmpLe (fun x y => Val.lt x y || Val.eq x y)
  ∧ C .fcmpGt (fun x y => Val.lt y x) ∧ C .fcmpGe (fun x y => Val.lt y x || Val.eq x y)
  ∧ C .fcmpUn (fun x y => x.isNan || y.isNan) ∧ C .fcmpOr (fun x y => !x.isNan && !y.isNan)
  ∧ (∀ x y : Val, x.isNan = true ∨ y.isNan = true → Val.eq x y = false ∧ Val.lt x y = false)

/-- R153: each half of a packed register is an operation of its own in FP16 or BF16. -/
def Obligations.PackedHalfResults : Prop :=
  let lo (x : Word) : Nat := x.toNat % 65536
  let hi (x : Word) : Nat := x.toNat / 65536
  let H2 (mk : Bool → Fld → Fld → Fld → Instr) (f : Bool → Nat → Nat → Nat) : Prop :=
    ∀ g d a b, PutsRegs (mk g d a b) g [a.toNat, b.toNat] d.toNat 1 [] 4 fun i l =>
      let x := i.reg a.toNat l
      let y := i.reg b.toNat l
      [BitVec.ofNat 32 (f i.ftz (lo x) (lo y) % 65536 + 65536 * (f i.ftz (hi x) (hi y) % 65536))]
  let H3 (mk : Bool → Fld → Fld → Fld → Instr) (f : Bool → Nat → Nat → Nat → Nat) : Prop :=
    ∀ g d a b, PutsRegs (mk g d a b) g [a.toNat, b.toNat, d.toNat] d.toNat 1 [] 4 fun i l =>
      let x := i.reg a.toNat l
      let y := i.reg b.toNat l
      let z := i.reg d.toNat l
      [BitVec.ofNat 32 (f i.ftz (lo x) (lo y) (lo z) % 65536 + 65536 * (f i.ftz (hi x) (hi y) (hi z) % 65536))]
  H2 .hadd2F16 fp16.addOp ∧ H2 .hsub2F16 fp16.subOp ∧ H2 .hmul2F16 fp16.mulOp ∧ H3 .hfma2F16 fp16.fmaOp ∧ H2 .hmin2F16 fp16.minOp ∧ H2 .hmax2F16 fp16.maxOp
  ∧ H2 .hadd2Bf16 bf16.addOp ∧ H2 .hsub2Bf16 bf16.subOp ∧ H2 .hmul2Bf16 bf16.mulOp ∧ H3 .hfma2Bf16 bf16.fmaOp ∧ H2 .hmin2Bf16 bf16.minOp ∧ H2 .hmax2Bf16 bf16.maxOp

/-- R168 to R177: the number-format instructions. `fmt.set` changes a field of FMT in the issuing fragment alone; `uexp` takes one free value for
the bits it may choose (log entry 7). That `uexp` and `mxq` read flushed values is the model's choice (log entry 75, DESIGN CHOICE). -/
def Obligations.NumberFormatResults : Prop :=
  let blk (a : BitVec 3) : Nat := 16 * a.toNat
  (∀ g d sel, PutsRegs (.fmtGet g d sel) g [] d.toNat 1 [] 4 fun i _ => [BitVec.ofNat 32 (fmtRead i.f.fmt sel.toNat)])
  ∧ (∀ g sel v s i, CanIssue s g [] [] [] i → i.lanes ≠ 0 →
      exec (.fmtSet g sel v) s = .next ((s.modF i.gi i.fi fun f => { f with fmt := fmtPut f.fmt sel.toNat v.toNat }).advance i))
  ∧ (∀ g d a, PutsRegs (.sbexp g d a) g (d.toNat :: runOf (blk a) 16) d.toNat 1 [] 4 fun i _ =>
      let e := sbExponent (laneNums.flatMap fun r => laneNums.filterMap fun c => regionVal i (blk a) r c)
      [BitVec.ofNat 32 (Nat.max e ((i.reg d.toNat i.lo).toNat / 256 % 256) * 256)])
  ∧ (∀ g d a w s i, CanIssue s g (d.toNat :: runOf (blk a) 16) [d.toNat] [] i →
      let e := (i.reg d.toNat i.lo).toNat / 256 % 256
      ∃ (t : State) (free : Nat → Nat → Bool), exec (.uexp g d a w) s = .next t
        ∧ Wrote { s with draws := s.draws + 1 } t i 4 (i.after d.toNat fun l => [BitVec.ofNat 32 (e * 256
            + [0, 1, 2, 3, 4, 5, 6, 7].foldl (fun n qr =>
                n + if quadBit e (sbWidth w - 1) (quadVals i (blk a) qr (l / 2)) (free qr (l / 2)) then 2 ^ qr else 0) 0)]) i.preds)
  ∧ (∀ g d a w b, PutsRegs (.sbq g d a w b) g (b.toNat :: runOf (blk a) 16) d.toNat (sbRegs w) [] 4 fun i l =>
      (List.range (sbRegs w)).map fun j => BitVec.ofNat 32 ((List.range (32 / sbWidth w)).foldl (fun n k =>
        let x := (16 * j + l) * (32 / sbWidth w) + k
        n + sbCode i (blk a) b.toNat ((i.reg b.toNat i.lo).toNat / 256 % 256) (sbWidth w - 1) (x / 16) (x % 16) * 2 ^ (sbWidth w * k)) 0))
  ∧ (∀ g d w a b, PutsRegs (.sbdq g d w a b) g (b.toNat :: runOf a.toNat (sbRegs w)) (blk d) 16 [] 4 fun i l =>
      (List.range 16).map fun r =>
        let e := (i.reg b.toNat i.lo).toNat / 256 % 256
        let x := packedCode i a.toNat (sbWidth w) r l
        if e = 0xFF then BitVec.ofNat 32 fp32.nanBits
        else BitVec.ofNat 32 (fp32.arith i.ftz (.fin (x / 2 ^ (sbWidth w - 1) % 2 == 1) (x % 2 ^ (sbWidth w - 1)) (sbStep i b.toNat e (sbWidth w - 1) r l))))
  ∧ (∀ g d a e, PutsRegs (.mxexp g d a e) g (pairOf a) d.toNat 1 [] 4 fun i _ =>
      [BitVec.ofNat 32 (e.toNat * 256 + mxExponent e.toNat ((List.range 32).filterMap fun n => (mxElem i (pairFld a).toNat n).map (fp32.inp i.ftz)))])
  ∧ (∀ g d a b, PutsRegs (.mxq g d a b) g (b.toNat :: pairOf a) d.toNat 1 [] 4 fun i l =>
      let (x, c) := mxScale i b.toNat
      [if mxCode c then BitVec.ofNat 32 ((List.range 32).foldl (fun n k =>
          n + mxqElem i x c ((mxElem i (pairFld a).toNat k).getD 0) * 2 ^ (codeWidth c * k)) 0 / 2 ^ (32 * l)) else 0])
  ∧ (∀ g d a b, PutsRegs (.mxdq g d a b) g [a.toNat, b.toNat] (pairFld d).toNat 2 [] 4 fun i l =>
      let (x, c) := mxScale i b.toNat
      [mxdqElem i x c a.toNat l, mxdqElem i x c a.toNat (16 + l)])
  ∧ (∀ g d a e, PutsRegs (.pack g d a e) g (runOf a.toNat (packCount e)) d.toNat 1 [] 4 fun i l =>
      [BitVec.ofNat 32 ((List.range (packCount e)).foldl (fun n j => n + (i.reg (a.toNat + j) l).toNat % 2 ^ elemWidth e * 2 ^ (elemWidth e * j)) 0)])
  ∧ (∀ g d a e, PutsRegs (.unpack g d a e) g [a.toNat] d.toNat (packCount e) [] 4 fun i l =>
      (List.range (packCount e)).map (unpackElem e (i.reg a.toNat l)))

/-! ### Special registers (R52 to R54) and tags (R42) -/

/-- R53, Table 2-4: what each special register reads. A read of TIME_LO, CYCLE_LO or DL_LO takes the whole 64-bit source into the fragment's latch and gives its
low word, so that the high word read next belongs to the same sample. -/
def Obligations.SpecialRegisterReads : Prop :=
  (∀ g (d : Fld) (n : BitVec 14) (v : Word64) s i, CanIssue s g [] [d.toNat] [] i → i.lanes ≠ 0 → (s.ctx (s.pasidOf i.g)).replay = false →
    (n = 0x10 ∧ v = BitVec.ofNat 64 s.time) ∨ (n = 0x12 ∧ v = BitVec.ofNat 64 (s.cycle i.g.core)) ∨ (n = 0x15 ∧ v = BitVec.ofNat 64 (s.deadlineOf i.g)) →
    ∃ t, exec (.srd g d n) s = .next t
      ∧ Went s t i { i.f with latch := v, sampled := s.seq + 1 } (i.f.pc + 4) (i.after d.toNat fun _ => [v.setWidth 32]) i.preds)
  ∧ ∀ g (d : Fld) (n : BitVec 14) s i, CanIssue s g [] [d.toNat] [] i →
    let b := s.blockOf i.g
    let la := s.launchOf i.g
    let reads (v : Nat → Word) : Prop := ∃ t, exec (.srd g d n) s = .next t ∧ Wrote s t i 4 (i.after d.toNat fun l => [v l]) i.preds
    (n = 0x00 → reads fun l => BitVec.ofNat 32 l) ∧ (n = 0x01 → reads fun _ => BitVec.ofNat 32 i.g.slot) ∧ (n = 0x02 → reads fun _ => BitVec.ofNat 32 i.g.gid)
    ∧ (n = 0x03 → reads fun _ => b.bid) ∧ (n = 0x04 → reads fun _ => BitVec.ofNat 32 b.gcount) ∧ (n = 0x05 → reads fun _ => la.lid)
    ∧ (n = 0x06 → reads fun _ => BitVec.ofNat 32 i.g.core) ∧ (n = 0x07 → reads fun _ => BitVec.ofNat 32 (i.g.core / 4)) ∧ (n = 0x08 → reads fun _ => la.nblk)
    ∧ (n = 0x09 → reads fun _ => i.g.subt) ∧ (n = 0x0A → reads fun _ => BitVec.ofNat 32 b.spSize) ∧ (n = 0x0B → reads fun _ => BitVec.ofNat 32 i.f.wb)
    ∧ (n = 0x0C → reads fun _ => i.f.fmt) ∧ (n = 0x0D → reads fun _ => i.f.amask.setWidth 32) ∧ (n = 0x0E → reads fun _ => la.karg.setWidth 32)
    ∧ (n = 0x0F → reads fun _ => (la.karg >>> 32).setWidth 32) ∧ (n = 0x11 ∨ n = 0x13 ∨ n = 0x16 → reads fun _ => (i.f.latch >>> 32).setWidth 32)
    ∧ (n = 0x14 → reads fun _ => i.g.clk.setWidth 32) ∧ (n = 0x18 → reads fun _ => BitVec.ofNat 32 i.g.prio) ∧ (n = 0x20 → reads fun _ => i.g.trap.code)
    ∧ (n = 0x21 → reads fun _ => i.g.trap.pcLo) ∧ (n = 0x22 → reads fun _ => i.g.trap.pcHi) ∧ (n = 0x23 → reads fun _ => i.g.trap.addrLo)
    ∧ (n = 0x24 → reads fun _ => i.g.trap.addrHi) ∧ (n = 0x25 → reads fun _ => i.g.trap.mask) ∧ (n = 0x26 → reads fun _ => i.g.trap.info)
    ∧ (n = 0x27 → reads fun _ => i.g.trap.skid)

/-- R54: writes to special registers take the value of the lowest active lane. WB ends a liveness map, PRIO is bounded by the launch's ceiling, FMT
by its field encodings; TRAPPC_HI, TRAPMASK and SKID keep only their own bits. -/
def Obligations.SpecialRegisterWrites : Prop :=
  ∀ g (d : Fld) (n : BitVec 14) s i, CanIssue s g [d.toNat] [] [] i → i.lanes ≠ 0 →
    let v := i.reg d.toNat i.lo
    let trap (f : Trap → Trap) : Prop := exec (.swr g d n) s = .next ((s.modG i.gi fun x => { x with trap := f x.trap }).advance i)
    (n = 0x0B → v.toNat % 32 = 0 → v.toNat + 32 ≤ i.N →
      ∃ t, exec (.swr g d n) s = .next t ∧ Went s t i { i.f with wb := v.toNat, map := none } (i.f.pc + 4) i.g.lane i.preds)
    ∧ (n = 0x0C → badFmt v = false → ∃ t, exec (.swr g d n) s = .next t ∧ Went s t i { i.f with fmt := v, badFmt := false } (i.f.pc + 4) i.g.lane i.preds)
    ∧ (n = 0x18 → v.toNat < 128 → v.toNat ≤ i.g.ceiling → exec (.swr g d n) s = .next ((s.modG i.gi fun x => { x with prio := v.toNat }).advance i))
    ∧ (n = 0x20 → trap fun t => { t with code := v }) ∧ (n = 0x21 → trap fun t => { t with pcLo := v }) ∧ (n = 0x22 → trap fun t => { t with pcHi := v &&& 0xFFFFF })
    ∧ (n = 0x23 → trap fun t => { t with addrLo := v }) ∧ (n = 0x24 → trap fun t => { t with addrHi := v }) ∧ (n = 0x25 → trap fun t => { t with mask := v &&& 0xFFFF })
    ∧ (n = 0x26 → trap fun t => { t with info := v }) ∧ (n = 0x27 → trap fun t => { t with skid := v &&& 0x7FFFFF })

/-- R42, R139: `tagq` gives, in every active lane, a tag code that is true of the register in all 16 lanes: UNIFORM only of a register whose lanes
are all equal, AFFINE only of one whose lanes form a progression. Which true code it gives is free (log entry 8). -/
def Obligations.TagQueryIsTrue : Prop :=
  ∀ g (d a : Fld) s i, CanIssue s g [a.toNat] [d.toNat] [] i →
    ∃ t, ∃ c : Word, exec (.tagq g d a) s = .next t ∧ Wrote { s with draws := s.draws + 1 } t i 4 (i.after d.toNat fun _ => [c]) i.preds
      ∧ (c = 0 ∨ c = 1 ∧ (∀ l, l < 16 → i.reg a.toNat l = i.reg a.toNat 0)
        ∨ c = 2 ∧ ∀ l, l < 16 → i.reg a.toNat l = i.reg a.toNat 0 + BitVec.ofNat 32 l * (i.reg a.toNat 1 - i.reg a.toNat 0))

/-! ### Control flow (chapter 5) -/

/-- R103: a uniform branch goes to its target when its condition holds over the active lanes, and else behind itself; `bra` always goes. A target inside the
address space is needed whether or not the branch is taken. It ends a liveness map (R357). -/
def Obligations.UniformBranches : Prop :=
  let target (i : Iss) (o : BitVec 21) : Int := i.f.pc.toNat + 4 * o.toInt
  let Branch (x : BitVec 21 → Instr) (preds : List Nat) (taken : Iss → Prop) : Prop :=
    ∀ o s i, CanIssue s false [] [] preds i → 0 ≤ target i o → target i o < 2 ^ 52 → i.f.pc.toNat % 4 = 0 → i.g.traced = false →
      (taken i → ∃ t, exec (x o) s = .next t ∧ Went s t i { i.f with map := none } (BitVec.ofInt 52 (target i o)) i.g.lane i.preds)
      ∧ (¬ taken i → ∃ t, exec (x o) s = .next t ∧ Went s t i { i.f with map := none } (i.f.pc + 4) i.g.lane i.preds)
  Branch .bra [] (fun _ => True) ∧ Branch .bany [0] (fun i => ∃ l, i.lanes.has l = true ∧ i.preds 0 l = true)
  ∧ Branch .ball [0] (fun i => ∀ l, i.lanes.has l = true → i.preds 0 l = true)
  ∧ Branch .bnone [0] (fun i => ∀ l, i.lanes.has l = true → i.preds 0 l = false)

/-- R79, R103, R106: calls move the window up by 32 and leave the return address in v30:v31 of the new window; returns move it down; the indirect forms go
where the lowest active lane's pair points. -/
def Obligations.CallsAndReturns : Prop :=
  let back (i : Iss) : List Word := pairWords ((i.f.pc + 4).setWidth 64)
  (∀ o s i, CanIssue s false [] [62, 63] [] i → i.g.traced = false → i.f.wb + 64 ≤ i.N → i.f.pc.toNat % 4 = 0 → 0 ≤ (i.f.pc.toNat : Int) + 4 * o.toInt →
    (i.f.pc.toNat : Int) + 4 * o.toInt < 2 ^ 52 →
    ∃ t, exec (.call o) s = .next t
      ∧ Went s t i { i.f with wb := i.f.wb + 32, map := none } (BitVec.ofInt 52 (i.f.pc.toNat + 4 * o.toInt)) (i.after 62 fun _ => back i) i.preds)
  ∧ (∀ a s i, CanIssue s false (pairOf a) [62, 63] [] i → i.g.traced = false → i.f.held = [] → i.f.wb + 64 ≤ i.N → (i.pair (pairFld a).toNat i.lo).toNat % 4 = 0 →
    (i.pair (pairFld a).toNat i.lo).toNat < 2 ^ 52 →
    ∃ t, exec (.callr a) s = .next t
      ∧ Went s t i { i.f with wb := i.f.wb + 32, map := none } ((i.pair (pairFld a).toNat i.lo).setWidth 52) (i.after 62 fun _ => back i) i.preds)
  ∧ (∀ a s i, CanIssue s false (pairOf a) [] [] i → i.g.traced = false → i.f.held = [] → (i.pair (pairFld a).toNat i.lo).toNat % 4 = 0 →
    (i.pair (pairFld a).toNat i.lo).toNat < 2 ^ 52 →
    ∃ t, exec (.jmpr a) s = .next t ∧ Went s t i { i.f with map := none } ((i.pair (pairFld a).toNat i.lo).setWidth 52) i.g.lane i.preds)
  ∧ (∀ s i, CanIssue s false [30, 31] [] [] i → i.g.traced = false → i.f.held = [] → 32 ≤ i.f.wb → (i.pair 30 i.lo).toNat % 4 = 0 → (i.pair 30 i.lo).toNat < 2 ^ 52 →
    ∃ t, exec .ret s = .next t ∧ Went s t i { i.f with wb := i.f.wb - 32, map := none } ((i.pair 30 i.lo).setWidth 52) i.g.lane i.preds)

/-- R99 to R101, R107 to R112: the control instructions. An `exit` takes its lanes out of the group, the fragment and every entry: an entry with no lane left is
free, one whose other lanes have all arrived fuses into a fragment at its RPC, and a group with no lane left is RETIRING. A `join` adds its lanes to the
innermost entry, which fuses when all have arrived. -/
def Obligations.ControlInstructions : Prop :=
  let keeps (x : Instr) (g : Bool) : Prop := ∀ s i, CanIssue s g [] [] [] i → ∃ t, exec x s = .next t ∧ Wrote s t i 4 i.g.lane i.preds
  let same (s t : State) (i : Iss) : Prop :=
    (t.group i.gi).regs = i.g.regs ∧ (t.group i.gi).preds = i.g.preds ∧ (∀ k, k ≠ i.gi → t.groups[k]? = s.groups[k]?) ∧ t.mem = s.mem
  let Fused (f : Frag) (en : Split) (lanes : Mask) (latch : Word64) : Prop :=
    f.pc = en.rpc ∧ f.amask = lanes ∧ f.fmt = en.fmt ∧ f.wb = en.wb ∧ f.inner = en.parent ∧ f.latch = latch
  (∀ g, keeps (.nop g) g) ∧ (∀ g, keeps (.yield g) g)
  ∧ (∀ g n s i, CanIssue s g [] [] [] i → i.lanes ≠ 0 → 32 * n.toNat + 32 ≤ i.N →
    ∃ t, exec (.wbase g n) s = .next t ∧ Went s t i { i.f with wb := 32 * n.toNat, map := none } (i.f.pc + 4) i.g.lane i.preds)
  ∧ (∀ g s i, CanIssue s g [] [] [] i → i.lanes ≠ 0 →
    ∃ t, exec (.spin g) s = .next t ∧ Wrote s t i 4 i.g.lane i.preds ∧ ((t.group i.gi).frag i.fi).spin = true)
  ∧ (∀ g (d : BitVec 3) (sel : BitVec 2) s i, CanIssue s g [] [] [] i [d.toNat] → i.lanes ≠ 0 →
    let entry : Mask := match i.f.inner with | some e => (((i.g.splits[e]?).join).map (·.lanes)).getD 0 | none => ~~~i.g.exited
    let m : Mask := if sel = 0 then i.f.amask else if sel = 1 then entry else ~~~i.g.exited
    ∃ t, exec (.fmask g d sel) s = .next t ∧ Wrote s t i 4 i.g.lane fun p l => if p = d.toNat then m.has l else i.preds p l)
  ∧ (∀ s i, CanIssue s false [] [] [] i → i.f.inner = none →
    ∃ t, exec .join s = .next t ∧ Went s t i { i.f with map := none } (i.f.pc + 4) i.g.lane i.preds)
  ∧ (∀ s i e en, CanIssue s false [] [] [] i → i.g.traced = false → i.f.held = [] → i.f.inner = some e → i.g.splits[e]? = some (some en) →
    let latch := if en.sampled < i.f.sampled then i.f.latch else en.latch
    ∃ t, exec .join s = .next t ∧ same s t i ∧ (t.group i.gi).exited = i.g.exited ∧ (t.group i.gi).state = i.g.state
      ∧ (∀ k, k ≠ e → (t.group i.gi).splits[k]? = i.g.splits[k]?)
      ∧ (en.arrived ||| i.f.amask ≠ en.lanes → (t.group i.gi).frags = dropAt i.g.frags i.fi
          ∧ ∃ en', (t.group i.gi).splits[e]? = some (some en') ∧ en'.arrived = en.arrived ||| i.f.amask ∧ en'.lanes = en.lanes ∧ en'.rpc = en.rpc
            ∧ en'.parent = en.parent ∧ en'.fmt = en.fmt ∧ en'.wb = en.wb ∧ en'.latch = latch)
      ∧ (en.arrived ||| i.f.amask = en.lanes → (t.group i.gi).splits[e]? = some none
          ∧ ∃ f, (t.group i.gi).frags = dropAt i.g.frags i.fi ++ [f] ∧ Fused f en en.lanes latch))
  ∧ (∀ g s i, CanIssue s g [] [] [] i → i.lanes ≠ 0 → i.g.traced = false → i.f.held = [] → i.g.splits.length = 15 → i.g.state = .resident →
    let rest := i.f.amask &&& ~~~i.lanes
    let fuses (e : Nat) (en : Split) : Prop :=
      i.g.splits[e]? = some (some en) ∧ en.lanes &&& ~~~i.lanes ≠ 0 ∧ en.arrived &&& ~~~i.lanes = en.lanes &&& ~~~i.lanes
    ∃ t f, exec (.exit g) s = .next t ∧ same s t i ∧ (t.group i.gi).exited = i.g.exited ||| i.lanes
      ∧ (∀ e : Nat, i.g.splits[e]? = some none → (t.group i.gi).splits[e]? = some none)
      ∧ (∀ (e : Nat) (en : Split), i.g.splits[e]? = some (some en) → (t.group i.gi).splits[e]? = some (
          if en.lanes &&& ~~~i.lanes = 0 ∨ en.arrived &&& ~~~i.lanes = en.lanes &&& ~~~i.lanes then none
          else some { en with lanes := en.lanes &&& ~~~i.lanes, arrived := en.arrived &&& ~~~i.lanes }))
      ∧ (i.g.exited ||| i.lanes = 0xFFFF → (t.group i.gi).state = .retiring ∧ (t.group i.gi).frags = [])
      ∧ (i.g.exited ||| i.lanes ≠ 0xFFFF → (t.group i.gi).state = .resident
          ∧ (f.pc = i.f.pc + 4 ∧ f.amask = rest ∧ f.fid = i.f.fid ∧ f.wb = i.f.wb ∧ f.fmt = i.f.fmt ∧ f.inner = i.f.inner)
          ∧ let kept := if rest = 0 then dropAt i.g.frags i.fi else setAt i.g.frags i.fi f
            (∀ x ∈ kept, x ∈ (t.group i.gi).frags)
            ∧ (∀ e en, fuses e en → ∃ x ∈ (t.group i.gi).frags, Fused x en (en.lanes &&& ~~~i.lanes) en.latch)
            ∧ ∀ x ∈ (t.group i.gi).frags, x ∈ kept ∨ ∃ e en, fuses e en ∧ Fused x en (en.lanes &&& ~~~i.lanes) en.latch))

/-- R99, R104, R105: a divergent branch whose lanes all go to one place is a jump; else the fragment ends, an entry stands over its lanes with the
reconvergence address, each distinct target has one fragment of the lanes that go there, and no other fragment appears. The lanes that a replay leaves out
go on behind the instruction: log entry 15 (DEDUCED), the model's reading of R355. -/
def Obligations.DivergentBranches : Prop :=
  let Branch (x : Instr) (reads preds : List Nat) (roff : BitVec 26) (tgt : Iss → Nat → Int) : Prop :=
    ∀ s i, CanIssue s false reads [] preds i → i.lanes ≠ 0 → i.g.traced = false → i.f.held = [] → i.f.pc.toNat % 4 = 0 →
      0 ≤ i.f.pc.toNat + 4 * roff.toInt → i.f.pc.toNat + 4 * roff.toInt < 2 ^ 52 →
      (∀ l, i.lanes.has l = true → 0 ≤ tgt i l ∧ tgt i l < 2 ^ 52 ∧ tgt i l % 4 = 0) →
      let whole := i.lanes ||| i.f.amask
      let goes (l : Nat) : Int := if i.lanes.has l = true then tgt i l else (i.f.pc + 8).toNat
      ((∀ l, whole.has l = true → goes l = goes i.lo) →
        ∃ t, exec x s = .next t ∧ Went s t i { i.f with map := none } (BitVec.ofInt 52 (goes i.lo)) i.g.lane i.preds)
      ∧ ((∃ l, whole.has l = true ∧ goes l ≠ goes i.lo) → (∃ e : Nat, i.g.splits[e]? = some none) →
        ∃ (t : State) (e : Nat), exec x s = .next t ∧ i.g.splits[e]? = some none
          ∧ (t.group i.gi).splits[e]? = some (some { rpc := BitVec.ofInt 52 (i.f.pc.toNat + 4 * roff.toInt), lanes := i.f.amask, wb := i.f.wb, fmt := i.f.fmt,
                                                     latch := i.f.latch, sampled := i.f.sampled, parent := i.f.inner, handler := i.f.handler })
          ∧ (∀ k, k ≠ e → (t.group i.gi).splits[k]? = i.g.splits[k]?)
          ∧ (let New (l : Nat) (f : Frag) : Prop := f.pc = BitVec.ofInt 52 (goes l) ∧ f.inner = some e ∧ f.wb = i.f.wb ∧ f.fmt = i.f.fmt ∧ f.latch = i.f.latch
              ∧ ∀ m, f.amask.has m = true ↔ whole.has m = true ∧ goes m = goes l
            (∀ l, whole.has l = true → ∃ f ∈ (t.group i.gi).frags, New l f)
            ∧ (∀ k f, k ≠ i.fi → i.g.frags[k]? = some f → f ∈ (t.group i.gi).frags)
            ∧ (∀ f ∈ (t.group i.gi).frags, (∃ k, k ≠ i.fi ∧ i.g.frags[k]? = some f) ∨ ∃ l, whole.has l = true ∧ New l f)
            ∧ (t.group i.gi).frags.length + 1 = i.g.frags.length + (whole.lanes.map goes).eraseDups.length)
          ∧ (t.group i.gi).regs = i.g.regs ∧ (t.group i.gi).preds = i.g.preds ∧ (∀ k, k ≠ i.gi → t.groups[k]? = s.groups[k]?) ∧ t.mem = s.mem)
  (∀ toff roff, Branch (.brd toff roff) [] [0] roff fun i l => if i.preds 0 l then i.f.pc.toNat + 4 * toff.toInt else i.f.pc.toNat + 8)
  ∧ (∀ a roff, Branch (.brdr a roff) (pairOf a) [] roff fun i l => (i.pair (pairFld a).toNat l).toNat)

/-! ### Tiles and matrix operations (chapter 9) -/

/-- R184: the instructions that configure a tile, one that no transfer and no operation uses and whose stamps are not recorded. That `tzero` and `tfill`
write the data bytes beyond the stored rows too is the model's choice between R184 and R178 (log entry 74, DESIGN CHOICE). -/
def Obligations.TileConfiguration : Prop :=
  let Tile_ (x : Instr) (g : Bool) (d : BitVec 6) (reads : List Nat) (cond : Iss → Prop) (f : Iss → Tile → Tile) : Prop :=
    Does x g reads [] [] (fun _ i => d.toNat < i.g.tiles.length ∧ i.g.tileUsed d.toNat = false ∧ (i.g.tile d.toNat).stamp = none ∧ cond i)
      fun s i => (s.modG i.gi fun g => { g with tiles := modAt g.tiles d.toNat (f i) }).advance i
  let words (i : Iss) (a : Fld) (first : Nat) : BitVec 256 :=
    BitVec.ofNat 256 ((List.range 8).foldr (fun k n => (if i.lanes.has (first + k) then (i.reg a.toNat (first + k)).toNat else 0) + 2 ^ 32 * n) 0)
  (∀ g d a, Tile_ (.tshape g d a) g d [a.toNat] (fun i => shapeOk (i.reg a.toNat i.lo).toNat = true) fun i t =>
    let v := i.reg a.toNat i.lo
    { t with elem := v.extractLsb' 0 4, scale := v.extractLsb' 4 2, rows := v.extractLsb' 8 8, rbytes := v.extractLsb' 16 5, shaped := true, emask := false })
  ∧ (∀ g d, Tile_ (.tzero g d) g d [] (fun _ => True) fun _ t => { t with data := [], scaleArea := [], emask := false, bad := false })
  ∧ (∀ g d a, Tile_ (.tfill g d a) g d [a.toNat] (fun _ => True) fun i t =>
    { t with data := Mem.write [] 0 ((List.replicate 1024 (leBytes 4 (i.reg a.toNat i.lo).toNat)).flatten) })
  ∧ (∀ g d, Tile_ (.tfree g d) g d [] (fun _ => True) fun _ _ => {})
  ∧ (∀ g d a, Tile_ (.tmask g d a) g d [a.toNat] (fun _ => True) fun i t => { t with rowMask := words i a 0, colMask := words i a 8, emask := true })
  ∧ (∀ g d, Tile_ (.tmaskClr g d) g d [] (fun _ => True) fun _ t => { t with emask := false })
  ∧ (∀ g d a s i, CanIssue s g [] (pairOf d) [] i → a.toNat < i.g.tiles.length →
      ∃ t, exec (.tinfo g d a) s = .next t ∧ Wrote s t i 4 (i.after (pairFld d).toNat fun _ => pairWords (tileWord i.g a.toNat)) i.preds)

/-- R185, R186: a stored row or column of a tile goes to registers, lane l of register j holding word 16j + l of the row or element 16j + l of the
column; and back, in the active lanes. -/
def Obligations.TileMoves : Prop :=
  let ok (s : State) (i : Iss) (g : Bool) (reads writes : List Nat) (t : BitVec 6) (fld : Fld) (n x lim : Nat) : Prop :=
    CanIssue s g reads writes [] i ∧ i.lanes ≠ 0 ∧ t.toNat < i.g.tiles.length ∧ (i.g.tile t.toNat).shaped = true ∧ i.g.tileUsed t.toNat = false
      ∧ (i.g.tile t.toNat).owed = none ∧ fld.toNat + n ≤ 128 ∧ x < lim
  (∀ g d a b s i,
    let t := i.g.tile a.toNat
    let r := (i.reg b.toNat i.lo).toNat
    ok s i g [b.toNat] (runOf d.toNat t.rowRegs) a d t.rowRegs r t.height →
      ∃ u, exec (.trow g d a b) s = .next u ∧ Wrote s u i 4 (i.after d.toNat fun l => (List.range t.rowRegs).map fun j =>
        if 64 * j + 4 * l < t.rb then BitVec.ofNat 32 (t.data.le (r * t.rb + 64 * j + 4 * l) 4) else 0) i.preds)
  ∧ (∀ g d a b s i,
    let t := i.g.tile a.toNat
    let c := (i.reg b.toNat i.lo).toNat
    ok s i g [b.toNat] (runOf d.toNat t.colRegs) a d t.colRegs c t.ecount →
      ∃ u, exec (.tcol g d a b) s = .next u ∧ Wrote s u i 4 (i.after d.toNat fun l => (List.range t.colRegs).map fun j =>
        if 16 * j + l < t.height then BitVec.ofNat 32 (t.bits (t.rowNat (16 * j + l)) c) else 0) i.preds)
  ∧ (∀ g d a b s i,
    let t := i.g.tile d.toNat
    let r := (i.reg b.toNat i.lo).toNat
    ok s i g (b.toNat :: runOf a.toNat t.rowRegs) [] d a t.rowRegs r t.height → t.data.wf = true →
      ∃ u data, exec (.twrow g d a b) s = .next u
        ∧ u = (s.modG i.gi fun g => { g with tiles := modAt g.tiles d.toNat fun x => { x with data := data } }).advance i
        ∧ ∀ p, data.get p = if r * t.rb ≤ p ∧ p < r * t.rb + t.rb ∧ i.lanes.has ((p - r * t.rb) % 64 / 4) = true
            then (i.reg (a.toNat + (p - r * t.rb) / 64) ((p - r * t.rb) % 64 / 4)).extractLsb' (8 * ((p - r * t.rb) % 4)) 8 else t.data.get p)
  ∧ (∀ g d a b s i,
    let t := i.g.tile d.toNat
    let c := (i.reg b.toNat i.lo).toNat
    ok s i g (b.toNat :: runOf a.toNat t.colRegs) [] d a t.colRegs c t.ecount →
      let column (x : Tile) : Tile := (List.range t.colRegs).foldl (fun x j => i.lanes.lanes.foldl (fun x l =>
        if 16 * j + l < t.height then x.putElem (16 * j + l) c (i.reg (a.toNat + j) l).toNat else x) x) x
      exec (.twcol g d a b) s = .next ((s.modG i.gi fun g => { g with tiles := modAt g.tiles d.toNat column }).advance i))

/-- R187, R188: a transfer whose chunks all pass their checks is outstanding with the place of each chunk. That nothing has moved at its issue is the
model's choice (log entry 19, DEDUCED). -/
def Obligations.TileTransfersIssue : Prop :=
  let Xfer_ (mk : Bool → BitVec 6 → Instr) (reads : List Nat) (ctlReg : Nat) (space : Space) (store : Bool) (addr : Iss → Nat) : Prop :=
    ∀ g d s i, ∀ place : Int → Nat,
      let t := i.g.tile d.toNat
      let ctl := (i.reg ctlReg i.lo).toNat
      let chunks := xferChunks t space (addr i) ctl
      CanIssue s g reads [] [] i → i.lanes ≠ 0 → Quiet s i → d.toNat < i.g.tiles.length → t.shaped = true → i.g.tileUsed d.toNat = false → t.owed = none →
      t.stamp = none → i.g.optTs = false → ctl / 2 ^ 24 % 2 ^ 7 = 0 → ctl % 16 = 0 → addr i % 16 = 0 →
      (∀ c ∈ chunks, Reaches s i { space := space, size := 16, write := store, pol := 1, kind := if store then .write else .read } c.2 (place c.2)) →
      (space = .glob → Settled s (chunks.map fun c => (place c.2, 16))) →
      ∃ tlb tlb2 walks, exec (mk g d) s = .next ((({ s with tlb := tlb, tlb2 := tlb2, walks := walks } : State).modG i.gi fun x => { x with
        xfers := x.xfers ++ [{ seq := s.seq + 1, fid := i.f.fid, tile := d.toNat, store := store, scl := decide (2 ^ 31 ≤ ctl), space := space,
                               chunks := chunks.map fun c => (c.1, place c.2) }] }).advance i 4 store)
  (∀ a b : Fld, Xfer_ (fun g d => .tlds g d a b) [b.toNat, a.toNat] b.toNat .scratch false fun i => (i.reg a.toNat i.lo).toNat)
  ∧ (∀ a b : Fld, Xfer_ (fun g d => .tsts g d a b) [b.toNat, a.toNat] b.toNat .scratch true fun i => (i.reg a.toNat i.lo).toNat)
  ∧ (∀ (a : BitVec 6) (b : Fld), Xfer_ (fun g d => .tldg g d a b) (b.toNat :: pairOf a) b.toNat .glob false fun i => (i.pair (pairFld a).toNat i.lo).toNat)
  ∧ (∀ (a : BitVec 6) (b : Fld), Xfer_ (fun g d => .tstg g d a b) (b.toNat :: pairOf a) b.toNat .glob true fun i => (i.pair (pairFld a).toNat i.lo).toNat)

/-- R188: when a transfer completes, each byte of its chunks has moved and no other byte of the tile, the scratchpad or memory has changed. -/
def Obligations.TileTransfersMoveTheirBytes : Prop :=
  ∀ gi n s x, gi < s.groups.length → (s.group gi).xfers.find? (fun y => y.seq == n) = some x → x.tracked = false → x.scl = false →
    x.tile < (s.group gi).tiles.length → (s.group gi).block < s.blocks.length →
    s.mem.wf = true → ((s.group gi).tile x.tile).data.wf = true → (s.block (s.group gi).block).sp.wf = true →
    ∃ t, exec (.tileTransferComplete gi n) s = .next t
      ∧ (t.group gi).xfers = (s.group gi).xfers.filter (fun y => y.seq != n)
      ∧ (x.store = false → (∀ c ∈ x.chunks, c.1 % 16 = 0) → (x.chunks.map (·.1)).Nodup →
          t.mem = s.mem ∧ (∀ b, (t.block b).sp = (s.block b).sp)
          ∧ (∀ c ∈ x.chunks, ∀ k, k < 16 → ((t.group gi).tile x.tile).data.get (c.1 + k)
              = match x.space with | .glob => s.mem.get (c.2 + k) | .scratch => (s.block (s.group gi).block).sp.get (c.2 + k))
          ∧ (∀ p, (∀ c ∈ x.chunks, p < c.1 ∨ c.1 + 16 ≤ p) → ((t.group gi).tile x.tile).data.get p = ((s.group gi).tile x.tile).data.get p))
      ∧ (x.store = true → (∀ c ∈ x.chunks, c.2 % 16 = 0) → (x.chunks.map (·.2)).Nodup →
          ((t.group gi).tile x.tile).data = ((s.group gi).tile x.tile).data
          ∧ (x.space = .glob → (∀ c ∈ x.chunks, ∀ k, k < 16 → t.mem.get (c.2 + k) = ((s.group gi).tile x.tile).data.get (c.1 + k))
              ∧ (∀ a, (∀ c ∈ x.chunks, a < c.2 ∨ c.2 + 16 ≤ a) → t.mem.get a = s.mem.get a) ∧ ∀ b, (t.block b).sp = (s.block b).sp)
          ∧ (x.space = .scratch → t.mem = s.mem
              ∧ (∀ c ∈ x.chunks, ∀ k, k < 16 → (t.block (s.group gi).block).sp.get (c.2 + k) = ((s.group gi).tile x.tile).data.get (c.1 + k))
              ∧ ∀ a, (∀ c ∈ x.chunks, a < c.2 ∨ c.2 + 16 ≤ a) → (t.block (s.group gi).block).sp.get a = (s.block (s.group gi).block).sp.get a))

/-- R189 to R194: a matrix operation that passes the checks of R191 joins the open set with its format word, when its tiles are not waited for and
the engine's queue has room. -/
def Obligations.MatrixOperationsIssue : Prop :=
  let Op (mk : Bool → BitVec 6 → BitVec 1 → BitVec 6 → BitVec 1 → BitVec 6 → Instr) (int z : Bool) (sp : Option (BitVec 1 × BitVec 6)) (size : Nat) : Prop :=
    ∀ g d x a y b,
      let op (i : Iss) : MatOp :=
        { seq := i.g.opSeq, dt := d.toNat, af := x ++ a, bf := y ++ b, int := int, z := z, sp := sp.isSome, pat := match sp with | some p => p.1 == 1 | none => false,
          mt := match sp with | some p => p.2.toNat | none => 0, fmt := i.f.fmt }
      let named := [a.toNat, b.toNat, d.toNat] ++ match sp with | some p => [p.2.toNat] | none => []
      Does (mk g d x a y b) g [] [] []
        (fun s i => matFault i.g (op i) = none ∧ i.g.tileUsed d.toNat = false ∧ engineQueue s i.g.core < 64
          ∧ ∀ t ∈ named, i.g.tileWritten t = false ∧ (i.g.tile t).owed = none ∧ (i.g.tile t).stamp = none)
        fun s i => (s.modG i.gi fun g => { g with ops := g.ops ++ [op i], opSeq := g.opSeq + 1, opened := g.opened + 1 }).advance i size true
  Op .mma false false none 4 ∧ Op .mmaZ false true none 4 ∧ Op .mmi true false none 4 ∧ Op .mmiZ true true none 4
  ∧ (∀ p m, Op (fun g d x a y b => .mmas g d x a y b p m) false false (some (p, m)) 8) ∧ (∀ p m, Op (fun g d x a y b => .mmasZ g d x a y b p m) false true (some (p, m)) 8)
  ∧ (∀ p m, Op (fun g d x a y b => .mmis g d x a y b p m) true false (some (p, m)) 8) ∧ (∀ p m, Op (fun g d x a y b => .mmisZ g d x a y b p m) true true (some (p, m)) 8)

/-- R191 to R193, R197: the oldest operation completes: element (m, n) of D is the accumulation of its slices, the operation leaves the open set, and no
other tile, register or byte of memory changes. A slice is the list P of the products of present elements in ascending k, those with a zero left out under
SKIP; in the float class an empty one leaves the accumulator, one of FP32 operands is added product by product, any other is summed exactly and rounded, and
rounded again into the accumulator; a NaN, infinities of both signs in P or a NaN accumulator give 0x7FC00000; in the integer class the sum is taken modulo
2^32. -/
def Obligations.MatrixOperationsComplete : Prop :=
  let products (o : MatOp) (a b : Operand) (m n j : Nat) : List Val :=
    (List.range 32).filterMap fun d =>
      if a.depth ≤ 32 * j + d then none
      else match a.elem m (32 * j + d), b.elem n (32 * j + d) with
        | some x, some y => if o.fmt.getLsbD 13 = true ∧ (x.isZero = true ∨ y.isZero = true) then none else some (x.mul y)
        | _, _ => none
  let ftz (o : MatOp) : Bool := fmtFtz o.fmt
  let plus (o : MatOp) (acc : Nat) (p : Val) : Nat := fp32.arith (ftz o) ((fp32.value acc).add p)
  (∀ (o : MatOp) a b d0 m n, o.element a b d0 0 0 m n = if o.z then 0 else if o.int then d0 else fp32.flush (ftz o) d0)
  ∧ (∀ (o : MatOp) a b d0 j0 j m n, j0 ≤ j →
      let acc := o.element a b d0 j0 j m n
      let p := products o a b m n j
      o.element a b d0 j0 (j + 1) m n =
        if o.int then ((acc + (p.map valInt).sum : Int) % 2 ^ 32).toNat
        else match p with
          | [] => acc
          | x :: xs => if fmtBits o.fmt 3 0 = 0 ∨ fmtBits o.fmt 7 4 = 0 then p.foldl (plus o) acc
                       else plus o acc (fp32.value (fp32.arith (ftz o) (xs.foldl Val.add x))))
  ∧ (∀ (o : MatOp) a b d0 j0 j m n, j0 ≤ j → o.int = false →
      let p := products o a b m n j
      Val.nan ∈ p ∨ (Val.inf false ∈ p ∧ Val.inf true ∈ p) ∨ (p ≠ [] ∧ fp32.value (o.element a b d0 j0 j m n) = .nan) →
      o.element a b d0 j0 (j + 1) m n = 0x7FC00000)
  ∧ ∀ gi s o rest, gi < s.groups.length → (s.group gi).matStopped = false → (s.group gi).ops = o :: rest → o.badTile (s.group gi) = none →
    o.dt < (s.group gi).tiles.length → ((s.group gi).tile o.dt).data.wf = true →
    let g := s.group gi
    let ab := o.operands g
    ∃ t, exec (.matrixOpComplete gi) s = .next t
      ∧ (∀ m n, m < ab.1.outer → n < ab.2.outer →
          ((t.group gi).tile o.dt).data.le (4 * (m * ab.2.outer + n)) 4
            = o.element ab.1 ab.2 ((g.tile o.dt).data.le (4 * (m * ab.2.outer + n)) 4) o.nextj (o.slices g) m n % 2 ^ 32)
      ∧ (∀ k, k ≠ o.dt → ((t.group gi).tile k).data = (g.tile k).data)
      ∧ (t.group gi).ops = rest ∧ (t.group gi).closed = settleBatches g.closed rest ∧ (t.group gi).matDone = g.matDone + 1
      ∧ (t.group gi).regs = g.regs ∧ (∀ k, k ≠ gi → t.groups[k]? = s.groups[k]?) ∧ t.mem = s.mem

/-- R197, R198, R225: batches. A batch closed with nothing outstanding returns at once; `wbatch` on a batch that has returned is an acquire. -/
def Obligations.MatrixBatches : Prop :=
  (∀ g d, Does (.mbclose g d) g [] [d.toNat] [] (fun _ i => i.g.closed.length < 16) fun s i =>
    let n := i.g.nextBatch
    let ops := i.g.ops.map fun o => if o.batch = none then { o with batch := some n.toNat } else o
    ((s.modG i.gi fun g => { g with
      ops := ops, opened := 0, nextBatch := n + 1, closed := settleBatches (g.closed ++ [n]) ops, openErr := [],
      batchErr := (g.batchErr.filter fun e => e.1 != n) ++ g.openErr.map fun t => (n, t) }).putReg i d.toNat fun _ => n.setWidth 32).advance i)
  ∧ (∀ g d, PutsRegs (.mbstat g d) g [] d.toNat 1 [] 4 fun i _ =>
      [BitVec.ofNat 32 (i.g.nextBatch.toNat * 2 ^ 24 + capAt i.g.opened 255 * 2 ^ 16 + i.g.closed.foldl (fun n b => Nat.lor n (2 ^ b.toNat)) 0)])
  ∧ (∀ g a s i, CanIssue s g [a.toNat] [] [] i → i.lanes ≠ 0 →
      let b : BitVec 4 := (i.reg a.toNat i.lo).truncate 4
      b ∉ i.g.closed → (∀ e ∈ i.g.batchErr, e.1 ≠ b) →
      let y : Group := { i.g with acquired := s.fillNo }
      ∃ t, exec (.wbatch g a) s = .next t
        ∧ Went (s.modG i.gi fun _ => y) t { i with g := y } { i.f with acquired := s.fillNo, caps := [] } (i.f.pc + 4) i.g.lane i.preds)

/-! ### Memory (chapters 10 and 11) -/

/-- R211, R213, R218: a load is outstanding with the words that memory or the scratchpad holds at its lanes' places, sign- or zero-extended; the broadcast
form reads once, for the lowest active lane. No byte of memory changes. The L1 may fill, and its copies agree with memory here. That the words are
those of the issue is the model's choice (log entry 19, DEDUCED). -/
def Obligations.LoadsReadMemory : Prop :=
  let Load (x : Instr) (g : Bool) (space : Space) (z pol size d : Nat) (areg : List Nat) (ea : Iss → Nat → Int) : Prop :=
    ∀ s i, ∀ place : Nat → Nat,
      let src (l : Nat) : Nat := if z = 7 then i.lo else l
      let path : Path := if space = .glob then .gm else .sp
      let val (l : Nat) : Nat := match space with
        | .glob => s.mem.le (place (src l)) (ldSize z)
        | .scratch => (s.blockOf i.g).sp.le (place (src l)) (ldSize z)
      CanIssue s g areg (runOf d (ldCount z)) [] i → i.lanes ≠ 0 → Quiet s i → i.g.count path < 63 →
      (∀ l, i.lanes.has l = true → Reaches s i { space := space, size := ldSize z, pol := pol } (ea i (src l)) (place (src l))) →
      (∀ x ∈ s.l1, x.core = i.g.core → x.bad = false ∧ x.bytes = s.mem.read (x.line * 64) 64) →
      (space = .glob → Settled s (i.lanes.lanes.map fun l => (place (src l), ldSize z))) →
      ∃ tlb tlb2 walks l1 l2 fills misses, exec x s = .next ((({ s with
        tlb := tlb, tlb2 := tlb2, walks := walks, l1 := l1, l2 := l2, fillNo := fills } : State).modG i.gi fun y => { y with
        misses := misses,
        outst := y.outst ++ [{ path := path, seq := s.seq + 1, fid := i.f.fid,
                               writes := i.lanes.lanes.flatMap fun l => laneWrites i d l (ldCount z) (ldExtend z (val l)) }] }).advance i size)
  let G (mk : Bool → Fld → BitVec 6 → Fld → Instr) (z : Nat) : Prop :=
    ∀ g d a o, Load (mk g d a o) g .glob z 0 4 d.toNat (pairOf a) (gEa a (o.toInt * ldSize z))
  let S (mk : Bool → Fld → Fld → Fld → Instr) (z : Nat) : Prop :=
    ∀ g d a o, Load (mk g d a o) g .scratch z 0 4 d.toNat [a.toNat] (sEa a (o.toInt * ldSize z))
  G .ldI8 0 ∧ G .ldZ8 1 ∧ G .ldI16 2 ∧ G .ldZ16 3 ∧ G .ld32 4 ∧ G .ldB 7
  ∧ (∀ g d a o, Load (.ld64 g d a o) g .glob 5 0 4 (pairFld d).toNat (pairOf a) (gEa a (o.toInt * 8)))
  ∧ (∀ g d a o, Load (.ld128 g d a o) g .glob 6 0 4 (quadFld d).toNat (pairOf a) (gEa a (o.toInt * 16)))
  ∧ S .ldsI8 0 ∧ S .ldsZ8 1 ∧ S .ldsI16 2 ∧ S .ldsZ16 3 ∧ S .lds32 4 ∧ S .ldsB 7
  ∧ (∀ g d a o, Load (.lds64 g d a o) g .scratch 5 0 4 (pairFld d).toNat [a.toNat] (sEa a (o.toInt * 8)))
  ∧ (∀ g d a o, Load (.lds128 g d a o) g .scratch 6 0 4 (quadFld d).toNat [a.toNat] (sEa a (o.toInt * 16)))
  ∧ (∀ g d a l c (z : BitVec 3) o, Load (.ldx g d a l c z o) g .glob z.toNat c.toNat 8 d.toNat (pairOf a) (gEa a o.toInt))
  ∧ (∀ g d a (z : BitVec 3) o, Load (.ldsx g d a z o) g .scratch z.toNat 0 8 d.toNat [a.toNat] (sEa a o.toInt))

/-- R211, R212, R218: a global store leaves the core with the registers' words and the place of each lane, and memory is as before until it performs;
a scratchpad store writes the lanes' bytes in ascending order, a sub-byte store the one element of its byte, and no other byte. -/
def Obligations.StoresCarryTheirBytes : Prop :=
  let form (space : Space) (z pol : Nat) : MemForm :=
    { space := space, size := stSize z, write := true, sub := stSub z, pol := pol, kind := if stSub z = 0 then .write else .atomic }
  let Glob (x : Instr) (g : Bool) (z pol size d : Nat) (areg : List Nat) (ea : Iss → Nat → Int) : Prop :=
    ∀ s i, ∀ place : Nat → Nat, CanIssue s g (areg ++ runOf d (stCount z)) [] [] i → i.lanes ≠ 0 → i.g.xfersOf i.f = [] →
      (∀ l, i.lanes.has l = true → Reaches s i (form .glob z pol) (ea i l) (place l)) →
      ∃ tlb tlb2 walks, ∃ pol' lcls : Nat → Nat, exec x s = .next (({ s with
        tlb := tlb, tlb2 := tlb2, walks := walks,
        unperf := s.unperf ++ [{
          gi := i.gi, fid := i.f.fid, seq := s.seq + 1, before := i.f.before, cls := .plain, scope := 2, core := i.g.core,
          pasid := s.pasidOf i.g, know := i.g.know, id := i.g.id, btag := (s.blockOf i.g).btag, pc := i.f.pc, rel := i.f.relVec, clk := i.g.clk,
          acc := i.lanes.lanes.map fun l =>
            { pol := pol' l, lcls := lcls l, lane := l, va := ((form .glob z pol).byteOf (ea i l)).toNat, pa := place l, size := stSize z, op := if stSub z = 2 then .st2 else .st4,
              plain := stSub z = 0, val := BitVec.ofNat 128 (runNat i d (stCount z) l), cmp := BitVec.ofInt 128 (ea i l % 2 ^ stSub z) } }] } : State).advance i size true)
  let Scratch (x : Instr) (g : Bool) (z size d : Nat) (areg : List Nat) (ea : Iss → Nat → Int) : Prop :=
    ∀ s i, ∀ place : Nat → Nat, CanIssue s g (areg ++ runOf d (stCount z)) [] [] i → i.lanes ≠ 0 → i.g.xfersOf i.f = [] → i.g.count .sp < 63 →
      (∀ l, i.lanes.has l = true → Reaches s i (form .scratch z 0) (ea i l) (place l)) →
      let put (m : Mem) (l : Nat) : Mem :=
        let v := runNat i d (stCount z) l
        let b := m.le (place l) 1
        let w := if stSub z = 1 then 16 else 4
        let k := (ea i l % 2 ^ stSub z).toNat
        m.write (place l) (leBytes (stSize z) (if stSub z = 0 then v else b - b / w ^ k % w * w ^ k + v % w * w ^ k))
      (exec x s = .next (((s.modB i.g.block fun b => { b with sp := i.lanes.lanes.foldl put b.sp }).modG i.gi fun y => { y with
        outst := y.outst ++ [{ path := .sp, seq := s.seq + 1, fid := i.f.fid }] }).advance i size true))
      ∧ ∀ m a, m.wf = true → (∀ l, i.lanes.has l = true → a < place l ∨ place l + stSize z ≤ a) → (i.lanes.lanes.foldl put m).get a = m.get a
  let G (mk : Bool → Fld → BitVec 6 → Fld → Instr) (z : Nat) (unit : Int) : Prop := ∀ g d a o, Glob (mk g d a o) g z 0 4 d.toNat (pairOf a) (gEa a (o.toInt * unit))
  let S (mk : Bool → Fld → Fld → Fld → Instr) (z : Nat) (unit : Int) : Prop := ∀ g d a o, Scratch (mk g d a o) g z 4 d.toNat [a.toNat] (sEa a (o.toInt * unit))
  G .st8 0 1 ∧ G .st16 1 2 ∧ G .st32 2 4 ∧ G .stN4 5 1 ∧ G .stN2 6 1
  ∧ (∀ g d a o, Glob (.st64 g d a o) g 3 0 4 (pairFld d).toNat (pairOf a) (gEa a (o.toInt * 8)))
  ∧ (∀ g d a o, Glob (.st128 g d a o) g 4 0 4 (quadFld d).toNat (pairOf a) (gEa a (o.toInt * 16)))
  ∧ S .sts8 0 1 ∧ S .sts16 1 2 ∧ S .sts32 2 4 ∧ S .stsN4 5 1 ∧ S .stsN2 6 1
  ∧ (∀ g d a o, Scratch (.sts64 g d a o) g 3 4 (pairFld d).toNat [a.toNat] (sEa a (o.toInt * 8)))
  ∧ (∀ g d a o, Scratch (.sts128 g d a o) g 4 4 (quadFld d).toNat [a.toNat] (sEa a (o.toInt * 16)))
  ∧ (∀ g d a l c (z : BitVec 3) o, Glob (.stx g d a l c z o) g z.toNat c.toNat 8 d.toNat (pairOf a) (gEa a o.toInt))
  ∧ (∀ g d a (z : BitVec 3) o, Scratch (.stsx g d a z o) g z.toNat 8 d.toNat [a.toNat] (sEa a o.toInt))

/-- R94, R211, R271: one update of a store or reduction performs whole, the lowest lane's first at its address; the update's bytes are what the store or
the operation on their value gives, every other byte of memory, every group, every block and every other store is as before, and the rest of the
instruction's updates wait (updates of other instructions may fall between). Which address comes first is the model's free value (log entries 7 and 19). -/
def Obligations.StoresPerform : Prop :=
  ∀ n s e, s.unperf[n]? = some e → e.acc ≠ [] → canPerform s e = true → s.hostLines = [] → s.memBad = [] → s.mem.wf = true →
    (∀ x ∈ e.acc, x.tracked = false) →
    ∃ t x, exec (.accessPerformed n) s = .next t ∧ x ∈ e.acc ∧ e.acc.find? (fun y => y.pa == x.pa) = some x
      ∧ t.mem = s.mem.write x.pa (leBytes x.size (if x.plain then x.val.toNat else atomApply x.op (s.mem.le x.pa x.size) x.val.toNat x.cmp.toNat))
      ∧ (∀ a, (a < x.pa ∨ x.pa + x.size ≤ a) → t.mem.get a = s.mem.get a)
      ∧ t.unperf = (if e.acc.erase x = [] then dropAt s.unperf n else setAt s.unperf n { e with acc := e.acc.erase x })
      ∧ t.groups = s.groups ∧ t.blocks = s.blocks

/-- R51, R94, R214, R220, R267: results reach the registers and predicates they are owed to when they return, and nothing else of the group's registers
changes; a check that returns lets the instruction be issued again; `icinv` removes its lines from the caches of its cores. -/
def Obligations.ResultsReturn : Prop :=
  let Returns (x : Nat → Nat → Instr) (ok : Outst → Bool) : Prop :=
    ∀ gi n s o, gi < s.groups.length → (s.group gi).state = .resident → (s.group gi).outst.find? (fun o => o.seq == n && !o.returned && ok o) = some o →
      let g := s.group gi
      ∃ t, exec (x gi n) s = .next t
        ∧ (∀ p l, p < g.regs.length → l < 16 →
            (t.group gi).lane p l = ((o.writes.reverse.find? fun w => w.reg == p && w.lane == l).map (·.val)).getD (g.lane p l))
        ∧ (∀ p l, p < 8 → l < 16 → ((t.group gi).pred p).has l = ((o.preds.reverse.find? fun w => w.1 == p && w.2.1 == l).map (·.2.2)).getD ((g.pred p).has l))
        ∧ (t.group gi).regs.length = g.regs.length ∧ (∀ k, k ≠ gi → t.groups[k]? = s.groups[k]?) ∧ t.mem = s.mem ∧ t.unperf = s.unperf
  Returns .loadReturn (fun o => o.path == .gm || o.path == .sp) ∧ Returns .atomicReturn (fun o => o.path == .at)
  ∧ (∀ gi n s o cores lines, gi < s.groups.length → (s.group gi).outst.find? (fun o => o.seq == n && o.path == .cf && !o.returned) = some o → o.act = .icinv cores lines →
      ∃ t, exec (.completionPathReturn gi n) s = .next t
        ∧ t.icache = s.icache.filter (fun x => !(x.pasid == s.pasidOf (s.group gi) && cores.contains x.core && lines.contains x.line)) ∧ t.mem = s.mem)
  ∧ (∀ gi s c, (s.group gi).check = some c → c.passed = false →
      exec (.accessCheckReturn gi) s = .next (s.modG gi fun g => { g with
        check := some { c with passed := true }, frags := g.frags.map fun f => if f.fid = c.fid ∧ f.stall = some .checks then { f with stall := none } else f }))

/-- R237, R242 to R245: `ld.acq` reads memory past the L1; `st.rel` is ordered behind everything earlier and carries the group's vector and clock, which
then ticks; a fence waits until everything earlier has performed, retires L1 fills as an acquire and captures vector and clock as a release. That `ld.acq`
owes the words of its issue is the model's choice (log entry 19, DEDUCED). -/
def Obligations.OrderedAccessesAndFences : Prop :=
  let same (s t : State) (i : Iss) : Prop :=
    (t.group i.gi).regs = i.g.regs ∧ (t.group i.gi).preds = i.g.preds ∧ ((t.group i.gi).frag i.fi).pc = i.f.pc + 4
      ∧ (∀ k, k ≠ i.gi → t.groups[k]? = s.groups[k]?) ∧ t.mem = s.mem
  let ticked (c : BitVec 24) : BitVec 24 := if c = 0xFFFFFF then c else c + 1
  let Acq (x : Instr) (g : Bool) (z d : Nat) (a : BitVec 6) (sc : BitVec 2) : Prop :=
    ∀ s i, ∀ place : Nat → Nat, CanIssue s g (pairOf a) (runOf d (ldCount z)) [] i → i.lanes ≠ 0 → Quiet s i → i.g.count .gm < 63 →
      (∀ l, i.lanes.has l = true → Reaches s i { size := ldSize z, pol := 1 } (gEa a 0 i l) (place l)) → Settled s (i.lanes.lanes.map fun l => (place l, ldSize z)) →
      ∃ t, exec x s = .next t ∧ same s t i ∧ t.unperf = s.unperf
        ∧ (sc ≠ 0 → ((t.group i.gi).frag i.fi).acquired = t.fillNo) ∧ (t.group i.gi).clk = i.g.clk
        ∧ (t.group i.gi).outst = i.g.outst ++ [{
            path := .gm, seq := s.seq + 1, fid := i.f.fid,
            writes := i.lanes.lanes.flatMap fun l => laneWrites i d l (ldCount z) (s.mem.le (place l) (ldSize z)) }]
  let Rel (x : Instr) (g : Bool) (z d : Nat) (a : BitVec 6) (sc : BitVec 2) : Prop :=
    ∀ s i, ∀ place : Nat → Nat, CanIssue s g (pairOf a ++ runOf d (stCount z)) [] [] i → i.lanes ≠ 0 → i.g.xfersOf i.f = [] →
      (∀ l, i.lanes.has l = true → Reaches s i { size := stSize z, write := true, pol := 1, kind := .write } (gEa a 0 i l) (place l)) →
      ∃ t, ∃ lcls : Nat → Nat, exec x s = .next t ∧ same s t i ∧ (t.group i.gi).clk = ticked i.g.clk ∧ (i.g.block < s.blocks.length → (t.block i.g.block).committed = true)
        ∧ t.unperf = s.unperf ++ [{
            gi := i.gi, fid := i.f.fid, seq := s.seq + 1, before := i.f.before, ordered := true, cls := .strong, scope := sc, core := i.g.core,
            pasid := s.pasidOf i.g, know := i.g.know, id := i.g.id, btag := (s.blockOf i.g).btag, pc := i.f.pc, clk := i.g.clk,
            rel := some (i.g.know, i.g.clk, sc),
            acc := i.lanes.lanes.map fun l => { pol := 1, lcls := lcls l, lane := l, va := (gEa a 0 i l).toNat, pa := place l, size := stSize z, op := .st4,
                                                val := BitVec.ofNat 128 (runNat i d (stCount z) l) } }]
  let Fence (mk : Bool → BitVec 2 → Instr) (acq rel : Bool) : Prop :=
    ∀ g sc s i, CanIssue s g [] [] [] i → i.lanes ≠ 0 → Quiet s i →
      ∃ t, exec (mk g sc) s = .next t ∧ same s t i
        ∧ (acq = true → ((t.group i.gi).frag i.fi).caps = [] ∧ (sc ≠ 0 → ((t.group i.gi).frag i.fi).acquired = s.fillNo))
        ∧ (acq = false → ((t.group i.gi).frag i.fi).acquired = i.f.acquired)
        ∧ (rel = true → (t.group i.gi).clk = ticked i.g.clk ∧ ∃ k, ((t.group i.gi).frag i.fi).relVec = some (k, i.g.clk, sc) ∧ (acq = false → k = i.g.know))
        ∧ (rel = false → (t.group i.gi).clk = i.g.clk ∧ ((t.group i.gi).frag i.fi).relVec = i.f.relVec)
  (∀ g d a sc, Acq (.ldAcq32 g d a sc) g 4 d.toNat a sc) ∧ (∀ g d a sc, Acq (.ldAcq64 g d a sc) g 5 (pairFld d).toNat a sc)
  ∧ (∀ g d a sc, Rel (.stRel32 g d a sc) g 2 d.toNat a sc) ∧ (∀ g d a sc, Rel (.stRel64 g d a sc) g 3 (pairFld d).toNat a sc)
  ∧ Fence .fenceAcq true false ∧ Fence .fenceRel false true ∧ Fence .fenceAr true true ∧ Fence .fenceSc true true

/-- R219 to R222: cache instructions change which copies the caches hold and no value of memory. -/
def Obligations.CacheControl : Prop :=
  let lineOf (s : State) (i : Iss) (a : BitVec 6) (l : Nat) (x : L1Line) : Prop :=
    ∃ y, xlate s i.g.core (s.pasidOf i.g) (gEa a 0 i l).toNat = .ok y ∧ x.line = (y.page + (gEa a 0 i l).toNat % 4096) / 64
  let Drops (mk : Bool → BitVec 6 → Instr) : Prop :=
    ∀ g a s i, CanIssue s g (pairOf a) [] [] i →
      ∃ l1 l2, exec (mk g a) s = .next (({ s with l1 := l1, l2 := l2 } : State).advance i) ∧ (∀ x ∈ l1, x ∈ s.l1) ∧ l2.map (·.line) = s.l2.map (·.line)
        ∧ ∀ x ∈ l1, ∀ l, i.lanes.has l = true → (gEa a 0 i l).toNat < 2 ^ 52 → x.core = i.g.core → ¬ lineOf s i a l x
  (∀ g a o s i, CanIssue s g (pairOf a) [] [] i → ∃ l1 l2 fills, exec (.pf g a o) s = .next (({ s with l1 := l1, l2 := l2, fillNo := fills } : State).advance i))
  ∧ (∀ g a o s i, CanIssue s g (pairOf a) [] [] i → ∃ l2, exec (.pf2 g a o) s = .next (({ s with l2 := l2 } : State).advance i))
  ∧ Drops .l1inv ∧ Drops .evict
  ∧ (∀ g, Does (.l1invAll g) g [] [] [] (fun _ _ => True) fun s i => ({ s with l1 := s.l1.filter fun x => x.core != i.g.core } : State).advance i)
  ∧ (∀ g a sc, Does (.icinv g a sc) g (pairOf a) [] [] (fun _ i => i.g.count .cf < 63) fun s i =>
      let cores := if sc = 0 then [i.g.core] else if sc = 1 then (s.blockOf i.g).cores else List.range 64
      let lines := i.lanes.lanes.map fun l => (gEa a 0 i l).toNat / 64
      ((s.modG i.gi fun y => { y with outst := y.outst ++ [{ path := .cf, seq := s.seq + 1, fid := i.f.fid, act := .icinv cores lines }] }).advance i).modF i.gi i.fi
        fun f => { f with stall := some (.done (s.seq + 1)) })
  ∧ (∀ g d a, Does (.l2part g d a) g [a.toNat] [d.toNat] []
      (fun s i => i.f.handler = some .system ∧ (i.reg a.toNat i.lo).toNat < 2 ^ 16
        ∧ ∀ c ∈ s.ctxs, c.alive = true → c.pasid ≠ s.pasidOf i.g → (i.reg a.toNat i.lo).truncate 16 &&& c.pinWays = 0)
      fun s i => ((s.modC (s.pasidOf i.g) fun c => { c with ways := (i.reg a.toNat i.lo).truncate 16 }).putReg i d.toNat fun _ =>
        ((s.ctx (s.pasidOf i.g)).ways).setWidth 32).advance i)

/-- R223 to R229, R258 to R263: waits whose condition holds go on: a counter is low enough; a future has left PENDING, unclaimed by another wait and with no
error to deliver; a subtree has ended. And the race instructions. -/
def Obligations.WaitsAndRaceInstructions : Prop :=
  let void (i : Iss) (k : Nat) : Nat := if (i.g.fut k).st = .void then 1 else 0
  let done (i : Iss) (k : Nat) : Prop := ((i.g.fut k).st = .ready ∨ (i.g.fut k).st = .void) ∧ (i.g.fut k).err = none
  let Takes (s : State) (x : Instr) (i : Iss) (d k v : Nat) : Prop :=
    ∃ t, exec x s = .next t ∧ (t.group i.gi).futures = setAt i.g.futures k {} ∧ (t.group i.gi).know = (i.g.fut k).vecs.foldl KVec.merge i.g.know
      ∧ (∀ p l, p < i.N → l < 16 → (t.group i.gi).lane p l = i.after d (fun _ => [BitVec.ofNat 32 v]) p l) ∧ ((t.group i.gi).frag i.fi).pc = i.f.pc + 4
      ∧ (t.group i.gi).preds = i.g.preds ∧ t.mem = s.mem ∧ ∀ k, k ≠ i.gi → t.groups[k]? = s.groups[k]?
  (∀ g a (p : BitVec 2) s i, CanIssue s g [a.toNat] [] [] i → i.lanes ≠ 0 →
      let path : Path := if p = 0 then .gm else if p = 1 then .sp else if p = 2 then .at else .cf
      i.g.count path ≤ (i.reg a.toNat i.lo).toNat → i.g.count path ≤ 63 →
      ∃ t, exec (.wpath g a p) s = .next t
        ∧ Went s t i { i.f with acquired := if i.f.acquired ≤ i.g.acquired then i.g.acquired else i.f.acquired, caps := [] } (i.f.pc + 4) i.g.lane i.preds)
  ∧ (∀ g d (k : BitVec 5) s i, CanIssue s g [] [d.toNat] [] i → i.lanes ≠ 0 → claimed i k.toNat = false → done i k.toNat →
      Takes s (.wfut g d k) i d.toNat k.toNat (void i k.toNat) ∧ Takes s (.fpoll g d k) i d.toNat k.toNat (void i k.toNat))
  ∧ (∀ g d (k : BitVec 5) s i, CanIssue s g [] [d.toNat] [] i → i.lanes ≠ 0 → (i.g.fut k.toNat).st = .pending →
      exec (.fpoll g d k) s = .next ((s.putReg i d.toNat fun _ => 2).advance i))
  ∧ (∀ g d a s i k, CanIssue s g [a.toNat] [d.toNat] [] i → i.lanes ≠ 0 →
      let m := i.reg a.toNat i.lo
      k < 32 → m.getLsbD k = true → (∀ j, j < k → m.getLsbD j = true → (i.g.fut j).st = .pending) → done i k →
      (∀ j, j < 32 → m.getLsbD j = true → claimed i j = false ∧ (i.g.fut j).st ≠ .free) → Takes s (.wany g d a) i d.toNat k (k + 256 * void i k))
  ∧ (∀ g d a s i, CanIssue s g [a.toNat] [d.toNat] [] i → i.lanes ≠ 0 → i.f.stall = none →
      let h := i.reg a.toNat i.lo
      s.treeNamed (s.pasidOf i.g) h = true → (s.tree (hIndex h)).ended = true →
      ∃ t, exec (.wtree g d a) s = .next t ∧ (t.group i.gi).know = i.g.know.merge (s.tree (hIndex h)).know ∧ ((t.group i.gi).frag i.fi).pc = i.f.pc + 4
        ∧ (∀ p l, p < i.N → l < 16 → (t.group i.gi).lane p l = i.after d.toNat (fun _ => [if (s.tree (hIndex h)).st = .cancelled then 1 else 0]) p l)
        ∧ t.trees = s.trees ∧ t.mem = s.mem)
  ∧ (∀ g, Does (.rtick g) g [] [] [] (fun _ _ => True) fun s i => (s.modG i.gi fun y =>
      let c := if y.clk = 0xFFFFFF then y.clk else y.clk + 1
      { y with clk := c, know := y.know.raise (slotHash y.id) c }).advance i)
  ∧ (∀ g (m : BitVec 2), m ≠ 3 → Does (.rmode g m) g [] [] [] (fun s i => i.f.handler = some .system ∨ (s.ctxOf i.g).raceGrant.getLsbD m.toNat = true) fun s i =>
      (s.modG i.gi fun y => { y with race := if m = 0 then .off else if m = 1 then .trap else .report }).advance i)
  ∧ (∀ g d, Does (.rnext g d) g [] [d.toNat] [] (fun _ i => i.g.count .cf < 63) fun s i =>
      (s.modG i.gi fun y => { y with outst := y.outst ++ [{ path := .cf, seq := s.seq + 1, fid := i.f.fid, act := .rnext (i.phys d.toNat) i.lanes }] }).advance i)
  ∧ (∀ g a b, Does (.rclr g a b) g (pairOf a ++ [b.toNat]) [] [] (fun s i => i.g.count .cf < 63 ∧ Quiet s i) fun s i =>
      let rs := i.lanes.lanes.map fun l => ((i.pair (pairFld a).toNat l).toNat, (i.reg b.toNat l).toNat)
      ((s.modG i.gi fun y => { y with outst := y.outst ++ [{ path := .cf, seq := s.seq + 1, fid := i.f.fid, act := .rclr rs }] }).advance i).modF i.gi i.fi
        fun f => { f with stall := some (.done (s.seq + 1)) })

/-! ### Atomics, barriers, waits on memory words (chapter 12) -/

/-- R264 to R270, Tables 12-1 to 12-3: a returning atomic updates its lanes' words one after another, each lane seeing what the one before left; the old
values are owed to D on path `at`. Nothing else of memory or the scratchpad changes. -/
def Obligations.AtomicsUpdateInLaneOrder : Prop :=
  let Atom (x : Instr) (g : Bool) (areg dreg creg : List Nat) (d c n : Nat) (space : Space) (size : Nat) (ea : Iss → Nat → Int) (f : Nat → Nat → Nat → Nat) : Prop :=
    ∀ s i, ∀ place : Nat → Nat, CanIssue s g (areg ++ dreg ++ creg) dreg [] i → i.lanes ≠ 0 → Quiet s i → i.g.count .at < 63 →
      (∀ l, i.lanes.has l = true → Reaches s i { space := space, size := 4 * n, write := true, pol := 1, kind := .atomic } (ea i l) (place l)) →
      (space = .glob → Settled s (i.lanes.lanes.map fun l => (place l, 4 * n))) →
      let run (m : Mem) : Mem × List RegWrite := i.lanes.lanes.foldl (fun r l =>
        let old := r.1.le (place l) (4 * n)
        (r.1.write (place l) (leBytes (4 * n) (f old (runNat i d n l) (runNat i c n l))), r.2 ++ laneWrites i d l n old)) (m, [])
      ∃ t, exec x s = .next t
        ∧ (match space with
          | .glob => t.mem = (run s.mem).1 ∧ (∀ b, (t.block b).sp = (s.block b).sp)
              ∧ (t.group i.gi).outst = i.g.outst ++ [{ path := .at, seq := s.seq + 1, fid := i.f.fid, writes := (run s.mem).2 }]
          | .scratch => t.mem = s.mem ∧ (i.g.block < s.blocks.length → (t.block i.g.block).sp = (run (s.blockOf i.g).sp).1
              ∧ (t.group i.gi).outst = i.g.outst ++ [{ path := .at, seq := s.seq + 1, fid := i.f.fid, writes := (run (s.blockOf i.g).sp).2 }]))
        ∧ (s.mem.wf = true → ∀ a, (∀ l, i.lanes.has l = true → a < place l ∨ place l + 4 * n ≤ a) → t.mem.get a = s.mem.get a)
        ∧ (t.group i.gi).regs = i.g.regs ∧ (t.group i.gi).preds = i.g.preds ∧ ((t.group i.gi).frag i.fi).pc = i.f.pc + BitVec.ofNat 52 size
        ∧ t.unperf = s.unperf ∧ ∀ k, k ≠ i.gi → t.groups[k]? = s.groups[k]?
  let W (mk : Bool → Fld → BitVec 6 → BitVec 2 → BitVec 2 → Instr) (f : Nat → Nat → Nat) : Prop :=
    ∀ g d a o sc, Atom (mk g d a o sc) g (pairOf a) [d.toNat] [] d.toNat d.toNat 1 .glob 4 (gEa a 0) fun m v _ => f m v
  let Both (x : BitVec 1 → Instr) (g : Bool) (d c n : Nat) (creg : List Nat) (a : Fld) (f : Nat → Nat → Nat → Nat) : Prop :=
    Atom (x 1) g [a.toNat] (runOf d n) creg d c n .scratch 8 (sEa a 0) f ∧ Atom (x 0) g [a.toNat, a.toNat + 1] (runOf d n) creg d c n .glob 8 (gEa (a.extractLsb' 1 6) 0) f
  let P (mk : Bool → BitVec 6 → Fld → BitVec 2 → BitVec 2 → BitVec 1 → Instr) (f : Nat → Nat → Nat) : Prop :=
    ∀ g d a o sc, Both (mk g d a o sc) g (pairFld d).toNat (pairFld d).toNat 2 [] a fun m v _ => f m v
  let i32 (x : Nat) : Int := (BitVec.ofNat 32 x).toInt
  let i64 (x : Nat) : Int := (BitVec.ofNat 64 x).toInt
  let halves (f : Nat → Nat → Nat) (m v : Nat) : Nat := f (m % 65536) (v % 65536) + 65536 * f (m / 65536 % 65536) (v / 65536 % 65536)
  W .aadd (fun m v => (m + v) % 2 ^ 32) ∧ W .aaddF32 (fp32.addOp false) ∧ W .aaddBf16x2 (halves (bf16.addOp false)) ∧ W .aaddF16x2 (halves (fp16.addOp false))
  ∧ W .aminI (fun m v => if i32 v < i32 m then v else m) ∧ W .amaxI (fun m v => if i32 m < i32 v then v else m)
  ∧ W .aminZ (fun m v => if v < m then v else m) ∧ W .amaxZ (fun m v => if m < v then v else m)
  ∧ W .aand Nat.land ∧ W .aor Nat.lor ∧ W .axor Nat.xor ∧ W .axch (fun _ v => v)
  ∧ W .ainc (fun m v => if v ≤ m then 0 else m + 1) ∧ W .adec (fun m v => if m = 0 ∨ v < m then v else m - 1)
  ∧ W .aminF32 (fp32.minnOp false) ∧ W .amaxF32 (fp32.maxnOp false)
  ∧ P .aadd64 (fun m v => (m + v) % 2 ^ 64) ∧ P .aminI64 (fun m v => if i64 v < i64 m then v else m) ∧ P .amaxI64 (fun m v => if i64 m < i64 v then v else m)
  ∧ P .aminZ64 (fun m v => if v < m then v else m) ∧ P .amaxZ64 (fun m v => if m < v then v else m) ∧ P .axch64 (fun _ v => v)
  ∧ (∀ g d a o sc c, Both (fun p => .acas g d a o sc p c) g d.toNat c.toNat 1 [c.toNat] a fun m v c => if m = v then c else m)
  ∧ (∀ g d a o sc c, Both (fun p => .acas64 g d a o sc p c) g (pairFld d).toNat (pairFld c).toNat 2 (pairOf c) a fun m v c => if m = v then c else m)
  ∧ (∀ g d a o sc c, Both (fun p => .acas128 g d a o sc p c) g (quadFld d).toNat (quadFld c).toNat 4 (runOf (quadFld c).toNat 4) a fun m v c => if m = v then c else m)
  ∧ (∀ g d a o sc, Both (fun p => .amaxp g d a o sc p) g (quadFld d).toNat (quadFld d).toNat 4 [] a fun m v _ => if i64 (m % 2 ^ 64) < i64 (v % 2 ^ 64) then v else m)

/-- R271 to R273: a reduction leaves the core without a result: one update a lane, for a packed pair one a half; a release carries the group's vector and
clock and performs behind everything earlier. Memory is as before until it performs. -/
def Obligations.ReductionsLeaveTheCore : Prop :=
  let Red (x : Instr) (g : Bool) (d n : Nat) (a : BitVec 6) (o : BitVec 1) (sc : BitVec 2) (op : AtomOp) (parts : List (Nat → Nat → Nat → LaneAcc)) : Prop :=
    ∀ s i, ∀ place : Nat → Nat, CanIssue s g (pairOf a ++ runOf d n) [] [] i → i.lanes ≠ 0 → i.g.xfersOf i.f = [] →
      (∀ l, i.lanes.has l = true → Reaches s i { size := 4 * n, write := true, pol := 1, kind := .atomic } (gEa a 0 i l) (place l)) →
      ∃ t, exec x s = .next t
        ∧ t.unperf = s.unperf ++ parts.map (fun part => {
            gi := i.gi, fid := i.f.fid, seq := s.seq + 1, before := i.f.before, ordered := o == 1, cls := if o = 1 then .strong else .atomic, scope := sc,
            core := i.g.core, pasid := s.pasidOf i.g, know := i.g.know, id := i.g.id, btag := (s.blockOf i.g).btag, pc := i.f.pc, clk := i.g.clk,
            rel := if o = 1 then some (i.g.know, i.g.clk, sc) else i.f.relVec,
            acc := i.lanes.lanes.map fun l => { part (gEa a 0 i l).toNat (place l) (runNat i d n l) with lane := l, op := op, plain := false } })
        ∧ t.mem = s.mem ∧ (t.group i.gi).regs = i.g.regs ∧ (t.group i.gi).preds = i.g.preds ∧ ((t.group i.gi).frag i.fi).pc = i.f.pc + 4
        ∧ (t.group i.gi).outst = i.g.outst ∧ ∀ k, k ≠ i.gi → t.groups[k]? = s.groups[k]?
  let whole (n : Nat) : List (Nat → Nat → Nat → LaneAcc) := [fun va pa v => { lane := 0, va := va, pa := pa, size := 4 * n, val := BitVec.ofNat 128 v }]
  let half : List (Nat → Nat → Nat → LaneAcc) :=
    [fun va pa v => { lane := 0, va := va, pa := pa, size := 2, val := BitVec.ofNat 128 (v % 65536) },
     fun va pa v => { lane := 0, va := va + 2, pa := pa + 2, size := 2, val := BitVec.ofNat 128 (v / 65536) }]
  let W (mk : Bool → Fld → BitVec 6 → BitVec 1 → BitVec 2 → Instr) (op : AtomOp) : Prop := ∀ g d a o sc, Red (mk g d a o sc) g d.toNat 1 a o sc op (whole 1)
  W .redAdd .add32 ∧ W .redAddF32 .addF32 ∧ W .redMinI .minI ∧ W .redMaxI .maxI ∧ W .redMinZ .minZ ∧ W .redMaxZ .maxZ ∧ W .redAnd .and ∧ W .redOr .or
  ∧ W .redXor .xor ∧ W .redMinF32 .minF32 ∧ W .redMaxF32 .maxF32
  ∧ (∀ g d a o sc, Red (.redAddBf16x2 g d a o sc) g d.toNat 1 a o sc .addBf16x2 half) ∧ (∀ g d a o sc, Red (.redAddF16x2 g d a o sc) g d.toNat 1 a o sc .addF16x2 half)
  ∧ (∀ g d a o sc, Red (.redAdd64 g d a o sc) g (pairFld d).toNat 2 a o sc .add64 (whole 2))

/-- R276 to R280, Table 12-4: an arrival adds to ARRV, up to 4,095, and to CRED; when ARRV has reached EXPECT and CRED is 0, GEN advances and both are 0
again. An arrival returns the GEN it found and ticks the clock. A wait goes on when GEN differs from its generation. -/
def Obligations.BarrierPhases : Prop :=
  let arrives (old new : BarWord) (n : Nat) (c : BitVec 20) : Prop :=
    let a := if old.arrv + n < 4095 then old.arrv + n else 4095
    new.expect = old.expect ∧
      if old.expect ≤ a ∧ old.cred + c = 0 then new.gen = old.gen + 1 ∧ new.arrv = 0 ∧ new.cred = 0 else new.gen = old.gen ∧ new.arrv = a ∧ new.cred = old.cred + c
  let at_ (s : State) (i : Iss) (key : Nat) : BarWord := (s.block i.g.block).barWord key
  let found (s : State) (i : Iss) (write : Bool) (a : Fld) (o : Nat) : Prop := Reaches s i { space := .scratch, size := 8, write := write } (i.reg a.toNat i.lo).toNat o
  let ix (i : Iss) (a : Fld) : Nat := (i.reg a.toNat i.lo).toNat % 16
  -- what an instruction at a barrier leaves that goes on behind itself
  let Passes (s : State) (x : Instr) (i : Iss) (reg : Nat → Nat → Word) (ok : State → Prop) : Prop :=
    ∃ t, exec x s = .next t ∧ ((t.group i.gi).frag i.fi).pc = i.f.pc + 4 ∧ (∀ p l, p < i.N → l < 16 → (t.group i.gi).lane p l = reg p l)
      ∧ (t.group i.gi).preds = i.g.preds ∧ t.mem = s.mem ∧ (∀ k, k ≠ i.gi → t.groups[k]? = s.groups[k]?) ∧ (∀ k, k ≠ i.g.block → t.blocks[k]? = s.blocks[k]?) ∧ ok t
  let Arrives (s : State) (x : Instr) (i : Iss) (d : Fld) (key n : Nat) (c : BitVec 20) : Prop :=
    Passes s x i (i.after d.toNat fun _ => [(at_ s i key).gen.setWidth 32]) fun t =>
      arrives (at_ s i key) (at_ t i key) n c ∧ (t.group i.gi).clk = (if i.g.clk = 0xFFFFFF then i.g.clk else i.g.clk + 1) ∧ (t.block i.g.block).committed = true
  let Last (s : State) (x : Instr) (i : Iss) (key : Nat) : Prop :=
    (at_ s i key).expect ≤ (if (at_ s i key).arrv + 1 < 4095 then (at_ s i key).arrv + 1 else 4095) → (at_ s i key).cred = 0 → (∀ e ∈ i.g.barErr, e.1 ≠ key) →
      Passes s x i i.g.lane fun t => arrives (at_ s i key) (at_ t i key) 1 0
  let block (s : State) (i : Iss) : Prop := i.g.block < s.blocks.length ∧ (s.block i.g.block).cbar.length = 16 ∧ (s.block i.g.block).sp.wf = true
  (∀ g d a b s i o, CanIssue s g [a.toNat, b.toNat] [d.toNat] [] i → i.lanes ≠ 0 → Quiet s i → block s i → found s i true a o →
      Arrives s (.barArr g d a b) i d o ((i.reg b.toNat i.lo).toNat % 4096) 0)
  ∧ (∀ g d a b s i o, CanIssue s g [a.toNat, b.toNat] [d.toNat] [] i → i.lanes ≠ 0 → Quiet s i → block s i → found s i true a o →
      Arrives s (.barArrx g d a b) i d o 1 ((i.reg b.toNat i.lo).truncate 20))
  ∧ (∀ g d a s i, CanIssue s g [a.toNat] [d.toNat] [] i → i.lanes ≠ 0 → Quiet s i → block s i → Arrives s (.cbarArr g d a) i d (cbarKey (ix i a)) 1 0)
  ∧ (∀ g a b s i o, CanIssue s g [a.toNat, b.toNat] [] [] i → i.lanes ≠ 0 → block s i → found s i true a o →
      Passes s (.barInit g a b) i i.g.lane fun t =>
        let n := (i.reg b.toNat i.lo).toNat % 4096
        (at_ t i o).gen = 0 ∧ (at_ t i o).arrv = 0 ∧ (at_ t i o).cred = 0 ∧ (at_ t i o).expect = if n = 0 then 1 else n)
  ∧ (∀ g d a s i, CanIssue s g [d.toNat, a.toNat] [] [] i → i.lanes ≠ 0 → block s i →
      Passes s (.cbarInit g d a) i i.g.lane fun t =>
        let n := (i.reg d.toNat i.lo).toNat % 4096
        let w := at_ t i (cbarKey (ix i a))
        w.gen = 0 ∧ w.arrv = 0 ∧ w.cred = 0 ∧ w.expect = if n = 0 then 1 else n)
  ∧ (∀ g a b s i o, CanIssue s g [a.toNat, b.toNat] [] [] i → i.lanes ≠ 0 → i.f.stall = none → found s i false a o →
      (at_ s i o).gen ≠ (i.reg b.toNat i.lo).truncate 4 → (∀ e ∈ i.g.barErr, e.1 ≠ o) → Passes s (.barWait g a b) i i.g.lane fun t => t.blocks = s.blocks)
  ∧ (∀ g d a s i, CanIssue s g [d.toNat, a.toNat] [] [] i → i.lanes ≠ 0 → i.f.stall = none → (at_ s i (cbarKey (ix i a))).gen ≠ (i.reg d.toNat i.lo).truncate 4 →
      (∀ e ∈ i.g.barErr, e.1 ≠ cbarKey (ix i a)) → Passes s (.cbarWait g d a) i i.g.lane fun t => t.blocks = s.blocks)
  ∧ (∀ g a s i o, CanIssue s g [a.toNat] [] [] i → i.lanes ≠ 0 → Quiet s i → block s i → i.f.stall = none → i.f.arrival = none →
      found s i true a o → Last s (.barSync g a) i o)
  ∧ (∀ g a s i, CanIssue s g [a.toNat] [] [] i → i.lanes ≠ 0 → Quiet s i → block s i → i.f.stall = none → i.f.arrival = none → Last s (.cbarSync g a) i (cbarKey (ix i a)))

/-- R281 to R283: a wait on a word goes on at once when the word satisfies it, else it registers an entry; an entry that a write has satisfied lets it go on
with the word that satisfied it, which is D's. An entry that polls reads its word again every 512 ns. -/
def Obligations.WaitsOnWords : Prop :=
  let holds (c : WoaCmp) (x e m : Word) : Prop :=
    match c with
    | .eq => x &&& m = e &&& m
    | .ne => x &&& m ≠ e &&& m
    | .lt => (x &&& m).toNat < (e &&& m).toNat
    | .ge => (e &&& m).toNat ≤ (x &&& m).toNat
    | .any => False
  let W (mk : Bool → BitVec 6 → BitVec 6 → BitVec 2 → Instr) (cmp : WoaCmp) : Prop :=
    ∀ g d a sc s i place, CanIssue s g (pairOf d ++ pairOf a) [(pairFld d).toNat] [] i → i.lanes ≠ 0 → Quiet s i → Settled s [(place, 4)] →
      Reaches s i { size := 4, pol := 1 } (gEa a 0 i i.lo) place →
      let dn := (pairFld d).toNat
      let v := s.word place
      let Goes (w : Word) : Prop :=
        ∃ t, exec (mk g d a sc) s = .next t ∧ (∀ p l, p < i.N → l < 16 → (t.group i.gi).lane p l = i.after dn (fun _ => [w]) p l)
          ∧ ((t.group i.gi).frag i.fi).pc = i.f.pc + 4 ∧ (t.group i.gi).preds = i.g.preds ∧ t.mem = s.mem
          ∧ (∀ e ∈ t.woas, e.who ≠ .frag i.gi i.f.fid) ∧ (∀ k, k ≠ i.gi → t.groups[k]? = s.groups[k]?)
      (∀ e, s.woas.find? (fun w => w.who == .frag i.gi i.f.fid) = some e → e.ext = false → e.race = none → ∀ w, e.hit = some w → Goes w)
      ∧ ((∀ e ∈ s.woas, e.who ≠ .frag i.gi i.f.fid) →
        (holds cmp v (i.reg dn i.lo) (i.reg (dn + 1) i.lo) → Goes v)
        ∧ (¬ holds cmp v (i.reg dn i.lo) (i.reg (dn + 1) i.lo) →
          ∃ t e, exec (mk g d a sc) s = .next t ∧ t.woas = s.woas ++ [e] ∧ e.pa = place ∧ e.mask = i.reg (dn + 1) i.lo ∧ e.cmp = cmp
            ∧ e.exp = (if cmp = .any then v else i.reg dn i.lo) ∧ e.who = .frag i.gi i.f.fid ∧ e.hit = none
            ∧ ((t.group i.gi).frag i.fi).pc = i.f.pc ∧ ((t.group i.gi).frag i.fi).stall = some (.woa e.n) ∧ (t.group i.gi).regs = i.g.regs ∧ t.mem = s.mem))
  W .waddrEq .eq ∧ W .waddrNe .ne ∧ W .waddrLt .lt ∧ W .waddrGe .ge ∧ W .waddrAny .any
  ∧ (∀ n s, ∃ t, exec (.woaPoll n) s = .next t ∧ t.woas.length = s.woas.length ∧ (∀ (k : Nat) (w : Woa), s.woas[k]? = some w →
      t.woas[k]? = some (if w.n = n ∧ w.polls = true ∧ w.hit = none ∧ s.past w.nextPoll = true then
        (if w.cmp.holds (s.word w.pa) w.exp w.mask = true then { w with hit := some (s.word w.pa), ext := w.ext || !localPa w.pa } else { w with nextPoll := s.time + 512 })
        else w)) ∧ t.mem = s.mem ∧ t.groups = s.groups)

/-! ### Copy, gather and rings (chapter 13) -/

/-- R284 to R288, R291, R292, R295, R301: a command has the operands of its leader, the lowest active lane whose predicate is 1; without one the instruction
does nothing. A command that passes its checks and finds room is taken with what the group knows; a ring form takes the next index of its ring and one
credit of each receiver. No register changes; that no byte of memory and no data changes before it completes is the model's choice (log entry 19, DEDUCED). -/
def Obligations.CopyCommandsIssue : Prop :=
  let fits (s : State) (i : Iss) (o len align : Nat) : Prop := o % align = 0 ∧ o + len ≤ (s.blockOf i.g).spSize
  let Issues (x : Instr) (g : Bool) (reads : List Nat) (p : BitVec 3) (cmd : State → Iss → Nat → CopyCmd) (into : Bool) (valid : State → Iss → Nat → Prop) : Prop :=
    ∀ s i, CanIssue s g reads [] [p.toNat] i →
      ((i.lanes &&& i.g.pred p.toNat).low = none → ∃ t, exec x s = .next t ∧ Wrote s t i 8 i.g.lane i.preds)
      ∧ ∀ ln, (i.lanes &&& i.g.pred p.toNat).low = some ln →
        let c := cmd s i ln
        let b := s.blockOf i.g
        let r := b.ring c.obj
        let recv := maskSet (if c.kind = 1 then r.rmask else BitVec.ofNat 4 (2 ^ r.own))
        let slot := into && !c.barrier
        i.g.block < s.blocks.length → b.sp.wf = true → valid s i ln → copyFull s i.g.core (s.pasidOf i.g) = false → c.bytes ≤ 65536 →
        (slot = false → fits s i c.data c.bytes 16) →
        (c.barrier = true → fits s i c.obj 8 8) →
        (c.barrier = false → fits s i c.obj r.area 64 ∧ ringError b c.obj c (if slot then some c.bytes else none) = none ∧ ∀ k ∈ recv, b.credit c.obj k ≠ 0) →
        ∃ t, exec x s = .next t
          ∧ t.copies = s.copies ++ [{ c with
              gi := some i.gi, ctx := s.pasidOf i.g, block := i.g.block, core := i.g.core, lane := ln, slot := r.issue.toNat, race := i.g.race,
              fids := i.f.fid :: i.f.before, since := s.seq, id := i.g.id, clk := i.g.clk, know := i.g.know, pc := i.f.pc }]
          ∧ (c.barrier = true → (t.block i.g.block).sp = b.sp)
          ∧ (c.barrier = false → ((t.block i.g.block).ring c.obj).issue = r.issue + 1
              ∧ (∀ k, k < 4 → (t.block i.g.block).credit c.obj k + (if k ∈ recv then 1 else 0) = b.credit c.obj k)
              ∧ ∀ a, a < c.obj + 16 ∨ c.obj + 20 ≤ a ∧ a < c.obj + 24 ∨ c.obj + 32 ≤ a → (t.block i.g.block).sp.get a = b.sp.get a)
          ∧ (t.group i.gi).clk = (if i.g.clk = 0xFFFFFF then i.g.clk else i.g.clk + 1) ∧ (t.block i.g.block).committed = true
          ∧ ((t.group i.gi).frag i.fi).pc = i.f.pc + 8 ∧ (t.group i.gi).regs = i.g.regs ∧ (t.group i.gi).preds = i.g.preds
          ∧ t.mem = s.mem ∧ (∀ k, k ≠ i.gi → t.groups[k]? = s.groups[k]?) ∧ ∀ k, k ≠ i.g.block → t.blocks[k]? = s.blocks[k]?
  let Tensor (x : Instr) (g : Bool) (kind : Nat) (d : Fld) (a : BitVec 4) (b : BitVec 5) (rop : Nat) (mcast : BitVec 4) (l sc : BitVec 2) (e q k : BitVec 1)
      (p : BitVec 3) (into : Bool) : Prop :=
    let w (i : Iss) (ln : Nat) : List Word := (List.range 8).map fun k => i.reg ((octFld a).toNat + k) ln
    let co (i : Iss) (ln : Nat) : List Int := (List.range 3).map fun k => (i.reg ((quadFld b).toNat + k) ln).toInt
    Issues x g (d.toNat :: runOf (octFld a).toNat 8 ++ runOf (quadFld b).toNat 4) p
      (fun _ i ln => { kind := kind, record := w i ln, coords := co i ln, data := (i.reg ((quadFld b).toNat + 3) ln).toNat, bytes := (Layout.of (w i ln)).boxBytes,
                       rop := rop, mcast := mcast, lcls := l.toNat, rel := e == 1, acq := q == 1, scope := sc, barrier := k == 1, obj := (i.reg d.toNat ln).toNat })
      into fun _ i ln => layoutError (w i ln) ((co i ln)[0]?.getD 0) (kind == 4) = none
  let Gather (x : Instr) (g : Bool) (kind : Nat) (d : Fld) (a b : BitVec 5) (rop : Nat) (l sc : BitVec 2) (e q k : BitVec 1) (p : BitVec 3) : Prop :=
    let qa := (quadFld a).toNat
    let qb := (quadFld b).toNat
    Issues x g (d.toNat :: runOf qa 4 ++ runOf qb 4) p
      (fun s i ln => { kind := kind, data := (i.reg (qb + 2) ln).toNat, gaddr := (i.pair qa ln).toNat, stride := (i.reg (qa + 2) ln).toNat,
                       rowBytes := (i.reg (qa + 3) ln).toNat, bytes := (i.reg (qb + 1) ln).toNat * (i.reg (qa + 3) ln).toNat, rop := rop, lcls := l.toNat,
                       index := (List.range (i.reg (qb + 1) ln).toNat).map fun k => (s.blockOf i.g).sp.le ((i.reg qb ln).toNat + 4 * k) 4,
                       rel := e == 1, acq := q == 1, scope := sc, barrier := k == 1, obj := (i.reg d.toNat ln).toNat })
      (kind = 5) fun s i ln =>
        (i.pair qa ln).toNat % 16 = 0 ∧ (i.reg (qa + 2) ln).toNat % 16 = 0 ∧ 0 < (i.reg (qb + 1) ln).toNat ∧ (i.reg (qb + 1) ln).toNat ≤ 4096
          ∧ 0 < (i.reg (qa + 3) ln).toNat ∧ (i.reg (qa + 3) ln).toNat ≤ 4096 ∧ (i.reg (qa + 3) ln).toNat % 16 = 0
          ∧ fits s i (i.reg qb ln).toNat (4 * (i.reg (qb + 1) ln).toNat) 4 ∧ (s.blockOf i.g).spBad = [] ∧ (s.blockOf i.g).spRace = false
  (∀ g d a b l sc e q k p, Tensor (.cpt g d a b l sc e q k p) g 0 d a b 0 0 l sc e q k p true)
  ∧ (∀ g d a b m l sc e q p, Tensor (.cpm g d a b m l sc e q p) g 1 d a b 0 m l sc e q 0 p true)
  ∧ (∀ g d a b l sc e q k p, Tensor (.cps g d a b l sc e q k p) g 2 d a b 0 0 l sc e q k p false)
  ∧ (∀ g d a b r l sc e q k p, Tensor (.cpr g d a b r l sc e q k p) g 4 d a b r.toNat 0 l sc e q k p false)
  ∧ (∀ g d a b w l sc e q k p, Issues (.cpf g d a b w l sc e q k p) g (d.toNat :: pairOf a ++ pairOf b) p
      (fun _ i ln => { kind := 3, data := (i.reg (pairFld b).toNat ln).toNat, gaddr := (i.pair (pairFld a).toNat ln).toNat,
                       bytes := (i.reg ((pairFld b).toNat + 1) ln).toNat, dir := w == 1, lcls := l.toNat, rel := e == 1, acq := q == 1, scope := sc, barrier := k == 1,
                       obj := (i.reg d.toNat ln).toNat })
      (w = 0) fun _ i ln => (i.pair (pairFld a).toNat ln).toNat % 16 = 0 ∧ (i.reg ((pairFld b).toNat + 1) ln).toNat % 16 = 0 ∧ i.reg ((pairFld b).toNat + 1) ln ≠ 0)
  ∧ (∀ g d a b l sc e q k p, Gather (.gth g d a b l sc e q k p) g 5 d a b 0 l sc e q k p)
  ∧ (∀ g d a b l sc e q k p, Gather (.sct g d a b l sc e q k p) g 6 d a b 0 l sc e q k p)
  ∧ (∀ g d a b r l sc e q k p, Gather (.sctr g d a b r l sc e q k p) g 7 d a b r.toNat l sc e q k p)

/-- R288, R290 to R296: what a command of pages that all translate moves when it completes. Its chunks of 16 bytes are those of its box, its bytes or its rows;
an index of all ones skips its row. `cpt`, `cpm`, `cpf` inward and `gth` bring each chunk, or its fill, to the same place of every data area; `cps`, `cpf` outward
and `sct` write each chunk inside to memory, `cpr` and `sctr` reduce its words into memory, chunk by chunk in an order that the device chooses. Then the command
arrives at its barrier with its units taken from CRED, or fills the next slot of its ring: the status word counts its chunks, WIDX goes on to the next index. That
all of it happens in one step, at completion, is log entry 19 (DEDUCED). -/
def Obligations.CopiesMoveTheirBytes : Prop :=
  (∀ c : CopyCmd, c.kind = 3 → c.chunks = (List.range (c.bytes / 16)).map fun k => ⟨16 * k, some ((c.gaddr + 16 * k) % 2 ^ 64), 0⟩)
  ∧ (∀ (c : CopyCmd) (x : Chunk), 5 ≤ c.kind → c.kind ≤ 7 → (x ∈ c.chunks ↔ ∃ r ix j, c.index[r]? = some ix ∧ j < c.rowBytes / 16
      ∧ x = ⟨r * c.rowBytes + 16 * j, if ix = 0xFFFFFFFF then none else some ((c.gaddr + ix * c.stride + 16 * j) % 2 ^ 64), 0⟩))
  ∧ (∀ (c : CopyCmd) (x : Chunk), c.kind ∈ [0, 1, 2, 4] → (x ∈ c.chunks ↔ ∃ i j k : Nat,
      let l := Layout.of c.record
      let co (n : Nat) : Int := c.coords[n]?.getD 0
      let w : Int := codeWidth l.elem
      let u : Int := co 0 * w / 8 + 16 * i
      let inside := 0 ≤ u ∧ u < l.dim0 * w / 8 ∧ 0 ≤ co 1 + j ∧ co 1 + j < (if l.rank < 2 then 1 else l.dim1 : Nat) ∧ 0 ≤ co 2 + k ∧ co 2 + k < (if l.rank < 3 then 1 else l.dim2 : Nat)
      i < l.box0 ∧ j < l.box1 ∧ k < l.box2 ∧ x.off = 16 * (i + l.box0 * (j + l.box1 * k)) ∧ x.fill = l.fill
        ∧ x.va = if inside then some ((l.base + u + (co 1 + j) * l.stride1 + (co 2 + k) * l.stride2) % 2 ^ 64).toNat else none))
  ∧ ∀ n gi s c, ∀ place : Nat → Nat, s.copies[n]? = some c → c.gi = some gi → c.kind < 8 → c.race = .off → c.waits = [] → c.listErr = none → c.listRace = none →
    let b := s.block c.block
    let reduces := c.kind = 4 ∨ c.kind = 7
    let inward := c.kind = 0 ∨ c.kind = 1 ∨ (c.kind = 3 ∧ c.dir = false) ∨ c.kind = 5
    c.bytes % 16 = 0 → c.bytes ≤ 65536 → c.obj < 2 ^ 32 → (∀ x ∈ c.chunks, x.off % 16 = 0 ∧ x.off + 16 ≤ c.bytes) → (c.chunks.map (·.off)).Nodup →
    c.block < s.blocks.length → b.sp.wf = true → b.spBad = [] → s.mem.wf = true → s.memBad = [] → s.unperf = [] → s.hostLines = [] →
    -- every page translates, and what is written is no table of theirs
    (∀ x ∈ c.chunks, ∀ va, x.va = some va → place va % 16 = 0 ∧ ∀ m : Mem, (inward → m = s.mem) →
      (∀ a, (∀ y ∈ c.chunks, ∀ v, y.va = some v → a < place v ∨ place v + 16 ≤ a) → m.get a = s.mem.get a) →
      ∃ xl, access { s with mem := m } c.core c.ctx va (if inward then .read else if reduces then .atomic else .write) = .ok (place va, xl)) →
    let rops : List AtomOp := [.add32, .addF32, .addBf16x2, .addF16x2, .minF32, .maxF32]
    let put (m : Mem) (x : Chunk) : Mem :=
      match x.va with
      | none => m
      | some va => m.write (place va) (if reduces
          then (List.range 4).flatMap fun w => leBytes 4 (atomApply (rops[c.rop]?.getD .maxF32) (m.le (place va + 4 * w) 4) (b.sp.le (c.data + x.off + 4 * w) 4) 0)
          else b.sp.read (c.data + x.off) 16)
    let landed (t : State) (o : Nat) : Prop := ∀ x ∈ c.chunks, ∀ j, j < 16 →
      (t.block c.block).sp.get (o + x.off + j) = match x.va with | some va => s.mem.get (place va + j) | none => x.fill
    let effect (t : State) (os : List Nat) : Prop :=
      (inward → (∀ o ∈ os, landed t o) ∧ t.mem = s.mem) ∧ (¬ inward → ∃ xs : List Chunk, xs.Perm c.chunks ∧ t.mem = xs.foldl put s.mem)
    (c.barrier = true → (inward → c.data + c.bytes ≤ c.obj ∨ c.obj + 8 ≤ c.data) →
      ∃ t, exec (.copyCommandComplete n) s = .next t ∧ effect t [c.data]
        ∧ (let old := b.barWord c.obj
           let new := (t.block c.block).barWord c.obj
           let cred := old.cred - BitVec.ofNat 20 (c.bytes / 16)
           if old.expect ≤ old.arrv ∧ cred = 0 then new.gen = old.gen + 1 ∧ new.arrv = 0 ∧ new.cred = 0
           else new.gen = old.gen ∧ new.arrv = old.arrv ∧ new.cred = cred)
        ∧ (∀ a, (inward → a < c.data ∨ c.data + c.bytes ≤ a) → (a < c.obj ∨ c.obj + 8 ≤ a) → (t.block c.block).sp.get a = b.sp.get a)
        ∧ (∀ k, k ≠ c.block → t.blocks[k]? = s.blocks[k]?) ∧ t.copies = dropAt s.copies n ∧ t.groups = s.groups)
    ∧ (let r := b.ring c.obj
       let receivers := (List.range 4).filter r.rmask.getLsbD
       let slot := r.slotAt c.obj r.widx
       let heads := if c.kind = 1 then receivers.map (b.inSlice c.obj) else [c.obj]
       c.barrier = false → c.kept = none → ringError b c.obj c (if inward then some c.bytes else none) = none → c.slot = r.widx.toNat →
       (∀ o ∈ heads, (b.ring o).nslot = r.nslot ∧ (b.ring o).slotu = r.slotu ∧ (b.ring o).widx = r.widx ∧ ∀ d ∈ b.ringDone, d.1 ≠ o) →
        ∃ t, exec (.copyCommandComplete n) s = .next t ∧ effect t (if c.kind = 1 then receivers.map (b.inSlice slot) else [slot])
          ∧ (∀ o ∈ heads, ((t.block c.block).ring o).widx = r.widx + 1
              ∧ (t.block c.block).sp.le (r.statusAt o r.widx) 4 = (c.chunks.filter (·.va.isSome)).length)
          ∧ (∀ a, (∀ o ∈ heads, a < o ∨ o + r.area ≤ a) → (t.block c.block).sp.get a = b.sp.get a)
          ∧ (∀ k, k ≠ c.block → t.blocks[k]? = s.blocks[k]?) ∧ t.copies = dropAt s.copies n ∧ t.groups.length = s.groups.length
          -- an error that the slot's status told before is told no more
          ∧ ∀ (k : Nat) (y : Group), s.groups[k]? = some y → ∃ errs, t.groups[k]? = some { y with barErr := errs })

/-- R289, R297 to R300: `rb.init` writes a header into the slice of every receiver; `rb.await` returns the slot and the status of an index that WIDX has
passed, as an acquire; `rb.rel` gives slots back as a release; `rb.stat` and `rb.cred` read. -/
def Obligations.RingInstructions : Prop :=
  let At (s : State) (i : Iss) (a : Fld) (write : Bool) (o : Nat) : Prop :=
    Reaches s i { space := .scratch, size := 64, write := write } (i.reg a.toNat i.lo).toNat o ∧ i.lanes ≠ 0 ∧ i.g.block < s.blocks.length ∧ (s.blockOf i.g).sp.wf = true
  let same (s t : State) (i : Iss) : Prop :=
    ((t.group i.gi).frag i.fi).pc = i.f.pc + 4 ∧ (t.group i.gi).preds = i.g.preds ∧ t.mem = s.mem ∧ (∀ k, k ≠ i.gi → t.groups[k]? = s.groups[k]?)
      ∧ ∀ k, k ≠ i.g.block → t.blocks[k]? = s.blocks[k]?
  (∀ g a b s i o, CanIssue s g [a.toNat, b.toNat] [] [] i → At s i a true o →
    let w := i.reg b.toNat i.lo
    let bl := s.blockOf i.g
    let own := bl.sliceOf o
    let mask : BitVec 4 := if w.extractLsb' 19 4 = 0 then BitVec.ofNat 4 (2 ^ own) else w.extractLsb' 19 4
    let n := (w.extractLsb' 0 8).toNat + 1
    let slotu := (w.extractLsb' 8 11).toNat
    let area := 64 + (4 * n + 63) / 64 * 64 + n * (64 * slotu)
    w.toNat < 2 ^ 23 → slotu ≤ 1024 → own < 4 → mask.getLsbD own = true → (∀ k, k < 4 → mask.getLsbD k = true → k < bl.cores.length ∧ bl.inSlice o k + area ≤ bl.spSize) →
    o - own * bl.sliceBytes + area ≤ bl.sliceBytes → (∀ c ∈ s.copies, c.gi = none ∨ c.block ≠ i.g.block ∨ c.barrier = true) →
    ∃ t, exec (.rbInit g a b) s = .next t ∧ ((t.group i.gi).frag i.fi).pc = i.f.pc + 4 ∧ (t.group i.gi).regs = i.g.regs ∧ (t.group i.gi).preds = i.g.preds
      ∧ t.mem = s.mem ∧ (∀ k, k ≠ i.g.block → t.blocks[k]? = s.blocks[k]?)
      -- errors of the ring's earlier slots are dropped
      ∧ (∀ k y, k ≠ i.gi → s.groups[k]? = some y → ∃ errs, t.groups[k]? = some { y with barErr := errs } ∧ ∀ e ∈ errs, e ∈ y.barErr)
      ∧ (∀ k, k < 4 → mask.getLsbD k = true →
          let r := (t.block i.g.block).ring (bl.inSlice o k)
          r.nslot = n ∧ r.slotu = slotu ∧ r.rmask = mask ∧ r.own = own ∧ r.ridx = 0 ∧ r.widx = 0 ∧ r.issue = 0
            ∧ ∀ j, j < 4 → (t.block i.g.block).credit (bl.inSlice o k) j = if k = own ∧ mask.getLsbD j = true then n else 0))
  ∧ (∀ g d a b s i o, CanIssue s g [a.toNat, b.toNat] (pairOf d) [] i → At s i a false o → i.f.stall = none →
    let ix := i.reg b.toNat i.lo
    let r := (s.blockOf i.g).ring o
    1 ≤ (r.widx - ix).toNat → (r.widx - ix).toNat ≤ 2 ^ 31 → i.g.barErr = [] →
    ∃ t, exec (.rbAwait g d a b) s = .next t ∧ same s t i ∧ t.blocks = s.blocks
      ∧ (∀ p l, p < i.N → l < 16 → (t.group i.gi).lane p l = i.after (pairFld d).toNat (fun _ =>
          [BitVec.ofNat 32 (r.slotAt o ix), BitVec.ofNat 32 ((s.blockOf i.g).sp.le (r.statusAt o ix) 4)]) p l)
      ∧ ((t.group i.gi).frag i.fi).acquired = s.fillNo ∧ (t.group i.gi).clk = i.g.clk)
  ∧ (∀ g a b s i o, CanIssue s g [a.toNat, b.toNat] [] [] i → At s i a true o → Quiet s i →
    let n := i.reg b.toNat i.lo
    let bl := s.blockOf i.g
    let r := bl.ring o
    0 < n.toNat → n.toNat ≤ 256 → n.toNat ≤ (r.widx - r.ridx).toNat → bl.sliceOf o < 4 →
    ∃ t, exec (.rbRel g a b) s = .next t ∧ same s t i ∧ (t.group i.gi).regs = i.g.regs
      ∧ ((t.block i.g.block).ring o).ridx = r.ridx + n
      ∧ (t.block i.g.block).credit (bl.ownerOf o) (bl.sliceOf o) = (bl.credit (bl.ownerOf o) (bl.sliceOf o) + n.toNat) % 65536
      ∧ (t.group i.gi).clk = (if i.g.clk = 0xFFFFFF then i.g.clk else i.g.clk + 1) ∧ (t.block i.g.block).committed = true)
  ∧ (∀ g d a s i o, CanIssue s g [a.toNat] (pairOf d) [] i → At s i a false o →
    let bl := s.blockOf i.g
    let own := bl.ownerOf o
    ∃ t, exec (.rbStat g d a) s = .next t ∧ Wrote s t i 4 (i.after (pairFld d).toNat fun _ =>
      [(bl.ring o).widx, BitVec.ofNat 32 (leastCredit bl own * 65536 + ((bl.ring own).issue - (bl.ring own).widx).toNat % 65536)]) i.preds)
  ∧ (∀ g d a b s i o, CanIssue s g [a.toNat, b.toNat] [d.toNat] [] i → At s i a false o →
    let bl := s.blockOf i.g
    let own := bl.ownerOf o
    let k := (i.reg b.toNat i.lo).toNat % 4
    ∃ t, exec (.rbCred g d a b) s = .next t ∧ Wrote s t i 4 (i.after d.toNat fun _ =>
      [BitVec.ofNat 32 (if (bl.ring own).rmask.getLsbD k = true then bl.credit own k else 0)]) i.preds)

/-! ### Trees, pools, Syzygy queues and feeds (chapter 14) -/

/-- R306 to R313: `spawn` makes a group for each lane on its own core when that has room; the tree instructions act on the subtree that their handle names;
a cancelled subtree's members stop where they are, by `tree.cancel` or when its deadline has passed. -/
def Obligations.SpawnAndSubtrees : Prop :=
  let ready (s : State) (i : Iss) : Prop := i.lanes ≠ 0 ∧ (s.ctx (s.pasidOf i.g)).replay = false ∧ s.trees.length = 256
  let On (x : Instr) (g : Bool) (a : Fld) (reads writes : List Nat) (eff : State → Iss → Nat → State → Prop) : Prop :=
    ∀ s i, CanIssue s g (a.toNat :: reads) writes [] i → ready s i → s.treeNamed (s.pasidOf i.g) (i.reg a.toNat i.lo) = true →
      ∃ t, exec x s = .next t ∧ eff s i (hIndex (i.reg a.toNat i.lo)) t
  let only (s t : State) (k : Nat) (x : Subtree) : Prop := t.tree k = x ∧ ∀ j, j ≠ k → t.tree j = s.tree j
  let Closes (x : Instr) (g : Bool) (a : Fld) (free : Bool) : Prop :=
    On x g a [] [] fun s i k t => Goes s t i i.g.lane i.preds
      ∧ only s t k { s.tree k with hold := false, relReq := (s.tree k).relReq || free }
      ∧ (t.group i.gi).subt = if i.g.subt = i.reg a.toNat i.lo then (s.tree k).parent else i.g.subt
  -- the members of subtree k that stood in slots have stopped for good
  let Struck (s t : State) (k : Nat) : Prop :=
    (t.tree k).st = .cancelled ∧ t.mem = s.mem ∧ ∀ m y, s.groups[m]? = some y → y.member = mkHandle k (s.tree k).gen → s.pasidOf y = (s.tree k).ctx → y.state = .resident →
      y.struck = false → (t.group m).frags = [] ∧ (t.group m).state = .retiring ∧ (t.group m).exited = 0xFFFF ∧ (t.group m).struck = true
  (∀ g d a (k : BitVec 4) s i l,
    let e := (pairFld a).toNat
    let ker := (s.launchOf i.g).kernel
    let n := min ((i.reg d.toNat l).toNat % 32) 16
    CanIssue s g (d.toNat :: runOf e (2 + k.toNat)) [d.toNat] [] i [0] → i.lanes.lanes = [l] → Quiet s i → i.g.traced = false →
    (i.pair e l).toNat % 4 = 0 → (i.pair e l).toNat < 2 ^ 52 → 0 < n → i.g.subt = 0 → k.toNat ≤ ker.nreg →
    ({ ctx := s.pasidOf i.g, groups := 1, nreg := ker.nreg, tiles := ker.tiles, sp := 0 } : Plan).fits s [i.g.core] = true →
    ∃ t, exec (.spawn g d a k) s = .next t ∧ Goes s t i (i.after d.toNat fun _ => [1]) (i.afterPred 0 fun _ => true) ∧ (t.group i.gi).clk = ticked i.g.clk
      ∧ t.groups.length = s.groups.length + 1
      ∧ (let c := t.group s.groups.length
         c.core = i.g.core ∧ c.state = .resident ∧ c.regs.length = ker.nreg ∧ c.tiles.length = ker.tiles ∧ c.know = i.g.know ∧ c.subt = 0 ∧ c.member = 0 ∧ c.prio = i.g.prio
           ∧ c.race = i.g.race ∧ (∃ f, c.frags = [f] ∧ f.pc = (i.pair e l).truncate 52 ∧ f.fmt = i.f.fmt ∧ ∀ m, m < 16 → (f.amask.has m = true ↔ m < n))
           ∧ (∀ j m, j < ker.nreg → m < 16 → c.lane j m = if j < k.toNat then i.reg (e + 2 + j) l else 0)
           ∧ (t.block c.block).child = true ∧ (t.block c.block).launch = (s.blockOf i.g).launch))
  ∧ (∀ g d s i, CanIssue s g [] [d.toNat] [] i → ready s i → (∃ k, k < 256 ∧ (s.tree k).st = .free) →
      ∃ t k, exec (.treeOpen g d) s = .next t ∧ k < 256 ∧ (s.tree k).st = .free
        ∧ (let gen := if (s.tree k).gen + 1 ≥ 2 ^ 24 then 1 else (s.tree k).gen + 1
           Goes s t i (i.after d.toNat fun _ => [mkHandle k gen]) i.preds ∧ (t.group i.gi).subt = mkHandle k gen
           ∧ only s t k { st := .open, gen := gen, ctx := s.pasidOf i.g, hold := true, opener := i.gi,
                          parent := if s.treeNamed (s.pasidOf i.g) i.g.subt = true ∧ (s.tree (hIndex i.g.subt)).st = .open then i.g.subt else 0 }))
  ∧ (∀ g d s i, CanIssue s g [] [d.toNat] [] i → ready s i → (∀ k, k < 256 → (s.tree k).st ≠ .free) →
      ∃ t, exec (.treeOpen g d) s = .next t ∧ Goes s t i (i.after d.toNat fun _ => [0]) i.preds ∧ t.trees = s.trees)
  ∧ (∀ g a, Closes (.treeClose g a) g a false) ∧ (∀ g a, Closes (.treeCloseFree g a) g a true)
  ∧ (∀ g a, On (.treeCancel g a) g a [] [] fun s i k t =>
      ((s.tree k).st = .open → Struck s t k) ∧ ((s.tree k).st ≠ .open → Goes s t i i.g.lane i.preds ∧ t.trees = s.trees))
  ∧ (∀ g d a s i, CanIssue s g [a.toNat] (pairOf d) [] i → ready s i →
      let h := i.reg a.toNat i.lo
      ∃ t, exec (.treeStat g d a) s = .next t ∧ t.trees = s.trees ∧ Goes s t i (i.after (pairFld d).toNat fun _ =>
        if s.treeNamed (s.pasidOf i.g) h = true then [BitVec.ofNat 32 (treeWord s (hIndex h)), (s.tree (hIndex h)).parent] else [0, 0]) i.preds)
  ∧ (∀ g a b, On (.dlSet g a b) g a (pairOf b) [] fun s i k t =>
      let v := (i.pair (pairFld b).toNat i.lo).toNat
      ((s.tree k).st = .open → v = 0 ∨ s.time < v → Goes s t i i.g.lane i.preds ∧ only s t k { s.tree k with deadline := v })
      ∧ ((s.tree k).st = .open → v ≠ 0 → v ≤ s.time → Struck s t k)
      ∧ ((s.tree k).st ≠ .open → Goes s t i i.g.lane i.preds ∧ t.trees = s.trees))
  ∧ (∀ g d a, On (.dlGet g d a) g a [] (pairOf d) fun s i k t =>
      Goes s t i (i.after (pairFld d).toNat fun _ => pairWords (BitVec.ofNat 64 (s.tree k).deadline)) i.preds ∧ t.trees = s.trees)
  ∧ (∀ g d a, On (.dlChk g d a) g a [] [d.toNat] fun s i k t =>
      Goes s t i (i.after d.toNat fun _ => [
        let x := s.tree k
        if x.st ≠ .open then 0 else if x.deadline = 0 then 0xFFFFFFFF else BitVec.ofNat 32 (min (x.deadline - s.time) (2 ^ 32 - 1))]) i.preds ∧ t.trees = s.trees)
  ∧ (∀ n s, (s.tree n).st = .open → (s.tree n).deadline ≠ 0 → (s.tree n).deadline ≤ s.time → (s.ctx (s.tree n).ctx).replay = false → s.trees.length = 256 → n < 256 →
      ∃ t, exec (.deadlineExpire n) s = .next t ∧ Struck s t n)

/-- R315 to R317: an allocation grants the lanes, in ascending order, fresh nodes, or the head of the free list, and acquires the pool's vector; a free puts
its node at the head of the list, a link of eight bytes in the node, as a release; `nreset` gives every node back; `ninfo` reads. -/
def Obligations.PoolInstructions : Prop :=
  let ready (s : State) (i : Iss) (h : Word) : Prop := i.lanes ≠ 0 ∧ (s.ctx (s.pasidOf i.g)).replay = false ∧ s.poolNamed (s.pasidOf i.g) h = true ∧ i.f.stall = none
  let at_ (s : State) (i : Iss) (va : Nat) (k : AccKind) (pa : Nat) : Prop :=
    ∃ x, access s i.g.core (s.pasidOf i.g) va k = .ok (pa, x) ∧ isTracked s (s.pasidOf i.g) x = false
  let only (s t : State) (k : Nat) (x : Pool) : Prop := t.pool k = x ∧ ∀ j, j ≠ k → t.pool j = s.pool j
  -- lane e.2, the e.1-th of the active ones, is granted the node f e.1
  let Grants (s t : State) (i : Iss) (d : BitVec 6) (p : Pool) (f : Nat → Nat) : Prop :=
    Goes s t i i.g.lane i.preds ∧ (t.group i.gi).know = i.g.know.merge p.vec ∧ ((t.group i.gi).frag i.fi).acquired = s.fillNo
      ∧ (t.group i.gi).outst = i.g.outst ++ [{
          path := .at, seq := s.seq + 1, fid := i.f.fid, writes := (indexed i.lanes.lanes).flatMap fun e => laneWrites i (pairFld d).toNat e.2 2 (f e.1),
          preds := (indexed i.lanes.lanes).map fun e => (0, e.2, f e.1 != 0) }]
  let Alloc (mk : Bool → BitVec 6 → Fld → Instr) (whole : Bool) : Prop :=
    ∀ g d a s i, CanIssue s g [a.toNat] (pairOf d) [] i [0] → ready s i (i.reg a.toNat i.lo) → i.g.count .at < 63 →
      let k := hIndex (i.reg a.toNat i.lo)
      let p := s.pool k
      let n := i.lanes.count
      (whole = true → n ≤ p.free) →
      (p.head = 0 → ∃ t, exec (mk g d a) s = .next t
        ∧ Grants s t i d p (fun j => if p.bump + j < p.cap then p.base + (p.bump + j) * p.nodeb else 0)
        ∧ only s t k { p with bump := p.bump + min n (p.cap - p.bump), free := p.free - min n (p.cap - p.bump) })
      ∧ (p.head ≠ 0 → n = 1 → ∀ pa, at_ s i p.head .read pa → ∃ t, exec (mk g d a) s = .next t
        ∧ Grants s t i d p (fun _ => p.head) ∧ only s t k { p with head := s.mem.le pa 8, free := p.free - 1 })
  Alloc .nalloc false ∧ Alloc .nallocT true
  ∧ (∀ g a b s i l, CanIssue s g (b.toNat :: pairOf a) [] [] i → ready s i (i.reg b.toNat i.lo) → Quiet s i → i.lanes.lanes = [l] → s.hostLines = [] →
      let k := hIndex (i.reg b.toNat i.lo)
      let p := s.pool k
      let n := (i.pair (pairFld a).toNat l).toNat
      ∀ pa, n ≠ 0 → p.base ≤ n → n < p.base + p.bump * p.nodeb → (n - p.base) % p.nodeb = 0 → at_ s i n .write pa →
        ∃ t, exec (.nfree g a b) s = .next t ∧ t.mem = s.mem.write pa (leBytes 8 p.head)
          ∧ only s t k { p with head := n, free := p.free + 1, vec := p.vec.merge i.g.know } ∧ (t.group i.gi).clk = ticked i.g.clk
          ∧ (t.group i.gi).regs = i.g.regs ∧ (t.group i.gi).preds = i.g.preds ∧ ((t.group i.gi).frag i.fi).pc = i.f.pc + 4)
  ∧ (∀ g a s i, CanIssue s g [a.toNat] [] [] i → ready s i (i.reg a.toNat i.lo) → Quiet s i →
      let k := hIndex (i.reg a.toNat i.lo)
      let p := s.pool k
      ∃ t, exec (.nreset g a) s = .next t ∧ Goes s t i i.g.lane i.preds ∧ (t.group i.gi).clk = ticked i.g.clk
        ∧ only s t k { p with head := 0, bump := 0, free := p.cap, vec := p.vec.merge i.g.know })
  ∧ (∀ g d a s i, CanIssue s g [a.toNat] (pairOf d) [] i → ready s i (i.reg a.toNat i.lo) →
      let p := s.pool (hIndex (i.reg a.toNat i.lo))
      ∃ t, exec (.ninfo g d a) s = .next t ∧ t.pools = s.pools
        ∧ Goes s t i (i.after (pairFld d).toNat fun _ => [BitVec.ofNat 32 p.free, BitVec.ofNat 32 ((p.cap - 1) % 2 ^ 24 + (p.nodeb / 64 - 1) * 2 ^ 24)]) i.preds)

/-- R319 to R325: a push appends a row for each lane and reserves its result registers under a future; a take writes the oldest ready buffer into a tile, a row
never filled as zeros; a put delivers a result row to the lane that pushed it; a buffer becomes ready when full, when flushed or after its timeout. That a take,
a put, a flush, a `cq.cfg` and a `cq.stat` run from any cluster is log entry 67 (DESIGN CHOICE), the model's choice. -/
def Obligations.SyzygyQueues : Prop :=
  let ready (s : State) (i : Iss) (h : Word) : Prop := i.lanes ≠ 0 ∧ (s.ctx (s.pasidOf i.g)).replay = false ∧ s.syzNamed (s.pasidOf i.g) h = true
  let only (s t : State) (k : Nat) (x : Syzygy) : Prop := t.syz k = x ∧ ∀ j, j ≠ k → t.syz j = s.syz j
  (∀ g d a (f : BitVec 5) s i k,
    let h := i.reg a.toNat i.lo
    let q := s.syz (hIndex h)
    let b := q.buf k
    CanIssue s g (a.toNat :: runOf (a.toNat + 1) q.rowWords) (runOf d.toNat q.resWords) [] i → ready s i h → Quiet s i →
    a.toNat + 1 + q.rowWords ≤ 128 → d.toNat + q.resWords ≤ 128 → (i.g.fut f.toNat).st = .free → q.filling = some k → b.rows.length + i.lanes.count ≤ q.rows →
    ∃ t, exec (.cqPush g d a f) s = .next t ∧ Goes s t i i.g.lane i.preds ∧ (t.group i.gi).clk = ticked i.g.clk
      ∧ (t.group i.gi).futures = setAt i.g.futures f.toNat { st := .pending, lanes := i.lanes, first := i.phys d.toNat, count := q.resWords }
      ∧ (let rows := b.rows ++ i.lanes.lanes.map fun l =>
           { gi := i.gi, lane := l, fut := f.toNat, words := (List.range q.rowWords).map fun j => i.reg (a.toNat + 1 + j) l, vec := i.g.know }
         let full := rows.length = q.rows
         only s t (hIndex h) { q with
           bufs := setAt q.bufs k (if full then { b with rows := rows, st := .ready, order := q.order + 1 } else { b with rows := rows }),
           order := if full then q.order + 1 else q.order }))
  ∧ (∀ g d a (x : BitVec 6) s i k,
    let h := i.reg a.toNat i.lo
    let q := s.syz (hIndex h)
    let b := q.buf k
    let tl := i.g.tile x.toNat
    CanIssue s g [a.toNat] (pairOf d) [] i → ready s i h → x.toNat < i.g.tiles.length → tl.shaped = true → tl.height = q.rows → tl.rb = 4 * q.rowWords →
    i.g.tileUsed x.toNat = false → i.g.optTs = false → tl.stamp = none → tl.data.wf = true → q.oldest = some k → b.rows.length ≤ q.rows → (∀ r ∈ b.rows, r.words.length = q.rowWords) →
    ∃ t data mask, exec (.cqTake g d a x) s = .next t
      ∧ Goes s t i (i.after (pairFld d).toNat fun _ => [BitVec.ofNat 32 (q.seq % 2 ^ 22 * 2 ^ 10 + k * 256 + hIndex h), BitVec.ofNat 32 mask]) i.preds
      ∧ (∀ r, mask.testBit r = true ↔ ∃ row, b.rows[r]? = some row ∧ row.valid = true)
      ∧ (t.group i.gi).tiles = setAt i.g.tiles x.toNat { tl with data := data, rowMask := BitVec.ofNat 256 mask, colMask := BitVec.allOnes 256, emask := true, bad := false }
      ∧ (∀ r row j w, b.rows[r]? = some row → row.words[j]? = some w → Mem.le data (r * tl.rb + 4 * j) 4 = if row.valid = true then w.toNat else 0)
      ∧ (∀ p, b.rows.length * tl.rb ≤ p → p < q.rows * tl.rb → Mem.get data p = 0) ∧ (∀ p, q.rows * tl.rb ≤ p → Mem.get data p = tl.data.get p)
      ∧ (t.group i.gi).know = (b.rows.filter (·.valid)).foldl (fun v r => v.merge r.vec) i.g.know ∧ ((t.group i.gi).frag i.fi).acquired = s.fillNo
      ∧ only s t (hIndex h) { q with bufs := setAt q.bufs k { b with st := .taken, seq := q.seq, taker := i.gi }, seq := q.seq + 1 })
  ∧ (∀ g a b s i l row,
    let w := (i.reg (pairFld a).toNat i.lo).toNat
    let r := (i.reg ((pairFld a).toNat + 1) i.lo).toNat + l
    let qi := w % 128
    let k := w / 256 % 4
    let q := s.syz qi
    let own := s.group row.gi
    let fut := own.fut row.fut
    CanIssue s g (pairOf a ++ runOf b.toNat q.resWords) [] [] i → i.lanes.lanes = [l] → Quiet s i → (s.ctx (s.pasidOf i.g)).replay = false →
    b.toNat + q.resWords ≤ 128 → q.bound = true → q.ctx = s.pasidOf i.g → w / 128 % 2 = 0 → (q.buf k).st = .taken → (q.buf k).seq % 2 ^ 22 = w / 2 ^ 10 →
    (q.buf k).rows[r]? = some row → r < q.rows → row.valid = true → row.put = false → row.wanted = true → fut.st = .pending → row.gi < s.groups.length →
    row.lane < 16 → fut.first + q.resWords ≤ own.regs.length →
    ∃ t, exec (.cqPut g a b) s = .next t ∧ ((t.group i.gi).frag i.fi).pc = i.f.pc + 4 ∧ (t.group i.gi).clk = ticked i.g.clk ∧ t.mem = s.mem
      ∧ (∀ p m, p < own.regs.length → m < 16 → (t.group row.gi).lane p m
          = if m = row.lane ∧ fut.first ≤ p ∧ p < fut.first + q.resWords then i.reg (b.toNat + (p - fut.first)) l else own.lane p m)
      ∧ (∀ m, m ≠ i.gi → m ≠ row.gi → t.groups[m]? = s.groups[m]?)
      ∧ ((t.group row.gi).fut row.fut).vecs = fut.vecs ++ [i.g.know]
      ∧ (((t.group row.gi).fut row.fut).st = .ready ↔ ∀ (q' k' r' : Nat) (x : Row), (q', k', r') ≠ (qi, k, r) →
          q' < s.syzygy.length → k' < (s.syz q').bufs.length → ((s.syz q').buf k').rows[r']? = some x → x.gi = row.gi → x.fut = row.fut → x.valid = true → x.wanted = true → x.put = true))
  ∧ (∀ g a s i k, CanIssue s g [a.toNat] [] [] i →
      let h := i.reg a.toNat i.lo
      let q := s.syz (hIndex h)
      ready s i h → q.filling = some k → (∃ r ∈ (q.buf k).rows, r.valid = true ∧ r.put = false) →
      ∃ t, exec (.cqFlush g a) s = .next t ∧ Goes s t i i.g.lane i.preds
        ∧ only s t (hIndex h) { q with bufs := setAt q.bufs k { q.buf k with st := .ready, order := q.order + 1 }, order := q.order + 1 })
  ∧ (∀ g a b s i, CanIssue s g [a.toNat, b.toNat] [] [] i →
      let h := i.reg a.toNat i.lo
      ready s i h → (i.reg b.toNat i.lo).toNat % 4 ≠ 3 → (∀ x ∈ (s.syz (hIndex h)).bufs, x.st = .free) → (∀ y ∈ s.groups, ∀ f ∈ y.frags, ∀ n, f.stall ≠ some (.room h n)) →
      ∃ t, exec (.cqCfg g a b) s = .next t ∧ Goes s t i i.g.lane i.preds ∧ only s t (hIndex h) { s.syz (hIndex h) with cfg := i.reg b.toNat i.lo })
  ∧ (∀ g d a s i, CanIssue s g [a.toNat] (pairOf d) [] i →
      let h := i.reg a.toNat i.lo
      let q := s.syz (hIndex h)
      let n (x : BufState) : Nat := (q.bufs.filter fun b => b.st == x).length
      ready s i h → q.filling = none → ∃ t, exec (.cqStat g d a) s = .next t ∧ t.syzygy = s.syzygy
        ∧ Goes s t i (i.after (pairFld d).toNat fun _ => [BitVec.ofNat 32 (n .taken * 2 ^ 11 + n .ready * 2 ^ 8), q.cfg]) i.preds)
  ∧ (∀ qi s k,
      let q := s.syz qi
      q.filling = some k → q.bound = true → q.timeout ≠ 0 → q.timeout ≤ s.since (q.buf k).since → (∃ r ∈ (q.buf k).rows, r.valid = true ∧ r.put = false) →
      ∃ t, exec (.syzygyTimeout qi) s = .next t ∧ t = { s with syzygy := t.syzygy }
        ∧ only s t qi { q with bufs := setAt q.bufs k { q.buf k with st := .ready, order := q.order + 1 }, order := q.order + 1 })

/-- R326 to R328: records leave a feed in index order for the lanes in ascending order, p0 telling which lanes got one, as an acquire of what their pushers
knew; a push stores a record behind the last, as a release, and tells a full feed in p0. -/
def Obligations.FeedInstructions : Prop :=
  let ready (s : State) (i : Iss) (h : Word) : Prop :=
    i.lanes ≠ 0 ∧ (s.ctx (s.pasidOf i.g)).replay = false ∧ s.feedNamed (s.pasidOf i.g) h = true ∧ ∀ t, i.f.stall ≠ some (.xlate t)
  let only (s t : State) (k : Nat) (x : Feed) : Prop := t.feedQ k = x ∧ ∀ j, j ≠ k → t.feedQ j = s.feedQ j
  let at_ (f : Feed) (n : Nat) : Nat := f.base + f.bytes * (n % 2 ^ f.n)
  let Pops (mk : Bool → Fld → Fld → Instr) (waits : Bool) : Prop :=
    ∀ g d a s i, ∀ place : Nat → Nat,
      let h := i.reg a.toNat i.lo
      let f := s.feedQ (hIndex h)
      let n := min (f.tail - f.head) i.lanes.count
      CanIssue s g [a.toNat] (runOf d.toNat f.words) [] i [0] → ready s i h → d.toNat + f.words ≤ 128 → f.bytes % 4 = 0 → 0 < f.bytes → (waits = true → f.head < f.tail) →
      (∀ j, j < n → ∃ x, access s i.g.core (s.pasidOf i.g) (at_ f (f.head + j)) .read = .ok (place j, x)) →
      ∃ t, exec (mk g d a) s = .next t
        ∧ Goes s t i (fun p l => match findAt (· == l) i.lanes.lanes with
            | some j => if j < n ∧ i.phys d.toNat ≤ p ∧ p < i.phys d.toNat + f.words then BitVec.ofNat 32 (s.mem.le (place j + 4 * (p - i.phys d.toNat)) 4) else i.g.lane p l
            | none => i.g.lane p l) (i.afterPred 0 fun l => (i.lanes.lanes.take n).contains l)
        ∧ (t.group i.gi).know = (f.vecs.take n).foldl (fun v x => match x with | some y => v.merge y | none => v) i.g.know
        ∧ (0 < n → ((t.group i.gi).frag i.fi).acquired = s.fillNo) ∧ only s t (hIndex h) { f with head := f.head + n, vecs := f.vecs.drop n }
  Pops .fdPop true ∧ Pops .fdTry false
  ∧ (∀ g a b s i l pa,
      let h := i.reg a.toNat i.lo
      let f := s.feedQ (hIndex h)
      CanIssue s g (a.toNat :: runOf b.toNat f.words) [] [] i [0] → ready s i h → Quiet s i → b.toNat + f.words ≤ 128 → 0 < f.words → i.lanes.lanes = [l] → s.hostLines = [] →
      (f.tail - f.head < 2 ^ f.n → (∃ x, access s i.g.core (s.pasidOf i.g) (at_ f f.tail) .write = .ok (pa, x) ∧ isTracked s (s.pasidOf i.g) x = false) →
        ∃ t, exec (.fdPush g a b) s = .next t ∧ t.mem = s.mem.write pa ((List.range f.words).flatMap fun j => leBytes 4 (i.reg (b.toNat + j) l).toNat)
          ∧ only s t (hIndex h) { f with tail := f.tail + 1, vecs := f.vecs ++ [some i.g.know] } ∧ (t.group i.gi).clk = ticked i.g.clk ∧ (t.group i.gi).regs = i.g.regs
          ∧ (∀ p m, p < 8 → m < 16 → ((t.group i.gi).pred p).has m = i.afterPred 0 (fun _ => true) p m) ∧ ((t.group i.gi).frag i.fi).pc = i.f.pc + 4)
      ∧ (2 ^ f.n ≤ f.tail - f.head → ∃ t, exec (.fdPush g a b) s = .next t ∧ Goes s t i i.g.lane (i.afterPred 0 fun _ => false) ∧ only s t (hIndex h) f))
  ∧ (∀ g d a s i, CanIssue s g [a.toNat] (pairOf d) [] i →
      let h := i.reg a.toNat i.lo
      let f := s.feedQ (hIndex h)
      ready s i h → ∃ t, exec (.fdStat g d a) s = .next t ∧ t.feeds = s.feeds
        ∧ Goes s t i (i.after (pairFld d).toNat fun _ => [BitVec.ofNat 32 (f.tail - f.head), BitVec.ofNat 32 (2 ^ f.n - (f.tail - f.head))]) i.preds)

/-! ### Collision and dynamics commands (chapter 15) -/

/-- R329 to R335, R339: a lane command whose addresses are aligned and canonical is taken with its lanes' records and reserves its future, as a release; one
whose map or model header is all zero is invalid and gives its lane the status 1, and its future is READY. For a dynamics command that is the model's
choice (log entry 44, DEDUCED: R339 does not name NJ = 0). -/
def Obligations.LaneCommands : Prop :=
  let Issues (x : Instr) (g dyn : Bool) (op : Nat) (d a b : BitVec 6) (sc : BitVec 2) (e : BitVec 1) (k : BitVec 5) (body : Nat) : Prop :=
    ∀ s i, CanIssue s g (pairOf d ++ pairOf a ++ pairOf b) [] [] i → i.lanes ≠ 0 → (i.g.fut k.toNat).st = .free →
      let addr (x : BitVec 6) (l : Nat) : Nat := (i.pair (pairFld x).toNat l).toNat
      addr a i.lo % 64 = 0 → addr a i.lo < 2 ^ 52 →
      (∀ l, i.lanes.has l = true → addr b l % 16 = 0 ∧ addr b l < 2 ^ 52 ∧ addr d l % 16 = 0 ∧ addr d l < 2 ^ 52) →
      ((if dyn then s.dyns else s.cols).filter fun c => c.core == i.g.core).length < 32 →
      let c : LaneCmd := {
        gi := i.gi, ctx := s.pasidOf i.g, core := i.g.core, op := op, lanes := i.lanes, head := addr a i.lo, fut := k.toNat, body := body, race := i.g.race,
        recs := i.lanes.lanes.map fun l => (l, addr b l, addr d l), fids := i.f.fid :: i.f.before, since := s.seq, rel := e == 1, scope := sc, id := i.g.id,
        clk := i.g.clk, know := i.g.know, pc := i.f.pc }
      ∃ t, exec x s = .next t ∧ t.cols = (if dyn then s.cols else s.cols ++ [c]) ∧ t.dyns = (if dyn then s.dyns ++ [c] else s.dyns)
        ∧ (t.group i.gi).futures = setAt i.g.futures k.toNat { st := .pending, lanes := i.lanes } ∧ (t.group i.gi).clk = ticked i.g.clk
        ∧ ((t.group i.gi).frag i.fi).pc = i.f.pc + 8 ∧ (t.group i.gi).regs = i.g.regs ∧ (t.group i.gi).preds = i.g.preds ∧ t.mem = s.mem
        ∧ ∀ k, k ≠ i.gi → t.groups[k]? = s.groups[k]?
  let Query (mk : Bool → BitVec 6 → BitVec 6 → BitVec 6 → BitVec 2 → BitVec 1 → BitVec 1 → BitVec 5 → Instr) (dyn : Bool) (op : Nat) : Prop :=
    ∀ g d a b sc e q k, Issues (mk g d a b sc e q k) g dyn op d a b sc e k 0
  let Completes (x : Nat → Instr) (dyn : Bool) : Prop :=
    ∀ n s c l b r pr, ∀ place : Nat → Nat, (if dyn then s.dyns else s.cols)[n]? = some c → c.recs = [(l, b, r)] → c.race = .off → c.waits = [] → s.unperf = [] → s.memBad = [] →
      c.head + 64 ≤ 2 ^ 52 → (∀ k, k < 4 → ∃ y, access s c.core c.ctx (c.head + 16 * k) .read = .ok (place k, y)) →
      (∀ k j, k < 4 → j < 16 → s.mem.get (place k + j) = 0) → r < 2 ^ 52 →
      (∃ y, access s c.core c.ctx r .write = .ok (pr, y) ∧ isTracked s c.ctx y = false) →
      c.gi < s.groups.length → (s.group c.gi).state = .resident → ((s.group c.gi).fut c.fut).st = .pending →
      ∃ t, exec (x n) s = .next t ∧ t.mem = s.mem.write pr (leBytes 16 1)
        ∧ t.cols = (if dyn then s.cols else dropAt s.cols n) ∧ t.dyns = (if dyn then dropAt s.dyns n else s.dyns)
        ∧ (t.group c.gi).futures = setAt (s.group c.gi).futures c.fut { (s.group c.gi).fut c.fut with st := .ready, err := none, vecs := [c.know] }
        ∧ (t.group c.gi).regs = (s.group c.gi).regs
  -- any command whose addresses translate completes: it leaves its engine, and its future is READY with what it carries
  let Ends (x : Nat → Instr) (dyn : Bool) (run : State → LaneCmd → LaneRun) : Prop :=
    ∀ n s c, (if dyn then s.dyns else s.cols)[n]? = some c → (run s c).miss = [] → c.gi < s.groups.length →
      ∃ t, exec (x n) s = .next t ∧ t.cols = (if dyn then s.cols else dropAt s.cols n) ∧ t.dyns = (if dyn then dropAt s.dyns n else s.dyns)
        ∧ ((s.group c.gi).state = .resident → c.fut < (s.group c.gi).futures.length → ((s.group c.gi).fut c.fut).st = .pending →
            ((t.group c.gi).fut c.fut).st = .ready ∧ ((t.group c.gi).fut c.fut).vecs = [c.know])
        ∧ (t.group c.gi).regs = (s.group c.gi).regs ∧ ∀ k, k ≠ c.gi → t.groups[k]? = s.groups[k]?
  Query .colRay false 0 ∧ Query .colSph false 1 ∧ Query .colBox false 2 ∧ Query .colSweep false 3 ∧ Query .colDist false 4 ∧ Query .colUpd false 5
  ∧ Query .dynFk true 0 ∧ Query .dynId true 1 ∧ Query .dynFd true 2 ∧ Query .dynStep true 3 ∧ Query .dynMass true 5
  ∧ (∀ g d a b n sc e q k, Issues (.dynJac g d a b n sc e q k) g true 4 d a b sc e k n.toNat)
  ∧ Ends .collisionCommandComplete false runCollision ∧ Ends .dynamicsCommandComplete true runDynamics
  ∧ Completes .collisionCommandComplete false ∧ Completes .dynamicsCommandComplete true

/-! ### Traps, handlers, system calls (chapter 16) -/

/-- R342, R344, R346, R351, R352, Table 16-1: `trap`, `brk` and `sys` stop the block; so do a word that is no instruction, a fetch that fails, a register
beyond the allocation, an instruction without its right and a misaligned offset, each with its code, address, lanes and detail. -/
def Obligations.StopsAreTaken : Prop :=
  let user (s : State) (i : Iss) : Target := if (s.launchOf i.g).kernel.handler ≠ 0 then .user else sysTarget s i
  (∀ g n s i, CanIssue s g [] [] [] i → i.lanes ≠ 0 → MayStop s i →
    ∃ t, exec (.trap g n) s = .next t ∧ Stopped s t i 0x0B (i.f.pc + 4) 0 i.lanes (n.setWidth 32) (user s i))
  ∧ (∀ g n s i, CanIssue s g [] [] [] i → i.lanes ≠ 0 → MayStop s i →
    ∃ t, exec (.brk g n) s = .next t ∧ Stopped s t i 0x0C i.f.pc 0 i.lanes (n.setWidth 32) .chovis)
  ∧ (∀ g d a sv c s i, CanIssue s g (runOf a.toNat (c.toNat + 1)) [d.toNat] [] i → i.lanes ≠ 0 → MayStop s i →
    ∃ t, exec (.sys g d a sv c) s = .next t ∧ Stopped s t i 0x0E (i.f.pc + 4) 0 i.lanes (sv.setWidth 32) .chovis ∧ (t.blockOf i.g).committed = true
      ∧ t.sysreqs = s.sysreqs ++ [{ ctx := s.pasidOf i.g, gi := i.gi, fid := i.f.fid, bytes := sysBytes s i a sv (c.toNat + 1), dreg := i.phys d.toNat,
                                    lanes := i.lanes, inHandler := false }])
  ∧ (∀ g d a sv c s i, CanIssue s g (runOf a.toNat (c.toNat + 1)) [d.toNat] [] i → i.lanes ≠ 0 → i.f.handler ≠ none → i.f.stall = none →
      ((s.ctx (s.pasidOf i.g)).ring 2).1 = 0 →
      ∃ t, exec (.sys g d a sv c) s = .next t ∧ Goes s t i (i.after d.toNat fun _ => [0xFFFFFFFF]) i.preds)
  ∧ (∀ (w0 w1 : Word) detail s i, Issuing s (w0.getLsbD 25) i → MayStop s i →
    ∃ t, exec (.illegalInstruction w0 w1 detail) s = .next t ∧ Stopped s t i 0x01 i.f.pc (w1 ++ w0) i.lanes (BitVec.ofNat 32 detail) (sysTarget s i))
  ∧ (∀ code addr s i, code = 0x03 ∨ code = 0x04 → Issuing s false i → MayStop s i →
    ∃ t, exec (.instructionFetchFault code addr) s = .next t ∧ Stopped s t i code i.f.pc (BitVec.ofNat 64 addr) i.f.amask 0 (sysTarget s i))
  ∧ (∀ g d a b s i, Issuing s g i → MayStop s i → (i.N ≤ i.phys d.toNat ∨ i.N ≤ i.phys a.toNat ∨ i.N ≤ i.phys b.toNat) →
    ∃ t, exec (.add g d a b) s = .next t ∧ Stopped s t i 0x02 i.f.pc 0 i.lanes 0 (sysTarget s i))
  ∧ (∀ g d a s i, Issuing s g i → MayStop s i →
    ∃ t, exec (.l2part g d a) s = .next t ∧ Stopped s t i 0x04 i.f.pc 0 i.lanes 5 (sysTarget s i))
  ∧ (∀ g s i, Issuing s g i → MayStop s i →
    (∃ t, exec (.eret g) s = .next t ∧ Stopped s t i 0x04 i.f.pc 0 i.lanes 3 (sysTarget s i))
    ∧ ∃ t, exec (.eretR g) s = .next t ∧ Stopped s t i 0x04 i.f.pc 0 i.lanes 3 (sysTarget s i))
  ∧ (∀ g d a b s i, CanIssue s g [a.toNat, b.toNat] [d.toNat] [] i → i.lanes ≠ 0 → MayStop s i → Quiet s i → (i.reg a.toNat i.lo).toNat % 8 ≠ 0 →
    ∃ t, exec (.barArr g d a b) s = .next t ∧ Stopped s t i 0x05 i.f.pc ((i.reg a.toNat i.lo).setWidth 64) i.lanes 0x33 (sysTarget s i))

/-- R344 to R346, R349, R355, R357, R358: a sibling stops with its own trap registers; when the block stands and everything has performed, the handler takes
the stopping fragment's place; a return puts it back at TRAPPC, or at the replay of the instruction in the lanes that are left, and the block runs on.
That the handler's PC is the entry field cut to 52 bits and to a multiple of 4 is the model's choice (log entry 38, DEDUCED). -/
def Obligations.HandlersEnterAndReturn : Prop :=
  let Enters (s : State) (bi : Nat) (h : Halt) (y : Group) (fi : Nat) (kind : HKind) (entry : Nat) : Prop :=
    ∃ t f, exec (.handlerEntry bi) s = .next t ∧ (t.block bi).halt = some { h with phase := .handling } ∧ (t.group h.stopper).frame = some (y.frag fi)
      ∧ (t.group h.stopper).frags = dropAt y.frags fi ++ [f] ∧ f.pc = BitVec.ofNat 52 (entry / 4 * 4) ∧ f.handler = some kind ∧ f.fid = y.nextFid
      ∧ f.amask = (y.frag fi).amask ∧ f.wb = (y.frag fi).wb ∧ f.fmt = (y.frag fi).fmt ∧ f.latch = (y.frag fi).latch ∧ f.inner = none
      ∧ (t.group h.stopper).regs = y.regs ∧ (t.group h.stopper).trap = y.trap ∧ t.mem = s.mem ∧ ∀ k, k ≠ h.stopper → t.groups[k]? = s.groups[k]?
  let Returns (s : State) (x : Instr) (i : Iss) (f0 : Frag) (pc : BitVec 52) (replay : Option Mask) : Prop :=
    ∃ t f, exec x s = .next t ∧ (t.group i.gi).frame = none
      ∧ (t.group i.gi).frags = i.g.frags.filter (fun f => f.handler.isNone) ++ [f] ∧ f.pc = pc ∧ f.replay = replay ∧ f.stall = none
      ∧ f.fid = f0.fid ∧ f.amask = f0.amask ∧ f.wb = f0.wb ∧ f.fmt = f0.fmt ∧ f.latch = f0.latch ∧ f.inner = f0.inner
      ∧ (t.group i.gi).regs = i.g.regs ∧ (t.group i.gi).preds = i.g.preds ∧ t.mem = s.mem
      ∧ match replay with
        | none => (t.blockOf i.g).halt = none ∧ (t.group i.gi).hold = .run ∧ ∀ k y, k ≠ i.gi → s.groups[k]? = some y →
            t.groups[k]? = some (if y.block = i.g.block ∧ y.state ≠ .retired ∧ y.hold ≠ .solo then { y with hold := .run, skid := 0, stopFid := 0 } else y)
        -- the block is held until the replay has been issued
        | some _ => (t.blockOf i.g).halt = (s.blockOf i.g).halt.map (fun h => { h with phase := .replaying }) ∧ (t.group i.gi).hold = i.g.hold
            ∧ ∀ k y, k ≠ i.gi → s.groups[k]? = some y → t.groups[k]? = some (if y.block = i.g.block ∧ y.state ≠ .retired then { y with skid := 0 } else y)
  let inHandler (s : State) (g : Bool) (i : Iss) (f0 : Frag) (kind : HKind) : Prop :=
    CanIssue s g [] [] [] i ∧ i.lanes ≠ 0 ∧ i.f.handler = some kind ∧ i.f.inner = none ∧ i.g.frame = some f0 ∧ i.g.traced = false ∧ i.f.held = []
      ∧ i.g.state = .resident ∧ i.g.hold ≠ .solo ∧ i.g.block < s.blocks.length ∧ ∀ y ∈ s.groups, y.block = i.g.block → y.pending = none
  (∀ gi s y h, s.groups[gi]? = some y → (s.block y.block).halt = some h → y.hold = .skid →
    ∃ t, exec (.siblingStop gi) s = .next t ∧ (t.group gi).hold = .stopped ∧ (t.group gi).trap.code = 0
      ∧ (t.group gi).trap.skid = BitVec.ofNat 32 ((s.group h.stopper).id.toNat * 32 + y.skid % 16) ∧ (t.group gi).regs = y.regs ∧ t.mem = s.mem
      ∧ ∀ k, k ≠ gi → t.groups[k]? = s.groups[k]?)
  ∧ (∀ bi s h y fi, (s.block bi).halt = some h → h.phase = .stopping → h.told = true → (s.block bi).place = .placed → s.groups[h.stopper]? = some y → y.fragAt y.stopFid = some fi →
      (∀ (k : Nat) (z : Group), s.groups[k]? = some z → z.block = bi → z.state ≠ .retired → z.hold = .stopped ∧ z.outst = [] ∧ z.xfers = [] ∧ ∀ e ∈ s.unperf, e.gi ≠ k) →
      (h.target = .user → Enters s bi h y fi .user (s.launchOf y).kernel.handler)
      ∧ (h.target = .system → Enters s bi h y fi .system (s.ctxOf y).sysh)
      ∧ (h.target = .chovis → h.code ≠ 0x0E → ∃ t r, exec (.handlerEntry bi) s = .next t ∧ (t.block bi).halt = some { h with phase := .chovis } ∧ t.groups = s.groups
          ∧ t.mem = s.mem ∧ t.chovis = s.chovis ++ [r] ∧ r.ctx = s.pasidOf y ∧ r.ring = if h.code = 0x0C ∨ h.code = 0x0D then 3 else 1))
  ∧ (∀ g s i f0, inHandler s g i f0 .system → Returns s (.eret g) i f0 i.g.trap.pc none)
  ∧ (∀ g s i f0, inHandler s g i f0 .user → Returns s (.tret g) i f0 i.g.trap.pc none)
  ∧ (∀ g s i f0, inHandler s g i f0 .system →
      let m : Mask := i.g.trap.mask.truncate 16 &&& f0.amask
      (m ≠ 0 → Returns s (.eretR g) i f0 i.g.trap.pc (some m))
      ∧ (m = 0 → ∀ w, fetchWord s i.g.core (s.pasidOf i.g) i.g.trap.pc.toNat = .ok w →
          Returns s (.eretR g) i f0 (i.g.trap.pc + if isX (WordFields.ofWord w).maj = true then 8 else 4) none))
  ∧ (∀ g mh mm ml t r mt s i, CanIssue s g [] [] [] i → i.lanes ≠ 0 →
      let f := { i.f with map := some { map := mt ++ mh ++ mm ++ ml, smode := t, ridx := r } }
      (∃ u, exec (.phint g mh mm ml t r mt) s = .next u ∧ Went s u i f (i.f.pc + 8) i.g.lane i.preds)
      ∧ (i.g.preempt = none → ∃ u, exec (.ppoint g mh mm ml t r mt) s = .next u ∧ Went s u i f (i.f.pc + 8) i.g.lane i.preds)
      ∧ (i.g.preempt ≠ none → ∃ u, exec (.ppoint g mh mm ml t r mt) s = .next u ∧ (u.group i.gi).quiesced = true ∧ ((u.group i.gi).frag i.fi).pc = i.f.pc + 8
          ∧ ((u.group i.gi).frag i.fi).map = f.map ∧ (u.group i.gi).regs = i.g.regs ∧ u.mem = s.mem))

/-- R353, R405, R406: Chovis appends a record to its ring and raises the interrupt, and holds it while the ring is full; a reply reaches the caller's
registers and the block goes on behind the call. -/
def Obligations.ChovisWritesAndReplies : Prop :=
  let calm (s : State) : Prop := s.hostLines = [] ∧ ∀ c ∈ s.ctxs, c.shadow = 0
  let int (r : ChovisRec) : Msg := .int (BitVec.ofNat 32 (r.src % 4 * 2 ^ 28 + r.ctx % 2 ^ 20))
  let Written (s t : State) (n : Nat) (r : ChovisRec) (base k : Nat) : Prop :=
    t.chovis = dropAt s.chovis n ∧ t.outbox = int r :: s.outbox ∧ t.groups = s.groups
      ∧ t.mem = (s.mem.write (base + 64 + 64 * (s.mem.le base 8 % 2 ^ k)) r.bytes).write base (leBytes 8 (s.mem.le base 8 + 1))
  (∀ n s r base k, s.chovis[n]? = some r → (s.ctx r.ctx).alive = true → (s.ctx r.ctx).ring r.ring = (base, k) → calm s →
    (base ≠ 0 → s.ringRoom base k ≠ 0 → ∃ t, exec (.chovisFaultRecord n) s = .next t ∧ Written s t n r base k)
    ∧ (base ≠ 0 → s.ringRoom base k = 0 → exec (.chovisFaultRecord n) s = .next { s with chovis := modAt s.chovis n fun r => { r with held := true } })
    ∧ (base = 0 → exec (.chovisFaultRecord n) s = .next { s with chovis := dropAt s.chovis n, outbox := int r :: s.outbox })
    ∧ (base ≠ 0 → s.ringRoom base k ≠ 0 → r.held = true → ∃ t, exec (.eventRingRoom n) s = .next t ∧ Written s t n r base k))
  ∧ (∀ n s r w y fi, s.sysreqs[n]? = some r → r.entry = some w → r.inHandler = false → s.groups[r.gi]? = some y → y.fragAt r.fid = some fi → y.stopFid = r.fid →
      y.hold = .stopped → y.state = .resident → y.traced = false → y.debugStep = false → y.block < s.blocks.length → (∀ z ∈ s.groups, z.block = y.block → z.pending = none) →
      let e := ((s.ctx r.ctx).ring 2).1 + 64 + 512 * (w % 2 ^ ((s.ctx r.ctx).ring 2).2)
      s.mem.le (e + 384) 4 = 1 →
      ∃ t, exec (.sysReply n) s = .next t ∧ t.sysreqs = dropAt s.sysreqs n ∧ t.mem = s.mem ∧ (t.block y.block).halt = none ∧ (t.group r.gi).hold = .run
        ∧ ((t.group r.gi).frag fi).pc = y.trap.pc ∧ ((t.group r.gi).frag fi).acquired = s.fillNo ∧ (t.group r.gi).preds = y.preds
        ∧ ∀ p l, p < y.regs.length → l < 16 → (t.group r.gi).lane p l = if p = r.dreg ∧ r.lanes.has l = true then BitVec.ofNat 32 (s.mem.le (e + 320 + 4 * l) 4) else y.lane p l)

/-! ### Trace and profile (chapter 17) -/

/-- R372 to R377, R380 to R383: trace instructions and what the cluster's trace unit does by itself. Each of them completes, whether its group is traced or not
and whether the buffer has room or not; a packet that finds room stands at the end of the buffer. The model's choices are that `tctl.off` leaves held
outcomes held (log entry 35, DEDUCED) and how the contexts of a partition share its samples (log entry 56, DEDUCED). -/
def Obligations.TraceAndProfile : Prop :=
  let unit (s : State) (cl : Nat) : TraceUnit := s.traces[cl]?.getD {}
  -- the buffer of a cluster takes n bytes more, and holds nothing of the cycle
  let room (s : State) (cl n cyc : Nat) : Prop :=
    cl < s.traces.length ∧ (unit s cl).lossy = [] ∧ (unit s cl).resync = none ∧ bufBytes (unit s cl).buf + n ≤ 65536 ∧ ∀ q ∈ (unit s cl).buf, q.cyc ≠ cyc
  let may (s : State) (i : Iss) (ts : Bool) : Prop :=
    i.f.handler = some .system ∨ (s.ctxOf i.g).traceBase ≠ 0 ∧ (s.ctxOf i.g).trace = true ∧ (ts = true → (s.ctxOf i.g).stamp = true)
  let own (s : State) (i : Iss) (ty : Byte) (payload : List Byte) : Packet :=
    { pasid := s.pasidOf i.g, ty := ty, cpos := i.g.core % 4, low := lowLane i.f.amask, gslot := i.g.slot, lstamp := if i.g.optLc then some (lstampOf i.g.know) else none,
      cyc := s.cycle i.g.core, payload := payload, clk := s.clock[clusterOf i.g.core]?.getD 0 }
  let Marks (s : State) (x : Instr) (i : Iss) (reg : Nat → Nat → Word) (p : Packet) : Prop :=
    let cl := clusterOf i.g.core
    ∃ t, exec x s = .next t ∧ Moves s t i 4 reg i.preds
      ∧ (i.g.traced = false → i.f.held = [] → (s.ctx (s.pasidOf i.g)).replay = false → Wrote s t i 4 reg i.preds)
      ∧ (i.g.traced = true → (s.ctx (s.pasidOf i.g)).replay = false → i.f.held = [] → room s cl p.size p.cyc →
          t.mem = s.mem ∧ (unit t cl).buf = (unit s cl).buf ++ [p] ∧ (unit t cl).entered = (unit s cl).entered + 1)
  (∀ g a s i, CanIssue s g [a.toNat] [] [] i → i.lanes ≠ 0 → Marks s (.tmark g a) i i.g.lane (own s i 0x06 (leBytes 4 (i.reg a.toNat i.lo).toNat)))
  ∧ (∀ g d s i, CanIssue s g [] (pairOf d) [] i → i.lanes ≠ 0 →
      Marks s (.tstamp g d) i (i.after (pairFld d).toNat fun _ => pairWords (BitVec.ofNat 64 s.time)) (own s i 0x07 (leBytes 8 s.time)))
  ∧ (∀ g d a s i, CanIssue s g [a.toNat] (pairOf d) [] i → i.lanes ≠ 0 →
      let n := (i.reg a.toNat i.lo).toNat % 256
      let core := i.g.core
      ∃ t v, exec (.pctr g d a) s = .next t ∧ Moves s t i 4 (i.after (pairFld d).toNat fun _ => pairWords (BitVec.ofNat 64 v)) i.preds
        ∧ ((s.ctx (s.pasidOf i.g)).replay = false → t.mem = s.mem)
        ∧ (n = 0 → v = i.g.issued - i.g.issuedFrom) ∧ (n = 1 → v = s.cycle core - i.g.placedAt) ∧ (16 ≤ n → n ≤ 31 → v = i.g.codes[n - 16]?.getD 0)
        ∧ (n = 32 → v = s.corrected[core]?.getD 0) ∧ (n = 33 → v = i.g.matDone - i.g.matFrom) ∧ (n = 34 → v = i.g.misses)
        ∧ (n = 35 → v = (unit s (clusterOf core)).total) ∧ ((2 ≤ n ∧ n < 16) ∨ 35 < n → v = 0))
  ∧ (∀ g s i, CanIssue s g [] [] [] i → i.lanes ≠ 0 →
      exec (.tctlOff g) s = .next ((s.modG i.gi fun y => { y with traced := false, optLc := false, optSt := false, optTs := false }).advance i))
  ∧ (∀ g o s i, CanIssue s g [] [] [] i → i.lanes ≠ 0 → may s i (o.getLsbD 2) →
      ∃ t, exec (.tctlOn g o) s = .next t ∧ Goes s t i i.g.lane i.preds ∧ (t.group i.gi).traced = true ∧ (t.group i.gi).optLc = o.getLsbD 0
        ∧ (t.group i.gi).optSt = o.getLsbD 1 ∧ (t.group i.gi).optTs = o.getLsbD 2)
  -- a flush completes once what was written before it is in the rings, and waits until then
  ∧ (∀ g s i, CanIssue s g [] [] [] i → i.lanes ≠ 0 → may s i false →
      let u := unit s (clusterOf i.g.core)
      (i.f.stall = none → u.entered ≤ u.drained → exec (.tctlFlush g) s = .next (s.advance i))
      ∧ (∀ n, i.f.stall = some (.flush n) → n ≤ u.drained → exec (.tctlFlush g) s = .next (s.advance i))
      ∧ (i.f.stall = none → u.drained < u.entered → exec (.tctlFlush g) s = .next (s.modF i.gi i.fi fun f => { f with stall := some (.flush u.entered) })))
  ∧ (∀ cl s, cl < s.traces.length → (unit s cl).lastSync + 65536 ≤ s.cyc[cl]?.getD 0 →
      ∃ t, exec (.sync cl) s = .next t ∧ t = { s with traces := t.traces } ∧ (unit t cl).lastSync = s.cyc[cl]?.getD 0
        ∧ (bufBytes (unit s cl).buf + 21 * (tracedCtxs s cl).length ≤ 65536 → ∃ ps, (unit t cl).buf = (unit s cl).buf ++ ps ∧ ps.map (·.pasid) = tracedCtxs s cl
            ∧ ∀ p ∈ ps, p.ty = 0x0C ∧ p.cyc = s.cyc[cl]?.getD 0 ∧ p.payload =
                leBytes 8 ((s.time * 1000 + s.fine - s.phase[cl]?.getD 0 / s.clock[cl]?.getD 0) / 1000 % 2 ^ 64) ++ leBytes 8 (s.cyc[cl]?.getD 0)))
  ∧ (∀ gi s y, s.groups[gi]? = some y → y.state = .resident → y.traced = true → y.optSt = true → y.idleTold = false → y.idle = 256 →
      let cl := clusterOf y.core
      ∃ t, exec (.stall gi) s = .next t ∧ t.groups = setAt s.groups gi { y with idleTold := true } ∧ t.mem = s.mem
        ∧ (room s cl 9 (s.cycle y.core - 1) → ∃ p, (unit t cl).buf = (unit s cl).buf ++ [p] ∧ p.ty = 0x09 ∧ p.cyc = s.cycle y.core - 1 ∧ p.payload = leBytes 1 y.code))
  ∧ (∀ cl s p rest, cl < s.traces.length → (unit s cl).buf = p :: rest →
      let c := s.ctx p.pasid
      let h := c.traceBase + 64 * cl
      let size := s.mem.le (h + 24) 8
      let w := s.mem.le h 8
      let dt := match (unit s cl).rings.find? fun r => r.1 == p.pasid with | some r => if p.dt0 then 0 else p.cyc - r.2 | none => 0
      (c.traceBase = 0 ∨ size = 0 ∨ p.size + w ≤ size + s.mem.le (h + 8) 8 →
        ∃ t, exec (.traceDrain cl) s = .next t ∧ (unit t cl).buf = rest ∧ (unit t cl).drained = (unit s cl).drained + 1 ∧ t.groups = s.groups
          ∧ (c.traceBase = 0 ∨ size = 0 → t.mem = s.mem)
          ∧ (c.traceBase ≠ 0 → p.ty ≠ 0x0C → w % size + (p.bytes dt).length ≤ size →
              t.mem = (s.mem.write (s.mem.le (h + 16) 8 + w % size) (p.bytes dt)).write h (leBytes 8 (w + (p.bytes dt).length))))
      ∧ (c.traceBase ≠ 0 → size ≠ 0 → size + s.mem.le (h + 8) 8 < p.size + w → exec (.traceDrain cl) s = .next s))
  -- LOSS, SYNC and STARTs of a resynchronisation, in three cycles
  ∧ (∀ cl s p, cl < s.traces.length →
      let u := unit s cl
      let now := s.cyc[cl]?.getD 0
      (u.resync = none → u.lossy = [p] → bufBytes u.buf + resyncOwed s cl [p] ≤ 65536 →
        ∃ t a, exec (.traceLossResync cl) s = .next t ∧ t = { s with traces := t.traces } ∧ (unit t cl).lossy = [] ∧ (unit t cl).dropped = 0
          ∧ (unit t cl).resync = some (1, now + 1, [p]) ∧ (unit t cl).buf = u.buf ++ [a] ∧ a.pasid = p ∧ a.ty = 0x0E ∧ a.cyc = now ∧ a.payload = leBytes 4 u.dropped)
      ∧ (∀ c, u.resync = some (1, c, [p]) → c ≤ now → bufBytes u.buf + 21 ≤ 65536 →
        ∃ t a, exec (.traceLossResync cl) s = .next t ∧ t = { s with traces := t.traces } ∧ (unit t cl).resync = some (2, now + 1, [p])
          ∧ (unit t cl).buf = u.buf ++ [a] ∧ a.pasid = p ∧ a.ty = 0x0C ∧ a.cyc = now ∧ a.payload = leBytes 8 s.time ++ leBytes 8 now)
      ∧ (∀ c ps, u.resync = some (2, c, ps) → c ≤ now → ∃ t, exec (.traceLossResync cl) s = .next t ∧ (unit t cl).resync = none ∧ t.mem = s.mem
          ∧ ∀ (k : Nat) (y : Group), s.groups[k]? = some y → ∃ fs, t.groups[k]? = some { y with frags := fs }))
  ∧ (∀ core part s, ∃ t, exec (.profileSample core part) s = .next t ∧ t = { s with ctxs := t.ctxs, samples := t.samples }
      ∧ ∀ p y pr, core < 64 → part < 16 → sampleCtxs s core part = [p] → nextSlot (partGroups s core part) (lastSample s p core part).1 = some y → s.pasidOf y = p →
          (s.ctx p).prof = some pr → t.samples = setAssoc s.samples (1024 * p + 16 * core + part) (y.slot, s.cycle core)
            ∧ (t.ctx p).prof = some (pr.count (samplePc y) (codeOf y)))


/-! ### Steps of the device for groups; parking, saving and restoring (5.7, 5.8, 16.6, 19.3) -/

/-- R99, R100, R113 to R118, R199, R360, R363, R366, R420, R422: what befalls groups and blocks by itself, when it is due. -/
def Obligations.GroupsAgeParkAndReturn : Prop :=
  (∀ gi fi s y f e en, s.groups[gi]? = some y → y.frags[fi]? = some f → f.replay = none → f.stall = none → f.inner = some e → y.splits[e]? = some (some en) →
      en.rpc = f.pc → y.traced = false →
      (en.arrived ||| f.amask ≠ en.lanes → ∃ t en', exec (.fragmentArrive gi fi) s = .next t ∧ (t.group gi).frags = dropAt y.frags fi ∧ (t.group gi).regs = y.regs
        ∧ (t.group gi).splits = setAt y.splits e (some en') ∧ en'.arrived = en.arrived ||| f.amask ∧ en'.lanes = en.lanes ∧ en'.rpc = en.rpc ∧ en'.parent = en.parent)
      ∧ (en.arrived ||| f.amask = en.lanes → ∃ t f', exec (.fragmentArrive gi fi) s = .next t ∧ (t.group gi).frags = dropAt y.frags fi ++ [f'] ∧ (t.group gi).regs = y.regs
        ∧ (t.group gi).splits = setAt y.splits e none ∧ f'.pc = en.rpc ∧ f'.amask = en.lanes ∧ f'.inner = en.parent ∧ f'.fmt = en.fmt ∧ f'.wb = en.wb
        ∧ f'.latch = if en.sampled < f.sampled then f.latch else en.latch))
  ∧ (∀ gi fi s, ((s.group gi).frag fi).aged = false → isReady s gi fi = true → ((s.group gi).frag fi).readyAt + 63 ≤ s.cycle (s.group gi).core →
      exec (.fragmentAged gi fi) s = .next (s.modF gi fi fun f => { f with aged := true }))
  ∧ (∀ bi s, parkDue s bi = true → (∀ y ∈ s.groups, ∀ f ∈ y.frags, f.held = []) →
      ∃ t, exec (.blockPark bi) s = .next t ∧ (t.block bi).reason = 1 ∧ t.mem = s.mem ∧ ∀ (k : Nat) (y : Group), s.groups[k]? = some y →
        t.groups[k]? = some (if y.block = bi ∧ y.state ≠ .retired then { y with quiesced := true } else y))
  ∧ (∀ li s cores vs, preemptDue s li = true → preemptPlan s li = some (cores, vs) → (∀ b ∈ vs, discardable s b = false) →
      ∃ t, exec (.preemptionRequest li) s = .next t ∧ (t.launch li).claim = cores ∧ t.mem = s.mem ∧ (∀ b ∈ vs, b < s.blocks.length → (t.block b).reason = 2)
        ∧ ∀ (k : Nat) (y : Group), s.groups[k]? = some y → t.groups[k]? = some (if y.block ∈ vs ∧ y.state ≠ .retired then { y with preempt := some (s.cycle y.core) } else y))
  ∧ (∀ gi s y n, s.groups[gi]? = some y → y.state = .resident → y.quiesced = false → y.preempt = some n → n + 2048 ≤ s.cycle y.core →
      ∃ t, exec (.preemptForcedStop gi) s = .next t ∧ (t.group gi).quiesced = true ∧ (t.group gi).regs = y.regs
        ∧ (t.group gi).frags.map (·.map) = y.frags.map (·.map) ∧ t.mem = s.mem ∧ ∀ k, k ≠ gi → t.groups[k]? = s.groups[k]?)
  ∧ (∀ gi s y o rest, s.groups[gi]? = some y → y.state = .resident → y.matHeld = false → y.ops = o :: rest → (s.blockOf y).reason ≠ 0 →
      ∃ t j, exec (.matrixQuiescence gi) s = .next t ∧ (t.group gi).matHeld = true ∧ (t.group gi).ops = { o with nextj := j } :: rest ∧ o.nextj ≤ j
        ∧ (∀ x ∈ o :: rest, x.dt < y.tiles.length → ((t.group gi).tile x.dt).resume = true) ∧ (t.group gi).regs = y.regs ∧ t.mem = s.mem)
  ∧ (∀ bi s t, savedState s bi = some t → s.mem.wf = true →
      exec (.saveComplete bi) s = .next t
        ∧ (let b := t.block bi
           let c := s.ctx (s.launch (s.block bi).launch).ctx
           b.place = (if (s.block bi).reason = 1 then .parked else .saved) ∧ c.save ≤ b.image ∧ b.image + b.img.length ≤ c.save + 2 ^ c.saveLog
             ∧ t.mem.read b.image b.img.length = b.img ∧ (∀ a, a < b.image ∨ b.image + b.img.length ≤ a → t.mem.get a = s.mem.get a)
             ∧ ∀ (k : Nat) (y : Group), s.groups[k]? = some y → y.block = bi → y.state ≠ .retired → (t.group k).state = (if (s.block bi).reason = 1 then .parked else .saved)))
  ∧ (∀ bi s, restoreDue s bi = true → s.mem.read (s.block bi).image (imageBytes s bi).length = imageBytes s bi → s.memBad = [] →
      ∃ t, exec (.blockRestore bi) s = .next t ∧ (t.block bi).place = .placed ∧ (t.block bi).reason = 0 ∧ (t.block bi).cores ∈ restorePlaces s bi
        ∧ (∀ (k : Nat) (y : Group), s.groups[k]? = some y → y.block = bi → y.state ≠ .retired →
            (t.group k).state = (if y.struck = true then .retiring else .resident) ∧ (t.group k).regs = y.regs ∧ (t.group k).preds = y.preds ∧ (t.group k).quiesced = false)
        -- another block's group changes only where a struck group gives up what it has taken of a Syzygy queue
        ∧ (∀ (k : Nat) (y : Group), s.groups[k]? = some y → y.block ≠ bi → ∃ fs, t.groups[k]? = some { y with futures := fs } ∧
            ((∀ z ∈ s.groups, z.block = bi → z.struck = false) → fs = y.futures)) ∧ t.mem = s.mem)
  ∧ (∀ core pasid va s x b, core < 64 → (s.ctx pasid).alive = true → va < 2 ^ 52 → walkNow s pasid va = .page x b →
      ∃ tlb tlb2 walks, exec (.translationWalkComplete core pasid va) s = .next { s with tlb := tlb, tlb2 := tlb2, walks := walks } ∧ (∀ e ∈ s.tlb, e ∈ tlb) ∧ (∀ e ∈ s.tlb2, e ∈ tlb2)
        ∧ ∃ e ∈ tlb, e.core = core ∧ e.pasid = pasid ∧ e.gen = (s.ctx pasid).gen ∧ e.vpn = va / 4096 ∧
            -- the page that the walk found, unless the core's TLB or its cluster's holds the page already
            e.x = (((tlbFind s.tlb core pasid e.gen va).orElse fun _ => tlbFind s.tlb2 (clusterOf core) pasid e.gen va).map (·.x)).getD x)
  ∧ (∀ n s x base k, s.xfaults[n]? = some x → x.told = false → x.failed = false → (s.ctx x.pasid).ring 1 = (base, k) → base ≠ 0 → s.ringRoom base k ≠ 0 →
      s.hostLines = [] → (∀ c ∈ s.ctxs, c.shadow = 0) →
      ∃ t, exec (.replayableFaultRecord n) s = .next t ∧ t.xfaults = setAt s.xfaults n { x with told := true } ∧ t.groups = s.groups
        ∧ t.outbox = .int (BitVec.ofNat 32 (2 ^ 28 + x.pasid % 2 ^ 20)) :: s.outbox
        ∧ t.mem = (s.mem.write (base + 64 + 64 * (s.mem.le base 8 % 2 ^ k)) x.bytes).write base (leBytes 8 (s.mem.le base 8 + 1)))
  ∧ (∀ n s x, s.xfaults[n]? = some x → x.failed = false → 100000000 ≤ s.since x.time → heldToken s x.token = true →
      ∃ t, exec (.faultResponseTimeout n) s = .next t ∧ t = { s with xfaults := t.xfaults } ∧ { x with failed := true } ∈ t.xfaults)

/-! ### Queues and packets (18.1 to 18.5) -/

/-- R388, R391 to R398, R400, Table 18-4: a packet that a free thread finds written, whose SIZE, reserved fields and alignment are right and whose operands
translate, with the header and the descriptor that its end writes, has its effect; when processing ends RIDX passes it, and when everything before it has completed too, DONE does. A TYPE that is not listed stops
the queue. -/
def Obligations.PacketsAreProcessed : Prop :=
  let f (p : List Byte) (off n : Nat) : Nat := leNat ((p.drop off).take n)
  let ready (s : State) (q : Nat) (p : List Byte) (type : Nat) : Prop :=
    nextPacket s q = some p ∧ f p 0 1 = type ∧ f p 0 4 < 2 ^ 18 ∧ (s.ctx (s.queue q).pasid).replay = false
      ∧ (type ≤ 0x0D → (endNeeds (s.queue q)).all (reached s (s.queue q).pasid) = true)
  let begun (s : State) (q : Nat) (p : List Byte) : State := beginPacket s q (f p 1 1) (f p 2 1 / 2 % 2 == 1)
  let finds (s : State) (q va : Nat) (k : AccKind) (pa : Nat) : Prop := (s.ctx (s.queue q).pasid).alive = true ∧ ∃ x, access s 64 (s.queue q).pasid va k = .ok (pa, x)
  -- the end of a ring packet that is alone in flight
  (∀ s q x,
    let r := s.queue q
    r.calls = [] → r.flights = [x] → x.parts = 1 → x.index = r.ridx →
    let t := finishPacket s q
    (t.queue q).proc = .idle ∧ (t.queue q).ridx = (r.ridx + r.units) % 2 ^ 64 ∧ (t.queue q).win = r.win.drop r.units ∧ t.groups = s.groups
      ∧ (reached (endPacket s q) r.pasid r.descNeed = true → (t.queue q).done = (x.index + x.units) % 2 ^ 64 ∧ (t.queue q).flights = []))
  ∧ (∀ q p s d k, ready s q p 1 → f p 1 1 = 4 → f p 28 4 = 0 → f p 56 8 = 0 → f p 4 4 < 2 ^ 9 → f p 8 8 % 128 = 0 → f p 32 8 % 8 = 0 → f p 48 8 % 16 = 0 →
      (s.queue q).calls = [] → (s.queue q).winDesc.find? (fun e => e.1 == (s.queue q).ridx) = some d → Kernel.ofBytes d.2 = some k → f p 24 4 ≠ 0 →
      s.lid ≠ 0xFFFFFFFF →
      let prio := if f p 4 1 / 128 = 1 then f p 4 1 % 128 else k.prio
      let level := min prio (s.queue q).prio
      let l : Launch := { lid := s.lid + 1, ctx := (s.queue q).pasid, level := level, kernel := k, karg := BitVec.ofNat 64 (f p 16 8), nblk := BitVec.ofNat 32 (f p 24 4),
                          evt := f p 32 8, eval := BitVec.ofNat 64 (f p 40 8), stat := f p 48 8, rsv := f p 5 1 % 2 == 1, queue := q, packet := (s.queue q).ridx }
      (level < 112 ∨ (s.queue q).rt = true) → (s.queue q).flights = [] → launchFails { begun { s with lid := s.lid + 1 } q p with launches := s.launches ++ [l] } s.launches.length = 0 →
      ∃ t, exec (.launch q p) s = .next t ∧ t.launches = s.launches ++ [l] ∧ t.lid = s.lid + 1 ∧ (t.queue q).proc = .launch s.launches.length ∧ t.mem = s.mem)
  ∧ (∀ q p s pa, ready s q p 2 →
      let h : Word := BitVec.ofNat 32 (f p 4 4)
      let x := s.feedQ (hIndex h)
      f p 12 4 = 0 → f p 8 4 = 1 → f p 1 1 = 1 + x.bytes / 16 → s.feedNamed (s.queue q).pasid h = true → x.tail - x.head < 2 ^ x.n →
      finds s q (x.base + x.bytes * (x.tail % 2 ^ x.n)) .write pa →
      ∃ t, exec (.feed q p) s = .next t ∧ (t.feedQ (hIndex h)) = { x with tail := x.tail + 1, vecs := x.vecs ++ [none] } ∧ (t.queue q).proc = .idle)
  ∧ (∀ q p s pa, ready s q p 3 → f p 1 1 = 2 → f p 4 4 < 4 → f p 8 8 % 4 = 0 → finds s q (f p 8 8) .read pa →
      let m := f p 20 4
      let x := Nat.land (s.mem.le pa 4) m
      let e := Nat.land (f p 16 4) m
      let holds := (f p 4 4 = 0 ∧ x = e) ∨ (f p 4 4 = 1 ∧ x ≠ e) ∨ (f p 4 4 = 2 ∧ x < e) ∨ (f p 4 4 = 3 ∧ e ≤ x)
      (holds → exec (.wait q p) s = .next (finishPacket (begun s q p) q))
      ∧ (¬ holds → ∃ t w, exec (.wait q p) s = .next t ∧ t.woas = s.woas ++ [w] ∧ w.who = .queue q ∧ w.pa = pa ∧ w.hit = none
          ∧ (t.queue q).proc = .wait s.time (f p 24 8) ∧ (t.queue q).ridx = (s.queue q).ridx ∧ t.mem = s.mem))
  ∧ (∀ q s since n, (s.queue q).serving = true → (s.queue q).proc = .wait since n → n ≠ 0 → n ≤ s.since since → (∀ w ∈ s.woas, w.who = .queue q → w.hit = none) →
      exec (.waitTimeout q) s = .next (stopQueue s q 5))
  ∧ (∀ q p s pa, ready s q p 4 → f p 1 1 = 2 → f p 24 8 = 0 → f p 4 4 < 4 →
      let n := if f p 4 4 % 2 = 1 then 8 else 4
      f p 8 8 % n = 0 → finds s q (f p 8 8) .write pa → (2 ≤ f p 4 4 → finds s q (f p 8 8) .atomic pa) →
      exec (.signal q p) s = .next (finishPacket ((begun s q p).outsideWrite pa (leBytes n (f p 16 8 + if 2 ≤ f p 4 4 then s.mem.le pa n else 0))) q))
  ∧ (∀ q p s, ready s q p 5 → f p 1 1 = 1 → f p 4 12 = 0 → (s.queue q).calls = [] →
      exec (.fetchFence q p) s = .next (finishPacket ((begun s q p).modQ q fun x => { x with win := x.win.take 1, winDesc := [] }) q))
  ∧ (∀ q p s, ready s q p 6 → f p 1 1 = 2 → f p 4 4 = 0 → f p 20 12 = 0 → f p 8 8 % 16 = 0 → 0 < f p 16 4 → f p 16 4 ≤ 2 ^ 24 → (s.queue q).calls.length < 4 →
      exec (.callPacket q p) s = .next ((endPacket (begun s q p) q).modQ q fun x => { x with calls := { addr := f p 8 8, units := f p 16 4 } :: x.calls }))
  ∧ (∀ q p s c cs, ready s q p 7 → f p 1 1 = 1 → f p 4 12 = 0 → (s.queue q).calls = c :: cs →
      ∃ t, exec (.returnPacket q p) s = .next t ∧ (t.queue q).calls = cs ∧ (t.queue q).proc = .idle ∧ (t.queue q).ridx = (s.queue q).ridx)
  ∧ (∀ q p s pa, ready s q p 8 → f p 1 1 = 1 → f p 4 4 = 0 → f p 8 8 % 8 = 0 → finds s q (f p 8 8) .write pa →
      exec (.timestamp q p) s = .next (finishPacket ((begun s q p).outsideWrite pa (leBytes 8 s.time)) q))
  ∧ (∀ q p s pa pb, ready s q p 9 → f p 1 1 = 1 → f p 8 8 = 0 → f p 4 4 < 128 → (f p 4 4 < 112 ∨ (s.queue q).rt = true) →
      finds s q ((s.queue q).desc + 24) .read pa → finds s q ((s.queue q).desc + 24) .write pb →
      ∃ t, exec (.priority q p) s = .next t ∧ (t.queue q).prio = f p 4 4 ∧ (t.queue q).proc = .idle)
  ∧ (∀ q p s, ready s q p 10 → f p 1 1 = 3 → f p 4 4 = 0 → f p 28 20 = 0 → f p 8 8 % 16 = 0 → f p 16 8 % 16 = 0 → f p 24 4 % 16 = 0 → f p 24 4 ≠ 0 → (s.queue q).calls = [] →
      ∃ t c, exec (.copy q p) s = .next t ∧ t.copies = s.copies ++ [c] ∧ c.gi = none ∧ c.gaddr = f p 8 8 ∧ c.data = f p 16 8 ∧ c.bytes = f p 24 4
        ∧ c.ctx = (s.queue q).pasid ∧ c.core = 4 * (q % 16) ∧ c.queue = q ∧ c.slot = (s.queue q).ridx ∧ (t.queue q).ridx = ((s.queue q).ridx + 3) % 2 ^ 64)
  ∧ (∀ q p s pa, ready s q p 11 → f p 1 1 = 2 → f p 24 8 = 0 → f p 4 4 < 256 → f p 8 8 % 8 = 0 → f p 8 8 ≠ 0 → finds s q (f p 8 8) .write pa →
      exec (.event q p) s = .next (finishPacket (((begun s q p).outsideWrite pa (leBytes 8 (f p 16 8))).interrupt 0 (f p 4 4) (s.queue q).pasid) q))
  ∧ (∀ q p s, ready s q p 12 → f p 1 1 ≠ 0 → exec (.nopPacket q p) s = .next (finishPacket (begun s q p) q))
  ∧ (∀ q p s type, ready s q p type → 0x0D < type → exec (.nopPacket q p) s = .next (stopQueue s q 1) ∧ ((stopQueue s q 1).queue q).stopped = true)
  ∧ (∀ q p s, ready s q p 13 → f p 1 1 = 2 → f p 18 2 = 0 → f p 20 12 = 0 → (s.queue q).rt = true →
      let masked (c : Nat) : Prop := c < 64 ∧ f p 8 8 / 2 ^ c % 2 = 1
      let owner (u : State) (c : Nat) : Option Nat := (u.reserved[c]?).join
      s.reserved.length = 64 →
      (f p 4 4 = 0 → (∀ c, masked c → owner s c = none ∨ owner s c = some (s.queue q).pasid) →
        ∃ t, exec (.reserveCores q p) s = .next t ∧ (∀ c, c < 64 → masked c → owner t c = some (s.queue q).pasid) ∧ (∀ c, ¬ masked c → owner t c = owner s c)
          ∧ (t.queue q).proc = .reserve (f p 8 8))
      ∧ (f p 4 4 = 1 → ∃ t, exec (.releaseCores q p) s = .next t ∧ (∀ c, c < 64 → masked c → owner s c = some (s.queue q).pasid → owner t c = none)
          ∧ (∀ c, ¬ (masked c ∧ owner s c = some (s.queue q).pasid) → owner t c = owner s c) ∧ (t.queue q).proc = .idle))
  ∧ (∀ q s, mapDue s q = true → mappedCount s < 32 → exec (.queueMap q) s = .next (s.modQ q fun x => { x with mapped := true, thread := freeThread s, since := none }))
  ∧ (∀ q s, unmapDue s q = true → exec (.queueUnmapIdle q) s = .next (unmap s q)
      ∧ ((unmap s q).queue q).mapped = false ∧ ((unmap s q).queue q).win = [] ∧ ((unmap s q).queue q).ridx = (s.queue q).ridx)

/-! ### The driver ring, teardown and the watchdog (18.6, 18.8, 18.9) -/

/-- R343, R369, R370, R380, R386, R389, R403, R404, R407 to R409, R455, Table 18-8: the record at the thread's next index is processed when it is new: a command
whose arguments are right has its effect and its record is answered with RESULT and STATUS; a code that is not listed, or an object that is not there, is
answered with its outcome. A teardown is answered when nothing of the context is left. The watchdogs stop and terminate blocks.
The model's choices among these clauses: which outcome wrong arguments have (log entry 22, DEDUCED), what QUEUE_SET does with a number in use (log entry 23,
DESIGN CHOICE), which groups BLOCK_RESUME finds and the widths of the trap words (log entry 24, DEDUCED), what PROF answers and counts (log entry 25,
DEDUCED), and when a teardown is complete and what it ends (log entry 27, DEDUCED). -/
def Obligations.DriverCommands : Prop :=
  let arg (r : List Byte) (j : Nat) : Nat := leNat ((r.drop (16 + 8 * j)).take 8)
  let asks (s : State) (i : Nat) (r : List Byte) (code n : Nat) : Prop :=
    driverNext s = some (i, r) ∧ leNat (r.take 1) = code ∧ leNat ((r.drop 1).take 3) = 0 ∧ ∀ b ∈ r.drop (16 + 8 * n), b = 0
  let onCtx (s : State) (p : Nat) : Prop := p < 2 ^ 20 ∧ (s.ctx p).alive = true
  let answered (m : Mem) (a result outcome : Nat) : Mem := ((m.write (a + 8) (leBytes 8 result)).write a (leBytes 4 0)).write (a + 4) (leBytes 4 (2 ^ 31 + outcome))
  let wdogRecord (s t : State) (gi kind : Nat) : Prop :=
    ∃ x ∈ t.chovis, x.ctx = s.pasidOf (s.group gi) ∧ x.ring = 1
      ∧ x.bytes.take 12 = leBytes 4 (kind + 0x1100) ++ leBytes 4 (s.launchOf (s.group gi)).lid.toNat ++ leBytes 4 (s.group gi).id.toNat
  let wdogTrap (y : Group) (t : Trap) : Prop :=
    t.code = 0x11 ∧ t.addrLo = 0 ∧ t.addrHi = 0 ∧ t.mask = 0 ∧ t.info = 0 ∧ t.skid = BitVec.ofNat 32 (y.id.toNat * 32 + 16)
      ∧ (y.frags ≠ [] → ∃ f ∈ y.frags, t.pc = f.pc ∧ ∀ z ∈ y.frags, lowLane f.amask ≤ lowLane z.amask)
  (∀ s i result outcome, (∀ c ∈ s.ctxs, c.shadow = 0) →
      let a := s.mgmt.drvring.toNat % 2 ^ 52 + 64 * (i % 2 ^ (s.mgmt.drvring.toNat / 2 ^ 56))
      let t := answer s i result outcome
      t.mem = answered s.mem a result outcome ∧ t.drvNext = i + 1 ∧ t.groups = s.groups)
  ∧ (∀ i r s, driverNext s = some (i, r) → 12 < leNat (r.take 1) → exec (.driverUnknownCommand i r) s = .next (answer s i 0 1))
  ∧ (∀ i r s c, asks s i r 1 1 → framePa (arg r 0) = true → Ctx.ofRecord (s.mem.read (arg r 0) 256) = some c →
      pinnedWays s &&& (c.pinWays ||| c.ways) = 0 → (∀ x ∈ c.rings, x.1 = 0) →
      ∃ t p, exec (.ctxCreate i r) s = .next (answer t i (p + 2 ^ 20 * (genOf s p).toNat) 0) ∧ t.ctxs = s.ctxs ++ [{ c with pasid := p, gen := genOf s p }]
        ∧ 1 ≤ p ∧ (∀ x ∈ s.ctxs, x.alive = true → x.pasid ≠ p) ∧ (∀ q, 1 ≤ q → q < p → ∃ x ∈ s.ctxs, x.alive = true ∧ x.pasid = q)
        ∧ t.groups = s.groups ∧ t.mem = s.mem)
  ∧ (∀ i r s c, asks s i r 1 1 → framePa (arg r 0) = true → Ctx.ofRecord (s.mem.read (arg r 0) 256) = some c →
      pinnedWays s &&& (c.pinWays ||| c.ways) ≠ 0 → exec (.ctxCreate i r) s = .next (answer s i 0 4))
  ∧ (∀ i r s bs x, asks s i r 3 4 → arg r 0 < 4096 → onCtx s (arg r 1) → arg r 2 % 64 = 0 → arg r 3 < 2 → chovisRead s (arg r 1) (arg r 2) 64 = some bs →
      Queue.ofDesc bs (arg r 1) (arg r 2) = some x → x.ridx = x.done → (x.prio < 112 ∨ x.rt = true) → reached s (arg r 1) ⟨arg r 2, .write⟩ = true →
      (arg r 3 = 1 → (s.queues.filter fun e => e.2.pin && e.1 != arg r 0).length < 32) →
      ∃ t, exec (.queueSet i r) s = .next (answer t i 0 0) ∧ t.groups = s.groups
        ∧ t.queue (arg r 0) = { x with pin := arg r 3 == 1, shown := if x.enabled then 0 else 4 })
  -- RESTART: the queue resumes where it stood; its window and ERR are the new descriptor's
  ∧ (∀ i r s bs x, asks s i r 3 4 → arg r 0 < 4096 → onCtx s (arg r 1) → arg r 2 % 64 = 0 → 2 ≤ arg r 3 → arg r 3 < 4 → chovisRead s (arg r 1) (arg r 2) 64 = some bs →
      Queue.ofDesc bs (arg r 1) (arg r 2) = some x → (x.prio < 112 ∨ x.rt = true) → reached s (arg r 1) ⟨arg r 2, .write⟩ = true →
      (arg r 3 = 3 → (s.queues.filter fun e => e.2.pin && e.1 != arg r 0).length < 32) →
      let old := s.queue (arg r 0)
      old.pasid = arg r 1 →
      ∃ t, exec (.queueSet i r) s = .next (answer t i 0 0) ∧ t.groups = s.groups
        ∧ t.queue (arg r 0) = { x with
            ridx := old.ridx, done := old.done, proc := old.proc, units := old.units, calls := old.calls, mapped := old.mapped && x.enabled, thread := old.thread,
            flights := old.flights.map (fun f => { f with parts := f.parts - f.lost, lost := 0 }),
            pin := arg r 3 == 3, shown := if x.enabled then 0 else 4 })
  ∧ (∀ i r s, asks s i r 4 4 → onCtx s (arg r 0) → arg r 1 % 64 = 0 → arg r 2 % 64 = 0 → 64 ≤ arg r 2 → arg r 2 ≤ 4096 → 1 ≤ arg r 3 → arg r 3 ≤ 2 ^ 24 →
      s.pools.length = 256 →
      ((∃ k, k < 256 ∧ (s.pool k).bound = false) →
        ∃ t k, exec (.poolBind i r) s = .next (answer t i (mkHandle k (nextGen (s.pool k).gen)).toNat 0) ∧ k < 256 ∧ (s.pool k).bound = false
          ∧ t.pool k = { bound := true, gen := nextGen (s.pool k).gen, ctx := arg r 0, base := arg r 1, nodeb := arg r 2, cap := arg r 3, free := arg r 3 }
          ∧ (∀ j, j ≠ k → t.pool j = s.pool j) ∧ t.groups = s.groups ∧ t.mem = s.mem)
      ∧ ((∀ k, k < 256 → (s.pool k).bound = true) → exec (.poolBind i r) s = .next (answer s i 0 2)))
  ∧ (∀ i r s, asks s i r 4 4 → arg r 0 < 2 ^ 20 → (s.ctx (arg r 0)).alive = false → arg r 1 % 64 = 0 → arg r 2 % 64 = 0 → 64 ≤ arg r 2 → arg r 2 ≤ 4096 →
      1 ≤ arg r 3 → arg r 3 ≤ 2 ^ 24 → exec (.poolBind i r) s = .next (answer s i 0 3))
  ∧ (∀ i r s, asks s i r 5 3 → onCtx s (arg r 0) → arg r 1 < 16 → arg r 2 < 2 ^ 32 → arg r 2 % 4 ≠ 3 → s.syzygy.length = 128 →
      (∃ k, k / 8 = arg r 1 ∧ (s.syz k).bound = false) →
      ∃ t k, exec (.cqBind i r) s = .next (answer t i (mkHandle k (nextGen (s.syz k).gen)).toNat 0) ∧ k / 8 = arg r 1 ∧ (s.syz k).bound = false
        ∧ t.syz k = { bound := true, gen := nextGen (s.syz k).gen, ctx := arg r 0, cfg := BitVec.ofNat 32 (arg r 2) } ∧ (∀ j, j ≠ k → t.syz j = s.syz j)
        ∧ t.groups = s.groups ∧ t.mem = s.mem)
  ∧ (∀ i r s, asks s i r 6 4 → onCtx s (arg r 0) → arg r 1 % 64 = 0 → 4 ≤ arg r 2 → arg r 2 ≤ 16 → (arg r 3 = 16 ∨ arg r 3 = 32 ∨ arg r 3 = 64) →
      s.feeds.length = 64 → (∃ k, k < 64 ∧ (s.feedQ k).bound = false) →
      ∃ t k, exec (.feedBind i r) s = .next (answer t i (mkHandle k (nextGen (s.feedQ k).gen)).toNat 0) ∧ k < 64 ∧ (s.feedQ k).bound = false
        ∧ t.feedQ k = { bound := true, gen := nextGen (s.feedQ k).gen, ctx := arg r 0, base := arg r 1, n := arg r 2, bytes := arg r 3 }
        ∧ (∀ j, j ≠ k → t.feedQ j = s.feedQ j) ∧ t.groups = s.groups ∧ t.mem = s.mem)
  ∧ (∀ i r s gi y fi h, asks s i r 7 5 → arg r 0 < 2 ^ 18 → groupById s (arg r 0) = some gi → s.groups[gi]? = some y → y.fragAt y.stopFid = some fi →
      y.block < s.blocks.length → (s.block y.block).halt = some h → h.phase = .chovis → h.stopper = gi → y.hold = .stopped → y.traced = false →
      let tr := trapOf r
      let m : Mask := tr.mask.truncate 16 &&& (y.frag fi).amask
      let Resumes (pc : BitVec 52) (replay : Option Mask) (hold : Hold) (halt : Option Halt) : Prop :=
        ∃ t, exec (.blockResume i r) s = .next (answer t i 0 0) ∧ (t.block y.block).halt = halt ∧ (t.group gi).hold = hold ∧ (t.group gi).trap = tr
          ∧ ((t.group gi).frag fi).pc = pc ∧ ((t.group gi).frag fi).replay = replay ∧ (t.group gi).regs = y.regs ∧ (t.group gi).preds = y.preds ∧ t.mem = s.mem
      -- the stopped instruction issues again in the lanes left, before the block is released; with none left the block goes on behind it
      (m ≠ 0 → Resumes tr.pc (some m) .stopped (some { h with phase := .replaying }))
      ∧ (∀ x, m = 0 → (∀ z ∈ s.groups, z.block = y.block → z.pending = none) → fetchWord s y.core (s.pasidOf y) tr.pc.toNat = .ok x →
          Resumes (tr.pc + if isX (WordFields.ofWord x).maj then 8 else 4) none .run none))
  ∧ (∀ i r s gi y, asks s i r 8 1 → arg r 0 < 2 ^ 18 → groupById s (arg r 0) = some gi → s.groups[gi]? = some y → y.block < s.blocks.length →
      (s.block y.block).terminated = false → (s.block y.block).place ≠ .done →
      ∃ t, exec (.blockTerm i r) s = .next (answer t i 0 0) ∧ (t.block y.block).terminated = true ∧ t.mem = s.mem
        ∧ ∀ (k : Nat) (z : Group), s.groups[k]? = some z →
            (z.block = y.block → z.state = .resident → (t.group k).state = .retiring ∧ (t.group k).frags = [] ∧ (t.group k).struck = true)
            ∧ (t.group k).regs = z.regs ∧ (t.group k).preds = z.preds)
  ∧ (∀ i r s, arg r 0 < 2 ^ 18 → groupById s (arg r 0) = none →
      (asks s i r 7 5 → exec (.blockResume i r) s = .next (answer s i 0 3)) ∧ (asks s i r 8 1 → exec (.blockTerm i r) s = .next (answer s i 0 3))
      ∧ (asks s i r 9 2 → arg r 1 < 2 ^ 32 → exec (.dbgSet i r) s = .next (answer s i 0 3)))
  ∧ (∀ i r s gi, asks s i r 9 2 → arg r 0 < 2 ^ 18 → arg r 1 < 2 ^ 32 → groupById s (arg r 0) = some gi →
      exec (.dbgSet i r) s = .next (answer (s.modG gi fun g => { g with debugStep := arg r 1 % 2 == 1, debugFreeze := arg r 1 / 2 % 2 == 1 }) i 0 0))
  ∧ (∀ i r s, asks s i r 10 2 → onCtx s (arg r 0) →
      ∃ t, exec (.dbgIcinv i r) s = .next (answer t i 0 0) ∧ t = { s with icache := t.icache } ∧ (∀ x ∈ t.icache, x ∈ s.icache)
        ∧ (∀ x ∈ t.icache, x.core < 64 → ¬ (x.pasid = arg r 0 ∧ x.line = arg r 1 / 64))
        ∧ ∀ x ∈ s.icache, ¬ (x.pasid = arg r 0 ∧ x.line = arg r 1 / 64) → x ∈ t.icache)
  ∧ (∀ i r s, asks s i r 11 5 → onCtx s (arg r 0) → arg r 3 % 64 = 0 →
      (arg r 4 = 0 → 8 ≤ arg r 2 → arg r 2 ≤ 20 → framePa (arg r 1) = true →
        let p : Prof := { k := arg r 2, counts := List.replicate 65 (List.replicate 16 0),
                          ranges := (List.range 64).map fun k => (s.mem.le (arg r 1 + 16 * k) 8, s.mem.le (arg r 1 + 16 * k + 8) 8) }
        exec (.prof i r) s = .next (answer (s.modC (arg r 0) fun c => { c with prof := some p }) i 0 0))
      ∧ (∀ p, arg r 4 = 1 → framePa (arg r 3) = true → (s.ctx (arg r 0)).prof = some p →
        exec (.prof i r) s = .next (answer (s.outsideWrite (arg r 3) p.bytes) i 0 0)))
  ∧ (∀ (p : Prof) (k : Nat), (∀ row ∈ p.counts, row.length = 16) → p.counts.length = 65 →
      let row (k : Nat) : List Byte := (p.counts[k]?.getD []).flatMap fun n => leBytes 4 n
      let range := p.ranges[k]?.getD (0, 0)
      (k < 64 → (p.bytes.drop (80 * k)).take 80 = leBytes 8 range.1 ++ leBytes 8 range.2 ++ row k) ∧ p.bytes.drop 5120 = row 64)
  ∧ (∀ i r s, asks s i r 12 2 → arg r 0 % 64 = 0 → (arg r 0 = 0 ∨ localPa (arg r 0) = true ∨ hostPa (arg r 0) = true) →
      exec (.dumpSet i r) s = .next (answer { s with dumpBase := arg r 0, dumpSize := if arg r 0 = 0 then 0 else arg r 1 } i 0 0))
  ∧ (∀ i r s, asks s i r 2 1 → onCtx s (arg r 0) →
      let p := arg r 0
      ∃ t, exec (.ctxTeardown i r) s = .next t ∧ t.drvNext = i + 1 ∧ (t.ctx p).alive = true ∧ (t.ctx p).tearing = some (driverAt s i) ∧ (t.ctx p).gen = genOf s p + 1
        ∧ (∀ q, q ∈ s.queues.map (·.1) → (s.queue q).pasid = p → (t.queue q).enabled = false ∧ (t.queue q).mapped = false ∧ (t.queue q).proc = .idle)
        ∧ (∀ bi, bi < s.blocks.length → (s.launch (s.block bi).launch).ctx = p → (s.block bi).place ≠ .done → (t.block bi).terminated = true)
        ∧ (∀ c ∈ t.spawnq, (s.launch c.launch).ctx ≠ p) ∧ (∀ c, c < 64 → (t.reserved[c]?).join ≠ some p))
  ∧ (∀ p s a, teardownDue s p = true → (s.ctx p).tearing = some a → (∀ c ∈ s.ctxs, c.shadow = 0) → (∀ l ∈ s.launches, l.ctx = p → l.done = true) →
      ∃ t, exec (.teardownComplete p) s = .next t ∧ t.mem = answered s.mem a 0 0 ∧ t.groups = s.groups
        ∧ (∀ k, s.ctxAt p = some k → ∃ c, t.ctxs[k]? = some c ∧ c.alive = false ∧ c.tearing = none)
        ∧ (∀ x ∈ t.tlb, x.pasid ≠ p) ∧ (∀ x ∈ t.tlb2, x.pasid ≠ p) ∧ (∀ x ∈ t.walks, x.pasid ≠ p) ∧ (∀ x ∈ t.icache, x.pasid ≠ p) ∧ (∀ x ∈ t.xfaults, x.pasid ≠ p) ∧ (∀ x ∈ t.queues, x.2.pasid ≠ p)
        ∧ (∀ k, ((s.pool k).ctx = p → (t.pool k).bound = false) ∧ ((s.pool k).ctx ≠ p → t.pool k = s.pool k))
        ∧ (∀ k, ((s.syz k).ctx = p → (t.syz k).bound = false) ∧ ((s.syz k).ctx ≠ p → t.syz k = s.syz k))
        ∧ (∀ k, ((s.feedQ k).ctx = p → (t.feedQ k).bound = false) ∧ ((s.feedQ k).ctx ≠ p → t.feedQ k = s.feedQ k))
        ∧ (∀ k, ((s.tree k).ctx = p → (t.tree k).st = .free) ∧ ((s.tree k).ctx ≠ p → t.tree k = s.tree k)))
  ∧ (∀ p s, wdogDue s p = true →
      ∃ t, exec (.watchdogExpire p) s = .next t ∧ t.mem = s.mem
        ∧ ∀ bi, bi < s.blocks.length → (s.launch (s.block bi).launch).ctx = p → (s.block bi).place ≠ .done → (s.block bi).terminated = false → s.groupsOf bi ≠ [] →
            (t.block bi).terminated = true ∧ ∃ gi ∈ s.groupsOf bi, (∀ k ∈ s.groupsOf bi, (s.group gi).gid ≤ (s.group k).gid)
              ∧ wdogTrap (s.group gi) (t.group gi).trap ∧ wdogRecord s t gi 3)
  ∧ (∀ gi s y, xtmoDue s gi = true → s.groups[gi]? = some y → y.block < s.blocks.length → (s.block y.block).place ≠ .done → (s.block y.block).terminated = false →
      ∃ t, exec (.xtmoExpire gi) s = .next t ∧ t.mem = s.mem ∧ (t.block y.block).terminated = true ∧ wdogTrap y (t.group gi).trap ∧ wdogRecord s t gi 4
        ∧ ∀ (k : Nat) (z : Group), s.groups[k]? = some z → z.block ≠ y.block → (t.group k).state = z.state ∧ (t.group k).frags = z.frags ∧ (t.group k).regs = z.regs)

/-! ### The device: boot, management window, link, power (chapter 19, 1.6, 17.6) -/

/-- R386, R411 to R415, R421 to R428, R22, R23, R375: a boot state leads to the next only when what it checks passes; a register of the management window takes
what is written in its fields; a transaction of the link is performed at its home and answered; a fatal error stops the device with its cause.
The model's choices among these clauses: where a fatal error is shown and when the dump is written (log entry 28, DEDUCED), the order of the image checks and
the flash's size (29, DEDUCED), MBXRUN and the mailbox's operations (30, DESIGN CHOICE), reads and odd writes of the window (31, DEDUCED), DRAM at power-on
and reset (33, DESIGN CHOICE), the THERM bits behind each event (34, DEDUCED), the fields of INVAL_CTL while BUSY (36, DEDUCED), and the midpoint of a time
exchange and the 8-byte mailbox accesses (74, DESIGN CHOICE). -/
def Obligations.DeviceActs : Prop :=
  let ev (n : Nat) : Msg := .int (BitVec.ofNat 32 (3 * 2 ^ 28 + n * 2 ^ 20))
  let enter (s : State) (b : Boot) (e : Nat) : State := { s with mgmt := { s.mgmt with boot := b, err := BitVec.ofNat 8 e }, outbox := ev 0 :: s.outbox }
  let calm (s : State) : Prop := s.hostLines = [] ∧ ∀ c ∈ s.ctxs, c.shadow = 0
  let open_ (s : State) (src : Party) : Prop := s.mgmt.boot ≠ .hold ∧ (src = .host ∨ s.mgmt.peerUp = true)
  let inside (s : State) (src : Party) (pa n : Nat) : Prop :=
    src = .host ∨ (let k := s.mgmt.peerWin.toNat % 64
                   let base := s.mgmt.peerWin.toNat / 2 ^ 21 % 2 ^ 27 * 2 ^ 21
                   21 ≤ k ∧ k ≤ 37 ∧ base ≤ pa ∧ pa + n ≤ base + 2 ^ k)
  let home (s : State) (src : Party) (pa n : Nat) : Prop := open_ s src ∧ localPa pa = true ∧ localPa (pa + n - 1) = true ∧ inside s src pa n
  -- boot (R423, R424)
  (∀ s, s.mgmt.boot = .reset → exec .powerOn s = .next (enter s .rom 0))
  ∧ (∀ s, s.mgmt.boot ≠ .reset → s.mem.wf = true →
      ∃ t, exec .powerOn s = .next t ∧ t.mgmt = State.reset.mgmt ∧ t.groups = [] ∧ t.ctxs = [] ∧ t.time = 0 ∧ t.flash = s.flash ∧ t.fuseSvn = s.fuseSvn
        ∧ (∀ a, a < 2 ^ 37 → t.mem.get a = 0) ∧ (∀ a, 2 ^ 37 ≤ a → t.mem.get a = s.mem.get a) ∧ t.outbox = ev 0 :: s.outbox)
  ∧ (∀ s, s.mgmt.boot = .rom → exec .rom s = .next (if s.flashLen < 3840 then enter s .hold 1 else enter s .verify 0))
  ∧ (∀ s, s.mgmt.boot = .verify →
      let e := imageError s.flash (s.flashLen - 3840) s.fuseSvn.toNat
      (s.flashOpen = false → e ≠ 0 → exec .verify s = .next (enter s .hold e))
      ∧ (s.flashOpen = true → ∃ t, exec .verify s = .next t ∧ t.mgmt.boot = .hold ∧ 2 ≤ t.mgmt.err.toNat ∧ t.mgmt.err.toNat ≤ 6)
      ∧ (s.flashOpen = false → e = 0 → ∃ t, exec .verify s = .next t ∧ t = { s with mgmt := t.mgmt, outbox := ev 0 :: s.outbox } ∧ t.mgmt.boot = .fwinit ∧ t.mgmt.err = 0
          ∧ t.mgmt.svn = BitVec.ofNat 32 (s.flash.le 4 4)))
  ∧ (∀ (m : Mem) room svn, imageError m room svn = 0 ↔
      m.le 0 4 = 0x4D495753 ∧ svn ≤ m.le 4 4 ∧ m.le 8 4 ≤ room ∧ m.le 12 4 < m.le 8 4 ∧ (∀ b ∈ m.read 16 48, b = 0) ∧ (∀ b ∈ m.read 3796 44, b = 0)
        ∧ Config.sha3 (m.read 64 1312) = Config.fuseKeyHash
        ∧ Config.mldsaVerify (m.read 64 1312) (m.read 0 64 ++ m.read 3840 (m.le 8 4)) (m.read 1376 2420) = true)
  ∧ (∀ s, s.mgmt.boot = .fwinit → ∃ t, exec .fwinit s = .next t ∧ t.mem = s.mem ∧ t.outbox = ev 0 :: s.outbox
      ∧ ((t.mgmt.boot = .ready ∧ t.mgmt.err = 0 ∧ t.fuseSvn = (if s.fuseSvn.toNat < s.mgmt.svn.toNat then s.mgmt.svn else s.fuseSvn))
          ∨ (t.mgmt.boot = .hold ∧ (t.mgmt.err = 7 ∨ t.mgmt.err = 8) ∧ t.fuseSvn = s.fuseSvn)))
  -- the management window (R425, R426, Table 19-4)
  ∧ (∀ v s, exec (.drvring v) s = .next (if s.mgmt.boot = .ready then { s with mgmt := { s.mgmt with drvring := v &&& 0xFF0FFFFFFFFFFFFF }, drvNext := 0 } else s))
  ∧ (∀ (v : Word64) s, (¬ (v.toNat / 2 ^ 48 = 0xA5C3 ∧ v.getLsbD 0 = true) → exec (.ctl v) s = .next s)
      ∧ (v.toNat / 2 ^ 48 = 0xA5C3 → v.getLsbD 0 = true →
          ∃ t, exec (.ctl v) s = .next t ∧ t.mgmt = State.reset.mgmt ∧ t.groups = [] ∧ t.ctxs = [] ∧ t.flash = s.flash ∧ t.fuseSvn = s.fuseSvn))
  ∧ (∀ v s, s.mgmt.boot ≠ .hold → 
      let m := { s.mgmt with invalAll := v.getLsbD 24, invalPasid := v.truncate 20 }
      exec (.invalCtl v) s = .next { s with mgmt :=
        if s.mgmt.invalBusy = true ∨ v.getLsbD 32 = false then m
        else { m with invalBusy := true, invalAt := m.invalVa, invalAtAll := m.invalAll, invalAtPasid := m.invalPasid } })
  ∧ (∀ s, invalDue s = true → (∀ w ∈ s.woas, woaHits s w = false) →
      let first := s.mgmt.invalAt.toNat % 2 ^ 52 / 2 ^ 12
      let hit (e : TlbEntry) : Prop :=
        e.pasid = s.mgmt.invalAtPasid.toNat ∧ (s.mgmt.invalAtAll = true ∨ (first ≤ e.vpn ∧ e.vpn < first + 2 ^ (s.mgmt.invalAt.toNat % 64)))
      ∃ t, exec .invalidationComplete s = .next t ∧ t = { s with tlb := t.tlb, tlb2 := t.tlb2, walks := t.walks, mgmt := { s.mgmt with invalBusy := false } }
        ∧ (∀ e, e ∈ t.tlb ↔ e ∈ s.tlb ∧ ¬ hit e) ∧ (∀ e, e ∈ t.tlb2 ↔ e ∈ s.tlb2 ∧ ¬ hit e) ∧ (∀ e ∈ t.walks, e ∈ s.walks)
        ∧ (s.mgmt.invalAtAll = true → ∀ e ∈ t.walks, e.pasid ≠ s.mgmt.invalAtPasid.toNat))
  ∧ (∀ (v : Word64) s, s.mgmt.boot ≠ .hold →
      let k : Word := v.truncate 32
      ∃ t, exec (.fresp v) s = .next t ∧ t = { s with xfaults := t.xfaults }
        ∧ (v.getLsbD 63 = false → ∀ x, x ∈ t.xfaults ↔ x ∈ s.xfaults ∧ (x.token ≠ k ∨ x.failed = true))
        ∧ (v.getLsbD 63 = true → ∀ x ∈ t.xfaults, x.token = k → x.failed = true))
  ∧ (∀ (v : Word64) s, s.mgmt.boot ≠ .hold →
      let w := v.toNat % 512
      exec (.power v) s = .next (if 120 ≤ w ∧ w ≤ 320 then { s with mgmt := { s.mgmt with power := BitVec.ofNat 9 w } } else s))
  ∧ (∀ (v : Word64) s, s.mgmt.boot ≠ .hold →
      exec (.mgmtRegisterWrite 0x28 v) s = .next { s with mgmt := { s.mgmt with invalVa := v &&& 0x000FFFFFFFFFF03F } }
      ∧ exec (.mgmtRegisterWrite 0x58 v) s = .next { s with mgmt := { s.mgmt with peerWin := v &&& 0x0000FFFFFFE0003F } })
  ∧ (∀ off (v : Word64) s, off % 8 = 0 → 0x80000 ≤ off → off < 0x100000 →
      exec (.mgmtRegisterWrite off v) s = .next { s with mailbox := s.mailbox.write (off - 0x80000) (leBytes 8 v.toNat) })
  ∧ (∀ off (v : Word64) s, (off % 8 ≠ 0 ∨ (off < 0x80000 ∧ off ≠ 0x28 ∧ off ≠ 0x58 ∧ off ≠ 0x70)) → exec (.mgmtRegisterWrite off v) s = .next s)
  ∧ (∀ (v : Word64) off s, s.mgmt.boot = .hold → off < 0x80000 → off ≠ 0x70 → exec (.mgmtRegisterWrite off v) s = .next s)
  ∧ (∀ (len : BitVec 24) s, s.mgmt.boot = .hold → s.mgmt.mbxBusy = false →
      let e := imageError s.mailbox (524288 - 3840) s.fuseSvn.toNat
      ∃ t, exec (.mbxBootImage len) s = .next t ∧ t.mgmt.mbxResult = BitVec.ofNat 7 e ∧ t.mgmt.boot = (if e = 0 then .mbxrun else .hold)
        ∧ t.outbox = (if e = 0 then [ev 0] else []) ++ ev 4 :: s.outbox)
  ∧ (∀ (len : BitVec 24) s, s.mgmt.mbxBusy = false →
      (s.mgmt.boot ≠ .ready → ∃ t, exec (.mbxQuote len) s = .next t ∧ t.mgmt.mbxResult = 1 ∧ t.mailbox = s.mailbox ∧ t.outbox = ev 4 :: s.outbox)
      ∧ (s.mgmt.boot = .ready → s.mailbox.wf = true →
          let body := s.mailbox.read 0 32 ++ (List.range 32).map Config.romHash ++ s.mgmt.meas1 ++ leBytes 8 Config.serial.toNat ++ leBytes 4 s.mgmt.svn.toNat
            ++ leBytes 4 4 ++ leBytes 8 s.time ++ leBytes 8 0
          ∃ t, exec (.mbxQuote len) s = .next t ∧ t.mgmt.mbxResult = 0 ∧ t.mailbox.read 0x1000 body.length = body
            ∧ t.mailbox.read (0x1000 + body.length) 2420 = (List.range 2420).map fun k => (Config.mldsaSign body)[k]?.getD 0))
  -- the link (R411 to R415)
  ∧ (∀ (a : TimeAsk) s,
      let now : Word64 := BitVec.ofNat 64 s.time
      (open_ s a.src → exec (.time a) s = .next { s with outbox := .time a.src a.h now now :: s.outbox }) ∧ (¬ open_ s a.src → exec (.time a) s = .next s))
  ∧ (∀ s, s.mgmt.boot = .ready → s.mgmt.peerUp = true →
      let now : Word64 := BitVec.ofNat 64 s.time
      (1000000 ≤ s.since s.peerAt → s.peerSaid = none →
        exec .peerTimeExchange s = .next { s with peerAt := s.time, peerAsk := some now, outbox := .timeAsk now :: s.outbox })
      ∧ ∀ h d1 d2 t : Word64, s.peerSaid = some (h, d1, d2, t) → exec .peerTimeExchange s = .next { s with
          peerAsk := none, peerSaid := none, mgmt := { s.mgmt with peerOff := BitVec.ofInt 64 (((d1 - h).toInt + (d2 - t).toInt) / 2), peerValid := true } })
  ∧ (∀ src pa len s, 1 ≤ len → len ≤ 64 → home s src pa len → exec (.rd src pa len) s = .next { s with outbox := .data src (s.mem.read pa len) :: s.outbox })
  ∧ (∀ src pa bs s, 1 ≤ bs.length → bs.length ≤ 64 → home s src pa bs.length → calm s →
      ∃ t, exec (.wr src pa bs) s = .next t ∧ t.mem = s.mem.write pa bs ∧ t.outbox = .ack src :: s.outbox ∧ t.groups = s.groups)
  ∧ (∀ src op pa v c s, pa % atomBytes op = 0 → home s src pa (atomBytes op) → calm s →
      let n := atomBytes op
      let old := s.mem.le pa n
      ∃ t, exec (.atm src op pa v c) s = .next t ∧ t.groups = s.groups ∧ t.outbox = .old src (BitVec.ofNat 128 old) :: s.outbox
        ∧ t.mem = s.mem.write pa (leBytes n (atomApply op old (v.toNat % 2 ^ (8 * n)) (c.toNat % 2 ^ (8 * n)))))
  ∧ (∀ src pa s, open_ s src → localPa pa = false →
      (∀ len, exec (.rd src pa len) s = .next { s with outbox := .error src :: s.outbox })
      ∧ (∀ bs, exec (.wr src pa bs) s = .next { s with outbox := .error src :: s.outbox })
      ∧ ∀ op v c, exec (.atm src op pa v c) s = .next { s with outbox := .error src :: s.outbox })
  ∧ (∀ pa len bs op v c s, s.mgmt.peerUp = true → s.mgmt.boot ≠ .hold → ¬ inside s .peer pa len → bs.length = len → atomBytes op = len →
      exec (.rd .peer pa len) s = .next { s with outbox := .error .peer :: s.outbox } ∧ exec (.wr .peer pa bs) s = .next { s with outbox := .error .peer :: s.outbox }
        ∧ exec (.atm .peer op pa v c) s = .next { s with outbox := .error .peer :: s.outbox })
  ∧ (∀ pa s, s.mgmt.boot ≠ .hold → localPa (64 * (pa / 64)) = true → localPa (64 * (pa / 64) + 63) = true →
      ∃ t, exec (.own pa) s = .next t ∧ t = { s with hostLines := t.hostLines, outbox := .data .host (s.mem.read (64 * (pa / 64)) 64) :: s.outbox }
        ∧ ∀ l, l ∈ t.hostLines ↔ l ∈ s.hostLines ∨ l = pa / 64)
  ∧ (∀ pa s, s.mgmt.boot ≠ .hold →
      ∃ t, exec (.snp pa) s = .next t ∧ t = { s with hostLines := t.hostLines, recalls := t.recalls } ∧ (∀ l, l ∈ t.hostLines ↔ l ∈ s.hostLines ∧ l ≠ pa / 64)
        ∧ ∀ l, l ∈ t.recalls ↔ l ∈ s.recalls ∧ l ≠ pa / 64)
  ∧ (∀ up s, s.mgmt.peerUp ≠ up → exec (.peerLinkChange up) s = .next { s with mgmt := { s.mgmt with peerUp := up }, outbox := ev 3 :: s.outbox })
  -- fatal errors (R386)
  ∧ (∀ s, s.mgmt.boot = .ready → (∀ c ∈ s.ctxs, c.shadow = 0) →
      let engines (s : State) : Prop := s.copies ≠ [] ∨ s.cols ≠ [] ∨ s.dyns ≠ [] ∨ ∃ g ∈ s.groups, g.ops ≠ []
      -- at once where no engine is at a command; else behind the commands that the engines are at
      let Stops (x : Instr) (cause : Nat) (told : List Msg) : Prop := ∃ t, exec x s = .next t ∧ t.fatal = cause ∧ t.mgmt.boot = .fatal ∧ (∀ c ∈ t.copies, c ∈ s.copies)
        ∧ (engines t → t.dumpOwed = true ∧ t.mem = s.mem ∧ t.outbox = told ++ s.outbox)
        ∧ (¬ engines s → t.dumpOwed = false ∧ t.mgmt.err = BitVec.ofNat 8 cause ∧ t.groups = s.groups)
        ∧ (¬ engines s → s.hostLines = [] → t.outbox = ev 2 :: ev 0 :: told ++ s.outbox) ∧ (s.dumpBase = 0 → t.mem = s.mem)
        ∧ (s.dumpBase ≠ 0 → s.mem.wf = true → ∀ a, a < s.dumpBase ∨ s.dumpBase + s.dumpSize ≤ a → t.mem.get a = s.mem.get a)
      (∀ cause, 1 ≤ cause → cause ≤ 5 → Stops (.fatalError cause) cause []) ∧ Stops .linkFailure 2 []
        ∧ Stops .thermalTrip 3 (if s.mgmt.pinnedLow then [] else [ev 1]))
  -- power and clocks (R22, R23, R34, R375, R428)
  -- below the trip, clocks are all that a temperature changes
  ∧ (let pin (s : State) (c : Nat) : Nat := if (s.reserved[c]?).join = none then 0 else s.pinned[c]?.getD 0
     let below (s : State) : Prop := ∃ c, c < 64 ∧ s.clock[c / 4]?.getD 0 < pin s c
     let Heats (s t : State) (on : Bool) (temp : Nat) (told : List Msg) : Prop :=
      t = { s with mgmt := t.mgmt, clock := t.clock, phase := t.phase, traces := t.traces, draws := t.draws, outbox := told ++ s.outbox }
        ∧ t.mgmt = { s.mgmt with temp := BitVec.ofNat 8 temp, throttling := on || decide (105 < temp), pinnedLow := t.mgmt.pinnedLow }
        ∧ (t.mgmt.pinnedLow = true ↔ 110 ≤ temp ∨ (s.mgmt.pinnedLow = true ∧ below t))
        ∧ (on = false → temp ≤ 105 → t.clock = s.clock ∧ t.traces = s.traces)
        ∧ (s.clock.length = 16 → (∀ cl, cl < 16 → t.clock[cl]?.getD 0 ≤ s.clock[cl]?.getD 0)
            ∧ (on = true ∨ 105 < temp → (∃ cl, cl < 16 ∧ 1 < s.clock[cl]?.getD 0 ∧ ∀ c, c / 4 = cl → pin s c < s.clock[cl]?.getD 0) → t.clock ≠ s.clock)
            ∧ ∀ c, c < 64 → pin s c ≤ s.clock[c / 4]?.getD 0 → 1 < pin s c → if temp < 110 then pin s c ≤ t.clock[c / 4]?.getD 0 else below t)
     (∀ on temp s,
      (temp < 115 → ∃ t, exec (.throttle on temp) s = .next t ∧ Heats s t on temp (if 110 ≤ temp ∧ s.mgmt.pinnedLow = false then [ev 1] else []))
      ∧ (115 ≤ temp → s.mgmt.boot = .ready → ∃ t, exec (.throttle on temp) s = .next t ∧ t.fatal = 3 ∧ t.mgmt.boot = .fatal))
     ∧ ∀ s, s.mgmt.temp.toNat < 115 →
      ∃ t, exec .pinnedClockLower s = .next t ∧ Heats s t true (if s.mgmt.temp.toNat < 110 then 110 else s.mgmt.temp.toNat) [ev 1])
  ∧ (∀ cl mhz s, cl < 16 → tracedCtxs s cl = [] →
      let pinned (c : Nat) : Prop := c / 4 = cl ∧ (s.reserved[c]?).join ≠ none ∧ mhz < s.pinned[c]?.getD 0
      (1 ≤ mhz → mhz ≤ 2200 → ((∀ c, ¬ pinned c) ∨ 110 ≤ s.mgmt.temp.toNat ∨ s.clock[cl]?.getD 0 ≤ mhz) →
        ∃ t, exec (.clockChange cl mhz) s = .next t ∧ t = { s with
            clock := setAt s.clock cl mhz, phase := setAt s.phase cl 0, traces := modAt s.traces cl fun u => { u with lastSync := s.cyc[cl]?.getD 0 }
            mgmt := { s.mgmt with pinnedLow := t.mgmt.pinnedLow } }
          ∧ (t.mgmt.pinnedLow = true ↔ s.mgmt.pinnedLow = true ∧ (110 ≤ s.mgmt.temp.toNat
              ∨ ∃ c, c < 64 ∧ (s.reserved[c]?).join ≠ none ∧ t.clock[c / 4]?.getD 0 < s.pinned[c]?.getD 0)))
      ∧ (mhz = 0 ∨ 2200 < mhz ∨ (s.mgmt.temp.toNat < 110 ∧ mhz < s.clock[cl]?.getD 0 ∧ ∃ c, pinned c) → exec (.clockChange cl mhz) s = .next s))

/-! ### The machine as a whole -/

/-- R404, R412, R423, Tables 18-9, 19-4 and 19-6: what power-on leaves, as the spec gives it: boot state RESET, the registers of the management window at their
reset values, no context, queue, block or group, no generation used; the boot ROM starts next. The invariants hold. -/
def Obligations.ResetLeaves : Prop :=
  Canonical State.reset ∧ WithinCapacity State.reset ∧ State.reset.mgmt.boot = .reset
  ∧ mgmtRead State.reset 0x10 = 0 ∧ mgmtRead State.reset 0x20 = 0 ∧ mgmtRead State.reset 0x28 = 0 ∧ mgmtRead State.reset 0x30 = 0 ∧ mgmtRead State.reset 0x40 = 0
  ∧ mgmtRead State.reset 0x48 = 0 ∧ mgmtRead State.reset 0x50 = 0 ∧ mgmtRead State.reset 0x58 = 0 ∧ mgmtRead State.reset 0x60 = 220
  ∧ mgmtRead State.reset 0x68 = 0 ∧ mgmtRead State.reset 0x70 = 0 ∧ mgmtRead State.reset 0x140 = 0
  ∧ (∀ k, k < 4 → mgmtRead State.reset (0x120 + 8 * k) = 0) ∧ (∀ k, k < 164 → mgmtRead State.reset (0x1000 + 8 * k) = 0)
  ∧ State.reset.ctxs = [] ∧ State.reset.gens = [] ∧ State.reset.queues = [] ∧ State.reset.blocks = [] ∧ State.reset.groups = [] ∧ State.reset.tlb = []
  ∧ (∀ k, (State.reset.tree k).st = .free ∧ (State.reset.pool k).bound = false ∧ (State.reset.syz k).bound = false ∧ (State.reset.feedQ k).bound = false)
  ∧ ∃ t, step State.reset = .next t ∧ t.mgmt.boot = .rom

/-- An invariant of every step: memory, mailbox, scratchpads and tiles keep their canonical form, whatever the step does. -/
def Obligations.MemoryStaysCanonical : Prop := ∀ s t, Canonical s → step s = .next t → Canonical t

/-- R205, R420: behind every step no cache holds more than its capacity. -/
def Obligations.CachesStayWithinCapacity : Prop := ∀ s t, step s = .next t → WithinCapacity t

/-- R58 to R60, Table 2-6: the words of every well-formed instruction decode to it, every operand at every value; and words that decode are the very words of
the instruction they decode to, so that no bit is ignored and no two words mean the same. -/
def Obligations.DecodeAndEncodeAgree : Prop :=
  (∀ i, i.wellFormed = true → decodeWords (encode i) = .ok i)
  ∧ ∀ w0 w1 i, decode w0 w1 = .ok i → i.wellFormed = true ∧ encode i = if needsSecond w0 = true then [w0, w1] else [w0]

/-- R60 and the worked examples of 2.6 and Table 4-5: a word whose major is 0x00, 0x3F or, first, 0x3E is no instruction, nor is a format-X word without its
second word; the words of the examples decode to the instructions they stand for, or are refused with the detail of Table 4-4. -/
def Obligations.WordsDecodeAsListed : Prop :=
  decode 0x4E010286 0 = .ok (.fadd true 4 5 6) ∧ decode 0x041FFFFC 0 = .ok (.bra 0x1FFFFC) ∧ decode 0x061FFFFC 0 = .error .reservedField
  ∧ decode 0x0D000000 0 = .ok (.nop false) ∧ decode 0x9C21040A 0 = .ok (.aaddF32 false 4 4 2 2) ∧ decode 0x8CE00040 0 = .ok (.fenceSc false 2)
  ∧ decode 0x8CE00041 0 = .error .reservedField ∧ decode 0xA1400000 0xF8000000 = .error .reservedFn ∧ decode 0xDA600000 0 = .ok (.eret true)
  ∧ decode 0xE4000000 0 = .error .reservedMajor ∧ decode 0 0 = .error .reservedMajor ∧ decode 0xFFFFFFFF 0 = .error .reservedMajor
  ∧ decode 0xF8000000 0 = .error .extFirst ∧ (∀ w1, w1.extractLsb' 26 6 ≠ (0x3E : BitVec 6) → decode 0xA0000000 w1 = .error .missingExt)
  ∧ ∀ w0 w1 : Word,
      let m := w0.extractLsb' 26 6
      m = 0 ∨ m = 0x3F ∨ m = 0x3E ∨ (isX m = true ∧ w1.extractLsb' 26 6 ≠ (0x3E : BitVec 6)) → ∃ e, decode w0 w1 = .error e

/-- R36, R61, R63: a step runs the instruction that it fetches: when the step that comes next is the issue of a fragment, whose word or words at its PC decode to
an instruction, the step is that instruction's meaning with the fragment issuing, followed by what every step ends with: its turn is noted, a replay that it was ends, a group
that is single-stepped stops, or, held back, it has not happened (R384, R412). Words that are no instruction are an illegal instruction. A step that is an event
of the device, or takes an input, runs that event. Device time only goes on, by at most 400 ps a step, and stands at 0 in RESET (R7, R414; the granularity is
the model's choice, log entry 6). -/
def Obligations.StepRunsTheDecodedInstruction : Prop :=
  let ran (x : Instr) (u : State) (s : State) (after : State → State) : Prop :=
    step s = match exec x u with | .next t => .next (finish s (after t)) | .fault r => .fault r | .refused r => .refused r
  (∀ s gi fi w0 w1 x, chosen s = some (.frag gi fi) → arriving s gi fi = false →
      let g := s.group gi
      let pc := (g.frag fi).pc.toNat
      fetchWord s g.core (s.pasidOf g) pc = .ok w0 → (if needsSecond w0 = true then fetchWord s g.core (s.pasidOf g) (pc + 4) = .ok w1 else w1 = 0) →
      (decode w0 w1 = .ok x ∨ ∃ e, decode w0 w1 = .error e ∧ x = .illegalInstruction w0 w1 e.detail) →
      ∃ u, u = { s with cur := some (gi, fi), readsFmt := u.readsFmt, tlb := u.tlb, tlb2 := u.tlb2, walks := u.walks, icache := u.icache }
        ∧ (decode w0 w1 = .ok x → u.readsFmt = readsFmt w0)
        ∧ ran x u s fun t => if heldBack s t = true then noteIssue s (heldStall s t gi fi) gi fi
            else stepCheck (endReplay s (noteIssue s t gi fi) gi fi) gi (g.frag fi).fid g.issued (g.frag fi).handler.isSome)
  ∧ (∀ s x, chosen s = some (.event x) → ran x s s fun t => Choice.noteEvent s (orHold s t) x)
  ∧ (∀ s x rest, chosen s = some .input → s.inputs = x :: rest → ran (inputInstr x) { s with inputs := rest } s (Choice.noteInput s))
  ∧ (∀ s gi fi, chosen s = some (.fetch gi fi) →
      ∃ t, step s = .next (finish s t) ∧ t = { s with tlb := t.tlb, tlb2 := t.tlb2, walks := t.walks, icache := t.icache })
  ∧ (∀ s, chosen s = none → step s = .next (finish s s))
  ∧ (∀ s t, step s = .next t → t.cur = none ∧ t.steps = s.steps + 1
      ∧ if t.mgmt.boot = .reset then t.time = 0 ∧ t.fine = 0
        else (t.time = s.time ∧ t.fine = s.fine) ∨ ∃ dt, 1 ≤ dt ∧ dt ≤ 400 ∧ 1000 * t.time + t.fine = (1000 * s.time + s.fine + dt) % (1000 * 2 ^ 64))
end

