-- ==== Sys2Proof/Laws/Lists.lean ====
section
/-! SUPPORT. Sys2Proof/Laws/Lists.lean: lists changed at one place, masks of lanes, lanes of a register, bytes of memory. -/

namespace Sys2Proof

variable {α : Type}

@[simp] theorem length_modAt (xs : List α) (n : Nat) (f : α → α) : (modAt xs n f).length = xs.length := by
  induction xs generalizing n with
  | nil => simp [modAt]
  | cons x xs ih => cases n <;> simp [modAt, ih]

theorem getElem?_modAt (xs : List α) (n k : Nat) (f : α → α) : (modAt xs n f)[k]? = if k = n then (xs[k]?).map f else xs[k]? := by
  induction xs generalizing n k with
  | nil => simp [modAt]
  | cons x xs ih => cases n <;> cases k <;> simp [modAt, ih]

@[simp] theorem length_setAt (xs : List α) (n : Nat) (y : α) : (setAt xs n y).length = xs.length := by
  induction xs generalizing n with
  | nil => simp [setAt]
  | cons x xs ih => cases n <;> simp [setAt, ih]

theorem getElem?_setAt (xs : List α) (n k : Nat) (y : α) : (setAt xs n y)[k]? = if k = n then (xs[k]?).map fun _ => y else xs[k]? := by
  induction xs generalizing n k with
  | nil => simp [setAt]
  | cons x xs ih => cases n <;> cases k <;> simp [setAt, ih]

theorem modAt_modAt (xs : List α) (n : Nat) (f g : α → α) : modAt (modAt xs n f) n g = modAt xs n fun x => g (f x) := by
  induction xs generalizing n with
  | nil => simp [modAt]
  | cons x xs ih => cases n <;> simp [modAt, ih]

theorem modAt_id (xs : List α) (n : Nat) : (modAt xs n fun x => x) = xs := by
  induction xs generalizing n with
  | nil => rfl
  | cons x xs ih => cases n <;> simp [modAt, ih]

/-! ### Masks -/

theorem mem_laneNums (l : Nat) : l ∈ laneNums ↔ l < 16 := by
  have : laneNums = List.range 16 := by decide
  rw [this, List.mem_range]

theorem Mask.mem_lanes (m : Mask) (l : Nat) : l ∈ m.lanes ↔ m.has l = true := by
  simp only [Mask.lanes, List.mem_filter, mem_laneNums, Mask.has]
  constructor
  · exact fun h => h.2
  · exact fun h => ⟨BitVec.lt_of_getLsbD h, h⟩

theorem Mask.has_lt {m : Mask} {l : Nat} (h : m.has l = true) : l < 16 := BitVec.lt_of_getLsbD h

theorem Mask.of_fold (f : Nat → Bool) (l : Nat) (xs : List Nat) (m : Mask) :
    (xs.foldl (fun m k => if f k then m ||| BitVec.twoPow 16 k else m) m).getLsbD l
      = (m.getLsbD l || (decide (l < 16) && f l && decide (l ∈ xs))) := by
  induction xs generalizing m with
  | nil => simp
  | cons x xs ih =>
    rw [List.foldl_cons, ih]
    by_cases hx : l = x
    · subst hx
      cases hf : f l <;> by_cases hl : l < 16 <;> simp [hl, BitVec.getLsbD_twoPow]
    · cases hf : f x <;> simp [hx, BitVec.getLsbD_twoPow, Ne.symm hx]

@[simp] theorem Mask.has_of (f : Nat → Bool) (l : Nat) : (Mask.of f).has l = (decide (l < 16) && f l) := by
  rw [Mask.has, Mask.of, Mask.of_fold]
  by_cases h : l < 16 <;> simp [h, mem_laneNums]

/-- Two masks with the same lanes are equal. -/
theorem Mask.ext {m n : Mask} (h : ∀ l, l < 16 → m.has l = n.has l) : m = n :=
  BitVec.eq_of_getLsbD_eq fun l hl => h l hl

end Sys2Proof

namespace Sys2Proof.Machine

open Sys2Proof

/-! ### Registers and predicates of a group -/

theorem putLanes_get (v : LaneVec) (m : Mask) (f : Nat → Word) (l : Nat) (h : l < 16) :
    (putLanes v m f)[l]? = some (if m.has l then f l else v[l]?.getD 0) := by
  simp [putLanes, h]

@[simp] theorem Group.setReg_length (g : Group) (p : Nat) (m : Mask) (f : Nat → Word) : (g.setReg p m f).regs.length = g.regs.length := by
  simp [Group.setReg]

/-- A register write: the lanes of the mask of that register take the new value and nothing else changes (R41). -/
theorem Group.setReg_lane (g : Group) (p q l : Nat) (m : Mask) (f : Nat → Word) (hq : q < g.regs.length) (hl : l < 16) :
    (g.setReg p m f).lane q l = if q = p ∧ m.has l = true then f l else g.lane q l := by
  simp only [Group.lane, Group.setReg, getElem?_modAt]
  by_cases h : q = p
  · subst h
    rw [List.getElem?_eq_getElem hq]
    simp [putLanes_get _ _ _ _ hl]
  · simp [h]

@[simp] theorem Group.setPred_regs (g : Group) (p : Nat) (m : Mask) (f : Nat → Bool) : (g.setPred p m f).regs = g.regs := rfl
@[simp] theorem Group.setReg_preds (g : Group) (p : Nat) (m : Mask) (f : Nat → Word) : (g.setReg p m f).preds = g.preds := rfl

/-- A predicate write: the lanes of the mask of that predicate take the new value and nothing else changes. -/
theorem Group.setPred_pred (g : Group) (p q l : Nat) (m : Mask) (f : Nat → Bool) (hq : q < 8) :
    ((g.setPred p m f).pred q).has l = if q = p ∧ m.has l = true then f l else (g.pred q).has l := by
  simp only [Group.pred, Group.setPred]
  rw [Vector.getElem?_eq_getElem hq, Vector.getElem?_eq_getElem hq]
  simp only [Vector.getElem_ofFn, Option.getD_some]
  by_cases h : q = p
  · subst h
    by_cases hm : m.has l = true
    · simp [hm, Mask.has_lt hm]
    · by_cases hl : l < 16
      · simp [hl, hm]
      · simp [Mask.has, BitVec.getLsbD_of_ge _ _ (Nat.le_of_not_lt hl)]
  · simp [h]

/-! ### Groups and fragments of a state -/

theorem State.modG_groups (s : State) (gi k : Nat) (f : Group → Group) :
    (s.modG gi f).groups[k]? = if k = gi then (s.groups[k]?).map f else s.groups[k]? := by
  simp only [State.modG, getElem?_modAt]

@[simp] theorem State.modG_length (s : State) (gi : Nat) (f : Group → Group) : (s.modG gi f).groups.length = s.groups.length := by
  simp [State.modG]

theorem State.modG_self (s : State) (gi : Nat) (f : Group → Group) (h : gi < s.groups.length) : (s.modG gi f).group gi = f (s.group gi) := by
  simp only [State.group, State.modG_groups, List.getElem?_eq_getElem h]
  simp

theorem State.modG_other (s : State) (gi k : Nat) (f : Group → Group) (h : k ≠ gi) : (s.modG gi f).group k = s.group k := by
  simp [State.group, State.modG_groups, h]

theorem State.modG_modG (s : State) (gi : Nat) (f g : Group → Group) : (s.modG gi f).modG gi g = s.modG gi fun x => g (f x) := by
  simp only [State.modG, modAt_modAt]

theorem State.modG_id (s : State) (gi : Nat) : (s.modG gi fun g => g) = s := by
  simp only [State.modG, modAt_id]

/-! ### Bytes -/

theorem Mem.get_of_lt (m : Mem) (lo a : Nat) (h : Mem.wfFrom lo m = true) (ha : a < lo) : m.get a = 0 := by
  cases m with
  | nil => rfl
  | cons c m =>
    obtain ⟨k, b⟩ := c
    simp only [Mem.wfFrom, Bool.and_eq_true, decide_eq_true_eq] at h
    have : a ≠ k := by omega
    have : a < k := by omega
    simp [Mem.get, *]

theorem Mem.wfFrom_mono (m : Mem) (lo lo' : Nat) (h : Mem.wfFrom lo m = true) (hl : lo' ≤ lo) : Mem.wfFrom lo' m = true := by
  cases m with
  | nil => rfl
  | cons c m =>
    obtain ⟨k, b⟩ := c
    simp only [Mem.wfFrom, Bool.and_eq_true, decide_eq_true_eq] at h ⊢
    exact ⟨⟨by omega, h.1.2⟩, h.2⟩

/-- A byte written keeps the canonical form. -/
theorem Mem.set_wfFrom (m : Mem) (lo a : Nat) (b : Byte) (h : Mem.wfFrom lo m = true) (ha : lo ≤ a) : Mem.wfFrom lo (m.set a b) = true := by
  induction m generalizing lo with
  | nil =>
    simp only [Mem.set]
    split <;> rename_i hb
    · rfl
    · simpa [Mem.wfFrom, ha] using hb
  | cons c m ih =>
    obtain ⟨k, v⟩ := c
    simp only [Mem.wfFrom, Bool.and_eq_true, decide_eq_true_eq] at h
    simp only [Mem.set]
    split
    · by_cases hb : b = 0
      · simp only [hb, if_true, Mem.wfFrom, Bool.and_eq_true, decide_eq_true_eq]
        exact h
      · simp only [hb, if_false, Mem.wfFrom, Bool.and_eq_true, decide_eq_true_eq]
        exact ⟨⟨ha, by simpa using hb⟩, ⟨by omega, h.1.2⟩, h.2⟩
    · split
      · rename_i h1 h2
        by_cases hb : b = 0
        · simp only [hb, if_true]
          exact Mem.wfFrom_mono _ _ _ h.2 (by omega)
        · simp only [hb, if_false, Mem.wfFrom, Bool.and_eq_true, decide_eq_true_eq]
          exact ⟨⟨ha, by simpa using hb⟩, h2 ▸ h.2⟩
      · simp only [Mem.wfFrom, Bool.and_eq_true, decide_eq_true_eq]
        exact ⟨h.1, ih _ h.2 (by omega)⟩

theorem Mem.set_wf (m : Mem) (a : Nat) (b : Byte) (h : m.wf = true) : (m.set a b).wf = true := Mem.set_wfFrom m 0 a b h (Nat.zero_le _)

theorem Mem.write_wf (m : Mem) (a : Nat) (bs : List Byte) (h : m.wf = true) : (m.write a bs).wf = true := by
  induction bs generalizing m a with
  | nil => exact h
  | cons b bs ih => exact ih _ _ (Mem.set_wf m a b h)

theorem Mem.zero_wf (m : Mem) (a n : Nat) (h : m.wf = true) : (m.zero a n).wf = true := Mem.write_wf m a _ h

/-- A byte written is read back, and every other byte stays. -/
theorem Mem.get_set_from (m : Mem) (lo a k : Nat) (b : Byte) (h : Mem.wfFrom lo m = true) :
    (m.set a b).get k = if k = a then b else m.get k := by
  induction m generalizing lo with
  | nil =>
    simp only [Mem.set]
    split <;> by_cases hk : k = a <;> simp_all [Mem.get]
  | cons c m ih =>
    obtain ⟨j, v⟩ := c
    simp only [Mem.wfFrom, Bool.and_eq_true, decide_eq_true_eq] at h
    simp only [Mem.set]
    split
    · rename_i h1
      by_cases hb : b = 0
      · simp only [hb, if_true]
        by_cases hk : k = a
        · subst hk
          have : k ≠ j := by omega
          simp [Mem.get, *]
        · simp [hk]
      · simp only [hb, if_false]
        by_cases hk : k = a
        · simp [Mem.get, hk]
        · simp only [Mem.get, hk, if_false]
          by_cases hka : k < a
          · have : k ≠ j := by omega
            have : k < j := by omega
            simp [*]
          · simp [hka]
    · split
      · rename_i h1 h2
        by_cases hb : b = 0
        · simp only [hb, if_true]
          by_cases hk : k = a
          · rw [if_pos hk]
            exact Mem.get_of_lt m (j + 1) k h.2 (by omega)
          · have hj : k ≠ j := by omega
            simp only [Mem.get, hk, hj, if_false]
            by_cases hkj : k < j
            · simp only [hkj, if_true]
              exact Mem.get_of_lt m (j + 1) k h.2 (by omega)
            · simp [hkj]
        · simp only [hb, if_false, Mem.get, h2]
          by_cases hk : k = a <;> by_cases hj : k = j <;> simp_all
      · rename_i h1 h2
        simp only [Mem.get]
        by_cases hk : k = j
        · subst hk
          have : k ≠ a := fun h => h2 h.symm
          simp [this]
        · by_cases hkj : k < j
          · have : k ≠ a := by omega
            simp [*]
          · simp [hk, hkj, ih _ h.2]

theorem Mem.get_set (m : Mem) (a k : Nat) (b : Byte) (h : m.wf = true) : (m.set a b).get k = if k = a then b else m.get k :=
  Mem.get_set_from m 0 a k b h

/-- Bytes written are read back, and every byte outside them stays. -/
theorem Mem.get_write (m : Mem) (a k : Nat) (bs : List Byte) (h : m.wf = true) :
    (m.write a bs).get k = if a ≤ k ∧ k < a + bs.length then bs[k - a]?.getD 0 else m.get k := by
  induction bs generalizing m a with
  | nil =>
    rw [if_neg (by simp only [List.length_nil]; omega)]
    rfl
  | cons b bs ih =>
    rw [Mem.write, ih _ _ (Mem.set_wf m a b h), Mem.get_set m a k b h]
    simp only [List.length_cons]
    by_cases h1 : a + 1 ≤ k ∧ k < a + 1 + bs.length
    · have h2 : a ≤ k ∧ k < a + (bs.length + 1) := by omega
      rw [if_pos h1, if_pos h2]
      have : k - a = (k - (a + 1)) + 1 := by omega
      rw [this]
      simp
    · by_cases h3 : k = a
      · subst h3
        rw [if_neg h1, if_pos (by omega)]
        simp
      · have h2 : ¬ (a ≤ k ∧ k < a + (bs.length + 1)) := by omega
        rw [if_neg h1, if_neg h2, if_neg h3]

/-! ### Orders the device chooses -/

/-- An order that the device chooses holds the same things, each as often. -/
theorem mixFrom_perm {α : Type} (xs : List α) : ∀ n, (mixFrom n xs).Perm xs := by
  induction xs with
  | nil => intro n; exact .refl _
  | cons x xs ih =>
    intro n
    simp only [mixFrom]
    refine List.perm_middle.trans (List.Perm.cons x ?_)
    rw [List.take_append_drop]
    exact ih (n + 1)

theorem mixed_perm {α : Type} (s : State) (xs : List α) : (s.mixed xs).2.Perm xs := by
  unfold State.mixed
  split
  · exact .refl _
  · exact mixFrom_perm xs _

/-- Choosing an order draws free values and does nothing else. -/
theorem mixed_state {α : Type} (s : State) (xs : List α) : ∃ n, (s.mixed xs).1 = { s with draws := n } := by
  unfold State.mixed
  split
  · exact ⟨s.draws, rfl⟩
  · exact ⟨_, rfl⟩

end Sys2Proof.Machine
end

