-- ==== Sys2Proof/Laws/State.lean ====
section
/-! SUPPORT. Sys2Proof/Laws/State.lean: what each update of the state leaves as it was, field by field, and how the groups of a state
are read after an update. -/

namespace Sys2Proof.Machine

open Sys2Proof

/-! ### `State.modG` -/

@[simp] theorem State.modG_time (s : State) (gi : Nat) (f : Group → Group) : (s.modG gi f).time = s.time := rfl
@[simp] theorem State.modG_fine (s : State) (gi : Nat) (f : Group → Group) : (s.modG gi f).fine = s.fine := rfl
@[simp] theorem State.modG_phase (s : State) (gi : Nat) (f : Group → Group) : (s.modG gi f).phase = s.phase := rfl
@[simp] theorem State.modG_issues (s : State) (gi : Nat) (f : Group → Group) : (s.modG gi f).issues = s.issues := rfl
@[simp] theorem State.modG_service (s : State) (gi : Nat) (f : Group → Group) : (s.modG gi f).service = s.service := rfl
@[simp] theorem State.modG_serviced (s : State) (gi : Nat) (f : Group → Group) : (s.modG gi f).serviced = s.serviced := rfl
@[simp] theorem State.modG_readsFmt (s : State) (gi : Nat) (f : Group → Group) : (s.modG gi f).readsFmt = s.readsFmt := rfl
@[simp] theorem State.modG_steps (s : State) (gi : Nat) (f : Group → Group) : (s.modG gi f).steps = s.steps := rfl
@[simp] theorem State.modG_draws (s : State) (gi : Nat) (f : Group → Group) : (s.modG gi f).draws = s.draws := rfl
@[simp] theorem State.modG_seq (s : State) (gi : Nat) (f : Group → Group) : (s.modG gi f).seq = s.seq := rfl
@[simp] theorem State.modG_cur (s : State) (gi : Nat) (f : Group → Group) : (s.modG gi f).cur = s.cur := rfl
@[simp] theorem State.modG_mem (s : State) (gi : Nat) (f : Group → Group) : (s.modG gi f).mem = s.mem := rfl
@[simp] theorem State.modG_memBad (s : State) (gi : Nat) (f : Group → Group) : (s.modG gi f).memBad = s.memBad := rfl
@[simp] theorem State.modG_blocks (s : State) (gi : Nat) (f : Group → Group) : (s.modG gi f).blocks = s.blocks := rfl
@[simp] theorem State.modG_launches (s : State) (gi : Nat) (f : Group → Group) : (s.modG gi f).launches = s.launches := rfl
@[simp] theorem State.modG_ctxs (s : State) (gi : Nat) (f : Group → Group) : (s.modG gi f).ctxs = s.ctxs := rfl
@[simp] theorem State.modG_gens (s : State) (gi : Nat) (f : Group → Group) : (s.modG gi f).gens = s.gens := rfl
@[simp] theorem State.modG_queues (s : State) (gi : Nat) (f : Group → Group) : (s.modG gi f).queues = s.queues := rfl
@[simp] theorem State.modG_trees (s : State) (gi : Nat) (f : Group → Group) : (s.modG gi f).trees = s.trees := rfl
@[simp] theorem State.modG_pools (s : State) (gi : Nat) (f : Group → Group) : (s.modG gi f).pools = s.pools := rfl
@[simp] theorem State.modG_syzygy (s : State) (gi : Nat) (f : Group → Group) : (s.modG gi f).syzygy = s.syzygy := rfl
@[simp] theorem State.modG_feeds (s : State) (gi : Nat) (f : Group → Group) : (s.modG gi f).feeds = s.feeds := rfl
@[simp] theorem State.modG_spawnq (s : State) (gi : Nat) (f : Group → Group) : (s.modG gi f).spawnq = s.spawnq := rfl
@[simp] theorem State.modG_unperf (s : State) (gi : Nat) (f : Group → Group) : (s.modG gi f).unperf = s.unperf := rfl
@[simp] theorem State.modG_copies (s : State) (gi : Nat) (f : Group → Group) : (s.modG gi f).copies = s.copies := rfl
@[simp] theorem State.modG_cols (s : State) (gi : Nat) (f : Group → Group) : (s.modG gi f).cols = s.cols := rfl
@[simp] theorem State.modG_dyns (s : State) (gi : Nat) (f : Group → Group) : (s.modG gi f).dyns = s.dyns := rfl
@[simp] theorem State.modG_l1 (s : State) (gi : Nat) (f : Group → Group) : (s.modG gi f).l1 = s.l1 := rfl
@[simp] theorem State.modG_fillNo (s : State) (gi : Nat) (f : Group → Group) : (s.modG gi f).fillNo = s.fillNo := rfl
@[simp] theorem State.modG_icache (s : State) (gi : Nat) (f : Group → Group) : (s.modG gi f).icache = s.icache := rfl
@[simp] theorem State.modG_tlb (s : State) (gi : Nat) (f : Group → Group) : (s.modG gi f).tlb = s.tlb := rfl
@[simp] theorem State.modG_tlb2 (s : State) (gi : Nat) (f : Group → Group) : (s.modG gi f).tlb2 = s.tlb2 := rfl
@[simp] theorem State.modG_walks (s : State) (gi : Nat) (f : Group → Group) : (s.modG gi f).walks = s.walks := rfl
@[simp] theorem State.modG_l2 (s : State) (gi : Nat) (f : Group → Group) : (s.modG gi f).l2 = s.l2 := rfl
@[simp] theorem State.modG_woas (s : State) (gi : Nat) (f : Group → Group) : (s.modG gi f).woas = s.woas := rfl
@[simp] theorem State.modG_woaNo (s : State) (gi : Nat) (f : Group → Group) : (s.modG gi f).woaNo = s.woaNo := rfl
@[simp] theorem State.modG_xfaults (s : State) (gi : Nat) (f : Group → Group) : (s.modG gi f).xfaults = s.xfaults := rfl
@[simp] theorem State.modG_token (s : State) (gi : Nat) (f : Group → Group) : (s.modG gi f).token = s.token := rfl
@[simp] theorem State.modG_chovis (s : State) (gi : Nat) (f : Group → Group) : (s.modG gi f).chovis = s.chovis := rfl
@[simp] theorem State.modG_sysreqs (s : State) (gi : Nat) (f : Group → Group) : (s.modG gi f).sysreqs = s.sysreqs := rfl
@[simp] theorem State.modG_slotGens (s : State) (gi : Nat) (f : Group → Group) : (s.modG gi f).slotGens = s.slotGens := rfl
@[simp] theorem State.modG_btags (s : State) (gi : Nat) (f : Group → Group) : (s.modG gi f).btags = s.btags := rfl
@[simp] theorem State.modG_lid (s : State) (gi : Nat) (f : Group → Group) : (s.modG gi f).lid = s.lid := rfl
@[simp] theorem State.modG_reserved (s : State) (gi : Nat) (f : Group → Group) : (s.modG gi f).reserved = s.reserved := rfl
@[simp] theorem State.modG_pinned (s : State) (gi : Nat) (f : Group → Group) : (s.modG gi f).pinned = s.pinned := rfl
@[simp] theorem State.modG_split (s : State) (gi : Nat) (f : Group → Group) : (s.modG gi f).split = s.split := rfl
@[simp] theorem State.modG_clock (s : State) (gi : Nat) (f : Group → Group) : (s.modG gi f).clock = s.clock := rfl
@[simp] theorem State.modG_cyc (s : State) (gi : Nat) (f : Group → Group) : (s.modG gi f).cyc = s.cyc := rfl
@[simp] theorem State.modG_traces (s : State) (gi : Nat) (f : Group → Group) : (s.modG gi f).traces = s.traces := rfl
@[simp] theorem State.modG_corrected (s : State) (gi : Nat) (f : Group → Group) : (s.modG gi f).corrected = s.corrected := rfl
@[simp] theorem State.modG_samples (s : State) (gi : Nat) (f : Group → Group) : (s.modG gi f).samples = s.samples := rfl
@[simp] theorem State.modG_hostLines (s : State) (gi : Nat) (f : Group → Group) : (s.modG gi f).hostLines = s.hostLines := rfl
@[simp] theorem State.modG_recalls (s : State) (gi : Nat) (f : Group → Group) : (s.modG gi f).recalls = s.recalls := rfl
@[simp] theorem State.modG_inputs (s : State) (gi : Nat) (f : Group → Group) : (s.modG gi f).inputs = s.inputs := rfl
@[simp] theorem State.modG_outbox (s : State) (gi : Nat) (f : Group → Group) : (s.modG gi f).outbox = s.outbox := rfl
@[simp] theorem State.modG_mgmt (s : State) (gi : Nat) (f : Group → Group) : (s.modG gi f).mgmt = s.mgmt := rfl
@[simp] theorem State.modG_drvNext (s : State) (gi : Nat) (f : Group → Group) : (s.modG gi f).drvNext = s.drvNext := rfl
@[simp] theorem State.modG_mailbox (s : State) (gi : Nat) (f : Group → Group) : (s.modG gi f).mailbox = s.mailbox := rfl
@[simp] theorem State.modG_flash (s : State) (gi : Nat) (f : Group → Group) : (s.modG gi f).flash = s.flash := rfl
@[simp] theorem State.modG_flashLen (s : State) (gi : Nat) (f : Group → Group) : (s.modG gi f).flashLen = s.flashLen := rfl
@[simp] theorem State.modG_flashOpen (s : State) (gi : Nat) (f : Group → Group) : (s.modG gi f).flashOpen = s.flashOpen := rfl
@[simp] theorem State.modG_fuseSvn (s : State) (gi : Nat) (f : Group → Group) : (s.modG gi f).fuseSvn = s.fuseSvn := rfl
@[simp] theorem State.modG_dumpBase (s : State) (gi : Nat) (f : Group → Group) : (s.modG gi f).dumpBase = s.dumpBase := rfl
@[simp] theorem State.modG_dumpSize (s : State) (gi : Nat) (f : Group → Group) : (s.modG gi f).dumpSize = s.dumpSize := rfl
@[simp] theorem State.modG_fatal (s : State) (gi : Nat) (f : Group → Group) : (s.modG gi f).fatal = s.fatal := rfl
@[simp] theorem State.modG_dumpOwed (s : State) (gi : Nat) (f : Group → Group) : (s.modG gi f).dumpOwed = s.dumpOwed := rfl
@[simp] theorem State.modG_peerAt (s : State) (gi : Nat) (f : Group → Group) : (s.modG gi f).peerAt = s.peerAt := rfl
@[simp] theorem State.modG_peerAsk (s : State) (gi : Nat) (f : Group → Group) : (s.modG gi f).peerAsk = s.peerAsk := rfl
@[simp] theorem State.modG_peerSaid (s : State) (gi : Nat) (f : Group → Group) : (s.modG gi f).peerSaid = s.peerSaid := rfl
@[simp] theorem State.modG_replayQ (s : State) (gi : Nat) (f : Group → Group) : (s.modG gi f).replayQ = s.replayQ := rfl

/-! ### `State.modB` -/

@[simp] theorem State.modB_time (s : State) (bi : Nat) (f : Block → Block) : (s.modB bi f).time = s.time := rfl
@[simp] theorem State.modB_fine (s : State) (bi : Nat) (f : Block → Block) : (s.modB bi f).fine = s.fine := rfl
@[simp] theorem State.modB_phase (s : State) (bi : Nat) (f : Block → Block) : (s.modB bi f).phase = s.phase := rfl
@[simp] theorem State.modB_issues (s : State) (bi : Nat) (f : Block → Block) : (s.modB bi f).issues = s.issues := rfl
@[simp] theorem State.modB_service (s : State) (bi : Nat) (f : Block → Block) : (s.modB bi f).service = s.service := rfl
@[simp] theorem State.modB_serviced (s : State) (bi : Nat) (f : Block → Block) : (s.modB bi f).serviced = s.serviced := rfl
@[simp] theorem State.modB_readsFmt (s : State) (bi : Nat) (f : Block → Block) : (s.modB bi f).readsFmt = s.readsFmt := rfl
@[simp] theorem State.modB_steps (s : State) (bi : Nat) (f : Block → Block) : (s.modB bi f).steps = s.steps := rfl
@[simp] theorem State.modB_draws (s : State) (bi : Nat) (f : Block → Block) : (s.modB bi f).draws = s.draws := rfl
@[simp] theorem State.modB_seq (s : State) (bi : Nat) (f : Block → Block) : (s.modB bi f).seq = s.seq := rfl
@[simp] theorem State.modB_cur (s : State) (bi : Nat) (f : Block → Block) : (s.modB bi f).cur = s.cur := rfl
@[simp] theorem State.modB_mem (s : State) (bi : Nat) (f : Block → Block) : (s.modB bi f).mem = s.mem := rfl
@[simp] theorem State.modB_memBad (s : State) (bi : Nat) (f : Block → Block) : (s.modB bi f).memBad = s.memBad := rfl
@[simp] theorem State.modB_groups (s : State) (bi : Nat) (f : Block → Block) : (s.modB bi f).groups = s.groups := rfl
@[simp] theorem State.modB_launches (s : State) (bi : Nat) (f : Block → Block) : (s.modB bi f).launches = s.launches := rfl
@[simp] theorem State.modB_ctxs (s : State) (bi : Nat) (f : Block → Block) : (s.modB bi f).ctxs = s.ctxs := rfl
@[simp] theorem State.modB_gens (s : State) (bi : Nat) (f : Block → Block) : (s.modB bi f).gens = s.gens := rfl
@[simp] theorem State.modB_queues (s : State) (bi : Nat) (f : Block → Block) : (s.modB bi f).queues = s.queues := rfl
@[simp] theorem State.modB_trees (s : State) (bi : Nat) (f : Block → Block) : (s.modB bi f).trees = s.trees := rfl
@[simp] theorem State.modB_pools (s : State) (bi : Nat) (f : Block → Block) : (s.modB bi f).pools = s.pools := rfl
@[simp] theorem State.modB_syzygy (s : State) (bi : Nat) (f : Block → Block) : (s.modB bi f).syzygy = s.syzygy := rfl
@[simp] theorem State.modB_feeds (s : State) (bi : Nat) (f : Block → Block) : (s.modB bi f).feeds = s.feeds := rfl
@[simp] theorem State.modB_spawnq (s : State) (bi : Nat) (f : Block → Block) : (s.modB bi f).spawnq = s.spawnq := rfl
@[simp] theorem State.modB_unperf (s : State) (bi : Nat) (f : Block → Block) : (s.modB bi f).unperf = s.unperf := rfl
@[simp] theorem State.modB_copies (s : State) (bi : Nat) (f : Block → Block) : (s.modB bi f).copies = s.copies := rfl
@[simp] theorem State.modB_cols (s : State) (bi : Nat) (f : Block → Block) : (s.modB bi f).cols = s.cols := rfl
@[simp] theorem State.modB_dyns (s : State) (bi : Nat) (f : Block → Block) : (s.modB bi f).dyns = s.dyns := rfl
@[simp] theorem State.modB_l1 (s : State) (bi : Nat) (f : Block → Block) : (s.modB bi f).l1 = s.l1 := rfl
@[simp] theorem State.modB_fillNo (s : State) (bi : Nat) (f : Block → Block) : (s.modB bi f).fillNo = s.fillNo := rfl
@[simp] theorem State.modB_icache (s : State) (bi : Nat) (f : Block → Block) : (s.modB bi f).icache = s.icache := rfl
@[simp] theorem State.modB_tlb (s : State) (bi : Nat) (f : Block → Block) : (s.modB bi f).tlb = s.tlb := rfl
@[simp] theorem State.modB_tlb2 (s : State) (bi : Nat) (f : Block → Block) : (s.modB bi f).tlb2 = s.tlb2 := rfl
@[simp] theorem State.modB_walks (s : State) (bi : Nat) (f : Block → Block) : (s.modB bi f).walks = s.walks := rfl
@[simp] theorem State.modB_l2 (s : State) (bi : Nat) (f : Block → Block) : (s.modB bi f).l2 = s.l2 := rfl
@[simp] theorem State.modB_woas (s : State) (bi : Nat) (f : Block → Block) : (s.modB bi f).woas = s.woas := rfl
@[simp] theorem State.modB_woaNo (s : State) (bi : Nat) (f : Block → Block) : (s.modB bi f).woaNo = s.woaNo := rfl
@[simp] theorem State.modB_xfaults (s : State) (bi : Nat) (f : Block → Block) : (s.modB bi f).xfaults = s.xfaults := rfl
@[simp] theorem State.modB_token (s : State) (bi : Nat) (f : Block → Block) : (s.modB bi f).token = s.token := rfl
@[simp] theorem State.modB_chovis (s : State) (bi : Nat) (f : Block → Block) : (s.modB bi f).chovis = s.chovis := rfl
@[simp] theorem State.modB_sysreqs (s : State) (bi : Nat) (f : Block → Block) : (s.modB bi f).sysreqs = s.sysreqs := rfl
@[simp] theorem State.modB_slotGens (s : State) (bi : Nat) (f : Block → Block) : (s.modB bi f).slotGens = s.slotGens := rfl
@[simp] theorem State.modB_btags (s : State) (bi : Nat) (f : Block → Block) : (s.modB bi f).btags = s.btags := rfl
@[simp] theorem State.modB_lid (s : State) (bi : Nat) (f : Block → Block) : (s.modB bi f).lid = s.lid := rfl
@[simp] theorem State.modB_reserved (s : State) (bi : Nat) (f : Block → Block) : (s.modB bi f).reserved = s.reserved := rfl
@[simp] theorem State.modB_pinned (s : State) (bi : Nat) (f : Block → Block) : (s.modB bi f).pinned = s.pinned := rfl
@[simp] theorem State.modB_split (s : State) (bi : Nat) (f : Block → Block) : (s.modB bi f).split = s.split := rfl
@[simp] theorem State.modB_clock (s : State) (bi : Nat) (f : Block → Block) : (s.modB bi f).clock = s.clock := rfl
@[simp] theorem State.modB_cyc (s : State) (bi : Nat) (f : Block → Block) : (s.modB bi f).cyc = s.cyc := rfl
@[simp] theorem State.modB_traces (s : State) (bi : Nat) (f : Block → Block) : (s.modB bi f).traces = s.traces := rfl
@[simp] theorem State.modB_corrected (s : State) (bi : Nat) (f : Block → Block) : (s.modB bi f).corrected = s.corrected := rfl
@[simp] theorem State.modB_samples (s : State) (bi : Nat) (f : Block → Block) : (s.modB bi f).samples = s.samples := rfl
@[simp] theorem State.modB_hostLines (s : State) (bi : Nat) (f : Block → Block) : (s.modB bi f).hostLines = s.hostLines := rfl
@[simp] theorem State.modB_recalls (s : State) (bi : Nat) (f : Block → Block) : (s.modB bi f).recalls = s.recalls := rfl
@[simp] theorem State.modB_inputs (s : State) (bi : Nat) (f : Block → Block) : (s.modB bi f).inputs = s.inputs := rfl
@[simp] theorem State.modB_outbox (s : State) (bi : Nat) (f : Block → Block) : (s.modB bi f).outbox = s.outbox := rfl
@[simp] theorem State.modB_mgmt (s : State) (bi : Nat) (f : Block → Block) : (s.modB bi f).mgmt = s.mgmt := rfl
@[simp] theorem State.modB_drvNext (s : State) (bi : Nat) (f : Block → Block) : (s.modB bi f).drvNext = s.drvNext := rfl
@[simp] theorem State.modB_mailbox (s : State) (bi : Nat) (f : Block → Block) : (s.modB bi f).mailbox = s.mailbox := rfl
@[simp] theorem State.modB_flash (s : State) (bi : Nat) (f : Block → Block) : (s.modB bi f).flash = s.flash := rfl
@[simp] theorem State.modB_flashLen (s : State) (bi : Nat) (f : Block → Block) : (s.modB bi f).flashLen = s.flashLen := rfl
@[simp] theorem State.modB_flashOpen (s : State) (bi : Nat) (f : Block → Block) : (s.modB bi f).flashOpen = s.flashOpen := rfl
@[simp] theorem State.modB_fuseSvn (s : State) (bi : Nat) (f : Block → Block) : (s.modB bi f).fuseSvn = s.fuseSvn := rfl
@[simp] theorem State.modB_dumpBase (s : State) (bi : Nat) (f : Block → Block) : (s.modB bi f).dumpBase = s.dumpBase := rfl
@[simp] theorem State.modB_dumpSize (s : State) (bi : Nat) (f : Block → Block) : (s.modB bi f).dumpSize = s.dumpSize := rfl
@[simp] theorem State.modB_fatal (s : State) (bi : Nat) (f : Block → Block) : (s.modB bi f).fatal = s.fatal := rfl
@[simp] theorem State.modB_dumpOwed (s : State) (bi : Nat) (f : Block → Block) : (s.modB bi f).dumpOwed = s.dumpOwed := rfl
@[simp] theorem State.modB_peerAt (s : State) (bi : Nat) (f : Block → Block) : (s.modB bi f).peerAt = s.peerAt := rfl
@[simp] theorem State.modB_peerAsk (s : State) (bi : Nat) (f : Block → Block) : (s.modB bi f).peerAsk = s.peerAsk := rfl
@[simp] theorem State.modB_peerSaid (s : State) (bi : Nat) (f : Block → Block) : (s.modB bi f).peerSaid = s.peerSaid := rfl
@[simp] theorem State.modB_replayQ (s : State) (bi : Nat) (f : Block → Block) : (s.modB bi f).replayQ = s.replayQ := rfl

/-! ### `State.modL` -/

@[simp] theorem State.modL_time (s : State) (li : Nat) (f : Launch → Launch) : (s.modL li f).time = s.time := rfl
@[simp] theorem State.modL_fine (s : State) (li : Nat) (f : Launch → Launch) : (s.modL li f).fine = s.fine := rfl
@[simp] theorem State.modL_phase (s : State) (li : Nat) (f : Launch → Launch) : (s.modL li f).phase = s.phase := rfl
@[simp] theorem State.modL_issues (s : State) (li : Nat) (f : Launch → Launch) : (s.modL li f).issues = s.issues := rfl
@[simp] theorem State.modL_service (s : State) (li : Nat) (f : Launch → Launch) : (s.modL li f).service = s.service := rfl
@[simp] theorem State.modL_serviced (s : State) (li : Nat) (f : Launch → Launch) : (s.modL li f).serviced = s.serviced := rfl
@[simp] theorem State.modL_readsFmt (s : State) (li : Nat) (f : Launch → Launch) : (s.modL li f).readsFmt = s.readsFmt := rfl
@[simp] theorem State.modL_steps (s : State) (li : Nat) (f : Launch → Launch) : (s.modL li f).steps = s.steps := rfl
@[simp] theorem State.modL_draws (s : State) (li : Nat) (f : Launch → Launch) : (s.modL li f).draws = s.draws := rfl
@[simp] theorem State.modL_seq (s : State) (li : Nat) (f : Launch → Launch) : (s.modL li f).seq = s.seq := rfl
@[simp] theorem State.modL_cur (s : State) (li : Nat) (f : Launch → Launch) : (s.modL li f).cur = s.cur := rfl
@[simp] theorem State.modL_mem (s : State) (li : Nat) (f : Launch → Launch) : (s.modL li f).mem = s.mem := rfl
@[simp] theorem State.modL_memBad (s : State) (li : Nat) (f : Launch → Launch) : (s.modL li f).memBad = s.memBad := rfl
@[simp] theorem State.modL_groups (s : State) (li : Nat) (f : Launch → Launch) : (s.modL li f).groups = s.groups := rfl
@[simp] theorem State.modL_blocks (s : State) (li : Nat) (f : Launch → Launch) : (s.modL li f).blocks = s.blocks := rfl
@[simp] theorem State.modL_ctxs (s : State) (li : Nat) (f : Launch → Launch) : (s.modL li f).ctxs = s.ctxs := rfl
@[simp] theorem State.modL_gens (s : State) (li : Nat) (f : Launch → Launch) : (s.modL li f).gens = s.gens := rfl
@[simp] theorem State.modL_queues (s : State) (li : Nat) (f : Launch → Launch) : (s.modL li f).queues = s.queues := rfl
@[simp] theorem State.modL_trees (s : State) (li : Nat) (f : Launch → Launch) : (s.modL li f).trees = s.trees := rfl
@[simp] theorem State.modL_pools (s : State) (li : Nat) (f : Launch → Launch) : (s.modL li f).pools = s.pools := rfl
@[simp] theorem State.modL_syzygy (s : State) (li : Nat) (f : Launch → Launch) : (s.modL li f).syzygy = s.syzygy := rfl
@[simp] theorem State.modL_feeds (s : State) (li : Nat) (f : Launch → Launch) : (s.modL li f).feeds = s.feeds := rfl
@[simp] theorem State.modL_spawnq (s : State) (li : Nat) (f : Launch → Launch) : (s.modL li f).spawnq = s.spawnq := rfl
@[simp] theorem State.modL_unperf (s : State) (li : Nat) (f : Launch → Launch) : (s.modL li f).unperf = s.unperf := rfl
@[simp] theorem State.modL_copies (s : State) (li : Nat) (f : Launch → Launch) : (s.modL li f).copies = s.copies := rfl
@[simp] theorem State.modL_cols (s : State) (li : Nat) (f : Launch → Launch) : (s.modL li f).cols = s.cols := rfl
@[simp] theorem State.modL_dyns (s : State) (li : Nat) (f : Launch → Launch) : (s.modL li f).dyns = s.dyns := rfl
@[simp] theorem State.modL_l1 (s : State) (li : Nat) (f : Launch → Launch) : (s.modL li f).l1 = s.l1 := rfl
@[simp] theorem State.modL_fillNo (s : State) (li : Nat) (f : Launch → Launch) : (s.modL li f).fillNo = s.fillNo := rfl
@[simp] theorem State.modL_icache (s : State) (li : Nat) (f : Launch → Launch) : (s.modL li f).icache = s.icache := rfl
@[simp] theorem State.modL_tlb (s : State) (li : Nat) (f : Launch → Launch) : (s.modL li f).tlb = s.tlb := rfl
@[simp] theorem State.modL_tlb2 (s : State) (li : Nat) (f : Launch → Launch) : (s.modL li f).tlb2 = s.tlb2 := rfl
@[simp] theorem State.modL_walks (s : State) (li : Nat) (f : Launch → Launch) : (s.modL li f).walks = s.walks := rfl
@[simp] theorem State.modL_l2 (s : State) (li : Nat) (f : Launch → Launch) : (s.modL li f).l2 = s.l2 := rfl
@[simp] theorem State.modL_woas (s : State) (li : Nat) (f : Launch → Launch) : (s.modL li f).woas = s.woas := rfl
@[simp] theorem State.modL_woaNo (s : State) (li : Nat) (f : Launch → Launch) : (s.modL li f).woaNo = s.woaNo := rfl
@[simp] theorem State.modL_xfaults (s : State) (li : Nat) (f : Launch → Launch) : (s.modL li f).xfaults = s.xfaults := rfl
@[simp] theorem State.modL_token (s : State) (li : Nat) (f : Launch → Launch) : (s.modL li f).token = s.token := rfl
@[simp] theorem State.modL_chovis (s : State) (li : Nat) (f : Launch → Launch) : (s.modL li f).chovis = s.chovis := rfl
@[simp] theorem State.modL_sysreqs (s : State) (li : Nat) (f : Launch → Launch) : (s.modL li f).sysreqs = s.sysreqs := rfl
@[simp] theorem State.modL_slotGens (s : State) (li : Nat) (f : Launch → Launch) : (s.modL li f).slotGens = s.slotGens := rfl
@[simp] theorem State.modL_btags (s : State) (li : Nat) (f : Launch → Launch) : (s.modL li f).btags = s.btags := rfl
@[simp] theorem State.modL_lid (s : State) (li : Nat) (f : Launch → Launch) : (s.modL li f).lid = s.lid := rfl
@[simp] theorem State.modL_reserved (s : State) (li : Nat) (f : Launch → Launch) : (s.modL li f).reserved = s.reserved := rfl
@[simp] theorem State.modL_pinned (s : State) (li : Nat) (f : Launch → Launch) : (s.modL li f).pinned = s.pinned := rfl
@[simp] theorem State.modL_split (s : State) (li : Nat) (f : Launch → Launch) : (s.modL li f).split = s.split := rfl
@[simp] theorem State.modL_clock (s : State) (li : Nat) (f : Launch → Launch) : (s.modL li f).clock = s.clock := rfl
@[simp] theorem State.modL_cyc (s : State) (li : Nat) (f : Launch → Launch) : (s.modL li f).cyc = s.cyc := rfl
@[simp] theorem State.modL_traces (s : State) (li : Nat) (f : Launch → Launch) : (s.modL li f).traces = s.traces := rfl
@[simp] theorem State.modL_corrected (s : State) (li : Nat) (f : Launch → Launch) : (s.modL li f).corrected = s.corrected := rfl
@[simp] theorem State.modL_samples (s : State) (li : Nat) (f : Launch → Launch) : (s.modL li f).samples = s.samples := rfl
@[simp] theorem State.modL_hostLines (s : State) (li : Nat) (f : Launch → Launch) : (s.modL li f).hostLines = s.hostLines := rfl
@[simp] theorem State.modL_recalls (s : State) (li : Nat) (f : Launch → Launch) : (s.modL li f).recalls = s.recalls := rfl
@[simp] theorem State.modL_inputs (s : State) (li : Nat) (f : Launch → Launch) : (s.modL li f).inputs = s.inputs := rfl
@[simp] theorem State.modL_outbox (s : State) (li : Nat) (f : Launch → Launch) : (s.modL li f).outbox = s.outbox := rfl
@[simp] theorem State.modL_mgmt (s : State) (li : Nat) (f : Launch → Launch) : (s.modL li f).mgmt = s.mgmt := rfl
@[simp] theorem State.modL_drvNext (s : State) (li : Nat) (f : Launch → Launch) : (s.modL li f).drvNext = s.drvNext := rfl
@[simp] theorem State.modL_mailbox (s : State) (li : Nat) (f : Launch → Launch) : (s.modL li f).mailbox = s.mailbox := rfl
@[simp] theorem State.modL_flash (s : State) (li : Nat) (f : Launch → Launch) : (s.modL li f).flash = s.flash := rfl
@[simp] theorem State.modL_flashLen (s : State) (li : Nat) (f : Launch → Launch) : (s.modL li f).flashLen = s.flashLen := rfl
@[simp] theorem State.modL_flashOpen (s : State) (li : Nat) (f : Launch → Launch) : (s.modL li f).flashOpen = s.flashOpen := rfl
@[simp] theorem State.modL_fuseSvn (s : State) (li : Nat) (f : Launch → Launch) : (s.modL li f).fuseSvn = s.fuseSvn := rfl
@[simp] theorem State.modL_dumpBase (s : State) (li : Nat) (f : Launch → Launch) : (s.modL li f).dumpBase = s.dumpBase := rfl
@[simp] theorem State.modL_dumpSize (s : State) (li : Nat) (f : Launch → Launch) : (s.modL li f).dumpSize = s.dumpSize := rfl
@[simp] theorem State.modL_fatal (s : State) (li : Nat) (f : Launch → Launch) : (s.modL li f).fatal = s.fatal := rfl
@[simp] theorem State.modL_dumpOwed (s : State) (li : Nat) (f : Launch → Launch) : (s.modL li f).dumpOwed = s.dumpOwed := rfl
@[simp] theorem State.modL_peerAt (s : State) (li : Nat) (f : Launch → Launch) : (s.modL li f).peerAt = s.peerAt := rfl
@[simp] theorem State.modL_peerAsk (s : State) (li : Nat) (f : Launch → Launch) : (s.modL li f).peerAsk = s.peerAsk := rfl
@[simp] theorem State.modL_peerSaid (s : State) (li : Nat) (f : Launch → Launch) : (s.modL li f).peerSaid = s.peerSaid := rfl
@[simp] theorem State.modL_replayQ (s : State) (li : Nat) (f : Launch → Launch) : (s.modL li f).replayQ = s.replayQ := rfl

/-! ### `State.modF` -/

@[simp] theorem State.modF_time (s : State) (gi fi : Nat) (f : Frag → Frag) : (s.modF gi fi f).time = s.time := rfl
@[simp] theorem State.modF_fine (s : State) (gi fi : Nat) (f : Frag → Frag) : (s.modF gi fi f).fine = s.fine := rfl
@[simp] theorem State.modF_phase (s : State) (gi fi : Nat) (f : Frag → Frag) : (s.modF gi fi f).phase = s.phase := rfl
@[simp] theorem State.modF_issues (s : State) (gi fi : Nat) (f : Frag → Frag) : (s.modF gi fi f).issues = s.issues := rfl
@[simp] theorem State.modF_service (s : State) (gi fi : Nat) (f : Frag → Frag) : (s.modF gi fi f).service = s.service := rfl
@[simp] theorem State.modF_serviced (s : State) (gi fi : Nat) (f : Frag → Frag) : (s.modF gi fi f).serviced = s.serviced := rfl
@[simp] theorem State.modF_readsFmt (s : State) (gi fi : Nat) (f : Frag → Frag) : (s.modF gi fi f).readsFmt = s.readsFmt := rfl
@[simp] theorem State.modF_steps (s : State) (gi fi : Nat) (f : Frag → Frag) : (s.modF gi fi f).steps = s.steps := rfl
@[simp] theorem State.modF_draws (s : State) (gi fi : Nat) (f : Frag → Frag) : (s.modF gi fi f).draws = s.draws := rfl
@[simp] theorem State.modF_seq (s : State) (gi fi : Nat) (f : Frag → Frag) : (s.modF gi fi f).seq = s.seq := rfl
@[simp] theorem State.modF_cur (s : State) (gi fi : Nat) (f : Frag → Frag) : (s.modF gi fi f).cur = s.cur := rfl
@[simp] theorem State.modF_mem (s : State) (gi fi : Nat) (f : Frag → Frag) : (s.modF gi fi f).mem = s.mem := rfl
@[simp] theorem State.modF_memBad (s : State) (gi fi : Nat) (f : Frag → Frag) : (s.modF gi fi f).memBad = s.memBad := rfl
@[simp] theorem State.modF_blocks (s : State) (gi fi : Nat) (f : Frag → Frag) : (s.modF gi fi f).blocks = s.blocks := rfl
@[simp] theorem State.modF_launches (s : State) (gi fi : Nat) (f : Frag → Frag) : (s.modF gi fi f).launches = s.launches := rfl
@[simp] theorem State.modF_ctxs (s : State) (gi fi : Nat) (f : Frag → Frag) : (s.modF gi fi f).ctxs = s.ctxs := rfl
@[simp] theorem State.modF_gens (s : State) (gi fi : Nat) (f : Frag → Frag) : (s.modF gi fi f).gens = s.gens := rfl
@[simp] theorem State.modF_queues (s : State) (gi fi : Nat) (f : Frag → Frag) : (s.modF gi fi f).queues = s.queues := rfl
@[simp] theorem State.modF_trees (s : State) (gi fi : Nat) (f : Frag → Frag) : (s.modF gi fi f).trees = s.trees := rfl
@[simp] theorem State.modF_pools (s : State) (gi fi : Nat) (f : Frag → Frag) : (s.modF gi fi f).pools = s.pools := rfl
@[simp] theorem State.modF_syzygy (s : State) (gi fi : Nat) (f : Frag → Frag) : (s.modF gi fi f).syzygy = s.syzygy := rfl
@[simp] theorem State.modF_feeds (s : State) (gi fi : Nat) (f : Frag → Frag) : (s.modF gi fi f).feeds = s.feeds := rfl
@[simp] theorem State.modF_spawnq (s : State) (gi fi : Nat) (f : Frag → Frag) : (s.modF gi fi f).spawnq = s.spawnq := rfl
@[simp] theorem State.modF_unperf (s : State) (gi fi : Nat) (f : Frag → Frag) : (s.modF gi fi f).unperf = s.unperf := rfl
@[simp] theorem State.modF_copies (s : State) (gi fi : Nat) (f : Frag → Frag) : (s.modF gi fi f).copies = s.copies := rfl
@[simp] theorem State.modF_cols (s : State) (gi fi : Nat) (f : Frag → Frag) : (s.modF gi fi f).cols = s.cols := rfl
@[simp] theorem State.modF_dyns (s : State) (gi fi : Nat) (f : Frag → Frag) : (s.modF gi fi f).dyns = s.dyns := rfl
@[simp] theorem State.modF_l1 (s : State) (gi fi : Nat) (f : Frag → Frag) : (s.modF gi fi f).l1 = s.l1 := rfl
@[simp] theorem State.modF_fillNo (s : State) (gi fi : Nat) (f : Frag → Frag) : (s.modF gi fi f).fillNo = s.fillNo := rfl
@[simp] theorem State.modF_icache (s : State) (gi fi : Nat) (f : Frag → Frag) : (s.modF gi fi f).icache = s.icache := rfl
@[simp] theorem State.modF_tlb (s : State) (gi fi : Nat) (f : Frag → Frag) : (s.modF gi fi f).tlb = s.tlb := rfl
@[simp] theorem State.modF_tlb2 (s : State) (gi fi : Nat) (f : Frag → Frag) : (s.modF gi fi f).tlb2 = s.tlb2 := rfl
@[simp] theorem State.modF_walks (s : State) (gi fi : Nat) (f : Frag → Frag) : (s.modF gi fi f).walks = s.walks := rfl
@[simp] theorem State.modF_l2 (s : State) (gi fi : Nat) (f : Frag → Frag) : (s.modF gi fi f).l2 = s.l2 := rfl
@[simp] theorem State.modF_woas (s : State) (gi fi : Nat) (f : Frag → Frag) : (s.modF gi fi f).woas = s.woas := rfl
@[simp] theorem State.modF_woaNo (s : State) (gi fi : Nat) (f : Frag → Frag) : (s.modF gi fi f).woaNo = s.woaNo := rfl
@[simp] theorem State.modF_xfaults (s : State) (gi fi : Nat) (f : Frag → Frag) : (s.modF gi fi f).xfaults = s.xfaults := rfl
@[simp] theorem State.modF_token (s : State) (gi fi : Nat) (f : Frag → Frag) : (s.modF gi fi f).token = s.token := rfl
@[simp] theorem State.modF_chovis (s : State) (gi fi : Nat) (f : Frag → Frag) : (s.modF gi fi f).chovis = s.chovis := rfl
@[simp] theorem State.modF_sysreqs (s : State) (gi fi : Nat) (f : Frag → Frag) : (s.modF gi fi f).sysreqs = s.sysreqs := rfl
@[simp] theorem State.modF_slotGens (s : State) (gi fi : Nat) (f : Frag → Frag) : (s.modF gi fi f).slotGens = s.slotGens := rfl
@[simp] theorem State.modF_btags (s : State) (gi fi : Nat) (f : Frag → Frag) : (s.modF gi fi f).btags = s.btags := rfl
@[simp] theorem State.modF_lid (s : State) (gi fi : Nat) (f : Frag → Frag) : (s.modF gi fi f).lid = s.lid := rfl
@[simp] theorem State.modF_reserved (s : State) (gi fi : Nat) (f : Frag → Frag) : (s.modF gi fi f).reserved = s.reserved := rfl
@[simp] theorem State.modF_pinned (s : State) (gi fi : Nat) (f : Frag → Frag) : (s.modF gi fi f).pinned = s.pinned := rfl
@[simp] theorem State.modF_split (s : State) (gi fi : Nat) (f : Frag → Frag) : (s.modF gi fi f).split = s.split := rfl
@[simp] theorem State.modF_clock (s : State) (gi fi : Nat) (f : Frag → Frag) : (s.modF gi fi f).clock = s.clock := rfl
@[simp] theorem State.modF_cyc (s : State) (gi fi : Nat) (f : Frag → Frag) : (s.modF gi fi f).cyc = s.cyc := rfl
@[simp] theorem State.modF_traces (s : State) (gi fi : Nat) (f : Frag → Frag) : (s.modF gi fi f).traces = s.traces := rfl
@[simp] theorem State.modF_corrected (s : State) (gi fi : Nat) (f : Frag → Frag) : (s.modF gi fi f).corrected = s.corrected := rfl
@[simp] theorem State.modF_samples (s : State) (gi fi : Nat) (f : Frag → Frag) : (s.modF gi fi f).samples = s.samples := rfl
@[simp] theorem State.modF_hostLines (s : State) (gi fi : Nat) (f : Frag → Frag) : (s.modF gi fi f).hostLines = s.hostLines := rfl
@[simp] theorem State.modF_recalls (s : State) (gi fi : Nat) (f : Frag → Frag) : (s.modF gi fi f).recalls = s.recalls := rfl
@[simp] theorem State.modF_inputs (s : State) (gi fi : Nat) (f : Frag → Frag) : (s.modF gi fi f).inputs = s.inputs := rfl
@[simp] theorem State.modF_outbox (s : State) (gi fi : Nat) (f : Frag → Frag) : (s.modF gi fi f).outbox = s.outbox := rfl
@[simp] theorem State.modF_mgmt (s : State) (gi fi : Nat) (f : Frag → Frag) : (s.modF gi fi f).mgmt = s.mgmt := rfl
@[simp] theorem State.modF_drvNext (s : State) (gi fi : Nat) (f : Frag → Frag) : (s.modF gi fi f).drvNext = s.drvNext := rfl
@[simp] theorem State.modF_mailbox (s : State) (gi fi : Nat) (f : Frag → Frag) : (s.modF gi fi f).mailbox = s.mailbox := rfl
@[simp] theorem State.modF_flash (s : State) (gi fi : Nat) (f : Frag → Frag) : (s.modF gi fi f).flash = s.flash := rfl
@[simp] theorem State.modF_flashLen (s : State) (gi fi : Nat) (f : Frag → Frag) : (s.modF gi fi f).flashLen = s.flashLen := rfl
@[simp] theorem State.modF_flashOpen (s : State) (gi fi : Nat) (f : Frag → Frag) : (s.modF gi fi f).flashOpen = s.flashOpen := rfl
@[simp] theorem State.modF_fuseSvn (s : State) (gi fi : Nat) (f : Frag → Frag) : (s.modF gi fi f).fuseSvn = s.fuseSvn := rfl
@[simp] theorem State.modF_dumpBase (s : State) (gi fi : Nat) (f : Frag → Frag) : (s.modF gi fi f).dumpBase = s.dumpBase := rfl
@[simp] theorem State.modF_dumpSize (s : State) (gi fi : Nat) (f : Frag → Frag) : (s.modF gi fi f).dumpSize = s.dumpSize := rfl
@[simp] theorem State.modF_fatal (s : State) (gi fi : Nat) (f : Frag → Frag) : (s.modF gi fi f).fatal = s.fatal := rfl
@[simp] theorem State.modF_dumpOwed (s : State) (gi fi : Nat) (f : Frag → Frag) : (s.modF gi fi f).dumpOwed = s.dumpOwed := rfl
@[simp] theorem State.modF_peerAt (s : State) (gi fi : Nat) (f : Frag → Frag) : (s.modF gi fi f).peerAt = s.peerAt := rfl
@[simp] theorem State.modF_peerAsk (s : State) (gi fi : Nat) (f : Frag → Frag) : (s.modF gi fi f).peerAsk = s.peerAsk := rfl
@[simp] theorem State.modF_peerSaid (s : State) (gi fi : Nat) (f : Frag → Frag) : (s.modF gi fi f).peerSaid = s.peerSaid := rfl
@[simp] theorem State.modF_replayQ (s : State) (gi fi : Nat) (f : Frag → Frag) : (s.modF gi fi f).replayQ = s.replayQ := rfl

/-! ### `State.putReg` -/

@[simp] theorem State.putReg_time (s : State) (i : Iss) (fld : Nat) (f : Nat → Word) : (s.putReg i fld f).time = s.time := rfl
@[simp] theorem State.putReg_fine (s : State) (i : Iss) (fld : Nat) (f : Nat → Word) : (s.putReg i fld f).fine = s.fine := rfl
@[simp] theorem State.putReg_phase (s : State) (i : Iss) (fld : Nat) (f : Nat → Word) : (s.putReg i fld f).phase = s.phase := rfl
@[simp] theorem State.putReg_issues (s : State) (i : Iss) (fld : Nat) (f : Nat → Word) : (s.putReg i fld f).issues = s.issues := rfl
@[simp] theorem State.putReg_service (s : State) (i : Iss) (fld : Nat) (f : Nat → Word) : (s.putReg i fld f).service = s.service := rfl
@[simp] theorem State.putReg_serviced (s : State) (i : Iss) (fld : Nat) (f : Nat → Word) : (s.putReg i fld f).serviced = s.serviced := rfl
@[simp] theorem State.putReg_readsFmt (s : State) (i : Iss) (fld : Nat) (f : Nat → Word) : (s.putReg i fld f).readsFmt = s.readsFmt := rfl
@[simp] theorem State.putReg_steps (s : State) (i : Iss) (fld : Nat) (f : Nat → Word) : (s.putReg i fld f).steps = s.steps := rfl
@[simp] theorem State.putReg_draws (s : State) (i : Iss) (fld : Nat) (f : Nat → Word) : (s.putReg i fld f).draws = s.draws := rfl
@[simp] theorem State.putReg_seq (s : State) (i : Iss) (fld : Nat) (f : Nat → Word) : (s.putReg i fld f).seq = s.seq := rfl
@[simp] theorem State.putReg_cur (s : State) (i : Iss) (fld : Nat) (f : Nat → Word) : (s.putReg i fld f).cur = s.cur := rfl
@[simp] theorem State.putReg_mem (s : State) (i : Iss) (fld : Nat) (f : Nat → Word) : (s.putReg i fld f).mem = s.mem := rfl
@[simp] theorem State.putReg_memBad (s : State) (i : Iss) (fld : Nat) (f : Nat → Word) : (s.putReg i fld f).memBad = s.memBad := rfl
@[simp] theorem State.putReg_blocks (s : State) (i : Iss) (fld : Nat) (f : Nat → Word) : (s.putReg i fld f).blocks = s.blocks := rfl
@[simp] theorem State.putReg_launches (s : State) (i : Iss) (fld : Nat) (f : Nat → Word) : (s.putReg i fld f).launches = s.launches := rfl
@[simp] theorem State.putReg_ctxs (s : State) (i : Iss) (fld : Nat) (f : Nat → Word) : (s.putReg i fld f).ctxs = s.ctxs := rfl
@[simp] theorem State.putReg_gens (s : State) (i : Iss) (fld : Nat) (f : Nat → Word) : (s.putReg i fld f).gens = s.gens := rfl
@[simp] theorem State.putReg_queues (s : State) (i : Iss) (fld : Nat) (f : Nat → Word) : (s.putReg i fld f).queues = s.queues := rfl
@[simp] theorem State.putReg_trees (s : State) (i : Iss) (fld : Nat) (f : Nat → Word) : (s.putReg i fld f).trees = s.trees := rfl
@[simp] theorem State.putReg_pools (s : State) (i : Iss) (fld : Nat) (f : Nat → Word) : (s.putReg i fld f).pools = s.pools := rfl
@[simp] theorem State.putReg_syzygy (s : State) (i : Iss) (fld : Nat) (f : Nat → Word) : (s.putReg i fld f).syzygy = s.syzygy := rfl
@[simp] theorem State.putReg_feeds (s : State) (i : Iss) (fld : Nat) (f : Nat → Word) : (s.putReg i fld f).feeds = s.feeds := rfl
@[simp] theorem State.putReg_spawnq (s : State) (i : Iss) (fld : Nat) (f : Nat → Word) : (s.putReg i fld f).spawnq = s.spawnq := rfl
@[simp] theorem State.putReg_unperf (s : State) (i : Iss) (fld : Nat) (f : Nat → Word) : (s.putReg i fld f).unperf = s.unperf := rfl
@[simp] theorem State.putReg_copies (s : State) (i : Iss) (fld : Nat) (f : Nat → Word) : (s.putReg i fld f).copies = s.copies := rfl
@[simp] theorem State.putReg_cols (s : State) (i : Iss) (fld : Nat) (f : Nat → Word) : (s.putReg i fld f).cols = s.cols := rfl
@[simp] theorem State.putReg_dyns (s : State) (i : Iss) (fld : Nat) (f : Nat → Word) : (s.putReg i fld f).dyns = s.dyns := rfl
@[simp] theorem State.putReg_l1 (s : State) (i : Iss) (fld : Nat) (f : Nat → Word) : (s.putReg i fld f).l1 = s.l1 := rfl
@[simp] theorem State.putReg_fillNo (s : State) (i : Iss) (fld : Nat) (f : Nat → Word) : (s.putReg i fld f).fillNo = s.fillNo := rfl
@[simp] theorem State.putReg_icache (s : State) (i : Iss) (fld : Nat) (f : Nat → Word) : (s.putReg i fld f).icache = s.icache := rfl
@[simp] theorem State.putReg_tlb (s : State) (i : Iss) (fld : Nat) (f : Nat → Word) : (s.putReg i fld f).tlb = s.tlb := rfl
@[simp] theorem State.putReg_tlb2 (s : State) (i : Iss) (fld : Nat) (f : Nat → Word) : (s.putReg i fld f).tlb2 = s.tlb2 := rfl
@[simp] theorem State.putReg_walks (s : State) (i : Iss) (fld : Nat) (f : Nat → Word) : (s.putReg i fld f).walks = s.walks := rfl
@[simp] theorem State.putReg_l2 (s : State) (i : Iss) (fld : Nat) (f : Nat → Word) : (s.putReg i fld f).l2 = s.l2 := rfl
@[simp] theorem State.putReg_woas (s : State) (i : Iss) (fld : Nat) (f : Nat → Word) : (s.putReg i fld f).woas = s.woas := rfl
@[simp] theorem State.putReg_woaNo (s : State) (i : Iss) (fld : Nat) (f : Nat → Word) : (s.putReg i fld f).woaNo = s.woaNo := rfl
@[simp] theorem State.putReg_xfaults (s : State) (i : Iss) (fld : Nat) (f : Nat → Word) : (s.putReg i fld f).xfaults = s.xfaults := rfl
@[simp] theorem State.putReg_token (s : State) (i : Iss) (fld : Nat) (f : Nat → Word) : (s.putReg i fld f).token = s.token := rfl
@[simp] theorem State.putReg_chovis (s : State) (i : Iss) (fld : Nat) (f : Nat → Word) : (s.putReg i fld f).chovis = s.chovis := rfl
@[simp] theorem State.putReg_sysreqs (s : State) (i : Iss) (fld : Nat) (f : Nat → Word) : (s.putReg i fld f).sysreqs = s.sysreqs := rfl
@[simp] theorem State.putReg_slotGens (s : State) (i : Iss) (fld : Nat) (f : Nat → Word) : (s.putReg i fld f).slotGens = s.slotGens := rfl
@[simp] theorem State.putReg_btags (s : State) (i : Iss) (fld : Nat) (f : Nat → Word) : (s.putReg i fld f).btags = s.btags := rfl
@[simp] theorem State.putReg_lid (s : State) (i : Iss) (fld : Nat) (f : Nat → Word) : (s.putReg i fld f).lid = s.lid := rfl
@[simp] theorem State.putReg_reserved (s : State) (i : Iss) (fld : Nat) (f : Nat → Word) : (s.putReg i fld f).reserved = s.reserved := rfl
@[simp] theorem State.putReg_pinned (s : State) (i : Iss) (fld : Nat) (f : Nat → Word) : (s.putReg i fld f).pinned = s.pinned := rfl
@[simp] theorem State.putReg_split (s : State) (i : Iss) (fld : Nat) (f : Nat → Word) : (s.putReg i fld f).split = s.split := rfl
@[simp] theorem State.putReg_clock (s : State) (i : Iss) (fld : Nat) (f : Nat → Word) : (s.putReg i fld f).clock = s.clock := rfl
@[simp] theorem State.putReg_cyc (s : State) (i : Iss) (fld : Nat) (f : Nat → Word) : (s.putReg i fld f).cyc = s.cyc := rfl
@[simp] theorem State.putReg_traces (s : State) (i : Iss) (fld : Nat) (f : Nat → Word) : (s.putReg i fld f).traces = s.traces := rfl
@[simp] theorem State.putReg_corrected (s : State) (i : Iss) (fld : Nat) (f : Nat → Word) : (s.putReg i fld f).corrected = s.corrected := rfl
@[simp] theorem State.putReg_samples (s : State) (i : Iss) (fld : Nat) (f : Nat → Word) : (s.putReg i fld f).samples = s.samples := rfl
@[simp] theorem State.putReg_hostLines (s : State) (i : Iss) (fld : Nat) (f : Nat → Word) : (s.putReg i fld f).hostLines = s.hostLines := rfl
@[simp] theorem State.putReg_recalls (s : State) (i : Iss) (fld : Nat) (f : Nat → Word) : (s.putReg i fld f).recalls = s.recalls := rfl
@[simp] theorem State.putReg_inputs (s : State) (i : Iss) (fld : Nat) (f : Nat → Word) : (s.putReg i fld f).inputs = s.inputs := rfl
@[simp] theorem State.putReg_outbox (s : State) (i : Iss) (fld : Nat) (f : Nat → Word) : (s.putReg i fld f).outbox = s.outbox := rfl
@[simp] theorem State.putReg_mgmt (s : State) (i : Iss) (fld : Nat) (f : Nat → Word) : (s.putReg i fld f).mgmt = s.mgmt := rfl
@[simp] theorem State.putReg_drvNext (s : State) (i : Iss) (fld : Nat) (f : Nat → Word) : (s.putReg i fld f).drvNext = s.drvNext := rfl
@[simp] theorem State.putReg_mailbox (s : State) (i : Iss) (fld : Nat) (f : Nat → Word) : (s.putReg i fld f).mailbox = s.mailbox := rfl
@[simp] theorem State.putReg_flash (s : State) (i : Iss) (fld : Nat) (f : Nat → Word) : (s.putReg i fld f).flash = s.flash := rfl
@[simp] theorem State.putReg_flashLen (s : State) (i : Iss) (fld : Nat) (f : Nat → Word) : (s.putReg i fld f).flashLen = s.flashLen := rfl
@[simp] theorem State.putReg_flashOpen (s : State) (i : Iss) (fld : Nat) (f : Nat → Word) : (s.putReg i fld f).flashOpen = s.flashOpen := rfl
@[simp] theorem State.putReg_fuseSvn (s : State) (i : Iss) (fld : Nat) (f : Nat → Word) : (s.putReg i fld f).fuseSvn = s.fuseSvn := rfl
@[simp] theorem State.putReg_dumpBase (s : State) (i : Iss) (fld : Nat) (f : Nat → Word) : (s.putReg i fld f).dumpBase = s.dumpBase := rfl
@[simp] theorem State.putReg_dumpSize (s : State) (i : Iss) (fld : Nat) (f : Nat → Word) : (s.putReg i fld f).dumpSize = s.dumpSize := rfl
@[simp] theorem State.putReg_fatal (s : State) (i : Iss) (fld : Nat) (f : Nat → Word) : (s.putReg i fld f).fatal = s.fatal := rfl
@[simp] theorem State.putReg_dumpOwed (s : State) (i : Iss) (fld : Nat) (f : Nat → Word) : (s.putReg i fld f).dumpOwed = s.dumpOwed := rfl
@[simp] theorem State.putReg_peerAt (s : State) (i : Iss) (fld : Nat) (f : Nat → Word) : (s.putReg i fld f).peerAt = s.peerAt := rfl
@[simp] theorem State.putReg_peerAsk (s : State) (i : Iss) (fld : Nat) (f : Nat → Word) : (s.putReg i fld f).peerAsk = s.peerAsk := rfl
@[simp] theorem State.putReg_peerSaid (s : State) (i : Iss) (fld : Nat) (f : Nat → Word) : (s.putReg i fld f).peerSaid = s.peerSaid := rfl
@[simp] theorem State.putReg_replayQ (s : State) (i : Iss) (fld : Nat) (f : Nat → Word) : (s.putReg i fld f).replayQ = s.replayQ := rfl

/-! ### `State.putPair` -/

@[simp] theorem State.putPair_time (s : State) (i : Iss) (fld : Nat) (f : Nat → Word64) : (s.putPair i fld f).time = s.time := rfl
@[simp] theorem State.putPair_fine (s : State) (i : Iss) (fld : Nat) (f : Nat → Word64) : (s.putPair i fld f).fine = s.fine := rfl
@[simp] theorem State.putPair_phase (s : State) (i : Iss) (fld : Nat) (f : Nat → Word64) : (s.putPair i fld f).phase = s.phase := rfl
@[simp] theorem State.putPair_issues (s : State) (i : Iss) (fld : Nat) (f : Nat → Word64) : (s.putPair i fld f).issues = s.issues := rfl
@[simp] theorem State.putPair_service (s : State) (i : Iss) (fld : Nat) (f : Nat → Word64) : (s.putPair i fld f).service = s.service := rfl
@[simp] theorem State.putPair_serviced (s : State) (i : Iss) (fld : Nat) (f : Nat → Word64) : (s.putPair i fld f).serviced = s.serviced := rfl
@[simp] theorem State.putPair_readsFmt (s : State) (i : Iss) (fld : Nat) (f : Nat → Word64) : (s.putPair i fld f).readsFmt = s.readsFmt := rfl
@[simp] theorem State.putPair_steps (s : State) (i : Iss) (fld : Nat) (f : Nat → Word64) : (s.putPair i fld f).steps = s.steps := rfl
@[simp] theorem State.putPair_draws (s : State) (i : Iss) (fld : Nat) (f : Nat → Word64) : (s.putPair i fld f).draws = s.draws := rfl
@[simp] theorem State.putPair_seq (s : State) (i : Iss) (fld : Nat) (f : Nat → Word64) : (s.putPair i fld f).seq = s.seq := rfl
@[simp] theorem State.putPair_cur (s : State) (i : Iss) (fld : Nat) (f : Nat → Word64) : (s.putPair i fld f).cur = s.cur := rfl
@[simp] theorem State.putPair_mem (s : State) (i : Iss) (fld : Nat) (f : Nat → Word64) : (s.putPair i fld f).mem = s.mem := rfl
@[simp] theorem State.putPair_memBad (s : State) (i : Iss) (fld : Nat) (f : Nat → Word64) : (s.putPair i fld f).memBad = s.memBad := rfl
@[simp] theorem State.putPair_blocks (s : State) (i : Iss) (fld : Nat) (f : Nat → Word64) : (s.putPair i fld f).blocks = s.blocks := rfl
@[simp] theorem State.putPair_launches (s : State) (i : Iss) (fld : Nat) (f : Nat → Word64) : (s.putPair i fld f).launches = s.launches := rfl
@[simp] theorem State.putPair_ctxs (s : State) (i : Iss) (fld : Nat) (f : Nat → Word64) : (s.putPair i fld f).ctxs = s.ctxs := rfl
@[simp] theorem State.putPair_gens (s : State) (i : Iss) (fld : Nat) (f : Nat → Word64) : (s.putPair i fld f).gens = s.gens := rfl
@[simp] theorem State.putPair_queues (s : State) (i : Iss) (fld : Nat) (f : Nat → Word64) : (s.putPair i fld f).queues = s.queues := rfl
@[simp] theorem State.putPair_trees (s : State) (i : Iss) (fld : Nat) (f : Nat → Word64) : (s.putPair i fld f).trees = s.trees := rfl
@[simp] theorem State.putPair_pools (s : State) (i : Iss) (fld : Nat) (f : Nat → Word64) : (s.putPair i fld f).pools = s.pools := rfl
@[simp] theorem State.putPair_syzygy (s : State) (i : Iss) (fld : Nat) (f : Nat → Word64) : (s.putPair i fld f).syzygy = s.syzygy := rfl
@[simp] theorem State.putPair_feeds (s : State) (i : Iss) (fld : Nat) (f : Nat → Word64) : (s.putPair i fld f).feeds = s.feeds := rfl
@[simp] theorem State.putPair_spawnq (s : State) (i : Iss) (fld : Nat) (f : Nat → Word64) : (s.putPair i fld f).spawnq = s.spawnq := rfl
@[simp] theorem State.putPair_unperf (s : State) (i : Iss) (fld : Nat) (f : Nat → Word64) : (s.putPair i fld f).unperf = s.unperf := rfl
@[simp] theorem State.putPair_copies (s : State) (i : Iss) (fld : Nat) (f : Nat → Word64) : (s.putPair i fld f).copies = s.copies := rfl
@[simp] theorem State.putPair_cols (s : State) (i : Iss) (fld : Nat) (f : Nat → Word64) : (s.putPair i fld f).cols = s.cols := rfl
@[simp] theorem State.putPair_dyns (s : State) (i : Iss) (fld : Nat) (f : Nat → Word64) : (s.putPair i fld f).dyns = s.dyns := rfl
@[simp] theorem State.putPair_l1 (s : State) (i : Iss) (fld : Nat) (f : Nat → Word64) : (s.putPair i fld f).l1 = s.l1 := rfl
@[simp] theorem State.putPair_fillNo (s : State) (i : Iss) (fld : Nat) (f : Nat → Word64) : (s.putPair i fld f).fillNo = s.fillNo := rfl
@[simp] theorem State.putPair_icache (s : State) (i : Iss) (fld : Nat) (f : Nat → Word64) : (s.putPair i fld f).icache = s.icache := rfl
@[simp] theorem State.putPair_tlb (s : State) (i : Iss) (fld : Nat) (f : Nat → Word64) : (s.putPair i fld f).tlb = s.tlb := rfl
@[simp] theorem State.putPair_tlb2 (s : State) (i : Iss) (fld : Nat) (f : Nat → Word64) : (s.putPair i fld f).tlb2 = s.tlb2 := rfl
@[simp] theorem State.putPair_walks (s : State) (i : Iss) (fld : Nat) (f : Nat → Word64) : (s.putPair i fld f).walks = s.walks := rfl
@[simp] theorem State.putPair_l2 (s : State) (i : Iss) (fld : Nat) (f : Nat → Word64) : (s.putPair i fld f).l2 = s.l2 := rfl
@[simp] theorem State.putPair_woas (s : State) (i : Iss) (fld : Nat) (f : Nat → Word64) : (s.putPair i fld f).woas = s.woas := rfl
@[simp] theorem State.putPair_woaNo (s : State) (i : Iss) (fld : Nat) (f : Nat → Word64) : (s.putPair i fld f).woaNo = s.woaNo := rfl
@[simp] theorem State.putPair_xfaults (s : State) (i : Iss) (fld : Nat) (f : Nat → Word64) : (s.putPair i fld f).xfaults = s.xfaults := rfl
@[simp] theorem State.putPair_token (s : State) (i : Iss) (fld : Nat) (f : Nat → Word64) : (s.putPair i fld f).token = s.token := rfl
@[simp] theorem State.putPair_chovis (s : State) (i : Iss) (fld : Nat) (f : Nat → Word64) : (s.putPair i fld f).chovis = s.chovis := rfl
@[simp] theorem State.putPair_sysreqs (s : State) (i : Iss) (fld : Nat) (f : Nat → Word64) : (s.putPair i fld f).sysreqs = s.sysreqs := rfl
@[simp] theorem State.putPair_slotGens (s : State) (i : Iss) (fld : Nat) (f : Nat → Word64) : (s.putPair i fld f).slotGens = s.slotGens := rfl
@[simp] theorem State.putPair_btags (s : State) (i : Iss) (fld : Nat) (f : Nat → Word64) : (s.putPair i fld f).btags = s.btags := rfl
@[simp] theorem State.putPair_lid (s : State) (i : Iss) (fld : Nat) (f : Nat → Word64) : (s.putPair i fld f).lid = s.lid := rfl
@[simp] theorem State.putPair_reserved (s : State) (i : Iss) (fld : Nat) (f : Nat → Word64) : (s.putPair i fld f).reserved = s.reserved := rfl
@[simp] theorem State.putPair_pinned (s : State) (i : Iss) (fld : Nat) (f : Nat → Word64) : (s.putPair i fld f).pinned = s.pinned := rfl
@[simp] theorem State.putPair_split (s : State) (i : Iss) (fld : Nat) (f : Nat → Word64) : (s.putPair i fld f).split = s.split := rfl
@[simp] theorem State.putPair_clock (s : State) (i : Iss) (fld : Nat) (f : Nat → Word64) : (s.putPair i fld f).clock = s.clock := rfl
@[simp] theorem State.putPair_cyc (s : State) (i : Iss) (fld : Nat) (f : Nat → Word64) : (s.putPair i fld f).cyc = s.cyc := rfl
@[simp] theorem State.putPair_traces (s : State) (i : Iss) (fld : Nat) (f : Nat → Word64) : (s.putPair i fld f).traces = s.traces := rfl
@[simp] theorem State.putPair_corrected (s : State) (i : Iss) (fld : Nat) (f : Nat → Word64) : (s.putPair i fld f).corrected = s.corrected := rfl
@[simp] theorem State.putPair_samples (s : State) (i : Iss) (fld : Nat) (f : Nat → Word64) : (s.putPair i fld f).samples = s.samples := rfl
@[simp] theorem State.putPair_hostLines (s : State) (i : Iss) (fld : Nat) (f : Nat → Word64) : (s.putPair i fld f).hostLines = s.hostLines := rfl
@[simp] theorem State.putPair_recalls (s : State) (i : Iss) (fld : Nat) (f : Nat → Word64) : (s.putPair i fld f).recalls = s.recalls := rfl
@[simp] theorem State.putPair_inputs (s : State) (i : Iss) (fld : Nat) (f : Nat → Word64) : (s.putPair i fld f).inputs = s.inputs := rfl
@[simp] theorem State.putPair_outbox (s : State) (i : Iss) (fld : Nat) (f : Nat → Word64) : (s.putPair i fld f).outbox = s.outbox := rfl
@[simp] theorem State.putPair_mgmt (s : State) (i : Iss) (fld : Nat) (f : Nat → Word64) : (s.putPair i fld f).mgmt = s.mgmt := rfl
@[simp] theorem State.putPair_drvNext (s : State) (i : Iss) (fld : Nat) (f : Nat → Word64) : (s.putPair i fld f).drvNext = s.drvNext := rfl
@[simp] theorem State.putPair_mailbox (s : State) (i : Iss) (fld : Nat) (f : Nat → Word64) : (s.putPair i fld f).mailbox = s.mailbox := rfl
@[simp] theorem State.putPair_flash (s : State) (i : Iss) (fld : Nat) (f : Nat → Word64) : (s.putPair i fld f).flash = s.flash := rfl
@[simp] theorem State.putPair_flashLen (s : State) (i : Iss) (fld : Nat) (f : Nat → Word64) : (s.putPair i fld f).flashLen = s.flashLen := rfl
@[simp] theorem State.putPair_flashOpen (s : State) (i : Iss) (fld : Nat) (f : Nat → Word64) : (s.putPair i fld f).flashOpen = s.flashOpen := rfl
@[simp] theorem State.putPair_fuseSvn (s : State) (i : Iss) (fld : Nat) (f : Nat → Word64) : (s.putPair i fld f).fuseSvn = s.fuseSvn := rfl
@[simp] theorem State.putPair_dumpBase (s : State) (i : Iss) (fld : Nat) (f : Nat → Word64) : (s.putPair i fld f).dumpBase = s.dumpBase := rfl
@[simp] theorem State.putPair_dumpSize (s : State) (i : Iss) (fld : Nat) (f : Nat → Word64) : (s.putPair i fld f).dumpSize = s.dumpSize := rfl
@[simp] theorem State.putPair_fatal (s : State) (i : Iss) (fld : Nat) (f : Nat → Word64) : (s.putPair i fld f).fatal = s.fatal := rfl
@[simp] theorem State.putPair_dumpOwed (s : State) (i : Iss) (fld : Nat) (f : Nat → Word64) : (s.putPair i fld f).dumpOwed = s.dumpOwed := rfl
@[simp] theorem State.putPair_peerAt (s : State) (i : Iss) (fld : Nat) (f : Nat → Word64) : (s.putPair i fld f).peerAt = s.peerAt := rfl
@[simp] theorem State.putPair_peerAsk (s : State) (i : Iss) (fld : Nat) (f : Nat → Word64) : (s.putPair i fld f).peerAsk = s.peerAsk := rfl
@[simp] theorem State.putPair_peerSaid (s : State) (i : Iss) (fld : Nat) (f : Nat → Word64) : (s.putPair i fld f).peerSaid = s.peerSaid := rfl
@[simp] theorem State.putPair_replayQ (s : State) (i : Iss) (fld : Nat) (f : Nat → Word64) : (s.putPair i fld f).replayQ = s.replayQ := rfl

/-! ### `State.putPred` -/

@[simp] theorem State.putPred_time (s : State) (i : Iss) (p : Nat) (f : Nat → Bool) : (s.putPred i p f).time = s.time := rfl
@[simp] theorem State.putPred_fine (s : State) (i : Iss) (p : Nat) (f : Nat → Bool) : (s.putPred i p f).fine = s.fine := rfl
@[simp] theorem State.putPred_phase (s : State) (i : Iss) (p : Nat) (f : Nat → Bool) : (s.putPred i p f).phase = s.phase := rfl
@[simp] theorem State.putPred_issues (s : State) (i : Iss) (p : Nat) (f : Nat → Bool) : (s.putPred i p f).issues = s.issues := rfl
@[simp] theorem State.putPred_service (s : State) (i : Iss) (p : Nat) (f : Nat → Bool) : (s.putPred i p f).service = s.service := rfl
@[simp] theorem State.putPred_serviced (s : State) (i : Iss) (p : Nat) (f : Nat → Bool) : (s.putPred i p f).serviced = s.serviced := rfl
@[simp] theorem State.putPred_readsFmt (s : State) (i : Iss) (p : Nat) (f : Nat → Bool) : (s.putPred i p f).readsFmt = s.readsFmt := rfl
@[simp] theorem State.putPred_steps (s : State) (i : Iss) (p : Nat) (f : Nat → Bool) : (s.putPred i p f).steps = s.steps := rfl
@[simp] theorem State.putPred_draws (s : State) (i : Iss) (p : Nat) (f : Nat → Bool) : (s.putPred i p f).draws = s.draws := rfl
@[simp] theorem State.putPred_seq (s : State) (i : Iss) (p : Nat) (f : Nat → Bool) : (s.putPred i p f).seq = s.seq := rfl
@[simp] theorem State.putPred_cur (s : State) (i : Iss) (p : Nat) (f : Nat → Bool) : (s.putPred i p f).cur = s.cur := rfl
@[simp] theorem State.putPred_mem (s : State) (i : Iss) (p : Nat) (f : Nat → Bool) : (s.putPred i p f).mem = s.mem := rfl
@[simp] theorem State.putPred_memBad (s : State) (i : Iss) (p : Nat) (f : Nat → Bool) : (s.putPred i p f).memBad = s.memBad := rfl
@[simp] theorem State.putPred_blocks (s : State) (i : Iss) (p : Nat) (f : Nat → Bool) : (s.putPred i p f).blocks = s.blocks := rfl
@[simp] theorem State.putPred_launches (s : State) (i : Iss) (p : Nat) (f : Nat → Bool) : (s.putPred i p f).launches = s.launches := rfl
@[simp] theorem State.putPred_ctxs (s : State) (i : Iss) (p : Nat) (f : Nat → Bool) : (s.putPred i p f).ctxs = s.ctxs := rfl
@[simp] theorem State.putPred_gens (s : State) (i : Iss) (p : Nat) (f : Nat → Bool) : (s.putPred i p f).gens = s.gens := rfl
@[simp] theorem State.putPred_queues (s : State) (i : Iss) (p : Nat) (f : Nat → Bool) : (s.putPred i p f).queues = s.queues := rfl
@[simp] theorem State.putPred_trees (s : State) (i : Iss) (p : Nat) (f : Nat → Bool) : (s.putPred i p f).trees = s.trees := rfl
@[simp] theorem State.putPred_pools (s : State) (i : Iss) (p : Nat) (f : Nat → Bool) : (s.putPred i p f).pools = s.pools := rfl
@[simp] theorem State.putPred_syzygy (s : State) (i : Iss) (p : Nat) (f : Nat → Bool) : (s.putPred i p f).syzygy = s.syzygy := rfl
@[simp] theorem State.putPred_feeds (s : State) (i : Iss) (p : Nat) (f : Nat → Bool) : (s.putPred i p f).feeds = s.feeds := rfl
@[simp] theorem State.putPred_spawnq (s : State) (i : Iss) (p : Nat) (f : Nat → Bool) : (s.putPred i p f).spawnq = s.spawnq := rfl
@[simp] theorem State.putPred_unperf (s : State) (i : Iss) (p : Nat) (f : Nat → Bool) : (s.putPred i p f).unperf = s.unperf := rfl
@[simp] theorem State.putPred_copies (s : State) (i : Iss) (p : Nat) (f : Nat → Bool) : (s.putPred i p f).copies = s.copies := rfl
@[simp] theorem State.putPred_cols (s : State) (i : Iss) (p : Nat) (f : Nat → Bool) : (s.putPred i p f).cols = s.cols := rfl
@[simp] theorem State.putPred_dyns (s : State) (i : Iss) (p : Nat) (f : Nat → Bool) : (s.putPred i p f).dyns = s.dyns := rfl
@[simp] theorem State.putPred_l1 (s : State) (i : Iss) (p : Nat) (f : Nat → Bool) : (s.putPred i p f).l1 = s.l1 := rfl
@[simp] theorem State.putPred_fillNo (s : State) (i : Iss) (p : Nat) (f : Nat → Bool) : (s.putPred i p f).fillNo = s.fillNo := rfl
@[simp] theorem State.putPred_icache (s : State) (i : Iss) (p : Nat) (f : Nat → Bool) : (s.putPred i p f).icache = s.icache := rfl
@[simp] theorem State.putPred_tlb (s : State) (i : Iss) (p : Nat) (f : Nat → Bool) : (s.putPred i p f).tlb = s.tlb := rfl
@[simp] theorem State.putPred_tlb2 (s : State) (i : Iss) (p : Nat) (f : Nat → Bool) : (s.putPred i p f).tlb2 = s.tlb2 := rfl
@[simp] theorem State.putPred_walks (s : State) (i : Iss) (p : Nat) (f : Nat → Bool) : (s.putPred i p f).walks = s.walks := rfl
@[simp] theorem State.putPred_l2 (s : State) (i : Iss) (p : Nat) (f : Nat → Bool) : (s.putPred i p f).l2 = s.l2 := rfl
@[simp] theorem State.putPred_woas (s : State) (i : Iss) (p : Nat) (f : Nat → Bool) : (s.putPred i p f).woas = s.woas := rfl
@[simp] theorem State.putPred_woaNo (s : State) (i : Iss) (p : Nat) (f : Nat → Bool) : (s.putPred i p f).woaNo = s.woaNo := rfl
@[simp] theorem State.putPred_xfaults (s : State) (i : Iss) (p : Nat) (f : Nat → Bool) : (s.putPred i p f).xfaults = s.xfaults := rfl
@[simp] theorem State.putPred_token (s : State) (i : Iss) (p : Nat) (f : Nat → Bool) : (s.putPred i p f).token = s.token := rfl
@[simp] theorem State.putPred_chovis (s : State) (i : Iss) (p : Nat) (f : Nat → Bool) : (s.putPred i p f).chovis = s.chovis := rfl
@[simp] theorem State.putPred_sysreqs (s : State) (i : Iss) (p : Nat) (f : Nat → Bool) : (s.putPred i p f).sysreqs = s.sysreqs := rfl
@[simp] theorem State.putPred_slotGens (s : State) (i : Iss) (p : Nat) (f : Nat → Bool) : (s.putPred i p f).slotGens = s.slotGens := rfl
@[simp] theorem State.putPred_btags (s : State) (i : Iss) (p : Nat) (f : Nat → Bool) : (s.putPred i p f).btags = s.btags := rfl
@[simp] theorem State.putPred_lid (s : State) (i : Iss) (p : Nat) (f : Nat → Bool) : (s.putPred i p f).lid = s.lid := rfl
@[simp] theorem State.putPred_reserved (s : State) (i : Iss) (p : Nat) (f : Nat → Bool) : (s.putPred i p f).reserved = s.reserved := rfl
@[simp] theorem State.putPred_pinned (s : State) (i : Iss) (p : Nat) (f : Nat → Bool) : (s.putPred i p f).pinned = s.pinned := rfl
@[simp] theorem State.putPred_split (s : State) (i : Iss) (p : Nat) (f : Nat → Bool) : (s.putPred i p f).split = s.split := rfl
@[simp] theorem State.putPred_clock (s : State) (i : Iss) (p : Nat) (f : Nat → Bool) : (s.putPred i p f).clock = s.clock := rfl
@[simp] theorem State.putPred_cyc (s : State) (i : Iss) (p : Nat) (f : Nat → Bool) : (s.putPred i p f).cyc = s.cyc := rfl
@[simp] theorem State.putPred_traces (s : State) (i : Iss) (p : Nat) (f : Nat → Bool) : (s.putPred i p f).traces = s.traces := rfl
@[simp] theorem State.putPred_corrected (s : State) (i : Iss) (p : Nat) (f : Nat → Bool) : (s.putPred i p f).corrected = s.corrected := rfl
@[simp] theorem State.putPred_samples (s : State) (i : Iss) (p : Nat) (f : Nat → Bool) : (s.putPred i p f).samples = s.samples := rfl
@[simp] theorem State.putPred_hostLines (s : State) (i : Iss) (p : Nat) (f : Nat → Bool) : (s.putPred i p f).hostLines = s.hostLines := rfl
@[simp] theorem State.putPred_recalls (s : State) (i : Iss) (p : Nat) (f : Nat → Bool) : (s.putPred i p f).recalls = s.recalls := rfl
@[simp] theorem State.putPred_inputs (s : State) (i : Iss) (p : Nat) (f : Nat → Bool) : (s.putPred i p f).inputs = s.inputs := rfl
@[simp] theorem State.putPred_outbox (s : State) (i : Iss) (p : Nat) (f : Nat → Bool) : (s.putPred i p f).outbox = s.outbox := rfl
@[simp] theorem State.putPred_mgmt (s : State) (i : Iss) (p : Nat) (f : Nat → Bool) : (s.putPred i p f).mgmt = s.mgmt := rfl
@[simp] theorem State.putPred_drvNext (s : State) (i : Iss) (p : Nat) (f : Nat → Bool) : (s.putPred i p f).drvNext = s.drvNext := rfl
@[simp] theorem State.putPred_mailbox (s : State) (i : Iss) (p : Nat) (f : Nat → Bool) : (s.putPred i p f).mailbox = s.mailbox := rfl
@[simp] theorem State.putPred_flash (s : State) (i : Iss) (p : Nat) (f : Nat → Bool) : (s.putPred i p f).flash = s.flash := rfl
@[simp] theorem State.putPred_flashLen (s : State) (i : Iss) (p : Nat) (f : Nat → Bool) : (s.putPred i p f).flashLen = s.flashLen := rfl
@[simp] theorem State.putPred_flashOpen (s : State) (i : Iss) (p : Nat) (f : Nat → Bool) : (s.putPred i p f).flashOpen = s.flashOpen := rfl
@[simp] theorem State.putPred_fuseSvn (s : State) (i : Iss) (p : Nat) (f : Nat → Bool) : (s.putPred i p f).fuseSvn = s.fuseSvn := rfl
@[simp] theorem State.putPred_dumpBase (s : State) (i : Iss) (p : Nat) (f : Nat → Bool) : (s.putPred i p f).dumpBase = s.dumpBase := rfl
@[simp] theorem State.putPred_dumpSize (s : State) (i : Iss) (p : Nat) (f : Nat → Bool) : (s.putPred i p f).dumpSize = s.dumpSize := rfl
@[simp] theorem State.putPred_fatal (s : State) (i : Iss) (p : Nat) (f : Nat → Bool) : (s.putPred i p f).fatal = s.fatal := rfl
@[simp] theorem State.putPred_dumpOwed (s : State) (i : Iss) (p : Nat) (f : Nat → Bool) : (s.putPred i p f).dumpOwed = s.dumpOwed := rfl
@[simp] theorem State.putPred_peerAt (s : State) (i : Iss) (p : Nat) (f : Nat → Bool) : (s.putPred i p f).peerAt = s.peerAt := rfl
@[simp] theorem State.putPred_peerAsk (s : State) (i : Iss) (p : Nat) (f : Nat → Bool) : (s.putPred i p f).peerAsk = s.peerAsk := rfl
@[simp] theorem State.putPred_peerSaid (s : State) (i : Iss) (p : Nat) (f : Nat → Bool) : (s.putPred i p f).peerSaid = s.peerSaid := rfl
@[simp] theorem State.putPred_replayQ (s : State) (i : Iss) (p : Nat) (f : Nat → Bool) : (s.putPred i p f).replayQ = s.replayQ := rfl

/-! ### `State.wait` -/

@[simp] theorem State.wait_time (s : State) (i : Iss) (w : Stall) : (s.wait i w).time = s.time := rfl
@[simp] theorem State.wait_fine (s : State) (i : Iss) (w : Stall) : (s.wait i w).fine = s.fine := rfl
@[simp] theorem State.wait_phase (s : State) (i : Iss) (w : Stall) : (s.wait i w).phase = s.phase := rfl
@[simp] theorem State.wait_issues (s : State) (i : Iss) (w : Stall) : (s.wait i w).issues = s.issues := rfl
@[simp] theorem State.wait_service (s : State) (i : Iss) (w : Stall) : (s.wait i w).service = s.service := rfl
@[simp] theorem State.wait_serviced (s : State) (i : Iss) (w : Stall) : (s.wait i w).serviced = s.serviced := rfl
@[simp] theorem State.wait_readsFmt (s : State) (i : Iss) (w : Stall) : (s.wait i w).readsFmt = s.readsFmt := rfl
@[simp] theorem State.wait_steps (s : State) (i : Iss) (w : Stall) : (s.wait i w).steps = s.steps := rfl
@[simp] theorem State.wait_draws (s : State) (i : Iss) (w : Stall) : (s.wait i w).draws = s.draws := rfl
@[simp] theorem State.wait_seq (s : State) (i : Iss) (w : Stall) : (s.wait i w).seq = s.seq := rfl
@[simp] theorem State.wait_cur (s : State) (i : Iss) (w : Stall) : (s.wait i w).cur = s.cur := rfl
@[simp] theorem State.wait_mem (s : State) (i : Iss) (w : Stall) : (s.wait i w).mem = s.mem := rfl
@[simp] theorem State.wait_memBad (s : State) (i : Iss) (w : Stall) : (s.wait i w).memBad = s.memBad := rfl
@[simp] theorem State.wait_blocks (s : State) (i : Iss) (w : Stall) : (s.wait i w).blocks = s.blocks := rfl
@[simp] theorem State.wait_launches (s : State) (i : Iss) (w : Stall) : (s.wait i w).launches = s.launches := rfl
@[simp] theorem State.wait_ctxs (s : State) (i : Iss) (w : Stall) : (s.wait i w).ctxs = s.ctxs := rfl
@[simp] theorem State.wait_gens (s : State) (i : Iss) (w : Stall) : (s.wait i w).gens = s.gens := rfl
@[simp] theorem State.wait_queues (s : State) (i : Iss) (w : Stall) : (s.wait i w).queues = s.queues := rfl
@[simp] theorem State.wait_trees (s : State) (i : Iss) (w : Stall) : (s.wait i w).trees = s.trees := rfl
@[simp] theorem State.wait_pools (s : State) (i : Iss) (w : Stall) : (s.wait i w).pools = s.pools := rfl
@[simp] theorem State.wait_syzygy (s : State) (i : Iss) (w : Stall) : (s.wait i w).syzygy = s.syzygy := rfl
@[simp] theorem State.wait_feeds (s : State) (i : Iss) (w : Stall) : (s.wait i w).feeds = s.feeds := rfl
@[simp] theorem State.wait_spawnq (s : State) (i : Iss) (w : Stall) : (s.wait i w).spawnq = s.spawnq := rfl
@[simp] theorem State.wait_unperf (s : State) (i : Iss) (w : Stall) : (s.wait i w).unperf = s.unperf := rfl
@[simp] theorem State.wait_copies (s : State) (i : Iss) (w : Stall) : (s.wait i w).copies = s.copies := rfl
@[simp] theorem State.wait_cols (s : State) (i : Iss) (w : Stall) : (s.wait i w).cols = s.cols := rfl
@[simp] theorem State.wait_dyns (s : State) (i : Iss) (w : Stall) : (s.wait i w).dyns = s.dyns := rfl
@[simp] theorem State.wait_l1 (s : State) (i : Iss) (w : Stall) : (s.wait i w).l1 = s.l1 := rfl
@[simp] theorem State.wait_fillNo (s : State) (i : Iss) (w : Stall) : (s.wait i w).fillNo = s.fillNo := rfl
@[simp] theorem State.wait_icache (s : State) (i : Iss) (w : Stall) : (s.wait i w).icache = s.icache := rfl
@[simp] theorem State.wait_tlb (s : State) (i : Iss) (w : Stall) : (s.wait i w).tlb = s.tlb := rfl
@[simp] theorem State.wait_tlb2 (s : State) (i : Iss) (w : Stall) : (s.wait i w).tlb2 = s.tlb2 := rfl
@[simp] theorem State.wait_walks (s : State) (i : Iss) (w : Stall) : (s.wait i w).walks = s.walks := rfl
@[simp] theorem State.wait_l2 (s : State) (i : Iss) (w : Stall) : (s.wait i w).l2 = s.l2 := rfl
@[simp] theorem State.wait_woas (s : State) (i : Iss) (w : Stall) : (s.wait i w).woas = s.woas := rfl
@[simp] theorem State.wait_woaNo (s : State) (i : Iss) (w : Stall) : (s.wait i w).woaNo = s.woaNo := rfl
@[simp] theorem State.wait_xfaults (s : State) (i : Iss) (w : Stall) : (s.wait i w).xfaults = s.xfaults := rfl
@[simp] theorem State.wait_token (s : State) (i : Iss) (w : Stall) : (s.wait i w).token = s.token := rfl
@[simp] theorem State.wait_chovis (s : State) (i : Iss) (w : Stall) : (s.wait i w).chovis = s.chovis := rfl
@[simp] theorem State.wait_sysreqs (s : State) (i : Iss) (w : Stall) : (s.wait i w).sysreqs = s.sysreqs := rfl
@[simp] theorem State.wait_slotGens (s : State) (i : Iss) (w : Stall) : (s.wait i w).slotGens = s.slotGens := rfl
@[simp] theorem State.wait_btags (s : State) (i : Iss) (w : Stall) : (s.wait i w).btags = s.btags := rfl
@[simp] theorem State.wait_lid (s : State) (i : Iss) (w : Stall) : (s.wait i w).lid = s.lid := rfl
@[simp] theorem State.wait_reserved (s : State) (i : Iss) (w : Stall) : (s.wait i w).reserved = s.reserved := rfl
@[simp] theorem State.wait_pinned (s : State) (i : Iss) (w : Stall) : (s.wait i w).pinned = s.pinned := rfl
@[simp] theorem State.wait_split (s : State) (i : Iss) (w : Stall) : (s.wait i w).split = s.split := rfl
@[simp] theorem State.wait_clock (s : State) (i : Iss) (w : Stall) : (s.wait i w).clock = s.clock := rfl
@[simp] theorem State.wait_cyc (s : State) (i : Iss) (w : Stall) : (s.wait i w).cyc = s.cyc := rfl
@[simp] theorem State.wait_traces (s : State) (i : Iss) (w : Stall) : (s.wait i w).traces = s.traces := rfl
@[simp] theorem State.wait_corrected (s : State) (i : Iss) (w : Stall) : (s.wait i w).corrected = s.corrected := rfl
@[simp] theorem State.wait_samples (s : State) (i : Iss) (w : Stall) : (s.wait i w).samples = s.samples := rfl
@[simp] theorem State.wait_hostLines (s : State) (i : Iss) (w : Stall) : (s.wait i w).hostLines = s.hostLines := rfl
@[simp] theorem State.wait_recalls (s : State) (i : Iss) (w : Stall) : (s.wait i w).recalls = s.recalls := rfl
@[simp] theorem State.wait_inputs (s : State) (i : Iss) (w : Stall) : (s.wait i w).inputs = s.inputs := rfl
@[simp] theorem State.wait_outbox (s : State) (i : Iss) (w : Stall) : (s.wait i w).outbox = s.outbox := rfl
@[simp] theorem State.wait_mgmt (s : State) (i : Iss) (w : Stall) : (s.wait i w).mgmt = s.mgmt := rfl
@[simp] theorem State.wait_drvNext (s : State) (i : Iss) (w : Stall) : (s.wait i w).drvNext = s.drvNext := rfl
@[simp] theorem State.wait_mailbox (s : State) (i : Iss) (w : Stall) : (s.wait i w).mailbox = s.mailbox := rfl
@[simp] theorem State.wait_flash (s : State) (i : Iss) (w : Stall) : (s.wait i w).flash = s.flash := rfl
@[simp] theorem State.wait_flashLen (s : State) (i : Iss) (w : Stall) : (s.wait i w).flashLen = s.flashLen := rfl
@[simp] theorem State.wait_flashOpen (s : State) (i : Iss) (w : Stall) : (s.wait i w).flashOpen = s.flashOpen := rfl
@[simp] theorem State.wait_fuseSvn (s : State) (i : Iss) (w : Stall) : (s.wait i w).fuseSvn = s.fuseSvn := rfl
@[simp] theorem State.wait_dumpBase (s : State) (i : Iss) (w : Stall) : (s.wait i w).dumpBase = s.dumpBase := rfl
@[simp] theorem State.wait_dumpSize (s : State) (i : Iss) (w : Stall) : (s.wait i w).dumpSize = s.dumpSize := rfl
@[simp] theorem State.wait_fatal (s : State) (i : Iss) (w : Stall) : (s.wait i w).fatal = s.fatal := rfl
@[simp] theorem State.wait_dumpOwed (s : State) (i : Iss) (w : Stall) : (s.wait i w).dumpOwed = s.dumpOwed := rfl
@[simp] theorem State.wait_peerAt (s : State) (i : Iss) (w : Stall) : (s.wait i w).peerAt = s.peerAt := rfl
@[simp] theorem State.wait_peerAsk (s : State) (i : Iss) (w : Stall) : (s.wait i w).peerAsk = s.peerAsk := rfl
@[simp] theorem State.wait_peerSaid (s : State) (i : Iss) (w : Stall) : (s.wait i w).peerSaid = s.peerSaid := rfl
@[simp] theorem State.wait_replayQ (s : State) (i : Iss) (w : Stall) : (s.wait i w).replayQ = s.replayQ := rfl

/-! ### `State.commit` -/

@[simp] theorem State.commit_time (s : State) (i : Iss) : (s.commit i).time = s.time := rfl
@[simp] theorem State.commit_fine (s : State) (i : Iss) : (s.commit i).fine = s.fine := rfl
@[simp] theorem State.commit_phase (s : State) (i : Iss) : (s.commit i).phase = s.phase := rfl
@[simp] theorem State.commit_issues (s : State) (i : Iss) : (s.commit i).issues = s.issues := rfl
@[simp] theorem State.commit_service (s : State) (i : Iss) : (s.commit i).service = s.service := rfl
@[simp] theorem State.commit_serviced (s : State) (i : Iss) : (s.commit i).serviced = s.serviced := rfl
@[simp] theorem State.commit_readsFmt (s : State) (i : Iss) : (s.commit i).readsFmt = s.readsFmt := rfl
@[simp] theorem State.commit_steps (s : State) (i : Iss) : (s.commit i).steps = s.steps := rfl
@[simp] theorem State.commit_draws (s : State) (i : Iss) : (s.commit i).draws = s.draws := rfl
@[simp] theorem State.commit_seq (s : State) (i : Iss) : (s.commit i).seq = s.seq := rfl
@[simp] theorem State.commit_cur (s : State) (i : Iss) : (s.commit i).cur = s.cur := rfl
@[simp] theorem State.commit_mem (s : State) (i : Iss) : (s.commit i).mem = s.mem := rfl
@[simp] theorem State.commit_memBad (s : State) (i : Iss) : (s.commit i).memBad = s.memBad := rfl
@[simp] theorem State.commit_groups (s : State) (i : Iss) : (s.commit i).groups = s.groups := rfl
@[simp] theorem State.commit_launches (s : State) (i : Iss) : (s.commit i).launches = s.launches := rfl
@[simp] theorem State.commit_ctxs (s : State) (i : Iss) : (s.commit i).ctxs = s.ctxs := rfl
@[simp] theorem State.commit_gens (s : State) (i : Iss) : (s.commit i).gens = s.gens := rfl
@[simp] theorem State.commit_queues (s : State) (i : Iss) : (s.commit i).queues = s.queues := rfl
@[simp] theorem State.commit_trees (s : State) (i : Iss) : (s.commit i).trees = s.trees := rfl
@[simp] theorem State.commit_pools (s : State) (i : Iss) : (s.commit i).pools = s.pools := rfl
@[simp] theorem State.commit_syzygy (s : State) (i : Iss) : (s.commit i).syzygy = s.syzygy := rfl
@[simp] theorem State.commit_feeds (s : State) (i : Iss) : (s.commit i).feeds = s.feeds := rfl
@[simp] theorem State.commit_spawnq (s : State) (i : Iss) : (s.commit i).spawnq = s.spawnq := rfl
@[simp] theorem State.commit_unperf (s : State) (i : Iss) : (s.commit i).unperf = s.unperf := rfl
@[simp] theorem State.commit_copies (s : State) (i : Iss) : (s.commit i).copies = s.copies := rfl
@[simp] theorem State.commit_cols (s : State) (i : Iss) : (s.commit i).cols = s.cols := rfl
@[simp] theorem State.commit_dyns (s : State) (i : Iss) : (s.commit i).dyns = s.dyns := rfl
@[simp] theorem State.commit_l1 (s : State) (i : Iss) : (s.commit i).l1 = s.l1 := rfl
@[simp] theorem State.commit_fillNo (s : State) (i : Iss) : (s.commit i).fillNo = s.fillNo := rfl
@[simp] theorem State.commit_icache (s : State) (i : Iss) : (s.commit i).icache = s.icache := rfl
@[simp] theorem State.commit_tlb (s : State) (i : Iss) : (s.commit i).tlb = s.tlb := rfl
@[simp] theorem State.commit_tlb2 (s : State) (i : Iss) : (s.commit i).tlb2 = s.tlb2 := rfl
@[simp] theorem State.commit_walks (s : State) (i : Iss) : (s.commit i).walks = s.walks := rfl
@[simp] theorem State.commit_l2 (s : State) (i : Iss) : (s.commit i).l2 = s.l2 := rfl
@[simp] theorem State.commit_woas (s : State) (i : Iss) : (s.commit i).woas = s.woas := rfl
@[simp] theorem State.commit_woaNo (s : State) (i : Iss) : (s.commit i).woaNo = s.woaNo := rfl
@[simp] theorem State.commit_xfaults (s : State) (i : Iss) : (s.commit i).xfaults = s.xfaults := rfl
@[simp] theorem State.commit_token (s : State) (i : Iss) : (s.commit i).token = s.token := rfl
@[simp] theorem State.commit_chovis (s : State) (i : Iss) : (s.commit i).chovis = s.chovis := rfl
@[simp] theorem State.commit_sysreqs (s : State) (i : Iss) : (s.commit i).sysreqs = s.sysreqs := rfl
@[simp] theorem State.commit_slotGens (s : State) (i : Iss) : (s.commit i).slotGens = s.slotGens := rfl
@[simp] theorem State.commit_btags (s : State) (i : Iss) : (s.commit i).btags = s.btags := rfl
@[simp] theorem State.commit_lid (s : State) (i : Iss) : (s.commit i).lid = s.lid := rfl
@[simp] theorem State.commit_reserved (s : State) (i : Iss) : (s.commit i).reserved = s.reserved := rfl
@[simp] theorem State.commit_pinned (s : State) (i : Iss) : (s.commit i).pinned = s.pinned := rfl
@[simp] theorem State.commit_split (s : State) (i : Iss) : (s.commit i).split = s.split := rfl
@[simp] theorem State.commit_clock (s : State) (i : Iss) : (s.commit i).clock = s.clock := rfl
@[simp] theorem State.commit_cyc (s : State) (i : Iss) : (s.commit i).cyc = s.cyc := rfl
@[simp] theorem State.commit_traces (s : State) (i : Iss) : (s.commit i).traces = s.traces := rfl
@[simp] theorem State.commit_corrected (s : State) (i : Iss) : (s.commit i).corrected = s.corrected := rfl
@[simp] theorem State.commit_samples (s : State) (i : Iss) : (s.commit i).samples = s.samples := rfl
@[simp] theorem State.commit_hostLines (s : State) (i : Iss) : (s.commit i).hostLines = s.hostLines := rfl
@[simp] theorem State.commit_recalls (s : State) (i : Iss) : (s.commit i).recalls = s.recalls := rfl
@[simp] theorem State.commit_inputs (s : State) (i : Iss) : (s.commit i).inputs = s.inputs := rfl
@[simp] theorem State.commit_outbox (s : State) (i : Iss) : (s.commit i).outbox = s.outbox := rfl
@[simp] theorem State.commit_mgmt (s : State) (i : Iss) : (s.commit i).mgmt = s.mgmt := rfl
@[simp] theorem State.commit_drvNext (s : State) (i : Iss) : (s.commit i).drvNext = s.drvNext := rfl
@[simp] theorem State.commit_mailbox (s : State) (i : Iss) : (s.commit i).mailbox = s.mailbox := rfl
@[simp] theorem State.commit_flash (s : State) (i : Iss) : (s.commit i).flash = s.flash := rfl
@[simp] theorem State.commit_flashLen (s : State) (i : Iss) : (s.commit i).flashLen = s.flashLen := rfl
@[simp] theorem State.commit_flashOpen (s : State) (i : Iss) : (s.commit i).flashOpen = s.flashOpen := rfl
@[simp] theorem State.commit_fuseSvn (s : State) (i : Iss) : (s.commit i).fuseSvn = s.fuseSvn := rfl
@[simp] theorem State.commit_dumpBase (s : State) (i : Iss) : (s.commit i).dumpBase = s.dumpBase := rfl
@[simp] theorem State.commit_dumpSize (s : State) (i : Iss) : (s.commit i).dumpSize = s.dumpSize := rfl
@[simp] theorem State.commit_fatal (s : State) (i : Iss) : (s.commit i).fatal = s.fatal := rfl
@[simp] theorem State.commit_dumpOwed (s : State) (i : Iss) : (s.commit i).dumpOwed = s.dumpOwed := rfl
@[simp] theorem State.commit_peerAt (s : State) (i : Iss) : (s.commit i).peerAt = s.peerAt := rfl
@[simp] theorem State.commit_peerAsk (s : State) (i : Iss) : (s.commit i).peerAsk = s.peerAsk := rfl
@[simp] theorem State.commit_peerSaid (s : State) (i : Iss) : (s.commit i).peerSaid = s.peerSaid := rfl
@[simp] theorem State.commit_replayQ (s : State) (i : Iss) : (s.commit i).replayQ = s.replayQ := rfl

/-! ### `State.advanceTo` -/

@[simp] theorem State.advanceTo_time (s : State) (i : Iss) (pc : BitVec 52) (n : Bool) (b : Option BranchInfo) : (s.advanceTo i pc n b).time = s.time := rfl
@[simp] theorem State.advanceTo_fine (s : State) (i : Iss) (pc : BitVec 52) (n : Bool) (b : Option BranchInfo) : (s.advanceTo i pc n b).fine = s.fine := rfl
@[simp] theorem State.advanceTo_phase (s : State) (i : Iss) (pc : BitVec 52) (n : Bool) (b : Option BranchInfo) : (s.advanceTo i pc n b).phase = s.phase := rfl
@[simp] theorem State.advanceTo_issues (s : State) (i : Iss) (pc : BitVec 52) (n : Bool) (b : Option BranchInfo) : (s.advanceTo i pc n b).issues = s.issues := rfl
@[simp] theorem State.advanceTo_service (s : State) (i : Iss) (pc : BitVec 52) (n : Bool) (b : Option BranchInfo) : (s.advanceTo i pc n b).service = s.service := rfl
@[simp] theorem State.advanceTo_serviced (s : State) (i : Iss) (pc : BitVec 52) (n : Bool) (b : Option BranchInfo) : (s.advanceTo i pc n b).serviced = s.serviced := rfl
@[simp] theorem State.advanceTo_readsFmt (s : State) (i : Iss) (pc : BitVec 52) (n : Bool) (b : Option BranchInfo) : (s.advanceTo i pc n b).readsFmt = s.readsFmt := rfl
@[simp] theorem State.advanceTo_steps (s : State) (i : Iss) (pc : BitVec 52) (n : Bool) (b : Option BranchInfo) : (s.advanceTo i pc n b).steps = s.steps := rfl
@[simp] theorem State.advanceTo_draws (s : State) (i : Iss) (pc : BitVec 52) (n : Bool) (b : Option BranchInfo) : (s.advanceTo i pc n b).draws = s.draws := rfl
@[simp] theorem State.advanceTo_cur (s : State) (i : Iss) (pc : BitVec 52) (n : Bool) (b : Option BranchInfo) : (s.advanceTo i pc n b).cur = s.cur := rfl
@[simp] theorem State.advanceTo_mem (s : State) (i : Iss) (pc : BitVec 52) (n : Bool) (b : Option BranchInfo) : (s.advanceTo i pc n b).mem = s.mem := rfl
@[simp] theorem State.advanceTo_memBad (s : State) (i : Iss) (pc : BitVec 52) (n : Bool) (b : Option BranchInfo) : (s.advanceTo i pc n b).memBad = s.memBad := rfl
@[simp] theorem State.advanceTo_blocks (s : State) (i : Iss) (pc : BitVec 52) (n : Bool) (b : Option BranchInfo) : (s.advanceTo i pc n b).blocks = s.blocks := rfl
@[simp] theorem State.advanceTo_launches (s : State) (i : Iss) (pc : BitVec 52) (n : Bool) (b : Option BranchInfo) : (s.advanceTo i pc n b).launches = s.launches := rfl
@[simp] theorem State.advanceTo_ctxs (s : State) (i : Iss) (pc : BitVec 52) (n : Bool) (b : Option BranchInfo) : (s.advanceTo i pc n b).ctxs = s.ctxs := rfl
@[simp] theorem State.advanceTo_gens (s : State) (i : Iss) (pc : BitVec 52) (n : Bool) (b : Option BranchInfo) : (s.advanceTo i pc n b).gens = s.gens := rfl
@[simp] theorem State.advanceTo_queues (s : State) (i : Iss) (pc : BitVec 52) (n : Bool) (b : Option BranchInfo) : (s.advanceTo i pc n b).queues = s.queues := rfl
@[simp] theorem State.advanceTo_trees (s : State) (i : Iss) (pc : BitVec 52) (n : Bool) (b : Option BranchInfo) : (s.advanceTo i pc n b).trees = s.trees := rfl
@[simp] theorem State.advanceTo_pools (s : State) (i : Iss) (pc : BitVec 52) (n : Bool) (b : Option BranchInfo) : (s.advanceTo i pc n b).pools = s.pools := rfl
@[simp] theorem State.advanceTo_syzygy (s : State) (i : Iss) (pc : BitVec 52) (n : Bool) (b : Option BranchInfo) : (s.advanceTo i pc n b).syzygy = s.syzygy := rfl
@[simp] theorem State.advanceTo_feeds (s : State) (i : Iss) (pc : BitVec 52) (n : Bool) (b : Option BranchInfo) : (s.advanceTo i pc n b).feeds = s.feeds := rfl
@[simp] theorem State.advanceTo_spawnq (s : State) (i : Iss) (pc : BitVec 52) (n : Bool) (b : Option BranchInfo) : (s.advanceTo i pc n b).spawnq = s.spawnq := rfl
@[simp] theorem State.advanceTo_unperf (s : State) (i : Iss) (pc : BitVec 52) (n : Bool) (b : Option BranchInfo) : (s.advanceTo i pc n b).unperf = s.unperf := rfl
@[simp] theorem State.advanceTo_copies (s : State) (i : Iss) (pc : BitVec 52) (n : Bool) (b : Option BranchInfo) : (s.advanceTo i pc n b).copies = s.copies := rfl
@[simp] theorem State.advanceTo_cols (s : State) (i : Iss) (pc : BitVec 52) (n : Bool) (b : Option BranchInfo) : (s.advanceTo i pc n b).cols = s.cols := rfl
@[simp] theorem State.advanceTo_dyns (s : State) (i : Iss) (pc : BitVec 52) (n : Bool) (b : Option BranchInfo) : (s.advanceTo i pc n b).dyns = s.dyns := rfl
@[simp] theorem State.advanceTo_l1 (s : State) (i : Iss) (pc : BitVec 52) (n : Bool) (b : Option BranchInfo) : (s.advanceTo i pc n b).l1 = s.l1 := rfl
@[simp] theorem State.advanceTo_fillNo (s : State) (i : Iss) (pc : BitVec 52) (n : Bool) (b : Option BranchInfo) : (s.advanceTo i pc n b).fillNo = s.fillNo := rfl
@[simp] theorem State.advanceTo_icache (s : State) (i : Iss) (pc : BitVec 52) (n : Bool) (b : Option BranchInfo) : (s.advanceTo i pc n b).icache = s.icache := rfl
@[simp] theorem State.advanceTo_tlb (s : State) (i : Iss) (pc : BitVec 52) (n : Bool) (b : Option BranchInfo) : (s.advanceTo i pc n b).tlb = s.tlb := rfl
@[simp] theorem State.advanceTo_tlb2 (s : State) (i : Iss) (pc : BitVec 52) (n : Bool) (b : Option BranchInfo) : (s.advanceTo i pc n b).tlb2 = s.tlb2 := rfl
@[simp] theorem State.advanceTo_walks (s : State) (i : Iss) (pc : BitVec 52) (n : Bool) (b : Option BranchInfo) : (s.advanceTo i pc n b).walks = s.walks := rfl
@[simp] theorem State.advanceTo_l2 (s : State) (i : Iss) (pc : BitVec 52) (n : Bool) (b : Option BranchInfo) : (s.advanceTo i pc n b).l2 = s.l2 := rfl
@[simp] theorem State.advanceTo_woas (s : State) (i : Iss) (pc : BitVec 52) (n : Bool) (b : Option BranchInfo) : (s.advanceTo i pc n b).woas = s.woas := rfl
@[simp] theorem State.advanceTo_woaNo (s : State) (i : Iss) (pc : BitVec 52) (n : Bool) (b : Option BranchInfo) : (s.advanceTo i pc n b).woaNo = s.woaNo := rfl
@[simp] theorem State.advanceTo_xfaults (s : State) (i : Iss) (pc : BitVec 52) (n : Bool) (b : Option BranchInfo) : (s.advanceTo i pc n b).xfaults = s.xfaults := rfl
@[simp] theorem State.advanceTo_token (s : State) (i : Iss) (pc : BitVec 52) (n : Bool) (b : Option BranchInfo) : (s.advanceTo i pc n b).token = s.token := rfl
@[simp] theorem State.advanceTo_chovis (s : State) (i : Iss) (pc : BitVec 52) (n : Bool) (b : Option BranchInfo) : (s.advanceTo i pc n b).chovis = s.chovis := rfl
@[simp] theorem State.advanceTo_sysreqs (s : State) (i : Iss) (pc : BitVec 52) (n : Bool) (b : Option BranchInfo) : (s.advanceTo i pc n b).sysreqs = s.sysreqs := rfl
@[simp] theorem State.advanceTo_slotGens (s : State) (i : Iss) (pc : BitVec 52) (n : Bool) (b : Option BranchInfo) : (s.advanceTo i pc n b).slotGens = s.slotGens := rfl
@[simp] theorem State.advanceTo_btags (s : State) (i : Iss) (pc : BitVec 52) (n : Bool) (b : Option BranchInfo) : (s.advanceTo i pc n b).btags = s.btags := rfl
@[simp] theorem State.advanceTo_lid (s : State) (i : Iss) (pc : BitVec 52) (n : Bool) (b : Option BranchInfo) : (s.advanceTo i pc n b).lid = s.lid := rfl
@[simp] theorem State.advanceTo_reserved (s : State) (i : Iss) (pc : BitVec 52) (n : Bool) (b : Option BranchInfo) : (s.advanceTo i pc n b).reserved = s.reserved := rfl
@[simp] theorem State.advanceTo_pinned (s : State) (i : Iss) (pc : BitVec 52) (n : Bool) (b : Option BranchInfo) : (s.advanceTo i pc n b).pinned = s.pinned := rfl
@[simp] theorem State.advanceTo_split (s : State) (i : Iss) (pc : BitVec 52) (n : Bool) (b : Option BranchInfo) : (s.advanceTo i pc n b).split = s.split := rfl
@[simp] theorem State.advanceTo_clock (s : State) (i : Iss) (pc : BitVec 52) (n : Bool) (b : Option BranchInfo) : (s.advanceTo i pc n b).clock = s.clock := rfl
@[simp] theorem State.advanceTo_cyc (s : State) (i : Iss) (pc : BitVec 52) (n : Bool) (b : Option BranchInfo) : (s.advanceTo i pc n b).cyc = s.cyc := rfl
@[simp] theorem State.advanceTo_traces (s : State) (i : Iss) (pc : BitVec 52) (n : Bool) (b : Option BranchInfo) : (s.advanceTo i pc n b).traces = s.traces := rfl
@[simp] theorem State.advanceTo_corrected (s : State) (i : Iss) (pc : BitVec 52) (n : Bool) (b : Option BranchInfo) : (s.advanceTo i pc n b).corrected = s.corrected := rfl
@[simp] theorem State.advanceTo_samples (s : State) (i : Iss) (pc : BitVec 52) (n : Bool) (b : Option BranchInfo) : (s.advanceTo i pc n b).samples = s.samples := rfl
@[simp] theorem State.advanceTo_hostLines (s : State) (i : Iss) (pc : BitVec 52) (n : Bool) (b : Option BranchInfo) : (s.advanceTo i pc n b).hostLines = s.hostLines := rfl
@[simp] theorem State.advanceTo_recalls (s : State) (i : Iss) (pc : BitVec 52) (n : Bool) (b : Option BranchInfo) : (s.advanceTo i pc n b).recalls = s.recalls := rfl
@[simp] theorem State.advanceTo_inputs (s : State) (i : Iss) (pc : BitVec 52) (n : Bool) (b : Option BranchInfo) : (s.advanceTo i pc n b).inputs = s.inputs := rfl
@[simp] theorem State.advanceTo_outbox (s : State) (i : Iss) (pc : BitVec 52) (n : Bool) (b : Option BranchInfo) : (s.advanceTo i pc n b).outbox = s.outbox := rfl
@[simp] theorem State.advanceTo_mgmt (s : State) (i : Iss) (pc : BitVec 52) (n : Bool) (b : Option BranchInfo) : (s.advanceTo i pc n b).mgmt = s.mgmt := rfl
@[simp] theorem State.advanceTo_drvNext (s : State) (i : Iss) (pc : BitVec 52) (n : Bool) (b : Option BranchInfo) : (s.advanceTo i pc n b).drvNext = s.drvNext := rfl
@[simp] theorem State.advanceTo_mailbox (s : State) (i : Iss) (pc : BitVec 52) (n : Bool) (b : Option BranchInfo) : (s.advanceTo i pc n b).mailbox = s.mailbox := rfl
@[simp] theorem State.advanceTo_flash (s : State) (i : Iss) (pc : BitVec 52) (n : Bool) (b : Option BranchInfo) : (s.advanceTo i pc n b).flash = s.flash := rfl
@[simp] theorem State.advanceTo_flashLen (s : State) (i : Iss) (pc : BitVec 52) (n : Bool) (b : Option BranchInfo) : (s.advanceTo i pc n b).flashLen = s.flashLen := rfl
@[simp] theorem State.advanceTo_flashOpen (s : State) (i : Iss) (pc : BitVec 52) (n : Bool) (b : Option BranchInfo) : (s.advanceTo i pc n b).flashOpen = s.flashOpen := rfl
@[simp] theorem State.advanceTo_fuseSvn (s : State) (i : Iss) (pc : BitVec 52) (n : Bool) (b : Option BranchInfo) : (s.advanceTo i pc n b).fuseSvn = s.fuseSvn := rfl
@[simp] theorem State.advanceTo_dumpBase (s : State) (i : Iss) (pc : BitVec 52) (n : Bool) (b : Option BranchInfo) : (s.advanceTo i pc n b).dumpBase = s.dumpBase := rfl
@[simp] theorem State.advanceTo_dumpSize (s : State) (i : Iss) (pc : BitVec 52) (n : Bool) (b : Option BranchInfo) : (s.advanceTo i pc n b).dumpSize = s.dumpSize := rfl
@[simp] theorem State.advanceTo_fatal (s : State) (i : Iss) (pc : BitVec 52) (n : Bool) (b : Option BranchInfo) : (s.advanceTo i pc n b).fatal = s.fatal := rfl
@[simp] theorem State.advanceTo_dumpOwed (s : State) (i : Iss) (pc : BitVec 52) (n : Bool) (b : Option BranchInfo) : (s.advanceTo i pc n b).dumpOwed = s.dumpOwed := rfl
@[simp] theorem State.advanceTo_peerAt (s : State) (i : Iss) (pc : BitVec 52) (n : Bool) (b : Option BranchInfo) : (s.advanceTo i pc n b).peerAt = s.peerAt := rfl
@[simp] theorem State.advanceTo_peerAsk (s : State) (i : Iss) (pc : BitVec 52) (n : Bool) (b : Option BranchInfo) : (s.advanceTo i pc n b).peerAsk = s.peerAsk := rfl
@[simp] theorem State.advanceTo_peerSaid (s : State) (i : Iss) (pc : BitVec 52) (n : Bool) (b : Option BranchInfo) : (s.advanceTo i pc n b).peerSaid = s.peerSaid := rfl
@[simp] theorem State.advanceTo_replayQ (s : State) (i : Iss) (pc : BitVec 52) (n : Bool) (b : Option BranchInfo) : (s.advanceTo i pc n b).replayQ = s.replayQ := rfl

/-! ### `State.advance` -/

@[simp] theorem State.advance_time (s : State) (i : Iss) (z : Nat) (n : Bool) : (s.advance i z n).time = s.time := rfl
@[simp] theorem State.advance_fine (s : State) (i : Iss) (z : Nat) (n : Bool) : (s.advance i z n).fine = s.fine := rfl
@[simp] theorem State.advance_phase (s : State) (i : Iss) (z : Nat) (n : Bool) : (s.advance i z n).phase = s.phase := rfl
@[simp] theorem State.advance_issues (s : State) (i : Iss) (z : Nat) (n : Bool) : (s.advance i z n).issues = s.issues := rfl
@[simp] theorem State.advance_service (s : State) (i : Iss) (z : Nat) (n : Bool) : (s.advance i z n).service = s.service := rfl
@[simp] theorem State.advance_serviced (s : State) (i : Iss) (z : Nat) (n : Bool) : (s.advance i z n).serviced = s.serviced := rfl
@[simp] theorem State.advance_readsFmt (s : State) (i : Iss) (z : Nat) (n : Bool) : (s.advance i z n).readsFmt = s.readsFmt := rfl
@[simp] theorem State.advance_steps (s : State) (i : Iss) (z : Nat) (n : Bool) : (s.advance i z n).steps = s.steps := rfl
@[simp] theorem State.advance_draws (s : State) (i : Iss) (z : Nat) (n : Bool) : (s.advance i z n).draws = s.draws := rfl
@[simp] theorem State.advance_cur (s : State) (i : Iss) (z : Nat) (n : Bool) : (s.advance i z n).cur = s.cur := rfl
@[simp] theorem State.advance_mem (s : State) (i : Iss) (z : Nat) (n : Bool) : (s.advance i z n).mem = s.mem := rfl
@[simp] theorem State.advance_memBad (s : State) (i : Iss) (z : Nat) (n : Bool) : (s.advance i z n).memBad = s.memBad := rfl
@[simp] theorem State.advance_blocks (s : State) (i : Iss) (z : Nat) (n : Bool) : (s.advance i z n).blocks = s.blocks := rfl
@[simp] theorem State.advance_launches (s : State) (i : Iss) (z : Nat) (n : Bool) : (s.advance i z n).launches = s.launches := rfl
@[simp] theorem State.advance_ctxs (s : State) (i : Iss) (z : Nat) (n : Bool) : (s.advance i z n).ctxs = s.ctxs := rfl
@[simp] theorem State.advance_gens (s : State) (i : Iss) (z : Nat) (n : Bool) : (s.advance i z n).gens = s.gens := rfl
@[simp] theorem State.advance_queues (s : State) (i : Iss) (z : Nat) (n : Bool) : (s.advance i z n).queues = s.queues := rfl
@[simp] theorem State.advance_trees (s : State) (i : Iss) (z : Nat) (n : Bool) : (s.advance i z n).trees = s.trees := rfl
@[simp] theorem State.advance_pools (s : State) (i : Iss) (z : Nat) (n : Bool) : (s.advance i z n).pools = s.pools := rfl
@[simp] theorem State.advance_syzygy (s : State) (i : Iss) (z : Nat) (n : Bool) : (s.advance i z n).syzygy = s.syzygy := rfl
@[simp] theorem State.advance_feeds (s : State) (i : Iss) (z : Nat) (n : Bool) : (s.advance i z n).feeds = s.feeds := rfl
@[simp] theorem State.advance_spawnq (s : State) (i : Iss) (z : Nat) (n : Bool) : (s.advance i z n).spawnq = s.spawnq := rfl
@[simp] theorem State.advance_unperf (s : State) (i : Iss) (z : Nat) (n : Bool) : (s.advance i z n).unperf = s.unperf := rfl
@[simp] theorem State.advance_copies (s : State) (i : Iss) (z : Nat) (n : Bool) : (s.advance i z n).copies = s.copies := rfl
@[simp] theorem State.advance_cols (s : State) (i : Iss) (z : Nat) (n : Bool) : (s.advance i z n).cols = s.cols := rfl
@[simp] theorem State.advance_dyns (s : State) (i : Iss) (z : Nat) (n : Bool) : (s.advance i z n).dyns = s.dyns := rfl
@[simp] theorem State.advance_l1 (s : State) (i : Iss) (z : Nat) (n : Bool) : (s.advance i z n).l1 = s.l1 := rfl
@[simp] theorem State.advance_fillNo (s : State) (i : Iss) (z : Nat) (n : Bool) : (s.advance i z n).fillNo = s.fillNo := rfl
@[simp] theorem State.advance_icache (s : State) (i : Iss) (z : Nat) (n : Bool) : (s.advance i z n).icache = s.icache := rfl
@[simp] theorem State.advance_tlb (s : State) (i : Iss) (z : Nat) (n : Bool) : (s.advance i z n).tlb = s.tlb := rfl
@[simp] theorem State.advance_tlb2 (s : State) (i : Iss) (z : Nat) (n : Bool) : (s.advance i z n).tlb2 = s.tlb2 := rfl
@[simp] theorem State.advance_walks (s : State) (i : Iss) (z : Nat) (n : Bool) : (s.advance i z n).walks = s.walks := rfl
@[simp] theorem State.advance_l2 (s : State) (i : Iss) (z : Nat) (n : Bool) : (s.advance i z n).l2 = s.l2 := rfl
@[simp] theorem State.advance_woas (s : State) (i : Iss) (z : Nat) (n : Bool) : (s.advance i z n).woas = s.woas := rfl
@[simp] theorem State.advance_woaNo (s : State) (i : Iss) (z : Nat) (n : Bool) : (s.advance i z n).woaNo = s.woaNo := rfl
@[simp] theorem State.advance_xfaults (s : State) (i : Iss) (z : Nat) (n : Bool) : (s.advance i z n).xfaults = s.xfaults := rfl
@[simp] theorem State.advance_token (s : State) (i : Iss) (z : Nat) (n : Bool) : (s.advance i z n).token = s.token := rfl
@[simp] theorem State.advance_chovis (s : State) (i : Iss) (z : Nat) (n : Bool) : (s.advance i z n).chovis = s.chovis := rfl
@[simp] theorem State.advance_sysreqs (s : State) (i : Iss) (z : Nat) (n : Bool) : (s.advance i z n).sysreqs = s.sysreqs := rfl
@[simp] theorem State.advance_slotGens (s : State) (i : Iss) (z : Nat) (n : Bool) : (s.advance i z n).slotGens = s.slotGens := rfl
@[simp] theorem State.advance_btags (s : State) (i : Iss) (z : Nat) (n : Bool) : (s.advance i z n).btags = s.btags := rfl
@[simp] theorem State.advance_lid (s : State) (i : Iss) (z : Nat) (n : Bool) : (s.advance i z n).lid = s.lid := rfl
@[simp] theorem State.advance_reserved (s : State) (i : Iss) (z : Nat) (n : Bool) : (s.advance i z n).reserved = s.reserved := rfl
@[simp] theorem State.advance_pinned (s : State) (i : Iss) (z : Nat) (n : Bool) : (s.advance i z n).pinned = s.pinned := rfl
@[simp] theorem State.advance_split (s : State) (i : Iss) (z : Nat) (n : Bool) : (s.advance i z n).split = s.split := rfl
@[simp] theorem State.advance_clock (s : State) (i : Iss) (z : Nat) (n : Bool) : (s.advance i z n).clock = s.clock := rfl
@[simp] theorem State.advance_cyc (s : State) (i : Iss) (z : Nat) (n : Bool) : (s.advance i z n).cyc = s.cyc := rfl
@[simp] theorem State.advance_traces (s : State) (i : Iss) (z : Nat) (n : Bool) : (s.advance i z n).traces = s.traces := rfl
@[simp] theorem State.advance_corrected (s : State) (i : Iss) (z : Nat) (n : Bool) : (s.advance i z n).corrected = s.corrected := rfl
@[simp] theorem State.advance_samples (s : State) (i : Iss) (z : Nat) (n : Bool) : (s.advance i z n).samples = s.samples := rfl
@[simp] theorem State.advance_hostLines (s : State) (i : Iss) (z : Nat) (n : Bool) : (s.advance i z n).hostLines = s.hostLines := rfl
@[simp] theorem State.advance_recalls (s : State) (i : Iss) (z : Nat) (n : Bool) : (s.advance i z n).recalls = s.recalls := rfl
@[simp] theorem State.advance_inputs (s : State) (i : Iss) (z : Nat) (n : Bool) : (s.advance i z n).inputs = s.inputs := rfl
@[simp] theorem State.advance_outbox (s : State) (i : Iss) (z : Nat) (n : Bool) : (s.advance i z n).outbox = s.outbox := rfl
@[simp] theorem State.advance_mgmt (s : State) (i : Iss) (z : Nat) (n : Bool) : (s.advance i z n).mgmt = s.mgmt := rfl
@[simp] theorem State.advance_drvNext (s : State) (i : Iss) (z : Nat) (n : Bool) : (s.advance i z n).drvNext = s.drvNext := rfl
@[simp] theorem State.advance_mailbox (s : State) (i : Iss) (z : Nat) (n : Bool) : (s.advance i z n).mailbox = s.mailbox := rfl
@[simp] theorem State.advance_flash (s : State) (i : Iss) (z : Nat) (n : Bool) : (s.advance i z n).flash = s.flash := rfl
@[simp] theorem State.advance_flashLen (s : State) (i : Iss) (z : Nat) (n : Bool) : (s.advance i z n).flashLen = s.flashLen := rfl
@[simp] theorem State.advance_flashOpen (s : State) (i : Iss) (z : Nat) (n : Bool) : (s.advance i z n).flashOpen = s.flashOpen := rfl
@[simp] theorem State.advance_fuseSvn (s : State) (i : Iss) (z : Nat) (n : Bool) : (s.advance i z n).fuseSvn = s.fuseSvn := rfl
@[simp] theorem State.advance_dumpBase (s : State) (i : Iss) (z : Nat) (n : Bool) : (s.advance i z n).dumpBase = s.dumpBase := rfl
@[simp] theorem State.advance_dumpSize (s : State) (i : Iss) (z : Nat) (n : Bool) : (s.advance i z n).dumpSize = s.dumpSize := rfl
@[simp] theorem State.advance_fatal (s : State) (i : Iss) (z : Nat) (n : Bool) : (s.advance i z n).fatal = s.fatal := rfl
@[simp] theorem State.advance_dumpOwed (s : State) (i : Iss) (z : Nat) (n : Bool) : (s.advance i z n).dumpOwed = s.dumpOwed := rfl
@[simp] theorem State.advance_peerAt (s : State) (i : Iss) (z : Nat) (n : Bool) : (s.advance i z n).peerAt = s.peerAt := rfl
@[simp] theorem State.advance_peerAsk (s : State) (i : Iss) (z : Nat) (n : Bool) : (s.advance i z n).peerAsk = s.peerAsk := rfl
@[simp] theorem State.advance_peerSaid (s : State) (i : Iss) (z : Nat) (n : Bool) : (s.advance i z n).peerSaid = s.peerSaid := rfl
@[simp] theorem State.advance_replayQ (s : State) (i : Iss) (z : Nat) (n : Bool) : (s.advance i z n).replayQ = s.replayQ := rfl

/-! ### `State.setQueue` -/

@[simp] theorem State.setQueue_time (s : State) (q : Nat) (v : Queue) : (s.setQueue q v).time = s.time := rfl
@[simp] theorem State.setQueue_fine (s : State) (q : Nat) (v : Queue) : (s.setQueue q v).fine = s.fine := rfl
@[simp] theorem State.setQueue_phase (s : State) (q : Nat) (v : Queue) : (s.setQueue q v).phase = s.phase := rfl
@[simp] theorem State.setQueue_issues (s : State) (q : Nat) (v : Queue) : (s.setQueue q v).issues = s.issues := rfl
@[simp] theorem State.setQueue_service (s : State) (q : Nat) (v : Queue) : (s.setQueue q v).service = s.service := rfl
@[simp] theorem State.setQueue_serviced (s : State) (q : Nat) (v : Queue) : (s.setQueue q v).serviced = s.serviced := rfl
@[simp] theorem State.setQueue_readsFmt (s : State) (q : Nat) (v : Queue) : (s.setQueue q v).readsFmt = s.readsFmt := rfl
@[simp] theorem State.setQueue_steps (s : State) (q : Nat) (v : Queue) : (s.setQueue q v).steps = s.steps := rfl
@[simp] theorem State.setQueue_draws (s : State) (q : Nat) (v : Queue) : (s.setQueue q v).draws = s.draws := rfl
@[simp] theorem State.setQueue_seq (s : State) (q : Nat) (v : Queue) : (s.setQueue q v).seq = s.seq := rfl
@[simp] theorem State.setQueue_cur (s : State) (q : Nat) (v : Queue) : (s.setQueue q v).cur = s.cur := rfl
@[simp] theorem State.setQueue_mem (s : State) (q : Nat) (v : Queue) : (s.setQueue q v).mem = s.mem := rfl
@[simp] theorem State.setQueue_memBad (s : State) (q : Nat) (v : Queue) : (s.setQueue q v).memBad = s.memBad := rfl
@[simp] theorem State.setQueue_groups (s : State) (q : Nat) (v : Queue) : (s.setQueue q v).groups = s.groups := rfl
@[simp] theorem State.setQueue_blocks (s : State) (q : Nat) (v : Queue) : (s.setQueue q v).blocks = s.blocks := rfl
@[simp] theorem State.setQueue_launches (s : State) (q : Nat) (v : Queue) : (s.setQueue q v).launches = s.launches := rfl
@[simp] theorem State.setQueue_ctxs (s : State) (q : Nat) (v : Queue) : (s.setQueue q v).ctxs = s.ctxs := rfl
@[simp] theorem State.setQueue_gens (s : State) (q : Nat) (v : Queue) : (s.setQueue q v).gens = s.gens := rfl
@[simp] theorem State.setQueue_trees (s : State) (q : Nat) (v : Queue) : (s.setQueue q v).trees = s.trees := rfl
@[simp] theorem State.setQueue_pools (s : State) (q : Nat) (v : Queue) : (s.setQueue q v).pools = s.pools := rfl
@[simp] theorem State.setQueue_syzygy (s : State) (q : Nat) (v : Queue) : (s.setQueue q v).syzygy = s.syzygy := rfl
@[simp] theorem State.setQueue_feeds (s : State) (q : Nat) (v : Queue) : (s.setQueue q v).feeds = s.feeds := rfl
@[simp] theorem State.setQueue_spawnq (s : State) (q : Nat) (v : Queue) : (s.setQueue q v).spawnq = s.spawnq := rfl
@[simp] theorem State.setQueue_unperf (s : State) (q : Nat) (v : Queue) : (s.setQueue q v).unperf = s.unperf := rfl
@[simp] theorem State.setQueue_copies (s : State) (q : Nat) (v : Queue) : (s.setQueue q v).copies = s.copies := rfl
@[simp] theorem State.setQueue_cols (s : State) (q : Nat) (v : Queue) : (s.setQueue q v).cols = s.cols := rfl
@[simp] theorem State.setQueue_dyns (s : State) (q : Nat) (v : Queue) : (s.setQueue q v).dyns = s.dyns := rfl
@[simp] theorem State.setQueue_l1 (s : State) (q : Nat) (v : Queue) : (s.setQueue q v).l1 = s.l1 := rfl
@[simp] theorem State.setQueue_fillNo (s : State) (q : Nat) (v : Queue) : (s.setQueue q v).fillNo = s.fillNo := rfl
@[simp] theorem State.setQueue_icache (s : State) (q : Nat) (v : Queue) : (s.setQueue q v).icache = s.icache := rfl
@[simp] theorem State.setQueue_tlb (s : State) (q : Nat) (v : Queue) : (s.setQueue q v).tlb = s.tlb := rfl
@[simp] theorem State.setQueue_tlb2 (s : State) (q : Nat) (v : Queue) : (s.setQueue q v).tlb2 = s.tlb2 := rfl
@[simp] theorem State.setQueue_walks (s : State) (q : Nat) (v : Queue) : (s.setQueue q v).walks = s.walks := rfl
@[simp] theorem State.setQueue_l2 (s : State) (q : Nat) (v : Queue) : (s.setQueue q v).l2 = s.l2 := rfl
@[simp] theorem State.setQueue_woas (s : State) (q : Nat) (v : Queue) : (s.setQueue q v).woas = s.woas := rfl
@[simp] theorem State.setQueue_woaNo (s : State) (q : Nat) (v : Queue) : (s.setQueue q v).woaNo = s.woaNo := rfl
@[simp] theorem State.setQueue_xfaults (s : State) (q : Nat) (v : Queue) : (s.setQueue q v).xfaults = s.xfaults := rfl
@[simp] theorem State.setQueue_token (s : State) (q : Nat) (v : Queue) : (s.setQueue q v).token = s.token := rfl
@[simp] theorem State.setQueue_chovis (s : State) (q : Nat) (v : Queue) : (s.setQueue q v).chovis = s.chovis := rfl
@[simp] theorem State.setQueue_sysreqs (s : State) (q : Nat) (v : Queue) : (s.setQueue q v).sysreqs = s.sysreqs := rfl
@[simp] theorem State.setQueue_slotGens (s : State) (q : Nat) (v : Queue) : (s.setQueue q v).slotGens = s.slotGens := rfl
@[simp] theorem State.setQueue_btags (s : State) (q : Nat) (v : Queue) : (s.setQueue q v).btags = s.btags := rfl
@[simp] theorem State.setQueue_lid (s : State) (q : Nat) (v : Queue) : (s.setQueue q v).lid = s.lid := rfl
@[simp] theorem State.setQueue_reserved (s : State) (q : Nat) (v : Queue) : (s.setQueue q v).reserved = s.reserved := rfl
@[simp] theorem State.setQueue_pinned (s : State) (q : Nat) (v : Queue) : (s.setQueue q v).pinned = s.pinned := rfl
@[simp] theorem State.setQueue_split (s : State) (q : Nat) (v : Queue) : (s.setQueue q v).split = s.split := rfl
@[simp] theorem State.setQueue_clock (s : State) (q : Nat) (v : Queue) : (s.setQueue q v).clock = s.clock := rfl
@[simp] theorem State.setQueue_cyc (s : State) (q : Nat) (v : Queue) : (s.setQueue q v).cyc = s.cyc := rfl
@[simp] theorem State.setQueue_traces (s : State) (q : Nat) (v : Queue) : (s.setQueue q v).traces = s.traces := rfl
@[simp] theorem State.setQueue_corrected (s : State) (q : Nat) (v : Queue) : (s.setQueue q v).corrected = s.corrected := rfl
@[simp] theorem State.setQueue_samples (s : State) (q : Nat) (v : Queue) : (s.setQueue q v).samples = s.samples := rfl
@[simp] theorem State.setQueue_hostLines (s : State) (q : Nat) (v : Queue) : (s.setQueue q v).hostLines = s.hostLines := rfl
@[simp] theorem State.setQueue_recalls (s : State) (q : Nat) (v : Queue) : (s.setQueue q v).recalls = s.recalls := rfl
@[simp] theorem State.setQueue_inputs (s : State) (q : Nat) (v : Queue) : (s.setQueue q v).inputs = s.inputs := rfl
@[simp] theorem State.setQueue_outbox (s : State) (q : Nat) (v : Queue) : (s.setQueue q v).outbox = s.outbox := rfl
@[simp] theorem State.setQueue_mgmt (s : State) (q : Nat) (v : Queue) : (s.setQueue q v).mgmt = s.mgmt := rfl
@[simp] theorem State.setQueue_drvNext (s : State) (q : Nat) (v : Queue) : (s.setQueue q v).drvNext = s.drvNext := rfl
@[simp] theorem State.setQueue_mailbox (s : State) (q : Nat) (v : Queue) : (s.setQueue q v).mailbox = s.mailbox := rfl
@[simp] theorem State.setQueue_flash (s : State) (q : Nat) (v : Queue) : (s.setQueue q v).flash = s.flash := rfl
@[simp] theorem State.setQueue_flashLen (s : State) (q : Nat) (v : Queue) : (s.setQueue q v).flashLen = s.flashLen := rfl
@[simp] theorem State.setQueue_flashOpen (s : State) (q : Nat) (v : Queue) : (s.setQueue q v).flashOpen = s.flashOpen := rfl
@[simp] theorem State.setQueue_fuseSvn (s : State) (q : Nat) (v : Queue) : (s.setQueue q v).fuseSvn = s.fuseSvn := rfl
@[simp] theorem State.setQueue_dumpBase (s : State) (q : Nat) (v : Queue) : (s.setQueue q v).dumpBase = s.dumpBase := rfl
@[simp] theorem State.setQueue_dumpSize (s : State) (q : Nat) (v : Queue) : (s.setQueue q v).dumpSize = s.dumpSize := rfl
@[simp] theorem State.setQueue_fatal (s : State) (q : Nat) (v : Queue) : (s.setQueue q v).fatal = s.fatal := rfl
@[simp] theorem State.setQueue_dumpOwed (s : State) (q : Nat) (v : Queue) : (s.setQueue q v).dumpOwed = s.dumpOwed := rfl
@[simp] theorem State.setQueue_peerAt (s : State) (q : Nat) (v : Queue) : (s.setQueue q v).peerAt = s.peerAt := rfl
@[simp] theorem State.setQueue_peerAsk (s : State) (q : Nat) (v : Queue) : (s.setQueue q v).peerAsk = s.peerAsk := rfl
@[simp] theorem State.setQueue_peerSaid (s : State) (q : Nat) (v : Queue) : (s.setQueue q v).peerSaid = s.peerSaid := rfl
@[simp] theorem State.setQueue_replayQ (s : State) (q : Nat) (v : Queue) : (s.setQueue q v).replayQ = s.replayQ := rfl

/-! ### `State.writeMem` -/

@[simp] theorem State.writeMem_time (s : State) (pa : Nat) (bs : List Byte) : (s.writeMem pa bs).time = s.time := rfl
@[simp] theorem State.writeMem_fine (s : State) (pa : Nat) (bs : List Byte) : (s.writeMem pa bs).fine = s.fine := rfl
@[simp] theorem State.writeMem_phase (s : State) (pa : Nat) (bs : List Byte) : (s.writeMem pa bs).phase = s.phase := rfl
@[simp] theorem State.writeMem_issues (s : State) (pa : Nat) (bs : List Byte) : (s.writeMem pa bs).issues = s.issues := rfl
@[simp] theorem State.writeMem_service (s : State) (pa : Nat) (bs : List Byte) : (s.writeMem pa bs).service = s.service := rfl
@[simp] theorem State.writeMem_serviced (s : State) (pa : Nat) (bs : List Byte) : (s.writeMem pa bs).serviced = s.serviced := rfl
@[simp] theorem State.writeMem_readsFmt (s : State) (pa : Nat) (bs : List Byte) : (s.writeMem pa bs).readsFmt = s.readsFmt := rfl
@[simp] theorem State.writeMem_steps (s : State) (pa : Nat) (bs : List Byte) : (s.writeMem pa bs).steps = s.steps := rfl
@[simp] theorem State.writeMem_draws (s : State) (pa : Nat) (bs : List Byte) : (s.writeMem pa bs).draws = s.draws := rfl
@[simp] theorem State.writeMem_seq (s : State) (pa : Nat) (bs : List Byte) : (s.writeMem pa bs).seq = s.seq := rfl
@[simp] theorem State.writeMem_cur (s : State) (pa : Nat) (bs : List Byte) : (s.writeMem pa bs).cur = s.cur := rfl
@[simp] theorem State.writeMem_groups (s : State) (pa : Nat) (bs : List Byte) : (s.writeMem pa bs).groups = s.groups := rfl
@[simp] theorem State.writeMem_blocks (s : State) (pa : Nat) (bs : List Byte) : (s.writeMem pa bs).blocks = s.blocks := rfl
@[simp] theorem State.writeMem_launches (s : State) (pa : Nat) (bs : List Byte) : (s.writeMem pa bs).launches = s.launches := rfl
@[simp] theorem State.writeMem_ctxs (s : State) (pa : Nat) (bs : List Byte) : (s.writeMem pa bs).ctxs = s.ctxs := rfl
@[simp] theorem State.writeMem_gens (s : State) (pa : Nat) (bs : List Byte) : (s.writeMem pa bs).gens = s.gens := rfl
@[simp] theorem State.writeMem_queues (s : State) (pa : Nat) (bs : List Byte) : (s.writeMem pa bs).queues = s.queues := rfl
@[simp] theorem State.writeMem_trees (s : State) (pa : Nat) (bs : List Byte) : (s.writeMem pa bs).trees = s.trees := rfl
@[simp] theorem State.writeMem_pools (s : State) (pa : Nat) (bs : List Byte) : (s.writeMem pa bs).pools = s.pools := rfl
@[simp] theorem State.writeMem_syzygy (s : State) (pa : Nat) (bs : List Byte) : (s.writeMem pa bs).syzygy = s.syzygy := rfl
@[simp] theorem State.writeMem_feeds (s : State) (pa : Nat) (bs : List Byte) : (s.writeMem pa bs).feeds = s.feeds := rfl
@[simp] theorem State.writeMem_spawnq (s : State) (pa : Nat) (bs : List Byte) : (s.writeMem pa bs).spawnq = s.spawnq := rfl
@[simp] theorem State.writeMem_unperf (s : State) (pa : Nat) (bs : List Byte) : (s.writeMem pa bs).unperf = s.unperf := rfl
@[simp] theorem State.writeMem_copies (s : State) (pa : Nat) (bs : List Byte) : (s.writeMem pa bs).copies = s.copies := rfl
@[simp] theorem State.writeMem_cols (s : State) (pa : Nat) (bs : List Byte) : (s.writeMem pa bs).cols = s.cols := rfl
@[simp] theorem State.writeMem_dyns (s : State) (pa : Nat) (bs : List Byte) : (s.writeMem pa bs).dyns = s.dyns := rfl
@[simp] theorem State.writeMem_l1 (s : State) (pa : Nat) (bs : List Byte) : (s.writeMem pa bs).l1 = s.l1 := rfl
@[simp] theorem State.writeMem_fillNo (s : State) (pa : Nat) (bs : List Byte) : (s.writeMem pa bs).fillNo = s.fillNo := rfl
@[simp] theorem State.writeMem_icache (s : State) (pa : Nat) (bs : List Byte) : (s.writeMem pa bs).icache = s.icache := rfl
@[simp] theorem State.writeMem_tlb (s : State) (pa : Nat) (bs : List Byte) : (s.writeMem pa bs).tlb = s.tlb := rfl
@[simp] theorem State.writeMem_tlb2 (s : State) (pa : Nat) (bs : List Byte) : (s.writeMem pa bs).tlb2 = s.tlb2 := rfl
@[simp] theorem State.writeMem_walks (s : State) (pa : Nat) (bs : List Byte) : (s.writeMem pa bs).walks = s.walks := rfl
@[simp] theorem State.writeMem_l2 (s : State) (pa : Nat) (bs : List Byte) : (s.writeMem pa bs).l2 = s.l2 := rfl
@[simp] theorem State.writeMem_woaNo (s : State) (pa : Nat) (bs : List Byte) : (s.writeMem pa bs).woaNo = s.woaNo := rfl
@[simp] theorem State.writeMem_xfaults (s : State) (pa : Nat) (bs : List Byte) : (s.writeMem pa bs).xfaults = s.xfaults := rfl
@[simp] theorem State.writeMem_token (s : State) (pa : Nat) (bs : List Byte) : (s.writeMem pa bs).token = s.token := rfl
@[simp] theorem State.writeMem_chovis (s : State) (pa : Nat) (bs : List Byte) : (s.writeMem pa bs).chovis = s.chovis := rfl
@[simp] theorem State.writeMem_sysreqs (s : State) (pa : Nat) (bs : List Byte) : (s.writeMem pa bs).sysreqs = s.sysreqs := rfl
@[simp] theorem State.writeMem_slotGens (s : State) (pa : Nat) (bs : List Byte) : (s.writeMem pa bs).slotGens = s.slotGens := rfl
@[simp] theorem State.writeMem_btags (s : State) (pa : Nat) (bs : List Byte) : (s.writeMem pa bs).btags = s.btags := rfl
@[simp] theorem State.writeMem_lid (s : State) (pa : Nat) (bs : List Byte) : (s.writeMem pa bs).lid = s.lid := rfl
@[simp] theorem State.writeMem_reserved (s : State) (pa : Nat) (bs : List Byte) : (s.writeMem pa bs).reserved = s.reserved := rfl
@[simp] theorem State.writeMem_pinned (s : State) (pa : Nat) (bs : List Byte) : (s.writeMem pa bs).pinned = s.pinned := rfl
@[simp] theorem State.writeMem_split (s : State) (pa : Nat) (bs : List Byte) : (s.writeMem pa bs).split = s.split := rfl
@[simp] theorem State.writeMem_clock (s : State) (pa : Nat) (bs : List Byte) : (s.writeMem pa bs).clock = s.clock := rfl
@[simp] theorem State.writeMem_cyc (s : State) (pa : Nat) (bs : List Byte) : (s.writeMem pa bs).cyc = s.cyc := rfl
@[simp] theorem State.writeMem_traces (s : State) (pa : Nat) (bs : List Byte) : (s.writeMem pa bs).traces = s.traces := rfl
@[simp] theorem State.writeMem_corrected (s : State) (pa : Nat) (bs : List Byte) : (s.writeMem pa bs).corrected = s.corrected := rfl
@[simp] theorem State.writeMem_samples (s : State) (pa : Nat) (bs : List Byte) : (s.writeMem pa bs).samples = s.samples := rfl
@[simp] theorem State.writeMem_inputs (s : State) (pa : Nat) (bs : List Byte) : (s.writeMem pa bs).inputs = s.inputs := rfl
@[simp] theorem State.writeMem_mgmt (s : State) (pa : Nat) (bs : List Byte) : (s.writeMem pa bs).mgmt = s.mgmt := rfl
@[simp] theorem State.writeMem_drvNext (s : State) (pa : Nat) (bs : List Byte) : (s.writeMem pa bs).drvNext = s.drvNext := rfl
@[simp] theorem State.writeMem_mailbox (s : State) (pa : Nat) (bs : List Byte) : (s.writeMem pa bs).mailbox = s.mailbox := rfl
@[simp] theorem State.writeMem_flash (s : State) (pa : Nat) (bs : List Byte) : (s.writeMem pa bs).flash = s.flash := rfl
@[simp] theorem State.writeMem_flashLen (s : State) (pa : Nat) (bs : List Byte) : (s.writeMem pa bs).flashLen = s.flashLen := rfl
@[simp] theorem State.writeMem_flashOpen (s : State) (pa : Nat) (bs : List Byte) : (s.writeMem pa bs).flashOpen = s.flashOpen := rfl
@[simp] theorem State.writeMem_fuseSvn (s : State) (pa : Nat) (bs : List Byte) : (s.writeMem pa bs).fuseSvn = s.fuseSvn := rfl
@[simp] theorem State.writeMem_dumpBase (s : State) (pa : Nat) (bs : List Byte) : (s.writeMem pa bs).dumpBase = s.dumpBase := rfl
@[simp] theorem State.writeMem_dumpSize (s : State) (pa : Nat) (bs : List Byte) : (s.writeMem pa bs).dumpSize = s.dumpSize := rfl
@[simp] theorem State.writeMem_fatal (s : State) (pa : Nat) (bs : List Byte) : (s.writeMem pa bs).fatal = s.fatal := rfl
@[simp] theorem State.writeMem_dumpOwed (s : State) (pa : Nat) (bs : List Byte) : (s.writeMem pa bs).dumpOwed = s.dumpOwed := rfl
@[simp] theorem State.writeMem_peerAt (s : State) (pa : Nat) (bs : List Byte) : (s.writeMem pa bs).peerAt = s.peerAt := rfl
@[simp] theorem State.writeMem_peerAsk (s : State) (pa : Nat) (bs : List Byte) : (s.writeMem pa bs).peerAsk = s.peerAsk := rfl
@[simp] theorem State.writeMem_peerSaid (s : State) (pa : Nat) (bs : List Byte) : (s.writeMem pa bs).peerSaid = s.peerSaid := rfl
@[simp] theorem State.writeMem_replayQ (s : State) (pa : Nat) (bs : List Byte) : (s.writeMem pa bs).replayQ = s.replayQ := rfl

end Sys2Proof.Machine
end

