-- ==== Sys2Proof/Laws/Issue.lean ====
section
/-! SUPPORT. Sys2Proof/Laws/Issue.lean: an instruction that can issue runs its effect (R61); what the register and predicate forms of
Operands.lean and Flags.lean then leave. -/

namespace Sys2Proof.Machine

open Sys2Proof

/-- The parts of the issuing fragment are those of the state. -/
theorem Issuing.eq {s : State} {g : Bool} {i : Iss} (h : Issuing s g i) :
    i.g = s.group i.gi ∧ i.f = i.g.frag i.fi ∧ i.lanes = activeLanes i.g i.f g := by
  have hc := h.cur
  unfold State.issuing at hc
  split at hc
  · cases hc
  · cases hc
    exact ⟨rfl, rfl, rfl⟩

theorem withIss_next {s : State} {g : Bool} {i : Iss} (h : Issuing s g i) (k : Iss → State) : withIss s g k = .next (k i) := by
  simp [withIss, h.cur]

/-- No mark stands where no mark of these registers meets the lanes. -/
theorem Group.poisonIn_none {g : Group} {rs : List Nat} {m : Mask} (h : ∀ p ∈ g.poison, p.reg ∈ rs → p.lanes &&& m = 0) : g.poisonIn rs m = none := by
  unfold Group.poisonIn
  rw [List.findSome?_eq_none_iff]
  intro l _
  by_cases hm : m.has l = true
  · rw [if_pos hm, List.find?_eq_none]
    intro p hp hc
    simp only [Bool.and_eq_true, List.contains_iff_mem] at hc
    have h0 := h p hp hc.1
    have : (p.lanes &&& m).getLsbD l = true := by
      rw [BitVec.getLsbD_and]
      exact Bool.and_eq_true_iff.2 ⟨hc.2, hm⟩
    rw [h0] at this
    simp at this
  · rw [if_neg hm]

/-- No result is owed to what an instruction names that can issue. -/
theorem owes_none {s : State} {g : Bool} {rs ws ps ds : List Nat} {i : Iss} (h : CanIssue s g rs ws ps i ds) {xs : List Nat}
    (hx : ∀ r ∈ xs, r ∈ (rs ++ ws).map i.phys ++ (if g then [512] else []) ++ (ps ++ ds).map (512 + ·)) :
    (i.lanes.lanes.any fun l => xs.any fun r => i.g.owes r l) = false := by
  rw [List.any_eq_false]
  intro l hl
  rw [Bool.not_eq_true, List.any_eq_false]
  intro r hr
  rw [h.free l hl r (hx r hr)]
  decide

/-- An instruction that can issue has its effect. -/
theorem withOperands_next {s : State} {g : Bool} {rs ws ps ds : List Nat} {i : Iss} (h : CanIssue s g rs ws ps i ds) (k : Iss → State) :
    withOperands s g rs ws ps k ds = .next (k i) := by
  unfold withOperands withOperandsOn
  rw [withIss_next h.toIssuing]
  have h1 : ((rs.map i.phys ++ ws.map i.phys).any fun r => decide (i.N ≤ r)) = false := by
    rw [List.any_eq_false]
    intro r hr
    rw [← List.map_append] at hr
    obtain ⟨x, hx, rfl⟩ := List.mem_map.1 hr
    have := h.held x hx
    simpa using this
  have h2 : (i.lanes.lanes.any fun l => (ws.map i.phys ++ ds.map (512 + ·)).any fun r => i.g.owes r l) = false :=
    owes_none h fun r hr => by
      rw [List.map_append, List.map_append]
      simp only [List.mem_append] at hr ⊢
      exact hr.elim (fun h => .inl (.inl (.inr h))) (fun h => .inr (.inr h))
  have h2g : (i.lanes.lanes.any fun l => ((if g then [512] else []) ++ ps.map (512 + ·)).any fun r => i.g.owes r l) = false :=
    owes_none h fun r hr => by
      rw [List.map_append, List.map_append]
      simp only [List.mem_append] at hr ⊢
      exact hr.elim (fun h => .inl (.inr h)) (fun h => .inr (.inl h))
  have h2' : (i.lanes.lanes.any fun l => (rs.map i.phys).any fun r => i.g.owes r l) = false :=
    owes_none h fun r hr => by simp at hr ⊢; exact Or.inl hr
  have h3 : i.g.poisonIn (rs.map i.phys) i.lanes = none := Group.poisonIn_none h.clean
  have h4 : i.g.poisonIn (if g then [512] else []) i.f.amask = none := Group.poisonIn_none fun p hp hr => by
    by_cases hg : g = true
    · exact h.cleanGuard p hp hg (by simpa [hg] using hr)
    · simp [hg] at hr
  have h4' : i.g.poisonIn (ps.map (512 + ·)) i.lanes = none := Group.poisonIn_none h.cleanPred
  have h5 : (i.f.badSched || (i.f.badFmt && s.readsFmt)) = false := by
    obtain ⟨ha, hb⟩ := h.sound
    cases hf : i.f.badFmt <;> simp_all
  simp only [h1, h2, h2g, h2', h3, h4, h4', h5]
  simp

/-- The fields that the spin detector may touch. -/
theorem Frag.branched_eq (f : Frag) (pc : BitVec 52) (b : BranchInfo) :
    ∃ spin loop quiet noisy, f.branched pc b = { f with spin := spin, loop := loop, quiet := quiet, noisy := noisy } := by
  unfold Frag.branched
  dsimp only
  (repeat' split) <;> exact ⟨_, _, _, _, rfl⟩
theorem Frag.detect_eq (f : Frag) (pc : BitVec 52) (b : Bool) (br : Option BranchInfo) :
    ∃ spin loop quiet noisy, f.detect pc b br = { f with spin := spin, loop := loop, quiet := quiet, noisy := noisy } := by
  unfold Frag.detect
  cases b <;> cases br <;> simp only [Bool.false_eq_true, if_false, if_true]
  · exact ⟨_, _, _, _, rfl⟩
  · exact Frag.branched_eq _ _ _
  · exact ⟨_, _, _, _, rfl⟩
  · obtain ⟨a, b, c, d, h⟩ := Frag.branched_eq { f with noisy := true, spin := false } pc ‹_›
    exact ⟨a, b, c, d, h⟩

/-- Updates of a group that touch registers, predicates and poison marks only. -/
def RegsOnly (f : Group → Group) : Prop :=
  ∀ g : Group, ∃ regs preds poison, f g = { g with regs := regs, preds := preds, poison := poison }

theorem RegsOnly.setReg (p : Nat) (m : Mask) (v : Nat → Word) : RegsOnly fun g => g.setReg p m v := fun _ => ⟨_, _, _, rfl⟩
theorem RegsOnly.setPred (p : Nat) (m : Mask) (v : Nat → Bool) : RegsOnly fun g => g.setPred p m v := fun _ => ⟨_, _, _, rfl⟩
theorem RegsOnly.id : RegsOnly fun g => g := fun _ => ⟨_, _, _, rfl⟩
theorem RegsOnly.comp {f h : Group → Group} (hf : RegsOnly f) (hh : RegsOnly h) : RegsOnly fun g => h (f g) := fun g => by
  obtain ⟨a, b, c, h1⟩ := hf g
  obtain ⟨a', b', c', h2⟩ := hh (f g)
  refine ⟨a', b', c', ?_⟩
  show h (f g) = _
  rw [h2, h1]

/-- What an issue does to the fragment. -/
def advFrag (s : State) (i : Iss) (pc : BitVec 52) (noisy : Bool) (br : Option BranchInfo) (f : Frag) : Frag :=
  { f.detect i.f.pc (noisy || (s.group i.gi).differs i.g i.lanes) br with
    pc := pc, stall := none, replay := none, arrival := none, lastIssue := s.seq + 1, readyAt := s.cycle i.g.core, aged := false, waitFrom := none }

/-- What an issue does to the group. -/
def advGroup (s : State) (i : Iss) (pc : BitVec 52) (noisy : Bool) (br : Option BranchInfo) (g : Group) : Group :=
  { g with
    issued := g.issued + 1, skid := (if g.hold == .skid then g.skid + 1 else g.skid), issuedNow := some i.f.pc,
    frags := modAt g.frags i.fi (advFrag s i pc noisy br) }

/-- The instruction has issued: its group and the issue number change, nothing else. -/
theorem advanceTo_eq (s : State) (i : Iss) (pc : BitVec 52) (noisy : Bool) (br : Option BranchInfo) :
    s.advanceTo i pc noisy br = { s with seq := s.seq + 1, groups := modAt s.groups i.gi (advGroup s i pc noisy br) } := by
  unfold State.advanceTo State.modF State.modG
  simp only [modAt_modAt]
  rfl

/-- What an instruction leaves that changes registers and predicates of its group and fields of its own fragment and goes to a PC. -/
theorem went_advance {s : State} {g : Bool} {i : Iss} (h : Issuing s g i) {f : Group → Group} (hf : RegsOnly f) (hl : (f i.g).regs.length = i.N)
    (u : Frag → Frag) (pc : BitVec 52) (noisy : Bool) (br : Option BranchInfo) :
    Went s (((s.modG i.gi f).modF i.gi i.fi u).advanceTo i pc noisy br) i (u i.f) pc (f i.g).lane fun p l => ((f i.g).pred p).has l := by
  obtain ⟨hg, hfr, -⟩ := h.eq
  obtain ⟨rs, ps, po, hfg⟩ := hf i.g
  have hs : s.groups[i.gi]? = some i.g := by
    rw [hg, State.group, List.getElem?_eq_getElem h.gi]
    rfl
  rw [advanceTo_eq]
  unfold State.modF
  rw [State.modG_modG]
  generalize hU : (fun x : Group => { f x with frags := modAt (f x).frags i.fi u }) = U
  generalize hA : advFrag (s.modG i.gi U) i pc noisy br = A
  generalize hF : advGroup (s.modG i.gi U) i pc noisy br = F
  have hgr : ∀ k, (modAt (s.modG i.gi U).groups i.gi F)[k]? = if k = i.gi then some (F (U i.g)) else s.groups[k]? := by
    intro k
    rw [getElem?_modAt, State.modG_groups]
    by_cases hk : k = i.gi
    · subst hk
      simp [hs]
    · simp [hk]
  have hgrp : ∀ t : State, t.groups = modAt (s.modG i.gi U).groups i.gi F → t.group i.gi = F (U i.g) := by
    intro t ht
    rw [State.group, ht, hgr]
    simp
  have hFf : F (U i.g) = { f i.g with
      issued := (f i.g).issued + 1, skid := (if (f i.g).hold == .skid then (f i.g).skid + 1 else (f i.g).skid), issuedNow := some i.f.pc,
      frags := modAt (modAt (f i.g).frags i.fi u) i.fi A } := by
    rw [← hF, ← hA, ← hU]
    rfl
  have hfrags : (f i.g).frags = i.g.frags := by rw [hfg]
  have hfrag : (F (U i.g)).frag i.fi = A (u i.f) := by
    rw [hFf, Group.frag, getElem?_modAt, getElem?_modAt, hfrags, List.getElem?_eq_getElem h.fi]
    rw [hfr, Group.frag, List.getElem?_eq_getElem h.fi]
    simp
  obtain ⟨sp, lo, qu, no, hd⟩ := Frag.detect_eq (u i.f) i.f.pc
    (noisy || ((s.modG i.gi U).group i.gi).differs i.g i.lanes) br
  have hAf : A (u i.f) = { u i.f with
      pc := pc, stall := none, replay := none, arrival := none, lastIssue := s.seq + 1, readyAt := s.cycle i.g.core, aged := false, waitFrom := none,
      spin := sp, loop := lo, quiet := qu, noisy := no } := by
    rw [← hA, advFrag, hd]
    rfl
  constructor
  · intro p l _ _
    rw [hgrp _ rfl, hFf]
    rfl
  · rw [hgrp _ rfl, hFf]
    exact hl
  · intro p l _ _
    rw [hgrp _ rfl, hFf]
    rfl
  · rw [hgrp _ rfl, hfrag, hAf]
  · rw [hgrp _ rfl, hfrag, hAf]
    exact ⟨sp, lo, qu, no, s.cycle i.g.core, rfl⟩
  · intro k hk
    rw [hgrp _ rfl, hFf]
    show (modAt (modAt (f i.g).frags i.fi u) i.fi A)[k]? = _
    rw [getElem?_modAt, if_neg hk, getElem?_modAt, if_neg hk, hfrags]
  · rw [hgrp _ rfl, hFf]
    exact ⟨rs, ps, po, _, _, by rw [hfg]⟩
  · intro k hk
    show (modAt (s.modG i.gi U).groups i.gi F)[k]? = _
    rw [hgr, if_neg hk]
  · rfl
  · exact fun _ => rfl

/-- What an instruction leaves that changes registers and predicates of its group and goes on. -/
theorem wrote_advance {s : State} {g : Bool} {i : Iss} (h : Issuing s g i) {f : Group → Group} (hf : RegsOnly f) (hl : (f i.g).regs.length = i.N)
    (size : Nat) (noisy : Bool) :
    Wrote s ((s.modG i.gi f).advance i size noisy) i size (f i.g).lane fun p l => ((f i.g).pred p).has l := by
  have := went_advance h hf hl (fun x => x) (i.f.pc + BitVec.ofNat 52 size) noisy none
  have e : (s.modG i.gi f).modF i.gi i.fi (fun x => x) = s.modG i.gi f := by
    unfold State.modF
    simp only [modAt_id]
    exact State.modG_id _ _
  rw [e] at this
  exact this

/-- Registers and predicates may be said in other words. -/
theorem Went.congr {s t : State} {i : Iss} {base : Frag} {pc : BitVec 52} {reg reg' : Nat → Nat → Word} {pred pred' : Nat → Nat → Bool} (h : Went s t i base pc reg pred)
    (hr : ∀ p l, p < i.N → l < 16 → reg p l = reg' p l) (hp : ∀ p l, p < 8 → l < 16 → pred p l = pred' p l) : Went s t i base pc reg' pred' :=
  { h with
    regs := fun p l h1 h2 => (h.regs p l h1 h2).trans (hr p l h1 h2)
    preds := fun p l h1 h2 => (h.preds p l h1 h2).trans (hp p l h1 h2) }

/-- One register written, as the words from a field on. -/
theorem setReg_after (i : Iss) (d : Nat) (f : Nat → Word) (p l : Nat) (hp : p < i.N) (hl : l < 16) :
    (i.g.setReg (i.phys d) i.lanes f).lane p l = i.after d (fun l => [f l]) p l := by
  rw [Group.setReg_lane _ _ _ _ _ _ hp hl, Iss.after]
  by_cases hm : i.lanes.has l = true
  · by_cases h1 : p = i.phys d
    · simp [h1, hm]
    · by_cases h2 : i.phys d ≤ p
      · obtain ⟨k, hk⟩ : ∃ k, p - i.phys d = k + 1 := ⟨p - i.phys d - 1, by omega⟩
        simp [h1, hm, h2, hk]
      · simp [h1, hm, h2]
  · simp [hm]

/-- One more register written behind others. -/
theorem setReg_after_snoc (i : Iss) (d : Nat) (ws : Nat → List Word) (n : Nat) (hn : ∀ l, (ws l).length = n) (f : Nat → Word) (g : Group)
    (hN : g.regs.length = i.N) (hg : ∀ p l, p < i.N → l < 16 → g.lane p l = i.after d ws p l) (p l : Nat) (hp : p < i.N) (hl : l < 16) :
    (g.setReg (i.phys (d + n)) i.lanes f).lane p l = i.after d (fun l => ws l ++ [f l]) p l := by
  have hph : i.phys (d + n) = i.phys d + n := by simp [Iss.phys, Nat.add_assoc]
  rw [Group.setReg_lane _ _ _ _ _ _ (hN ▸ hp) hl, hg p l hp hl, hph]
  unfold Iss.after
  by_cases hm : i.lanes.has l = true
  · by_cases h1 : i.phys d ≤ p
    · by_cases h2 : p = i.phys d + n
      · have h3 : p - i.phys d = (ws l).length := by rw [hn l]; omega
        have h4 : i.phys d ≤ i.phys d + n := by omega
        simp [h2, hm, hn l]
      · by_cases h3 : p - i.phys d < n
        · simp [h2, hm, h1, List.getElem?_append_left (hn l ▸ h3)]
        · have h4 : n + 1 ≤ p - i.phys d := by omega
          simp [h2, hm, h1, List.getElem?_append_right (by rw [hn l]; omega : (ws l).length ≤ p - i.phys d), hn l,
            List.getElem?_eq_none (by simp; omega : [f l].length ≤ p - i.phys d - n), List.getElem?_eq_none (by rw [hn l]; omega : (ws l).length ≤ p - i.phys d)]
    · have h2 : ¬ p = i.phys d + n := by omega
      simp [h1, h2]
  · simp [hm]

theorem laneOp_puts {x : Instr} {g : Bool} {reads : List Nat} {d : Fld} {f : Iss → Nat → Word} {size : Nat}
    (hx : ∀ s, exec x s = laneOp s g reads d f size) : PutsRegs x g reads d.toNat 1 [] size fun i l => [f i l] := by
  intro s i h
  refine ⟨_, (hx s).trans (withOperands_next (by exact h) _), ?_⟩
  exact (wrote_advance h.toIssuing (.setReg _ _ _) (by simp [Iss.N]) size false).congr (fun p l hp hl => setReg_after i _ _ p l hp hl) fun _ _ _ _ => rfl

theorem putPair_wrote {s : State} {g : Bool} {i : Iss} (h : Issuing s g i) (d : Nat) (f : Nat → Word64) (size : Nat) (noisy : Bool) :
    Wrote s ((s.putPair i d f).advance i size noisy) i size (i.after d fun l => pairWords (f l)) i.preds := by
  have e : s.putPair i d f = s.modG i.gi fun g => (g.setReg (i.phys d) i.lanes fun l => lo32 (f l)).setReg (i.phys (d + 1)) i.lanes fun l => hi32 (f l) := by
    unfold State.putPair State.putReg
    rw [State.modG_modG]
  rw [e]
  refine (wrote_advance h (.comp (.setReg _ _ _) (.setReg _ _ _)) (by simp [Iss.N]) size noisy).congr ?_ fun _ _ _ _ => rfl
  intro p l hp hl
  exact setReg_after_snoc i d (fun l => [lo32 (f l)]) 1 (fun _ => rfl) _ _ (by simp [Iss.N]) (fun p l hp hl => setReg_after i d _ p l hp hl) p l hp hl

theorem lanePair_puts {x : Instr} {g : Bool} {reads : List Nat} {d : BitVec 6} {f : Iss → Nat → Word64}
    (hx : ∀ s, exec x s = lanePair s g reads d f) : PutsRegs x g reads (pairFld d).toNat 2 [] 4 fun i l => pairWords (f i l) := by
  intro s i h
  exact ⟨_, (hx s).trans (withOperands_next (by exact h) _), putPair_wrote h.toIssuing _ _ _ _⟩

/-- One predicate written. -/
theorem setPred_after (i : Iss) (d : Nat) (f : Nat → Bool) (p l : Nat) (hp : p < 8) :
    ((i.g.setPred d i.lanes f).pred p).has l = i.afterPred d f p l := by
  rw [Group.setPred_pred _ _ _ _ _ _ hp]
  rfl

theorem lanePred_puts {x : Instr} {g : Bool} {reads preds : List Nat} {d : BitVec 3} {f : Iss → Nat → Bool}
    (hx : ∀ s, exec x s = lanePred s g reads preds d f) : PutsPred x g reads d.toNat preds f := by
  intro s i h
  refine ⟨_, (hx s).trans (withOperands_next (by exact h) _), ?_⟩
  exact (wrote_advance h.toIssuing (.setPred _ _ _) rfl 4 false).congr (fun _ _ _ _ => rfl) fun p l hp _ => setPred_after i _ _ p l hp

end Sys2Proof.Machine
end

