-- ==== Sys2Proof/Laws/Forms.lean ====
section
/-! SUPPORT. Sys2Proof/Laws/Forms.lean: the forms of Sys2Proof/Safety.lean hold of an instruction whose meaning is the operation of
Operands.lean or Flags.lean of that form. -/

namespace Sys2Proof.Machine

open Sys2Proof

theorem lane1 {mk f} (h : ∀ s g d a, exec (mk g d a) s = laneOp1 s g d a f) : Lane1 mk f :=
  fun g d a => laneOp_puts fun s => h s g d a
theorem lane2 {mk f} (h : ∀ s g d a b, exec (mk g d a b) s = laneOp2 s g d a b f) : Lane2 mk f :=
  fun g d a b => laneOp_puts fun s => h s g d a b
theorem lane3 {mk f} (h : ∀ s g d a b, exec (mk g d a b) s = laneOp3 s g d a b f) : Lane3 mk f :=
  fun g d a b => laneOp_puts fun s => h s g d a b
theorem laneImm {ext mk f} (h : ∀ s g d a n, exec (mk g d a n) s = laneOpI s g d a (ext n) f) : LaneImm ext mk f :=
  fun g d a n => laneOp_puts fun s => h s g d a n
theorem laneImm3 {ext mk f} (h : ∀ s g d a n, exec (mk g d a n) s = laneOp3I s g d a (ext n) f) : LaneImm3 ext mk f :=
  fun g d a n => laneOp_puts fun s => h s g d a n
theorem laneConst {mk f} (h : ∀ s g d a hi lo, exec (mk g d a hi lo) s = laneOpX s g d a (hi ++ lo) f) : LaneConst mk f :=
  fun g d a hi lo => laneOp_puts fun s => h s g d a hi lo

theorem wide2 {mk f} (h : ∀ s g d a b, exec (mk g d a b) s = lanePair s g [a.toNat, b.toNat] d fun i l => f (i.reg a.toNat l) (i.reg b.toNat l)) : Wide2 mk f :=
  fun g d a b => lanePair_puts fun s => h s g d a b
theorem wide3 {mk f} (h : ∀ s g d a b, exec (mk g d a b) s = lanePair s g (pairOf d ++ [a.toNat, b.toNat]) d fun i l => f (i.reg a.toNat l) (i.reg b.toNat l) + i.pair (pairFld d).toNat l) : Wide3 mk f :=
  fun g d a b => lanePair_puts fun s => h s g d a b
theorem pair2 {mk f} (h : ∀ s g d a b, exec (mk g d a b) s = lanePair2 s g d a b f) : Pair2 mk f :=
  fun g d a b => lanePair_puts fun s => h s g d a b
theorem pairReg {mk f} (h : ∀ s g d a b, exec (mk g d a b) s = lanePair s g (pairOf a ++ [b.toNat]) d fun i l => f (i.pair (pairFld a).toNat l) (i.reg b.toNat l)) : PairReg mk f :=
  fun g d a b => lanePair_puts fun s => h s g d a b

theorem combined_eq (c : BitVec 2) (x y : Bool) : combine c x y = combined c x y := by
  revert c x y; decide
theorem cmp2 {mk} {f : Word → Word → Prop} [∀ x y, Decidable (f x y)] {f' : Word → Word → Bool} (h : ∀ s g c p a b, exec (mk g c p a b) s = cmpR s g c p a b f') (hf : ∀ x y, f' x y = decide (f x y)) : Cmp2 mk f :=
  fun g c p a b => lanePred_puts fun s => by
    rw [h s g c p a b, cmpR, cmpOp]
    simp only [hf, combined_eq]; rfl
theorem cmpImm {mk} {f : Word → Word → Prop} [∀ x y, Decidable (f x y)] {f' : Word → Word → Bool} (h : ∀ s g c p a n, exec (mk g c p a n) s = cmpI s g c p a (sext7 n) f') (hf : ∀ x y, f' x y = decide (f x y)) : CmpImm mk f :=
  fun g c p a n => lanePred_puts fun s => by
    rw [h s g c p a n, cmpI, cmpOp]
    simp only [hf, combined_eq]; rfl
theorem cmpPairs {mk} {f : Word64 → Word64 → Prop} [∀ x y, Decidable (f x y)] {f' : Word64 → Word64 → Bool} (h : ∀ s g c p a n, exec (mk g c p a n) s = cmpPair s g c p a n f') (hf : ∀ x y, f' x y = decide (f x y)) : CmpPairs mk f :=
  fun g c p a n => lanePred_puts fun s => by
    rw [h s g c p a n, cmpPair, cmpOp]
    simp only [hf, combined_eq]; rfl

theorem fcmp {mk : Bool → BitVec 2 → BitVec 3 → Fld → Fld → Instr} {f : Val → Val → Bool} (h : ∀ s g c p a b, exec (mk g c p a b) s = fcmpOp s g c p a b f) (g : Bool) (c : BitVec 2) (p : BitVec 3)
    (a b : Fld) : PutsPred (mk g c p a b) g [a.toNat, b.toNat] p.toNat (if c = 0 then [] else [p.toNat]) fun i l =>
      combined c (i.preds p.toNat l) (f (fp32.inp i.ftz (i.reg a.toNat l).toNat) (fp32.inp i.ftz (i.reg b.toNat l).toNat)) :=
  lanePred_puts fun s => by
    rw [h s g c p a b, fcmpOp, cmpOp]
    simp only [combined_eq]; rfl

/-- `scomb` with a combining function. -/
theorem combine_puts {mk : Bool → Fld → BitVec 6 → Instr} {f : Nat → Nat → Nat} (h : ∀ s g d a, exec (mk g d a) s = combineClasses s g d a f)
    (g : Bool) (d : Fld) (a : BitVec 6) :
    ∀ s i, CanIssue s g (d.toNat :: pairOf a) [d.toNat] [] i [0] →
      exec (mk g d a) s = .next (((s.putReg i d.toNat fun l =>
        if classMask i (i.pair (pairFld a).toNat) (fun m l => decide (m < l)) l = 0 then
          BitVec.ofNat 32 ((classMask i (i.pair (pairFld a).toNat) (fun m l => decide (l < m)) l).lanes.foldl (fun n m => f n (i.reg d.toNat m).toNat)
            (i.reg d.toNat l).toNat)
        else i.reg d.toNat l).putPred i 0 fun l => decide (classMask i (i.pair (pairFld a).toNat) (fun m l => decide (m < l)) l = 0)).advance i) := by
  intro s i hi
  rw [h s g d a, combineClasses]
  refine (withOperands_next hi _).trans ?_
  have e : ∀ x : Mask, (x == 0) = decide (x = 0) := fun _ => rfl
  simp only [e, decide_eq_true_eq]

/-- A register written beside predicates that are read. -/
theorem reg_puts {x : Instr} {g : Bool} {reads preds : List Nat} {d : Nat} {f : Iss → Nat → Word} {size : Nat}
    (hx : ∀ s, exec x s = withOperands s g reads [d] preds fun i => (s.putReg i d (f i)).advance i size) :
    PutsRegs x g reads d 1 preds size fun i l => [f i l] := by
  intro s i h
  refine ⟨_, (hx s).trans (withOperands_next (by exact h) _), ?_⟩
  exact (wrote_advance h.toIssuing (.setReg _ _ _) (by simp [Iss.N]) size false).congr (fun p l hp hl => setReg_after i _ _ p l hp hl) fun _ _ _ _ => rfl

/-- A register and a predicate written. -/
theorem both_puts {x : Instr} {g : Bool} {reads preds : List Nat} {d q : Nat} {f : Iss → Nat → Word} {b : Iss → Nat → Bool}
    (hx : ∀ s, exec x s = withOperands s g reads [d] preds (fun i => ((s.putReg i d (f i)).putPred i q (b i)).advance i) [q]) :
    PutsBoth x g reads d 1 q preds (fun i l => [f i l]) b := by
  intro s i h
  refine ⟨_, (hx s).trans (withOperands_next (by exact h) _), ?_⟩
  unfold State.putPred State.putReg
  rw [State.modG_modG]
  refine (wrote_advance h.toIssuing (.comp (.setReg _ _ _) (.setPred _ _ _)) (by simp [Iss.N]) 4 false).congr ?_ ?_
  · intro p l hp hl
    exact setReg_after i _ _ p l hp hl
  · intro p l hp _
    exact Group.setPred_pred _ _ _ _ _ _ hp

theorem putBoth_wrote {s : State} {g : Bool} {i : Iss} (h : Issuing s g i) (d q : Nat) (f : Nat → Word) (b : Nat → Bool) (size : Nat) (noisy : Bool) :
    Wrote s (((s.putReg i d f).putPred i q b).advance i size noisy) i size (i.after d fun l => [f l]) (i.afterPred q b) := by
  unfold State.putPred State.putReg
  rw [State.modG_modG]
  refine (wrote_advance h (.comp (.setReg _ _ _) (.setPred _ _ _)) (by simp [Iss.N]) size noisy).congr ?_ ?_
  · intro p l hp hl
    exact setReg_after i _ _ p l hp hl
  · intro p l hp _
    exact Group.setPred_pred _ _ _ _ _ _ hp

/-- Registers written one after another from a field on. -/
theorem putRegs_eq (s : State) (i : Iss) (d n : Nat) (w : Nat → Nat → Word) :
    (List.range n).foldl (fun s j => s.putReg i (d + j) (w j)) s
      = s.modG i.gi fun g => (List.range n).foldl (fun g j => g.setReg (i.phys (d + j)) i.lanes (w j)) g := by
  induction n with
  | zero => exact (State.modG_id s i.gi).symm
  | succ n ih =>
    simp only [List.range_succ, List.foldl_append, List.foldl_cons, List.foldl_nil, ih]
    unfold State.putReg
    rw [State.modG_modG]

theorem putRegs_group (i : Iss) (d n : Nat) (w : Nat → Nat → Word) :
    RegsOnly (fun g => (List.range n).foldl (fun g j => g.setReg (i.phys (d + j)) i.lanes (w j)) g)
    ∧ ((List.range n).foldl (fun g j => g.setReg (i.phys (d + j)) i.lanes (w j)) i.g).regs.length = i.N
    ∧ ((List.range n).foldl (fun g j => g.setReg (i.phys (d + j)) i.lanes (w j)) i.g).preds = i.g.preds
    ∧ ∀ p l, p < i.N → l < 16 →
      ((List.range n).foldl (fun g j => g.setReg (i.phys (d + j)) i.lanes (w j)) i.g).lane p l = i.after d (fun l => (List.range n).map (w · l)) p l := by
  induction n with
  | zero =>
    refine ⟨.id, rfl, rfl, fun p l _ _ => ?_⟩
    simp [Iss.after]
  | succ n ih =>
    simp only [List.range_succ, List.foldl_append, List.foldl_cons, List.foldl_nil, List.map_append, List.map_cons, List.map_nil]
    exact ⟨.comp ih.1 (.setReg _ _ _), by simpa using ih.2.1, ih.2.2.1, fun p l hp hl =>
      setReg_after_snoc i d (fun l => (List.range n).map (w · l)) n (by simp) _ _ ih.2.1 ih.2.2.2 p l hp hl⟩

theorem putRegs_wrote {s : State} {g : Bool} {i : Iss} (h : Issuing s g i) (d n : Nat) (w : Nat → Nat → Word) (size : Nat) (noisy : Bool) :
    Wrote s (((List.range n).foldl (fun s j => s.putReg i (d + j) (w j)) s).advance i size noisy) i size
      (i.after d fun l => (List.range n).map (w · l)) i.preds := by
  rw [putRegs_eq]
  obtain ⟨h1, h2, h3, h4⟩ := putRegs_group i d n w
  refine (wrote_advance h h1 h2 size noisy).congr h4 fun p l _ _ => ?_
  simp only [Group.pred, h3, Iss.preds]

theorem putRegs_puts {x : Instr} {g : Bool} {reads : List Nat} {d n : Nat} {w : Iss → Nat → Nat → Word}
    (hx : ∀ s, exec x s = withOperands s g reads (runOf d n) [] fun i => ((List.range n).foldl (fun s j => s.putReg i (d + j) (w i j)) s).advance i) :
    PutsRegs x g reads d n [] 4 fun i l => (List.range n).map (w i · l) := by
  intro s i h
  exact ⟨_, (hx s).trans (withOperands_next (by exact h) _), putRegs_wrote h.toIssuing d n (w i) 4 false⟩

end Sys2Proof.Machine
end

