-- ==== Sys2Proof/Laws/PerInstr.lean ====
section
/-! SUPPORT. Sys2Proof/Laws/PerInstr.lean: the family Words, one lemma per constructor of Instr: an instruction has a second word exactly when its major is
one of the format-X majors (R58, R59, R83). -/

open Sys2Proof

/-- The encoder gives an instruction a second word exactly when its major is of format X. -/
def Sys2Proof.Laws.Words.Statement (i : Instr) : Prop := (encodeFields i).2.isSome = isX (encodeFields i).1.maj

theorem Sys2Proof.Laws.Words.bra : ∀ a0, Sys2Proof.Laws.Words.Statement (.bra a0) := by intros; rfl
theorem Sys2Proof.Laws.Words.bany : ∀ a0, Sys2Proof.Laws.Words.Statement (.bany a0) := by intros; rfl
theorem Sys2Proof.Laws.Words.ball : ∀ a0, Sys2Proof.Laws.Words.Statement (.ball a0) := by intros; rfl
theorem Sys2Proof.Laws.Words.bnone : ∀ a0, Sys2Proof.Laws.Words.Statement (.bnone a0) := by intros; rfl
theorem Sys2Proof.Laws.Words.call : ∀ a0, Sys2Proof.Laws.Words.Statement (.call a0) := by intros; rfl
theorem Sys2Proof.Laws.Words.brd : ∀ a0 a1, Sys2Proof.Laws.Words.Statement (.brd a0 a1) := by intros; rfl
theorem Sys2Proof.Laws.Words.brdr : ∀ a0 a1, Sys2Proof.Laws.Words.Statement (.brdr a0 a1) := by intros; rfl
theorem Sys2Proof.Laws.Words.ret : Sys2Proof.Laws.Words.Statement .ret := rfl
theorem Sys2Proof.Laws.Words.jmpr : ∀ a0, Sys2Proof.Laws.Words.Statement (.jmpr a0) := by intros; rfl
theorem Sys2Proof.Laws.Words.callr : ∀ a0, Sys2Proof.Laws.Words.Statement (.callr a0) := by intros; rfl
theorem Sys2Proof.Laws.Words.exit : ∀ a0, Sys2Proof.Laws.Words.Statement (.exit a0) := by intros; rfl
theorem Sys2Proof.Laws.Words.yield : ∀ a0, Sys2Proof.Laws.Words.Statement (.yield a0) := by intros; rfl
theorem Sys2Proof.Laws.Words.join : Sys2Proof.Laws.Words.Statement .join := rfl
theorem Sys2Proof.Laws.Words.wbase : ∀ a0 a1, Sys2Proof.Laws.Words.Statement (.wbase a0 a1) := by intros; rfl
theorem Sys2Proof.Laws.Words.spin : ∀ a0, Sys2Proof.Laws.Words.Statement (.spin a0) := by intros; rfl
theorem Sys2Proof.Laws.Words.nop : ∀ a0, Sys2Proof.Laws.Words.Statement (.nop a0) := by intros; rfl
theorem Sys2Proof.Laws.Words.fmask : ∀ a0 a1 a2, Sys2Proof.Laws.Words.Statement (.fmask a0 a1 a2) := by intros; rfl
theorem Sys2Proof.Laws.Words.add : ∀ a0 a1 a2 a3, Sys2Proof.Laws.Words.Statement (.add a0 a1 a2 a3) := by intros; rfl
theorem Sys2Proof.Laws.Words.sub : ∀ a0 a1 a2 a3, Sys2Proof.Laws.Words.Statement (.sub a0 a1 a2 a3) := by intros; rfl
theorem Sys2Proof.Laws.Words.addc : ∀ a0 a1 a2 a3, Sys2Proof.Laws.Words.Statement (.addc a0 a1 a2 a3) := by intros; rfl
theorem Sys2Proof.Laws.Words.subb : ∀ a0 a1 a2 a3, Sys2Proof.Laws.Words.Statement (.subb a0 a1 a2 a3) := by intros; rfl
theorem Sys2Proof.Laws.Words.minI : ∀ a0 a1 a2 a3, Sys2Proof.Laws.Words.Statement (.minI a0 a1 a2 a3) := by intros; rfl
theorem Sys2Proof.Laws.Words.maxI : ∀ a0 a1 a2 a3, Sys2Proof.Laws.Words.Statement (.maxI a0 a1 a2 a3) := by intros; rfl
theorem Sys2Proof.Laws.Words.minZ : ∀ a0 a1 a2 a3, Sys2Proof.Laws.Words.Statement (.minZ a0 a1 a2 a3) := by intros; rfl
theorem Sys2Proof.Laws.Words.maxZ : ∀ a0 a1 a2 a3, Sys2Proof.Laws.Words.Statement (.maxZ a0 a1 a2 a3) := by intros; rfl
theorem Sys2Proof.Laws.Words.abs : ∀ a0 a1 a2, Sys2Proof.Laws.Words.Statement (.abs a0 a1 a2) := by intros; rfl
theorem Sys2Proof.Laws.Words.neg : ∀ a0 a1 a2, Sys2Proof.Laws.Words.Statement (.neg a0 a1 a2) := by intros; rfl
theorem Sys2Proof.Laws.Words.addsI : ∀ a0 a1 a2 a3, Sys2Proof.Laws.Words.Statement (.addsI a0 a1 a2 a3) := by intros; rfl
theorem Sys2Proof.Laws.Words.subsI : ∀ a0 a1 a2 a3, Sys2Proof.Laws.Words.Statement (.subsI a0 a1 a2 a3) := by intros; rfl
theorem Sys2Proof.Laws.Words.addsZ : ∀ a0 a1 a2 a3, Sys2Proof.Laws.Words.Statement (.addsZ a0 a1 a2 a3) := by intros; rfl
theorem Sys2Proof.Laws.Words.subsZ : ∀ a0 a1 a2 a3, Sys2Proof.Laws.Words.Statement (.subsZ a0 a1 a2 a3) := by intros; rfl
theorem Sys2Proof.Laws.Words.avgZ : ∀ a0 a1 a2 a3, Sys2Proof.Laws.Words.Statement (.avgZ a0 a1 a2 a3) := by intros; rfl
theorem Sys2Proof.Laws.Words.sadZ : ∀ a0 a1 a2 a3, Sys2Proof.Laws.Words.Statement (.sadZ a0 a1 a2 a3) := by intros; rfl
theorem Sys2Proof.Laws.Words.addImm : ∀ a0 a1 a2 a3, Sys2Proof.Laws.Words.Statement (.addImm a0 a1 a2 a3) := by intros; rfl
theorem Sys2Proof.Laws.Words.subImm : ∀ a0 a1 a2 a3, Sys2Proof.Laws.Words.Statement (.subImm a0 a1 a2 a3) := by intros; rfl
theorem Sys2Proof.Laws.Words.addcImm : ∀ a0 a1 a2 a3, Sys2Proof.Laws.Words.Statement (.addcImm a0 a1 a2 a3) := by intros; rfl
theorem Sys2Proof.Laws.Words.subbImm : ∀ a0 a1 a2 a3, Sys2Proof.Laws.Words.Statement (.subbImm a0 a1 a2 a3) := by intros; rfl
theorem Sys2Proof.Laws.Words.minIImm : ∀ a0 a1 a2 a3, Sys2Proof.Laws.Words.Statement (.minIImm a0 a1 a2 a3) := by intros; rfl
theorem Sys2Proof.Laws.Words.maxIImm : ∀ a0 a1 a2 a3, Sys2Proof.Laws.Words.Statement (.maxIImm a0 a1 a2 a3) := by intros; rfl
theorem Sys2Proof.Laws.Words.minZImm : ∀ a0 a1 a2 a3, Sys2Proof.Laws.Words.Statement (.minZImm a0 a1 a2 a3) := by intros; rfl
theorem Sys2Proof.Laws.Words.maxZImm : ∀ a0 a1 a2 a3, Sys2Proof.Laws.Words.Statement (.maxZImm a0 a1 a2 a3) := by intros; rfl
theorem Sys2Proof.Laws.Words.addsIImm : ∀ a0 a1 a2 a3, Sys2Proof.Laws.Words.Statement (.addsIImm a0 a1 a2 a3) := by intros; rfl
theorem Sys2Proof.Laws.Words.subsIImm : ∀ a0 a1 a2 a3, Sys2Proof.Laws.Words.Statement (.subsIImm a0 a1 a2 a3) := by intros; rfl
theorem Sys2Proof.Laws.Words.addsZImm : ∀ a0 a1 a2 a3, Sys2Proof.Laws.Words.Statement (.addsZImm a0 a1 a2 a3) := by intros; rfl
theorem Sys2Proof.Laws.Words.subsZImm : ∀ a0 a1 a2 a3, Sys2Proof.Laws.Words.Statement (.subsZImm a0 a1 a2 a3) := by intros; rfl
theorem Sys2Proof.Laws.Words.avgZImm : ∀ a0 a1 a2 a3, Sys2Proof.Laws.Words.Statement (.avgZImm a0 a1 a2 a3) := by intros; rfl
theorem Sys2Proof.Laws.Words.sadZImm : ∀ a0 a1 a2 a3, Sys2Proof.Laws.Words.Statement (.sadZImm a0 a1 a2 a3) := by intros; rfl
theorem Sys2Proof.Laws.Words.mul : ∀ a0 a1 a2 a3, Sys2Proof.Laws.Words.Statement (.mul a0 a1 a2 a3) := by intros; rfl
theorem Sys2Proof.Laws.Words.mulhI : ∀ a0 a1 a2 a3, Sys2Proof.Laws.Words.Statement (.mulhI a0 a1 a2 a3) := by intros; rfl
theorem Sys2Proof.Laws.Words.mulhZ : ∀ a0 a1 a2 a3, Sys2Proof.Laws.Words.Statement (.mulhZ a0 a1 a2 a3) := by intros; rfl
theorem Sys2Proof.Laws.Words.mad : ∀ a0 a1 a2 a3, Sys2Proof.Laws.Words.Statement (.mad a0 a1 a2 a3) := by intros; rfl
theorem Sys2Proof.Laws.Words.mulwI : ∀ a0 a1 a2 a3, Sys2Proof.Laws.Words.Statement (.mulwI a0 a1 a2 a3) := by intros; rfl
theorem Sys2Proof.Laws.Words.mulwZ : ∀ a0 a1 a2 a3, Sys2Proof.Laws.Words.Statement (.mulwZ a0 a1 a2 a3) := by intros; rfl
theorem Sys2Proof.Laws.Words.madwI : ∀ a0 a1 a2 a3, Sys2Proof.Laws.Words.Statement (.madwI a0 a1 a2 a3) := by intros; rfl
theorem Sys2Proof.Laws.Words.madwZ : ∀ a0 a1 a2 a3, Sys2Proof.Laws.Words.Statement (.madwZ a0 a1 a2 a3) := by intros; rfl
theorem Sys2Proof.Laws.Words.divI : ∀ a0 a1 a2 a3, Sys2Proof.Laws.Words.Statement (.divI a0 a1 a2 a3) := by intros; rfl
theorem Sys2Proof.Laws.Words.divZ : ∀ a0 a1 a2 a3, Sys2Proof.Laws.Words.Statement (.divZ a0 a1 a2 a3) := by intros; rfl
theorem Sys2Proof.Laws.Words.remI : ∀ a0 a1 a2 a3, Sys2Proof.Laws.Words.Statement (.remI a0 a1 a2 a3) := by intros; rfl
theorem Sys2Proof.Laws.Words.remZ : ∀ a0 a1 a2 a3, Sys2Proof.Laws.Words.Statement (.remZ a0 a1 a2 a3) := by intros; rfl
theorem Sys2Proof.Laws.Words.dp4I8 : ∀ a0 a1 a2 a3, Sys2Proof.Laws.Words.Statement (.dp4I8 a0 a1 a2 a3) := by intros; rfl
theorem Sys2Proof.Laws.Words.dp4Z8 : ∀ a0 a1 a2 a3, Sys2Proof.Laws.Words.Statement (.dp4Z8 a0 a1 a2 a3) := by intros; rfl
theorem Sys2Proof.Laws.Words.and : ∀ a0 a1 a2 a3, Sys2Proof.Laws.Words.Statement (.and a0 a1 a2 a3) := by intros; rfl
theorem Sys2Proof.Laws.Words.or : ∀ a0 a1 a2 a3, Sys2Proof.Laws.Words.Statement (.or a0 a1 a2 a3) := by intros; rfl
theorem Sys2Proof.Laws.Words.xor : ∀ a0 a1 a2 a3, Sys2Proof.Laws.Words.Statement (.xor a0 a1 a2 a3) := by intros; rfl
theorem Sys2Proof.Laws.Words.andn : ∀ a0 a1 a2 a3, Sys2Proof.Laws.Words.Statement (.andn a0 a1 a2 a3) := by intros; rfl
theorem Sys2Proof.Laws.Words.orn : ∀ a0 a1 a2 a3, Sys2Proof.Laws.Words.Statement (.orn a0 a1 a2 a3) := by intros; rfl
theorem Sys2Proof.Laws.Words.not : ∀ a0 a1 a2, Sys2Proof.Laws.Words.Statement (.not a0 a1 a2) := by intros; rfl
theorem Sys2Proof.Laws.Words.popc : ∀ a0 a1 a2, Sys2Proof.Laws.Words.Statement (.popc a0 a1 a2) := by intros; rfl
theorem Sys2Proof.Laws.Words.clz : ∀ a0 a1 a2, Sys2Proof.Laws.Words.Statement (.clz a0 a1 a2) := by intros; rfl
theorem Sys2Proof.Laws.Words.ctz : ∀ a0 a1 a2, Sys2Proof.Laws.Words.Statement (.ctz a0 a1 a2) := by intros; rfl
theorem Sys2Proof.Laws.Words.brev : ∀ a0 a1 a2, Sys2Proof.Laws.Words.Statement (.brev a0 a1 a2) := by intros; rfl
theorem Sys2Proof.Laws.Words.bsel : ∀ a0 a1 a2 a3, Sys2Proof.Laws.Words.Statement (.bsel a0 a1 a2 a3) := by intros; rfl
theorem Sys2Proof.Laws.Words.prmt : ∀ a0 a1 a2 a3, Sys2Proof.Laws.Words.Statement (.prmt a0 a1 a2 a3) := by intros; rfl
theorem Sys2Proof.Laws.Words.shl : ∀ a0 a1 a2 a3, Sys2Proof.Laws.Words.Statement (.shl a0 a1 a2 a3) := by intros; rfl
theorem Sys2Proof.Laws.Words.shrZ : ∀ a0 a1 a2 a3, Sys2Proof.Laws.Words.Statement (.shrZ a0 a1 a2 a3) := by intros; rfl
theorem Sys2Proof.Laws.Words.shrI : ∀ a0 a1 a2 a3, Sys2Proof.Laws.Words.Statement (.shrI a0 a1 a2 a3) := by intros; rfl
theorem Sys2Proof.Laws.Words.rol : ∀ a0 a1 a2 a3, Sys2Proof.Laws.Words.Statement (.rol a0 a1 a2 a3) := by intros; rfl
theorem Sys2Proof.Laws.Words.ror : ∀ a0 a1 a2 a3, Sys2Proof.Laws.Words.Statement (.ror a0 a1 a2 a3) := by intros; rfl
theorem Sys2Proof.Laws.Words.shlf : ∀ a0 a1 a2 a3, Sys2Proof.Laws.Words.Statement (.shlf a0 a1 a2 a3) := by intros; rfl
theorem Sys2Proof.Laws.Words.shrf : ∀ a0 a1 a2 a3, Sys2Proof.Laws.Words.Statement (.shrf a0 a1 a2 a3) := by intros; rfl
theorem Sys2Proof.Laws.Words.bfxZ : ∀ a0 a1 a2 a3, Sys2Proof.Laws.Words.Statement (.bfxZ a0 a1 a2 a3) := by intros; rfl
theorem Sys2Proof.Laws.Words.bfxI : ∀ a0 a1 a2 a3, Sys2Proof.Laws.Words.Statement (.bfxI a0 a1 a2 a3) := by intros; rfl
theorem Sys2Proof.Laws.Words.bfi : ∀ a0 a1 a2 a3, Sys2Proof.Laws.Words.Statement (.bfi a0 a1 a2 a3) := by intros; rfl
theorem Sys2Proof.Laws.Words.shlImm : ∀ a0 a1 a2 a3, Sys2Proof.Laws.Words.Statement (.shlImm a0 a1 a2 a3) := by intros; rfl
theorem Sys2Proof.Laws.Words.shrZImm : ∀ a0 a1 a2 a3, Sys2Proof.Laws.Words.Statement (.shrZImm a0 a1 a2 a3) := by intros; rfl
theorem Sys2Proof.Laws.Words.shrIImm : ∀ a0 a1 a2 a3, Sys2Proof.Laws.Words.Statement (.shrIImm a0 a1 a2 a3) := by intros; rfl
theorem Sys2Proof.Laws.Words.rolImm : ∀ a0 a1 a2 a3, Sys2Proof.Laws.Words.Statement (.rolImm a0 a1 a2 a3) := by intros; rfl
theorem Sys2Proof.Laws.Words.rorImm : ∀ a0 a1 a2 a3, Sys2Proof.Laws.Words.Statement (.rorImm a0 a1 a2 a3) := by intros; rfl
theorem Sys2Proof.Laws.Words.shlfImm : ∀ a0 a1 a2 a3, Sys2Proof.Laws.Words.Statement (.shlfImm a0 a1 a2 a3) := by intros; rfl
theorem Sys2Proof.Laws.Words.shrfImm : ∀ a0 a1 a2 a3, Sys2Proof.Laws.Words.Statement (.shrfImm a0 a1 a2 a3) := by intros; rfl
theorem Sys2Proof.Laws.Words.cmpEq : ∀ a0 a1 a2 a3 a4, Sys2Proof.Laws.Words.Statement (.cmpEq a0 a1 a2 a3 a4) := by intros; rfl
theorem Sys2Proof.Laws.Words.cmpNe : ∀ a0 a1 a2 a3 a4, Sys2Proof.Laws.Words.Statement (.cmpNe a0 a1 a2 a3 a4) := by intros; rfl
theorem Sys2Proof.Laws.Words.cmpLtI : ∀ a0 a1 a2 a3 a4, Sys2Proof.Laws.Words.Statement (.cmpLtI a0 a1 a2 a3 a4) := by intros; rfl
theorem Sys2Proof.Laws.Words.cmpLeI : ∀ a0 a1 a2 a3 a4, Sys2Proof.Laws.Words.Statement (.cmpLeI a0 a1 a2 a3 a4) := by intros; rfl
theorem Sys2Proof.Laws.Words.cmpGtI : ∀ a0 a1 a2 a3 a4, Sys2Proof.Laws.Words.Statement (.cmpGtI a0 a1 a2 a3 a4) := by intros; rfl
theorem Sys2Proof.Laws.Words.cmpGeI : ∀ a0 a1 a2 a3 a4, Sys2Proof.Laws.Words.Statement (.cmpGeI a0 a1 a2 a3 a4) := by intros; rfl
theorem Sys2Proof.Laws.Words.cmpLtZ : ∀ a0 a1 a2 a3 a4, Sys2Proof.Laws.Words.Statement (.cmpLtZ a0 a1 a2 a3 a4) := by intros; rfl
theorem Sys2Proof.Laws.Words.cmpLeZ : ∀ a0 a1 a2 a3 a4, Sys2Proof.Laws.Words.Statement (.cmpLeZ a0 a1 a2 a3 a4) := by intros; rfl
theorem Sys2Proof.Laws.Words.cmpGtZ : ∀ a0 a1 a2 a3 a4, Sys2Proof.Laws.Words.Statement (.cmpGtZ a0 a1 a2 a3 a4) := by intros; rfl
theorem Sys2Proof.Laws.Words.cmpGeZ : ∀ a0 a1 a2 a3 a4, Sys2Proof.Laws.Words.Statement (.cmpGeZ a0 a1 a2 a3 a4) := by intros; rfl
theorem Sys2Proof.Laws.Words.tst : ∀ a0 a1 a2 a3 a4, Sys2Proof.Laws.Words.Statement (.tst a0 a1 a2 a3 a4) := by intros; rfl
theorem Sys2Proof.Laws.Words.tstn : ∀ a0 a1 a2 a3 a4, Sys2Proof.Laws.Words.Statement (.tstn a0 a1 a2 a3 a4) := by intros; rfl
theorem Sys2Proof.Laws.Words.cmpEqImm : ∀ a0 a1 a2 a3 a4, Sys2Proof.Laws.Words.Statement (.cmpEqImm a0 a1 a2 a3 a4) := by intros; rfl
theorem Sys2Proof.Laws.Words.cmpNeImm : ∀ a0 a1 a2 a3 a4, Sys2Proof.Laws.Words.Statement (.cmpNeImm a0 a1 a2 a3 a4) := by intros; rfl
theorem Sys2Proof.Laws.Words.cmpLtIImm : ∀ a0 a1 a2 a3 a4, Sys2Proof.Laws.Words.Statement (.cmpLtIImm a0 a1 a2 a3 a4) := by intros; rfl
theorem Sys2Proof.Laws.Words.cmpLeIImm : ∀ a0 a1 a2 a3 a4, Sys2Proof.Laws.Words.Statement (.cmpLeIImm a0 a1 a2 a3 a4) := by intros; rfl
theorem Sys2Proof.Laws.Words.cmpGtIImm : ∀ a0 a1 a2 a3 a4, Sys2Proof.Laws.Words.Statement (.cmpGtIImm a0 a1 a2 a3 a4) := by intros; rfl
theorem Sys2Proof.Laws.Words.cmpGeIImm : ∀ a0 a1 a2 a3 a4, Sys2Proof.Laws.Words.Statement (.cmpGeIImm a0 a1 a2 a3 a4) := by intros; rfl
theorem Sys2Proof.Laws.Words.cmpLtZImm : ∀ a0 a1 a2 a3 a4, Sys2Proof.Laws.Words.Statement (.cmpLtZImm a0 a1 a2 a3 a4) := by intros; rfl
theorem Sys2Proof.Laws.Words.cmpLeZImm : ∀ a0 a1 a2 a3 a4, Sys2Proof.Laws.Words.Statement (.cmpLeZImm a0 a1 a2 a3 a4) := by intros; rfl
theorem Sys2Proof.Laws.Words.cmpGtZImm : ∀ a0 a1 a2 a3 a4, Sys2Proof.Laws.Words.Statement (.cmpGtZImm a0 a1 a2 a3 a4) := by intros; rfl
theorem Sys2Proof.Laws.Words.cmpGeZImm : ∀ a0 a1 a2 a3 a4, Sys2Proof.Laws.Words.Statement (.cmpGeZImm a0 a1 a2 a3 a4) := by intros; rfl
theorem Sys2Proof.Laws.Words.tstImm : ∀ a0 a1 a2 a3 a4, Sys2Proof.Laws.Words.Statement (.tstImm a0 a1 a2 a3 a4) := by intros; rfl
theorem Sys2Proof.Laws.Words.tstnImm : ∀ a0 a1 a2 a3 a4, Sys2Proof.Laws.Words.Statement (.tstnImm a0 a1 a2 a3 a4) := by intros; rfl
theorem Sys2Proof.Laws.Words.add64 : ∀ a0 a1 a2 a3, Sys2Proof.Laws.Words.Statement (.add64 a0 a1 a2 a3) := by intros; rfl
theorem Sys2Proof.Laws.Words.sub64 : ∀ a0 a1 a2 a3, Sys2Proof.Laws.Words.Statement (.sub64 a0 a1 a2 a3) := by intros; rfl
theorem Sys2Proof.Laws.Words.mul64 : ∀ a0 a1 a2 a3, Sys2Proof.Laws.Words.Statement (.mul64 a0 a1 a2 a3) := by intros; rfl
theorem Sys2Proof.Laws.Words.shl64 : ∀ a0 a1 a2 a3, Sys2Proof.Laws.Words.Statement (.shl64 a0 a1 a2 a3) := by intros; rfl
theorem Sys2Proof.Laws.Words.shrZ64 : ∀ a0 a1 a2 a3, Sys2Proof.Laws.Words.Statement (.shrZ64 a0 a1 a2 a3) := by intros; rfl
theorem Sys2Proof.Laws.Words.shrI64 : ∀ a0 a1 a2 a3, Sys2Proof.Laws.Words.Statement (.shrI64 a0 a1 a2 a3) := by intros; rfl
theorem Sys2Proof.Laws.Words.minI64 : ∀ a0 a1 a2 a3, Sys2Proof.Laws.Words.Statement (.minI64 a0 a1 a2 a3) := by intros; rfl
theorem Sys2Proof.Laws.Words.maxI64 : ∀ a0 a1 a2 a3, Sys2Proof.Laws.Words.Statement (.maxI64 a0 a1 a2 a3) := by intros; rfl
theorem Sys2Proof.Laws.Words.minZ64 : ∀ a0 a1 a2 a3, Sys2Proof.Laws.Words.Statement (.minZ64 a0 a1 a2 a3) := by intros; rfl
theorem Sys2Proof.Laws.Words.maxZ64 : ∀ a0 a1 a2 a3, Sys2Proof.Laws.Words.Statement (.maxZ64 a0 a1 a2 a3) := by intros; rfl
theorem Sys2Proof.Laws.Words.cmpEq64 : ∀ a0 a1 a2 a3 a4, Sys2Proof.Laws.Words.Statement (.cmpEq64 a0 a1 a2 a3 a4) := by intros; rfl
theorem Sys2Proof.Laws.Words.cmpLtI64 : ∀ a0 a1 a2 a3 a4, Sys2Proof.Laws.Words.Statement (.cmpLtI64 a0 a1 a2 a3 a4) := by intros; rfl
theorem Sys2Proof.Laws.Words.cmpLtZ64 : ∀ a0 a1 a2 a3 a4, Sys2Proof.Laws.Words.Statement (.cmpLtZ64 a0 a1 a2 a3 a4) := by intros; rfl
theorem Sys2Proof.Laws.Words.movi : ∀ a0 a1 a2, Sys2Proof.Laws.Words.Statement (.movi a0 a1 a2) := by intros; rfl
theorem Sys2Proof.Laws.Words.movhi : ∀ a0 a1 a2, Sys2Proof.Laws.Words.Statement (.movhi a0 a1 a2) := by intros; rfl
theorem Sys2Proof.Laws.Words.addi : ∀ a0 a1 a2, Sys2Proof.Laws.Words.Statement (.addi a0 a1 a2) := by intros; rfl
theorem Sys2Proof.Laws.Words.li : ∀ a0 a1 a2 a3, Sys2Proof.Laws.Words.Statement (.li a0 a1 a2 a3) := by intros; rfl
theorem Sys2Proof.Laws.Words.addi32 : ∀ a0 a1 a2 a3 a4, Sys2Proof.Laws.Words.Statement (.addi32 a0 a1 a2 a3 a4) := by intros; rfl
theorem Sys2Proof.Laws.Words.andi32 : ∀ a0 a1 a2 a3 a4, Sys2Proof.Laws.Words.Statement (.andi32 a0 a1 a2 a3 a4) := by intros; rfl
theorem Sys2Proof.Laws.Words.ori32 : ∀ a0 a1 a2 a3 a4, Sys2Proof.Laws.Words.Statement (.ori32 a0 a1 a2 a3 a4) := by intros; rfl
theorem Sys2Proof.Laws.Words.xori32 : ∀ a0 a1 a2 a3 a4, Sys2Proof.Laws.Words.Statement (.xori32 a0 a1 a2 a3 a4) := by intros; rfl
theorem Sys2Proof.Laws.Words.mov : ∀ a0 a1 a2, Sys2Proof.Laws.Words.Statement (.mov a0 a1 a2) := by intros; rfl
theorem Sys2Proof.Laws.Words.sel : ∀ a0 a1 a2 a3, Sys2Proof.Laws.Words.Statement (.sel a0 a1 a2 a3) := by intros; rfl
theorem Sys2Proof.Laws.Words.shflIdx : ∀ a0 a1 a2 a3, Sys2Proof.Laws.Words.Statement (.shflIdx a0 a1 a2 a3) := by intros; rfl
theorem Sys2Proof.Laws.Words.shflUp : ∀ a0 a1 a2 a3, Sys2Proof.Laws.Words.Statement (.shflUp a0 a1 a2 a3) := by intros; rfl
theorem Sys2Proof.Laws.Words.shflDn : ∀ a0 a1 a2 a3, Sys2Proof.Laws.Words.Statement (.shflDn a0 a1 a2 a3) := by intros; rfl
theorem Sys2Proof.Laws.Words.shflXor : ∀ a0 a1 a2 a3, Sys2Proof.Laws.Words.Statement (.shflXor a0 a1 a2 a3) := by intros; rfl
theorem Sys2Proof.Laws.Words.bcast : ∀ a0 a1 a2 a3, Sys2Proof.Laws.Words.Statement (.bcast a0 a1 a2 a3) := by intros; rfl
theorem Sys2Proof.Laws.Words.ballot : ∀ a0 a1 a2, Sys2Proof.Laws.Words.Statement (.ballot a0 a1 a2) := by intros; rfl
theorem Sys2Proof.Laws.Words.matchLanes : ∀ a0 a1 a2, Sys2Proof.Laws.Words.Statement (.matchLanes a0 a1 a2) := by intros; rfl
theorem Sys2Proof.Laws.Words.lscanAdd : ∀ a0 a1 a2, Sys2Proof.Laws.Words.Statement (.lscanAdd a0 a1 a2) := by intros; rfl
theorem Sys2Proof.Laws.Words.lredAdd : ∀ a0 a1 a2, Sys2Proof.Laws.Words.Statement (.lredAdd a0 a1 a2) := by intros; rfl
theorem Sys2Proof.Laws.Words.lredMinI : ∀ a0 a1 a2, Sys2Proof.Laws.Words.Statement (.lredMinI a0 a1 a2) := by intros; rfl
theorem Sys2Proof.Laws.Words.lredMaxI : ∀ a0 a1 a2, Sys2Proof.Laws.Words.Statement (.lredMaxI a0 a1 a2) := by intros; rfl
theorem Sys2Proof.Laws.Words.lredMinZ : ∀ a0 a1 a2, Sys2Proof.Laws.Words.Statement (.lredMinZ a0 a1 a2) := by intros; rfl
theorem Sys2Proof.Laws.Words.lredMaxZ : ∀ a0 a1 a2, Sys2Proof.Laws.Words.Statement (.lredMaxZ a0 a1 a2) := by intros; rfl
theorem Sys2Proof.Laws.Words.lredAddF32 : ∀ a0 a1 a2, Sys2Proof.Laws.Words.Statement (.lredAddF32 a0 a1 a2) := by intros; rfl
theorem Sys2Proof.Laws.Words.pand : ∀ a0 a1 a2 a3, Sys2Proof.Laws.Words.Statement (.pand a0 a1 a2 a3) := by intros; rfl
theorem Sys2Proof.Laws.Words.por : ∀ a0 a1 a2 a3, Sys2Proof.Laws.Words.Statement (.por a0 a1 a2 a3) := by intros; rfl
theorem Sys2Proof.Laws.Words.pxor : ∀ a0 a1 a2 a3, Sys2Proof.Laws.Words.Statement (.pxor a0 a1 a2 a3) := by intros; rfl
theorem Sys2Proof.Laws.Words.pnot : ∀ a0 a1 a2, Sys2Proof.Laws.Words.Statement (.pnot a0 a1 a2) := by intros; rfl
theorem Sys2Proof.Laws.Words.pmov : ∀ a0 a1 a2, Sys2Proof.Laws.Words.Statement (.pmov a0 a1 a2) := by intros; rfl
theorem Sys2Proof.Laws.Words.p2v : ∀ a0 a1 a2, Sys2Proof.Laws.Words.Statement (.p2v a0 a1 a2) := by intros; rfl
theorem Sys2Proof.Laws.Words.v2p : ∀ a0 a1 a2, Sys2Proof.Laws.Words.Statement (.v2p a0 a1 a2) := by intros; rfl
theorem Sys2Proof.Laws.Words.pany : ∀ a0 a1 a2, Sys2Proof.Laws.Words.Statement (.pany a0 a1 a2) := by intros; rfl
theorem Sys2Proof.Laws.Words.pall : ∀ a0 a1 a2, Sys2Proof.Laws.Words.Statement (.pall a0 a1 a2) := by intros; rfl
theorem Sys2Proof.Laws.Words.lea : ∀ a0 a1 a2 a3 a4, Sys2Proof.Laws.Words.Statement (.lea a0 a1 a2 a3 a4) := by intros; rfl
theorem Sys2Proof.Laws.Words.tagq : ∀ a0 a1 a2, Sys2Proof.Laws.Words.Statement (.tagq a0 a1 a2) := by intros; rfl
theorem Sys2Proof.Laws.Words.srd : ∀ a0 a1 a2, Sys2Proof.Laws.Words.Statement (.srd a0 a1 a2) := by intros; rfl
theorem Sys2Proof.Laws.Words.swr : ∀ a0 a1 a2, Sys2Proof.Laws.Words.Statement (.swr a0 a1 a2) := by intros; rfl
theorem Sys2Proof.Laws.Words.fadd : ∀ a0 a1 a2 a3, Sys2Proof.Laws.Words.Statement (.fadd a0 a1 a2 a3) := by intros; rfl
theorem Sys2Proof.Laws.Words.fsub : ∀ a0 a1 a2 a3, Sys2Proof.Laws.Words.Statement (.fsub a0 a1 a2 a3) := by intros; rfl
theorem Sys2Proof.Laws.Words.fmul : ∀ a0 a1 a2 a3, Sys2Proof.Laws.Words.Statement (.fmul a0 a1 a2 a3) := by intros; rfl
theorem Sys2Proof.Laws.Words.fma : ∀ a0 a1 a2 a3, Sys2Proof.Laws.Words.Statement (.fma a0 a1 a2 a3) := by intros; rfl
theorem Sys2Proof.Laws.Words.fms : ∀ a0 a1 a2 a3, Sys2Proof.Laws.Words.Statement (.fms a0 a1 a2 a3) := by intros; rfl
theorem Sys2Proof.Laws.Words.fnma : ∀ a0 a1 a2 a3, Sys2Proof.Laws.Words.Statement (.fnma a0 a1 a2 a3) := by intros; rfl
theorem Sys2Proof.Laws.Words.fmin : ∀ a0 a1 a2 a3, Sys2Proof.Laws.Words.Statement (.fmin a0 a1 a2 a3) := by intros; rfl
theorem Sys2Proof.Laws.Words.fmax : ∀ a0 a1 a2 a3, Sys2Proof.Laws.Words.Statement (.fmax a0 a1 a2 a3) := by intros; rfl
theorem Sys2Proof.Laws.Words.fminn : ∀ a0 a1 a2 a3, Sys2Proof.Laws.Words.Statement (.fminn a0 a1 a2 a3) := by intros; rfl
theorem Sys2Proof.Laws.Words.fmaxn : ∀ a0 a1 a2 a3, Sys2Proof.Laws.Words.Statement (.fmaxn a0 a1 a2 a3) := by intros; rfl
theorem Sys2Proof.Laws.Words.fabs : ∀ a0 a1 a2, Sys2Proof.Laws.Words.Statement (.fabs a0 a1 a2) := by intros; rfl
theorem Sys2Proof.Laws.Words.fneg : ∀ a0 a1 a2, Sys2Proof.Laws.Words.Statement (.fneg a0 a1 a2) := by intros; rfl
theorem Sys2Proof.Laws.Words.fcpsgn : ∀ a0 a1 a2 a3, Sys2Proof.Laws.Words.Statement (.fcpsgn a0 a1 a2 a3) := by intros; rfl
theorem Sys2Proof.Laws.Words.frint : ∀ a0 a1 a2 a3, Sys2Proof.Laws.Words.Statement (.frint a0 a1 a2 a3) := by intros; rfl
theorem Sys2Proof.Laws.Words.ffrac : ∀ a0 a1 a2, Sys2Proof.Laws.Words.Statement (.ffrac a0 a1 a2) := by intros; rfl
theorem Sys2Proof.Laws.Words.fsat : ∀ a0 a1 a2, Sys2Proof.Laws.Words.Statement (.fsat a0 a1 a2) := by intros; rfl
theorem Sys2Proof.Laws.Words.fcmpEq : ∀ a0 a1 a2 a3 a4, Sys2Proof.Laws.Words.Statement (.fcmpEq a0 a1 a2 a3 a4) := by intros; rfl
theorem Sys2Proof.Laws.Words.fcmpNe : ∀ a0 a1 a2 a3 a4, Sys2Proof.Laws.Words.Statement (.fcmpNe a0 a1 a2 a3 a4) := by intros; rfl
theorem Sys2Proof.Laws.Words.fcmpLt : ∀ a0 a1 a2 a3 a4, Sys2Proof.Laws.Words.Statement (.fcmpLt a0 a1 a2 a3 a4) := by intros; rfl
theorem Sys2Proof.Laws.Words.fcmpLe : ∀ a0 a1 a2 a3 a4, Sys2Proof.Laws.Words.Statement (.fcmpLe a0 a1 a2 a3 a4) := by intros; rfl
theorem Sys2Proof.Laws.Words.fcmpGt : ∀ a0 a1 a2 a3 a4, Sys2Proof.Laws.Words.Statement (.fcmpGt a0 a1 a2 a3 a4) := by intros; rfl
theorem Sys2Proof.Laws.Words.fcmpGe : ∀ a0 a1 a2 a3 a4, Sys2Proof.Laws.Words.Statement (.fcmpGe a0 a1 a2 a3 a4) := by intros; rfl
theorem Sys2Proof.Laws.Words.fcmpUn : ∀ a0 a1 a2 a3 a4, Sys2Proof.Laws.Words.Statement (.fcmpUn a0 a1 a2 a3 a4) := by intros; rfl
theorem Sys2Proof.Laws.Words.fcmpOr : ∀ a0 a1 a2 a3 a4, Sys2Proof.Laws.Words.Statement (.fcmpOr a0 a1 a2 a3 a4) := by intros; rfl
theorem Sys2Proof.Laws.Words.fclass : ∀ a0 a1 a2, Sys2Proof.Laws.Words.Statement (.fclass a0 a1 a2) := by intros; rfl
theorem Sys2Proof.Laws.Words.rcp : ∀ a0 a1 a2, Sys2Proof.Laws.Words.Statement (.rcp a0 a1 a2) := by intros; rfl
theorem Sys2Proof.Laws.Words.rsqrt : ∀ a0 a1 a2, Sys2Proof.Laws.Words.Statement (.rsqrt a0 a1 a2) := by intros; rfl
theorem Sys2Proof.Laws.Words.sqrt : ∀ a0 a1 a2, Sys2Proof.Laws.Words.Statement (.sqrt a0 a1 a2) := by intros; rfl
theorem Sys2Proof.Laws.Words.exp2 : ∀ a0 a1 a2, Sys2Proof.Laws.Words.Statement (.exp2 a0 a1 a2) := by intros; rfl
theorem Sys2Proof.Laws.Words.log2 : ∀ a0 a1 a2, Sys2Proof.Laws.Words.Statement (.log2 a0 a1 a2) := by intros; rfl
theorem Sys2Proof.Laws.Words.sinpi : ∀ a0 a1 a2, Sys2Proof.Laws.Words.Statement (.sinpi a0 a1 a2) := by intros; rfl
theorem Sys2Proof.Laws.Words.cospi : ∀ a0 a1 a2, Sys2Proof.Laws.Words.Statement (.cospi a0 a1 a2) := by intros; rfl
theorem Sys2Proof.Laws.Words.tanh : ∀ a0 a1 a2, Sys2Proof.Laws.Words.Statement (.tanh a0 a1 a2) := by intros; rfl
theorem Sys2Proof.Laws.Words.sigm : ∀ a0 a1 a2, Sys2Proof.Laws.Words.Statement (.sigm a0 a1 a2) := by intros; rfl
theorem Sys2Proof.Laws.Words.hadd2F16 : ∀ a0 a1 a2 a3, Sys2Proof.Laws.Words.Statement (.hadd2F16 a0 a1 a2 a3) := by intros; rfl
theorem Sys2Proof.Laws.Words.hsub2F16 : ∀ a0 a1 a2 a3, Sys2Proof.Laws.Words.Statement (.hsub2F16 a0 a1 a2 a3) := by intros; rfl
theorem Sys2Proof.Laws.Words.hmul2F16 : ∀ a0 a1 a2 a3, Sys2Proof.Laws.Words.Statement (.hmul2F16 a0 a1 a2 a3) := by intros; rfl
theorem Sys2Proof.Laws.Words.hfma2F16 : ∀ a0 a1 a2 a3, Sys2Proof.Laws.Words.Statement (.hfma2F16 a0 a1 a2 a3) := by intros; rfl
theorem Sys2Proof.Laws.Words.hmin2F16 : ∀ a0 a1 a2 a3, Sys2Proof.Laws.Words.Statement (.hmin2F16 a0 a1 a2 a3) := by intros; rfl
theorem Sys2Proof.Laws.Words.hmax2F16 : ∀ a0 a1 a2 a3, Sys2Proof.Laws.Words.Statement (.hmax2F16 a0 a1 a2 a3) := by intros; rfl
theorem Sys2Proof.Laws.Words.hadd2Bf16 : ∀ a0 a1 a2 a3, Sys2Proof.Laws.Words.Statement (.hadd2Bf16 a0 a1 a2 a3) := by intros; rfl
theorem Sys2Proof.Laws.Words.hsub2Bf16 : ∀ a0 a1 a2 a3, Sys2Proof.Laws.Words.Statement (.hsub2Bf16 a0 a1 a2 a3) := by intros; rfl
theorem Sys2Proof.Laws.Words.hmul2Bf16 : ∀ a0 a1 a2 a3, Sys2Proof.Laws.Words.Statement (.hmul2Bf16 a0 a1 a2 a3) := by intros; rfl
theorem Sys2Proof.Laws.Words.hfma2Bf16 : ∀ a0 a1 a2 a3, Sys2Proof.Laws.Words.Statement (.hfma2Bf16 a0 a1 a2 a3) := by intros; rfl
theorem Sys2Proof.Laws.Words.hmin2Bf16 : ∀ a0 a1 a2 a3, Sys2Proof.Laws.Words.Statement (.hmin2Bf16 a0 a1 a2 a3) := by intros; rfl
theorem Sys2Proof.Laws.Words.hmax2Bf16 : ∀ a0 a1 a2 a3, Sys2Proof.Laws.Words.Statement (.hmax2Bf16 a0 a1 a2 a3) := by intros; rfl
theorem Sys2Proof.Laws.Words.cvt : ∀ a0 a1 a2 a3 a4 a5, Sys2Proof.Laws.Words.Statement (.cvt a0 a1 a2 a3 a4 a5) := by intros; rfl
theorem Sys2Proof.Laws.Words.fmtSet : ∀ a0 a1 a2, Sys2Proof.Laws.Words.Statement (.fmtSet a0 a1 a2) := by intros; rfl
theorem Sys2Proof.Laws.Words.fmtGet : ∀ a0 a1 a2, Sys2Proof.Laws.Words.Statement (.fmtGet a0 a1 a2) := by intros; rfl
theorem Sys2Proof.Laws.Words.sbexp : ∀ a0 a1 a2, Sys2Proof.Laws.Words.Statement (.sbexp a0 a1 a2) := by intros; rfl
theorem Sys2Proof.Laws.Words.sbq : ∀ a0 a1 a2 a3 a4, Sys2Proof.Laws.Words.Statement (.sbq a0 a1 a2 a3 a4) := by intros; rfl
theorem Sys2Proof.Laws.Words.sbdq : ∀ a0 a1 a2 a3 a4, Sys2Proof.Laws.Words.Statement (.sbdq a0 a1 a2 a3 a4) := by intros; rfl
theorem Sys2Proof.Laws.Words.mxexp : ∀ a0 a1 a2 a3, Sys2Proof.Laws.Words.Statement (.mxexp a0 a1 a2 a3) := by intros; rfl
theorem Sys2Proof.Laws.Words.mxq : ∀ a0 a1 a2 a3, Sys2Proof.Laws.Words.Statement (.mxq a0 a1 a2 a3) := by intros; rfl
theorem Sys2Proof.Laws.Words.mxdq : ∀ a0 a1 a2 a3, Sys2Proof.Laws.Words.Statement (.mxdq a0 a1 a2 a3) := by intros; rfl
theorem Sys2Proof.Laws.Words.pack : ∀ a0 a1 a2 a3, Sys2Proof.Laws.Words.Statement (.pack a0 a1 a2 a3) := by intros; rfl
theorem Sys2Proof.Laws.Words.unpack : ∀ a0 a1 a2 a3, Sys2Proof.Laws.Words.Statement (.unpack a0 a1 a2 a3) := by intros; rfl
theorem Sys2Proof.Laws.Words.uexp : ∀ a0 a1 a2 a3, Sys2Proof.Laws.Words.Statement (.uexp a0 a1 a2 a3) := by intros; rfl
theorem Sys2Proof.Laws.Words.tshape : ∀ a0 a1 a2, Sys2Proof.Laws.Words.Statement (.tshape a0 a1 a2) := by intros; rfl
theorem Sys2Proof.Laws.Words.tzero : ∀ a0 a1, Sys2Proof.Laws.Words.Statement (.tzero a0 a1) := by intros; rfl
theorem Sys2Proof.Laws.Words.tinfo : ∀ a0 a1 a2, Sys2Proof.Laws.Words.Statement (.tinfo a0 a1 a2) := by intros; rfl
theorem Sys2Proof.Laws.Words.tfill : ∀ a0 a1 a2, Sys2Proof.Laws.Words.Statement (.tfill a0 a1 a2) := by intros; rfl
theorem Sys2Proof.Laws.Words.tfree : ∀ a0 a1, Sys2Proof.Laws.Words.Statement (.tfree a0 a1) := by intros; rfl
theorem Sys2Proof.Laws.Words.tmask : ∀ a0 a1 a2, Sys2Proof.Laws.Words.Statement (.tmask a0 a1 a2) := by intros; rfl
theorem Sys2Proof.Laws.Words.tmaskClr : ∀ a0 a1, Sys2Proof.Laws.Words.Statement (.tmaskClr a0 a1) := by intros; rfl
theorem Sys2Proof.Laws.Words.mma : ∀ a0 a1 a2 a3 a4 a5, Sys2Proof.Laws.Words.Statement (.mma a0 a1 a2 a3 a4 a5) := by intros; rfl
theorem Sys2Proof.Laws.Words.mmaZ : ∀ a0 a1 a2 a3 a4 a5, Sys2Proof.Laws.Words.Statement (.mmaZ a0 a1 a2 a3 a4 a5) := by intros; rfl
theorem Sys2Proof.Laws.Words.mmi : ∀ a0 a1 a2 a3 a4 a5, Sys2Proof.Laws.Words.Statement (.mmi a0 a1 a2 a3 a4 a5) := by intros; rfl
theorem Sys2Proof.Laws.Words.mmiZ : ∀ a0 a1 a2 a3 a4 a5, Sys2Proof.Laws.Words.Statement (.mmiZ a0 a1 a2 a3 a4 a5) := by intros; rfl
theorem Sys2Proof.Laws.Words.mmas : ∀ a0 a1 a2 a3 a4 a5 a6 a7, Sys2Proof.Laws.Words.Statement (.mmas a0 a1 a2 a3 a4 a5 a6 a7) := by intros; rfl
theorem Sys2Proof.Laws.Words.mmasZ : ∀ a0 a1 a2 a3 a4 a5 a6 a7, Sys2Proof.Laws.Words.Statement (.mmasZ a0 a1 a2 a3 a4 a5 a6 a7) := by intros; rfl
theorem Sys2Proof.Laws.Words.mmis : ∀ a0 a1 a2 a3 a4 a5 a6 a7, Sys2Proof.Laws.Words.Statement (.mmis a0 a1 a2 a3 a4 a5 a6 a7) := by intros; rfl
theorem Sys2Proof.Laws.Words.mmisZ : ∀ a0 a1 a2 a3 a4 a5 a6 a7, Sys2Proof.Laws.Words.Statement (.mmisZ a0 a1 a2 a3 a4 a5 a6 a7) := by intros; rfl
theorem Sys2Proof.Laws.Words.trow : ∀ a0 a1 a2 a3, Sys2Proof.Laws.Words.Statement (.trow a0 a1 a2 a3) := by intros; rfl
theorem Sys2Proof.Laws.Words.twrow : ∀ a0 a1 a2 a3, Sys2Proof.Laws.Words.Statement (.twrow a0 a1 a2 a3) := by intros; rfl
theorem Sys2Proof.Laws.Words.tcol : ∀ a0 a1 a2 a3, Sys2Proof.Laws.Words.Statement (.tcol a0 a1 a2 a3) := by intros; rfl
theorem Sys2Proof.Laws.Words.twcol : ∀ a0 a1 a2 a3, Sys2Proof.Laws.Words.Statement (.twcol a0 a1 a2 a3) := by intros; rfl
theorem Sys2Proof.Laws.Words.tlds : ∀ a0 a1 a2 a3, Sys2Proof.Laws.Words.Statement (.tlds a0 a1 a2 a3) := by intros; rfl
theorem Sys2Proof.Laws.Words.tsts : ∀ a0 a1 a2 a3, Sys2Proof.Laws.Words.Statement (.tsts a0 a1 a2 a3) := by intros; rfl
theorem Sys2Proof.Laws.Words.tldg : ∀ a0 a1 a2 a3, Sys2Proof.Laws.Words.Statement (.tldg a0 a1 a2 a3) := by intros; rfl
theorem Sys2Proof.Laws.Words.tstg : ∀ a0 a1 a2 a3, Sys2Proof.Laws.Words.Statement (.tstg a0 a1 a2 a3) := by intros; rfl
theorem Sys2Proof.Laws.Words.mbclose : ∀ a0 a1, Sys2Proof.Laws.Words.Statement (.mbclose a0 a1) := by intros; rfl
theorem Sys2Proof.Laws.Words.mbstat : ∀ a0 a1, Sys2Proof.Laws.Words.Statement (.mbstat a0 a1) := by intros; rfl
theorem Sys2Proof.Laws.Words.ldI8 : ∀ a0 a1 a2 a3, Sys2Proof.Laws.Words.Statement (.ldI8 a0 a1 a2 a3) := by intros; rfl
theorem Sys2Proof.Laws.Words.ldZ8 : ∀ a0 a1 a2 a3, Sys2Proof.Laws.Words.Statement (.ldZ8 a0 a1 a2 a3) := by intros; rfl
theorem Sys2Proof.Laws.Words.ldI16 : ∀ a0 a1 a2 a3, Sys2Proof.Laws.Words.Statement (.ldI16 a0 a1 a2 a3) := by intros; rfl
theorem Sys2Proof.Laws.Words.ldZ16 : ∀ a0 a1 a2 a3, Sys2Proof.Laws.Words.Statement (.ldZ16 a0 a1 a2 a3) := by intros; rfl
theorem Sys2Proof.Laws.Words.ld32 : ∀ a0 a1 a2 a3, Sys2Proof.Laws.Words.Statement (.ld32 a0 a1 a2 a3) := by intros; rfl
theorem Sys2Proof.Laws.Words.ld64 : ∀ a0 a1 a2 a3, Sys2Proof.Laws.Words.Statement (.ld64 a0 a1 a2 a3) := by intros; rfl
theorem Sys2Proof.Laws.Words.ld128 : ∀ a0 a1 a2 a3, Sys2Proof.Laws.Words.Statement (.ld128 a0 a1 a2 a3) := by intros; rfl
theorem Sys2Proof.Laws.Words.ldB : ∀ a0 a1 a2 a3, Sys2Proof.Laws.Words.Statement (.ldB a0 a1 a2 a3) := by intros; rfl
theorem Sys2Proof.Laws.Words.st8 : ∀ a0 a1 a2 a3, Sys2Proof.Laws.Words.Statement (.st8 a0 a1 a2 a3) := by intros; rfl
theorem Sys2Proof.Laws.Words.st16 : ∀ a0 a1 a2 a3, Sys2Proof.Laws.Words.Statement (.st16 a0 a1 a2 a3) := by intros; rfl
theorem Sys2Proof.Laws.Words.st32 : ∀ a0 a1 a2 a3, Sys2Proof.Laws.Words.Statement (.st32 a0 a1 a2 a3) := by intros; rfl
theorem Sys2Proof.Laws.Words.st64 : ∀ a0 a1 a2 a3, Sys2Proof.Laws.Words.Statement (.st64 a0 a1 a2 a3) := by intros; rfl
theorem Sys2Proof.Laws.Words.st128 : ∀ a0 a1 a2 a3, Sys2Proof.Laws.Words.Statement (.st128 a0 a1 a2 a3) := by intros; rfl
theorem Sys2Proof.Laws.Words.stN4 : ∀ a0 a1 a2 a3, Sys2Proof.Laws.Words.Statement (.stN4 a0 a1 a2 a3) := by intros; rfl
theorem Sys2Proof.Laws.Words.stN2 : ∀ a0 a1 a2 a3, Sys2Proof.Laws.Words.Statement (.stN2 a0 a1 a2 a3) := by intros; rfl
theorem Sys2Proof.Laws.Words.ldsI8 : ∀ a0 a1 a2 a3, Sys2Proof.Laws.Words.Statement (.ldsI8 a0 a1 a2 a3) := by intros; rfl
theorem Sys2Proof.Laws.Words.ldsZ8 : ∀ a0 a1 a2 a3, Sys2Proof.Laws.Words.Statement (.ldsZ8 a0 a1 a2 a3) := by intros; rfl
theorem Sys2Proof.Laws.Words.ldsI16 : ∀ a0 a1 a2 a3, Sys2Proof.Laws.Words.Statement (.ldsI16 a0 a1 a2 a3) := by intros; rfl
theorem Sys2Proof.Laws.Words.ldsZ16 : ∀ a0 a1 a2 a3, Sys2Proof.Laws.Words.Statement (.ldsZ16 a0 a1 a2 a3) := by intros; rfl
theorem Sys2Proof.Laws.Words.lds32 : ∀ a0 a1 a2 a3, Sys2Proof.Laws.Words.Statement (.lds32 a0 a1 a2 a3) := by intros; rfl
theorem Sys2Proof.Laws.Words.lds64 : ∀ a0 a1 a2 a3, Sys2Proof.Laws.Words.Statement (.lds64 a0 a1 a2 a3) := by intros; rfl
theorem Sys2Proof.Laws.Words.lds128 : ∀ a0 a1 a2 a3, Sys2Proof.Laws.Words.Statement (.lds128 a0 a1 a2 a3) := by intros; rfl
theorem Sys2Proof.Laws.Words.ldsB : ∀ a0 a1 a2 a3, Sys2Proof.Laws.Words.Statement (.ldsB a0 a1 a2 a3) := by intros; rfl
theorem Sys2Proof.Laws.Words.sts8 : ∀ a0 a1 a2 a3, Sys2Proof.Laws.Words.Statement (.sts8 a0 a1 a2 a3) := by intros; rfl
theorem Sys2Proof.Laws.Words.sts16 : ∀ a0 a1 a2 a3, Sys2Proof.Laws.Words.Statement (.sts16 a0 a1 a2 a3) := by intros; rfl
theorem Sys2Proof.Laws.Words.sts32 : ∀ a0 a1 a2 a3, Sys2Proof.Laws.Words.Statement (.sts32 a0 a1 a2 a3) := by intros; rfl
theorem Sys2Proof.Laws.Words.sts64 : ∀ a0 a1 a2 a3, Sys2Proof.Laws.Words.Statement (.sts64 a0 a1 a2 a3) := by intros; rfl
theorem Sys2Proof.Laws.Words.sts128 : ∀ a0 a1 a2 a3, Sys2Proof.Laws.Words.Statement (.sts128 a0 a1 a2 a3) := by intros; rfl
theorem Sys2Proof.Laws.Words.stsN4 : ∀ a0 a1 a2 a3, Sys2Proof.Laws.Words.Statement (.stsN4 a0 a1 a2 a3) := by intros; rfl
theorem Sys2Proof.Laws.Words.stsN2 : ∀ a0 a1 a2 a3, Sys2Proof.Laws.Words.Statement (.stsN2 a0 a1 a2 a3) := by intros; rfl
theorem Sys2Proof.Laws.Words.ldx : ∀ a0 a1 a2 a3 a4 a5 a6, Sys2Proof.Laws.Words.Statement (.ldx a0 a1 a2 a3 a4 a5 a6) := by intros; rfl
theorem Sys2Proof.Laws.Words.stx : ∀ a0 a1 a2 a3 a4 a5 a6, Sys2Proof.Laws.Words.Statement (.stx a0 a1 a2 a3 a4 a5 a6) := by intros; rfl
theorem Sys2Proof.Laws.Words.ldsx : ∀ a0 a1 a2 a3 a4, Sys2Proof.Laws.Words.Statement (.ldsx a0 a1 a2 a3 a4) := by intros; rfl
theorem Sys2Proof.Laws.Words.stsx : ∀ a0 a1 a2 a3 a4, Sys2Proof.Laws.Words.Statement (.stsx a0 a1 a2 a3 a4) := by intros; rfl
theorem Sys2Proof.Laws.Words.ldAcq32 : ∀ a0 a1 a2 a3, Sys2Proof.Laws.Words.Statement (.ldAcq32 a0 a1 a2 a3) := by intros; rfl
theorem Sys2Proof.Laws.Words.ldAcq64 : ∀ a0 a1 a2 a3, Sys2Proof.Laws.Words.Statement (.ldAcq64 a0 a1 a2 a3) := by intros; rfl
theorem Sys2Proof.Laws.Words.stRel32 : ∀ a0 a1 a2 a3, Sys2Proof.Laws.Words.Statement (.stRel32 a0 a1 a2 a3) := by intros; rfl
theorem Sys2Proof.Laws.Words.stRel64 : ∀ a0 a1 a2 a3, Sys2Proof.Laws.Words.Statement (.stRel64 a0 a1 a2 a3) := by intros; rfl
theorem Sys2Proof.Laws.Words.fenceAcq : ∀ a0 a1, Sys2Proof.Laws.Words.Statement (.fenceAcq a0 a1) := by intros; rfl
theorem Sys2Proof.Laws.Words.fenceRel : ∀ a0 a1, Sys2Proof.Laws.Words.Statement (.fenceRel a0 a1) := by intros; rfl
theorem Sys2Proof.Laws.Words.fenceAr : ∀ a0 a1, Sys2Proof.Laws.Words.Statement (.fenceAr a0 a1) := by intros; rfl
theorem Sys2Proof.Laws.Words.fenceSc : ∀ a0 a1, Sys2Proof.Laws.Words.Statement (.fenceSc a0 a1) := by intros; rfl
theorem Sys2Proof.Laws.Words.pf : ∀ a0 a1 a2, Sys2Proof.Laws.Words.Statement (.pf a0 a1 a2) := by intros; rfl
theorem Sys2Proof.Laws.Words.pf2 : ∀ a0 a1 a2, Sys2Proof.Laws.Words.Statement (.pf2 a0 a1 a2) := by intros; rfl
theorem Sys2Proof.Laws.Words.icinv : ∀ a0 a1 a2, Sys2Proof.Laws.Words.Statement (.icinv a0 a1 a2) := by intros; rfl
theorem Sys2Proof.Laws.Words.l1inv : ∀ a0 a1, Sys2Proof.Laws.Words.Statement (.l1inv a0 a1) := by intros; rfl
theorem Sys2Proof.Laws.Words.l1invAll : ∀ a0, Sys2Proof.Laws.Words.Statement (.l1invAll a0) := by intros; rfl
theorem Sys2Proof.Laws.Words.evict : ∀ a0 a1, Sys2Proof.Laws.Words.Statement (.evict a0 a1) := by intros; rfl
theorem Sys2Proof.Laws.Words.l2part : ∀ a0 a1 a2, Sys2Proof.Laws.Words.Statement (.l2part a0 a1 a2) := by intros; rfl
theorem Sys2Proof.Laws.Words.wpath : ∀ a0 a1 a2, Sys2Proof.Laws.Words.Statement (.wpath a0 a1 a2) := by intros; rfl
theorem Sys2Proof.Laws.Words.wbatch : ∀ a0 a1, Sys2Proof.Laws.Words.Statement (.wbatch a0 a1) := by intros; rfl
theorem Sys2Proof.Laws.Words.wfut : ∀ a0 a1 a2, Sys2Proof.Laws.Words.Statement (.wfut a0 a1 a2) := by intros; rfl
theorem Sys2Proof.Laws.Words.wany : ∀ a0 a1 a2, Sys2Proof.Laws.Words.Statement (.wany a0 a1 a2) := by intros; rfl
theorem Sys2Proof.Laws.Words.fpoll : ∀ a0 a1 a2, Sys2Proof.Laws.Words.Statement (.fpoll a0 a1 a2) := by intros; rfl
theorem Sys2Proof.Laws.Words.wtree : ∀ a0 a1 a2, Sys2Proof.Laws.Words.Statement (.wtree a0 a1 a2) := by intros; rfl
theorem Sys2Proof.Laws.Words.rclk : ∀ a0 a1, Sys2Proof.Laws.Words.Statement (.rclk a0 a1) := by intros; rfl
theorem Sys2Proof.Laws.Words.rtick : ∀ a0, Sys2Proof.Laws.Words.Statement (.rtick a0) := by intros; rfl
theorem Sys2Proof.Laws.Words.rmode : ∀ a0 a1, Sys2Proof.Laws.Words.Statement (.rmode a0 a1) := by intros; rfl
theorem Sys2Proof.Laws.Words.rnext : ∀ a0 a1, Sys2Proof.Laws.Words.Statement (.rnext a0 a1) := by intros; rfl
theorem Sys2Proof.Laws.Words.rclr : ∀ a0 a1 a2, Sys2Proof.Laws.Words.Statement (.rclr a0 a1 a2) := by intros; rfl
theorem Sys2Proof.Laws.Words.aadd : ∀ a0 a1 a2 a3 a4, Sys2Proof.Laws.Words.Statement (.aadd a0 a1 a2 a3 a4) := by intros; rfl
theorem Sys2Proof.Laws.Words.aaddF32 : ∀ a0 a1 a2 a3 a4, Sys2Proof.Laws.Words.Statement (.aaddF32 a0 a1 a2 a3 a4) := by intros; rfl
theorem Sys2Proof.Laws.Words.aaddBf16x2 : ∀ a0 a1 a2 a3 a4, Sys2Proof.Laws.Words.Statement (.aaddBf16x2 a0 a1 a2 a3 a4) := by intros; rfl
theorem Sys2Proof.Laws.Words.aaddF16x2 : ∀ a0 a1 a2 a3 a4, Sys2Proof.Laws.Words.Statement (.aaddF16x2 a0 a1 a2 a3 a4) := by intros; rfl
theorem Sys2Proof.Laws.Words.aminI : ∀ a0 a1 a2 a3 a4, Sys2Proof.Laws.Words.Statement (.aminI a0 a1 a2 a3 a4) := by intros; rfl
theorem Sys2Proof.Laws.Words.amaxI : ∀ a0 a1 a2 a3 a4, Sys2Proof.Laws.Words.Statement (.amaxI a0 a1 a2 a3 a4) := by intros; rfl
theorem Sys2Proof.Laws.Words.aminZ : ∀ a0 a1 a2 a3 a4, Sys2Proof.Laws.Words.Statement (.aminZ a0 a1 a2 a3 a4) := by intros; rfl
theorem Sys2Proof.Laws.Words.amaxZ : ∀ a0 a1 a2 a3 a4, Sys2Proof.Laws.Words.Statement (.amaxZ a0 a1 a2 a3 a4) := by intros; rfl
theorem Sys2Proof.Laws.Words.aand : ∀ a0 a1 a2 a3 a4, Sys2Proof.Laws.Words.Statement (.aand a0 a1 a2 a3 a4) := by intros; rfl
theorem Sys2Proof.Laws.Words.aor : ∀ a0 a1 a2 a3 a4, Sys2Proof.Laws.Words.Statement (.aor a0 a1 a2 a3 a4) := by intros; rfl
theorem Sys2Proof.Laws.Words.axor : ∀ a0 a1 a2 a3 a4, Sys2Proof.Laws.Words.Statement (.axor a0 a1 a2 a3 a4) := by intros; rfl
theorem Sys2Proof.Laws.Words.axch : ∀ a0 a1 a2 a3 a4, Sys2Proof.Laws.Words.Statement (.axch a0 a1 a2 a3 a4) := by intros; rfl
theorem Sys2Proof.Laws.Words.ainc : ∀ a0 a1 a2 a3 a4, Sys2Proof.Laws.Words.Statement (.ainc a0 a1 a2 a3 a4) := by intros; rfl
theorem Sys2Proof.Laws.Words.adec : ∀ a0 a1 a2 a3 a4, Sys2Proof.Laws.Words.Statement (.adec a0 a1 a2 a3 a4) := by intros; rfl
theorem Sys2Proof.Laws.Words.aminF32 : ∀ a0 a1 a2 a3 a4, Sys2Proof.Laws.Words.Statement (.aminF32 a0 a1 a2 a3 a4) := by intros; rfl
theorem Sys2Proof.Laws.Words.amaxF32 : ∀ a0 a1 a2 a3 a4, Sys2Proof.Laws.Words.Statement (.amaxF32 a0 a1 a2 a3 a4) := by intros; rfl
theorem Sys2Proof.Laws.Words.aadd64 : ∀ a0 a1 a2 a3 a4 a5, Sys2Proof.Laws.Words.Statement (.aadd64 a0 a1 a2 a3 a4 a5) := by intros; rfl
theorem Sys2Proof.Laws.Words.aminI64 : ∀ a0 a1 a2 a3 a4 a5, Sys2Proof.Laws.Words.Statement (.aminI64 a0 a1 a2 a3 a4 a5) := by intros; rfl
theorem Sys2Proof.Laws.Words.amaxI64 : ∀ a0 a1 a2 a3 a4 a5, Sys2Proof.Laws.Words.Statement (.amaxI64 a0 a1 a2 a3 a4 a5) := by intros; rfl
theorem Sys2Proof.Laws.Words.aminZ64 : ∀ a0 a1 a2 a3 a4 a5, Sys2Proof.Laws.Words.Statement (.aminZ64 a0 a1 a2 a3 a4 a5) := by intros; rfl
theorem Sys2Proof.Laws.Words.amaxZ64 : ∀ a0 a1 a2 a3 a4 a5, Sys2Proof.Laws.Words.Statement (.amaxZ64 a0 a1 a2 a3 a4 a5) := by intros; rfl
theorem Sys2Proof.Laws.Words.axch64 : ∀ a0 a1 a2 a3 a4 a5, Sys2Proof.Laws.Words.Statement (.axch64 a0 a1 a2 a3 a4 a5) := by intros; rfl
theorem Sys2Proof.Laws.Words.acas : ∀ a0 a1 a2 a3 a4 a5 a6, Sys2Proof.Laws.Words.Statement (.acas a0 a1 a2 a3 a4 a5 a6) := by intros; rfl
theorem Sys2Proof.Laws.Words.acas64 : ∀ a0 a1 a2 a3 a4 a5 a6, Sys2Proof.Laws.Words.Statement (.acas64 a0 a1 a2 a3 a4 a5 a6) := by intros; rfl
theorem Sys2Proof.Laws.Words.acas128 : ∀ a0 a1 a2 a3 a4 a5 a6, Sys2Proof.Laws.Words.Statement (.acas128 a0 a1 a2 a3 a4 a5 a6) := by intros; rfl
theorem Sys2Proof.Laws.Words.amaxp : ∀ a0 a1 a2 a3 a4 a5, Sys2Proof.Laws.Words.Statement (.amaxp a0 a1 a2 a3 a4 a5) := by intros; rfl
theorem Sys2Proof.Laws.Words.redAdd : ∀ a0 a1 a2 a3 a4, Sys2Proof.Laws.Words.Statement (.redAdd a0 a1 a2 a3 a4) := by intros; rfl
theorem Sys2Proof.Laws.Words.redAddF32 : ∀ a0 a1 a2 a3 a4, Sys2Proof.Laws.Words.Statement (.redAddF32 a0 a1 a2 a3 a4) := by intros; rfl
theorem Sys2Proof.Laws.Words.redAddBf16x2 : ∀ a0 a1 a2 a3 a4, Sys2Proof.Laws.Words.Statement (.redAddBf16x2 a0 a1 a2 a3 a4) := by intros; rfl
theorem Sys2Proof.Laws.Words.redAddF16x2 : ∀ a0 a1 a2 a3 a4, Sys2Proof.Laws.Words.Statement (.redAddF16x2 a0 a1 a2 a3 a4) := by intros; rfl
theorem Sys2Proof.Laws.Words.redMinI : ∀ a0 a1 a2 a3 a4, Sys2Proof.Laws.Words.Statement (.redMinI a0 a1 a2 a3 a4) := by intros; rfl
theorem Sys2Proof.Laws.Words.redMaxI : ∀ a0 a1 a2 a3 a4, Sys2Proof.Laws.Words.Statement (.redMaxI a0 a1 a2 a3 a4) := by intros; rfl
theorem Sys2Proof.Laws.Words.redMinZ : ∀ a0 a1 a2 a3 a4, Sys2Proof.Laws.Words.Statement (.redMinZ a0 a1 a2 a3 a4) := by intros; rfl
theorem Sys2Proof.Laws.Words.redMaxZ : ∀ a0 a1 a2 a3 a4, Sys2Proof.Laws.Words.Statement (.redMaxZ a0 a1 a2 a3 a4) := by intros; rfl
theorem Sys2Proof.Laws.Words.redAnd : ∀ a0 a1 a2 a3 a4, Sys2Proof.Laws.Words.Statement (.redAnd a0 a1 a2 a3 a4) := by intros; rfl
theorem Sys2Proof.Laws.Words.redOr : ∀ a0 a1 a2 a3 a4, Sys2Proof.Laws.Words.Statement (.redOr a0 a1 a2 a3 a4) := by intros; rfl
theorem Sys2Proof.Laws.Words.redXor : ∀ a0 a1 a2 a3 a4, Sys2Proof.Laws.Words.Statement (.redXor a0 a1 a2 a3 a4) := by intros; rfl
theorem Sys2Proof.Laws.Words.redAdd64 : ∀ a0 a1 a2 a3 a4, Sys2Proof.Laws.Words.Statement (.redAdd64 a0 a1 a2 a3 a4) := by intros; rfl
theorem Sys2Proof.Laws.Words.redMinF32 : ∀ a0 a1 a2 a3 a4, Sys2Proof.Laws.Words.Statement (.redMinF32 a0 a1 a2 a3 a4) := by intros; rfl
theorem Sys2Proof.Laws.Words.redMaxF32 : ∀ a0 a1 a2 a3 a4, Sys2Proof.Laws.Words.Statement (.redMaxF32 a0 a1 a2 a3 a4) := by intros; rfl
theorem Sys2Proof.Laws.Words.vconf : ∀ a0 a1 a2 a3, Sys2Proof.Laws.Words.Statement (.vconf a0 a1 a2 a3) := by intros; rfl
theorem Sys2Proof.Laws.Words.vconfl : ∀ a0 a1 a2 a3, Sys2Proof.Laws.Words.Statement (.vconfl a0 a1 a2 a3) := by intros; rfl
theorem Sys2Proof.Laws.Words.vuniq : ∀ a0 a1 a2 a3, Sys2Proof.Laws.Words.Statement (.vuniq a0 a1 a2 a3) := by intros; rfl
theorem Sys2Proof.Laws.Words.scombF32 : ∀ a0 a1 a2, Sys2Proof.Laws.Words.Statement (.scombF32 a0 a1 a2) := by intros; rfl
theorem Sys2Proof.Laws.Words.scombI32 : ∀ a0 a1 a2, Sys2Proof.Laws.Words.Statement (.scombI32 a0 a1 a2) := by intros; rfl
theorem Sys2Proof.Laws.Words.scombBf16x2 : ∀ a0 a1 a2, Sys2Proof.Laws.Words.Statement (.scombBf16x2 a0 a1 a2) := by intros; rfl
theorem Sys2Proof.Laws.Words.barArr : ∀ a0 a1 a2 a3, Sys2Proof.Laws.Words.Statement (.barArr a0 a1 a2 a3) := by intros; rfl
theorem Sys2Proof.Laws.Words.barWait : ∀ a0 a1 a2, Sys2Proof.Laws.Words.Statement (.barWait a0 a1 a2) := by intros; rfl
theorem Sys2Proof.Laws.Words.barSync : ∀ a0 a1, Sys2Proof.Laws.Words.Statement (.barSync a0 a1) := by intros; rfl
theorem Sys2Proof.Laws.Words.barInit : ∀ a0 a1 a2, Sys2Proof.Laws.Words.Statement (.barInit a0 a1 a2) := by intros; rfl
theorem Sys2Proof.Laws.Words.barArrx : ∀ a0 a1 a2 a3, Sys2Proof.Laws.Words.Statement (.barArrx a0 a1 a2 a3) := by intros; rfl
theorem Sys2Proof.Laws.Words.cbarInit : ∀ a0 a1 a2, Sys2Proof.Laws.Words.Statement (.cbarInit a0 a1 a2) := by intros; rfl
theorem Sys2Proof.Laws.Words.cbarArr : ∀ a0 a1 a2, Sys2Proof.Laws.Words.Statement (.cbarArr a0 a1 a2) := by intros; rfl
theorem Sys2Proof.Laws.Words.cbarWait : ∀ a0 a1 a2, Sys2Proof.Laws.Words.Statement (.cbarWait a0 a1 a2) := by intros; rfl
theorem Sys2Proof.Laws.Words.cbarSync : ∀ a0 a1, Sys2Proof.Laws.Words.Statement (.cbarSync a0 a1) := by intros; rfl
theorem Sys2Proof.Laws.Words.waddrEq : ∀ a0 a1 a2 a3, Sys2Proof.Laws.Words.Statement (.waddrEq a0 a1 a2 a3) := by intros; rfl
theorem Sys2Proof.Laws.Words.waddrNe : ∀ a0 a1 a2 a3, Sys2Proof.Laws.Words.Statement (.waddrNe a0 a1 a2 a3) := by intros; rfl
theorem Sys2Proof.Laws.Words.waddrLt : ∀ a0 a1 a2 a3, Sys2Proof.Laws.Words.Statement (.waddrLt a0 a1 a2 a3) := by intros; rfl
theorem Sys2Proof.Laws.Words.waddrGe : ∀ a0 a1 a2 a3, Sys2Proof.Laws.Words.Statement (.waddrGe a0 a1 a2 a3) := by intros; rfl
theorem Sys2Proof.Laws.Words.waddrAny : ∀ a0 a1 a2 a3, Sys2Proof.Laws.Words.Statement (.waddrAny a0 a1 a2 a3) := by intros; rfl
theorem Sys2Proof.Laws.Words.cpt : ∀ a0 a1 a2 a3 a4 a5 a6 a7 a8 a9, Sys2Proof.Laws.Words.Statement (.cpt a0 a1 a2 a3 a4 a5 a6 a7 a8 a9) := by intros; rfl
theorem Sys2Proof.Laws.Words.cpm : ∀ a0 a1 a2 a3 a4 a5 a6 a7 a8 a9, Sys2Proof.Laws.Words.Statement (.cpm a0 a1 a2 a3 a4 a5 a6 a7 a8 a9) := by intros; rfl
theorem Sys2Proof.Laws.Words.cps : ∀ a0 a1 a2 a3 a4 a5 a6 a7 a8 a9, Sys2Proof.Laws.Words.Statement (.cps a0 a1 a2 a3 a4 a5 a6 a7 a8 a9) := by intros; rfl
theorem Sys2Proof.Laws.Words.cpf : ∀ a0 a1 a2 a3 a4 a5 a6 a7 a8 a9 a10, Sys2Proof.Laws.Words.Statement (.cpf a0 a1 a2 a3 a4 a5 a6 a7 a8 a9 a10) := by intros; rfl
theorem Sys2Proof.Laws.Words.cpr : ∀ a0 a1 a2 a3 a4 a5 a6 a7 a8 a9 a10, Sys2Proof.Laws.Words.Statement (.cpr a0 a1 a2 a3 a4 a5 a6 a7 a8 a9 a10) := by intros; rfl
theorem Sys2Proof.Laws.Words.gth : ∀ a0 a1 a2 a3 a4 a5 a6 a7 a8 a9, Sys2Proof.Laws.Words.Statement (.gth a0 a1 a2 a3 a4 a5 a6 a7 a8 a9) := by intros; rfl
theorem Sys2Proof.Laws.Words.sct : ∀ a0 a1 a2 a3 a4 a5 a6 a7 a8 a9, Sys2Proof.Laws.Words.Statement (.sct a0 a1 a2 a3 a4 a5 a6 a7 a8 a9) := by intros; rfl
theorem Sys2Proof.Laws.Words.sctr : ∀ a0 a1 a2 a3 a4 a5 a6 a7 a8 a9 a10, Sys2Proof.Laws.Words.Statement (.sctr a0 a1 a2 a3 a4 a5 a6 a7 a8 a9 a10) := by intros; rfl
theorem Sys2Proof.Laws.Words.rbInit : ∀ a0 a1 a2, Sys2Proof.Laws.Words.Statement (.rbInit a0 a1 a2) := by intros; rfl
theorem Sys2Proof.Laws.Words.rbAwait : ∀ a0 a1 a2 a3, Sys2Proof.Laws.Words.Statement (.rbAwait a0 a1 a2 a3) := by intros; rfl
theorem Sys2Proof.Laws.Words.rbRel : ∀ a0 a1 a2, Sys2Proof.Laws.Words.Statement (.rbRel a0 a1 a2) := by intros; rfl
theorem Sys2Proof.Laws.Words.rbStat : ∀ a0 a1 a2, Sys2Proof.Laws.Words.Statement (.rbStat a0 a1 a2) := by intros; rfl
theorem Sys2Proof.Laws.Words.rbCred : ∀ a0 a1 a2 a3, Sys2Proof.Laws.Words.Statement (.rbCred a0 a1 a2 a3) := by intros; rfl
theorem Sys2Proof.Laws.Words.spawn : ∀ a0 a1 a2 a3, Sys2Proof.Laws.Words.Statement (.spawn a0 a1 a2 a3) := by intros; rfl
theorem Sys2Proof.Laws.Words.treeOpen : ∀ a0 a1, Sys2Proof.Laws.Words.Statement (.treeOpen a0 a1) := by intros; rfl
theorem Sys2Proof.Laws.Words.treeClose : ∀ a0 a1, Sys2Proof.Laws.Words.Statement (.treeClose a0 a1) := by intros; rfl
theorem Sys2Proof.Laws.Words.treeCloseFree : ∀ a0 a1, Sys2Proof.Laws.Words.Statement (.treeCloseFree a0 a1) := by intros; rfl
theorem Sys2Proof.Laws.Words.treeCancel : ∀ a0 a1, Sys2Proof.Laws.Words.Statement (.treeCancel a0 a1) := by intros; rfl
theorem Sys2Proof.Laws.Words.treeStat : ∀ a0 a1 a2, Sys2Proof.Laws.Words.Statement (.treeStat a0 a1 a2) := by intros; rfl
theorem Sys2Proof.Laws.Words.dlSet : ∀ a0 a1 a2, Sys2Proof.Laws.Words.Statement (.dlSet a0 a1 a2) := by intros; rfl
theorem Sys2Proof.Laws.Words.dlGet : ∀ a0 a1 a2, Sys2Proof.Laws.Words.Statement (.dlGet a0 a1 a2) := by intros; rfl
theorem Sys2Proof.Laws.Words.dlChk : ∀ a0 a1 a2, Sys2Proof.Laws.Words.Statement (.dlChk a0 a1 a2) := by intros; rfl
theorem Sys2Proof.Laws.Words.nalloc : ∀ a0 a1 a2, Sys2Proof.Laws.Words.Statement (.nalloc a0 a1 a2) := by intros; rfl
theorem Sys2Proof.Laws.Words.nallocT : ∀ a0 a1 a2, Sys2Proof.Laws.Words.Statement (.nallocT a0 a1 a2) := by intros; rfl
theorem Sys2Proof.Laws.Words.nfree : ∀ a0 a1 a2, Sys2Proof.Laws.Words.Statement (.nfree a0 a1 a2) := by intros; rfl
theorem Sys2Proof.Laws.Words.nreset : ∀ a0 a1, Sys2Proof.Laws.Words.Statement (.nreset a0 a1) := by intros; rfl
theorem Sys2Proof.Laws.Words.ninfo : ∀ a0 a1 a2, Sys2Proof.Laws.Words.Statement (.ninfo a0 a1 a2) := by intros; rfl
theorem Sys2Proof.Laws.Words.cqPush : ∀ a0 a1 a2 a3, Sys2Proof.Laws.Words.Statement (.cqPush a0 a1 a2 a3) := by intros; rfl
theorem Sys2Proof.Laws.Words.cqTake : ∀ a0 a1 a2 a3, Sys2Proof.Laws.Words.Statement (.cqTake a0 a1 a2 a3) := by intros; rfl
theorem Sys2Proof.Laws.Words.cqPut : ∀ a0 a1 a2, Sys2Proof.Laws.Words.Statement (.cqPut a0 a1 a2) := by intros; rfl
theorem Sys2Proof.Laws.Words.cqFlush : ∀ a0 a1, Sys2Proof.Laws.Words.Statement (.cqFlush a0 a1) := by intros; rfl
theorem Sys2Proof.Laws.Words.cqCfg : ∀ a0 a1 a2, Sys2Proof.Laws.Words.Statement (.cqCfg a0 a1 a2) := by intros; rfl
theorem Sys2Proof.Laws.Words.cqStat : ∀ a0 a1 a2, Sys2Proof.Laws.Words.Statement (.cqStat a0 a1 a2) := by intros; rfl
theorem Sys2Proof.Laws.Words.fdPop : ∀ a0 a1 a2, Sys2Proof.Laws.Words.Statement (.fdPop a0 a1 a2) := by intros; rfl
theorem Sys2Proof.Laws.Words.fdTry : ∀ a0 a1 a2, Sys2Proof.Laws.Words.Statement (.fdTry a0 a1 a2) := by intros; rfl
theorem Sys2Proof.Laws.Words.fdPush : ∀ a0 a1 a2, Sys2Proof.Laws.Words.Statement (.fdPush a0 a1 a2) := by intros; rfl
theorem Sys2Proof.Laws.Words.fdStat : ∀ a0 a1 a2, Sys2Proof.Laws.Words.Statement (.fdStat a0 a1 a2) := by intros; rfl
theorem Sys2Proof.Laws.Words.colRay : ∀ a0 a1 a2 a3 a4 a5 a6 a7, Sys2Proof.Laws.Words.Statement (.colRay a0 a1 a2 a3 a4 a5 a6 a7) := by intros; rfl
theorem Sys2Proof.Laws.Words.colSph : ∀ a0 a1 a2 a3 a4 a5 a6 a7, Sys2Proof.Laws.Words.Statement (.colSph a0 a1 a2 a3 a4 a5 a6 a7) := by intros; rfl
theorem Sys2Proof.Laws.Words.colBox : ∀ a0 a1 a2 a3 a4 a5 a6 a7, Sys2Proof.Laws.Words.Statement (.colBox a0 a1 a2 a3 a4 a5 a6 a7) := by intros; rfl
theorem Sys2Proof.Laws.Words.colSweep : ∀ a0 a1 a2 a3 a4 a5 a6 a7, Sys2Proof.Laws.Words.Statement (.colSweep a0 a1 a2 a3 a4 a5 a6 a7) := by intros; rfl
theorem Sys2Proof.Laws.Words.colDist : ∀ a0 a1 a2 a3 a4 a5 a6 a7, Sys2Proof.Laws.Words.Statement (.colDist a0 a1 a2 a3 a4 a5 a6 a7) := by intros; rfl
theorem Sys2Proof.Laws.Words.colUpd : ∀ a0 a1 a2 a3 a4 a5 a6 a7, Sys2Proof.Laws.Words.Statement (.colUpd a0 a1 a2 a3 a4 a5 a6 a7) := by intros; rfl
theorem Sys2Proof.Laws.Words.dynFk : ∀ a0 a1 a2 a3 a4 a5 a6 a7, Sys2Proof.Laws.Words.Statement (.dynFk a0 a1 a2 a3 a4 a5 a6 a7) := by intros; rfl
theorem Sys2Proof.Laws.Words.dynId : ∀ a0 a1 a2 a3 a4 a5 a6 a7, Sys2Proof.Laws.Words.Statement (.dynId a0 a1 a2 a3 a4 a5 a6 a7) := by intros; rfl
theorem Sys2Proof.Laws.Words.dynFd : ∀ a0 a1 a2 a3 a4 a5 a6 a7, Sys2Proof.Laws.Words.Statement (.dynFd a0 a1 a2 a3 a4 a5 a6 a7) := by intros; rfl
theorem Sys2Proof.Laws.Words.dynStep : ∀ a0 a1 a2 a3 a4 a5 a6 a7, Sys2Proof.Laws.Words.Statement (.dynStep a0 a1 a2 a3 a4 a5 a6 a7) := by intros; rfl
theorem Sys2Proof.Laws.Words.dynJac : ∀ a0 a1 a2 a3 a4 a5 a6 a7 a8, Sys2Proof.Laws.Words.Statement (.dynJac a0 a1 a2 a3 a4 a5 a6 a7 a8) := by intros; rfl
theorem Sys2Proof.Laws.Words.dynMass : ∀ a0 a1 a2 a3 a4 a5 a6 a7, Sys2Proof.Laws.Words.Statement (.dynMass a0 a1 a2 a3 a4 a5 a6 a7) := by intros; rfl
theorem Sys2Proof.Laws.Words.trap : ∀ a0 a1, Sys2Proof.Laws.Words.Statement (.trap a0 a1) := by intros; rfl
theorem Sys2Proof.Laws.Words.sys : ∀ a0 a1 a2 a3 a4, Sys2Proof.Laws.Words.Statement (.sys a0 a1 a2 a3 a4) := by intros; rfl
theorem Sys2Proof.Laws.Words.brk : ∀ a0 a1, Sys2Proof.Laws.Words.Statement (.brk a0 a1) := by intros; rfl
theorem Sys2Proof.Laws.Words.eret : ∀ a0, Sys2Proof.Laws.Words.Statement (.eret a0) := by intros; rfl
theorem Sys2Proof.Laws.Words.eretR : ∀ a0, Sys2Proof.Laws.Words.Statement (.eretR a0) := by intros; rfl
theorem Sys2Proof.Laws.Words.tret : ∀ a0, Sys2Proof.Laws.Words.Statement (.tret a0) := by intros; rfl
theorem Sys2Proof.Laws.Words.phint : ∀ a0 a1 a2 a3 a4 a5 a6, Sys2Proof.Laws.Words.Statement (.phint a0 a1 a2 a3 a4 a5 a6) := by intros; rfl
theorem Sys2Proof.Laws.Words.ppoint : ∀ a0 a1 a2 a3 a4 a5 a6, Sys2Proof.Laws.Words.Statement (.ppoint a0 a1 a2 a3 a4 a5 a6) := by intros; rfl
theorem Sys2Proof.Laws.Words.tmark : ∀ a0 a1, Sys2Proof.Laws.Words.Statement (.tmark a0 a1) := by intros; rfl
theorem Sys2Proof.Laws.Words.tstamp : ∀ a0 a1, Sys2Proof.Laws.Words.Statement (.tstamp a0 a1) := by intros; rfl
theorem Sys2Proof.Laws.Words.pctr : ∀ a0 a1 a2, Sys2Proof.Laws.Words.Statement (.pctr a0 a1 a2) := by intros; rfl
theorem Sys2Proof.Laws.Words.tctlOff : ∀ a0, Sys2Proof.Laws.Words.Statement (.tctlOff a0) := by intros; rfl
theorem Sys2Proof.Laws.Words.tctlOn : ∀ a0 a1, Sys2Proof.Laws.Words.Statement (.tctlOn a0 a1) := by intros; rfl
theorem Sys2Proof.Laws.Words.tctlFlush : ∀ a0, Sys2Proof.Laws.Words.Statement (.tctlFlush a0) := by intros; rfl
theorem Sys2Proof.Laws.Words.fragmentArrive : ∀ a0 a1, Sys2Proof.Laws.Words.Statement (.fragmentArrive a0 a1) := by intros; rfl
theorem Sys2Proof.Laws.Words.fragmentAged : ∀ a0 a1, Sys2Proof.Laws.Words.Statement (.fragmentAged a0 a1) := by intros; rfl
theorem Sys2Proof.Laws.Words.loadReturn : ∀ a0 a1, Sys2Proof.Laws.Words.Statement (.loadReturn a0 a1) := by intros; rfl
theorem Sys2Proof.Laws.Words.atomicReturn : ∀ a0 a1, Sys2Proof.Laws.Words.Statement (.atomicReturn a0 a1) := by intros; rfl
theorem Sys2Proof.Laws.Words.accessCheckReturn : ∀ a0, Sys2Proof.Laws.Words.Statement (.accessCheckReturn a0) := by intros; rfl
theorem Sys2Proof.Laws.Words.accessPerformed : ∀ a0, Sys2Proof.Laws.Words.Statement (.accessPerformed a0) := by intros; rfl
theorem Sys2Proof.Laws.Words.blockPark : ∀ a0, Sys2Proof.Laws.Words.Statement (.blockPark a0) := by intros; rfl
theorem Sys2Proof.Laws.Words.blockRestore : ∀ a0, Sys2Proof.Laws.Words.Statement (.blockRestore a0) := by intros; rfl
theorem Sys2Proof.Laws.Words.preemptionRequest : ∀ a0, Sys2Proof.Laws.Words.Statement (.preemptionRequest a0) := by intros; rfl
theorem Sys2Proof.Laws.Words.preemptForcedStop : ∀ a0, Sys2Proof.Laws.Words.Statement (.preemptForcedStop a0) := by intros; rfl
theorem Sys2Proof.Laws.Words.matrixQuiescence : ∀ a0, Sys2Proof.Laws.Words.Statement (.matrixQuiescence a0) := by intros; rfl
theorem Sys2Proof.Laws.Words.saveComplete : ∀ a0, Sys2Proof.Laws.Words.Statement (.saveComplete a0) := by intros; rfl
theorem Sys2Proof.Laws.Words.matrixOpComplete : ∀ a0, Sys2Proof.Laws.Words.Statement (.matrixOpComplete a0) := by intros; rfl
theorem Sys2Proof.Laws.Words.tileTransferComplete : ∀ a0 a1, Sys2Proof.Laws.Words.Statement (.tileTransferComplete a0 a1) := by intros; rfl
theorem Sys2Proof.Laws.Words.siblingStop : ∀ a0, Sys2Proof.Laws.Words.Statement (.siblingStop a0) := by intros; rfl
theorem Sys2Proof.Laws.Words.handlerEntry : ∀ a0, Sys2Proof.Laws.Words.Statement (.handlerEntry a0) := by intros; rfl
theorem Sys2Proof.Laws.Words.chovisFaultRecord : ∀ a0, Sys2Proof.Laws.Words.Statement (.chovisFaultRecord a0) := by intros; rfl
theorem Sys2Proof.Laws.Words.sysReply : ∀ a0, Sys2Proof.Laws.Words.Statement (.sysReply a0) := by intros; rfl
theorem Sys2Proof.Laws.Words.eventRingRoom : ∀ a0, Sys2Proof.Laws.Words.Statement (.eventRingRoom a0) := by intros; rfl
theorem Sys2Proof.Laws.Words.woaPoll : ∀ a0, Sys2Proof.Laws.Words.Statement (.woaPoll a0) := by intros; rfl
theorem Sys2Proof.Laws.Words.copyCommandComplete : ∀ a0, Sys2Proof.Laws.Words.Statement (.copyCommandComplete a0) := by intros; rfl
theorem Sys2Proof.Laws.Words.collisionCommandComplete : ∀ a0, Sys2Proof.Laws.Words.Statement (.collisionCommandComplete a0) := by intros; rfl
theorem Sys2Proof.Laws.Words.dynamicsCommandComplete : ∀ a0, Sys2Proof.Laws.Words.Statement (.dynamicsCommandComplete a0) := by intros; rfl
theorem Sys2Proof.Laws.Words.replayableFaultRecord : ∀ a0, Sys2Proof.Laws.Words.Statement (.replayableFaultRecord a0) := by intros; rfl
theorem Sys2Proof.Laws.Words.faultResponseTimeout : ∀ a0, Sys2Proof.Laws.Words.Statement (.faultResponseTimeout a0) := by intros; rfl
theorem Sys2Proof.Laws.Words.translationWalkComplete : ∀ a0 a1 a2, Sys2Proof.Laws.Words.Statement (.translationWalkComplete a0 a1 a2) := by intros; rfl
theorem Sys2Proof.Laws.Words.syzygyTimeout : ∀ a0, Sys2Proof.Laws.Words.Statement (.syzygyTimeout a0) := by intros; rfl
theorem Sys2Proof.Laws.Words.deadlineExpire : ∀ a0, Sys2Proof.Laws.Words.Statement (.deadlineExpire a0) := by intros; rfl
theorem Sys2Proof.Laws.Words.queueMap : ∀ a0, Sys2Proof.Laws.Words.Statement (.queueMap a0) := by intros; rfl
theorem Sys2Proof.Laws.Words.queueUnmapIdle : ∀ a0, Sys2Proof.Laws.Words.Statement (.queueUnmapIdle a0) := by intros; rfl
theorem Sys2Proof.Laws.Words.launch : ∀ a0 a1, Sys2Proof.Laws.Words.Statement (.launch a0 a1) := by intros; rfl
theorem Sys2Proof.Laws.Words.feed : ∀ a0 a1, Sys2Proof.Laws.Words.Statement (.feed a0 a1) := by intros; rfl
theorem Sys2Proof.Laws.Words.wait : ∀ a0 a1, Sys2Proof.Laws.Words.Statement (.wait a0 a1) := by intros; rfl
theorem Sys2Proof.Laws.Words.waitTimeout : ∀ a0, Sys2Proof.Laws.Words.Statement (.waitTimeout a0) := by intros; rfl
theorem Sys2Proof.Laws.Words.signal : ∀ a0 a1, Sys2Proof.Laws.Words.Statement (.signal a0 a1) := by intros; rfl
theorem Sys2Proof.Laws.Words.fetchFence : ∀ a0 a1, Sys2Proof.Laws.Words.Statement (.fetchFence a0 a1) := by intros; rfl
theorem Sys2Proof.Laws.Words.callPacket : ∀ a0 a1, Sys2Proof.Laws.Words.Statement (.callPacket a0 a1) := by intros; rfl
theorem Sys2Proof.Laws.Words.returnPacket : ∀ a0 a1, Sys2Proof.Laws.Words.Statement (.returnPacket a0 a1) := by intros; rfl
theorem Sys2Proof.Laws.Words.timestamp : ∀ a0 a1, Sys2Proof.Laws.Words.Statement (.timestamp a0 a1) := by intros; rfl
theorem Sys2Proof.Laws.Words.priority : ∀ a0 a1, Sys2Proof.Laws.Words.Statement (.priority a0 a1) := by intros; rfl
theorem Sys2Proof.Laws.Words.copy : ∀ a0 a1, Sys2Proof.Laws.Words.Statement (.copy a0 a1) := by intros; rfl
theorem Sys2Proof.Laws.Words.event : ∀ a0 a1, Sys2Proof.Laws.Words.Statement (.event a0 a1) := by intros; rfl
theorem Sys2Proof.Laws.Words.nopPacket : ∀ a0 a1, Sys2Proof.Laws.Words.Statement (.nopPacket a0 a1) := by intros; rfl
theorem Sys2Proof.Laws.Words.reserveCores : ∀ a0 a1, Sys2Proof.Laws.Words.Statement (.reserveCores a0 a1) := by intros; rfl
theorem Sys2Proof.Laws.Words.releaseCores : ∀ a0 a1, Sys2Proof.Laws.Words.Statement (.releaseCores a0 a1) := by intros; rfl
theorem Sys2Proof.Laws.Words.watchdogExpire : ∀ a0, Sys2Proof.Laws.Words.Statement (.watchdogExpire a0) := by intros; rfl
theorem Sys2Proof.Laws.Words.xtmoExpire : ∀ a0, Sys2Proof.Laws.Words.Statement (.xtmoExpire a0) := by intros; rfl
theorem Sys2Proof.Laws.Words.ctxCreate : ∀ a0 a1, Sys2Proof.Laws.Words.Statement (.ctxCreate a0 a1) := by intros; rfl
theorem Sys2Proof.Laws.Words.ctxTeardown : ∀ a0 a1, Sys2Proof.Laws.Words.Statement (.ctxTeardown a0 a1) := by intros; rfl
theorem Sys2Proof.Laws.Words.teardownComplete : ∀ a0, Sys2Proof.Laws.Words.Statement (.teardownComplete a0) := by intros; rfl
theorem Sys2Proof.Laws.Words.queueSet : ∀ a0 a1, Sys2Proof.Laws.Words.Statement (.queueSet a0 a1) := by intros; rfl
theorem Sys2Proof.Laws.Words.poolBind : ∀ a0 a1, Sys2Proof.Laws.Words.Statement (.poolBind a0 a1) := by intros; rfl
theorem Sys2Proof.Laws.Words.cqBind : ∀ a0 a1, Sys2Proof.Laws.Words.Statement (.cqBind a0 a1) := by intros; rfl
theorem Sys2Proof.Laws.Words.feedBind : ∀ a0 a1, Sys2Proof.Laws.Words.Statement (.feedBind a0 a1) := by intros; rfl
theorem Sys2Proof.Laws.Words.blockResume : ∀ a0 a1, Sys2Proof.Laws.Words.Statement (.blockResume a0 a1) := by intros; rfl
theorem Sys2Proof.Laws.Words.blockTerm : ∀ a0 a1, Sys2Proof.Laws.Words.Statement (.blockTerm a0 a1) := by intros; rfl
theorem Sys2Proof.Laws.Words.dbgSet : ∀ a0 a1, Sys2Proof.Laws.Words.Statement (.dbgSet a0 a1) := by intros; rfl
theorem Sys2Proof.Laws.Words.dbgIcinv : ∀ a0 a1, Sys2Proof.Laws.Words.Statement (.dbgIcinv a0 a1) := by intros; rfl
theorem Sys2Proof.Laws.Words.prof : ∀ a0 a1, Sys2Proof.Laws.Words.Statement (.prof a0 a1) := by intros; rfl
theorem Sys2Proof.Laws.Words.dumpSet : ∀ a0 a1, Sys2Proof.Laws.Words.Statement (.dumpSet a0 a1) := by intros; rfl
theorem Sys2Proof.Laws.Words.driverUnknownCommand : ∀ a0 a1, Sys2Proof.Laws.Words.Statement (.driverUnknownCommand a0 a1) := by intros; rfl
theorem Sys2Proof.Laws.Words.drvring : ∀ a0, Sys2Proof.Laws.Words.Statement (.drvring a0) := by intros; rfl
theorem Sys2Proof.Laws.Words.ctl : ∀ a0, Sys2Proof.Laws.Words.Statement (.ctl a0) := by intros; rfl
theorem Sys2Proof.Laws.Words.invalCtl : ∀ a0, Sys2Proof.Laws.Words.Statement (.invalCtl a0) := by intros; rfl
theorem Sys2Proof.Laws.Words.invalidationComplete : Sys2Proof.Laws.Words.Statement .invalidationComplete := rfl
theorem Sys2Proof.Laws.Words.fresp : ∀ a0, Sys2Proof.Laws.Words.Statement (.fresp a0) := by intros; rfl
theorem Sys2Proof.Laws.Words.power : ∀ a0, Sys2Proof.Laws.Words.Statement (.power a0) := by intros; rfl
theorem Sys2Proof.Laws.Words.mbxBootImage : ∀ a0, Sys2Proof.Laws.Words.Statement (.mbxBootImage a0) := by intros; rfl
theorem Sys2Proof.Laws.Words.mbxQuote : ∀ a0, Sys2Proof.Laws.Words.Statement (.mbxQuote a0) := by intros; rfl
theorem Sys2Proof.Laws.Words.mgmtRegisterWrite : ∀ a0 a1, Sys2Proof.Laws.Words.Statement (.mgmtRegisterWrite a0 a1) := by intros; rfl
theorem Sys2Proof.Laws.Words.time : ∀ a0, Sys2Proof.Laws.Words.Statement (.time a0) := by intros; rfl
theorem Sys2Proof.Laws.Words.peerTimeExchange : Sys2Proof.Laws.Words.Statement .peerTimeExchange := rfl
theorem Sys2Proof.Laws.Words.rd : ∀ a0 a1 a2, Sys2Proof.Laws.Words.Statement (.rd a0 a1 a2) := by intros; rfl
theorem Sys2Proof.Laws.Words.wr : ∀ a0 a1 a2, Sys2Proof.Laws.Words.Statement (.wr a0 a1 a2) := by intros; rfl
theorem Sys2Proof.Laws.Words.atm : ∀ a0 a1 a2 a3 a4, Sys2Proof.Laws.Words.Statement (.atm a0 a1 a2 a3 a4) := by intros; rfl
theorem Sys2Proof.Laws.Words.own : ∀ a0, Sys2Proof.Laws.Words.Statement (.own a0) := by intros; rfl
theorem Sys2Proof.Laws.Words.snp : ∀ a0, Sys2Proof.Laws.Words.Statement (.snp a0) := by intros; rfl
theorem Sys2Proof.Laws.Words.peerLinkChange : ∀ a0, Sys2Proof.Laws.Words.Statement (.peerLinkChange a0) := by intros; rfl
theorem Sys2Proof.Laws.Words.linkFailure : Sys2Proof.Laws.Words.Statement .linkFailure := rfl
theorem Sys2Proof.Laws.Words.powerOn : Sys2Proof.Laws.Words.Statement .powerOn := rfl
theorem Sys2Proof.Laws.Words.rom : Sys2Proof.Laws.Words.Statement .rom := rfl
theorem Sys2Proof.Laws.Words.verify : Sys2Proof.Laws.Words.Statement .verify := rfl
theorem Sys2Proof.Laws.Words.fwinit : Sys2Proof.Laws.Words.Statement .fwinit := rfl
theorem Sys2Proof.Laws.Words.fatalError : ∀ a0, Sys2Proof.Laws.Words.Statement (.fatalError a0) := by intros; rfl
theorem Sys2Proof.Laws.Words.throttle : ∀ a0 a1, Sys2Proof.Laws.Words.Statement (.throttle a0 a1) := by intros; rfl
theorem Sys2Proof.Laws.Words.pinnedClockLower : Sys2Proof.Laws.Words.Statement .pinnedClockLower := rfl
theorem Sys2Proof.Laws.Words.thermalTrip : Sys2Proof.Laws.Words.Statement .thermalTrip := rfl
theorem Sys2Proof.Laws.Words.clockChange : ∀ a0 a1, Sys2Proof.Laws.Words.Statement (.clockChange a0 a1) := by intros; rfl
theorem Sys2Proof.Laws.Words.sync : ∀ a0, Sys2Proof.Laws.Words.Statement (.sync a0) := by intros; rfl
theorem Sys2Proof.Laws.Words.stall : ∀ a0, Sys2Proof.Laws.Words.Statement (.stall a0) := by intros; rfl
theorem Sys2Proof.Laws.Words.traceLossResync : ∀ a0, Sys2Proof.Laws.Words.Statement (.traceLossResync a0) := by intros; rfl
theorem Sys2Proof.Laws.Words.traceDrain : ∀ a0, Sys2Proof.Laws.Words.Statement (.traceDrain a0) := by intros; rfl
theorem Sys2Proof.Laws.Words.profileSample : ∀ a0 a1, Sys2Proof.Laws.Words.Statement (.profileSample a0 a1) := by intros; rfl
theorem Sys2Proof.Laws.Words.illegalInstruction : ∀ a0 a1 a2, Sys2Proof.Laws.Words.Statement (.illegalInstruction a0 a1 a2) := by intros; rfl
theorem Sys2Proof.Laws.Words.instructionFetchFault : ∀ a0 a1, Sys2Proof.Laws.Words.Statement (.instructionFetchFault a0 a1) := by intros; rfl
theorem Sys2Proof.Laws.Words.completionPathReturn : ∀ a0 a1, Sys2Proof.Laws.Words.Statement (.completionPathReturn a0 a1) := by intros; rfl
end

