-- ==== Sys2Proof/Tests/Slice0.lean ====
section
/-! SUPPORT. Sys2Proof/Tests/Slice0.lean: the model's own tests. Words of every instruction, laid out from the encodings of spec/opcode_table.json and of
chapters 4 to 17; terms that the checks of WellFormed refuse; a few results; and, for every statement of Certificates/Slice0/Obligations.lean with hypotheses, a
state and operands that meet them. -/

namespace Sys2Proof.Tests

open Sys2Proof Sys2Proof.Machine

set_option maxRecDepth 100000
set_option Elab.async false

/-! ### Words of every instruction -/

/-- Do the two words decode to the instruction? -/
noncomputable def reads (x : Word × Word × Instr) : Bool :=
  match decode x.1 x.2.1 with
  | .ok j => j == x.2.2
  | .error _ => false
/-- The detail of ILL with which a pair of words is refused. -/
noncomputable def refused (w0 w1 : Word) : Option Nat :=
  match decode w0 w1 with
  | .ok _ => none
  | .error e => some e.detail

theorem test_words_major_01 : [(0x04155555, 0x00000000, .bra 1398101),
    (0x04355555, 0x00000000, .bany 1398101),
    (0x04555555, 0x00000000, .ball 1398101),
    (0x04755555, 0x00000000, .bnone 1398101),
    (0x04955555, 0x00000000, .call 1398101)].all reads = true := by decide +kernel
theorem test_words_major_02 : [(0x08155555, 0xFAAAAAA5, .brd 1398101 44739237),
    (0x08201A00, 0xFAAAAAA5, .brdr 26 44739237)].all reads = true := by decide +kernel
theorem test_words_major_03 : [(0x0C000000, 0x00000000, .ret),
    (0x0C201A00, 0x00000000, .jmpr 26),
    (0x0C401A00, 0x00000000, .callr 26),
    (0x0E600000, 0x00000000, .exit true),
    (0x0E800000, 0x00000000, .yield true),
    (0x0CA00000, 0x00000000, .join),
    (0x0EC0000B, 0x00000000, .wbase true 11),
    (0x0EE00000, 0x00000000, .spin true),
    (0x0F000000, 0x00000000, .nop true),
    (0x0F20C001, 0x00000000, .fmask true 3 1)].all reads = true := by decide +kernel
theorem test_words_major_04_1 : [(0x1212F4AD, 0x00000000, .add true 75 105 45),
    (0x1232F4AD, 0x00000000, .sub true 75 105 45),
    (0x1252F4AD, 0x00000000, .addc true 75 105 45),
    (0x1272F4AD, 0x00000000, .subb true 75 105 45),
    (0x1292F4AD, 0x00000000, .minI true 75 105 45),
    (0x12B2F4AD, 0x00000000, .maxI true 75 105 45),
    (0x12D2F4AD, 0x00000000, .minZ true 75 105 45),
    (0x12F2F4AD, 0x00000000, .maxZ true 75 105 45),
    (0x1312F480, 0x00000000, .abs true 75 105),
    (0x1332F480, 0x00000000, .neg true 75 105),
    (0x1352F4AD, 0x00000000, .addsI true 75 105 45),
    (0x1372F4AD, 0x00000000, .subsI true 75 105 45)].all reads = true := by decide +kernel
theorem test_words_major_04_2 : [(0x1392F4AD, 0x00000000, .addsZ true 75 105 45),
    (0x13B2F4AD, 0x00000000, .subsZ true 75 105 45),
    (0x13D2F4AD, 0x00000000, .avgZ true 75 105 45),
    (0x13F2F4AD, 0x00000000, .sadZ true 75 105 45)].all reads = true := by decide +kernel
theorem test_words_major_05_1 : [(0x1612F4AD, 0x00000000, .addImm true 75 105 45),
    (0x1632F4AD, 0x00000000, .subImm true 75 105 45),
    (0x1652F4AD, 0x00000000, .addcImm true 75 105 45),
    (0x1672F4AD, 0x00000000, .subbImm true 75 105 45),
    (0x1692F4AD, 0x00000000, .minIImm true 75 105 45),
    (0x16B2F4AD, 0x00000000, .maxIImm true 75 105 45),
    (0x16D2F4AD, 0x00000000, .minZImm true 75 105 45),
    (0x16F2F4AD, 0x00000000, .maxZImm true 75 105 45),
    (0x1752F4AD, 0x00000000, .addsIImm true 75 105 45),
    (0x1772F4AD, 0x00000000, .subsIImm true 75 105 45),
    (0x1792F4AD, 0x00000000, .addsZImm true 75 105 45),
    (0x17B2F4AD, 0x00000000, .subsZImm true 75 105 45)].all reads = true := by decide +kernel
theorem test_words_major_05_2 : [(0x17D2F4AD, 0x00000000, .avgZImm true 75 105 45),
    (0x17F2F4AD, 0x00000000, .sadZImm true 75 105 45)].all reads = true := by decide +kernel
theorem test_words_major_06_1 : [(0x1A12F4AD, 0x00000000, .mul true 75 105 45),
    (0x1A32F4AD, 0x00000000, .mulhI true 75 105 45),
    (0x1A52F4AD, 0x00000000, .mulhZ true 75 105 45),
    (0x1A72F4AD, 0x00000000, .mad true 75 105 45),
    (0x1A85B4AD, 0x00000000, .mulwI true 11 105 45),
    (0x1AA5B4AD, 0x00000000, .mulwZ true 11 105 45),
    (0x1AC5B4AD, 0x00000000, .madwI true 11 105 45),
    (0x1AE5B4AD, 0x00000000, .madwZ true 11 105 45),
    (0x1B12F4AD, 0x00000000, .divI true 75 105 45),
    (0x1B32F4AD, 0x00000000, .divZ true 75 105 45),
    (0x1B52F4AD, 0x00000000, .remI true 75 105 45),
    (0x1B72F4AD, 0x00000000, .remZ true 75 105 45)].all reads = true := by decide +kernel
theorem test_words_major_06_2 : [(0x1B92F4AD, 0x00000000, .dp4I8 true 75 105 45),
    (0x1BB2F4AD, 0x00000000, .dp4Z8 true 75 105 45)].all reads = true := by decide +kernel
theorem test_words_major_07 : [(0x1E12F4AD, 0x00000000, .and true 75 105 45),
    (0x1E32F4AD, 0x00000000, .or true 75 105 45),
    (0x1E52F4AD, 0x00000000, .xor true 75 105 45),
    (0x1E72F4AD, 0x00000000, .andn true 75 105 45),
    (0x1E92F4AD, 0x00000000, .orn true 75 105 45),
    (0x1EB2F480, 0x00000000, .not true 75 105),
    (0x1ED2F480, 0x00000000, .popc true 75 105),
    (0x1EF2F480, 0x00000000, .clz true 75 105),
    (0x1F12F480, 0x00000000, .ctz true 75 105),
    (0x1F32F480, 0x00000000, .brev true 75 105),
    (0x1F52F4AD, 0x00000000, .bsel true 75 105 45),
    (0x1F72F4AD, 0x00000000, .prmt true 75 105 45)].all reads = true := by decide +kernel
theorem test_words_major_08 : [(0x2212F4AD, 0x00000000, .shl true 75 105 45),
    (0x2232F4AD, 0x00000000, .shrZ true 75 105 45),
    (0x2252F4AD, 0x00000000, .shrI true 75 105 45),
    (0x2272F4AD, 0x00000000, .rol true 75 105 45),
    (0x2292F4AD, 0x00000000, .ror true 75 105 45),
    (0x22B2F4AD, 0x00000000, .shlf true 75 105 45),
    (0x22D2F4AD, 0x00000000, .shrf true 75 105 45),
    (0x22F2F4AD, 0x00000000, .bfxZ true 75 105 45),
    (0x2312F4AD, 0x00000000, .bfxI true 75 105 45),
    (0x2332F4AD, 0x00000000, .bfi true 75 105 45)].all reads = true := by decide +kernel
theorem test_words_major_09 : [(0x2612F4AD, 0x00000000, .shlImm true 75 105 45),
    (0x2632F4AD, 0x00000000, .shrZImm true 75 105 45),
    (0x2652F4AD, 0x00000000, .shrIImm true 75 105 45),
    (0x2672F4AD, 0x00000000, .rolImm true 75 105 45),
    (0x2692F4AD, 0x00000000, .rorImm true 75 105 45),
    (0x26B2F4AD, 0x00000000, .shlfImm true 75 105 45),
    (0x26D2F4AD, 0x00000000, .shrfImm true 75 105 45)].all reads = true := by decide +kernel
theorem test_words_major_0A : [(0x2A0656A5, 0x00000000, .cmpEq true 3 1 45 37),
    (0x2A2656A5, 0x00000000, .cmpNe true 3 1 45 37),
    (0x2A4656A5, 0x00000000, .cmpLtI true 3 1 45 37),
    (0x2A6656A5, 0x00000000, .cmpLeI true 3 1 45 37),
    (0x2A8656A5, 0x00000000, .cmpGtI true 3 1 45 37),
    (0x2AA656A5, 0x00000000, .cmpGeI true 3 1 45 37),
    (0x2AC656A5, 0x00000000, .cmpLtZ true 3 1 45 37),
    (0x2AE656A5, 0x00000000, .cmpLeZ true 3 1 45 37),
    (0x2B0656A5, 0x00000000, .cmpGtZ true 3 1 45 37),
    (0x2B2656A5, 0x00000000, .cmpGeZ true 3 1 45 37),
    (0x2B4656A5, 0x00000000, .tst true 3 1 45 37),
    (0x2B6656A5, 0x00000000, .tstn true 3 1 45 37)].all reads = true := by decide +kernel
theorem test_words_major_0B : [(0x2E0656A5, 0x00000000, .cmpEqImm true 3 1 45 37),
    (0x2E2656A5, 0x00000000, .cmpNeImm true 3 1 45 37),
    (0x2E4656A5, 0x00000000, .cmpLtIImm true 3 1 45 37),
    (0x2E6656A5, 0x00000000, .cmpLeIImm true 3 1 45 37),
    (0x2E8656A5, 0x00000000, .cmpGtIImm true 3 1 45 37),
    (0x2EA656A5, 0x00000000, .cmpGeIImm true 3 1 45 37),
    (0x2EC656A5, 0x00000000, .cmpLtZImm true 3 1 45 37),
    (0x2EE656A5, 0x00000000, .cmpLeZImm true 3 1 45 37),
    (0x2F0656A5, 0x00000000, .cmpGtZImm true 3 1 45 37),
    (0x2F2656A5, 0x00000000, .cmpGeZImm true 3 1 45 37),
    (0x2F4656A5, 0x00000000, .tstImm true 3 1 45 37),
    (0x2F6656A5, 0x00000000, .tstnImm true 3 1 45 37)].all reads = true := by decide +kernel
theorem test_words_major_0C_1 : [(0x3205A95A, 0x00000000, .add64 true 11 41 45),
    (0x3225A95A, 0x00000000, .sub64 true 11 41 45),
    (0x3245A95A, 0x00000000, .mul64 true 11 41 45),
    (0x3265A92D, 0x00000000, .shl64 true 11 41 45),
    (0x3285A92D, 0x00000000, .shrZ64 true 11 41 45),
    (0x32A5A92D, 0x00000000, .shrI64 true 11 41 45),
    (0x32C5A95A, 0x00000000, .minI64 true 11 41 45),
    (0x32E5A95A, 0x00000000, .maxI64 true 11 41 45),
    (0x3305A95A, 0x00000000, .minZ64 true 11 41 45),
    (0x3325A95A, 0x00000000, .maxZ64 true 11 41 45),
    (0x33466D4A, 0x00000000, .cmpEq64 true 3 1 45 37),
    (0x33666D4A, 0x00000000, .cmpLtI64 true 3 1 45 37)].all reads = true := by decide +kernel
theorem test_words_major_0C_2 : [(0x33866D4A, 0x00000000, .cmpLtZ64 true 3 1 45 37)].all reads = true := by decide +kernel
theorem test_words_major_0D : [(0x3612EAA9, 0x00000000, .movi true 75 10921),
    (0x3632EAA9, 0x00000000, .movhi true 75 10921),
    (0x3652EAA9, 0x00000000, .addi true 75 10921)].all reads = true := by decide +kernel
theorem test_words_major_0E : [(0x3A12C029, 0xFAAAAAA5, .li true 75 41 44739237),
    (0x3A32F4AD, 0xFAAAAAA5, .addi32 true 75 105 45 44739237),
    (0x3A52F4AD, 0xFAAAAAA5, .andi32 true 75 105 45 44739237),
    (0x3A72F4AD, 0xFAAAAAA5, .ori32 true 75 105 45 44739237),
    (0x3A92F4AD, 0xFAAAAAA5, .xori32 true 75 105 45 44739237)].all reads = true := by decide +kernel
theorem test_words_major_0F_1 : [(0x3E12F480, 0x00000000, .mov true 75 105),
    (0x3E32F4AD, 0x00000000, .sel true 75 105 45),
    (0x3E52F4AD, 0x00000000, .shflIdx true 75 105 45),
    (0x3E72F4AD, 0x00000000, .shflUp true 75 105 45),
    (0x3E92F4AD, 0x00000000, .shflDn true 75 105 45),
    (0x3EB2F4AD, 0x00000000, .shflXor true 75 105 45),
    (0x3ED2F4AD, 0x00000000, .bcast true 75 105 45),
    (0x3EF2C080, 0x00000000, .ballot true 75 1),
    (0x3F12F480, 0x00000000, .matchLanes true 75 105),
    (0x3F32F480, 0x00000000, .lscanAdd true 75 105),
    (0x3F52F480, 0x00000000, .lredAdd true 75 105),
    (0x3F72F480, 0x00000000, .lredMinI true 75 105)].all reads = true := by decide +kernel
theorem test_words_major_0F_2 : [(0x3F92F480, 0x00000000, .lredMaxI true 75 105),
    (0x3FB2F480, 0x00000000, .lredMinZ true 75 105),
    (0x3FD2F480, 0x00000000, .lredMaxZ true 75 105),
    (0x3FF2F480, 0x00000000, .lredAddF32 true 75 105)].all reads = true := by decide +kernel
theorem test_words_major_10 : [(0x4200C085, 0x00000000, .pand true 3 1 5),
    (0x4220C085, 0x00000000, .por true 3 1 5),
    (0x4240C085, 0x00000000, .pxor true 3 1 5),
    (0x4260C080, 0x00000000, .pnot true 3 1),
    (0x4280C080, 0x00000000, .pmov true 3 1),
    (0x42B2C080, 0x00000000, .p2v true 75 1),
    (0x42C0F480, 0x00000000, .v2p true 3 105),
    (0x42E0C080, 0x00000000, .pany true 3 1),
    (0x4300C080, 0x00000000, .pall true 3 1)].all reads = true := by decide +kernel
theorem test_words_major_11 : [(0x4674AD25, 0x00000000, .lea true 3 41 45 37),
    (0x4712F480, 0x00000000, .tagq true 75 105)].all reads = true := by decide +kernel
theorem test_words_major_12 : [(0x4A12C014, 0x00000000, .srd true 75 20),
    (0x4A32C018, 0x00000000, .swr true 75 24)].all reads = true := by decide +kernel
theorem test_words_major_13_1 : [(0x4E12F4AD, 0x00000000, .fadd true 75 105 45),
    (0x4E32F4AD, 0x00000000, .fsub true 75 105 45),
    (0x4E52F4AD, 0x00000000, .fmul true 75 105 45),
    (0x4E72F4AD, 0x00000000, .fma true 75 105 45),
    (0x4E92F4AD, 0x00000000, .fms true 75 105 45),
    (0x4EB2F4AD, 0x00000000, .fnma true 75 105 45),
    (0x4ED2F4AD, 0x00000000, .fmin true 75 105 45),
    (0x4EF2F4AD, 0x00000000, .fmax true 75 105 45),
    (0x4F12F4AD, 0x00000000, .fminn true 75 105 45),
    (0x4F32F4AD, 0x00000000, .fmaxn true 75 105 45),
    (0x4F52F480, 0x00000000, .fabs true 75 105),
    (0x4F72F480, 0x00000000, .fneg true 75 105)].all reads = true := by decide +kernel
theorem test_words_major_13_2 : [(0x4F92F4AD, 0x00000000, .fcpsgn true 75 105 45),
    (0x4FB2F483, 0x00000000, .frint true 75 105 3),
    (0x4FD2F480, 0x00000000, .ffrac true 75 105),
    (0x4FF2F480, 0x00000000, .fsat true 75 105)].all reads = true := by decide +kernel
theorem test_words_major_14 : [(0x520656A5, 0x00000000, .fcmpEq true 3 1 45 37),
    (0x522656A5, 0x00000000, .fcmpNe true 3 1 45 37),
    (0x524656A5, 0x00000000, .fcmpLt true 3 1 45 37),
    (0x526656A5, 0x00000000, .fcmpLe true 3 1 45 37),
    (0x528656A5, 0x00000000, .fcmpGt true 3 1 45 37),
    (0x52A656A5, 0x00000000, .fcmpGe true 3 1 45 37),
    (0x52C656A5, 0x00000000, .fcmpUn true 3 1 45 37),
    (0x52E656A5, 0x00000000, .fcmpOr true 3 1 45 37),
    (0x5312F480, 0x00000000, .fclass true 75 105)].all reads = true := by decide +kernel
theorem test_words_major_15 : [(0x5612F480, 0x00000000, .rcp true 75 105),
    (0x5632F480, 0x00000000, .rsqrt true 75 105),
    (0x5652F480, 0x00000000, .sqrt true 75 105),
    (0x5672F480, 0x00000000, .exp2 true 75 105),
    (0x5692F480, 0x00000000, .log2 true 75 105),
    (0x56B2F480, 0x00000000, .sinpi true 75 105),
    (0x56D2F480, 0x00000000, .cospi true 75 105),
    (0x56F2F480, 0x00000000, .tanh true 75 105),
    (0x5712F480, 0x00000000, .sigm true 75 105)].all reads = true := by decide +kernel
theorem test_words_major_16 : [(0x5A12F4AD, 0x00000000, .hadd2F16 true 75 105 45),
    (0x5A32F4AD, 0x00000000, .hsub2F16 true 75 105 45),
    (0x5A52F4AD, 0x00000000, .hmul2F16 true 75 105 45),
    (0x5A72F4AD, 0x00000000, .hfma2F16 true 75 105 45),
    (0x5A92F4AD, 0x00000000, .hmin2F16 true 75 105 45),
    (0x5AB2F4AD, 0x00000000, .hmax2F16 true 75 105 45),
    (0x5B12F4AD, 0x00000000, .hadd2Bf16 true 75 105 45),
    (0x5B32F4AD, 0x00000000, .hsub2Bf16 true 75 105 45),
    (0x5B52F4AD, 0x00000000, .hmul2Bf16 true 75 105 45),
    (0x5B72F4AD, 0x00000000, .hfma2Bf16 true 75 105 45),
    (0x5B92F4AD, 0x00000000, .hmin2Bf16 true 75 105 45),
    (0x5BB2F4AD, 0x00000000, .hmax2Bf16 true 75 105 45)].all reads = true := by decide +kernel
theorem test_words_major_17 : [(0x5F7A56AC, 0x00000000, .cvt true 11 105 45 5 4)].all reads = true := by decide +kernel
theorem test_words_major_18 : [(0x6200400D, 0x00000000, .fmtSet true 1 13),
    (0x6232C001, 0x00000000, .fmtGet true 75 1),
    (0x6252C800, 0x00000000, .sbexp true 75 1),
    (0x6272C8A5, 0x00000000, .sbq true 75 1 1 37),
    (0x628C56A5, 0x00000000, .sbdq true 3 1 45 37),
    (0x62B2E906, 0x00000000, .mxexp true 75 41 6),
    (0x62D2E92D, 0x00000000, .mxq true 75 41 45),
    (0x62E5B4AD, 0x00000000, .mxdq true 11 105 45),
    (0x6312F48D, 0x00000000, .pack true 75 105 13),
    (0x6332F48D, 0x00000000, .unpack true 75 105 13),
    (0x6352C880, 0x00000000, .uexp true 75 1 1)].all reads = true := by decide +kernel
theorem test_words_major_19 : [(0x6602F480, 0x00000000, .tshape true 11 105),
    (0x6622C000, 0x00000000, .tzero true 11),
    (0x66459480, 0x00000000, .tinfo true 11 41),
    (0x6662F480, 0x00000000, .tfill true 11 105),
    (0x6682C000, 0x00000000, .tfree true 11),
    (0x66A2F480, 0x00000000, .tmask true 11 105),
    (0x66A2C001, 0x00000000, .tmaskClr true 11)].all reads = true := by decide +kernel
theorem test_words_major_1A : [(0x6A02F6F4, 0x00000000, .mma true 11 1 45 1 52),
    (0x6A22F6F4, 0x00000000, .mmaZ true 11 1 45 1 52),
    (0x6A42F6F4, 0x00000000, .mmi true 11 1 45 1 52),
    (0x6A62F6F4, 0x00000000, .mmiZ true 11 1 45 1 52)].all reads = true := by decide +kernel
theorem test_words_major_1B : [(0x6E02F6F4, 0xF8000052, .mmas true 11 1 45 1 52 1 18),
    (0x6E22F6F4, 0xF8000052, .mmasZ true 11 1 45 1 52 1 18),
    (0x6E42F6F4, 0xF8000052, .mmis true 11 1 45 1 52 1 18),
    (0x6E62F6F4, 0xF8000052, .mmisZ true 11 1 45 1 52 1 18)].all reads = true := by decide +kernel
theorem test_words_major_1C : [(0x7212D4AD, 0x00000000, .trow true 75 41 45),
    (0x7222F4AD, 0x00000000, .twrow true 11 105 45),
    (0x7252D4AD, 0x00000000, .tcol true 75 41 45),
    (0x7262F4AD, 0x00000000, .twcol true 11 105 45),
    (0x7282F4AD, 0x00000000, .tlds true 11 105 45),
    (0x72A2F4AD, 0x00000000, .tsts true 11 105 45),
    (0x72C2E92D, 0x00000000, .tldg true 11 41 45),
    (0x72E2E92D, 0x00000000, .tstg true 11 41 45)].all reads = true := by decide +kernel
theorem test_words_major_1D : [(0x7612C000, 0x00000000, .mbclose true 75),
    (0x7632C000, 0x00000000, .mbstat true 75)].all reads = true := by decide +kernel
theorem test_words_major_1E : [(0x7A12E92D, 0x00000000, .ldI8 true 75 41 45),
    (0x7A32E92D, 0x00000000, .ldZ8 true 75 41 45),
    (0x7A52E92D, 0x00000000, .ldI16 true 75 41 45),
    (0x7A72E92D, 0x00000000, .ldZ16 true 75 41 45),
    (0x7A92E92D, 0x00000000, .ld32 true 75 41 45),
    (0x7AA5A92D, 0x00000000, .ld64 true 11 41 45),
    (0x7ACB292D, 0x00000000, .ld128 true 11 41 45),
    (0x7AF2E92D, 0x00000000, .ldB true 75 41 45)].all reads = true := by decide +kernel
theorem test_words_major_1F : [(0x7E12E92D, 0x00000000, .st8 true 75 41 45),
    (0x7E32E92D, 0x00000000, .st16 true 75 41 45),
    (0x7E52E92D, 0x00000000, .st32 true 75 41 45),
    (0x7E65A92D, 0x00000000, .st64 true 11 41 45),
    (0x7E8B292D, 0x00000000, .st128 true 11 41 45),
    (0x7EB2E92D, 0x00000000, .stN4 true 75 41 45),
    (0x7ED2E92D, 0x00000000, .stN2 true 75 41 45)].all reads = true := by decide +kernel
theorem test_words_major_20 : [(0x8212F4AD, 0x00000000, .ldsI8 true 75 105 45),
    (0x8232F4AD, 0x00000000, .ldsZ8 true 75 105 45),
    (0x8252F4AD, 0x00000000, .ldsI16 true 75 105 45),
    (0x8272F4AD, 0x00000000, .ldsZ16 true 75 105 45),
    (0x8292F4AD, 0x00000000, .lds32 true 75 105 45),
    (0x82A5B4AD, 0x00000000, .lds64 true 11 105 45),
    (0x82CB34AD, 0x00000000, .lds128 true 11 105 45),
    (0x82F2F4AD, 0x00000000, .ldsB true 75 105 45)].all reads = true := by decide +kernel
theorem test_words_major_21 : [(0x8612F4AD, 0x00000000, .sts8 true 75 105 45),
    (0x8632F4AD, 0x00000000, .sts16 true 75 105 45),
    (0x8652F4AD, 0x00000000, .sts32 true 75 105 45),
    (0x8665B4AD, 0x00000000, .sts64 true 11 105 45),
    (0x868B34AD, 0x00000000, .sts128 true 11 105 45),
    (0x86B2F4AD, 0x00000000, .stsN4 true 75 105 45),
    (0x86D2F4AD, 0x00000000, .stsN2 true 75 105 45)].all reads = true := by decide +kernel
theorem test_words_major_22 : [(0x8A12E92C, 0xF8AAAAA5, .ldx true 75 41 1 1 4 11184805),
    (0x8A33292C, 0xF8AAAAA5, .stx true 76 41 1 1 4 11184805),
    (0x8A5A3485, 0xF8AAAAA5, .ldsx true 104 105 5 11184805),
    (0x8A72F485, 0xF8AAAAA5, .stsx true 75 105 5 11184805)].all reads = true := by decide +kernel
theorem test_words_major_23 : [(0x8E12E920, 0x00000000, .ldAcq32 true 75 41 1),
    (0x8E25A920, 0x00000000, .ldAcq64 true 11 41 1),
    (0x8E52E920, 0x00000000, .stRel32 true 75 41 1),
    (0x8E65A920, 0x00000000, .stRel64 true 11 41 1),
    (0x8E800060, 0x00000000, .fenceAcq true 3),
    (0x8EA00060, 0x00000000, .fenceRel true 3),
    (0x8EC00060, 0x00000000, .fenceAr true 3),
    (0x8EE00060, 0x00000000, .fenceSc true 3)].all reads = true := by decide +kernel
theorem test_words_major_24 : [(0x92000B69, 0x00000000, .pf true 11 105),
    (0x92200B69, 0x00000000, .pf2 true 11 105),
    (0x92400B20, 0x00000000, .icinv true 11 1),
    (0x92600B00, 0x00000000, .l1inv true 11),
    (0x92600001, 0x00000000, .l1invAll true),
    (0x92800B00, 0x00000000, .evict true 11),
    (0x92B2F480, 0x00000000, .l2part true 75 105)].all reads = true := by decide +kernel
theorem test_words_major_25 : [(0x96002581, 0x00000000, .wpath true 75 1),
    (0x96202580, 0x00000000, .wbatch true 75),
    (0x9652C009, 0x00000000, .wfut true 75 9),
    (0x9672F480, 0x00000000, .wany true 75 105),
    (0x9692C009, 0x00000000, .fpoll true 75 9),
    (0x96B2F480, 0x00000000, .wtree true 75 105)].all reads = true := by decide +kernel
theorem test_words_major_26 : [(0x9A12C000, 0x00000000, .rclk true 75),
    (0x9A200000, 0x00000000, .rtick true),
    (0x9A400002, 0x00000000, .rmode true 2),
    (0x9A72C000, 0x00000000, .rnext true 75),
    (0x9A800B69, 0x00000000, .rclr true 11 105)].all reads = true := by decide +kernel
theorem test_words_major_27_1 : [(0x9E12E905, 0x00000000, .aadd true 75 41 1 1),
    (0x9E32E905, 0x00000000, .aaddF32 true 75 41 1 1),
    (0x9E52E905, 0x00000000, .aaddBf16x2 true 75 41 1 1),
    (0x9E72E905, 0x00000000, .aaddF16x2 true 75 41 1 1),
    (0x9E92E905, 0x00000000, .aminI true 75 41 1 1),
    (0x9EB2E905, 0x00000000, .amaxI true 75 41 1 1),
    (0x9ED2E905, 0x00000000, .aminZ true 75 41 1 1),
    (0x9EF2E905, 0x00000000, .amaxZ true 75 41 1 1),
    (0x9F12E905, 0x00000000, .aand true 75 41 1 1),
    (0x9F32E905, 0x00000000, .aor true 75 41 1 1),
    (0x9F52E905, 0x00000000, .axor true 75 41 1 1),
    (0x9F72E905, 0x00000000, .axch true 75 41 1 1)].all reads = true := by decide +kernel
theorem test_words_major_27_2 : [(0x9F92E905, 0x00000000, .ainc true 75 41 1 1),
    (0x9FB2E905, 0x00000000, .adec true 75 41 1 1),
    (0x9FD2E905, 0x00000000, .aminF32 true 75 41 1 1),
    (0x9FF2E905, 0x00000000, .amaxF32 true 75 41 1 1)].all reads = true := by decide +kernel
theorem test_words_major_28 : [(0xA205B485, 0xF8000080, .aadd64 true 11 105 1 1 1),
    (0xA225B485, 0xF8000080, .aminI64 true 11 105 1 1 1),
    (0xA245B485, 0xF8000080, .amaxI64 true 11 105 1 1 1),
    (0xA265B485, 0xF8000080, .aminZ64 true 11 105 1 1 1),
    (0xA285B485, 0xF8000080, .amaxZ64 true 11 105 1 1 1),
    (0xA2A5B485, 0xF8000080, .axch64 true 11 105 1 1 1),
    (0xA2D2F485, 0xF8000096, .acas true 75 105 1 1 1 22),
    (0xA2E5B485, 0xF80000AC, .acas64 true 11 105 1 1 1 22),
    (0xA30B3485, 0xF80000D8, .acas128 true 11 105 1 1 1 22),
    (0xA32B3485, 0xF8000080, .amaxp true 11 105 1 1 1)].all reads = true := by decide +kernel
theorem test_words_major_29_1 : [(0xA612E909, 0x00000000, .redAdd true 75 41 1 1),
    (0xA632E909, 0x00000000, .redAddF32 true 75 41 1 1),
    (0xA652E909, 0x00000000, .redAddBf16x2 true 75 41 1 1),
    (0xA672E909, 0x00000000, .redAddF16x2 true 75 41 1 1),
    (0xA692E909, 0x00000000, .redMinI true 75 41 1 1),
    (0xA6B2E909, 0x00000000, .redMaxI true 75 41 1 1),
    (0xA6D2E909, 0x00000000, .redMinZ true 75 41 1 1),
    (0xA6F2E909, 0x00000000, .redMaxZ true 75 41 1 1),
    (0xA712E909, 0x00000000, .redAnd true 75 41 1 1),
    (0xA732E909, 0x00000000, .redOr true 75 41 1 1),
    (0xA752E909, 0x00000000, .redXor true 75 41 1 1),
    (0xA765A909, 0x00000000, .redAdd64 true 11 41 1 1)].all reads = true := by decide +kernel
theorem test_words_major_29_2 : [(0xA792E909, 0x00000000, .redMinF32 true 75 41 1 1),
    (0xA7B2E909, 0x00000000, .redMaxF32 true 75 41 1 1)].all reads = true := by decide +kernel
theorem test_words_major_2A : [(0xAA12F401, 0x00000000, .vconf true 75 104 1),
    (0xAA32F401, 0x00000000, .vconfl true 75 104 1),
    (0xAA52F401, 0x00000000, .vuniq true 75 104 1),
    (0xAA72E900, 0x00000000, .scombF32 true 75 41),
    (0xAA92E900, 0x00000000, .scombI32 true 75 41),
    (0xAAB2E900, 0x00000000, .scombBf16x2 true 75 41)].all reads = true := by decide +kernel
theorem test_words_major_2B : [(0xAE12F4AD, 0x00000000, .barArr true 75 105 45),
    (0xAE2025E9, 0x00000000, .barWait true 75 105),
    (0xAE402580, 0x00000000, .barSync true 75),
    (0xAE6025E9, 0x00000000, .barInit true 75 105),
    (0xAE92F4AD, 0x00000000, .barArrx true 75 105 45),
    (0xAEB2F480, 0x00000000, .cbarInit true 75 105),
    (0xAEB2F481, 0x00000000, .cbarArr true 75 105),
    (0xAEB2F482, 0x00000000, .cbarWait true 75 105),
    (0xAEA02583, 0x00000000, .cbarSync true 75)].all reads = true := by decide +kernel
theorem test_words_major_2C : [(0xB205A901, 0x00000000, .waddrEq true 11 41 1),
    (0xB225A901, 0x00000000, .waddrNe true 11 41 1),
    (0xB245A901, 0x00000000, .waddrLt true 11 41 1),
    (0xB265A901, 0x00000000, .waddrGe true 11 41 1),
    (0xB285A901, 0x00000000, .waddrAny true 11 41 1)].all reads = true := by decide +kernel
theorem test_words_major_2D : [(0xB612E434, 0xF800013B, .cpt true 75 9 13 1 0 1 1 1 3),
    (0xB632E434, 0xF80014B3, .cpm true 75 9 13 5 0 2 1 1 3),
    (0xB652E434, 0xF800013B, .cps true 75 9 13 1 0 1 1 1 3),
    (0xB672E95A, 0xF80040B9, .cpf true 75 41 45 1 0 2 1 1 1 1),
    (0xB692E434, 0xF80280B9, .cpr true 75 9 13 5 0 2 1 1 1 1)].all reads = true := by decide +kernel
theorem test_words_major_2E : [(0xBA12D234, 0xF800013B, .gth true 75 9 13 1 0 1 1 1 3),
    (0xBA32D234, 0xF800013B, .sct true 75 9 13 1 0 1 1 1 3),
    (0xBA52D234, 0xF80280B9, .sctr true 75 9 13 5 0 2 1 1 1 1)].all reads = true := by decide +kernel
theorem test_words_major_2F : [(0xBE0025E9, 0x00000000, .rbInit true 75 105),
    (0xBE25B4AD, 0x00000000, .rbAwait true 11 105 45),
    (0xBE4025E9, 0x00000000, .rbRel true 75 105),
    (0xBE65B480, 0x00000000, .rbStat true 11 105),
    (0xBE92F4AD, 0x00000000, .rbCred true 75 105 45)].all reads = true := by decide +kernel
theorem test_words_major_30 : [(0xC212E90D, 0x00000000, .spawn true 75 41 13),
    (0xC232C000, 0x00000000, .treeOpen true 75),
    (0xC2402580, 0x00000000, .treeClose true 75),
    (0xC2402581, 0x00000000, .treeCloseFree true 75),
    (0xC2602580, 0x00000000, .treeCancel true 75),
    (0xC285B480, 0x00000000, .treeStat true 11 105),
    (0xC2A025D2, 0x00000000, .dlSet true 75 41),
    (0xC2C5B480, 0x00000000, .dlGet true 11 105),
    (0xC2F2F480, 0x00000000, .dlChk true 75 105)].all reads = true := by decide +kernel
theorem test_words_major_31 : [(0xC605B480, 0x00000000, .nalloc true 11 105),
    (0xC625B480, 0x00000000, .nallocT true 11 105),
    (0xC6400B69, 0x00000000, .nfree true 11 105),
    (0xC6602580, 0x00000000, .nreset true 75),
    (0xC685B480, 0x00000000, .ninfo true 11 105)].all reads = true := by decide +kernel
theorem test_words_major_32 : [(0xCA12F48D, 0x00000000, .cqPush true 75 105 13),
    (0xCA25B4AD, 0x00000000, .cqTake true 11 105 45),
    (0xCA400B69, 0x00000000, .cqPut true 11 105),
    (0xCA602580, 0x00000000, .cqFlush true 75),
    (0xCA8025E9, 0x00000000, .cqCfg true 75 105),
    (0xCAA5B480, 0x00000000, .cqStat true 11 105)].all reads = true := by decide +kernel
theorem test_words_major_33 : [(0xCE12F480, 0x00000000, .fdPop true 75 105),
    (0xCE32F480, 0x00000000, .fdTry true 75 105),
    (0xCE4025E9, 0x00000000, .fdPush true 75 105),
    (0xCE65B480, 0x00000000, .fdStat true 11 105)].all reads = true := by decide +kernel
theorem test_words_major_34 : [(0xD205A95A, 0xF80000F2, .colRay true 11 41 45 1 1 1 18),
    (0xD225A95A, 0xF80000F2, .colSph true 11 41 45 1 1 1 18),
    (0xD245A95A, 0xF80000F2, .colBox true 11 41 45 1 1 1 18),
    (0xD265A95A, 0xF80000F2, .colSweep true 11 41 45 1 1 1 18),
    (0xD285A95A, 0xF80000F2, .colDist true 11 41 45 1 1 1 18),
    (0xD2A5A95A, 0xF80000F2, .colUpd true 11 41 45 1 1 1 18)].all reads = true := by decide +kernel
theorem test_words_major_35 : [(0xD605A95A, 0xF80000F2, .dynFk true 11 41 45 1 1 1 18),
    (0xD625A95A, 0xF80000F2, .dynId true 11 41 45 1 1 1 18),
    (0xD645A95A, 0xF80000F2, .dynFd true 11 41 45 1 1 1 18),
    (0xD665A95A, 0xF80000F2, .dynStep true 11 41 45 1 1 1 18),
    (0xD685A95A, 0xF8004A7A, .dynJac true 11 41 45 37 0 1 1 26),
    (0xD6A5A95A, 0xF80000F2, .dynMass true 11 41 45 1 1 1 18)].all reads = true := by decide +kernel
theorem test_words_major_36 : [(0xDA001555, 0x00000000, .trap true 5461),
    (0xDA32F4B5, 0x00000000, .sys true 75 105 13 1),
    (0xDA401555, 0x00000000, .brk true 5461),
    (0xDA600000, 0x00000000, .eret true),
    (0xDA800000, 0x00000000, .eretR true),
    (0xDAA00000, 0x00000000, .tret true)].all reads = true := by decide +kernel
theorem test_words_major_37 : [(0xDE12F4AD, 0xF80DA696, .phint true 75 105 45 1 180 1686),
    (0xDE32F4AD, 0xF80DA696, .ppoint true 75 105 45 1 180 1686)].all reads = true := by decide +kernel
theorem test_words_major_38 : [(0xE2002580, 0x00000000, .tmark true 75),
    (0xE2258000, 0x00000000, .tstamp true 11),
    (0xE245B480, 0x00000000, .pctr true 11 105),
    (0xE2600000, 0x00000000, .tctlOff true),
    (0xE2600019, 0x00000000, .tctlOn true 3),
    (0xE2600002, 0x00000000, .tctlFlush true)].all reads = true := by decide +kernel
/-! ### Terms that the checks of WellFormed refuse -/

/-- Reserved operand codes: rounding codes, element codes, format fields, scopes without a flag, live-map modes. -/
theorem test_reserved_codes_are_ill_formed : [.fmask false 0 3, .frint false 1 2 5, .cvt false 1 2 0 13 0, .cvt false 1 2 0 0 6, .fmtSet false 7 0, .fmtSet false 0 16,
    .sbq false 2 2 0 0, .sbdq false 2 0 4 0, .uexp false 1 2 0, .mxexp false 1 2 2, .mxexp false 1 2 9, .pack false 1 2 0, .pack false 1 127 1,
    .unpack false 127 2 1, .colRay false 0 0 0 1 0 0 0, .dynFk false 0 0 0 1 0 0 0, .phint false 0 0 0 3 0 0, .phint false 0 0 0 0 1 0].all
  (fun i : Instr => !i.wellFormed && i.badCode) = true := by decide +kernel
/-- Operands misaligned for their width. -/
theorem test_misaligned_operands_are_ill_formed : [.sbq false 3 2 2 0, .ldx false 5 0 0 0 5 0, .ldx false 6 0 0 0 6 0, .stx false 5 0 0 0 3 0, .ldsx false 5 0 5 0, .aadd64 false 0 5 0 0 0,
    .vconf false 1 5 1, .vuniq false 1 7 1].all (fun i : Instr => !i.wellFormed && i.badAlign) = true := by decide +kernel
/-- Special registers that do not exist or are read-only. -/
theorem test_unknown_special_registers_are_ill_formed : [.srd false 1 0x17, .srd false 1 0x19, .srd false 1 0x28, .swr false 1 0x00, .swr false 1 0x0D].all
  (fun i : Instr => !i.wellFormed && i.badSreg) = true := by decide +kernel
/-- A step of the device has no words. -/
theorem test_steps_have_no_words : Instr.wellFormed .powerOn = false := by decide +kernel
/-- Their neighbours are well formed. -/
theorem test_well_formed_terms : [.frint false 1 2 7, .cvt false 1 2 0 12 7, .fmtSet false 0 15, .mxexp false 1 2 3, .mxexp false 1 2 8, .pack false 1 126 1, .srd false 1 0x18,
    .swr false 1 0x18, .ldx false 4 0 0 0 6 0, .colRay false 0 0 0 1 1 0 0].all Instr.wellFormed = true := by decide +kernel
/-- Table 4-5 and 2.6: words that are refused, with their detail. -/
theorem test_refused_words : refused 0 0 = some 0 ∧ refused 0xFFFFFFFF 0 = some 0 ∧ refused 0xE4000000 0 = some 0 ∧ refused 0xF8000000 0 = some 2 ∧ refused 0xA0000000 0 = some 3
    ∧ refused 0xA1400000 0xF8000000 = some 4 ∧ refused 0x8CE00041 0 = some 5 ∧ refused 0x061FFFFC 0 = some 5 := by decide +kernel

/-! ### A small machine -/

/-- One context, whose first 2 MiB of addresses stand at 2 MiB; one group with 128 registers and 8 tiles, p0 set in lanes 0, 2, 5 and 7. It issues. -/
def base : State :=
  let s := State.reset.withFetchWord 32 0
  { s with cur := some (0, 0), groups := [{ fetchGroup with preds := Vector.ofFn fun k => if k.val = 0 then 0xA5 else 0 }] }
/-- The issuing fragment. -/
def me (s : State) (g : Bool) : Iss := ⟨0, 0, s.group 0, (s.group 0).frag 0, activeLanes (s.group 0) ((s.group 0).frag 0) g⟩
/-- The group changed. -/
def withG (f : Group → Group) : State := base.modG 0 f
/-- The fragment changed. -/
def withF (f : Frag → Frag) : State := base.modF 0 0 f
/-- A register of the group holds `v l` in each lane. -/
def setR (r : Nat) (v : Nat → Word) (g : Group) : Group := { g with regs := setAt g.regs r (Vector.ofFn fun l => v l.val) }
/-- A pair holds a value in every lane. -/
def setP (r : Nat) (v : Word64) (g : Group) : Group := setR (r + 1) (fun _ => hi32 v) (setR r (fun _ => lo32 v) g)

/-- What CanIssue asks of the issuing fragment: each part of it can be decided. -/
abbrev Able (s : State) (g : Bool) (reads writes preds : List Nat) (dests : List Nat := []) : Prop :=
  let i := me s g
  (s.cur = some (0, 0) ∧ 0 < s.groups.length ∧ 0 < i.g.frags.length) ∧ (∀ r ∈ reads ++ writes, i.phys r < i.N)
    ∧ (∀ l ∈ i.lanes.lanes, ∀ r ∈ (reads ++ writes).map i.phys ++ (if g then [512] else []) ++ (preds ++ dests).map (512 + ·), i.g.owes r l = false)
    ∧ (∀ p ∈ i.g.poison, (p.reg ∈ reads.map i.phys → p.lanes &&& i.lanes = 0) ∧ (g = true → p.reg = 512 → p.lanes &&& i.f.amask = 0)
        ∧ (p.reg ∈ preds.map (512 + ·) → p.lanes &&& i.lanes = 0))
    ∧ i.f.badSched = false ∧ (i.f.badFmt = true → s.readsFmt = false)
theorem able {s : State} {g : Bool} {reads writes preds dests : List Nat} (h : Able s g reads writes preds dests) :
    CanIssue s g reads writes preds (me s g) dests where
  cur := by rw [State.issuing, h.1.1]; rfl
  gi := h.1.2.1
  fi := h.1.2.2
  held := h.2.1
  free := h.2.2.1
  clean p hp := (h.2.2.2.1 p hp).1
  cleanGuard p hp := (h.2.2.2.1 p hp).2.1
  cleanPred p hp := (h.2.2.2.1 p hp).2.2
  sound := h.2.2.2.2
/-- A result that is there meets a property, if the property holds of what the result holds. -/
theorem found {ε α : Type} {P : α → Prop} : {x : Except ε α} → (∃ y ∈ x.toOption, P y) → ∃ y, x = .ok y ∧ P y
  | .ok y, h => ⟨y, rfl, let ⟨_, hm, hp⟩ := h; Option.some.inj hm ▸ hp⟩
theorem ok_of {ε α : Type} : {x : Except ε α} → {y : α} → x.toOption = some y → x = .ok y
  | .ok _, _, h => Option.some.inj h ▸ rfl

/-! ### Results: the spec's worked examples -/

/-- The state behind an instruction. -/
def behind (s : State) (i : Instr) : Option State := match exec i s with | .next t => some t | _ => none
/-- Register r of lane l behind it. -/
def gives (s : State) (i : Instr) (r l : Nat) : Option Word := (behind s i).map fun t => (t.group 0).lane r l
/-- Registers 1 to 3 in every lane. -/
def abc (a b c : Word) : State := withG fun g => setR 3 (fun _ => c) (setR 2 (fun _ => b) (setR 1 (fun _ => a) g))
/-- 6.3: −7 by 2 gives −3, and −1 remains. -/
theorem test_div : gives (abc 0xFFFFFFF9 2 0) (.divI false 3 1 2) 3 15 = some 0xFFFFFFFD ∧ gives (abc 0xFFFFFFF9 2 0) (.remI false 3 1 2) 3 0 = some 0xFFFFFFFF := by
  decide +kernel
/-- 6.3: the four products add −2 to d. -/
theorem test_dp4 : gives (abc 0x80FF7F01 0x02020202 10) (.dp4I8 false 3 1 2) 3 0 = some 8 := by decide +kernel
/-- 7.2: frint of −0.5 and 2.5 under RNE, and of 2.5 under RNA. -/
theorem test_frint : gives (abc 0xBF000000 0 0) (.frint false 3 1 0) 3 0 = some 0x80000000 ∧ gives (abc 0x40200000 0 0) (.frint false 3 1 0) 3 0 = some 0x40000000
    ∧ gives (abc 0x40200000 0 0) (.frint false 3 1 4) 3 0 = some 0x40400000 := by decide +kernel
/-- 7.2: fma rounds once, fmul and fadd twice. -/
theorem test_fma : gives (abc 0x3F800001 0x3F800001 0xBF800002) (.fma false 3 1 2) 3 0 = some 0x28800000
    ∧ gives (abc 0x3F800001 0x3F800001 0) (.fmul false 3 1 2) 3 0 = some 0x3F800002
    ∧ gives (abc 0x3F800002 0xBF800002 7) (.fadd false 3 1 2) 3 0 = some 0 := by decide +kernel
/-- 7.4: exp2 of 0.5 and sigm of +0. -/
theorem test_exp2 : gives (abc 0x3F000000 0 0) (.exp2 false 3 1) 3 0 = some 0x3FB504F3 ∧ gives (abc 0 0 0) (.sigm false 3 1) 3 0 = some 0x3F000000 := by decide +kernel
/-- 7.5: both halves round to 1.0. -/
theorem test_hadd2 : gives (abc 0x3F803F80 0x3B800080 0) (.hadd2Bf16 false 3 1 2) 3 0 = some 0x3F803F80 := by decide +kernel
/-- 8.8: pack.e2m1 v2, v8. -/
theorem test_pack : gives (withG fun g => setR 9 (fun l => if l = 0 then 0xA else 0) (setR 8 (fun l => if l = 0 then 7 else 0) g)) (.pack false 2 8 7) 2 0 = some 0xA7 := by
  decide +kernel
/-- 8.7: the MXFP4 block, 6.0, −1.25 and 0.2 in elements 0 to 2. -/
def mxBlock : State :=
  withG (setR 20 fun l => [0x40C00000, 0xBFA00000, 0x3E4CCCCD][l]?.getD 0)
theorem test_mxexp : gives mxBlock (.mxexp false 30 10 7) 30 0 = some 0x77F := by decide +kernel
theorem test_mxq : gives (mxBlock.modG 0 (setR 30 fun _ => 0x77F)) (.mxq false 31 10 30) 31 0 = some 0xA7
    ∧ gives (mxBlock.modG 0 (setR 30 fun _ => 0x77F)) (.mxq false 31 10 30) 31 1 = some 0 := by decide +kernel
/-- 8.5: the SB4 block with 3.0, 1.0, −0.3, −0.1 in row 0 and 0.5, 0.25 in row 1; register 40 holds E and MU. -/
def sbBlock (e : Nat → Word) : State :=
  let row (xs : List Word) (l : Nat) : Word := xs[l]?.getD 0
  withG fun g => setR 40 e (setR 17 (row [0x3F000000, 0x3E800000]) (setR 16 (row [0x40400000, 0x3F800000, 0xBE99999A, 0xBDCCCCCD]) g))
theorem test_sbexp : gives (sbBlock fun _ => 0) (.sbexp false 40 1) 40 15 = some 0x8000 := by decide +kernel
theorem test_uexp : gives (sbBlock fun _ => 0x8000) (.uexp false 40 1 2) 40 1 = some 0x80FE ∧ gives (sbBlock fun _ => 0x8000) (.uexp false 40 1 2) 40 2 = some 0x80FF := by
  decide +kernel
theorem test_sbq : let s := sbBlock fun l => if l < 2 then 0x80FE else 0x80FF
    gives s (.sbq false 8 1 2 40) 8 0 = some 0x8926 ∧ gives s (.sbq false 8 1 2 40) 8 2 = some 1 := by decide +kernel
/-- 12.2: lanes 0 to 3 compare with 0 and swap 0, 7, 9 and 4 in; the word ends at 7. -/
theorem test_acas :
    let s := (withF fun f => { f with amask := 0xF }).modG 0 fun g => setP 8 0x20000 (setR 6 (fun l => [0, 7, 9, 4][l]?.getD 0) g)
    (behind s (.acas false 4 8 3 2 0 6)).map (·.mem.le 0x220000 4) = some 7 := by decide +kernel
/-- 12.2: 1.0, 1.0 and 2.0 are added to 2^24, one after the other. -/
theorem test_aadd :
    let s := (withF fun f => { f with amask := 7 }).modG 0 fun g => setP 8 0x20000 (setR 4 (fun l => if l = 2 then 0x40000000 else 0x3F800000) g)
    (behind { s with mem := s.mem.write 0x220000 (leBytes 4 0x4B800000) } (.aaddF32 false 4 4 0 2)).map (·.mem.le 0x220000 4) = some 0x4B800001 := by decide +kernel
/-- 2.2: with N = 64 and WB = 32 the field 31 names register 63, and the field 32 raises REGB. -/
theorem test_window :
    let s := (withF fun f => { f with wb := 32 }).modG 0 fun g => { setR 63 (fun _ => 7) g with regs := (setR 63 (fun _ => 7) g).regs.take 64 }
    gives s (.add false 10 31 31) 42 0 = some 14 ∧ (behind s (.add false 10 31 32)).map (fun t => (t.group 0).trap.code) = some 2 := by decide +kernel
/-- 19.3: one walk; its PA and what the page allows. -/
def tables : List (Nat × Nat) :=
  [(0x100000000, 0x100001001), (0x100001008, 0x100002001), (0x100002010, 0x100003001), (0x100003018, 0x100004001), (0x100004020, 0x080000024567820F)]
def walked : State := { base with mem := tables.foldl (fun m e => m.write e.1 (leBytes 8 e.2)) [] }
theorem test_walk : walk walked 0x100000000 0x8080604F08 = .page { frame := 0x245678, r := true, w := true, x := false, trk := true, ext := false, cpol := 0, dcls := 2 } 12 := by
  decide +kernel
/-- 10.5: a page without a mapping stops lane 7 alone: PAGE, its address, its lane, a read of a lane. -/
theorem test_page :
    let s := withG fun g => setR 9 (fun _ => 0) (setR 8 (fun l => if l = 7 then 0x800000 else 0x20000 + BitVec.ofNat 32 (4 * l)) g)
    (behind s (.ld32 false 4 4 0)).map (fun t => ((t.group 0).trap.code, (t.group 0).trap.mask, (t.group 0).trap.addrLo, (t.group 0).trap.info)) = some (3, 0x80, 0x800000, 0x20) := by
  decide +kernel

/-- 15.5: the pendulum: dyn.id gives 17.0, dyn.fd of 17.0 gives 0.5, its mass matrix is 2.0. -/
def floats (xs : List Nat) : List Byte := xs.flatMap (leBytes 4)
def pendulumHead : List Byte := floats ([0x00010101, 0, 0xC1000000, 0] ++ List.replicate 12 0)
def pendulumJoint : List Byte :=
  let i := 0x3F800000
  floats ([0xFF00, 0, 0, i, i, 0, 0, 0, i, 0, 0, 0, i, 0, 0, 0, 0x40000000, i, 0, 0] ++ List.replicate 12 0)
theorem test_pendulum :
    modelOk pendulumHead pendulumJoint = true
      ∧ dynResult 1 0 pendulumHead pendulumJoint (floats [0, 0, 0x3F000000]) = [0x41880000]
      ∧ dynResult 2 0 pendulumHead pendulumJoint (floats [0, 0, 0x41880000]) = [0x3F000000]
      ∧ singular pendulumHead pendulumJoint (floats [0, 0, 0x41880000]) = false := by decide +kernel
/-- Two pendulums in line, each with its mass 1 from its axis: the mass matrix is (10, 4; 4, 2), and (1, 1) of torque turn them at -8.5 and 9.5. -/
theorem test_two_pendulums :
    let i := 0x3F800000
    let h := floats ([0x00020202, 0, 0xC1000000, 0] ++ List.replicate 12 0)
    let js := pendulumJoint ++ floats ([0, 0, 0, i, i, 0, 0, 0, i, 0, 0, 0, i, i, 0, 0, 0x40000000, i, 0, 0] ++ List.replicate 12 0)
    dynResult 5 0 h js (floats [0, 0]) = [0x41200000, 0x40800000, 0x40800000, 0x40000000]
      ∧ dynResult 2 0 h js (floats [0, 0, i, i, i, i]) = [0xC1080000, 0x41180000] := by decide +kernel
/-- What Reaches asks, in parts that can be decided. -/
abbrev Lands (s : State) (i : Iss) (m : MemForm) (ea : Int) (pa : Nat) : Prop :=
  (m.sub = 0 → ea % m.size = 0)
    ∧ (m.space = .scratch → m.byteOf ea = pa ∧ m.byteOf ea + m.size ≤ (s.blockOf i.g).spSize ∧ (s.blockOf i.g).spRace = false ∧ (s.blockOf i.g).spBad = [])
    ∧ (m.space = .glob → ∃ y ∈ (access s i.g.core (s.pasidOf i.g) (m.byteOf ea).toNat m.kind).toOption,
        y.1 = pa ∧ isTracked s (s.pasidOf i.g) y.2 = false ∧ s.memBad = [])
theorem lands {s : State} {i : Iss} {m : MemForm} {ea : Int} {pa : Nat} (h : Lands s i m ea pa) : Reaches s i m ea pa := by
  refine ⟨h.1, ?_⟩
  match hm : m.space with
  | .scratch => exact h.2.1 hm
  | .glob =>
    have ⟨y, hy, hp⟩ := found (h.2.2 hm)
    exact ⟨y.2, hp.1 ▸ hy, hp.2⟩
/-- An access finds a place whose page has a property. -/
theorem finds {P : Xlate → Prop} {r : Except (Nat × Nat) (Nat × Xlate)} {pa : Nat} (h : ∃ y ∈ r.toOption, y.1 = pa ∧ P y.2) : ∃ x, r = .ok (pa, x) ∧ P x :=
  let ⟨y, hy, hp⟩ := found h
  ⟨y.2, hp.1 ▸ hy, hp.2⟩
theorem placed {r : Except (Nat × Nat) (Nat × Xlate)} {pa : Nat} (h : ∃ y ∈ r.toOption, y.1 = pa) : ∃ x, r = .ok (pa, x) :=
  let ⟨x, hx⟩ := found h
  ⟨x.2, hx.2 ▸ hx.1⟩

/-- With no store and no transfer on its way, none goes to a remote line. -/
theorem settled {s : State} (h : s.unperf = []) (hx : s.groups.all (·.xfers.isEmpty) = true) (pas : List (Nat × Nat)) : Settled s pas :=
  ⟨fun e he => by simp [h] at he, fun g hg x hx' => by simp [List.isEmpty_iff.mp (List.all_eq_true.mp hx g hg)] at hx'⟩

/-! ### Witnesses: registers and predicates (chapters 5 to 8) -/

/-- The hypothesis of PutsRegs and PutsBoth for the forms of chapter 6: reads and writes up to the last register, under a guard. -/
theorem witness_IntegerRegisterResults : CanIssue base true [126, 127] ((List.range 1).map (127 + ·)) [] (me base true)
    ∧ CanIssue base false [127] ((List.range 2).map (126 + ·)) [] (me base false) := ⟨able (by decide +kernel), able (by decide +kernel)⟩
theorem witness_IntegerImmediateResults : CanIssue base true [127] ((List.range 1).map (127 + ·)) [] (me base true) := able (by decide +kernel)
theorem witness_CarryChainResults : CanIssue base true [1, 2] ((List.range 1).map (127 + ·)) [6] (me base true) := able (by decide +kernel)
theorem witness_LogicAndShiftResults : CanIssue base true [1, 2, 127] ((List.range 1).map (127 + ·)) [] (me base true) := able (by decide +kernel)
theorem witness_IntegerComparisons : CanIssue base true [126, 127] [] [7] (me base true) ∧ CanIssue base true (pairOf 63 ++ pairOf 0) [] [7] (me base true) :=
  ⟨able (by decide +kernel), able (by decide +kernel)⟩
theorem witness_PairAndConstantResults : CanIssue base true (pairOf 63 ++ pairOf 0) ((List.range 2).map ((pairFld 63).toNat + ·)) [] (me base true) :=
  able (by decide +kernel)
theorem witness_LaneMovesAndReductions : CanIssue base true [127, 0] ((List.range 1).map (127 + ·)) [0] (me base true) := able (by decide +kernel)
theorem witness_PredicateLogic : CanIssue base true [] [] [7, 6, 5] (me base true) ∧ CanIssue base true [127] [] [7] (me base true) :=
  ⟨able (by decide +kernel), able (by decide +kernel)⟩
theorem witness_AddressAndConflictResults : CanIssue base true (pairOf 63 ++ [127]) ((List.range 2).map ((pairFld 0).toNat + ·)) [] (me base true)
    ∧ CanIssue base true (127 :: pairOf 63) ((List.range 1).map (127 + ·)) [0] (me base true) := ⟨able (by decide +kernel), able (by decide +kernel)⟩
theorem witness_FloatResults : CanIssue base true [126, 127, 5] ((List.range 1).map (5 + ·)) [] (me base true) := able (by decide +kernel)
theorem witness_FloatComparisons : CanIssue base true [126, 127] [] [7] (me base true)
    ∧ (∃ x y : Val, x.isNan = true ∨ y.isNan = true) := ⟨able (by decide +kernel), .nan, .nan, .inl rfl⟩
theorem witness_PackedHalfResults : CanIssue base true [126, 127, 5] ((List.range 1).map (5 + ·)) [] (me base true) := able (by decide +kernel)
theorem witness_NumberFormatResults : (CanIssue base true [] [] [] (me base true) ∧ (me base true).lanes ≠ 0)
    ∧ CanIssue base true (127 :: runOf (16 * 7 - 1) 16) [127] [] (me base true)
    ∧ CanIssue base true (127 :: runOf 0 16) ((List.range 4).map (124 + ·)) [] (me base true)
    ∧ CanIssue base true (127 :: runOf 124 4) ((List.range 16).map (112 + ·)) [] (me base true)
    ∧ CanIssue base true [127] ((List.range 16).map (112 + ·)) [] (me base true) :=
  ⟨⟨able (by decide +kernel), by decide +kernel⟩, able (by decide +kernel), able (by decide +kernel), able (by decide +kernel),
    able (by decide +kernel)⟩
theorem witness_SpecialRegisterReads : CanIssue base true [] [127] [] (me base true) ∧ (me base true).lanes ≠ 0 ∧ (base.ctx (base.pasidOf (me base true).g)).replay = false :=
  ⟨able (by decide +kernel), by decide +kernel⟩
/-- WB at the last window, FMT and PRIO at values that pass. -/
theorem witness_SpecialRegisterWrites :
    let s (v : Word) : State := withG (setR 5 (fun _ => v))
    CanIssue (s 96) true [5] [] [] (me (s 96) true) ∧ (me (s 96) true).lanes ≠ 0
    ∧ ((me (s 96) true).reg 5 (me (s 96) true).lo).toNat % 32 = 0 ∧ ((me (s 96) true).reg 5 (me (s 96) true).lo).toNat + 32 = (me (s 96) true).N
    ∧ badFmt ((me (s 0) true).reg 5 (me (s 0) true).lo) = false
    ∧ ((me (s 0) true).reg 5 (me (s 0) true).lo).toNat ≤ (me (s 0) true).g.ceiling :=
  ⟨able (by decide +kernel), by decide +kernel⟩
theorem witness_TagQueryIsTrue : CanIssue base true [127] [126] [] (me base true) := able (by decide +kernel)

/-! ### Witnesses: control flow -/

/-- Backward to address 0 and forward; the conditions hold and fail. -/
theorem witness_UniformBranches :
    let i := me base false
    CanIssue base false [] [] [0] i ∧ (i.f.pc.toNat : Int) + 4 * (BitVec.ofInt 21 (-0x4000)).toInt = 0 ∧ (i.f.pc.toNat : Int) + 4 * (0xFFFFF : BitVec 21).toInt < 2 ^ 52
      ∧ i.f.pc.toNat % 4 = 0 ∧ i.g.traced = false ∧ (i.lanes.has 0 = true ∧ i.preds 0 0 = true) ∧ (i.lanes.has 1 = true ∧ i.preds 0 1 = false) :=
  ⟨able (by decide +kernel), by decide +kernel⟩
theorem witness_CallsAndReturns :
    let s : State := (withG (setP 30 0x20000)).modF 0 0 fun f => { f with wb := 64 }
    let i := me s false
    CanIssue s false (pairOf 15) [62, 63] [] i ∧ i.g.traced = false ∧ i.f.held = [] ∧ i.f.wb + 64 = i.N ∧ i.f.pc.toNat % 4 = 0
      ∧ (i.pair (pairFld 15).toNat i.lo).toNat % 4 = 0 ∧ (i.pair (pairFld 15).toNat i.lo).toNat < 2 ^ 52 ∧ CanIssue s false [30, 31] [] [] i ∧ 32 ≤ i.f.wb :=
  ⟨able (by decide +kernel), by decide +kernel, by decide +kernel, by decide +kernel, by decide +kernel, by decide +kernel, by decide +kernel,
    able (by decide +kernel), by decide +kernel⟩
/-- The fragment holds lanes 0 to 3 under entry 14, which covers every lane; the others have arrived, or none has. -/
def joining (arrived : Mask) : State :=
  (withG fun g => { g with splits := setAt g.splits 14 (some { rpc := 0x20000, lanes := 0xFFFF, arrived := arrived }) }).modF 0 0 fun f => { f with inner := some 14, amask := 0x000F }
theorem witness_ControlInstructions :
    let i := me base true
    let late := me (joining 0xFFF0) false
    let early := me (joining 0) false
    CanIssue base true [] [] [] i [7] ∧ CanIssue base true [] [] [] i ∧ i.lanes ≠ 0 ∧ 32 * (3 : BitVec 7).toNat + 32 = i.N
      ∧ (CanIssue base false [] [] [] (me base false) ∧ i.f.inner = none)
      -- a join that is the last to arrive, and one that is not
      ∧ (CanIssue (joining 0xFFF0) false [] [] [] late ∧ CanIssue (joining 0) false [] [] [] early)
      ∧ (late.g.traced = false ∧ late.f.held = [] ∧ late.f.inner = some 14 ∧ ∃ en, late.g.splits[14]? = some (some en) ∧ en.arrived ||| late.f.amask = en.lanes)
      ∧ (∃ en, early.g.splits[14]? = some (some en) ∧ en.arrived ||| early.f.amask ≠ en.lanes)
      -- exits that leave lanes behind, that let an entry fuse, and that leave no lane
      ∧ (late.lanes ≠ 0 ∧ late.g.splits.length = 15 ∧ late.g.state = .resident
          ∧ ∃ en, late.g.splits[14]? = some (some en) ∧ en.lanes &&& ~~~late.lanes ≠ 0 ∧ en.arrived &&& ~~~late.lanes = en.lanes &&& ~~~late.lanes)
      ∧ (i.g.exited ||| i.lanes ≠ 0xFFFF ∧ (me base false).g.exited ||| (me base false).lanes = 0xFFFF) :=
  ⟨able (by decide +kernel), able (by decide +kernel), by decide +kernel, by decide +kernel, ⟨able (by decide +kernel), by decide +kernel⟩,
    ⟨able (by decide +kernel), able (by decide +kernel)⟩, ⟨by decide +kernel, by decide +kernel, by decide +kernel, _, rfl, by decide +kernel⟩,
    ⟨_, rfl, by decide +kernel⟩, ⟨by decide +kernel, by decide +kernel, by decide +kernel, _, rfl, by decide +kernel⟩, by decide +kernel⟩
/-- p0 differs between lanes, so that the branch splits; a pair that is the same in every lane is a jump. -/
theorem witness_DivergentBranches :
    let s : State := withG (setP 126 0x20000)
    let i := me s false
    CanIssue s false (pairOf 63) [] [0] i ∧ i.lanes ≠ 0 ∧ i.g.traced = false ∧ i.f.held = [] ∧ i.f.pc.toNat % 4 = 0 ∧ i.f.replay = none
      ∧ 0 ≤ (i.f.pc.toNat : Int) + 4 * (5 : BitVec 26).toInt ∧ (i.f.pc.toNat : Int) + 4 * (5 : BitVec 26).toInt < 2 ^ 52
      ∧ (∀ l, l < 16 → (i.pair (pairFld 63).toNat l).toNat = 0x20000) ∧ i.g.splits[14]? = some none ∧ i.preds 0 0 = true ∧ i.preds 0 1 = false :=
  ⟨able (by decide +kernel), by decide +kernel⟩

/-! ### Witnesses: tiles and matrix operations (chapter 9) -/

/-- Tile 7 with 32 rows of 128 bytes of FP32, register 5 the row or column 31, register 6 the address or tile word of 2.3. -/
def tiled (stride : Word) (rows : BitVec 8 := 31) : State :=
  withG fun g => { setP 8 0x20000 (setR 7 (fun _ => stride) (setR 6 (fun _ => 0x00071F3E) (setR 5 (fun _ => 31) g))) with
    tiles := setAt g.tiles 7 { rows := rows, rbytes := 7, shaped := true } }
theorem witness_TileConfiguration :
    let s := tiled 128
    let i := me s true
    CanIssue s true [6] [] [] i ∧ i.lanes ≠ 0 ∧ (6 < i.g.tiles.length ∧ i.g.tileUsed 6 = false ∧ (i.g.tile 6).stamp = none ∧ shapeOk (i.reg 6 i.lo).toNat = true)
      ∧ CanIssue s true [] (pairOf 63) [] i :=
  ⟨able (by decide +kernel), by decide +kernel, by decide +kernel, able (by decide +kernel)⟩
theorem witness_TileMoves :
    let s := tiled 128
    let i := me s true
    let t := i.g.tile 7
    (CanIssue s true [5] (runOf 126 t.rowRegs) [] i ∧ CanIssue s true [5] (runOf 126 t.colRegs) [] i ∧ CanIssue s true (5 :: runOf 126 t.rowRegs) [] [] i
        ∧ CanIssue s true (5 :: runOf 126 t.colRegs) [] [] i)
      ∧ i.lanes ≠ 0 ∧ 7 < i.g.tiles.length ∧ t.shaped = true ∧ i.g.tileUsed 7 = false ∧ t.owed = none ∧ 126 + t.rowRegs = 128 ∧ 126 + t.colRegs = 128
      ∧ (i.reg 5 i.lo).toNat + 1 = t.height ∧ (i.reg 5 i.lo).toNat + 1 = t.ecount ∧ t.data.wf = true :=
  ⟨⟨able (by decide +kernel), able (by decide +kernel), able (by decide +kernel), able (by decide +kernel)⟩, by decide +kernel⟩
theorem all_land {s : State} {i : Iss} {m : MemForm} {place : Int → Nat} {xs : List (Nat × Int)} (h : ∀ c ∈ xs, Lands s i m c.2 (place c.2)) :
    ∀ c ∈ xs, Reaches s i m c.2 (place c.2) := fun c hc => lands (h c hc)
theorem witness_TileTransfersIssue :
    let s := tiled 128 1
    let i := me s true
    let t := i.g.tile 7
    (CanIssue s true [7, 126] [] [] i ∧ CanIssue s true (7 :: pairOf 4) [] [] i) ∧ i.lanes ≠ 0 ∧ Quiet s i ∧ 7 < i.g.tiles.length ∧ t.shaped = true ∧ i.g.tileUsed 7 = false
      ∧ t.owed = none ∧ t.stamp = none ∧ i.g.optTs = false ∧ (i.reg 7 i.lo).toNat / 2 ^ 24 % 2 ^ 7 = 0 ∧ (i.reg 7 i.lo).toNat % 16 = 0 ∧ (i.reg 126 i.lo).toNat % 16 = 0
      ∧ (i.pair (pairFld 4).toNat i.lo).toNat % 16 = 0
      ∧ (∀ c ∈ xferChunks t .scratch (i.reg 126 i.lo).toNat (i.reg 7 i.lo).toNat, Reaches s i { space := .scratch, size := 16, write := true, pol := 1, kind := .write } c.2 c.2.toNat)
      ∧ (∀ c ∈ xferChunks t .glob (i.pair (pairFld 4).toNat i.lo).toNat (i.reg 7 i.lo).toNat,
          Reaches s i { space := .glob, size := 16, write := false, pol := 1, kind := .read } c.2 (0x200000 + c.2.toNat))
      ∧ (∀ pas, Settled s pas)
      ∧ ∀ c ∈ xferChunks t .glob (i.pair (pairFld 4).toNat i.lo).toNat (i.reg 7 i.lo).toNat,
          Reaches s i { space := .glob, size := 16, write := true, pol := 1, kind := .write } c.2 (0x200000 + c.2.toNat) :=
  have free : (me (tiled 128 1) true).g.tileUsed 7 = false ∧ ((me (tiled 128 1) true).g.tile 7).owed = none ∧ ((me (tiled 128 1) true).g.tile 7).stamp = none
      ∧ (me (tiled 128 1) true).g.optTs = false := by decide +kernel
  have lined : ((me (tiled 128 1) true).reg 7 (me (tiled 128 1) true).lo).toNat / 2 ^ 24 % 2 ^ 7 = 0 ∧ ((me (tiled 128 1) true).reg 7 (me (tiled 128 1) true).lo).toNat % 16 = 0
      ∧ ((me (tiled 128 1) true).reg 126 (me (tiled 128 1) true).lo).toNat % 16 = 0
      ∧ ((me (tiled 128 1) true).pair (pairFld 4).toNat (me (tiled 128 1) true).lo).toNat % 16 = 0 := by decide +kernel
  ⟨⟨able (by decide +kernel), able (by decide +kernel)⟩, by decide +kernel, ⟨rfl, rfl⟩, by decide +kernel, by decide +kernel,
    free.1, free.2.1, free.2.2.1, free.2.2.2, lined.1, lined.2.1, lined.2.2.1, lined.2.2.2,
    all_land (place := Int.toNat) (by decide +kernel), all_land (place := fun e => 0x200000 + e.toNat) (by decide +kernel), settled rfl (by decide +kernel),
    all_land (place := fun e => 0x200000 + e.toNat) (by decide +kernel)⟩
/-- A load of two chunks from memory, and a store of two to the end of the scratchpad. -/
theorem witness_TileTransfersMoveTheirBytes :
    let x : Xfer := { seq := 9, fid := 0, tile := 7, store := false, scl := false, space := .glob, chunks := [(0, 0x220010), (16, 0x220000)] }
    let y : Xfer := { seq := 8, fid := 0, tile := 7, store := true, scl := false, space := .scratch, chunks := [(0, 4064), (16, 4080)] }
    let s := withG fun g => { g with xfers := [y, x] }
    0 < s.groups.length ∧ (s.group 0).xfers.find? (fun z => z.seq == 9) = some x ∧ (s.group 0).xfers.find? (fun z => z.seq == 8) = some y
      ∧ (x.tracked = false ∧ x.scl = false ∧ y.tracked = false ∧ y.scl = false) ∧ 7 < (s.group 0).tiles.length ∧ (s.group 0).block < s.blocks.length
      ∧ s.mem.wf = true ∧ ((s.group 0).tile 7).data.wf = true ∧ (s.block (s.group 0).block).sp.wf = true
      ∧ ((∀ c ∈ x.chunks, c.1 % 16 = 0) ∧ (x.chunks.map (·.1)).Nodup) ∧ (∀ c ∈ y.chunks, c.2 % 16 = 0) ∧ (y.chunks.map (·.2)).Nodup := by decide +kernel
/-- A of 1 by 4, B of 4 by 4 and D of 1 by 4 in FP32; with bytes for the integer form; with M for the sparse form. -/
def mats (elem : BitVec 4) (fmt : Word) (arb : BitVec 5) : State :=
  (withG fun g => { g with
    tiles := [{ elem := elem, rbytes := arb, shaped := true }, { elem := elem, rows := 3, rbytes := 1, shaped := true }, { shaped := true }, { elem := 11, shaped := true }] }).modF 0 0
      fun f => { f with fmt := fmt }
theorem witness_MatrixOperationsIssue :
    let can (s : State) (i : Iss) (op : MatOp) (named : List Nat) : Prop :=
      CanIssue s true [] [] [] i ∧ i.lanes ≠ 0 ∧ matFault i.g op = none ∧ i.g.tileUsed 2 = false ∧ engineQueue s i.g.core < 64
        ∧ ∀ t ∈ named, i.g.tileWritten t = false ∧ (i.g.tile t).owed = none ∧ (i.g.tile t).stamp = none
    can (mats 0 0 1) (me (mats 0 0 1) true) { seq := 0, dt := 2, af := 0, bf := 1, int := false, z := false, fmt := 0 } [0, 1, 2]
      ∧ can (mats 8 0x4088 1) (me (mats 8 0x4088 1) true) { seq := 0, dt := 2, af := 0, bf := 1, int := true, z := true, fmt := 0x4088 } [0, 1, 2]
      ∧ can (mats 0 0 0) (me (mats 0 0 0) true) { seq := 0, dt := 2, af := 0, bf := 1, int := false, z := false, sp := true, mt := 3, fmt := 0 } [0, 1, 2, 3] :=
  ⟨⟨able (by decide +kernel), by decide +kernel⟩, ⟨able (by decide +kernel), by decide +kernel⟩, able (by decide +kernel), by decide +kernel⟩
theorem witness_MatrixOperationsComplete :
    let o : MatOp := { seq := 0, dt := 2, af := 0, bf := 1, int := false, z := false, fmt := 0 }
    let s := (mats 0 0 1).modG 0 fun g => { g with ops := [o] }
    -- with a NaN in A its product is one, in a slice that holds it
    let ab := o.operands { s.group 0 with tiles := modAt (s.group 0).tiles 0 fun t => { t with data := t.data.write 0 [0, 0, 0xC0, 0x7F] } }
    (0 < s.groups.length ∧ (s.group 0).matStopped = false ∧ (s.group 0).ops = o :: [] ∧ o.badTile (s.group 0) = none ∧ o.dt < (s.group 0).tiles.length
      ∧ ((s.group 0).tile o.dt).data.wf = true)
    ∧ o.int = false ∧ o.fmt.getLsbD 13 = false ∧ 0 < ab.1.depth ∧ ∃ x ∈ ab.1.elem 0 0, ∃ y ∈ ab.2.elem 0 0, x.mul y = .nan := by decide +kernel
theorem witness_MatrixBatches :
    let i := me base true
    CanIssue base true [] [127] [] i ∧ i.lanes ≠ 0 ∧ i.g.closed.length < 16 ∧ CanIssue base true [127] [] [] i
      ∧ (i.reg 127 i.lo).truncate 4 ∉ i.g.closed ∧ ∀ e ∈ i.g.batchErr, e.1 ≠ (i.reg 127 i.lo).truncate 4 :=
  ⟨able (by decide +kernel), by decide +kernel, by decide +kernel, able (by decide +kernel), by decide +kernel⟩

/-! ### Witnesses: memory, waits, race instructions (chapters 10 and 11) -/

theorem lanes_land {s : State} {i : Iss} {m : MemForm} {ea : Nat → Int} {place : Nat → Nat}
    (h : ∀ l ∈ laneNums, i.lanes.has l = true → Lands s i m (ea l) (place l)) : ∀ l, i.lanes.has l = true → Reaches s i m (ea l) (place l) :=
  fun l hl => lands (h l (by have := BitVec.lt_of_getLsbD hl; simp [laneNums]; omega) hl)
/-- The pair 4 holds an address of 16 bytes before the end of a page, register 10 the last 16 bytes of the scratchpad, register 11 a few values. -/
def aimed : State := withG fun g => setR 13 (fun _ => 64) (setR 12 (fun _ => 0) (setR 11 (fun l => BitVec.ofNat 32 l) (setR 10 (fun _ => 4080) (setP 8 0x20FF0 g))))
theorem witness_LoadsReadMemory :
    let s := aimed
    let i := me s true
    (CanIssue s true (pairOf 4) (runOf 124 (ldCount 6)) [] i ∧ CanIssue s true [10] (runOf 124 (ldCount 6)) [] i) ∧ i.lanes ≠ 0 ∧ Quiet s i ∧ i.g.count .gm < 63
      ∧ i.g.count .sp < 63
      ∧ (∀ l, i.lanes.has l = true → Reaches s i { space := .glob, size := ldSize 6, pol := 0 } (gEa 4 0 i l) 0x220FF0)
      ∧ (∀ l, i.lanes.has l = true → Reaches s i { space := .scratch, size := ldSize 6, pol := 0 } (sEa 10 0 i l) 4080)
      ∧ (∀ pas, Settled s pas) ∧ ∀ x ∈ s.l1, x.core = i.g.core → x.bad = false ∧ x.bytes = s.mem.read (x.line * 64) 64 :=
  ⟨⟨able (by decide +kernel), able (by decide +kernel)⟩, by decide +kernel, ⟨by decide +kernel, by decide +kernel⟩, by decide +kernel, by decide +kernel,
    lanes_land (place := fun _ => 0x220FF0) (by decide +kernel), lanes_land (place := fun _ => 4080) (by decide +kernel), settled rfl (by decide +kernel), by decide +kernel⟩
theorem witness_StoresCarryTheirBytes :
    let s := aimed
    let i := me s true
    let form (space : Space) (z : Nat) : MemForm :=
      { space := space, size := stSize z, write := true, sub := stSub z, pol := 0, kind := if stSub z = 0 then .write else .atomic }
    (CanIssue s true (pairOf 4 ++ runOf 124 (stCount 4)) [] [] i ∧ CanIssue s true ([10] ++ runOf 124 (stCount 4)) [] [] i) ∧ i.lanes ≠ 0 ∧ i.g.xfersOf i.f = []
      ∧ i.g.count .sp < 63
      ∧ (∀ l, i.lanes.has l = true → Reaches s i (form .glob 4) (gEa 4 0 i l) 0x220FF0)
      ∧ (∀ l, i.lanes.has l = true → Reaches s i (form .scratch 4) (sEa 10 0 i l) 4080)
      ∧ (∀ l, i.lanes.has l = true → Reaches s i (form .scratch 6) (sEa 10 0 i l) 1020)
      ∧ ∃ (m : Mem) (a : Nat), m.wf = true ∧ ∀ l, i.lanes.has l = true → a < 4080 ∨ 4080 + stSize 4 ≤ a :=
  ⟨⟨able (by decide +kernel), able (by decide +kernel)⟩, by decide +kernel, by decide +kernel, by decide +kernel,
    lanes_land (place := fun _ => 0x220FF0) (by decide +kernel), lanes_land (place := fun _ => 4080) (by decide +kernel),
    lanes_land (place := fun _ => 1020) (by decide +kernel), [], 4096, by decide, fun _ _ => .inr (by decide)⟩
theorem witness_StoresPerform :
    let e : Store := { gi := 0, fid := 0, seq := 3, cls := .atomic, scope := 2,
                       acc := [{ lane := 0, va := 0x20000, pa := 0x220000, size := 4, op := .add32, plain := false, val := 1 }, { lane := 2, va := 0x20000, pa := 0x220000, size := 4, val := 7 }] }
    let s : State := { base with unperf := [e] }
    s.unperf[0]? = some e ∧ e.acc ≠ [] ∧ canPerform s e = true ∧ s.hostLines = [] ∧ s.memBad = [] ∧ s.mem.wf = true ∧ ∀ x ∈ e.acc, x.tracked = false := by decide +kernel
theorem witness_ResultsReturn :
    let o : Outst := { path := .gm, seq := 4, fid := 0, writes := [⟨127, 15, 0x12345678⟩] }
    let p : Outst := { path := .at, seq := 5, fid := 0, preds := [(7, 15, true)] }
    let q : Outst := { path := .cf, seq := 6, fid := 0, act := .icinv [0] [1024] }
    let s := withG fun g => { g with outst := [o, p, q], check := some { fid := 0, seq := 7 } }
    0 < s.groups.length ∧ (s.group 0).state = .resident ∧ (s.group 0).outst.find? (fun o => o.seq == 4 && !o.returned && (o.path == .gm || o.path == .sp)) = some o
      ∧ (s.group 0).outst.find? (fun o => o.seq == 5 && !o.returned && (o.path == .at)) = some p
      ∧ ((s.group 0).outst.find? (fun o => o.seq == 6 && o.path == .cf && !o.returned) = some q ∧ q.act = .icinv [0] [1024])
      ∧ (s.group 0).check = some { fid := 0, seq := 7 } := by decide +kernel
theorem witness_OrderedAccessesAndFences :
    let s := aimed
    let i := me s true
    (CanIssue s true (pairOf 4) (runOf 126 (ldCount 5)) [] i ∧ CanIssue s true (pairOf 4 ++ runOf 126 (stCount 3)) [] [] i ∧ CanIssue s true [] [] [] i) ∧ i.lanes ≠ 0
      ∧ Quiet s i ∧ i.g.count .gm < 63 ∧ (∀ pas, Settled s pas)
      ∧ (∀ l, i.lanes.has l = true → Reaches s i { size := ldSize 5, pol := 1 } (gEa 4 0 i l) 0x220FF0)
      ∧ ∀ l, i.lanes.has l = true → Reaches s i { size := stSize 3, write := true, pol := 1, kind := .write } (gEa 4 0 i l) 0x220FF0 :=
  ⟨⟨able (by decide +kernel), able (by decide +kernel), able (by decide +kernel)⟩, by decide +kernel, ⟨by decide +kernel, by decide +kernel⟩,
    by decide +kernel, settled rfl (by decide +kernel), lanes_land (place := fun _ => 0x220FF0) (by decide +kernel), lanes_land (place := fun _ => 0x220FF0) (by decide +kernel)⟩
/-- `l2part` in a system handler, beside a context that has pinned other ways. -/
theorem witness_CacheControl :
    let s : State := { aimed.modF 0 0 fun f => { f with handler := some .system } with ctxs := aimed.ctxs ++ [{ pasid := 2, pinWays := 0xFF00 }] }
    let i := me s true
    (CanIssue s true (pairOf 4) [] [] i ∧ CanIssue s true [13] [127] [] i) ∧ i.lanes ≠ 0 ∧ i.g.count .cf < 63 ∧ i.f.handler = some .system
      ∧ (i.reg 13 i.lo).toNat < 2 ^ 16 ∧ ∀ c ∈ s.ctxs, c.alive = true → c.pasid ≠ s.pasidOf i.g → (i.reg 13 i.lo).truncate 16 &&& c.pinWays = 0 :=
  ⟨⟨able (by decide +kernel), able (by decide +kernel)⟩, by decide +kernel⟩
/-- Future 31 is READY, 30 PENDING and 29 VOID; subtree 0 has ended; the mask of `wany` names 30 and 31; the mode 2 is granted. -/
theorem witness_WaitsAndRaceInstructions :
    let s : State := { aimed.modG 0 (fun g => { setR 16 (fun _ => 0xC0000000) (setR 15 (fun _ => 0x100) g) with
        futures := setAt (setAt (setAt g.futures 31 { st := .ready }) 30 { st := .pending }) 29 { st := .void } }) with
      trees := setAt aimed.trees 0 { st := .ended, gen := 1, ctx := 1, ended := true }, ctxs := aimed.ctxs.map fun c => { c with raceGrant := 4 } }
    let i := me s true
    (CanIssue s true [13] [127] [] i ∧ CanIssue s true [] [127] [] i ∧ CanIssue s true [16] [127] [] i ∧ CanIssue s true [15] [127] [] i
        ∧ CanIssue s true (pairOf 4 ++ [13]) [] [] i) ∧ i.lanes ≠ 0 ∧ Quiet s i
      ∧ (i.g.count .cf ≤ (i.reg 13 i.lo).toNat ∧ i.g.count .cf < 63)
      ∧ (claimed i 31 = false ∧ (i.g.fut 31).st = .ready ∧ (i.g.fut 31).err = none ∧ (i.g.fut 29).st = .void ∧ (i.g.fut 30).st = .pending)
      ∧ ((i.reg 16 i.lo).getLsbD 31 = true ∧ (∀ j, j < 31 → (i.reg 16 i.lo).getLsbD j = true → (i.g.fut j).st = .pending)
          ∧ ∀ j, j < 32 → (i.reg 16 i.lo).getLsbD j = true → claimed i j = false ∧ (i.g.fut j).st ≠ .free)
      ∧ (i.f.stall = none ∧ s.treeNamed (s.pasidOf i.g) (i.reg 15 i.lo) = true ∧ (s.tree (hIndex (i.reg 15 i.lo))).ended = true)
      ∧ (2 : BitVec 2) ≠ 3 ∧ (s.ctxOf i.g).raceGrant.getLsbD 2 = true :=
  ⟨⟨able (by decide +kernel), able (by decide +kernel), able (by decide +kernel), able (by decide +kernel), able (by decide +kernel)⟩,
    by decide +kernel, ⟨by decide +kernel, by decide +kernel⟩, by decide +kernel⟩

/-! ### Witnesses: atomics, barriers, waits on words (chapter 12) -/

theorem witness_AtomicsUpdateInLaneOrder :
    let s := aimed
    let i := me s true
    (CanIssue s true (pairOf 4 ++ runOf 124 4 ++ runOf 120 4) (runOf 124 4) [] i ∧ CanIssue s true ([10] ++ runOf 124 4 ++ runOf 120 4) (runOf 124 4) [] i) ∧ i.lanes ≠ 0
      ∧ Quiet s i ∧ i.g.count .at < 63 ∧ (∀ pas, Settled s pas)
      ∧ (∀ l, i.lanes.has l = true → Reaches s i { space := .glob, size := 4 * 4, write := true, pol := 1, kind := .atomic } (gEa 4 0 i l) 0x220FF0)
      ∧ (∀ l, i.lanes.has l = true → Reaches s i { space := .scratch, size := 4 * 4, write := true, pol := 1, kind := .atomic } (sEa 10 0 i l) 4080)
      ∧ i.g.block < s.blocks.length ∧ s.mem.wf = true ∧ ∀ l, i.lanes.has l = true → (0x221000 : Nat) < 0x220FF0 ∨ 0x220FF0 + 4 * 4 ≤ 0x221000 :=
  ⟨⟨able (by decide +kernel), able (by decide +kernel)⟩, by decide +kernel, ⟨rfl, rfl⟩, by decide +kernel, settled rfl (by decide +kernel),
    lanes_land (place := fun _ => 0x220FF0) (by decide +kernel), lanes_land (place := fun _ => 4080) (by decide +kernel), by decide +kernel, by decide +kernel,
    fun _ _ => .inr (by decide)⟩
theorem witness_ReductionsLeaveTheCore :
    let s := aimed
    let i := me s true
    CanIssue s true (pairOf 4 ++ runOf 126 2) [] [] i ∧ i.lanes ≠ 0 ∧ i.g.xfersOf i.f = []
      ∧ ∀ l, i.lanes.has l = true → Reaches s i { size := 4 * 2, write := true, pol := 1, kind := .atomic } (gEa 4 0 i l) 0x220FF0 :=
  ⟨able (by decide +kernel), by decide +kernel, by decide +kernel, lanes_land (place := fun _ => 0x220FF0) (by decide +kernel)⟩
/-- The barrier word at 4080 and cluster barrier 0: the first expects one arrival, so that `bar.sync` is the last; waits are on another generation. -/
theorem witness_BarrierPhases :
    let s := (aimed.modB 0 fun b => { b with sp := b.sp.write 4080 (leBytes 8 0x0001000000000000) }).modG 0 (setR 14 fun _ => 5)
    let i := me s true
    let block : Prop := i.g.block < s.blocks.length ∧ (s.block i.g.block).cbar.length = 16 ∧ (s.block i.g.block).sp.wf = true
    (CanIssue s true [10, 14] [127] [] i ∧ CanIssue s true [12] [127] [] i) ∧ i.lanes ≠ 0 ∧ Quiet s i ∧ block ∧ i.f.stall = none ∧ i.f.arrival = none
      ∧ Reaches s i { space := .scratch, size := 8, write := true } (i.reg 10 i.lo).toNat 4080 ∧ Reaches s i { space := .scratch, size := 8, write := false } (i.reg 10 i.lo).toNat 4080
      ∧ (((s.block i.g.block).barWord 4080).gen ≠ (i.reg 14 i.lo).truncate 4 ∧ ((s.block i.g.block).barWord (cbarKey 0)).gen ≠ (i.reg 14 i.lo).truncate 4)
      ∧ (((s.block i.g.block).barWord 4080).expect ≤ ((s.block i.g.block).barWord 4080).arrv + 1 ∧ ((s.block i.g.block).barWord 4080).cred = 0)
      ∧ ((s.block i.g.block).barWord (cbarKey 0)).cred = 0 ∧ i.g.barErr = [] :=
  ⟨⟨able (by decide +kernel), able (by decide +kernel)⟩, by decide +kernel, ⟨rfl, rfl⟩, by decide +kernel, rfl, rfl, lands (by decide +kernel),
    lands (by decide +kernel), by decide +kernel⟩
/-- The word is 0 and so is what pair 6 expects under its mask; an entry of the fragment that was hit; one that polls. -/
theorem witness_WaitsOnWords :
    let s := aimed.modG 0 (setR 13 fun _ => 0xFFFFFFFF)
    let e : Woa := { n := 3, who := .frag 0 0, pa := 0x220FF0, va := 0x20FF0, mask := 0xFFFFFFFF, cmp := .eq, exp := 1, hit := some 1 }
    let s' : State := { s with woas := [e] }
    let i := me s true
    CanIssue s true (pairOf 6 ++ pairOf 4) [12] [] i ∧ i.lanes ≠ 0 ∧ Quiet s i ∧ Settled s [(0x220FF0, 4)] ∧ Reaches s i { size := 4, pol := 1 } (gEa 4 0 i i.lo) 0x220FF0
      ∧ (s'.woas.find? (fun w => w.who == .frag 0 0) = some e ∧ e.ext = false ∧ e.race = none ∧ e.hit = some 1)
      ∧ (∀ e ∈ s.woas, e.who ≠ .frag i.gi i.f.fid)
      ∧ (s.word 0x220FF0 &&& i.reg 13 i.lo = i.reg 12 i.lo &&& i.reg 13 i.lo) ∧ ¬ (s.word 0x220FF0 &&& i.reg 13 i.lo ≠ i.reg 12 i.lo &&& i.reg 13 i.lo) :=
  ⟨able (by decide +kernel), by decide +kernel, ⟨rfl, rfl⟩, settled rfl (by decide +kernel) _, lands (by decide +kernel), by decide +kernel⟩

/-! ### Witnesses: copies, gathers and rings (chapter 13) -/

/-- A ring at offset 0: one slot of 32 units, receiver 0; the given indexes, one credit. -/
def ringed (widx : Word) : State :=
  (withG fun g => setR 123 (fun _ => 2048) (setR 122 (fun _ => 1024) (setR 121 (fun _ => 2) (setR 120 (fun _ => 64) (setR 114 (fun _ => 0x400) (setR 112 (fun _ => 0x20000)
    (setR 127 (fun _ => 16) (setR 126 (fun _ => 16) (setP 124 0x20000 (setR 14 (fun _ => 0x83E00) (setR 13 (fun _ => 1) (setR 10 (fun _ => 4080) g)))))))))))).modB 0 fun b =>
      { b with sp := ((b.sp.write 0 (leBytes 8 (32 * 2 ^ 45 + 2 ^ 41))).write 12 (leBytes 4 widx.toNat)).write 24 (leBytes 2 1) }
/-- What CopyCommandsIssue asks of a command that finds room. -/
def room (s : State) (i : Iss) (ln : Nat) (c : CopyCmd) (into : Bool) : Bool :=
  let fits (o len align : Nat) : Bool := o % align == 0 && decide (o + len ≤ (s.blockOf i.g).spSize)
  let b := s.blockOf i.g
  let r := b.ring c.obj
  let recv := maskSet (if c.kind = 1 then r.rmask else BitVec.ofNat 4 (2 ^ r.own))
  let slot := into && !c.barrier
  (i.lanes &&& i.g.pred 0).low == some ln && decide (i.g.block < s.blocks.length) && b.sp.wf && !copyFull s i.g.core (s.pasidOf i.g) && decide (c.bytes ≤ 65536)
    && (slot || fits c.data c.bytes 16)
    && (if c.barrier then fits c.obj 8 8
        else fits c.obj r.area 64 && ringError b c.obj c (if slot then some c.bytes else none) == none && recv.all fun k => b.credit c.obj k != 0)
/-- Every form in a state with the record in registers 112 to 119, its coordinates and data in 120 to 123, the gather's words in 124 to 127; with a barrier at
the end of the scratchpad (register 10) and with the ring (register 12). -/
theorem witness_CopyCommandsIssue :
    let s := ringed 0
    let i := me s true
    let obj (k : BitVec 1) : Nat := if k = 1 then 10 else 12
    let w (ln : Nat) : List Word := (List.range 8).map fun k => i.reg (112 + k) ln
    let co (ln : Nat) : List Int := (List.range 3).map fun k => (i.reg (120 + k) ln).toInt
    let tensor (kind : Nat) (m : BitVec 4) (k : BitVec 1) : CopyCmd :=
      { kind := kind, record := w 0, coords := co 0, data := (i.reg 123 0).toNat, bytes := (Layout.of (w 0)).boxBytes, mcast := m, barrier := k == 1, obj := (i.reg (obj k) 0).toNat }
    let plain (k : BitVec 1) : CopyCmd :=
      { kind := 3, data := (i.reg 122 0).toNat, gaddr := (i.pair 124 0).toNat, bytes := (i.reg 123 0).toNat, barrier := k == 1, obj := (i.reg (obj k) 0).toNat }
    let gather (kind : Nat) (k : BitVec 1) : CopyCmd :=
      { kind := kind, data := (i.reg 122 0).toNat, gaddr := (i.pair 124 0).toNat, stride := (i.reg 126 0).toNat, rowBytes := (i.reg 127 0).toNat,
        bytes := (i.reg 121 0).toNat * (i.reg 127 0).toNat, index := (List.range 2).map fun j => (s.blockOf i.g).sp.le ((i.reg 120 0).toNat + 4 * j) 4, barrier := k == 1,
        obj := (i.reg (obj k) 0).toNat }
    (∀ k : BitVec 1, CanIssue s true ([obj k] ++ runOf 112 8 ++ runOf 120 4) [] [0] i ∧ CanIssue s true (obj k :: pairOf 62 ++ pairOf 61) [] [0] i
        ∧ CanIssue s true ([obj k] ++ runOf 124 4 ++ runOf 120 4) [] [0] i)
      ∧ (layoutError (w 0) ((co 0)[0]?.getD 0) true = none ∧ layoutError (w 0) ((co 0)[0]?.getD 0) false = none)
      ∧ (∀ k : BitVec 1, (∀ kind ∈ [0, 2, 4], room s i 0 (tensor kind 0 k) (kind == 0) = true) ∧ (∀ into, room s i 0 (plain k) into = true) ∧ ∀ kind ∈ [5, 6, 7], room s i 0 (gather kind k) (kind == 5) = true)
      ∧ room s i 0 (tensor 1 1 0) true = true
      ∧ ((i.pair 124 0).toNat % 16 = 0 ∧ (i.reg 123 0).toNat % 16 = 0 ∧ i.reg 123 0 ≠ 0)
      ∧ ((i.reg 126 0).toNat % 16 = 0 ∧ 0 < (i.reg 121 0).toNat ∧ (i.reg 121 0).toNat ≤ 4096 ∧ 0 < (i.reg 127 0).toNat ∧ (i.reg 127 0).toNat ≤ 4096
          ∧ (i.reg 127 0).toNat % 16 = 0 ∧ (i.reg 120 0).toNat % 4 = 0 ∧ (i.reg 120 0).toNat + 4 * (i.reg 121 0).toNat ≤ (s.blockOf i.g).spSize
          ∧ (s.blockOf i.g).spBad = [] ∧ (s.blockOf i.g).spRace = false)
      ∧ (let j := me base true
         CanIssue base true ([12] ++ runOf 112 8 ++ runOf 120 4) [] [1] j ∧ (j.lanes &&& j.g.pred 1).low = none) :=
  ⟨fun k => ⟨able (by revert k; decide +kernel), able (by revert k; decide +kernel), able (by revert k; decide +kernel)⟩, by decide +kernel,
    by decide +kernel, by decide +kernel, by decide +kernel, by decide +kernel, able (by decide +kernel), by decide +kernel⟩
/-- Commands of 16 or 32 bytes at the barrier 4080 or the ring 0: bytes in and out, rows in and reduced (one of them skipped), boxes in for one receiver or all. -/
def moving : State :=
  let c : CopyCmd := { gi := some 0, ctx := 1, data := 1024, gaddr := 0x20FF0, obj := 0 }
  let w := (List.range 8).map fun k => (me (ringed 0) true).reg (112 + k) 0
  { ringed 0 with
    copies := [{ c with kind := 3, bytes := 32, barrier := true, obj := 4080 }, { c with kind := 3, bytes := 32 }, { c with kind := 5, bytes := 32, rowBytes := 16, stride := 16, index := [1, 0xFFFFFFFF] },
               { c with kind := 0, record := w, coords := [0, 0, 0], bytes := (Layout.of w).boxBytes, barrier := true, obj := 4080 },
               { c with kind := 1, record := w, coords := [0, 0, 0], bytes := (Layout.of w).boxBytes, mcast := 1 },
               { c with kind := 3, bytes := 16, dir := true, barrier := true, obj := 4080 }, { c with kind := 7, bytes := 32, rowBytes := 16, stride := 16, index := [0, 0xFFFFFFFF], rop := 1 }] }
theorem read_eq {m n : Mem} : ∀ k a, (∀ j, j < k → m.get (a + j) = n.get (a + j)) → m.read a k = n.read a k
  | 0, _, _ => rfl
  | k + 1, a, h => by
    simp only [Mem.read]
    exact congr (congrArg _ (h 0 (by omega))) (read_eq k (a + 1) fun j hj => by rw [Nat.add_assoc, Nat.add_comm 1 j]; exact h (j + 1) (by omega))
/-- A memory that agrees below 0x6000 holds the same page tables. -/
theorem access_same (m : Mem) (k : AccKind) (h : ∀ a, a < 0x6000 → m.get a = moving.mem.get a) : ∃ x, access { moving with mem := m } 0 1 0x20FF0 k = .ok (0x220FF0, x) := by
  have tables : ∀ a ∈ [0x1000, 0x2000, 0x3000, 0x4000], m.le a 8 = moving.mem.le a 8 := fun a ha =>
    congrArg leNat (read_eq 8 a fun j hj => h _ (by simp at ha; omega))
  have held : ([0x1000, 0x2000, 0x3000, 0x4000].map fun a => moving.mem.le a 8) = [0x2001, 0x3001, 0x4001, 0x20001F] := by decide +kernel
  simp only [List.map_cons, List.map_nil, List.cons.injEq, and_true] at held
  have l0 := (tables 0x1000 (by simp)).trans held.1
  have l1 := (tables 0x2000 (by simp)).trans held.2.1
  have l2 := (tables 0x3000 (by simp)).trans held.2.2.1
  have l3 := (tables 0x4000 (by simp)).trans held.2.2.2
  have r : (({ moving with mem := m } : State).ctx 1).root = 0x1000 := by rfl
  have t : tlbHit { moving with mem := m } 0 1 0x20FF0 = none := by rfl
  have hh : ∀ va l, walkHeld { moving with mem := m } 1 va l = none := fun _ _ => rfl
  cases k <;> simp [access, xlate, t, hh, walkNow, walkWith, r, walkLevels, walkFrom, l0, l1, l2, l3, bitsOf, localPa, tableValid, leafValid, leafOf, framePa, Xlate.at,
    Xlate.page, Xlate.permits, peerPa, peerRefuses]
theorem witness_CopiesMoveTheirBytes :
    let s := moving
    let b := s.block 0
    (∀ n, n < 7 → ∃ c, s.copies[n]? = some c ∧ c.gi = some 0 ∧ c.kind < 8 ∧ c.race = .off ∧ c.waits = [] ∧ c.listErr = none ∧ c.listRace = none ∧ c.bytes % 16 = 0 ∧ c.bytes ≤ 65536
        ∧ c.obj < 2 ^ 32 ∧ (∀ x ∈ c.chunks, x.off % 16 = 0 ∧ x.off + 16 ≤ c.bytes) ∧ (c.chunks.map (·.off)).Nodup ∧ c.block < s.blocks.length ∧ c.core = 0 ∧ c.ctx = 1
        ∧ (c.barrier = true → c.data + c.bytes ≤ c.obj)
        ∧ (c.barrier = false → c.kept = none ∧ c.slot = (b.ring 0).widx.toNat ∧ ringError b 0 c (if c.kind = 7 then none else some c.bytes) = none))
      ∧ (b.sp.wf = true ∧ b.spBad = [] ∧ s.mem.wf = true ∧ s.memBad = [] ∧ s.unperf = [] ∧ s.hostLines = [])
      ∧ ((List.range 4).filter (b.ring 0).rmask.getLsbD).map (b.inSlice 0) = [0] ∧ (∀ d ∈ b.ringDone, d.1 ≠ 0)
      -- what comes in is read where the pages put it; what goes out goes to one place, whatever else of memory has changed
      ∧ (∀ n, n < 5 → ∃ c, s.copies[n]? = some c ∧ ∀ x ∈ c.chunks, ∀ va ∈ x.va, (0x200000 + va) % 16 = 0 ∧ ∃ xl, access s 0 1 va .read = .ok (0x200000 + va, xl))
      ∧ (∀ n, n = 5 ∨ n = 6 → ∃ c, s.copies[n]? = some c ∧ ∀ x ∈ c.chunks, ∀ va ∈ x.va, va = 0x20FF0 ∧ ∀ m : Mem,
          (∀ a, (∀ y ∈ c.chunks, ∀ v, y.va = some v → a < 0x220FF0 ∨ 0x220FF0 + 16 ≤ a) → m.get a = s.mem.get a) → ∀ k, ∃ xl, access { s with mem := m } 0 1 va k = .ok (0x220FF0, xl)) := by
  refine ⟨fun n hn => ⟨moving.copies[n]?.getD {}, by revert n; decide +kernel⟩, by decide +kernel, by decide +kernel, by decide +kernel,
    fun n hn => ⟨moving.copies[n]?.getD {}, by revert n; decide +kernel, fun x hx va hv => ?_⟩,
    fun n hn => ⟨moving.copies[n]?.getD {}, by obtain rfl | rfl := hn <;> decide +kernel, fun x hx va hv => ?_⟩⟩
  · have h : ∀ n, n < 5 → ∀ x ∈ (moving.copies[n]?.getD {}).chunks, ∀ va ∈ x.va, (0x200000 + va) % 16 = 0 ∧ ∃ y ∈ (access moving 0 1 va .read).toOption, y.1 = 0x200000 + va := by
      decide +kernel
    exact ⟨(h n hn x hx va hv).1, placed (h n hn x hx va hv).2⟩
  · have h : ∀ n, n = 5 ∨ n = 6 → ∀ x ∈ (moving.copies[n]?.getD {}).chunks, ∀ va ∈ x.va, va = 0x20FF0 := by rintro n (rfl | rfl) <;> decide +kernel
    obtain rfl := h n hn x hx va hv
    exact ⟨rfl, fun m hm k => access_same m k fun a ha => hm a fun _ _ _ _ => .inl (by omega)⟩
theorem witness_RingInstructions :
    let s := ringed 1
    let i := me s true
    let bl := s.blockOf i.g
    let w := i.reg 14 i.lo
    let r := bl.ring 0
    let far := (ringed 0x80000001).blockOf i.g
    (CanIssue s true [12, 14] [] [] i ∧ CanIssue s true [12, 12] (pairOf 63) [] i ∧ CanIssue s true [12, 13] [] [] i ∧ CanIssue s true [12] (pairOf 63) [] i
        ∧ CanIssue s true [12, 13] [127] [] i)
      ∧ (∀ write, Reaches s i { space := .scratch, size := 64, write := write } (i.reg 12 i.lo).toNat 0)
      ∧ (i.lanes ≠ 0 ∧ i.g.block < s.blocks.length ∧ bl.sp.wf = true ∧ (∀ c ∈ s.copies, c.gi = none ∨ c.block ≠ i.g.block ∨ c.barrier = true)
      ∧ (let mask : BitVec 4 := if w.extractLsb' 19 4 = 0 then BitVec.ofNat 4 (2 ^ bl.sliceOf 0) else w.extractLsb' 19 4
         let n := (w.extractLsb' 0 8).toNat + 1
         let slotu := (w.extractLsb' 8 11).toNat
         let area := 64 + (4 * n + 63) / 64 * 64 + n * (64 * slotu)
         w.toNat < 2 ^ 23 ∧ slotu ≤ 1024 ∧ bl.sliceOf 0 < 4 ∧ mask.getLsbD (bl.sliceOf 0) = true
           ∧ (∀ k, k < 4 → mask.getLsbD k = true → k < bl.cores.length ∧ bl.inSlice 0 k + area ≤ bl.spSize) ∧ 0 - bl.sliceOf 0 * bl.sliceBytes + area = bl.sliceBytes)
      ∧ (1 ≤ (r.widx - i.reg 12 i.lo).toNat ∧ (r.widx - i.reg 12 i.lo).toNat ≤ 2 ^ 31 ∧ ((far.ring 0).widx - i.reg 13 i.lo).toNat = 2 ^ 31 ∧ i.g.barErr = [] ∧ i.f.stall = none))
      ∧ (Quiet s i ∧ 0 < (i.reg 13 i.lo).toNat ∧ (i.reg 13 i.lo).toNat ≤ 256 ∧ (i.reg 13 i.lo).toNat = (r.widx - r.ridx).toNat) :=
  ⟨⟨able (by decide +kernel), able (by decide +kernel), able (by decide +kernel), able (by decide +kernel), able (by decide +kernel)⟩,
    fun write => lands (by revert write; decide +kernel), by decide +kernel, ⟨rfl, rfl⟩, by decide +kernel⟩

/-! ### Witnesses: trees, pools, Syzygy queues and feeds (chapter 14) -/

/-- One lane, lane 0; registers 15 to 17 hold the handles of index 0, 1 and 2 in generation 1; register 10 holds 1, register 11 16; pair 6 the time 100. -/
def alone : State :=
  { (base.modF 0 0 fun f => { f with amask := 1 }).modG 0 (fun g => setR 10 (fun _ => 1) (setR 11 (fun _ => 16) (setP 12 100 (setR 15 (fun _ => 0x100) (setR 16 (fun _ => 0x101)
      (setR 17 (fun _ => 0x102) g)))))) with time := 100 }
/-- An open subtree at index 0 whose deadline has passed, an ended one at index 1; with index 2, none is free. -/
def grown (full : Bool) : State :=
  { alone with
    trees := setAt (setAt (List.replicate 256 { st := if full then .ended else .free }) 0 { st := .open, gen := 1, ctx := 1, deadline := 100 })
      1 { st := .ended, gen := 1, ctx := 1, ended := true } }
theorem witness_SpawnAndSubtrees :
    let s := grown false
    let i := me s true
    let z := alone.modG 0 (setP 110 0x20000)
    let j := me (z.modG 0 (setR 127 fun _ => 31)) true
    (let s := z.modG 0 (setR 127 fun _ => 31)
     let ker := (s.launchOf j.g).kernel
     CanIssue s true (127 :: runOf 110 17) [127] [0] j ∧ j.lanes.lanes = [0] ∧ Quiet s j ∧ j.g.traced = false ∧ (j.pair 110 0).toNat % 4 = 0 ∧ (j.pair 110 0).toNat < 2 ^ 52
       ∧ min ((j.reg 127 0).toNat % 32) 16 = 16 ∧ j.g.subt = 0 ∧ 15 ≤ ker.nreg
       ∧ ({ ctx := s.pasidOf j.g, groups := 1, nreg := ker.nreg, tiles := ker.tiles, sp := 0 } : Plan).fits s [j.g.core] = true)
      ∧ (CanIssue s true [15, 12, 13] [126, 127] [] i ∧ CanIssue s true [15] (pairOf 63) [] i ∧ CanIssue s true [15] [127] [] i ∧ CanIssue s true (15 :: pairOf 6) [] [] i
          ∧ CanIssue s true (16 :: pairOf 6) [] [] i ∧ CanIssue s true [16] [] [] i ∧ CanIssue s true [] [127] [] i)
      ∧ (i.lanes ≠ 0 ∧ (s.ctx (s.pasidOf i.g)).replay = false ∧ s.trees.length = 256)
      ∧ (s.treeNamed (s.pasidOf i.g) (i.reg 15 i.lo) = true ∧ (s.tree 0).st = .open ∧ s.treeNamed (s.pasidOf i.g) (i.reg 16 i.lo) = true ∧ (s.tree 1).st ≠ .open)
      ∧ ((s.tree 2).st = .free ∧ ∀ k, k < 256 → ((grown true).tree k).st ≠ .free)
      ∧ ((i.pair 12 0).toNat ≠ 0 ∧ (i.pair 12 0).toNat ≤ s.time ∧ (i.pair 126 0).toNat = 0 ∧ 99 < (i.pair 12 0).toNat)
      ∧ ((s.tree 0).deadline ≠ 0 ∧ (s.tree 0).deadline ≤ s.time ∧ (s.ctx (s.tree 0).ctx).replay = false)
      ∧ (let s := grown true
         let i := me s true
         CanIssue s true [] [127] [] i ∧ i.lanes ≠ 0 ∧ (s.ctx (s.pasidOf i.g)).replay = false ∧ s.trees.length = 256) :=
  ⟨⟨able (by decide +kernel), by decide +kernel, ⟨by decide +kernel, by decide +kernel⟩, by decide +kernel⟩,
    ⟨able (by decide +kernel), able (by decide +kernel), able (by decide +kernel), able (by decide +kernel), able (by decide +kernel),
      able (by decide +kernel), able (by decide +kernel)⟩,
    by decide +kernel, by decide +kernel, by decide +kernel, by decide +kernel, by decide +kernel, able (by decide +kernel), by decide +kernel⟩

/-- A fresh pool at index 0 with one node left; at index 1 one whose head is its node 0 of the two it has granted. The node's address in pair 4. -/
def pooled : State :=
  { alone.modG 0 (setP 8 0x20000) with
    pools := setAt (setAt alone.pools 0 { bound := true, gen := 1, ctx := 1, base := 0x20000, nodeb := 64, cap := 3, bump := 2, free := 1 })
      1 { bound := true, gen := 1, ctx := 1, base := 0x20000, nodeb := 64, cap := 3, bump := 2, head := 0x20000, free := 2 } }
theorem witness_PoolInstructions :
    let s := pooled
    let i := me s true
    (CanIssue s true [15] (pairOf 63) [0] i ∧ CanIssue s true [16] (pairOf 63) [0] i ∧ CanIssue s true (16 :: pairOf 4) [] [] i ∧ CanIssue s true [15] [] [] i)
      ∧ (i.lanes ≠ 0 ∧ (s.ctx (s.pasidOf i.g)).replay = false ∧ s.poolNamed (s.pasidOf i.g) (i.reg 15 i.lo) = true ∧ s.poolNamed (s.pasidOf i.g) (i.reg 16 i.lo) = true
          ∧ i.f.stall = none) ∧ Quiet s i
      ∧ (i.g.count .at < 63 ∧ i.lanes.lanes = [0] ∧ s.hostLines = [] ∧ i.lanes.count = (s.pool 0).free ∧ (s.pool 0).head = 0 ∧ (s.pool 1).head ≠ 0)
      ∧ (∀ k, k = AccKind.read ∨ k = .write → ∃ x, access s i.g.core (s.pasidOf i.g) (s.pool 1).head k = .ok (0x220000, x) ∧ isTracked s (s.pasidOf i.g) x = false)
      ∧ (let p := s.pool 1
         let n := (i.pair 8 0).toNat
         n ≠ 0 ∧ p.base ≤ n ∧ n < p.base + p.bump * p.nodeb ∧ (n - p.base) % p.nodeb = 0 ∧ n = p.head) := by
  refine ⟨⟨able (by decide +kernel), able (by decide +kernel), able (by decide +kernel), able (by decide +kernel)⟩, by decide +kernel,
    ⟨rfl, rfl⟩, by decide +kernel, ?_, by decide +kernel⟩
  rintro k (rfl | rfl)
  · exact finds (by decide +kernel)
  · exact finds (by decide +kernel)

/-- Three Syzygy queues of the same shape: at index 0 buffer 0 fills and lacks one row; at index 1 a buffer is ready; at index 2 one is taken, its row that of
future 31 of this group. Register 14 is that row's word. -/
def queued : State :=
  let q : Syzygy := { bound := true, gen := 1, ctx := 1, cfg := 0x100 }
  let row : Row := { gi := 0, lane := 15, fut := 31, words := List.replicate q.rowWords 7 }
  let s := alone.modG 0 fun g => { setR 18 (fun _ => 0x103) (setP 12 2 g) with
    futures := setAt g.futures 31 { st := .pending, lanes := 0x8000, first := 128 - q.resWords, count := q.resWords },
    tiles := setAt g.tiles 7 { rows := BitVec.ofNat 8 (q.rows - 1), rbytes := BitVec.ofNat 5 (q.rowWords / 4 - 1), shaped := true } }
  let old := { row with fut := 3, wanted := false }
  { s with
    syzygy := setAt (setAt (setAt (setAt s.syzygy 0 { q with bufs := { st := .filling, rows := List.replicate (q.rows - 1) old } :: List.replicate 3 {} })
      1 { q with bufs := [{ st := .ready, rows := [old] }, {}, {}, {}] }) 2 { q with bufs := [{ st := .taken, rows := [row] }, {}, {}, {}] }) 3 q }
theorem witness_SyzygyQueues :
    let s := queued
    let i := me s true
    let ready (h : Word) : Prop := s.syzNamed (s.pasidOf i.g) h = true
    (CanIssue s true (15 :: runOf 16 (s.syz 0).rowWords) (runOf 127 (s.syz 0).resWords) [] i ∧ CanIssue s true [16] (pairOf 63) [] i
        ∧ CanIssue s true (pairOf 6 ++ runOf 127 (s.syz 2).resWords) [] [] i ∧ CanIssue s true [15] [] [] i ∧ CanIssue s true [18, 10] [] [] i)
      ∧ (i.lanes ≠ 0 ∧ (s.ctx (s.pasidOf i.g)).replay = false ∧ ready (i.reg 15 i.lo) ∧ ready (i.reg 16 i.lo) ∧ ready (i.reg 18 i.lo)) ∧ Quiet s i
      ∧ (i.lanes.lanes = [0] ∧ (15 + 1 + (s.syz 0).rowWords ≤ 128 ∧ 127 + (s.syz 0).resWords = 128 ∧ (i.g.fut 30).st = .free ∧ (s.syz 0).filling = some 0
          ∧ ((s.syz 0).buf 0).rows.length + i.lanes.count = (s.syz 0).rows)
      ∧ (let q := s.syz 1
         let tl := i.g.tile 7
         7 < i.g.tiles.length ∧ tl.shaped = true ∧ tl.height = q.rows ∧ tl.rb = 4 * q.rowWords ∧ i.g.tileUsed 7 = false ∧ i.g.optTs = false ∧ tl.stamp = none ∧ tl.data.wf = true
           ∧ q.oldest = some 0 ∧ (q.buf 0).rows.length < q.rows ∧ (∀ r ∈ (q.buf 0).rows, r.words.length = q.rowWords) ∧ q.filling = none)
      ∧ (let w := (i.reg 12 i.lo).toNat
         let q := s.syz 2
         let row : Row := { gi := 0, lane := 15, fut := 31, words := List.replicate q.rowWords 7 }
         let fut := i.g.fut 31
         w % 128 = 2 ∧ w / 256 % 4 = 0 ∧ (i.reg 13 i.lo).toNat + 0 = 0 ∧ q.bound = true ∧ q.ctx = s.pasidOf i.g ∧ w / 128 % 2 = 0 ∧ (q.buf 0).st = .taken
           ∧ (q.buf 0).seq % 2 ^ 22 = w / 2 ^ 10 ∧ (q.buf 0).rows[0]? = some row ∧ 0 < q.rows ∧ fut.st = .pending ∧ fut.first + q.resWords = i.g.regs.length)
      ∧ ∃ r ∈ ((s.syz 0).buf 0).rows, r.valid = true ∧ r.put = false)
      ∧ ((i.reg 10 i.lo).toNat % 4 ≠ 3 ∧ (∀ x ∈ (s.syz 3).bufs, x.st = .free) ∧ ∀ y ∈ s.groups, ∀ f ∈ y.frags, ∀ n, f.stall ≠ some (.room (i.reg 18 i.lo) n))
      ∧ ((s.syz 0).bound = true ∧ (s.syz 0).timeout ≠ 0 ∧ (s.syz 0).timeout ≤ s.since ((s.syz 0).buf 0).since) := by
  have hs : ∀ y ∈ queued.groups, ∀ f ∈ y.frags, f.stall = none := by decide +kernel
  refine ⟨⟨able (by decide +kernel), able (by decide +kernel), able (by decide +kernel), able (by decide +kernel), able (by decide +kernel)⟩,
    by decide +kernel, ⟨rfl, rfl⟩, by decide +kernel, ⟨by decide +kernel, by decide +kernel, fun y hy f hf n hn => ?_⟩, by decide +kernel⟩
  rw [hs y hy f hf] at hn
  exact absurd hn (by simp)

/-- Three feeds of 16 records of 16 bytes: at index 0 two are queued, the second at the start of the buffer; index 1 is full; index 2 is empty. -/
def fed : State :=
  let f : Feed := { bound := true, gen := 1, ctx := 1, base := 0x20000 }
  { alone with
    feeds := setAt (setAt (setAt alone.feeds 0 { f with head := 15, tail := 17, vecs := [none, some (Vector.replicate 16 0)] }) 1 { f with tail := 16 }) 2 f }
theorem witness_FeedInstructions :
    let s := fed
    let i := me s true
    let s' : State := { s with groups := base.groups }
    let j := me s' true
    let at_ (f : Feed) (n : Nat) : Nat := f.base + f.bytes * (n % 2 ^ f.n)
    (CanIssue s true [15] (runOf 124 (s.feedQ 0).words) [0] i ∧ CanIssue s true [17] (runOf 124 (s.feedQ 2).words) [0] i
        ∧ CanIssue s true (15 :: runOf 124 (s.feedQ 0).words) [] [0] i ∧ CanIssue s true (16 :: runOf 124 (s.feedQ 1).words) [] [0] i ∧ CanIssue s true [15] (pairOf 63) [] i)
      ∧ (i.lanes ≠ 0 ∧ (s.ctx (s.pasidOf i.g)).replay = false ∧ s.feedNamed (s.pasidOf i.g) (i.reg 15 i.lo) = true ∧ s.feedNamed (s.pasidOf i.g) (i.reg 16 i.lo) = true
          ∧ s.feedNamed (s.pasidOf i.g) (i.reg 17 i.lo) = true ∧ ∀ t, i.f.stall ≠ some (.xlate t)) ∧ Quiet s i
      ∧ (i.lanes.lanes = [0] ∧ s.hostLines = [] ∧ 124 + (s.feedQ 0).words = 128 ∧ 0 < (s.feedQ 0).words ∧ (s.feedQ 0).bytes % 4 = 0 ∧ 0 < (s.feedQ 0).bytes ∧ (s.feedQ 0).head < (s.feedQ 0).tail)
      ∧ (∀ k, k < 2 → ∃ x, access s i.g.core (s.pasidOf i.g) (at_ (s.feedQ 0) ((s.feedQ 0).head + k)) .read = .ok (0x220000 + 16 * ((15 + k) % 16), x))
      ∧ ((s.feedQ 0).tail - (s.feedQ 0).head < 2 ^ (s.feedQ 0).n
          ∧ ∃ x, access s i.g.core (s.pasidOf i.g) (at_ (s.feedQ 0) (s.feedQ 0).tail) .write = .ok (0x220010, x) ∧ isTracked s (s.pasidOf i.g) x = false)
      ∧ 2 ^ (s.feedQ 1).n ≤ (s.feedQ 1).tail - (s.feedQ 1).head
      ∧ min ((s'.feedQ 0).tail - (s'.feedQ 0).head) j.lanes.count = 2 := by
  have ha : let i := me fed true
      i.lanes ≠ 0 ∧ (fed.ctx (fed.pasidOf i.g)).replay = false ∧ ∀ r ∈ [15, 16, 17], fed.feedNamed (fed.pasidOf i.g) (i.reg r i.lo) = true := by decide +kernel
  refine ⟨⟨able (by decide +kernel), able (by decide +kernel), able (by decide +kernel), able (by decide +kernel), able (by decide +kernel)⟩,
    ⟨ha.1, ha.2.1, ha.2.2 15 (by decide), ha.2.2 16 (by decide), ha.2.2 17 (by decide), fun t ht => ?_⟩, ⟨rfl, rfl⟩, by decide +kernel, fun k hk => placed (by revert k; decide +kernel), ⟨by decide +kernel, finds (by decide +kernel)⟩, by decide +kernel⟩
  rw [show (me fed true).f.stall = none by decide +kernel] at ht
  exact absurd ht (by simp)

/-! ### Witnesses: lane commands, stops, handlers, rings of Chovis (chapters 15 and 16) -/

theorem witness_LaneCommands :
    let s := base.modG 0 fun g => { setP 126 0x20000 (setP 8 0x20FF0 g) with futures := setAt g.futures 31 { st := .pending } }
    let i := me s true
    let c : LaneCmd := { gi := 0, ctx := 1, core := 0, lanes := 0x8000, head := 0x20000, recs := [(15, 0x20040, 0x20FF0)], fut := 31 }
    let s' : State := { s with cols := [c], dyns := [c] }
    (CanIssue s true (pairOf 4 ++ pairOf 63 ++ pairOf 4) [] [] i ∧ i.lanes ≠ 0 ∧ (i.g.fut 30).st = .free
      ∧ (i.pair 126 i.lo).toNat % 64 = 0 ∧ (i.pair 126 i.lo).toNat < 2 ^ 52 ∧ (∀ l ∈ laneNums, (i.pair 8 l).toNat % 16 = 0 ∧ (i.pair 8 l).toNat < 2 ^ 52)
      ∧ (s.dyns.filter fun c => c.core == i.g.core).length < 32 ∧ (s.cols.filter fun c => c.core == i.g.core).length < 32)
    ∧ s'.cols[0]? = some c ∧ s'.dyns[0]? = some c ∧ s'.unperf = [] ∧ s'.memBad = []
    ∧ (∀ k, k < 4 → ∃ y, access s' 0 1 (0x20000 + 16 * k) .read = .ok (0x220000 + 16 * k, y)) ∧ (∀ k j, k < 4 → j < 16 → s'.mem.get (0x220000 + 16 * k + j) = 0)
    ∧ (∃ y, access s' 0 1 0x20FF0 .write = .ok (0x220FF0, y) ∧ isTracked s' 1 y = false) ∧ 0 < s'.groups.length ∧ (s'.group 0).state = .resident
    ∧ ((s'.group 0).fut 31).st = .pending ∧ c.waits = [] ∧ c.race = .off ∧ ((runCollision s' c).miss = [] ∧ (runDynamics s' c).miss = [] ∧ c.fut < (s'.group 0).futures.length) := by
  refine ⟨⟨able (by decide +kernel), by decide +kernel⟩, by decide +kernel, by decide +kernel, by decide +kernel, by decide +kernel,
    fun k hk => placed (by revert k; decide +kernel), ?_, finds (by decide +kernel), by decide +kernel⟩
  have h : ∀ k, k < 4 → ∀ j, j < 16 → base.mem.get (0x220000 + 16 * k + j) = 0 := by decide +kernel
  exact fun k j hk hj => h k hk j hj

theorem witness_StopsAreTaken :
    (CanIssue base true (runOf 112 16) [127] [] (me base true) ∧ CanIssue base true [] [] [] (me base true) ∧ (me base true).lanes ≠ 0 ∧ MayStop base (me base true))
    ∧ (Issuing base true (me base true) ∧ Issuing base false (me base false) ∧ MayStop base (me base false))
    ∧ (let s := withG fun g => { g with regs := g.regs.take 127 }
       Issuing s true (me s true) ∧ MayStop s (me s true) ∧ (me s true).N ≤ (me s true).phys 127)
    ∧ (let s := withG (setR 126 fun _ => 4)
       CanIssue s true [126, 0] [127] [] (me s true) ∧ (me s true).lanes ≠ 0 ∧ MayStop s (me s true) ∧ Quiet s (me s true) ∧ ((me s true).reg 126 (me s true).lo).toNat % 8 ≠ 0)
    ∧ (let s := withF fun f => { f with handler := some .user }
       let i := me s true
       CanIssue s true (runOf 112 16) [127] [] i ∧ i.lanes ≠ 0 ∧ i.f.handler ≠ none ∧ i.f.stall = none ∧ ((s.ctx (s.pasidOf i.g)).ring 2).1 = 0) :=
  have stops : ∀ g, MayStop base (me base g) := fun g => by unfold MayStop; revert g; decide +kernel
  ⟨⟨able (by decide +kernel), able (by decide +kernel), by decide +kernel, stops true⟩, ⟨(able (reads := []) (writes := []) (preds := []) (dests := []) (by decide +kernel)).toIssuing,
      (able (reads := []) (writes := []) (preds := []) (dests := []) (by decide +kernel)).toIssuing, stops false⟩,
    ⟨(able (reads := []) (writes := []) (preds := []) (dests := []) (by decide +kernel)).toIssuing, by unfold MayStop; decide +kernel, by decide +kernel⟩,
    ⟨able (by decide +kernel), by decide +kernel, by unfold MayStop; decide +kernel, ⟨rfl, rfl⟩, by decide +kernel⟩, ⟨able (by decide +kernel), by decide +kernel⟩⟩

/-- The block stops, or is handled, for its only group, whose trap registers hold a PC and the lanes 0 and 1. -/
def halting (h : Halt) (k : Hold) (f : Frag → Frag := id) (frame : Option Frag := none) (mask : Word := 3) : State :=
  ((withF f).modB 0 fun b => { b with halt := some h }).modG 0 fun g => { g with hold := k, frame := frame, trap := { pcLo := 0x10000, mask := mask } }
/-- A handler of either kind runs; of the trapping instruction's lanes some are left, or none. -/
def handled (k : HKind) (m : Bool) : State :=
  halting { stopper := 0, code := 0x0B, target := .system, phase := .handling } .stopped (fun f => { f with handler := some k }) (some {}) (if m then 3 else 0)
theorem handler_runs (k : HKind) (m : Bool) : Able (handled k m) true [] [] [] := by cases k <;> cases m <;> decide +kernel
theorem handler_state (k : HKind) (m : Bool) :
    let s := handled k m
    let i := me s true
    i.lanes ≠ 0 ∧ i.f.handler = some k ∧ i.f.inner = none ∧ i.g.frame = some {} ∧ i.g.traced = false ∧ i.f.held = []
      ∧ i.g.state = .resident ∧ i.g.hold ≠ .solo ∧ i.g.block < s.blocks.length ∧ (∀ y ∈ s.groups, y.block = i.g.block → y.pending = none)
      ∧ (i.g.trap.mask.truncate 16 &&& ({} : Frag).amask ≠ 0 ↔ m = true) := by cases k <;> cases m <;> decide +kernel
theorem handler_fetches (k : HKind) (m : Bool) :
    fetchWord (handled k m) (me (handled k m) true).g.core ((handled k m).pasidOf (me (handled k m) true).g) (me (handled k m) true).g.trap.pc.toNat = .ok 0 :=
  ok_of (by cases k <;> cases m <;> decide +kernel)
theorem halted_group (t : Target) : ((halting { stopper := 0, code := 0x0C, target := t, told := true } .stopped).block 0).place = .placed := by cases t <;> decide +kernel
theorem halted_frag (t : Target) : ((halting { stopper := 0, code := 0x0C, target := t, told := true } .stopped).group 0).fragAt 0 = some 0 := by cases t <;> decide +kernel
theorem witness_HandlersEnterAndReturn :
    (let s := halting { stopper := 1, code := 0x0B, target := .user } .skid
     ∃ y h, s.groups[0]? = some y ∧ (s.block y.block).halt = some h ∧ y.hold = .skid)
    ∧ (∀ t : Target, let s := halting { stopper := 0, code := 0x0C, target := t, told := true } .stopped
       ∃ h y, (s.block 0).halt = some h ∧ h.phase = .stopping ∧ h.told = true ∧ (s.block 0).place = .placed ∧ s.groups[h.stopper]? = some y ∧ y.fragAt y.stopFid = some 0
        ∧ (∀ (k : Nat) (z : Group), s.groups[k]? = some z → z.block = 0 → z.state ≠ .retired → z.hold = .stopped ∧ z.outst = [] ∧ z.xfers = [] ∧ ∀ e ∈ s.unperf, e.gi ≠ k)
        ∧ h.target = t ∧ h.code ≠ 0x0E)
    ∧ (∀ k : HKind, ∀ m : Bool,
       let s := handled k m
       let i := me s true
       (CanIssue s true [] [] [] i ∧ i.lanes ≠ 0 ∧ i.f.handler = some k ∧ i.f.inner = none ∧ i.g.frame = some {} ∧ i.g.traced = false ∧ i.f.held = []
         ∧ i.g.state = .resident ∧ i.g.hold ≠ .solo ∧ i.g.block < s.blocks.length ∧ ∀ y ∈ s.groups, y.block = i.g.block → y.pending = none)
       ∧ (i.g.trap.mask.truncate 16 &&& ({} : Frag).amask ≠ 0 ↔ m = true) ∧ ∃ w, fetchWord s i.g.core (s.pasidOf i.g) i.g.trap.pc.toNat = .ok w)
    ∧ (CanIssue base true [] [] [] (me base true) ∧ (me base true).lanes ≠ 0 ∧ (me base true).g.preempt = none)
    ∧ (let s := withG fun g => { g with preempt := some 7 }
       CanIssue s true [] [] [] (me s true) ∧ (me s true).lanes ≠ 0 ∧ (me s true).g.preempt ≠ none) := by
  refine ⟨⟨_, _, rfl, rfl, by decide +kernel⟩, fun t => ?_, fun k m => ?_, ⟨able (by decide +kernel), by decide +kernel⟩, able (by decide +kernel), by decide +kernel⟩
  · refine ⟨{ stopper := 0, code := 0x0C, target := t, told := true }, _, rfl, rfl, rfl, halted_group t, rfl, halted_frag t, ?_, rfl, by cases t <;> decide⟩
    have h : ∀ t, (∀ z ∈ (halting { stopper := 0, code := 0x0C, target := t, told := true } .stopped).groups, z.hold = .stopped ∧ z.outst = [] ∧ z.xfers = [])
        ∧ (halting { stopper := 0, code := 0x0C, target := t, told := true } .stopped).unperf = [] := fun t => by cases t <;> decide +kernel
    intro k z hk _ _
    obtain ⟨h1, h2, h3⟩ := (h t).1 z (List.mem_of_getElem? hk)
    exact ⟨h1, h2, h3, by rw [(h t).2]; simp⟩
  · obtain ⟨h1, h2, h3, h4, h5, h6, h7, h8, h9, h10, h11⟩ := handler_state k m
    exact ⟨⟨able (handler_runs k m), h1, h2, h3, h4, h5, h6, h7, h8, h9, h10⟩, h11, _, handler_fetches k m⟩

/-- The fault ring at 3 MiB with room for two entries, one of which is taken; the system-call ring behind it. -/
def ringCtx (w : Nat) : State :=
  { base with
    ctxs := base.ctxs.map fun c => { c with rings := [(0, 0), (0x300000, 1), (0x310000, 1), (0, 0), (0, 0), (0, 0)] },
    mem := (base.mem.write 0x300000 (leBytes 8 w)).write (0x310000 + 64 + 512 + 384) (leBytes 4 1),
    chovis := [{ ctx := 1, ring := 1, bytes := List.replicate 64 7, src := 1, held := true }, { ctx := 1, ring := 3, bytes := List.replicate 64 7, src := 2 }],
    sysreqs := [{ ctx := 1, gi := 0, fid := 0, bytes := [], dreg := 127, lanes := 0x8001, inHandler := false, entry := some 3 }] }
theorem witness_ChovisWritesAndReplies :
    let calm (s : State) : Prop := s.hostLines = [] ∧ ∀ c ∈ s.ctxs, c.shadow = 0
    (let s := ringCtx 1
     let r : ChovisRec := { ctx := 1, ring := 1, bytes := List.replicate 64 7, src := 1, held := true }
     s.chovis[0]? = some r ∧ (s.ctx r.ctx).alive = true ∧ (s.ctx r.ctx).ring r.ring = (0x300000, 1) ∧ calm s ∧ s.ringRoom 0x300000 1 ≠ 0 ∧ r.held = true)
    ∧ (ringCtx 2).ringRoom 0x300000 1 = 0 ∧ calm (ringCtx 2)
    ∧ ((ringCtx 1).chovis[1]?.map (·.ring) = some 3 ∧ ((ringCtx 1).ctx 1).ring 3 = (0, 0))
    ∧ (let s := (ringCtx 1).modG 0 fun g => { g with hold := .stopped }
       ∃ r y, s.sysreqs[0]? = some r ∧ r.entry = some 3 ∧ r.inHandler = false ∧ s.groups[r.gi]? = some y ∧ y.fragAt r.fid = some 0 ∧ y.stopFid = r.fid ∧ y.hold = .stopped
        ∧ y.state = .resident ∧ y.traced = false ∧ y.debugStep = false ∧ y.block < s.blocks.length ∧ (∀ z ∈ s.groups, z.block = y.block → z.pending = none)
        ∧ (let e := ((s.ctx r.ctx).ring 2).1 + 64 + 512 * (3 % 2 ^ ((s.ctx r.ctx).ring 2).2)
           s.mem.le (e + 384) 4 = 1)) :=
  ⟨by decide +kernel, by decide +kernel, by decide +kernel, by decide +kernel, _, _, rfl, rfl, rfl, rfl, by decide +kernel⟩

/-! ### Witnesses: trace and profile (chapter 17) -/

/-- Cluster 0 has counted 65,536 cycles; the group's context may trace and stamp into rings at 3 MiB and profiles; the group is traced; a packet waits. -/
def tracing (on : Bool) (u : TraceUnit := {}) : State :=
  let s := withG fun g => { setR 13 (fun _ => 32) g with traced := on, optSt := on }
  { s with
    ctxs := s.ctxs.map fun c => { c with traceBase := 0x300000, trace := true, stamp := true, prof := some { k := 8, counts := List.replicate 65 (List.replicate 16 0) } },
    cyc := List.replicate 16 65536, traces := setAt s.traces 0 u,
    mem := (s.mem.write (0x300000 + 16) (leBytes 8 0x310000)).write (0x300000 + 24) (leBytes 8 4096) }
/-- The fragment waits for its flush, with the packets counted below. -/
def flushing (n : Option Nat) (entered : Nat) : State := (tracing true { entered := entered, drained := 3 }).modF 0 0 fun f => { f with stall := n.map Stall.flush }
/-- A resynchronisation before its LOSS, its SYNC and its STARTs. -/
def losing (stage : Nat) : State := tracing true (if stage = 0 then { lossy := [1], dropped := 3 } else { resync := some (stage, 65536, [1]) })
theorem witness_TraceAndProfile :
    let p : Packet := { pasid := 1, ty := 0x06, cyc := 7, payload := leBytes 4 0 }
    let unit (s : State) : TraceUnit := s.traces[0]?.getD {}
    let room (s : State) (n cyc : Nat) : Prop :=
      0 < s.traces.length ∧ (unit s).lossy = [] ∧ (unit s).resync = none ∧ bufBytes (unit s).buf + n ≤ 65536 ∧ ∀ q ∈ (unit s).buf, q.cyc ≠ cyc
    let rights (s : State) : Prop := (s.ctxOf (me s true).g).traceBase ≠ 0 ∧ (s.ctxOf (me s true).g).trace = true ∧ (s.ctxOf (me s true).g).stamp = true
    (∀ on : Bool, let s := tracing on
      let i := me s true
      (CanIssue s true [13] (pairOf 63) [] i ∧ CanIssue s true [] [] [] i) ∧ i.lanes ≠ 0 ∧ i.f.held = [] ∧ i.g.traced = on ∧ (s.ctx (s.pasidOf i.g)).replay = false
        ∧ rights s ∧ clusterOf i.g.core = 0 ∧ room s 30 (s.cycle i.g.core) ∧ ((i.reg 13 i.lo).toNat % 256 = 32 ∧ (i.reg 0 i.lo).toNat = 0))
    ∧ (let s := withF fun f => { f with handler := some .system }
       CanIssue s true [] [] [] (me s true) ∧ (me s true).lanes ≠ 0 ∧ (me s true).f.handler = some .system)
    ∧ (∀ n : Option Nat, n = none ∨ n = some 3 → let s := flushing n 3
       CanIssue s true [] [] [] (me s true) ∧ (me s true).lanes ≠ 0 ∧ rights s ∧ (me s true).f.stall = n.map Stall.flush ∧ (unit s).entered ≤ (unit s).drained)
    ∧ (let s := flushing none 4
       CanIssue s true [] [] [] (me s true) ∧ (me s true).lanes ≠ 0 ∧ rights s ∧ (me s true).f.stall = none ∧ (unit s).drained < (unit s).entered)
    ∧ (let s := tracing true
       0 < s.traces.length ∧ (unit s).lastSync + 65536 ≤ s.cyc[0]?.getD 0 ∧ bufBytes (unit s).buf + 21 * (tracedCtxs s 0).length ≤ 65536 ∧ tracedCtxs s 0 = [1])
    ∧ (let s := (tracing true).modG 0 fun g => { g with idle := 256 }
       ∃ y, s.groups[0]? = some y ∧ y.state = .resident ∧ y.traced = true ∧ y.optSt = true ∧ y.idleTold = false ∧ y.idle = 256 ∧ room s 9 (s.cycle y.core - 1))
    ∧ (let s := tracing false { buf := [p] }
       let w := s.mem.le 0x300000 8
       (unit s).buf = [p] ∧ (s.ctx 1).traceBase ≠ 0 ∧ s.mem.le (0x300000 + 24) 8 ≠ 0 ∧ p.ty ≠ 0x0C ∧ w % 4096 + (p.bytes 0).length ≤ 4096 ∧ p.size + w ≤ 4096 + s.mem.le (0x300000 + 8) 8
         ∧ (base.ctx 1).traceBase = 0
         ∧ (let s : State := { s with mem := s.mem.write 0x300000 (leBytes 8 4096) }
            s.mem.le (0x300000 + 24) 8 + s.mem.le (0x300000 + 8) 8 < p.size + s.mem.le 0x300000 8))
    ∧ (∀ stage ∈ [0, 1, 2], 0 < (losing stage).traces.length ∧ 65536 ≤ (losing stage).cyc[0]?.getD 0
         ∧ bufBytes (unit (losing stage)).buf + resyncOwed (losing stage) 0 [1] ≤ 65536 ∧ bufBytes (unit (losing stage)).buf + 21 ≤ 65536)
    ∧ ((unit (losing 0)).lossy = [1] ∧ (unit (losing 0)).resync = none ∧ (unit (losing 1)).resync = some (1, 65536, [1]) ∧ (unit (losing 2)).resync = some (2, 65536, [1]))
    ∧ (let s := tracing false
       sampleCtxs s 0 0 = [1] ∧ ∃ y pr, nextSlot (partGroups s 0 0) (lastSample s 1 0 0).1 = some y ∧ s.pasidOf y = 1 ∧ (s.ctx 1).prof = some pr) := by
  refine ⟨fun on => ⟨⟨able (by revert on; decide +kernel), able (by revert on; decide +kernel)⟩, by revert on; decide +kernel⟩, ⟨able (by decide +kernel), by decide +kernel⟩,
    ?_, ⟨able (by decide +kernel), by decide +kernel⟩, ?_⟩
  · rintro n (rfl | rfl) <;> exact ⟨able (by decide +kernel), by decide +kernel⟩
  · and_intros <;> first | decide +kernel | exact ⟨_, _, rfl, by decide +kernel, rfl⟩

/-! ### Witnesses: groups and blocks by themselves (chapters 5, 16 and 19) -/

/-- A fragment in a COND of an outer split whose entry 3 of lanes 0xA5 it is to meet at its PC; with the lanes that have arrived before. -/
def meeting (arrived : Mask) : State :=
  (withF fun f => { f with amask := 0xA0, inner := some 3 }).modG 0 fun g =>
    { g with splits := setAt g.splits 3 (some { rpc := (g.frag 0).pc, lanes := 0xA5, arrived := arrived }) }
/-- The group waits for its future 31; a child waits for a core, and every core is reserved to another context. -/
def crowded (reason : Nat) : State :=
  { (withF fun f => { f with stall := some (.future 31 0) }).modG 0 fun g =>
      { g with futures := setAt g.futures 31 { st := .pending }, regs := g.regs.take 1, tiles := [{}], quiesced := reason != 0,
               ops := [{ seq := 1, dt := 0, af := 0, bf := 0, int := false, z := false, fmt := 0 }], matHeld := reason == 2 } with
    spawnq := [{ parent := 0, launch := 0, entry := 0x10000, lanes := 1, args := [], fmt := 0, prio := 0, race := .off, member := 0, know := Vector.replicate 16 0, traced := false,
                 optLc := false, optSt := false, optTs := false }],
    reserved := List.replicate 64 (some 7), ctxs := base.ctxs.map fun c => { c with save := 0x400000, saveLog := 16 },
    blocks := base.blocks.map fun b => { b with reason := reason } }
/-- A launch of the real-time band wants all tiles of a core, of which core 0 alone is not reserved to another context. -/
def urgent : State :=
  { base with
    reserved := none :: List.replicate 63 (some 7), cyc := List.replicate 16 2048,
    launches := base.launches ++ [{ lid := 2, ctx := 1, level := 127, kernel := { entry := 0x10000, bdim := 1, tiles := 64, nreg := 8 }, nblk := 1 }] }
/-- The block is saved: its image stands at 4 MiB. -/
def savedBlock : State :=
  { base with
    groups := base.groups.map fun g => { g with state := .saved, regs := g.regs.take 1, tiles := [] },
    blocks := base.blocks.map fun b => { b with place := .saved, image := 0x400000 } }
def away : State :=
  { savedBlock with
    blocks := savedBlock.blocks.map fun b => { b with img := imageBytes savedBlock 0 }, mem := savedBlock.mem.write 0x400000 (imageBytes savedBlock 0) }
theorem witness_GroupsAgeParkAndReturn :
    (∀ a : Bool,
      let s := meeting (if a then 0x05 else 0x01)
      ∃ y f en, s.groups[0]? = some y ∧ y.frags[0]? = some f ∧ f.replay = none ∧ f.stall = none ∧ f.inner = some 3 ∧ y.splits[3]? = some (some en) ∧ en.rpc = f.pc
        ∧ y.traced = false ∧ (en.arrived ||| f.amask = en.lanes ↔ a = true))
    ∧ (let s : State := { base with cyc := List.replicate 16 63 }
       ((s.group 0).frag 0).aged = false ∧ isReady s 0 0 = true ∧ ((s.group 0).frag 0).readyAt + 63 ≤ s.cycle (s.group 0).core)
    ∧ (parkDue (crowded 0) 0 = true ∧ ∀ y ∈ (crowded 0).groups, ∀ f ∈ y.frags, f.held = [])
    ∧ (preemptDue urgent 1 = true ∧ preemptPlan urgent 1 = some ([0], [0]) ∧ discardable urgent 0 = false)
    ∧ (let s : State := { urgent with groups := urgent.groups.map fun g => { g with preempt := some 0 } }
       ∃ y, s.groups[0]? = some y ∧ y.state = .resident ∧ y.quiesced = false ∧ y.preempt = some 0 ∧ 0 + 2048 ≤ s.cycle y.core)
    ∧ (∃ y o, (crowded 1).groups[0]? = some y ∧ y.state = .resident ∧ y.matHeld = false ∧ y.ops = [o] ∧ ((crowded 1).blockOf y).reason ≠ 0)
    ∧ ((savedState (crowded 2) 0).isSome = true ∧ (crowded 2).mem.wf = true)
    ∧ (restoreDue away 0 = true ∧ away.mem.read (away.block 0).image (imageBytes away 0).length = imageBytes away 0 ∧ away.memBad = [])
    ∧ ((base.ctx 1).alive = true ∧ ∃ x b, walkNow base 1 0x20000 = .page x b)
    ∧ (let x : XFault := { token := 5, pasid := 1, gen := 0, page := 0x30, source := 0, acc := 0, code := 3, level := 0, lid := 1, gid := 0, time := 0 }
       let s : State := { ringCtx 1 with xfaults := [x, { x with told := true }], time := 100000000, dyns := [{ waits := [5] }] }
       s.xfaults[0]? = some x ∧ x.told = false ∧ x.failed = false ∧ (s.ctx x.pasid).ring 1 = (0x300000, 1) ∧ s.ringRoom 0x300000 1 ≠ 0 ∧ s.hostLines = []
         ∧ (∀ c ∈ s.ctxs, c.shadow = 0) ∧ 100000000 ≤ s.since x.time ∧ heldToken s x.token = true) := by
  refine ⟨fun a => ⟨_, _, { rpc := (base.group 0).frag 0 |>.pc, lanes := 0xA5, arrived := if a then 0x05 else 0x01 }, rfl, rfl, ?_⟩, ?_⟩
  · cases a <;> decide +kernel
  · and_intros <;> first | decide +kernel | exact ⟨_, _, rfl, rfl, rfl, rfl, by decide +kernel⟩ | exact ⟨{ frame := 0x220, r := true, w := true, x := true, trk := false, ext := false, cpol := 0, dcls := 0, level := 1 }, 12, by decide +kernel⟩

/-! ### Witnesses: queues and packets (chapter 18) -/

/-- Queue 7, whose thread stands before the packet `p`, the window's only one. -/
def served (p : List Byte) (f : Queue → Queue := id) : State :=
  { base with
    queues := [(7, f { enabled := true, pasid := 1, desc := 0x20000, base := 0x20100, logsz := 6, prio := 100, rt := true, mapped := true,
                       win := (List.range (p.length / 16)).map fun k => (p.drop (16 * k)).take 16 })],
    feeds := setAt base.feeds 0 { bound := true, gen := 1, ctx := 1, base := 0x20FF0, tail := 16, head := 15 }, time := 100 }
/-- A packet: TYPE, SIZE, the words of its second four bytes and of each eight bytes behind them. -/
def packet (type size w : Nat) (rest : List Nat) : List Byte :=
  padTo (leBytes 1 type ++ leBytes 1 size ++ leBytes 2 0 ++ leBytes 4 w ++ rest.flatMap (leBytes 8)) (16 * size)
/-- The thread begins the packet. -/
def begins (s : State) (p : List Byte) (type : Nat) : Bool :=
  let f (off n : Nat) : Nat := leNat ((p.drop off).take n)
  nextPacket s 7 == some p && f 0 1 == type && decide (f 0 4 < 2 ^ 18) && !(s.ctx (s.queue 7).pasid).replay
    && (decide (0x0D < type) || (endNeeds (s.queue 7)).all (reached s (s.queue 7).pasid))
/-- What its operand translates to. -/
abbrev goesTo (s : State) (va : Nat) (k : AccKind) (pa : Nat) : Prop :=
  (s.ctx (s.queue 7).pasid).alive = true ∧ ∃ y ∈ (access s 64 (s.queue 7).pasid va k).toOption, y.1 = pa
/-- Its operands are found, as PacketsAreProcessed asks. -/
theorem goes_to {s : State} {va pa : Nat} {k : AccKind} (h : goesTo s va k pa) :
    (s.ctx (s.queue 7).pasid).alive = true ∧ ∃ x, access s 64 (s.queue 7).pasid va k = .ok (pa, x) := ⟨h.1, placed h.2⟩
/-- A kernel of one group of 32 registers and its descriptor. -/
def kernelBytes : List Byte := padTo (leBytes 8 0x10000 ++ leBytes 4 0x800) 128
def launchPacket (prio : Nat) : List Byte := packet 1 4 prio [0x20000, 7, 1, 0x20FF8, 9, 0x20FF0, 0]
theorem witness_LaunchPackets :
    let p := launchPacket 0xFF
    let s := served p fun x => { x with winDesc := [(0, kernelBytes)] }
    let k : Kernel := { entry := 0x10000, bdim := 1, nreg := 32 }
    let f (off n : Nat) : Nat := leNat ((p.drop off).take n)
    begins s p 1 = true ∧ (f 1 1 = 4 ∧ f 28 4 = 0 ∧ f 56 8 = 0 ∧ f 4 4 < 2 ^ 9 ∧ f 8 8 % 128 = 0 ∧ f 32 8 % 8 = 0 ∧ f 48 8 % 16 = 0 ∧ f 24 4 ≠ 0) ∧ (s.queue 7).calls = []
      ∧ (s.queue 7).winDesc.find? (fun e => e.1 == (s.queue 7).ridx) = some (0, kernelBytes) ∧ Kernel.ofBytes kernelBytes = some k ∧ s.lid ≠ 0xFFFFFFFF
      ∧ (s.queue 7).flights = [] ∧ (s.queue 7).rt = true
      ∧ (let l : Launch := { lid := s.lid + 1, ctx := 1, level := min (if f 4 1 / 128 = 1 then f 4 1 % 128 else k.prio) 100, kernel := k, karg := BitVec.ofNat 64 (f 16 8),
                             nblk := BitVec.ofNat 32 (f 24 4), evt := f 32 8, eval := BitVec.ofNat 64 (f 40 8), stat := f 48 8, rsv := f 5 1 % 2 == 1, queue := 7, packet := 0 }
         launchFails { beginPacket { s with lid := s.lid + 1 } 7 (f 1 1) (f 2 1 / 2 % 2 == 1) with launches := s.launches ++ [l] } s.launches.length = 0) := by
  decide +kernel
theorem witness_PacketsAreProcessed :
    (let s := served [] fun x => { x with flights := [{ index := 0, units := 2, intr := true, parts := 1 }], units := 2 }
     (s.queue 7).calls = [] ∧ (s.queue 7).flights = [{ index := 0, units := 2, intr := true, parts := 1 }] ∧ (s.queue 7).ridx = 0 ∧ reached (endPacket s 7) (s.queue 7).pasid (s.queue 7).descNeed = true)
    ∧ (let p := packet 2 2 0x100 [1, 0, 0]
       begins (served p) p 2 = true ∧ (served p).feedNamed 1 0x100 = true ∧ goesTo (served p) (0x20FF0 + 16 * (16 % 16)) .write 0x220FF0)
    ∧ (∀ op ∈ [0, 1, 2, 3], let p := packet 3 2 op [0x20FFC, 0xFFFFFFFF00000001, 50]
       begins (served p) p 3 = true ∧ goesTo (served p) 0x20FFC .read 0x220FFC)
    ∧ (let s := served [] fun x => { x with proc := .wait 50 50 }
       (s.queue 7).serving = true ∧ (s.queue 7).proc = .wait 50 50 ∧ 50 ≤ s.since 50 ∧ ∀ w ∈ s.woas, w.who = .queue 7 → w.hit = none)
    ∧ (∀ op ∈ [0, 1, 2, 3], let p := packet 4 2 op [0x20FF8, 0xFFFFFFFFFFFFFFFF, 0]
       begins (served p) p 4 = true ∧ goesTo (served p) 0x20FF8 .write 0x220FF8 ∧ goesTo (served p) 0x20FF8 .atomic 0x220FF8)
    ∧ (let p := packet 5 1 0 []
       begins (served p) p 5 = true)
    ∧ (let p := packet 6 2 0 [0x20FF0, 0x1000000, 0]
       begins (served p) p 6 = true)
    ∧ (let p := packet 7 1 0 []
       let s : State := { served [] (fun x => { x with calls := [{ addr := 0x20FF0, units := 1 }] }) with mem := base.mem.write 0x220FF0 p }
       begins s p 7 = true ∧ (s.queue 7).calls = [{ addr := 0x20FF0, units := 1 }])
    ∧ (let p := packet 8 1 0 [0x20FF8]
       begins (served p) p 8 = true ∧ goesTo (served p) 0x20FF8 .write 0x220FF8)
    ∧ (let p := packet 9 1 127 []
       let s := served p
       begins s p 9 = true ∧ (s.queue 7).rt = true ∧ goesTo s ((s.queue 7).desc + 24) .read 0x220018 ∧ goesTo s ((s.queue 7).desc + 24) .write 0x220018)
    ∧ (let p := packet 10 3 0 [0x20000, 0x21000, 16, 0, 0]
       begins (served p) p 10 = true)
    ∧ (let p := packet 11 2 255 [0x20FF8, 7, 0]
       begins (served p) p 11 = true ∧ goesTo (served p) 0x20FF8 .write 0x220FF8)
    ∧ (let p := (packet 12 255 0 []).take 16
       begins (served p) p 12 = true)
    ∧ (let p := packet 14 1 0 []
       begins (served p) p 14 = true)
    ∧ (∀ op ∈ [0, 1], let p := packet 13 2 op [0x8000000000000001, 0, 0]
       let s : State := { served p with reserved := none :: List.replicate 63 (some 1) }
       begins s p 13 = true ∧ s.reserved.length = 64 ∧ (s.queue 7).rt = true ∧ ∀ c, c < 64 → ((s.reserved[c]?).join = none ∨ (s.reserved[c]?).join = some (s.queue 7).pasid))
    ∧ (let s : State := { served [] (fun x => { x with mapped := false }) with mem := base.mem.write 0x220010 (leBytes 8 1) }
       mapDue s 7 = true ∧ mappedCount s < 32)
    ∧ unmapDue { served [] (fun x => { x with shown := 1, emptyAt := some 0 }) with time := 10000 } 7 = true :=
  by decide +kernel

/-! ### Witnesses: the driver's commands, teardown, watchdogs (chapter 18) -/

/-- A record of the driver ring, and the machine `s` whose driver thread finds it next: index 3 of a ring of 4 at 3 MiB. -/
def order (code : Nat) (args : List Nat) : List Byte := padTo (leBytes 4 code ++ leBytes 12 0 ++ args.flatMap (leBytes 8)) 64
def ordered (r : List Byte) (s : State := base) : State :=
  { s with mgmt := { s.mgmt with drvring := 0x0200000000300000 }, drvNext := 3, mem := s.mem.write 0x3000C0 r }
def asks (s : State) (r : List Byte) (code n : Nat) : Bool :=
  driverNext s == some (3, r) && leNat (r.take 1) == code && leNat ((r.drop 1).take 3) == 0 && (r.drop (16 + 8 * n)).all (· == 0)
/-- A record of a context without rings at 4 MiB, its ways pinned or not. -/
def withRecord (pinned : Nat) (s : State) : State := { s with mem := s.mem.write 0x400000 (padTo (leBytes 8 0x1000 ++ leBytes 2 pinned ++ leBytes 2 0) 256) }
/-- A queue's descriptor at 2 MiB. -/
def withDesc (s : State) : State := { s with mem := s.mem.write 0x220000 (leBytes 8 0x20100 ++ leBytes 16 0 ++ leBytes 4 0xFF000001 ++ leBytes 4 0x200) }
theorem witness_DriverCommandsContexts :
    (let s := ordered (order 99 [])
     driverNext s = some (3, order 99 []) ∧ 12 < leNat ((order 99 []).take 1) ∧ ∀ c ∈ s.ctxs, c.shadow = 0)
    ∧ (let r := order 1 [0x400000]
       let s := ordered r (withRecord 0xF base)
       asks s r 1 1 = true ∧ framePa 0x400000 = true ∧ (∃ c, Ctx.ofRecord (s.mem.read 0x400000 256) = some c ∧ pinnedWays s &&& (c.pinWays ||| c.ways) = 0 ∧ ∀ x ∈ c.rings, x.1 = 0)
         ∧ ∃ c, Ctx.ofRecord (s.mem.read 0x400000 256) = some c
            ∧ pinnedWays { s with ctxs := [{ pasid := 1, pinWays := 1 }] } &&& (c.pinWays ||| c.ways) ≠ 0)
    ∧ (let r := order 3 [4095, 1, 0x20000, 1]
       let s := ordered r (withDesc base)
       asks s r 3 4 = true ∧ ((s.ctx 1).alive = true) ∧ (∃ bs x, chovisRead s 1 0x20000 64 = some bs ∧ Queue.ofDesc bs 1 0x20000 = some x ∧ x.ridx = x.done ∧ x.prio = 127 ∧ x.rt = true)
         ∧ reached s 1 ⟨0x20000, .write⟩ = true
         ∧ (s.queues.filter fun e => e.2.pin && e.1 != 4095).length < 32)
    ∧ (let r := order 4 [1, 0x20000, 4096, 0x1000000]
       let s := ordered r
       asks s r 4 4 = true ∧ (s.ctx 1).alive = true ∧ s.pools.length = 256 ∧ (s.pool 255).bound = false
         ∧ (let s := ordered r { base with pools := List.replicate 256 { bound := true } }
            asks s r 4 4 = true ∧ s.pools.length = 256 ∧ ∀ k, k < 256 → (s.pool k).bound = true))
    ∧ (let r := order 4 [0xFFFFF, 0x20000, 64, 1]
       asks (ordered r) r 4 4 = true ∧ ((ordered r).ctx 0xFFFFF).alive = false)
    ∧ (let r := order 5 [1, 15, 2]
       let s := ordered r
       asks s r 5 3 = true ∧ s.syzygy.length = 128 ∧ (s.syz 127).bound = false ∧ 127 / 8 = 15)
    ∧ (let r := order 6 [1, 0x20000, 16, 64]
       let s := ordered r
       asks s r 6 4 = true ∧ s.feeds.length = 64 ∧ (s.feedQ 63).bound = false) :=
  by and_intros <;> first | decide +kernel | exact ⟨_, _, rfl, rfl, by decide +kernel⟩

/-- The block stands for the host, its stopping group too. -/
def forHost : State := halting { stopper := 0, code := 0x0C, target := .chovis, phase := .chovis } .stopped
/-- The host resumes it at 0x10000 with every lane left, or with none. -/
def resuming (lanes : Bool) : List Byte := order 7 [1, 0x0001000000000000, 0, if lanes then 0xFFFFFFFF00000000 else 0, 0]
theorem witness_DriverCommandsGroups :
    (∀ lanes : Bool,
     let r := resuming lanes
     let s := ordered r forHost
     asks s r 7 5 = true ∧ (∃ y h, groupById s 1 = some 0 ∧ s.groups[0]? = some y ∧ y.fragAt y.stopFid = some 0 ∧ y.block < s.blocks.length ∧ (s.block y.block).halt = some h
        ∧ h.phase = .chovis ∧ h.stopper = 0 ∧ y.hold = .stopped ∧ y.traced = false ∧ (∀ z ∈ s.groups, z.block = y.block → z.pending = none)
        ∧ ((trapOf r).mask.truncate 16 &&& (y.frag 0).amask ≠ 0 ↔ lanes = true)
        ∧ (lanes = false → fetchWord s y.core (s.pasidOf y) (trapOf r).pc.toNat = .ok 0)))
    ∧ (let r := order 8 [1]
       let s := ordered r
       asks s r 8 1 = true ∧ (∃ y, groupById s 1 = some 0 ∧ s.groups[0]? = some y ∧ y.block < s.blocks.length ∧ (s.block y.block).terminated = false
          ∧ (s.block y.block).place ≠ .done))
    ∧ (let gone := [0x3FFFF, 0, 0, 0, 0]
       let r := order 7 gone
       let r' := order 8 [0x3FFFF]
       let r'' := order 9 [0x3FFFF, 3]
       asks (ordered r) r 7 5 = true ∧ asks (ordered r') r' 8 1 = true ∧ asks (ordered r'') r'' 9 2 = true ∧ groupById (ordered r) 0x3FFFF = none)
    ∧ (let r := order 9 [1, 0xFFFFFFFF]
       asks (ordered r) r 9 2 = true ∧ groupById (ordered r) 1 = some 0)
    ∧ (let r := order 10 [1, 0x10000]
       asks (ordered r) r 10 2 = true ∧ ((ordered r).ctx 1).alive = true)
    ∧ (let r := order 11 [1, 0x400000, 8, 0x500000, 0]
       let r' := order 11 [1, 0x400000, 20, 0x500000, 1]
       let p : Prof := { k := 8, counts := List.replicate 65 (List.replicate 16 7) }
       asks (ordered r) r 11 5 = true ∧ framePa 0x400000 = true ∧ framePa 0x500000 = true
         ∧ (let s := ordered r' (base.modC 1 fun c => { c with prof := some p })
            asks s r' 11 5 = true ∧ (s.ctx 1).prof = some p) ∧ (∀ row ∈ p.counts, row.length = 16) ∧ p.counts.length = 65)
    ∧ (let r := order 12 [0x800000000040, 4096]
       asks (ordered r) r 12 2 = true ∧ 0x800000000040 % 64 = 0 ∧ hostPa 0x800000000040 = true)
    ∧ (let r := order 2 [1]
       asks (ordered r) r 2 1 = true ∧ ((ordered r).ctx 1).alive = true)
    ∧ (let s : State := { base with groups := [], blocks := [], launches := [], ctxs := [{ pasid := 1, tearing := some 0x300000 }] }
       teardownDue s 1 = true ∧ (s.ctx 1).tearing = some 0x300000 ∧ (∀ c ∈ s.ctxs, c.shadow = 0) ∧ (∀ l ∈ s.launches, l.ctx = 1 → l.done = true) ∧ s.ctxAt 1 = some 0)
    ∧ (let s : State := { base with time := 1000000, ctxs := base.ctxs.map fun c => { c with wdog := 1, xtmo := 1, wdogFrom := some 0 },
                                    groups := base.groups.map fun g => { g with frags := g.frags.map fun f => { f with waitFrom := some 0 } } }
       (wdogDue s 1 = true ∧ 0 < s.blocks.length ∧ (s.launch (s.block 0).launch).ctx = 1 ∧ (s.block 0).place ≠ .done ∧ (s.block 0).terminated = false ∧ s.groupsOf 0 ≠ [])
         ∧ xtmoDue s 0 = true) :=
  ⟨fun lanes => ⟨by revert lanes; decide +kernel, _, _, by revert lanes; decide +kernel, rfl, by revert lanes; decide +kernel, by revert lanes; decide +kernel, rfl,
      rfl, rfl, rfl, rfl, by revert lanes; decide +kernel, by revert lanes; decide +kernel, fun h => ok_of (by subst h; decide +kernel)⟩, ⟨by decide +kernel, ⟨_, by decide +kernel, rfl, by decide +kernel⟩⟩,
    by decide +kernel⟩

/-- R321 with R178: a take of an empty buffer zeroes every row of the tile, and the bytes beyond the rows stay. -/
theorem test_take_void_rows : (takeTile { data := [(0, 5), (127, 6), (128, 7)] } {} {}).data = [(128, 7)] := by decide +kernel

/-! ### Witnesses: the device and the machine as a whole (chapter 19) -/

/-- READY, its peer link up, the peer's window the page at 2 MiB; the host's message memory as `base` has it. -/
def linked : State := { base with mgmt := { base.mgmt with peerUp := true, peerWin := 0x200015 }, time := 1000000 }
/-- An image of a header and 16 bytes of payload, as far as the fuses and the signature leave it open. -/
def image : Mem := Mem.write [] 0 (leBytes 4 0x4D495753 ++ leBytes 4 7 ++ leBytes 4 16 ++ leBytes 4 12)
theorem witness_ImageIsRight (h : Config.sha3 (image.read 64 1312) = Config.fuseKeyHash)
    (hv : Config.mldsaVerify (image.read 64 1312) (image.read 0 64 ++ image.read 3840 16) (image.read 1376 2420) = true) : imageError image 16 7 = 0 := by
  have h1 : image.le 8 4 = 16 ∧ image.le 4 4 = 7
      ∧ (image.le 0 4 != 0x4D495753 || (image.read 16 48).any (· != 0) || (image.read 3796 44).any (· != 0) || decide (16 ≤ image.le 12 4)) = false := by decide +kernel
  simp only [imageError, h1, h, hv]
  simp
theorem witness_DeviceActs :
    let s := linked
    let page : Nat := 0x200000
    (s.mgmt.boot = .ready ∧ s.mgmt.boot ≠ .hold ∧ s.mem.wf = true ∧ s.mgmt.mbxBusy = false ∧ s.mailbox.wf = true ∧ (∀ c ∈ s.ctxs, c.shadow = 0) ∧ s.hostLines = [] ∧ s.dumpBase = 0)
    ∧ (∀ b : Boot, let s : State := { State.reset with mgmt := { State.reset.mgmt with boot := b } }
       s.mgmt.boot = b ∧ s.mgmt.mbxBusy = false ∧ s.flashOpen = false ∧ imageError s.flash (s.flashLen - 3840) s.fuseSvn.toNat = 2)
    ∧ ((0xA5C3000000000001 : Word64).toNat / 2 ^ 48 = 0xA5C3 ∧ (0xA5C3000000000001 : Word64).getLsbD 0 = true)
    ∧ (invalDue { s with mgmt := { s.mgmt with invalBusy := true, invalAtAll := true } } = true ∧ s.woas = [])
    ∧ (s.mgmt.peerUp = true ∧ 1000000 ≤ s.since s.peerAt ∧ s.peerSaid = none)
    ∧ ({ s with peerSaid := some (1, 2, 3, 4) } : State).peerSaid = some (1, 2, 3, 4)
    -- no engine at work, and one that is
    ∧ (s.copies = [] ∧ s.cols = [] ∧ s.dyns = [] ∧ ∀ g ∈ s.groups, g.ops = [])
    ∧ ({ s with copies := [{}] } : State).copies ≠ []
    ∧ (localPa (page + 2 ^ 21 - 64) = true ∧ localPa (page + 2 ^ 21 - 1) = true
        ∧ (let k := s.mgmt.peerWin.toNat % 64
           let base := s.mgmt.peerWin.toNat / 2 ^ 21 % 2 ^ 27 * 2 ^ 21
           21 ≤ k ∧ k ≤ 37 ∧ base ≤ page ∧ page + 2 ^ 21 = base + 2 ^ k ∧ ¬ (page - 8 ≥ base)))
    ∧ (∀ op, atomBytes op ≤ 16 ∧ page % atomBytes op = 0)
    ∧ localPa (2 ^ 46) = false
    ∧ (localPa (64 * ((page + 63) / 64)) = true ∧ localPa (64 * ((page + 63) / 64) + 63) = true)
    ∧ (tracedCtxs s 15 = [] ∧ (∀ c, ¬ (c / 4 = 15 ∧ (s.reserved[c]?).join ≠ none))
        ∧ (let s : State := { s with reserved := List.replicate 64 (some 1), pinned := List.replicate 64 1800 }
           s.mgmt.pinnedLow = false ∧ (s.reserved[63]?).join ≠ none ∧ 1799 < s.pinned[63]?.getD 0)) := by
  have hr : linked.reserved = List.replicate 64 none := rfl
  refine ⟨by decide +kernel, fun b => ⟨rfl, rfl, rfl, by cases b <;> decide +kernel⟩, ?_⟩
  and_intros <;> first | decide +kernel | exact fun op : AtomOp => by cases op <;> decide | (simp [localPa]; done) | refine fun c hc => hc.2 ?_
  rw [hr, List.getElem?_replicate]
  split <;> rfl

/-- Does a state have a next one? -/
noncomputable def goesOn (s : State) : Bool := match step s with | .next _ => true | _ => false
theorem goes_on {s : State} (h : goesOn s = true) : ∃ t, step s = .next t := by
  match hs : step s with
  | .next t => exact ⟨t, rfl⟩
  | .fault _ | .refused _ => simp [goesOn, hs] at h
theorem reset_canonical : Canonical State.reset := ⟨rfl, rfl, by decide, by decide⟩
/-- The state that a NOP is placed in. -/
def nopping : State := State.reset.withFetchWord 32 0x0D000000
theorem witness_MemoryStaysCanonical : (Canonical State.reset ∧ ∃ t, step State.reset = .next t) ∧ Canonical nopping ∧ ∃ t, step nopping = .next t :=
  ⟨⟨reset_canonical, goes_on (by decide +kernel)⟩, ⟨by decide +kernel, rfl, by decide +kernel, by decide +kernel⟩, goes_on (by decide +kernel)⟩
theorem witness_CachesStayWithinCapacity : ∃ t, step nopping = .next t := goes_on (by decide +kernel)
theorem witness_DecodeAndEncodeAgree : (Instr.add true 127 126 125).wellFormed = true ∧ decode 0x4E010286 0 = .ok (.fadd true 4 5 6) :=
  ⟨by decide +kernel, ok_of (by decide +kernel)⟩
theorem witness_WordsDecodeAsListed :
    ((0 : Word).extractLsb' 26 6 ≠ (0x3E : BitVec 6)) ∧ (let m : BitVec 6 := (0xA0000000 : Word).extractLsb' 26 6; isX m = true) := by decide +kernel
/-- Is the chosen step the issue of the first fragment, one of the device's own, or the arrival of an input? -/
noncomputable def chooses (s : State) : Nat :=
  match chosen s with
  | some (.frag 0 0) => 1
  | some (.event _) => 2
  | some .input => 3
  | some (.fetch _ _) => 4
  | _ => 0
theorem chooses_frag {s : State} (h : chooses s = 1) : chosen s = some (.frag 0 0) := by
  match hc : chosen s with
  | some (.frag 0 0) => rfl
  | some (.frag (_ + 1) _) | some (.frag 0 (_ + 1)) | some (.event _) | some .input | some (.fetch _ _) | none => simp [chooses, hc] at h
theorem chooses_event {s : State} (h : chooses s = 2) : ∃ x, chosen s = some (.event x) := by
  match hc : chosen s with
  | some (.event x) => exact ⟨x, rfl⟩
  | some (.frag 0 0) | some (.frag (_ + 1) _) | some (.frag 0 (_ + 1)) | some .input | some (.fetch _ _) | none => simp [chooses, hc] at h
theorem chooses_input {s : State} (h : chooses s = 3) : chosen s = some .input := by
  match hc : chosen s with
  | some .input => rfl
  | some (.frag 0 0) | some (.frag (_ + 1) _) | some (.frag 0 (_ + 1)) | some (.event _) | some (.fetch _ _) | none => simp [chooses, hc] at h
theorem chooses_fetch {s : State} (h : chooses s = 4) : ∃ gi fi, chosen s = some (.fetch gi fi) := by
  match hc : chosen s with
  | some (.fetch gi fi) => exact ⟨gi, fi, rfl⟩
  | some (.frag 0 0) | some (.frag (_ + 1) _) | some (.frag 0 (_ + 1)) | some (.event _) | some .input | none => simp [chooses, hc] at h
theorem witness_StepRunsTheDecodedInstruction :
    (chosen nopping = some (.frag 0 0) ∧ arriving nopping 0 0 = false
      ∧ (let g := nopping.group 0
         fetchWord nopping g.core (nopping.pasidOf g) (g.frag 0).pc.toNat = .ok 0x0D000000) ∧ needsSecond 0x0D000000 = false ∧ decode 0x0D000000 0 = .ok (.nop false))
    ∧ (let s := State.reset.withFetchWord 64 0xF80040B9B672E95A
       let g := s.group 0
       chosen s = some (.frag 0 0) ∧ arriving s 0 0 = false ∧ fetchWord s g.core (s.pasidOf g) (g.frag 0).pc.toNat = .ok 0xB672E95A ∧ needsSecond 0xB672E95A = true
         ∧ fetchWord s g.core (s.pasidOf g) ((g.frag 0).pc.toNat + 4) = .ok 0xF80040B9 ∧ decode 0xB672E95A 0xF80040B9 = .ok (.cpf true 75 41 45 1 0 2 1 1 1 1))
    ∧ (let s := State.reset.withFetchWord 32 0
       let g := s.group 0
       chosen s = some (.frag 0 0) ∧ arriving s 0 0 = false ∧ fetchWord s g.core (s.pasidOf g) (g.frag 0).pc.toNat = .ok 0 ∧ needsSecond 0 = false ∧ refused 0 0 = some 0)
    ∧ (∃ x, chosen State.reset = some (.event x))
    ∧ chosen { State.reset with mgmt := { State.reset.mgmt with boot := .fatal }, inputs := [.snp 64] } = some .input
    ∧ (∃ gi fi, chosen { nopping with icache := [] } = some (.fetch gi fi)) ∧ (chosen { State.reset with mgmt := { State.reset.mgmt with boot := .fatal } }).isNone = true
    ∧ (∃ t, step State.reset = .next t) ∧ ∃ t, step nopping = .next t :=
  ⟨⟨chooses_frag (by decide +kernel), by decide +kernel, ok_of (by decide +kernel), by decide +kernel, ok_of (by decide +kernel)⟩,
    ⟨chooses_frag (by decide +kernel), by decide +kernel, ok_of (by decide +kernel), by decide +kernel, ok_of (by decide +kernel), ok_of (by decide +kernel)⟩,
    ⟨chooses_frag (by decide +kernel), by decide +kernel, ok_of (by decide +kernel), by decide +kernel⟩, chooses_event (by decide +kernel),
    chooses_input (by decide +kernel), chooses_fetch (by decide +kernel), by decide +kernel, goes_on (by decide +kernel), goes_on (by decide +kernel)⟩

end Sys2Proof.Tests
end

section
/-! PROOFS. The decoder: what it refuses, and where encoding is not undone by it. -/

namespace Sys2Proof

/-- The well-formedness check of `cvt` looks at its target element and its rounding mode only: the source element code 13 passes it. -/
theorem cvt_reserved_source_wellFormed : (Instr.cvt false 13 0 0 0 0).wellFormed = true := by decide

/-- The source element of `cvt` is the word's function code, and the function codes above 12 of major 0x17 are reserved (R60, Table 4-2). -/
theorem decodeWords_cvt_reserved_source : decodeWords (encode (.cvt false 13 0 0 0 0)) = .error .reservedFn := by rfl

/-- Refutes O58: `cvt` with the source element code 13 is well formed by the model's check, and its word is refused as a reserved function code. -/
theorem not_decodeAndEncodeAgree : ¬ Obligations.DecodeAndEncodeAgree := by
  rintro ⟨decode_encode, -⟩
  have h := decode_encode _ cvt_reserved_source_wellFormed
  rw [decodeWords_cvt_reserved_source] at h
  cases h

@[simp] theorem WordFields.ofWord_maj (w : Word) : (WordFields.ofWord w).maj = w.extractLsb' 26 6 := rfl

theorem decode_of_reservedMajor {w0 : Word} (h : isReservedMajor (w0.extractLsb' 26 6) = true) (w1 : Word) :
    decode w0 w1 = .error .reservedMajor := by
  simp only [decode, WordFields.ofWord_maj, h, if_true]

theorem decode_of_extFirst {w0 : Word} (h : w0.extractLsb' 26 6 = (0x3E : BitVec 6)) (w1 : Word) : decode w0 w1 = .error .extFirst := by
  have hr : isReservedMajor 0x3E = false := by decide
  simp only [decode, WordFields.ofWord_maj, h, hr, Bool.false_eq_true, if_false, beq_self_eq_true, if_true]

/-- A format-X word without its second word: a reserved function code is reported first (R90). -/
theorem decode_isX_of_missingExt {w0 w1 : Word} (hx : isX (w0.extractLsb' 26 6) = true) (h1 : w1.extractLsb' 26 6 ≠ (0x3E : BitVec 6)) :
    decode w0 w1 = .error (if xFnCount (w0.extractLsb' 26 6) ≤ (WordFields.ofWord w0).fn.toNat then .reservedFn else .missingExt) := by
  have listed : ∀ m : BitVec 6, isX m = true → isReservedMajor m = false ∧ (m == 0x3E) = false := by decide
  obtain ⟨hr, he⟩ := listed _ hx
  simp only [decode, WordFields.ofWord_maj, hr, he, hx, bne_iff_ne.mpr h1, Bool.false_eq_true, if_false, if_true]
  split <;> rfl

/-- Settles O59: the listed words by evaluation, the reserved majors and the missing second word by the decoder's first checks. -/
theorem wordsDecodeAsListed : Obligations.WordsDecodeAsListed := by
  refine ⟨by rfl, by rfl, by rfl, by rfl, by rfl, by rfl, by rfl, by rfl, by rfl, by rfl, by rfl, by rfl, by rfl, ?_, ?_⟩
  · intro w1 h1
    exact decode_isX_of_missingExt (by decide) h1
  · intro w0 w1 m hm
    rcases hm with h | h | h | ⟨hx, h1⟩
    · exact ⟨_, decode_of_reservedMajor (by rw [show w0.extractLsb' 26 6 = 0 from h]; decide) w1⟩
    · exact ⟨_, decode_of_reservedMajor (by rw [show w0.extractLsb' 26 6 = 0x3F from h]; decide) w1⟩
    · exact ⟨_, decode_of_extFirst h w1⟩
    · exact ⟨_, decode_isX_of_missingExt hx h1⟩

end Sys2Proof
end

section
/-! PROOFS. The special registers: what srd reads, what swr leaves, and the tag that tagq reports. -/

namespace Sys2Proof.Machine

open Sys2Proof

/-! ### An instruction that acts once -/

theorem once_idle {s : State} {i : Iss} (h : i.lanes = 0) (size : Nat) (k : State) : once s i size k = s.advance i size := if_pos h
theorem once_active {s : State} {i : Iss} (h : i.lanes ≠ 0) (size : Nat) (k : State) : once s i size k = k := if_neg h

/-- Without an active lane no register is written. -/
theorem Iss.after_idle {i : Iss} (h : i.lanes = 0) (d : Nat) (ws : Nat → List Word) (p l : Nat) : i.after d ws p l = i.g.lane p l := by
  simp [Iss.after, h, Mask.has]

/-! ### Register writes beside changes of the fragment -/

/-- The fields of a fragment and the registers of its group may be written in either order. -/
theorem State.modF_putReg (s : State) (i : Iss) (u : Frag → Frag) (d : Nat) (f : Nat → Word) :
    (s.modF i.gi i.fi u).putReg i d f = (s.putReg i d f).modF i.gi i.fi u := by
  unfold State.putReg State.modF
  rw [State.modG_modG, State.modG_modG]
  rfl

theorem putReg_wrote {s : State} {g : Bool} {i : Iss} (h : Issuing s g i) (d : Nat) (f : Nat → Word) (size : Nat) :
    Wrote s ((s.putReg i d f).advance i size) i size (i.after d fun l => [f l]) i.preds :=
  (wrote_advance h (.setReg _ _ _) (by simp [Iss.N]) size false).congr (fun p l hp hl => setReg_after i d f p l hp hl) fun _ _ _ _ => rfl

/-- A register and fields of the issuing fragment are written, and it goes on. -/
theorem modF_putReg_went {s : State} {g : Bool} {i : Iss} (h : Issuing s g i) (u : Frag → Frag) (d : Nat) (f : Nat → Word) (size : Nat) :
    Went s (((s.modF i.gi i.fi u).putReg i d f).advance i size) i (u i.f) (i.f.pc + BitVec.ofNat 52 size) (i.after d fun l => [f l]) i.preds := by
  rw [State.modF_putReg]
  exact (went_advance h (.setReg _ _ _) (by simp [Iss.N]) u _ false none).congr (fun p l hp hl => setReg_after i d f p l hp hl) fun _ _ _ _ => rfl

/-- Fields of the issuing fragment are written, no register, and it goes on. -/
theorem modF_went {s : State} {g : Bool} {i : Iss} (h : Issuing s g i) (u : Frag → Frag) (size : Nat) :
    Went s ((s.modF i.gi i.fi u).advance i size) i (u i.f) (i.f.pc + BitVec.ofNat 52 size) i.g.lane i.preds := by
  have e := went_advance h .id rfl u (i.f.pc + BitVec.ofNat 52 size) false none
  rw [State.modG_id] at e
  exact e

theorem advance_wrote {s : State} {g : Bool} {i : Iss} (h : Issuing s g i) (size : Nat) : Wrote s (s.advance i size) i size i.g.lane i.preds := by
  have e := wrote_advance h .id rfl size false
  rw [State.modG_id] at e
  exact e

/-! ### srd (R53, Table 2-4) -/

/-- A context without the replay grant logs nothing. -/
theorem State.replayLog_of_not_replay {s : State} {pasid : Nat} (h : (s.ctx pasid).replay = false) (ty : Nat) (id : BitVec 18) (bs : List Byte) :
    s.replayLog pasid ty id bs = s := by
  simp [State.replayLog, h]

theorem State.sample_of_not_replay {s : State} {i : Iss} (h : (s.ctx (s.pasidOf i.g)).replay = false) (v : Word64) :
    s.sample i v = s.modF i.gi i.fi fun f => { f with latch := v, sampled := s.seq + 1 } :=
  State.replayLog_of_not_replay (by exact h) ..

/-- A sampling read takes the whole source into the latch and gives its low word. -/
theorem srd_samples {g : Bool} {d : Fld} {n : BitVec 14} {v : Word64} {s : State} {i : Iss} (h : CanIssue s g [] [d.toNat] [] i) (hl : i.lanes ≠ 0)
    (hr : (s.ctx (s.pasidOf i.g)).replay = false) (hv : sampleOf s i n.toNat = some v) :
    ∃ t, exec (.srd g d n) s = .next t
      ∧ Went s t i { i.f with latch := v, sampled := s.seq + 1 } (i.f.pc + 4) (i.after d.toNat fun _ => [v.setWidth 32]) i.preds := by
  refine ⟨_, (withOperands_next h _).trans (congrArg _ (once_active hl ..)), ?_⟩
  simp only [hv, State.sample_of_not_replay hr]
  exact modF_putReg_went h.toIssuing (fun f => { f with latch := v, sampled := s.seq + 1 }) d.toNat (fun _ => lo32 v) 4

/-- A read that does not sample gives the register's value and changes nothing else. -/
theorem srd_reads {g : Bool} {d : Fld} {n : BitVec 14} {s : State} {i : Iss} (h : CanIssue s g [] [d.toNat] [] i) (hn : sampleOf s i n.toNat = none) :
    ∃ t, exec (.srd g d n) s = .next t ∧ Wrote s t i 4 (i.after d.toNat fun l => [sregValue s i n.toNat l]) i.preds := by
  refine ⟨_, withOperands_next h _, ?_⟩
  by_cases hl : i.lanes = 0
  · rw [once_idle hl]
    exact (advance_wrote h.toIssuing 4).congr (fun p l _ _ => (Iss.after_idle hl ..).symm) fun _ _ _ _ => rfl
  · rw [once_active hl]
    simp only [hn]
    exact putReg_wrote h.toIssuing ..

/-- Settles O14: the three sampling reads by `srd_samples`, every other row of Table 2-4 by `srd_reads` at its number. -/
theorem specialRegisterReads : Obligations.SpecialRegisterReads := by
  constructor
  · intro g d n v s i h hl hr hv
    refine srd_samples h hl hr ?_
    obtain ⟨rfl, rfl⟩ | ⟨rfl, rfl⟩ | ⟨rfl, rfl⟩ := hv <;> rfl
  · intro g d n s i h b la reads
    have read {m : BitVec 14} (hm : sampleOf s i m.toNat = none) (e : n = m) : reads (sregValue s i m.toNat) := by
      subst e; exact srd_reads h hm
    refine ⟨read rfl, read rfl, read rfl, read rfl, read rfl, read rfl, read rfl, read rfl, read rfl, read rfl, read rfl, read rfl, read rfl, read rfl,
      read rfl, read rfl, ?_, read rfl, read rfl, read rfl, read rfl, read rfl, read rfl, read rfl, read rfl, read rfl, read rfl⟩
    rintro (e | e | e)
    · exact read rfl e
    · exact read rfl e
    · exact read rfl e

/-! ### swr (R54) -/

/-- Settles O15: the instruction acts with the lowest active lane's value, and each register's branch of it is taken. -/
theorem specialRegisterWrites : Obligations.SpecialRegisterWrites := by
  intro g d n s i h hl v trap
  have acts : exec (.swr g d n) s = .next _ := (withOperands_next h _).trans (congrArg _ (once_active hl ..))
  refine ⟨?wb, ?fmt, ?prio, ?_, ?_, ?_, ?_, ?_, ?_, ?_, ?_⟩
  case wb =>
    rintro rfl hv hN
    exact ⟨_, acts.trans (congrArg _ (if_neg (not_or.2 ⟨fun hne => hne hv, Nat.not_lt.2 hN⟩))), modF_went h.toIssuing (fun f => { f with wb := v.toNat, map := none }) 4⟩
  case fmt =>
    rintro rfl hv
    exact ⟨_, acts.trans (congrArg _ (if_neg (ne_true_of_eq_false hv))), modF_went h.toIssuing (fun f => { f with fmt := v, badFmt := false }) 4⟩
  case prio =>
    rintro rfl hv hc
    exact acts.trans (congrArg _ ((if_neg (Nat.not_le.2 hv)).trans (if_neg (Nat.not_lt.2 hc))))
  all_goals
    rintro rfl
    exact acts

/-! ### tagq (R42, R139) -/

/-- A register whose tag UNIFORM is true holds one word in all lanes. -/
theorem tagTrue_uniform {v : LaneVec} (h : tagTrue v 1 = true) {l : Nat} (hl : l < 16) : v[l]?.getD 0 = v[0]?.getD 0 := by
  simp only [tagTrue, List.all_eq_true, beq_iff_eq] at h
  simpa [hl] using h v[l] (by simp)

/-- A register whose tag AFFINE is true holds a progression. -/
theorem tagTrue_affine {v : LaneVec} (h : tagTrue v 2 = true) {l : Nat} (hl : l < 16) :
    v[l]?.getD 0 = v[0]?.getD 0 + BitVec.ofNat 32 l * (v[1]?.getD 0 - v[0]?.getD 0) := by
  simp only [tagTrue, List.all_eq_true, beq_iff_eq] at h
  exact h l ((mem_laneNums l).2 hl)

/-- The tag of code 0 is true of no register: `tagq` then reports VARYING, code 0. -/
theorem tagTrue_cases {v : LaneVec} {c : Nat} (hc : c < 3) (h : tagTrue v c = true) : c = 1 ∨ c = 2 := by
  match c with
  | 0 => cases h
  | 1 => exact .inl rfl
  | 2 => exact .inr rfl

/-- The tag that is reported: a free code where it is true of the register, and VARYING else (log entry 8). -/
def tagReported (v : LaneVec) (c : Nat) : Word := if tagTrue v c then BitVec.ofNat 32 c else 0

theorem tagReported_true (v : LaneVec) {c : Nat} (hc : c < 3) :
    tagReported v c = 0 ∨ tagReported v c = 1 ∧ tagTrue v 1 = true ∨ tagReported v c = 2 ∧ tagTrue v 2 = true := by
  unfold tagReported
  by_cases h : tagTrue v c = true
  · obtain rfl | rfl := tagTrue_cases hc h
    · exact .inr (.inl ⟨if_pos h, h⟩)
    · exact .inr (.inr ⟨if_pos h, h⟩)
  · exact .inl (if_neg h)

/-- Which draw comes next does not matter to who issues. -/
theorem Issuing.draws {s : State} {g : Bool} {i : Iss} (h : Issuing s g i) (n : Nat) : Issuing { s with draws := n } g i := ⟨h.cur, h.gi, h.fi⟩

/-- Settles O16: the code reported is `tagReported`, which is true of the register. -/
theorem tagQueryIsTrue : Obligations.TagQueryIsTrue := by
  intro g d a s i h
  have code := tagReported_true (i.g.regs[i.phys a.toNat]?.getD zeroVec) (Nat.mod_lt (Config.tag s.draws) (by decide))
  refine ⟨_, _, withOperands_next h _, putReg_wrote (h.toIssuing.draws _) .., code.imp_right (Or.imp ?_ ?_)⟩
  · exact fun ⟨hc, ht⟩ => ⟨hc, fun l hl => tagTrue_uniform ht hl⟩
  · exact fun ⟨hc, ht⟩ => ⟨hc, fun l hl => tagTrue_affine ht hl⟩

end Sys2Proof.Machine
end

section
/-! PROOFS. Returns: what an outstanding instruction delivers to its group, and what a return leaves as it was. -/

namespace Sys2Proof.Machine

open Sys2Proof

/-! ### Writes one after another -/

/-- Of writes one after another, each of which puts its value at a place or leaves the place alone, the last one at the place is read back. -/
theorem foldl_last_write {σ ω β : Type} {upd : σ → ω → σ} {read : σ → β} {hit : ω → Bool} {val : ω → β} (P : σ → Prop) (keep : ∀ g w, P g → P (upd g w))
    (one : ∀ g w, P g → read (upd g w) = if hit w = true then val w else read g) (ws : List ω) (g : σ) (hg : P g) :
    read (ws.foldl upd g) = ((ws.reverse.find? hit).map val).getD (read g) := by
  induction ws generalizing g with
  | nil => rfl
  | cons w ws ih =>
    rw [List.foldl_cons, ih _ (keep g w hg), one g w hg, List.reverse_cons, List.find?_append]
    cases ws.reverse.find? hit with
    | some x => rfl
    | none => cases hw : hit w <;> simp [hw]

/-- What no update of a list changes is as before. -/
theorem foldl_keeps {σ ω β : Type} {upd : σ → ω → σ} (read : σ → β) (ws : List ω) (g : σ) (one : ∀ g w, read (upd g w) = read g) :
    read (ws.foldl upd g) = read g := by
  induction ws generalizing g with
  | nil => rfl
  | cons w ws ih => rw [List.foldl_cons, ih, one]

theorem twoPowMask_has {k l : Nat} (hl : l < 16) : (twoPowMask k).has l = decide (l = k) := by
  simp [Mask.has, twoPowMask, hl]

/-! ### What a return delivers (R51, R94, R217) -/

/-- The register words of a return. -/
def putWrites (g : Group) (ws : List RegWrite) : Group := ws.foldl (fun g w => g.setReg w.reg (twoPowMask w.lane) fun _ => w.val) g
/-- The predicates of a return. -/
def putPreds (g : Group) (ps : List (Nat × Nat × Bool)) : Group := ps.foldl (fun g p => g.setPred p.1 (twoPowMask p.2.1) fun _ => p.2.2) g
/-- The poison marks of a return. -/
def putPoison (g : Group) (ps : List Poison) : Group :=
  ps.foldl (fun g p => { g with poison := { p with lanes := p.lanes } :: clearPoison g.poison p.reg p.lanes }) g

theorem deliverOut_resident {g : Group} (h : g.state = .resident) (o : Outst) :
    deliverOut g o = putPoison (putPreds (putWrites g o.writes) o.preds) o.poison := by
  unfold deliverOut
  rw [h]
  exact if_neg (by decide)

theorem putPoison_regs (g : Group) (ps : List Poison) : (putPoison g ps).regs = g.regs := by
  refine foldl_keeps Group.regs ps g fun _ _ => ?_
  rfl
theorem putPoison_preds (g : Group) (ps : List Poison) : (putPoison g ps).preds = g.preds := by
  refine foldl_keeps Group.preds ps g fun _ _ => ?_
  rfl
theorem putPreds_regs (g : Group) (ps : List (Nat × Nat × Bool)) : (putPreds g ps).regs = g.regs := by
  refine foldl_keeps Group.regs ps g fun _ _ => ?_
  rfl
theorem putWrites_preds (g : Group) (ws : List RegWrite) : (putWrites g ws).preds = g.preds := by
  refine foldl_keeps Group.preds ws g fun _ _ => ?_
  rfl
theorem putWrites_length (g : Group) (ws : List RegWrite) : (putWrites g ws).regs.length = g.regs.length :=
  foldl_keeps (fun g : Group => g.regs.length) ws g fun g _ => g.setReg_length ..

theorem putWrites_lane (g : Group) (ws : List RegWrite) {p l : Nat} (hp : p < g.regs.length) (hl : l < 16) :
    (putWrites g ws).lane p l = ((ws.reverse.find? fun w => w.reg == p && w.lane == l).map (·.val)).getD (g.lane p l) := by
  refine foldl_last_write (read := fun g : Group => g.lane p l) (fun g => p < g.regs.length) (fun g w h => by simpa using h) (fun g w h => ?_) ws g hp
  rw [Group.setReg_lane _ _ _ _ _ _ h hl, twoPowMask_has hl]
  simp only [Bool.and_eq_true, beq_iff_eq, decide_eq_true_eq, eq_comm (a := p), eq_comm (a := l)]

theorem putPreds_pred (g : Group) (ps : List (Nat × Nat × Bool)) {p l : Nat} (hp : p < 8) (hl : l < 16) :
    ((putPreds g ps).pred p).has l = ((ps.reverse.find? fun w => w.1 == p && w.2.1 == l).map (·.2.2)).getD ((g.pred p).has l) := by
  refine foldl_last_write (read := fun g : Group => (g.pred p).has l) (fun _ => True) (fun _ _ h => h) (fun g w _ => ?_) ps g trivial
  rw [Group.setPred_pred _ _ _ _ _ _ hp, twoPowMask_has hl]
  simp only [Bool.and_eq_true, beq_iff_eq, decide_eq_true_eq, eq_comm (a := p), eq_comm (a := l)]

/-- Each lane of each register holds the last word owed to it. -/
theorem deliverOut_lane {g : Group} (h : g.state = .resident) (o : Outst) {p l : Nat} (hp : p < g.regs.length) (hl : l < 16) :
    (deliverOut g o).lane p l = ((o.writes.reverse.find? fun w => w.reg == p && w.lane == l).map (·.val)).getD (g.lane p l) := by
  rw [deliverOut_resident h, Group.lane, putPoison_regs, putPreds_regs]
  exact putWrites_lane g o.writes hp hl

/-- Each lane of each predicate holds the last value owed to it. -/
theorem deliverOut_pred {g : Group} (h : g.state = .resident) (o : Outst) {p l : Nat} (hp : p < 8) (hl : l < 16) :
    ((deliverOut g o).pred p).has l = ((o.preds.reverse.find? fun w => w.1 == p && w.2.1 == l).map (·.2.2)).getD ((g.pred p).has l) := by
  rw [deliverOut_resident h, Group.pred, putPoison_preds]
  refine (putPreds_pred _ o.preds hp hl).trans ?_
  rw [Group.pred, putWrites_preds]
  rfl

theorem deliverOut_length {g : Group} (h : g.state = .resident) (o : Outst) : (deliverOut g o).regs.length = g.regs.length := by
  rw [deliverOut_resident h, putPoison_regs, putPreds_regs, putWrites_length]

/-! ### A return -/

/-- The group behind the return of its entry o. -/
def groupReturned (g : Group) (n : Nat) (o : Outst) : Group :=
  { (deliverOut g o).roused g with
    outst := pruneOuts o.path (((deliverOut g o).roused g).outst.map fun x => if x.seq = n ∧ x.path = o.path then { x with returned := true } else x) }

/-- A return is a change of its group. -/
theorem returnOut_some {s : State} {gi n : Nat} {ok : Outst → Bool} {o : Outst}
    (h : (s.group gi).outst.find? (fun o => o.seq == n && !o.returned && ok o) = some o) :
    returnOut s gi n ok = s.modG gi fun _ => groupReturned (s.group gi) n o := by
  unfold returnOut
  rw [h]
  rfl

/-- A return changes its group and nothing else. -/
theorem returnOut_modG (s : State) (gi n : Nat) (ok : Outst → Bool) : ∃ f, returnOut s gi n ok = s.modG gi f := by
  match h : (s.group gi).outst.find? (fun o => o.seq == n && !o.returned && ok o) with
  | some o => exact ⟨_, returnOut_some h⟩
  | none =>
    refine ⟨fun g => g, ?_⟩
    unfold returnOut
    rw [h, State.modG_id]

/-- Results reach the registers and predicates that they are owed to. -/
theorem returnOut_delivers {gi n : Nat} {s : State} {o : Outst} {ok : Outst → Bool} (hgi : gi < s.groups.length) (hres : (s.group gi).state = .resident)
    (ho : (s.group gi).outst.find? (fun o => o.seq == n && !o.returned && ok o) = some o) :
    let g := s.group gi
    let t := returnOut s gi n ok
    (∀ p l, p < g.regs.length → l < 16 →
        (t.group gi).lane p l = ((o.writes.reverse.find? fun w => w.reg == p && w.lane == l).map (·.val)).getD (g.lane p l))
    ∧ (∀ p l, p < 8 → l < 16 → ((t.group gi).pred p).has l = ((o.preds.reverse.find? fun w => w.1 == p && w.2.1 == l).map (·.2.2)).getD ((g.pred p).has l))
    ∧ (t.group gi).regs.length = g.regs.length ∧ (∀ k, k ≠ gi → t.groups[k]? = s.groups[k]?) ∧ t.mem = s.mem ∧ t.unperf = s.unperf := by
  intro g t
  have ht : t = s.modG gi fun _ => groupReturned g n o := returnOut_some ho
  have hg : t.group gi = groupReturned g n o := by rw [ht, State.modG_self _ _ _ hgi]
  refine ⟨fun p l hp hl => ?_, fun p l hp hl => ?_, ?_, fun k hk => ?_, by rw [ht]; rfl, by rw [ht]; rfl⟩
  · rw [hg]; exact deliverOut_lane hres o hp hl
  · rw [hg]; exact deliverOut_pred hres o hp hl
  · rw [hg]; exact deliverOut_length hres o
  · rw [ht, State.modG_groups, if_neg hk]

/-- The completion of an `icinv` takes its lines from the caches of its cores, and its return leaves the caches and memory as they are. -/
theorem completionPathReturn_icinv {gi n : Nat} {s : State} {o : Outst} {cores lines : List Nat}
    (ho : (s.group gi).outst.find? (fun o => o.seq == n && o.path == .cf && !o.returned) = some o) (hact : o.act = .icinv cores lines) :
    ∃ t, exec (.completionPathReturn gi n) s = .next t
      ∧ t.icache = s.icache.filter (fun x => !(x.pasid == s.pasidOf (s.group gi) && cores.contains x.core && lines.contains x.line)) ∧ t.mem = s.mem := by
  have hx : exec (.completionPathReturn gi n) s = .next (returnOut (dropCode s (s.pasidOf (s.group gi)) cores lines) gi n fun o => o.path == .cf) := by
    change execCompletionPathReturn gi n s = _
    simp only [execCompletionPathReturn, ho, completeAct, hact]
  obtain ⟨f, hf⟩ := returnOut_modG (dropCode s (s.pasidOf (s.group gi)) cores lines) gi n fun o => o.path == .cf
  exact ⟨_, hx, by rw [hf]; rfl, by rw [hf]; rfl⟩

/-- Settles O31: a load's and an atomic's return by `returnOut_delivers`, an `icinv`'s and a check's by their branches. -/
theorem resultsReturn : Obligations.ResultsReturn := by
  refine ⟨?load, ?atomic, ?icinv, ?check⟩
  case load => exact fun gi n s o hgi hres ho => ⟨_, rfl, returnOut_delivers hgi hres ho⟩
  case atomic => exact fun gi n s o hgi hres ho => ⟨_, rfl, returnOut_delivers hgi hres ho⟩
  case icinv => exact fun gi n s o cores lines _ ho hact => completionPathReturn_icinv ho hact
  case check =>
    intro gi s c hc hp
    change execAccessCheckReturn gi s = _
    simp only [execAccessCheckReturn, hc, hp, Bool.false_eq_true, if_false]

end Sys2Proof.Machine
end

section
/-! PROOFS. One step: the instruction that is fetched, and what the end of a step leaves of time. -/

namespace Sys2Proof.Machine

open Sys2Proof

/-! ### A fetch fills caches only (R220, R420) -/

/-- `t` is `s` but for translations and code that have been cached. -/
def Filled (s t : State) : Prop := ∃ tlb tlb2 walks icache, t = { s with tlb := tlb, tlb2 := tlb2, walks := walks, icache := icache }

theorem Filled.refl (s : State) : Filled s s := ⟨_, _, _, _, rfl⟩

theorem Filled.trans {s t u : State} : Filled s t → Filled t u → Filled s u := by
  rintro ⟨_, _, _, _, rfl⟩ ⟨_, _, _, _, rfl⟩
  exact ⟨_, _, _, _, rfl⟩

theorem Filled.eq {s t : State} : Filled s t → t = { s with tlb := t.tlb, tlb2 := t.tlb2, walks := t.walks, icache := t.icache } := by
  rintro ⟨_, _, _, _, rfl⟩
  rfl

/-- The state of a fragment's issue is the one before, but for the caches, for who issues and for the note whether FMT is read. -/
theorem Filled.issue_eq {s v : State} {c : Option (Nat × Nat)} (h : Filled { s with cur := c } v) (b : Bool) :
    { v with readsFmt := b } = { s with cur := c, readsFmt := b, tlb := v.tlb, tlb2 := v.tlb2, walks := v.walks, icache := v.icache } := by
  obtain ⟨_, _, _, _, rfl⟩ := h
  rfl

theorem fillWalks_filled (s : State) (pasid va : Nat) : Filled s (fillWalks s pasid va) := by
  unfold fillWalks
  exact ⟨_, _, _, _, rfl⟩

theorem fillPage_filled (s : State) (core pasid va : Nat) : Filled s (fillPage s core pasid va) := by
  unfold fillPage
  dsimp only
  split
  · exact .refl s
  · exact ⟨_, _, _, _, rfl⟩
  · split
    · exact (fillWalks_filled s pasid va).trans ⟨_, _, _, _, rfl⟩
    · exact .refl s

theorem fillTlb_filled (s : State) (core pasid : Nat) (vas : List Nat) : Filled s (fillTlb s core pasid vas) := by
  unfold fillTlb
  induction vas generalizing s with
  | nil => exact .refl s
  | cons va vas ih => exact (fillPage_filled s core pasid va).trans (ih _)

theorem fetchFill_filled (s : State) (core pasid va : Nat) : Filled s (fetchFill s core pasid va) := by
  unfold fetchFill
  dsimp only
  split
  · exact (fillTlb_filled s core pasid [va]).trans ⟨_, _, _, _, rfl⟩
  · exact fillTlb_filled s core pasid [va]

/-- The walk of a page completes: its translation is cached, or nothing is. -/
theorem execTranslationWalkComplete_filled (core pasid va : Nat) (s : State) : ∃ t, execTranslationWalkComplete core pasid va s = .next t ∧ Filled s t := by
  refine ⟨_, rfl, ?_⟩
  split
  · exact fillTlb_filled s core pasid [va]
  · exact .refl s

/-! ### The instruction that a fragment issues (R61, R63) -/

/-- The state in which a fragment runs what it has fetched: its line or lines of code are cached. -/
def codeFilled (s : State) (gi fi : Nat) (w0 : Word) : State :=
  let g := s.group gi
  let pc := (g.frag fi).pc.toNat
  let u := fetchFill { s with cur := some (gi, fi) } g.core (s.pasidOf g) pc
  if isX (WordFields.ofWord w0).maj then fetchFill u g.core (s.pasidOf g) (pc + 4) else u

theorem codeFilled_filled (s : State) (gi fi : Nat) (w0 : Word) : Filled { s with cur := some (gi, fi) } (codeFilled s gi fi w0) := by
  unfold codeFilled
  dsimp only
  split
  · exact (fetchFill_filled _ _ _ _).trans (fetchFill_filled _ _ _ _)
  · exact fetchFill_filled _ _ _ _

/-- The words at a fragment's PC have been fetched; without format X the second reads as 0. -/
structure Fetched (s : State) (gi fi : Nat) (w0 w1 : Word) : Prop where
  here : arriving s gi fi = false
  first : fetchWord s (s.group gi).core (s.pasidOf (s.group gi)) ((s.group gi).frag fi).pc.toNat = .ok w0
  second : (if isX (WordFields.ofWord w0).maj then fetchWord s (s.group gi).core (s.pasidOf (s.group gi)) (((s.group gi).frag fi).pc.toNat + 4) else .ok 0)
    = .ok w1

theorem second_of_needsSecond {w0 w1 : Word} {second : Except Nat Word} (h : if needsSecond w0 = true then second = .ok w1 else w1 = 0) :
    (if isX (WordFields.ofWord w0).maj then second else .ok 0) = .ok w1 := by
  change if isX (WordFields.ofWord w0).maj = true then _ else _ at h
  split at h
  · rwa [if_pos ‹_›]
  · rw [if_neg ‹_›, h]

theorem fragInstr_ok {s : State} {gi fi : Nat} {w0 w1 : Word} {x : Instr} (h : Fetched s gi fi w0 w1) (hx : decode w0 w1 = .ok x) :
    fragInstr s gi fi = ({ codeFilled s gi fi w0 with readsFmt := readsFmt w0 }, x) := by
  unfold fragInstr codeFilled
  simp only [h.here, h.first, h.second, hx, Bool.false_eq_true, if_false]

theorem fragInstr_error {s : State} {gi fi : Nat} {w0 w1 : Word} {e : DecodeError} (h : Fetched s gi fi w0 w1) (he : decode w0 w1 = .error e) :
    fragInstr s gi fi = (codeFilled s gi fi w0, .illegalInstruction w0 w1 e.detail) := by
  unfold fragInstr codeFilled
  simp only [h.here, h.first, h.second, he, Bool.false_eq_true, if_false]

/-! ### A step is the meaning of what comes next, and then it ends -/

/-- What is left of a meaning's outcome behind the step: its state is finished, a fault or a refusal stays. -/
noncomputable def concluded (s : State) (r : Res) (after : State → State) : Res :=
  match r with
  | .next t => .next (finish s (after t))
  | .fault r => .fault r
  | .refused r => .refused r

theorem step_of_chosen {s : State} {c : Choice} (h : chosen s = some c) :
    step s = concluded s (exec (c.take s).2 (c.take s).1) fun t => c.after s t := by
  unfold step
  rw [h]
  rfl

theorem step_of_idle {s : State} (h : chosen s = none) : step s = .next (finish s s) := by
  unfold step
  rw [h]

/-- Whatever a step does, it ends by `finish`. -/
theorem step_next_finish {s t : State} (h : step s = .next t) : ∃ v, t = finish s v := by
  match hc : chosen s with
  | none =>
    rw [step_of_idle hc] at h
    exact ⟨s, (Host.Outcome.next.inj h).symm⟩
  | some c =>
    rw [step_of_chosen hc] at h
    match hx : exec (c.take s).2 (c.take s).1 with
    | .next v =>
      rw [hx] at h
      exact ⟨_, (Host.Outcome.next.inj h).symm⟩
    | .fault r => rw [hx] at h; cases h
    | .refused r => rw [hx] at h; cases h

/-- A fragment's step is the meaning of its instruction, or of ILL. -/
theorem step_frag {s : State} {gi fi : Nat} {w0 w1 : Word} {x : Instr} (hc : chosen s = some (.frag gi fi)) (h : Fetched s gi fi w0 w1)
    (hx : decode w0 w1 = .ok x ∨ ∃ e, decode w0 w1 = .error e ∧ x = .illegalInstruction w0 w1 e.detail) :
    ∃ u, u = { s with cur := some (gi, fi), readsFmt := u.readsFmt, tlb := u.tlb, tlb2 := u.tlb2, walks := u.walks, icache := u.icache }
      ∧ (decode w0 w1 = .ok x → u.readsFmt = readsFmt w0) ∧ step s = concluded s (exec x u) fun t => (Choice.frag gi fi).after s t := by
  have run {u : State} (e : fragInstr s gi fi = (u, x)) : step s = concluded s (exec x u) fun t => (Choice.frag gi fi).after s t := by
    rw [step_of_chosen hc, show (Choice.frag gi fi).take s = (u, x) from e]
  have filled := codeFilled_filled s gi fi w0
  obtain hx | ⟨e, he, rfl⟩ := hx
  · exact ⟨_, filled.issue_eq (readsFmt w0), fun _ => rfl, run (fragInstr_ok h hx)⟩
  · exact ⟨_, filled.issue_eq (codeFilled s gi fi w0).readsFmt, fun hok => absurd (he.symm.trans hok) (by simp), run (fragInstr_error h he)⟩

/-- A fetch's step caches the line and its translation. -/
theorem step_fetch {s : State} {gi fi : Nat} (hc : chosen s = some (.fetch gi fi)) : ∃ t, step s = .next (finish s t) ∧ Filled s t := by
  obtain ⟨t, ht, hf⟩ := execTranslationWalkComplete_filled (s.group gi).core (s.pasidOf (s.group gi))
    ((codeMissing s gi fi).getD ((s.group gi).frag fi).pc.toNat) (Choice.take s (.fetch gi fi)).1
  refine ⟨t, ?_, (fetchFill_filled _ _ _ _).trans hf⟩
  rw [step_of_chosen hc]
  exact congrArg (fun r => concluded s r fun t => (Choice.fetch gi fi).after s t) ht

/-! ### What the end of a step leaves (R7, R414) -/

/-- What the end of a cycle does not touch of what the end of a step writes. -/
def stepMark (s : State) : Option (Nat × Nat) × Nat × Mgmt := (s.cur, s.steps, s.mgmt)

theorem stepMark_ite {c : Prop} [Decidable c] {s t u : State} (ht : stepMark t = stepMark s) (hu : stepMark u = stepMark s) :
    stepMark (if c then t else u) = stepMark s := by
  split
  · exact ht
  · exact hu

theorem State.packet_stepMark (s : State) (cl : Nat) (p : Packet) : stepMark (s.packet cl p) = stepMark s := by
  have chosen (n : Nat) : stepMark (s.chooseOf n).1 = stepMark s := by
    unfold State.chooseOf
    split <;> rfl
  unfold State.packet
  exact stepMark_ite rfl (stepMark_ite rfl (stepMark_ite rfl (chosen _)))

theorem State.trace_stepMark (s : State) (gi ty low : Nat) (bs : List Byte) : stepMark (s.trace gi ty low bs) = stepMark s := by
  unfold State.trace
  dsimp only
  split
  · rfl
  · exact State.packet_stepMark ..

theorem State.flushCond_stepMark (s : State) (gi fi : Nat) : stepMark (s.flushCond gi fi) = stepMark s := by
  unfold State.flushCond
  dsimp only
  split
  · rfl
  · exact State.trace_stepMark ..

theorem State.traceFrag_stepMark (s : State) (gi fi ty : Nat) (bs : List Byte) : stepMark (s.traceFrag gi fi ty bs) = stepMark s :=
  (State.trace_stepMark ..).trans (State.flushCond_stepMark ..)

theorem tellStop_stepMark (s : State) (bi : Nat) : stepMark (tellStop s bi) = stepMark s := by
  unfold tellStop
  split
  · rfl
  · dsimp only
    split
    · rfl
    · split
      · exact State.traceFrag_stepMark ..
      · rfl

theorem endCycle_stepMark (s : State) (cl : Nat) : stepMark (endCycle s cl) = stepMark s := by
  unfold endCycle
  refine foldl_keeps stepMark (List.range s.blocks.length) s fun s bi => ?_
  split
  · split
    · exact tellStop_stepMark s bi
    · rfl
  · rfl

theorem passTime_stepMark (s : State) (dt : Nat) : stepMark (passTime s dt) = stepMark s := by
  have hc : stepMark ((endingCycles s dt).foldl endCycle s) = stepMark s := foldl_keeps stepMark (endingCycles s dt) s endCycle_stepMark
  unfold passTime
  dsimp only
  split
  · exact hc
  · exact hc

/-- Time counts picoseconds modulo 2^64 nanoseconds. -/
theorem passTime_time (s : State) (dt : Nat) :
    1000 * (passTime s dt).time + (passTime s dt).fine = (1000 * s.time + s.fine + dt) % (1000 * 2 ^ 64) := by
  have e : 1000 * s.time + s.fine + dt = s.time * 1000 + s.fine + dt := by rw [Nat.mul_comm]
  rw [e, Nat.mod_mul, Nat.add_comm]
  rfl

theorem passing_range (s : State) : 1 ≤ passing s ∧ passing s ≤ 400 := by
  have := Nat.mod_lt (Config.elapsed s.steps) (show 0 < 400 by decide)
  unfold passing
  omega

/-- What a step of `s` that ends in `t` has left: no fragment issues, one more step is counted, and time stands at 0 in RESET, stands still, or goes on. -/
def EndsStep (s t : State) : Prop :=
  t.cur = none ∧ t.steps = s.steps + 1
    ∧ if t.mgmt.boot = .reset then t.time = 0 ∧ t.fine = 0
      else (t.time = s.time ∧ t.fine = s.fine) ∨ ∃ dt, 1 ≤ dt ∧ dt ≤ 400 ∧ 1000 * t.time + t.fine = (1000 * s.time + s.fine + dt) % (1000 * 2 ^ 64)

theorem endsStep_reset {s u : State} (hc : u.cur = none) (hs : u.steps = s.steps + 1) (hr : u.mgmt.boot = .reset) :
    EndsStep s { u with time := 0, fine := 0 } := by
  refine ⟨hc, hs, ?_⟩
  rw [if_pos (by exact hr)]
  exact ⟨rfl, rfl⟩

theorem endsStep_standing {s u : State} (hc : u.cur = none) (hs : u.steps = s.steps + 1) (ht : u.time = s.time) (hf : u.fine = s.fine)
    (hr : u.mgmt.boot ≠ .reset) : EndsStep s u := by
  refine ⟨hc, hs, ?_⟩
  rw [if_neg hr]
  exact .inl ⟨ht, hf⟩

theorem endsStep_passing {s u : State} (hc : u.cur = none) (hs : u.steps = s.steps + 1) (ht : u.time = s.time) (hf : u.fine = s.fine)
    (hr : u.mgmt.boot ≠ .reset) : EndsStep s (passTime u (passing u)) := by
  have hm := passTime_stepMark u (passing u)
  simp only [stepMark, Prod.mk.injEq] at hm
  obtain ⟨hcur, hsteps, hmgmt⟩ := hm
  refine ⟨hcur.trans hc, hsteps.trans hs, ?_⟩
  rw [hmgmt, if_neg hr, passTime_time, ht, hf]
  exact .inr ⟨_, (passing_range u).1, (passing_range u).2, rfl⟩

theorem finish_endsStep (s v : State) : EndsStep s (finish s v) := by
  unfold finish
  generalize serveDump (settle v) = w
  dsimp only
  split
  · exact endsStep_reset (u := { w with cur := none, readsFmt := false, steps := s.steps + 1, time := s.time, fine := s.fine }) rfl rfl ‹_›
  · split
    · exact endsStep_standing rfl rfl rfl rfl ‹_›
    · exact endsStep_passing rfl rfl rfl rfl ‹_›

/-- Settles O60: a step is what was chosen, run where `Choice.take` puts it and concluded by `finish`. -/
theorem stepRunsTheDecodedInstruction : Obligations.StepRunsTheDecodedInstruction := by
  refine ⟨?frag, ?event, ?input, ?fetch, fun s hc => step_of_idle hc, ?ends⟩
  case frag =>
    intro s gi fi w0 w1 x hc ha g pc h0 h1 hx
    refine step_frag hc ⟨ha, h0, ?_⟩ hx
    exact second_of_needsSecond h1
  case event => exact fun s x hc => step_of_chosen hc
  case input =>
    intro s x rest hc hi
    have take : Choice.input.take s = ({ s with inputs := rest }, inputInstr x) := by
      unfold Choice.take
      rw [hi]
    rw [step_of_chosen hc, take]
    rfl
  case fetch =>
    intro s gi fi hc
    obtain ⟨t, ht, hf⟩ := step_fetch hc
    exact ⟨t, ht, hf.eq⟩
  case ends =>
    intro s t h
    obtain ⟨v, hv⟩ := step_next_finish h
    rw [hv]
    exact finish_endsStep s v

end Sys2Proof.Machine
end

section
/-! PROOFS. Calls, returns and indirect jumps: where a control transfer leads and what it leaves. -/

namespace Sys2Proof.Machine

open Sys2Proof

/-! ### An instruction that names fewer operands -/

/-- What can issue with registers to write can issue without them: `call` and `callr` check the pair of the next window by themselves. -/
theorem CanIssue.without_writes {s : State} {g : Bool} {rs ws ps ds : List Nat} {i : Iss} (h : CanIssue s g rs ws ps i ds) :
    CanIssue s g rs [] ps i ds where
  toIssuing := h.toIssuing
  held r hr := h.held r (List.mem_append_left ws (List.append_nil rs ▸ hr))
  free l hl r hr := h.free l hl r (by
    simp only [List.map_append, List.append_nil, List.mem_append] at hr ⊢
    exact hr.imp_left (Or.imp_left .inl))
  clean := h.clean
  cleanGuard := h.cleanGuard
  cleanPred := h.cleanPred
  sound := h.sound

/-! ### Changes of the fragment beside other writes -/

theorem State.modF_modF (s : State) (gi fi : Nat) (u v : Frag → Frag) : (s.modF gi fi u).modF gi fi v = s.modF gi fi fun f => v (u f) := by
  unfold State.modF
  simp only [State.modG_modG, modAt_modAt]

theorem State.modF_putPair (s : State) (i : Iss) (u : Frag → Frag) (d : Nat) (f : Nat → Word64) :
    (s.modF i.gi i.fi u).putPair i d f = (s.putPair i d f).modF i.gi i.fi u := by
  unfold State.putPair
  rw [State.modF_putReg, State.modF_putReg]

theorem State.putPair_eq_modG (s : State) (i : Iss) (d : Nat) (f : Nat → Word64) :
    s.putPair i d f = s.modG i.gi fun g =>
      (g.setReg (i.phys d) i.lanes fun l => lo32 (f l)).setReg (i.phys (d + 1)) i.lanes fun l => hi32 (f l) :=
  State.modG_modG ..

/-- A pair and fields of the issuing fragment are written, and it goes to a PC. -/
theorem putPair_modF_went {s : State} {g : Bool} {i : Iss} (h : Issuing s g i) (d : Nat) (f : Nat → Word64) (u : Frag → Frag) (pc : BitVec 52)
    (br : Option BranchInfo) :
    Went s (((s.putPair i d f).modF i.gi i.fi u).advanceTo i pc false br) i (u i.f) pc (i.after d fun l => pairWords (f l)) i.preds := by
  rw [State.putPair_eq_modG]
  refine (went_advance h (.comp (.setReg _ _ _) (.setReg _ _ _)) (by simp [Iss.N]) u pc false br).congr (fun p l hp hl => ?_) fun _ _ _ _ => rfl
  exact setReg_after_snoc i d (fun l => [lo32 (f l)]) 1 (fun _ => rfl) _ _ (by simp [Iss.N]) (fun p l hp hl => setReg_after i d _ p l hp hl) p l hp hl

/-! ### A group that is not traced writes no packet (R372, R374) -/

theorem State.flushCond_of_held_nil {s : State} {gi fi : Nat} (h : ((s.group gi).frag fi).held = []) : s.flushCond gi fi = s := by
  simp [State.flushCond, h]

theorem State.traceFrag_of_untraced {s : State} {gi fi : Nat} (ht : (s.group gi).traced = false) (hh : ((s.group gi).frag fi).held = []) (ty : Nat)
    (bs : List Byte) : s.traceFrag gi fi ty bs = s := by
  simp [State.traceFrag, State.flushCond_of_held_nil hh, State.trace, ht]

/-- The issuing fragment's packets, in its own state. -/
theorem Issuing.traceFrag {s : State} {g : Bool} {i : Iss} (h : Issuing s g i) (ht : i.g.traced = false) (hh : i.f.held = []) (ty : Nat) (bs : List Byte) :
    s.traceFrag i.gi i.fi ty bs = s := by
  obtain ⟨hg, hf, -⟩ := h.eq
  exact State.traceFrag_of_untraced (hg ▸ ht) (hg ▸ hf ▸ hh) ty bs

/-- The same behind a change of the window base. -/
theorem Issuing.setWb_traceFrag {s : State} {g : Bool} {i : Iss} (h : Issuing s g i) (ht : i.g.traced = false) (hh : i.f.held = []) (wb ty : Nat)
    (bs : List Byte) : (s.setWb i wb).traceFrag i.gi i.fi ty bs = s.setWb i wb := by
  obtain ⟨hg, hf, -⟩ := h.eq
  have hgr : (s.setWb i wb).group i.gi = { i.g with frags := modAt i.g.frags i.fi fun f => { f with wb := wb, map := none } } := by
    rw [hg]
    exact State.modG_self _ _ _ h.gi
  refine State.traceFrag_of_untraced (by rw [hgr]; exact ht) ?_ ty bs
  rw [hgr, Group.frag, getElem?_modAt, if_pos rfl, List.getElem?_eq_getElem h.fi]
  rw [hf, Group.frag, List.getElem?_eq_getElem h.fi] at hh
  exact hh

/-! ### Targets (R62) -/

/-- A target in the address space, a whole number of words from an aligned PC, is one that a branch accepts. -/
theorem inSpace_pcOff {i : Iss} {o : Int} (ha : i.f.pc.toNat % 4 = 0) (h0 : 0 ≤ (i.f.pc.toNat : Int) + 4 * o)
    (h1 : (i.f.pc.toNat : Int) + 4 * o < 2 ^ 52) : inSpace (pcOff i o) = true := by
  have h2 : (i.f.pc.toNat : Int) + 4 * o ≤ 2 ^ 52 - 4 := by omega
  exact Bool.and_eq_true_iff.2 ⟨decide_eq_true h0, decide_eq_true h2⟩

theorem badTarget_eq_none {t : Word64} (ha : t.toNat % 4 = 0) (h : t.toNat < 2 ^ 52) : badTarget t = none :=
  (if_neg fun hne => hne ha).trans (if_neg (Nat.not_le.2 h))

/-! ### Control transfers (R79, R103, R106) -/

/-- A transfer ends the liveness map and changes nothing but the PC. -/
theorem goTo_went {s : State} {g : Bool} {i : Iss} (h : Issuing s g i) (pc : BitVec 52) (br : Option BranchInfo) :
    Went s (goTo s i pc br) i { i.f with map := none } pc i.g.lane i.preds := by
  have e := went_advance h .id rfl (fun f => { f with map := none }) pc false br
  rw [State.modG_id] at e
  exact e

/-- A transfer that moves the window. -/
theorem setWb_goTo_went {s : State} {g : Bool} {i : Iss} (h : Issuing s g i) (wb : Nat) (pc : BitVec 52) (br : Option BranchInfo) :
    Went s (goTo (s.setWb i wb) i pc br) i { i.f with wb := wb, map := none } pc i.g.lane i.preds := by
  have e := went_advance h .id rfl (fun f => { f with wb := wb, map := none }) pc false br
  rw [State.modG_id] at e
  unfold goTo State.setWb
  rw [State.modF_modF]
  exact e

/-- Register 30 of the window above is register 62 of the fragment's own. -/
theorem callTo_eq (s : State) (i : Iss) (pc : BitVec 52) :
    callTo s i pc = goTo ((s.setWb i (i.f.wb + 32)).putPair i 62 fun _ => (i.f.pc + 4).setWidth 64) i pc (some ⟨pc, true, false⟩) := rfl

/-- A call moves the window up by 32 and leaves the return address in v30:v31 of the new window. -/
theorem callTo_went {s : State} {g : Bool} {i : Iss} (h : Issuing s g i) (pc : BitVec 52) :
    Went s (callTo s i pc) i { i.f with wb := i.f.wb + 32, map := none } pc (i.after 62 fun _ => pairWords ((i.f.pc + 4).setWidth 64)) i.preds := by
  rw [callTo_eq]
  unfold goTo State.setWb
  rw [State.modF_putPair, State.modF_modF]
  exact putPair_modF_went h 62 _ (fun f => { f with wb := i.f.wb + 32, map := none }) pc _

/-- Nothing is owed to the pair that a call writes when it can issue (R49). -/
theorem callWaits_eq_false {s : State} {g : Bool} {rs ps : List Nat} {i : Iss} (h : CanIssue s g rs [62, 63] ps i) : callWaits i = false := by
  rw [callWaits, List.any_eq_false]
  intro l hl
  have free (r : Nat) (hr : r ∈ [62, 63]) : i.g.owes (i.phys r) l = false :=
    h.free l hl _ (by simp only [List.map_append, List.mem_append]; exact .inl (.inl (.inr (List.mem_map_of_mem hr))))
  have h62 : i.g.owes (i.f.wb + 62) l = false := free 62 (by decide)
  have h63 : i.g.owes (i.f.wb + 63) l = false := free 63 (by decide)
  simp [h62, h63]

theorem hasWindow_eq_true {i : Iss} (h : i.f.wb + 64 ≤ i.N) : i.hasWindow = true := decide_eq_true h

theorem exec_call {o : BitVec 21} {s : State} {i : Iss} (h : CanIssue s false [] [62, 63] [] i) (hw : i.f.wb + 64 ≤ i.N)
    (ht : inSpace (pcOff i o.toInt) = true) : exec (.call o) s = .next (callTo s i (BitVec.ofInt 52 (pcOff i o.toInt))) := by
  refine (withOperands_next h.without_writes _).trans (congrArg _ ?_)
  simp only [ht, hasWindow_eq_true hw, callWaits_eq_false h, Bool.not_true, Bool.false_eq_true, if_false]

theorem exec_callr {a : BitVec 6} {s : State} {i : Iss} (h : CanIssue s false (pairOf a) [62, 63] [] i) (htr : i.g.traced = false) (hh : i.f.held = [])
    (hw : i.f.wb + 64 ≤ i.N) (ht : badTarget (i.pair (pairFld a).toNat i.lo) = none) :
    exec (.callr a) s = .next (callTo s i ((i.pair (pairFld a).toNat i.lo).setWidth 52)) := by
  refine (withOperands_next h.without_writes _).trans (congrArg _ ?_)
  simp only [ht, hasWindow_eq_true hw, callWaits_eq_false h, h.toIssuing.traceFrag htr hh, Bool.not_true, Bool.false_eq_true, if_false]

theorem exec_jmpr {a : BitVec 6} {s : State} {i : Iss} (h : CanIssue s false (pairOf a) [] [] i) (htr : i.g.traced = false) (hh : i.f.held = [])
    (ht : badTarget (i.pair (pairFld a).toNat i.lo) = none) :
    let pc := (i.pair (pairFld a).toNat i.lo).setWidth 52
    exec (.jmpr a) s = .next (goTo s i pc (some ⟨pc, true, false⟩)) := by
  refine (withOperands_next h _).trans (congrArg _ ?_)
  simp only [ht, h.toIssuing.traceFrag htr hh]

theorem exec_ret {s : State} {i : Iss} (h : CanIssue s false [30, 31] [] [] i) (htr : i.g.traced = false) (hh : i.f.held = []) (hw : 32 ≤ i.f.wb)
    (ht : badTarget (i.pair 30 i.lo) = none) :
    let pc := (i.pair 30 i.lo).setWidth 52
    exec .ret s = .next (goTo (s.setWb i (i.f.wb - 32)) i pc (some ⟨pc, true, false⟩)) := by
  refine (withOperands_next h _).trans (congrArg _ ?_)
  simp only [ht, h.toIssuing.setWb_traceFrag htr hh, Nat.not_lt.2 hw, if_false]

/-- Settles O18: each instruction runs its transfer, and the transfer's lemma says what it leaves. -/
theorem callsAndReturns : Obligations.CallsAndReturns := by
  refine ⟨?call, ?callr, ?jmpr, ?ret⟩
  case call =>
    intro o s i h _ hw ha h0 h1
    exact ⟨_, exec_call h hw (inSpace_pcOff ha h0 h1), callTo_went h.toIssuing _⟩
  case callr =>
    intro a s i h htr hh hw ha h1
    exact ⟨_, exec_callr h htr hh hw (badTarget_eq_none ha h1), callTo_went h.toIssuing _⟩
  case jmpr =>
    intro a s i h htr hh ha h1
    exact ⟨_, exec_jmpr h htr hh (badTarget_eq_none ha h1), goTo_went h.toIssuing _ _⟩
  case ret =>
    intro s i h htr hh hw ha h1
    exact ⟨_, exec_ret h htr hh hw (badTarget_eq_none ha h1), setWb_goTo_went h.toIssuing _ _ _⟩

end Sys2Proof.Machine
end

section
/-! PROOFS. The immediate forms of IALUI: the operand b is the sign-extended field, and the result is that of Table 6-1. -/

namespace Sys2Proof.Machine

open Sys2Proof

/-! ### Saturation (Table 6-1) -/

/-- A signed result that saturates is clamped to what a signed word holds. -/
theorem satI_eq_clampInt (x : Int) : satI x = BitVec.ofInt 32 (clampInt (-(2 ^ 31)) (2 ^ 31 - 1) x) := by
  have low : (-2147483648 : Int) = -(2 ^ 31) := by decide
  have high : (2147483647 : Int) = 2 ^ 31 - 1 := by decide
  rw [satI, low, high]

/-- An unsigned result that saturates is clamped to what an unsigned word holds; a difference below 0 is negative before it is clamped. -/
theorem satZ_eq_clampInt (x : Int) : satZ x = BitVec.ofInt 32 (clampInt 0 (2 ^ 32 - 1) x) := by
  have high : (4294967295 : Int) = 2 ^ 32 - 1 := by decide
  rw [satZ, high]

/-! ### The form of IALUI (R85, R128) -/

/-- The result of an immediate form may be said in other words. -/
theorem LaneImm.congr {ext : BitVec 7 → Word} {mk : Bool → Fld → Fld → BitVec 7 → Instr} {f f' : Word → Word → Word} (h : LaneImm ext mk f)
    (hf : ∀ x y, f x y = f' x y) : LaneImm ext mk f' := by
  obtain rfl : f = f' := funext fun x => funext fun y => hf x y
  exact h

/-- Settles O2: each instruction is `laneOpI` (for `sad.z`, which reads d, `laneOp3I`) of the sign-extended field and its row's function; the saturating rows
clamp to the bounds of the table. -/
theorem integerImmediateResults : Obligations.IntegerImmediateResults := by
  refine ⟨?add, ?sub, ?minI, ?maxI, ?minZ, ?maxZ, ?addsI, ?subsI, ?addsZ, ?subsZ, ?avgZ, ?sadZ⟩
  case add => exact laneImm fun _ _ _ _ _ => rfl
  case sub => exact laneImm fun _ _ _ _ _ => rfl
  case minI => exact laneImm (f := minI) fun _ _ _ _ _ => rfl
  case maxI => exact laneImm (f := maxI) fun _ _ _ _ _ => rfl
  case minZ => exact laneImm (f := minZ) fun _ _ _ _ _ => rfl
  case maxZ => exact laneImm (f := maxZ) fun _ _ _ _ _ => rfl
  case addsI => exact (laneImm (f := addsI) fun _ _ _ _ _ => rfl).congr fun _ _ => satI_eq_clampInt _
  case subsI => exact (laneImm (f := subsI) fun _ _ _ _ _ => rfl).congr fun _ _ => satI_eq_clampInt _
  case addsZ => exact (laneImm (f := addsZ) fun _ _ _ _ _ => rfl).congr fun _ _ => satZ_eq_clampInt _
  case subsZ => exact (laneImm (f := subsZ) fun _ _ _ _ _ => rfl).congr fun _ _ => satZ_eq_clampInt _
  case avgZ => exact laneImm (f := avgZ) fun _ _ _ _ _ => rfl
  case sadZ => exact laneImm3 (f := sadZ) fun _ _ _ _ _ => rfl

end Sys2Proof.Machine
end

section
/-! PROOFS. The integer instructions of Tables 6-1 to 6-7: a result in other words, the carry chain, and the shifts, which the model computes without their
two cases. -/

namespace Sys2Proof.Machine

open Sys2Proof

/-! ### Results in other words -/

section
variable {x : Instr} {g : Bool} {reads preds : List Nat} {d n size : Nat} {ws ws' : Iss → Nat → List Word} {f f' : Iss → Nat → Bool}

theorem PutsRegs.congr (h : PutsRegs x g reads d n preds size ws) (e : ∀ i l, ws i l = ws' i l) : PutsRegs x g reads d n preds size ws' := by
  obtain rfl : ws = ws' := funext fun i => funext (e i)
  exact h

theorem PutsPred.congr (h : PutsPred x g reads d preds f) (e : ∀ i l, f i l = f' i l) : PutsPred x g reads d preds f' := by
  obtain rfl : f = f' := funext fun i => funext (e i)
  exact h

end

theorem Lane2.congr {mk : Bool → Fld → Fld → Fld → Instr} {f f' : Word → Word → Word} (h : Lane2 mk f) (e : ∀ x y, f x y = f' x y) : Lane2 mk f' :=
  fun g d a b => (h g d a b).congr fun _ _ => congrArg (fun w => [w]) (e _ _)

theorem PairReg.congr {mk : Bool → BitVec 6 → BitVec 6 → Fld → Instr} {f f' : Word64 → Word → Word64} (h : PairReg mk f) (e : ∀ x y, f x y = f' x y) :
    PairReg mk f' :=
  fun g d a b => (h g d a b).congr fun _ _ => congrArg pairWords (e _ _)

/-! ### IALU and IMUL (Tables 6-1 and 6-2) -/

/-- Settles O1: each instruction is the lane-wise operation of its form with its row's function; the saturating rows clamp to the bounds of the table. -/
theorem integerRegisterResults : Obligations.IntegerRegisterResults := by
  refine ⟨?add, ?sub, ?minI, ?maxI, ?minZ, ?maxZ, ?abs, ?neg, ?addsI, ?subsI, ?addsZ, ?subsZ, ?avgZ, ?sadZ, ?mul, ?mulhI, ?mulhZ, ?mad, ?mulwI, ?mulwZ, ?madwI,
    ?madwZ, ?divI, ?divZ, ?remI, ?remZ, ?dp4I8, ?dp4Z8⟩
  case add => exact lane2 fun _ _ _ _ _ => rfl
  case sub => exact lane2 fun _ _ _ _ _ => rfl
  case minI => exact lane2 (f := minI) fun _ _ _ _ _ => rfl
  case maxI => exact lane2 (f := maxI) fun _ _ _ _ _ => rfl
  case minZ => exact lane2 (f := minZ) fun _ _ _ _ _ => rfl
  case maxZ => exact lane2 (f := maxZ) fun _ _ _ _ _ => rfl
  case abs => exact lane1 (f := absI) fun _ _ _ _ => rfl
  case neg => exact lane1 fun _ _ _ _ => rfl
  case addsI => exact (lane2 (f := addsI) fun _ _ _ _ _ => rfl).congr fun _ _ => satI_eq_clampInt _
  case subsI => exact (lane2 (f := subsI) fun _ _ _ _ _ => rfl).congr fun _ _ => satI_eq_clampInt _
  case addsZ => exact (lane2 (f := addsZ) fun _ _ _ _ _ => rfl).congr fun _ _ => satZ_eq_clampInt _
  case subsZ => exact (lane2 (f := subsZ) fun _ _ _ _ _ => rfl).congr fun _ _ => satZ_eq_clampInt _
  case avgZ => exact lane2 (f := avgZ) fun _ _ _ _ _ => rfl
  case sadZ => exact lane3 (f := sadZ) fun _ _ _ _ _ => rfl
  case mul => exact lane2 fun _ _ _ _ _ => rfl
  case mulhI => exact lane2 (f := mulhI) fun _ _ _ _ _ => rfl
  case mulhZ => exact lane2 (f := mulhZ) fun _ _ _ _ _ => rfl
  case mad => exact lane3 fun _ _ _ _ _ => rfl
  case mulwI => exact wide2 (f := mulwI) fun _ _ _ _ _ => rfl
  case mulwZ => exact wide2 (f := mulwZ) fun _ _ _ _ _ => rfl
  case madwI => exact wide3 (f := mulwI) fun _ _ _ _ _ => rfl
  case madwZ => exact wide3 (f := mulwZ) fun _ _ _ _ _ => rfl
  case divI => exact lane2 (f := divI) fun _ _ _ _ _ => rfl
  case divZ => exact lane2 (f := divZ) fun _ _ _ _ _ => rfl
  case remI => exact lane2 (f := remI) fun _ _ _ _ _ => rfl
  case remZ => exact lane2 (f := remZ) fun _ _ _ _ _ => rfl
  case dp4I8 => exact lane3 fun _ _ _ _ _ => rfl
  case dp4Z8 => exact lane3 fun _ _ _ _ _ => rfl

/-! ### The carry chain (R128) -/

theorem carryNat_eq_toNat (c : Bool) : carryNat c = c.toNat := by cases c <;> rfl

section
variable {x : Instr} {g : Bool} {d : Fld} {reads : List Nat} {a b : Iss → Nat → Word}

/-- An instruction of the carry chain reads p6, and puts its result into d and its carry or borrow into p6. -/
theorem carryOp_puts {f : Word → Word → Bool → Word × Bool} (hx : ∀ s, exec x s = carryOp s g d reads b a f) :
    PutsBoth x g reads d.toNat 1 6 [6] (fun i l => [(f (a i l) (b i l) (i.preds 6 l)).1]) fun i l => (f (a i l) (b i l) (i.preds 6 l)).2 :=
  both_puts hx

theorem addCarry_puts (hx : ∀ s, exec x s = carryOp s g d reads b a addCarry) :
    PutsBoth x g reads d.toNat 1 6 [6] (fun i l => [BitVec.ofNat 32 ((a i l).toNat + (b i l).toNat + (i.preds 6 l).toNat)])
      fun i l => decide (2 ^ 32 ≤ (a i l).toNat + (b i l).toNat + (i.preds 6 l).toNat) := by
  simpa only [addCarry, carryNat_eq_toNat] using carryOp_puts hx

theorem subBorrow_puts (hx : ∀ s, exec x s = carryOp s g d reads b a subBorrow) :
    PutsBoth x g reads d.toNat 1 6 [6] (fun i l => [a i l - b i l - BitVec.ofNat 32 (i.preds 6 l).toNat])
      fun i l => decide ((a i l).toNat < (b i l).toNat + (i.preds 6 l).toNat) := by
  simpa only [subBorrow, carryNat_eq_toNat] using carryOp_puts hx

end

/-- Settles O3: each form is `carryOp` with its operands and the sum or the difference of Table 6-1. -/
theorem carryChainResults : Obligations.CarryChainResults := by
  refine ⟨?addc, ?addcImm, ?subb, ?subbImm⟩
  case addc => exact fun _ _ _ _ => addCarry_puts fun _ => rfl
  case addcImm => exact fun _ _ _ n => addCarry_puts (b := fun _ _ => sext7 n) fun _ => rfl
  case subb => exact fun _ _ _ _ => subBorrow_puts fun _ => rfl
  case subbImm => exact fun _ _ _ n => subBorrow_puts (b := fun _ _ => sext7 n) fun _ => rfl

/-! ### LOGIC and SHIFT (Tables 6-3 and 6-4) -/

/-- A shift by the width or more shifts everything out (Table 6-4). -/
theorem shiftLeft_eq_ite {w : Nat} (x : BitVec w) (k : Nat) : x <<< k = if k < w then x <<< k else 0 := by
  split
  · rfl
  · next h => exact BitVec.shiftLeft_eq_zero (Nat.le_of_not_lt h)

theorem ushiftRight_eq_ite {w : Nat} (x : BitVec w) (k : Nat) : x >>> k = if k < w then x >>> k else 0 := by
  split
  · rfl
  · next h => exact BitVec.ushiftRight_eq_zero (Nat.le_of_not_lt h)

/-- An arithmetic shift divides, rounding down. -/
theorem sshiftRight_eq_ofInt_div {w : Nat} (x : BitVec w) (k : Nat) : x.sshiftRight k = BitVec.ofInt w (x.toInt / 2 ^ k) := by
  rw [BitVec.sshiftRight, Int.shiftRight_eq_div_pow, Int.natCast_pow]
  rfl

/-- Settles O4: each instruction is the lane-wise operation of its form with its row's function; a shift is said with its two cases. -/
theorem logicAndShiftResults : Obligations.LogicAndShiftResults := by
  refine ⟨?and, ?or, ?xor, ?andn, ?orn, ?not, ?popc, ?clz, ?ctz, ?brev, ?bsel, ?prmt, ?shl, ?shlImm, ?shrZ, ?shrZImm, ?shrI, ?shrIImm, ?rol, ?rolImm, ?ror, ?rorImm,
    ?shlf, ?shlfImm, ?shrf, ?shrfImm, ?bfxZ, ?bfxI, ?bfi⟩
  case and => exact lane2 fun _ _ _ _ _ => rfl
  case or => exact lane2 fun _ _ _ _ _ => rfl
  case xor => exact lane2 fun _ _ _ _ _ => rfl
  case andn => exact lane2 fun _ _ _ _ _ => rfl
  case orn => exact lane2 fun _ _ _ _ _ => rfl
  case not => exact lane1 fun _ _ _ _ => rfl
  case popc => exact lane1 fun _ _ _ _ => rfl
  case clz => exact lane1 fun _ _ _ _ => rfl
  case ctz => exact lane1 fun _ _ _ _ => rfl
  case brev => exact lane1 fun _ _ _ _ => rfl
  case bsel => exact lane3 (f := bsel) fun _ _ _ _ _ => rfl
  case prmt => exact lane3 fun _ _ _ _ _ => rfl
  case shl => exact (lane2 (f := shl) fun _ _ _ _ _ => rfl).congr fun _ _ => shiftLeft_eq_ite ..
  case shlImm => exact (laneImm (f := shl) fun _ _ _ _ _ => rfl).congr fun _ _ => shiftLeft_eq_ite ..
  case shrZ => exact (lane2 (f := shrZ) fun _ _ _ _ _ => rfl).congr fun _ _ => ushiftRight_eq_ite ..
  case shrZImm => exact (laneImm (f := shrZ) fun _ _ _ _ _ => rfl).congr fun _ _ => ushiftRight_eq_ite ..
  case shrI => exact (lane2 (f := shrI) fun _ _ _ _ _ => rfl).congr fun _ _ => sshiftRight_eq_ofInt_div ..
  case shrIImm => exact (laneImm (f := shrI) fun _ _ _ _ _ => rfl).congr fun _ _ => sshiftRight_eq_ofInt_div ..
  case rol => exact lane2 (f := rolW) fun _ _ _ _ _ => rfl
  case rolImm => exact laneImm (f := rolW) fun _ _ _ _ _ => rfl
  case ror => exact lane2 (f := rorW) fun _ _ _ _ _ => rfl
  case rorImm => exact laneImm (f := rorW) fun _ _ _ _ _ => rfl
  case shlf => exact lane3 fun _ _ _ _ _ => rfl
  case shlfImm => exact laneImm3 fun _ _ _ _ _ => rfl
  case shrf => exact lane3 fun _ _ _ _ _ => rfl
  case shrfImm => exact laneImm3 fun _ _ _ _ _ => rfl
  case bfxZ => exact lane2 fun _ _ _ _ _ => rfl
  case bfxI => exact lane2 fun _ _ _ _ _ => rfl
  case bfi => exact lane3 fun _ _ _ _ _ => rfl

/-! ### ICMP, I64, MOVI and LI (Tables 6-5 to 6-7) -/

theorem beq_eq_decide_eq {w : Nat} (x y : BitVec w) : (x == y) = decide (x = y) := rfl
theorem bne_eq_decide_ne {w : Nat} (x y : BitVec w) : (x != y) = decide (x ≠ y) := (decide_not (p := x = y)).symm

/-- Settles O5: each comparison combines its row's condition, of two registers, of a register and the sign-extended field, or of two pairs. -/
theorem integerComparisons : Obligations.IntegerComparisons := by
  refine ⟨?eq, ?eqImm, ?ne, ?neImm, ?ltI, ?ltIImm, ?leI, ?leIImm, ?gtI, ?gtIImm, ?geI, ?geIImm, ?ltZ, ?ltZImm, ?leZ, ?leZImm, ?gtZ, ?gtZImm, ?geZ, ?geZImm, ?tst,
    ?tstImm, ?tstn, ?tstnImm, ?eq64, ?ltI64, ?ltZ64⟩
  case eq => exact cmp2 (f' := condEq) (fun _ _ _ _ _ _ => rfl) beq_eq_decide_eq
  case eqImm => exact cmpImm (f' := condEq) (fun _ _ _ _ _ _ => rfl) beq_eq_decide_eq
  case ne => exact cmp2 (f' := condNe) (fun _ _ _ _ _ _ => rfl) bne_eq_decide_ne
  case neImm => exact cmpImm (f' := condNe) (fun _ _ _ _ _ _ => rfl) bne_eq_decide_ne
  case ltI => exact cmp2 (f' := condLtI) (fun _ _ _ _ _ _ => rfl) fun _ _ => rfl
  case ltIImm => exact cmpImm (f' := condLtI) (fun _ _ _ _ _ _ => rfl) fun _ _ => rfl
  case leI => exact cmp2 (f' := condLeI) (fun _ _ _ _ _ _ => rfl) fun _ _ => rfl
  case leIImm => exact cmpImm (f' := condLeI) (fun _ _ _ _ _ _ => rfl) fun _ _ => rfl
  case gtI => exact cmp2 (f' := condGtI) (fun _ _ _ _ _ _ => rfl) fun _ _ => rfl
  case gtIImm => exact cmpImm (f' := condGtI) (fun _ _ _ _ _ _ => rfl) fun _ _ => rfl
  case geI => exact cmp2 (f' := condGeI) (fun _ _ _ _ _ _ => rfl) fun _ _ => rfl
  case geIImm => exact cmpImm (f' := condGeI) (fun _ _ _ _ _ _ => rfl) fun _ _ => rfl
  case ltZ => exact cmp2 (f' := condLtZ) (fun _ _ _ _ _ _ => rfl) fun _ _ => rfl
  case ltZImm => exact cmpImm (f' := condLtZ) (fun _ _ _ _ _ _ => rfl) fun _ _ => rfl
  case leZ => exact cmp2 (f' := condLeZ) (fun _ _ _ _ _ _ => rfl) fun _ _ => rfl
  case leZImm => exact cmpImm (f' := condLeZ) (fun _ _ _ _ _ _ => rfl) fun _ _ => rfl
  case gtZ => exact cmp2 (f' := condGtZ) (fun _ _ _ _ _ _ => rfl) fun _ _ => rfl
  case gtZImm => exact cmpImm (f' := condGtZ) (fun _ _ _ _ _ _ => rfl) fun _ _ => rfl
  case geZ => exact cmp2 (f' := condGeZ) (fun _ _ _ _ _ _ => rfl) fun _ _ => rfl
  case geZImm => exact cmpImm (f' := condGeZ) (fun _ _ _ _ _ _ => rfl) fun _ _ => rfl
  case tst => exact cmp2 (f' := condTst) (fun _ _ _ _ _ _ => rfl) fun _ _ => bne_eq_decide_ne _ _
  case tstImm => exact cmpImm (f' := condTst) (fun _ _ _ _ _ _ => rfl) fun _ _ => bne_eq_decide_ne _ _
  case tstn => exact cmp2 (f' := condTstn) (fun _ _ _ _ _ _ => rfl) fun _ _ => beq_eq_decide_eq _ _
  case tstnImm => exact cmpImm (f' := condTstn) (fun _ _ _ _ _ _ => rfl) fun _ _ => beq_eq_decide_eq _ _
  case eq64 => exact cmpPairs (f' := fun x y => x == y) (fun _ _ _ _ _ _ => rfl) beq_eq_decide_eq
  case ltI64 => exact cmpPairs (f' := fun x y => decide (x.toInt < y.toInt)) (fun _ _ _ _ _ _ => rfl) fun _ _ => rfl
  case ltZ64 => exact cmpPairs (f' := fun x y => decide (x.toNat < y.toNat)) (fun _ _ _ _ _ _ => rfl) fun _ _ => rfl

/-- Settles O6: each instruction is the pair or the constant operation with its row's function; a shift is said with its two cases. -/
theorem pairAndConstantResults : Obligations.PairAndConstantResults := by
  refine ⟨?add64, ?sub64, ?mul64, ?shl64, ?shrZ64, ?shrI64, ?minI64, ?maxI64, ?minZ64, ?maxZ64, ?movi, ?movhi, ?addi, ?li, ?addi32, ?andi32, ?ori32, ?xori32⟩
  case add64 => exact pair2 fun _ _ _ _ _ => rfl
  case sub64 => exact pair2 fun _ _ _ _ _ => rfl
  case mul64 => exact pair2 fun _ _ _ _ _ => rfl
  case shl64 => exact (pairReg (f := shl64) fun _ _ _ _ _ => rfl).congr fun _ _ => shiftLeft_eq_ite ..
  case shrZ64 => exact (pairReg (f := shrZ64) fun _ _ _ _ _ => rfl).congr fun _ _ => ushiftRight_eq_ite ..
  case shrI64 => exact (pairReg (f := shrI64) fun _ _ _ _ _ => rfl).congr fun _ _ => sshiftRight_eq_ofInt_div ..
  case minI64 => exact pair2 (f := minI64) fun _ _ _ _ _ => rfl
  case maxI64 => exact pair2 (f := maxI64) fun _ _ _ _ _ => rfl
  case minZ64 => exact pair2 (f := minZ64) fun _ _ _ _ _ => rfl
  case maxZ64 => exact pair2 (f := maxZ64) fun _ _ _ _ _ => rfl
  case movi => exact fun _ _ _ => laneOp_puts fun _ => rfl
  case movhi => exact fun _ _ _ => laneOp_puts fun _ => rfl
  case addi => exact fun _ _ _ => laneOp_puts fun _ => rfl
  case li => exact fun _ _ _ _ => laneOp_puts fun _ => rfl
  case addi32 => exact laneConst fun _ _ _ _ _ _ => rfl
  case andi32 => exact laneConst fun _ _ _ _ _ _ => rfl
  case ori32 => exact laneConst fun _ _ _ _ _ _ => rfl
  case xori32 => exact laneConst fun _ _ _ _ _ _ => rfl

end Sys2Proof.Machine
end

section
/-! PROOFS. Lane moves and reductions, predicate logic, addresses and conflict classes: what is computed over the active lanes. -/

namespace Sys2Proof.Machine

open Sys2Proof

/-! ### Moves and reductions (Table 6-8) -/

/-- A value is read from an active source lane, else the lane's own (R135). -/
theorem laneFrom_eq_ite (i : Iss) (a l : Nat) (src : Int) :
    laneFrom i a l src = if 0 ≤ src ∧ src < 16 ∧ i.lanes.has src.toNat = true then i.reg a src.toNat else i.reg a l := by
  simp only [laneFrom, Bool.and_eq_true, decide_eq_true_eq, and_assoc]

/-- Addition may begin at 0. -/
theorem foldWords_add (xs : List Word) : foldWords (fun x y => x + y) xs = xs.foldl (fun x y => x + y) 0 := by
  cases xs with
  | nil => rfl
  | cons x xs => exact congrArg (fun y => xs.foldl (fun x y => x + y) y) (BitVec.zero_add x).symm

theorem shuffle_puts {x : Instr} {g : Bool} {d a b : Fld} {src : Word → Nat → Int} (hx : ∀ s, exec x s = shuffle s g d a b src) :
    PutsRegs x g [a.toNat, b.toNat] d.toNat 1 [] 4 fun i l => [
      if 0 ≤ src (i.reg b.toNat l) l ∧ src (i.reg b.toNat l) l < 16 ∧ i.lanes.has (src (i.reg b.toNat l) l).toNat = true
      then i.reg a.toNat (src (i.reg b.toNat l) l).toNat else i.reg a.toNat l] := by
  simpa only [laneFrom_eq_ite] using laneOp_puts hx

theorem laneReduce_puts {x : Instr} {g : Bool} {d a : Fld} {f : Iss → List Word → Word} (hx : ∀ s, exec x s = laneReduce s g d a f) :
    PutsRegs x g [a.toNat] d.toNat 1 [] 4 fun i _ => [f i (i.lanes.lanes.map (i.reg a.toNat))] :=
  laneOp_puts hx

/-- Settles O7: shuffles and `bcast` by `laneFrom_eq_ite`, the sum by `foldWords_add`, the others by their form. -/
theorem laneMovesAndReductions : Obligations.LaneMovesAndReductions := by
  refine ⟨?mov, ?sel, ?idx, ?up, ?dn, ?xor, ?bcast, ?ballot, ?matchLanes, ?lscanAdd, ?lredAdd, ?lredMinI, ?lredMaxI, ?lredMinZ, ?lredMaxZ, ?lredAddF32⟩
  case mov => exact lane1 (f := id) fun _ _ _ _ => rfl
  case sel => exact fun _ _ _ _ => reg_puts fun _ => rfl
  case idx => exact fun _ _ _ _ => shuffle_puts (src := fun x _ => (x.toNat % 16 : Nat)) fun _ => rfl
  case up => exact fun _ _ _ _ => shuffle_puts (src := fun x l => (l : Int) - (x.toNat % 32 : Nat)) fun _ => rfl
  case dn => exact fun _ _ _ _ => shuffle_puts (src := fun x l => (l : Int) + (x.toNat % 32 : Nat)) fun _ => rfl
  case xor => exact fun _ _ _ _ => shuffle_puts (src := fun x l => (Nat.xor l (x.toNat % 16) : Nat)) fun _ => rfl
  case bcast => exact fun g d a b => (laneOp_puts (x := .bcast g d a b) fun _ => rfl).congr fun _ _ => congrArg (fun w => [w]) (laneFrom_eq_ite ..)
  case ballot => exact fun _ _ _ => reg_puts fun _ => rfl
  case matchLanes => exact fun _ _ _ => laneOp_puts fun _ => rfl
  case lscanAdd => exact fun _ _ _ => laneOp_puts fun _ => rfl
  case lredAdd => exact fun g d a => (laneReduce_puts (x := .lredAdd g d a) fun _ => rfl).congr fun _ _ => congrArg (fun w => [w]) (foldWords_add _)
  case lredMinI => exact fun _ _ _ => laneReduce_puts fun _ => rfl
  case lredMaxI => exact fun _ _ _ => laneReduce_puts fun _ => rfl
  case lredMinZ => exact fun _ _ _ => laneReduce_puts fun _ => rfl
  case lredMaxZ => exact fun _ _ _ => laneReduce_puts fun _ => rfl
  case lredAddF32 => exact fun _ _ _ => laneReduce_puts fun _ => rfl

/-! ### Predicate logic (Table 6-9) -/

theorem Mask.has_and (m n : Mask) (l : Nat) : (m &&& n).has l = (m.has l && n.has l) := BitVec.getLsbD_and
theorem Mask.has_not (m : Mask) (l : Nat) : (~~~m).has l = (decide (l < 16) && !m.has l) := BitVec.getLsbD_not

theorem Mask.eq_zero_iff (m : Mask) : m = 0 ↔ ∀ l, m.has l = false := by
  constructor
  · rintro rfl l
    exact BitVec.getLsbD_zero
  · exact fun h => Mask.ext fun l _ => (h l).trans BitVec.getLsbD_zero.symm

/-- Some lane of `m` is in `p` where the two masks meet. -/
theorem Mask.any_lanes (m p : Mask) : m.lanes.any p.has = (p &&& m != 0) := by
  rw [bne_eq_decide_ne, Bool.eq_iff_iff, decide_eq_true_eq, Ne, Mask.eq_zero_iff]
  simp only [List.any_eq_true, Mask.mem_lanes, Classical.not_forall, Bool.not_eq_false, Mask.has_and, Bool.and_eq_true]
  exact exists_congr fun l => and_comm

/-- Every lane of `m` is in `p` where `m` has no lane outside it. -/
theorem Mask.all_lanes (m p : Mask) : m.lanes.all p.has = (m &&& ~~~p == 0) := by
  rw [beq_eq_decide_eq, Bool.eq_iff_iff, decide_eq_true_eq, Mask.eq_zero_iff, List.all_eq_true]
  refine forall_congr' fun l => ?_
  rw [Mask.mem_lanes, Mask.has_and, Mask.has_not]
  cases hm : m.has l with
  | false => exact ⟨fun _ => rfl, fun _ h => nomatch h⟩
  | true => simp only [Mask.has_lt hm, decide_true, Bool.true_and, Bool.not_eq_false', forall_const]

theorem predOp2_puts {x : Instr} {g : Bool} {d a b : BitVec 3} {f : Bool → Bool → Bool} (hx : ∀ s, exec x s = predOp2 s g d a b f) :
    PutsPred x g [] d.toNat [a.toNat, b.toNat] fun i l => f (i.preds a.toNat l) (i.preds b.toNat l) :=
  lanePred_puts hx

theorem predOp1_puts {x : Instr} {g : Bool} {d a : BitVec 3} {f : Iss → Nat → Mask → Bool} (hx : ∀ s, exec x s = predOp1 s g d a f) :
    PutsPred x g [] d.toNat [a.toNat] fun i l => f i l (i.g.pred a.toNat) :=
  lanePred_puts hx

/-- Settles O8: each instruction is its operation on predicates; `pany` and `pall` by what the two masks say of the active lanes. -/
theorem predicateLogic : Obligations.PredicateLogic := by
  refine ⟨?pand, ?por, ?pxor, ?pnot, ?pmov, ?pany, ?pall, ?p2v, ?v2p⟩
  case pand => exact fun _ _ _ _ => predOp2_puts fun _ => rfl
  case por => exact fun _ _ _ _ => predOp2_puts fun _ => rfl
  case pxor => exact fun _ _ _ _ => predOp2_puts fun _ => rfl
  case pnot => exact fun _ _ _ => predOp1_puts (f := fun _ l p => !p.has l) fun _ => rfl
  case pmov => exact fun _ _ _ => predOp1_puts (f := fun _ l p => p.has l) fun _ => rfl
  case pany => exact fun g d a => (predOp1_puts (x := .pany g d a) (f := fun i _ p => p &&& i.lanes != 0) fun _ => rfl).congr fun _ _ => (Mask.any_lanes ..).symm
  case pall => exact fun g d a => (predOp1_puts (x := .pall g d a) (f := fun i _ p => i.lanes &&& ~~~p == 0) fun _ => rfl).congr fun _ _ => (Mask.all_lanes ..).symm
  case p2v => exact fun _ _ _ => reg_puts fun _ => rfl
  case v2p => exact fun g d a => (lanePred_puts (x := .v2p g d a) fun _ => rfl).congr fun _ _ => bne_eq_decide_ne _ _

/-! ### Addresses and conflict classes (R138, R259, R274, R275) -/

/-- The lanes of a lane's class that stand in `rel` to it, and whether there are none. -/
theorem conflict_puts {x : Instr} {g : Bool} {d a : Fld} {w : BitVec 1} {rel : Nat → Nat → Bool} (hx : ∀ s, exec x s = conflict s g d a w rel) :
    PutsBoth x g (keyRegs a w) d.toNat 1 0 [] (fun i l => [(classMask i (keyOf i a w) rel l).setWidth 32]) fun i l => decide (classMask i (keyOf i a w) rel l = 0) :=
  both_puts hx

/-- A leader's register takes its class combined in lane order, every other active lane keeps its own; p0 marks the leaders (R275). -/
theorem combineClasses_puts {mk : Bool → Fld → BitVec 6 → Instr} {f : Nat → Nat → Nat} (hx : ∀ s g d a, exec (mk g d a) s = combineClasses s g d a f)
    (g : Bool) (d : Fld) (a : BitVec 6) :
    PutsBoth (mk g d a) g (d.toNat :: pairOf a) d.toNat 1 0 []
      (fun i l => [if classMask i (i.pair (pairFld a).toNat) (fun m l => decide (m < l)) l = 0 then
          BitVec.ofNat 32 ((classMask i (i.pair (pairFld a).toNat) (fun m l => decide (l < m)) l).lanes.foldl (fun n m => f n (i.reg d.toNat m).toNat)
            (i.reg d.toNat l).toNat)
        else i.reg d.toNat l])
      fun i l => decide (classMask i (i.pair (pairFld a).toNat) (fun m l => decide (m < l)) l = 0) :=
  fun s i h => ⟨_, combine_puts hx g d a s i h, putBoth_wrote h.toIssuing ..⟩

/-- Settles O9: `lea` is a pair result, `rclk` and `vuniq` are register results, and conflicts and combinations go by the classes of the active lanes. -/
theorem addressAndConflictResults : Obligations.AddressAndConflictResults := by
  refine ⟨?lea, ?rclk, ?vconf, ?vconfl, ?vuniq, ?scombF32, ?scombI32, ?scombBf16x2⟩
  case lea => exact fun _ _ _ _ _ => lanePair_puts fun _ => rfl
  case rclk => exact fun _ _ => reg_puts fun _ => rfl
  case vconf => exact fun _ _ _ _ => conflict_puts fun _ => rfl
  case vconfl => exact fun _ _ _ _ => conflict_puts fun _ => rfl
  case vuniq => exact fun _ _ _ _ => reg_puts fun _ => rfl
  case scombF32 => exact combineClasses_puts (mk := .scombF32) (f := fun m v => atomApply .addF32 m v 0) fun _ _ _ _ => rfl
  case scombI32 => exact combineClasses_puts (mk := .scombI32) (f := fun m v => atomApply .add32 m v 0) fun _ _ _ _ => rfl
  case scombBf16x2 => exact combineClasses_puts (mk := .scombBf16x2) (f := fun m v => atomApply .addBf16x2 m v 0) fun _ _ _ _ => rfl

end Sys2Proof.Machine
end

section
/-! PROOFS. Floating point (chapter 7): the forms under FTZ put their function's encoding, comparisons go by flushed values, and a packed form puts both halves. -/

namespace Sys2Proof.Machine

open Sys2Proof

/-! ### The forms of F32, FSPEC, FCVT and FH2 (R144, R147, R153) -/

section
variable {x : Instr} {g : Bool} {d a b : Fld}

theorem fOp1_puts {f : Iss → Nat → Nat} (hx : ∀ s, exec x s = fOp1 s g d a f) :
    PutsRegs x g [a.toNat] d.toNat 1 [] 4 fun i l => [BitVec.ofNat 32 (f i (i.reg a.toNat l).toNat)] :=
  laneOp_puts hx

theorem fOp2_puts {f : Bool → Nat → Nat → Nat} (hx : ∀ s, exec x s = fOp2 s g d a b f) :
    PutsRegs x g [a.toNat, b.toNat] d.toNat 1 [] 4 fun i l => [BitVec.ofNat 32 (f i.ftz (i.reg a.toNat l).toNat (i.reg b.toNat l).toNat)] :=
  laneOp_puts hx

theorem fOp3_puts {f : Bool → Nat → Nat → Nat → Nat} (hx : ∀ s, exec x s = fOp3 s g d a b f) :
    PutsRegs x g [a.toNat, b.toNat, d.toNat] d.toNat 1 [] 4 fun i l =>
      [BitVec.ofNat 32 (f i.ftz (i.reg a.toNat l).toNat (i.reg b.toNat l).toNat (i.reg d.toNat l).toNat)] :=
  laneOp_puts hx

theorem hOp2_puts {f : Bool → Nat → Nat → Nat} (hx : ∀ s, exec x s = hOp2 s g d a b f) :
    PutsRegs x g [a.toNat, b.toNat] d.toNat 1 [] 4 fun i l => [halves (fun x y _ => f i.ftz x y) (i.reg a.toNat l) (i.reg b.toNat l) 0] :=
  laneOp_puts hx

theorem hOp3_puts {f : Bool → Nat → Nat → Nat → Nat} (hx : ∀ s, exec x s = hOp3 s g d a b f) :
    PutsRegs x g [a.toNat, b.toNat, d.toNat] d.toNat 1 [] 4 fun i l => [halves (f i.ftz) (i.reg a.toNat l) (i.reg b.toNat l) (i.reg d.toNat l)] :=
  laneOp_puts hx

end

/-- Settles O10: each instruction is its form under FTZ with its row's function; the sign operations are lane operations on bits. -/
theorem floatResults : Obligations.FloatResults := by
  refine ⟨?fadd, ?fsub, ?fmul, ?fma, ?fms, ?fnma, ?fmin, ?fmax, ?fminn, ?fmaxn, ?fabs, ?fneg, ?fcpsgn, ?frint, ?ffrac, ?fsat, ?fclass, ?rcp, ?rsqrt, ?sqrt, ?exp2,
    ?log2, ?sinpi, ?cospi, ?tanh, ?sigm, ?cvt⟩
  case fadd => exact fun _ _ _ _ => fOp2_puts (f := fp32.addOp) fun _ => rfl
  case fsub => exact fun _ _ _ _ => fOp2_puts fun _ => rfl
  case fmul => exact fun _ _ _ _ => fOp2_puts (f := fp32.mulOp) fun _ => rfl
  case fma => exact fun _ _ _ _ => fOp3_puts (f := fp32.fmaOp) fun _ => rfl
  case fms => exact fun _ _ _ _ => fOp3_puts fun _ => rfl
  case fnma => exact fun _ _ _ _ => fOp3_puts fun _ => rfl
  case fmin => exact fun _ _ _ _ => fOp2_puts fun _ => rfl
  case fmax => exact fun _ _ _ _ => fOp2_puts fun _ => rfl
  case fminn => exact fun _ _ _ _ => fOp2_puts fun _ => rfl
  case fmaxn => exact fun _ _ _ _ => fOp2_puts fun _ => rfl
  case fabs => exact lane1 fun _ _ _ _ => rfl
  case fneg => exact lane1 fun _ _ _ _ => rfl
  case fcpsgn => exact lane2 fun _ _ _ _ _ => rfl
  case frint => exact fun _ _ _ m => fOp1_puts (f := fun i => frint i.ftz (i.mode m)) fun _ => rfl
  case ffrac => exact fun _ _ _ => fOp1_puts fun _ => rfl
  case fsat => exact fun _ _ _ => fOp1_puts fun _ => rfl
  case fclass => exact fun _ _ _ => fOp1_puts fun _ => rfl
  case rcp => exact fun _ _ _ => fOp1_puts fun _ => rfl
  case rsqrt => exact fun _ _ _ => fOp1_puts fun _ => rfl
  case sqrt => exact fun _ _ _ => fOp1_puts fun _ => rfl
  case exp2 => exact fun _ _ _ => fOp1_puts fun _ => rfl
  case log2 => exact fun _ _ _ => fOp1_puts fun _ => rfl
  case sinpi => exact fun _ _ _ => fOp1_puts fun _ => rfl
  case cospi => exact fun _ _ _ => fOp1_puts fun _ => rfl
  case tanh => exact fun _ _ _ => fOp1_puts fun _ => rfl
  case sigm => exact fun _ _ _ => fOp1_puts fun _ => rfl
  case cvt => exact fun _ sc _ _ e m => fOp1_puts (f := fun i => convert i.ftz (fmtSat i.f.fmt) (i.mode m) sc.toNat e.toNat) fun _ => rfl

/-! ### FCMP (R150) -/

theorem Val.eq_nan {v : Val} (h : v.isNan = true) : v = .nan := by
  cases v with
  | nan => rfl
  | inf _ => cases h
  | fin _ _ _ => cases h

theorem Val.nan_lt (y : Val) : Val.lt .nan y = false := rfl
theorem Val.lt_nan (x : Val) : Val.lt x .nan = false := by cases x <;> rfl

/-- A NaN is below nothing and nothing is below it. -/
theorem Val.lt_of_isNan {x y : Val} (h : x.isNan = true ∨ y.isNan = true) : Val.lt x y = false := by
  obtain h | h := h
  · rw [Val.eq_nan h, Val.nan_lt]
  · rw [Val.eq_nan h, Val.lt_nan]

/-- A NaN equals nothing, itself included. -/
theorem Val.eq_of_isNan {x y : Val} (h : x.isNan = true ∨ y.isNan = true) : Val.eq x y = false := by
  obtain h | h := h <;> simp [Val.eq, h]

/-- Settles O11: each comparison is `fcmpOp` with its row's condition; a NaN is unordered by `Val.eq_of_isNan` and `Val.lt_of_isNan`. -/
theorem floatComparisons : Obligations.FloatComparisons := by
  refine ⟨?eq, ?ne, ?lt, ?le, ?gt, ?ge, ?un, ?or, fun x y h => ⟨Val.eq_of_isNan h, Val.lt_of_isNan h⟩⟩
  case eq => exact fcmp fun _ _ _ _ _ _ => rfl
  case ne => exact fcmp (f := fun x y => !Val.eq x y) fun _ _ _ _ _ _ => rfl
  case lt => exact fcmp fun _ _ _ _ _ _ => rfl
  case le => exact fcmp (f := fun x y => Val.lt x y || Val.eq x y) fun _ _ _ _ _ _ => rfl
  case gt => exact fcmp (f := fun x y => Val.lt y x) fun _ _ _ _ _ _ => rfl
  case ge => exact fcmp (f := fun x y => Val.lt y x || Val.eq x y) fun _ _ _ _ _ _ => rfl
  case un => exact fcmp (f := fun x y => x.isNan || y.isNan) fun _ _ _ _ _ _ => rfl
  case or => exact fcmp (f := fun x y => !x.isNan && !y.isNan) fun _ _ _ _ _ _ => rfl

/-! ### FH2 (R153) -/

/-- Settles O12: each instruction is its packed form with its row's function in FP16 or BF16. -/
theorem packedHalfResults : Obligations.PackedHalfResults := by
  refine ⟨?addF16, ?subF16, ?mulF16, ?fmaF16, ?minF16, ?maxF16, ?addBf16, ?subBf16, ?mulBf16, ?fmaBf16, ?minBf16, ?maxBf16⟩
  case addF16 => exact fun _ _ _ _ => hOp2_puts (f := fp16.addOp) fun _ => rfl
  case subF16 => exact fun _ _ _ _ => hOp2_puts (f := fp16.subOp) fun _ => rfl
  case mulF16 => exact fun _ _ _ _ => hOp2_puts (f := fp16.mulOp) fun _ => rfl
  case fmaF16 => exact fun _ _ _ _ => hOp3_puts (f := fp16.fmaOp) fun _ => rfl
  case minF16 => exact fun _ _ _ _ => hOp2_puts (f := fp16.minOp) fun _ => rfl
  case maxF16 => exact fun _ _ _ _ => hOp2_puts (f := fp16.maxOp) fun _ => rfl
  case addBf16 => exact fun _ _ _ _ => hOp2_puts (f := bf16.addOp) fun _ => rfl
  case subBf16 => exact fun _ _ _ _ => hOp2_puts (f := bf16.subOp) fun _ => rfl
  case mulBf16 => exact fun _ _ _ _ => hOp2_puts (f := bf16.mulOp) fun _ => rfl
  case fmaBf16 => exact fun _ _ _ _ => hOp3_puts (f := bf16.fmaOp) fun _ => rfl
  case minBf16 => exact fun _ _ _ _ => hOp2_puts (f := bf16.minOp) fun _ => rfl
  case maxBf16 => exact fun _ _ _ _ => hOp2_puts (f := bf16.maxOp) fun _ => rfl

end Sys2Proof.Machine
end

section
/-! PROOFS. Number formats (chapter 8): the fields of FMT, square blocks, microscaling, and packed elements. -/

namespace Sys2Proof.Machine

open Sys2Proof

/-! ### Results in several registers -/

section
variable {x : Instr} {g : Bool} {reads : List Nat}

/-- Two registers written one after the other. -/
theorem putTwo_puts {d : Nat} {w0 w1 : Iss → Nat → Word}
    (hx : ∀ s, exec x s = withOperands s g reads [d, d + 1] [] fun i => ((s.putReg i d (w0 i)).putReg i (d + 1) (w1 i)).advance i) :
    PutsRegs x g reads d 2 [] 4 fun i l => [w0 i l, w1 i l] :=
  putRegs_puts (w := fun i j => if j = 0 then w0 i else w1 i) hx

theorem laneNums_eq_range : laneNums = List.range 16 := by decide

/-- The 16 registers of a block written one after another. -/
theorem putBlock_puts {d : Nat} {w : Iss → Nat → Nat → Word}
    (hx : ∀ s, exec x s = withOperands s g reads (runOf d 16) [] fun i => (laneNums.foldl (fun s r => s.putReg i (d + r) (w i r)) s).advance i) :
    PutsRegs x g reads d 16 [] 4 fun i l => (List.range 16).map (w i · l) :=
  putRegs_puts (by simpa only [laneNums_eq_range] using hx)

end

/-! ### FMT and square blocks (R168 to R173) -/

theorem fmtSet_next {g : Bool} {sel : BitVec 3} {v : Fld} {s : State} {i : Iss} (h : CanIssue s g [] [] [] i) (hl : i.lanes ≠ 0) :
    exec (.fmtSet g sel v) s = .next ((s.modF i.gi i.fi fun f => { f with fmt := fmtPut f.fmt sel.toNat v.toNat }).advance i) :=
  (withOperands_next h _).trans (congrArg _ (once_active hl ..))

/-- A scale register keeps the larger of its exponent and the region's. -/
theorem ite_lt_eq_max (m n : Nat) : (if m < n then n else m) = Nat.max m n := by
  change _ = max m n
  split <;> omega

/-- The quad bits that are free come from one draw: bit 8 qr + qc is that of quad (qr, qc) (log entry 7). -/
def drawnBit (draws qr qc : Nat) : Bool := Config.freeNat draws / 2 ^ (8 * qr + qc) % 2 == 1

/-- `uexp` takes one draw and writes the exponent it has found with the quad bits of each lane's column. -/
theorem uexp_next {g : Bool} {d : Fld} {a : BitVec 3} {w : BitVec 2} {s : State} {i : Iss}
    (h : CanIssue s g (d.toNat :: runOf (blockBase a) 16) [d.toNat] [] i) :
    let e := (i.reg d.toNat i.lo).toNat / 256 % 256
    ∃ t, exec (.uexp g d a w) s = .next t
      ∧ Wrote { s with draws := s.draws + 1 } t i 4 (i.after d.toNat fun l => [BitVec.ofNat 32 (e * 256
          + [0, 1, 2, 3, 4, 5, 6, 7].foldl (fun n qr =>
              n + if quadBit e (sbWidth w - 1) (quadVals i (blockBase a) qr (l / 2)) (drawnBit s.draws qr (l / 2)) then 2 ^ qr else 0) 0)]) i.preds :=
  ⟨_, withOperands_next h _, putReg_wrote (h.toIssuing.draws _) ..⟩

/-! ### Microscaling (R174 to R176) -/

theorem ite_bnot {α : Type} (b : Bool) (x y : α) : (if !b then x else y) = if b then y else x := by cases b <;> rfl

/-- Settles O13: `fmt.set` and `uexp` by their own lemmas, every other instruction by the form of its results, one register or several. -/
theorem numberFormatResults : Obligations.NumberFormatResults := by
  refine ⟨?fmtGet, ?fmtSet, ?sbexp, ?uexp, ?sbq, ?sbdq, ?mxexp, ?mxq, ?mxdq, ?pack, ?unpack⟩
  case fmtGet => exact fun _ _ _ => laneOp_puts fun _ => rfl
  case fmtSet => exact fun _ _ _ _ _ h hl => fmtSet_next h hl
  case sbexp =>
    exact fun g d a => (laneOp_puts (x := .sbexp g d a) fun _ => rfl).congr fun _ _ =>
      congrArg (fun e => [BitVec.ofNat 32 (e * 256)]) (ite_lt_eq_max ..)
  case uexp =>
    intro g d a w s i h
    obtain ⟨t, ht, wrote⟩ := uexp_next h
    exact ⟨t, drawnBit s.draws, ht, wrote⟩
  case sbq => exact fun _ _ _ _ _ => putRegs_puts fun _ => rfl
  case sbdq => exact fun _ _ _ _ _ => putBlock_puts fun _ => rfl
  case mxexp => exact fun _ _ _ _ => laneOp_puts fun _ => rfl
  case mxq =>
    exact fun g d a b => (laneOp_puts (x := .mxq g d a b) fun _ => rfl).congr fun _ _ => congrArg (fun w => [w]) (ite_bnot ..)
  case mxdq => exact fun _ _ _ _ => putTwo_puts fun _ => rfl
  case pack => exact fun _ _ _ _ => laneOp_puts fun _ => rfl
  case unpack => exact fun _ _ _ _ => putRegs_puts fun _ => rfl

end Sys2Proof.Machine
end

section
/-! PROOFS. Tiles: changes of one tile, the stamps, and the checks that an instruction on a tile passes; the configuration of tiles. -/

namespace Sys2Proof.Machine

open Sys2Proof

/-! ### Changes of one element, one group, one tile -/

/-- Two changes of an element that agree on it are one change. -/
theorem modAt_congr {α : Type} {xs : List α} {n : Nat} {f h : α → α} (e : ∀ x, xs[n]? = some x → f x = h x) : modAt xs n f = modAt xs n h := by
  refine List.ext_getElem? fun k => ?_
  rw [getElem?_modAt, getElem?_modAt]
  split
  case isTrue hk =>
    subst hk
    cases hx : xs[k]? with
    | none => rfl
    | some x => exact congrArg some (e x hx)
  case isFalse => rfl

theorem State.modG_congr {s : State} {gi : Nat} {f h : Group → Group} (e : f (s.group gi) = h (s.group gi)) : s.modG gi f = s.modG gi h := by
  unfold State.modG
  rw [modAt_congr]
  intro x hx
  rwa [State.group, hx] at e

theorem State.modTile_congr {s : State} {gi t : Nat} {f h : Tile → Tile} (e : f ((s.group gi).tile t) = h ((s.group gi).tile t)) :
    s.modTile gi t f = s.modTile gi t h := by
  refine State.modG_congr ?_
  rw [modAt_congr]
  intro x hx
  rwa [Group.tile, hx] at e

theorem State.modTile_modTile (s : State) (gi t : Nat) (f h : Tile → Tile) : (s.modTile gi t f).modTile gi t h = s.modTile gi t fun x => h (f x) := by
  unfold State.modTile
  rw [State.modG_modG]
  simp only [modAt_modAt]

/-- A change that leaves the tile as it is changes nothing. -/
theorem State.modTile_of_eq {s : State} {gi t : Nat} {f : Tile → Tile} (e : f ((s.group gi).tile t) = (s.group gi).tile t) : s.modTile gi t f = s := by
  rw [State.modTile_congr (h := fun x => x) e]
  unfold State.modTile
  simp only [modAt_id]
  exact State.modG_id s gi

theorem State.modTile_group {s : State} {gi : Nat} (h : gi < s.groups.length) (t : Nat) (f : Tile → Tile) :
    (s.modTile gi t f).group gi = { s.group gi with tiles := modAt (s.group gi).tiles t f } := State.modG_self s gi _ h

theorem tile_modAt (g : Group) {t : Nat} (h : t < g.tiles.length) (f : Tile → Tile) (k : Nat) :
    ({ g with tiles := modAt g.tiles t f } : Group).tile k = if k = t then f (g.tile t) else g.tile k := by
  simp only [Group.tile, getElem?_modAt]
  split
  case isTrue hk =>
    subst hk
    simp [List.getElem?_eq_getElem h]
  case isFalse => rfl

/-! ### Stamps (R379) -/

section
variable {s : State} {gi t : Nat} (h : ((s.group gi).tile t).stamp = none)
include h

theorem stampMod_of_unstamped (f : Stamp → Stamp) : stampMod s gi t f = s := by
  refine State.modTile_of_eq ?_
  rw [h]
  exact congrArg (fun x => { (s.group gi).tile t with stamp := x }) h.symm

theorem stampEnd_of_unstamped : stampEnd s gi t = s := by
  unfold stampEnd
  simp only [h]

end

/-! ### The checks of an instruction on one tile (R45, R61, R182) -/

theorem withTile_next {s : State} {g : Bool} {i : Iss} {regs : List Nat} {t : BitVec 6} {shaped : Bool} (h : Issuing s g i) (hr : ∀ r ∈ regs, i.phys r < i.N)
    (ht : t.toNat < i.g.tiles.length) (hs : shaped = true → (i.g.tile t.toNat).shaped = true) (k : Tile → Res) :
    withTile s g regs t shaped k = k (i.g.tile t.toNat) := by
  have hN : (regs.any fun r => decide (i.N ≤ i.phys r)) = false := by
    simpa using hr
  have hsh : (shaped && !(i.g.tile t.toNat).shaped) = false := by
    cases shaped <;> simp_all
  simp [withTile, h.cur, hN, Nat.not_le.2 ht, hsh]

theorem Group.tileWritten_of_unused {g : Group} {t : Nat} (h : g.tileUsed t = false) : g.tileWritten t = false := by
  simp only [Group.tileUsed, Bool.or_eq_false_iff] at h
  exact h.1.1

theorem tileWait_of_unused {s : State} {i : Iss} {t : Nat} (h : i.g.tileUsed t = false) (writer : Bool) (k : State) : tileWait s i t writer k = k := by
  have hw := Group.tileWritten_of_unused h
  cases writer <;> simp [tileWait, h, hw]

theorem tileOwed_of_none {s : State} {i : Iss} {t : Nat} (h : (i.g.tile t).owed = none) (k : State) : tileOwed s i t k = k := by
  simp only [tileOwed, h]

/-! ### TCFG (R184) -/

/-- A register's bits by arithmetic. -/
theorem ofNat_div_eq_extractLsb' (v : Word) (k n : Nat) : BitVec.ofNat n (v.toNat / 2 ^ k) = v.extractLsb' k n := by
  rw [BitVec.extractLsb', Nat.shiftRight_eq_div_pow]

/-- A configuration instruction on a tile that nothing uses has its effect. -/
theorem tcfg_next {s : State} {g : Bool} {i : Iss} {d : BitVec 6} {reads : List Nat} (h : CanIssue s g reads [] [] i) (hl : i.lanes ≠ 0)
    (ht : d.toNat < i.g.tiles.length) (hu : i.g.tileUsed d.toNat = false) (k : Iss → State) : tcfg s g d reads k = .next (k i) := by
  have hr : ∀ r ∈ reads, i.phys r < i.N := fun r hr => h.held r (List.mem_append_left _ hr)
  unfold tcfg
  rw [withTile_next (shaped := false) h.toIssuing hr ht nofun, withOperands_next h, once_active hl, tileWait_of_unused hu]

/-- Settles O21: each instruction by `tcfg_next`; the stamp of the tile, which is not recorded, stays so. -/
theorem tileConfiguration : Obligations.TileConfiguration := by
  have unstamped {s : State} {g : Bool} {i : Iss} {t : Nat} (h : Issuing s g i) (hs : (i.g.tile t).stamp = none) : ((s.group i.gi).tile t).stamp = none := by
    rwa [← h.eq.1]
  refine ⟨?tshape, ?tzero, ?tfill, ?tfree, ?tmask, ?clr, ?tinfo⟩
  case tshape =>
    rintro g d a s i h hl ⟨ht, hu, hs, hok⟩
    refine (tcfg_next h hl ht hu _).trans ?_
    have e0 := ofNat_div_eq_extractLsb' (i.reg a.toNat i.lo) 0 4
    rw [Nat.pow_zero, Nat.div_one] at e0
    simp only [hok, stampEnd_of_unstamped (unstamped h.toIssuing hs), e0, ofNat_div_eq_extractLsb', Bool.not_true, Bool.false_eq_true, if_false]
    rfl
  case tzero =>
    rintro g d s i h hl ⟨ht, hu, hs, -⟩
    refine (tcfg_next h hl ht hu _).trans ?_
    rw [stampMod, State.modTile_modTile, State.modTile_congr (h := fun t => { t with data := [], scaleArea := [], emask := false, bad := false })]
    · rfl
    · simp only [unstamped h.toIssuing hs, Option.map_none]
  case tfill =>
    rintro g d a s i h hl ⟨ht, hu, -, -⟩
    exact tcfg_next h hl ht hu _
  case tfree =>
    rintro g d s i h hl ⟨ht, hu, hs, -⟩
    refine (tcfg_next h hl ht hu _).trans ?_
    simp only [stampEnd_of_unstamped (unstamped h.toIssuing hs)]
    rfl
  case tmask =>
    rintro g d a s i h hl ⟨ht, hu, -, -⟩
    exact tcfg_next h hl ht hu _
  case clr =>
    rintro g d s i h hl ⟨ht, hu, -, -⟩
    exact tcfg_next h hl ht hu _
  case tinfo =>
    intro g d a s i h ht
    refine ⟨_, ?_, putPair_wrote h.toIssuing (pairFld d).toNat (fun _ => tileWord i.g a.toNat) 4 false⟩
    change execTinfo g d a s = _
    rw [execTinfo, withTile_next (regs := pairOf d) (shaped := false) h.toIssuing h.held ht nofun, withOperands_next h]

end Sys2Proof.Machine
end

section
/-! PROOFS. Bytes written in many pieces, and the moves of rows and columns between tiles and registers. -/

namespace Sys2Proof.Machine

open Sys2Proof

/-! ### Little-endian bytes (R3) -/

@[simp] theorem length_leBytes (n v : Nat) : (leBytes n v).length = n := by
  induction n generalizing v with
  | zero => rfl
  | succ n ih => simp [leBytes, ih]

theorem leBytes_getElem? (n v k : Nat) (h : k < n) : (leBytes n v)[k]? = some (BitVec.ofNat 8 (v / 256 ^ k)) := by
  induction n generalizing v k with
  | zero => omega
  | succ n ih =>
    cases k with
    | zero => simp [leBytes]
    | succ k => rw [leBytes, List.getElem?_cons_succ, ih _ _ (by omega), Nat.div_div_eq_div_mul, Nat.pow_succ']

/-- A byte of a register word. -/
theorem leBytes_word (v : Word) {k : Nat} (h : k < 4) : (leBytes 4 v.toNat)[k]?.getD 0 = v.extractLsb' (8 * k) 8 := by
  rw [leBytes_getElem? _ _ _ h, ← ofNat_div_eq_extractLsb', Nat.pow_mul]
  rfl

theorem Mem.length_read (m : Mem) (a n : Nat) : (m.read a n).length = n := by
  induction n generalizing a with
  | zero => rfl
  | succ n ih => simp [Mem.read, ih]

theorem Mem.read_getElem? (m : Mem) (a n k : Nat) (h : k < n) : (m.read a n)[k]? = some (m.get (a + k)) := by
  induction n generalizing a k with
  | zero => omega
  | succ n ih =>
    cases k with
    | zero => simp [Mem.read]
    | succ k => rw [Mem.read, List.getElem?_cons_succ, ih _ _ (by omega), Nat.add_assoc, Nat.add_comm 1]

/-! ### Pieces written one after another -/

/-- Pieces of bytes, each at its address, written one after another. -/
def Mem.puts (m : Mem) (ws : List (Nat × List Byte)) : Mem := ws.foldl (fun m w => m.write w.1 w.2) m

/-- Does a piece hold the byte of an address? -/
def covers (p : Nat) (w : Nat × List Byte) : Bool := decide (w.1 ≤ p) && decide (p < w.1 + w.2.length)

theorem covers_iff {p : Nat} {w : Nat × List Byte} : covers p w = true ↔ w.1 ≤ p ∧ p < w.1 + w.2.length := by
  simp [covers]

theorem Mem.get_puts (m : Mem) (ws : List (Nat × List Byte)) (p : Nat) (h : m.wf = true) :
    (m.puts ws).get p = ((ws.reverse.find? (covers p)).map fun w => w.2[p - w.1]?.getD 0).getD (m.get p) := by
  refine foldl_last_write (read := fun m : Mem => m.get p) (fun m => m.wf = true) (fun m w hm => Mem.write_wf m _ _ hm) (fun m w hm => ?_) ws m h
  simp only [Mem.get_write m w.1 p w.2 hm, covers_iff]

/-- A byte that no piece holds stays. -/
theorem Mem.get_puts_of_uncovered {m : Mem} {ws : List (Nat × List Byte)} {p : Nat} (h : m.wf = true) (hn : ∀ w ∈ ws, covers p w = false) :
    (m.puts ws).get p = m.get p := by
  have : ws.reverse.find? (covers p) = none := List.find?_eq_none.2 fun w hw => by simp [hn w (List.mem_reverse.1 hw)]
  rw [Mem.get_puts m ws p h, this]
  rfl

/-- A byte that a piece holds is read back, where all pieces that hold it agree on it. -/
theorem Mem.get_puts_of_covered {m : Mem} {ws : List (Nat × List Byte)} {p : Nat} {b : Byte} (h : m.wf = true) (hc : ∃ w ∈ ws, covers p w = true)
    (hb : ∀ w ∈ ws, covers p w = true → w.2[p - w.1]?.getD 0 = b) : (m.puts ws).get p = b := by
  rw [Mem.get_puts m ws p h]
  cases hf : ws.reverse.find? (covers p) with
  | none =>
    obtain ⟨w, hw, hp⟩ := hc
    exact absurd hp (List.find?_eq_none.1 hf w (List.mem_reverse.2 hw))
  | some w => exact hb w (List.mem_reverse.1 (List.mem_of_find?_eq_some hf)) (List.find?_some hf)

/-! ### TMOV (R185, R186) -/

theorem mem_runOf_self (f : Nat) {n : Nat} (h : 0 < n) : f ∈ runOf f n := List.mem_map.2 ⟨0, List.mem_range.2 h, rfl⟩

theorem Tile.rowRegs_pos (t : Tile) : 0 < t.rowRegs := by
  unfold Tile.rowRegs Tile.rb
  omega
theorem Tile.colRegs_pos (t : Tile) : 0 < t.colRegs := by
  unfold Tile.colRegs Tile.height
  omega

/-- The registers that a move reads and writes. -/
def moveReads (writer : Bool) (b : Nat) (rs : List Nat) : List Nat := if writer then b :: rs else [b]
def moveWrites (writer : Bool) (rs : List Nat) : List Nat := if writer then [] else rs

/-- A move between a tile that nothing uses and registers that the group has takes place, at an index in range. -/
theorem tileMove_next {s : State} {i : Iss} {g writer : Bool} {t : BitVec 6} {fld b : Fld} {regs lim : Tile → Nat}
    (h : CanIssue s g (moveReads writer b.toNat (runOf fld.toNat (regs (i.g.tile t.toNat)))) (moveWrites writer (runOf fld.toNat (regs (i.g.tile t.toNat)))) [] i)
    (hn : 0 < regs (i.g.tile t.toNat)) (hl : i.lanes ≠ 0) (ht : t.toNat < i.g.tiles.length) (hs : (i.g.tile t.toNat).shaped = true)
    (hu : i.g.tileUsed t.toNat = false) (ho : (i.g.tile t.toNat).owed = none) (hr : fld.toNat + regs (i.g.tile t.toNat) ≤ 128)
    (hx : (i.reg b.toNat i.lo).toNat < lim (i.g.tile t.toNat)) (k : Iss → Tile → Nat → State) :
    tileMove s g t fld b writer regs lim k = .next (k i (i.g.tile t.toNat) (i.reg b.toNat i.lo).toNat) := by
  have hself := mem_runOf_self fld.toNat hn
  have held : ∀ r ∈ [fld.toNat, b.toNat], i.phys r < i.N := by
    intro r hr
    refine h.held r ?_
    cases writer <;> simp only [moveReads, moveWrites, List.mem_cons, List.not_mem_nil, or_false] at hr ⊢ <;> rcases hr with rfl | rfl <;> simp [hself]
  unfold tileMove
  rw [withTile_next h.toIssuing held ht (fun _ => hs)]
  simp only [Nat.not_lt.2 hr, if_false]
  refine (withOperands_next h _).trans ?_
  rw [once_active hl, tileWait_of_unused hu, if_neg (Nat.not_le.2 hx)]
  cases writer
  case false => exact congrArg _ (tileOwed_of_none ho _)
  case true => rfl

/-- The words that a row takes from registers: of each register those of the active lanes that lie in the row. -/
def rowPieces (i : Iss) (a base rb n : Nat) : List (Nat × List Byte) :=
  (List.range n).flatMap fun j => (i.lanes.lanes.filter fun l => decide (64 * j + 4 * l < rb)).map fun l =>
    (base + 64 * j + 4 * l, leBytes 4 (i.reg (a + j) l).toNat)

theorem foldl_write_eq_puts (i : Iss) (a base rb n : Nat) (m : Mem) :
    (List.range n).foldl (fun m j => i.lanes.lanes.foldl (fun m l =>
      if 64 * j + 4 * l < rb then m.write (base + 64 * j + 4 * l) (leBytes 4 (i.reg (a + j) l).toNat) else m) m) m = m.puts (rowPieces i a base rb n) := by
  simp only [Mem.puts, rowPieces, List.foldl_flatMap, List.foldl_map, List.foldl_filter, decide_eq_true_eq]

theorem mem_rowPieces {i : Iss} {a base rb n : Nat} {w : Nat × List Byte} : w ∈ rowPieces i a base rb n ↔
    ∃ j l, j < n ∧ i.lanes.has l = true ∧ 64 * j + 4 * l < rb ∧ w = (base + 64 * j + 4 * l, leBytes 4 (i.reg (a + j) l).toNat) := by
  simp only [rowPieces, List.mem_flatMap, List.mem_map, List.mem_filter, List.mem_range, Mask.mem_lanes, decide_eq_true_eq]
  constructor
  · rintro ⟨j, hj, l, ⟨hl, hr⟩, rfl⟩
    exact ⟨j, l, hj, hl, hr, rfl⟩
  · rintro ⟨j, l, hj, hl, hr, rfl⟩
    exact ⟨j, hj, l, ⟨hl, hr⟩, rfl⟩

/-- A byte of the row lies in one word only, that of register and lane by its place. -/
theorem covers_rowPiece {base p j l : Nat} (v : Nat) (hl : l < 16) (h : covers p (base + 64 * j + 4 * l, leBytes 4 v) = true) :
    base ≤ p ∧ j = (p - base) / 64 ∧ l = (p - base) % 64 / 4 ∧ p - (base + 64 * j + 4 * l) = (p - base) % 4 := by
  rw [covers_iff, length_leBytes] at h
  obtain ⟨h1, h2⟩ := h
  omega

/-- A row written from registers: its bytes in active lanes come from there, every other byte stays. -/
theorem get_puts_rowPieces {i : Iss} {a base rb : Nat} {m : Mem} (hm : m.wf = true) (h4 : rb % 4 = 0) (p : Nat) :
    (m.puts (rowPieces i a base rb ((rb + 63) / 64))).get p
      = if base ≤ p ∧ p < base + rb ∧ i.lanes.has ((p - base) % 64 / 4) = true
        then (i.reg (a + (p - base) / 64) ((p - base) % 64 / 4)).extractLsb' (8 * ((p - base) % 4)) 8 else m.get p := by
  split
  case isTrue h =>
    obtain ⟨h1, h2, h3⟩ := h
    refine Mem.get_puts_of_covered hm ⟨_, mem_rowPieces.2 ⟨(p - base) / 64, (p - base) % 64 / 4, by omega, h3, by omega, rfl⟩, ?_⟩ ?_
    · rw [covers_iff, length_leBytes]
      dsimp only
      omega
    · intro w hw hc
      obtain ⟨j, l, -, hl, -, rfl⟩ := mem_rowPieces.1 hw
      obtain ⟨-, hj, hl', hk⟩ := covers_rowPiece _ (Mask.has_lt hl) hc
      dsimp only
      rw [hk, leBytes_word _ (Nat.mod_lt _ (by decide)), hj, hl']
  case isFalse h =>
    refine Mem.get_puts_of_uncovered hm fun w hw => ?_
    obtain ⟨j, l, -, hl, hr, rfl⟩ := mem_rowPieces.1 hw
    rw [Bool.eq_false_iff]
    intro hc
    obtain ⟨hb, hj, hl', -⟩ := covers_rowPiece _ (Mask.has_lt hl) hc
    exact h ⟨hb, by omega, hl' ▸ hl⟩

theorem Tile.rb_mod_four (t : Tile) : t.rb % 4 = 0 := by
  unfold Tile.rb
  omega

/-- Settles O22: each move by `tileMove_next`; what a row or column puts into registers by `putRegs_wrote`, a row from registers by `get_puts_rowPieces`. -/
theorem tileMoves : Obligations.TileMoves := by
  refine ⟨?trow, ?tcol, ?twrow, ?twcol⟩
  case trow =>
    rintro g d a b s i t r ⟨h, hl, ht, hs, hu, ho, hr, hx⟩
    refine ⟨_, ?_, putRegs_wrote h.toIssuing d.toNat t.rowRegs
      (fun j l => if 64 * j + 4 * l < t.rb then BitVec.ofNat 32 (t.data.le (r * t.rb + 64 * j + 4 * l) 4) else 0) 4 false⟩
    change execTrow g d a b s = _
    exact tileMove_next (writer := false) h t.rowRegs_pos hl ht hs hu ho hr hx _
  case tcol =>
    rintro g d a b s i t c ⟨h, hl, ht, hs, hu, ho, hr, hx⟩
    refine ⟨_, ?_, putRegs_wrote h.toIssuing d.toNat t.colRegs
      (fun j l => if 16 * j + l < t.height then BitVec.ofNat 32 (t.bits (t.rowNat (16 * j + l)) c) else 0) 4 false⟩
    change execTcol g d a b s = _
    exact tileMove_next (writer := false) h t.colRegs_pos hl ht hs hu ho hr hx _
  case twrow =>
    rintro g d a b s i t r ⟨h, hl, ht, hs, hu, ho, hr, hx⟩ hwf
    have written := tileMove_next (writer := true) h t.rowRegs_pos hl ht hs hu ho hr hx fun i t r =>
      (s.modTile i.gi d.toNat fun x => { x with data := x.data.puts (rowPieces i a.toNat (r * t.rb) t.rb t.rowRegs) }).advance i
    rw [State.modTile_congr (h := fun x => { x with data := t.data.puts (rowPieces i a.toNat (r * t.rb) t.rb t.rowRegs) }) (by rw [← h.toIssuing.eq.1])] at written
    refine ⟨_, _, Eq.trans ?_ written, rfl, get_puts_rowPieces hwf t.rb_mod_four⟩
    change execTwrow g d a b s = _
    simp only [execTwrow, foldl_write_eq_puts]
  case twcol =>
    rintro g d a b s i t c ⟨h, hl, ht, hs, hu, ho, hr, hx⟩
    change execTwcol g d a b s = _
    exact tileMove_next (writer := true) h t.colRegs_pos hl ht hs hu ho hr hx _

end Sys2Proof.Machine
end

section
/-! PROOFS. Tile transfers: their checks and their issue. -/

namespace Sys2Proof.Machine

open Sys2Proof

/-! ### A checked access that reaches its place (R212, R214) -/

theorem checkLane_of_reaches {s : State} {i : Iss} {m : MemForm} {ea : Int} {pa : Nat} (h : Reaches s i m ea pa) (lane : Nat) :
    (checkLane s i m lane ea).good = true ∧ (checkLane s i m lane ea).pa = pa ∧ (checkLane s i m lane ea).tracked s i = false := by
  obtain ⟨ha, h⟩ := h
  have aligned : ¬(m.sub = 0 ∧ ea % m.size ≠ 0) := fun hn => hn.2 (ha hn.1)
  unfold checkLane
  simp only [aligned, if_false]
  match hm : m.space with
  | .scratch =>
    simp only [hm] at h ⊢
    obtain ⟨hb, hin, hrace, -⟩ := h
    have inside : 0 ≤ m.byteOf ea ∧ m.byteOf ea + m.size ≤ (s.blockOf i.g).spSize := ⟨by omega, hin⟩
    simp only [inside, and_self, if_true]
    exact ⟨rfl, by simp [LaneChk.pa, hb], hrace⟩
  | .glob =>
    simp only [hm] at h ⊢
    obtain ⟨x, hx, ht, -⟩ := h
    simp only [hx]
    exact ⟨rfl, rfl, ht⟩

theorem fillWalks_icache (s : State) (pasid va : Nat) : (fillWalks s pasid va).icache = s.icache := by
  unfold fillWalks
  rfl

theorem fillPage_icache (s : State) (core pasid va : Nat) : (fillPage s core pasid va).icache = s.icache := by
  unfold fillPage
  dsimp only
  split
  · rfl
  · rfl
  · split
    · dsimp only
      exact fillWalks_icache s pasid va
    · rfl

theorem fillTlb_icache (s : State) (core pasid : Nat) (vas : List Nat) : (fillTlb s core pasid vas).icache = s.icache := by
  unfold fillTlb
  exact foldl_keeps State.icache vas s fun u va => fillPage_icache u core pasid va

/-- A translation that is cached changes the TLBs and the walk cache only (R420). -/
theorem touch_eq (s : State) (i : Iss) (cs : List LaneChk) : ∃ tlb tlb2 walks, touch s i cs = { s with tlb := tlb, tlb2 := tlb2, walks := walks } := by
  have kept : (touch s i cs).icache = s.icache := fillTlb_icache s i.g.core (s.pasidOf i.g) _
  obtain ⟨tlb, tlb2, walks, icache, e⟩ : Filled s (touch s i cs) := fillTlb_filled s i.g.core (s.pasidOf i.g) _
  rw [e] at kept
  subst kept
  exact ⟨tlb, tlb2, walks, e⟩

/-! ### Nothing earlier stands before an access (R208, R245, R412) -/

theorem dueBefore_of_no_hit {s : State} {hit : Store → Bool} (h : ∀ e ∈ s.unperf, hit e = false) : dueBefore s hit = [] := by
  unfold dueBefore
  generalize s.unperf = us at h
  induction us with
  | nil => rfl
  | cons e us ih =>
    rw [List.foldr_cons, ih fun e he => h e (List.mem_cons_of_mem _ he)]
    simp [h e]

theorem drainHit_of_no_hit {s : State} {hit : Store → Bool} (h : ∀ e ∈ s.unperf, hit e = false) : drainHit s hit = s := by
  have kept : (s.unperf.filter fun e => !([] : List Store).contains e) = s.unperf := List.filter_eq_self.2 fun _ _ => rfl
  rw [drainHit, dueBefore_of_no_hit h]
  dsimp only [List.foldl_nil]
  rw [kept]

theorem not_ahead {s : State} {i : Iss} {pas : List (Nat × Nat)} (hq : Quiet s i) (hs : ∀ e ∈ s.unperf, e.toRemote pas = false) :
    ∀ e ∈ s.unperf, e.ahead i.gi i.f pas = false := by
  intro e he
  have own := List.filter_eq_nil_iff.1 hq.1 e he
  rw [Bool.not_eq_true] at own
  rw [Store.ahead, own, hs e he]
  rfl

theorem xferAhead_of_settled {s : State} {i : Iss} {pas : List (Nat × Nat)} (hq : Quiet s i) (hs : Settled s pas) : xferAhead s i.gi i.f pas = false := by
  have moved : (s.groups.any fun g => g.xfers.any fun x => x.toRemote (pas.map (·.1))) = false :=
    List.any_eq_false.2 fun g hg => by simpa using hs.2 g hg
  rw [xferAhead, moved, dueBefore_of_no_hit (not_ahead hq hs.1)]
  rfl

theorem xferClash_of_quiet {s : State} {i : Iss} (hq : Quiet s i) (space : Space) (write : Bool) (cs : List LaneChk) (len : Nat) :
    xferClash i space write cs len = false := by
  simp [xferClash, hq.2]

/-! ### The chunks of a transfer (R187, R188, R252) -/

theorem goodBytes_of_good {cs : List LaneChk} (h : ∀ c ∈ cs, c.good = true) (len : Nat) : goodBytes cs len = cs.map fun c => (c.pa, len) := by
  rw [goodBytes, List.filter_eq_self.2 h]

/-- Chunks that pass their checks on untracked bytes raise no fault and no race, and leave no record. -/
theorem xferChecked_good {s : State} {i : Iss} {cs : List LaneChk} (hg : ∀ c ∈ cs, c.good = true) (ht : ∀ c ∈ cs, c.tracked s i = false) (m : MemForm)
    (k : State → State) : xferChecked s i m cs k = k s := by
  have untracked : cs.filter (fun c => c.tracked s i) = [] := List.filter_eq_nil_iff.2 fun c hc => by simp [ht c hc]
  have unfailed : cs.filter (fun c => !c.good) = [] := List.filter_eq_nil_iff.2 fun c hc => by simp [hg c hc]
  have unrecorded : recordAll s i m.space [] = s := by unfold recordAll; cases m.space <;> rfl
  simp [xferChecked, untracked, unfailed, racesOf, leastOf, unrecorded]

theorem gated_untracked (s : State) (i : Iss) (k : State → State) : gated s i false k = k s := by simp [gated]

/-- A transfer joins those that are outstanding. -/
def withXfer (s : State) (gi : Nat) (x : Xfer) : State := s.modG gi fun g => { g with xfers := g.xfers ++ [x] }

/-- Where no stamps are recorded, the transfer's stamp changes nothing. -/
theorem stampXfer_of_unstamped {s : State} {gi t : Nat} {x : Xfer} (hgi : gi < s.groups.length) (hst : ((s.group gi).tile t).stamp = none)
    (hts : (s.group gi).optTs = false) (store : Bool) (f : Stamp → Stamp) :
    (if store = true then stampMod (withXfer s gi x) gi t f else stampIn (withXfer s gi x) gi t) = withXfer s gi x := by
  have same : (withXfer s gi x).group gi = { s.group gi with xfers := (s.group gi).xfers ++ [x] } := State.modG_self s gi _ hgi
  cases store
  case true => exact stampMod_of_unstamped (by rw [same]; exact hst) f
  case false =>
    have off : ((withXfer s gi x).group gi).optTs = false := by rw [same]; exact hts
    simp only [stampIn, off, Bool.false_eq_true, if_false]

section
variable {s : State} {i : Iss} {m : MemForm} {place : Int → Nat} {cks : List (Nat × Int)} (hr : ∀ c ∈ cks, Reaches s i m c.2 (place c.2))
include hr

theorem chunks_good : ∀ c ∈ cks.map fun c => checkLane s i m i.lo c.2, c.good = true :=
  List.forall_mem_map.2 fun c hc => (checkLane_of_reaches (hr c hc) i.lo).1

theorem chunks_untracked : ∀ c ∈ cks.map fun c => checkLane s i m i.lo c.2, c.tracked s i = false :=
  List.forall_mem_map.2 fun c hc => (checkLane_of_reaches (hr c hc) i.lo).2.2

theorem chunks_any_tracked : ((cks.map fun c => checkLane s i m i.lo c.2).any fun c => c.tracked s i) = false :=
  List.any_eq_false.2 fun c hc => by simp [chunks_untracked hr c hc]

theorem chunks_bytes : goodBytes (cks.map fun c => checkLane s i m i.lo c.2) 16 = cks.map fun c => (place c.2, 16) := by
  rw [goodBytes_of_good (chunks_good hr), List.map_map]
  exact List.map_congr_left fun c hc => by simp [(checkLane_of_reaches (hr c hc) i.lo).2.1]

theorem chunks_places : ((cks.zip (cks.map fun c => checkLane s i m i.lo c.2)).map fun p => (p.1.1, p.2.pa)) = cks.map fun c => (c.1, place c.2) := by
  have paired := List.zip_map' (f := fun c => c) (g := fun c => checkLane s i m i.lo c.2) (l := cks)
  rw [List.map_id'] at paired
  rw [paired, List.map_map]
  exact List.map_congr_left fun c hc => by simp [(checkLane_of_reaches (hr c hc) i.lo).2.1]

end

/-- The form of a transfer's accesses. -/
def xferForm (space : Space) (store : Bool) : MemForm :=
  { space := space, size := 16, write := store, pol := 1, kind := if store then .write else .read }
/-- The control word of a transfer. -/
def ctlOf (i : Iss) (b : Fld) : Nat := (i.reg b.toNat i.lo).toNat
/-- The chunks of a transfer, at its address and with its control word. -/
def chunksOf (i : Iss) (t : BitVec 6) (space : Space) (b : Fld) (addr : Iss → Nat) : List (Nat × Int) :=
  xferChunks (i.g.tile t.toNat) space (addr i) (ctlOf i b)
/-- The record of a transfer that issues, its chunks at their places. -/
def xferOf (s : State) (i : Iss) (t : BitVec 6) (space : Space) (store : Bool) (b : Fld) (addr : Iss → Nat) (place : Int → Nat) : Xfer :=
  { seq := s.seq + 1, fid := i.f.fid, tile := t.toNat, store := store, scl := decide (2 ^ 31 ≤ ctlOf i b), space := space,
    chunks := (chunksOf i t space b addr).map fun c => (c.1, place c.2) }

/-- A transfer whose chunks all pass their checks is outstanding with the place of each. -/
theorem tileXfer_next {s : State} {g : Bool} {i : Iss} {t : BitVec 6} {space : Space} {store : Bool} {areg : List Nat} {b : Fld} {addr : Iss → Nat}
    {place : Int → Nat} (h : CanIssue s g (b.toNat :: areg) [] [] i) (hl : i.lanes ≠ 0) (hq : Quiet s i) (ht : t.toNat < i.g.tiles.length)
    (hs : (i.g.tile t.toNat).shaped = true) (hu : i.g.tileUsed t.toNat = false) (ho : (i.g.tile t.toNat).owed = none)
    (hst : (i.g.tile t.toNat).stamp = none) (hts : i.g.optTs = false) (h24 : ctlOf i b / 2 ^ 24 % 2 ^ 7 = 0) (h16 : ctlOf i b % 16 = 0)
    (ha : addr i % 16 = 0) (hr : ∀ c ∈ chunksOf i t space b addr, Reaches s i (xferForm space store) c.2 (place c.2))
    (hset : space = .glob → Settled s ((chunksOf i t space b addr).map fun c => (place c.2, 16))) :
    ∃ tlb tlb2 walks, tileXfer s g t space store areg b addr
      = .next ((withXfer { s with tlb := tlb, tlb2 := tlb2, walks := walks } i.gi (xferOf s i t space store b addr place)).advance i 4 store) := by
  have owed : (if store then tileOwed s i t.toNat else id) = fun k => k := by
    cases store
    case false => rfl
    case true => exact funext (tileOwed_of_none ho)
  have field : ¬(bitsOf (ctlOf i b) 30 24 ≠ 0 ∨ ctlOf i b % 16 ≠ 0) := not_or.2 ⟨not_not_intro h24, not_not_intro h16⟩
  have notAhead : (space == .glob && xferAhead s i.gi i.f ((chunksOf i t space b addr).map fun c => (place c.2, 16))) = false := by
    cases space
    case glob => rw [xferAhead_of_settled hq (hset rfl)]; rfl
    case scratch => rfl
  obtain ⟨tlb, tlb2, walks, cached⟩ := touch_eq s i ((chunksOf i t space b addr).map fun c => checkLane s i (xferForm space store) i.lo c.2)
  refine ⟨tlb, tlb2, walks, ?_⟩
  generalize hv : ({ s with tlb := tlb, tlb2 := tlb2, walks := walks } : State) = v at cached
  obtain ⟨hunperf, hgroups, hseq, htracked⟩ :
      v.unperf = s.unperf ∧ v.groups = s.groups ∧ v.seq = s.seq ∧ ∀ c, LaneChk.tracked v i c = LaneChk.tracked s i c := by
    subst hv
    exact ⟨rfl, rfl, rfl, fun _ => rfl⟩
  have drained : (if space = .glob then drainOwn v i.gi i.f ((chunksOf i t space b addr).map fun c => (place c.2, 16)) else v) = v := by
    split
    case isTrue hg => exact drainHit_of_no_hit (hunperf ▸ not_ahead hq (hset hg).1)
    case isFalse => rfl
  have hgroup : v.group i.gi = i.g := by rw [h.toIssuing.eq.1, State.group, hgroups]; rfl
  have checked := xferChecked_good (m := xferForm space store) (chunks_good hr) (chunks_untracked hr)
  unfold xferOf chunksOf ctlOf xferForm at *
  unfold tileXfer
  rw [withTile_next h.toIssuing (fun r hr => h.held r (List.mem_append_left _ hr)) ht fun _ => hs, withOperands_next h, once_active hl, tileWait_of_unused hu, owed]
  simp only [if_neg field, if_neg (not_not_intro ha), xferClash_of_quiet hq, chunks_bytes hr, notAhead, chunks_any_tracked hr, gated_untracked, Bool.or_self,
    Bool.false_eq_true, if_false, checked, cached, drained, htracked, chunks_places hr, hseq]
  exact congrArg (fun v : State => (.next (v.advance i 4 store) : Res))
    (stampXfer_of_unstamped (hgroups ▸ h.gi) (by rw [hgroup, hst]) (by rw [hgroup, hts]) store _)

/-- Settles O23: the four transfers are `tileXfer` in two spaces and two directions. -/
theorem tileTransfersIssue : Obligations.TileTransfersIssue := by
  refine ⟨?tlds, ?tsts, ?tldg, ?tstg⟩
  case tlds => exact fun a b _ _ _ _ _ => tileXfer_next (b := b) (addr := fun i => (i.reg a.toNat i.lo).toNat)
  case tsts => exact fun a b _ _ _ _ _ => tileXfer_next (b := b) (addr := fun i => (i.reg a.toNat i.lo).toNat)
  case tldg => exact fun a b _ _ _ _ _ => tileXfer_next (b := b) (addr := fun i => (i.pair (pairFld a).toNat i.lo).toNat)
  case tstg => exact fun a b _ _ _ _ _ => tileXfer_next (b := b) (addr := fun i => (i.pair (pairFld a).toNat i.lo).toNat)

end Sys2Proof.Machine
end

section
/-! PROOFS. A transfer completes: the bytes of its chunks have moved, in whatever order, and no others. -/

namespace Sys2Proof.Machine

open Sys2Proof

/-! ### Pieces written by a run of updates -/

/-- Updates that each write one piece, and keep what the pieces are read from, write them all. -/
theorem foldl_puts {σ ω : Type} {upd : σ → ω → σ} {read : σ → Mem} (P : σ → Prop) (piece : ω → Nat × List Byte) (keep : ∀ u c, P u → P (upd u c))
    (one : ∀ u c, P u → read (upd u c) = (read u).write (piece c).1 (piece c).2) (ws : List ω) (s : σ) (hs : P s) :
    P (ws.foldl upd s) ∧ read (ws.foldl upd s) = (read s).puts (ws.map piece) := by
  induction ws generalizing s with
  | nil => exact ⟨hs, rfl⟩
  | cons c ws ih =>
    obtain ⟨hp, he⟩ := ih (upd s c) (keep s c hs)
    exact ⟨hp, he.trans (by rw [one s c hs]; rfl)⟩

theorem eq_of_nodup_map {α β : Type} {f : α → β} {xs : List α} (hn : (xs.map f).Nodup) {x y : α} (hx : x ∈ xs) (hy : y ∈ xs) (e : f x = f y) : x = y := by
  induction xs with
  | nil => cases hx
  | cons z xs ih =>
    rw [List.map_cons, List.nodup_cons] at hn
    obtain ⟨hz, hn⟩ := hn
    have fresh {w : α} (hw : w ∈ xs) : f z ≠ f w := fun h => hz (h ▸ List.mem_map_of_mem hw)
    rcases List.mem_cons.1 hx with hxz | hx' <;> rcases List.mem_cons.1 hy with hyz | hy'
    · rw [hxz, hyz]
    · exact absurd (hxz ▸ e) (fresh hy')
    · exact absurd (hyz ▸ e).symm (fresh hx')
    · exact ih hn hx' hy'

/-- Chunks of 16 bytes at aligned addresses, none twice: each is read back, and every other byte stays. -/
theorem get_puts_chunks {α : Type} {m : Mem} {cs : List α} {addr : α → Nat} {bytes : α → List Byte} (hm : m.wf = true) (hl : ∀ c, (bytes c).length = 16)
    (ha : ∀ c ∈ cs, addr c % 16 = 0) (hn : (cs.map addr).Nodup) :
    (∀ c ∈ cs, ∀ k, k < 16 → (m.puts (cs.map fun c => (addr c, bytes c))).get (addr c + k) = (bytes c)[k]?.getD 0)
    ∧ ∀ p, (∀ c ∈ cs, p < addr c ∨ addr c + 16 ≤ p) → (m.puts (cs.map fun c => (addr c, bytes c))).get p = m.get p := by
  constructor
  · intro c hc k hk
    refine Mem.get_puts_of_covered hm ⟨_, List.mem_map_of_mem hc, ?_⟩ (List.forall_mem_map.2 fun d hd hcov => ?_)
    · rw [covers_iff, hl]
      dsimp only
      omega
    · rw [covers_iff, hl] at hcov
      have hac := ha c hc
      have had := ha d hd
      have same : addr d = addr c := by dsimp only at hcov; omega
      rw [eq_of_nodup_map hn hd hc same, Nat.add_sub_cancel_left]
  · intro p hp
    refine Mem.get_puts_of_uncovered hm (List.forall_mem_map.2 fun c hc => ?_)
    rw [Bool.eq_false_iff, Ne, covers_iff, hl]
    have := hp c hc
    dsimp only
    omega

/-! ### Changes of a tile that leave its data -/

theorem modTile_data_of_keeps {f : Tile → Tile} (hf : ∀ t, (f t).data = t.data) (s : State) (gi t k : Nat) :
    (((s.modTile gi t f).group gi).tile k).data = ((s.group gi).tile k).data := by
  simp only [State.modTile, State.group, State.modG_groups, if_true]
  cases s.groups[gi]? with
  | none => rfl
  | some g =>
    simp only [Option.map_some, Option.getD_some, Group.tile, getElem?_modAt]
    split
    case isTrue hk => cases g.tiles[k]? <;> simp [hf]
    case isFalse => rfl

theorem modG_tile_of_keeps {f : Group → Group} (hf : ∀ g, (f g).tiles = g.tiles) (s : State) (gi k : Nat) :
    ((s.modG gi f).group gi).tile k = (s.group gi).tile k := by
  simp only [State.group, State.modG_groups, if_true, Group.tile]
  cases s.groups[gi]? <;> simp [hf]

theorem stampMod_data (s : State) (gi t : Nat) (f : Stamp → Stamp) (k : Nat) :
    (((stampMod s gi t f).group gi).tile k).data = ((s.group gi).tile k).data := modTile_data_of_keeps (by intro _; rfl) s gi t k

theorem stampMod_length (s : State) (gi t : Nat) (f : Stamp → Stamp) : (stampMod s gi t f).groups.length = s.groups.length := State.modG_length ..

/-! ### One chunk (R188, R208) -/

theorem touchL2_eq (s : State) (pasid cls : Nat) (store : Bool) (pa : Nat) : ∃ l2, touchL2 s pasid cls store pa = { s with l2 := l2 } := by
  unfold touchL2
  dsimp only
  split
  · exact ⟨s.l2, rfl⟩
  · split
    · exact ⟨_, rfl⟩
    · split
      · exact ⟨_, rfl⟩
      · exact ⟨s.l2, rfl⟩

/-- The bytes that a chunk brings into a tile. -/
def chunkIn (s : State) (gi : Nat) (x : Xfer) (c : Nat × Nat) : List Byte :=
  match x.space with
  | .scratch => (s.block (s.group gi).block).sp.read c.2 16
  | .glob => s.mem.read c.2 16

/-- The bytes that a chunk takes out of a tile. -/
def chunkOut (s : State) (gi : Nat) (x : Xfer) (c : Nat × Nat) : List Byte := ((s.group gi).tile x.tile).data.read c.1 16

theorem length_chunkIn (s : State) (gi : Nat) (x : Xfer) (c : Nat × Nat) : (chunkIn s gi x c).length = 16 := by
  unfold chunkIn
  split <;> exact Mem.length_read _ _ _

theorem moveChunk_load {s : State} {gi : Nat} {x : Xfer} (hst : x.store = false) (hscl : x.scl = false) (c : Nat × Nat) : ∃ f : Tile → Tile,
    (∀ t, (f t).data = t.data.write c.1 (chunkIn s gi x c)) ∧ (moveChunk s gi x c).groups = (s.modTile gi x.tile f).groups
      ∧ (moveChunk s gi x c).mem = s.mem ∧ (moveChunk s gi x c).blocks = s.blocks := by
  unfold moveChunk
  obtain ⟨l2, e⟩ := touchL2_eq s (s.pasidOf (s.group gi)) 0 false c.2
  simp only [hst, hscl, e, Bool.false_eq_true, if_false, chunkIn]
  unfold State.modTile State.modG dropL1
  cases x.space
  all_goals
    refine ⟨_, fun t => ?_, rfl, rfl, rfl⟩
    rfl

theorem State.writeMem_mem (s : State) (pa : Nat) (bs : List Byte) : (s.writeMem pa bs).mem = s.mem.write pa bs := rfl

theorem moveChunk_store_glob {s : State} {gi : Nat} {x : Xfer} (hst : x.store = true) (hscl : x.scl = false) (htr : x.tracked = false) (hsp : x.space = .glob)
    (c : Nat × Nat) : (moveChunk s gi x c).mem = s.mem.write c.2 (chunkOut s gi x c) ∧ (moveChunk s gi x c).groups = s.groups
      ∧ (moveChunk s gi x c).blocks = s.blocks := by
  unfold moveChunk
  obtain ⟨l2, e⟩ := touchL2_eq s (s.pasidOf (s.group gi)) 0 true c.2
  simp only [hst, hscl, htr, hsp, e, Bool.false_eq_true, if_false, if_true]
  exact ⟨by simp only [dropL1, State.writeMem_mem]; rfl, by simp only [dropL1, State.writeMem_groups], by simp only [dropL1, State.writeMem_blocks]⟩

theorem moveChunk_store_scratch {s : State} {gi : Nat} {x : Xfer} (hst : x.store = true) (hscl : x.scl = false) (hsp : x.space = .scratch) (c : Nat × Nat) :
    moveChunk s gi x c = s.modB (s.group gi).block fun b => b.spPut c.2 (chunkOut s gi x c) := by
  unfold moveChunk
  simp only [hst, hscl, hsp, Bool.false_eq_true, if_false, if_true]
  rfl

/-! ### All chunks, one after another -/

/-- What a load leaves while its chunks move. -/
structure Loading (s u : State) (gi k : Nat) : Prop where
  mem : u.mem = s.mem
  blocks : u.blocks = s.blocks
  group : ∃ tiles, u.group gi = { s.group gi with tiles := tiles }
  here : gi < u.groups.length
  tile : k < (u.group gi).tiles.length

theorem Loading.chunkIn {s u : State} {gi : Nat} {x : Xfer} (h : Loading s u gi x.tile) (c : Nat × Nat) : chunkIn u gi x c = chunkIn s gi x c := by
  obtain ⟨tiles, hg⟩ := h.group
  simp only [Machine.chunkIn, State.block, h.mem, h.blocks, hg]

theorem Loading.moveChunk {s u : State} {gi : Nat} {x : Xfer} (h : Loading s u gi x.tile) (hst : x.store = false) (hscl : x.scl = false) (c : Nat × Nat) :
    Loading s (moveChunk u gi x c) gi x.tile
      ∧ (((moveChunk u gi x c).group gi).tile x.tile).data = ((u.group gi).tile x.tile).data.write c.1 (Machine.chunkIn s gi x c) := by
  obtain ⟨f, hf, hgroups, hmem, hblocks⟩ := moveChunk_load (s := u) (gi := gi) hst hscl c
  obtain ⟨tiles, hg⟩ := h.group
  have hgroup : (Machine.moveChunk u gi x c).group gi = { u.group gi with tiles := modAt (u.group gi).tiles x.tile f } := by
    rw [State.group, hgroups]
    exact State.modTile_group h.here x.tile f
  refine ⟨⟨hmem.trans h.mem, hblocks.trans h.blocks, ⟨_, hgroup.trans (by rw [hg])⟩, ?_, ?_⟩, ?_⟩
  · rw [hgroups, State.modTile, State.modG_length]
    exact h.here
  · rw [hgroup, length_modAt]
    exact h.tile
  · rw [hgroup, tile_modAt _ h.tile, if_pos rfl, hf, h.chunkIn]

/-- What a store to memory leaves while its chunks move. -/
structure StoringGlob (s u : State) : Prop where
  groups : u.groups = s.groups
  blocks : u.blocks = s.blocks

/-- What a store to a block's scratchpad leaves while its chunks move. -/
structure StoringScratch (s u : State) (b : Nat) : Prop where
  groups : u.groups = s.groups
  mem : u.mem = s.mem
  here : b < u.blocks.length

theorem chunkOut_of_groups {s u : State} (h : u.groups = s.groups) (gi : Nat) (x : Xfer) (c : Nat × Nat) : chunkOut u gi x c = chunkOut s gi x c := by
  simp only [chunkOut, State.group, h]

section
variable {s : State} {gi : Nat} {x : Xfer}

theorem moveChunks_load (hst : x.store = false) (hscl : x.scl = false) (hgi : gi < s.groups.length) (ht : x.tile < (s.group gi).tiles.length)
    (cs : List (Nat × Nat)) : let u := cs.foldl (fun s c => moveChunk s gi x c) s;
      Loading s u gi x.tile ∧ ((u.group gi).tile x.tile).data = ((s.group gi).tile x.tile).data.puts (cs.map fun c => (c.1, chunkIn s gi x c)) :=
  foldl_puts (read := fun u : State => ((u.group gi).tile x.tile).data) (Loading s · gi x.tile) _ (fun _ c h => (h.moveChunk hst hscl c).1)
    (fun _ c h => (h.moveChunk hst hscl c).2) cs s ⟨rfl, rfl, ⟨_, rfl⟩, hgi, ht⟩

theorem moveChunks_store_glob (hst : x.store = true) (hscl : x.scl = false) (htr : x.tracked = false) (hsp : x.space = .glob) (cs : List (Nat × Nat)) :
    let u := cs.foldl (fun s c => moveChunk s gi x c) s;
      StoringGlob s u ∧ u.mem = s.mem.puts (cs.map fun c => (c.2, chunkOut s gi x c)) := by
  refine foldl_puts (read := State.mem) (StoringGlob s) _ (fun u c h => ?_) (fun u c h => ?_) cs s ⟨rfl, rfl⟩
  · obtain ⟨-, hg, hb⟩ := moveChunk_store_glob (s := u) (gi := gi) hst hscl htr hsp c
    exact ⟨hg.trans h.groups, hb.trans h.blocks⟩
  · obtain ⟨hm, -, -⟩ := moveChunk_store_glob (s := u) (gi := gi) hst hscl htr hsp c
    rw [hm, chunkOut_of_groups h.groups]

theorem moveChunks_store_scratch (hst : x.store = true) (hscl : x.scl = false) (hsp : x.space = .scratch) (hb : (s.group gi).block < s.blocks.length)
    (cs : List (Nat × Nat)) : let u := cs.foldl (fun s c => moveChunk s gi x c) s;
      StoringScratch s u (s.group gi).block
        ∧ (u.block (s.group gi).block).sp = (s.block (s.group gi).block).sp.puts (cs.map fun c => (c.2, chunkOut s gi x c)) := by
  refine foldl_puts (read := fun u : State => (u.block (s.group gi).block).sp) (StoringScratch s · (s.group gi).block) _ (fun u c h => ?_) (fun u c h => ?_) cs s
    ⟨rfl, rfl, hb⟩
  all_goals
    have same : u.group gi = s.group gi := by simp only [State.group, h.groups]
    rw [moveChunk_store_scratch hst hscl hsp, same]
  · exact ⟨h.groups, h.mem, by simpa [State.modB] using h.here⟩
  · rw [chunkOut_of_groups h.groups]
    simp [State.block, State.modB, getElem?_modAt, List.getElem?_eq_getElem h.here, Block.spPut]

end

/-! ### The completion (R188) -/

/-- The state behind a transfer's completion: its chunks have moved, in the order that the device chooses, and it is outstanding no more. -/
def transferred (s : State) (gi n : Nat) (x : Xfer) : State :=
  (stampMod (moveAll s gi x) gi x.tile fun y => if x.store then { y with out1 := (moveAll s gi x).time } else if y.opi = 0 then { y with in1 := (moveAll s gi x).time } else y).modG
    gi fun g => { g with xfers := g.xfers.filter fun y => y.seq != n }

theorem exec_tileTransferComplete {s : State} {gi n : Nat} {x : Xfer} (h : (s.group gi).xfers.find? (fun y => y.seq == n) = some x) :
    exec (.tileTransferComplete gi n) s = .next (transferred s gi n x) := by
  change execTileTransferComplete gi n s = _
  simp only [execTileTransferComplete, h]
  rfl

/-- The completion itself leaves memory, scratchpads and tiles as the chunks have left them. -/
theorem transferred_data (s : State) (gi n : Nat) (x : Xfer) (k : Nat) :
    (((transferred s gi n x).group gi).tile k).data = (((moveAll s gi x).group gi).tile k).data := by
  unfold transferred
  rw [modG_tile_of_keeps (by intro _; rfl), stampMod_data]

theorem transferred_xfers {s : State} {gi : Nat} {x : Xfer} (h : gi < (moveAll s gi x).groups.length) (n : Nat) :
    ((transferred s gi n x).group gi).xfers = ((moveAll s gi x).group gi).xfers.filter fun y => y.seq != n := by
  unfold transferred
  rw [State.modG_self _ _ _ (by rwa [stampMod_length]), stampMod, State.modTile_group h]

/-- The chunks move one after another, each once. -/
theorem moveAll_eq (s : State) (gi : Nat) (x : Xfer) :
    ∃ (n : Nat) (cs : List (Nat × Nat)), cs.Perm x.chunks ∧ moveAll s gi x = cs.foldl (fun s c => moveChunk s gi x c) { s with draws := n } := by
  obtain ⟨n, hn⟩ := mixed_state s x.chunks
  exact ⟨n, _, mixed_perm s x.chunks, by rw [← hn]; rfl⟩

section
variable {s : State} {gi : Nat} {x : Xfer} (hgi : gi < s.groups.length) (htr : x.tracked = false) (hscl : x.scl = false)
  (ht : x.tile < (s.group gi).tiles.length) (hb : (s.group gi).block < s.blocks.length)

include hgi htr hscl ht hb in
/-- While its chunks move, a transfer stays outstanding. -/
theorem moveAll_xfers : gi < (moveAll s gi x).groups.length ∧ ((moveAll s gi x).group gi).xfers = (s.group gi).xfers := by
  obtain ⟨n, cs, -, e⟩ := moveAll_eq s gi x
  have standing {u : State} (h : u.groups = s.groups) : gi < u.groups.length ∧ (u.group gi).xfers = (s.group gi).xfers := by
    simpa only [State.group, h, and_true]
  rw [e]
  match hst : x.store, hsp : x.space with
  | false, _ =>
    obtain ⟨h, -⟩ := moveChunks_load (s := { s with draws := n }) hst hscl hgi ht cs
    obtain ⟨tiles, hg⟩ := h.group
    exact ⟨h.here, by rw [hg]; rfl⟩
  | true, .glob => exact standing (moveChunks_store_glob (s := { s with draws := n }) (gi := gi) hst hscl htr hsp cs).1.groups
  | true, .scratch => exact standing (moveChunks_store_scratch (s := { s with draws := n }) (gi := gi) hst hscl hsp hb cs).1.groups

include hgi hscl ht in
/-- A load brings the bytes of its chunks into the tile. -/
theorem transferred_load (hst : x.store = false) (hwf : ((s.group gi).tile x.tile).data.wf = true) (ha : ∀ c ∈ x.chunks, c.1 % 16 = 0)
    (hnd : (x.chunks.map (·.1)).Nodup) (n : Nat) : let t := transferred s gi n x
    t.mem = s.mem ∧ t.blocks = s.blocks
    ∧ (∀ c ∈ x.chunks, ∀ k, k < 16 → ((t.group gi).tile x.tile).data.get (c.1 + k) = (chunkIn s gi x c)[k]?.getD 0)
    ∧ ∀ p, (∀ c ∈ x.chunks, p < c.1 ∨ c.1 + 16 ≤ p) → ((t.group gi).tile x.tile).data.get p = ((s.group gi).tile x.tile).data.get p := by
  obtain ⟨n', cs, hp, e⟩ := moveAll_eq s gi x
  obtain ⟨h, hd⟩ := moveChunks_load (s := { s with draws := n' }) hst hscl hgi ht cs
  rw [← e] at h hd
  obtain ⟨inside, outside⟩ := get_puts_chunks (addr := Prod.fst) (bytes := chunkIn s gi x) hwf (length_chunkIn s gi x)
    (fun c hc => ha c (hp.mem_iff.1 hc)) ((hp.map Prod.fst).nodup_iff.2 hnd)
  refine ⟨h.mem, h.blocks, fun c hc k hk => ?_, fun p hout => ?_⟩
  · rw [transferred_data, hd]
    exact inside c (hp.mem_iff.2 hc) k hk
  · rw [transferred_data, hd]
    exact outside p fun c hc => hout c (hp.mem_iff.1 hc)

include hscl htr in
/-- A store to memory puts the tile's bytes at the places of its chunks. -/
theorem transferred_store_glob (hst : x.store = true) (hsp : x.space = .glob) (hwf : s.mem.wf = true) (ha : ∀ c ∈ x.chunks, c.2 % 16 = 0)
    (hnd : (x.chunks.map (·.2)).Nodup) (n : Nat) : let t := transferred s gi n x
    ((t.group gi).tile x.tile).data = ((s.group gi).tile x.tile).data ∧ t.blocks = s.blocks
    ∧ (∀ c ∈ x.chunks, ∀ k, k < 16 → t.mem.get (c.2 + k) = (chunkOut s gi x c)[k]?.getD 0)
    ∧ ∀ a, (∀ c ∈ x.chunks, a < c.2 ∨ c.2 + 16 ≤ a) → t.mem.get a = s.mem.get a := by
  obtain ⟨n', cs, hp, e⟩ := moveAll_eq s gi x
  obtain ⟨h, hm⟩ := moveChunks_store_glob (s := { s with draws := n' }) (gi := gi) hst hscl htr hsp cs
  rw [← e] at h hm
  obtain ⟨inside, outside⟩ := get_puts_chunks (addr := Prod.snd) (bytes := chunkOut s gi x) hwf (fun _ => Mem.length_read _ _ _)
    (fun c hc => ha c (hp.mem_iff.1 hc)) ((hp.map Prod.snd).nodup_iff.2 hnd)
  refine ⟨by rw [transferred_data, State.group, h.groups]; rfl, h.blocks, fun c hc k hk => ?_, fun a hout => ?_⟩
  · exact (congrArg (Mem.get · _) hm).trans (inside c (hp.mem_iff.2 hc) k hk)
  · exact (congrArg (Mem.get · _) hm).trans (outside a fun c hc => hout c (hp.mem_iff.1 hc))

include hscl hb in
/-- A store to the scratchpad puts the tile's bytes at the places of its chunks. -/
theorem transferred_store_scratch (hst : x.store = true) (hsp : x.space = .scratch) (hwf : (s.block (s.group gi).block).sp.wf = true)
    (ha : ∀ c ∈ x.chunks, c.2 % 16 = 0) (hnd : (x.chunks.map (·.2)).Nodup) (n : Nat) : let t := transferred s gi n x
    ((t.group gi).tile x.tile).data = ((s.group gi).tile x.tile).data ∧ t.mem = s.mem
    ∧ (∀ c ∈ x.chunks, ∀ k, k < 16 → (t.block (s.group gi).block).sp.get (c.2 + k) = (chunkOut s gi x c)[k]?.getD 0)
    ∧ ∀ a, (∀ c ∈ x.chunks, a < c.2 ∨ c.2 + 16 ≤ a) → (t.block (s.group gi).block).sp.get a = (s.block (s.group gi).block).sp.get a := by
  obtain ⟨n', cs, hp, e⟩ := moveAll_eq s gi x
  obtain ⟨h, hm⟩ := moveChunks_store_scratch (s := { s with draws := n' }) (gi := gi) hst hscl hsp hb cs
  rw [← e] at h hm
  obtain ⟨inside, outside⟩ := get_puts_chunks (addr := Prod.snd) (bytes := chunkOut s gi x) hwf (fun _ => Mem.length_read _ _ _)
    (fun c hc => ha c (hp.mem_iff.1 hc)) ((hp.map Prod.snd).nodup_iff.2 hnd)
  refine ⟨by rw [transferred_data, State.group, h.groups]; rfl, h.mem, fun c hc k hk => ?_, fun a hout => ?_⟩
  · exact (congrArg (Mem.get · _) hm).trans (inside c (hp.mem_iff.2 hc) k hk)
  · exact (congrArg (Mem.get · _) hm).trans (outside a fun c hc => hout c (hp.mem_iff.1 hc))

end

/-- Settles O24: a load by `transferred_load`, a store by `transferred_store_glob` or `transferred_store_scratch`. -/
theorem tileTransfersMoveTheirBytes : Obligations.TileTransfersMoveTheirBytes := by
  intro gi n s x hgi hfind htr hscl ht hb hmem hdata hsp
  obtain ⟨here, outstanding⟩ := moveAll_xfers hgi htr hscl ht hb
  refine ⟨_, exec_tileTransferComplete hfind, by rw [transferred_xfers here, outstanding], fun hst ha hnd => ?_, fun hst ha hnd => ?_⟩
  · obtain ⟨h1, h2, inside, outside⟩ := transferred_load hgi hscl ht hst hdata ha hnd n
    refine ⟨h1, fun b => by rw [State.block, h2]; rfl, fun c hc k hk => ?_, outside⟩
    rw [inside c hc k hk]
    unfold chunkIn
    cases x.space <;> simp [Mem.read_getElem? _ _ _ _ hk]
  · match hx : x.space with
    | .glob =>
      obtain ⟨h1, h2, inside, outside⟩ := transferred_store_glob (gi := gi) htr hscl hst hx hmem ha hnd n
      refine ⟨h1, fun _ => ⟨fun c hc k hk => ?_, outside, fun b => by rw [State.block, h2]; rfl⟩, nofun⟩
      rw [inside c hc k hk, chunkOut, Mem.read_getElem? _ _ _ _ hk]
      rfl
    | .scratch =>
      obtain ⟨h1, h2, inside, outside⟩ := transferred_store_scratch hscl hb hst hx hsp ha hnd n
      refine ⟨h1, nofun, fun _ => ⟨h2, fun c hc k hk => ?_, outside⟩⟩
      rw [inside c hc k hk, chunkOut, Mem.read_getElem? _ _ _ _ hk]
      rfl

end Sys2Proof.Machine
end

section
/-! PROOFS. Matrix operations join the open set; batches are closed, reported and waited for. -/

namespace Sys2Proof.Machine

open Sys2Proof

/-! ### The tiles that an operation names (R189, R194) -/

/-- The operands, the accumulator and, of a sparse operation, the metadata tile. -/
def MatOp.named (o : MatOp) : List Nat := [o.af.toNat % 64, o.bf.toNat % 64, o.dt] ++ (if o.sp then [o.mt] else [])

theorem portFld_tile (x : BitVec 1) (a : BitVec 6) : (portFld x a).toNat % 64 = a.toNat := by
  rw [portFld, BitVec.toNat_append, ← Nat.shiftLeft_add_eq_or_of_lt a.isLt, Nat.shiftLeft_eq]
  have := a.isLt
  omega

/-- An operation that passes the checks of R191 names tiles that its group has. -/
theorem named_lt_of_matFault {g : Group} {o : MatOp} (h : matFault g o = none) : o.named.find? (fun t => decide (g.tiles.length ≤ t)) = none := by
  match hf : o.named.find? fun t => decide (g.tiles.length ≤ t) with
  | none => rfl
  | some t =>
    unfold MatOp.named at hf
    simp only [matFault, hf] at h
    cases h

theorem stampOps_of_unstamped {s : State} {gi : Nat} (ts : List Nat) (h : ∀ t ∈ ts, ((s.group gi).tile t).stamp = none) :
    ts.foldl (fun s t => stampOp s gi t) s = s := by
  induction ts with
  | nil => rfl
  | cons t ts ih =>
    rw [List.foldl_cons, stampOp, stampMod_of_unstamped (h t List.mem_cons_self)]
    exact ih fun u hu => h u (List.mem_cons_of_mem _ hu)

/-! ### The issue of an operation (R191, R194) -/

/-- The operation that an instruction of a fragment puts into the open set. -/
def opOf (i : Iss) (d : BitVec 6) (af bf : BitVec 7) (int z : Bool) (sp : Option (BitVec 1 × BitVec 6)) : MatOp :=
  { seq := i.g.opSeq, dt := d.toNat, af := af, bf := bf, int := int, z := z, sp := sp.isSome, pat := (sp.map fun p => p.1 == 1).getD false,
    mt := (sp.map fun p => p.2.toNat).getD 0, fmt := i.f.fmt }

/-- The group behind the issue. -/
def withOp (s : State) (gi : Nat) (o : MatOp) : State := s.modG gi fun g => { g with ops := g.ops ++ [o], opSeq := g.opSeq + 1, opened := g.opened + 1 }

/-- An operation that passes its checks, on tiles that nothing is owed to, joins the open set when the engine's queue has room. -/
theorem matOp_next {s : State} {g : Bool} {i : Iss} {d : BitVec 6} {af bf : BitVec 7} {int z : Bool} {sp : Option (BitVec 1 × BitVec 6)} {size : Nat}
    (h : CanIssue s g [] [] [] i) (hl : i.lanes ≠ 0) (hf : matFault i.g (opOf i d af bf int z sp) = none) (hu : i.g.tileUsed d.toNat = false)
    (hq : engineQueue s i.g.core < 64)
    (hn : ∀ t ∈ (opOf i d af bf int z sp).named, i.g.tileWritten t = false ∧ (i.g.tile t).owed = none ∧ (i.g.tile t).stamp = none) :
    matOp s g d af bf int z sp size = .next ((withOp s i.gi (opOf i d af bf int z sp)).advance i size true) := by
  have inRange := named_lt_of_matFault hf
  have unwritten : ((opOf i d af bf int z sp).named.find? fun t => i.g.tileWritten t) = none :=
    List.find?_eq_none.2 fun t ht => by simp [(hn t ht).1]
  have unowed : ((opOf i d af bf int z sp).named.find? fun t => t != d.toNat && (i.g.tile t).owed.isSome) = none :=
    List.find?_eq_none.2 fun t ht => by simp [(hn t ht).2.1]
  have dOwed : (i.g.tile d.toNat).owed = none := (hn d.toNat (by simp [MatOp.named, opOf])).2.1
  have unstamped : (opOf i d af bf int z sp).named.eraseDups.foldl (fun s t => stampOp s i.gi t) s = s :=
    stampOps_of_unstamped _ fun t ht => by rw [← h.toIssuing.eq.1]; exact (hn t (List.mem_eraseDups.1 ht)).2.2
  unfold MatOp.named opOf at inRange unwritten unowed unstamped
  unfold opOf at hf
  unfold matOp
  simp only [h.cur, inRange]
  rw [withOperands_next h, once_active hl]
  simp only [hu, unwritten, hf, dOwed, ite_self, unowed, Nat.not_le.2 hq, Bool.false_eq_true, if_false]
  rw [unstamped]
  rfl

/-- The form of MMA, MMI and their sparse forms. -/
theorem matOp_does {mx : Instr} {g : Bool} {d : BitVec 6} {x y : BitVec 1} {a b : BitVec 6} {int z : Bool} {sp : Option (BitVec 1 × BitVec 6)} {size : Nat}
    (hx : ∀ s, exec mx s = matOp s g d (portFld x a) (portFld y b) int z sp size) :
    Does mx g [] [] []
      (fun s i => matFault i.g (opOf i d (portFld x a) (portFld y b) int z sp) = none ∧ i.g.tileUsed d.toNat = false ∧ engineQueue s i.g.core < 64
        ∧ ∀ t ∈ [a.toNat, b.toNat, d.toNat] ++ (match sp with | some p => [p.2.toNat] | none => []),
            i.g.tileWritten t = false ∧ (i.g.tile t).owed = none ∧ (i.g.tile t).stamp = none)
      fun s i => (withOp s i.gi (opOf i d (portFld x a) (portFld y b) int z sp)).advance i size true := by
  rintro s i h hl ⟨hf, hu, hq, hn⟩
  refine (hx s).trans (matOp_next h hl hf hu hq fun t ht => hn t ?_)
  rw [MatOp.named] at ht
  simp only [opOf, portFld_tile] at ht
  cases sp <;> exact ht

/-- Settles O25: the eight operations are `matOp` of two classes, with and without an accumulator, dense and sparse. -/
theorem matrixOperationsIssue : Obligations.MatrixOperationsIssue := by
  refine ⟨?mma, ?mmaZ, ?mmi, ?mmiZ, ?mmas, ?mmasZ, ?mmis, ?mmisZ⟩
  case mma => exact fun _ _ _ _ _ _ => matOp_does fun _ => rfl
  case mmaZ => exact fun _ _ _ _ _ _ => matOp_does fun _ => rfl
  case mmi => exact fun _ _ _ _ _ _ => matOp_does fun _ => rfl
  case mmiZ => exact fun _ _ _ _ _ _ => matOp_does fun _ => rfl
  case mmas => exact fun _ _ _ _ _ _ _ _ => matOp_does fun _ => rfl
  case mmasZ => exact fun _ _ _ _ _ _ _ _ => matOp_does fun _ => rfl
  case mmis => exact fun _ _ _ _ _ _ _ _ => matOp_does fun _ => rfl
  case mmisZ => exact fun _ _ _ _ _ _ _ _ => matOp_does fun _ => rfl

/-! ### Batches (R197, R198, R225) -/

theorem capAt_eq (n lim : Nat) : capAt n lim = if lim < n then lim else n := by
  unfold capAt
  split <;> split <;> omega

/-- The issuing fragment after its group has changed beside registers, predicates and fragments. -/
theorem Issuing.modG {s : State} {g : Bool} {i : Iss} (h : Issuing s g i) {y : Group} (hf : y.frags = i.g.frags) (hp : y.preds = i.g.preds) :
    Issuing (s.modG i.gi fun _ => y) g { i with g := y } := by
  obtain ⟨hg, hfr, hl⟩ := h.eq
  have hcur : s.cur = some (i.gi, i.fi) := by
    have hc := h.cur
    unfold State.issuing at hc
    split at hc
    · cases hc
    · next e => cases hc; exact e
  refine ⟨?_, by simpa using h.gi, by simpa [hf] using h.fi⟩
  have hy : (s.modG i.gi fun _ => y).group i.gi = y := State.modG_self s i.gi _ h.gi
  have hfrag : y.frag i.fi = i.f := by rw [hfr, Group.frag, Group.frag, hf]
  have hlanes : activeLanes y i.f g = i.lanes := by rw [hl, activeLanes, activeLanes, Group.pred, Group.pred, hp]
  simp only [State.issuing, State.modG_cur, hcur, hy, hfrag, hlanes]

theorem exec_wbatch {g : Bool} {a : Fld} {s : State} {i : Iss} (h : CanIssue s g [a.toNat] [] [] i) (hl : i.lanes ≠ 0)
    (hc : (i.reg a.toNat i.lo).truncate 4 ∉ i.g.closed) (he : ∀ e ∈ i.g.batchErr, e.1 ≠ (i.reg a.toNat i.lo).truncate 4) :
    exec (.wbatch g a) s = .next ((acquireFills s i.gi i.fi 2).advance i) := by
  change execWbatch g a s = _
  have unreported : (i.g.batchErr.find? fun e => e.1 == (i.reg a.toNat i.lo).truncate 4) = none := List.find?_eq_none.2 fun e h => by simpa using he e h
  have returned : i.g.closed.contains ((i.reg a.toNat i.lo).truncate 4) = false := by simpa using hc
  rw [execWbatch, withOperands_next h, once_active hl]
  simp only [returned, unreported, Bool.false_eq_true, if_false]

/-- An acquire of `.blk` or wider scope marks its group and its fragment (R208, R245). -/
theorem acquireFills_wide (s : State) (gi fi : Nat) {scope : BitVec 2} (h : scope ≠ 0) : acquireFills s gi fi scope
    = (s.modG gi fun g => { g with acquired := s.fillNo }).modF gi fi fun f => { f with acquired := s.fillNo, caps := [] } := by
  rw [acquireFills, retireFills, if_neg h, State.modF_modF]

/-- Settles O27: a returned batch is acquired, as the change of the group's and then of the fragment's mark of retired fills. -/
theorem matrixBatches : Obligations.MatrixBatches := by
  refine ⟨?mbclose, ?mbstat, ?wbatch⟩
  case mbclose =>
    intro g d s i h hl hc
    change execMbclose g d s = _
    rw [execMbclose, withOperands_next h, once_active hl, if_neg (Nat.not_le.2 hc)]
  case mbstat =>
    intro g d
    refine PutsRegs.congr (reg_puts fun _ => rfl) fun i l => ?_
    rw [capAt_eq]
  case wbatch =>
    intro g a s i h hl b hc he y
    refine ⟨_, exec_wbatch h hl hc he, ?_⟩
    have issuing : Issuing (s.modG i.gi fun _ => y) g { i with g := y } := h.toIssuing.modG rfl rfl
    have acquired : s.modG i.gi (fun g => { g with acquired := s.fillNo }) = s.modG i.gi fun _ => y := State.modG_congr (by rw [← h.toIssuing.eq.1])
    rw [acquireFills_wide _ _ _ (by decide), acquired]
    exact modF_went issuing (fun f => { f with acquired := s.fillNo, caps := [] }) 4

end Sys2Proof.Machine
end

section
/-! PROOFS. A matrix operation completes: what its slices accumulate, and what it leaves. -/

namespace Sys2Proof.Machine

open Sys2Proof

/-! ### The products of a slice (R191, R192) -/

/-- The product at depth k of a row of A and a row of B, unless it is absent or skipped. -/
def MatOp.product (o : MatOp) (a b : Operand) (m n k : Nat) : Option Val :=
  match a.elem m k, b.elem n k with
  | some x, some y => if o.fmt.getLsbD 13 = true ∧ (x.isZero = true ∨ y.isZero = true) then none else some (x.mul y)
  | _, _ => none

/-- The products of a slice in ascending k. -/
def MatOp.products (o : MatOp) (a b : Operand) (m n j : Nat) : List Val :=
  (List.range 32).filterMap fun d => if a.depth ≤ 32 * j + d then none else o.product a b m n (32 * j + d)

/-- Of the first n places, those below a bound are the first so many. -/
theorem filterMap_range_guard {α : Type} (f : Nat → Option α) (lim n : Nat) :
    (List.range n).filterMap (fun d => if lim ≤ d then none else f d) = (List.range (min n lim)).filterMap f := by
  induction n with
  | zero => simp
  | succ n ih =>
    rw [List.range_succ, List.filterMap_append, ih]
    by_cases h : lim ≤ n
    · rw [Nat.min_eq_right h, Nat.min_eq_right (by omega)]
      simp [h]
    · rw [Nat.min_eq_left (by omega), Nat.min_eq_left (by omega), List.range_succ, List.filterMap_append]
      simp only [List.filterMap_cons, if_neg h, List.filterMap_nil]

theorem sliceTerms_eq_products (o : MatOp) (a b : Operand) (m n j : Nat) : sliceTerms a b (o.fmt.getLsbD 13) m n j a.depth = o.products a b m n j := by
  have guard (d : Nat) : (a.depth ≤ 32 * j + d) = (a.depth - 32 * j ≤ d) := propext (by omega)
  have term (k : Nat) : (match a.elem m k, b.elem n k with
      | some x, some y => if o.fmt.getLsbD 13 && (x.isZero || y.isZero) then none else some (x.mul y)
      | _, _ => none) = o.product a b m n k := by
    unfold MatOp.product
    cases a.elem m k <;> cases b.elem n k <;> simp only [Bool.and_eq_true, Bool.or_eq_true]
  have count : (if 32 * j + 32 ≤ a.depth then 32 else a.depth - 32 * j) = min 32 (a.depth - 32 * j) := by
    split <;> omega
  unfold MatOp.products
  simp only [guard]
  rw [filterMap_range_guard (fun d => o.product a b m n (32 * j + d)), ← count]
  exact congrArg (List.filterMap · _) (funext fun d => term (32 * j + d))

/-! ### One slice after another (R191, R193) -/

/-- One slice added to an accumulator. -/
def MatOp.addSlice (o : MatOp) (acc : Nat) (p : List Val) : Nat :=
  if o.int then intSlice acc p else floatSlice (fmtFtz o.fmt) (fmtBits o.fmt 3 0 == 0 || fmtBits o.fmt 7 4 == 0) acc p

theorem element_succ (o : MatOp) (a b : Operand) (d0 : Nat) {j0 j : Nat} (h : j0 ≤ j) (m n : Nat) :
    o.element a b d0 j0 (j + 1) m n = o.addSlice (o.element a b d0 j0 j m n) (o.products a b m n j) := by
  have count : j + 1 - j0 = (j - j0) + 1 := by omega
  have last : j0 + (j - j0) = j := by omega
  simp only [MatOp.element, MatOp.addSlice, count, List.range_succ, List.foldl_append, List.foldl_cons, List.foldl_nil, last, sliceTerms_eq_products]

theorem intSlice_eq_sum (acc : Nat) (p : List Val) : intSlice acc p = ((acc + (p.map valInt).sum : Int) % 2 ^ 32).toNat := by
  rw [intSlice, List.sum_eq_foldl]

/-- The accumulator with one value added, rounded. -/
def addTo (ftz : Bool) (acc : Nat) (v : Val) : Nat := fp32.arith ftz ((fp32.value acc).add v)

/-! ### NaN and infinities in a slice -/

theorem Val.add_nan (v : Val) : v.add .nan = .nan := by cases v <;> rfl

/-- Adding to an infinity leaves it or gives NaN. -/
theorem Val.inf_add (s : Bool) (v : Val) : (Val.inf s).add v = .inf s ∨ (Val.inf s).add v = .nan := by
  cases v with
  | nan => exact .inr rfl
  | inf t => by_cases h : s = t <;> simp [Val.add, h]
  | fin => exact .inl rfl

theorem Val.add_inf (s : Bool) (v : Val) : v.add (.inf s) = .inf s ∨ v.add (.inf s) = .nan := by
  cases v with
  | nan => exact .inr rfl
  | inf t => by_cases h : t = s <;> simp [Val.add, h]
  | fin => exact .inl rfl

section
/-! A sum of values, in an accumulator `α` that shows its value: NaN comes out as `bad`, an infinity stays one. -/
variable {α : Type} {value : α → Val} {f : α → Val → α} {bad : α} (hbad : value bad = .nan)
  (hnan : ∀ a v, (value a).add v = .nan → f a v = bad) (hinf : ∀ a v s, (value a).add v = .inf s → value (f a v) = .inf s)

include hbad hnan in
theorem foldl_bad (p : List Val) : p.foldl f bad = bad := by
  induction p with
  | nil => rfl
  | cons v p ih => rw [List.foldl_cons, hnan _ _ (by rw [hbad]; rfl), ih]

include hbad hnan in
theorem foldl_of_nan_acc {a : α} (ha : value a = .nan) {p : List Val} (hp : p ≠ []) : p.foldl f a = bad := by
  cases p with
  | nil => exact absurd rfl hp
  | cons v p => rw [List.foldl_cons, hnan _ _ (by rw [ha]; rfl), foldl_bad hbad hnan]

include hbad hnan in
theorem foldl_of_nan_mem (a : α) {p : List Val} (hp : .nan ∈ p) : p.foldl f a = bad := by
  induction p generalizing a with
  | nil => cases hp
  | cons v p ih =>
    rw [List.foldl_cons]
    rcases List.mem_cons.1 hp with rfl | hp
    · rw [hnan _ _ (Val.add_nan _), foldl_bad hbad hnan]
    · exact ih _ hp

include hbad hnan hinf in
/-- An infinity in the accumulator meets the other one. -/
theorem foldl_of_inf_acc {a : α} {s : Bool} (ha : value a = .inf s) {p : List Val} (hp : .inf (!s) ∈ p) : p.foldl f a = bad := by
  induction p generalizing a with
  | nil => cases hp
  | cons v p ih =>
    rw [List.foldl_cons]
    rcases List.mem_cons.1 hp with rfl | hp
    · rw [hnan _ _ (by rw [ha]; cases s <;> rfl), foldl_bad hbad hnan]
    · rcases Val.inf_add s v with h | h
      · exact ih (hinf _ _ _ (by rw [ha, h])) hp
      · rw [hnan _ _ (by rw [ha, h]), foldl_bad hbad hnan]

include hbad hnan hinf in
theorem foldl_of_both_infs (a : α) {p : List Val} (h0 : .inf false ∈ p) (h1 : .inf true ∈ p) : p.foldl f a = bad := by
  induction p generalizing a with
  | nil => cases h0
  | cons v p ih =>
    have meets {s : Bool} (hv : v = .inf s) (hp : .inf (!s) ∈ p) : p.foldl f (f a v) = bad := by
      rcases Val.add_inf s (value a) with h | h
      · exact foldl_of_inf_acc hbad hnan hinf (hinf _ _ _ (by rw [hv, h])) hp
      · rw [hnan _ _ (by rw [hv, h]), foldl_bad hbad hnan]
    rw [List.foldl_cons]
    rcases List.mem_cons.1 h0 with e0 | h0
    · rcases List.mem_cons.1 h1 with e1 | h1
      · rw [← e0] at e1; cases e1
      · exact meets e0.symm h1
    · rcases List.mem_cons.1 h1 with e1 | h1
      · exact meets e1.symm h0
      · exact ih _ h0 h1

end

theorem value_nanBits : fp32.value fp32.nanBits = .nan := by decide

theorem value_inf (s : Bool) : fp32.value (fp32.join s fp32.infMag) = .inf s := by cases s <;> decide

/-- NaN and infinities pass through the rounding of an accumulator. -/
theorem addTo_nan {ftz : Bool} {acc : Nat} {v : Val} (h : (fp32.value acc).add v = .nan) : addTo ftz acc v = fp32.nanBits := by
  rw [addTo, h]
  rfl

theorem value_addTo_inf {ftz : Bool} {acc : Nat} {v : Val} {s : Bool} (h : (fp32.value acc).add v = .inf s) : fp32.value (addTo ftz acc v) = .inf s := by
  rw [addTo, h]
  exact value_inf s

/-- Is the sum of a slice NaN: a NaN, or infinities of both signs? -/
def nanSlice (p : List Val) : Prop := .nan ∈ p ∨ (.inf false ∈ p ∧ .inf true ∈ p)

/-- The exact sum of a NaN slice is NaN. -/
theorem sum_of_nanSlice {x : Val} {xs : List Val} (h : nanSlice (x :: xs)) : xs.foldl Val.add x = .nan := by
  have keeps (a v : Val) (h : a.add v = .nan) : a.add v = .nan := h
  have inf (a v : Val) (s : Bool) (h : a.add v = .inf s) : a.add v = .inf s := h
  rcases h with hn | ⟨h0, h1⟩
  · rcases List.mem_cons.1 hn with rfl | hn
    · exact foldl_bad (value := id) rfl keeps xs
    · exact foldl_of_nan_mem (value := id) rfl keeps x hn
  · rcases List.mem_cons.1 h0 with rfl | h0'
    · exact foldl_of_inf_acc (value := id) (s := false) rfl keeps inf rfl (by simpa using h1)
    · rcases List.mem_cons.1 h1 with rfl | h1'
      · exact foldl_of_inf_acc (value := id) (s := true) rfl keeps inf rfl h0'
      · exact foldl_of_both_infs (value := id) rfl keeps inf x h0' h1'

/-- A NaN slice, or a slice that meets a NaN accumulator, gives the canonical NaN. -/
theorem floatSlice_nan {ftz each : Bool} {acc : Nat} {p : List Val} (h : nanSlice p ∨ (p ≠ [] ∧ fp32.value acc = .nan)) :
    floatSlice ftz each acc p = fp32.nanBits := by
  cases p with
  | nil => simp [nanSlice] at h
  | cons x xs =>
    cases each
    case true =>
      change (x :: xs).foldl (addTo ftz) acc = _
      rcases h with (hn | ⟨h0, h1⟩) | ⟨hne, ha⟩
      · exact foldl_of_nan_mem value_nanBits (fun _ _ => addTo_nan) acc hn
      · exact foldl_of_both_infs value_nanBits (fun _ _ => addTo_nan) (fun _ _ _ => value_addTo_inf) acc h0 h1
      · exact foldl_of_nan_acc value_nanBits (fun _ _ => addTo_nan) ha hne
    case false =>
      change addTo ftz acc (fp32.value (fp32.arith ftz (xs.foldl Val.add x))) = _
      rcases h with hs | ⟨-, ha⟩
      · rw [sum_of_nanSlice hs]
        exact addTo_nan ((congrArg _ value_nanBits).trans (Val.add_nan _))
      · exact addTo_nan (by rw [ha]; rfl)

/-! ### The accumulator tile (R191) -/

theorem le_of_bytes {m : Mem} {a n v : Nat} (h : ∀ k, k < n → m.get (a + k) = (leBytes n v)[k]?.getD 0) : m.le a n = v % 256 ^ n := by
  induction n generalizing a v with
  | zero => simp [Mem.le, Mem.read, leNat, Nat.mod_one]
  | succ n ih =>
    have rest : m.le (a + 1) n = v / 256 % 256 ^ n := ih fun k hk => by
      have := h (k + 1) (by omega)
      rwa [leBytes, List.getElem?_cons_succ, Nat.add_comm k, ← Nat.add_assoc] at this
    have first : (m.get a).toNat = v % 256 := by
      rw [show m.get a = BitVec.ofNat 8 v from h 0 (by omega)]
      rfl
    calc m.le a (n + 1) = (m.get a).toNat + 256 * m.le (a + 1) n := rfl
      _ = v % 256 + 256 * (v / 256 % 256 ^ n) := by rw [first, rest]
      _ = v % 256 ^ (n + 1) := by rw [Nat.pow_succ', Nat.mod_mul]

/-- The words of a matrix of `rows` by `cols`, one row after another. -/
def wordPieces (rows cols : Nat) (v : Nat → Nat → Nat) : List (Nat × List Byte) :=
  (List.range rows).flatMap fun m => (List.range cols).map fun n => (4 * (m * cols + n), leBytes 4 (v m n))

theorem foldl_write_eq_wordPieces (rows cols : Nat) (v : Nat → Nat → Nat) (mem : Mem) :
    (List.range rows).foldl (fun mem m => (List.range cols).foldl (fun mem n => mem.write (4 * (m * cols + n)) (leBytes 4 (v m n))) mem) mem
      = mem.puts (wordPieces rows cols v) := by
  simp only [Mem.puts, wordPieces, List.foldl_flatMap, List.foldl_map]

theorem mem_wordPieces {rows cols : Nat} {v : Nat → Nat → Nat} {w : Nat × List Byte} :
    w ∈ wordPieces rows cols v ↔ ∃ m n, m < rows ∧ n < cols ∧ w = (4 * (m * cols + n), leBytes 4 (v m n)) := by
  simp only [wordPieces, List.mem_flatMap, List.mem_map, List.mem_range]
  constructor
  · rintro ⟨m, hm, n, hn, rfl⟩
    exact ⟨m, n, hm, hn, rfl⟩
  · rintro ⟨m, n, hm, hn, rfl⟩
    exact ⟨m, hm, n, hn, rfl⟩

/-- A place in a matrix tells its row and its column. -/
theorem place_inj {cols m n m' n' : Nat} (hn : n < cols) (hn' : n' < cols) (h : m * cols + n = m' * cols + n') : m = m' ∧ n = n' := by
  have row {a b : Nat} (hb : b < cols) : (a * cols + b) / cols = a := by
    rw [Nat.mul_comm, Nat.mul_add_div (by omega), Nat.div_eq_of_lt hb, Nat.add_zero]
  have hm : m = m' := by rw [← row (a := m) hn, h, row hn']
  subst hm
  exact ⟨rfl, by omega⟩

/-- Each word of a matrix that has been written is read back. -/
theorem le_puts_wordPieces {mem : Mem} {rows cols : Nat} {v : Nat → Nat → Nat} (hwf : mem.wf = true) {m n : Nat} (hm : m < rows) (hn : n < cols) :
    (mem.puts (wordPieces rows cols v)).le (4 * (m * cols + n)) 4 = v m n % 2 ^ 32 := by
  refine (le_of_bytes (v := v m n) fun k hk => ?_).trans rfl
  refine Mem.get_puts_of_covered hwf ⟨_, mem_wordPieces.2 ⟨m, n, hm, hn, rfl⟩, ?_⟩ fun w hw hc => ?_
  · rw [covers_iff, length_leBytes]
    dsimp only
    omega
  · obtain ⟨m', n', -, hn', rfl⟩ := mem_wordPieces.1 hw
    rw [covers_iff, length_leBytes] at hc
    obtain ⟨rfl, rfl⟩ := place_inj (m := m) (m' := m') hn hn' (by dsimp only at hc; omega)
    dsimp only
    rw [Nat.add_sub_cancel_left]

/-! ### The completion (R197) -/

/-- A change of a group's tiles that leaves their data. -/
structure KeepsData (f : List Tile → List Tile) : Prop where
  length : ∀ ts, (f ts).length = ts.length
  data : ∀ ts (k : Nat), ((f ts)[k]?.getD ({} : Tile)).data = (ts[k]?.getD ({} : Tile)).data

theorem stampDone_eq (s : State) (gi t : Nat) : ∃ f : Tile → Tile, (∀ x, (f x).data = x.data) ∧ stampDone s gi t = s.modTile gi t f := by
  refine ⟨_, ?_, rfl⟩
  intro _
  rfl

theorem stampDones_eq (s : State) (gi : Nat) (ts : List Nat) :
    ∃ f, KeepsData f ∧ ts.foldl (fun s t => stampDone s gi t) s = s.modG gi fun g => { g with tiles := f g.tiles } := by
  induction ts generalizing s with
  | nil => exact ⟨id, ⟨fun _ => rfl, fun _ _ => rfl⟩, (State.modG_id s gi).symm⟩
  | cons t ts ih =>
    obtain ⟨f, hf, e⟩ := ih (stampDone s gi t)
    obtain ⟨u, hu, one⟩ := stampDone_eq s gi t
    refine ⟨fun xs => f (modAt xs t u), ⟨fun xs => ?_, fun xs k => ?_⟩, by rw [List.foldl_cons, e, one, State.modTile, State.modG_modG]⟩
    · rw [hf.length, length_modAt]
    · rw [hf.data, getElem?_modAt]
      split
      case isTrue => cases xs[k]? <;> simp [hu]
      case isFalse => rfl

/-- The group behind the completion of its oldest operation, which met no tile error; `tiles` are its tiles with their stamps taken. -/
def opCompleted (g : Group) (tiles : List Tile) (o : MatOp) (rest : List MatOp) (data : Mem) : Group :=
  { g with
    tiles := modAt tiles o.dt fun t => { t with data := data, resume := false, resumeRec := 0, owed := t.owed },
    ops := rest, closed := settleBatches g.closed rest, matDone := g.matDone + 1, batchErr := g.batchErr, openErr := g.openErr }

/-- The oldest operation of a group completes as a change of the group alone. -/
theorem exec_matrixOpComplete {s : State} {gi : Nat} {o : MatOp} {rest : List MatOp} (hs : (s.group gi).matStopped = false)
    (ho : (s.group gi).ops = o :: rest) (hb : o.badTile (s.group gi) = none) : ∃ f, KeepsData f ∧
      exec (.matrixOpComplete gi) s
        = .next (s.modG gi fun g => opCompleted g (f g.tiles) o rest (o.run (s.group gi) (o.slices (s.group gi)))) := by
  obtain ⟨f, hf, e⟩ := stampDones_eq s gi o.named.eraseDups
  refine ⟨f, hf, ?_⟩
  change execMatrixOpComplete gi s = _
  unfold MatOp.named at e
  simp only [execMatrixOpComplete, hs, ho, hb, e, State.modTile, State.modG_modG, Bool.false_eq_true, if_false]
  rfl

theorem run_eq_puts (o : MatOp) (g : Group) (upTo : Nat) : o.run g upTo = (g.tile o.dt).data.puts (wordPieces (o.operands g).1.outer (o.operands g).2.outer
    fun m n => o.element (o.operands g).1 (o.operands g).2 ((g.tile o.dt).data.le (4 * (m * (o.operands g).2.outer + n)) 4) o.nextj upTo m n) :=
  foldl_write_eq_wordPieces _ _ (fun m n => o.element (o.operands g).1 (o.operands g).2
    ((g.tile o.dt).data.le (4 * (m * (o.operands g).2.outer + n)) 4) o.nextj upTo m n) _

/-- The tiles' data behind a completion: that of the accumulator is new, every other is as before. -/
theorem opCompleted_data {g : Group} {f : List Tile → List Tile} (hf : KeepsData f) {o : MatOp} (ht : o.dt < g.tiles.length) (rest : List MatOp) (data : Mem)
    (k : Nat) : ((opCompleted g (f g.tiles) o rest data).tile k).data = if k = o.dt then data else (g.tile k).data := by
  simp only [opCompleted, Group.tile, getElem?_modAt]
  split
  case isTrue hk =>
    subst hk
    rw [List.getElem?_eq_getElem (by rwa [hf.length])]
    rfl
  case isFalse => exact hf.data _ k

/-- Settles O26: a slice by `element_succ` and `floatSlice_nan`, the completion by `exec_matrixOpComplete` and `le_puts_wordPieces`. -/
theorem matrixOperationsComplete : Obligations.MatrixOperationsComplete := by
  refine ⟨?start, ?slice, ?special, ?completes⟩
  case start =>
    intro o a b d0 m n
    rfl
  case slice =>
    intro o a b d0 j0 j m n hj acc p
    have hp : o.products a b m n j = p := rfl
    refine (element_succ o a b d0 hj m n).trans ?_
    rw [MatOp.addSlice, hp, intSlice_eq_sum]
    by_cases hint : o.int = true
    · rw [if_pos hint, if_pos hint]
    · rw [if_neg hint, if_neg hint]
      clear_value p
      cases p with
      | nil => rfl
      | cons x xs =>
        simp only [floatSlice, Bool.or_eq_true, beq_iff_eq]
        rfl
  case special =>
    intro o a b d0 j0 j m n hj hint p hp
    rw [element_succ o a b d0 hj, MatOp.addSlice, if_neg (by rw [hint]; decide)]
    refine (floatSlice_nan ?_).trans rfl
    rcases hp with hn | h01 | ⟨hne, ha⟩
    · exact .inl (.inl hn)
    · exact .inl (.inr h01)
    · exact .inr ⟨hne, ha⟩
  case completes =>
    intro gi s o rest hgi hs ho hb ht hwf g ab
    obtain ⟨f, hf, e⟩ := exec_matrixOpComplete hs ho hb
    refine ⟨_, e, ?_⟩
    rw [State.modG_self _ _ _ hgi]
    refine ⟨fun m n hm hn => ?_, fun k hk => ?_, rfl, rfl, rfl, rfl, fun k hk => ?_, rfl⟩
    · rw [opCompleted_data hf ht, if_pos rfl, run_eq_puts, le_puts_wordPieces hwf hm hn]
    · rw [opCompleted_data hf ht, if_neg hk]
    · rw [State.modG_groups, if_neg hk]

end Sys2Proof.Machine
end

section
/-! PROOFS. The caches at the end of a step: the eviction keeps each within its capacity, and nothing behind it fills one. -/

namespace Sys2Proof.Machine

open Sys2Proof

/-! ### The eviction (R205, R420) -/

/-- Of each core no more copies are kept than what its capacity leaves beside those kept before. -/
theorem length_filter_keepNewest {α : Type} (core : α → Nat) (cap : Nat → Nat) (c : Nat) (xs seen : List α) :
    ((keepNewest core cap xs seen).filter fun x => core x == c).length ≤ cap c - (seen.filter fun x => core x == c).length := by
  induction xs generalizing seen with
  | nil => exact Nat.zero_le _
  | cons x xs ih =>
    rw [keepNewest]
    split
    case isFalse => exact ih seen
    case isTrue room =>
      have kept := ih (x :: seen)
      by_cases hc : core x = c
      · subst hc
        simp only [List.filter_cons, beq_self_eq_true, if_true, List.length_cons] at kept ⊢
        omega
      · simpa only [List.filter_cons, beq_iff_eq, hc, if_false] using kept

/-- What a cache keeps of each core has room in it. -/
theorem length_filter_keepNewest_nil {α : Type} (core : α → Nat) (cap : Nat → Nat) (c : Nat) (xs : List α) :
    ((keepNewest core cap xs []).filter fun x => core x == c).length ≤ cap c := length_filter_keepNewest core cap c xs []

theorem evictAll_withinCapacity (s : State) : WithinCapacity (evictAll s) where
  tlb core := length_filter_keepNewest_nil (·.core) (fun _ => tlbCap) core s.tlb
  tlb2 cluster := length_filter_keepNewest_nil (·.core) (fun _ => tlb2Cap) cluster s.tlb2
  l1 core := by
    have kept : ((evictAll s).l1.filter fun x => x.core == core).length ≤ l1Cap s core := length_filter_keepNewest_nil (fun x : L1Line => x.core) (l1Cap s) core _
    calc 64 * ((evictAll s).l1.filter fun x => x.core == core).length ≤ 64 * l1Cap s core := Nat.mul_le_mul_left 64 kept
      _ ≤ 655360 - s.split[core]?.getD 0 := Nat.mul_div_le _ 64
  icache core := Nat.mul_le_mul_left 64 (length_filter_keepNewest_nil (·.core) (fun _ => iCap) core s.icache)

/-! ### Behind the eviction no cache changes -/

/-- What the caches hold, and the splits that bound the L1s. -/
def State.caches (s : State) : List TlbEntry × List TlbEntry × List L1Line × List ILine × List Nat := (s.tlb, s.tlb2, s.l1, s.icache, s.split)

theorem WithinCapacity.of_caches {s t : State} (h : WithinCapacity s) (e : t.caches = s.caches) : WithinCapacity t := by
  simp only [State.caches, Prod.mk.injEq] at e
  obtain ⟨htlb, htlb2, hl1, hicache, hsplit⟩ := e
  exact ⟨htlb ▸ h.tlb, htlb2 ▸ h.tlb2, hl1 ▸ hsplit ▸ h.l1, hicache ▸ h.icache⟩

theorem State.packet_caches (s : State) (cl : Nat) (p : Packet) : (s.packet cl p).caches = s.caches := by
  unfold State.packet State.chooseOf
  dsimp only
  repeat' split
  all_goals rfl

theorem State.trace_caches (s : State) (gi ty low : Nat) (bs : List Byte) : (s.trace gi ty low bs).caches = s.caches := by
  unfold State.trace
  dsimp only
  split
  · rfl
  · exact State.packet_caches ..

theorem State.traceFrag_caches (s : State) (gi fi ty : Nat) (bs : List Byte) : (s.traceFrag gi fi ty bs).caches = s.caches := by
  refine (State.trace_caches ..).trans ?_
  unfold State.flushCond
  dsimp only
  split
  · rfl
  · exact State.trace_caches ..

theorem tellStop_caches (s : State) (bi : Nat) : (tellStop s bi).caches = s.caches := by
  unfold tellStop
  split
  · rfl
  · dsimp only
    split
    · rfl
    · split
      · exact State.traceFrag_caches ..
      · rfl

theorem endCycle_caches (s : State) (cl : Nat) : (endCycle s cl).caches = s.caches := by
  refine foldl_keeps State.caches (List.range s.blocks.length) s fun s bi => ?_
  repeat' split
  case h_1.isTrue => exact tellStop_caches s bi
  all_goals rfl

theorem passTime_caches (s : State) (dt : Nat) : (passTime s dt).caches = s.caches := by
  have ended : ((endingCycles s dt).foldl endCycle s).caches = s.caches := foldl_keeps State.caches (endingCycles s dt) s endCycle_caches
  unfold passTime
  dsimp only
  split
  · exact ended
  · exact ended

theorem State.caches_mem (s : State) (m : Mem) : ({ s with mem := m } : State).caches = s.caches := rfl

theorem State.writeMem_caches (s : State) (pa : Nat) (bs : List Byte) : (s.writeMem pa bs).caches = s.caches := by
  simp only [State.caches, State.writeMem_tlb, State.writeMem_tlb2, State.writeMem_l1, State.writeMem_icache, State.writeMem_split]

theorem syncKill_caches (s : State) (pasid pa len : Nat) : (syncKill s pasid pa len).caches = s.caches := by
  unfold syncKill
  split
  · exact State.caches_mem ..
  · rfl

theorem resetLine_caches (s : State) (pasid pa : Nat) (clears : Bool) : (resetLine s pasid pa clears).caches = s.caches := by
  unfold resetLine
  dsimp only
  split
  · exact (State.caches_mem ..).trans (syncKill_caches ..)
  · exact syncKill_caches ..

theorem State.outsideWrite_caches (s : State) (pa : Nat) (bs : List Byte) : (s.outsideWrite pa bs).caches = s.caches := by
  refine (State.writeMem_caches ..).trans (foldl_keeps State.caches s.ctxs s fun s c => ?_)
  split
  · rfl
  · exact foldl_keeps State.caches _ s fun s k => resetLine_caches ..

theorem deviceEvent_caches (s : State) (vec : Nat) : (deviceEvent s vec).caches = s.caches := rfl

theorem enterBoot_caches (s : State) (b : Boot) (err : Nat) : (enterBoot s b err).caches = s.caches := deviceEvent_caches ..

theorem fatalDump_caches (s : State) : (fatalDump s).caches = s.caches := by
  unfold fatalDump
  split
  · rfl
  · refine (deviceEvent_caches ..).trans ((enterBoot_caches ..).trans ?_)
    split
    · rfl
    · exact State.outsideWrite_caches ..

theorem orHold_caches {s t : State} (h : t.caches = s.caches) : (orHold s t).caches = s.caches := by
  unfold orHold
  split
  · exact h
  · rfl

theorem serveDump_caches (s : State) : (serveDump s).caches = s.caches := by
  unfold serveDump
  split
  · exact orHold_caches (fatalDump_caches s)
  · rfl

/-- The end of a step leaves the caches as the eviction, the last of what comes about in it, has left them. -/
theorem finish_caches (s t : State) : (finish s t).caches = (settle t).caches := by
  refine Eq.trans ?_ (serveDump_caches (settle t))
  unfold finish
  generalize serveDump (settle t) = u
  dsimp only
  split
  · rfl
  · split
    · rfl
    · exact passTime_caches ..

theorem settle_withinCapacity (s : State) : WithinCapacity (settle s) := by
  unfold settle
  exact evictAll_withinCapacity _

/-- Settles O57: a step ends by `finish`, which evicts what is beyond a capacity and fills no cache behind that. -/
theorem cachesStayWithinCapacity : Obligations.CachesStayWithinCapacity := by
  intro s t h
  obtain ⟨v, hv⟩ := step_next_finish h
  rw [hv]
  exact (settle_withinCapacity v).of_caches (finish_caches s v)

end Sys2Proof.Machine
end

section
/-! PROOFS. Cache control (R219 to R222): the copies that the caches hold change, and no value of memory. -/

namespace Sys2Proof.Machine

open Sys2Proof

/-! ### Prefetches (R219) -/

/-- `t` is `s` but for the lines that L2 and the L1s hold. -/
def Cached (s t : State) : Prop := ∃ l1 l2 fills, t = { s with l1 := l1, l2 := l2, fillNo := fills }

theorem Cached.refl (s : State) : Cached s s := ⟨_, _, _, rfl⟩

theorem Cached.trans {s t u : State} : Cached s t → Cached t u → Cached s u := by
  rintro ⟨_, _, _, rfl⟩ ⟨_, _, _, rfl⟩
  exact ⟨_, _, _, rfl⟩

theorem touchL2_cached (s : State) (pasid cls : Nat) (store : Bool) (pa : Nat) : Cached s (touchL2 s pasid cls store pa) := by
  obtain ⟨l2, e⟩ := touchL2_eq s pasid cls store pa
  exact ⟨_, l2, _, e⟩

theorem fillL1_cached (s : State) (core line : Nat) (stream : Bool) : Cached s (fillL1 s core line stream) := ⟨_, _, _, rfl⟩

/-- One page of a prefetch: its line comes into L2, and under `l1` into the L1. -/
def prefetchLine (i : Iss) (l1 : Bool) (s : State) (p : Nat × Xlate) : State :=
  if !p.2.r then s
  else
    let s := touchL2 s (s.pasidOf i.g) (if p.2.cpol = 2 then 1 else 0) false (p.1 * 64)
    if l1 && p.2.cpol != 1 && localPa (p.1 * 64) && !s.badAt (p.1 * 64) 64 then fillL1 s i.g.core p.1 else s

theorem prefetch_next {s : State} {g : Bool} {a : BitVec 6} {i : Iss} (h : CanIssue s g (pairOf a) [] [] i) (l1 : Bool) (o : Fld) :
    prefetch s g l1 a o = .next (((lanePages s i a (64 * o.toInt)).foldl (prefetchLine i l1) s).advance i) := withOperands_next h _

theorem prefetchLine_cached (i : Iss) (l1 : Bool) (s : State) (p : Nat × Xlate) : Cached s (prefetchLine i l1 s p) := by
  unfold prefetchLine
  by_cases hr : p.2.r = true
  · have touched := touchL2_cached s (s.pasidOf i.g) (if p.2.cpol = 2 then 1 else 0) false (p.1 * 64)
    simp only [hr, Bool.not_true, Bool.false_eq_true, if_false]
    generalize touchL2 s (s.pasidOf i.g) (if p.2.cpol = 2 then 1 else 0) false (p.1 * 64) = u at touched ⊢
    split
    · exact touched.trans (fillL1_cached ..)
    · exact touched
  · simp only [hr, Bool.not_false, if_true]
    exact .refl s

/-- Without `l1` no L1 is filled. -/
theorem prefetchLine_l2 (i : Iss) (s : State) (p : Nat × Xlate) : ∃ l2, prefetchLine i false s p = { s with l2 := l2 } := by
  unfold prefetchLine
  split
  · exact ⟨_, rfl⟩
  · exact touchL2_eq ..

theorem prefetchLines_cached (i : Iss) (l1 : Bool) (s : State) (ps : List (Nat × Xlate)) : Cached s (ps.foldl (prefetchLine i l1) s) :=
  List.foldlRecOn ps (prefetchLine i l1) (motive := Cached s) (.refl s) fun _ hu p _ => hu.trans (prefetchLine_cached i l1 _ p)

theorem prefetchLines_l2 (i : Iss) (s : State) (ps : List (Nat × Xlate)) : ∃ l2, ps.foldl (prefetchLine i false) s = { s with l2 := l2 } := by
  refine List.foldlRecOn ps (prefetchLine i false) (motive := fun u => ∃ l2, u = { s with l2 := l2 }) ⟨s.l2, rfl⟩ fun _ hu p _ => ?_
  obtain ⟨_, rfl⟩ := hu
  exact prefetchLine_l2 ..

/-! ### Lines dropped (R221) -/

/-- `t` is `s` but for some lines of a core that its L1 holds no more, and for the order in which L2 gives up its lines. -/
def Dropped (s : State) (core : Nat) (lines : List Nat) (t : State) : Prop :=
  ∃ l1 l2, t = { s with l1 := l1, l2 := l2 } ∧ (∀ x ∈ l1, x ∈ s.l1 ∧ (x.core = core → x.line ∉ lines)) ∧ l2.map (·.line) = s.l2.map (·.line)

theorem Dropped.trans {s t u : State} {core : Nat} {xs ys : List Nat} : Dropped s core xs t → Dropped t core ys u → Dropped s core (xs ++ ys) u := by
  rintro ⟨l1, l2, rfl, h1, h2⟩ ⟨l1', l2', rfl, h1', h2'⟩
  refine ⟨l1', l2', rfl, fun x hx => ?_, h2'.trans h2⟩
  obtain ⟨hmem, hy⟩ := h1' x hx
  obtain ⟨hmem, hx⟩ := h1 x hmem
  exact ⟨hmem, fun hc hxy => (List.mem_append.1 hxy).elim (hx hc) (hy hc)⟩

theorem dropL1_dropped (s : State) (core line : Nat) : Dropped s core [line] (dropL1 s core (line * 64) 64) := by
  refine ⟨_, _, rfl, fun x hx => ?_, rfl⟩
  obtain ⟨hmem, apart⟩ := List.mem_filter.1 hx
  refine ⟨hmem, fun hc hl => ?_⟩
  rw [hc, List.mem_singleton.1 hl] at apart
  simp at apart

theorem evictFirst_dropped (s : State) (core line : Nat) : Dropped s core [] (evictFirst s line) := by
  refine ⟨_, _, rfl, fun x hx => ⟨hx, fun _ => List.not_mem_nil⟩, ?_⟩
  rw [List.map_map]
  refine List.map_congr_left fun x _ => ?_
  simp only [Function.comp]
  split <;> rfl

theorem foldl_dropped {upd : State → Nat × Xlate → State} {core : Nat} (one : ∀ s p, Dropped s core [p.1] (upd s p)) (ps : List (Nat × Xlate)) (s : State) :
    Dropped s core (ps.map (·.1)) (ps.foldl upd s) := by
  induction ps generalizing s with
  | nil => exact ⟨_, _, rfl, fun x hx => ⟨hx, fun _ => List.not_mem_nil⟩, rfl⟩
  | cons p ps ih => exact (one s p).trans (ih _)

/-- The line of an active lane's address that translates is among the lanes' lines. -/
theorem mem_lanePages {s : State} {i : Iss} {a : BitVec 6} {off : Int} {l : Nat} {y : Xlate} (hl : i.lanes.has l = true)
    (h52 : (gEa a off i l).toNat < 2 ^ 52) (hy : xlate s i.g.core (s.pasidOf i.g) (gEa a off i l).toNat = .ok y) :
    (y.page + (gEa a off i l).toNat % 4096) / 64 ∈ (lanePages s i a off).map (·.1) := by
  refine List.mem_map.2 ⟨(_, y), List.mem_filterMap.2 ⟨l, (Mask.mem_lanes ..).2 hl, ?_⟩, rfl⟩
  simp only [Nat.not_le.2 h52, if_false, hy]

/-! ### The partition of L2 (R222) -/

/-- Ways that no context but one has pinned meet no mask of a living one. -/
theorem and_pinnedElse {s : State} {pasid : Nat} {v : BitVec 16} (h : ∀ c ∈ s.ctxs, c.alive = true → c.pasid ≠ pasid → v &&& c.pinWays = 0) :
    v &&& pinnedElse s pasid = 0 := by
  unfold pinnedElse
  refine List.foldlRecOn s.ctxs _ (motive := fun m => v &&& m = 0) (BitVec.and_zero ..) fun m hm c hc => ?_
  split
  case isFalse => exact hm
  case isTrue other =>
    simp only [Bool.and_eq_true, bne_iff_ne] at other
    rw [BitVec.and_or_distrib_left, hm, h c hc other.1 other.2]
    exact BitVec.or_zero ..

/-- An instruction whose right is given goes on to its operands (R61, R88). -/
theorem withRight_granted {s : State} {g : Bool} {i : Iss} {ok : Iss → Bool} (h : Issuing s g i) (hok : ok i = true) (detail : Word) (k : Res) :
    withRight s g ok detail k = k := by
  unfold withRight
  rw [h.cur]
  exact if_pos hok

theorem Iss.system_of_handler {i : Iss} (h : i.f.handler = some .system) : i.system = true := by
  unfold Iss.system
  rw [h]
  rfl

/-! ### Paths with room (R51) -/

theorem pathFull_eq_false {i : Iss} {p : Path} (h : i.g.count p < 63) : pathFull i p = false := decide_eq_false (Nat.not_le.2 h)

theorem icinvCores_eq (s : State) (i : Iss) (sc : BitVec 2) :
    icinvCores s i sc.toNat = if sc = 0 then [i.g.core] else if sc = 1 then (s.blockOf i.g).cores else List.range 64 := by
  match sc with
  | 0 => rfl
  | 1 => rfl
  | 2 => rfl
  | 3 => rfl

/-- An instruction that drops the lines of its lanes leaves none of them in its core's L1. -/
theorem drops_next {x : Instr} {g : Bool} {a : BitVec 6} {s : State} {i : Iss} {upd : Iss → State → Nat × Xlate → State}
    (h : CanIssue s g (pairOf a) [] [] i) (one : ∀ s p, Dropped s i.g.core [p.1] (upd i s p))
    (hx : exec x s = withOperands s g (pairOf a) [] [] fun i => ((lanePages s i a 0).foldl (upd i) s).advance i) :
    ∃ l1 l2, exec x s = .next (({ s with l1 := l1, l2 := l2 } : State).advance i) ∧ (∀ x ∈ l1, x ∈ s.l1) ∧ l2.map (·.line) = s.l2.map (·.line)
      ∧ ∀ x ∈ l1, ∀ l, i.lanes.has l = true → (gEa a 0 i l).toNat < 2 ^ 52 → x.core = i.g.core →
        ¬ ∃ y, xlate s i.g.core (s.pasidOf i.g) (gEa a 0 i l).toNat = .ok y ∧ x.line = (y.page + (gEa a 0 i l).toNat % 4096) / 64 := by
  obtain ⟨l1, l2, e, kept, lines⟩ := foldl_dropped one (lanePages s i a 0) s
  refine ⟨l1, l2, ?_, fun x hx => (kept x hx).1, lines, fun x hx l hl h52 hc hy => ?_⟩
  · rw [hx, withOperands_next h, e]
  · obtain ⟨y, hy, hline⟩ := hy
    exact (kept x hx).2 hc (hline ▸ mem_lanePages hl h52 hy)

/-- Settles O33: prefetches by `prefetchLines_cached` and `prefetchLines_l2`, `l1inv` and `evict` by `drops_next`, the others by their one effect. -/
theorem cacheControl : Obligations.CacheControl := by
  refine ⟨?pf, ?pf2, ?l1inv, ?evict, ?l1invAll, ?icinv, ?l2part⟩
  case pf =>
    intro g a o s i h
    obtain ⟨l1, l2, fills, e⟩ := prefetchLines_cached i true s (lanePages s i a (64 * o.toInt))
    exact ⟨l1, l2, fills, (prefetch_next h true o).trans (by rw [e])⟩
  case pf2 =>
    intro g a o s i h
    obtain ⟨l2, e⟩ := prefetchLines_l2 i s (lanePages s i a (64 * o.toInt))
    exact ⟨l2, (prefetch_next h false o).trans (by rw [e])⟩
  case l1inv => exact fun g a s i h => drops_next (upd := fun i s p => dropL1 s i.g.core (p.1 * 64) 64) h (fun s p => dropL1_dropped s i.g.core p.1) rfl
  case evict =>
    exact fun g a s i h => drops_next (upd := fun i s p => evictFirst (dropL1 s i.g.core (p.1 * 64) 64) p.1) h
      (fun s p => (dropL1_dropped s i.g.core p.1).trans (evictFirst_dropped _ _ p.1)) rfl
  case l1invAll =>
    intro g s i h hl _
    change execL1invAll g s = _
    rw [execL1invAll, withOperands_next h, once_active hl]
  case icinv =>
    intro g a sc s i h hl room
    change execIcinv g a sc s = _
    rw [execIcinv, withOperands_next h, once_active hl]
    simp only [pathFull_eq_false room, icinvCores_eq, Bool.false_eq_true, if_false]
    rfl
  case l2part =>
    intro g d a s i h hl ⟨hsys, h16, hpin⟩
    change execL2part g d a s = _
    rw [execL2part, withRight_granted h.toIssuing (Iss.system_of_handler hsys), withOperands_next h, once_active hl]
    simp only [Nat.not_le.2 h16, and_pinnedElse hpin, bne_self_eq_false, Bool.false_eq_true, if_false]

end Sys2Proof.Machine
end

section
/-! PROOFS. Waits whose condition holds and the race instructions (R223 to R229, R258 to R263). -/

namespace Sys2Proof.Machine

open Sys2Proof

/-! ### Paths (R51, R224) -/

theorem pathOf_eq (p : BitVec 2) : pathOf p.toNat = if p = 0 then .gm else if p = 1 then .sp else if p = 2 then .at else .cf := by
  match p with
  | 0 => rfl
  | 1 => rfl
  | 2 => rfl
  | 3 => rfl

/-- An acquire of `.grp` scope marks its fragment (R208, R238). -/
theorem acquireFills_grp (s : State) (gi fi : Nat) : acquireFills s gi fi 0
    = s.modF gi fi fun f => { f with acquired := if f.acquired ≤ (s.group gi).acquired then (s.group gi).acquired else f.acquired, caps := [] } := by
  rw [acquireFills, retireFills, if_pos rfl, State.modF_modF]

theorem exec_wpath {g : Bool} {a : Fld} {p : BitVec 2} {s : State} {i : Iss} (h : CanIssue s g [a.toNat] [] [] i) (hl : i.lanes ≠ 0)
    (hlow : i.g.count (pathOf p.toNat) ≤ (i.reg a.toNat i.lo).toNat) (h63 : i.g.count (pathOf p.toNat) ≤ 63) :
    exec (.wpath g a p) s = .next ((acquireFills s i.gi i.fi 0).advance i) := by
  change execWpath g a p s = _
  have low : i.g.count (pathOf p.toNat) ≤ if (i.reg a.toNat i.lo).toNat < 63 then (i.reg a.toNat i.lo).toNat else 63 := by
    split
    · exact hlow
    · exact h63
  rw [execWpath, withOperands_next h, once_active hl]
  simp only [low, if_true]

/-! ### A wait that acquires (R226, R228, R240) -/

/-- A group's predicates are its eight masks. -/
theorem preds_ext {g y : Group} (h : ∀ p l, p < 8 → l < 16 → (g.pred p).has l = (y.pred p).has l) : g.preds = y.preds := by
  refine Vector.ext fun p hp => ?_
  have same : g.pred p = y.pred p := Mask.ext fun l hl => h p l hp hl
  simpa only [Group.pred, Vector.getElem?_eq_getElem hp, Option.getD_some] using same

/-- A group that has learned and consumed: its futures, its vector and the fills that it has retired are new. -/
def learned (g : Group) (futures : List Future) (know : KVec) (acquired : Nat) : Group := { g with futures := futures, know := know, acquired := acquired }

/-- What a wait leaves that goes on: its group has learned, d is written, and the fragment is one instruction on. -/
structure WaitOver (s t : State) (i : Iss) (futures : List Future) (know : KVec) (d : Nat) (w : Word) : Prop where
  futures : (t.group i.gi).futures = futures
  know : (t.group i.gi).know = know
  regs : ∀ p l, p < i.N → l < 16 → (t.group i.gi).lane p l = i.after d (fun _ => [w]) p l
  pc : ((t.group i.gi).frag i.fi).pc = i.f.pc + 4
  preds : (t.group i.gi).preds = i.g.preds
  others : ∀ k, k ≠ i.gi → t.groups[k]? = s.groups[k]?
  mem : t.mem = s.mem
  trees : t.trees = s.trees

theorem waitOver {s : State} {g : Bool} {i : Iss} (h : Issuing s g i) (futures : List Future) (know : KVec) (acquired : Nat) (u : Frag → Frag) (d : Nat)
    (w : Word) :
    WaitOver s ((((s.modG i.gi fun _ => learned i.g futures know acquired).modF i.gi i.fi u).putReg i d fun _ => w).advance i) i futures know d w := by
  have went := modF_putReg_went (h.modG (y := learned i.g futures know acquired) rfl rfl) u d (fun _ => w) 4
  obtain ⟨regs, preds, poison, frags, skid, e⟩ := went.group
  refine ⟨(congrArg Group.futures e).trans rfl, (congrArg Group.know e).trans rfl, went.regs, went.at_, preds_ext went.preds, fun k hk => ?_,
    (congrArg State.mem went.rest).trans rfl, (congrArg State.trees went.rest).trans rfl⟩
  exact (went.others k hk).trans (by rw [State.modG_groups, if_neg hk])

/-! ### Futures (R226, R227) -/

theorem futSeen_of_unclaimed {i : Iss} {k : Nat} (h : claimed i k = false) : futSeen i k = (i.g.fut k).st := by
  simp only [futSeen, h, Bool.and_false, Bool.false_eq_true, if_false]

theorem futSeen_of_pending {i : Iss} {k : Nat} (h : (i.g.fut k).st = .pending) : futSeen i k = .pending := by
  simp only [futSeen, h, bne_self_eq_false, Bool.false_and, Bool.false_eq_true, if_false]

theorem voidBit_eq (i : Iss) (k : Nat) : voidBit i k = if (i.g.fut k).st = .void then 1 else 0 := by
  simp only [voidBit, beq_iff_eq]

theorem deliver_of_no_err {s t : State} {i : Iss} {k : Nat} (h : (i.g.fut k).err = none) : deliver s i k t = t := by
  simp only [deliver, h]

theorem State.modF_id (s : State) (gi fi : Nat) : (s.modF gi fi fun f => f) = s := by
  unfold State.modF
  simp only [modAt_id]
  exact State.modG_id s gi

/-- A future consumed is FREE, and the group has learned what released it. -/
theorem consume_eq {s : State} {g : Bool} {i : Iss} (h : Issuing s g i) (k : Nat) : ∃ acquired u,
    consume s i k = (s.modG i.gi fun _ => learned i.g (setAt i.g.futures k {}) ((i.g.fut k).vecs.foldl KVec.merge i.g.know) acquired).modF i.gi i.fi u := by
  unfold consume
  dsimp only
  split
  · refine ⟨s.fillNo, fun f => { f with acquired := s.fillNo, caps := [] }, ?_⟩
    rw [acquireFills_wide _ _ _ (by decide), State.modG_modG]
    exact congrArg (fun v : State => v.modF i.gi i.fi _) (State.modG_congr (by rw [← h.eq.1]; rfl))
  · refine ⟨i.g.acquired, fun f => f, ?_⟩
    rw [State.modF_id]
    exact State.modG_congr (by rw [← h.eq.1]; rfl)

theorem consume_waitOver {s : State} {g : Bool} {i : Iss} (h : Issuing s g i) (k d : Nat) (w : Word) :
    WaitOver s (((consume s i k).putReg i d fun _ => w).advance i) i (setAt i.g.futures k {}) ((i.g.fut k).vecs.foldl KVec.merge i.g.know) d w := by
  obtain ⟨acquired, u, e⟩ := consume_eq h k
  rw [e]
  exact waitOver h _ _ acquired u d w

theorem exec_wfut_done {g : Bool} {d : Fld} {k : BitVec 5} {s : State} {i : Iss} (h : CanIssue s g [] [d.toNat] [] i) (hl : i.lanes ≠ 0)
    (hc : claimed i k.toNat = false) (hd : (i.g.fut k.toNat).st = .ready ∨ (i.g.fut k.toNat).st = .void) (he : (i.g.fut k.toNat).err = none) :
    exec (.wfut g d k) s = .next (((consume s i k.toNat).putReg i d.toNat fun _ => BitVec.ofNat 32 (voidBit i k.toNat)).advance i) := by
  change execWfut g d k s = _
  rw [execWfut, withOperands_next h, once_active hl]
  obtain hd | hd := hd <;> simp only [futSeen_of_unclaimed hc, hd, deliver_of_no_err he]

theorem exec_fpoll_done {g : Bool} {d : Fld} {k : BitVec 5} {s : State} {i : Iss} (h : CanIssue s g [] [d.toNat] [] i) (hl : i.lanes ≠ 0)
    (hc : claimed i k.toNat = false) (hd : (i.g.fut k.toNat).st = .ready ∨ (i.g.fut k.toNat).st = .void) (he : (i.g.fut k.toNat).err = none) :
    exec (.fpoll g d k) s = .next (((consume s i k.toNat).putReg i d.toNat fun _ => BitVec.ofNat 32 (voidBit i k.toNat)).advance i) := by
  change execFpoll g d k s = _
  rw [execFpoll, withOperands_next h, once_active hl]
  obtain hd | hd := hd <;> simp only [futSeen_of_unclaimed hc, hd, deliver_of_no_err he]

/-- The lowest future of a mask that has left PENDING. -/
theorem lowestDone_eq {g : Group} {m : Word} {k : Nat} (hk : k < 32) (hm : m.getLsbD k = true) (hd : (g.fut k).st = .ready ∨ (g.fut k).st = .void)
    (hlow : ∀ j, j < k → m.getLsbD j = true → (g.fut j).st = .pending) : lowestDone g m = some k := by
  refine List.find?_range_eq_some.2 ⟨?_, List.mem_range.2 hk, fun j hj => ?_⟩
  · simpa [hm] using hd
  · by_cases hb : m.getLsbD j = true
    · simp [hlow j hj hb]
    · simp [hb]

theorem exec_wany_done {g : Bool} {d a : Fld} {s : State} {i : Iss} {k : Nat} (h : CanIssue s g [a.toNat] [d.toNat] [] i) (hl : i.lanes ≠ 0) (hk : k < 32)
    (hm : (i.reg a.toNat i.lo).getLsbD k = true) (hlow : ∀ j, j < k → (i.reg a.toNat i.lo).getLsbD j = true → (i.g.fut j).st = .pending)
    (hd : (i.g.fut k).st = .ready ∨ (i.g.fut k).st = .void) (he : (i.g.fut k).err = none)
    (hall : ∀ j, j < 32 → (i.reg a.toNat i.lo).getLsbD j = true → claimed i j = false ∧ (i.g.fut j).st ≠ .free) :
    exec (.wany g d a) s = .next (((consume s i k).putReg i d.toNat fun _ => BitVec.ofNat 32 (k + 256 * voidBit i k)).advance i) := by
  have named : i.reg a.toNat i.lo ≠ 0 := fun h0 => by simp [h0] at hm
  have unfree : ((List.range 32).any fun j => (i.reg a.toNat i.lo).getLsbD j && futSeen i j == .free) = false := by
    refine List.any_eq_false.2 fun j hj hfree => ?_
    simp only [Bool.and_eq_true, beq_iff_eq] at hfree
    obtain ⟨unclaimed, taken⟩ := hall j (List.mem_range.1 hj) hfree.1
    exact taken (futSeen_of_unclaimed unclaimed ▸ hfree.2)
  change execWany g d a s = _
  rw [execWany, withOperands_next h, once_active hl]
  simp only [named, unfree, lowestDone_eq hk hm hd hlow, deliver_of_no_err he, Bool.false_eq_true, if_false]

/-! ### Subtrees (R228) -/

theorem treeReturn_waitOver {s : State} {g : Bool} {i : Iss} (h : Issuing s g i) (d : Fld) (cancelled : Bool) (know : KVec) :
    WaitOver s (treeReturn s i d cancelled know) i i.g.futures (i.g.know.merge know) d.toNat (if cancelled then 1 else 0) := by
  have acquired : acquireFills (mergeG s i.gi know) i.gi i.fi 2
      = (s.modG i.gi fun _ => learned i.g i.g.futures (i.g.know.merge know) s.fillNo).modF i.gi i.fi
          fun f => { f with acquired := s.fillNo, caps := [] } := by
    rw [acquireFills_wide _ _ _ (by decide), mergeG, State.modG_modG]
    exact congrArg (fun v : State => v.modF i.gi i.fi _) (State.modG_congr (by rw [← h.eq.1]; rfl))
  rw [treeReturn, acquired]
  exact waitOver h ..

theorem exec_wtree_ended {g : Bool} {d a : Fld} {s : State} {i : Iss} (h : CanIssue s g [a.toNat] [d.toNat] [] i) (hl : i.lanes ≠ 0)
    (hs : i.f.stall = none) (hn : s.treeNamed (s.pasidOf i.g) (i.reg a.toNat i.lo) = true) (he : (s.tree (hIndex (i.reg a.toNat i.lo))).ended = true) :
    exec (.wtree g d a) s = .next (treeReturn s i d ((s.tree (hIndex (i.reg a.toNat i.lo))).st == .cancelled) (s.tree (hIndex (i.reg a.toNat i.lo))).know) := by
  change execWtree g d a s = _
  rw [execWtree, withOperands_next h, once_active hl]
  simp only [hs, hn, he, Bool.not_true, Bool.false_eq_true, if_false]

/-! ### Nothing on its way (R245, R263) -/

theorem owesAccess_of_quiet {s : State} {i : Iss} (h : Quiet s i) : owesAccess s i = false := by
  simp only [owesAccess, h.1, h.2, List.isEmpty_nil, Bool.not_true, Bool.or_self]

theorem raceModeOf_eq {m : BitVec 2} (h : m ≠ 3) : raceModeOf m.toNat = if m = 0 then .off else if m = 1 then .trap else .report := by
  match m with
  | 0 => rfl
  | 1 => rfl
  | 2 => rfl
  | 3 => exact absurd rfl h

/-- An instruction that consumes a future and writes d has taken what the future held, and has changed nothing else. -/
theorem takes_of_exec {s : State} {x : Instr} {g : Bool} {i : Iss} {d k v : Nat} (h : Issuing s g i)
    (hx : exec x s = .next (((consume s i k).putReg i d fun _ => BitVec.ofNat 32 v).advance i)) :
    ∃ t, exec x s = .next t ∧ (t.group i.gi).futures = setAt i.g.futures k {} ∧ (t.group i.gi).know = (i.g.fut k).vecs.foldl KVec.merge i.g.know
      ∧ (∀ p l, p < i.N → l < 16 → (t.group i.gi).lane p l = i.after d (fun _ => [BitVec.ofNat 32 v]) p l) ∧ ((t.group i.gi).frag i.fi).pc = i.f.pc + 4
      ∧ (t.group i.gi).preds = i.g.preds ∧ t.mem = s.mem ∧ ∀ k, k ≠ i.gi → t.groups[k]? = s.groups[k]? := by
  have w := consume_waitOver h k d (BitVec.ofNat 32 v)
  exact ⟨_, hx, w.futures, w.know, w.regs, w.pc, w.preds, w.mem, w.others⟩

/-- Settles O34: a wait on a future goes on by `takes_of_exec`, one on a subtree by `treeReturn_waitOver`, the others by their one effect. -/
theorem waitsAndRaceInstructions : Obligations.WaitsAndRaceInstructions := by
  refine ⟨?wpath, ?taken, ?polled, ?wany, ?wtree, ?rtick, ?rmode, ?rnext, ?rclr⟩
  case wpath =>
    intro g a p s i h hl path hlow h63
    have hp : pathOf p.toNat = path := pathOf_eq p
    refine ⟨_, exec_wpath h hl (hp ▸ hlow) (hp ▸ h63), ?_⟩
    rw [acquireFills_grp, ← h.toIssuing.eq.1]
    exact modF_went h.toIssuing _ 4
  case taken =>
    intro g d k s i h hl hc ⟨hd, he⟩
    exact ⟨takes_of_exec h.toIssuing (by rw [exec_wfut_done h hl hc hd he, voidBit_eq]),
      takes_of_exec h.toIssuing (by rw [exec_fpoll_done h hl hc hd he, voidBit_eq])⟩
  case polled =>
    intro g d k s i h hl hp
    change execFpoll g d k s = _
    rw [execFpoll, withOperands_next h, once_active hl]
    simp only [futSeen_of_pending hp]
  case wany =>
    intro g d a s i k h hl m hk hm hlow ⟨hd, he⟩ hall
    exact takes_of_exec h.toIssuing (by rw [exec_wany_done h hl hk hm hlow hd he hall, voidBit_eq])
  case wtree =>
    intro g d a s i h hl hs t hn he
    have w := treeReturn_waitOver h.toIssuing d ((s.tree (hIndex t)).st == .cancelled) (s.tree (hIndex t)).know
    simp only [beq_iff_eq] at w
    exact ⟨_, exec_wtree_ended h hl hs hn he, w.know, w.pc, w.regs, w.trees, w.mem⟩
  case rtick =>
    intro g s i h hl _
    change execRtick g s = _
    rw [execRtick, withOperands_next h, once_active hl]
    rfl
  case rmode =>
    intro g m hm s i h hl granted
    have right : (i.system || (s.ctxOf i.g).raceGrant.getLsbD m.toNat) = true := by
      obtain hsys | hgrant := granted
      · rw [Iss.system_of_handler hsys, Bool.true_or]
      · rw [hgrant, Bool.or_true]
    change execRmode g m s = _
    rw [execRmode, withRight_granted h.toIssuing right, withOperands_next h, once_active hl, raceModeOf_eq hm]
  case rnext =>
    intro g d s i h hl room
    change execRnext g d s = _
    rw [execRnext, withOperands_next h, once_active hl, pathFull_eq_false room, if_neg Bool.false_ne_true]
    rfl
  case rclr =>
    intro g a b s i h hl ⟨room, quiet⟩
    change execRclr g a b s = _
    rw [execRclr, withOperands_next h, once_active hl, pathFull_eq_false room, owesAccess_of_quiet quiet, if_neg Bool.false_ne_true,
      if_neg Bool.false_ne_true]
    rfl

end Sys2Proof.Machine
end

section
/-! PROOFS. Memory accesses whose lanes pass their checks, and stores (R211 to R215, R218): the words, the places and the bytes of a store's lanes. -/

namespace Sys2Proof.Machine

open Sys2Proof

/-! ### Accesses that pass their checks (R211, R214) -/

/-- The checks of the lanes `ls`, each at its address. -/
def laneChks (s : State) (i : Iss) (m : MemForm) (ls : List Nat) (ea : Nat → Int) : List LaneChk := ls.map fun l => checkLane s i m l (ea l)

section
variable {s : State} {i : Iss} {m : MemForm} {ls : List Nat} {ea : Nat → Int} {place : Nat → Nat} (hr : ∀ l ∈ ls, Reaches s i m (ea l) (place l))
include hr

theorem laneChks_good : ∀ c ∈ laneChks s i m ls ea, c.good = true := List.forall_mem_map.2 fun l hl => (checkLane_of_reaches (hr l hl) l).1

theorem laneChks_untracked : ∀ c ∈ laneChks s i m ls ea, c.tracked s i = false := List.forall_mem_map.2 fun l hl => (checkLane_of_reaches (hr l hl) l).2.2

theorem goodBytes_laneChks (n : Nat) : goodBytes (laneChks s i m ls ea) n = ls.map fun l => (place l, n) := by
  rw [goodBytes_of_good (laneChks_good hr), laneChks, List.map_map]
  exact List.map_congr_left fun l hl => by simp [(checkLane_of_reaches (hr l hl) l).2.1]

end

theorem badLanes_of_good {cs : List LaneChk} (h : ∀ c ∈ cs, c.good = true) : badLanes cs = 0 := by
  refine List.foldlRecOn cs _ (motive := fun m => m = 0) rfl fun m hm c hc => ?_
  rw [if_pos (h c hc), hm]

theorem recordAll_nil (s : State) (i : Iss) (space : Space) : recordAll s i space [] = s := by
  unfold recordAll
  cases space <;> rfl

/-- No access to tracked bytes races. -/
theorem withRaces_nil (s : State) (i : Iss) (space : Space) (k : State → State) : withRaces s i space [] k = k s := by
  unfold withRaces racesOf
  split
  · rfl
  · exact congrArg k (recordAll_nil s i space)

/-- An access whose lanes all pass their checks on untracked bytes, with no transfer before it, has its effect and goes on. -/
theorem memAccess_good {s : State} {i : Iss} {m : MemForm} {cs : List LaneChk} (hx : i.g.xfersOf i.f = []) (hg : ∀ c ∈ cs, c.good = true)
    (ht : ∀ c ∈ cs, c.tracked s i = false) (cls scope : Nat) (whole : Bool) (size : Nat) (effect : State → State) :
    memAccess s i m cs cls scope whole size effect = (effect (touch s i cs)).advance i size m.write := by
  have unclashed : xferClash i m.space m.write cs m.size = false := by simp [xferClash, hx]
  have untracked : cs.filter (fun c => c.tracked s i) = [] := List.filter_eq_nil_iff.2 fun c hc => by simp [ht c hc]
  unfold memAccess
  simp only [unclashed, untracked, badLanes_of_good hg, List.isEmpty_nil, Bool.not_true, gated_untracked, List.map_nil, withRaces_nil, ne_eq,
    not_true_eq_false, false_and, Bool.false_eq_true, if_false, if_true]

/-- An access to scratchpad translates nothing. -/
theorem touch_scratch {s : State} {i : Iss} {m : MemForm} (hm : m.space = .scratch) (ls : List Nat) (ea : Nat → Int) :
    touch s i (laneChks s i m ls ea) = s := by
  have none_cached : ((laneChks s i m ls ea).filterMap fun c => if c.xl.isSome then some c.va else none) = [] := by
    refine List.filterMap_eq_nil_iff.2 (List.forall_mem_map.2 fun l _ => ?_)
    unfold checkLane
    simp only [hm]
    repeat' split
    all_goals simp_all [LaneChk.xl]
  unfold touch
  rw [none_cached]
  rfl

theorem Mask.lanes_ne_nil {m : Mask} (h : m ≠ 0) : m.lanes ≠ [] := by
  intro hn
  refine h ((Mask.eq_zero_iff m).2 fun l => Bool.eq_false_iff.2 fun hl => ?_)
  have := (Mask.mem_lanes m l).2 hl
  rw [hn] at this
  cases this

/-! ### One lane of a store (R211, R212, R218) -/

/-- The update that a store carries for a lane. -/
def storedAcc (i : Iss) (m : MemForm) (z d pol lcls l : Nat) (ea : Int) (pa : Nat) : LaneAcc :=
  { pol := pol, lcls := lcls, lane := l, va := (m.byteOf ea).toNat, pa := pa, size := stSize z, op := if stSub z = 2 then .st2 else .st4,
    plain := stSub z = 0, val := BitVec.ofNat 128 (runNat i d (stCount z) l), cmp := BitVec.ofInt 128 (ea % 2 ^ stSub z) }

/-- The cache policy and the L2 class of a lane's access (R218). -/
def polAt (s : State) (i : Iss) (m : MemForm) (ea : Nat → Int) (l : Nat) : Nat := polOf m.pol (checkLane s i m l (ea l))
def clsAt (s : State) (i : Iss) (m : MemForm) (ea : Nat → Int) (l : Nat) : Nat := clsOf m.lcls (checkLane s i m l (ea l))

theorem storeAcc_of_reaches {s v : State} {i : Iss} {m : MemForm} {ea : Nat → Int} {l pa : Nat} (h : Reaches s i m (ea l) pa)
    (hv : ∀ c, LaneChk.tracked v i c = LaneChk.tracked s i c) (z d : Nat) :
    storeAcc v i m z d (checkLane s i m l (ea l)) = storedAcc i m z d (polAt s i m ea l) (clsAt s i m ea l) l (ea l) pa := by
  obtain ⟨-, hpa, htr⟩ := checkLane_of_reaches h l
  rw [storeAcc, hv, htr, hpa]
  rfl

/-! ### A store whose lanes all reach their places -/

/-- What a store does with its lanes' updates: one to scratchpad performs, a global one leaves the core. -/
def storeEffect (s : State) (i : Iss) (space : Space) (acc : List LaneAcc) : State :=
  match space with
  | .scratch => (acc.foldl (fun s x => spStoreLane s i x) s).owe i .sp []
  | .glob => issueStore s (mkStore s i acc .plain 2 false i.f.relVec)

section
variable {s : State} {g : Bool} {i : Iss} {z pol lcls size d : Nat} {areg : List Nat} {ea : Iss → Nat → Int} {place : Nat → Nat}

theorem storeOp_good {space : Space} (h : CanIssue s g (areg ++ runOf d (stCount z)) [] [] i) (hl : i.lanes ≠ 0) (hx : i.g.xfersOf i.f = [])
    (room : space = .scratch → i.g.count .sp < 63) (hr : ∀ l ∈ i.lanes.lanes, Reaches s i (stForm space z pol lcls) (ea i l) (place l)) :
    storeOp s g space z pol lcls size d areg ea = .next ((storeEffect (touch s i (laneChks s i (stForm space z pol lcls) i.lanes.lanes (ea i))) i space
      (i.lanes.lanes.map fun l => storedAcc i (stForm space z pol lcls) z d (polAt s i (stForm space z pol lcls) (ea i) l)
        (clsAt s i (stForm space z pol lcls) (ea i) l) l (ea i l) (place l))).advance i size true) := by
  have good := laneChks_good hr
  have kept : (i.lanes.lanes.map fun l => checkLane s i (stForm space z pol lcls) l (ea i l)).filter (·.good)
      = laneChks s i (stForm space z pol lcls) i.lanes.lanes (ea i) := List.filter_eq_self.2 good
  have unfilled : ¬(space = .scratch ∧ pathFull i .sp = true) := fun hf => by simp [pathFull_eq_false (room hf.1)] at hf
  have tracked (c : LaneChk) : c.tracked (touch s i (laneChks s i (stForm space z pol lcls) i.lanes.lanes (ea i))) i = c.tracked s i := by
    obtain ⟨tlb, tlb2, walks, cached⟩ := touch_eq s i (laneChks s i (stForm space z pol lcls) i.lanes.lanes (ea i))
    rw [cached]
    rfl
  have accs := List.map_congr_left fun l hl => storeAcc_of_reaches (hr l hl) tracked z d
  rw [storeOp, withOperands_next h, once_active hl]
  simp only [unfilled, if_false]
  refine congrArg Host.Outcome.next ((memAccess_good hx good (laneChks_untracked hr) ..).trans ?_)
  rw [kept, laneChks, List.map_map]
  cases space
  · exact congrArg (fun acc => (storeEffect _ i .glob acc).advance i size true) accs
  · exact congrArg (fun acc => (storeEffect _ i .scratch acc).advance i size true) accs

/-! ### Global stores (R94, R211) -/

/-- A global store leaves the core with an update for each active lane; memory is as before. -/
theorem storeOp_glob (h : CanIssue s g (areg ++ runOf d (stCount z)) [] [] i) (hl : i.lanes ≠ 0) (hx : i.g.xfersOf i.f = [])
    (hr : ∀ l, i.lanes.has l = true → Reaches s i (stForm .glob z pol lcls) (ea i l) (place l)) :
    ∃ tlb tlb2 walks, ∃ pol' lcls' : Nat → Nat, storeOp s g .glob z pol lcls size d areg ea = .next (({ s with
      tlb := tlb, tlb2 := tlb2, walks := walks,
      unperf := s.unperf ++ [mkStore s i (i.lanes.lanes.map fun l => storedAcc i (stForm .glob z pol lcls) z d (pol' l) (lcls' l) l (ea i l) (place l))
        .plain 2 false i.f.relVec] } : State).advance i size true) := by
  obtain ⟨tlb, tlb2, walks, cached⟩ := touch_eq s i (laneChks s i (stForm .glob z pol lcls) i.lanes.lanes (ea i))
  refine ⟨tlb, tlb2, walks, polAt s i (stForm .glob z pol lcls) (ea i), clsAt s i (stForm .glob z pol lcls) (ea i),
    (storeOp_good (space := .glob) h hl hx (nofun) fun l hl => hr l ((Mask.mem_lanes ..).1 hl)).trans ?_⟩
  rw [cached, storeEffect, issueStore, if_neg (by simpa [mkStore] using Mask.lanes_ne_nil hl)]
  rfl

end

/-! ### Stores to scratchpad (R212) -/

/-- The bytes of a block's scratchpad changed. -/
def withSp (s : State) (bi : Nat) (f : Mem → Mem) : State := s.modB bi fun b => { b with sp := f b.sp }

theorem State.modB_congr {s : State} {bi : Nat} {f h : Block → Block} (e : f (s.block bi) = h (s.block bi)) : s.modB bi f = s.modB bi h := by
  unfold State.modB
  rw [modAt_congr]
  intro x hx
  rwa [State.block, hx] at e

theorem withSp_id (s : State) (bi : Nat) : withSp s bi (fun m => m) = s := by
  unfold withSp State.modB
  simp only [modAt_id]

theorem withSp_withSp (s : State) (bi : Nat) (f h : Mem → Mem) : withSp (withSp s bi f) bi h = withSp s bi fun m => h (f m) := by
  unfold withSp State.modB
  simp only [modAt_modAt]

/-- A change of its bytes leaves the marks of a scratchpad. -/
theorem withSp_spBad (s : State) (bi k : Nat) (f : Mem → Mem) : ((withSp s bi f).block k).spBad = (s.block k).spBad := by
  simp only [withSp, State.block, State.modB, getElem?_modAt]
  split
  · cases s.blocks[k]? <;> rfl
  · rfl

/-- The bytes of scratchpad behind one update. -/
def accPut (m : Mem) (x : LaneAcc) : Mem :=
  m.write x.pa (leBytes x.size (if x.plain then x.val.toNat else atomApply x.op (m.le x.pa x.size) x.val.toNat x.cmp.toNat))

theorem Block.spPut_of_unmarked {b : Block} (h : b.spBad = []) (o : Nat) (bs : List Byte) : b.spPut o bs = { b with sp := b.sp.write o bs } := by
  unfold Block.spPut
  rw [h]
  rfl

theorem spStoreLane_eq {s : State} {i : Iss} (h : (s.block i.g.block).spBad = []) (x : LaneAcc) :
    spStoreLane s i x = withSp s i.g.block fun m => accPut m x := by
  refine State.modB_congr ?_
  simp only [accPut, Block.spPut_of_unmarked h, h, List.contains_nil, Bool.false_eq_true, if_false]
  split <;> rfl

theorem spStoreLanes_eq {s : State} {i : Iss} (h : (s.block i.g.block).spBad = []) (xs : List LaneAcc) :
    xs.foldl (fun s x => spStoreLane s i x) s = withSp s i.g.block fun m => xs.foldl accPut m := by
  induction xs generalizing s with
  | nil => exact (withSp_id ..).symm
  | cons x xs ih => rw [List.foldl_cons, spStoreLane_eq h, ih ((withSp_spBad ..).trans h), withSp_withSp]; rfl

/-- The low n bytes of a value are those of its remainder (R3). -/
theorem leBytes_mod {n k : Nat} (h : n ≤ k) (v : Nat) : leBytes n (v % 256 ^ k) = leBytes n v := by
  refine List.ext_getElem? fun j => ?_
  by_cases hj : j < n
  · rw [leBytes_getElem? _ _ _ hj, leBytes_getElem? _ _ _ hj]
    have split : 256 ^ k = 256 ^ j * 256 ^ (k - j) := by rw [← Nat.pow_add]; congr 1; omega
    have byte : 2 ^ 8 ∣ 256 ^ (k - j) := Nat.pow_dvd_pow 256 (m := 1) (by omega)
    refine congrArg some (BitVec.eq_of_toNat_eq ?_)
    rw [BitVec.toNat_ofNat, BitVec.toNat_ofNat, split, Nat.mod_mul_right_div_self, Nat.mod_mod_of_dvd _ byte]
  · rw [List.getElem?_eq_none (by simpa using hj), List.getElem?_eq_none (by simpa using hj)]

theorem stSize_le (z : Nat) : stSize z ≤ 16 := by
  unfold stSize
  split <;> decide

/-- A store code is of whole bytes, or of elements of four or of two bits. -/
theorem stSub_cases (z : Nat) : stSub z = 0 ∨ (stSub z = 1 ∧ stSize z = 1) ∨ (stSub z = 2 ∧ stSize z = 1) := by
  unfold stSub
  split
  · exact .inr (.inl ⟨rfl, rfl⟩)
  · exact .inr (.inr ⟨rfl, rfl⟩)
  · exact .inl rfl

/-- The bytes of scratchpad behind one lane of a store: those of its words, or the byte with its one element replaced. -/
def putLane (i : Iss) (z d : Nat) (ea : Nat → Int) (place : Nat → Nat) (m : Mem) (l : Nat) : Mem :=
  let v := runNat i d (stCount z) l
  let b := m.le (place l) 1
  let w := if stSub z = 1 then 16 else 4
  let k := (ea l % 2 ^ stSub z).toNat
  m.write (place l) (leBytes (stSize z) (if stSub z = 0 then v else b - b / w ^ k % w * w ^ k + v % w * w ^ k))

/-- An index of an element within its byte. -/
theorem toNat_ofInt_index {n : Nat} (h : n ≤ 2) (ea : Int) : (BitVec.ofInt 128 (ea % 2 ^ n)).toNat = (ea % 2 ^ n).toNat := by
  have pos : (0 : Int) < 2 ^ n := Int.pow_pos (by decide)
  have low : 0 ≤ ea % 2 ^ n := Int.emod_nonneg ea (Int.ne_of_gt pos)
  have high : ea % 2 ^ n < 2 ^ n := Int.emod_lt_of_pos ea pos
  have cap : (2 : Int) ^ n ≤ 4 := by exact_mod_cast Nat.pow_le_pow_right (by decide : 0 < 2) h
  rw [BitVec.toNat_ofInt, Int.emod_eq_of_lt low (by omega)]

theorem accPut_storedAcc (i : Iss) (f : MemForm) (z d pol lcls : Nat) (ea : Nat → Int) (place : Nat → Nat) (m : Mem) (l : Nat) :
    accPut m (storedAcc i f z d pol lcls l (ea l) (place l)) = putLane i z d ea place m l := by
  have value : (BitVec.ofNat 128 (runNat i d (stCount z) l)).toNat = runNat i d (stCount z) l % 256 ^ 16 := BitVec.toNat_ofNat ..
  unfold accPut putLane storedAcc
  obtain whole | ⟨sub, size⟩ | ⟨sub, size⟩ := stSub_cases z
  · simp only [whole, decide_true, if_true, value, leBytes_mod (stSize_le z)]
  · have index := toNat_ofInt_index (n := 1) (by decide) (ea l)
    have element : runNat i d (stCount z) l % 256 ^ 16 % 16 = runNat i d (stCount z) l % 16 := Nat.mod_mod_of_dvd _ (by decide)
    simp only [sub, size, index, value, atomApply, element]
    rfl
  · have index := toNat_ofInt_index (n := 2) (by decide) (ea l)
    have element : runNat i d (stCount z) l % 256 ^ 16 % 4 = runNat i d (stCount z) l % 4 := Nat.mod_mod_of_dvd _ (by decide)
    simp only [sub, size, index, value, atomApply, element]
    rfl

/-- A store to scratchpad writes its lanes' bytes one after another. -/
theorem storeOp_scratch {s : State} {g : Bool} {i : Iss} {z size d : Nat} {areg : List Nat} {ea : Iss → Nat → Int} {place : Nat → Nat}
    (h : CanIssue s g (areg ++ runOf d (stCount z)) [] [] i) (hl : i.lanes ≠ 0) (hx : i.g.xfersOf i.f = []) (room : i.g.count .sp < 63)
    (hr : ∀ l, i.lanes.has l = true → Reaches s i (stForm .scratch z 0 0) (ea i l) (place l)) :
    storeOp s g .scratch z 0 0 size d areg ea = .next (((withSp s i.g.block fun m => i.lanes.lanes.foldl (putLane i z d (ea i) place) m).modG i.gi fun y => { y with
      outst := y.outst ++ [{ path := .sp, seq := s.seq + 1, fid := i.f.fid }] }).advance i size true) := by
  obtain ⟨l, some_lane⟩ := List.exists_mem_of_ne_nil _ (Mask.lanes_ne_nil hl)
  obtain ⟨-, -, -, -, unmarked⟩ := hr l ((Mask.mem_lanes ..).1 some_lane)
  refine (storeOp_good (space := .scratch) h hl hx (fun _ => room) fun l hl => hr l ((Mask.mem_lanes ..).1 hl)).trans ?_
  rw [touch_scratch rfl, storeEffect, spStoreLanes_eq unmarked]
  simp only [List.foldl_map, accPut_storedAcc]
  rfl

/-- A lane's store leaves every byte outside its own. -/
theorem get_putLane {m : Mem} (hm : m.wf = true) (i : Iss) (z d : Nat) (ea : Nat → Int) (place : Nat → Nat) {l a : Nat}
    (ha : a < place l ∨ place l + stSize z ≤ a) : (putLane i z d ea place m l).get a = m.get a := by
  unfold putLane
  rw [Mem.get_write _ _ _ _ hm, if_neg (by rw [length_leBytes]; omega)]

theorem get_putLanes {m : Mem} (hm : m.wf = true) (i : Iss) (z d : Nat) (ea : Nat → Int) (place : Nat → Nat) {ls : List Nat} {a : Nat}
    (ha : ∀ l ∈ ls, a < place l ∨ place l + stSize z ≤ a) : (ls.foldl (putLane i z d ea place) m).get a = m.get a := by
  refine (List.foldlRecOn ls (putLane i z d ea place) (motive := fun u => u.wf = true ∧ u.get a = m.get a) ⟨hm, rfl⟩ fun u hu l hl => ?_).2
  exact ⟨Mem.write_wf _ _ _ hu.1, (get_putLane hu.1 i z d ea place (ha l hl)).trans hu.2⟩

/-- Settles O29: a global store by `storeOp_glob`, one to scratchpad by `storeOp_scratch` and `get_putLanes`. -/
theorem storesCarryTheirBytes : Obligations.StoresCarryTheirBytes := by
  unfold Obligations.StoresCarryTheirBytes
  intro form Glob Scratch G S
  have glob {x : Instr} {g : Bool} {z pol lcls size d : Nat} {areg : List Nat} {ea : Iss → Nat → Int}
      (hx : ∀ s, exec x s = storeOp s g .glob z pol lcls size d areg ea) : Glob x g z pol size d areg ea := by
    intro s i place h hl hxf hr
    rw [hx]
    exact storeOp_glob (lcls := lcls) h hl hxf hr
  have scratch {x : Instr} {g : Bool} {z size d : Nat} {areg : List Nat} {ea : Iss → Nat → Int}
      (hx : ∀ s, exec x s = storeOp s g .scratch z 0 0 size d areg ea) : Scratch x g z size d areg ea := by
    intro s i place h hl hxf room hr put
    rw [hx]
    exact ⟨storeOp_scratch h hl hxf room hr, fun m a hm ha => get_putLanes hm i z d (ea i) place fun l hl => ha l ((Mask.mem_lanes ..).1 hl)⟩
  refine ⟨?st8, ?st16, ?st32, ?stN4, ?stN2, ?st64, ?st128, ?sts8, ?sts16, ?sts32, ?stsN4, ?stsN2, ?sts64, ?sts128, ?stx, ?stsx⟩
  case st8 | st16 | st32 | stN4 | stN2 | st64 | st128 => exact fun g d a o => glob (lcls := 0) fun s => rfl
  case sts8 | sts16 | sts32 | stsN4 | stsN2 | sts64 | sts128 => exact fun g d a o => scratch fun s => rfl
  case stx => exact fun g d a l c z o => glob (lcls := l.toNat) fun s => rfl
  case stsx => exact fun g d a z o => scratch fun s => rfl

end Sys2Proof.Machine
end

section
/-! PROOFS. Loads (R211, R213, R217): every lane finds the bytes of its place, whatever serves it, and no byte of memory changes. -/

namespace Sys2Proof.Machine

open Sys2Proof

/-! ### Sources read in some of the active lanes (R49, R213) -/

/-- An instruction that can issue has its effect, also when it reads its sources in some of its active lanes only. -/
theorem withOperandsOn_next {s : State} {g : Bool} {rs ws ps ds : List Nat} {i : Iss} (h : CanIssue s g rs ws ps i ds) {on blame : Iss → Mask}
    (hon : ∀ l, (on i).has l = true → i.lanes.has l = true) (k : Iss → State) : withOperandsOn s g rs ws ps on blame k ds = .next (k i) := by
  have active := withOperands_next h k
  have owed : (i.lanes.lanes.any fun l => (rs.map i.phys).any fun r => i.g.owes r l) = false :=
    owes_none h fun r hr => List.mem_append_left _ (List.mem_append_left _ (List.map_append ▸ List.mem_append_left _ hr))
  have owedOn : ((on i).lanes.any fun l => (rs.map i.phys).any fun r => i.g.owes r l) = false :=
    List.any_eq_false.2 fun l hl => List.any_eq_false.1 owed l ((Mask.mem_lanes ..).2 (hon l ((Mask.mem_lanes ..).1 hl)))
  have clean : i.g.poisonIn (rs.map i.phys) i.lanes = none := Group.poisonIn_none h.clean
  have cleanOn : i.g.poisonIn (rs.map i.phys) (on i) = none := Group.poisonIn_none fun p hp hr => by
    refine (Mask.eq_zero_iff _).2 fun l => Bool.eq_false_iff.2 fun hl => ?_
    rw [Mask.has_and, Bool.and_eq_true] at hl
    have apart := (Mask.eq_zero_iff _).1 (h.clean p hp hr) l
    rw [Mask.has_and, hl.1, hon l hl.2] at apart
    cases apart
  unfold withOperands withOperandsOn at active
  unfold withOperandsOn
  rw [withIss_next h.toIssuing] at active ⊢
  simp only [owed, owedOn, clean, cleanOn] at active ⊢
  exact active

theorem lo_active {i : Iss} (h : i.lanes ≠ 0) : i.lanes.has i.lo = true := by
  refine (Mask.mem_lanes ..).1 ?_
  have some_lane := Mask.lanes_ne_nil h
  unfold Iss.lo lowLane Mask.low
  cases e : i.lanes.lanes with
  | nil => exact absurd e some_lane
  | cons l ls => exact List.mem_cons_self

/-! ### The bytes of a line (R208, R236) -/

/-- A part of a line's bytes is what memory holds there. -/
theorem Mem.read_drop_take (m : Mem) {pa n : Nat} (h : pa % 64 + n ≤ 64) : ((m.read (pa / 64 * 64) 64).drop (pa % 64)).take n = m.read pa n := by
  refine List.ext_getElem? fun k => ?_
  by_cases hk : k < n
  · rw [List.getElem?_take_of_lt hk, List.getElem?_drop, Mem.read_getElem? _ _ _ _ (by omega), Mem.read_getElem? _ _ _ _ hk]
    congr 2
    omega
  · rw [List.getElem?_eq_none (by simp; omega), List.getElem?_eq_none (by rw [Mem.length_read]; omega)]

/-- The copies in a core's L1 are sound and agree with memory. -/
def Agrees (s : State) (core : Nat) : Prop := ∀ x ∈ s.l1, x.core = core → x.bad = false ∧ x.bytes = s.mem.read (x.line * 64) 64

theorem Agrees.dropL1 {s : State} {core : Nat} (h : Agrees s core) (c pa len : Nat) : Agrees (dropL1 s c pa len) core :=
  fun x hx hc => h x (List.mem_filter.1 hx).1 hc

theorem Agrees.fillL1 {s : State} {core : Nat} (h : Agrees s core) (c line : Nat) (stream : Bool) : Agrees (fillL1 s c line stream) core := by
  intro x hx hc
  obtain rfl | hx := List.mem_cons.1 hx
  · exact ⟨rfl, rfl⟩
  · exact h x (List.mem_filter.1 hx).1 hc

theorem Agrees.touchL2 {s : State} {core : Nat} (h : Agrees s core) (pasid cls : Nat) (store : Bool) (pa : Nat) : Agrees (touchL2 s pasid cls store pa) core := by
  obtain ⟨l2, e⟩ := touchL2_eq s pasid cls store pa
  rw [e]
  exact h

theorem dropL1_cached (s : State) (core pa len : Nat) : Cached s (dropL1 s core pa len) := ⟨_, _, _, rfl⟩

/-- A read in `s` gives the bytes `bs`: caches have changed, and the copies of its core still agree with memory. -/
structure Serves (s : State) (core : Nat) (bs : List Byte) (r : Found) : Prop where
  bytes : r.bytes = some bs
  cached : Cached s r.s
  agrees : Agrees r.s core

/-- Where no byte is marked and the L1 agrees with memory, a load finds what memory holds, whatever serves it. -/
theorem loadBytes_serves {s : State} {core pa len : Nat} (ha : Agrees s core) (hb : s.memBad = []) (hin : pa % 64 + len ≤ 64) (acquired pol : Nat) :
    Serves s core (s.mem.read pa len) (loadBytes s core acquired pol pa len) := by
  have home : homeBytes s pa len = some (s.mem.read pa len) := by simp [homeBytes, State.badAt, hb]
  have missed : Serves s core (s.mem.read pa len) { s := fillL1 s core (pa / 64) (pol == 2), bytes := some (s.mem.read pa len), miss := true } :=
    ⟨rfl, fillL1_cached .., ha.fillL1 _ _ _⟩
  unfold loadBytes
  simp only [home, Option.isNone_some, Bool.false_eq_true, if_false]
  split
  · exact ⟨rfl, dropL1_cached .., ha.dropL1 _ _ _⟩
  · split
    case h_2 => exact missed
    case h_1 x found =>
      split
      case isFalse => exact missed
      case isTrue =>
        have here := List.find?_some found
        simp only [Bool.and_eq_true, beq_iff_eq] at here
        obtain ⟨sound, bytes⟩ := ha x (List.mem_of_find?_eq_some found) here.1
        refine ⟨?_, .refl s, ha⟩
        simp only [sound, bytes, here.2, Bool.false_eq_true, if_false, Mem.read_drop_take _ hin]

/-- An address of a page translates to the same offset in a frame of 4 KiB (R416). -/
theorem access_pa {s : State} {core pasid va pa : Nat} {k : AccKind} {x : Xlate} (h : access s core pasid va k = .ok (pa, x)) :
    ∃ frame, pa = 4096 * frame + va % 4096 := by
  unfold access at h
  repeat' split at h
  all_goals cases h
  exact ⟨_, rfl⟩

theorem ldSize_cases (z : Nat) : ldSize z = 1 ∨ ldSize z = 2 ∨ ldSize z = 4 ∨ ldSize z = 8 ∨ ldSize z = 16 := by
  unfold ldSize
  split <;> simp

section
variable {s : State} {i : Iss} {z pol lcls pa : Nat} {ea : Int} (h : Reaches s i { size := ldSize z, pol := pol, lcls := lcls } ea pa)
include h

/-- An aligned access lies in one line (R212). -/
theorem in_line_of_reaches : pa % 64 + ldSize z ≤ 64 := by
  obtain ⟨aligned, x, hx, -, -⟩ := h
  obtain ⟨frame, hpa⟩ := access_pa hx
  have aligned : ea % ldSize z = 0 := aligned rfl
  change pa = 4096 * frame + ea.toNat % 4096 at hpa
  obtain e | e | e | e | e := ldSize_cases z <;> rw [e] at aligned ⊢ <;> omega

theorem memBad_of_reaches : s.memBad = [] := by
  obtain ⟨-, x, -, -, unmarked⟩ := h
  exact unmarked

end

theorem Cached.mem {s t : State} : Cached s t → t.mem = s.mem := by
  rintro ⟨_, _, _, rfl⟩
  rfl

theorem Cached.memBad {s t : State} : Cached s t → t.memBad = s.memBad := by
  rintro ⟨_, _, _, rfl⟩
  rfl

/-! ### One lane of a load (R213, R217) -/

theorem readLane_serves {s : State} {i : Iss} {m : MemForm} {c : LaneChk} (hm : m.space = .glob) (ha : Agrees s i.g.core) (hb : s.memBad = [])
    (hin : c.pa % 64 + m.size ≤ 64) : Serves s i.g.core (s.mem.read c.pa m.size) (readLane s i m c) := by
  have served := loadBytes_serves ha hb hin i.f.acquired (polOf m.pol c)
  unfold readLane
  simp only [hm]
  split
  · exact ⟨served.bytes, served.cached.trans (touchL2_cached ..), served.agrees.touchL2 _ _ _ _⟩
  · exact served

/-- An unmarked scratchpad gives its bytes. -/
theorem readLane_scratch {s : State} {i : Iss} {m : MemForm} (hm : m.space = .scratch) (hb : (s.blockOf i.g).spBad = []) (c : LaneChk) :
    readLane s i m c = { s := s, bytes := some ((s.blockOf i.g).sp.read c.pa m.size) } := by
  unfold readLane
  simp only [hm, Block.spBadAt, hb, List.any_nil, Bool.false_eq_true, if_false]

theorem loadLane_some {i : Iss} {m : MemForm} {z d : Nat} {dst : List Nat} {a : LoadRun} {c : LaneChk} {bs : List Byte} (h : (readLane a.s i m c).bytes = some bs) :
    loadLane i m z d dst a c = { s := (readLane a.s i m c).s, words := a.words ++ dst.flatMap fun l => laneWrites i d l (ldCount z) (ldExtend z (leNat bs)),
                                 poison := a.poison, miss := a.miss || (readLane a.s i m c).miss } := by
  unfold loadLane
  simp only [h]

/-- Where every lane finds its bytes, a load has their words for the registers and marks nothing. -/
theorem loadLanes_words {i : Iss} {m : MemForm} {z d : Nat} {dst : LaneChk → List Nat} {bytes : LaneChk → List Byte} (P : State → Prop) {cs : List LaneChk}
    (one : ∀ u, P u → ∀ c ∈ cs, (readLane u i m c).bytes = some (bytes c) ∧ P (readLane u i m c).s) (a : LoadRun) (ha : P a.s) (hp : a.poison = []) :
    let r := cs.foldl (fun a c => loadLane i m z d (dst c) a c) a
    P r.s ∧ r.poison = []
      ∧ r.words = a.words ++ cs.flatMap fun c => (dst c).flatMap fun l => laneWrites i d l (ldCount z) (ldExtend z (leNat (bytes c))) := by
  induction cs generalizing a with
  | nil => exact ⟨ha, hp, (List.append_nil _).symm⟩
  | cons c cs ih =>
    obtain ⟨found, kept⟩ := one a.s ha c List.mem_cons_self
    rw [List.foldl_cons, loadLane_some found, List.flatMap_cons, ← List.append_assoc]
    exact ih (fun u hu c hc => one u hu c (List.mem_cons_of_mem _ hc)) _ kept hp

/-- A load whose lanes all find their bytes is outstanding with their words; it may count as one that missed the L1. -/
theorem loadAll_eq {s : State} {i : Iss} {m : MemForm} {z d : Nat} {dst : LaneChk → List Nat} {bytes : LaneChk → List Byte} (P : State → Prop)
    {cs : List LaneChk} (hg : ∀ c ∈ cs, c.good = true) (one : ∀ u, P u → ∀ c ∈ cs, (readLane u i m c).bytes = some (bytes c) ∧ P (readLane u i m c).s)
    (hs : P s) : ∃ t misses, P t ∧ loadAll s i m z d cs dst = t.modG i.gi fun y => { y with
      misses := misses,
      outst := y.outst ++ [{
        path := if m.space = .glob then .gm else .sp, seq := t.seq + 1, fid := i.f.fid,
        writes := cs.flatMap fun c => (dst c).flatMap fun l => laneWrites i d l (ldCount z) (ldExtend z (leNat (bytes c))) }] } := by
  obtain ⟨kept, unmarked, words⟩ := loadLanes_words (z := z) (d := d) (dst := dst) P one { s := s } hs rfl
  unfold loadAll
  rw [List.filter_eq_self.2 hg]
  generalize cs.foldl (fun a c => loadLane i m z d (dst c) a c) { s := s } = r at kept unmarked words ⊢
  simp only [List.nil_append] at words
  simp only [unmarked, words]
  refine ⟨r.s, if r.miss then (r.s.group i.gi).misses + 1 else (r.s.group i.gi).misses, kept, ?_⟩
  unfold State.owe
  split
  · rw [State.modG_modG]
    exact State.modG_congr rfl
  · exact State.modG_congr rfl

/-! ### A load (R211, R213, R245) -/

/-- The form of a load's accesses. -/
def ldForm (space : Space) (z pol lcls : Nat) : MemForm := { space := space, size := ldSize z, pol := pol, lcls := lcls }
/-- The lane whose operands a lane's words come from: in the broadcast form the lowest. -/
def ldSrc (i : Iss) (z l : Nat) : Nat := if z = 7 then i.lo else l
/-- The lanes that a load reads for. -/
def ldSources (i : Iss) (z : Nat) : List Nat := if z = 7 then [i.lo] else i.lanes.lanes
/-- The lanes that a read goes to. -/
def ldTargets (i : Iss) (z : Nat) (c : LaneChk) : List Nat := if z = 7 then i.lanes.lanes else [c.lane]

/-- A lane that a load reads for is active, and the words from it are its own. -/
theorem mem_ldSources {i : Iss} {z l : Nat} (hl : i.lanes ≠ 0) (h : l ∈ ldSources i z) : i.lanes.has l = true ∧ ldSrc i z l = l := by
  unfold ldSources at h
  unfold ldSrc
  split at h
  case isTrue hz =>
    rw [List.mem_singleton.1 h, if_pos hz]
    exact ⟨lo_active hl, rfl⟩
  case isFalse hz =>
    rw [if_neg hz]
    exact ⟨(Mask.mem_lanes ..).1 h, rfl⟩

theorem reaches_sources {s : State} {i : Iss} {m : MemForm} {z : Nat} {ea : Nat → Int} {place : Nat → Nat} (hl : i.lanes ≠ 0)
    (hr : ∀ l, i.lanes.has l = true → Reaches s i m (ea (ldSrc i z l)) (place (ldSrc i z l))) : ∀ l ∈ ldSources i z, Reaches s i m (ea l) (place l) := by
  intro l hs
  obtain ⟨active, own⟩ := mem_ldSources hl hs
  exact own ▸ hr l active

/-- What is settled for some bytes is settled for some of them. -/
theorem Settled.mono {s : State} {ps qs : List (Nat × Nat)} (h : Settled s qs) (hsub : ps ⊆ qs) : Settled s ps := by
  obtain ⟨stores, moves⟩ := h
  refine ⟨fun e he => ?_, fun g hg x hx => ?_⟩
  · refine List.any_eq_false.2 fun y hy hmeet => List.any_eq_false.1 (stores e he) y hy ?_
    simp only [Bool.and_eq_true, List.any_eq_true] at hmeet ⊢
    obtain ⟨remote, p, hp, same⟩ := hmeet
    exact ⟨remote, p, hsub hp, same⟩
  · have unmet := moves g hg x hx
    simp only [Xfer.toRemote, Bool.and_eq_false_iff, List.any_eq_false, Bool.and_eq_true, List.any_eq_true] at unmet ⊢
    refine unmet.imp_right fun unmet c hc hmeet => unmet c hc ?_
    obtain ⟨remote, p, hp, same⟩ := hmeet
    exact ⟨remote, p, List.map_subset _ hsub hp, same⟩

section
variable {s : State} {i : Iss} {z pol lcls : Nat} {space : Space} {ea : Nat → Int} {place : Nat → Nat}
  (hr : ∀ l ∈ ldSources i z, Reaches s i (ldForm space z pol lcls) (ea l) (place l))
include hr

/-- The words of a load, lane by lane: those of the place that each active lane's words come from. -/
theorem loadWords_eq (d : Nat) (mem : Mem) :
    ((laneChks s i (ldForm space z pol lcls) (ldSources i z) ea).flatMap fun c => (ldTargets i z c).flatMap fun l =>
        laneWrites i d l (ldCount z) (ldExtend z (leNat (mem.read c.pa (ldSize z)))))
      = i.lanes.lanes.flatMap fun l => laneWrites i d l (ldCount z) (ldExtend z (mem.le (place (ldSrc i z l)) (ldSize z))) := by
  have place_of {l : Nat} (hl : l ∈ ldSources i z) : (checkLane s i (ldForm space z pol lcls) l (ea l)).pa = place l := (checkLane_of_reaches (hr l hl) l).2.1
  rw [laneChks, List.flatMap_map]
  unfold ldSources ldTargets ldSrc at *
  by_cases hz : z = 7
  · simp only [hz, if_true, List.flatMap_singleton, List.mem_singleton, forall_eq] at place_of ⊢
    rw [place_of]
    rfl
  · simp only [hz, if_false] at place_of ⊢
    refine congrArg List.flatten (List.map_congr_left fun l hl => ?_)
    rw [List.flatMap_singleton, place_of hl]
    rfl

end

section
variable {s : State} {g : Bool} {i : Iss} {z pol lcls size d : Nat} {areg : List Nat} {ea : Iss → Nat → Int} {place : Nat → Nat}

theorem loadOp_good {space : Space} (h : CanIssue s g areg (runOf d (ldCount z)) [] i) (hl : i.lanes ≠ 0) (hq : Quiet s i)
    (room : i.g.count (if space = .glob then .gm else .sp) < 63)
    (hr : ∀ l ∈ ldSources i z, Reaches s i (ldForm space z pol lcls) (ea i l) (place l))
    (hset : space = .glob → Settled s ((ldSources i z).map fun l => (place l, ldSize z))) :
    loadOp s g space z pol lcls size d areg ea
      = .next ((loadAll (touch s i (laneChks s i (ldForm space z pol lcls) (ldSources i z) (ea i))) i (ldForm space z pol lcls) z d
          (laneChks s i (ldForm space z pol lcls) (ldSources i z) (ea i)) (ldTargets i z)).advance i size) := by
  have places := goodBytes_laneChks hr (ldSize z)
  have sources (l : Nat) (hon : (if decide (z = 7) && i.lanes != 0 then twoPowMask i.lo else i.lanes).has l = true) : i.lanes.has l = true := by
    split at hon
    case isFalse => exact hon
    case isTrue =>
      rw [twoPowMask_has (Mask.has_lt hon), decide_eq_true_eq] at hon
      exact hon ▸ lo_active hl
  obtain ⟨tlb, tlb2, walks, cached⟩ := touch_eq s i (laneChks s i (ldForm space z pol lcls) (ldSources i z) (ea i))
  have settled : ¬(space = .glob ∧ xferAhead s i.gi i.f (goodBytes (laneChks s i (ldForm space z pol lcls) (ldSources i z) (ea i)) (ldSize z)) = true) := by
    rintro ⟨hg, ahead⟩
    rw [places, xferAhead_of_settled hq (hset hg)] at ahead
    cases ahead
  have drained : (if space = .glob then drainOwn (touch s i (laneChks s i (ldForm space z pol lcls) (ldSources i z) (ea i))) i.gi i.f
      (goodBytes (laneChks s i (ldForm space z pol lcls) (ldSources i z) (ea i)) (ldSize z))
      else touch s i (laneChks s i (ldForm space z pol lcls) (ldSources i z) (ea i)))
      = touch s i (laneChks s i (ldForm space z pol lcls) (ldSources i z) (ea i)) := by
    split
    case isFalse => rfl
    case isTrue hg =>
      rw [places, cached]
      exact drainHit_of_no_hit (not_ahead hq (hset hg).1)
  rw [loadOp, withOperandsOn_next h sources, once_active hl, if_neg (by rw [pathFull_eq_false room]; exact Bool.false_ne_true)]
  refine congrArg Host.Outcome.next ((if_neg settled).trans ?_)
  refine (memAccess_good hq.2 (laneChks_good hr) (laneChks_untracked hr) ..).trans ?_
  exact congrArg (fun v => (loadAll v i (ldForm space z pol lcls) z d _ (ldTargets i z)).advance i size) drained

/-- A load from memory is outstanding with the words that memory holds at its lanes' places; caches have changed, and no byte of memory. -/
theorem loadOp_glob (h : CanIssue s g areg (runOf d (ldCount z)) [] i) (hl : i.lanes ≠ 0) (hq : Quiet s i) (room : i.g.count .gm < 63)
    (hr : ∀ l ∈ ldSources i z, Reaches s i (ldForm .glob z pol lcls) (ea i l) (place l)) (ha : Agrees s i.g.core)
    (hset : Settled s ((ldSources i z).map fun l => (place l, ldSize z))) :
    ∃ tlb tlb2 walks l1 l2 fills misses, loadOp s g .glob z pol lcls size d areg ea = .next ((({ s with
      tlb := tlb, tlb2 := tlb2, walks := walks, l1 := l1, l2 := l2, fillNo := fills } : State).modG i.gi fun y => { y with
      misses := misses,
      outst := y.outst ++ [{
        path := .gm, seq := s.seq + 1, fid := i.f.fid,
        writes := i.lanes.lanes.flatMap fun l => laneWrites i d l (ldCount z) (ldExtend z (s.mem.le (place (ldSrc i z l)) (ldSize z))) }] }).advance i size) := by
  obtain ⟨tlb, tlb2, walks, cached⟩ := touch_eq s i (laneChks s i (ldForm .glob z pol lcls) (ldSources i z) (ea i))
  generalize hv : ({ s with tlb := tlb, tlb2 := tlb2, walks := walks } : State) = v at cached
  obtain ⟨hmem, hbad, hl1⟩ : v.mem = s.mem ∧ v.memBad = s.memBad ∧ v.l1 = s.l1 := by
    subst hv
    exact ⟨rfl, rfl, rfl⟩
  have one (u : State) (hu : Cached v u ∧ Agrees u i.g.core) : ∀ c ∈ laneChks s i (ldForm .glob z pol lcls) (ldSources i z) (ea i),
      (readLane u i (ldForm .glob z pol lcls) c).bytes = some (s.mem.read c.pa (ldSize z))
        ∧ Cached v (readLane u i (ldForm .glob z pol lcls) c).s ∧ Agrees (readLane u i (ldForm .glob z pol lcls) c).s i.g.core := by
    refine List.forall_mem_map.2 fun l hl => ?_
    obtain ⟨hc, ha⟩ := hu
    have in_line : (checkLane s i (ldForm .glob z pol lcls) l (ea i l)).pa % 64 + ldSize z ≤ 64 := by
      rw [(checkLane_of_reaches (hr l hl) l).2.1]
      exact in_line_of_reaches (hr l hl)
    have served := readLane_serves (m := ldForm .glob z pol lcls) rfl ha (hc.memBad.trans (hbad.trans (memBad_of_reaches (hr l hl)))) in_line
    rw [hc.mem, hmem] at served
    exact ⟨served.bytes, hc.trans served.cached, served.agrees⟩
  have agree : Agrees v i.g.core := by
    intro x hx hc
    rw [hmem]
    exact ha x (hl1 ▸ hx) hc
  obtain ⟨t, misses, ⟨⟨l1, l2, fills, rfl⟩, -⟩, e⟩ := loadAll_eq (z := z) (d := d) (dst := ldTargets i z) (fun u => Cached v u ∧ Agrees u i.g.core)
    (laneChks_good hr) one ⟨.refl v, agree⟩
  refine ⟨tlb, tlb2, walks, l1, l2, fills, misses, (loadOp_good (space := .glob) h hl hq room hr fun _ => hset).trans ?_⟩
  rw [cached, e, loadWords_eq hr]
  subst hv
  rfl

/-- A load from scratchpad is outstanding with the words that it holds at its lanes' places, and nothing else has changed. -/
theorem loadOp_scratch (h : CanIssue s g areg (runOf d (ldCount z)) [] i) (hl : i.lanes ≠ 0) (hq : Quiet s i) (room : i.g.count .sp < 63)
    (hr : ∀ l ∈ ldSources i z, Reaches s i (ldForm .scratch z pol lcls) (ea i l) (place l)) :
    ∃ misses, loadOp s g .scratch z pol lcls size d areg ea = .next ((s.modG i.gi fun y => { y with
      misses := misses,
      outst := y.outst ++ [{
        path := .sp, seq := s.seq + 1, fid := i.f.fid,
        writes := i.lanes.lanes.flatMap fun l =>
          laneWrites i d l (ldCount z) (ldExtend z ((s.blockOf i.g).sp.le (place (ldSrc i z l)) (ldSize z))) }] }).advance i size) := by
  have one (u : State) (hu : u = s) : ∀ c ∈ laneChks s i (ldForm .scratch z pol lcls) (ldSources i z) (ea i),
      (readLane u i (ldForm .scratch z pol lcls) c).bytes = some ((s.blockOf i.g).sp.read c.pa (ldSize z))
        ∧ (readLane u i (ldForm .scratch z pol lcls) c).s = s := by
    refine List.forall_mem_map.2 fun l hl => ?_
    obtain ⟨-, -, -, -, unmarked⟩ := hr l hl
    rw [hu, readLane_scratch rfl unmarked]
    exact ⟨rfl, rfl⟩
  obtain ⟨t, misses, rfl, e⟩ := loadAll_eq (z := z) (d := d) (dst := ldTargets i z) (fun u => u = s) (laneChks_good hr) one rfl
  refine ⟨misses, (loadOp_good (space := .scratch) h hl hq room hr (nofun)).trans ?_⟩
  rw [touch_scratch rfl, e, loadWords_eq hr]
  rfl

end

/-- Settles O28: loads from memory by `loadOp_glob`, loads from scratchpad by `loadOp_scratch`. -/
theorem loadsReadMemory : Obligations.LoadsReadMemory := by
  unfold Obligations.LoadsReadMemory
  intro Load G S
  have glob {x : Instr} {g : Bool} {z pol lcls size d : Nat} {areg : List Nat} {ea : Iss → Nat → Int}
      (hx : ∀ s, exec x s = loadOp s g .glob z pol lcls size d areg ea) : Load x g .glob z pol size d areg ea := by
    intro s i place src path val h hl hq room hr ha hset
    rw [hx]
    refine loadOp_glob h hl hq room (reaches_sources hl hr) ha ((hset rfl).mono fun p hp => ?_)
    obtain ⟨l, hs, rfl⟩ := List.mem_map.1 hp
    obtain ⟨active, own⟩ := mem_ldSources hl hs
    exact List.mem_map.2 ⟨l, (Mask.mem_lanes ..).2 active, congrArg (fun l => (place l, ldSize z)) own⟩
  have scratch {x : Instr} {g : Bool} {z pol lcls size d : Nat} {areg : List Nat} {ea : Iss → Nat → Int}
      (hx : ∀ s, exec x s = loadOp s g .scratch z pol lcls size d areg ea) : Load x g .scratch z pol size d areg ea := by
    intro s i place src path val h hl hq room hr ha hset
    rw [hx]
    obtain ⟨misses, e⟩ := loadOp_scratch (lcls := lcls) h hl hq room (reaches_sources hl hr)
    exact ⟨s.tlb, s.tlb2, s.walks, s.l1, s.l2, s.fillNo, misses, e⟩
  refine ⟨?ldI8, ?ldZ8, ?ldI16, ?ldZ16, ?ld32, ?ldB, ?ld64, ?ld128, ?ldsI8, ?ldsZ8, ?ldsI16, ?ldsZ16, ?lds32, ?ldsB, ?lds64, ?lds128, ?ldx, ?ldsx⟩
  case ldI8 | ldZ8 | ldI16 | ldZ16 | ld32 | ldB | ld64 | ld128 => exact fun g d a o => glob (lcls := 0) fun s => rfl
  case ldsI8 | ldsZ8 | ldsI16 | ldsZ16 | lds32 | ldsB | lds64 | lds128 => exact fun g d a o => scratch (lcls := 0) fun s => rfl
  case ldx => exact fun g d a l c z o => glob (lcls := l.toNat) fun s => rfl
  case ldsx => exact fun g d a z o => scratch (lcls := 0) fun s => rfl

end Sys2Proof.Machine
end

section
/-! PROOFS. Acquire loads, release stores and fences (R237, R242 to R245): what each leaves of its fragment and group, and what it carries. -/

namespace Sys2Proof.Machine

open Sys2Proof

/-! ### A state on the way to the next instruction -/

/-- In `u` the issuing group of `s` has become `y` but for its fragments, and the issuing fragment `f`; every other group is as in `s`. -/
structure Became (s u : State) (i : Iss) (y : Group) (f : Frag) : Prop where
  group : ∃ frags, u.group i.gi = { y with frags := frags } ∧ frags[i.fi]? = some f
  others : ∀ k, k ≠ i.gi → u.groups[k]? = s.groups[k]?

theorem Issuing.became {s : State} {g : Bool} {i : Iss} (h : Issuing s g i) : Became s s i i.g i.f := by
  obtain ⟨hg, hf, -⟩ := h.eq
  refine ⟨⟨i.g.frags, hg.symm, ?_⟩, fun _ _ => rfl⟩
  rw [hf, Group.frag, List.getElem?_eq_getElem h.fi]
  rfl

section
variable {s u : State} {i : Iss} {y : Group} {f : Frag} (h : Became s u i y f)
include h

/-- What a group has become is said of the list of groups only. -/
theorem Became.congr {v : State} (e : v.groups = u.groups) : Became s v i y f :=
  ⟨by simpa only [State.group, e] using h.group, fun k hk => e ▸ h.others k hk⟩

theorem Became.gi_lt : i.gi < u.groups.length := by
  obtain ⟨frags, hg, hf⟩ := h.group
  refine Nat.lt_of_not_le fun out => ?_
  rw [State.group, List.getElem?_eq_none out] at hg
  have none_left : [] = frags := congrArg Group.frags hg
  subst none_left
  cases hf

/-- The issuing group changes. -/
theorem Became.modG {F : Group → Group} {y' : Group} {f' : Frag}
    (hF : ∀ frags, frags[i.fi]? = some f → ∃ frags', F { y with frags := frags } = { y' with frags := frags' } ∧ frags'[i.fi]? = some f') :
    Became s (u.modG i.gi F) i y' f' := by
  obtain ⟨frags, hg, hf⟩ := h.group
  refine ⟨?_, fun k hk => ?_⟩
  · rw [State.modG_self _ _ _ h.gi_lt, hg]
    exact hF frags hf
  · rw [State.modG_groups, if_neg hk]
    exact h.others k hk

/-- The issuing fragment changes. -/
theorem Became.modF (U : Frag → Frag) : Became s (u.modF i.gi i.fi U) i y (U f) :=
  h.modG fun frags hf => ⟨modAt frags i.fi U, rfl, by simp [getElem?_modAt, hf]⟩

/-- The group learns (R249). -/
theorem Became.learn (v : KVec) : Became s (mergeG u i.gi v) i (y.learn v) f := h.modG fun frags hf => ⟨frags, rfl, hf⟩

end

/-! ### An acquire (R208, R245) -/

/-- An acquire marks its group and its fragment, of `.blk` or wider scope with the fills so far, and no captured record is kept. -/
theorem acquireFills_eq (s : State) (gi fi : Nat) (sc : BitVec 2) : ∃ (mark : Nat) (a : Nat → Nat),
    acquireFills s gi fi sc = (s.modG gi fun g => { g with acquired := mark }).modF gi fi (fun f => { f with acquired := a f.acquired, caps := [] })
      ∧ (sc ≠ 0 → ∀ n, a n = s.fillNo) := by
  by_cases hsc : sc = 0
  · subst hsc
    have marked : (s.modG gi fun g => { g with acquired := (s.group gi).acquired }) = s :=
      (State.modG_congr (h := fun g => g) rfl).trans (State.modG_id s gi)
    refine ⟨(s.group gi).acquired, fun n => if n ≤ (s.group gi).acquired then (s.group gi).acquired else n, ?_, fun hn => absurd rfl hn⟩
    rw [acquireFills_grp, marked]
  · exact ⟨s.fillNo, fun _ => s.fillNo, acquireFills_wide s gi fi hsc, fun _ _ => rfl⟩

/-- What an acquire makes of its group and fragment, and that it changes nothing else. -/
structure Acquired (s u v : State) (i : Iss) (y : Group) (f : Frag) (sc : BitVec 2) (know : KVec) (mark a : Nat) : Prop where
  became : Became s v i { y with know := know, acquired := mark } { f with acquired := a, caps := [] }
  wide : sc ≠ 0 → a = u.fillNo
  rest : v = { u with groups := v.groups }

theorem Became.acquire {s u : State} {i : Iss} {y : Group} {f : Frag} (h : Became s u i y f) (v : KVec) (sc : BitVec 2) :
    ∃ mark a, Acquired s u (acquireFills (mergeG u i.gi v) i.gi i.fi sc) i y f sc (y.know.merge v) mark a := by
  obtain ⟨mark, a, e, wide⟩ := acquireFills_eq (mergeG u i.gi v) i.gi i.fi sc
  rw [e]
  have marked := (h.learn v).modG (F := fun g => { g with acquired := mark }) (y' := { y with know := y.know.merge v, acquired := mark })
    fun frags hf => ⟨frags, rfl, hf⟩
  exact ⟨mark, a f.acquired, marked.modF _, fun hsc => wide hsc _, rfl⟩

/-! ### The issue ends -/

/-- `t` is behind an instruction of 4 bytes of the fragment `i` in `s` that touches no register, no predicate and no byte of memory; the clock and the
outstanding instructions of its group are those of `y`, and what its fragment has acquired, captured and released are those of `f`. -/
structure Passed (s t : State) (i : Iss) (y : Group) (f : Frag) : Prop where
  regs : (t.group i.gi).regs = i.g.regs
  preds : (t.group i.gi).preds = i.g.preds
  pc : ((t.group i.gi).frag i.fi).pc = i.f.pc + 4
  others : ∀ k, k ≠ i.gi → t.groups[k]? = s.groups[k]?
  mem : t.mem = s.mem
  clk : (t.group i.gi).clk = y.clk
  outst : (t.group i.gi).outst = y.outst
  acquired : ((t.group i.gi).frag i.fi).acquired = f.acquired
  caps : ((t.group i.gi).frag i.fi).caps = f.caps
  relVec : ((t.group i.gi).frag i.fi).relVec = f.relVec

/-- An issue keeps what the fragment has acquired, captured and released. -/
theorem advFrag_keeps (s : State) (i : Iss) (pc : BitVec 52) (noisy : Bool) (br : Option BranchInfo) (f : Frag) :
    (advFrag s i pc noisy br f).acquired = f.acquired ∧ (advFrag s i pc noisy br f).caps = f.caps ∧ (advFrag s i pc noisy br f).relVec = f.relVec := by
  obtain ⟨spin, loop, quiet, noisy', e⟩ := Frag.detect_eq f i.f.pc (noisy || (s.group i.gi).differs i.g i.lanes) br
  unfold advFrag
  rw [e]
  exact ⟨rfl, rfl, rfl⟩

theorem Became.passed {s u : State} {i : Iss} {y : Group} {f : Frag} (h : Became s u i y f) (hr : y.regs = i.g.regs) (hp : y.preds = i.g.preds)
    (hm : u.mem = s.mem) (noisy : Bool) : Passed s (u.advance i 4 noisy) i y f := by
  have issued := h.modG (F := advGroup u i (i.f.pc + 4) noisy none) (y' := advGroup u i (i.f.pc + 4) noisy none y)
    fun frags hf => ⟨modAt frags i.fi (advFrag u i (i.f.pc + 4) noisy none), rfl, by rw [getElem?_modAt, if_pos rfl, hf]; rfl⟩
  have advanced : (u.advance i 4 noisy).groups = (u.modG i.gi (advGroup u i (i.f.pc + 4) noisy none)).groups :=
    (congrArg State.groups (advanceTo_eq u i (i.f.pc + 4) noisy none)).trans rfl
  obtain ⟨⟨frags, hg, hf⟩, others⟩ := issued.congr advanced
  have frag : ((u.advance i 4 noisy).group i.gi).frag i.fi = advFrag u i (i.f.pc + 4) noisy none f := by
    rw [hg, Group.frag, hf]
    rfl
  obtain ⟨acquired, caps, relVec⟩ := advFrag_keeps u i (i.f.pc + 4) noisy none f
  rw [← frag] at acquired caps relVec
  exact ⟨(congrArg Group.regs hg).trans hr, (congrArg Group.preds hg).trans hp, (congrArg Frag.pc frag).trans rfl, others, hm,
    (congrArg Group.clk hg).trans rfl, (congrArg Group.outst hg).trans rfl, acquired, caps, relVec⟩

/-! ### `ld.acq` (R243) -/

/-- A read past the L1 gives what memory holds; caches have changed (R208, R236). -/
theorem loadBytes_past {s : State} (hb : s.memBad = []) (core acquired pa len : Nat) :
    loadBytes s core acquired 1 pa len = { s := dropL1 s core pa len, bytes := some (s.mem.read pa len) } := by
  have home : homeBytes s pa len = some (s.mem.read pa len) := by simp [homeBytes, State.badAt, hb]
  unfold loadBytes
  simp only [home, decide_true, Bool.true_or, if_true]

/-- An access past the L1 goes past it on every page (R218). -/
theorem polOf_one (c : LaneChk) : polOf 1 c = 1 := by
  unfold polOf
  split
  · exact ite_self _
  · rfl

theorem readLane_past {s : State} {i : Iss} {m : MemForm} (hm : m.space = .glob) (hp : m.pol = 1) (hb : s.memBad = []) (c : LaneChk) :
    (readLane s i m c).bytes = some (s.mem.read c.pa m.size) ∧ Cached s (readLane s i m c).s := by
  unfold readLane
  simp only [hm, hp, polOf_one, loadBytes_past hb, beq_self_eq_true, Bool.or_true, if_true, true_and]
  exact (dropL1_cached ..).trans (touchL2_cached ..)

theorem owesStrong_of_quiet {s : State} {i : Iss} (h : Quiet s i) : owesStrong s i = false := by simp only [owesStrong, h.1, List.any_nil]

/-- The checked lanes of an acquire load. -/
abbrev acqChks (s : State) (i : Iss) (z : Nat) (a : BitVec 6) : List LaneChk := laneChks s i (ldForm .glob z 1 0) i.lanes.lanes (gEa a 0 i)

section
variable {s : State} {g : Bool} {i : Iss} {z d : Nat} {a : BitVec 6} {sc : BitVec 2} {place : Nat → Nat}

/-- An acquire load whose lanes reach their places loads and acquires. -/
theorem ldAcq_good (h : CanIssue s g (pairOf a) (runOf d (ldCount z)) [] i) (hl : i.lanes ≠ 0) (hq : Quiet s i) (room : i.g.count .gm < 63)
    (hr : ∀ l ∈ i.lanes.lanes, Reaches s i (ldForm .glob z 1 0) (gEa a 0 i l) (place l)) (hset : Settled s (i.lanes.lanes.map fun l => (place l, ldSize z))) :
    ∃ v, ldAcq s g z d a sc = .next ((acquireFills (mergeG (loadAll (touch s i (acqChks s i z a)) i (ldForm .glob z 1 0) z d (acqChks s i z a) fun c => [c.lane])
      i.gi v) i.gi i.fi sc).advance i 4) := by
  have places := goodBytes_laneChks hr (ldSize z)
  have settled : xferAhead s i.gi i.f (goodBytes (acqChks s i z a) (ldSize z)) = false := by rw [places, xferAhead_of_settled hq hset]
  obtain ⟨tlb, tlb2, walks, cached⟩ := touch_eq s i (acqChks s i z a)
  have drained : drainOwn (touch s i (acqChks s i z a)) i.gi i.f (goodBytes (acqChks s i z a) (ldSize z)) = touch s i (acqChks s i z a) := by
    rw [places, cached]
    exact drainHit_of_no_hit (not_ahead hq hset.1)
  refine ⟨acquireVecs (touch s i (acqChks s i z a)) i (acqChks s i z a) (ldSize z) sc, ?_⟩
  rw [ldAcq, withOperands_next h, once_active hl]
  simp only [pathFull_eq_false room, owesStrong_of_quiet hq, Bool.false_eq_true, if_false]
  refine congrArg Host.Outcome.next ((if_neg (ne_true_of_eq_false settled)).trans ?_)
  refine (memAccess_good hq.2 (laneChks_good hr) (laneChks_untracked hr) ..).trans ?_
  exact congrArg (fun v => (acquireFills (mergeG (loadAll v i (ldForm .glob z 1 0) z d (acqChks s i z a) fun c => [c.lane]) i.gi
    (acquireVecs v i (acqChks s i z a) (ldSize z) sc)) i.gi i.fi sc).advance i 4) drained

/-- The load that is then outstanding: each active lane's words are those of its place. -/
def acqOutst (s : State) (i : Iss) (z d : Nat) (place : Nat → Nat) : Outst :=
  { path := .gm, seq := s.seq + 1, fid := i.f.fid,
    writes := i.lanes.lanes.flatMap fun l => laneWrites i d l (ldCount z) (s.mem.le (place l) (ldSize z)) }

/-- The codes of acquire loads are neither the broadcast form's nor those of a load that extends. -/
theorem loadWords_acq (hz : z = 4 ∨ z = 5) (hr : ∀ l ∈ i.lanes.lanes, Reaches s i (ldForm .glob z 1 0) (gEa a 0 i l) (place l)) (mem : Mem) :
    ((acqChks s i z a).flatMap fun c => [c.lane].flatMap fun l => laneWrites i d l (ldCount z) (ldExtend z (leNat (mem.read c.pa (ldSize z)))))
      = i.lanes.lanes.flatMap fun l => laneWrites i d l (ldCount z) (mem.le (place l) (ldSize z)) := by
  have single : z ≠ 7 := by omega
  have unextended (v : Nat) : ldExtend z v = v := by obtain rfl | rfl := hz <;> rfl
  have words := loadWords_eq (z := z) (by rwa [ldSources, if_neg single]) d mem
  simp only [ldSources, ldTargets, ldSrc, if_neg single, unextended] at words ⊢
  exact words

/-- The lanes of an acquire load read what memory holds, and it is outstanding with their words. -/
theorem loadAll_past (hz : z = 4 ∨ z = 5) (hl : i.lanes ≠ 0) (hr : ∀ l ∈ i.lanes.lanes, Reaches s i (ldForm .glob z 1 0) (gEa a 0 i l) (place l)) (d : Nat) :
    ∃ (t : State) (misses : Nat), loadAll (touch s i (acqChks s i z a)) i (ldForm .glob z 1 0) z d (acqChks s i z a) (fun c => [c.lane])
        = t.modG i.gi (fun y => { y with misses := misses, outst := y.outst ++ [acqOutst s i z d place] })
      ∧ t.groups = s.groups ∧ t.mem = s.mem ∧ t.unperf = s.unperf := by
  obtain ⟨l, some_lane⟩ := List.exists_mem_of_ne_nil _ (Mask.lanes_ne_nil hl)
  have unmarked := memBad_of_reaches (hr l some_lane)
  obtain ⟨tlb, tlb2, walks, cached⟩ := touch_eq s i (acqChks s i z a)
  have one (u : State) (hu : Cached (touch s i (acqChks s i z a)) u) : ∀ c ∈ acqChks s i z a,
      (readLane u i (ldForm .glob z 1 0) c).bytes = some (s.mem.read c.pa (ldSize z))
        ∧ Cached (touch s i (acqChks s i z a)) (readLane u i (ldForm .glob z 1 0) c).s := fun c _ => by
    obtain ⟨found, kept⟩ := readLane_past (m := ldForm .glob z 1 0) rfl rfl (hu.memBad.trans (by rw [cached]; exact unmarked)) c
    exact ⟨found.trans (by rw [hu.mem, cached]; rfl), hu.trans kept⟩
  obtain ⟨t, misses, ⟨l1, l2, fills, e⟩, loaded⟩ := loadAll_eq (z := z) (d := d) (dst := fun c => [c.lane]) _ (laneChks_good hr) one (.refl _)
  rw [cached] at e
  subst e
  rw [loadWords_acq hz hr] at loaded
  exact ⟨_, misses, loaded, rfl, rfl, rfl⟩

/-- An acquire load owes its lanes' words, and its fragment has acquired. -/
theorem ldAcq_next (hz : z = 4 ∨ z = 5) (h : CanIssue s g (pairOf a) (runOf d (ldCount z)) [] i) (hl : i.lanes ≠ 0) (hq : Quiet s i) (room : i.g.count .gm < 63)
    (hr : ∀ l ∈ i.lanes.lanes, Reaches s i (ldForm .glob z 1 0) (gEa a 0 i l) (place l)) (hset : Settled s (i.lanes.lanes.map fun l => (place l, ldSize z))) :
    ∃ t y f, ldAcq s g z d a sc = .next t ∧ Passed s t i y f ∧ t.unperf = s.unperf ∧ (sc ≠ 0 → f.acquired = t.fillNo) ∧ y.clk = i.g.clk
      ∧ y.outst = i.g.outst ++ [acqOutst s i z d place] := by
  obtain ⟨v, e⟩ := ldAcq_good (sc := sc) h hl hq room hr hset
  obtain ⟨u, misses, loaded, groups, mem, unperf⟩ := loadAll_past hz hl hr d
  rw [loaded] at e
  have owed := (h.toIssuing.became.congr groups).modG (F := fun y => { y with misses := misses, outst := y.outst ++ [acqOutst s i z d place] })
    (y' := { i.g with misses := misses, outst := i.g.outst ++ [acqOutst s i z d place] }) fun frags hf => ⟨frags, rfl, hf⟩
  obtain ⟨mark, a, became, wide, rest⟩ := owed.acquire v sc
  exact ⟨_, _, _, e, became.passed rfl rfl ((congrArg State.mem rest).trans mem) false, (congrArg State.unperf rest).trans unperf,
    fun hsc => (wide hsc).trans (congrArg State.fillNo rest).symm, rfl, rfl⟩

end

/-! ### `st.rel` (R244) -/

/-- A release captures the group's vector and clock, which then ticks. -/
theorem Became.release {s u : State} {i : Iss} {y : Group} {f : Frag} (h : Became s u i y f) (sc : BitVec 2) :
    (releaseAt u i sc).2 = (y.know, y.clk, sc) ∧ ∃ f', Became s (releaseAt u i sc).1 i y.tick f' := by
  obtain ⟨frags, hg, -⟩ := h.group
  refine ⟨?_, _, (h.modF _).modG fun frags hf => ⟨frags, rfl, hf⟩⟩
  unfold releaseAt
  simp only [hg]

/-- The effect of a release store: it leaves the core with its updates, and the block has committed. -/
def relEffect (v : State) (i : Iss) (sc : BitVec 2) (acc : List LaneAcc) : State :=
  (issueStore (releaseAt v i sc).1 (mkStore (releaseAt v i sc).1 i acc .strong sc true (some (releaseAt v i sc).2))).commit i

theorem Became.relEffect {s v : State} {i : Iss} {y : Group} {f : Frag} (h : Became s v i y f) (sc : BitVec 2) {acc : List LaneAcc} (ha : acc ≠ []) :
    ∃ f', Became s (relEffect v i sc acc) i y.tick f' ∧ (relEffect v i sc acc).mem = v.mem
      ∧ (relEffect v i sc acc).blocks = modAt v.blocks i.g.block (fun b => { b with committed := true })
      ∧ (relEffect v i sc acc).unperf = v.unperf ++ [mkStore v i acc .strong sc true (some (y.know, y.clk, sc))] := by
  obtain ⟨captured, f', released⟩ := h.release sc
  unfold Machine.relEffect
  rw [captured, issueStore, if_neg (by simpa [mkStore] using ha)]
  exact ⟨f', released.congr rfl, rfl, rfl, rfl⟩

/-- The update that a store of whole bytes carries for a lane. -/
theorem storedAcc_whole {z : Nat} (hz : stSub z = 0) (i : Iss) (d pol lcls l : Nat) (ea : Int) (pa : Nat) :
    storedAcc i (stForm .glob z 1 0) z d pol lcls l ea pa
      = { pol := pol, lcls := lcls, lane := l, va := ea.toNat, pa := pa, size := stSize z, op := .st4, val := BitVec.ofNat 128 (runNat i d (stCount z) l) } := by
  unfold storedAcc stForm MemForm.byteOf
  simp [hz]

/-- The checked lanes of a release store. -/
abbrev relChks (s : State) (i : Iss) (z : Nat) (a : BitVec 6) : List LaneChk := laneChks s i (stForm .glob z 1 0) i.lanes.lanes (gEa a 0 i)
/-- Its updates, past the L1. -/
def relAccs (s : State) (i : Iss) (z d : Nat) (a : BitVec 6) (place : Nat → Nat) : List LaneAcc :=
  i.lanes.lanes.map fun l => storedAcc i (stForm .glob z 1 0) z d 1 (clsAt s i (stForm .glob z 1 0) (gEa a 0 i) l) l (gEa a 0 i l) (place l)

section
variable {s : State} {g : Bool} {i : Iss} {z d : Nat} {a : BitVec 6} {sc : BitVec 2} {place : Nat → Nat}

theorem map_storeAcc_relChks {v : State} (hr : ∀ l ∈ i.lanes.lanes, Reaches s i (stForm .glob z 1 0) (gEa a 0 i l) (place l))
    (hv : ∀ c, LaneChk.tracked v i c = LaneChk.tracked s i c) : (relChks s i z a).map (storeAcc v i (stForm .glob z 1 0) z d) = relAccs s i z d a place := by
  rw [relChks, laneChks, List.map_map]
  refine List.map_congr_left fun l hl => (storeAcc_of_reaches (hr l hl) hv z d).trans ?_
  rw [polAt, stForm, polOf_one]

/-- A release store whose lanes reach their places has its effect. -/
theorem stRel_good (h : CanIssue s g (pairOf a ++ runOf d (stCount z)) [] [] i) (hl : i.lanes ≠ 0) (hx : i.g.xfersOf i.f = [])
    (hr : ∀ l ∈ i.lanes.lanes, Reaches s i (stForm .glob z 1 0) (gEa a 0 i l) (place l)) :
    stRel s g z d a sc = .next ((relEffect (touch s i (relChks s i z a)) i sc (relAccs s i z d a place)).advance i 4 true) := by
  have tracked (c : LaneChk) : c.tracked (releaseAt (touch s i (relChks s i z a)) i sc).1 i = c.tracked s i := by
    obtain ⟨tlb, tlb2, walks, cached⟩ := touch_eq s i (relChks s i z a)
    rw [cached]
    rfl
  rw [stRel, withOperands_next h, once_active hl]
  simp only [hx, List.isEmpty_nil, Bool.not_true, Bool.false_eq_true, if_false]
  refine congrArg Host.Outcome.next ((memAccess_good hx (laneChks_good hr) (laneChks_untracked hr) ..).trans ?_)
  rw [← map_storeAcc_relChks hr tracked]
  rfl

/-- It carries the group's vector and clock as they were, and the clock has ticked. -/
theorem stRel_next (h : CanIssue s g (pairOf a ++ runOf d (stCount z)) [] [] i) (hl : i.lanes ≠ 0) (hx : i.g.xfersOf i.f = [])
    (hr : ∀ l ∈ i.lanes.lanes, Reaches s i (stForm .glob z 1 0) (gEa a 0 i l) (place l)) :
    ∃ t f, stRel s g z d a sc = .next t ∧ Passed s t i i.g.tick f ∧ t.blocks = modAt s.blocks i.g.block (fun b => { b with committed := true })
      ∧ t.unperf = s.unperf ++ [mkStore s i (relAccs s i z d a place) .strong sc true (some (i.g.know, i.g.clk, sc))] := by
  have e := stRel_good (sc := sc) h hl hx hr
  obtain ⟨tlb, tlb2, walks, cached⟩ := touch_eq s i (relChks s i z a)
  rw [cached] at e
  have touched : Became s { s with tlb := tlb, tlb2 := tlb2, walks := walks } i i.g i.f := h.toIssuing.became.congr rfl
  obtain ⟨f, became, mem, blocks, unperf⟩ := touched.relEffect sc (acc := relAccs s i z d a place) (by simpa [relAccs] using Mask.lanes_ne_nil hl)
  exact ⟨_, f, e, became.passed rfl rfl mem true, blocks, unperf⟩

end

/-! ### Fences (R237, R245) -/

/-- What the acquire side of a fence leaves when the fence has one, and what it keeps when not. -/
structure AcquireSide (s u : State) (i : Iss) (sc : BitVec 2) (acq : Bool) (y : Group) (f : Frag) : Prop where
  became : Became s u i y f
  mem : u.mem = s.mem
  regs : y.regs = i.g.regs
  preds : y.preds = i.g.preds
  clk : y.clk = i.g.clk
  relVec : f.relVec = i.f.relVec
  acquires : acq = true → f.caps = [] ∧ (sc ≠ 0 → f.acquired = s.fillNo)
  keeps : acq = false → y.know = i.g.know ∧ f.acquired = i.f.acquired

theorem acquireSide {s : State} {g : Bool} {i : Iss} (h : Issuing s g i) (sc : BitVec 2) (acq : Bool) :
    ∃ y f, AcquireSide s (if acq then fenceAcquire s i sc else s) i sc acq y f := by
  cases acq
  case false => exact ⟨i.g, i.f, h.became, rfl, rfl, rfl, rfl, rfl, nofun, fun _ => ⟨rfl, rfl⟩⟩
  case true =>
    obtain ⟨mark, a, became, wide, rest⟩ := h.became.acquire (i.f.caps.foldl _ KVec.zero) sc
    exact ⟨_, _, became, (congrArg State.mem rest).trans rfl, rfl, rfl, rfl, rfl, fun _ => ⟨rfl, wide⟩, nofun⟩

/-- The release side of a fence has its fragment carry the group's vector and clock, which then ticks. -/
theorem Became.fenceRelease {s u : State} {i : Iss} {y : Group} {f : Frag} (h : Became s u i y f) (sc : BitVec 2) :
    Became s (fenceRelease u i sc) i y.tick { f with relVec := some (y.know, y.clk, sc) } := by
  obtain ⟨frags, hg, -⟩ := h.group
  unfold Machine.fenceRelease
  rw [hg]
  exact ((h.modF _).congr (v := State.commit _ i) rfl).modG fun frags hf => ⟨frags, rfl, hf⟩

/-- What a fence leaves behind it in its group and fragment. -/
structure Fenced (s : State) (i : Iss) (sc : BitVec 2) (acq rel : Bool) (y : Group) (f : Frag) : Prop where
  acquires : acq = true → f.caps = [] ∧ (sc ≠ 0 → f.acquired = s.fillNo)
  keeps : acq = false → f.acquired = i.f.acquired
  releases : rel = true → y.clk = ticked i.g.clk ∧ ∃ k, f.relVec = some (k, i.g.clk, sc) ∧ (acq = false → k = i.g.know)
  stays : rel = false → y.clk = i.g.clk ∧ f.relVec = i.f.relVec

theorem fenceOp_next {s : State} {g : Bool} {i : Iss} (h : CanIssue s g [] [] [] i) (hl : i.lanes ≠ 0) (hq : Quiet s i) (sc : BitVec 2)
    (acq rel : Bool) : ∃ t y f, fenceOp s g sc acq rel = .next t ∧ Passed s t i y f ∧ Fenced s i sc acq rel y f := by
  obtain ⟨y, f, side⟩ := acquireSide h.toIssuing sc acq
  rw [fenceOp, withOperands_next h, once_active hl]
  simp only [owesAccess_of_quiet hq, hq.2, Bool.and_false, List.any_nil, Bool.false_eq_true, if_false]
  cases rel
  case false =>
    exact ⟨_, y, f, rfl, side.became.passed side.regs side.preds side.mem _, side.acquires, fun e => (side.keeps e).2, nofun,
      fun _ => ⟨side.clk, side.relVec⟩⟩
  case true =>
    have behind := side.became.fenceRelease sc
    exact ⟨_, _, _, rfl, behind.passed side.regs side.preds side.mem _, side.acquires, fun e => (side.keeps e).2,
      fun _ => ⟨congrArg ticked side.clk, y.know, by rw [side.clk], fun e => (side.keeps e).1⟩, nofun⟩

/-! ### The obligation -/

theorem block_modAt {t : State} {bs : List Block} {bi : Nat} {f : Block → Block} (e : t.blocks = modAt bs bi f) (hb : bi < bs.length) : t.block bi = f bs[bi] := by
  rw [State.block, e, getElem?_modAt, if_pos rfl, List.getElem?_eq_getElem hb]
  rfl

/-- Settles O32: an acquire load by `ldAcq_next`, a release store by `stRel_next`, a fence by `fenceOp_next`; `Passed` says what each of them keeps. -/
theorem orderedAccessesAndFences : Obligations.OrderedAccessesAndFences := by
  unfold Obligations.OrderedAccessesAndFences
  intro same ticked Acq Rel Fence
  have kept {s t : State} {i : Iss} {y : Group} {f : Frag} (p : Passed s t i y f) : same s t i := ⟨p.regs, p.preds, p.pc, p.others, p.mem⟩
  have acquire {x : Instr} {g : Bool} {z d : Nat} {a : BitVec 6} {sc : BitVec 2} (hz : z = 4 ∨ z = 5)
      (hx : ∀ s, exec x s = ldAcq s g z d a sc) : Acq x g z d a sc := by
    intro s i place h hl hq room hr hset
    obtain ⟨t, y, f, e, p, unperf, wide, clk, outst⟩ := ldAcq_next (sc := sc) hz h hl hq room (fun l hl => hr l ((Mask.mem_lanes ..).1 hl)) hset
    exact ⟨t, (hx s).trans e, kept p, unperf, fun hsc => p.acquired.trans (wide hsc), p.clk.trans clk, p.outst.trans outst⟩
  have release {x : Instr} {g : Bool} {z d : Nat} {a : BitVec 6} {sc : BitVec 2} (hz : z = 2 ∨ z = 3)
      (hx : ∀ s, exec x s = stRel s g z d a sc) : Rel x g z d a sc := by
    intro s i place h hl hxf hr
    have whole : stSub z = 0 := by obtain rfl | rfl := hz <;> rfl
    have form : stForm .glob z 1 0 = { size := stSize z, write := true, pol := 1, kind := .write } := by unfold stForm; simp [whole]
    obtain ⟨t, f, e, p, blocks, unperf⟩ := stRel_next (sc := sc) h hl hxf fun l hl => form ▸ hr l ((Mask.mem_lanes ..).1 hl)
    simp only [relAccs, storedAcc_whole whole] at unperf
    exact ⟨t, _, (hx s).trans e, kept p, p.clk, fun hb => by rw [block_modAt blocks hb], unperf⟩
  have fence {mk : Bool → BitVec 2 → Instr} {acq rel : Bool} (hx : ∀ g sc s, exec (mk g sc) s = fenceOp s g sc acq rel) : Fence mk acq rel := by
    intro g sc s i h hl hq
    obtain ⟨t, y, f, e, p, left⟩ := fenceOp_next h hl hq sc acq rel
    refine ⟨t, (hx g sc s).trans e, kept p, ?_⟩
    rw [p.acquired, p.caps, p.relVec, p.clk]
    exact ⟨left.acquires, left.keeps, left.releases, left.stays⟩
  refine ⟨?ldAcq32, ?ldAcq64, ?stRel32, ?stRel64, ?fenceAcq, ?fenceRel, ?fenceAr, ?fenceSc⟩
  case ldAcq32 => exact fun g d a sc => acquire (.inl rfl) fun s => rfl
  case ldAcq64 => exact fun g d a sc => acquire (.inr rfl) fun s => rfl
  case stRel32 => exact fun g d a sc => release (.inl rfl) fun s => rfl
  case stRel64 => exact fun g d a sc => release (.inr rfl) fun s => rfl
  case fenceAcq | fenceRel | fenceAr | fenceSc => exact fence fun g sc s => rfl

end Sys2Proof.Machine
end

section
/-! PROOFS. The issuing group on its way through an instruction that synchronises: what is left of it behind the instruction. -/

namespace Sys2Proof.Machine

open Sys2Proof

/-! ### The issue ends, whatever the instruction's size -/

section
variable {s u : State} {i : Iss} {y : Group} {f : Frag} (h : Became s u i y f)
include h

theorem Became.frag_eq : (u.group i.gi).frag i.fi = f := by
  obtain ⟨frags, hg, hf⟩ := h.group
  rw [hg, Group.frag, hf]
  rfl

/-- The issue makes of the group and its fragment what `advGroup` and `advFrag` say. -/
theorem Became.advance (size : Nat) (noisy : Bool) :
    Became s (u.advance i size noisy) i (advGroup u i (i.f.pc + BitVec.ofNat 52 size) noisy none y)
      (advFrag u i (i.f.pc + BitVec.ofNat 52 size) noisy none f) := by
  have issued := h.modG (F := advGroup u i (i.f.pc + BitVec.ofNat 52 size) noisy none) (y' := advGroup u i (i.f.pc + BitVec.ofNat 52 size) noisy none y)
    fun frags hf => ⟨modAt frags i.fi (advFrag u i (i.f.pc + BitVec.ofNat 52 size) noisy none), rfl, by rw [getElem?_modAt, if_pos rfl, hf]; rfl⟩
  exact issued.congr ((congrArg State.groups (advanceTo_eq u i (i.f.pc + BitVec.ofNat 52 size) noisy none)).trans rfl)

end

/-- `t` is behind an instruction of `size` bytes of the fragment `i` in `s`; its group has the registers, the predicates, the outstanding instructions and the
clock of `y`. -/
structure Advanced (s t : State) (i : Iss) (size : Nat) (y : Group) : Prop where
  regs : (t.group i.gi).regs = y.regs
  preds : (t.group i.gi).preds = y.preds
  outst : (t.group i.gi).outst = y.outst
  clk : (t.group i.gi).clk = y.clk
  pc : ((t.group i.gi).frag i.fi).pc = i.f.pc + BitVec.ofNat 52 size
  others : ∀ k, k ≠ i.gi → t.groups[k]? = s.groups[k]?

theorem Became.advanced {s u : State} {i : Iss} {y : Group} {f : Frag} (h : Became s u i y f) (size : Nat) (noisy : Bool) :
    Advanced s (u.advance i size noisy) i size y := by
  have issued := h.advance size noisy
  obtain ⟨frags, hg, -⟩ := issued.group
  exact ⟨(congrArg Group.regs hg).trans rfl, (congrArg Group.preds hg).trans rfl, (congrArg Group.outst hg).trans rfl, (congrArg Group.clk hg).trans rfl,
    (congrArg Frag.pc issued.frag_eq).trans rfl, issued.others⟩

/-! ### Synchronising (R245, R249) -/

/-- `u` is `v` but for its groups: of those in `s` the issuing group alone has changed, and neither its registers, nor its predicates, nor what it has
outstanding. -/
structure Synced (s v u : State) (i : Iss) : Prop where
  became : ∃ y f, Became s u i y f ∧ y.regs = i.g.regs ∧ y.preds = i.g.preds ∧ y.outst = i.g.outst
  rest : ∃ gs, u = { v with groups := gs }

theorem Became.synced {s v : State} {i : Iss} {y : Group} {f : Frag} (h : Became s v i y f) (hr : y.regs = i.g.regs) (hp : y.preds = i.g.preds)
    (ho : y.outst = i.g.outst) : Synced s v v i := ⟨⟨y, f, h, hr, hp, ho⟩, v.groups, rfl⟩

section
variable {s v u : State} {i : Iss} (h : Synced s v u i)
include h

theorem Synced.modG {F : Group → Group} (hF : ∀ g frags, F { g with frags := frags } = { F g with frags := frags })
    (keeps : ∀ g, (F g).regs = g.regs ∧ (F g).preds = g.preds ∧ (F g).outst = g.outst) : Synced s v (u.modG i.gi F) i := by
  obtain ⟨⟨y, f, became, hr, hp, ho⟩, gs, rfl⟩ := h
  obtain ⟨kr, kp, ko⟩ := keeps y
  exact ⟨⟨F y, f, became.modG fun frags hf => ⟨frags, hF y frags, hf⟩, kr.trans hr, kp.trans hp, ko.trans ho⟩, _, rfl⟩

theorem Synced.modF (U : Frag → Frag) : Synced s v (u.modF i.gi i.fi U) i := by
  obtain ⟨⟨y, f, became, kept⟩, gs, rfl⟩ := h
  exact ⟨⟨y, U f, became.modF U, kept⟩, _, rfl⟩

theorem Synced.learn (k : KVec) : Synced s v (mergeG u i.gi k) i := h.modG (F := fun g => g.learn k) (fun _ _ => rfl) fun _ => ⟨rfl, rfl, rfl⟩

theorem Synced.tick : Synced s v (tickG u i.gi) i := h.modG (fun _ _ => rfl) fun _ => ⟨rfl, rfl, rfl⟩

theorem Synced.acquireFills (sc : BitVec 2) : Synced s v (acquireFills u i.gi i.fi sc) i := by
  obtain ⟨mark, a, e, -⟩ := acquireFills_eq u i.gi i.fi sc
  rw [e]
  exact (h.modG (F := fun g => { g with acquired := mark }) (fun _ _ => rfl) fun _ => ⟨rfl, rfl, rfl⟩).modF _

theorem Synced.carries (release : Bool) (sc : BitVec 2) : Synced s v (carries u i release sc).1 i := by
  cases release
  case false => exact h
  case true => exact (h.modF _).tick

theorem Synced.ite {c : Prop} [Decidable c] {w : State} (hw : Synced s v w i) : Synced s v (if c then w else u) i := by
  split
  · exact hw
  · exact h

end

end Sys2Proof.Machine
end

section
/-! PROOFS. Reductions (R271 to R273): the updates that leave the core, and what each of them carries. -/

namespace Sys2Proof.Machine

open Sys2Proof

/-! ### One lane's update -/

/-- The update of a lane's value, whole or a half of a packed pair; `half` as in `redAcc`. -/
def redPart (n half va pa v : Nat) : LaneAcc :=
  match half with
  | 0 => { lane := 0, va := va, pa := pa, size := 4 * n, val := BitVec.ofNat 128 v }
  | 1 => { lane := 0, va := va, pa := pa, size := 2, val := BitVec.ofNat 128 (v % 65536) }
  | _ => { lane := 0, va := va + 2, pa := pa + 2, size := 2, val := BitVec.ofNat 128 (v / 65536) }

/-- The form of a reduction's accesses. -/
def redForm (n : Nat) : MemForm := { size := 4 * n, write := true, pol := 1, kind := .atomic }
/-- Its checked lanes. -/
abbrev redChks (s : State) (i : Iss) (n : Nat) (a : BitVec 6) : List LaneChk := laneChks s i (redForm n) i.lanes.lanes (gEa a 0 i)
/-- Its updates of one part. -/
def redAccs (i : Iss) (op : AtomOp) (d n : Nat) (a : BitVec 6) (place : Nat → Nat) (half : Nat) : List LaneAcc :=
  i.lanes.lanes.map fun l => { redPart n half (gEa a 0 i l).toNat (place l) (runNat i d n l) with lane := l, op := op, plain := false }

theorem redAcc_of_reaches {s v : State} {i : Iss} {n l pa : Nat} {ea : Int} (h : Reaches s i (redForm n) ea pa)
    (hv : ∀ c, LaneChk.tracked v i c = LaneChk.tracked s i c) (op : AtomOp) (d half : Nat) :
    redAcc v i op d n half (checkLane s i (redForm n) l ea)
      = { redPart n half ea.toNat pa (runNat i d n l) with lane := l, op := op, plain := false } := by
  obtain ⟨-, hpa, htr⟩ := checkLane_of_reaches h l
  unfold redAcc redPart
  rw [hv, htr, hpa]
  match half with
  | 0 => rfl
  | 1 => rfl
  | _ + 2 => rfl

/-! ### Stores issued one after another -/

theorem issueStores_eq {β : Type} {v : State} {st : State → β → Store} (hst : ∀ us b, st { v with unperf := us } b = st v b)
    (hne : ∀ b, (st v b).acc ≠ []) (bs : List β) :
    bs.foldl (fun s b => issueStore s (st s b)) v = { v with unperf := v.unperf ++ bs.map (st v) } := by
  suffices from_any : ∀ us, bs.foldl (fun s b => issueStore s (st s b)) { v with unperf := us } = { v with unperf := us ++ bs.map (st v) } from
    from_any v.unperf
  induction bs with
  | nil => exact fun us => by rw [List.map_nil, List.append_nil]; rfl
  | cons b bs ih =>
    intro us
    have issued : issueStore { v with unperf := us } (st { v with unperf := us } b) = { v with unperf := us ++ [st v b] } := by
      rw [hst, issueStore, if_neg (by simpa using hne b)]
    rw [List.foldl_cons, issued, ih, List.append_assoc]
    rfl

/-- A release carries the group's vector and clock, which then ticks; any other write what a release fence left to carry (R245, R249). -/
theorem Became.carries {s u : State} {i : Iss} {y : Group} {f : Frag} (h : Became s u i y f) (c : Prop) [Decidable c] (sc : BitVec 2) :
    (carries u i c sc).2 = (if c then some (y.know, y.clk, sc) else i.f.relVec) ∧ ∃ f', Became s (carries u i c sc).1 i (if c then y.tick else y) f' := by
  by_cases hc : c
  · obtain ⟨captured, f', released⟩ := h.release sc
    simp only [hc, decide_true, if_true]
    exact ⟨congrArg some captured, f', released⟩
  · simp only [hc, decide_false, if_false]
    exact ⟨rfl, f, h⟩

/-! ### A reduction whose lanes reach their places -/

/-- The store in which updates of a reduction leave the core; `o` is its order, 1 for a release. -/
def redStore (v : State) (i : Iss) (o : BitVec 1) (sc : BitVec 2) (rel : Option (KVec × BitVec 24 × BitVec 2)) (acc : List LaneAcc) : Store :=
  mkStore v i acc (if o = 1 then .strong else .atomic) sc (o = 1) rel

/-- The effect of a reduction: its parts leave the core one after another, and the block has committed. -/
def redEffect (v : State) (i : Iss) (o : BitVec 1) (sc : BitVec 2) (acc : State → Nat → List LaneAcc) (halves : List Nat) : State :=
  (halves.foldl (fun s half => issueStore s (redStore s i o sc (carries v i (o = 1) sc).2 (acc s half))) (carries v i (o = 1) sc).1).commit i

section
variable {s : State} {g : Bool} {i : Iss} {d n : Nat} {a : BitVec 6} {place : Nat → Nat}

theorem redOp_good (h : CanIssue s g (pairOf a ++ runOf d n) [] [] i) (hl : i.lanes ≠ 0) (hx : i.g.xfersOf i.f = [])
    (hr : ∀ l ∈ i.lanes.lanes, Reaches s i (redForm n) (gEa a 0 i l) (place l)) (op : AtomOp) (o : BitVec 1) (sc : BitVec 2) (halves : List Nat) :
    redOp s g op d n a o sc halves = .next ((redEffect (touch s i (redChks s i n a)) i o sc
      (fun v half => (redChks s i n a).map (redAcc v i op d n half)) halves).advance i 4 true) := by
  have kept : (redChks s i n a).filter (·.good) = redChks s i n a := List.filter_eq_self.2 (laneChks_good hr)
  rw [redOp, withOperands_next h, once_active hl]
  simp only [hx, List.isEmpty_nil, Bool.not_true, Bool.and_false, Bool.false_eq_true, if_false]
  refine congrArg Host.Outcome.next ((memAccess_good hx (laneChks_good hr) (laneChks_untracked hr) ..).trans ?_)
  exact congrArg (fun cs => (redEffect (touch s i (redChks s i n a)) i o sc (fun v half => cs.map (redAcc v i op d n half)) halves).advance i 4 true)
    kept

/-- A reduction ready to leave the core, with what its updates carry. -/
abbrev redReady (s : State) (i : Iss) (n : Nat) (a : BitVec 6) (o : BitVec 1) (sc : BitVec 2) : State × Option (KVec × BitVec 24 × BitVec 2) :=
  carries (touch s i (redChks s i n a)) i (o = 1) sc

/-- The updates leave the core part by part, and the group is as before but for the clock of a release. -/
theorem redOp_next (h : CanIssue s g (pairOf a ++ runOf d n) [] [] i) (hl : i.lanes ≠ 0) (hx : i.g.xfersOf i.f = [])
    (hr : ∀ l ∈ i.lanes.lanes, Reaches s i (redForm n) (gEa a 0 i l) (place l)) (op : AtomOp) (o : BitVec 1) (sc : BitVec 2) (halves : List Nat) :
    ∃ t y f, redOp s g op d n a o sc halves = .next t ∧ Passed s t i y f ∧ y.outst = i.g.outst
      ∧ t.unperf = s.unperf ++ halves.map fun half =>
          redStore s i o sc (if o = 1 then some (i.g.know, i.g.clk, sc) else i.f.relVec) (redAccs i op d n a place half) := by
  have e := redOp_good h hl hx hr op o sc halves
  obtain ⟨tlb, tlb2, walks, cached⟩ := touch_eq s i (redChks s i n a)
  have touched : Became s (touch s i (redChks s i n a)) i i.g i.f := h.toIssuing.became.congr (by rw [cached])
  obtain ⟨carried, f, became⟩ := touched.carries (o = 1) sc
  obtain ⟨-, gs, rest⟩ := (touched.synced rfl rfl rfl).carries (o = 1) sc
  have left := issueStores_eq (v := (redReady s i n a o sc).1) (st := fun s' half => redStore s' i o sc
    (redReady s i n a o sc).2 ((redChks s i n a).map (redAcc s' i op d n half))) (fun _ _ => rfl)
    (fun half => by simpa [redStore, mkStore, laneChks] using Mask.lanes_ne_nil hl) halves
  have tracked (c : LaneChk) : c.tracked (redReady s i n a o sc).1 i = c.tracked s i := by rw [rest, cached]; rfl
  have accs (half : Nat) : (redChks s i n a).map (redAcc (redReady s i n a o sc).1 i op d n half) = redAccs i op d n a place half :=
    List.map_map.trans (List.map_congr_left fun l hl => redAcc_of_reaches (hr l hl) tracked op d half)
  rw [redEffect, left, carried] at e
  simp only [accs] at e
  refine ⟨_, _, f, e, (became.congr ?_).passed ?_ ?_ ?_ true, ?_, ?_⟩
  · rfl
  · split <;> rfl
  · split <;> rfl
  · change (redReady s i n a o sc).1.mem = s.mem
    rw [rest, cached]
  · split <;> rfl
  · change (redReady s i n a o sc).1.unperf ++ _ = _
    rw [rest, cached]
    rfl

end

/-- Settles O36: each reduction by `redOp_next`, in one part or in the two halves of packed pairs. -/
theorem reductionsLeaveTheCore : Obligations.ReductionsLeaveTheCore := by
  unfold Obligations.ReductionsLeaveTheCore
  intro Red whole half W
  have red {x : Instr} {g : Bool} {d n : Nat} {a : BitVec 6} {o : BitVec 1} {sc : BitVec 2} {op : AtomOp} {halves : List Nat}
      {parts : List (Nat → Nat → Nat → LaneAcc)}
      (hp : parts = halves.map (redPart n)) (hx : ∀ s, exec x s = redOp s g op d n a o sc halves) : Red x g d n a o sc op parts := by
    intro s i place h hl hxf hr
    obtain ⟨t, y, f, e, p, outst, unperf⟩ := redOp_next h hl hxf (fun l hl => hr l ((Mask.mem_lanes ..).1 hl)) op o sc halves
    refine ⟨t, (hx s).trans e, ?_, p.mem, p.regs, p.preds, p.pc, p.outst.trans outst, p.others⟩
    rw [unperf, hp, List.map_map]
    rfl
  have single {mk : Bool → Fld → BitVec 6 → BitVec 1 → BitVec 2 → Instr} {op : AtomOp}
      (hx : ∀ g d a o sc s, exec (mk g d a o sc) s = redOp s g op d.toNat 1 a o sc) :
      W mk op := fun g d a o sc => red (halves := [0]) rfl (hx g d a o sc)
  refine ⟨?add, ?addF32, ?minI, ?maxI, ?minZ, ?maxZ, ?and, ?or, ?xor, ?minF32, ?maxF32, ?addBf16x2, ?addF16x2, ?add64⟩
  case add | addF32 | minI | maxI | minZ | maxZ | and | or | xor | minF32 | maxF32 => exact single fun g d a o sc s => rfl
  case addBf16x2 | addF16x2 => exact fun g d a o sc => red (halves := [1, 2]) rfl fun s => rfl
  case add64 => exact fun g d a o sc => red (halves := [0]) rfl fun s => rfl

end Sys2Proof.Machine
end

section
/-! PROOFS. Waits on words (R281 to R283): an entry that a write has satisfied and that the model has not yet read does not let the wait go on. -/

namespace Sys2Proof.Machine

open Sys2Proof

/-! ### An entry that no read has taken up -/

/-- What a satisfied entry hands over is read by `seeWoa` first; until then the wait stands where it is. -/
theorem woaOp_unseen {s : State} {g : Bool} {i : Iss} {d a : BitVec 6} {place : Nat} {w : Woa}
    (h : CanIssue s g (pairOf d ++ pairOf a) [(pairFld d).toNat] [] i) (hl : i.lanes ≠ 0) (hq : Quiet s i) (hs : Settled s [(place, 4)])
    (hr : Reaches s i { size := 4, pol := 1 } (gEa a 0 i i.lo) place) (hw : s.woas.find? (fun w => w.who == .frag i.gi i.f.fid) = some w)
    (unseen : w.seen = false) (sc : BitVec 2) (cmp : WoaCmp) :
    ∃ t, woaOp s g d a sc cmp = .next t ∧ ((t.group i.gi).frag i.fi).pc = i.f.pc := by
  obtain ⟨good, pa, -⟩ := checkLane_of_reaches hr i.lo
  obtain ⟨tlb, tlb2, walks, cached⟩ := touch_eq (dropL1 s i.g.core place 4) i [checkLane s i { size := 4, pol := 1 } i.lo (gEa a 0 i i.lo)]
  have drained : drainOwn s i.gi i.f [(place, 4)] = s := drainHit_of_no_hit (not_ahead hq hs.1)
  rw [woaOp, withOperands_next h, once_active hl]
  simp only [good, pa, xferClash_of_quiet hq, xferAhead_of_settled hq hs, drained, cached, Bool.not_true, Bool.or_self, Bool.false_eq_true, if_false]
  have kept : ((dropL1 s i.g.core place 4).woas.find? fun w => w.who == .frag i.gi i.f.fid) = some w := hw
  have waits (v : State) (hv : v.groups = s.groups) : (((v.wait i (.woa w.n)).group i.gi).frag i.fi).pc = i.f.pc :=
    (congrArg Frag.pc ((h.toIssuing.became.congr hv).modF fun f => { f with stall := some (.woa w.n) }).frag_eq :)
  refine ⟨_, rfl, ?_⟩
  simp only [State.commit, State.modB_woas, kept, unseen]
  cases w.hit <;> exact waits _ rfl

/-! ### Such an entry -/

/-- The machine in which one fragment is issued, with zero in every register, waits on any change of the word at address 0, at 2 MiB, and a write of a zero has
satisfied its entry. -/
def unseenState : State :=
  { State.reset.withFetchWord 32 0 with
    cur := some (0, 0)
    woas := [{ n := 0, who := .frag 0 0, pa := 0x200000, va := 0, mask := 0, cmp := .any, exp := 0, hit := some 0 }] }

/-- Its fragment. -/
def unseenIss : Iss :=
  ⟨0, 0, unseenState.group 0, (unseenState.group 0).frag 0, activeLanes (unseenState.group 0) ((unseenState.group 0).frag 0) false⟩

theorem unseenState_canIssue : CanIssue unseenState false (pairOf 0 ++ pairOf 0) [(pairFld 0).toNat] [] unseenIss where
  cur := rfl
  gi := by decide +kernel
  fi := by decide +kernel
  held := by decide +kernel
  free := by decide +kernel
  clean := by decide +kernel
  cleanGuard := by decide +kernel
  cleanPred := by decide +kernel
  sound := by decide +kernel

theorem exists_ok_of_any {ε α : Type} {p : α → Bool} : {x : Except ε α} → x.toOption.any p = true → ∃ y, x = .ok y ∧ p y = true
  | .ok y, h => ⟨y, rfl, h⟩

theorem unseenState_reaches : Reaches unseenState unseenIss { size := 4, pol := 1 } (gEa 0 0 unseenIss unseenIss.lo) 0x200000 := by
  have mapped : (access unseenState unseenIss.g.core (unseenState.pasidOf unseenIss.g)
      (MemForm.byteOf { size := 4, pol := 1 } (gEa 0 0 unseenIss unseenIss.lo)).toNat .read).toOption.any
      (fun y => y.1 == 0x200000 && !isTracked unseenState (unseenState.pasidOf unseenIss.g) y.2) = true := by decide +kernel
  refine ⟨fun _ => by decide +kernel, ?_⟩
  obtain ⟨⟨pa, x⟩, found, holds⟩ := exists_ok_of_any mapped
  simp only [Bool.and_eq_true, beq_iff_eq, Bool.not_eq_true'] at holds
  obtain ⟨rfl, untracked⟩ := holds
  exact ⟨x, found, untracked, rfl⟩

/-- Refutes O38: an entry that a write has satisfied, `unseenState`'s, lets the wait stand until the model has read it, and the first clause promises that it
goes on. -/
theorem not_waitsOnWords : ¬ Obligations.WaitsOnWords := by
  unfold Obligations.WaitsOnWords
  rintro ⟨-, -, -, -, any, -⟩
  have quiet : Quiet unseenState unseenIss := ⟨rfl, rfl⟩
  have settled : Settled unseenState [(0x200000, 4)] := ⟨fun _ he => absurd he List.not_mem_nil, by decide +kernel⟩
  have active : unseenIss.lanes ≠ 0 := by decide +kernel
  obtain ⟨goes, -⟩ := any false 0 0 0 unseenState unseenIss 0x200000 unseenState_canIssue active quiet settled unseenState_reaches
  obtain ⟨t, stepped, -, advanced, -⟩ := goes _ rfl rfl rfl 0 rfl
  obtain ⟨u, waited, stood⟩ := woaOp_unseen unseenState_canIssue active quiet settled unseenState_reaches rfl rfl 0 .any
  have same : t = u := Host.Outcome.next.inj (stepped.symm.trans waited)
  rw [same, stood] at advanced
  exact absurd advanced (by decide +kernel)

end Sys2Proof.Machine
end

section
/-! PROOFS. Returning atomics (R264 to R270): the lanes' words are updated one after another, and the old values are owed. -/

namespace Sys2Proof.Machine

open Sys2Proof

/-! ### What a lane brings -/

/-- The registers of a run hold as many bits as they are long. -/
theorem Iss.run_lt (i : Iss) (d n l : Nat) : i.run d n l < 2 ^ (32 * n) := by
  have from_words (ks : List Nat) : ks.foldr (fun k v => (i.reg (d + k) l).toNat + 2 ^ 32 * v) 0 < 2 ^ (32 * ks.length) := by
    induction ks with
    | nil => exact Nat.one_pos
    | cons k ks ih =>
      have word := (i.reg (d + k) l).isLt
      rw [List.foldr_cons, List.length_cons, Nat.mul_succ, Nat.add_comm (32 * ks.length), Nat.pow_add]
      omega
  have bits := from_words (List.range n)
  rwa [List.length_range] at bits

/-- An operand of up to four registers is not cut. -/
theorem Iss.toNat_run (i : Iss) (d l : Nat) {n : Nat} (hn : n ≤ 4) : (BitVec.ofNat 128 (i.run d n l)).toNat = runNat i d n l := by
  have wide : 2 ^ (32 * n) ≤ 2 ^ 128 := Nat.pow_le_pow_right Nat.two_pos (by omega)
  exact Nat.mod_eq_of_lt (Nat.lt_of_lt_of_le (i.run_lt d n l) wide)

/-- The form of an atomic's accesses. -/
def atomForm (space : Space) (n : Nat) : MemForm := { space := space, size := 4 * n, write := true, pol := 1, kind := .atomic }
/-- Its checked lanes. -/
abbrev atomChks (s : State) (i : Iss) (space : Space) (n : Nat) (ea : Iss → Nat → Int) : List LaneChk := laneChks s i (atomForm space n) i.lanes.lanes (ea i)
/-- The update of one of them. -/
def atomAcc (i : Iss) (op : AtomOp) (d c n : Nat) (k : LaneChk) : LaneAcc :=
  { lane := k.lane, va := k.va, pa := k.pa, size := 4 * n, op := op, plain := false, val := BitVec.ofNat 128 (i.run d n k.lane),
    cmp := BitVec.ofNat 128 (i.run c n k.lane) }

/-! ### The lanes one after another (R267, R268) -/

/-- The bytes behind one more update, and the old values so far. -/
def atomPut (i : Iss) (d n : Nat) (r : Mem × List RegWrite) (x : LaneAcc) : Mem × List RegWrite :=
  (accPut r.1 x, r.2 ++ laneWrites i d x.lane n (r.1.le x.pa x.size))

/-- `w` is `u` but for its caches, its waiters and the bytes `m` of memory. -/
structure Homed (u w : State) (m : Mem) : Prop where
  mem : w.mem = m
  memBad : w.memBad = u.memBad
  groups : w.groups = u.groups
  blocks : w.blocks = u.blocks
  seq : w.seq = u.seq
  unperf : w.unperf = u.unperf

theorem Homed.refl (u : State) : Homed u u u.mem := ⟨rfl, rfl, rfl, rfl, rfl, rfl⟩

theorem Homed.trans {u v w : State} {m m' : Mem} (h : Homed u v m) (h' : Homed v w m') : Homed u w m' :=
  ⟨h'.mem, h'.memBad.trans h.memBad, h'.groups.trans h.groups, h'.blocks.trans h.blocks, h'.seq.trans h.seq, h'.unperf.trans h.unperf⟩

/-- An untracked update performs at its home: its bytes change, and the copies of its line. -/
theorem performLane_homed {s : State} (hb : s.memBad = []) (e : Store) {x : LaneAcc} (hx : x.tracked = false) :
    Homed s (performLane s e x) (accPut s.mem x) := by
  obtain ⟨l2, filled⟩ := touchL2_eq s e.pasid x.lcls true x.pa
  have unmarked : s.badAt x.pa x.size = false := by simp [State.badAt, hb]
  unfold performLane
  simp only [unmarked, hx, filled, Bool.and_false, Bool.not_false, Bool.false_eq_true, if_false, if_true]
  refine List.foldlRecOn _ _ (motive := fun w => Homed s w (accPut s.mem x)) ⟨rfl, ?_, rfl, rfl, rfl, rfl⟩ fun w hw core _ => ?_
  · change s.memBad.filter _ = s.memBad
    rw [hb, List.filter_nil]
  · split <;> exact ⟨hw.mem, hw.memBad, hw.groups, hw.blocks, hw.seq, hw.unperf⟩

/-- An atomic on memory: each update performs at its home. -/
theorem atomAll_glob {s : State} (hb : s.memBad = []) (i : Iss) (d n : Nat) {e : Store} (he : ∀ x ∈ e.acc, x.tracked = false) :
    ∃ w, Homed s w (e.acc.foldl (atomPut i d n) (s.mem, [])).1
      ∧ atomAll s i .glob d n e = w.owe i .at (e.acc.foldl (atomPut i d n) (s.mem, [])).2 := by
  suffices from_any : ∀ (xs : List LaneAcc) (u : State) (ws : List RegWrite), u.memBad = [] → (∀ x ∈ xs, x.tracked = false) →
      ∃ w, Homed u w (xs.foldl (atomPut i d n) (u.mem, ws)).1
        ∧ xs.foldl (fun (a : State × List RegWrite) x => ((atomLane a.1 i .glob e x).1, a.2 ++ laneWrites i d x.lane n (atomLane a.1 i .glob e x).2)) (u, ws)
          = (w, (xs.foldl (atomPut i d n) (u.mem, ws)).2) by
    obtain ⟨w, homed, folded⟩ := from_any e.acc s [] hb he
    exact ⟨w, homed, congrArg (fun r : State × List RegWrite => r.1.owe i .at r.2) folded⟩
  intro xs
  induction xs with
  | nil => exact fun u ws _ _ => ⟨u, .refl u, rfl⟩
  | cons x xs ih =>
    intro u ws hu hxs
    have untracked := hxs x List.mem_cons_self
    have one := performLane_homed hu e untracked
    obtain ⟨w, homed, folded⟩ := ih (performLane u e x) (ws ++ laneWrites i d x.lane n (u.mem.le x.pa x.size)) (one.memBad.trans hu)
      fun y hy => hxs y (List.mem_cons_of_mem x hy)
    have lane : atomLane u i .glob e x = (performLane u e x, u.mem.le x.pa x.size) := by simp only [atomLane, untracked, Bool.false_eq_true, if_false]
    rw [one.mem] at homed folded
    rw [List.foldl_cons, List.foldl_cons, lane]
    exact ⟨w, one.trans homed, folded⟩

theorem State.block_modB {s : State} {bi : Nat} (h : bi < s.blocks.length) (f : Block → Block) : (s.modB bi f).block bi = f (s.block bi) := by
  rw [State.block, State.block, State.modB, getElem?_modAt, if_pos rfl, List.getElem?_eq_getElem h]
  rfl

/-- An atomic on scratchpad: its bytes change. -/
theorem atomAll_scratch {s : State} {i : Iss} (hb : (s.block i.g.block).spBad = []) (hin : i.g.block < s.blocks.length) (d n : Nat) (e : Store) :
    atomAll s i .scratch d n e = (withSp s i.g.block fun _ => (e.acc.foldl (atomPut i d n) ((s.block i.g.block).sp, [])).1).owe i .at
      (e.acc.foldl (atomPut i d n) ((s.block i.g.block).sp, [])).2 := by
  have held (f : Mem → Mem) : ((withSp s i.g.block f).block i.g.block).sp = f (s.block i.g.block).sp := by
    rw [withSp, State.block_modB hin]
  suffices from_any : ∀ (xs : List LaneAcc) (m : Mem) (ws : List RegWrite),
      xs.foldl (fun (a : State × List RegWrite) x => ((atomLane a.1 i .scratch e x).1, a.2 ++ laneWrites i d x.lane n (atomLane a.1 i .scratch e x).2))
          (withSp s i.g.block fun _ => m, ws)
        = (withSp s i.g.block fun _ => (xs.foldl (atomPut i d n) (m, ws)).1, (xs.foldl (atomPut i d n) (m, ws)).2) by
    have folded := from_any e.acc (s.block i.g.block).sp []
    have same : withSp s i.g.block (fun _ => (s.block i.g.block).sp) = s := (State.modB_congr (h := fun b => b) rfl).trans (withSp_id s i.g.block)
    rw [same] at folded
    exact congrArg (fun r : State × List RegWrite => r.1.owe i .at r.2) folded
  intro xs
  induction xs with
  | nil => exact fun m ws => rfl
  | cons x xs ih =>
    intro m ws
    have lane : atomLane (withSp s i.g.block fun _ => m) i .scratch e x = (withSp s i.g.block fun _ => accPut m x, m.le x.pa x.size) := by
      refine Prod.ext ((spStoreLane_eq ((withSp_spBad ..).trans hb) x).trans (withSp_withSp ..)) ?_
      exact congrArg (fun sp : Mem => sp.le x.pa x.size) (held _)
    rw [List.foldl_cons, List.foldl_cons, lane]
    exact ih ..

/-! ### An atomic whose lanes reach their places -/

/-- What an atomic's lanes acquire (R251, R266); `v` is the state behind the checks. -/
def atomAcquired (v : State) (i : Iss) (space : Space) (n : Nat) (order sc : BitVec 2) (cs : List LaneChk) : State :=
  let acq := order = 1 ∨ order = 3
  let know := if acq ∧ space = .glob then acquireVecs v i cs (4 * n) sc else KVec.zero
  let s := mergeG (if space = .glob then captureAll v i cs (4 * n) else v) i.gi know
  let s := if acq then acquireFills s i.gi i.fi sc else s
  if acq ∧ space = .scratch ∧ (s.blockOf i.g).spRace then s.modG i.gi fun g => { g with spBlind := true } else s

/-- The state in which its updates are made: it has acquired, and has ticked if it releases. -/
def atomReady (v : State) (i : Iss) (space : Space) (n : Nat) (order sc : BitVec 2) (cs : List LaneChk) : State :=
  (carries (atomAcquired v i space n order sc cs) i (order = 2 ∨ order = 3) sc).1

/-- Its effect behind the checks. -/
def atomEffect (v : State) (i : Iss) (space : Space) (d c n : Nat) (op : AtomOp) (order sc : BitVec 2) (cs : List LaneChk) : State :=
  (atomAll (atomReady v i space n order sc cs) i space d n (mkStore (atomReady v i space n order sc cs) i
    (cs.map fun k => { atomAcc i op d c n k with tracked := k.tracked (atomReady v i space n order sc cs) i }) (if order = 0 then .atomic else .strong) sc false
    (carries (atomAcquired v i space n order sc cs) i (order = 2 ∨ order = 3) sc).2)).commit i

theorem atomReady_synced {s v : State} {i : Iss} (h : Became s v i i.g i.f) (space : Space) (n : Nat) (order sc : BitVec 2) (cs : List LaneChk) :
    Synced s v (atomReady v i space n order sc cs) i := by
  have kept : Synced s v v i := h.synced rfl rfl rfl
  have learned := ((kept.ite (c := space = .glob) (kept.modF _ : Synced s v (captureAll v i cs (4 * n)) i)).learn
    (if (order = 1 ∨ order = 3) ∧ space = .glob then acquireVecs v i cs (4 * n) sc else KVec.zero))
  have acquired := learned.ite (c := order = 1 ∨ order = 3) (learned.acquireFills sc)
  exact (acquired.ite (acquired.modG (F := fun g => { g with spBlind := true }) (fun _ _ => rfl) fun _ => ⟨rfl, rfl, rfl⟩)).carries _ sc

section
variable {s : State} {g : Bool} {i : Iss} {areg dreg creg : List Nat} {n : Nat} {space : Space} {ea : Iss → Nat → Int} {place : Nat → Nat}

/-- No error stands in the lines of its words. -/
theorem lineBad_of_reaches {l : Nat} (hr : Reaches s i (atomForm space n) (ea i l) (place l)) (k : LaneChk) : lineBad s i space k = false := by
  cases space
  · obtain ⟨-, -, -, -, unmarked⟩ := hr
    simp [lineBad, State.badAt, unmarked]
  · obtain ⟨-, -, -, -, unmarked⟩ := hr
    simp [lineBad, unmarked]

theorem atomOp_good (h : CanIssue s g (areg ++ dreg ++ creg) dreg [] i) (hl : i.lanes ≠ 0) (hq : Quiet s i) (room : i.g.count .at < 63)
    (hr : ∀ l ∈ i.lanes.lanes, Reaches s i (atomForm space n) (ea i l) (place l))
    (hset : space = .glob → Settled s (i.lanes.lanes.map fun l => (place l, 4 * n))) (d c : Nat) (op : AtomOp) (order sc : BitVec 2) (size : Nat) :
    atomOp s g areg dreg creg d c n (4 * n) space op order sc size ea
      = .next ((atomEffect (touch s i (atomChks s i space n ea)) i space d c n op order sc (atomChks s i space n ea)).advance i size true) := by
  have places := goodBytes_laneChks hr (4 * n)
  have settled : ¬(space = .glob ∧ xferAhead s i.gi i.f (goodBytes (atomChks s i space n ea) (4 * n)) = true) := fun ⟨hg, hx⟩ => by
    rw [places, xferAhead_of_settled hq (hset hg)] at hx
    cases hx
  obtain ⟨l, some_lane⟩ := List.exists_mem_of_ne_nil _ (Mask.lanes_ne_nil hl)
  have sound : (if badLanes (atomChks s i space n ea) = 0 then (atomChks s i space n ea).find? (lineBad s i space) else none) = none := by
    rw [if_pos (badLanes_of_good (laneChks_good hr)), List.find?_eq_none]
    exact fun k _ => by rw [lineBad_of_reaches (hr l some_lane)]; exact Bool.false_ne_true
  obtain ⟨tlb, tlb2, walks, cached⟩ := touch_eq s i (atomChks s i space n ea)
  have drained : (if space = .glob then drainOwn (touch s i (atomChks s i space n ea)) i.gi i.f (goodBytes (atomChks s i space n ea) (4 * n))
      else touch s i (atomChks s i space n ea)) = touch s i (atomChks s i space n ea) := by
    split
    · rename_i hg
      rw [places, cached]
      exact drainHit_of_no_hit (not_ahead hq (hset hg).1)
    · rfl
  rw [atomOp, withOperands_next h, once_active hl]
  simp only [pathFull_eq_false room, owesAccess_of_quiet hq, owesStrong_of_quiet hq, Bool.false_eq_true, and_false, if_false]
  refine congrArg Host.Outcome.next ((if_neg settled).trans ?_)
  change (match (if badLanes (atomChks s i space n ea) = 0 then (atomChks s i space n ea).find? (lineBad s i space) else none) with
    | some k => _ | none => _) = _
  rw [sound]
  refine (memAccess_good hq.2 (laneChks_good hr) (laneChks_untracked hr) ..).trans ?_
  exact congrArg (fun v => (atomEffect v i space d c n op order sc (atomChks s i space n ea)).advance i size true) drained

/-- It makes its lanes' updates in a state in which, besides its group, only cached translations have changed. -/
theorem atomOp_next (h : CanIssue s g (areg ++ dreg ++ creg) dreg [] i) (hl : i.lanes ≠ 0) (hq : Quiet s i) (room : i.g.count .at < 63)
    (hr : ∀ l ∈ i.lanes.lanes, Reaches s i (atomForm space n) (ea i l) (place l))
    (hset : space = .glob → Settled s (i.lanes.lanes.map fun l => (place l, 4 * n))) (d c : Nat) (op : AtomOp) (order sc : BitVec 2) (size : Nat) :
    ∃ tlb tlb2 walks w e, Synced s { s with tlb := tlb, tlb2 := tlb2, walks := walks } w i ∧ e.acc = (atomChks s i space n ea).map (atomAcc i op d c n)
      ∧ atomOp s g areg dreg creg d c n (4 * n) space op order sc size ea = .next (((atomAll w i space d n e).commit i).advance i size true) := by
  obtain ⟨tlb, tlb2, walks, cached⟩ := touch_eq s i (atomChks s i space n ea)
  have issued := atomOp_good h hl hq room hr hset d c op order sc size
  rw [cached] at issued
  have touched : Became s { s with tlb := tlb, tlb2 := tlb2, walks := walks } i i.g i.f := h.toIssuing.became.congr rfl
  have ready := atomReady_synced touched space n order sc (atomChks s i space n ea)
  refine ⟨tlb, tlb2, walks, _, _, ready, List.map_congr_left fun k hk => ?_, issued⟩
  obtain ⟨gs, rest⟩ := ready.rest
  have untracked : k.tracked (atomReady { s with tlb := tlb, tlb2 := tlb2, walks := walks } i space n order sc (atomChks s i space n ea)) i = false := by
    rw [rest]
    exact laneChks_untracked hr k hk
  rw [untracked]
  rfl

/-! ### The outcome -/

/-- The bytes behind one more lane, and the old values so far, as R268 has them. -/
def atomStep (i : Iss) (d c n : Nat) (place : Nat → Nat) (f : Nat → Nat → Nat → Nat) (r : Mem × List RegWrite) (l : Nat) : Mem × List RegWrite :=
  (r.1.write (place l) (leBytes (4 * n) (f (r.1.le (place l) (4 * n)) (runNat i d n l) (runNat i c n l))), r.2 ++ laneWrites i d l n (r.1.le (place l) (4 * n)))

/-- The bytes behind all its lanes in order, and their old values. -/
def atomRun (i : Iss) (d c n : Nat) (place : Nat → Nat) (f : Nat → Nat → Nat → Nat) (m : Mem) : Mem × List RegWrite :=
  i.lanes.lanes.foldl (atomStep i d c n place f) (m, [])

theorem foldl_atomPut {op : AtomOp} {f : Nat → Nat → Nat → Nat} (hn : n ≤ 4) (hf : atomApply op = f)
    (hr : ∀ l ∈ i.lanes.lanes, Reaches s i (atomForm space n) (ea i l) (place l)) (d c : Nat) (m : Mem) :
    ((atomChks s i space n ea).map (atomAcc i op d c n)).foldl (atomPut i d n) (m, []) = atomRun i d c n place f m := by
  rw [atomRun, atomChks, laneChks, List.map_map, List.foldl_map]
  refine List.foldl_ext _ _ _ fun r l hl => ?_
  obtain ⟨-, pa, -⟩ := checkLane_of_reaches (hr l hl) l
  have operand (k : Nat) : (BitVec.ofNat 128 (i.run k n l)).toNat = runNat i k n l := i.toNat_run k l hn
  have acc : atomAcc i op d c n (checkLane s i (atomForm space n) l (ea i l)) =
      { lane := l, va := (checkLane s i (atomForm space n) l (ea i l)).va, pa := place l, size := 4 * n, op := op, plain := false,
        val := BitVec.ofNat 128 (i.run d n l), cmp := BitVec.ofNat 128 (i.run c n l) } := by
    rw [← pa]
    rfl
  subst hf
  simp only [Function.comp, acc, atomPut, accPut, atomStep, operand, Bool.false_eq_true, if_false]

/-- The updates keep every byte outside their places. -/
theorem atomRun_get {m : Mem} (hm : m.wf = true) {a : Nat} (ha : ∀ l ∈ i.lanes.lanes, a < place l ∨ place l + 4 * n ≤ a) (d c : Nat)
    (f : Nat → Nat → Nat → Nat) : (atomRun i d c n place f m).1.get a = m.get a := by
  refine (List.foldlRecOn i.lanes.lanes _ (motive := fun r : Mem × List RegWrite => r.1.wf = true ∧ r.1.get a = m.get a) ⟨hm, rfl⟩ fun r hrun l hl => ?_).2
  refine ⟨Mem.write_wf _ _ _ hrun.1, ?_⟩
  have outside := ha l hl
  rw [atomStep, Mem.get_write _ _ _ _ hrun.1, length_leBytes, if_neg (by omega), hrun.2]

end

/-- The old values are owed, and the fragment goes on. -/
theorem Synced.owed {s v w u : State} {i : Iss} (h : Synced s v w i) (hg : u.groups = w.groups) (p : Path) (ws : List RegWrite) (size : Nat) :
    ∃ y, Advanced s (((u.owe i p ws).commit i).advance i size true) i size y ∧ y.regs = i.g.regs ∧ y.preds = i.g.preds
      ∧ y.outst = i.g.outst ++ [{ path := p, seq := u.seq + 1, fid := i.f.fid, writes := ws }] := by
  obtain ⟨⟨y, f, became, regs, preds, outst⟩, -⟩ := h
  have owed := (became.congr hg).modG (F := fun g => { g with outst := g.outst ++ [{ path := p, seq := u.seq + 1, fid := i.f.fid, writes := ws }] })
    (y' := { y with outst := y.outst ++ [{ path := p, seq := u.seq + 1, fid := i.f.fid, writes := ws }] }) fun frags hf => ⟨frags, rfl, hf⟩
  exact ⟨_, (owed.congr (v := (u.owe i p ws).commit i) rfl).advanced size true, regs, preds, congrArg (· ++ _) outst⟩

/-- A scratchpad access finds its block. -/
theorem block_lt_of_reaches {s : State} {i : Iss} {m : MemForm} {ea : Int} {pa : Nat} (hm : m.space = .scratch) (h : Reaches s i m ea pa) (hs : 0 < m.size) :
    i.g.block < s.blocks.length := by
  unfold Reaches at h
  simp only [hm] at h
  obtain ⟨-, at_, inside, -⟩ := h
  refine Nat.lt_of_not_le fun out => ?_
  have missing : (s.blockOf i.g).spSize = 0 := by rw [State.blockOf, State.block, List.getElem?_eq_none out]; rfl
  omega

section
variable {s : State} {g : Bool} {i : Iss} {areg dreg creg : List Nat} {n d : Nat} {ea : Iss → Nat → Int} {place : Nat → Nat}

theorem commit_sp {u v : State} (h : v.blocks = u.blocks) (i : Iss) (b : Nat) : ((v.commit i).block b).sp = (u.block b).sp := by
  simp only [State.commit, State.block, State.modB, getElem?_modAt, h]
  split
  · cases u.blocks[b]? <;> rfl
  · rfl

/-- What every atomic leaves, in either space. -/
structure AtomDone (s t : State) (i : Iss) (size : Nat) (ws : List RegWrite) : Prop where
  outst : (t.group i.gi).outst = i.g.outst ++ [{ path := .at, seq := s.seq + 1, fid := i.f.fid, writes := ws }]
  regs : (t.group i.gi).regs = i.g.regs
  preds : (t.group i.gi).preds = i.g.preds
  pc : ((t.group i.gi).frag i.fi).pc = i.f.pc + BitVec.ofNat 52 size
  unperf : t.unperf = s.unperf
  others : ∀ k, k ≠ i.gi → t.groups[k]? = s.groups[k]?

theorem Synced.atomDone {s v w u : State} {i : Iss} (h : Synced s v w i) (hg : u.groups = w.groups) (hs : u.seq = s.seq) (hu : u.unperf = s.unperf)
    (ws : List RegWrite) (size : Nat) : AtomDone s (((u.owe i .at ws).commit i).advance i size true) i size ws := by
  obtain ⟨y, adv, regs, preds, outst⟩ := h.owed hg .at ws size
  exact ⟨adv.outst.trans (hs ▸ outst), adv.regs.trans regs, adv.preds.trans preds, adv.pc, hu, adv.others⟩

theorem atomOp_glob {op : AtomOp} {f : Nat → Nat → Nat → Nat} (hn : n ≤ 4) (hf : atomApply op = f)
    (h : CanIssue s g (areg ++ dreg ++ creg) dreg [] i) (hl : i.lanes ≠ 0) (hq : Quiet s i) (room : i.g.count .at < 63)
    (hr : ∀ l ∈ i.lanes.lanes, Reaches s i (atomForm .glob n) (ea i l) (place l)) (hset : Settled s (i.lanes.lanes.map fun l => (place l, 4 * n)))
    (d c : Nat) (order sc : BitVec 2) (size : Nat) :
    ∃ t, atomOp s g areg dreg creg d c n (4 * n) .glob op order sc size ea = .next t ∧ AtomDone s t i size (atomRun i d c n place f s.mem).2
      ∧ t.mem = (atomRun i d c n place f s.mem).1 ∧ ∀ b, (t.block b).sp = (s.block b).sp := by
  obtain ⟨tlb, tlb2, walks, w, e, synced, acc, next⟩ := atomOp_next h hl hq room hr (fun _ => hset) d c op order sc size
  obtain ⟨l, some_lane⟩ := List.exists_mem_of_ne_nil _ (Mask.lanes_ne_nil hl)
  obtain ⟨-, -, -, -, unmarked⟩ := hr l some_lane
  obtain ⟨gs, rest⟩ := synced.rest
  have untracked : ∀ x ∈ e.acc, x.tracked = false := by
    rw [acc]
    exact List.forall_mem_map.2 fun _ _ => rfl
  obtain ⟨u, homed, updated⟩ := atomAll_glob (s := w) (by rw [rest]; exact unmarked) i d n untracked
  have mem : w.mem = s.mem := by rw [rest]
  have seq : w.seq = s.seq := by rw [rest]
  have unperf : w.unperf = s.unperf := by rw [rest]
  have blocks : w.blocks = s.blocks := by rw [rest]
  rw [acc, mem, foldl_atomPut hn hf hr] at homed updated
  rw [updated] at next
  refine ⟨_, next, synced.atomDone homed.groups (homed.seq.trans seq) (homed.unperf.trans unperf) _ size, homed.mem, fun b => ?_⟩
  exact commit_sp (homed.blocks.trans blocks) i b

theorem atomOp_scratch {op : AtomOp} {f : Nat → Nat → Nat → Nat} (h0 : 0 < n) (hn : n ≤ 4) (hf : atomApply op = f)
    (h : CanIssue s g (areg ++ dreg ++ creg) dreg [] i) (hl : i.lanes ≠ 0) (hq : Quiet s i) (room : i.g.count .at < 63)
    (hr : ∀ l ∈ i.lanes.lanes, Reaches s i (atomForm .scratch n) (ea i l) (place l)) (d c : Nat) (order sc : BitVec 2) (size : Nat) :
    ∃ t, atomOp s g areg dreg creg d c n (4 * n) .scratch op order sc size ea = .next t
      ∧ AtomDone s t i size (atomRun i d c n place f (s.block i.g.block).sp).2
      ∧ t.mem = s.mem ∧ (t.block i.g.block).sp = (atomRun i d c n place f (s.block i.g.block).sp).1 := by
  obtain ⟨tlb, tlb2, walks, w, e, synced, acc, next⟩ := atomOp_next h hl hq room hr (fun hs => absurd hs Space.noConfusion) d c op order sc size
  obtain ⟨l, some_lane⟩ := List.exists_mem_of_ne_nil _ (Mask.lanes_ne_nil hl)
  have placed := block_lt_of_reaches rfl (hr l some_lane) (Nat.mul_pos (by decide) h0)
  obtain ⟨-, -, -, -, unmarked⟩ := hr l some_lane
  obtain ⟨gs, rest⟩ := synced.rest
  have mem : w.mem = s.mem := by rw [rest]
  have seq : w.seq = s.seq := by rw [rest]
  have unperf : w.unperf = s.unperf := by rw [rest]
  have blocks : w.blocks = s.blocks := by rw [rest]
  have block : w.block i.g.block = s.block i.g.block := by rw [State.block, blocks]; rfl
  have updated := atomAll_scratch (s := w) (i := i) (by rw [block]; exact unmarked) (by rw [blocks]; exact placed) d n e
  rw [acc, block, foldl_atomPut hn hf hr] at updated
  rw [updated] at next
  have held : (withSp w i.g.block fun _ => (atomRun i d c n place f (s.block i.g.block).sp).1).block i.g.block
      = { s.block i.g.block with sp := (atomRun i d c n place f (s.block i.g.block).sp).1 } := by
    rw [withSp, State.block_modB (blocks ▸ placed), block]
  generalize atomRun i d c n place f (s.block i.g.block).sp = r at next held ⊢
  have done := synced.atomDone (u := withSp w i.g.block fun _ => r.1) rfl seq unperf r.2 size
  exact ⟨_, next, done, mem, (commit_sp (u := withSp w i.g.block fun _ => r.1) rfl i i.g.block).trans (congrArg Block.sp held)⟩

end

/-- Settles O35: each atomic by `atomOp_glob` or `atomOp_scratch`, which `atomApply` gives its function; `atomRun_get` says what else stays. -/
theorem atomicsUpdateInLaneOrder : Obligations.AtomicsUpdateInLaneOrder := by
  unfold Obligations.AtomicsUpdateInLaneOrder
  intro Atom W Both P i32 i64 halves
  have glob {x : Instr} {g : Bool} {areg dreg creg : List Nat} {d c n size : Nat} {ea : Iss → Nat → Int} {op : AtomOp} {order sc : BitVec 2}
      (hn : n ≤ 4) (hx : ∀ s, exec x s = atomOp s g areg dreg creg d c n (4 * n) .glob op order sc size ea) :
      Atom x g areg dreg creg d c n .glob size ea (atomApply op) := by
    intro s i place h hl hq room hr hset run
    have reached (l : Nat) (l_mem : l ∈ i.lanes.lanes) := hr l ((Mask.mem_lanes ..).1 l_mem)
    obtain ⟨t, e, done, mem, sp⟩ := atomOp_glob hn rfl h hl hq room reached (hset rfl) d c order sc size
    refine ⟨t, (hx s).trans e, ⟨mem, sp, done.outst⟩, fun hm a ha => ?_, done.regs, done.preds, done.pc, done.unperf, done.others⟩
    rw [mem, atomRun_get hm fun l l_mem => ha l ((Mask.mem_lanes ..).1 l_mem)]
  have scratch {x : Instr} {g : Bool} {areg dreg creg : List Nat} {d c n size : Nat} {ea : Iss → Nat → Int} {op : AtomOp} {order sc : BitVec 2}
      (h0 : 0 < n) (hn : n ≤ 4) (hx : ∀ s, exec x s = atomOp s g areg dreg creg d c n (4 * n) .scratch op order sc size ea) :
      Atom x g areg dreg creg d c n .scratch size ea (atomApply op) := by
    intro s i place h hl hq room hr _ run
    obtain ⟨t, e, done, mem, sp⟩ := atomOp_scratch h0 hn rfl h hl hq room (fun l l_mem => hr l ((Mask.mem_lanes ..).1 l_mem)) d c order sc size
    exact ⟨t, (hx s).trans e, ⟨mem, fun _ => ⟨sp, done.outst⟩⟩, fun _ _ _ => by rw [mem], done.regs, done.preds, done.pc, done.unperf, done.others⟩
  clear_value Atom
  have word {mk : Bool → Fld → BitVec 6 → BitVec 2 → BitVec 2 → Instr} {f : Nat → Nat → Nat} (op : AtomOp)
      (hx : ∀ g d a o sc s, exec (mk g d a o sc) s = atom32 s g op d a o sc) (hf : atomApply op = fun m v _ => f m v) : W mk f :=
    fun g d a o sc => hf ▸ glob (by decide) (hx g d a o sc)
  have both {x : BitVec 1 → Instr} {g : Bool} {d c n : Nat} {creg : List Nat} {a : Fld} {f : Nat → Nat → Nat → Nat} (op : AtomOp) (o sc : BitVec 2)
      (hn : 0 < n ∧ n ≤ 4) (hs : ∀ s, exec (x 1) s = atomOp s g [a.toNat] (runOf d n) creg d c n (4 * n) .scratch op o sc 8 (sEa a 0))
      (hg : ∀ s, exec (x 0) s = atomOp s g [a.toNat, a.toNat + 1] (runOf d n) creg d c n (4 * n) .glob op o sc 8 (gEa (a.extractLsb' 1 6) 0))
      (hf : atomApply op = f) : Both x g d c n creg a f := hf ▸ ⟨scratch hn.1 hn.2 hs, glob hn.2 hg⟩
  clear_value Both
  have pair {mk : Bool → BitVec 6 → Fld → BitVec 2 → BitVec 2 → BitVec 1 → Instr} {f : Nat → Nat → Nat} (op : AtomOp)
      (hx : ∀ g d a o sc p s, exec (mk g d a o sc p) s = atomW s g op (pairFld d).toNat 2 a o sc p) (hf : atomApply op = fun m v _ => f m v) : P mk f := by
    intro g d a o sc
    exact both op o sc (by decide) (hx g d a o sc 1) (hx g d a o sc 0) hf
  refine ⟨word .add32 ?_ ?_, word .addF32 ?_ ?_, word .addBf16x2 ?_ ?_, word .addF16x2 ?_ ?_, word .minI ?_ ?_, word .maxI ?_ ?_, word .minZ ?_ ?_,
    word .maxZ ?_ ?_, word .and ?_ ?_, word .or ?_ ?_, word .xor ?_ ?_, word .xch ?_ ?_, word .inc ?_ ?_, word .dec ?_ ?_, word .minF32 ?_ ?_, word .maxF32 ?_ ?_,
    pair .add64 ?_ ?_, pair .minI64 ?_ ?_, pair .maxI64 ?_ ?_, pair .minZ64 ?_ ?_, pair .maxZ64 ?_ ?_, pair .xch64 ?_ ?_,
    fun g d a o sc c => both .cas32 o sc (by decide) ?_ ?_ ?_, fun g d a o sc c => both .cas64 o sc (by decide) ?_ ?_ ?_,
    fun g d a o sc c => both .cas128 o sc (by decide) ?_ ?_ ?_, fun g d a o sc => both .maxp o sc (by decide) ?_ ?_ ?_⟩
  all_goals intros
  all_goals rfl

end Sys2Proof.Machine
end

section
/-! PROOFS. Barriers (R276 to R280): the word of a barrier, arrivals at it, and waits on its generation. -/

namespace Sys2Proof.Machine

open Sys2Proof

/-! ### The word of a barrier (Table 12-4) -/

theorem BarWord.toNat_lt {w : BarWord} (he : w.expect < 4096) (ha : w.arrv < 4096) : w.toNat < 2 ^ 64 := by
  have gen := w.gen.isLt
  have cred := w.cred.isLt
  unfold BarWord.toNat
  omega

theorem BarWord.ofNat_toNat {w : BarWord} (he : w.expect < 4096) (ha : w.arrv < 4096) : BarWord.ofNat w.toNat = { w with rest := 0 } := by
  have gen := w.gen.isLt
  have cred := w.cred.isLt
  simp only [BarWord.ofNat, BarWord.toNat, bitsOf, BarWord.mk.injEq]
  refine ⟨BitVec.eq_of_toNat_eq ?_, ?_, ?_, BitVec.eq_of_toNat_eq ?_, BitVec.eq_of_toNat_eq ?_⟩
  case refine_1 => rw [BitVec.toNat_ofNat]; omega
  case refine_2 => omega
  case refine_3 => omega
  case refine_4 => rw [BitVec.toNat_ofNat]; omega
  case refine_5 => rw [BitVec.toNat_ofNat]; change _ = 0; omega

theorem Block.barWord_bounds (b : Block) (key : Nat) : (b.barWord key).expect < 4096 ∧ (b.barWord key).arrv < 4096 :=
  ⟨Nat.mod_lt _ (by decide), Nat.mod_lt _ (by decide)⟩

/-- The block has a word for a key: bytes of its scratchpad, or one of its `cbar` words. -/
def Block.HoldsBar (b : Block) (key : Nat) : Prop := if 2 ^ 40 ≤ key then key - 2 ^ 40 < b.cbar.length else b.sp.wf = true

theorem Block.barWord_putBar {b : Block} {key : Nat} {w : BarWord} (h : b.HoldsBar key) (he : w.expect < 4096) (ha : w.arrv < 4096) :
    (b.putBar key w).barWord key = { w with rest := 0 } := by
  have small := BarWord.toNat_lt he ha
  rw [← BarWord.ofNat_toNat he ha, Block.putBar, Block.barWord]
  by_cases hk : 2 ^ 40 ≤ key
  · rw [Block.HoldsBar, if_pos hk] at h
    rw [if_pos hk, if_pos hk, getElem?_setAt, if_pos rfl, List.getElem?_eq_getElem h]
    have held : (BitVec.ofNat 64 w.toNat).toNat = w.toNat := by rw [BitVec.toNat_ofNat, Nat.mod_eq_of_lt small]
    exact congrArg BarWord.ofNat held
  · rw [Block.HoldsBar, if_neg hk] at h
    have held : (b.sp.write key (leBytes 8 w.toNat)).le key 8 = w.toNat % 256 ^ 8 := le_of_bytes fun k hk => by
      rw [Mem.get_write _ _ _ _ h, if_pos (by rw [length_leBytes]; omega), Nat.add_sub_cancel_left]
    rw [if_neg hk, if_neg hk]
    rw [Nat.mod_eq_of_lt (small.trans_eq (by norm_num))] at held
    exact congrArg BarWord.ofNat held

/-! ### An arrival (R277) -/

/-- What `arrive` makes of a word: the phase ends when ARRV has reached EXPECT and CRED is 0. -/
theorem BarWord.arrive_phase (w : BarWord) (n : Nat) (c : BitVec 20) :
    (w.arrive n c).1.expect = w.expect
      ∧ if w.expect ≤ (if w.arrv + n < 4095 then w.arrv + n else 4095) ∧ w.cred + c = 0 then
          (w.arrive n c).1.gen = w.gen + 1 ∧ (w.arrive n c).1.arrv = 0 ∧ (w.arrive n c).1.cred = 0
        else
          (w.arrive n c).1.gen = w.gen ∧ (w.arrive n c).1.arrv = (if w.arrv + n < 4095 then w.arrv + n else 4095) ∧ (w.arrive n c).1.cred = w.cred + c := by
  unfold BarWord.arrive
  dsimp only
  generalize (if w.arrv + n < 4095 then w.arrv + n else 4095) = a
  by_cases full : w.expect ≤ a ∧ w.cred + c = 0
  · rw [if_pos full, if_pos full]
    exact ⟨rfl, rfl, rfl, rfl⟩
  · rw [if_neg full, if_neg full]
    exact ⟨rfl, rfl, rfl, rfl⟩

theorem BarWord.arrive_bounds {w : BarWord} (he : w.expect < 4096) (n : Nat) (c : BitVec 20) : (w.arrive n c).1.expect < 4096 ∧ (w.arrive n c).1.arrv < 4096 := by
  obtain ⟨expect, rest⟩ := w.arrive_phase n c
  refine ⟨expect ▸ he, ?_⟩
  split_ifs at rest <;> omega

/-- An arrival changes its block's word and what goes with it, and its block has committed (R365). -/
theorem arriveBy_blocks (s : State) (i : Iss) (key n : Nat) (c : BitVec 20) : ∃ G : Block → Block, (arriveBy s i key n c).blocks = modAt s.blocks i.g.block G
    ∧ ∀ b, (G b).barWord key = (b.putBar key ((b.barWord key).arrive n c).1).barWord key ∧ (G b).committed = true := by
  refine ⟨_, modAt_modAt .., fun b => ?_⟩
  dsimp only
  split <;> exact ⟨rfl, rfl⟩

/-- What an arrival leaves of its block. -/
structure Arrived (s t : State) (i : Iss) (key n : Nat) (c : BitVec 20) : Prop where
  word : (t.block i.g.block).barWord key = { (((s.block i.g.block).barWord key).arrive n c).1 with rest := 0 }
  committed : (t.block i.g.block).committed = true
  others : ∀ k, k ≠ i.g.block → t.blocks[k]? = s.blocks[k]?

theorem arrived_of_blocks {s t : State} {i : Iss} {key : Nat} (hb : i.g.block < s.blocks.length) (held : (s.block i.g.block).HoldsBar key) (n : Nat) (c : BitVec 20)
    (h : t.blocks = (arriveBy s i key n c).blocks) : Arrived s t i key n c := by
  obtain ⟨G, changed, at_⟩ := arriveBy_blocks s i key n c
  have block : s.block i.g.block = s.blocks[i.g.block] := by rw [State.block, List.getElem?_eq_getElem hb]; rfl
  have now := block_modAt (h.trans changed) hb
  rw [← block] at now
  obtain ⟨word, committed⟩ := at_ (s.block i.g.block)
  obtain ⟨expect, -⟩ := (s.block i.g.block).barWord_bounds key
  obtain ⟨expect', arrv'⟩ := BarWord.arrive_bounds expect n c
  refine ⟨?_, now ▸ committed, fun k hk => ?_⟩
  · rw [now, word, Block.barWord_putBar held expect' arrv']
  · rw [h, changed, getElem?_modAt, if_neg hk]

/-- An arrival ticks its group's clock. -/
theorem Issuing.arrives {s : State} {g : Bool} {i : Iss} (h : Issuing s g i) (key n : Nat) (c : BitVec 20) :
    Became s (arriveBy s i key n c) i i.g.tick i.f :=
  (h.became.congr (v := (arriveAt s i.g.block key n c (s.group i.gi).know).commit i) rfl).modG fun frags hf => ⟨frags, rfl, hf⟩

/-! ### Behind a barrier instruction -/

/-- `t` is behind an instruction at a barrier of the fragment `i` in `s`; its group's registers hold `reg`. -/
structure AtBar (s t : State) (i : Iss) (reg : Nat → Nat → Word) : Prop where
  pc : ((t.group i.gi).frag i.fi).pc = i.f.pc + 4
  lanes : ∀ p l, p < i.N → l < 16 → (t.group i.gi).lane p l = reg p l
  preds : (t.group i.gi).preds = i.g.preds
  mem : t.mem = s.mem
  others : ∀ k, k ≠ i.gi → t.groups[k]? = s.groups[k]?

theorem Became.atBar {s u : State} {i : Iss} {y : Group} {f : Frag} {reg : Nat → Nat → Word} (h : Became s u i y f)
    (hr : ∀ p l, p < i.N → l < 16 → y.lane p l = reg p l) (hp : y.preds = i.g.preds) (hm : u.mem = s.mem) (noisy : Bool) :
    AtBar s (u.advance i 4 noisy) i reg := by
  have adv := h.advanced 4 noisy
  refine ⟨adv.pc, fun p l hp hl => ?_, adv.preds.trans hp, hm, adv.others⟩
  rw [← hr p l hp hl, Group.lane, adv.regs]
  rfl

theorem Synced.atBar {s v u : State} {i : Iss} (h : Synced s v u i) (hm : v.mem = s.mem) : AtBar s (u.advance i) i i.g.lane := by
  obtain ⟨⟨y, f, became, regs, preds, -⟩, gs, rfl⟩ := h
  exact became.atBar (fun p l _ _ => by rw [Group.lane, regs]; rfl) preds hm false

/-- An arrival that returns the generation it found. -/
theorem Issuing.arrival {s : State} {g : Bool} {i : Iss} (h : Issuing s g i) (d key n : Nat) (c : BitVec 20) (w : Word) :
    AtBar s (((arriveBy s i key n c).putReg i d fun _ => w).advance i 4 true) i (i.after d fun _ => [w])
      ∧ ((((arriveBy s i key n c).putReg i d fun _ => w).advance i 4 true).group i.gi).clk = i.g.tick.clk := by
  have put : Became s ((arriveBy s i key n c).putReg i d fun _ => w) i (i.g.tick.setReg (i.phys d) i.lanes fun _ => w) i.f :=
    (h.arrives key n c).modG fun frags hf => ⟨frags, rfl, hf⟩
  exact ⟨put.atBar (fun p l hp hl => setReg_after i d (fun _ => w) p l hp hl) rfl rfl true, (put.advanced 4 true).clk⟩

/-! ### The access to a word (R276, R278) -/

/-- An access whose offset is found goes on with the word there. -/
theorem barAccess_found {s : State} {i : Iss} {a : Fld} {write : Bool} {o : Nat}
    (h : Reaches s i { space := .scratch, size := 8, write := write } (i.reg a.toNat i.lo).toNat o) (k : Nat → State → State) (read : Bool) :
    barAccess s i a write k read = k o s := by
  obtain ⟨good, pa, untracked⟩ := checkLane_of_reaches h i.lo
  obtain ⟨-, -, -, -, unmarked⟩ := h
  have sound (os : List Nat) : (if read then os.find? fun o => (s.blockOf i.g).spBadAt (o / 64 * 64) 64 else none) = none := by
    split
    · exact List.find?_eq_none.2 fun o _ => by simp [Block.spBadAt, unmarked]
    · rfl
  unfold barAccess wordAccess wordsAccess
  simp only [good, untracked, pa, sound, Bool.not_true, Bool.false_and, Bool.false_eq_true, if_false, gated_untracked, withRaces_nil]

/-- A word of the scratchpad lies below those of the `cbar` set. -/
theorem lt_of_found {s : State} {i : Iss} {a : Fld} {write : Bool} {o : Nat}
    (h : Reaches s i { space := .scratch, size := 8, write := write } (i.reg a.toNat i.lo).toNat o) : o < 2 ^ 40 := by
  obtain ⟨-, at_, -⟩ := h
  have offset : ((i.reg a.toNat i.lo).toNat : Int) = o := at_
  have word := (i.reg a.toNat i.lo).isLt
  omega

theorem released_of_quiet {s : State} {i : Iss} (h : Quiet s i) (k : State) : released s i k = k := by
  rw [released, owesAccess_of_quiet h]
  rfl

/-- No wait stands: the instruction begins. -/
theorem barResume_begins {i : Iss} (h : i.f.stall = none) (s k : State) : barResume s i k = k := by
  rw [barResume, h]

/-! ### A wait whose generation is over (R278) -/

theorem barError_eq_none {i : Iss} {key : Nat} (h : ∀ e ∈ i.g.barErr, e.1 ≠ key) : barError i key = none := by
  rw [barError, List.find?_eq_none.2 fun e he => by simpa using h e he]
  rfl

/-- It is an acquire, and goes on. -/
theorem barrierWait_over {u : State} {i : Iss} {key : Nat} {gen : BitVec 4} (h : ((u.block i.g.block).barWord key).gen ≠ gen)
    (he : ∀ e ∈ i.g.barErr, e.1 ≠ key) : ∃ know, barrierWait u i key gen = (phaseReturn u i know).advance i := by
  refine ⟨phaseVec (u.blockOf i.g) key gen, (if_neg h).trans ?_⟩
  rw [barReturn, barError_eq_none he]

theorem Synced.phaseReturn {s v u : State} {i : Iss} (h : Synced s v u i) (know : KVec) : Synced s v (phaseReturn u i know) i :=
  ((h.learn know).modG (F := fun g => { g with spBlind := false }) (fun _ _ => rfl) fun _ => ⟨rfl, rfl, rfl⟩).acquireFills 1

theorem Issuing.waits {s : State} {g : Bool} {i : Iss} {key : Nat} {gen : BitVec 4} (h : Issuing s g i) (ended : ((s.block i.g.block).barWord key).gen ≠ gen)
    (he : ∀ e ∈ i.g.barErr, e.1 ≠ key) : AtBar s (barrierWait s i key gen) i i.g.lane ∧ (barrierWait s i key gen).blocks = s.blocks := by
  obtain ⟨know, e⟩ := barrierWait_over ended he
  have returned := (h.became.synced rfl rfl rfl).phaseReturn know
  obtain ⟨gs, rest⟩ := returned.rest
  have kept : (phaseReturn s i know).blocks = s.blocks := by rw [rest]
  rw [e]
  exact ⟨returned.atBar rfl, (State.advance_blocks ..).trans kept⟩

/-- The arrival of a `sync`, which then waits for the end of the generation that it found (R280). -/
def syncArrived (s : State) (i : Iss) (key : Nat) : State :=
  (arriveBy s i key 1 0).modF i.gi i.fi fun f => { f with arrival := some (key, ((s.block i.g.block).barWord key).gen), noisy := true, spin := false }

/-- The last arrival of a `sync` ends the generation that it waits for. -/
theorem Issuing.syncs {s : State} {g : Bool} {i : Iss} {key : Nat} (h : Issuing s g i) (hq : Quiet s i) (first : i.f.arrival = none)
    (hb : i.g.block < s.blocks.length) (held : (s.block i.g.block).HoldsBar key)
    (full : ((s.block i.g.block).barWord key).expect
      ≤ if ((s.block i.g.block).barWord key).arrv + 1 < 4095 then ((s.block i.g.block).barWord key).arrv + 1 else 4095)
    (unowed : ((s.block i.g.block).barWord key).cred = 0) (he : ∀ e ∈ i.g.barErr, e.1 ≠ key) :
    AtBar s (syncOnce s i key) i i.g.lane ∧ Arrived s (syncOnce s i key) i key 1 0 := by
  have begun : syncOnce s i key = barrierWait (syncArrived s i key) i key ((s.block i.g.block).barWord key).gen := by
    rw [syncOnce, first]
    exact released_of_quiet hq _
  have arrived : Arrived s (syncArrived s i key) i key 1 0 := arrived_of_blocks hb held 1 0 rfl
  have ended : (((syncArrived s i key).block i.g.block).barWord key).gen ≠ ((s.block i.g.block).barWord key).gen := by
    obtain ⟨-, phase⟩ := ((s.block i.g.block).barWord key).arrive_phase 1 0
    rw [if_pos ⟨full, by rw [unowed]; rfl⟩] at phase
    have turns : ∀ gen : BitVec 4, gen + 1 ≠ gen := by decide
    rw [arrived.word, phase.1]
    exact turns _
  obtain ⟨know, e⟩ := barrierWait_over ended he
  have returned := (((h.arrives key 1 0).modF _).synced (v := syncArrived s i key) rfl rfl rfl).phaseReturn know
  obtain ⟨gs, rest⟩ := returned.rest
  have kept : (phaseReturn (syncArrived s i key) i know).blocks = (syncArrived s i key).blocks := by rw [rest]
  rw [begun, e]
  exact ⟨returned.atBar rfl, arrived_of_blocks hb held 1 0 ((State.advance_blocks ..).trans kept)⟩

/-! ### A word begun anew (R277, R279) -/

theorem Issuing.inits {s : State} {g : Bool} {i : Iss} {key n : Nat} (h : Issuing s g i) (hb : i.g.block < s.blocks.length)
    (held : (s.block i.g.block).HoldsBar key)
    (hn : n < 4096) :
    AtBar s ((s.modB i.g.block fun b => initBar b key n).advance i 4 true) i i.g.lane
      ∧ (((s.modB i.g.block fun b => initBar b key n).advance i 4 true).block i.g.block).barWord key
          = { gen := 0, expect := if n = 0 then 1 else n, arrv := 0, cred := 0 }
      ∧ ∀ k, k ≠ i.g.block → ((s.modB i.g.block fun b => initBar b key n).advance i 4 true).blocks[k]? = s.blocks[k]? := by
  refine ⟨(h.became.congr (v := s.modB i.g.block fun b => initBar b key n) rfl).atBar (fun _ _ _ _ => rfl) rfl rfl true, ?_, fun k hk => ?_⟩
  · have now : ((s.modB i.g.block fun b => initBar b key n).advance i 4 true).block i.g.block = initBar (s.block i.g.block) key n := State.block_modB hb _
    rw [now]
    exact Block.barWord_putBar held (by dsimp only; split <;> omega) (by decide : 0 < 4096)
  · rw [State.advance_blocks, State.modB, getElem?_modAt, if_neg hk]

theorem holdsBar_cbar {b : Block} (h : b.cbar.length = 16) {ix : Nat} (hix : ix < 16) : b.HoldsBar (cbarKey ix) := by
  rw [Block.HoldsBar, cbarKey, if_pos (Nat.le_add_right ..), Nat.add_sub_cancel_left, h]
  exact hix

theorem holdsBar_sp {b : Block} (h : b.sp.wf = true) {o : Nat} (ho : o < 2 ^ 40) : b.HoldsBar o := by
  rw [Block.HoldsBar, if_neg (Nat.not_le.2 ho)]
  exact h

/-- Settles O37: arrivals by `Issuing.arrival`, waits by `Issuing.waits`, a `sync` that is the last arrival by `Issuing.syncs`, initialisation by
`Issuing.inits`; `BarWord.arrive_phase` is the arithmetic of the word. -/
theorem barrierPhases : Obligations.BarrierPhases := by
  unfold Obligations.BarrierPhases
  intro arrives at_ found ix Passes Arrives Last block
  have passes {s t : State} {x : Instr} {i : Iss} {reg : Nat → Nat → Word} {ok : State → Prop} (e : exec x s = .next t) (p : AtBar s t i reg)
      (others : ∀ k, k ≠ i.g.block → t.blocks[k]? = s.blocks[k]?) (met : ok t) : Passes s x i reg ok :=
    ⟨t, e, p.pc, p.lanes, p.preds, p.mem, p.others, others, met⟩
  have phase {s t : State} {i : Iss} {key n : Nat} {c : BitVec 20} (h : Arrived s t i key n c) : arrives (at_ s i key) (at_ t i key) n c := by
    have same : at_ t i key = _ := h.word
    rw [same]
    exact BarWord.arrive_phase (at_ s i key) n c
  have arrive {s : State} {x : Instr} {g : Bool} {i : Iss} {d : Fld} {key n : Nat} {c : BitVec 20} (h : Issuing s g i) (hb : i.g.block < s.blocks.length)
      (held : (s.block i.g.block).HoldsBar key)
      (e : exec x s = .next (((arriveBy s i key n c).putReg i d.toNat fun _ => (at_ s i key).gen.setWidth 32).advance i 4 true)) : Arrives s x i d key n c := by
    obtain ⟨p, ticked⟩ := h.arrival d.toNat key n c ((at_ s i key).gen.setWidth 32)
    have arrived := arrived_of_blocks hb held n c
      (t := ((arriveBy s i key n c).putReg i d.toNat fun _ => (at_ s i key).gen.setWidth 32).advance i 4 true) (State.advance_blocks ..)
    exact passes e p arrived.others ⟨phase arrived, ticked, arrived.committed⟩
  have last {s : State} {x : Instr} {g : Bool} {i : Iss} {key : Nat} (h : Issuing s g i) (hq : Quiet s i) (first : i.f.arrival = none)
      (hb : i.g.block < s.blocks.length) (held : (s.block i.g.block).HoldsBar key) (e : exec x s = .next (syncOnce s i key)) : Last s x i key := by
    intro full unowed he
    obtain ⟨p, arrived⟩ := h.syncs hq first hb held full unowed he
    exact passes e p arrived.others (phase arrived)
  have below (i : Iss) (a : Fld) : ix i a < 16 := Nat.mod_lt _ (by decide)
  refine ⟨?barArr, ?barArrx, ?cbarArr, ?barInit, ?cbarInit, ?barWait, ?cbarWait, ?barSync, ?cbarSync⟩
  case barArr =>
    rintro g d a b s i o h hl hq ⟨hb, -, wf⟩ hf
    refine arrive h.toIssuing hb (holdsBar_sp wf (lt_of_found hf)) ?_
    change execBarArr g d a b s = _
    rw [execBarArr, withOperands_next h, once_active hl, released_of_quiet hq, barAccess_found hf]
    rfl
  case barArrx =>
    rintro g d a b s i o h hl hq ⟨hb, -, wf⟩ hf
    refine arrive h.toIssuing hb (holdsBar_sp wf (lt_of_found hf)) ?_
    change execBarArrx g d a b s = _
    rw [execBarArrx, withOperands_next h, once_active hl, released_of_quiet hq, barAccess_found hf]
    rfl
  case cbarArr =>
    rintro g d a s i h hl hq ⟨hb, cbar, -⟩
    refine arrive h.toIssuing hb (holdsBar_cbar cbar (below i a)) ?_
    change execCbarArr g d a s = _
    rw [execCbarArr, withOperands_next h, once_active hl, released_of_quiet hq]
    rfl
  case barInit =>
    rintro g a b s i o h hl ⟨hb, -, wf⟩ hf
    obtain ⟨p, word, others⟩ := h.toIssuing.inits hb (holdsBar_sp wf (lt_of_found hf)) (Nat.mod_lt (i.reg b.toNat i.lo).toNat (by decide))
    refine passes ?_ p others ?_
    · change execBarInit g a b s = _
      rw [execBarInit, withOperands_next h, once_active hl, barAccess_found hf]
    · dsimp only [at_]
      rw [word]
      exact ⟨rfl, rfl, rfl, rfl⟩
  case cbarInit =>
    rintro g d a s i h hl ⟨hb, cbar, -⟩
    obtain ⟨p, word, others⟩ := h.toIssuing.inits hb (holdsBar_cbar cbar (below i a)) (Nat.mod_lt (i.reg d.toNat i.lo).toNat (by decide))
    refine passes ?_ p others ?_
    · change execCbarInit g d a s = _
      rw [execCbarInit, withOperands_next h, once_active hl]
      rfl
    · dsimp only [at_]
      rw [word]
      exact ⟨rfl, rfl, rfl, rfl⟩
  case barWait =>
    intro g a b s i o h hl begins hf ended he
    obtain ⟨p, kept⟩ := h.toIssuing.waits ended he
    refine passes ?_ p (fun k _ => by rw [kept]) kept
    change execBarWait g a b s = _
    rw [execBarWait, withOperands_next h, once_active hl, barResume_begins begins, barAccess_found hf]
  case cbarWait =>
    intro g d a s i h hl begins ended he
    obtain ⟨p, kept⟩ := h.toIssuing.waits ended he
    refine passes ?_ p (fun k _ => by rw [kept]) kept
    change execCbarWait g d a s = _
    rw [execCbarWait, withOperands_next h, once_active hl, barResume_begins begins]
    rfl
  case barSync =>
    rintro g a s i o h hl hq ⟨hb, -, wf⟩ begins first hf
    refine last h.toIssuing hq first hb (holdsBar_sp wf (lt_of_found hf)) ?_
    change execBarSync g a s = _
    rw [execBarSync, withOperands_next h, once_active hl, barResume_begins begins, first, released_of_quiet hq, barAccess_found hf]
    rfl
  case cbarSync =>
    rintro g a s i h hl hq ⟨hb, cbar, -⟩ begins first
    refine last h.toIssuing hq first hb (holdsBar_cbar cbar (below i a)) ?_
    change execCbarSync g a s = _
    rw [execCbarSync, withOperands_next h, once_active hl, barResume_begins begins]
    rfl

end Sys2Proof.Machine
end

section
/-! PROOFS. Gathers whose index list overlaps their ring's header (R291, R295): the list is read when the slot has been taken. -/

namespace Sys2Proof.Machine

open Sys2Proof

/-! ### A fragment to which nothing is owed -/

/-- The first fragment of the first group, as it issues without a guard. -/
def firstIss (s : State) : Iss := ⟨0, 0, s.group 0, (s.group 0).frag 0, activeLanes (s.group 0) ((s.group 0).frag 0) false⟩

theorem Group.owes_none {g : Group} (returned : g.outst = []) (filled : ∀ f ∈ g.futures, f.st ≠ .pending) (r l : Nat) : g.owes r l = false := by
  rw [Group.owes, returned, List.any_nil, Bool.false_or, List.any_eq_false]
  intro f hf
  simp [filled f hf]

/-- It can issue whatever names registers of its group only, when nothing is outstanding and nothing is poisoned. -/
theorem canIssue_first {s : State} {reads writes preds : List Nat} (cur : s.cur = some (0, 0)) (gi : 0 < s.groups.length) (fi : 0 < (s.group 0).frags.length)
    (held : ∀ r ∈ reads ++ writes, (firstIss s).phys r < (firstIss s).N) (returned : (s.group 0).outst = [])
    (filled : ∀ f ∈ (s.group 0).futures, f.st ≠ .pending) (clean : (s.group 0).poison = [])
    (sound : ((s.group 0).frag 0).badSched = false ∧ ((s.group 0).frag 0).badFmt = false) : CanIssue s false reads writes preds (firstIss s) where
  cur := by rw [State.issuing, cur]; rfl
  gi := gi
  fi := fi
  held := held
  free _ _ _ _ := Group.owes_none returned filled _ _
  clean _ hp := absurd (clean ▸ hp) List.not_mem_nil
  cleanGuard _ hp := absurd (clean ▸ hp) List.not_mem_nil
  cleanPred _ hp := absurd (clean ▸ hp) List.not_mem_nil
  sound := ⟨sound.1, fun bad => absurd (sound.2.symm.trans bad) nofun⟩

/-! ### A gather whose list stands in its ring's header -/

/-- A ring at offset 0 with one slot of 64 bytes, in the slice of its owner alone, with one credit. -/
def listRing : Mem := (Mem.write [] 0 (leBytes 8 (2 ^ 45 + 2 ^ 41))).write 24 (leBytes 2 1)

/-- The registers of a gather of one row of 16 bytes, whose index list stands at offset 16: the word of that ring's header that counts its commands. -/
def listRegs : List LaneVec :=
  setAt (setAt (setAt (List.replicate 128 zeroVec) 3 (Vector.replicate 16 16)) 4 (Vector.replicate 16 16)) 5 (Vector.replicate 16 1)

/-- The machine in which one fragment of a group with these registers is issued, with predicate 0 set. -/
def listState : State :=
  { State.reset.withFetchWord 32 0 with
    cur := some (0, 0), groups := [{ fetchGroup with regs := listRegs, preds := Vector.replicate 8 1 }],
    blocks := [{ gcount := 1, cores := [0], spSize := 4096, btag := 1, sp := listRing }] }

theorem listState_canIssue :
    CanIssue listState false ((8 : Fld).toNat :: runOf (quadFld 0).toNat 4 ++ runOf (quadFld 1).toNat 4) [] [(0 : BitVec 3).toNat] (firstIss listState) :=
  canIssue_first rfl (by decide +kernel) (by decide +kernel) (by decide +kernel) rfl (by decide +kernel) rfl ⟨rfl, rfl⟩

/-- The index lists of the commands of a state behind an instruction. -/
def indexLists : Res → List (List Nat)
  | .next t => t.copies.map (·.index)
  | _ => []

/-- The gather takes slot 0 of the ring, and then reads its index: 1. -/
theorem gth_listState : indexLists (execGth false 8 0 1 0 0 0 0 0 0 listState) = [[1]] := by decide +kernel

/-- Refutes O39: `listState`'s gather is taken with the index that its ring's header holds behind it, and the clause for `gth` promises the one before. -/
theorem not_copyCommandsIssue : ¬ Obligations.CopyCommandsIssue := by
  unfold Obligations.CopyCommandsIssue
  rintro ⟨-, -, -, -, -, gather, -⟩
  obtain ⟨-, taken⟩ := gather false 8 0 1 0 0 0 0 0 0 listState _ listState_canIssue
  -- lane 0 leads, the engine and the ring have room, and every operand passes its checks
  obtain ⟨t, stepped, copies, -⟩ := taken 0 (by decide +kernel) (by decide +kernel) (by decide +kernel) (by decide +kernel) (by decide +kernel) (by decide +kernel)
    (by decide +kernel) (by decide +kernel) (by decide +kernel)
  have read : indexLists (exec (.gth false 8 0 1 0 0 0 0 0 0) listState) = [[1]] := gth_listState
  rw [stepped, indexLists, copies] at read
  exact absurd read (by decide +kernel)

end Sys2Proof.Machine
end

section
/-! PROOFS. Rings that are initialised again (R297, R298): an error that waits at a slot of the ring is marked, and not dropped. -/

namespace Sys2Proof.Machine

open Sys2Proof

/-- An error of a command that completed in slot 0 of a ring at offset 0. -/
def slotError : Nat × Deferred := (slotKey 0 0, { code := 0x0A, lanes := 0, addr := 0, info := 17 })

/-- The machine in which one fragment is issued, with zero in every register, and a second group of its block has that error. -/
def erredState : State :=
  let s := State.reset.withFetchWord 32 0
  { s with cur := some (0, 0), groups := s.groups ++ [{ barErr := [slotError] }] }

theorem erredState_canIssue : CanIssue erredState false [(0 : Fld).toNat, (0 : Fld).toNat] [] [] (firstIss erredState) :=
  canIssue_first rfl (by decide +kernel) (by decide +kernel) (by decide +kernel) rfl (by decide +kernel) rfl ⟨rfl, rfl⟩

/-- The errors that wait for the groups behind an instruction. -/
def errorLists : Res → List (List (Nat × Deferred))
  | .next t => t.groups.map (·.barErr)
  | _ => []

/-- `rb.init` of the ring at offset 0 finds the error and marks it. -/
theorem rbInit_erredState : errorLists (execRbInit false 0 0 erredState) = [[], [(slotError.1, { slotError.2 with stale := true })]] := by decide +kernel

/-- Refutes O41: `rb.init` leaves the error of `erredState`'s second group with that group, marked, and the first clause promises that it leaves it no entry
that the group had not before. -/
theorem not_ringInstructions : ¬ Obligations.RingInstructions := by
  unfold Obligations.RingInstructions
  rintro ⟨init, -⟩
  -- the offset is found, the ring that is asked for is valid, and no command is outstanding
  obtain ⟨t, stepped, -, -, -, -, -, kept, -⟩ := init false 0 0 erredState _ 0 erredState_canIssue
    ⟨⟨fun _ => by decide +kernel, by decide +kernel⟩, by decide +kernel, by decide +kernel, rfl⟩ (by decide +kernel) (by decide +kernel) (by decide +kernel)
    (by decide +kernel) (by decide +kernel) (by decide +kernel) (fun _ hc => absurd hc List.not_mem_nil)
  obtain ⟨errs, group, old⟩ := kept 1 { barErr := [slotError] } (by decide) rfl
  have marked : errorLists (exec (.rbInit false 0 0) erredState) = _ := rbInit_erredState
  rw [stepped] at marked
  have second := congrArg (·[1]?) marked
  simp only [errorLists, List.getElem?_map, group] at second
  cases second
  exact absurd (old _ List.mem_cons_self) (by decide)

end Sys2Proof.Machine
end

section
/-! PROOFS. Copies of tracked pages (R251, R288, R290): what a command writes to a tracked line kills the line's sync record, which is memory too. -/

namespace Sys2Proof.Machine

open Sys2Proof

/-! ### A command whose pages all translate runs (R422) -/

theorem failures_nil {s : State} {a : Asker} : ∀ {ns : List Need}, (∀ n ∈ ns, ∃ y, access s a.core a.pasid n.va n.kind = .ok y) → failures s a ns = []
  | [], _ => rfl
  | n :: ns, h => by
    obtain ⟨y, ok⟩ := h n List.mem_cons_self
    have rest := failures_nil fun m hm => h m (List.mem_cons_of_mem n hm)
    unfold failures at rest ⊢
    rw [List.foldl_cons]
    simp only [ok, ite_self]
    exact rest

theorem execCopyCommandComplete_runs {s : State} {n gi : Nat} {c : CopyCmd} (hc : s.copies[n]? = some c) (hgi : c.gi = some gi)
    (ok : ∀ k ∈ c.needs, ∃ y, access s c.core c.ctx k.va k.kind = .ok y) :
    execCopyCommandComplete n s = .next (dropFailed (runCopy { s with copies := dropAt s.copies n } c)) := by
  have go (a : Asker) (ha : a.core = c.core ∧ a.pasid = c.ctx) : ask s a c.waits c.needs = (s, .go) := by
    rw [ask, failures_nil (by rwa [ha.1, ha.2])]
    rfl
  unfold execCopyCommandComplete
  simp only [hc, hgi, Option.isNone_some, Bool.false_eq_true, if_false]
  rw [go _ ⟨rfl, rfl⟩]

/-! ### A write to a tracked page (R251, R293) -/

/-- A command whose group does not check races writes its bytes, and then the sync record that they overlap dies. -/
theorem engineWrite_tracked {r : CmdRun} {p : CmdParty} {va cls pa : Nat} {bs : List Byte} {x : Xlate} (off : p.race = .off) (performed : r.s.unperf = [])
    (found : chunkCode r.s p va .write = .ok (pa, x)) (tracked : isTracked r.s p.pasid x = true) :
    ∃ u : State, engineWrite r p va cls bs = ({ r with s := syncKill u p.pasid pa bs.length }, true) ∧ u.mem = r.s.mem.write pa bs ∧ u.ctxs = r.s.ctxs := by
  have drained : drainCmd r.s p pa bs.length = r.s := drainHit_of_no_hit (by rw [performed]; exact fun _ he => absurd he List.not_mem_nil)
  obtain ⟨l2, touched⟩ := touchL2_eq r.s p.pasid (if x.cpol = 2 then 1 else p.lcls) true pa
  have kept : isTracked (dropL1 ({ r.s with l2 := l2 }.writeMem pa bs) p.core pa bs.length) p.pasid x = true := tracked
  unfold engineWrite
  simp only [found, drained, CmdRun.l2, touched, engineRace, off, decide_true, Bool.true_or, if_true, kept]
  exact ⟨_, rfl, rfl, rfl⟩

theorem syncKill_mem {s : State} {pasid pa len a : Nat} {r : SyncRec} (h : syncHit s pasid pa len = some (a, r)) :
    (syncKill s pasid pa len).mem = s.mem.zero a 64 := by
  rw [syncKill, h]

theorem chunkCode_of_access {s : State} {p : CmdParty} {va : Nat} {k : AccKind} {y : Nat × Xlate} (h : access s p.core p.pasid va k = .ok y)
    (alive : p.dead = []) : chunkCode s p va k = .ok y := by
  have canonical : ¬2 ^ 52 ≤ va := fun out => by
    rw [access, if_pos out] at h
    cases h
  unfold chunkCode
  simp only [canonical, alive, List.find?_nil, h, if_false]

/-! ### A chunk that goes out (R292, R293) -/

theorem spRead_off {r : CmdRun} {p : CmdParty} (off : p.race = .off) (sound : (r.s.block p.block).spBad = []) (o len : Nat) :
    spRead r p o len = (r, some ((r.s.block p.block).sp.read o len)) := by
  simp [spRead, Block.spBadAt, sound, engineSpRace, off]

theorem copyChunk_out {c : CopyCmd} {p : CmdParty} {r r' : CmdRun} {k : Chunk} {va : Nat} {bs : List Byte} (hva : k.va = some va) (out : c.into = false)
    (plain : c.reduces = false) (held : spRead r p (c.data + k.off) 16 = (r, some bs)) (wrote : engineWrite r p va 2 bs = (r', true)) (places : List Nat) :
    copyChunk c p places r k = { r' with moved := r'.moved + 1 } := by
  simp only [copyChunk, hva, out, plain, held, wrote, Bool.false_eq_true, if_false, if_true]

/-- A command without an error that arrives at a barrier changes no memory any more. -/
theorem finishCopy_mem {c : CopyCmd} (hb : c.barrier = true) (s : State) (n gi : Nat) : (finishCopy { s := s, moved := n } c gi).mem = s.mem := by
  simp [finishCopy, hb, CmdRun.deferred, arriveAt]

/-! ### A tracked line with a live sync record -/

/-- A command that writes 16 bytes from the start of the scratchpad to address 0 and arrives at the barrier behind them. -/
def trackedCopy : CopyCmd := { gi := some 0, ctx := 1, kind := 3, dir := true, bytes := 16, barrier := true, obj := 16 }

/-- A place in a sync area at 3 MiB of 64 slices of 64 records (R251). -/
def syncPlace (slice hash : Nat) : Nat := 0x300000 + slice % 64 * 2 ^ 12 + 64 * (hash % 2 ^ 6)

/-- The place of the sync record of the line at 2 MiB. -/
def trackedRecord : Nat := syncPlace (Config.homeSlice 0x8000) (Config.syncHash 0x8000)

/-- The page tables of `withFetchWord` with the tracked bit in the page of 2 MiB that they map. Irreducible, as is what is made of them: no comparison of two
states is to write their bytes out. -/
@[irreducible] def trackedTables : Mem := (State.reset.withFetchWord 32 0).mem.write 0x4000 (leBytes 8 0x20021F)

/-- Memory with these tables and a live sync record of the first byte of the line. -/
@[irreducible] def trackedMem : Mem := trackedTables.write (trackedRecord + 48) (leBytes 8 0x8000)

/-- The machine in which that command is outstanding; its context tracks races. -/
def trackedState : State :=
  { State.reset.withFetchWord 32 0 with
    copies := [trackedCopy], ctxs := [{ pasid := 1, root := 0x1000, shadow := 0x400000, sync := 0x300000 }], mem := trackedMem }

theorem trackedTables_wf : trackedTables.wf = true := by decide +kernel

theorem trackedRecord_bounds : 0x300000 ≤ trackedRecord ∧ trackedRecord < 0x340000 := by
  unfold trackedRecord syncPlace
  omega

/-- The record stands apart from the tables and from the line. -/
theorem trackedMem_get {a : Nat} (h : a < 0x300000) : trackedMem.get a = trackedTables.get a := by
  have bounds := trackedRecord_bounds
  rw [trackedMem, Mem.get_write _ _ _ _ trackedTables_wf, if_neg (by omega)]

theorem Mem.read_congr {m n : Mem} {a : Nat} : ∀ {k : Nat}, (∀ j, j < k → m.get (a + j) = n.get (a + j)) → m.read a k = n.read a k
  | 0, _ => rfl
  | k + 1, h => by
    have rest : m.read (a + 1) k = n.read (a + 1) k := Mem.read_congr fun j hj => by
      rw [Nat.add_assoc, Nat.add_comm 1]
      exact h (j + 1) (by omega)
    rw [Mem.read, Mem.read, rest]
    exact congrArg (· :: _) (h 0 (by omega))

/-- The page of address 0. -/
def trackedPage : Xlate := leafOf 1 0x20021F

/-- Whatever else memory holds, the tables map address 0 to 2 MiB. -/
theorem access_trackedState {m : Mem} (h : ∀ a, a < 0x5000 → m.get a = trackedTables.get a) (cs : List CopyCmd) :
    access { trackedState with copies := cs, mem := m } 0 1 0 .write = .ok (0x200000, trackedPage) := by
  have entry (a : Nat) (ha : a + 8 ≤ 0x5000) : m.le a 8 = trackedTables.le a 8 := congrArg leNat (Mem.read_congr fun j hj => h _ (by omega))
  have root : m.le 0x1000 8 = 0x2001 := (entry _ (by decide)).trans (by decide +kernel)
  have level3 : m.le 0x2000 8 = 0x3001 := (entry _ (by decide)).trans (by decide +kernel)
  have level2 : m.le 0x3000 8 = 0x4001 := (entry _ (by decide)).trans (by decide +kernel)
  have leaf : m.le 0x4000 8 = 0x20021F := (entry _ (by decide)).trans (by decide +kernel)
  have ctx : ({ trackedState with copies := cs, mem := m } : State).ctx 1 = { pasid := 1, root := 0x1000, shadow := 0x400000, sync := 0x300000 } := rfl
  have miss : tlbHit { trackedState with copies := cs, mem := m } 0 1 0 = none := rfl
  have unheld (va level : Nat) : walkHeld { trackedState with copies := cs, mem := m } 1 va level = none := rfl
  simp [access, xlate, miss, unheld, walkNow, walkWith, ctx, walkLevels, walkFrom, root, level3, level2, leaf, bitsOf, localPa, tableValid, leafValid, leafOf,
    framePa, Xlate.at, Xlate.page, Xlate.permits, Xlate.served, maxB, peerPa, peerRefuses, trackedPage]

theorem trackedMem_wf : trackedMem.wf = true := by
  rw [trackedMem]
  exact Mem.write_wf _ _ _ trackedTables_wf

/-- The second half of the record, where 16 bytes of the line have been written. -/
theorem trackedRecord_held {bs : List Byte} (hbs : bs.length = 16) {k : Nat} (hk : k < 8) :
    (trackedMem.write 0x200000 bs).get (trackedRecord + 48 + k) = (leBytes 8 0x8000)[k]?.getD 0 := by
  have bounds := trackedRecord_bounds
  rw [Mem.get_write _ _ _ _ trackedMem_wf, if_neg (by omega), trackedMem, Mem.get_write _ _ _ _ trackedTables_wf, length_leBytes, if_pos (by omega),
    Nat.add_sub_cancel_left]

/-- The record is found where 16 bytes of the line have been written. -/
theorem syncHit_trackedRecord {u : State} {bs : List Byte} (hbs : bs.length = 16) (hm : u.mem = trackedMem.write 0x200000 bs)
    (hc : u.ctxs = trackedState.ctxs) : ∃ r, syncHit u 1 0x200000 16 = some (trackedRecord, r) := by
  have ctx : u.ctx 1 = { pasid := 1, root := 0x1000, shadow := 0x400000, sync := 0x300000 } := by
    unfold State.ctx State.ctxAt
    rw [hc]
    rfl
  have at_ : syncAt u 1 0x200000 = some trackedRecord := by simp [syncAt, ctx, trackedRecord, syncPlace]
  have named : u.mem.le (trackedRecord + 48) 8 = 0x8000 := by
    rw [hm]
    exact (le_of_bytes (v := 0x8000) fun k hk => trackedRecord_held hbs hk).trans (by norm_num)
  rw [syncHit, at_]
  simp only [syncRead, named]
  simp [bitsOf]

theorem trackedRecord_zeroed (bs : List Byte) : ((trackedMem.write 0x200000 bs).zero trackedRecord 64).get (trackedRecord + 48 + 1) = 0 := by
  rw [Mem.zero, Mem.get_write _ _ _ _ (Mem.write_wf _ _ _ trackedMem_wf), List.length_replicate, if_pos (by omega), Nat.add_assoc, Nat.add_sub_cancel_left]
  rfl

/-- It completes: the bytes are written, and then the record dies. -/
theorem trackedCopy_completes : ∃ t, exec (.copyCommandComplete 0) trackedState = .next t ∧
    t.mem = (trackedMem.write 0x200000 ((trackedState.block 0).sp.read 0 16)).zero trackedRecord 64 := by
  have mapped (cs : List CopyCmd) : access { trackedState with copies := cs } 0 1 0 .write = .ok (0x200000, trackedPage) :=
    access_trackedState (m := trackedMem) (fun a ha => trackedMem_get (by omega)) cs
  have ran := execCopyCommandComplete_runs (s := trackedState) (n := 0) (c := trackedCopy) rfl rfl fun k hk => by
    have only : trackedCopy.needs = [⟨0, .write⟩] := rfl
    rw [only, List.mem_singleton] at hk
    exact hk ▸ ⟨_, mapped [trackedCopy]⟩
  generalize hs : ({ trackedState with copies := dropAt trackedState.copies 0 } : State) = s at ran
  have found : chunkCode s (trackedCopy.party s) 0 .write = .ok (0x200000, trackedPage) := by
    subst hs
    exact chunkCode_of_access (mapped []) rfl
  have held : spRead { s := s } (trackedCopy.party s) (trackedCopy.data + 0) 16 = ({ s := s }, some ((trackedState.block 0).sp.read 0 16)) := by
    subst hs
    exact spRead_off rfl rfl 0 16
  obtain ⟨u, wrote, mem, ctxs⟩ := engineWrite_tracked (r := { s := s }) (p := trackedCopy.party s) (cls := 2)
    (bs := (trackedState.block 0).sp.read 0 16) rfl (by rw [← hs]; rfl) found (by rw [← hs]; rfl)
  have moved := copyChunk_out (k := ⟨0, some 0, 0⟩) rfl rfl rfl held wrote (trackedCopy.places (s.block 0))
  have run : runCopy s trackedCopy = finishCopy { s := syncKill u 1 0x200000 16, moved := 1 } trackedCopy 0 := congrArg (finishCopy · trackedCopy 0) moved
  rw [← hs] at mem ctxs
  obtain ⟨r, hit⟩ := syncHit_trackedRecord (Mem.length_read ..) mem ctxs
  refine ⟨_, ran, ?_⟩
  rw [run]
  exact (finishCopy_mem rfl _ 1 0).trans ((syncKill_mem hit).trans (congrArg (Mem.zero · trackedRecord 64) mem))

/-- Refutes O40: a copy to a tracked page also kills the sync record of the line that it writes, and the record's bytes are none of the copy's. -/
theorem not_copiesMoveTheirBytes : ¬ Obligations.CopiesMoveTheirBytes := by
  unfold Obligations.CopiesMoveTheirBytes
  rintro ⟨-, -, -, moves⟩
  have one : trackedCopy.chunks = [⟨0, some 0, 0⟩] := rfl
  -- the command is alone, its one chunk is in range, and its page translates whatever it has written
  obtain ⟨atBarrier, -⟩ := moves 0 0 trackedState trackedCopy (fun _ => 0x200000) rfl rfl (by decide) rfl rfl rfl rfl rfl (by decide) (by decide)
    (by rw [one]; decide) (by rw [one]; decide) (by decide +kernel) rfl rfl trackedMem_wf rfl rfl rfl fun x hx va hva => ⟨rfl, fun m _ same => by
      rw [one, List.mem_singleton] at hx
      subst hx
      cases hva
      exact ⟨trackedPage, access_trackedState (fun a ha => (same a fun _ _ _ _ => .inl (by omega)).trans (trackedMem_get (by omega))) [trackedCopy]⟩⟩
  obtain ⟨t, stepped, effect, -⟩ := atBarrier rfl (by decide)
  obtain ⟨xs, perm, written⟩ := effect.2 (by decide)
  obtain ⟨u, completed, killed⟩ := trackedCopy_completes
  have same : t = u := Host.Outcome.next.inj (stepped.symm.trans completed)
  rw [one, List.perm_singleton] at perm
  subst same perm
  have copied : t.mem = trackedMem.write 0x200000 ((trackedState.block 0).sp.read 0 16) :=
    written.trans (congrArg (Mem.write trackedMem 0x200000) (if_neg (by decide)))
  have stays := (congrArg (Mem.get · (trackedRecord + 48 + 1)) copied).trans (trackedRecord_held (k := 1) (Mem.length_read ..) (by decide))
  rw [killed, trackedRecord_zeroed] at stays
  exact absurd stays (by decide)

end Sys2Proof.Machine
end

section
/-! PROOFS. Every step keeps every memory in canonical form. `Canonical` speaks of four fields of the state and of the stores inside groups and blocks;
`State.Canon` says the same of those fields alone. One lemma for each operation of the model says that it keeps them, in the order in which the model defines
the operations, so that the lemma about an operation is the operation's own composition read again; `step` comes last. -/

namespace Sys2Proof.Machine

open Sys2Proof

/-- Both stores of a tile are in canonical form. -/
def Tile.Canon (t : Tile) : Prop := t.data.wf = true ∧ t.scaleArea.wf = true
/-- The tiles of a group are. -/
def Group.Canon (g : Group) : Prop := ∀ t ∈ g.tiles, t.Canon
/-- The scratchpad of a block is. -/
def Block.Canon (b : Block) : Prop := b.sp.wf = true

/-- The four places where `Canonical` looks. -/
structure Memories (mem : Mem) (groups : List Group) (blocks : List Block) (mailbox : Mem) : Prop where
  mem : mem.wf = true
  groups : ∀ g ∈ groups, g.Canon
  blocks : ∀ b ∈ blocks, b.Canon
  mailbox : mailbox.wf = true

/-- `Canonical`, as a statement about four fields alone: an update of any other field keeps it by computation. -/
def State.Canon (s : State) : Prop := Memories s.mem s.groups s.blocks s.mailbox

theorem canonical_iff {s : State} : Canonical s ↔ s.Canon :=
  ⟨fun ⟨hm, hb, hs, ht⟩ => ⟨hm, ht, hs, hb⟩, fun ⟨hm, ht, hs, hb⟩ => ⟨hm, hb, hs, ht⟩⟩

/-- The outcome of a meaning, when it is a state, is canonical. -/
structure Keeps (r : Res) : Prop where
  canon : ∀ t, r = .next t → t.Canon

section
variable {s : State} {g : Group} {b : Block}

/-! ### What holds of parts holds of the whole -/

section
variable {α β : Type} {P : β → Prop}

theorem ite_holds {c : Prop} [Decidable c] {x y : β} (hx : P x) (hy : P y) : P (if c then x else y) := by split <;> assumption
theorem foldl_holds {f : β → α → β} {b : β} {xs : List α} (h : P b) (hf : ∀ b, P b → ∀ a, P (f b a)) : P (xs.foldl f b) :=
  List.foldlRecOn xs f h fun b hb a _ => hf b hb a
theorem map_holds {xs : List β} {f : β → β} (h : ∀ x ∈ xs, P x) (hf : ∀ x, P x → P (f x)) : ∀ x ∈ xs.map f, P x := by
  simpa using fun x hx => hf x (h x hx)
theorem mapIndexed_holds {xs : List β} {f : Nat × β → β} (h : ∀ x ∈ xs, P x) (hf : ∀ e : Nat × β, P e.2 → P (f e)) :
    ∀ x ∈ (indexed xs).map f, P x := by
  simp only [List.mem_map]
  rintro x ⟨e, he, rfl⟩
  exact hf e (h e.2 (List.of_mem_zip he).2)
theorem modAt_holds {xs : List β} {n : Nat} {f : β → β} (h : ∀ x ∈ xs, P x) (hf : ∀ x, P x → P (f x)) : ∀ x ∈ modAt xs n f, P x := by
  intro x hx
  obtain ⟨k, hk⟩ := List.mem_iff_getElem?.mp hx
  rw [getElem?_modAt] at hk
  split at hk
  · obtain ⟨y, hy, rfl⟩ := Option.map_eq_some_iff.mp hk
    exact hf y (h y (List.mem_of_getElem? hy))
  · exact h x (List.mem_of_getElem? hk)
theorem append_holds {xs : List β} {x : β} (h : ∀ x ∈ xs, P x) (hx : P x) : ∀ y ∈ xs ++ [x], P y := by
  simpa [or_imp, forall_and] using ⟨h, hx⟩
theorem some_holds {x : β} (h : P x) : ∀ u, some x = some u → P u := fun _ e => Option.some.inj e ▸ h
theorem none_holds : ∀ u, (none : Option β) = some u → P u := fun _ e => by simp at e
theorem findSome_holds {f : α → Option β} {xs : List α} (hf : ∀ a u, f a = some u → P u) : ∀ u, xs.findSome? f = some u → P u := fun u e => by
  obtain ⟨a, -, e⟩ := List.exists_of_findSome?_eq_some e
  exact hf a u e
theorem optionMap_holds {f : α → β} {o : Option α} (hf : ∀ a, P (f a)) : ∀ u, o.map f = some u → P u := fun u e => by
  obtain ⟨a, -, rfl⟩ := Option.map_eq_some_iff.mp e
  exact hf a
theorem orElse_holds {o : Option β} {k : Unit → Option β} (ho : ∀ u, o = some u → P u) (hk : ∀ u, k () = some u → P u) :
    ∀ u, o.orElse k = some u → P u := by
  cases o with
  | none => exact hk
  | some x => exact ho
end

theorem Keeps.next (h : s.Canon) : Keeps (.next s) := ⟨fun _ e => Host.Outcome.next.inj e ▸ h⟩
theorem Keeps.fault {r : Fault} : Keeps (.fault r) := ⟨fun t e => by simp at e⟩
theorem State.Canon.ite {t : State} {c : Prop} [Decidable c] (hs : s.Canon) (ht : t.Canon) : (if c then s else t).Canon := ite_holds hs ht
theorem Keeps.ite {r q : Res} {c : Prop} [Decidable c] (hr : Keeps r) (hq : Keeps q) : Keeps (if c then r else q) := ite_holds hr hq
theorem Group.Canon.ite {g g' : Group} {c : Prop} [Decidable c] (h : g.Canon) (h' : g'.Canon) : (if c then g else g').Canon := ite_holds h h'
theorem Block.Canon.ite {b b' : Block} {c : Prop} [Decidable c] (h : b.Canon) (h' : b'.Canon) : (if c then b else b').Canon := ite_holds h h'
theorem Tile.Canon.ite {t t' : Tile} {c : Prop} [Decidable c] (h : t.Canon) (h' : t'.Canon) : (if c then t else t').Canon := ite_holds h h'
theorem State.Canon.foldl {α : Type} {f : State → α → State} {xs : List α} (h : s.Canon) (hf : ∀ s, s.Canon → ∀ a, (f s a).Canon) :
    (xs.foldl f s).Canon :=
  foldl_holds h hf
theorem State.Canon.getD {o : Option State} (h : s.Canon) (ho : ∀ u, o = some u → u.Canon) : (o.getD s).Canon := by
  cases o with
  | none => exact h
  | some u => exact ho u rfl

theorem State.Canon.withMem {m : Mem} (h : s.Canon) (hm : m.wf = true) : State.Canon { s with mem := m } := ⟨hm, h.groups, h.blocks, h.mailbox⟩

theorem Mem.filter_wfFrom {m : Mem} {lo : Nat} (h : Mem.wfFrom lo m = true) {p : Host.Cell → Bool} : Mem.wfFrom lo (m.filter p) = true := by
  induction m generalizing lo with
  | nil => rfl
  | cons c m ih =>
    obtain ⟨k, v⟩ := c
    simp only [Mem.wfFrom, Bool.and_eq_true, decide_eq_true_eq] at h
    obtain ⟨⟨hk, hv⟩, hm⟩ := h
    rw [List.filter_cons]
    split
    · simp only [Mem.wfFrom, Bool.and_eq_true, decide_eq_true_eq]
      exact ⟨⟨hk, hv⟩, ih hm⟩
    · exact Mem.wfFrom_mono _ _ _ (ih hm) (by omega)
theorem Mem.filter_wf {m : Mem} (h : m.wf = true) {p : Host.Cell → Bool} : Mem.wf (m.filter p) = true := Mem.filter_wfFrom h

/-! ### Ops.lean -/

theorem Group.Canon.setReg {p m f} (h : g.Canon) : (g.setReg p m f).Canon := h
theorem Group.Canon.setPred {p m f} (h : g.Canon) : (g.setPred p m f).Canon := h
theorem State.Canon.group (h : s.Canon) (gi : Nat) : (s.group gi).Canon := by
  unfold State.group
  cases hg : s.groups[gi]? with
  | none => exact nofun
  | some g => exact h.groups g (List.mem_of_getElem? hg)
theorem State.Canon.modG {gi} {f : Group → Group} (h : s.Canon) (h1 : ∀ u, u.Canon → (f u).Canon) : (s.modG gi f).Canon := by
  dsimp only [State.Canon, State.modG]
  exact ⟨h.mem, modAt_holds h.groups (fun _ h2 => h1 _ h2), h.blocks, h.mailbox⟩
theorem State.Canon.modB {bi} {f : Block → Block} (h : s.Canon) (h1 : ∀ u, u.Canon → (f u).Canon) : (s.modB bi f).Canon := by
  dsimp only [State.Canon, State.modB]
  exact ⟨h.mem, h.groups, modAt_holds h.blocks (fun _ h2 => h1 _ h2), h.mailbox⟩
theorem State.Canon.modL {li f} (h : s.Canon) : (s.modL li f).Canon := h
theorem State.Canon.modF {gi fi f} (h : s.Canon) : (s.modF gi fi f).Canon := .modG h (fun _ h1 => h1)
theorem State.Canon.modC {pasid f} (h : s.Canon) : (s.modC pasid f).Canon := by
  unfold State.modC
  split <;> exact h
theorem State.Canon.setQueue {q} {v : Queue} (h : s.Canon) : (s.setQueue q v).Canon := h
theorem State.Canon.modQ {q f} (h : s.Canon) : (s.modQ q f).Canon := .setQueue h
theorem State.Canon.draw (h : s.Canon) : s.draw.1.Canon := h
theorem State.Canon.chooseOf {n} (h : s.Canon) : (s.chooseOf n).1.Canon := ite_holds (P := fun r : State × _ => r.1.Canon) h h
theorem State.Canon.drawMany {n} (h : s.Canon) : (s.drawMany n).1.Canon := h
theorem State.Canon.drawBytes {n} (h : s.Canon) : (s.drawBytes n).1.Canon := .drawMany h
theorem State.Canon.mixed {α : Type} {xs : List α} (h : s.Canon) : (s.mixed xs).1.Canon := by
  unfold State.mixed
  split
  · exact h
  · dsimp only [State.Canon]
    exact h
theorem Group.Canon.learn {v : KVec} (h : g.Canon) : (g.learn v).Canon := by
  dsimp only [Group.Canon, Group.learn]
  exact h
theorem Group.Canon.tick (h : g.Canon) : g.tick.Canon := h
theorem State.Canon.wakeWoas {pa n} (h : s.Canon) : (wakeWoas s pa n).Canon := h
theorem State.Canon.recallHost {pa n} (h : s.Canon) : (recallHost s pa n).Canon := h
theorem State.Canon.writeMem (h : s.Canon) {pa bs} : (s.writeMem pa bs).Canon := by
  have recalled := h.recallHost (pa := pa) (n := bs.length)
  exact .wakeWoas ⟨Mem.write_wf _ _ _ recalled.mem, recalled.groups, recalled.blocks, recalled.mailbox⟩
theorem State.Canon.writeLe {pa n v} (h : s.Canon) : (s.writeLe pa n v).Canon := .writeMem h
theorem State.Canon.interrupt {src vec pasid} (h : s.Canon) : (s.interrupt src vec pasid).Canon := h
theorem State.Canon.ringPut {base n e bs} (h : s.Canon) : (s.ringPut base n e bs).Canon := .writeLe (.writeMem h)
theorem State.Canon.ringDrop {base} (h : s.Canon) : (s.ringDrop base).Canon := .writeLe h
theorem State.Canon.replayPut {pasid bs} (h : s.Canon) : (replayPut s pasid bs).Canon := .ite h (.writeLe (.foldl h (fun _ h1 _ => .writeMem h1)))
theorem State.Canon.replayLog {pasid ty id payload} (h : s.Canon) : (s.replayLog pasid ty id payload).Canon :=
  .ite h (.foldl h (fun _ h1 _ => .replayPut h1))
theorem State.Canon.drainReplay (h : s.Canon) : (drainReplay s).Canon := .foldl h (fun _ h1 _ => .replayPut h1)
theorem State.Canon.orHold {t : State} (h : s.Canon) (h1 : t.Canon) : (orHold s t).Canon := .ite h1 h
theorem State.Canon.packet {cl} {p : Packet} (h : s.Canon) : (s.packet cl p).Canon := by
  have traced {u : State} {ts : List TraceUnit} (hu : u.Canon) : State.Canon { u with traces := ts } := hu
  unfold State.packet
  extract_lets p' t excess r t1 t2
  refine .ite h (.ite (traced h) (.ite (traced h) ?_))
  split
  next e => exact traced (e ▸ State.Canon.chooseOf h :)
theorem State.Canon.trace {gi ty low payload} (h : s.Canon) : (s.trace gi ty low payload).Canon := .ite h (.packet h)
theorem State.Canon.flushCond {gi fi} (h : s.Canon) : (s.flushCond gi fi).Canon := .ite h (.modF (.trace h))
theorem State.Canon.flushGroup {gi} (h : s.Canon) : (s.flushGroup gi).Canon := .foldl h (fun _ h1 _ => .flushCond h1)
theorem State.Canon.standStill {gi} (h : s.Canon) : (s.standStill gi).Canon := .modG (.flushGroup h) (fun _ h1 => h1)
theorem State.Canon.traceFrag {gi fi ty payload} (h : s.Canon) : (s.traceFrag gi fi ty payload).Canon := .trace (.flushCond h)
theorem State.Canon.traceCond {gi fi taken} (h : s.Canon) : (s.traceCond gi fi taken).Canon := .ite h (.ite (.modF h) (.flushCond (.modF h)))
theorem Keeps.withIss {guard} {k : Iss → State} (h : s.Canon) (h1 : ∀ x, (k x).Canon) : Keeps (withIss s guard k) := by
  unfold Machine.withIss
  split
  · exact .fault
  · exact .next (h1 _)
theorem State.Canon.dropWoas {gi} (h : s.Canon) : (dropWoas s gi).Canon := .modG h (fun _ h1 => h1)
theorem State.Canon.voidFuture {gi k} (h : s.Canon) : (voidFuture s gi k).Canon := .modG h (fun _ h1 => h1)
theorem State.Canon.dropRows {gi cancelled} (h : s.Canon) : (dropRows s gi cancelled).Canon := .foldl h (fun _ h1 _ => .voidFuture h1)
theorem State.Canon.abandonWork {gi} (h : s.Canon) : (abandonWork s gi).Canon := .modG (.dropRows h) (fun _ h1 => h1)
theorem State.Canon.strikeGroup {gi} (h : s.Canon) : (strikeGroup s gi).Canon := by
  unfold Machine.strikeGroup
  split
  · exact h
  · exact .abandonWork h
  · exact .modG (.abandonWork h) (fun _ h1 => h1)
  · exact .modG (.abandonWork h) (fun _ h1 => h1)
  · exact .modG (.abandonWork (.dropWoas (.flushGroup h))) (fun _ h1 => h1)
theorem State.Canon.terminateBlock {bi} (h : s.Canon) : (terminateBlock s bi).Canon :=
  .ite h (.modL (.modB (.foldl h (fun _ h1 _ => .strikeGroup h1)) (fun _ h1 => h1)))
theorem State.Canon.oweRecord {gi ring bs} (h : s.Canon) : (oweRecord s gi ring bs).Canon := h
theorem State.Canon.haltSibling {fid gi} (h : s.Canon) : (haltSibling fid s gi).Canon := .modG h (fun _ h1 => .ite h1 (.ite h1 h1))
theorem State.Canon.unissue {gi fi} (h : s.Canon) : (s.unissue gi fi).Canon := .modF h
theorem State.Canon.startHalt {gi fi} {si : StopInfo} (h : s.Canon) : (startHalt s gi fi si).Canon :=
  .foldl (.modB (.modG (.dropWoas (.unissue h)) (fun _ h1 => h1)) (fun _ h1 => h1)) (fun _ h1 _ => .haltSibling h1)
theorem State.Canon.pendStop {gi fi} {si : StopInfo} {stopper} (h : s.Canon) : (pendStop s gi fi si stopper).Canon :=
  .modG (.dropWoas (.unissue h)) (fun _ h1 => h1)
theorem State.Canon.yieldHalt {a1 : Halt} (h : s.Canon) : (yieldHalt s a1).Canon := .modG h (fun _ h1 => h1)
theorem State.Canon.takeStop {gi fi} {si : StopInfo} (h : s.Canon) : (takeStop s gi fi si).Canon := by
  unfold Machine.takeStop
  dsimp only
  split
  · exact .terminateBlock (.oweRecord (.traceFrag (.flushGroup h)))
  · split
    · exact .startHalt (.flushGroup h)
    · exact .ite (.startHalt (.flushGroup h)) (.ite (.startHalt (.yieldHalt (.flushGroup h))) (.pendStop (.flushGroup h)))
theorem State.Canon.tellStop {bi} (h : s.Canon) : (tellStop s bi).Canon := by
  unfold Machine.tellStop
  split
  · exact h
  · split
    · exact h
    · refine .modB ?_ (fun _ h1 => h1)
      split
      · exact .traceFrag h
      · exact h
theorem State.Canon.faultAt {i : Iss} {code mask info addr} (h : s.Canon) : (faultAt s i code mask info addr).Canon := .takeStop h
theorem State.Canon.wait {i : Iss} {w : Stall} (h : s.Canon) : (s.wait i w).Canon := .modF h
theorem State.Canon.commit {i : Iss} (h : s.Canon) : (s.commit i).Canon := .modB h (fun _ h1 => h1)
theorem Group.Canon.roused {old : Group} (h : g.Canon) (h1 : old.Canon) : (g.roused old).Canon := h
theorem State.Canon.stepStop {gi fi} (h : s.Canon) : (stepStop s gi fi).Canon :=
  .ite (.foldl (.takeStop h) (fun _ h1 _ => .ite (.modG (.dropWoas (.flushGroup h1)) (fun _ h2 => h2)) h1))
      (.oweRecord (.modG (.dropWoas (.unissue (.traceFrag (.flushGroup h)))) (fun _ h1 => h1)))
theorem State.Canon.stepInSkid {gi fi} (h : s.Canon) : (stepInSkid s gi fi).Canon := by
  unfold Machine.stepInSkid
  dsimp only
  split
  · exact h
  · exact .ite (.stepStop h) (.pendStop (.flushGroup h))
theorem State.Canon.stepCheck {gi fid issued handler} (h : s.Canon) : (stepCheck s gi fid issued handler).Canon := by
  unfold Machine.stepCheck
  dsimp only
  split
  · split
    · exact .stepStop h
    · exact .stepInSkid h
    · exact h
    · exact h
  · exact h
theorem State.Canon.advanceTo {i : Iss} {pc noisy br} (h : s.Canon) : (s.advanceTo i pc noisy br).Canon := .modF (.modG h (fun _ h1 => h1))
theorem State.Canon.advance {i : Iss} {size noisy} (h : s.Canon) : (s.advance i size noisy).Canon := .advanceTo h
theorem State.Canon.putReg {i : Iss} {fld f} (h : s.Canon) : (s.putReg i fld f).Canon := .modG h (fun _ h1 => .setReg h1)
theorem State.Canon.putPair {i : Iss} {fld f} (h : s.Canon) : (s.putPair i fld f).Canon := .putReg (.putReg h)
theorem State.Canon.putPred {i : Iss} {p f} (h : s.Canon) : (s.putPred i p f).Canon := .modG h (fun _ h1 => .setPred h1)
theorem Keeps.withOperandsOn {guard reads writes preds on blame} {k : Iss → State} {dests} (h : s.Canon) (h1 : ∀ i, (k i).Canon) :
    Keeps (withOperandsOn s guard reads writes preds on blame k dests) := by
  refine .withIss h fun i => .ite (.faultAt h) (.ite (.wait h) (.ite (.wait h) (.ite (.wait h) ?_)))
  split
  · exact .faultAt h
  · exact .ite (.faultAt h) (h1 i)
theorem Keeps.withOperands {guard reads writes preds} {k : Iss → State} {dests} (h : s.Canon) (h1 : ∀ x, (k x).Canon) : Keeps
    (withOperands s guard reads writes preds k dests) :=
  .withOperandsOn h (fun _ => h1 _)
theorem State.Canon.once {i : Iss} {size} {k : State} (h : s.Canon) (h1 : k.Canon) : (once s i size k).Canon := .ite (.advance h) h1
theorem State.Canon.takePending {bi} (h : s.Canon) : (takePending s bi).Canon := by
  unfold Machine.takePending
  split
  · exact h
  · split
    · exact h
    · split
      · exact h
      · exact .ite (.stepStop (.modG h (fun _ h1 => h1))) (.takeStop (.modG h (fun _ h1 => h1)))
theorem State.Canon.releaseBlock {bi} (h : s.Canon) : (releaseBlock s bi).Canon :=
  .foldl (.foldl (.modB h (fun _ h1 => h1)) (fun _ h1 _ => .modG h1 (fun _ h2 => .ite h2 h2))) (fun _ h1 _ => .takePending h1)
theorem State.Canon.traceReturn {gi fi pc} (h : s.Canon) : (traceReturn s gi fi pc).Canon := .traceFrag h
theorem State.Canon.restoreFrame {gi pc replay} (h : s.Canon) : (restoreFrame s gi pc replay).Canon := by
  refine .traceReturn (.modG h (fun _ h1 => ?_))
  split <;> exact h1
theorem State.Canon.releaseOrReplay {bi replay} (h : s.Canon) : (releaseOrReplay s bi replay).Canon :=
  .ite (.releaseBlock h) (.modB (.foldl h (fun _ h1 _ => .modG h1 (fun _ h2 => h2))) (fun _ h1 => h1))
theorem State.Canon.returnFromStop {gi pc replay} (h : s.Canon) : (returnFromStop s gi pc replay).Canon := .releaseOrReplay (.restoreFrame h)

/-! ### Objects.lean -/

theorem State.Canon.modTree {k f} (h : s.Canon) : (s.modTree k f).Canon := h
theorem State.Canon.modPool {k f} (h : s.Canon) : (s.modPool k f).Canon := h
theorem State.Canon.modSyz {k f} (h : s.Canon) : (s.modSyz k f).Canon := h
theorem State.Canon.modFeed {k f} (h : s.Canon) : (s.modFeed k f).Canon := h

/-! ### Translate.lean -/

theorem State.Canon.fillWalks {pasid va} (h : s.Canon) : (fillWalks s pasid va).Canon := by
  dsimp only [State.Canon, Machine.fillWalks]
  exact h
theorem State.Canon.fillPage {core pasid va} (h : s.Canon) : (fillPage s core pasid va).Canon := by
  unfold Machine.fillPage
  dsimp only
  split
  · exact h
  · exact h
  · split
    · dsimp only [State.Canon]
      exact h.fillWalks
    · exact h
theorem State.Canon.fillTlb {core pasid vas} (h : s.Canon) : (fillTlb s core pasid vas).Canon := .foldl h (fun _ h1 _ => .fillPage h1)
theorem Keeps.execTranslationWalkComplete {core pasid va} (h : s.Canon) : Keeps (execTranslationWalkComplete core pasid va s) :=
  .next (.ite (.fillTlb h) h)

/-! ### Race.lean -/

theorem State.Canon.putRec {a m} (h : s.Canon) : (s.putRec a m).Canon := by
  dsimp only [State.Canon, State.putRec]
  exact ⟨Mem.write_wf _ _ _ h.mem, h.groups, h.blocks, h.mailbox⟩
theorem State.Canon.recordAccs {p : RaceParty} {xs} (h : s.Canon) : (recordAccs s p xs).Canon := by
  refine .foldl h (fun _ h1 _ => ?_)
  split
  · exact .putRec h1
  · exact h1
theorem State.Canon.setRstate {pasid pa st} (h : s.Canon) : (setRstate s pasid pa st).Canon := by
  unfold Machine.setRstate
  split
  · exact .putRec h
  · exact h
theorem State.Canon.syncStore {pasid pa len} {vec : KVec} {clk scope id btag} (h : s.Canon) : (syncStore s pasid pa len vec clk scope id btag).Canon
    := by
  unfold Machine.syncStore
  split
  · exact h
  · extract_lets old s1 w x s2
    have h1 : s1.Canon := .ite (.setRstate h) h
    have h2 : s2.Canon := .withMem h1 (Mem.write_wf _ _ _ h1.mem)
    split
    · exact .ite (.setRstate h2) h2
    · exact h2
theorem State.Canon.syncKill {pasid pa len} (h : s.Canon) : (syncKill s pasid pa len).Canon := by
  unfold Machine.syncKill
  split
  · dsimp only [State.Canon]
    exact ⟨Mem.zero_wf _ _ _ h.mem, h.groups, h.blocks, h.mailbox⟩
  · exact h
theorem State.Canon.resetLine {pasid pa clears} (h : s.Canon) : (resetLine s pasid pa clears).Canon := by
  unfold Machine.resetLine
  dsimp only
  split
  · exact .putRec (.syncKill h)
  · exact .syncKill h
theorem State.Canon.resetLines {pa n} (h : s.Canon) : (resetLines s pa n).Canon :=
  .foldl h (fun _ h1 _ => .ite h1 (.foldl h1 (fun _ h2 _ => .resetLine h2)))
theorem State.Canon.outsideWrite {pa bs} (h : s.Canon) : (s.outsideWrite pa bs).Canon := .writeMem (.resetLines h)
theorem State.Canon.raceRecord {p : RaceParty} {x : RaceAcc} {a1 : RaceHit} {pc lanes lid trap eng} (h : s.Canon) :
    (raceRecord s p x a1 pc lanes lid trap eng).1.Canon :=
  ite_holds (P := fun r : State × _ => r.1.Canon) h (ite_holds (P := fun r : State × _ => r.1.Canon) (.ringDrop (.modC h)) (.modC (.ringPut h)))
theorem Block.Canon.putSpRec {o v} (h : b.Canon) : (b.putSpRec o v).Canon := h

/-! ### Access.lean -/

theorem State.Canon.touchL2 {pasid cls store pa} (h : s.Canon) : (touchL2 s pasid cls store pa).Canon := by
  unfold Machine.touchL2
  dsimp only
  split
  · exact h
  · split
    · exact h
    · split <;> exact h
theorem State.Canon.evictFirst {line} (h : s.Canon) : (evictFirst s line).Canon := h
theorem State.Canon.dropL1 {core pa len} (h : s.Canon) : (dropL1 s core pa len).Canon := h
theorem State.Canon.updateL1 {core pa bs} (h : s.Canon) : (updateL1 s core pa bs).Canon := h
theorem State.Canon.fillL1 {core line stream} (h : s.Canon) : (fillL1 s core line stream).Canon := h
theorem State.Canon.loadBytes {core acquired pol pa len} (h : s.Canon) : (loadBytes s core acquired pol pa len).s.Canon := by
  unfold Machine.loadBytes
  dsimp only
  split
  · exact .dropL1 h
  · split
    · exact ite_holds (P := fun r : Found => r.s.Canon) h (.ite (.dropL1 h) (.fillL1 h))
    · exact .ite (.dropL1 h) (.fillL1 h)
theorem State.Canon.performLane {e : Store} {x : LaneAcc} (h : s.Canon) : (performLane s e x).Canon := by
  unfold Machine.performLane
  dsimp only
  split
  · exact h
  · split
    · exact .foldl (.writeMem (.touchL2 h)) (fun _ h1 _ => .ite (.dropL1 h1) (.updateL1 h1))
    · split
      · exact .syncStore (.ite (.syncKill (.foldl (.writeMem (.touchL2 h)) (fun _ h1 _ => .ite (.dropL1 h1) (.updateL1 h1))))
            (.foldl (.writeMem (.touchL2 h)) (fun _ h1 _ => .ite (.dropL1 h1) (.updateL1 h1))))
      · exact .ite (.syncKill (.foldl (.writeMem (.touchL2 h)) (fun _ h1 _ => .ite (.dropL1 h1) (.updateL1 h1))))
            (.foldl (.writeMem (.touchL2 h)) (fun _ h1 _ => .ite (.dropL1 h1) (.updateL1 h1)))
theorem State.Canon.performStore {e : Store} (h : s.Canon) : (performStore s e).Canon := .foldl h (fun _ h1 _ => .performLane h1)
theorem State.Canon.drainHit {hit} (h : s.Canon) : (drainHit s hit).Canon := .foldl h (fun _ h1 _ => .performStore h1)
theorem State.Canon.drainOwn {gi} {f : Frag} {pas} (h : s.Canon) : (drainOwn s gi f pas).Canon := .drainHit h
theorem State.Canon.recordAll {i : Iss} {space : Space} {xs} (h : s.Canon) : (recordAll s i space xs).Canon := by
  unfold Machine.recordAll
  dsimp only
  split
  · exact .recordAccs h
  · exact .foldl h (fun _ h1 _ => .modB h1 (fun _ h2 => .putSpRec h2))
theorem State.Canon.gated {i : Iss} {tracked} {k : State → State} (h : s.Canon) (h1 : ∀ u, u.Canon → (k u).Canon) : (gated s i tracked k).Canon := by
  unfold Machine.gated
  split
  · exact h1 _ h
  · split
    · exact .ite (h1 _ (.modG h (fun _ h2 => h2))) (.wait h)
    · exact .wait (.modG h (fun _ h2 => h2))
theorem State.Canon.withRaces {i : Iss} {space : Space} {xs} {k : State → State} (h : s.Canon) (h1 : ∀ u, u.Canon → (k u).Canon) :
    (withRaces s i space xs k).Canon := by
  unfold Machine.withRaces
  split
  · exact h1 _ h
  · dsimp only
    split
    · exact h1 _ (.recordAll h)
    · exact .ite (.faultAt (.raceRecord h)) (h1 _ (.recordAll (.raceRecord h)))
theorem State.Canon.faultWhole {i : Iss} {m : MemForm} {cs} (h : s.Canon) : (faultWhole s i m cs).Canon := by
  unfold Machine.faultWhole
  split
  · exact .faultAt h
  · exact h
theorem State.Canon.faultPartial {i : Iss} {m : MemForm} {cs} {effect : State → State} (h : s.Canon) (h1 : ∀ u, u.Canon → (effect u).Canon) :
    (faultPartial s i m cs effect).Canon := by
  unfold Machine.faultPartial
  split
  · exact h
  · exact .ite (.faultAt h) (.faultAt (h1 _ h))
theorem State.Canon.owe {i : Iss} {p : Path} {ws poison act preds} (h : s.Canon) : (s.owe i p ws poison act preds).Canon := .modG h (fun _ h1 => h1)
theorem State.Canon.touch {i : Iss} {cs} (h : s.Canon) : (touch s i cs).Canon := .fillTlb h
theorem State.Canon.retireFills {gi fi scope} (h : s.Canon) : (retireFills s gi fi scope).Canon := .ite (.modF h) (.modF (.modG h (fun _ h1 => h1)))
theorem State.Canon.acquireFills {gi fi scope} (h : s.Canon) : (acquireFills s gi fi scope).Canon := .modF (.retireFills h)
theorem State.Canon.tickG {gi} (h : s.Canon) : (tickG s gi).Canon := .modG h (fun _ h1 => .tick h1)
theorem State.Canon.mergeG {gi} {v : KVec} (h : s.Canon) : (mergeG s gi v).Canon := .modG h (fun _ h1 => .learn h1)

/-! ### Operands.lean -/

theorem Keeps.laneOp {g reads d f size} (h : s.Canon) : Keeps (laneOp s g reads d f size) := .withOperands h (fun _ => .advance (.putReg h))
theorem Keeps.laneOp1 {g d a f} (h : s.Canon) : Keeps (laneOp1 s g d a f) := .laneOp h
theorem Keeps.laneOp2 {g d a b f} (h : s.Canon) : Keeps (laneOp2 s g d a b f) := .laneOp h
theorem Keeps.laneOpI {g d a c f} (h : s.Canon) : Keeps (laneOpI s g d a c f) := .laneOp h
theorem Keeps.laneOp3 {g d a b f} (h : s.Canon) : Keeps (laneOp3 s g d a b f) := .laneOp h
theorem Keeps.laneOp3I {g d a c f} (h : s.Canon) : Keeps (laneOp3I s g d a c f) := .laneOp h
theorem Keeps.lanePair {g reads d f} (h : s.Canon) : Keeps (lanePair s g reads d f) := .withOperands h (fun _ => .advance (.putPair h))
theorem Keeps.lanePair2 {g d a b f} (h : s.Canon) : Keeps (lanePair2 s g d a b f) := .lanePair h
theorem Keeps.laneOpX {g d a c f} (h : s.Canon) : Keeps (laneOpX s g d a c f) := .laneOp h
theorem Keeps.lanePred {g reads preds d f} (h : s.Canon) : Keeps (lanePred s g reads preds d f) := .withOperands h (fun _ => .advance (.putPred h))

/-! ### Memory.lean -/

theorem State.Canon.memAccess {i : Iss} {m : MemForm} {cs cls scope whole size} {effect : State → State} (h : s.Canon)
    (h1 : ∀ u, u.Canon → (effect u).Canon) : (memAccess s i m cs cls scope whole size effect).Canon :=
  .ite (.wait h) (.gated h (fun _ h2 => .ite (.faultWhole (.touch h2)) (.ite (.faultWhole (.touch h2))
      (.withRaces (.touch h2) (fun _ h3 => .ite (.advance (h1 _ h3)) (.faultPartial h3 (fun _ h4 => h1 _ h4)))))))
theorem State.Canon.readLane {i : Iss} {m : MemForm} {c : LaneChk} (h : s.Canon) : (readLane s i m c).s.Canon := by
  unfold Machine.readLane
  split
  · exact h
  · exact ite_holds (P := fun r : Found => r.s.Canon) (.touchL2 (.loadBytes h)) (.loadBytes h)
theorem State.Canon.loadLane {i : Iss} {m : MemForm} {z d dst} {a : LoadRun} {c : LaneChk} (h : a.s.Canon) : (loadLane i m z d dst a c).s.Canon := by
  unfold Machine.loadLane
  dsimp only
  split <;> exact .readLane h
theorem State.Canon.loadAll {i : Iss} {m : MemForm} {z d cs dst} (h : s.Canon) : (loadAll s i m z d cs dst).Canon :=
  .owe (.ite (.modG (foldl_holds (P := fun r : LoadRun => r.s.Canon) h (fun _ h1 _ => .loadLane h1)) (fun _ h1 => h1))
      (foldl_holds (P := fun r : LoadRun => r.s.Canon) h (fun _ h1 _ => .loadLane h1)))
theorem Keeps.loadOp {g} {space : Space} {z pol lcls size d areg ea} (h : s.Canon) : Keeps (loadOp s g space z pol lcls size d areg ea) :=
  .withOperandsOn h (fun _ => .once h (.ite (.wait h) (.ite (.wait h) (.memAccess h (fun _ h1 => .loadAll (.ite (.drainOwn h1) h1))))))
theorem Keeps.ldg {g z d a o} (h : s.Canon) : Keeps (ldg s g z d a o) := .loadOp h
theorem Keeps.lds {g z d a o} (h : s.Canon) : Keeps (lds s g z d a o) := .loadOp h
theorem State.Canon.issueStore {e : Store} (h : s.Canon) : (issueStore s e).Canon := .ite h h
theorem Block.Canon.spPut {o bs} (h : b.Canon) : (b.spPut o bs).Canon := Mem.write_wf _ _ _ h
theorem State.Canon.spStoreLane {i : Iss} {x : LaneAcc} (h : s.Canon) : (spStoreLane s i x).Canon :=
  .modB h (fun _ h1 => .ite (.spPut h1) (.ite h1 (.spPut h1)))
theorem Keeps.storeOp {g} {space : Space} {z pol lcls size d areg ea} (h : s.Canon) : Keeps (storeOp s g space z pol lcls size d areg ea) := by
  refine .withOperands h (fun _ => .once h (.ite (.wait h) (.memAccess h (fun _ h1 => ?_))))
  dsimp only
  split
  · exact .owe (.foldl h1 (fun _ h2 _ => .spStoreLane h2))
  · exact .issueStore h1
theorem Keeps.stg {g z d a o} (h : s.Canon) : Keeps (stg s g z d a o) := .storeOp h
theorem Keeps.sts {g z d a o} (h : s.Canon) : Keeps (sts s g z d a o) := .storeOp h
theorem Keeps.ldAcq {g z d a sc} (h : s.Canon) : Keeps (ldAcq s g z d a sc) :=
  .withOperands h (fun _ => .once h (.ite (.wait h) (.ite (.wait h) (.ite (.wait h)
      (.memAccess h (fun _ h1 => .acquireFills (.mergeG (.loadAll (.drainOwn h1)))))))))
theorem Keeps.stRel {g z d a sc} (h : s.Canon) : Keeps (stRel s g z d a sc) :=
  .withOperands h (fun _ => .once h (.ite (.wait h) (.memAccess h (fun _ h1 => .commit (.issueStore (.tickG (.modF h1)))))))
theorem State.Canon.fenceAcquire {i : Iss} {sc} (h : s.Canon) : (fenceAcquire s i sc).Canon := .acquireFills (.mergeG h)
theorem State.Canon.fenceRelease {i : Iss} {sc} (h : s.Canon) : (fenceRelease s i sc).Canon := .tickG (.commit (.modF h))
theorem Keeps.fenceOp {g sc acq rel} (h : s.Canon) : Keeps (fenceOp s g sc acq rel) :=
  .withOperands h (fun _ => .once h (.ite (.wait h) (.ite (.wait h) (.advance
      (.ite (.fenceRelease (.ite (.fenceAcquire h) h)) (.ite (.fenceAcquire h) h))))))
theorem Keeps.prefetch {g l1 a o} (h : s.Canon) : Keeps (prefetch s g l1 a o) :=
  .withOperands h (fun _ => .advance (.foldl h (fun _ h1 _ => .ite h1 (.ite (.fillL1 (.touchL2 h1)) (.touchL2 h1)))))
theorem State.Canon.waitDone {i : Iss} {n} (h : s.Canon) : (waitDone s i n).Canon := .modF h
theorem Keeps.execIcinv {g a sc} (h : s.Canon) : Keeps (execIcinv g a sc s) :=
  .withOperands h (fun _ => .once h (.ite (.wait h) (.waitDone (.advance (.owe h)))))
theorem Keeps.execL1inv {g a} (h : s.Canon) : Keeps (execL1inv g a s) := .withOperands h (fun _ => .advance (.foldl h (fun _ h1 _ => .dropL1 h1)))
theorem Keeps.execL1invAll {g} (h : s.Canon) : Keeps (execL1invAll g s) := .withOperands h (fun _ => .once h (.advance h))
theorem Keeps.execEvict {g a} (h : s.Canon) : Keeps (execEvict g a s) :=
  .withOperands h (fun _ => .advance (.foldl h (fun _ h1 _ => .evictFirst (.dropL1 h1))))
theorem Keeps.withRight {g ok detail} {k : Res} (h : s.Canon) (h1 : Keeps k) : Keeps (withRight s g ok detail k) := by
  unfold Machine.withRight
  split
  · exact .fault
  · exact .ite h1 (.next (.faultAt h))
theorem Keeps.execL2part {g d a} (h : s.Canon) : Keeps (execL2part g d a s) :=
  .withRight h (.withOperands h (fun _ => .once h (.ite (.faultAt h) (.ite (.faultAt h) (.advance (.putReg (.modC h)))))))
theorem Keeps.execWpath {g a p} (h : s.Canon) : Keeps (execWpath g a p s) :=
  .withOperands h (fun _ => .once h (.ite (.advance (.acquireFills h)) (.wait h)))
theorem Keeps.execWbatch {g a} (h : s.Canon) : Keeps (execWbatch g a s) := by
  refine .withOperands h (fun _ => .once h ?_)
  dsimp only
  split
  · exact .wait h
  · split
    · exact .faultAt (.modG h (fun _ h1 => h1))
    · exact .advance (.acquireFills h)
theorem State.Canon.consume {i : Iss} {k} (h : s.Canon) : (consume s i k).Canon :=
  .ite (.acquireFills (.modG h (fun _ h1 => h1))) (.modG h (fun _ h1 => h1))
theorem State.Canon.faultErr {i : Iss} {e : Deferred} (h : s.Canon) : (faultErr s i e).Canon := .faultAt h
theorem State.Canon.deliver {i : Iss} {k} {ok : State} (h : s.Canon) (h1 : ok.Canon) : (deliver s i k ok).Canon := by
  unfold Machine.deliver
  split
  · exact .faultErr (.modG h (fun _ h2 => h2))
  · exact h1
theorem State.Canon.waitFut {i : Iss} {mk} (h : s.Canon) : (waitFut s i mk).Canon := by
  unfold Machine.waitFut
  split
  · exact h
  · exact h
  · exact .wait h
theorem Keeps.execWfut {g d k} (h : s.Canon) : Keeps (execWfut g d k s) := by
  refine .withOperands h (fun _ => .once h ?_)
  split
  · exact .faultAt h
  · exact .waitFut h
  · exact .deliver h (.advance (.putReg (.consume h)))
theorem Keeps.execWany {g d a} (h : s.Canon) : Keeps (execWany g d a s) := by
  refine .withOperands h (fun _ => .once h ?_)
  dsimp only
  split
  · exact .faultAt h
  · split
    · exact .faultAt h
    · split
      · exact .waitFut h
      · exact .deliver h (.advance (.putReg (.consume h)))
theorem Keeps.execFpoll {g d k} (h : s.Canon) : Keeps (execFpoll g d k s) := by
  refine .withOperands h (fun _ => .once h ?_)
  split
  · exact .faultAt h
  · exact .advance (.putReg h)
  · exact .deliver h (.advance (.putReg (.consume h)))
theorem State.Canon.treeReturn {i : Iss} {d cancelled} {know : KVec} (h : s.Canon) : (treeReturn s i d cancelled know).Canon :=
  .advance (.putReg (.acquireFills (.mergeG h)))
theorem Keeps.execWtree {g d a} (h : s.Canon) : Keeps (execWtree g d a s) := by
  refine .withOperands h (fun _ => .once h ?_)
  dsimp only
  split
  · exact .treeReturn h
  · exact .ite (.faultAt h) (.ite (.wait h) (.treeReturn h))
theorem Keeps.execRclk {g d} (h : s.Canon) : Keeps (execRclk g d s) := .withOperands h (fun _ => .advance (.putReg h))
theorem Keeps.execRtick {g} (h : s.Canon) : Keeps (execRtick g s) := .withOperands h (fun _ => .once h (.advance (.tickG h)))
theorem Keeps.execRmode {g m} (h : s.Canon) : Keeps (execRmode g m s) :=
  .withRight h (.withOperands h (fun _ => .once h (.advance (.modG h (fun _ h1 => h1)))))
theorem Keeps.execRnext {g d} (h : s.Canon) : Keeps (execRnext g d s) := .withOperands h (fun _ => .once h (.ite (.wait h) (.advance (.owe h))))
theorem Keeps.execRclr {g a b} (h : s.Canon) : Keeps (execRclr g a b s) :=
  .withOperands h (fun _ => .once h (.ite (.wait h) (.ite (.wait h) (.waitDone (.advance (.owe h))))))

/-! ### Atomic.lean -/

theorem State.Canon.logOrder {i : Iss} {object} (h : s.Canon) : (logOrder s i object).Canon := .replayLog h
theorem State.Canon.atomLane {i : Iss} {space : Space} {e : Store} {x : LaneAcc} (h : s.Canon) : (atomLane s i space e x).1.Canon := by
  unfold Machine.atomLane
  split
  · exact .ite (.logOrder (.performLane h)) (.performLane h)
  · exact .spStoreLane h
theorem State.Canon.atomAll {i : Iss} {space : Space} {d n} {e : Store} (h : s.Canon) : (atomAll s i space d n e).Canon :=
  .owe (foldl_holds (P := fun r : State × _ => r.1.Canon) h (fun _ h1 _ => .atomLane h1))
theorem State.Canon.captureAll {i : Iss} {cs len} (h : s.Canon) : (captureAll s i cs len).Canon := .modF h
theorem State.Canon.carries {i : Iss} {release sc} (h : s.Canon) : (carries s i release sc).1.Canon :=
  ite_holds (P := fun r : State × _ => r.1.Canon) (.tickG (.modF h)) h
theorem Keeps.atomOp {g areg dreg creg d c n bytes} {space : Space} {op order sc size ea} (h : s.Canon) : Keeps
    (atomOp s g areg dreg creg d c n bytes space op order sc size ea) := by
  refine .withOperands h fun _ => .once h <| .ite (.wait h) <| .ite (.wait h) <| .ite (.wait h) <| .ite (.wait h) ?_
  split
  · exact .faultAt h
  · refine .memAccess h fun s1 h1 => ?_
    extract_lets s2 v s3 s4 s5
    have h2 : s2.Canon := .ite (.drainOwn h1) h1
    have h3 : s3.Canon := .mergeG (.ite (.captureAll h2) h2)
    have h4 : s4.Canon := .ite (.acquireFills h3) h3
    have h5 : s5.Canon := .ite (.modG h4 fun _ hg => hg) h4
    split
    next e => exact .commit (.atomAll (e ▸ State.Canon.carries h5 :))
theorem Keeps.atom32 {g op d a o sc} (h : s.Canon) : Keeps (atom32 s g op d a o sc) := .atomOp h
theorem Keeps.atomW {g op d n a o sc sp c} (h : s.Canon) : Keeps (atomW s g op d n a o sc sp c) := .ite (.atomOp h) (.atomOp h)
theorem Keeps.redOp {g op d n a o sc halves} (h : s.Canon) : Keeps (redOp s g op d n a o sc halves) :=
  .withOperands h (fun _ => .once h (.ite (.wait h) (.memAccess h (fun _ h1 => .commit
      (.foldl (ite_holds (P := fun r : State × _ => r.1.Canon) (.tickG (.modF h1)) h1) (fun _ h2 _ => .issueStore h2))))))
theorem Keeps.conflict {g d a w rel} (h : s.Canon) : Keeps (conflict s g d a w rel) := .withOperands h (fun _ => .advance (.putPred (.putReg h)))
theorem Keeps.execVuniq {g d a w} (h : s.Canon) : Keeps (execVuniq g d a w s) := .withOperands h (fun _ => .advance (.putReg h))
theorem Keeps.combineClasses {g d a f} (h : s.Canon) : Keeps (combineClasses s g d a f) := .withOperands h (fun _ => .advance (.putPred (.putReg h)))
theorem Block.Canon.putBar {key} {w : BarWord} (h : b.Canon) : (b.putBar key w).Canon := .ite h (.spPut h)
theorem State.Canon.arriveAt {bi key n c} {vec : KVec} (h : s.Canon) : (arriveAt s bi key n c vec).Canon :=
  .modB h (fun _ h1 => .ite (.putBar h1) (.putBar h1))
theorem State.Canon.arriveBy {i : Iss} {key n c} (h : s.Canon) : (arriveBy s i key n c).Canon := .tickG (.commit (.arriveAt h))
theorem State.Canon.released {i : Iss} {k : State} (h : s.Canon) (h1 : k.Canon) : (released s i k).Canon := .ite (.wait h) h1
theorem State.Canon.phaseReturn {i : Iss} {know : KVec} (h : s.Canon) : (phaseReturn s i know).Canon :=
  .acquireFills (.modG (.mergeG h) (fun _ h1 => h1))
theorem State.Canon.barReturn {i : Iss} {key} {know : KVec} (h : s.Canon) : (barReturn s i key know).Canon := by
  unfold Machine.barReturn
  split
  · exact .faultErr (.modG h (fun _ h1 => h1))
  · exact .advance (.phaseReturn h)
theorem State.Canon.barrierWait {i : Iss} {key gen} (h : s.Canon) : (barrierWait s i key gen).Canon := .ite (.wait h) (.barReturn h)
theorem State.Canon.barResume {i : Iss} {k : State} (h : s.Canon) (h1 : k.Canon) : (barResume s i k).Canon := by
  unfold Machine.barResume
  split
  · exact .barrierWait h
  · exact .barrierWait h
  · exact .barReturn h
  · exact h1
theorem State.Canon.wakeBars (h : s.Canon) : (wakeBars s).Canon := by
  dsimp only [State.Canon, Machine.wakeBars]
  exact ⟨h.mem, map_holds h.groups (fun _ h1 => h1), h.blocks, h.mailbox⟩
theorem State.Canon.syncOnce {i : Iss} {key} (h : s.Canon) : (syncOnce s i key).Canon := by
  unfold Machine.syncOnce
  split
  · exact .barrierWait h
  · exact .released h (.barrierWait (.modF (.arriveBy h)))
theorem State.Canon.wordsAccess {i : Iss} {a size write read places} {k : Nat → State → State} (h : s.Canon) (h1 : ∀ x u, u.Canon → (k x u).Canon) :
    (wordsAccess s i a size write read places k).Canon := by
  unfold Machine.wordsAccess
  dsimp only
  split
  · exact .faultAt h
  · split
    · exact .faultAt h
    · exact .gated h (fun _ h2 => .withRaces h2 (fun _ h3 => h1 _ _ h3))
theorem State.Canon.wordAccess {i : Iss} {a size write read} {k : Nat → State → State} (h : s.Canon) (h1 : ∀ x u, u.Canon → (k x u).Canon) :
    (wordAccess s i a size write read k).Canon :=
  .wordsAccess h (fun _ _ h2 => h1 _ _ h2)
theorem State.Canon.barAccess {i : Iss} {a write} {k : Nat → State → State} {read} (h : s.Canon) (h1 : ∀ x u, u.Canon → (k x u).Canon) :
    (barAccess s i a write k read).Canon :=
  .wordAccess h (fun _ _ h2 => h1 _ _ h2)
theorem Block.Canon.initBar {key n} (h : b.Canon) : (initBar b key n).Canon := .putBar h
theorem Keeps.execBarArr {g d a b} (h : s.Canon) : Keeps (execBarArr g d a b s) :=
  .withOperands h (fun _ => .once h (.released h (.barAccess h (fun _ _ h1 => .advance (.putReg (.arriveBy h1))))))
theorem Keeps.execBarWait {g a b} (h : s.Canon) : Keeps (execBarWait g a b s) :=
  .withOperands h (fun _ => .once h (.barResume h (.barAccess h (fun _ _ h1 => .barrierWait h1))))
theorem Keeps.execBarSync {g a} (h : s.Canon) : Keeps (execBarSync g a s) :=
  .withOperands h (fun _ => .once h (.barResume h (.ite (.syncOnce h) (.released h (.barAccess h (fun _ _ h1 => .syncOnce h1))))))
theorem Keeps.execBarInit {g a b} (h : s.Canon) : Keeps (execBarInit g a b s) :=
  .withOperands h (fun _ => .once h (.barAccess h (fun _ _ h1 => .advance (.modB h1 (fun _ h2 => .initBar h2)))))
theorem Keeps.execBarArrx {g d a b} (h : s.Canon) : Keeps (execBarArrx g d a b s) :=
  .withOperands h (fun _ => .once h (.released h (.barAccess h (fun _ _ h1 => .advance (.putReg (.arriveBy h1))))))
theorem Keeps.execCbarInit {g d a} (h : s.Canon) : Keeps (execCbarInit g d a s) :=
  .withOperands h (fun _ => .once h (.advance (.modB h (fun _ h1 => .initBar h1))))
theorem Keeps.execCbarArr {g d a} (h : s.Canon) : Keeps (execCbarArr g d a s) :=
  .withOperands h (fun _ => .once h (.released h (.advance (.putReg (.arriveBy h)))))
theorem Keeps.execCbarWait {g d a} (h : s.Canon) : Keeps (execCbarWait g d a s) := .withOperands h (fun _ => .once h (.barResume h (.barrierWait h)))
theorem Keeps.execCbarSync {g a} (h : s.Canon) : Keeps (execCbarSync g a s) := .withOperands h (fun _ => .once h (.barResume h (.syncOnce h)))
theorem State.Canon.register {i : Iss} {c : LaneChk} {mask exp} {cmp : WoaCmp} {sc} (h : s.Canon) : (register s i c mask exp cmp sc).Canon :=
  .wait (.modG h (fun _ h1 => h1))
theorem State.Canon.woaReturn {i : Iss} {d sc v} {know : KVec} {bad} (h : s.Canon) : (woaReturn s i d sc v know bad).Canon := by
  refine .advance ?_
  split
  · exact .modG (.putReg (.acquireFills (.mergeG h))) (fun _ h1 => h1)
  · exact .putReg (.acquireFills (.mergeG h))
theorem State.Canon.woaWake {i : Iss} {d} {w : Woa} {v} (h : s.Canon) : (woaWake s i d w v).Canon := by
  unfold Machine.woaWake
  split
  · exact .faultAt (.raceRecord h)
  · refine .woaReturn ?_
    split
    · exact .raceRecord (.ite (.replayLog h) h)
    · exact .ite (.replayLog h) h
theorem State.Canon.seeWoa {w : Woa} (h : s.Canon) : (seeWoa s w).Canon := by
  unfold Machine.seeWoa
  split
  · exact h
  extract_lets g p x know hit done pc
  have seen {u : State} {race report} (hu : u.Canon) : (done u race report).Canon := by
    dsimp only [State.Canon, done]
    exact hu
  clear_value hit
  split
  · exact seen h
  split
  · exact seen (.recordAccs h)
  split
  · exact seen h
  extract_lets t
  have ht : t.Canon := .raceRecord h
  exact .ite (seen (.recordAccs h)) (seen (.recordAccs ht))
theorem State.Canon.seeWoas (h : s.Canon) : (seeWoas s).Canon := .foldl h (fun _ h1 _ => .seeWoa h1)
theorem Keeps.woaOp {g d a sc} {cmp : WoaCmp} (h : s.Canon) : Keeps (woaOp s g d a sc cmp) := by
  refine .withOperands h (fun _ => .once h ?_)
  dsimp only
  split
  · exact .faultAt h
  · split
    · exact .wait h
    · split
      · split
        · exact .woaWake (.commit (.touch (.dropL1 (.drainOwn h))))
        · exact .wait (.commit (.touch (.dropL1 (.drainOwn h))))
      · exact .ite (.gated (.commit (.touch (.dropL1 (.drainOwn h)))) (fun _ h1 => .withRaces h1 (fun _ h2 => .woaReturn h2)))
            (.register (.commit (.touch (.dropL1 (.drainOwn h)))))

/-! ### Flags.lean -/

theorem Keeps.cmpOp {g c p reads f} (h : s.Canon) : Keeps (cmpOp s g c p reads f) := .lanePred h
theorem Keeps.cmpR {g c p a b f} (h : s.Canon) : Keeps (cmpR s g c p a b f) := .cmpOp h
theorem Keeps.cmpI {g c p a b f} (h : s.Canon) : Keeps (cmpI s g c p a b f) := .cmpOp h
theorem Keeps.cmpPair {g c p a b f} (h : s.Canon) : Keeps (cmpPair s g c p a b f) := .cmpOp h
theorem Keeps.carryOp {g d reads b a f} (h : s.Canon) : Keeps (carryOp s g d reads b a f) :=
  .withOperands h (fun _ => .advance (.putPred (.putReg h)))
theorem Keeps.predOp2 {g d a b f} (h : s.Canon) : Keeps (predOp2 s g d a b f) := .lanePred h
theorem Keeps.predOp1 {g d a f} (h : s.Canon) : Keeps (predOp1 s g d a f) := .lanePred h

/-! ### Float.lean -/

theorem Keeps.fOp1 {g d a f} (h : s.Canon) : Keeps (fOp1 s g d a f) := .laneOp h
theorem Keeps.fOp2 {g d a b f} (h : s.Canon) : Keeps (fOp2 s g d a b f) := .laneOp h
theorem Keeps.fOp3 {g d a b f} (h : s.Canon) : Keeps (fOp3 s g d a b f) := .laneOp h
theorem Keeps.fcmpOp {g c p a b f} (h : s.Canon) : Keeps (fcmpOp s g c p a b f) := .cmpOp h
theorem Keeps.hOp2 {g d a b f} (h : s.Canon) : Keeps (hOp2 s g d a b f) := .laneOp h
theorem Keeps.hOp3 {g d a b f} (h : s.Canon) : Keeps (hOp3 s g d a b f) := .laneOp h

/-! ### Lane.lean -/

theorem Keeps.shuffle {g d a b src} (h : s.Canon) : Keeps (shuffle s g d a b src) := .laneOp h
theorem Keeps.laneReduce {g d a f} (h : s.Canon) : Keeps (laneReduce s g d a f) := .laneOp h
theorem Keeps.execSel {g d a b} (h : s.Canon) : Keeps (execSel g d a b s) := .withOperands h (fun _ => .advance (.putReg h))
theorem Keeps.execBallot {g d a} (h : s.Canon) : Keeps (execBallot g d a s) := .withOperands h (fun _ => .advance (.putReg h))
theorem Keeps.execP2v {g d a} (h : s.Canon) : Keeps (execP2v g d a s) := .withOperands h (fun _ => .advance (.putReg h))
theorem Keeps.execTagq {g d a} (h : s.Canon) : Keeps (execTagq g d a s) := .withOperands h (fun _ => .advance (.putReg h))
theorem State.Canon.sample {i : Iss} {v} (h : s.Canon) : (s.sample i v).Canon := .replayLog (.modF h)
theorem Keeps.execSrd {g d n} (h : s.Canon) : Keeps (execSrd g d n s) := by
  refine .withOperands h (fun _ => .once h ?_)
  split
  · exact .advance (.putReg (.sample h))
  · exact .advance (.putReg h)
theorem State.Canon.setWb {i : Iss} {wb} (h : s.Canon) : (s.setWb i wb).Canon := .modF h
theorem State.Canon.setFmt {i : Iss} {v} (h : s.Canon) : (s.setFmt i v).Canon := .modF h
theorem State.Canon.setTrap {i : Iss} {f} (h : s.Canon) : (s.setTrap i f).Canon := .modG h (fun _ h1 => h1)
theorem State.Canon.faultIll {i : Iss} {w detail} (h : s.Canon) : (faultIll s i w detail).Canon := .faultAt h
theorem Keeps.execSwr {g d n} (h : s.Canon) : Keeps (execSwr g d n s) := by
  refine .withOperands h (fun _ => .once h ?_)
  dsimp only
  split
  · exact .ite (.faultAt h) (.advance (.setWb h))
  · exact .ite (.faultIll h) (.advance (.setFmt h))
  · exact .ite (.faultIll h) (.ite (.faultAt h) (.advance (.modG h (fun _ h1 => h1))))
  · exact .advance (.setTrap h)
  · exact .advance (.setTrap h)
  · exact .advance (.setTrap h)
  · exact .advance (.setTrap h)
  · exact .advance (.setTrap h)
  · exact .advance (.setTrap h)
  · exact .advance (.setTrap h)
  · exact .advance (.setTrap h)
  · exact .advance h

/-! ### Control.lean -/

theorem State.Canon.fuse {gi e} (h : s.Canon) : (fuse s gi e).Canon := by
  unfold Machine.fuse
  split
  · exact h
  · exact .trace (.modG h (fun _ h1 => h1))
theorem State.Canon.arrive {gi fi} (h : s.Canon) : (arrive s gi fi).Canon := by
  unfold Machine.arrive
  dsimp only
  split
  · exact .flushCond h
  · split
    · exact .flushCond h
    · exact .ite (.fuse (.modG (.flushCond h) (fun _ h1 => h1))) (.modG (.flushCond h) (fun _ h1 => h1))
theorem State.Canon.leaveEntries {gi m} (h : s.Canon) : (leaveEntries s gi m).Canon := by
  refine .foldl (.modG h (fun _ h1 => h1)) (fun _ h1 _ => ?_)
  split
  · exact .ite (.fuse h1) h1
  · exact h1
theorem State.Canon.beginRetire {gi} (h : s.Canon) : (beginRetire s gi).Canon := .modG h (fun _ h1 => .ite h1 h1)
theorem State.Canon.exitLanes {gi fi m} (h : s.Canon) : (exitLanes s gi fi m).Canon :=
  .beginRetire (.leaveEntries (.ite (.modG (.modF (.modG (.traceFrag h) (fun _ h1 => h1))) (fun _ h1 => h1))
      (.modF (.modG (.traceFrag h) (fun _ h1 => h1)))))
theorem State.Canon.goTo {i : Iss} {pc br} (h : s.Canon) : (goTo s i pc br).Canon := .advanceTo (.modF h)
theorem Keeps.uniformBranch {o cond test} (h : s.Canon) : Keeps (uniformBranch s o cond test) :=
  .withOperands h (fun _ => .ite (.faultAt h) (.goTo (.ite (.traceCond h) h)))
theorem State.Canon.callTo {i : Iss} {pc} (h : s.Canon) : (callTo s i pc).Canon := .goTo (.putPair (.setWb h))
theorem Keeps.execCall {o} (h : s.Canon) : Keeps (execCall o s) :=
  .withOperands h (fun _ => .ite (.faultAt h) (.ite (.faultAt h) (.ite (.wait h) (.callTo h))))
theorem Keeps.execRet (h : s.Canon) : Keeps (execRet s) := by
  refine .withOperands h (fun _ => ?_)
  dsimp only
  split
  · exact .faultAt h
  · split
    · exact .faultAt h
    · exact .goTo (.traceFrag (.setWb h))
theorem Keeps.execJmpr {a} (h : s.Canon) : Keeps (execJmpr a s) := by
  refine .withOperands h (fun _ => ?_)
  dsimp only
  split
  · exact .faultAt h
  · exact .goTo (.traceFrag h)
theorem Keeps.execCallr {a} (h : s.Canon) : Keeps (execCallr a s) := by
  refine .withOperands h (fun _ => ?_)
  dsimp only
  split
  · exact .faultAt h
  · exact .ite (.faultAt h) (.ite (.wait h) (.callTo (.traceFrag h)))
theorem State.Canon.splitTo {i : Iss} {rpc ts payload} (h : s.Canon) : (splitTo s i rpc ts payload).Canon := by
  unfold Machine.splitTo
  dsimp only
  split
  · exact .traceFrag (.advanceTo h)
  · exact .modG (.traceFrag (.advanceTo h)) (fun _ h1 => h1)
theorem State.Canon.divergent {i : Iss} {roff tgt aim} (h : s.Canon) : (divergent s i roff tgt aim).Canon := by
  unfold Machine.divergent
  dsimp only
  split
  · exact .faultAt h
  · split
    · exact .faultAt h
    · split
      · exact .advance h
      · exact .goTo (.ite (.traceFrag h) (.traceCond h))
      · exact .splitTo h
theorem Keeps.execBrd {toff roff} (h : s.Canon) : Keeps (execBrd toff roff s) := .withOperands h (fun _ => .divergent h)
theorem Keeps.execBrdr {a roff} (h : s.Canon) : Keeps (execBrdr a roff s) := .withOperands h (fun _ => .divergent h)
theorem Keeps.execExit {g} (h : s.Canon) : Keeps (execExit g s) := .withOperands h (fun _ => .once h (.exitLanes (.goTo h)))
theorem Keeps.execYield {g} (h : s.Canon) : Keeps (execYield g s) := .withOperands h (fun _ => .advance h)
theorem Keeps.execJoin (h : s.Canon) : Keeps (execJoin s) := by
  refine .withOperands h (fun _ => ?_)
  split
  · exact .goTo h
  · exact .arrive (.goTo h)
theorem Keeps.execWbase {g n} (h : s.Canon) : Keeps (execWbase g n s) := .withOperands h (fun _ => .once h (.ite (.faultAt h) (.advance (.setWb h))))
theorem Keeps.execSpin {g} (h : s.Canon) : Keeps (execSpin g s) := .withOperands h (fun _ => .once h (.modF (.advance h)))
theorem Keeps.execNop {g} (h : s.Canon) : Keeps (execNop g s) := .withOperands h (fun _ => .advance h)
theorem Keeps.execFmask {g d sel} (h : s.Canon) : Keeps (execFmask g d sel s) :=
  .withOperands h (fun _ => .once h (.advance (.modG h (fun _ h1 => .setPred h1))))

/-! ### Engine.lean -/

theorem State.Canon.ask {a : Asker} {held ns} (h : s.Canon) : (ask s a held ns).1.Canon := by
  unfold Machine.ask
  refine foldl_holds (P := fun r : State × _ => r.1.Canon) h (fun _ h1 _ => ?_)
  dsimp only
  split
  · exact h1
  · exact ite_holds (P := fun r : State × _ => r.1.Canon) h1 h1
theorem State.Canon.dropFailed (h : s.Canon) : (dropFailed s).Canon := h
theorem State.Canon.fail {r : CmdRun} {code addr} (h : r.s.Canon) : (r.fail code addr).s.Canon := h
theorem State.Canon.drainCmd {p : CmdParty} {pa len} (h : s.Canon) : (drainCmd s p pa len).Canon := .drainHit h
theorem State.Canon.engineRace {r : CmdRun} {p : CmdParty} {x : Xlate} {va pa len write cls} (h : r.s.Canon) :
    (engineRace r p x va pa len write cls).s.Canon := by
  unfold Machine.engineRace
  split
  · exact h
  · refine .recordAccs ?_
    split
    · exact h
    · exact .raceRecord h
theorem State.Canon.l2 {r : CmdRun} {p : CmdParty} {x : Xlate} {store pa} (h : r.s.Canon) : (r.l2 p x store pa).s.Canon := .touchL2 h
theorem State.Canon.engineRead {r : CmdRun} {p : CmdParty} {va len cls} (h : r.s.Canon) : (engineRead r p va len cls).1.s.Canon := by
  unfold Machine.engineRead
  split
  · exact .fail h
  · exact ite_holds (P := fun r : CmdRun × _ => r.1.s.Canon) (.fail (.l2 (.drainCmd h))) (.engineRace (.l2 (.drainCmd h)))
theorem State.Canon.engineWrite {r : CmdRun} {p : CmdParty} {va cls bs} (h : r.s.Canon) : (engineWrite r p va cls bs).1.s.Canon := by
  unfold Machine.engineWrite
  split
  · exact .fail h
  · exact .ite (.syncKill (.dropL1 (.writeMem (.engineRace (.l2 (.drainCmd h)))))) (.dropL1 (.writeMem (.engineRace (.l2 (.drainCmd h)))))
theorem State.Canon.engineSpRace {r : CmdRun} {p : CmdParty} {o len write} (h : r.s.Canon) : (engineSpRace r p o len write).s.Canon := by
  unfold Machine.engineSpRace
  dsimp only
  split
  · exact h
  · refine .modB ?_ (fun _ h1 => .putSpRec h1)
    split
    · exact h
    · exact .raceRecord h
theorem State.Canon.spRead {r : CmdRun} {p : CmdParty} {o len} (h : r.s.Canon) : (spRead r p o len).1.s.Canon :=
  ite_holds (P := fun r : CmdRun × _ => r.1.s.Canon) (.fail h) (.engineSpRace h)
theorem State.Canon.spWrite {r : CmdRun} {p : CmdParty} {o bs} (h : r.s.Canon) : (spWrite r p o bs).s.Canon :=
  .modB (.engineSpRace h) (fun _ h1 => .spPut h1)
theorem State.Canon.orphanError {gi} {e : Deferred} (h : s.Canon) : (orphanError s gi e).Canon := .oweRecord h

/-! ### Copy.lean -/

theorem Block.Canon.setCredit {o k v} (h : b.Canon) : (b.setCredit o k v).Canon := Mem.write_wf _ _ _ h
theorem Block.Canon.setWord {o v} (h : b.Canon) : (b.setWord o v).Canon := Mem.write_wf _ _ _ h
theorem Block.Canon.ringAdvance (h : b.Canon) {o n} : (ringAdvance b o n).Canon := by
  induction n generalizing b with
  | zero => exact h
  | succ n ih =>
    unfold Machine.ringAdvance
    dsimp only
    split
    · exact h
    · exact ih (b := { b.setWord _ _ with ringDone := _, ringVecs := _ }) h.setWord
theorem Block.Canon.ringComplete {o ix status} {v : KVec} (h : b.Canon) : (ringComplete b o ix status v).Canon := by
  unfold Machine.ringComplete
  exact .ringAdvance (by dsimp only [Block.Canon]; exact h.setWord)
theorem State.Canon.ringAccess {i : Iss} {a write} {k : Nat → State → State} (h : s.Canon) (h1 : ∀ x u, u.Canon → (k x u).Canon) :
    (ringAccess s i a write k).Canon :=
  .wordAccess h (fun _ _ h2 => h1 _ _ h2)
theorem State.Canon.faultEng {i : Iss} {m detail} (h : s.Canon) : (faultEng s i m detail).Canon := .faultAt h
theorem Block.Canon.initHeader {o c rmask own owner} (h : b.Canon) : (initHeader b o c rmask own owner).Canon := by
  dsimp only [Block.Canon, Machine.initHeader]
  exact Mem.write_wf _ _ _ h
theorem State.Canon.looseRing {bi o} (h : s.Canon) : (looseRing s bi o).Canon := .modB (.drawBytes h) (fun _ h1 => Mem.write_wf _ _ _ h1)
theorem State.Canon.staleErrs {bi p} (h : s.Canon) : (staleErrs s bi p).Canon := by
  dsimp only [State.Canon, Machine.staleErrs]
  exact ⟨h.mem, map_holds h.groups (fun _ h1 => .ite h1 h1), h.blocks, h.mailbox⟩
theorem Keeps.execRbInit {g a b} (h : s.Canon) : Keeps (execRbInit g a b s) := by
  refine .withOperands h fun _ => .once h <| .wordsAccess h fun _ s1 h1 => ?_
  extract_lets bl
  split
  split
  · exact .faultEng h1
  · extract_lets stray copies s2
    have h2 : s2.Canon := .modB (.staleErrs (by dsimp only [State.Canon]; exact h1)) fun _ hb => foldl_holds hb fun _ hb _ => .initHeader hb
    exact .advance (.ite (.foldl h2 fun _ h3 _ => .looseRing h3) h2)
theorem State.Canon.tellErr {gi} {e : Deferred} (h : s.Canon) : (tellErr s gi e).Canon := .modG h (fun _ h1 => h1)
theorem State.Canon.awaitReturn {i : Iss} {d o ix} (h : s.Canon) : (awaitReturn s i d o ix).Canon := by
  unfold Machine.awaitReturn
  dsimp only
  split
  · exact .faultErr (.tellErr h)
  · exact .advance (.putReg (.putReg (.acquireFills (.mergeG h))))
theorem Keeps.execRbAwait {g d a b} (h : s.Canon) : Keeps (execRbAwait g d a b s) := by
  refine .withOperands h (fun _ => .once h ?_)
  dsimp only
  split
  · exact .ite (.awaitReturn h) (.wait h)
  · exact .ringAccess h (fun _ _ h1 => .ite (.awaitReturn h1) (.wait h1))
theorem Keeps.execRbRel {g a b} (h : s.Canon) : Keeps (execRbRel g a b s) :=
  .withOperands h (fun _ => .once h (.ite (.wait h) (.wordsAccess h (fun _ _ h1 => .ite (.advance h1)
      (.ite (.faultEng h1) (.advance (.tickG (.commit (.modB h1 (fun _ h2 => .setCredit (.setWord h2)))))))))))
theorem Keeps.execRbStat {g d a} (h : s.Canon) : Keeps (execRbStat g d a s) :=
  .withOperands h (fun _ => .once h (.wordsAccess h (fun _ _ h1 => .advance (.putReg (.putReg h1)))))
theorem Keeps.execRbCred {g d a b} (h : s.Canon) : Keeps (execRbCred g d a b s) :=
  .withOperands h (fun _ => .once h (.wordsAccess h (fun _ _ h1 => .advance (.putReg h1))))
theorem State.Canon.readList {c : CopyCmd} {list n} (h : s.Canon) : (readList s c list n).1.Canon :=
  foldl_holds (P := fun r : CmdRun => r.s.Canon) h (fun _ h1 _ => .engineSpRace h1)
theorem State.Canon.acceptCopy {i : Iss} {ln} {c : CopyCmd} {list} (h : s.Canon) : (acceptCopy s i ln c list).Canon := by
  unfold Machine.acceptCopy
  extract_lets b r recv s1 c1
  split
  · exact .wait h
  split
  · exact .wait h
  have h1 : s1.Canon := .ite h <| .modB h fun _ hb => foldl_holds hb.setWord fun _ hb _ => hb.setCredit
  have h2 : State.Canon (match list with | some (o, n) => Machine.readList s1 c1 o n | none => (s1, c1)).1 := by
    split
    · exact h1.readList
    · exact h1
  exact .advance (.tickG (.commit (by dsimp only [State.Canon]; exact h2)))
theorem State.Canon.issueCopy {i : Iss} {ln} {c : CopyCmd} {data list invalid into} (h : s.Canon) : (issueCopy s i ln c data list invalid into).Canon
    := by
  unfold Machine.issueCopy
  dsimp only
  split
  · exact .faultAt h
  · split
    · exact .faultEng h
    · split
      · exact .faultEng h
      · exact .acceptCopy h
theorem Keeps.copyOp {g reads p} {k : Iss → Nat → State} (h : s.Canon) (h1 : ∀ x y, (k x y).Canon) : Keeps (copyOp s g reads p k) := by
  refine .withOperandsOn h (fun _ => ?_)
  split
  · exact .advance h
  · exact h1 _ _
theorem Keeps.tensorOp {g kind d a b rop mcast l sc rel acq ck p} (h : s.Canon) : Keeps (tensorOp s g kind d a b rop mcast l sc rel acq ck p) :=
  .copyOp h (fun _ _ => .issueCopy h)
theorem Keeps.execCpf {g d a b w l sc e q k p} (h : s.Canon) : Keeps (execCpf g d a b w l sc e q k p s) := .copyOp h (fun _ _ => .issueCopy h)
theorem Keeps.gatherOp {g kind d a b rop l sc rel acq ck p} (h : s.Canon) : Keeps (gatherOp s g kind d a b rop l sc rel acq ck p) :=
  .copyOp h (fun _ _ => .issueCopy h)
theorem State.Canon.reduceChunk {r : CmdRun} {p : CmdParty} {va rop bs} (h : r.s.Canon) : (reduceChunk r p va rop bs).1.s.Canon := by
  unfold Machine.reduceChunk
  split
  · exact .fail h
  · exact ite_holds (P := fun r : CmdRun × _ => r.1.s.Canon) (.fail (.l2 (.drainCmd h)))
        (.ite (.syncKill (.dropL1 (.writeMem (.engineRace (.l2 (.drainCmd h)))))) (.dropL1 (.writeMem (.engineRace (.l2 (.drainCmd h))))))
theorem State.Canon.copyChunk {c : CopyCmd} {p : CmdParty} {places} {r : CmdRun} {k : Chunk} (h : r.s.Canon) : (copyChunk c p places r k).s.Canon
    := by
  unfold Machine.copyChunk
  dsimp only
  split
  · exact ite_holds (P := fun r : CmdRun => r.s.Canon) (foldl_holds (P := fun r : CmdRun => r.s.Canon) h (fun _ h1 _ => .spWrite h1)) h
  · split
    · split
      next e => exact foldl_holds (P := fun r : CmdRun => r.s.Canon) (e ▸ State.Canon.engineRead h :) (fun _ h2 _ => .spWrite h2)
      next e => exact foldl_holds (P := fun r : CmdRun => r.s.Canon) (e ▸ State.Canon.engineRead h :) (fun _ h2 _ => .spWrite h2)
    · split
      next e => exact (e ▸ State.Canon.spRead h :)
      next e =>
        exact ite_holds (P := fun r : CmdRun => r.s.Canon) (ite_holds (P := fun r : CmdRun × _ => r.1.s.Canon)
            (.reduceChunk (e ▸ State.Canon.spRead h :)) (.engineWrite (e ▸ State.Canon.spRead h :)))
            (ite_holds (P := fun r : CmdRun × _ => r.1.s.Canon) (.reduceChunk (e ▸ State.Canon.spRead h :))
            (.engineWrite (e ▸ State.Canon.spRead h :)))
theorem State.Canon.finishCopy {r : CmdRun} {c : CopyCmd} {gi} (h : r.s.Canon) : (finishCopy r c gi).Canon := by
  unfold Machine.finishCopy
  dsimp only
  split
  · exact .ite (.arriveAt (foldl_holds (P := fun r : CmdRun => r.s.Canon) h (fun _ h1 _ => .engineSpRace h1)))
        (.ite (.foldl (.staleErrs (.modB (foldl_holds (P := fun r : CmdRun => r.s.Canon) h (fun _ h1 _ => .engineSpRace h1))
        (fun _ h1 => foldl_holds h1 (fun _ h2 _ => .ringComplete h2)))) (fun _ h1 _ => .looseRing h1))
        (.staleErrs (.modB (foldl_holds (P := fun r : CmdRun => r.s.Canon) h (fun _ h1 _ => .engineSpRace h1))
        (fun _ h1 => foldl_holds h1 (fun _ h2 _ => .ringComplete h2)))))
  · exact .ite (.ite (.orphanError (.ite (.arriveAt (foldl_holds (P := fun r : CmdRun => r.s.Canon) h (fun _ h1 _ => .engineSpRace h1)))
        (.ite (.foldl (.staleErrs (.modB (foldl_holds (P := fun r : CmdRun => r.s.Canon) h (fun _ h1 _ => .engineSpRace h1))
        (fun _ h1 => foldl_holds h1 (fun _ h2 _ => .ringComplete h2)))) (fun _ h1 _ => .looseRing h1))
        (.staleErrs (.modB (foldl_holds (P := fun r : CmdRun => r.s.Canon) h (fun _ h1 _ => .engineSpRace h1))
        (fun _ h1 => foldl_holds h1 (fun _ h2 _ => .ringComplete h2))))))) (.ite
        (.arriveAt (foldl_holds (P := fun r : CmdRun => r.s.Canon) h (fun _ h1 _ => .engineSpRace h1)))
        (.ite (.foldl (.staleErrs (.modB (foldl_holds (P := fun r : CmdRun => r.s.Canon) h (fun _ h1 _ => .engineSpRace h1))
        (fun _ h1 => foldl_holds h1 (fun _ h2 _ => .ringComplete h2)))) (fun _ h1 _ => .looseRing h1))
        (.staleErrs (.modB (foldl_holds (P := fun r : CmdRun => r.s.Canon) h (fun _ h1 _ => .engineSpRace h1))
        (fun _ h1 => foldl_holds h1 (fun _ h2 _ => .ringComplete h2))))))) (.modG
        (.ite (.arriveAt (foldl_holds (P := fun r : CmdRun => r.s.Canon) h (fun _ h1 _ => .engineSpRace h1)))
        (.ite (.foldl (.staleErrs (.modB (foldl_holds (P := fun r : CmdRun => r.s.Canon) h (fun _ h1 _ => .engineSpRace h1))
        (fun _ h1 => foldl_holds h1 (fun _ h2 _ => .ringComplete h2)))) (fun _ h1 _ => .looseRing h1))
        (.staleErrs (.modB (foldl_holds (P := fun r : CmdRun => r.s.Canon) h (fun _ h1 _ => .engineSpRace h1))
        (fun _ h1 => foldl_holds h1 (fun _ h2 _ => .ringComplete h2)))))) (fun _ h1 => h1))

/-! ### Matrix.lean -/

theorem Group.Canon.tile (h : g.Canon) (t : Nat) : (g.tile t).Canon := by
  unfold Group.tile
  cases ht : g.tiles[t]? with
  | none => exact ⟨rfl, rfl⟩
  | some x => exact h x (List.mem_of_getElem? ht)
theorem State.Canon.modTile {gi t} {f : Tile → Tile} (h : s.Canon) (h1 : ∀ u, u.Canon → (f u).Canon) : (s.modTile gi t f).Canon :=
  .modG h (fun _ h2 => modAt_holds h2 (fun _ h3 => h1 _ h3))
theorem Tile.Canon.putElem {t : Tile} {r c v} (h : t.Canon) : (t.putElem r c v).Canon := by
  dsimp only [Tile.Canon, Tile.putElem]
  exact ⟨Mem.write_wf _ _ _ h.1, h.2⟩
theorem State.Canon.faultTile {i : Iss} {detail t} (h : s.Canon) : (faultTile s i detail t).Canon := .faultAt h
theorem Keeps.withTile {g regs t shaped} {k : Tile → Res} (h : s.Canon) (h1 : ∀ x, Keeps (k x)) : Keeps (withTile s g regs t shaped k) := by
  unfold Machine.withTile
  split
  · exact .fault
  · exact .ite (.next (.faultAt h)) (.ite (.next (.faultTile h)) (.ite (.next (.faultTile h)) (h1 _)))
theorem State.Canon.tileWait {i : Iss} {t writer} {k : State} (h : s.Canon) (h1 : k.Canon) : (tileWait s i t writer k).Canon := .ite (.wait h) h1
theorem State.Canon.tileOwed {i : Iss} {t} {k : State} (h : s.Canon) (h1 : k.Canon) : (tileOwed s i t k).Canon := by
  unfold Machine.tileOwed
  split
  · exact .faultAt (.modTile h (fun _ h2 => h2))
  · exact h1
theorem State.Canon.stampMod {gi t f} (h : s.Canon) : (stampMod s gi t f).Canon := .modTile h (fun _ h1 => h1)
theorem State.Canon.stampIn {gi t} (h : s.Canon) : (stampIn s gi t).Canon := .ite (.modTile h (fun _ h1 => h1)) h
theorem State.Canon.stampOp {gi t} (h : s.Canon) : (stampOp s gi t).Canon := .stampMod h
theorem State.Canon.stampDone {gi t} (h : s.Canon) : (stampDone s gi t).Canon := .stampMod h
theorem State.Canon.stampEnd {gi t} (h : s.Canon) : (stampEnd s gi t).Canon := by
  unfold Machine.stampEnd
  dsimp only
  split
  · exact h
  · exact .ite (.modTile h (fun _ h1 => h1)) (.ite (.ringDrop (.modTile h (fun _ h1 => h1))) (.ringPut (.modTile h (fun _ h1 => h1))))
theorem Keeps.tcfg {g d reads} {k : Iss → State} (h : s.Canon) (h1 : ∀ x, (k x).Canon) : Keeps (tcfg s g d reads k) :=
  .withTile h (fun _ => .withOperands h (fun _ => .once h (.tileWait h (h1 _))))
theorem Keeps.execTshape {g d a} (h : s.Canon) : Keeps (execTshape g d a s) :=
  .tcfg h (fun _ => .ite (.faultTile h) (.advance (.modTile (.stampEnd h) (fun _ h1 => h1))))
theorem Keeps.execTzero {g d} (h : s.Canon) : Keeps (execTzero g d s) := .tcfg h (fun _ => .advance (.stampMod (.modTile h (fun _ h1 => ⟨rfl, rfl⟩))))
theorem Keeps.execTinfo {g d a} (h : s.Canon) : Keeps (execTinfo g d a s) := .withTile h (fun _ => .withOperands h (fun _ => .advance (.putPair h)))
theorem Keeps.execTfill {g d a} (h : s.Canon) : Keeps (execTfill g d a s) :=
  .tcfg h (fun _ => .advance (.modTile h (fun _ h1 => by dsimp only [Tile.Canon]; exact ⟨Mem.write_wf _ _ _ rfl, h1.2⟩)))
theorem Keeps.execTfree {g d} (h : s.Canon) : Keeps (execTfree g d s) := .tcfg h (fun _ => .advance (.modTile (.stampEnd h) (fun _ h1 => ⟨rfl, rfl⟩)))
theorem Keeps.execTmask {g d a} (h : s.Canon) : Keeps (execTmask g d a s) := .tcfg h
    (fun _ => .advance (.modTile h (fun t h1 => by dsimp only [Tile.Canon]; exact h1)))
theorem Keeps.execTmaskClr {g d} (h : s.Canon) : Keeps (execTmaskClr g d s) := .tcfg h (fun _ => .advance (.modTile h (fun _ h1 => h1)))
theorem Keeps.tileMove {g t fld b writer regs lim} {k : Iss → Tile → Nat → State} (h : s.Canon) (h1 : ∀ x y z, (k x y z).Canon) : Keeps
    (tileMove s g t fld b writer regs lim k) := by
  refine .withTile h (fun _ => .ite (.withIss h (fun _ => .faultAt h)) (.withOperands h (fun _ => .once h (.tileWait h ?_))))
  split
  · exact .ite (.faultTile h) (h1 _ _ _)
  · exact .tileOwed h (.ite (.faultTile h) (h1 _ _ _))
theorem Keeps.execTrow {g d a b} (h : s.Canon) : Keeps (execTrow g d a b s) :=
  .tileMove h (fun _ _ _ => .advance (.foldl h (fun _ h1 _ => .putReg h1)))
theorem Keeps.execTwrow {g d a b} (h : s.Canon) : Keeps (execTwrow g d a b s) := by
  refine .tileMove h (fun _ _ _ => .advance (.modTile h (fun _ h1 => ⟨foldl_holds (P := fun m => Mem.wf m = true) h1.1
      (fun _ h2 _ => foldl_holds (P := fun m => Mem.wf m = true) h2 (fun _ h3 _ => ?_)), h1.2⟩)))
  split
  · exact Mem.write_wf _ _ _ h3
  · exact h3
theorem Keeps.execTcol {g d a b} (h : s.Canon) : Keeps (execTcol g d a b s) :=
  .tileMove h (fun _ _ _ => .advance (.foldl h (fun _ h1 _ => .putReg h1)))
theorem Keeps.execTwcol {g d a b} (h : s.Canon) : Keeps (execTwcol g d a b s) :=
  .tileMove h (fun _ _ _ => .advance (.modTile h (fun _ h1 => foldl_holds h1 (fun _ h2 _ => foldl_holds h2 (fun _ h3 _ => .ite (.putElem h3) h3)))))
theorem State.Canon.faultChunk {i : Iss} {code info addr} (h : s.Canon) : (faultChunk s i code info addr).Canon := .faultAt h
theorem State.Canon.xferChecked {i : Iss} {m : MemForm} {cs} {k : State → State} (h : s.Canon) (h1 : ∀ u, u.Canon → (k u).Canon) :
    (xferChecked s i m cs k).Canon := by
  unfold Machine.xferChecked
  dsimp only
  split
  · exact .faultChunk (.raceRecord h)
  · exact .faultChunk h
  · exact h1 _ (.recordAll (.raceRecord h))
  · exact h1 _ (.recordAll h)
theorem State.Canon.apply {f : State → State} (hf : ∀ u, u.Canon → (f u).Canon) (h : s.Canon) : (f s).Canon := hf s h
theorem Keeps.tileXfer {g t} {space : Space} {store areg b addr} (h : s.Canon) : Keeps (tileXfer s g t space store areg b addr) := by
  refine .withTile h fun tl => .withOperands h fun i => .once h <| .tileWait h ?_
  refine .apply (f := if store then Machine.tileOwed s i t.toNat else id) (fun u hu => ?_) ?_
  · split
    · exact .tileOwed h hu
    · exact hu
  · refine .ite (.faultTile h) <| .ite (.faultChunk h) <| .ite (.wait h) <| .gated h fun _ h1 => .xferChecked h1 fun s2 h2 => ?_
    extract_lets s3 s4 x s5
    have h4 : s4.Canon := .ite (.drainOwn (.touch h2)) (.touch h2)
    have h5 : s5.Canon := .modG h4 fun _ hg => hg
    exact .advance (.ite (.stampMod h5) (.stampIn h5))
theorem State.Canon.moveChunk {gi} {x : Xfer} {c} (h : s.Canon) : (moveChunk s gi x c).Canon := by
  unfold Machine.moveChunk
  dsimp only
  split
  · split
    · exact .modB h (fun _ h1 => .spPut h1)
    · exact .ite (.syncKill (.dropL1 (.writeMem (.touchL2 h)))) (.dropL1 (.writeMem (.touchL2 h)))
  · refine .modTile ?_ (fun _ h1 => .ite ⟨h1.1, Mem.write_wf _ _ _ h1.2⟩ ⟨Mem.write_wf _ _ _ h1.1, h1.2⟩)
    split
    · exact h
    · exact .dropL1 (.touchL2 h)
theorem State.Canon.moveAll {gi} {x : Xfer} (h : s.Canon) : (moveAll s gi x).Canon := .foldl (.mixed h) (fun _ h1 _ => .moveChunk h1)
theorem Keeps.execTileTransferComplete {gi n} (h : s.Canon) : Keeps (execTileTransferComplete gi n s) := by
  refine .next ?_
  split
  · exact h
  · exact .modG (.stampMod (.moveAll h)) (fun _ h1 => h1)
theorem run_wf {o : MatOp} {upTo} (h : g.Canon) : (o.run g upTo).wf = true :=
  foldl_holds (P := fun m => Mem.wf m = true) (h.tile o.dt).1 (fun _ h1 _ => foldl_holds (P := fun m => Mem.wf m = true) h1
      (fun _ h2 _ => Mem.write_wf _ _ _ h2))
theorem Keeps.matOp {g d af bf int z sp size} (h : s.Canon) : Keeps (matOp s g d af bf int z sp size) := by
  unfold Machine.matOp
  split
  · exact .fault
  · dsimp only
    split
    · exact .next (.faultTile h)
    · refine .withOperands h (fun _ => .once h ?_)
      split
      · exact .wait h
      · split
        · exact .wait h
        · split
          · exact .faultTile h
          · split
            · exact .tileOwed h h
            · exact .tileOwed h h
            · exact .ite (.wait h) (.advance (.modG (.foldl h (fun _ h1 _ => .stampOp h1)) (fun _ h1 => h1)))
theorem Keeps.execMbclose {g d} (h : s.Canon) : Keeps (execMbclose g d s) :=
  .withOperands h (fun _ => .once h (.ite (.wait h) (.advance (.putReg (.modG h (fun _ h1 => h1))))))
theorem Keeps.execMbstat {g d} (h : s.Canon) : Keeps (execMbstat g d s) := .withOperands h (fun _ => .advance (.putReg h))
theorem Keeps.execMatrixOpComplete {gi} (h : s.Canon) : Keeps (execMatrixOpComplete gi s) := by
  refine .next (.ite h ?_)
  split
  · exact h
  · extract_lets g bad data named s1 s2
    have h1 : s1.Canon := .foldl h fun _ h1 _ => .stampDone h1
    have hd : data.wf = true := ite_holds (P := fun m => Mem.wf m = true) ((h.group gi).tile _).1 (run_wf (h.group gi))
    have h2 : s2.Canon := .modTile h1 fun _ ht => ⟨hd, ht.2⟩
    exact .modG h2 fun _ hg => hg

/-! ### Placement.lean -/

theorem State.Canon.setSplits {p : Plan} {cores} (h : s.Canon) : (p.setSplits s cores).Canon := h
theorem State.Canon.traceGain {gi} (h : s.Canon) : (traceGain s gi).Canon := .ite h (.packet h)
theorem State.Canon.traceStart {gi reason} (h : s.Canon) : (traceStart s gi reason).Canon := .foldl h (fun _ h1 _ => .trace h1)
theorem State.Canon.takeSlot {core slot} (h : s.Canon) : (takeSlot s core slot).1.Canon := h
theorem State.Canon.slotFor {p : Plan} {cores} (h : s.Canon) : (p.slotFor s cores).1.Canon := .chooseOf h
theorem State.Canon.withGroup (h : s.Canon) (hg : g.Canon) : State.Canon { s with groups := s.groups ++ [g] } :=
    ⟨h.mem, append_holds h.groups hg, h.blocks, h.mailbox⟩
theorem State.Canon.seat {p : Plan} (h : s.Canon) {cores} (hg : g.Canon) : (p.seat s cores g).Canon := by
  unfold Plan.seat
  exact .traceStart (.traceGain (.withGroup (.takeSlot (.slotFor h)) hg))
theorem State.Canon.placeAs {p : Plan} (h : s.Canon) {cores seats} (hb : b.Canon) {gs : List Group} (hgs : ∀ g ∈ gs, g.Canon) :
    (p.placeAs s cores seats b gs).Canon := by
  have split := h.setSplits (p := p) (cores := cores)
  refine List.foldlRecOn _ _ ⟨split.mem, split.groups, append_holds split.blocks hb, split.mailbox⟩ fun t ht e he => ?_
  exact ht.seat (hgs e.2 (List.of_mem_zip he).2)
theorem State.Canon.place {p : Plan} (h : s.Canon) {cores} (hb : b.Canon) {gs : List Group} (hgs : ∀ g ∈ gs, g.Canon) : (p.place s cores b gs).Canon
    :=
  h.placeAs hb hgs
theorem freshGroup_canon {nreg tiles f} : (freshGroup nreg tiles f).Canon := fun t ht => by
  rw [List.eq_of_mem_replicate ht]
  exact ⟨rfl, rfl⟩
theorem childGroup_canon {c : Child} : (c.group s).Canon := by
  dsimp only [Group.Canon, Child.group]
  exact freshGroup_canon
theorem State.Canon.placeChild {c core} (h : s.Canon) : (placeChild s c core).Canon :=
  .place h (b := { launch := c.launch, bid := 0xFFFFFFFF, child := true }) rfl (by simpa using childGroup_canon)
theorem State.Canon.spawnChild {c : Child} {home} (h : s.Canon) : (spawnChild s c home).1.Canon := by
  unfold Machine.spawnChild
  extract_lets p near
  split
  · dsimp only
    exact .placeChild h
  split
  · dsimp only
    exact .placeChild (.chooseOf h)
  split
  · dsimp only [State.Canon]
    exact h
  · exact h

/-! ### Search.lean -/

theorem State.Canon.strikeOne {k} (h : s.Canon) : (strikeOne s k).Canon := by
  unfold Machine.strikeOne
  extract_lets t th s1 s2 members
  have h1 : s1.Canon := .modTree h
  have h2 : s2.Canon := by dsimp only [State.Canon, s2]; exact h1
  exact .foldl h2 fun _ h3 _ => .strikeGroup (.replayLog h3)
theorem State.Canon.strikeTree {k} (h : s.Canon) : (strikeTree s k).Canon := .ite h (.foldl h (fun _ h1 _ => .strikeOne h1))
theorem State.Canon.endTree {k} (h : s.Canon) : (endTree s k).Canon :=
  .ite h ⟨(State.Canon.ite (.modTree (.modTree h)) (.modTree h)).mem, map_holds ((State.Canon.ite (.modTree (.modTree h)) (.modTree h)).groups)
      (fun _ h1 => .ite h1 h1), (State.Canon.ite (.modTree (.modTree h)) (.modTree h)).blocks,
      (State.Canon.ite (.modTree (.modTree h)) (.modTree h)).mailbox⟩
theorem State.Canon.freeTree {k} (h : s.Canon) : (freeTree s k).Canon := .ite (.modTree h) h
theorem State.Canon.spawnLane {i : Iss} {d a k l} (h : s.Canon) : (spawnLane s i d a k l).1.Canon := by
  unfold Machine.spawnLane
  extract_lets g n0 n c
  split
  · exact h
  · exact .ite (.spawnChild h) (.tickG (.spawnChild h))
theorem Keeps.execSpawn {g d a k} (h : s.Canon) : Keeps (execSpawn g d a k s) := by
  refine .withOperands h (fun _ => .once h ?_)
  split
  · exact .faultAt h
  · exact .ite (.wait h) (.advance (.putPred (.putReg (foldl_holds (P := fun r : State × _ => r.1.Canon) (.commit h) (fun _ h1 _ => .spawnLane h1)))))
theorem Keeps.execTreeOpen {g d} (h : s.Canon) : Keeps (execTreeOpen g d s) :=
  .withOperands h (fun _ => .once h (.ite (.advance (.putReg (.commit h))) (.advance
      (.putReg (.modG (.logOrder (.modTree (.chooseOf (.commit h)))) (fun _ h1 => h1))))))
theorem Keeps.treeOp {g a reads writes} {k : Iss → Word → Nat → State → State} (h : s.Canon) (h1 : ∀ x y z u, u.Canon → (k x y z u).Canon) : Keeps
    (treeOp s g a reads writes k) :=
  .withOperands h (fun _ => .once h (.ite (h1 _ _ _ _ (.logOrder (.commit h))) (.faultAt h)))
theorem Keeps.treeClose {g a free} (h : s.Canon) : Keeps (treeClose s g a free) :=
  .treeOp h (fun _ _ _ _ h1 => .advance (.ite (.modG (.modTree h1) (fun _ h2 => h2)) (.modTree h1)))
theorem Keeps.execTreeCancel {g a} (h : s.Canon) : Keeps (execTreeCancel g a s) := .treeOp h (fun _ _ _ _ h1 => .strikeTree (.advance h1))
theorem Keeps.execTreeStat {g d a} (h : s.Canon) : Keeps (execTreeStat g d a s) :=
  .withOperands h (fun _ => .once h (.advance (.putPair (.ite (.logOrder (.commit h)) (.commit h)))))
theorem Keeps.execDlSet {g a b} (h : s.Canon) : Keeps (execDlSet g a b s) :=
  .treeOp h (fun _ _ _ _ h1 => .ite (.advance h1) (.ite (.strikeTree (.advance (.modTree h1))) (.advance (.modTree h1))))
theorem Keeps.execDlGet {g d a} (h : s.Canon) : Keeps (execDlGet g d a s) := .treeOp h (fun _ _ _ _ h1 => .advance (.putPair h1))
theorem Keeps.execDlChk {g d a} (h : s.Canon) : Keeps (execDlChk g d a s) := .treeOp h (fun _ _ _ _ h1 => .advance (.putReg (.replayLog h1)))
theorem Keeps.execDeadlineExpire {n} (h : s.Canon) : Keeps (execDeadlineExpire n s) := .next (.ite (.strikeTree h) h)
theorem State.Canon.withUnit {i : Iss} {source needs} {k : State → State} (h : s.Canon) (h1 : ∀ u, u.Canon → (k u).Canon) :
    (withUnit s i source needs k).Canon := by
  unfold Machine.withUnit
  refine .ite (.faultAt (.dropFailed (.modF h))) ?_
  split
  next e => exact .wait (e ▸ State.Canon.ask h :)
  next e => exact h1 _ (e ▸ State.Canon.ask h :)
theorem State.Canon.unitWrite {core pasid va bs} (h : s.Canon) : (unitWrite s core pasid va bs).Canon := by
  unfold Machine.unitWrite
  split
  · exact .ite (.syncKill (.dropL1 (.writeMem (.touchL2 h)))) (.dropL1 (.writeMem (.touchL2 h)))
  · exact h
theorem Keeps.poolOp {g a1 reads writes dests} {k : Iss → Word → Pool → State → State} (h : s.Canon) (h1 : ∀ x y z u, u.Canon → (k x y z u).Canon)
    : Keeps (poolOp s g a1 reads writes dests k) :=
  .withOperands h (fun _ => .once h (.ite (h1 _ _ _ _ (.commit h)) (.faultAt h)))
theorem State.Canon.granted {i : Iss} {d a1} {p : Pool} {ns} (h : s.Canon) : (granted s i d a1 p ns).Canon :=
  .advance (.acquireFills (.mergeG (.owe (.logOrder (.modPool h)))))
theorem Keeps.allocOp {g d a whole} (h : s.Canon) : Keeps (allocOp s g d a whole) := by
  refine .poolOp h (fun _ _ _ _ h1 => ?_)
  dsimp only
  split
  · exact .faultAt h1
  · split
    · exact .wait h1
    · split
      · exact .ite (.faultAt h1) (.withUnit h1 (fun _ h2 => .faultAt h2))
      · exact .granted h1
theorem State.Canon.poolRelease {i : Iss} {a1} (h : s.Canon) : (poolRelease s i a1).Canon := .tickG (.logOrder (.modPool h))
theorem Keeps.execNfree {g a b} (h : s.Canon) : Keeps (execNfree g a b s) :=
  .poolOp h (fun _ _ _ _ h1 => .ite (.faultAt h1) (.ite (.wait h1) (.withUnit h1
      (fun _ h2 => .advance (.poolRelease (.modPool (foldl_holds (P := fun r : State × _ => r.1.Canon) h2 (fun _ h3 _ => .unitWrite h3))))))))
theorem Keeps.execNreset {g a} (h : s.Canon) : Keeps (execNreset g a s) :=
  .poolOp h (fun _ _ _ _ h1 => .ite (.wait h1) (.advance (.poolRelease (.modPool h1))))
theorem Keeps.execNinfo {g d a} (h : s.Canon) : Keeps (execNinfo g d a s) := .poolOp h (fun _ _ _ _ h1 => .advance (.putPair (.logOrder h1)))
theorem State.Canon.withBlocks {i : Iss} {reads writes preds} {early : Option State} {k : State} (h : s.Canon) (h1 : ∀ u, early = some u → u.Canon)
    (h2 : k.Canon) : (withBlocks s i reads writes preds early k).Canon := by
  unfold Machine.withBlocks
  refine .ite (.faultAt h) ?_
  cases early with
  | some u => exact h1 u rfl
  | none =>
    refine .ite (.wait h) (.ite (.wait h) ?_)
    split
    · exact .faultAt h
    · exact h2
theorem Keeps.cqOp {g a reads writes} {k : Iss → Word → Syzygy → State} (h : s.Canon) (h1 : ∀ x y z, (k x y z).Canon) : Keeps
    (cqOp s g a reads writes k) :=
  .withOperands h (fun _ => .once h (.ite (h1 _ _ _) (.faultEng h)))
theorem Keeps.execCqPush {g d a k} (h : s.Canon) : Keeps (execCqPush g d a k s) := by
  refine .cqOp h fun i _ _ => .withBlocks h ?_ <| .ite (.wait (.commit h)) (.ite (.wait h)
      (.advance (.tickG (.logOrder (.modG (.modSyz (.commit h)) (fun _ h1 => h1))))))
  split
  · exact none_holds
  · exact some_holds (.faultAt h)
theorem Tile.Canon.takeTile {t : Tile} {q : Syzygy} {b : Buf} (h : t.Canon) : (takeTile t q b).Canon := by
  unfold Machine.takeTile
  refine ⟨foldl_holds (P := fun m => Mem.wf m = true) (Mem.write_wf _ _ _ h.1) (fun _ h1 _ => ?_), h.2⟩
  split
  · exact Mem.write_wf _ _ _ h1
  · exact h1
theorem Keeps.execCqTake {g d a t} (h : s.Canon) : Keeps (execCqTake g d a t s) := by
  refine .withTile h (fun _ => .cqOp h (fun _ _ _ => ?_))
  split
  · exact .faultTile h
  · split
    · exact .faultTile h
    · refine .tileWait h ?_
      split
      · exact .wait (.stampIn (.commit h))
      · exact .advance (.putPair (.acquireFills (.foldl (.logOrder (.modSyz (.stampMod
            (.modTile (.stampIn (.commit h)) (fun _ h1 => .takeTile h1))))) (fun _ h1 _ => .ite (.mergeG h1) h1))))
theorem State.Canon.putRow {qi k r ws} {vec : KVec} (h : s.Canon) : (putRow s qi k r ws vec).Canon :=
  .ite (.modSyz h) (.modG (.modG (.modSyz h) (fun _ h1 => .roused (foldl_holds h1 (fun _ h2 _ => .setReg h2)) h1)) (fun _ h1 => h1))
theorem Keeps.execCqPut {g a b} (h : s.Canon) : Keeps (execCqPut g a b s) := by
  refine .withOperands h fun _ => .once h <| .ite (.faultEng h) <| .withBlocks h ?_
      (.ite (.wait h) (.advance (.tickG (.logOrder (.modSyz (.foldl (.commit h) (fun _ h1 _ => .putRow h1)))))))
  split
  · exact some_holds (.faultEng h)
  · exact none_holds
theorem Keeps.execCqFlush {g a} (h : s.Canon) : Keeps (execCqFlush g a s) := by
  refine .cqOp h (fun _ _ _ => .advance (.logOrder (.commit ?_)))
  split
  · exact .ite (.modSyz h) h
  · exact h
theorem Keeps.execCqCfg {g a b} (h : s.Canon) : Keeps (execCqCfg g a b s) :=
  .cqOp h (fun _ _ _ => .ite (.faultEng h) (.advance (.logOrder (.modSyz (.commit h)))))
theorem Keeps.execCqStat {g d a} (h : s.Canon) : Keeps (execCqStat g d a s) := .cqOp h (fun _ _ _ => .advance (.putPair (.logOrder (.commit h))))
theorem Keeps.execSyzygyTimeout {qi} (h : s.Canon) : Keeps (execSyzygyTimeout qi s) := by
  unfold Machine.execSyzygyTimeout
  refine .next ?_
  split
  · exact .ite (.modSyz h) h
  · exact h
theorem Keeps.feedOp {g a writes dests block} {k : Iss → Word → Feed → State} (h : s.Canon) (h1 : ∀ x y z, (k x y z).Canon) : Keeps
    (feedOp s g a writes dests block k) := by
  refine .withOperands h fun _ => .once h <| .ite (.faultEng h) ?_
  split
  · exact h1 _ _ _
  · exact .withBlocks h none_holds (h1 _ _ _)
theorem State.Canon.popRecords {i : Iss} {d a1} {f : Feed} (h : s.Canon) : (popRecords s i d a1 f).Canon := by
  refine .withUnit h fun s1 h1 => ?_
  extract_lets recs s2 s3 s4 s5
  have h2 : s2.Canon := .foldl h1 fun _ h2 _ => .foldl h2 fun _ h3 _ => .modG h3 fun _ h4 => .setReg h4
  have h4 : s4.Canon := .foldl (.putPred h2) fun _ h3 v => by
    cases v with
    | some v => exact .mergeG h3
    | none => exact h3
  exact .advance (.logOrder (.commit (.modFeed (.ite h4 (.acquireFills h4)))))
theorem Keeps.execFdPop {g d a} (h : s.Canon) : Keeps (execFdPop g d a s) := .feedOp h (fun _ _ _ => .ite (.wait (.commit h)) (.popRecords h))
theorem Keeps.execFdTry {g d a} (h : s.Canon) : Keeps (execFdTry g d a s) := .feedOp h (fun _ _ _ => .popRecords h)
theorem Keeps.execFdPush {g a b} (h : s.Canon) : Keeps (execFdPush g a b s) :=
  .feedOp h (fun _ _ _ => .ite (.wait h) (.withUnit h (fun _ h1 => .advance (.tickG
      (.logOrder (.commit (.putPred (.modFeed (.foldl h1 (fun _ h2 _ => .unitWrite h2))))))))))
theorem Keeps.execFdStat {g d a} (h : s.Canon) : Keeps (execFdStat g d a s) := .feedOp h (fun _ _ _ => .advance (.putPair (.logOrder (.commit h))))

/-! ### LaneEngine.lean -/

theorem Keeps.laneCmdOp {g dyn op d a b sc rel k body} (h : s.Canon) : Keeps (laneCmdOp s g dyn op d a b sc rel k body) := by
  refine .withOperands h (fun _ => .once h ?_)
  dsimp only
  split
  · exact .faultAt h
  · split
    · exact .faultAt h
    · exact .ite (.wait h) (.advance (.tickG (.modG (.ite (.commit h) (.commit h)) (fun _ h1 => h1))))
theorem State.Canon.laneGet1 {x : LaneRun} {p : CmdParty} {va len cls k} (h : x.r.s.Canon) : (laneGet1 x p va len cls k).1.r.s.Canon := by
  unfold Machine.laneGet1
  split
  · exact h
  · dsimp only
    split <;> exact .engineRead h
theorem State.Canon.laneGet {x : LaneRun} (h : x.r.s.Canon) {p cls n va len} : (laneGet x p cls n va len).1.r.s.Canon := by
  induction n generalizing x va len with
  | zero => exact h
  | succ n ih =>
    unfold Machine.laneGet
    split
    · exact h
    · have piece : (Machine.laneGet1 x p va (if len < 16 then len else 16) cls).1.r.s.Canon := .laneGet1 h
      split
      next e => exact (e ▸ piece :)
      next e =>
        have rest := ih (e ▸ piece :) (va := (va + 16) % 2 ^ 64) (len := len - 16)
        split
        next e => exact (e ▸ rest :)
        next e => exact (e ▸ rest :)
theorem State.Canon.lanePut {x : LaneRun} {p : CmdParty} {va bs} (h : x.r.s.Canon) : (lanePut x p va bs).r.s.Canon := by
  unfold Machine.lanePut
  dsimp only
  split
  · exact h
  · exact foldl_holds (P := fun r : CmdRun => r.s.Canon) h (fun _ h1 _ => .engineWrite h1)
theorem State.Canon.finishLane {x : LaneRun} {c : LaneCmd} (h : x.r.s.Canon) : (finishLane x c).Canon := by
  unfold Machine.finishLane
  dsimp only
  split
  · split
    · exact .ite (.orphanError h) h
    · exact h
  · exact .modG h (fun _ h1 => h1)
theorem State.Canon.runLaneCmd {c : LaneCmd} {source} {run : State → LaneCmd → LaneRun} (h : s.Canon) (h1 : ∀ u, u.Canon → ∀ x, (run u x).r.s.Canon)
    : (runLaneCmd s c source run).1.Canon := by
  unfold Machine.runLaneCmd
  dsimp only
  split
  next e => exact (e ▸ State.Canon.ask h :)
  next e => exact .finishLane (h1 _ (e ▸ State.Canon.ask h :) _)

/-! ### Dynamics.lean -/

theorem State.Canon.dynLane {c : LaneCmd} {a1 js} {x : LaneRun} {p : CmdParty} {b} (h : x.r.s.Canon) : (dynLane c a1 js x p b).1.r.s.Canon := by
  unfold Machine.dynLane
  dsimp only
  split
  · exact h
  · split
    next e => exact (e ▸ State.Canon.laneGet h :)
    next e => exact ite_holds (P := fun r : LaneRun × _ => r.1.r.s.Canon) (e ▸ State.Canon.laneGet h :) (e ▸ State.Canon.laneGet h :)
theorem State.Canon.runDynamics {c : LaneCmd} (h : s.Canon) : (runDynamics s c).r.s.Canon := by
  unfold Machine.runDynamics
  extract_lets p0
  split
  next s1 recs e1 =>
  have h1 : s1.Canon := (e1 ▸ State.Canon.mixed h :)
  have header : (Machine.laneGet { r := { s := s1 } } p0 2 4 c.head 64).1.r.s.Canon := .laneGet (x := { r := { s := s1 } }) h1
  extract_lets all
  have keep {x rec_} (hx : LaneRun.r x |>.s.Canon) : (all x rec_).r.s.Canon := foldl_holds (P := fun r : LaneRun => r.r.s.Canon) hx fun _ hx _ =>
      .lanePut hx
  split
  next e => exact keep (e ▸ header :)
  next x hd e =>
    have hx : x.r.s.Canon := (e ▸ header :)
    extract_lets n
    refine ite_holds (P := fun r : LaneRun => r.r.s.Canon) (keep hx) ?_
    have joints : (Machine.laneGet x p0 2 512 ((c.head + 64) % 2 ^ 64) (128 * modelNj hd)).1.r.s.Canon := .laneGet hx
    split
    next e => exact keep (e ▸ joints :)
    next y _ e =>
      have hy : y.r.s.Canon := (e ▸ joints :)
      exact ite_holds (P := fun r : LaneRun => r.r.s.Canon) (keep hy) (foldl_holds (P := fun r : LaneRun => r.r.s.Canon) hy fun _ h2 _ => .lanePut
          (.dynLane h2))
theorem Keeps.execDynamicsCommandComplete {n} (h : s.Canon) : Keeps (execDynamicsCommandComplete n s) := by
  refine .next ?_
  split
  · exact h
  · split
    next e => exact (e ▸ State.Canon.runLaneCmd h (fun _ h1 _ => .runDynamics h1) :)
    next e => exact .dropFailed (e ▸ State.Canon.runLaneCmd h (fun _ h1 _ => .runDynamics h1) :)

/-! ### Geometry.lean -/

theorem State.Canon.readNode {x : LaneRun} {p : CmdParty} {m : Map} {ix level} (h : x.r.s.Canon) : (readNode x p m ix level).1.r.s.Canon := by
  unfold Machine.readNode
  split
  · exact h
  · split
    next e => exact (e ▸ State.Canon.laneGet1 h :)
    next e => exact ite_holds (P := fun r : LaneRun × _ => r.1.r.s.Canon) (e ▸ State.Canon.laneGet1 h :) (e ▸ State.Canon.laneGet1 h :)
theorem State.Canon.walkNode {w : Walk} (h : w.x.r.s.Canon) {p m q n ix level key} : (walkNode p m q n ix level key w).x.r.s.Canon := by
  induction n generalizing w ix level key with
  | zero => exact h
  | succ n ih =>
    unfold Machine.walkNode
    have node := h.readNode (x := w.x) (p := p) (m := m) (ix := ix) (level := level)
    split
    next e => exact (e ▸ node :)
    next e =>
      refine foldl_holds (P := fun w : Walk => w.x.r.s.Canon) (e ▸ node :) fun w hw _ => ?_
      dsimp only
      split
      · exact hw
      · split
        · split
          · exact hw
          · exact ih hw
        · split <;> exact hw
theorem State.Canon.queryLane {c : LaneCmd} {m : Map} {head} {x : LaneRun} {p : CmdParty} {b} (h : x.r.s.Canon) :
    (queryLane c m head x p b).1.r.s.Canon := by
  unfold Machine.queryLane
  split
  next e => exact (e ▸ State.Canon.laneGet h :)
  next e =>
    split
    · exact (e ▸ State.Canon.laneGet h :)
    · dsimp only
      split
      · exact .walkNode (e ▸ State.Canon.laneGet h :)
      · split <;> exact .walkNode (e ▸ State.Canon.laneGet h :)
theorem State.Canon.walkUpd {x : LaneRun} (h : x.r.s.Canon) {p m key n ix level} : (walkUpd p m key n ix level x).1.r.s.Canon := by
  induction n generalizing x ix level with
  | zero => exact h
  | succ n ih =>
    unfold Machine.walkUpd
    have node := h.readNode (x := x) (p := p) (m := m) (ix := ix) (level := level)
    split
    next e => exact (e ▸ node :)
    next y w e =>
      have hy : y.r.s.Canon := (e ▸ node :)
      dsimp only
      split
      · exact hy
      · split
        · exact hy
        · exact ih hy
theorem State.Canon.setChild {x : LaneRun} {p : CmdParty} {m : Map} {ix w c st} (h : x.r.s.Canon) : (setChild x p m ix w c st).1.r.s.Canon := by
  unfold Machine.setChild
  dsimp only
  split
  · exact h
  · exact .replayLog (.dropL1 (.writeMem (.l2 (.engineRace h))))
theorem State.Canon.updLane {m : Map} {x : LaneRun} {p : CmdParty} {b} (h : x.r.s.Canon) : (updLane m x p b).1.r.s.Canon := by
  unfold Machine.updLane
  have got : (Machine.laneGet1 x p b 8 2).1.r.s.Canon := .laneGet1 h
  split
  next e => exact (e ▸ got :)
  next y _ e =>
    have hy : y.r.s.Canon := (e ▸ got :)
    extract_lets key st
    split
    · exact hy
    have walked : (Machine.walkUpd p m key m.depth 0 0 y).1.r.s.Canon := .walkUpd hy
    split
    next e => exact (e ▸ walked :)
    next e => exact .setChild (e ▸ walked :)
theorem State.Canon.runCollision {c : LaneCmd} (h : s.Canon) : (runCollision s c).r.s.Canon := by
  unfold Machine.runCollision
  dsimp only
  split
  next e =>
    exact foldl_holds (P := fun r : LaneRun => r.r.s.Canon) (e ▸ State.Canon.laneGet (ite_holds (P := fun r : State × _ => r.1.Canon) h (.mixed h))
        :) (fun _ h2 _ => .lanePut h2)
  next e =>
    split
    · exact foldl_holds (P := fun r : LaneRun => r.r.s.Canon) (e ▸ State.Canon.laneGet (ite_holds (P := fun r : State × _ => r.1.Canon) h (.mixed h))
          :) (fun _ h2 _ => .lanePut h2)
    · exact foldl_holds (P := fun r : LaneRun => r.r.s.Canon) (e ▸ State.Canon.laneGet (ite_holds (P := fun r : State × _ => r.1.Canon) h (.mixed h))
          :) (fun _ h2 _ => .lanePut (ite_holds (P := fun r : LaneRun × _ => r.1.r.s.Canon) (.updLane h2) (.queryLane h2)))
theorem Keeps.execCollisionCommandComplete {n} (h : s.Canon) : Keeps (execCollisionCommandComplete n s) := by
  refine .next ?_
  split
  · exact h
  · split
    next e => exact (e ▸ State.Canon.runLaneCmd h (fun _ h1 _ => .runCollision h1) :)
    next e => exact .dropFailed (e ▸ State.Canon.runLaneCmd h (fun _ h1 _ => .runCollision h1) :)

/-! ### Fetch.lean -/

theorem State.Canon.fetchFill {core pasid va} (h : s.Canon) : (fetchFill s core pasid va).Canon := by
  unfold Machine.fetchFill
  dsimp only
  split <;> exact .fillTlb h
theorem Keeps.execIllegalInstruction {w0 w1 detail} (h : s.Canon) : Keeps (execIllegalInstruction w0 w1 detail s) := .withIss h (fun _ => .faultAt h)
theorem Keeps.execInstructionFetchFault {code addr} (h : s.Canon) : Keeps (execInstructionFetchFault code addr s) := .withIss h (fun _ => .faultAt h)

/-! ### Trap.lean -/

theorem Keeps.execTrap {g n} (h : s.Canon) : Keeps (execTrap g n s) := .withOperands h (fun _ => .once h (.takeStop h))
theorem Keeps.execBrk {g n} (h : s.Canon) : Keeps (execBrk g n s) := .withOperands h (fun _ => .once h (.faultAt h))
theorem State.Canon.chovisPut {base n e bs} (h : s.Canon) : (chovisPut s base n e bs).Canon := .outsideWrite (.outsideWrite h)
theorem State.Canon.putRecord {n} (h : s.Canon) : (putRecord s n).Canon := by
  unfold Machine.putRecord
  split
  · exact h
  · exact .ite h (.ite (.interrupt h) (.ite h (.interrupt (.chovisPut h))))
theorem Keeps.execChovisFaultRecord {n} (h : s.Canon) : Keeps (execChovisFaultRecord n s) := .next (.putRecord h)
theorem State.Canon.postSys {n} (h : s.Canon) : (postSys s n).Canon := by
  unfold Machine.postSys
  split
  · exact h
  · exact .ite h (.interrupt (.chovisPut h))
theorem Keeps.execSys {g d a sv c} (h : s.Canon) : Keeps (execSys g d a sv c s) :=
  .withOperands h (fun _ => .once h (.ite (.wait (.commit h)) (.ite (.advance (.putReg (.commit h)))
      (.ite (.wait (.postSys (.commit h))) (.takeStop (.commit h))))))
theorem State.Canon.resumeChovis {gi pc replay} (h : s.Canon) : (resumeChovis s gi pc replay).Canon := by
  unfold Machine.resumeChovis
  dsimp only
  split
  · refine .modG ?_ (fun _ h1 => h1)
    split
    · exact .traceReturn (.modF h)
    · exact h
  · refine .releaseOrReplay ?_
    split
    · exact .traceReturn (.modF h)
    · exact h
theorem State.Canon.finishSys {n reply} (h : s.Canon) : (finishSys s n reply).Canon := by
  unfold Machine.finishSys
  split
  · exact h
  · dsimp only
    split
    · exact .modG h (fun _ h1 => .setReg h1)
    · exact .ite (.modF (.modG (.acquireFills (.modF (.modG h (fun _ h1 => .setReg h1)))) (fun _ h1 => h1)))
          (.stepCheck (.resumeChovis (.modG (.acquireFills (.modF (.modG h (fun _ h1 => .setReg h1)))) (fun _ h1 => h1))))
theorem Keeps.execSysReply {n} (h : s.Canon) : Keeps (execSysReply n s) := by
  refine .next ?_
  split
  · split
    · exact h
    · split
      · exact .finishSys h
      · exact h
  · exact h
theorem Keeps.execEventRingRoom {n} (h : s.Canon) : Keeps (execEventRingRoom n s) := .next (.ite h (.ite (.putRecord h) (.postSys h)))
theorem Keeps.execSiblingStop {gi} (h : s.Canon) : Keeps (execSiblingStop gi s) := by
  unfold Machine.execSiblingStop
  refine .next ?_
  split
  · exact .ite (.modG (.dropWoas (.flushGroup h)) (fun _ h1 => h1)) h
  · exact h
theorem State.Canon.startHandler {gi} {kind : HKind} {entry} (h : s.Canon) : (startHandler s gi kind entry).Canon := by
  refine .modG h (fun _ h1 => ?_)
  split <;> exact h1
theorem Keeps.execHandlerEntry {bi} (h : s.Canon) : Keeps (execHandlerEntry bi s) := by
  refine .next ?_
  split
  · exact h
  · split
    · exact h
    · dsimp only
      split
      · exact .modB (.startHandler h) (fun _ h1 => h1)
      · exact .modB (.startHandler h) (fun _ h1 => h1)
      · split
        · split
          · exact .ite (.postSys (.modB h (fun _ h1 => h1))) (.finishSys (.modB h (fun _ h1 => h1)))
          · exact .modB h (fun _ h1 => h1)
        · exact .ite (.oweRecord (.modB h (fun _ h1 => h1))) (.oweRecord (.modB h (fun _ h1 => h1)))
theorem State.Canon.returnOp {i : Iss} {kind : HKind} {g fn replay} (h : s.Canon) : (returnOp s i kind g fn replay).Canon :=
  .ite (.faultAt h) (.ite (.faultIll h) (.ite (.returnFromStop (.flushCond (.advanceTo h))) (.returnFromStop (.flushCond (.advanceTo h)))))
theorem Keeps.execEret {g} (h : s.Canon) : Keeps (execEret g s) := .withRight h (.withOperands h (fun _ => .once h (.returnOp h)))
theorem Keeps.execEretR {g} (h : s.Canon) : Keeps (execEretR g s) := .withRight h (.withOperands h (fun _ => .once h (.returnOp h)))
theorem Keeps.execTret {g} (h : s.Canon) : Keeps (execTret g s) := .withOperands h (fun _ => .once h (.returnOp h))
theorem Keeps.execPhint {g mh mm ml t r mt} (h : s.Canon) : Keeps (execPhint g mh mm ml t r mt s) :=
  .withOperands h (fun _ => .once h (.modF (.advance h)))
theorem Keeps.execPpoint {g mh mm ml t r mt} (h : s.Canon) : Keeps (execPpoint g mh mm ml t r mt s) :=
  .withOperands h (fun _ => .once h (.ite (.standStill (.modF (.advance h))) (.modF (.advance h))))

/-! ### Trace.lean -/

theorem Keeps.execTmark {g a} (h : s.Canon) : Keeps (execTmark g a s) := .withOperands h (fun _ => .once h (.advance (.traceFrag h)))
theorem Keeps.execTstamp {g d} (h : s.Canon) : Keeps (execTstamp g d s) :=
  .withOperands h (fun _ => .once h (.advance (.putPair (.traceFrag (.replayLog h)))))
theorem Keeps.execPctr {g d a} (h : s.Canon) : Keeps (execPctr g d a s) := .withOperands h (fun _ => .once h (.advance (.putPair (.replayLog h))))
theorem Keeps.execTctlOff {g} (h : s.Canon) : Keeps (execTctlOff g s) := .withOperands h (fun _ => .once h (.advance (.modG h (fun _ h1 => h1))))
theorem Keeps.execTctlOn {g o} (h : s.Canon) : Keeps (execTctlOn g o s) :=
  .withRight h (.withOperands h (fun _ => .once h (.foldl (.ite (.modG (.advance h) (fun _ h1 => h1))
      (.traceGain (.modG (.advance h) (fun _ h1 => h1)))) (fun _ h1 _ => .traceFrag h1))))
theorem Keeps.execTctlFlush {g} (h : s.Canon) : Keeps (execTctlFlush g s) :=
  .withRight h (.withOperands h (fun _ => .once h (.ite (.advance h) (.wait h))))
theorem State.Canon.unitPacket {cl pasid ty payload dt0} (h : s.Canon) : (unitPacket s cl pasid ty payload dt0).Canon := .packet h
theorem Keeps.execSync {cl} (h : s.Canon) : Keeps (execSync cl s) := .next (.ite h (.foldl h (fun _ h1 _ => .unitPacket h1)))
theorem Keeps.execStall {gi} (h : s.Canon) : Keeps (execStall gi s) := .next (.ite h (.modG (.packet h) (fun _ h1 => h1)))
theorem State.Canon.ringBytes {base size off bs} (h : s.Canon) : (ringBytes s base size off bs).Canon := .writeMem (.writeMem h)
theorem Keeps.execTraceDrain {cl} (h : s.Canon) : Keeps (execTraceDrain cl s) := by
  refine .next ?_
  split
  · exact h
  · exact .ite h (.ite h (.writeLe (.ite (.writeLe (.ringBytes h)) (.ringBytes h))))
theorem Keeps.execTraceLossResync {cl} (h : s.Canon) : Keeps (execTraceLossResync cl s) := by
  refine .next ?_
  split
  · exact h
  · dsimp only
    split
    · exact .foldl h (fun _ h1 _ => .unitPacket h1)
    · exact .foldl h (fun _ h1 _ => .unitPacket h1)
    · exact .foldl h (fun _ h1 _ => .ite (.traceStart (.modG h1 (fun _ h2 => h2))) h1)
theorem State.Canon.takeSample {core part pasid} (h : s.Canon) : (takeSample core part s pasid).Canon := by
  unfold Machine.takeSample
  split
  · exact h
  · exact .ite (.modC h) h
theorem Keeps.execProfileSample {core part} (h : s.Canon) : Keeps (execProfileSample core part s) :=
  .next (.ite h (.foldl h (fun _ h1 _ => .takeSample h1)))

/-! ### Events.lean -/

theorem Keeps.execFragmentArrive {gi fi} (h : s.Canon) : Keeps (execFragmentArrive gi fi s) := .next (.ite (.arrive h) h)
theorem Keeps.execFragmentAged {gi fi} (h : s.Canon) : Keeps (execFragmentAged gi fi s) := .next (.ite (.modF h) h)
theorem Group.Canon.deliverOut {o : Outst} (h : g.Canon) : (deliverOut g o).Canon :=
  .ite h (foldl_holds (foldl_holds (foldl_holds h (fun _ h1 _ => .setReg h1)) (fun _ h1 _ => .setPred h1)) (fun _ h1 _ => h1))
theorem State.Canon.returnOut {gi n ok} (h : s.Canon) : (returnOut s gi n ok).Canon := by
  unfold Machine.returnOut
  split
  · exact h
  · extract_lets g g'
    have hg : g.Canon := State.Canon.group h _
    have hg' : g'.Canon := .roused (.deliverOut hg) hg
    exact .modG h fun _ _ => hg'
theorem Keeps.execLoadReturn {gi n} (h : s.Canon) : Keeps (execLoadReturn gi n s) := .next (.returnOut h)
theorem Keeps.execAtomicReturn {gi n} (h : s.Canon) : Keeps (execAtomicReturn gi n s) := .next (.returnOut h)
theorem State.Canon.dropCode {pasid cores lines} (h : s.Canon) : (dropCode s pasid cores lines).Canon := h
theorem State.Canon.clearRange {core pasid va n} (h : s.Canon) : (clearRange s core pasid va n).Canon := by
  unfold Machine.clearRange
  split
  · exact h
  · refine .foldl h (fun _ h1 _ => ?_)
    dsimp only
    split
    · exact h1
    · split
      · exact .ite (.resetLine h1) h1
      · exact h1
theorem State.Canon.takeRace {pasid} (h : s.Canon) : (takeRace s pasid).1.Canon := ite_holds (P := fun r : State × _ => r.1.Canon) h (.writeLe h)
theorem State.Canon.completeAct {gi} {a : OutAct} (h : s.Canon) : (completeAct s gi a).Canon := by
  unfold Machine.completeAct
  dsimp only
  split
  · exact h
  · exact .dropCode h
  · exact .foldl h (fun _ h1 _ => .clearRange h1)
  · exact .modG (.takeRace h) (fun _ h1 => .ite h1 (.roused (.setReg h1) h1))
theorem Keeps.execCompletionPathReturn {gi n} (h : s.Canon) : Keeps (execCompletionPathReturn gi n s) := by
  refine .next ?_
  split
  · exact h
  · exact .returnOut (.completeAct h)
theorem Keeps.execAccessCheckReturn {gi} (h : s.Canon) : Keeps (execAccessCheckReturn gi s) := by
  refine .next ?_
  split
  · exact .ite h (.modG h (fun _ h1 => h1))
  · exact h
theorem State.Canon.performOne {n} {e : Store} (h : s.Canon) : (performOne s n e).Canon := by
  unfold Machine.performOne
  split
  · exact h
  · exact .performLane h
theorem Keeps.execAccessPerformed {n} (h : s.Canon) : Keeps (execAccessPerformed n s) := by
  refine .next ?_
  split
  · exact h
  · split
    · exact h
    · split
      · exact .ite (.performOne h) h
      · exact h
theorem Keeps.execReplayableFaultRecord {n} (h : s.Canon) : Keeps (execReplayableFaultRecord n s) := by
  refine .next ?_
  split
  · exact h
  · split
    · exact h
    · exact .interrupt (.ite h (.chovisPut h))
theorem Keeps.execFaultResponseTimeout {n} (h : s.Canon) : Keeps (execFaultResponseTimeout n s) := .next (.ite (.dropFailed h) h)

/-! ### Launch.lean -/

theorem State.Canon.chovisWrite {pasid va bs} (h : s.Canon) : ∀ u, chovisWrite s pasid va bs = some u → u.Canon :=
  optionMap_holds (fun _ => .outsideWrite h)
theorem State.Canon.putDesc {q off n v} (h : s.Canon) : (putDesc s q off n v).Canon := .getD h (.chovisWrite h)
theorem State.Canon.showState {q err st} (h : s.Canon) : (showState s q err st).Canon := .modQ (.putDesc h)
theorem State.Canon.advanceDone (h : s.Canon) {q n} : (advanceDone q n s).Canon := by
  induction n generalizing s with
  | zero => exact h
  | succ n ih =>
    unfold Machine.advanceDone
    split
    · exact h
    · split
      · exact h
      · exact ih (h.modQ.putDesc.interrupt.ite h.modQ.putDesc)
theorem State.Canon.partDone {q index} (h : s.Canon) : (partDone s q index).Canon := .advanceDone (.modQ h)
theorem State.Canon.stopQueue {q err} (h : s.Canon) : (stopQueue s q err).Canon := by
  unfold Machine.stopQueue
  extract_lets s1 s2 s3 s4
  have h1 : s1.Canon := by dsimp only [State.Canon, s1]; exact h
  have h3 : s3.Canon := .showState (.modQ h1)
  exact .advanceDone (.interrupt h3)
theorem State.Canon.withDesc {q} {k : State → State} (h : s.Canon) (h1 : ∀ u, u.Canon → (k u).Canon) : (withDesc s q k).Canon := by
  unfold Machine.withDesc
  extract_lets x
  refine .ite (h1 _ (.modQ h)) ?_
  split
  next e => exact .modQ (e ▸ State.Canon.ask h :)
  next e => exact .ite (.stopQueue (e ▸ State.Canon.ask h :)) (e ▸ State.Canon.ask h :)
theorem launchGroup_canon {li gid} : (launchGroup s li gid).Canon := by
  dsimp only [Group.Canon, launchGroup]
  exact freshGroup_canon
theorem State.Canon.placeNext {li cores seats} (h : s.Canon) : (placeNext s li cores seats).Canon := by
  unfold Machine.placeNext
  split
  · exact h
  · refine .placeAs (.modL h) ?_ (by simp [launchGroup_canon])
    rfl
theorem State.Canon.tryPlace {li draw} (h : s.Canon) : ∀ u, tryPlace s li draw = some u → u.Canon := by
  unfold Machine.tryPlace
  split
  · exact none_holds
  · exact some_holds (.placeNext (ite_holds (P := fun r : State × _ => r.1.Canon) (.chooseOf h) h))
theorem State.Canon.placeAll (h : s.Canon) {li draw n} : ∀ u, placeAll li draw n s = some u → u.Canon := by
  induction n generalizing s with
  | zero =>
    unfold Machine.placeAll
    split
    · exact some_holds h
    · exact none_holds
  | succ n ih =>
    unfold Machine.placeAll
    split
    · exact some_holds h
    · intro u e
      obtain ⟨t, placed, rest⟩ := Option.bind_eq_some_iff.mp e
      exact ih (.tryPlace h t placed) u rest
theorem State.Canon.placeSome (h : s.Canon) {li n} : ∀ u, placeSome li n s = some u → u.Canon := by
  induction n generalizing s with
  | zero =>
    unfold Machine.placeSome
    split
    · exact some_holds h
    · exact none_holds
  | succ n ih =>
    unfold Machine.placeSome
    split
    · exact some_holds h
    · exact findSome_holds fun _ => findSome_holds fun _ => ih (.placeNext h)
theorem State.Canon.placeWhole {li} (h : s.Canon) : ∀ u, placeWhole s li = some u → u.Canon := by
  unfold Machine.placeWhole
  extract_lets n p
  split
  · exact none_holds
  · exact orElse_holds (.placeAll h) (orElse_holds (.placeAll h) (.placeSome h))
theorem State.Canon.placeMore {li} (h : s.Canon) : ∀ u, placeMore s li = some u → u.Canon := by
  unfold Machine.placeMore
  extract_lets l
  split
  · exact none_holds
  · split
    · exact .placeWhole h
    · exact .tryPlace h
theorem State.Canon.finishLaunch {q index pasid stat evt eval fblk status lid} (h : s.Canon) :
    (finishLaunch s q index pasid stat evt eval fblk status lid).Canon :=
  .partDone (.ite (.ite h (.getD h (.chovisWrite h))) (.getD (.ite h (.getD h (.chovisWrite h))) (.chovisWrite (.ite h (.getD h (.chovisWrite h))))))
theorem State.Canon.completeLaunch {li} (h : s.Canon) : (completeLaunch s li).Canon := by
  unfold Machine.completeLaunch
  dsimp only
  split
  · exact .finishLaunch (.modL h)
  · split
    next e => exact .modL (e ▸ State.Canon.ask h :)
    next e => exact .dropFailed (.modQ (.modL (e ▸ State.Canon.ask h :)))

/-! ### Preempt.lean -/

theorem State.Canon.quiesceGroup {gi} (h : s.Canon) : (quiesceGroup s gi).Canon := .modG (.standStill h) (fun _ h1 => h1)
theorem Keeps.execBlockPark {bi} (h : s.Canon) : Keeps (execBlockPark bi s) :=
  .next (.ite h (.foldl (.modB h (fun _ h1 => h1)) (fun _ h1 _ => .standStill h1)))
theorem State.Canon.discardBlock {bi} (h : s.Canon) : (discardBlock s bi).Canon :=
  .modL (.modB (.foldl h (fun _ h1 _ => .modG (.modC (.foldl h1 (fun _ h2 _ => .stampEnd h2))) (fun _ h2 => nofun))) (fun _ h1 => h1))
theorem State.Canon.requestBlock {reason bi} (h : s.Canon) : (requestBlock reason s bi).Canon :=
  .ite (.foldl (.modB h (fun _ h1 => h1)) (fun _ h1 _ => .quiesceGroup (.dropWoas h1)))
      (.foldl (.modB h (fun _ h1 => h1)) (fun _ h1 _ => .modG h1 (fun _ h2 => h2)))
theorem Keeps.execPreemptionRequest {li} (h : s.Canon) : Keeps (execPreemptionRequest li s) := by
  refine .next ?_
  split
  · exact h
  · split
    · exact h
    · exact .foldl (.modL h) (fun _ h1 _ => .requestBlock h1)
theorem Keeps.execPreemptForcedStop {gi} (h : s.Canon) : Keeps (execPreemptForcedStop gi s) := .next (.ite (.quiesceGroup h) h)
theorem State.Canon.writeRecords {gi} (h : s.Canon) : (writeRecords s gi).Canon := by
  unfold Machine.writeRecords
  exact .foldl h fun _ h1 _ => .modTile h1 fun _ h2 => ⟨h2.1, h2.2⟩
theorem Keeps.execMatrixQuiescence {gi} (h : s.Canon) : Keeps (execMatrixQuiescence gi s) := by
  unfold Machine.execMatrixQuiescence
  refine .next (.ite h ?_)
  split
  · exact h
  split
  next s1 r e =>
    have h1 : s1.Canon := (e ▸ State.Canon.draw h :)
    exact .writeRecords (.modG (.ite h1 (.modTile h1 fun _ ht => ⟨run_wf (State.Canon.group h1 _), ht.2⟩)) fun _ hg => hg)
theorem State.Canon.trimBlock {bi} (h : s.Canon) : (trimBlock s bi).Canon :=
  .modB (.foldl h (fun _ h1 _ => .modG h1 (fun _ h2 => h2))) (fun _ h1 => Mem.filter_wf h1)
theorem State.Canon.savedState {bi} (h : s.Canon) : ∀ u, savedState s bi = some u → u.Canon := by
  unfold Machine.savedState
  extract_lets b' gs s1 img pasid s2 s3
  have h1 : s1.Canon := .foldl (.trimBlock h) fun _ h1 _ => .writeRecords h1
  split
  · exact none_holds
  · refine optionMap_holds fun a => ?_
    have h2 : s2.Canon := .foldl h1 fun _ h1 _ => .dropWoas h1
    have h3 : s3.Canon := .foldl h2 fun _ h2 _ => .modG h2 fun _ hg => hg
    exact .modB (.writeMem h3) fun _ hb => hb
theorem Keeps.execSaveComplete {bi} (h : s.Canon) : Keeps (execSaveComplete bi s) := .next (.getD h (.savedState h))
theorem State.Canon.syncImage {bi} (h : s.Canon) : (syncImage s bi).Canon :=
  .ite h (.ite h (.modB (.foldl h (fun _ h1 _ => .ite h1 (.writeMem h1))) (fun _ h1 => h1)))
theorem State.Canon.reseat {p : Plan} {cores gi} (h : s.Canon) : (reseat p cores s gi).Canon :=
  .ite (.strikeGroup (.modG (.slotFor h) (fun _ h1 => h1))) (.traceStart (.traceGain (.modG (.slotFor h) (fun _ h1 => h1))))
theorem Group.Canon.lost {f} (h : g.Canon) : (Group.lost f g).Canon := h
theorem Tile.Canon.scrambled {t : Tile} {f} (h : t.Canon) : (Tile.scrambled f t).Canon := by
  dsimp only [Tile.Canon, Tile.scrambled]
  exact ⟨Mem.write_wf _ _ _ h.1, Mem.write_wf _ _ _ h.2⟩
theorem Tile.Canon.unshaped {t : Tile} {f} (h : t.Canon) : (Tile.unshaped f t).Canon := by
  have h1 : (Tile.scrambled f t).Canon := .scrambled h
  dsimp only [Tile.Canon, Tile.unshaped]
  exact h1
theorem Group.Canon.scrambled {f} (h : g.Canon) : (Group.scrambled f g).Canon := by
  unfold Group.scrambled
  extract_lets n h' l
  have hl : l.Canon := .lost (f := fun k => h' (200 + k)) h
  exact hl
theorem State.Canon.scramble {bi rs} (h : s.Canon) : (scramble s bi rs).Canon :=
  .ite (.foldl h (fun _ h1 _ => .ite (.modG (.drawMany (.drawMany h1)) (fun _ h2 => mapIndexed_holds h2 (fun _ h3 => .unshaped h3)))
      (.ite (.modG (.drawMany (.ite (.modG (.drawMany h1) (fun _ h2 => .lost h2)) h1)) (fun _ h2 => mapIndexed_holds h2 (fun _ h3 => .scrambled h3)))
      (.ite (.modG (.drawMany h1) (fun _ h2 => .lost h2)) h1)))) (.foldl (.modB
      (.drawMany (.foldl h (fun _ h1 _ => .ite (.modG (.drawMany (.drawMany h1)) (fun _ h2 => mapIndexed_holds h2 (fun _ h3 => .unshaped h3)))
      (.ite (.modG (.drawMany (.ite (.modG (.drawMany h1) (fun _ h2 => .lost h2)) h1)) (fun _ h2 => mapIndexed_holds h2 (fun _ h3 => .scrambled h3)))
      (.ite (.modG (.drawMany h1) (fun _ h2 => .lost h2)) h1))))) (fun _ h1 => h1))
      (fun _ h1 _ => .modB (.drawBytes h1) (fun _ h2 => Mem.write_wf _ _ _ h2)))
theorem Keeps.execBlockRestore {bi} (h : s.Canon) : Keeps (execBlockRestore bi s) := by
  unfold Machine.execBlockRestore
  refine .next (.ite h ?_)
  extract_lets b' bad s1 xs
  have h1 : s1.Canon := .ite h (.scramble h)
  exact (.ite (.terminateBlock (.foldl (.modB (.setSplits (.chooseOf h1)) (fun _ h1 => h1)) (fun _ h1 _ => .reseat h1)))
      (.foldl (.modB (.setSplits (.chooseOf h1)) (fun _ h1 => h1)) (fun _ h1 _ => .reseat h1)))

/-! ### Queue.lean -/

theorem State.Canon.fillWindow {q} (h : s.Canon) : (fillWindow s q).Canon := .ite h (.setQueue h)
theorem State.Canon.beginPacket {q units intr} (h : s.Canon) : (beginPacket s q units intr).Canon := .modQ h
theorem State.Canon.endPacket {q} (h : s.Canon) : (endPacket s q).Canon := by
  unfold Machine.endPacket
  extract_lets x s1
  have h1 : s1.Canon := by dsimp only [State.Canon, s1]; exact h
  split
  · exact .advanceDone (.putDesc (.modQ (.getD h1 (.chovisWrite h1))))
  · exact .modQ (.getD h1 (.chovisWrite h1))
theorem State.Canon.finishPacket {q} (h : s.Canon) : (finishPacket s q).Canon := .partDone (.endPacket h)
theorem State.Canon.logPacket {q p} (h : s.Canon) : (logPacket s q p).Canon := .replayLog h
theorem State.Canon.refuse {q p err} (h : s.Canon) : (refuse s q p err).Canon := .stopQueue (.logPacket h)
theorem State.Canon.takeUp {q p} (h : s.Canon) : (takeUp s q p).Canon := .beginPacket (.logPacket h)
theorem State.Canon.withNeeds {q ns} {k : State → State} (h : s.Canon) (h1 : ∀ u, u.Canon → (k u).Canon) : (withNeeds s q ns k).Canon := by
  unfold Machine.withNeeds
  extract_lets x
  refine .ite (h1 _ h) ?_
  split
  next e => exact .modQ (e ▸ State.Canon.ask h :)
  next e => exact .dropFailed (.stopQueue (e ▸ State.Canon.ask h :))
theorem Keeps.packetOp {q p types size zero bad} {k : State → State} (h : s.Canon) (h1 : ∀ u, u.Canon → (k u).Canon) : Keeps
    (packetOp q p types size zero bad s k) := by
  unfold Machine.packetOp
  refine .next (.ite h (.ite (.refuse h) (.ite (.refuse h) ?_)))
  split
  · exact .refuse h
  · exact .withNeeds h h1
theorem State.Canon.launchPacket {q p d} (h : s.Canon) : (launchPacket s q p d).Canon := by
  unfold Machine.launchPacket
  extract_lets x w prio level lid stat evt atOnce n s1 li
  refine .ite (.refuse h) ?_
  have ended {st id} : (atOnce st id).Canon := .withNeeds h fun s1 h1 => .finishLaunch (.endPacket (.takeUp (by dsimp only [State.Canon]; exact h1)))
  split
  · exact ended
  · extract_lets l s2 st
    have h1 : s1.Canon := .takeUp (by dsimp only [State.Canon]; exact h)
    have h2 : s2.Canon := by dsimp only [State.Canon, s2]; exact h1
    exact .ite ended (.ite ended (.modQ h2))
theorem Keeps.execLaunch {q p} (h : s.Canon) : Keeps (execLaunch q p s) := by
  unfold Machine.execLaunch
  refine .packetOp h (fun _ h1 => ?_)
  split
  · exact .launchPacket h1
  · exact .withNeeds h1 (fun _ h2 => .launchPacket h2)
theorem State.Canon.feedMore (h : s.Canon) {q n} : (feedMore q n s).Canon := by
  induction n generalizing s with
  | zero => exact h
  | succ n ih =>
    unfold Machine.feedMore
    extract_lets x
    split
    · extract_lets f
      exact .ite h <| .withNeeds h fun s1 h1 => ih <| .modQ <| .modFeed <| .replayLog <| .getD h1 (.chovisWrite h1)
    · exact .finishPacket h
    · exact h
theorem Keeps.execFeed {q p} (h : s.Canon) : Keeps (execFeed q p s) :=
  .packetOp h (fun _ h1 => .ite (.refuse h1) (.ite (.refuse h1) (.feedMore (.modQ (.takeUp h1)))))
theorem State.Canon.watchWord {q} {w : Woa} (h : s.Canon) : (watchWord q w s).Canon := by
  unfold Machine.watchWord
  split
  · exact h
  · exact .modQ h
theorem State.Canon.watchAgain {q} {w : Woa} (h : s.Canon) : (watchAgain s q w).Canon := .withNeeds h (fun _ h1 => .watchWord h1)
theorem Keeps.execWait {q p} (h : s.Canon) : Keeps (execWait q p s) := by
  unfold Machine.execWait
  exact .packetOp h (fun _ h1 => .withNeeds h1 (fun _ h2 => .ite (.finishPacket (.takeUp h2)) (.modQ (.takeUp h2))))
theorem Keeps.execWaitTimeout {q} (h : s.Canon) : Keeps (execWaitTimeout q s) := .next (.ite (.stopQueue h) h)
theorem Keeps.execSignal {q p} (h : s.Canon) : Keeps (execSignal q p s) := by
  unfold Machine.execSignal
  exact .packetOp h (fun _ h1 => .withNeeds h1 (fun _ h2 => .finishPacket (.outsideWrite (.takeUp h2))))
theorem Keeps.execFetchFence {q p} (h : s.Canon) : Keeps (execFetchFence q p s) := .packetOp h (fun _ h1 => .finishPacket (.modQ (.takeUp h1)))
theorem Keeps.execCallPacket {q p} (h : s.Canon) : Keeps (execCallPacket q p s) := by
  unfold Machine.execCallPacket
  exact .packetOp h (fun _ h1 => .ite (.refuse h1) (.modQ (.endPacket (.takeUp h1))))
theorem State.Canon.leaveBuffer {q} (h : s.Canon) : (leaveBuffer s q).Canon := .partDone (.modQ h)
theorem Keeps.execReturnPacket {q p} (h : s.Canon) : Keeps (execReturnPacket q p s) :=
  .packetOp h (fun _ h1 => .ite (.refuse h1) (.leaveBuffer (.finishPacket (.takeUp h1))))
theorem Keeps.execTimestamp {q p} (h : s.Canon) : Keeps (execTimestamp q p s) := by
  unfold Machine.execTimestamp
  exact .packetOp h (fun _ h1 => .withNeeds h1 (fun _ h2 => .finishPacket (.getD (.takeUp h2) (.chovisWrite (.takeUp h2)))))
theorem Keeps.execPriority {q p} (h : s.Canon) : Keeps (execPriority q p s) := by
  unfold Machine.execPriority
  exact .packetOp h (fun _ h1 => .ite (.refuse h1) (.withNeeds h1 (fun _ h2 => .finishPacket (.putDesc (.modQ (.takeUp h2))))))
theorem Keeps.execCopy {q p} (h : s.Canon) : Keeps (execCopy q p s) := by
  unfold Machine.execCopy
  exact .packetOp h (fun _ h1 => .endPacket (.takeUp h1))
theorem Keeps.execEvent {q p} (h : s.Canon) : Keeps (execEvent q p s) := by
  unfold Machine.execEvent
  exact .packetOp h (fun _ h1 => .withNeeds h1 (fun _ h2 => .finishPacket (.interrupt
      (.ite (.takeUp h2) (.getD (.takeUp h2) (.chovisWrite (.takeUp h2)))))))
theorem Keeps.execNopPacket {q p} (h : s.Canon) : Keeps (execNopPacket q p s) :=
  .next (.ite h (.ite (.refuse h) (.ite (.refuse h) (.ite (.refuse h) (.withNeeds h (fun _ h1 => .finishPacket (.takeUp h1)))))))
theorem State.Canon.setReserved {cores owner clk} (h : s.Canon) : (setReserved s cores owner clk).Canon := h
theorem Keeps.reserveOp {q p rel} {k : State → State} (h : s.Canon) (h1 : ∀ u, u.Canon → (k u).Canon) : Keeps (reserveOp q p rel s k) :=
  .ite (.next h) (.packetOp h (fun _ h2 => .ite (.refuse h2) (h1 _ h2)))
theorem Keeps.execReserveCores {q p} (h : s.Canon) : Keeps (execReserveCores q p s) := by
  unfold Machine.execReserveCores
  refine .reserveOp h fun s1 h1 => ?_
  extract_lets m pasid cores clk s2 s3 others
  have h2 : s2.Canon := .setReserved (.takeUp h1)
  have h3 : s3.Canon := by dsimp only [State.Canon, s3]; exact h2
  exact .ite (.refuse h1) (.modQ (.foldl h3 fun _ h4 _ => .requestBlock h4))
theorem Keeps.execReleaseCores {q p} (h : s.Canon) : Keeps (execReleaseCores q p s) :=
  .reserveOp h (fun _ h1 => .finishPacket (.setReserved (.takeUp h1)))
theorem State.Canon.copyPacketChunk {c : CopyCmd} {p : CmdParty} {r : CmdRun} {k : Chunk} (h : r.s.Canon) : (copyPacketChunk c p r k).s.Canon := by
  unfold Machine.copyPacketChunk
  split
  next e => exact (e ▸ State.Canon.engineRead h :)
  next e => exact .engineWrite (e ▸ State.Canon.engineRead h :)
theorem State.Canon.runCopy {c : CopyCmd} (h : s.Canon) : (runCopy s c).Canon := by
  unfold Machine.runCopy
  dsimp only
  split
  · exact .ite (.modQ (.partDone (foldl_holds (P := fun r : CmdRun => r.s.Canon) (.mixed h) (fun _ h1 _ => .copyPacketChunk h1))))
        (.partDone (foldl_holds (P := fun r : CmdRun => r.s.Canon) (.mixed h) (fun _ h1 _ => .copyPacketChunk h1)))
  · exact .finishCopy (foldl_holds (P := fun r : CmdRun => r.s.Canon) (.mixed h) (fun _ h1 _ => .copyChunk h1))
theorem Keeps.execCopyCommandComplete {n} (h : s.Canon) : Keeps (execCopyCommandComplete n s) := by
  refine .next ?_
  split
  · exact h
  · dsimp only
    split
    next e => exact (e ▸ State.Canon.ask h :)
    next e => exact .dropFailed (.runCopy (e ▸ State.Canon.ask h :))
theorem State.Canon.countIssues {q} (h : s.Canon) : (countIssues s q).Canon := by
  unfold Machine.countIssues
  dsimp only
  split <;> exact .ite h (.modQ h)
theorem State.Canon.slotOver {slot} (h : s.Canon) : (slotOver s slot).Canon := h
theorem State.Canon.countQueue {q} (h : s.Canon) : (countQueue s q).Canon := .ite h (.setQueue h)
theorem State.Canon.unmap {q} (h : s.Canon) : (unmap s q).Canon := .modQ h
theorem Keeps.execQueueMap {q} (h : s.Canon) : Keeps (execQueueMap q s) := by
  refine .next ?_
  split
  · exact h
  · refine .modQ ?_
    split
    · exact h
    · split
      · exact .unmap h
      · exact h
theorem Keeps.execQueueUnmapIdle {q} (h : s.Canon) : Keeps (execQueueUnmapIdle q s) := .next (.ite (.unmap h) h)

/-! ### Driver.lean -/

theorem State.Canon.reply {a result outcome} (h : s.Canon) : (reply s a result outcome).Canon := .outsideWrite (.outsideWrite (.outsideWrite h))
theorem State.Canon.answer {i result outcome} (h : s.Canon) : (answer s i result outcome).Canon := by
  dsimp only [State.Canon, Machine.answer]
  exact State.Canon.reply h
theorem Keeps.driverOp {code n i r bad} {k : (Nat → Nat) → Answer} (h : s.Canon) (h1 : ∀ x, (k x).s.Canon) : Keeps (driverOp code n i r s bad k) :=
  .next (.ite h (.ite (.answer h) (.answer (h1 _))))
theorem Keeps.ctxOp {code n at_ i r bad} {k : (Nat → Nat) → Answer} (h : s.Canon) (h1 : ∀ x, (k x).s.Canon) : Keeps (ctxOp code n at_ i r s bad k) :=
  .driverOp h (fun _ => ite_holds (P := fun r : Answer => r.s.Canon) (h1 _) h)
theorem Keeps.execDriverUnknownCommand {i r} (h : s.Canon) : Keeps (execDriverUnknownCommand i r s) := .next (.ite h (.answer h))
theorem Keeps.execCtxCreate {i r} (h : s.Canon) : Keeps (execCtxCreate i r s) := by
  refine .driverOp h (fun _ => ?_)
  split
  · exact h
  · exact ite_holds (P := fun r : Answer => r.s.Canon) h (.foldl h (fun _ h1 _ => .ite h1 (.outsideWrite h1)))
theorem State.Canon.orphan {q} (h : s.Canon) : (orphan s q).Canon := h
theorem Keeps.execQueueSet {i r} (h : s.Canon) : Keeps (execQueueSet i r s) := by
  refine .ctxOp h (fun _ => ?_)
  dsimp only
  split
  · exact h
  · split
    · exact h
    · exact ite_holds (P := fun r : Answer => r.s.Canon) h (ite_holds (P := fun r : Answer => r.s.Canon) h
          (ite_holds (P := fun r : Answer => r.s.Canon) h (.showState (.setQueue (.ite h (.orphan h))))))
theorem State.Canon.freeSlot {slots} (h : s.Canon) : ∀ u, freeSlot s slots = some u → u.1.Canon := by
  unfold Machine.freeSlot
  split
  · exact none_holds
  · exact some_holds (P := fun u : State × _ => u.1.Canon) (.chooseOf h)
theorem Keeps.execPoolBind {i r} (h : s.Canon) : Keeps (execPoolBind i r s) := by
  refine .ctxOp h (fun _ => ?_)
  split
  · exact h
  next e => exact .modPool (State.Canon.freeSlot h _ e)
theorem Keeps.execCqBind {i r} (h : s.Canon) : Keeps (execCqBind i r s) := by
  refine .ctxOp h (fun _ => ?_)
  split
  · exact h
  next e => exact .modSyz (State.Canon.freeSlot h _ e)
theorem Keeps.execFeedBind {i r} (h : s.Canon) : Keeps (execFeedBind i r s) := by
  refine .ctxOp h (fun _ => ?_)
  split
  · exact h
  next e => exact .modFeed (State.Canon.freeSlot h _ e)
theorem Keeps.groupOp {code n i r bad} {k : (Nat → Nat) → Nat → Answer} (h : s.Canon) (h1 : ∀ x y, (k x y).s.Canon) : Keeps
    (groupOp code n i r s bad k) := by
  refine .driverOp h (fun _ => ?_)
  split
  · exact h1 _ _
  · exact h
theorem Keeps.execBlockResume {i r} (h : s.Canon) : Keeps (execBlockResume i r s) :=
  .groupOp h (fun _ _ => ite_holds (P := fun r : Answer => r.s.Canon) h (.resumeChovis (.modG h (fun _ h1 => h1))))
theorem Keeps.execBlockTerm {i r} (h : s.Canon) : Keeps (execBlockTerm i r s) := .groupOp h (fun _ _ => .terminateBlock h)
theorem Keeps.execDbgSet {i r} (h : s.Canon) : Keeps (execDbgSet i r s) := .groupOp h (fun _ _ => .modG h (fun _ h1 => h1))
theorem Keeps.execDbgIcinv {i r} (h : s.Canon) : Keeps (execDbgIcinv i r s) := .ctxOp h (fun _ => .dropCode h)
theorem Keeps.execProf {i r} (h : s.Canon) : Keeps (execProf i r s) := by
  refine .ctxOp h (fun _ => ?_)
  split
  · exact .modC h
  · split
    · exact h
    · exact .outsideWrite h
theorem Keeps.execDumpSet {i r} (h : s.Canon) : Keeps (execDumpSet i r s) := .driverOp h (fun _ => h)
theorem State.Canon.disableQueue {q} (h : s.Canon) : (disableQueue s q).Canon := by
  refine .showState (.modQ ?_)
  split
  · exact .putDesc h
  · exact h
theorem State.Canon.stopContext {pasid} (h : s.Canon) : (stopContext s pasid).Canon := by
  unfold Machine.stopContext
  extract_lets s1 blocks s2 s3 s4 s5 g s6 s7
  have h2 : s2.Canon := .foldl (.foldl h fun _ h1 _ => .disableQueue h1) fun _ h1 _ => .terminateBlock h1
  have h3 : s3.Canon := by dsimp only [State.Canon, s3]; exact h2
  have h4 : s4.Canon := by dsimp only [State.Canon, s4]; exact h3
  have h5 : s5.Canon := .setReserved h4
  have h6 : s6.Canon := by dsimp only [State.Canon, s6]; exact h5
  exact .dropFailed (by dsimp only [State.Canon]; exact State.Canon.modC h6)
theorem Keeps.execCtxTeardown {i r} (h : s.Canon) : Keeps (execCtxTeardown i r s) :=
  .next (.ite h (.ite (.answer h) (.ite (.answer h) (.modC (.stopContext h)))))
theorem State.Canon.failLaunches {pasid} (h : s.Canon) : (failLaunches s pasid).Canon := .foldl h (fun _ h1 _ => .ite h1 (.finishLaunch (.modL h1)))
theorem State.Canon.freeObjects {pasid} (h : s.Canon) : (freeObjects s pasid).Canon := h
theorem Keeps.execTeardownComplete {pasid} (h : s.Canon) : Keeps (execTeardownComplete pasid s) := by
  unfold Machine.execTeardownComplete
  refine .next (.ite h ?_)
  split
  · exact h
  · extract_lets s1 s2
    have h1 : s1.Canon := .freeObjects (.failLaunches h)
    have h2 : s2.Canon := by dsimp only [State.Canon, s2]; exact h1
    exact .reply (.modC h2)
theorem State.Canon.wdogStop {gi kind} (h : s.Canon) : (wdogStop s gi kind).Canon :=
  .terminateBlock (.oweRecord (.foldl (.modG (.traceFrag h) (fun _ h1 => h1)) (fun _ h1 _ => .modG h1 (fun _ h2 => h2))))
theorem Keeps.execWatchdogExpire {pasid} (h : s.Canon) : Keeps (execWatchdogExpire pasid s) := by
  refine .next ?_
  split
  · exact h
  · refine .foldl (.modC h) (fun _ h1 _ => ?_)
    split
    · exact .wdogStop h1
    · exact h1
theorem Keeps.execXtmoExpire {gi} (h : s.Canon) : Keeps (execXtmoExpire gi s) := .next (.ite (.wdogStop h) h)

/-! ### Device.lean -/

theorem State.Canon.setMgmt {f} (h : s.Canon) : (s.setMgmt f).Canon := h
theorem State.Canon.deviceEvent {vec} (h : s.Canon) : (deviceEvent s vec).Canon := .interrupt h
theorem State.Canon.enterBoot {b : Boot} {err} (h : s.Canon) : (enterBoot s b err).Canon := .deviceEvent (.setMgmt h)
theorem State.Canon.resetDevice {lost} (h : s.Canon) : (resetDevice s lost).Canon :=
  { mem := Mem.filter_wf h.mem, groups := fun g hg => absurd hg List.not_mem_nil, blocks := fun b hb => absurd hb List.not_mem_nil, mailbox := rfl }
theorem Keeps.execPowerOn (h : s.Canon) : Keeps (execPowerOn s) := .next (.ite (.enterBoot h) (.deviceEvent (.resetDevice h)))
theorem State.Canon.runImage {m : Mem} (h : s.Canon) : (runImage s m).Canon := .setMgmt h
theorem Keeps.execRom (h : s.Canon) : Keeps (execRom s) := .next (.ite h (.ite (.enterBoot h) (.enterBoot h)))
theorem Keeps.execVerify (h : s.Canon) : Keeps (execVerify s) := by
  unfold Machine.execVerify
  refine .next (.ite h ?_)
  split
  · split
    next e => exact .enterBoot (e ▸ State.Canon.chooseOf h :)
  · exact .ite (.enterBoot (.runImage h)) (.enterBoot h)
theorem State.Canon.eraseFlash (h : s.Canon) : (eraseFlash s).Canon := .ite h h
theorem State.Canon.writeFlash {bs} (h : s.Canon) : (writeFlash s bs).Canon := .ite h h
theorem Keeps.execFwinit (h : s.Canon) : Keeps (execFwinit s) := by
  unfold Machine.execFwinit
  refine .next (.ite h ?_)
  extract_lets s1
  have h1 : s1.Canon := ⟨h.mem, h.groups, h.blocks, rfl⟩
  split
  next s2 k e =>
    have h2 : s2.Canon := (e ▸ State.Canon.chooseOf h1 :)
    exact .ite (.enterBoot h2) (.ite (.enterBoot h2) (.enterBoot (by dsimp only [State.Canon]; exact State.Canon.setMgmt h2)))
theorem State.Canon.readWindow {off n} (h : s.Canon) : (readWindow s off n).Canon := h
theorem Keeps.execDrvring {v} (h : s.Canon) : Keeps (execDrvring v s) := by
  unfold Machine.execDrvring
  exact .next (.ite h (by dsimp only [State.Canon]; exact State.Canon.setMgmt h))
theorem Keeps.execCtl {v} (h : s.Canon) : Keeps (execCtl v s) := .next (.ite (.deviceEvent (.resetDevice h)) h)
theorem Keeps.execInvalCtl {v} (h : s.Canon) : Keeps (execInvalCtl v s) := .next (.ite h (.setMgmt h))
theorem State.Canon.rewatch {w : Woa} (h : s.Canon) : (rewatch s w).Canon := by
  unfold Machine.rewatch
  split
  · exact .modG h (fun _ h1 => h1)
  · exact .watchAgain h
theorem Keeps.execInvalidationComplete (h : s.Canon) : Keeps (execInvalidationComplete s) := .next (.ite h (.foldl h (fun _ h1 _ => .rewatch h1)))
theorem Keeps.execFresp {v} (h : s.Canon) : Keeps (execFresp v s) := .next (.ite h (.ite (.dropFailed h) h))
theorem Keeps.execPower {v} (h : s.Canon) : Keeps (execPower v s) := .next (.ite h (.setMgmt h))
theorem Keeps.execMgmtRegisterWrite {off v} (h : s.Canon) : Keeps (execMgmtRegisterWrite off v s) := by
  refine .next ?_
  split
  · exact h
  · split
    · exact .ite ⟨h.mem, h.groups, h.blocks, Mem.write_wf _ _ _ h.mailbox⟩ h
    · split
      · exact .setMgmt h
      · exact .setMgmt h
      · exact .ite h (.setMgmt h)
      · exact h
theorem State.Canon.mbxDone {op len result} (h : s.Canon) : (mbxDone s op len result).Canon := .deviceEvent (.setMgmt h)
theorem Keeps.execMbxBootImage {len} (h : s.Canon) : Keeps (execMbxBootImage len s) :=
  .next (.ite h (.ite (.mbxDone (.draw h)) (.ite (.mbxDone h) (.enterBoot (.mbxDone (.runImage h))))))
theorem Keeps.execMbxQuote {len} (h : s.Canon) : Keeps (execMbxQuote len s) := by
  unfold Machine.execMbxQuote
  extract_lets body sig
  refine .next (.ite h (.ite (.mbxDone h) (.mbxDone ?_)))
  dsimp only [State.Canon]
  exact ⟨h.mem, h.groups, h.blocks, Mem.write_wf _ _ _ h.mailbox⟩
theorem Keeps.execTime {ask} (h : s.Canon) : Keeps (execTime ask s) := .next (.ite h h)
theorem State.Canon.hearPeer {a1 d1 d2} (h : s.Canon) : (hearPeer s a1 d1 d2).Canon := .ite h h
theorem Keeps.execPeerTimeExchange (h : s.Canon) : Keeps (execPeerTimeExchange s) := by
  unfold Machine.execPeerTimeExchange
  refine .next ?_
  split
  · dsimp only [State.Canon]
    exact State.Canon.setMgmt h
  · refine .ite h ?_
    dsimp only [State.Canon]
    exact h
theorem Keeps.atHome {src pa n ok} {k : State} (h : s.Canon) (h1 : k.Canon) : Keeps (atHome s src pa n ok k) := .next (.ite h (.ite h1 h))
theorem Keeps.execRd {src pa len} (h : s.Canon) : Keeps (execRd src pa len s) := .atHome h h
theorem State.Canon.linkWrite {pa bs} (h : s.Canon) : (linkWrite s pa bs).Canon := .outsideWrite h
theorem Keeps.execWr {src pa bytes} (h : s.Canon) : Keeps (execWr src pa bytes s) := .atHome h (.linkWrite h)
theorem Keeps.execAtm {src op pa v c} (h : s.Canon) : Keeps (execAtm src op pa v c s) := .atHome h (.linkWrite h)
theorem Keeps.execOwn {pa} (h : s.Canon) : Keeps (execOwn pa s) := .atHome h h
theorem Keeps.execSnp {pa} (h : s.Canon) : Keeps (execSnp pa s) := .next (.ite h h)
theorem Keeps.execPeerLinkChange {up} (h : s.Canon) : Keeps (execPeerLinkChange up s) := .next (.ite h (.deviceEvent (.setMgmt h)))
theorem State.Canon.currentOf {α : Type} {cl : α → Nat} {xs : List α} (h : s.Canon) : (currentOf cl s xs).1.Canon :=
  foldl_holds (P := fun r : State × _ => r.1.Canon) h (fun _ h1 _ => .chooseOf h1)
theorem State.Canon.keepCurrent (h : s.Canon) : (keepCurrent s).Canon := by
  unfold Machine.keepCurrent
  split
  next s1 _ e1 =>
  have h1 : s1.Canon := (e1 ▸ State.Canon.currentOf h :)
  split
  next s2 _ e2 =>
  have h2 : s2.Canon := (e2 ▸ State.Canon.currentOf h1 :)
  split
  next s3 _ e3 =>
  have h3 : s3.Canon := (e3 ▸ State.Canon.currentOf h2 :)
  split
  next s4 _ e4 =>
  have h4 : s4.Canon := (e4 ▸ foldl_holds (P := fun r : State × List Nat => r.1.Canon) h3 fun _ h _ => .chooseOf h :)
  exact ⟨h4.mem, mapIndexed_holds h4.groups fun _ h => h, h4.blocks, h4.mailbox⟩
theorem State.Canon.fatalDump (h : s.Canon) : (fatalDump s).Canon := .ite h (.deviceEvent (.enterBoot (.ite h (.outsideWrite h))))
theorem State.Canon.fatalStop {cause} (h : s.Canon) : (fatalStop s cause).Canon := by
  unfold Machine.fatalStop
  refine .ite h (.fatalDump ?_)
  dsimp only [State.Canon]
  exact State.Canon.setMgmt (.keepCurrent h)
theorem Keeps.execFatalError {cause} (h : s.Canon) : Keeps (execFatalError cause s) := .next (.ite h (.fatalStop h))
theorem Keeps.execLinkFailure (h : s.Canon) : Keeps (execLinkFailure s) := .next (.fatalStop h)
theorem State.Canon.setClock {cl mhz} (h : s.Canon) : (setClock s cl mhz).Canon := .foldl h (fun _ h1 _ => .unitPacket h1)
theorem Keeps.execClockChange {cl mhz} (h : s.Canon) : Keeps (execClockChange cl mhz s) := .next (.ite h (.setMgmt (.setClock h)))
theorem State.Canon.lowerClocks (h : s.Canon) : (lowerClocks s).Canon := .foldl (.drawMany h) (fun _ h1 _ => .ite h1 (.setClock h1))
theorem State.Canon.heat {on temp} (h : s.Canon) : (heat s on temp).Canon :=
  .ite (.fatalStop (.ite (.deviceEvent (.setMgmt (.ite (.lowerClocks (.setMgmt h)) (.setMgmt h))))
      (.setMgmt (.ite (.lowerClocks (.setMgmt h)) (.setMgmt h))))) (.ite (.deviceEvent (.setMgmt (.ite (.lowerClocks (.setMgmt h)) (.setMgmt h))))
      (.setMgmt (.ite (.lowerClocks (.setMgmt h)) (.setMgmt h))))
theorem Keeps.execThrottle {on temp} (h : s.Canon) : Keeps (execThrottle on temp s) := .next (.heat h)
theorem Keeps.execPinnedClockLower (h : s.Canon) : Keeps (execPinnedClockLower s) := .next (.ite (.deviceEvent (.heat h)) (.heat h))
theorem Keeps.execThermalTrip (h : s.Canon) : Keeps (execThermalTrip s) := .next (.heat h)

/-! ### Quant.lean -/

theorem Keeps.execFmtSet {g sel v} (h : s.Canon) : Keeps (execFmtSet g sel v s) := .withOperands h (fun _ => .once h (.advance (.modF h)))
theorem Keeps.execUexp {g d a w} (h : s.Canon) : Keeps (execUexp g d a w s) := .withOperands h (fun _ => .advance (.putReg h))
theorem Keeps.execSbq {g d a w b} (h : s.Canon) : Keeps (execSbq g d a w b s) :=
  .withOperands h (fun _ => .advance (.foldl h (fun _ h1 _ => .putReg h1)))
theorem Keeps.execSbdq {g d w a b} (h : s.Canon) : Keeps (execSbdq g d w a b s) :=
  .withOperands h (fun _ => .advance (.foldl h (fun _ h1 _ => .putReg h1)))
theorem Keeps.execMxdq {g d a b} (h : s.Canon) : Keeps (execMxdq g d a b s) := .withOperands h (fun _ => .advance (.putReg (.putReg h)))
theorem Keeps.execUnpack {g d a e} (h : s.Canon) : Keeps (execUnpack g d a e s) :=
  .withOperands h (fun _ => .advance (.foldl h (fun _ h1 _ => .putReg h1)))

/-! ### Settle.lean -/

theorem State.Canon.retireGroup {gi} (h : s.Canon) : (retireGroup s gi).Canon := by
  unfold Machine.retireGroup
  extract_lets s1 s2 g p s3 s4 s5 s6
  have h2 : s2.Canon := .foldl (.foldl (.dropRows h) fun _ h1 _ => .orphanError h1) fun _ h1 _ => .stampEnd h1
  have h3 : s3.Canon := .ite (.modTree h2) h2
  have h4 : s4.Canon := .modB h3 fun b hb => show b.sp.wf = true from hb
  have h6 : s6.Canon := .modC (.modL h4)
  clear_value s6
  exact .modG h6 fun _ _ => nofun
theorem State.Canon.retireAll (h : s.Canon) : (retireAll s).Canon := .foldl h (fun _ h1 _ => .orHold h1 (.retireGroup h1))
theorem State.Canon.quiesceAll (h : s.Canon) : (quiesceAll s).Canon := .foldl h (fun _ h1 _ => .orHold h1 (.quiesceGroup h1))
theorem State.Canon.discardAll (h : s.Canon) : (discardAll s).Canon := .foldl h (fun _ h1 _ => .orHold h1 (.discardBlock h1))
theorem State.Canon.settleTrees (h : s.Canon) : (settleTrees s).Canon := .foldl h (fun _ h1 _ => .foldl h1 (fun _ h2 _ => .freeTree (.endTree h2)))
theorem State.Canon.completeBlocks (h : s.Canon) : (completeBlocks s).Canon := .foldl h (fun _ h1 _ => .modB h1 (fun _ h2 => h2))
theorem State.Canon.completeLaunches (h : s.Canon) : (completeLaunches s).Canon := .foldl h (fun _ h1 _ => .orHold h1 (.completeLaunch h1))
theorem State.Canon.dropCalls (h : s.Canon) : (dropCalls s).Canon := h
theorem State.Canon.countWaits (h : s.Canon) : (countWaits s).Canon := by
  dsimp only [State.Canon, Machine.countWaits]
  exact ⟨h.mem, mapIndexed_holds h.groups (fun _ h1 => h1), h.blocks, h.mailbox⟩
theorem State.Canon.countDeadlocks (h : s.Canon) : (countDeadlocks s).Canon := h
theorem State.Canon.askFetch {q} (h : s.Canon) : (askFetch s q).Canon := .ite (.withNeeds h (fun _ h1 => h1)) h
theorem State.Canon.goOn {q} (h : s.Canon) : (goOn s q).Canon := by
  unfold Machine.goOn
  dsimp only
  split
  · split
    · exact .stopQueue h
    · split
      · exact .ite (.leaveBuffer h) h
      · exact h
  · exact .ite (.withNeeds h (fun _ h1 => .endPacket h1)) h
  · exact .ite (.feedMore h) h
  · split
    · exact .ite h (.ite (.watchAgain h) (.withNeeds h (fun _ h1 => .finishPacket (.ite (.replayLog h1) h1))))
    · exact h
  · exact .ite (.withNeeds h (fun _ h1 => .finishPacket h1)) h
theorem State.Canon.tellState {q} (h : s.Canon) : (tellState s q).Canon := .ite h (.withDesc h (fun _ h1 => .showState h1))
theorem State.Canon.passDone {q} (h : s.Canon) : (passDone s q).Canon := by
  unfold Machine.passDone
  split
  · exact .ite (.withDesc h (fun _ h1 => .advanceDone h1)) h
  · exact h
theorem State.Canon.serveQueue {q} (h : s.Canon) : (serveQueue s q).Canon :=
  .ite h (.countQueue (.countIssues (.tellState (.passDone (.ite (.goOn (.ite (.askFetch (.fillWindow h)) h))
      (.ite (.askFetch (.fillWindow h)) h))))))
theorem State.Canon.serveQueues (h : s.Canon) : (serveQueues s).Canon := .foldl h (fun _ h1 _ => .orHold h1 (.serveQueue h1))
theorem State.Canon.offerSlots (h : s.Canon) : (offerSlots s).Canon := by
  unfold Machine.offerSlots
  refine .ite h ?_
  split
  · split
    next s1 _ e =>
      have h1 : s1.Canon := (e ▸ State.Canon.chooseOf h :)
      exact .placeChild (by dsimp only [State.Canon]; exact h1)
  · exact .getD h (findSome_holds fun _ => .placeMore h)
theorem State.Canon.evictAll (h : s.Canon) : (evictAll s).Canon := h
theorem State.Canon.strikeAt {u : Upset} (h : s.Canon) : (strikeAt s u).Canon := by
  unfold Machine.strikeAt
  dsimp only
  split
  · exact .ite (.modG h (fun _ h1 => h1)) h
  · exact .ite (.modG h (fun _ h1 => h1)) h
  · exact .modG h (fun _ h1 => h1)
  · exact .modG h (fun _ h1 => h1)
  · exact h
  · exact h
  · exact .modB h (fun _ h1 => h1)
  · exact .modTile h (fun _ h1 => h1)
theorem State.Canon.quietInput {a1 : Input} (h : s.Canon) : ∀ u, quietInput s a1 = some u → u.Canon := by
  unfold Machine.quietInput
  split
  · exact some_holds (.ite (.withMem h (Mem.write_wf _ _ _ h.mem)) h)
  · exact some_holds (by dsimp only [State.Canon]; exact h)
  · exact some_holds (.strikeAt h)
  · exact some_holds (.eraseFlash h)
  · exact some_holds (.writeFlash h)
  · exact some_holds (.readWindow h)
  · exact some_holds (.hearPeer h)
  · split
    · exact none_holds
    · exact some_holds h
  · exact none_holds
theorem State.Canon.quietInputs (h : s.Canon) {xs} : (quietInputs xs s).Canon := by
  induction xs generalizing s with
  | nil => exact h
  | cons x xs ih =>
    unfold Machine.quietInputs
    split
    next u e => exact ih (h.quietInput u e)
    next => exact h
theorem State.Canon.settle (h : s.Canon) : (settle s).Canon := by
  unfold Machine.settle
  extract_lets s1 s2 s3 s4 s5 s6 s7
  have h2 : s2.Canon := .settleTrees (.quiesceAll (.discardAll (.retireAll (.quietInputs h))))
  have h4 : s4.Canon := .offerSlots (.serveQueues (.dropCalls (.completeLaunches (.completeBlocks h2))))
  have h5 : s5.Canon := .foldl h4 fun _ h _ => .orHold h (.syncImage h)
  have h6 : s6.Canon := .orHold h5 (.drainReplay h5)
  exact .evictAll (.countDeadlocks (.countWaits (.seeWoas (.wakeBars h6))))

/-! ### Select.lean -/

theorem State.Canon.fragInstr {gi fi} (h : s.Canon) : (fragInstr s gi fi).1.Canon := by
  unfold Machine.fragInstr
  split
  · exact h
  · dsimp only
    split
    · exact h
    · split
      · exact .fetchFill h
      · split <;> exact .ite (.fetchFill (.fetchFill h)) (.fetchFill h)

/-! ### Due.lean -/

theorem State.Canon.servedBy {k} (h : s.Canon) : (s.servedBy k).Canon := h
theorem State.Canon.take {a1 : Choice} (h : s.Canon) : (Choice.take s a1).1.Canon := by
  unfold Choice.take
  split
  · exact h
  · split <;> exact h
  · exact .fragInstr h
  · exact .fetchFill h
theorem State.Canon.noteIssue {t : State} {gi fi} (h : s.Canon) (h1 : t.Canon) : (noteIssue s t gi fi).Canon := h1
theorem State.Canon.retrySlot {t : State} (h : t.Canon) : (retrySlot t).Canon := h
theorem State.Canon.noteEvent {t : State} {i} (h : s.Canon) (h1 : t.Canon) : (Choice.noteEvent s t i).Canon :=
  .ite (.retrySlot h1) (.ite (.servedBy h1) h1)
theorem State.Canon.endReplay {t : State} {gi fi} (h : s.Canon) (h1 : t.Canon) : (endReplay s t gi fi).Canon := by
  unfold Machine.endReplay
  dsimp only
  split
  · exact .ite (.releaseBlock h1) h1
  · exact h1
theorem State.Canon.noteInput {t : State} (h : s.Canon) (h1 : t.Canon) : (Choice.noteInput s t).Canon := by
  unfold Choice.noteInput
  split
  · exact .servedBy h1
  · exact h1
theorem State.Canon.heldStall {t : State} {gi fi} (h : s.Canon) (h1 : t.Canon) : (heldStall s t gi fi).Canon := .modF (.orHold h h1)
theorem State.Canon.after {t : State} {a1 : Choice} (h : s.Canon) (h1 : t.Canon) : (Choice.after s t a1).Canon := by
  unfold Choice.after
  split
  · exact .noteEvent h (.orHold h h1)
  · exact .noteInput h h1
  · exact h1
  · exact .ite (.noteIssue h (.heldStall h h1)) (.stepCheck (.endReplay h (.noteIssue h h1)))

/-! ### Cycle.lean -/

theorem Group.Canon.cycleOver {code} (h : g.Canon) : (g.cycleOver code).Canon := h
theorem State.Canon.endCycle {cl} (h : s.Canon) : (endCycle s cl).Canon := by
  unfold Machine.endCycle
  extract_lets s1
  have h1 : s1.Canon := .foldl h fun _ h _ => by
    split
    · exact .ite (.tellStop h) h
    · exact h
  exact ⟨h1.mem, mapIndexed_holds h1.groups fun _ h => .ite (.cycleOver h) h, h1.blocks, h1.mailbox⟩
theorem State.Canon.endSlot (h : s.Canon) : (endSlot s).Canon := by
  dsimp only [State.Canon, Machine.endSlot]
  exact State.Canon.slotOver h
theorem State.Canon.passTime {dt} (h : s.Canon) : (passTime s dt).Canon := by
  unfold Machine.passTime
  extract_lets ps slot s1 s2
  have h1 : s1.Canon := .foldl h fun _ h1 _ => .endCycle h1
  have h2 : s2.Canon := .ite (.endSlot h1) h1
  dsimp only [State.Canon]
  exact h2
theorem State.Canon.serveDump (h : s.Canon) : (serveDump s).Canon := .ite (.servedBy (.orHold h (.fatalDump h))) h
theorem State.Canon.finish {t : State} (h : t.Canon) : (finish s t).Canon := by
  unfold Machine.finish
  extract_lets u
  have hu : u.Canon := by
    dsimp only [State.Canon, u]
    exact State.Canon.serveDump (.settle h)
  clear_value u
  split
  · dsimp only [State.Canon]
    exact hu
  · exact .ite hu (.passTime hu)
theorem Keeps.exec {x : Instr} (h : s.Canon) : Keeps (exec x s) := by
  cases x <;> dsimp only [Machine.exec]
  case bra | bany | ball | bnone => exact .uniformBranch h
  case call => exact .execCall h
  case brd => exact .execBrd h
  case brdr => exact .execBrdr h
  case ret => exact .execRet h
  case jmpr => exact .execJmpr h
  case callr => exact .execCallr h
  case exit => exact .execExit h
  case yield => exact .execYield h
  case join => exact .execJoin h
  case wbase => exact .execWbase h
  case spin => exact .execSpin h
  case nop => exact .execNop h
  case fmask => exact .execFmask h
  case add | sub | minI | maxI | minZ | maxZ | addsI | subsI | addsZ | subsZ | avgZ | mul | mulhI | mulhZ | divI | divZ |
      remI | remZ | and | or | xor | andn | orn | shl | shrZ | shrI | rol | ror | bfxZ | bfxI | fcpsgn => exact .laneOp2 h
  case addc | subb | addcImm | subbImm => exact .carryOp h
  case abs | neg | not | popc | clz | ctz | brev | movhi | addi | mov | fabs | fneg => exact .laneOp1 h
  case sadZ | mad | dp4I8 | dp4Z8 | bsel | prmt | shlf | shrf | bfi => exact .laneOp3 h
  case addImm | subImm | minIImm | maxIImm | minZImm | maxZImm | addsIImm | subsIImm | addsZImm | subsZImm | avgZImm |
      shlImm | shrZImm | shrIImm | rolImm | rorImm => exact .laneOpI h
  case sadZImm | shlfImm | shrfImm => exact .laneOp3I h
  case mulwI | mulwZ | madwI | madwZ | shl64 | shrZ64 | shrI64 | lea => exact .lanePair h
  case cmpEq | cmpNe | cmpLtI | cmpLeI | cmpGtI | cmpGeI | cmpLtZ | cmpLeZ | cmpGtZ | cmpGeZ | tst | tstn => exact .cmpR h
  case cmpEqImm | cmpNeImm | cmpLtIImm | cmpLeIImm | cmpGtIImm | cmpGeIImm | cmpLtZImm | cmpLeZImm | cmpGtZImm |
      cmpGeZImm | tstImm | tstnImm => exact .cmpI h
  case add64 | sub64 | mul64 | minI64 | maxI64 | minZ64 | maxZ64 => exact .lanePair2 h
  case cmpEq64 | cmpLtI64 | cmpLtZ64 => exact .cmpPair h
  case movi | li | bcast | matchLanes | lscanAdd | fmtGet | sbexp | mxexp | mxq | pack => exact .laneOp h
  case addi32 | andi32 | ori32 | xori32 => exact .laneOpX h
  case sel => exact .execSel h
  case shflIdx | shflUp | shflDn | shflXor => exact .shuffle h
  case ballot => exact .execBallot h
  case lredAdd | lredMinI | lredMaxI | lredMinZ | lredMaxZ | lredAddF32 => exact .laneReduce h
  case pand | por | pxor => exact .predOp2 h
  case pnot | pmov | pany | pall => exact .predOp1 h
  case p2v => exact .execP2v h
  case v2p => exact .lanePred h
  case tagq => exact .execTagq h
  case srd => exact .execSrd h
  case swr => exact .execSwr h
  case fadd | fsub | fmul | fmin | fmax | fminn | fmaxn => exact .fOp2 h
  case fma | fms | fnma => exact .fOp3 h
  case frint | ffrac | fsat | fclass | rcp | rsqrt | sqrt | exp2 | log2 | sinpi | cospi | tanh | sigm | cvt => exact .fOp1 h
  case fcmpEq | fcmpNe | fcmpLt | fcmpLe | fcmpGt | fcmpGe | fcmpUn | fcmpOr => exact .fcmpOp h
  case hadd2F16 | hsub2F16 | hmul2F16 | hmin2F16 | hmax2F16 | hadd2Bf16 | hsub2Bf16 | hmul2Bf16 | hmin2Bf16 | hmax2Bf16 => exact .hOp2 h
  case hfma2F16 | hfma2Bf16 => exact .hOp3 h
  case fmtSet => exact .execFmtSet h
  case sbq => exact .execSbq h
  case sbdq => exact .execSbdq h
  case mxdq => exact .execMxdq h
  case unpack => exact .execUnpack h
  case uexp => exact .execUexp h
  case tshape => exact .execTshape h
  case tzero => exact .execTzero h
  case tinfo => exact .execTinfo h
  case tfill => exact .execTfill h
  case tfree => exact .execTfree h
  case tmask => exact .execTmask h
  case tmaskClr => exact .execTmaskClr h
  case mma | mmaZ | mmi | mmiZ | mmas | mmasZ | mmis | mmisZ => exact .matOp h
  case trow => exact .execTrow h
  case twrow => exact .execTwrow h
  case tcol => exact .execTcol h
  case twcol => exact .execTwcol h
  case tlds | tsts | tldg | tstg => exact .tileXfer h
  case mbclose => exact .execMbclose h
  case mbstat => exact .execMbstat h
  case ldI8 | ldZ8 | ldI16 | ldZ16 | ld32 | ld64 | ld128 | ldB => exact .ldg h
  case st8 | st16 | st32 | st64 | st128 | stN4 | stN2 => exact .stg h
  case ldsI8 | ldsZ8 | ldsI16 | ldsZ16 | lds32 | lds64 | lds128 | ldsB => exact .lds h
  case sts8 | sts16 | sts32 | sts64 | sts128 | stsN4 | stsN2 => exact .sts h
  case ldx | ldsx => exact .loadOp h
  case stx | stsx => exact .storeOp h
  case ldAcq32 | ldAcq64 => exact .ldAcq h
  case stRel32 | stRel64 => exact .stRel h
  case fenceAcq | fenceRel | fenceAr | fenceSc => exact .fenceOp h
  case pf | pf2 => exact .prefetch h
  case icinv => exact .execIcinv h
  case l1inv => exact .execL1inv h
  case l1invAll => exact .execL1invAll h
  case evict => exact .execEvict h
  case l2part => exact .execL2part h
  case wpath => exact .execWpath h
  case wbatch => exact .execWbatch h
  case wfut => exact .execWfut h
  case wany => exact .execWany h
  case fpoll => exact .execFpoll h
  case wtree => exact .execWtree h
  case rclk => exact .execRclk h
  case rtick => exact .execRtick h
  case rmode => exact .execRmode h
  case rnext => exact .execRnext h
  case rclr => exact .execRclr h
  case aadd | aaddF32 | aaddBf16x2 | aaddF16x2 | aminI | amaxI | aminZ | amaxZ | aand | aor | axor | axch | ainc | adec |
      aminF32 | amaxF32 => exact .atom32 h
  case aadd64 | aminI64 | amaxI64 | aminZ64 | amaxZ64 | axch64 | acas | acas64 | acas128 | amaxp => exact .atomW h
  case redAdd | redAddF32 | redAddBf16x2 | redAddF16x2 | redMinI | redMaxI | redMinZ | redMaxZ | redAnd | redOr | redXor |
      redAdd64 | redMinF32 | redMaxF32 => exact .redOp h
  case vconf | vconfl => exact .conflict h
  case vuniq => exact .execVuniq h
  case scombF32 | scombI32 | scombBf16x2 => exact .combineClasses h
  case barArr => exact .execBarArr h
  case barWait => exact .execBarWait h
  case barSync => exact .execBarSync h
  case barInit => exact .execBarInit h
  case barArrx => exact .execBarArrx h
  case cbarInit => exact .execCbarInit h
  case cbarArr => exact .execCbarArr h
  case cbarWait => exact .execCbarWait h
  case cbarSync => exact .execCbarSync h
  case waddrEq | waddrNe | waddrLt | waddrGe | waddrAny => exact .woaOp h
  case cpt | cpm | cps | cpr => exact .tensorOp h
  case cpf => exact .execCpf h
  case gth | sct | sctr => exact .gatherOp h
  case rbInit => exact .execRbInit h
  case rbAwait => exact .execRbAwait h
  case rbRel => exact .execRbRel h
  case rbStat => exact .execRbStat h
  case rbCred => exact .execRbCred h
  case spawn => exact .execSpawn h
  case treeOpen => exact .execTreeOpen h
  case treeClose | treeCloseFree => exact .treeClose h
  case treeCancel => exact .execTreeCancel h
  case treeStat => exact .execTreeStat h
  case dlSet => exact .execDlSet h
  case dlGet => exact .execDlGet h
  case dlChk => exact .execDlChk h
  case nalloc | nallocT => exact .allocOp h
  case nfree => exact .execNfree h
  case nreset => exact .execNreset h
  case ninfo => exact .execNinfo h
  case cqPush => exact .execCqPush h
  case cqTake => exact .execCqTake h
  case cqPut => exact .execCqPut h
  case cqFlush => exact .execCqFlush h
  case cqCfg => exact .execCqCfg h
  case cqStat => exact .execCqStat h
  case fdPop => exact .execFdPop h
  case fdTry => exact .execFdTry h
  case fdPush => exact .execFdPush h
  case fdStat => exact .execFdStat h
  case colRay | colSph | colBox | colSweep | colDist | colUpd | dynFk | dynId | dynFd | dynStep | dynJac | dynMass => exact .laneCmdOp h
  case trap => exact .execTrap h
  case sys => exact .execSys h
  case brk => exact .execBrk h
  case eret => exact .execEret h
  case eretR => exact .execEretR h
  case tret => exact .execTret h
  case phint => exact .execPhint h
  case ppoint => exact .execPpoint h
  case tmark => exact .execTmark h
  case tstamp => exact .execTstamp h
  case pctr => exact .execPctr h
  case tctlOff => exact .execTctlOff h
  case tctlOn => exact .execTctlOn h
  case tctlFlush => exact .execTctlFlush h
  case fragmentArrive => exact .execFragmentArrive h
  case fragmentAged => exact .execFragmentAged h
  case loadReturn => exact .execLoadReturn h
  case atomicReturn => exact .execAtomicReturn h
  case accessCheckReturn => exact .execAccessCheckReturn h
  case accessPerformed => exact .execAccessPerformed h
  case blockPark => exact .execBlockPark h
  case blockRestore => exact .execBlockRestore h
  case preemptionRequest => exact .execPreemptionRequest h
  case preemptForcedStop => exact .execPreemptForcedStop h
  case matrixQuiescence => exact .execMatrixQuiescence h
  case saveComplete => exact .execSaveComplete h
  case matrixOpComplete => exact .execMatrixOpComplete h
  case tileTransferComplete => exact .execTileTransferComplete h
  case siblingStop => exact .execSiblingStop h
  case handlerEntry => exact .execHandlerEntry h
  case chovisFaultRecord => exact .execChovisFaultRecord h
  case sysReply => exact .execSysReply h
  case eventRingRoom => exact .execEventRingRoom h
  case woaPoll => exact .next h
  case copyCommandComplete => exact .execCopyCommandComplete h
  case collisionCommandComplete => exact .execCollisionCommandComplete h
  case dynamicsCommandComplete => exact .execDynamicsCommandComplete h
  case replayableFaultRecord => exact .execReplayableFaultRecord h
  case faultResponseTimeout => exact .execFaultResponseTimeout h
  case translationWalkComplete => exact .execTranslationWalkComplete h
  case syzygyTimeout => exact .execSyzygyTimeout h
  case deadlineExpire => exact .execDeadlineExpire h
  case queueMap => exact .execQueueMap h
  case queueUnmapIdle => exact .execQueueUnmapIdle h
  case launch => exact .execLaunch h
  case feed => exact .execFeed h
  case wait => exact .execWait h
  case waitTimeout => exact .execWaitTimeout h
  case signal => exact .execSignal h
  case fetchFence => exact .execFetchFence h
  case callPacket => exact .execCallPacket h
  case returnPacket => exact .execReturnPacket h
  case timestamp => exact .execTimestamp h
  case priority => exact .execPriority h
  case copy => exact .execCopy h
  case event => exact .execEvent h
  case nopPacket => exact .execNopPacket h
  case reserveCores => exact .execReserveCores h
  case releaseCores => exact .execReleaseCores h
  case watchdogExpire => exact .execWatchdogExpire h
  case xtmoExpire => exact .execXtmoExpire h
  case ctxCreate => exact .execCtxCreate h
  case ctxTeardown => exact .execCtxTeardown h
  case teardownComplete => exact .execTeardownComplete h
  case queueSet => exact .execQueueSet h
  case poolBind => exact .execPoolBind h
  case cqBind => exact .execCqBind h
  case feedBind => exact .execFeedBind h
  case blockResume => exact .execBlockResume h
  case blockTerm => exact .execBlockTerm h
  case dbgSet => exact .execDbgSet h
  case dbgIcinv => exact .execDbgIcinv h
  case prof => exact .execProf h
  case dumpSet => exact .execDumpSet h
  case driverUnknownCommand => exact .execDriverUnknownCommand h
  case drvring => exact .execDrvring h
  case ctl => exact .execCtl h
  case invalCtl => exact .execInvalCtl h
  case invalidationComplete => exact .execInvalidationComplete h
  case fresp => exact .execFresp h
  case power => exact .execPower h
  case mbxBootImage => exact .execMbxBootImage h
  case mbxQuote => exact .execMbxQuote h
  case mgmtRegisterWrite => exact .execMgmtRegisterWrite h
  case time => exact .execTime h
  case peerTimeExchange => exact .execPeerTimeExchange h
  case rd => exact .execRd h
  case wr => exact .execWr h
  case atm => exact .execAtm h
  case own => exact .execOwn h
  case snp => exact .execSnp h
  case peerLinkChange => exact .execPeerLinkChange h
  case linkFailure => exact .execLinkFailure h
  case powerOn => exact .execPowerOn h
  case rom => exact .execRom h
  case verify => exact .execVerify h
  case fwinit => exact .execFwinit h
  case fatalError => exact .execFatalError h
  case throttle => exact .execThrottle h
  case pinnedClockLower => exact .execPinnedClockLower h
  case thermalTrip => exact .execThermalTrip h
  case clockChange => exact .execClockChange h
  case sync => exact .execSync h
  case stall => exact .execStall h
  case traceLossResync => exact .execTraceLossResync h
  case traceDrain => exact .execTraceDrain h
  case profileSample => exact .execProfileSample h
  case illegalInstruction => exact .execIllegalInstruction h
  case instructionFetchFault => exact .execInstructionFetchFault h
  case completionPathReturn => exact .execCompletionPathReturn h

/-! ### Step.lean -/

theorem State.Canon.step {t : State} (h : s.Canon) (e : step s = .next t) : t.Canon := by
  unfold Machine.step at e
  split at e
  · exact Host.Outcome.next.inj e ▸ State.Canon.finish h
  next c _ =>
    split at e
    next u eu => exact Host.Outcome.next.inj e ▸ State.Canon.finish (.after h ((Keeps.exec (.take h)).canon u eu))
    · simp at e
    · simp at e
/-- Settles O56: what a step does is a composition of the model's operations, and each of them keeps the stores canonical. -/
theorem memoryStaysCanonical : Obligations.MemoryStaysCanonical := fun _ _ h e => canonical_iff.mpr ((canonical_iff.mp h).step e)

end

end Sys2Proof.Machine
end

section
/-! PROOFS. What power-on leaves. -/

namespace Sys2Proof.Machine

open Sys2Proof

theorem canon_reset : State.reset.Canon where
  mem := rfl
  groups := fun _ h => absurd h List.not_mem_nil
  blocks := fun _ h => absurd h List.not_mem_nil
  mailbox := rfl

theorem withinCapacity_reset : WithinCapacity State.reset :=
  ⟨fun _ => Nat.zero_le _, fun _ => Nat.zero_le _, fun _ => Nat.zero_le _, fun _ => Nat.zero_le _⟩

theorem getD_getElem?_replicate {α : Type} (n k : Nat) (a : α) : (List.replicate n a)[k]?.getD a = a := by
  rw [List.getElem?_replicate]
  split <;> rfl

theorem objects_free_at_reset (k : Nat) :
    (State.reset.tree k).st = .free ∧ (State.reset.pool k).bound = false ∧ (State.reset.syz k).bound = false ∧ (State.reset.feedQ k).bound = false := by
  have tree : State.reset.tree k = {} := getD_getElem?_replicate ..
  have pool : State.reset.pool k = {} := getD_getElem?_replicate ..
  have syz : State.reset.syz k = {} := getD_getElem?_replicate ..
  have feed : State.reset.feedQ k = {} := getD_getElem?_replicate ..
  rw [tree, pool, syz, feed]
  exact ⟨rfl, rfl, rfl, rfl⟩

/-- The end of a step passes time last, which leaves the registers of the management window. -/
theorem finish_mgmt (s t : State) : (finish s t).mgmt = (serveDump (settle t)).mgmt := by
  unfold finish
  generalize serveDump (settle t) = u
  dsimp only
  split
  · rfl
  · split
    · rfl
    · exact congrArg (fun x : Option (Nat × Nat) × Nat × Mgmt => x.2.2) (passTime_stepMark ..)

/-- The boot state that stands behind the one step, before time passes. -/
noncomputable def bootBehind (s : State) : Option Boot :=
  match chosen s with
  | none => none
  | some c => match exec (c.take s).2 (c.take s).1 with
    | .next t => some (serveDump (settle (c.after s t))).mgmt.boot
    | _ => none

theorem step_of_bootBehind {s : State} {b : Boot} (h : bootBehind s = some b) : ∃ t, step s = .next t ∧ t.mgmt.boot = b := by
  unfold bootBehind at h
  unfold step
  split at h
  · simp at h
  next c _ =>
    split at h
    next t e => exact ⟨finish s (c.after s t), by simp [*], (congrArg Mgmt.boot (finish_mgmt ..)).trans (Option.some.inj h)⟩
    · simp at h

/-- Settles O55: the fields are those of the structures' defaults, and the first step is computed. -/
theorem resetLeaves : Obligations.ResetLeaves := by
  unfold Obligations.ResetLeaves
  refine ⟨canonical_iff.mpr canon_reset, withinCapacity_reset, rfl, ?_⟩
  refine ⟨rfl, rfl, rfl, rfl, rfl, rfl, rfl, rfl, rfl, rfl, rfl, rfl, by decide +kernel, by decide +kernel, ?_⟩
  exact ⟨rfl, rfl, rfl, rfl, rfl, rfl, objects_free_at_reset, step_of_bootBehind (by decide +kernel)⟩

end Sys2Proof.Machine
end

section
/-! PROOFS. Taking a stop (R342 to R351): what it writes of the stopping group, of its block and of the siblings. -/

namespace Sys2Proof.Machine

open Sys2Proof

/-! ### The groups of a block -/

theorem mem_indexed {α : Type} {xs : List α} {e : Nat × α} : e ∈ indexed xs ↔ xs[e.1]? = some e.2 := by
  rw [indexed, List.mem_iff_getElem?]
  simp only [List.getElem?_zip_eq_some]
  constructor
  · rintro ⟨n, hn, hx⟩
    obtain ⟨hlt, place⟩ := List.getElem?_eq_some_iff.1 hn
    rw [List.getElem_range] at place
    exact place ▸ hx
  · intro h
    obtain ⟨hlt, -⟩ := List.getElem?_eq_some_iff.1 h
    exact ⟨e.1, by simp [hlt], h⟩

theorem nodup_map_indexed {α : Type} (xs : List α) : ((indexed xs).map (·.1)).Nodup := by
  rw [indexed, List.map_fst_zip (by simp)]
  exact List.nodup_range

theorem mem_groupsOf {s : State} {bi k : Nat} : k ∈ s.groupsOf bi ↔ ∃ y, s.groups[k]? = some y ∧ y.block = bi ∧ y.state ≠ .retired := by
  simp only [State.groupsOf, List.mem_filterMap, mem_indexed, Option.ite_none_right_eq_some, Option.some.injEq, decide_eq_true_eq, bne_iff_ne,
    Bool.and_eq_true]
  constructor
  · rintro ⟨⟨j, y⟩, hy, ⟨hb, hs⟩, rfl⟩
    exact ⟨y, hy, hb, hs⟩
  · rintro ⟨y, hy, hb, hs⟩
    exact ⟨(k, y), hy, ⟨hb, hs⟩, rfl⟩

theorem groupsOf_nodup (s : State) (bi : Nat) : (s.groupsOf bi).Nodup := by
  refine List.pairwise_filterMap.2 ((List.pairwise_map.1 (nodup_map_indexed s.groups)).imp fun ne j hj k hk => ?_)
  obtain ⟨-, ej⟩ := Option.ite_none_right_eq_some.1 hj
  obtain ⟨-, ek⟩ := Option.ite_none_right_eq_some.1 hk
  cases ej
  cases ek
  exact ne

/-- One update of each of several groups is an update of the list of groups. -/
theorem foldl_modG (F : Group → Group) (ks : List Nat) (s : State) :
    ks.foldl (fun s k => s.modG k F) s = { s with groups := ks.foldl (fun gs k => modAt gs k F) s.groups } := by
  induction ks generalizing s with
  | nil => rfl
  | cons k ks ih => rw [List.foldl_cons, ih]; rfl

theorem getElem?_foldl_modAt (F : Group → Group) {ks : List Nat} (hn : ks.Nodup) (gs : List Group) (k : Nat) :
    (ks.foldl (fun gs k => modAt gs k F) gs)[k]? = if k ∈ ks then gs[k]?.map F else gs[k]? := by
  induction ks generalizing gs with
  | nil => simp
  | cons j ks ih =>
    obtain ⟨new, hn⟩ := List.nodup_cons.1 hn
    rw [List.foldl_cons, ih hn, getElem?_modAt]
    by_cases e : k = j
    · subst e
      simp [new]
    · simp [e]

/-! ### The outcomes that a stopping group holds (R374) -/

/-- A fragment without held outcomes. -/
def Frag.unheld (f : Frag) : Frag := { f with held := [] }

theorem Frag.unheld_of_nil {f : Frag} (h : f.held = []) : f.unheld = f := by rw [Frag.unheld, ← h]

/-- `t` is `s` but for the buffers of the trace units and the values drawn. -/
def Packeted (s t : State) : Prop := ∃ ts n, t = { s with traces := ts, draws := n }

theorem Packeted.ite {c : Prop} [Decidable c] {s t u : State} (ht : Packeted s t) (hu : Packeted s u) : Packeted s (if c then t else u) := by
  split
  · exact ht
  · exact hu

/-- A packet enters its cluster's buffer, at a place that may be drawn. -/
theorem State.packet_eq (s : State) (cl : Nat) (p : Packet) : Packeted s (s.packet cl p) := by
  have chosen (n : Nat) : Packeted s (s.chooseOf n).1 := by
    unfold State.chooseOf
    split
    · exact ⟨s.traces, s.draws, rfl⟩
    · exact ⟨s.traces, _, rfl⟩
  unfold State.packet
  extract_lets p' t excess r t1 t2
  refine .ite ⟨s.traces, s.draws, rfl⟩ (.ite ⟨_, s.draws, rfl⟩ (.ite ⟨_, s.draws, rfl⟩ ?_))
  split
  next u k e =>
    obtain ⟨ts, n, rfl⟩ := (e ▸ chosen (packetPlaces s cl p' + 1) : Packeted s (u, k).1)
    exact ⟨_, n, rfl⟩

theorem State.trace_eq (s : State) (gi ty low : Nat) (bs : List Byte) : Packeted s (s.trace gi ty low bs) := by
  unfold State.trace
  dsimp only
  split
  · exact ⟨s.traces, s.draws, rfl⟩
  · exact s.packet_eq _ _

/-- Nothing changes when a fragment holds no outcomes. -/
theorem State.modF_unheld {s : State} {gi fi : Nat} (h : ((s.group gi).frag fi).held = []) : s.modF gi fi Frag.unheld = s := by
  have same : modAt (s.group gi).frags fi Frag.unheld = (s.group gi).frags :=
    (modAt_congr fun f hf => Frag.unheld_of_nil (by simpa [Group.frag, hf] using h)).trans (modAt_id ..)
  exact (State.modG_congr (by rw [same])).trans (State.modG_id s gi)

/-- A fragment holds no outcomes when they have been written. -/
theorem State.flushCond_eq (s : State) (gi fi : Nat) : ∃ ts n, s.flushCond gi fi = ({ s with traces := ts, draws := n } : State).modF gi fi Frag.unheld := by
  unfold State.flushCond
  dsimp only
  split
  next none_held =>
    exact ⟨s.traces, s.draws, (State.modF_unheld (by simpa using none_held)).symm⟩
  next =>
    obtain ⟨ts, n, e⟩ := s.trace_eq gi 0x01 _ _
    exact ⟨ts, n, by rw [e]; rfl⟩

theorem foldl_flushCond (gi : Nat) (ks : List Nat) (s : State) : ∃ ts n, ks.foldl (fun s fi => s.flushCond gi fi) s =
    ({ s with traces := ts, draws := n } : State).modG gi fun g => { g with frags := ks.foldl (fun fs k => modAt fs k Frag.unheld) g.frags } := by
  induction ks generalizing s with
  | nil => exact ⟨s.traces, s.draws, (State.modG_id s gi).symm⟩
  | cons k ks ih =>
    obtain ⟨ts, n, first⟩ := s.flushCond_eq gi k
    obtain ⟨ts', n', rest⟩ := ih (({ s with traces := ts, draws := n } : State).modF gi k Frag.unheld)
    refine ⟨ts', n', ?_⟩
    rw [List.foldl_cons, first, rest]
    simp only [State.modF, State.modG, modAt_modAt, List.foldl_cons]

theorem foldl_modAt_range {α : Type} (f : α → α) (xs : List α) : (List.range xs.length).foldl (fun ys k => modAt ys k f) xs = xs.map f := by
  induction xs with
  | nil => rfl
  | cons x xs ih => 
    rw [List.length_cons, List.range_succ_eq_map, List.foldl_cons, List.foldl_map, List.map_cons, ← ih, modAt]
    exact (List.foldl_hom (f x :: ·) (g₁ := fun ys k => modAt ys k f) (g₂ := fun ys k => modAt ys (k + 1) f) fun _ _ => rfl)

/-- The fragments of a group hold no outcomes when they have been written. -/
theorem State.flushGroup_eq (s : State) (gi : Nat) : ∃ ts n, s.flushGroup gi =
    ({ s with traces := ts, draws := n } : State).modG gi fun g => { g with frags := g.frags.map Frag.unheld } := by
  obtain ⟨ts, n, e⟩ := foldl_flushCond gi (List.range (s.group gi).frags.length) s
  refine ⟨ts, n, e.trans (State.modG_congr ?_)⟩
  exact congrArg (fun fs => { s.group gi with frags := fs }) (foldl_modAt_range Frag.unheld (s.group gi).frags)

/-! ### The stop -/

/-- The halt of a block, as the group `gi` raises it. -/
def raisedHalt (s : State) (g : Group) (gi code : Nat) (target : Target) : Halt := { stopper := gi, code := code, target := target, cyc := s.cycle g.core }

/-- A fragment that stands in its group's stop: what it held is written, and the wait-on-address entry of its group is gone. -/
def Frag.standing (f : Frag) : Frag := match f.stall with | some (.woa _) => { f with stall := none } | _ => f

theorem Frag.standing_pc (f : Frag) : f.standing.pc = f.pc := by
  unfold Frag.standing
  split <;> rfl

/-- What a stop of its fragment `fid` leaves of a group. -/
def Group.stopAt (g : Group) (fi fid : Nat) (si : StopInfo) : Group :=
  { g with
    frags := (modAt g.frags fi fun f => { f with stall := none, replay := none }).map Frag.standing,
    trap := stopTrap { g with skid := 0 } si, hold := .stopped, stopFid := fid, skid := 0 }

/-- What a sibling does when the halt of its block begins. -/
def Group.haltBy (id : BitVec 18) (y : Group) : Group :=
  if y.hold == .run then { y with hold := .skid, skid := 0 } else if y.hold == .stopped then { y with trap := siblingTrap y id } else y

/-- The groups when the group `gi` has raised the stop of its block: it stands, and the halt begins for the others. -/
def haltedGroups (s : State) (gi fi : Nat) (si : StopInfo) : List Group :=
  let g := s.group gi
  let gs := modAt s.groups gi fun y => y.stopAt fi (g.frag fi).fid si
  (({ s with groups := gs }.groupsOf g.block).filter (· != gi)).foldl (fun gs k => modAt gs k (Group.haltBy g.id)) gs

/-- A group raises the stop of its block. -/
theorem startHalt_eq (s : State) (gi fi : Nat) (si : StopInfo) :
    startHalt s gi fi si = { s with
      woas := (dropWoas s gi).woas, groups := haltedGroups s gi fi si,
      blocks := modAt s.blocks (s.group gi).block fun b => { b with
        halt := some (raisedHalt s (s.group gi) gi si.code (stopTarget (s.launchOf (s.group gi)).kernel (s.ctxOf (s.group gi)) si.code si.info)) } } := by
  have stands (fid : Nat) : ((dropWoas (s.unissue gi fi) gi).modG gi fun x =>
      { x with trap := stopTrap { x with skid := 0 } si, hold := .stopped, stopFid := fid, skid := 0 })
        = { s with woas := (dropWoas s gi).woas, groups := modAt s.groups gi fun y => y.stopAt fi fid si } := by
    simp only [dropWoas, State.unissue, State.modF, State.modG, modAt_modAt]
    rfl
  unfold startHalt
  dsimp only
  rw [stands]
  exact foldl_modG (Group.haltBy (s.group gi).id) _ _

theorem haltedGroups_stopper {s : State} {gi : Nat} (hgi : gi < s.groups.length) (fi : Nat) (si : StopInfo) :
    (haltedGroups s gi fi si)[gi]? = some ((s.group gi).stopAt fi ((s.group gi).frag fi).fid si) := by
  unfold haltedGroups
  rw [getElem?_foldl_modAt _ ((groupsOf_nodup ..).filter _), if_neg (by simp), getElem?_modAt, if_pos rfl, State.group, List.getElem?_eq_getElem hgi]
  rfl

theorem haltedGroups_sibling {s : State} {gi k : Nat} {y : Group} (hk : k ≠ gi) (hy : s.groups[k]? = some y) (fi : Nat) (si : StopInfo) :
    (haltedGroups s gi fi si)[k]? = some (if y.block = (s.group gi).block ∧ y.state ≠ .retired then y.haltBy (s.group gi).id else y) := by
  have kept : (modAt s.groups gi fun y => y.stopAt fi ((s.group gi).frag fi).fid si)[k]? = some y := by rw [getElem?_modAt, if_neg hk, hy]
  unfold haltedGroups
  rw [getElem?_foldl_modAt _ ((groupsOf_nodup ..).filter _)]
  simp only [List.mem_filter, mem_groupsOf, kept, Option.some.injEq, exists_eq_left', bne_iff_ne, ne_eq, hk, not_false_eq_true, and_true]
  split <;> rfl

/-- The trap registers name the stop's PC in 52 bits (R346). -/
theorem stopTrap_eq (g : Group) (si : StopInfo) (h : g.skid = 0) : stopTrap g si =
    { code := BitVec.ofNat 32 si.code, pcLo := (BitVec.ofNat 52 si.pc).truncate 32, pcHi := (BitVec.ofNat 52 si.pc >>> 32).truncate 32,
      addrLo := lo32 si.addr, addrHi := hi32 si.addr, mask := si.mask.setWidth 32, info := si.info, skid := BitVec.ofNat 32 (g.id.toNat * 32 + 16) } := by
  have low : BitVec.ofNat 32 si.pc = (BitVec.ofNat 52 si.pc).truncate 32 := BitVec.eq_of_toNat_eq (by simp)
  have high : BitVec.ofNat 32 (si.pc / 2 ^ 32 % 2 ^ 20) = (BitVec.ofNat 52 si.pc >>> 32).truncate 32 :=
    BitVec.eq_of_toNat_eq (by simp [Nat.shiftRight_eq_div_pow]; omega)
  rw [stopTrap, low, high, h]

theorem getD_pc {o : Option Frag} {pc : BitVec 52} (h : o.map Frag.pc = some pc) : (o.getD {}).pc = pc := by
  cases o with
  | none => cases h
  | some f => exact Option.some.inj h

/-- Where the issuing fragment's stop goes, and what it tells. -/
theorem takeStop_stopped {s : State} {b : Bool} {i : Iss} (h : Issuing s b i) (m : MayStop s i) (si : StopInfo) :
    Stopped s (takeStop s i.gi i.fi si) i si.code (BitVec.ofNat 52 si.pc) si.addr si.mask si.info
        (stopTarget (s.launchOf i.g).kernel (s.ctxOf i.g) si.code si.info)
      ∧ ((takeStop s i.gi i.fi si).blockOf i.g).committed = (s.blockOf i.g).committed ∧ (takeStop s i.gi i.fi si).sysreqs = s.sysreqs := by
  obtain ⟨hg, hf, -⟩ := h.eq
  obtain ⟨user, running, placed, -⟩ := m
  obtain ⟨ts, n, flushed⟩ := s.flushGroup_eq i.gi
  generalize hu : (({ s with traces := ts, draws := n } : State).modG i.gi fun g => { g with frags := g.frags.map Frag.unheld }) = u at flushed
  have group : u.group i.gi = { i.g with frags := i.g.frags.map Frag.unheld } := by
    rw [← hu, hg]
    exact State.modG_self _ _ _ h.gi
  have gi : i.gi < u.groups.length := by rw [← hu, State.modG_length]; exact h.gi
  have frag : (u.group i.gi).frag i.fi = i.f.unheld := by
    rw [group, hf, Group.frag, Group.frag, List.getElem?_map, List.getElem?_eq_getElem h.fi]
    rfl
  have halts : takeStop s i.gi i.fi si = startHalt u i.gi i.fi si := by
    have still : (u.blockOf (u.group i.gi)).halt = none := by rw [group, ← hu]; exact running
    have none_handles : ((u.group i.gi).frag i.fi).handler = none := by rw [frag]; exact user
    unfold takeStop
    rw [flushed]
    dsimp only
    rw [none_handles, still]
    rfl
  have target : stopTarget (u.launchOf (u.group i.gi)).kernel (u.ctxOf (u.group i.gi)) si.code si.info
      = stopTarget (s.launchOf i.g).kernel (s.ctxOf i.g) si.code si.info := by
    rw [group, ← hu]
    rfl
  rw [halts, startHalt_eq, target]
  generalize stopTarget (s.launchOf i.g).kernel (s.ctxOf i.g) si.code si.info = tgt
  have stopper := haltedGroups_stopper gi i.fi si
  rw [frag, group] at stopper
  have sibling (k : Nat) (y : Group) (hk : k ≠ i.gi) (hy : s.groups[k]? = some y) :
      (haltedGroups u i.gi i.fi si)[k]? = some (if y.block = i.g.block ∧ y.state ≠ .retired then y.haltBy i.g.id else y) := by
    have same : u.groups[k]? = some y := by rw [← hu, State.modG_groups, if_neg hk, hy]
    rw [haltedGroups_sibling hk same, group]
  have block : (modAt u.blocks (u.group i.gi).block fun b => { b with halt := some (raisedHalt u (u.group i.gi) i.gi si.code tgt) })[i.g.block]?
      = some { s.blockOf i.g with halt := some (raisedHalt s i.g i.gi si.code tgt) } := by
    rw [group, ← hu, getElem?_modAt, if_pos rfl, State.blockOf, State.block]
    show (s.blocks[i.g.block]?).map _ = _
    rw [List.getElem?_eq_getElem placed]
    rfl
  have pc : ((modAt (i.g.frags.map Frag.unheld) i.fi fun f => { f with stall := none, replay := none }).map Frag.standing)[i.fi]?.map Frag.pc = some i.f.pc := by
    rw [List.getElem?_map, getElem?_modAt, if_pos rfl, List.getElem?_map, List.getElem?_eq_getElem h.fi, hf, Group.frag, List.getElem?_eq_getElem h.fi]
    exact congrArg some (Frag.standing_pc _)
  suffices told : ∀ t : State, t.group i.gi = Group.stopAt { i.g with frags := i.g.frags.map Frag.unheld } i.fi i.f.fid si →
      t.blockOf i.g = { s.blockOf i.g with halt := some (raisedHalt s i.g i.gi si.code tgt) } → t.groups = haltedGroups u i.gi i.fi si → t.mem = s.mem →
      t.unperf = s.unperf → t.sysreqs = s.sysreqs →
        Stopped s t i si.code (BitVec.ofNat 52 si.pc) si.addr si.mask si.info tgt ∧ (t.blockOf i.g).committed = (s.blockOf i.g).committed ∧ t.sysreqs = s.sysreqs by
    refine told _ ?_ ?_ rfl ?_ ?_ ?_
    · exact (congrArg (Option.getD · {}) stopper :)
    · exact (congrArg (Option.getD · {}) block :)
    all_goals exact hu ▸ rfl
  intro t group block groups mem unperf sysreqs
  refine ⟨⟨?_, ?_, ?_, ?_, ?_, ?_, ?_, fun k y hk hy => ?_, mem, unperf⟩, by rw [block], sysreqs⟩
  · rw [group]
    exact stopTrap_eq { i.g with frags := i.g.frags.map Frag.unheld, skid := 0 } si rfl
  · rw [group]; rfl
  · rw [group]; rfl
  · rw [group]; rfl
  · rw [group]; rfl
  · rw [group]
    exact getD_pc pc
  · rw [block]; rfl
  · rw [groups, sibling k y hk hy]
    refine congrArg some (if_congr Iff.rfl ?_ rfl)
    unfold Group.haltBy
    cases y.hold <;> rfl

/-! ### Stops of the instructions -/

theorem faultAt_stopped {s : State} {b : Bool} {i : Iss} (h : Issuing s b i) (m : MayStop s i) {code : Nat} (mask : Mask) (info : Word) (addr : Word64)
    {target : Target} (ht : stopTarget (s.launchOf i.g).kernel (s.ctxOf i.g) code info = target) :
    Stopped s (faultAt s i code mask info addr) i code i.f.pc addr mask info target := by
  have stop := (takeStop_stopped h m ⟨code, i.pcN, addr, mask, info⟩).1
  rw [ht, Iss.pcN, BitVec.ofNat_toNat, BitVec.setWidth_eq] at stop
  exact stop

/-- A stop whose PC is the next instruction. -/
theorem takeStop_behind {s : State} {b : Bool} {i : Iss} (h : Issuing s b i) (m : MayStop s i) {code : Nat} {info : Word} {target : Target}
    (ht : stopTarget (s.launchOf i.g).kernel (s.ctxOf i.g) code info = target) :
    Stopped s (takeStop s i.gi i.fi ⟨code, i.pcN + 4, 0, i.lanes, info⟩) i code (i.f.pc + 4) 0 i.lanes info target := by
  obtain ⟨stop, -⟩ := takeStop_stopped h m ⟨code, i.pcN + 4, 0, i.lanes, info⟩
  have next : BitVec.ofNat 52 (i.pcN + 4) = i.f.pc + 4 := by
    rw [Iss.pcN, BitVec.ofNat_add, BitVec.ofNat_toNat, BitVec.setWidth_eq]
    rfl
  rw [ht, next] at stop
  exact stop

/-- Codes that go to the system handler, else to Chovis (Table 16-1). -/
theorem stopTarget_system {code : Nat} (h : code < 0x09) (s : State) (i : Iss) (info : Word) :
    stopTarget (s.launchOf i.g).kernel (s.ctxOf i.g) code info = sysTarget s i := by
  unfold stopTarget sysTarget
  rw [if_neg (by omega), if_neg (by omega)]

/-- An instruction without its right stops (R88). -/
theorem withRight_stopped {s : State} {g : Bool} {i : Iss} (h : Issuing s g i) (m : MayStop s i) (detail : Word) (k : Res) :
    ∃ t, withRight s g Iss.system detail k = .next t ∧ Stopped s t i 0x04 i.f.pc 0 i.lanes detail (sysTarget s i) := by
  have user : i.system = false := by
    unfold Iss.system
    rw [m.1]
    rfl
  refine ⟨_, ?_, faultAt_stopped h m i.lanes detail 0 (stopTarget_system (by decide) s i detail)⟩
  rw [withRight, h.cur]
  simp [user]

/-- An instruction that names a register beyond the allocation stops (R39). -/
theorem withOperands_stopped {s : State} {g : Bool} {i : Iss} (h : Issuing s g i) (m : MayStop s i) {rs ws : List Nat} (ps : List Nat) (k : Iss → State)
    {r : Nat} (hr : r ∈ rs ++ ws) (out : i.N ≤ i.phys r) :
    ∃ t, withOperands s g rs ws ps k = .next t ∧ Stopped s t i 0x02 i.f.pc 0 i.lanes 0 (sysTarget s i) := by
  refine ⟨_, ?_, faultAt_stopped h m i.lanes 0 0 (stopTarget_system (by decide) s i 0)⟩
  have beyond : (rs.map i.phys ++ ws.map i.phys).any (fun r => decide (i.N ≤ r)) = true :=
    List.any_eq_true.2 ⟨i.phys r, List.map_append ▸ List.mem_map_of_mem hr, decide_eq_true out⟩
  rw [withOperands, withOperandsOn, withIss_next h]
  exact congrArg _ (if_pos beyond)

theorem MayStop.commit {s : State} {i : Iss} (m : MayStop s i) (rs : List SysReq) : MayStop { s.commit i with sysreqs := rs } i := by
  obtain ⟨user, running, placed, rest⟩ := m
  have block : ({ s.commit i with sysreqs := rs } : State).blockOf i.g = { s.blockOf i.g with committed := true } := State.block_modB placed _
  refine ⟨user, by rw [block]; exact running, ?_, rest⟩
  exact (length_modAt ..).symm ▸ placed

/-- A change of a block that keeps its launch changes no launch of a group. -/
theorem launchOf_modB (s : State) (bi : Nat) {f : Block → Block} (h : ∀ b, (f b).launch = b.launch) (g : Group) : (s.modB bi f).launchOf g = s.launchOf g := by
  have same : ((s.modB bi f).blockOf g).launch = (s.blockOf g).launch := by
    simp only [State.modB, State.blockOf, State.block, getElem?_modAt]
    split
    · cases s.blocks[g.block]? with
      | none => rfl
      | some b => exact h b
    · rfl
  unfold State.launchOf
  rw [same]
  rfl

theorem launchOf_commit (s : State) (i : Iss) (g : Group) : (s.commit i).launchOf g = s.launchOf g := launchOf_modB s i.g.block (f := fun b => { b with committed := true }) (fun _ => rfl) g

theorem sysBytes_commit (s : State) (i : Iss) (a : Fld) (sv : BitVec 5) (w : Nat) : sysBytes (s.commit i) i a sv w = sysBytes s i a sv w := by
  unfold sysBytes
  rw [launchOf_commit]
  rfl

/-- `sys` outside a handler stops its block for Chovis, which has the request (R352). -/
theorem exec_sys_stops {g : Bool} {d a : Fld} {sv : BitVec 5} {c : BitVec 2} {s : State} {i : Iss}
    (h : CanIssue s g (runOf a.toNat (c.toNat + 1)) [d.toNat] [] i) (hl : i.lanes ≠ 0) (m : MayStop s i) :
    ∃ t, exec (.sys g d a sv c) s = .next t ∧ Stopped s t i 0x0E (i.f.pc + 4) 0 i.lanes (sv.setWidth 32) .chovis ∧ (t.blockOf i.g).committed = true
      ∧ t.sysreqs = s.sysreqs ++ [{ ctx := s.pasidOf i.g, gi := i.gi, fid := i.f.fid, bytes := sysBytes s i a sv (c.toNat + 1), dreg := i.phys d.toNat,
                                    lanes := i.lanes, inHandler := false }] := by
  let r : SysReq := { ctx := s.pasidOf i.g, gi := i.gi, fid := i.f.fid, bytes := sysBytes s i a sv (c.toNat + 1), dreg := i.phys d.toNat,
                      lanes := i.lanes, inHandler := false }
  let u : State := { s.commit i with sysreqs := s.sysreqs ++ [r] }
  have issuing : Issuing u g i := ⟨h.cur, h.gi, h.fi⟩
  obtain ⟨-, committed, asked⟩ := takeStop_stopped issuing (m.commit _) ⟨0x0E, i.pcN + 4, 0, i.lanes, sv.setWidth 32⟩
  refine ⟨_, ?_, takeStop_behind issuing (m.commit _) (target := .chovis) rfl, committed.trans (congrArg Block.committed (State.block_modB m.2.2.1 _)), asked⟩
  refine (withOperands_next h _).trans (congrArg _ ?_)
  rw [once_active hl]
  simp only [m.1, State.pasidOf, launchOf_commit, sysBytes_commit, Option.isSome_none, Bool.false_and, Bool.false_eq_true, if_false]
  rfl

/-- Settles O47: a stop has one shape, `takeStop_stopped`; each clause gives the instruction's code, address, lanes and detail. -/
theorem stopsAreTaken : Obligations.StopsAreTaken := by
  refine ⟨fun g n s i h hl m => ?_, fun g n s i h hl m => ?_, fun g d a sv c s i h hl m => exec_sys_stops h hl m, fun g d a sv c s i h hl user awake none_rings => ?_,
    fun w0 w1 detail s i h m => ?_, fun code addr s i hc h m => ?_, fun g d a b s i h m out => ?_, fun g d a s i h m => ?_, fun g s i h m => ⟨?_, ?_⟩,
    fun g d a b s i h hl m hq odd => ?_⟩
  case refine_1 =>
    refine ⟨_, withOperands_next h _, ?_⟩
    rw [once_active hl]
    refine takeStop_behind h.toIssuing m ?_
    show stopTarget (s.launchOf i.g).kernel (s.ctxOf i.g) 0x0B (n.setWidth 32)
        = if (s.launchOf i.g).kernel.handler ≠ 0 then .user else sysTarget s i
    rw [stopTarget, if_neg (by decide), if_pos (.inl rfl), ite_not]
    rfl
  case refine_2 =>
    refine ⟨_, withOperands_next h _, ?_⟩
    rw [once_active hl]
    exact faultAt_stopped h.toIssuing m i.lanes (n.setWidth 32) 0 rfl
  case refine_3 =>
    have issuing : Issuing (s.commit i) g i := ⟨h.cur, h.gi, h.fi⟩
    have went := putReg_wrote issuing d.toNat (fun _ => 0xFFFFFFFF) 4
    refine ⟨_, (withOperands_next h _).trans (congrArg _ ?_), went.at_, went.regs, went.preds, (congrArg State.mem went.rest :), fun k _ hk => went.others k hk⟩
    have no_ring : hasSysRing (s.commit i) (s.pasidOf i.g) = false := by rw [hasSysRing]; exact bne_eq_false_iff_eq.2 none_rings
    rw [once_active hl]
    simp only [Option.isSome_iff_ne_none.2 user, awake, State.pasidOf, launchOf_commit, Bool.true_and]
    rw [if_neg (by simp), if_pos (by simp only [← State.pasidOf.eq_1, no_ring, Bool.not_false])]
  case refine_4 => exact ⟨_, withIss_next h _, faultAt_stopped h m _ _ _ (stopTarget_system (by decide) ..)⟩
  case refine_5 => exact ⟨_, withIss_next h _, faultAt_stopped h m _ _ _ (stopTarget_system (by omega) ..)⟩
  case refine_6 =>
    have named : ∃ r ∈ [a.toNat, b.toNat] ++ [d.toNat], i.N ≤ i.phys r := by simpa [or_comm, or_left_comm] using out
    obtain ⟨r, hr, out⟩ := named
    exact withOperands_stopped h m [] _ hr out
  case refine_7 => exact withRight_stopped h m 5 _
  case refine_8 => exact withRight_stopped h m 3 _
  case refine_9 => exact withRight_stopped h m 3 _
  case refine_10 =>
    refine ⟨_, (withOperands_next h _).trans (congrArg _ ?_), faultAt_stopped h.toIssuing m _ _ _ (stopTarget_system (by decide) ..)⟩
    have off : ((i.reg a.toNat i.lo).toNat : Int) % 8 ≠ 0 := by omega
    have bad : (checkLane s i { space := .scratch, size := 8, write := true } i.lo (i.reg a.toNat i.lo).toNat).res = .error 0x05 := by
      rw [checkLane]
      exact if_pos ⟨rfl, off⟩
    rw [once_active hl, released_of_quiet hq, barAccess, wordAccess, wordsAccess]
    have addr : trapAddr { space := .scratch, size := 8, write := true } (i.reg a.toNat i.lo).toNat = (i.reg a.toNat i.lo).setWidth 64 := by
      show (BitVec.ofInt 32 _).setWidth 64 = _
      rw [BitVec.ofInt_natCast, BitVec.ofNat_toNat, BitVec.setWidth_eq]
    simp only [LaneChk.good, LaneChk.code, bad, Bool.not_false, if_true]
    exact congrArg (faultAt s i 0x05 i.lanes 0x33 ·) addr

end Sys2Proof.Machine
end

section
/-! PROOFS. A block is released after a stop (R355), and what Chovis writes to the rings and takes from them (R353, R405, R406). -/

namespace Sys2Proof.Machine

open Sys2Proof

/-! ### The release of a block -/

/-- A group of a released block runs on, unless it stands for a single step of its own or has a pending stop. -/
def Group.release (y : Group) : Group :=
  if y.hold == .solo then y else { y with hold := if y.pending.isSome then .stopped else .run, skid := 0, stopFid := 0 }

theorem Group.release_pending (y : Group) : y.release.pending = y.pending := by
  unfold Group.release
  split <;> rfl

/-- A group that has no pending stop and does not stand for a single step runs on. -/
theorem Group.release_runs {y : Group} (solo : y.hold ≠ .solo) (none_pends : y.pending = none) :
    y.release = { y with hold := .run, skid := 0, stopFid := 0 } := by
  rw [Group.release, if_neg (by simpa using solo), none_pends]
  rfl

/-- The groups when a block has been released. -/
def releasedGroups (s : State) (bi : Nat) : List Group := (s.groupsOf bi).foldl (fun gs k => modAt gs k Group.release) s.groups

theorem getElem?_releasedGroups (s : State) (bi k : Nat) :
    (releasedGroups s bi)[k]? = s.groups[k]?.map fun y => if y.block = bi ∧ y.state ≠ .retired then y.release else y := by
  rw [releasedGroups, getElem?_foldl_modAt _ (groupsOf_nodup s bi)]
  simp only [mem_groupsOf]
  cases s.groups[k]? with
  | none => simp
  | some y =>
    simp only [Option.some.injEq, exists_eq_left', Option.map_some]
    split <;> rfl

theorem takePending_none {s : State} {bi : Nat} (h : ∀ y ∈ s.groups, y.block = bi → y.pending = none) : takePending s bi = s := by
  have nothing : firstPending s (s.groupsOf bi) = none := by
    have empty : ((s.groupsOf bi).filter fun gi => (s.group gi).pending.isSome) = [] := by
      refine List.filter_eq_nil_iff.2 fun k hk => ?_
      obtain ⟨y, hy, hb, -⟩ := mem_groupsOf.1 hk
      rw [State.group, hy, Option.getD_some, h y (List.mem_of_getElem? hy) hb]
      decide
    rw [firstPending, empty]
    rfl
  unfold takePending
  rw [nothing]
  exact ite_self s

/-- The release of a block none of whose groups has a pending stop. -/
theorem releaseBlock_eq {s : State} {bi : Nat} (h : ∀ y ∈ s.groups, y.block = bi → y.pending = none) :
    releaseBlock s bi = { s with blocks := modAt s.blocks bi fun b => { b with halt := none }, groups := releasedGroups s bi } := by
  have still : ∀ y ∈ releasedGroups s bi, y.block = bi → y.pending = none := by
    intro y hy hb
    obtain ⟨k, hk⟩ := List.mem_iff_getElem?.1 hy
    rw [getElem?_releasedGroups] at hk
    obtain ⟨x, hx, rfl⟩ := Option.map_eq_some_iff.1 hk
    have same : (if x.block = bi ∧ x.state ≠ .retired then x.release else x).pending = x.pending := by
      split
      · exact x.release_pending
      · rfl
    have block : (if x.block = bi ∧ x.state ≠ .retired then x.release else x).block = x.block := by
      unfold Group.release
      split
      · split <;> rfl
      · rfl
    rw [same]
    exact h x (List.mem_of_getElem? hx) (block ▸ hb)
  have freed : releaseBlock s bi = (s.groupsOf bi).foldl (fun s _ => takePending s bi)
      ((s.groupsOf bi).foldl (fun s k => s.modG k Group.release) (s.modB bi fun b => { b with halt := none })) := rfl
  rw [freed, foldl_modG]
  exact List.foldl_fixed' (f := fun s _ => takePending s bi) (fun _ => takePending_none still) _

/-! ### Writes of Chovis to its rings (R405, R406) -/

/-- No line of the part is held outside, and no context tracks races: a write of Chovis changes its bytes and wakes waiters. -/
def Unshared (s : State) : Prop := s.hostLines = [] ∧ ∀ c ∈ s.ctxs, c.shadow = 0

theorem resetLines_untracked {s : State} (h : ∀ c ∈ s.ctxs, c.shadow = 0) (pa n : Nat) : resetLines s pa n = s := by
  have untracked : ∀ cs : List Ctx, (∀ c ∈ cs, c.shadow = 0) → cs.foldl (fun s c => if !c.alive || c.shadow == 0 then s else
      (List.range ((pa % 64 + n + 63) / 64)).foldl (fun s k => resetLine s c.pasid (pa / 64 * 64 + 64 * k) false) s) s = s := by
    intro cs hc
    induction cs with
    | nil => rfl
    | cons c cs ih => 
      rw [List.foldl_cons, if_pos (by simp [hc c]), ih fun x hx => hc x (List.mem_cons_of_mem c hx)]
  exact untracked s.ctxs h

/-- Such a write changes memory and the waits on addresses, and leaves the rest. -/
theorem outsideWrite_unshared {s : State} (h : Unshared s) (pa : Nat) (bs : List Byte) :
    ∃ ws bad, s.outsideWrite pa bs = { s with mem := s.mem.write pa bs, memBad := bad, woas := ws } := by
  have same : recallHost s pa bs.length = s := by
    obtain ⟨none_held, -⟩ := h
    obtain ⟨⟩ := s
    subst none_held
    simp [recallHost]
  rw [State.outsideWrite, resetLines_untracked h.2, State.writeMem, same]
  exact ⟨_, _, rfl⟩

/-- An entry of Chovis: its bytes behind the last, then WIDX. -/
theorem chovisPut_unshared {s : State} (h : Unshared s) (base n e : Nat) (bs : List Byte) :
    ∃ ws bad, chovisPut s base n e bs = { s with
      mem := (s.mem.write (base + 64 + e * (s.mem.le base 8 % 2 ^ n)) bs).write base (leBytes 8 (s.mem.le base 8 + 1)), memBad := bad, woas := ws } := by
  obtain ⟨ws, bad, first⟩ := outsideWrite_unshared h (base + 64 + e * (s.mem.le base 8 % 2 ^ n)) bs
  rw [chovisPut, first]
  exact outsideWrite_unshared (s := { s with mem := s.mem.write (base + 64 + e * (s.mem.le base 8 % 2 ^ n)) bs, memBad := bad, woas := ws }) h base _

/-- The interrupt of a record. -/
def ChovisRec.int (r : ChovisRec) : Msg := .int (BitVec.ofNat 32 (r.src % 4 * 2 ^ 28 + r.ctx % 2 ^ 20))

theorem interrupt_record (s : State) (r : ChovisRec) : s.interrupt r.src 0 r.ctx = { s with outbox := r.int :: s.outbox } := by
  simp [State.interrupt, ChovisRec.int]

section
variable {s : State} {n base k : Nat} {r : ChovisRec} (hr : s.chovis[n]? = some r) (alive : (s.ctx r.ctx).alive = true)
  (ring : (s.ctx r.ctx).ring r.ring = (base, k))
include hr alive ring

/-- A record that finds room is appended, and its interrupt is raised. -/
theorem putRecord_written (h : Unshared s) (hb : base ≠ 0) (room : s.ringRoom base k ≠ 0) :
    (putRecord s n).chovis = dropAt s.chovis n ∧ (putRecord s n).outbox = r.int :: s.outbox ∧ (putRecord s n).groups = s.groups
      ∧ (putRecord s n).mem = (s.mem.write (base + 64 + 64 * (s.mem.le base 8 % 2 ^ k)) r.bytes).write base (leBytes 8 (s.mem.le base 8 + 1)) := by
  obtain ⟨ws, bad, put⟩ := chovisPut_unshared (s := { s with chovis := dropAt s.chovis n }) h base k 64 r.bytes
  have written : putRecord s n = (chovisPut { s with chovis := dropAt s.chovis n } base k 64 r.bytes).interrupt r.src 0 r.ctx := by
    unfold putRecord
    simp only [hr, ring, alive, hb, room, Bool.not_true, Bool.false_eq_true, if_false]
  rw [written, interrupt_record, put]
  exact ⟨rfl, rfl, rfl, rfl⟩

theorem putRecord_held (hb : base ≠ 0) (full : s.ringRoom base k = 0) :
    putRecord s n = { s with chovis := modAt s.chovis n fun r => { r with held := true } } := by
  unfold putRecord
  simp only [hr, ring, alive, hb, full, Bool.not_true, Bool.false_eq_true, if_false, if_true]

/-- Without the ring only the interrupt is raised. -/
theorem putRecord_ringless (hb : base = 0) : putRecord s n = { s with chovis := dropAt s.chovis n, outbox := r.int :: s.outbox } := by
  unfold putRecord
  simp only [hr, ring, alive, hb, Bool.not_true, Bool.false_eq_true, if_false, if_true]
  exact interrupt_record _ r

omit alive in
theorem eventRingRoom_puts (room : s.ringRoom base k ≠ 0) (held : r.held = true) : exec (.eventRingRoom n) s = .next (putRecord s n) := by
  have due : roomDue s n = true := by simp [roomDue, hr, ring, held, room]
  obtain ⟨within, -⟩ := List.getElem?_eq_some_iff.1 hr
  show execEventRingRoom n s = _
  rw [execEventRingRoom, due, if_pos within]
  rfl

end

/-! ### A reply resumes its caller (R352, R353) -/

theorem findAt_modAt {α : Type} {p : α → Bool} {f : α → α} (h : ∀ x, p (f x) = p x) (xs : List α) (n : Nat) : findAt p (modAt xs n f) = findAt p xs := by
  induction xs generalizing n with
  | nil => rfl
  | cons x xs ih =>
    cases n with
    | zero => rw [modAt, findAt, findAt, h]
    | succ n => rw [modAt, findAt, findAt, ih]

theorem fragAt_of_frags {g g' : Group} {fi : Nat} {u : Frag → Frag} (e : g'.frags = modAt g.frags fi u) (h : ∀ f, (u f).fid = f.fid) (fid : Nat) :
    g'.fragAt fid = g.fragAt fid := by
  rw [Group.fragAt, Group.fragAt, e]
  exact findAt_modAt (fun f => by rw [h]) g.frags fi

/-- The stopping fragment goes on at a PC. -/
def Frag.resumed (pc : BitVec 52) (f : Frag) : Frag :=
  { f with pc := pc, replay := none, stall := none, arrival := if pc = f.pc then f.arrival else none, held := [] }

theorem flushCond_untraced {s : State} {gi : Nat} (h : (s.group gi).traced = false) (fi : Nat) : s.flushCond gi fi = s.modF gi fi Frag.unheld := by
  unfold State.flushCond State.trace
  simp only [h, Bool.not_false, if_true]
  split
  next none_held =>
    exact (State.modF_unheld (by simpa using none_held)).symm
  next => rfl

/-- A group that is not traced drops the outcomes that a packet would have come after. -/
theorem traceFrag_untraced {s : State} {gi : Nat} (h : (s.group gi).traced = false) (fi ty : Nat) (bs : List Byte) :
    s.traceFrag gi fi ty bs = s.modF gi fi Frag.unheld := by
  have still : ((s.modF gi fi Frag.unheld).group gi).traced = false := by
    by_cases within : gi < s.groups.length
    · rw [State.modF, State.modG_self _ _ _ within]
      exact h
    · rw [State.group, State.modF, State.modG_groups, if_pos rfl, List.getElem?_eq_none (by omega)]
      rfl
  rw [State.traceFrag, flushCond_untraced h]
  simp only [State.trace, still, Bool.not_false, if_true]

/-- Chovis lets a block go on whose stopper is not traced. -/
theorem resumeChovis_eq {s : State} {gi fi : Nat} {y : Group} (hy : s.groups[gi]? = some y) (frag : y.fragAt y.stopFid = some fi) (halted : y.hold ≠ .solo)
    (untraced : y.traced = false) (pc : BitVec 52) :
    resumeChovis s gi pc none = releaseBlock { s with groups := modAt s.groups gi fun g => { g with frags := modAt g.frags fi (Frag.resumed pc) } } y.block := by
  have group : s.group gi = y := by rw [State.group, hy, Option.getD_some]
  obtain ⟨within, -⟩ := List.getElem?_eq_some_iff.1 hy
  unfold resumeChovis
  simp only [group, frag]
  rw [if_neg (by simpa using halted), releaseOrReplay]
  have still (u : Frag → Frag) : ((s.modF gi fi u).group gi).traced = false := by
    rw [State.modF, State.modG_self _ _ _ within, group]
    exact untraced
  refine congrArg (releaseBlock · y.block) ?_
  rw [traceReturn, traceFrag_untraced (still _), State.modF_modF]
  rfl

/-- The fragment of a call when its replies have come: an acquire at `.sys`. -/
def Frag.acquiredSys (s : State) (f : Frag) : Frag := { f with noisy := true, spin := false, acquired := s.fillNo, caps := [] }

/-- The group of a call when its replies have come. -/
def Group.replied (s : State) (r : SysReq) (fi : Nat) (reply : Nat → Word) (y : Group) : Group :=
  { y.setReg r.dreg r.lanes reply with
    acquired := s.fillNo, frags := modAt y.frags fi (Frag.acquiredSys s),
    issued := y.issued + 1, issuedNow := some ((modAt y.frags fi (Frag.acquiredSys s))[fi]?.getD {}).pc }

/-- The group of a call that goes on behind it. -/
def Group.behindCall (s : State) (r : SysReq) (fi : Nat) (reply : Nat → Word) (y : Group) : Group :=
  { y.replied s r fi reply with frags := modAt (y.replied s r fi reply).frags fi (Frag.resumed y.trap.pc) }

section
variable {s : State} {n fi : Nat} {r : SysReq} {y : Group} (hr : s.sysreqs[n]? = some r) (outside : r.inHandler = false) (hy : s.groups[r.gi]? = some y)
  (frag : y.fragAt r.fid = some fi) (stopper : y.stopFid = r.fid) (stopped : y.hold = .stopped) (untraced : y.traced = false) (unstepped : y.debugStep = false)
  (calm : ∀ z ∈ s.groups, z.block = y.block → z.pending = none)
include hr outside hy frag stopper stopped untraced unstepped calm

/-- The replies reach the caller and its block runs on. -/
theorem finishSys_eq (reply : Nat → Word) :
    let u : State := { s with groups := modAt s.groups r.gi (Group.behindCall s r fi reply) }
    finishSys s n reply = { s with
      sysreqs := dropAt s.sysreqs n, seq := s.seq + 1, blocks := modAt s.blocks y.block fun b => { b with halt := none },
      groups := releasedGroups u y.block } := by
  intro u
  obtain ⟨within, -⟩ := List.getElem?_eq_some_iff.1 hy
  have group : s.group r.gi = y := by rw [State.group, hy, Option.getD_some]
  have there : ((({ s with sysreqs := dropAt s.sysreqs n } : State).modG r.gi fun g => g.setReg r.dreg r.lanes reply).group r.gi).fragAt r.fid = some fi := by
    refine (congrArg (Group.fragAt · r.fid) (State.modG_self { s with sysreqs := dropAt s.sysreqs n } r.gi _ within)).trans ?_
    show (s.group r.gi).fragAt r.fid = _
    rw [group, frag]
  have calm' : ∀ z ∈ u.groups, z.block = y.block → z.pending = none := by
    intro z hz hb
    obtain ⟨k, hk⟩ := List.mem_iff_getElem?.1 hz
    have old : (modAt s.groups r.gi (Group.behindCall s r fi reply))[k]? = some z := hk
    rw [getElem?_modAt] at old
    split at old
    next => 
      obtain ⟨x, hx, rfl⟩ := Option.map_eq_some_iff.1 old
      exact calm x (List.mem_of_getElem? hx) hb
    next => exact calm z (List.mem_of_getElem? old) hb
  have resumed : ∀ v : State, v = { s with sysreqs := dropAt s.sysreqs n, seq := s.seq + 1, groups := modAt s.groups r.gi (Group.replied s r fi reply) } →
      resumeChovis v r.gi (v.group r.gi).trap.pc none = { s with
        sysreqs := dropAt s.sysreqs n, seq := s.seq + 1, blocks := modAt s.blocks y.block fun b => { b with halt := none }, groups := releasedGroups u y.block } := by
    intro v hv
    have place : v.groups[r.gi]? = some (y.replied s r fi reply) := by
      rw [hv]
      show (modAt s.groups r.gi _)[r.gi]? = _
      rw [getElem?_modAt, if_pos rfl, hy]
      rfl
    have found : (y.replied s r fi reply).fragAt (y.replied s r fi reply).stopFid = some fi := by
      rw [← frag, ← stopper]
      exact fragAt_of_frags (u := Frag.acquiredSys s) rfl (fun _ => rfl) y.stopFid
    have trap : (v.group r.gi).trap = y.trap := by rw [State.group, place]; rfl
    have behind : (modAt v.groups r.gi fun g => { g with frags := modAt g.frags fi (Frag.resumed y.trap.pc) }) = u.groups := by
      rw [hv]
      show modAt (modAt _ _ _) _ _ = modAt _ _ _
      rw [modAt_modAt]
      exact modAt_congr fun x hx => by rw [hy] at hx; cases hx; rfl
    rw [trap, resumeChovis_eq place found (by show y.hold ≠ _; rw [stopped]; decide) untraced, behind, hv]
    exact releaseBlock_eq (s := { s with sysreqs := dropAt s.sysreqs n, seq := s.seq + 1, groups := u.groups }) calm'
  have runs (t : State) (ht : t.groups = releasedGroups u y.block) (k : Nat) : stepCheck t r.gi r.fid k false = t := by
    have step : (t.group r.gi).debugStep = false := by
      have place : u.groups[r.gi]? = some (y.behindCall s r fi reply) := by
        show (modAt s.groups r.gi _)[r.gi]? = _
        rw [getElem?_modAt, if_pos rfl, hy]
        rfl
      rw [State.group, ht, getElem?_releasedGroups, place, Option.map_some, Option.getD_some]
      unfold Group.release
      (repeat' split) <;> exact unstepped
    simp [stepCheck, step]
  unfold finishSys
  simp only [hr, there, outside, Bool.false_eq_true, if_false]
  rw [resumed _ ?_]
  · exact runs _ rfl _
  · unfold acquireFills retireFills
    rw [if_neg (by decide)]
    simp only [State.modF, State.modG, modAt_modAt]
    rfl

/-- The caller behind its call. -/
theorem behindCall_released (resident : y.state = .resident) (reply : Nat → Word) :
    ((finishSys s n reply).group r.gi) = { y.behindCall s r fi reply with hold := .run, skid := 0, stopFid := 0 } := by
  obtain ⟨within, rfl⟩ := List.getElem?_eq_some_iff.1 hy
  have none_pends := calm _ (List.getElem_mem within) rfl
  rw [finishSys_eq hr outside hy frag stopper stopped untraced unstepped calm, State.group]
  show ((releasedGroups _ _)[r.gi]?).getD {} = _
  rw [getElem?_releasedGroups]
  have place : (modAt s.groups r.gi (Group.behindCall s r fi reply))[r.gi]? = some (s.groups[r.gi].behindCall s r fi reply) := by
    rw [getElem?_modAt, if_pos rfl, hy]
    rfl
  rw [place]
  refine (if_pos ⟨rfl, by show s.groups[r.gi].state ≠ _; rw [resident]; decide⟩).trans (Group.release_runs ?_ none_pends)
  show s.groups[r.gi].hold ≠ _
  rw [stopped]
  decide

end

theorem findAt_lt {α : Type} {p : α → Bool} {xs : List α} {n : Nat} (h : findAt p xs = some n) : n < xs.length := by
  induction xs generalizing n with
  | nil => cases h
  | cons x xs ih =>
    rw [findAt] at h
    split at h
    · cases h
      exact Nat.zero_lt_succ _
    · obtain ⟨m, hm, rfl⟩ := Option.map_eq_some_iff.1 h
      exact Nat.succ_lt_succ (ih hm)

/-- Settles O49: the records by the cases of `putRecord`, the reply by `finishSys_eq`. -/
theorem chovisWritesAndReplies : Obligations.ChovisWritesAndReplies := by
  refine ⟨fun n s r base k hr alive ring calm => ⟨fun hb room => ⟨_, rfl, putRecord_written hr alive ring calm hb room⟩,
      fun hb full => congrArg _ (putRecord_held hr alive ring hb full), fun hb => congrArg _ (putRecord_ringless hr alive ring hb),
      fun hb room held => ⟨_, eventRingRoom_puts hr ring room held, putRecord_written hr alive ring calm hb room⟩⟩, ?_⟩
  intro n s r w y fi hr entry outside hy frag stopper stopped resident untraced unstepped placed calm e replied
  have finished := finishSys_eq hr outside hy frag stopper stopped untraced unstepped calm fun l => BitVec.ofNat 32 (s.mem.le (e + 320 + 4 * l) 4)
  have caller := behindCall_released hr outside hy frag stopper stopped untraced unstepped calm resident fun l => BitVec.ofNat 32 (s.mem.le (e + 320 + 4 * l) 4)
  have here : ((y.behindCall s r fi fun l => BitVec.ofNat 32 (s.mem.le (e + 320 + 4 * l) 4)).frags)[fi]? =
      some (Frag.resumed y.trap.pc (Frag.acquiredSys s (y.frag fi))) := by
    show (modAt (modAt y.frags fi _) fi _)[fi]? = _
    rw [getElem?_modAt, if_pos rfl, getElem?_modAt, if_pos rfl, Group.frag, List.getElem?_eq_getElem (findAt_lt frag)]
    rfl
  refine ⟨finishSys s n fun l => BitVec.ofNat 32 (s.mem.le (e + 320 + 4 * l) 4), ?_, by rw [finished], by rw [finished], ?_, by rw [caller], ?_, ?_, by rw [caller]; rfl, ?_⟩
  · have due : sysDue s r = true := by
      rw [sysDue, entry]
      exact beq_iff_eq.2 replied
    show execSysReply n s = _
    simp only [execSysReply, hr, due, entry, Bool.not_true, Bool.false_eq_true, if_false]
    rfl
  · exact congrArg Block.halt (block_modAt (congrArg State.blocks finished) placed)
  · rw [caller, Group.frag, here]; rfl
  · rw [caller, Group.frag, here]; rfl
  · intro p l hp hl
    rw [caller]
    exact Group.setReg_lane y r.dreg p l r.lanes _ hp hl

end Sys2Proof.Machine
end

section
/-! PROOFS. Handlers (R344 to R349, R355): a sibling stops, a handler takes the place of the stopping fragment, a return puts it back. -/

namespace Sys2Proof.Machine

open Sys2Proof

/-! ### A sibling stops (R344, R346) -/

theorem siblingStop_stands {s : State} {gi : Nat} {y : Group} {h : Halt} (hy : s.groups[gi]? = some y) (hh : (s.block y.block).halt = some h)
    (skid : y.hold = .skid) :
    ∃ t, exec (.siblingStop gi) s = .next t ∧ (t.group gi).hold = .stopped ∧ (t.group gi).trap.code = 0
      ∧ (t.group gi).trap.skid = BitVec.ofNat 32 ((s.group h.stopper).id.toNat * 32 + y.skid % 16) ∧ (t.group gi).regs = y.regs ∧ t.mem = s.mem
      ∧ ∀ k, k ≠ gi → t.groups[k]? = s.groups[k]? := by
  have group : s.group gi = y := by rw [State.group, hy, Option.getD_some]
  obtain ⟨within, -⟩ := List.getElem?_eq_some_iff.1 hy
  have stands : exec (.siblingStop gi) s = .next ((dropWoas (s.flushGroup gi) gi).modG gi fun g =>
      { g with hold := .stopped, trap := siblingTrap g (s.group h.stopper).id }) := by
    show execSiblingStop gi s = _
    simp only [execSiblingStop, group, State.blockOf, hh, skid, beq_self_eq_true, if_true]
  obtain ⟨ts, n, flushed⟩ := s.flushGroup_eq gi
  have groups : ((dropWoas (s.flushGroup gi) gi).modG gi fun g => { g with hold := .stopped, trap := siblingTrap g (s.group h.stopper).id }).groups
      = modAt s.groups gi fun g => { g with
          frags := (g.frags.map Frag.unheld).map Frag.standing, hold := .stopped,
          trap := siblingTrap { g with frags := (g.frags.map Frag.unheld).map Frag.standing } (s.group h.stopper).id } := by
    rw [flushed]
    simp only [dropWoas, State.modG, modAt_modAt]
    rfl
  have mem : (dropWoas (s.flushGroup gi) gi).mem = s.mem := by
    rw [flushed]
    rfl
  have here : ((dropWoas (s.flushGroup gi) gi).modG gi fun g => { g with hold := .stopped, trap := siblingTrap g (s.group h.stopper).id }).group gi
      = { y with
          frags := (y.frags.map Frag.unheld).map Frag.standing, hold := .stopped,
          trap := siblingTrap { y with frags := (y.frags.map Frag.unheld).map Frag.standing } (s.group h.stopper).id } := by
    rw [State.group, groups, getElem?_modAt, if_pos rfl, hy]
    rfl
  refine ⟨_, stands, ?_, ?_, ?_, ?_, mem, fun k hk => ?_⟩
  · rw [here]
  · rw [here]; rfl
  · rw [here]; rfl
  · rw [here]
  · rw [groups, getElem?_modAt, if_neg hk]

/-! ### A handler takes over (R349) -/

theorem alignPc_ofNat (n : Nat) : alignPc ((BitVec.ofNat 64 n).truncate 52) = BitVec.ofNat 52 (n / 4 * 4) := by
  refine BitVec.eq_of_getLsbD_eq fun k hk => ?_
  have three : (3 : BitVec 52).getLsbD k = decide (k < 2) := by
    show (BitVec.ofNat 52 (2 ^ 2 - 1)).getLsbD k = _
    rw [BitVec.getLsbD_ofNat, Nat.testBit_two_pow_sub_one, decide_eq_true hk, Bool.true_and]
  have quarter : (n / 4 * 4).testBit k = (decide (2 ≤ k) && n.testBit k) := by
    rw [show 4 = 2 ^ 2 from rfl, Nat.testBit_mul_two_pow, Nat.testBit_div_two_pow]
    by_cases low : 2 ≤ k
    · rw [Nat.sub_add_cancel low]
    · simp [low]
  have word : ((BitVec.ofNat 64 n).truncate 52).getLsbD k = n.testBit k := by
    simp only [BitVec.truncate_eq_setWidth, BitVec.getLsbD_setWidth, BitVec.getLsbD_ofNat, decide_eq_true hk, decide_eq_true (show k < 64 by omega), Bool.true_and]
  rw [alignPc, BitVec.getLsbD_and, BitVec.getLsbD_not, three, word, BitVec.getLsbD_ofNat, quarter, decide_eq_true hk, Bool.true_and, Bool.true_and, Bool.and_comm,
    ← decide_not, decide_eq_decide.2 Nat.not_lt]

/-- A handler fragment of a stopped group, at the entry of its handler. -/
def Frag.handlerAt (s : State) (y : Group) (kind : HKind) (entry : Word64) (f : Frag) : Frag :=
  { fid := y.nextFid, pc := alignPc (entry.truncate 52), amask := f.amask, fmt := f.fmt, wb := f.wb, latch := f.latch, sampled := f.sampled,
    handler := some kind, lastIssue := s.seq, readyAt := s.cycle y.core, before := f.fid :: f.before, acquired := f.acquired }

/-- A group whose handler has taken the place of its stopping fragment. -/
def Group.handledAt (s : State) (fi : Nat) (kind : HKind) (entry : Word64) (y : Group) : Group :=
  { y with frame := some (y.frag fi), frags := dropAt y.frags fi ++ [(y.frag fi).handlerAt s y kind entry], nextFid := y.nextFid + 1 }

theorem startHandler_eq {s : State} {gi fi : Nat} {y : Group} (hy : s.groups[gi]? = some y) (frag : y.fragAt y.stopFid = some fi) (kind : HKind) (entry : Word64) :
    startHandler s gi kind entry = s.modG gi (Group.handledAt s fi kind entry) := by
  refine State.modG_congr ?_
  rw [State.group, hy, Option.getD_some, frag]
  rfl

section
variable {s : State} {bi fi : Nat} {h : Halt} {y : Group} (hh : (s.block bi).halt = some h) (phase : h.phase = .stopping) (told : h.told = true)
  (placed : (s.block bi).place = .placed) (hy : s.groups[h.stopper]? = some y) (frag : y.fragAt y.stopFid = some fi)
  (still : ∀ (k : Nat) (z : Group), s.groups[k]? = some z → z.block = bi → z.state ≠ .retired →
    z.hold = .stopped ∧ z.outst = [] ∧ z.xfers = [] ∧ ∀ e ∈ s.unperf, e.gi ≠ k)
include hh phase told placed still

theorem handlerDue_of_still : handlerDue s bi = true := by
  have all (p : Nat → Group → Bool) (hp : ∀ k z, s.groups[k]? = some z → z.block = bi → z.state ≠ .retired → p k z = true) :
      (s.groupsOf bi).all (fun k => p k (s.group k)) = true := by
    refine List.all_eq_true.2 fun k hk => ?_
    obtain ⟨z, hz, hb, hs⟩ := mem_groupsOf.1 hk
    rw [State.group, hz]
    exact hp k z hz hb hs
  have stopped := all (fun _ z => z.hold == .stopped || z.hold == .solo) fun k z hz hb hs => by
    obtain ⟨hold, -⟩ := still k z hz hb hs
    rw [hold]; rfl
  have drained := all (fun k z => z.outst.isEmpty && z.xfers.isEmpty && s.unperf.all fun e => e.gi != k) fun k z hz hb hs => by
    obtain ⟨-, outst, xfers, performed⟩ := still k z hz hb hs
    rw [outst, xfers]
    exact List.all_eq_true.2 fun e he => bne_iff_ne.2 (performed e he)
  simp only [handlerDue, hh, placed, phase, told, stopped, beq_self_eq_true, Bool.true_and]
  exact drained

include hy frag

omit phase told placed still in
/-- A handler takes the place of the stopping fragment. -/
theorem startHandler_enters {kind : HKind} {entry : Nat}
    (enters : exec (.handlerEntry bi) s =
      .next ((startHandler s h.stopper kind (BitVec.ofNat 64 entry)).modB bi fun b => { b with halt := b.halt.map fun h => { h with phase := .handling } })) :
    ∃ t f, exec (.handlerEntry bi) s = .next t ∧ (t.block bi).halt = some { h with phase := .handling } ∧ (t.group h.stopper).frame = some (y.frag fi)
      ∧ (t.group h.stopper).frags = dropAt y.frags fi ++ [f] ∧ f.pc = BitVec.ofNat 52 (entry / 4 * 4) ∧ f.handler = some kind ∧ f.fid = y.nextFid
      ∧ f.amask = (y.frag fi).amask ∧ f.wb = (y.frag fi).wb ∧ f.fmt = (y.frag fi).fmt ∧ f.latch = (y.frag fi).latch ∧ f.inner = none
      ∧ (t.group h.stopper).regs = y.regs ∧ (t.group h.stopper).trap = y.trap ∧ t.mem = s.mem ∧ ∀ k, k ≠ h.stopper → t.groups[k]? = s.groups[k]? := by
  obtain ⟨within, rfl⟩ := List.getElem?_eq_some_iff.1 hy
  have there : bi < s.blocks.length := Nat.lt_of_not_le fun out => by
    rw [State.block, List.getElem?_eq_none out] at hh
    cases hh
  rw [startHandler_eq hy frag] at enters
  have group : (s.modG h.stopper (Group.handledAt s fi kind (BitVec.ofNat 64 entry))).group h.stopper = Group.handledAt s fi kind (BitVec.ofNat 64 entry) s.groups[h.stopper] := by
    rw [State.modG_self _ _ _ within, State.group, hy, Option.getD_some]
  have block := State.block_modB (s := s.modG h.stopper (Group.handledAt s fi kind (BitVec.ofNat 64 entry))) there fun b => { b with
    halt := b.halt.map fun h => { h with phase := .handling } }
  refine ⟨_, _, enters, ?_, (congrArg Group.frame group :), (congrArg Group.frags group :), alignPc_ofNat entry, rfl, rfl, rfl, rfl, rfl, rfl, rfl,
    (congrArg Group.regs group :), (congrArg Group.trap group :), rfl, fun k hk => (State.modG_groups ..).trans (if_neg hk)⟩
  rw [block]
  exact congrArg (Option.map _) hh

end

/-- Chovis takes a stop over: it owes a record of it (R368, R405). -/
theorem chovis_takes {s : State} {bi : Nat} {h : Halt} {y : Group} {x : Instr} (hh : (s.block bi).halt = some h) (hy : s.groups[h.stopper]? = some y)
    (takes : exec x s =
      let u := s.modB bi fun b => { b with halt := b.halt.map fun h => { h with phase := .chovis } }
      .next (if h.code = 0x0C ∨ h.code = 0x0D then oweRecord u h.stopper 3 (faultRecord u h.stopper 7 h.code 0)
        else oweRecord u h.stopper 1 (faultRecord u h.stopper 1 h.code 0))) :
    ∃ t r, exec x s = .next t ∧ (t.block bi).halt = some { h with phase := .chovis } ∧ t.groups = s.groups
      ∧ t.mem = s.mem ∧ t.chovis = s.chovis ++ [r] ∧ r.ctx = s.pasidOf y ∧ r.ring = if h.code = 0x0C ∨ h.code = 0x0D then 3 else 1 := by
  have there : bi < s.blocks.length := Nat.lt_of_not_le fun out => by
    rw [State.block, List.getElem?_eq_none out] at hh
    cases hh
  let u := s.modB bi fun b => { b with halt := b.halt.map fun h => { h with phase := .chovis } }
  have halt : (u.block bi).halt = some { h with phase := .chovis } := by
    rw [State.block_modB there]
    exact congrArg (Option.map _) hh
  have context : (u.launchOf (u.group h.stopper)).ctx = s.pasidOf y := by
    rw [show u.group h.stopper = y from (congrArg (Option.getD · {}) hy :)]
    exact congrArg Launch.ctx (launchOf_modB s bi (f := fun b => { b with halt := b.halt.map fun h => { h with phase := .chovis } }) (fun _ => rfl) y)
  by_cases debug : h.code = 0x0C ∨ h.code = 0x0D
  · exact ⟨_, _, takes.trans (congrArg _ (if_pos debug)), halt, rfl, rfl, rfl, context, (if_pos debug).symm⟩
  · exact ⟨_, _, takes.trans (congrArg _ (if_neg debug)), halt, rfl, rfl, rfl, context, (if_neg debug).symm⟩

/-! ### A return (R355) -/

theorem advanceTo_place {s : State} {g : Bool} {i : Iss} (h : Issuing s g i) (pc : BitVec 52) :
    (s.advanceTo i pc).groups[i.gi]? = some (advGroup s i pc false none i.g) := by
  rw [advanceTo_eq, h.eq.1]
  show (modAt _ _ _)[_]? = _
  rw [getElem?_modAt, if_pos rfl, State.group, List.getElem?_eq_getElem h.gi]
  rfl

theorem walkFrom_groups (s : State) (n : Nat) (gs : List Group) (held : Nat → Nat → Nat) (va : Nat) (ls : List (Nat × Nat × Nat)) (base : Nat) :
    walkFrom { s with seq := n, groups := gs } held va ls base = walkFrom s held va ls base := by
  induction ls generalizing base with
  | nil => rfl
  | cons l ls ih =>
    obtain ⟨level, low, k⟩ := l
    have entry (e : Nat) : contEntry { s with seq := n, groups := gs } base va e = contEntry s base va e := rfl
    simp only [walkFrom, entry, ih]

theorem walkWith_groups (s : State) (n : Nat) (gs : List Group) (held : Nat → Nat → Nat) (root va : Nat) :
    walkWith { s with seq := n, groups := gs } held root va = walkWith s held root va := by
  rw [walkWith, walkWith, walkFrom_groups]

theorem walkNow_groups (s : State) (n : Nat) (gs : List Group) (pasid va : Nat) : walkNow { s with seq := n, groups := gs } pasid va = walkNow s pasid va := by
  rw [walkNow, walkWith_groups]
  rfl

/-- What groups do changes no translation. -/
theorem xlate_groups (s : State) (n : Nat) (gs : List Group) (core pasid va : Nat) :
    xlate { s with seq := n, groups := gs } core pasid va = xlate s core pasid va := by
  unfold xlate
  rw [walkNow_groups]
  rfl

theorem fetchWord_groups (s : State) (n : Nat) (gs : List Group) (core pasid va : Nat) :
    fetchWord { s with seq := n, groups := gs } core pasid va = fetchWord s core pasid va := by
  have accessed : access { s with seq := n, groups := gs } core pasid va .fetch = access s core pasid va .fetch := by
    unfold access
    rw [xlate_groups]
    rfl
  unfold fetchWord
  rw [accessed]
  rfl

/-- Where a replay goes on is not touched by the issue of the return. -/
theorem replayPoint_advanceTo {s : State} {g : Bool} {i : Iss} (h : Issuing s g i) (pc : BitVec 52) (amask : Mask) :
    replayPoint (s.advanceTo i pc) i.gi amask = replayPoint s i.gi amask := by
  have group : (s.advanceTo i pc).group i.gi = advGroup s i pc false none i.g := by rw [State.group, advanceTo_place h, Option.getD_some]
  have fetched (core pasid va : Nat) : fetchWord (s.advanceTo i pc) core pasid va = fetchWord s core pasid va := by
    rw [advanceTo_eq]
    exact fetchWord_groups ..
  have context (y : Group) : (s.advanceTo i pc).pasidOf y = s.pasidOf y := by
    rw [advanceTo_eq]
    rfl
  unfold replayPoint
  simp only [group, fetched, context, ← h.eq.1]
  rfl

theorem modAt_snoc {α : Type} (xs : List α) (x : α) (f : α → α) : modAt (xs ++ [x]) xs.length f = xs ++ [f x] := by
  induction xs with
  | nil => rfl
  | cons y ys ih => rw [List.cons_append, List.length_cons, modAt, ih, List.cons_append]

theorem filter_modAt {α : Type} {p : α → Bool} {f : α → α} {xs : List α} {n : Nat} (h : ∀ x, xs[n]? = some x → p x = false ∧ p (f x) = false) :
    (modAt xs n f).filter p = xs.filter p := by
  induction xs generalizing n with
  | nil => rfl
  | cons x xs ih =>
    cases n with
    | zero =>
      obtain ⟨old, new⟩ := h x rfl
      rw [modAt, List.filter_cons, List.filter_cons, old, new]
      rfl
    | succ n => rw [modAt, List.filter_cons, List.filter_cons, ih (n := n) h]

/-- The trap frame as a fragment again; `own` are the handler's fragments, which come before it. -/
def Frag.restored (pc : BitVec 52) (replay : Option Mask) (own : List Nat) (f : Frag) : Frag :=
  { f with
    pc := pc, replay := replay, stall := none, arrival := if pc = f.pc then f.arrival else none, held := [],
    before := (f.before ++ own).eraseDups.filter (· != f.fid) }

/-- A group whose handler has ended. -/
def Group.restored (pc : BitVec 52) (replay : Option Mask) (f : Frag) (y : Group) : Group :=
  { y with
    frame := none,
    frags := y.frags.filter (fun x => x.handler.isNone) ++
      [f.restored pc replay ((y.frags.filter fun x => x.handler.isSome).flatMap fun x => x.fid :: x.before)] }

theorem restoreFrame_eq {s : State} {gi : Nat} {y : Group} {f : Frag} (hy : s.groups[gi]? = some y) (frame : y.frame = some f) (untraced : y.traced = false)
    (pc : BitVec 52) (replay : Option Mask) : restoreFrame s gi pc replay = s.modG gi (Group.restored pc replay f) := by
  obtain ⟨within, rfl⟩ := List.getElem?_eq_some_iff.1 hy
  have group : s.group gi = s.groups[gi] := by rw [State.group, hy, Option.getD_some]
  let kept := s.groups[gi].frags.filter fun x => x.handler.isNone
  let own := (s.groups[gi].frags.filter fun x => x.handler.isSome).flatMap fun x => x.fid :: x.before
  let back : Frag := { f with
    pc := pc, replay := replay, stall := none, arrival := if pc = f.pc then f.arrival else none, before := (f.before ++ own).eraseDups.filter (· != f.fid) }
  have ended : restoreFrame s gi pc replay =
      let u := s.modG gi fun _ => { s.groups[gi] with frame := none, frags := kept ++ [back] }
      traceReturn u gi ((u.group gi).frags.length - 1) pc := by
    refine congrArg (fun u : State => traceReturn u gi ((u.group gi).frags.length - 1) pc) (State.modG_congr ?_)
    rw [group, frame]
  have here := State.modG_self s gi (fun _ => { s.groups[gi] with frame := none, frags := kept ++ [back] }) within
  have quiet : ((s.modG gi fun _ => { s.groups[gi] with frame := none, frags := kept ++ [back] }).group gi).traced = false := by
    rw [here]
    exact untraced
  rw [ended]
  dsimp only
  rw [traceReturn, traceFrag_untraced quiet, here, List.length_append, List.length_singleton, Nat.add_sub_cancel, State.modF, State.modG_modG]
  refine State.modG_congr ?_
  rw [modAt_snoc, group]
  rfl

/-- A group whose handler issues its return. -/
def Group.returned (s : State) (i : Iss) (pc : BitVec 52) (replay : Option Mask) (f : Frag) (y : Group) : Group :=
  (advGroup s i i.f.pc false none y).restored pc replay f

section
variable {s : State} {g : Bool} {i : Iss} {f0 : Frag} {kind : HKind} (h : CanIssue s g [] [] [] i) (hl : i.lanes ≠ 0) (handler : i.f.handler = some kind)
  (whole : i.f.inner = none) (frame : i.g.frame = some f0) (untraced : i.g.traced = false) (unheld : i.f.held = []) (resident : i.g.state = .resident)
  (halted : i.g.hold ≠ .solo) (placed : i.g.block < s.blocks.length) (calm : ∀ y ∈ s.groups, y.block = i.g.block → y.pending = none)
include h

theorem returned_groups (pc : BitVec 52) (m : Option Mask) (k : Nat) :
    (modAt s.groups i.gi (Group.returned s i pc m f0))[k]? = if k = i.gi then some (i.g.returned s i pc m f0) else s.groups[k]? := by
  obtain ⟨hg, -⟩ := h.toIssuing.eq
  rw [getElem?_modAt]
  split
  next e => rw [e, hg, State.group, List.getElem?_eq_getElem h.gi]; rfl
  next => rfl

section
include resident placed

/-- The block runs on when its handler has returned to a PC. -/
theorem return_releases (halted : i.g.hold ≠ .solo) (calm : ∀ y ∈ s.groups, y.block = i.g.block → y.pending = none) (pc : BitVec 52) :
    let t := releaseOrReplay { s with seq := s.seq + 1, groups := modAt s.groups i.gi (Group.returned s i pc none f0) } i.g.block none
    t.group i.gi = { i.g.returned s i pc none f0 with hold := .run, skid := 0, stopFid := 0 } ∧ t.mem = s.mem ∧ (t.blockOf i.g).halt = none
      ∧ ∀ k y, k ≠ i.gi → s.groups[k]? = some y →
          t.groups[k]? = some (if y.block = i.g.block ∧ y.state ≠ .retired ∧ y.hold ≠ .solo then { y with hold := .run, skid := 0, stopFid := 0 } else y) := by
  let u : State := { s with seq := s.seq + 1, groups := modAt s.groups i.gi (Group.returned s i pc none f0) }
  have own : i.g ∈ s.groups := by
    rw [h.toIssuing.eq.1, State.group, List.getElem?_eq_getElem h.gi]
    exact List.getElem_mem h.gi
  have groups (k : Nat) : u.groups[k]? = if k = i.gi then some (i.g.returned s i pc none f0) else s.groups[k]? := returned_groups h pc none k
  have calm' : ∀ y ∈ u.groups, y.block = i.g.block → y.pending = none := by
    intro y hy hb
    obtain ⟨k, hk⟩ := List.mem_iff_getElem?.1 hy
    rw [groups] at hk
    split at hk
    · cases hk
      exact calm i.g own rfl
    · exact calm y (List.mem_of_getElem? hk) hb
  have block (t : State) (e : t.blocks = modAt s.blocks i.g.block fun b => { b with halt := none }) : (t.blockOf i.g).halt = none :=
    congrArg Block.halt (block_modAt e placed)
  have released : releaseOrReplay u i.g.block none = releaseBlock u i.g.block := rfl
  show let t := releaseOrReplay u i.g.block none; _
  rw [released, releaseBlock_eq calm']
  refine ⟨?_, rfl, block _ rfl, fun k y hk hy => ?_⟩
  · show ((releasedGroups u i.g.block)[i.gi]?).getD {} = _
    rw [getElem?_releasedGroups, groups, if_pos rfl, Option.map_some, if_pos ⟨rfl, by show i.g.state ≠ _; rw [resident]; decide⟩]
    exact Group.release_runs halted (calm i.g own rfl)
  · show (releasedGroups u i.g.block)[k]? = _
    rw [getElem?_releasedGroups, groups, if_neg hk, hy, Option.map_some]
    refine congrArg some ?_
    by_cases theirs : y.block = i.g.block ∧ y.state ≠ .retired
    · by_cases solo : y.hold = .solo
      · simp [Group.release, solo]
      · rw [if_pos theirs, if_pos ⟨theirs.1, theirs.2, solo⟩, Group.release_runs solo (calm y (List.mem_of_getElem? hy) theirs.1)]
    · rw [if_neg theirs, if_neg fun all => theirs ⟨all.1, all.2.1⟩]

/-- The block is held for the replay that its handler has left. -/
theorem return_replays (pc : BitVec 52) (m : Mask) :
    let t := releaseOrReplay { s with seq := s.seq + 1, groups := modAt s.groups i.gi (Group.returned s i pc (some m) f0) } i.g.block (some m)
    t.group i.gi = { i.g.returned s i pc (some m) f0 with skid := 0 } ∧ t.mem = s.mem
      ∧ (t.blockOf i.g).halt = (s.blockOf i.g).halt.map (fun h => { h with phase := .replaying })
      ∧ ∀ k y, k ≠ i.gi → s.groups[k]? = some y → t.groups[k]? = some (if y.block = i.g.block ∧ y.state ≠ .retired then { y with skid := 0 } else y) := by
  let u : State := { s with seq := s.seq + 1, groups := modAt s.groups i.gi (Group.returned s i pc (some m) f0) }
  let unskid (y : Group) : Group := { y with skid := 0 }
  have groups (k : Nat) : u.groups[k]? = if k = i.gi then some (i.g.returned s i pc (some m) f0) else s.groups[k]? := returned_groups h pc (some m) k
  have held : releaseOrReplay u i.g.block (some m) =
      ((u.groupsOf i.g.block).foldl (fun s k => s.modG k unskid) u).modB i.g.block fun b => { b with halt := b.halt.map fun h => { h with phase := .replaying } } := rfl
  have after (k : Nat) : ((u.groupsOf i.g.block).foldl (fun gs k => modAt gs k unskid) u.groups)[k]? =
      u.groups[k]?.map fun y => if y.block = i.g.block ∧ y.state ≠ .retired then unskid y else y := by
    rw [getElem?_foldl_modAt _ (groupsOf_nodup u i.g.block)]
    simp only [mem_groupsOf]
    cases u.groups[k]? with
    | none => simp
    | some y =>
      simp only [Option.some.injEq, exists_eq_left', Option.map_some]
      split <;> rfl
  have block (t : State) (e : t.blocks = modAt s.blocks i.g.block fun b => { b with halt := b.halt.map fun h => { h with phase := .replaying } }) :
      (t.blockOf i.g).halt = (s.blockOf i.g).halt.map fun h => { h with phase := .replaying } := by
    rw [State.blockOf, block_modAt e placed, State.blockOf, State.block, List.getElem?_eq_getElem placed]
    rfl
  show let t := releaseOrReplay u i.g.block (some m); _
  rw [held, foldl_modG]
  refine ⟨?_, rfl, block _ rfl, fun k y hk hy => ?_⟩
  · show ((List.foldl (fun gs k => modAt gs k unskid) u.groups (u.groupsOf i.g.block))[i.gi]?).getD {} = _
    rw [after, groups, if_pos rfl, Option.map_some, if_pos ⟨rfl, by show i.g.state ≠ _; rw [resident]; decide⟩]
    rfl
  · show (List.foldl (fun gs k => modAt gs k unskid) u.groups (u.groupsOf i.g.block))[k]? = _
    rw [after, groups, if_neg hk, hy]
    rfl

end

include handler

theorem returned_frags (pc : BitVec 52) (replay : Option Mask) :
    ∃ own, (i.g.returned s i pc replay f0).frags = i.g.frags.filter (fun f => f.handler.isNone) ++ [f0.restored pc replay own] := by
  obtain ⟨-, hf, -⟩ := h.toIssuing.eq
  refine ⟨_, congrArg (· ++ _) (filter_modAt fun x hx => ?_)⟩
  have own : x = i.f := by rw [hf, Group.frag, hx, Option.getD_some]
  obtain ⟨_, _, _, _, e⟩ := Frag.detect_eq x i.f.pc (false || (s.group i.gi).differs i.g i.lanes) none
  rw [advFrag, e, own, handler]
  exact ⟨rfl, rfl⟩

include hl whole frame untraced unheld

omit hl in
/-- A return is issued: its handler ends. -/
theorem returnOp_eq (fn : BitVec 4) (replay : Bool) :
    let u := s.advanceTo i i.f.pc
    let e := if replay then replayPoint u i.gi f0.amask else (i.g.trap.pc, none)
    returnOp s i kind g fn replay =
      releaseOrReplay { s with seq := s.seq + 1, groups := modAt s.groups i.gi (Group.returned s i e.1 e.2 f0) } i.g.block e.2 := by
  intro u e
  obtain ⟨-, hf, -⟩ := h.toIssuing.eq
  have issued : u = { s with seq := s.seq + 1, groups := modAt s.groups i.gi (advGroup s i i.f.pc false none) } := advanceTo_eq ..
  have place' : u.groups[i.gi]? = some (advGroup s i i.f.pc false none i.g) := advanceTo_place h.toIssuing i.f.pc
  have group : u.group i.gi = advGroup s i i.f.pc false none i.g := by rw [State.group, place', Option.getD_some]
  have quiet : ((u.group i.gi).frag i.fi).held = [] := by
    obtain ⟨_, _, _, _, d⟩ := Frag.detect_eq i.f i.f.pc (false || (s.group i.gi).differs i.g i.lanes) none
    have frag : (u.group i.gi).frag i.fi = advFrag s i i.f.pc false none i.f := by
      rw [group, Group.frag, advGroup, getElem?_modAt, if_pos rfl, List.getElem?_eq_getElem h.fi, hf, Group.frag, List.getElem?_eq_getElem h.fi]
      rfl
    rw [frag, advFrag, d]
    exact unheld
  have ends (pc : BitVec 52) (m : Option Mask) : returnFromStop u i.gi pc m =
      releaseOrReplay { s with seq := s.seq + 1, groups := modAt s.groups i.gi (Group.returned s i pc m f0) } i.g.block m := by
    rw [returnFromStop, restoreFrame_eq place' frame untraced, group, issued, State.modG]
    dsimp only
    rw [modAt_modAt]
    rfl
  unfold returnOp
  rw [if_neg (by rw [handler]; simp), if_neg (by rw [whole]; decide)]
  dsimp only
  rw [show s.advanceTo i i.f.pc = u from rfl, State.flushCond_of_held_nil quiet]
  cases replay with
  | false =>
    rw [if_neg (by decide), ends, group]
    rfl
  | true => 
    have amask : ((advGroup s i i.f.pc false none i.g).frame.map (·.amask)).getD 0 = f0.amask :=
      congrArg (fun o : Option Frag => (o.map (·.amask)).getD 0) frame
    rw [if_pos rfl, ends, group, amask]
    rfl

end

/-! ### Liveness points (R357, R358) -/

/-- A live map takes no part in an issue. -/
theorem Frag.detect_map (f : Frag) (pc : BitVec 52) (noisy : Bool) (m : Option LiveMap) :
    ({ f with map := m } : Frag).detect pc noisy none = { f.detect pc noisy none with map := m } := by
  cases noisy <;> rfl

/-- A liveness point notes its map and goes on. -/
theorem livePoint_went {s : State} {g : Bool} {i : Iss} (h : Issuing s g i) (m : LiveMap) :
    Went s ((s.advance i 8).modF i.gi i.fi fun f => { f with map := some m }) i { i.f with map := some m } (i.f.pc + 8) i.g.lane i.preds := by
  have differs : ((s.modF i.gi i.fi fun f => { f with map := some m }).group i.gi).differs i.g i.lanes = (s.group i.gi).differs i.g i.lanes := by
    rw [State.modF, State.modG_self _ _ _ h.gi]
    rfl
  have swap : (s.advance i 8).modF i.gi i.fi (fun f => { f with map := some m }) = (s.modF i.gi i.fi fun f => { f with map := some m }).advance i 8 := by
    rw [State.advance, State.advance, advanceTo_eq, advanceTo_eq]
    simp only [State.modF, State.modG, modAt_modAt, advGroup]
    refine congrArg (fun f => { s with seq := s.seq + 1, groups := modAt s.groups i.gi f }) (funext fun y => ?_)
    have issue (f : Frag) : ({ advFrag s i (i.f.pc + 8) false none f with map := some m } : Frag)
        = advFrag (s.modF i.gi i.fi fun f => { f with map := some m }) i (i.f.pc + 8) false none { f with map := some m } := by
      rw [advFrag, advFrag, differs, Frag.detect_map f i.f.pc _ (some m)]
      rfl
    exact congrArg (fun u => ({ y with
      issued := y.issued + 1, skid := (if y.hold == .skid then y.skid + 1 else y.skid), issuedNow := some i.f.pc, frags := modAt y.frags i.fi u } : Group)) (funext issue)
  rw [swap]
  exact modF_went h _ 8

/-- With a pre-emption pending the group stands still behind the point (R358). -/
theorem livePoint_stands {s : State} {g : Bool} {i : Iss} (h : Issuing s g i) (m : LiveMap) :
    let u := ((s.advance i 8).modF i.gi i.fi fun f => { f with map := some m }).standStill i.gi
    (u.group i.gi).quiesced = true ∧ ((u.group i.gi).frag i.fi).pc = i.f.pc + 8 ∧ ((u.group i.gi).frag i.fi).map = some m ∧ (u.group i.gi).regs = i.g.regs
      ∧ u.mem = s.mem := by
  let point (f : Frag) : Frag := { f with map := some m }
  let v := (s.advance i 8).modF i.gi i.fi point
  let y := advGroup s i (i.f.pc + 8) false none i.g
  have place : v.groups[i.gi]? = some { y with frags := modAt y.frags i.fi point } := by
    show ((s.advance i 8).modG i.gi _).groups[i.gi]? = _
    rw [State.modG_groups, if_pos rfl, State.advance, advanceTo_place h]
    rfl
  have frag : (modAt y.frags i.fi point)[i.fi]? = some (point (advFrag s i (i.f.pc + 8) false none i.f)) := by
    show (modAt (modAt i.g.frags _ _) _ _)[_]? = _
    rw [getElem?_modAt, if_pos rfl, getElem?_modAt, if_pos rfl, List.getElem?_eq_getElem h.fi, h.eq.2.1, Group.frag, List.getElem?_eq_getElem h.fi]
    rfl
  obtain ⟨ts, n, flushed⟩ := v.flushGroup_eq i.gi
  have stands : (v.standStill i.gi).group i.gi = { y with frags := (modAt y.frags i.fi point).map Frag.unheld, quiesced := true } := by
    rw [State.standStill, flushed, State.modG_modG, State.group, State.modG_groups, if_pos rfl]
    show (Option.map _ v.groups[i.gi]?).getD ({} : Group) = _
    rw [place]
    rfl
  have issued : ((v.standStill i.gi).group i.gi).frag i.fi = (point (advFrag s i (i.f.pc + 8) false none i.f)).unheld := by
    rw [Group.frag, stands, List.getElem?_map, frag]
    rfl
  have mem : (v.standStill i.gi).mem = s.mem := by
    rw [State.standStill, flushed]
    rfl
  intro u
  exact ⟨(congrArg Group.quiesced stands :), (congrArg Frag.pc issued :), (congrArg Frag.map issued :), (congrArg Group.regs stands :), mem⟩

/-- Settles O48: a sibling's stop, `startHandler_enters`, the two kinds of return and the liveness points. -/
theorem handlersEnterAndReturn : Obligations.HandlersEnterAndReturn := by
  unfold Obligations.HandlersEnterAndReturn
  intro Enters Returns inHandler
  have returns {x : Instr} {s : State} {g : Bool} {i : Iss} {f0 : Frag} {kind : HKind} {pc : BitVec 52} (fn : BitVec 4) (replay : Bool) (m : Option Mask)
      (hin : inHandler s g i f0 kind) (runs : exec x s = .next (returnOp s i kind g fn replay))
      (goes : (if replay then replayPoint (s.advanceTo i i.f.pc) i.gi f0.amask else (i.g.trap.pc, none)) = (pc, m)) : Returns s x i f0 pc m := by
    obtain ⟨h, hl, handler, whole, frame, untraced, unheld, resident, halted, placed, calm⟩ := hin
    have ended := returnOp_eq h handler whole frame untraced unheld fn replay
    dsimp only at ended
    rw [goes] at ended
    rw [ended] at runs
    obtain ⟨own, frags⟩ := returned_frags h handler (f0 := f0) pc m
    cases m with
    | none =>
      obtain ⟨group, mem, block, others⟩ := return_releases (f0 := f0) h resident placed halted calm pc
      refine ⟨_, f0.restored pc none own, runs, by rw [group]; rfl, by rw [group]; exact frags, rfl, rfl, rfl, rfl, rfl, rfl, rfl, rfl, rfl, by rw [group]; rfl,
        by rw [group]; rfl, mem, block, by rw [group], others⟩
    | some m =>
      obtain ⟨group, mem, block, others⟩ := return_replays (f0 := f0) h resident placed pc m
      refine ⟨_, f0.restored pc (some m) own, runs, by rw [group]; rfl, by rw [group]; exact frags, rfl, rfl, rfl, rfl, rfl, rfl, rfl, rfl, rfl, by rw [group]; rfl,
        by rw [group]; rfl, mem, block, by rw [group]; rfl, others⟩
  refine ⟨fun gi s y h hy hh skid => siblingStop_stands hy hh skid, fun bi s h y fi hh phase told placed hy frag still => ?_, fun g s i f0 hin => ?_,
    fun g s i f0 hin => ?_, fun g s i f0 hin => ⟨fun some_left => ?_, fun none_left w hw => ?_⟩, fun g mh mm ml t r mt s i h hl => ⟨?_, fun calm => ?_, fun asked => ?_⟩⟩
  case refine_1 =>
    have due := handlerDue_of_still hh phase told placed still
    have group : s.group h.stopper = y := by rw [State.group, hy, Option.getD_some]
    have enters : exec (.handlerEntry bi) s = execHandlerEntry bi s := rfl
    simp only [execHandlerEntry, due, hh, group, Bool.not_true, Bool.false_eq_true, if_false] at enters
    refine ⟨fun user => ?_, fun system => ?_, fun chovis call => ?_⟩
    · rw [user] at enters
      exact startHandler_enters hh hy frag enters
    · rw [system] at enters
      exact startHandler_enters hh hy frag enters
    · rw [chovis] at enters
      simp only [call, if_false] at enters
      exact chovis_takes hh hy enters
  case refine_2 =>
    obtain ⟨h, hl, handler, -⟩ := id hin
    refine returns 3 false none hin ?_ rfl
    refine (withRight_granted h.toIssuing (Iss.system_of_handler handler) 3 _).trans ((withOperands_next h _).trans (congrArg _ (once_active hl 4 _)))
  case refine_3 =>
    obtain ⟨h, hl, -⟩ := id hin
    exact returns 5 false none hin ((withOperands_next h _).trans (congrArg _ (once_active hl 4 _))) rfl
  case refine_4 =>
    obtain ⟨h, hl, handler, -⟩ := id hin
    refine returns 4 true _ hin
      ((withRight_granted h.toIssuing (Iss.system_of_handler handler) 3 _).trans ((withOperands_next h _).trans (congrArg _ (once_active hl 4 _)))) ?_
    rw [if_pos rfl, replayPoint_advanceTo h.toIssuing, replayPoint, ← h.toIssuing.eq.1]
    exact if_pos some_left
  case refine_5 =>
    obtain ⟨h, hl, handler, -⟩ := id hin
    refine returns 4 true _ hin
      ((withRight_granted h.toIssuing (Iss.system_of_handler handler) 3 _).trans ((withOperands_next h _).trans (congrArg _ (once_active hl 4 _)))) ?_
    rw [if_pos rfl, replayPoint_advanceTo h.toIssuing, replayPoint, ← h.toIssuing.eq.1]
    refine (if_neg (not_not.2 none_left)).trans ?_
    rw [hw]
  case refine_6 => exact ⟨_, (withOperands_next h _).trans (congrArg _ (once_active hl 8 _)), livePoint_went h.toIssuing _⟩
  case refine_7 =>
    refine ⟨_, (withOperands_next h _).trans (congrArg _ ((once_active hl 8 _).trans ?_)), livePoint_went h.toIssuing _⟩
    rw [calm]
    rfl
  case refine_8 =>
    refine ⟨_, (withOperands_next h _).trans (congrArg _ ((once_active hl 8 _).trans ?_)), livePoint_stands h.toIssuing _⟩
    exact if_pos (Option.isSome_iff_ne_none.2 asked)

end Sys2Proof.Machine
end

section
/-! PROOFS. Trace instructions and the trace unit (O50): a resynchronisation's SYNC tells the cycle's start, not the time of the step that takes it. -/

namespace Sys2Proof.Machine

open Sys2Proof

/-- Cluster 0 owes context 1 the SYNC of a resynchronisation; at 1 ns, its cycle began 1 ps ago, before the clock stepped to 1 ns. -/
def midCycleResync : State :=
  { time := 1, clock := List.replicate 16 1800, phase := List.replicate 16 1800, traces := List.replicate 16 { resync := some (1, 0, [1]) } }

/-- The SYNC that the cluster writes: its time is that of the cycle's start, 0 ns (R375). -/
def midCycleSync : Packet := { pasid := 1, ty := 0x0C, cyc := 0, payload := leBytes 8 0 ++ leBytes 8 0, clk := 1800 }

theorem midCycleResync_writes :
    exec (.traceLossResync 0) midCycleResync
      = .next { midCycleResync with traces := setAt midCycleResync.traces 0 { resync := some (2, 1, [1]), buf := [midCycleSync], entered := 1 } } := by
  rfl

/-- Refutes O50: the SYNC of a resynchronisation carries the time at which its cycle began (as R375 has every SYNC do), and the clause on its second
cycle asks for the time of the step: in a cycle that began in the nanosecond before, they differ. -/
theorem not_traceAndProfile : ¬ Obligations.TraceAndProfile := by
  unfold Obligations.TraceAndProfile
  intro h
  obtain ⟨-, -, -, -, -, -, -, -, -, resynced, -⟩ := h
  obtain ⟨t, a, runs, -, -, wrote, -, -, -, payload⟩ := (resynced 0 midCycleResync 1 (by decide)).2.1 0 rfl (by decide) (by decide)
  obtain rfl := Host.Outcome.next.inj (midCycleResync_writes.symm.trans runs)
  obtain rfl : midCycleSync = a := List.singleton_injective wrote
  exact absurd payload (by decide)

end Sys2Proof.Machine
end

section
/-! PROOFS. Driver commands and the watchdogs (O53): the trap registers that a watchdog writes hold a PC with bits [1:0] at zero, whatever the fragment's own. -/

namespace Sys2Proof.Machine

open Sys2Proof

/-- A group whose fragment, at PC 1, has stayed in an external wait since time 0. -/
def lateGroup : Group := { frags := [{ pc := 1, waitFrom := some 0 }] }

/-- Context 0 runs the group as a block of its own, and its XTMO of 1 ms is over. -/
def lateWait : State := { time := 1000000, ctxs := [{ xtmo := 1 }], launches := [{}], blocks := [{}], groups := [lateGroup] }

theorem lateWait_expires : exec (.xtmoExpire 0) lateWait = .next (wdogStop lateWait 0 4) := by
  rfl

/-- The watchdog's trap registers of a fragment at PC 1 read back as PC 0 (R62). -/
theorem lateWait_trapPc : ((wdogStop lateWait 0 4).group 0).trap.pc = 0 := by
  rfl

/-- Refutes O53: the statement has the PC in a watchdog's trap registers equal that of the group's lowest fragment in every state, but those registers keep a PC's
bits [1:0] at zero (R62), and the state of this counterexample holds a fragment at PC 1. The device makes no such PC; the statement does not exclude it. -/
theorem not_driverCommands : ¬ Obligations.DriverCommands := by
  unfold Obligations.DriverCommands
  intro h
  obtain ⟨-, -, -, -, -, -, -, -, -, -, -, -, -, -, -, -, -, -, -, -, -, expires⟩ := h
  obtain ⟨t, runs, -, -, ⟨-, -, -, -, -, -, lowest⟩, -⟩ := expires 0 lateWait lateGroup (by decide) rfl (by decide) (by decide) (by decide)
  obtain rfl := Host.Outcome.next.inj (lateWait_expires.symm.trans runs)
  obtain ⟨f, mem, pc, -⟩ := lowest (List.cons_ne_nil _ _)
  obtain rfl := List.mem_singleton.mp mem
  exact absurd (lateWait_trapPc.symm.trans pc) (by decide)

end Sys2Proof.Machine
end

section
/-! PROOFS. The device (O54): boot states, the management window, the link, fatal errors, power and clocks (chapter 19, 1.6, 17.6). -/

namespace Sys2Proof.Machine

open Sys2Proof

/-! ### Device events and boot states (R413, R423, R424) -/

/-- The message of a device event (R413). -/
def eventMsg (n : Nat) : Msg := .int (BitVec.ofNat 32 (3 * 2 ^ 28 + n * 2 ^ 20))

theorem deviceEvent_eq {n : Nat} (s : State) (h : n < 256) : deviceEvent s n = { s with outbox := eventMsg n :: s.outbox } := by
  have word : 3 % 4 * 2 ^ 28 + n % 256 * 2 ^ 20 + 0 % 2 ^ 20 = 3 * 2 ^ 28 + n * 2 ^ 20 := by omega
  rw [deviceEvent, State.interrupt, word, eventMsg]

theorem enterBoot_eq (s : State) (b : Boot) (e : Nat) :
    enterBoot s b e = { s with mgmt := { s.mgmt with boot := b, err := BitVec.ofNat 8 e }, outbox := eventMsg 0 :: s.outbox } :=
  deviceEvent_eq _ (by decide)

/-- What the device draws among n stays below n, and of the state only the count of draws goes on. -/
theorem chooseOf_lt (s : State) {n : Nat} (h : 0 < n) : ∃ d k, s.chooseOf n = ({ s with draws := d }, k) ∧ k < n := by
  by_cases one : n ≤ 1
  · exact ⟨s.draws, 0, if_pos one, h⟩
  · exact ⟨_, _, if_neg one, Nat.mod_lt _ h⟩

/-- A draw changes the count of draws alone. -/
theorem chooseOf_eq (s : State) (n : Nat) : ∃ d k, s.chooseOf n = ({ s with draws := d }, k) := by
  rw [State.chooseOf]
  split
  · exact ⟨_, _, rfl⟩
  · exact ⟨_, _, rfl⟩

/-- The part of a memory from a bound on. -/
theorem Mem.get_filter {m : Mem} {lo : Nat} (h : m.wf = true) (a : Nat) :
    Mem.get (m.filter fun c => decide (lo ≤ c.1)) a = if lo ≤ a then m.get a else 0 := by
  have above : ∀ (m : Mem) (n : Nat), Mem.wfFrom n m = true → Mem.get (m.filter fun c => decide (lo ≤ c.1)) a = if lo ≤ a then m.get a else 0 := by
    intro m
    induction m with
    | nil => intro n _; simp [Mem.get]
    | cons c m ih =>
      intro n hw
      obtain ⟨k, b⟩ := c
      simp only [Mem.wfFrom, Bool.and_eq_true, decide_eq_true_eq] at hw
      have rest := ih _ hw.2
      by_cases hk : lo ≤ k
      · rw [List.filter_cons_of_pos (by simpa using hk), Mem.get, Mem.get, rest]
        split_ifs <;> first | rfl | omega
      · rw [List.filter_cons_of_neg (by simpa using hk), rest, Mem.get]
        split_ifs with ha he hl
        · omega
        · rw [Mem.get_of_lt m _ a hw.2 (by omega)]
        · rfl
        · rfl
  exact above m 0 h

theorem exec_powerOn_reset {s : State} (h : s.mgmt.boot = .reset) :
    exec .powerOn s = .next { s with mgmt := { s.mgmt with boot := .rom, err := BitVec.ofNat 8 0 }, outbox := eventMsg 0 :: s.outbox } := by
  rw [← enterBoot_eq]
  exact congrArg Host.Outcome.next (if_pos h)

/-- Power-on outside RESET: local DRAM loses its contents. -/
theorem exec_powerOn {s : State} (h : s.mgmt.boot ≠ .reset) :
    exec .powerOn s = .next { resetDevice s (2 ^ 37) with outbox := eventMsg 0 :: s.outbox } :=
  congrArg Host.Outcome.next ((if_neg h).trans (deviceEvent_eq _ (by decide)))

theorem exec_rom {s : State} (h : s.mgmt.boot = .rom) :
    exec .rom s = .next (if s.flashLen < 3840 then { s with mgmt := { s.mgmt with boot := .hold, err := BitVec.ofNat 8 1 }, outbox := eventMsg 0 :: s.outbox }
      else { s with mgmt := { s.mgmt with boot := .verify, err := BitVec.ofNat 8 0 }, outbox := eventMsg 0 :: s.outbox }) := by
  rw [← enterBoot_eq, ← enterBoot_eq]
  exact congrArg Host.Outcome.next (if_neg (not_not_intro h))

theorem exec_verify_open {s : State} (h : s.mgmt.boot = .verify) (cut : s.flashOpen = true) :
    ∃ t, exec .verify s = .next t ∧ t.mgmt.boot = .hold ∧ 2 ≤ t.mgmt.err.toNat ∧ t.mgmt.err.toNat ≤ 6 := by
  obtain ⟨d, k, chosen, small⟩ := chooseOf_lt s (n := 5) (by decide)
  have small8 : (2 + k) % 2 ^ 8 = 2 + k := Nat.mod_eq_of_lt (by omega)
  have run : exec .verify s = .next (enterBoot (s.chooseOf 5).1 .hold (2 + (s.chooseOf 5).2)) :=
    congrArg Host.Outcome.next ((if_neg (not_not_intro h)).trans (if_pos cut))
  rw [chosen, enterBoot_eq] at run
  refine ⟨_, run, rfl, ?_⟩
  show 2 ≤ (BitVec.ofNat 8 (2 + k)).toNat ∧ (BitVec.ofNat 8 (2 + k)).toNat ≤ 6
  rw [BitVec.toNat_ofNat, small8]
  omega

theorem exec_verify {s : State} (h : s.mgmt.boot = .verify) (whole : s.flashOpen = false) :
    exec .verify s = .next (if imageError s.flash (s.flashLen - 3840) s.fuseSvn.toNat = 0 then enterBoot (runImage s s.flash) .fwinit 0
      else enterBoot s .hold (imageError s.flash (s.flashLen - 3840) s.fuseSvn.toNat)) :=
  congrArg Host.Outcome.next ((if_neg (not_not_intro h)).trans (if_neg (by simp [whole])))

/-- An image passes when each check of R424 does. -/
theorem imageError_eq_zero (m : Mem) (room svn : Nat) : imageError m room svn = 0 ↔
    m.le 0 4 = 0x4D495753 ∧ svn ≤ m.le 4 4 ∧ m.le 8 4 ≤ room ∧ m.le 12 4 < m.le 8 4 ∧ (∀ b ∈ m.read 16 48, b = 0) ∧ (∀ b ∈ m.read 3796 44, b = 0)
      ∧ Config.sha3 (m.read 64 1312) = Config.fuseKeyHash
      ∧ Config.mldsaVerify (m.read 64 1312) (m.read 0 64 ++ m.read 3840 (m.le 8 4)) (m.read 1376 2420) = true := by
  have header : (m.le 0 4 != 0x4D495753 || (m.read 16 48).any (· != 0) || (m.read 3796 44).any (· != 0) || decide (m.le 8 4 ≤ m.le 12 4)) = false ↔
      m.le 0 4 = 0x4D495753 ∧ (∀ b ∈ m.read 16 48, b = 0) ∧ (∀ b ∈ m.read 3796 44, b = 0) ∧ m.le 12 4 < m.le 8 4 := by
    simp only [Bool.or_eq_false_iff, bne_eq_false_iff_eq, List.any_eq_false, bne_iff_ne, ne_eq, not_not, decide_eq_false_iff_not, not_le, and_assoc]
  dsimp only [imageError]
  simp only [← Bool.not_eq_true] at header
  split_ifs with h1 h2 h3 h4 h5
  all_goals first
    | (refine iff_of_false (by decide) fun ⟨a, b, c, d, e, f, g, k⟩ => ?_)
    | (refine iff_of_true rfl ?_)
  · exact header.2 ⟨a, e, f, d⟩ h1
  · exact h2 g
  · omega
  · exact absurd k (by simpa using h4)
  · omega
  · obtain ⟨a, e, f, d⟩ := header.1 h1
    exact ⟨a, by omega, by omega, d, e, f, not_not.1 h2, by simpa using h4⟩

/-- FWINIT ends in READY, or in HOLD when training or the firmware fails. -/
theorem exec_fwinit {s : State} (h : s.mgmt.boot = .fwinit) : ∃ t, exec .fwinit s = .next t ∧ t.mem = s.mem ∧ t.outbox = eventMsg 0 :: s.outbox
    ∧ ((t.mgmt.boot = .ready ∧ t.mgmt.err = 0 ∧ t.fuseSvn = (if s.fuseSvn.toNat < s.mgmt.svn.toNat then s.mgmt.svn else s.fuseSvn))
        ∨ (t.mgmt.boot = .hold ∧ (t.mgmt.err = 7 ∨ t.mgmt.err = 8) ∧ t.fuseSvn = s.fuseSvn)) := by
  obtain ⟨d, k, chosen, -⟩ := chooseOf_lt { s with mailbox := [] } (n := 3) (by decide)
  have run : exec .fwinit s = .next (match State.chooseOf { s with mailbox := [] } 3 with
      | (s, k) => if k = 1 then enterBoot s .hold 7 else if k = 2 then enterBoot s .hold 8 else
        let s := s.setMgmt fun m => { m with identity := true }
        enterBoot { s with fuseSvn := if s.fuseSvn.toNat < s.mgmt.svn.toNat then s.mgmt.svn else s.fuseSvn } .ready 0) :=
    congrArg Host.Outcome.next (if_neg (not_not_intro h))
  rw [chosen] at run
  dsimp only at run
  by_cases training : k = 1
  · rw [if_pos training, enterBoot_eq] at run
    exact ⟨_, run, rfl, rfl, .inr ⟨rfl, .inl rfl, rfl⟩⟩
  rw [if_neg training] at run
  by_cases firmware : k = 2
  · rw [if_pos firmware, enterBoot_eq] at run
    exact ⟨_, run, rfl, rfl, .inr ⟨rfl, .inr rfl, rfl⟩⟩
  rw [if_neg firmware, enterBoot_eq] at run
  exact ⟨_, run, rfl, rfl, .inl ⟨rfl, rfl, rfl⟩⟩

/-! ### The management window (R425 to R427, Table 19-4) -/

theorem exec_drvring (v : BitVec 64) (s : State) : exec (.drvring v) s
    = .next (if s.mgmt.boot = .ready then { s with mgmt := { s.mgmt with drvring := v &&& 0xFF0FFFFFFFFFFFFF }, drvNext := 0 } else s) :=
  congrArg Host.Outcome.next (ite_not ..)

/-- CTL resets the device, with its key and bit 0, and does nothing else. -/
theorem exec_ctl (v : Word64) (s : State) : exec (.ctl v) s
    = .next (if v.toNat / 2 ^ 48 = 0xA5C3 ∧ v.getLsbD 0 = true then { resetDevice s 0 with outbox := eventMsg 0 :: s.outbox } else s) := by
  have key : bitsOf v.toNat 63 48 = v.toNat / 2 ^ 48 := Nat.mod_eq_of_lt (by have := v.isLt; omega)
  have run : exec (.ctl v) s = .next (if bitsOf v.toNat 63 48 = 0xA5C3 ∧ v.getLsbD 0 = true then deviceEvent (resetDevice s 0) 0 else s) := rfl
  rw [run, key, deviceEvent_eq _ (by decide)]
  rfl

theorem mgmtReach_running {s : State} (h : s.mgmt.boot ≠ .hold) (off : Nat) : mgmtReach s off = true := by
  simp [mgmtReach, h]

theorem exec_invalCtl (v : BitVec 64) {s : State} (h : s.mgmt.boot ≠ .hold) :
    let m := { s.mgmt with invalAll := v.getLsbD 24, invalPasid := v.truncate 20 }
    exec (.invalCtl v) s = .next { s with mgmt :=
      if s.mgmt.invalBusy = true ∨ v.getLsbD 32 = false then m
      else { m with invalBusy := true, invalAt := m.invalVa, invalAtAll := m.invalAll, invalAtPasid := m.invalPasid } } := by
  intro m
  have run : exec (.invalCtl v) s = .next (s.setMgmt fun _ => if m.invalBusy || !v.getLsbD 32 then m
      else { m with invalBusy := true, invalAt := m.invalVa, invalAtAll := m.invalAll, invalAtPasid := m.invalPasid }) :=
    congrArg Host.Outcome.next (if_neg (by simp [mgmtReach_running h]))
  have busy : (m.invalBusy || !v.getLsbD 32) = true ↔ s.mgmt.invalBusy = true ∨ v.getLsbD 32 = false := by
    rw [Bool.or_eq_true, Bool.not_eq_true']
  rw [run, if_congr busy rfl rfl]
  rfl

/-- A page is in the range that is invalidated. -/
theorem invalHits_iff (m : Mgmt) (vpn : Nat) : invalHits m vpn = true ↔
    m.invalAtAll = true ∨ (m.invalAt.toNat % 2 ^ 52 / 2 ^ 12 ≤ vpn ∧ vpn < m.invalAt.toNat % 2 ^ 52 / 2 ^ 12 + 2 ^ (m.invalAt.toNat % 64)) := by
  have first : bitsOf m.invalAt.toNat 51 12 = m.invalAt.toNat % 2 ^ 52 / 2 ^ 12 := by
    unfold bitsOf
    omega
  have size : bitsOf m.invalAt.toNat 5 0 = m.invalAt.toNat % 64 := by
    unfold bitsOf
    omega
  rw [invalHits, first, size, Bool.or_eq_true, Bool.and_eq_true, decide_eq_true_eq, decide_eq_true_eq]

/-- An invalidation that no watched word lies in drops the translations of its range. -/
theorem exec_invalidationComplete {s : State} (due : invalDue s = true) (unwatched : ∀ w ∈ s.woas, woaHits s w = false) :
    exec .invalidationComplete s = .next { s with
      tlb := s.tlb.filter fun t => !(t.pasid == s.mgmt.invalAtPasid.toNat && invalHits s.mgmt t.vpn),
      tlb2 := s.tlb2.filter fun t => !(t.pasid == s.mgmt.invalAtPasid.toNat && invalHits s.mgmt t.vpn),
      walks := s.walks.filter fun w => !(w.pasid == s.mgmt.invalAtPasid.toNat && walkHits s.mgmt w), mgmt := { s.mgmt with invalBusy := false } } := by
  have none_hit : s.woas.filter (woaHits s) = [] := List.filter_eq_nil_iff.2 fun w hw => by simp [unwatched w hw]
  have run : exec .invalidationComplete s = .next ((s.woas.filter (woaHits s)).foldl rewatch { s with
      tlb := s.tlb.filter fun t => !(t.pasid == s.mgmt.invalAtPasid.toNat && invalHits s.mgmt t.vpn),
      tlb2 := s.tlb2.filter fun t => !(t.pasid == s.mgmt.invalAtPasid.toNat && invalHits s.mgmt t.vpn),
      walks := s.walks.filter fun w => !(w.pasid == s.mgmt.invalAtPasid.toNat && walkHits s.mgmt w), mgmt := { s.mgmt with invalBusy := false } }) :=
    congrArg Host.Outcome.next (if_neg (by simp [due]))
  rw [run, none_hit]
  rfl

theorem exec_fresp {v : Word64} {s : State} (h : s.mgmt.boot ≠ .hold) :
    ∃ t, exec (.fresp v) s = .next t ∧ t = { s with xfaults := t.xfaults }
      ∧ (v.getLsbD 63 = false → ∀ x, x ∈ t.xfaults ↔ x ∈ s.xfaults ∧ (x.token ≠ v.truncate 32 ∨ x.failed = true))
      ∧ (v.getLsbD 63 = true → ∀ x ∈ t.xfaults, x.token = v.truncate 32 → x.failed = true) := by
  have run : exec (.fresp v) s = .next (if v.getLsbD 63 then
        dropFailed { s with xfaults := s.xfaults.map fun x => if x.token = v.truncate 32 then { x with failed := true } else x }
      else { s with xfaults := s.xfaults.filter fun x => x.token != v.truncate 32 || x.failed }) :=
    congrArg Host.Outcome.next (if_neg (by simp [mgmtReach_running h]))
  cases fails : v.getLsbD 63 with
  | false =>
    rw [fails] at run
    exact ⟨_, run, rfl, fun _ x => by simp [List.mem_filter], nofun⟩
  | true =>
    rw [fails] at run
    refine ⟨_, run, rfl, nofun, fun _ x hx token => ?_⟩
    obtain ⟨y, -, rfl⟩ := List.mem_map.1 (List.mem_filter.1 hx).1
    split at token
    · rw [if_pos ‹_›]
    · exact absurd token ‹_›

theorem exec_power {v : Word64} {s : State} (h : s.mgmt.boot ≠ .hold) : exec (.power v) s
    = .next (if 120 ≤ v.toNat % 512 ∧ v.toNat % 512 ≤ 320 then { s with mgmt := { s.mgmt with power := BitVec.ofNat 9 (v.toNat % 512) } } else s) := by
  have watts : bitsOf v.toNat 8 0 = v.toNat % 512 := by
    unfold bitsOf
    omega
  have run : exec (.power v) s = .next (if bitsOf v.toNat 8 0 < 120 ∨ 320 < bitsOf v.toNat 8 0 ∨ !mgmtReach s 0x60 then s
      else s.setMgmt fun m => { m with power := BitVec.ofNat 9 (bitsOf v.toNat 8 0) }) := rfl
  have outside : (v.toNat % 512 < 120 ∨ 320 < v.toNat % 512 ∨ (!mgmtReach s 0x60) = true) ↔ ¬ (120 ≤ v.toNat % 512 ∧ v.toNat % 512 ≤ 320) := by
    rw [mgmtReach_running h]
    simp only [Bool.not_true, Bool.false_eq_true, or_false]
    omega
  rw [run, watts, if_congr outside rfl rfl, ite_not]
  rfl

theorem exec_mgmtRegisterWrite_invalVa {v : Word64} {s : State} (h : s.mgmt.boot ≠ .hold) :
    exec (.mgmtRegisterWrite 0x28 v) s = .next { s with mgmt := { s.mgmt with invalVa := v &&& 0x000FFFFFFFFFF03F } } :=
  congrArg Host.Outcome.next (if_neg (by simp [mgmtReach_running h]))

theorem exec_mgmtRegisterWrite_peerWin {v : Word64} {s : State} (h : s.mgmt.boot ≠ .hold) :
    exec (.mgmtRegisterWrite 0x58 v) s = .next { s with mgmt := { s.mgmt with peerWin := v &&& 0x0000FFFFFFE0003F } } :=
  congrArg Host.Outcome.next (if_neg (by simp [mgmtReach_running h]))

theorem exec_mgmtRegisterWrite_mailbox {off : Nat} (v : Word64) (s : State) (aligned : off % 8 = 0) (lo : 0x80000 ≤ off) (hi : off < 0x100000) :
    exec (.mgmtRegisterWrite off v) s = .next { s with mailbox := s.mailbox.write (off - 0x80000) (leBytes 8 v.toNat) } := by
  have reach : mgmtReach s off = true := by
    simp [mgmtReach, holdReach, lo]
  have run : exec (.mgmtRegisterWrite off v) s = .next (if !mgmtReach s off || off % 8 != 0 then s else
      if 0x80000 ≤ off then (if off + 8 ≤ 0x100000 then { s with mailbox := s.mailbox.write (off - 0x80000) (leBytes 8 v.toNat) } else s) else _) := rfl
  rw [run, if_neg (by simp [reach, aligned]), if_pos lo, if_pos (by omega)]

/-- Every other offset below the mailbox, and one that is not a multiple of 8, takes nothing. -/
theorem exec_mgmtRegisterWrite_other {off : Nat} (v : Word64) (s : State)
    (h : off % 8 ≠ 0 ∨ mgmtReach s off = false ∨ (off < 0x80000 ∧ off ≠ 0x28 ∧ off ≠ 0x58 ∧ off ≠ 0x70)) : exec (.mgmtRegisterWrite off v) s = .next s := by
  show execMgmtRegisterWrite off v s = _
  unfold execMgmtRegisterWrite
  split
  · rfl
  next taken =>
    simp only [Bool.or_eq_true, Bool.not_eq_true', bne_iff_ne, ne_eq, not_or, not_not, Bool.not_eq_false] at taken
    obtain ⟨below, ne28, ne58, ne70⟩ := (h.resolve_left (not_not_intro taken.2)).resolve_left (by simp [taken.1])
    rw [if_neg (by omega)]
    split <;> first | rfl | contradiction

/-- What HOLD leaves reachable below the mailbox takes no write, but for MBX. -/
theorem exec_mgmtRegisterWrite_hold {off : Nat} (v : Word64) {s : State} (h : s.mgmt.boot = .hold) (below : off < 0x80000) (ne70 : off ≠ 0x70) :
    exec (.mgmtRegisterWrite off v) s = .next s := by
  refine exec_mgmtRegisterWrite_other v s (.inr ?_)
  by_cases special : off = 0x28 ∨ off = 0x58
  · left
    rcases special with rfl | rfl <;> simp [mgmtReach, h, holdReach]
  · exact .inr ⟨below, fun e => special (.inl e), fun e => special (.inr e), ne70⟩

theorem mbxDone_eq (s : State) (op : Nat) (len : BitVec 24) (r : Nat) : mbxDone s op len r = { s with
    mgmt := { s.mgmt with mbxOp := BitVec.ofNat 8 op, mbxLen := len, mbxBusy := false, mbxResult := BitVec.ofNat 7 r }, outbox := eventMsg 4 :: s.outbox } :=
  deviceEvent_eq _ (by decide)

/-- In HOLD the image in the mailbox is checked, and runs where it passes. -/
theorem exec_mbxBootImage {len : BitVec 24} {s : State} (h : s.mgmt.boot = .hold) (free : s.mgmt.mbxBusy = false) :
    let e := imageError s.mailbox (524288 - 3840) s.fuseSvn.toNat
    ∃ t, exec (.mbxBootImage len) s = .next t ∧ t.mgmt.mbxResult = BitVec.ofNat 7 e ∧ t.mgmt.boot = (if e = 0 then .mbxrun else .hold)
      ∧ t.outbox = (if e = 0 then [eventMsg 0] else []) ++ eventMsg 4 :: s.outbox := by
  intro e
  have run : exec (.mbxBootImage len) s = .next (if e ≠ 0 then mbxDone s 1 len e else enterBoot (mbxDone (runImage s s.mailbox) 1 len 0) .mbxrun 0) :=
    congrArg Host.Outcome.next ((if_neg (by simp [free])).trans (if_neg (not_not_intro h)))
  by_cases passes : e = 0
  · rw [if_neg (not_not_intro passes), mbxDone_eq, enterBoot_eq] at run
    rw [passes]
    exact ⟨_, run, rfl, rfl, rfl⟩
  · rw [if_pos passes, mbxDone_eq] at run
    rw [if_neg passes, if_neg passes]
    exact ⟨_, run, rfl, h, rfl⟩

theorem exec_mbxQuote_early {len : BitVec 24} {s : State} (free : s.mgmt.mbxBusy = false) (h : s.mgmt.boot ≠ .ready) :
    ∃ t, exec (.mbxQuote len) s = .next t ∧ t.mgmt.mbxResult = 1 ∧ t.mailbox = s.mailbox ∧ t.outbox = eventMsg 4 :: s.outbox := by
  have run : exec (.mbxQuote len) s = .next (mbxDone s 2 len 1) := congrArg Host.Outcome.next ((if_neg (by simp [free])).trans (if_pos h))
  rw [mbxDone_eq] at run
  exact ⟨_, run, rfl, rfl, rfl⟩

/-- Bytes read where bytes were written, from their k-th on. -/
theorem Mem.read_write_drop {m : Mem} (h : m.wf = true) (a k n : Nat) (bs : List Byte) (hn : k + n ≤ bs.length) :
    (m.write a bs).read (a + k) n = (bs.drop k).take n := by
  refine List.ext_getElem? fun j => ?_
  by_cases hj : j < n
  · rw [Mem.read_getElem? _ _ _ _ hj, Mem.get_write m a _ bs h, if_pos (by omega), List.getElem?_take_of_lt hj, List.getElem?_drop]
    have place : a + k + j - a = k + j := by omega
    rw [place, List.getElem?_eq_getElem (by omega)]
    rfl
  · rw [List.getElem?_eq_none (by rw [Mem.length_read]; omega), List.getElem?_eq_none (by rw [List.length_take]; omega)]

/-- Two runs of bytes written one behind the other are read back. -/
theorem Mem.read_write_append {m : Mem} (h : m.wf = true) (a : Nat) (bs cs : List Byte) {n : Nat} (hn : cs.length = n) :
    (m.write a (bs ++ cs)).read a bs.length = bs ∧ (m.write a (bs ++ cs)).read (a + bs.length) n = cs := by
  subst hn
  have first := Mem.read_write_drop h a 0 bs.length (bs ++ cs) (by rw [List.length_append]; omega)
  have second := Mem.read_write_drop h a bs.length cs.length (bs ++ cs) (by rw [List.length_append])
  rw [List.drop_zero, List.take_left, Nat.add_zero] at first
  rw [List.drop_left, List.take_length] at second
  exact ⟨first, second⟩

/-- The quote that READY answers: its body, then the signature. -/
theorem exec_mbxQuote {len : BitVec 24} {s : State} (free : s.mgmt.mbxBusy = false) (h : s.mgmt.boot = .ready) (wf : s.mailbox.wf = true) :
    let body := s.mailbox.read 0 32 ++ (List.range 32).map Config.romHash ++ s.mgmt.meas1 ++ leBytes 8 Config.serial.toNat ++ leBytes 4 s.mgmt.svn.toNat
      ++ leBytes 4 4 ++ leBytes 8 s.time ++ leBytes 8 0
    ∃ t, exec (.mbxQuote len) s = .next t ∧ t.mgmt.mbxResult = 0 ∧ t.mailbox.read 0x1000 body.length = body
      ∧ t.mailbox.read (0x1000 + body.length) 2420 = (List.range 2420).map fun k => (Config.mldsaSign body)[k]?.getD 0 := by
  have code : leBytes 4 s.mgmt.boot.code = leBytes 4 4 := by rw [h]; rfl
  rw [← code]
  intro body
  have sized : ((List.range 2420).map fun k => (Config.mldsaSign body)[k]?.getD 0).length = 2420 := by rw [List.length_map, List.length_range]
  have run : exec (.mbxQuote len) s = .next (mbxDone { s with
      mailbox := s.mailbox.write 0x1000 (body ++ (List.range 2420).map fun k => (Config.mldsaSign body)[k]?.getD 0) } 2 len 0) :=
    congrArg Host.Outcome.next ((if_neg (by simp [free])).trans (if_neg (not_not_intro h)))
  rw [mbxDone_eq] at run
  clear_value body
  obtain ⟨first, second⟩ := Mem.read_write_append wf 0x1000 body _ sized
  exact ⟨_, run, rfl, first, second⟩

/-! ### The Borkai link (R411 to R415) -/

/-- The part takes a transaction from a party (R411, R412). -/
theorem linkTakes_iff (s : State) (src : Party) : linkTakes s src = true ↔ s.mgmt.boot ≠ .hold ∧ (src = .host ∨ s.mgmt.peerUp = true) := by
  simp [linkTakes]

theorem linkTakes_eq_false {s : State} {src : Party} (h : ¬ (s.mgmt.boot ≠ .hold ∧ (src = .host ∨ s.mgmt.peerUp = true))) : linkTakes s src = false :=
  Bool.eq_false_iff.2 fun takes => h ((linkTakes_iff s src).1 takes)

/-- The bytes that a party may reach: the host all of them, the peer those of its window (R415). -/
def Inside (s : State) (src : Party) (pa n : Nat) : Prop :=
  src = .host ∨ (21 ≤ s.mgmt.peerWin.toNat % 64 ∧ s.mgmt.peerWin.toNat % 64 ≤ 37 ∧ s.mgmt.peerWin.toNat / 2 ^ 21 % 2 ^ 27 * 2 ^ 21 ≤ pa
    ∧ pa + n ≤ s.mgmt.peerWin.toNat / 2 ^ 21 % 2 ^ 27 * 2 ^ 21 + 2 ^ (s.mgmt.peerWin.toNat % 64))

theorem inside_iff (s : State) (src : Party) (pa n : Nat) : (src == .host || inPeerWin s pa n) = true ↔ Inside s src pa n := by
  have size : bitsOf s.mgmt.peerWin.toNat 5 0 = s.mgmt.peerWin.toNat % 64 := by
    unfold bitsOf
    omega
  have base : bitsOf s.mgmt.peerWin.toNat 47 21 = s.mgmt.peerWin.toNat / 2 ^ 21 % 2 ^ 27 := rfl
  rw [Inside, inPeerWin, size, base]
  simp only [Bool.or_eq_true, Bool.and_eq_true, decide_eq_true_eq, beq_iff_eq, and_assoc]

theorem homeTakes_iff (s : State) (src : Party) (pa n : Nat) :
    homeTakes s src pa n = true ↔ localPa pa = true ∧ localPa (pa + n - 1) = true ∧ Inside s src pa n := by
  rw [homeTakes, Bool.and_eq_true, Bool.and_eq_true, inside_iff, and_assoc]

/-- A transaction at its home is performed. -/
theorem atHome_takes {s k : State} {src : Party} {pa n : Nat} {ok : Bool} (takes : linkTakes s src = true) (home : homeTakes s src pa n = true) (fits : ok = true) :
    atHome s src pa n ok k = .next k := by
  rw [atHome, if_neg (by rw [takes]; decide), if_pos (by rw [home, fits]; rfl)]

/-- One that is at no home, or outside the peer's window, is answered with an error. -/
theorem atHome_error {s k : State} {src : Party} {pa n : Nat} {ok : Bool} (takes : linkTakes s src = true) (home : homeTakes s src pa n = false) :
    atHome s src pa n ok k = .next { s with outbox := .error src :: s.outbox } := by
  rw [atHome, if_neg (by rw [takes]; decide), if_neg (by rw [home, Bool.and_false]; decide)]

theorem exec_time (a : TimeAsk) (s : State) : exec (.time a) s
    = .next (if linkTakes s a.src = true then { s with outbox := .time a.src a.h (BitVec.ofNat 64 s.time) (BitVec.ofNat 64 s.time) :: s.outbox } else s) := by
  have run : exec (.time a) s = .next (if !linkTakes s a.src then s
      else { s with outbox := .time a.src a.h (BitVec.ofNat 64 s.time) (BitVec.ofNat 64 s.time) :: s.outbox }) := rfl
  rw [run]
  cases linkTakes s a.src <;> rfl

theorem exec_peerTimeExchange_ask {s : State} (ready : s.mgmt.boot = .ready) (up : s.mgmt.peerUp = true) (due : 1000000 ≤ s.since s.peerAt)
    (unheard : s.peerSaid = none) :
    exec .peerTimeExchange s
      = .next { s with peerAt := s.time, peerAsk := some (BitVec.ofNat 64 s.time), outbox := .timeAsk (BitVec.ofNat 64 s.time) :: s.outbox } := by
  have heard : (if peerTimeHeard s then s.peerSaid else none) = none := by rw [unheard, ite_self]
  have asks : peerTimeDue s = true := by simp [peerTimeDue, ready, up, due]
  show execPeerTimeExchange s = _
  rw [execPeerTimeExchange, heard]
  exact congrArg Host.Outcome.next (if_neg (by rw [asks]; decide))

theorem exec_peerTimeExchange_answer {s : State} (ready : s.mgmt.boot = .ready) (up : s.mgmt.peerUp = true) {h d1 d2 t : Word64}
    (said : s.peerSaid = some (h, d1, d2, t)) :
    exec .peerTimeExchange s = .next { s with
      peerAsk := none, peerSaid := none, mgmt := { s.mgmt with peerOff := BitVec.ofInt 64 (((d1 - h).toInt + (d2 - t).toInt) / 2), peerValid := true } } := by
  have heard : (if peerTimeHeard s then s.peerSaid else none) = some (h, d1, d2, t) := by
    rw [said, if_pos (by simp [peerTimeHeard, ready, up, said])]
  show execPeerTimeExchange s = _
  rw [execPeerTimeExchange, heard]
  rfl

/-- A write from outside changes its bytes and the waits on addresses. -/
theorem linkWrite_unshared {s : State} (h : Unshared s) (pa : Nat) (bs : List Byte) :
    ∃ ws bad, linkWrite s pa bs = { s with mem := s.mem.write pa bs, memBad := bad, woas := ws } := by
  obtain ⟨ws, bad, written⟩ := outsideWrite_unshared h pa bs
  rw [linkWrite, written]
  exact ⟨_, bad, rfl⟩

section
variable {s : State} {src : Party} (takes : linkTakes s src = true)
include takes

theorem exec_rd {pa len : Nat} (lo : 1 ≤ len) (hi : len ≤ 64) (home : homeTakes s src pa len = true) :
    exec (.rd src pa len) s = .next { s with outbox := .data src (s.mem.read pa len) :: s.outbox } :=
  atHome_takes takes home (by simp [lo, hi])

theorem exec_wr {pa : Nat} {bs : List Byte} (lo : 1 ≤ bs.length) (hi : bs.length ≤ 64) (home : homeTakes s src pa bs.length = true) (calm : Unshared s) :
    ∃ t, exec (.wr src pa bs) s = .next t ∧ t.mem = s.mem.write pa bs ∧ t.outbox = .ack src :: s.outbox ∧ t.groups = s.groups := by
  obtain ⟨ws, bad, written⟩ := linkWrite_unshared calm pa bs
  have run : exec (.wr src pa bs) s = .next { linkWrite s pa bs with outbox := .ack src :: (linkWrite s pa bs).outbox } :=
    atHome_takes takes home (by simp [lo, hi])
  rw [written] at run
  exact ⟨_, run, rfl, rfl, rfl⟩

theorem exec_atm {op : AtomOp} {pa : Nat} {v c : BitVec 128} (aligned : pa % atomBytes op = 0) (home : homeTakes s src pa (atomBytes op) = true)
    (calm : Unshared s) :
    ∃ t, exec (.atm src op pa v c) s = .next t ∧ t.groups = s.groups ∧ t.outbox = .old src (BitVec.ofNat 128 (s.mem.le pa (atomBytes op))) :: s.outbox
      ∧ t.mem = s.mem.write pa (leBytes (atomBytes op) (atomApply op (s.mem.le pa (atomBytes op)) (v.toNat % 2 ^ (8 * atomBytes op))
          (c.toNat % 2 ^ (8 * atomBytes op)))) := by
  obtain ⟨ws, bad, written⟩ := linkWrite_unshared calm pa
    (leBytes (atomBytes op) (atomApply op (s.mem.le pa (atomBytes op)) (v.toNat % 2 ^ (8 * atomBytes op)) (c.toNat % 2 ^ (8 * atomBytes op))))
  have run : exec (.atm src op pa v c) s = .next (let s' := linkWrite s pa (leBytes (atomBytes op)
      (atomApply op (s.mem.le pa (atomBytes op)) (v.toNat % 2 ^ (8 * atomBytes op)) (c.toNat % 2 ^ (8 * atomBytes op))))
      { s' with outbox := .old src (BitVec.ofNat 128 (s.mem.le pa (atomBytes op))) :: s'.outbox }) :=
    atHome_takes takes home (by simp [aligned])
  rw [written] at run
  exact ⟨_, run, rfl, rfl, rfl⟩

/-- A transaction that no home takes is answered with an error, whatever its kind. -/
theorem exec_rd_error {pa len : Nat} (home : homeTakes s src pa len = false) :
    exec (.rd src pa len) s = .next { s with outbox := .error src :: s.outbox } :=
  atHome_error takes home

theorem exec_wr_error {pa : Nat} {bs : List Byte} (home : homeTakes s src pa bs.length = false) :
    exec (.wr src pa bs) s = .next { s with outbox := .error src :: s.outbox } :=
  atHome_error takes home

theorem exec_atm_error {op : AtomOp} {pa : Nat} {v c : BitVec 128} (home : homeTakes s src pa (atomBytes op) = false) :
    exec (.atm src op pa v c) s = .next { s with outbox := .error src :: s.outbox } :=
  atHome_error takes home

end

theorem homeTakes_of_remote {s : State} {src : Party} {pa : Nat} (n : Nat) (remote : localPa pa = false) : homeTakes s src pa n = false := by
  simp [homeTakes, remote]

theorem homeTakes_of_outside {s : State} {pa n : Nat} (outside : ¬ Inside s .peer pa n) : homeTakes s .peer pa n = false :=
  Bool.eq_false_iff.2 fun takes => outside ((homeTakes_iff s .peer pa n).1 takes).2.2

/-- OWN: the host reads a line and holds it. -/
theorem exec_own {pa : Nat} {s : State} (h : s.mgmt.boot ≠ .hold) (first : localPa (64 * (pa / 64)) = true) (last : localPa (64 * (pa / 64) + 63) = true) :
    ∃ t, exec (.own pa) s = .next t ∧ t = { s with hostLines := t.hostLines, outbox := .data .host (s.mem.read (64 * (pa / 64)) 64) :: s.outbox }
      ∧ ∀ l, l ∈ t.hostLines ↔ l ∈ s.hostLines ∨ l = pa / 64 := by
  have home : homeTakes s .host (64 * (pa / 64)) 64 = true := (homeTakes_iff ..).2 ⟨first, last, .inl rfl⟩
  have run : exec (.own pa) s = .next { s with
      hostLines := if s.hostLines.contains (pa / 64) then s.hostLines else s.hostLines ++ [pa / 64],
      outbox := .data .host (s.mem.read (64 * (pa / 64)) 64) :: s.outbox } := atHome_takes ((linkTakes_iff s .host).2 ⟨h, .inl rfl⟩) home rfl
  refine ⟨_, run, rfl, fun l => ?_⟩
  show l ∈ (if s.hostLines.contains (pa / 64) then s.hostLines else s.hostLines ++ [pa / 64]) ↔ _
  split
  next held => exact ⟨.inl, fun m => m.elim id fun e => by simpa [e] using held⟩
  · rw [List.mem_append, List.mem_singleton]

theorem exec_snp {pa : Nat} {s : State} (h : s.mgmt.boot ≠ .hold) :
    exec (.snp pa) s = .next { s with hostLines := s.hostLines.filter (· != pa / 64), recalls := s.recalls.filter (· != pa / 64) } :=
  congrArg Host.Outcome.next (if_neg (by rw [(linkTakes_iff s .host).2 ⟨h, .inl rfl⟩]; decide))

theorem exec_peerLinkChange {up : Bool} {s : State} (h : s.mgmt.peerUp ≠ up) :
    exec (.peerLinkChange up) s = .next { s with mgmt := { s.mgmt with peerUp := up }, outbox := eventMsg 3 :: s.outbox } :=
  congrArg Host.Outcome.next ((if_neg h).trans (deviceEvent_eq _ (by decide)))

/-! ### Fatal errors (R386) -/

/-- A write from outside where no context tracks races: host copies of its lines are recalled, its bytes change and waits on them wake. -/
theorem outsideWrite_untracked {s : State} (h : ∀ c ∈ s.ctxs, c.shadow = 0) (pa : Nat) (bs : List Byte) :
    ∃ ws bad lines recalls told, s.outsideWrite pa bs = { s with
      mem := s.mem.write pa bs, memBad := bad, woas := ws, hostLines := lines, recalls := recalls, outbox := told ++ s.outbox } := by
  rw [State.outsideWrite, resetLines_untracked h]
  exact ⟨_, _, _, _, _, rfl⟩

/-- Of the commands of the engines, those that the engines are at. -/
theorem currentOf_eq {α : Type} (cl : α → Nat) (s : State) (xs : List α) :
    ∃ d ys, currentOf cl s xs = ({ s with draws := d }, ys) ∧ ∀ y ∈ ys, y ∈ xs := by
  have kept : ∀ (ks : List Nat) (r : State × List α), (∀ y ∈ r.2, y ∈ xs) → ∃ d ys, ks.foldl (fun r k =>
      let mine := xs.filter fun x => cl x == k
      let (s, j) := r.1.chooseOf mine.length
      (s, r.2 ++ (mine[j]?).toList)) r = ({ r.1 with draws := d }, ys) ∧ ∀ y ∈ ys, y ∈ xs := by
    intro ks
    induction ks with
    | nil => exact fun r hr => ⟨_, _, rfl, hr⟩
    | cons k ks ih =>
      intro r hr
      obtain ⟨d, j, drawn⟩ := chooseOf_eq r.1 (xs.filter fun x => cl x == k).length
      obtain ⟨e, ys, rest, sub⟩ := ih ({ r.1 with draws := d }, r.2 ++ ((xs.filter fun x => cl x == k)[j]?).toList) fun y hy =>
        (List.mem_append.1 hy).elim (hr y) fun hy => List.mem_of_mem_filter (List.mem_of_getElem? (Option.mem_toList.1 hy))
      refine ⟨e, ys, ?_, sub⟩
      rw [List.foldl_cons]
      exact (congrArg (fun c : State × Nat => List.foldl _ (c.1, r.2 ++ ((xs.filter fun x => cl x == k)[c.2]?).toList) ks) drawn).trans rest
  exact kept _ (s, []) fun _ => nofun

/-- The engines keep their current commands alone: of the rest, the matrix units' operations alone change. -/
theorem keepCurrent_eq (s : State) : ∃ d copies cols dyns mats, keepCurrent s = { s with
    draws := d, copies := copies, cols := cols, dyns := dyns,
    groups := (indexed s.groups).map fun e => { e.2 with ops := if List.contains mats e.1 then e.2.ops.take 1 else [] } }
    ∧ (∀ c ∈ copies, c ∈ s.copies) ∧ (∀ c ∈ cols, c ∈ s.cols) ∧ ∀ c ∈ dyns, c ∈ s.dyns := by
  have units : ∀ (ks : List Nat) (r : State × List Nat), ∃ d ms, ks.foldl (fun (r : State × List Nat) k =>
      let mine := (List.range r.1.groups.length).filter fun gi => let g := r.1.group gi; g.core == k && g.holdsSlot && !g.ops.isEmpty && !g.matStopped
      let (s, j) := r.1.chooseOf mine.length
      (s, r.2 ++ (mine[j]?).toList)) r = ({ r.1 with draws := d }, ms) := by
    intro ks
    induction ks with
    | nil => exact fun r => ⟨_, _, rfl⟩
    | cons k ks ih =>
      intro r
      let mine := (List.range r.1.groups.length).filter fun gi => let g := r.1.group gi; g.core == k && g.holdsSlot && !g.ops.isEmpty && !g.matStopped
      obtain ⟨d, j, drawn⟩ := chooseOf_eq r.1 mine.length
      obtain ⟨e, ms, rest⟩ := ih ({ r.1 with draws := d }, r.2 ++ (mine[j]?).toList)
      refine ⟨e, ms, ?_⟩
      rw [List.foldl_cons]
      exact (congrArg (fun c : State × Nat => List.foldl _ (c.1, r.2 ++ (mine[c.2]?).toList) ks) drawn).trans rest
  obtain ⟨d1, copies, e1, sub1⟩ := currentOf_eq (fun c : CopyCmd => clusterOf c.core) s s.copies
  obtain ⟨d2, cols, e2, sub2⟩ := currentOf_eq (fun c : LaneCmd => clusterOf c.core) { s with draws := d1 } s.cols
  obtain ⟨d3, dyns, e3, sub3⟩ := currentOf_eq (fun c : LaneCmd => clusterOf c.core) { s with draws := d2 } s.dyns
  obtain ⟨d4, mats, e4⟩ := units (List.range 64) ({ s with draws := d3 }, [])
  refine ⟨d4, copies, cols, dyns, mats, ?_, sub1, sub2, sub3⟩
  rw [keepCurrent, e1]
  dsimp only
  rw [e2]
  dsimp only
  rw [e3]
  dsimp only
  rw [e4]

/-- No engine is at a command. -/
def EnginesIdle (s : State) : Prop := s.copies = [] ∧ s.cols = [] ∧ s.dyns = [] ∧ ∀ g ∈ s.groups, g.ops = []

theorem dumpDue_iff (s : State) : dumpDue s = true ↔ s.dumpOwed = true ∧ EnginesIdle s := by
  simp only [dumpDue, EnginesIdle, Bool.and_eq_true, List.isEmpty_iff, List.all_eq_true, and_assoc]

theorem map_snd_indexed {α : Type} (xs : List α) : (indexed xs).map (·.2) = xs :=
  List.map_snd_zip (by rw [List.length_range])

/-- Where no engine is at a command, nothing changes when the engines keep their current ones. -/
theorem keepCurrent_idle {s : State} (idle : EnginesIdle s) : EnginesIdle (keepCurrent s) ∧ (keepCurrent s).groups = s.groups := by
  obtain ⟨d, copies, cols, dyns, mats, kept, sub1, sub2, sub3⟩ := keepCurrent_eq s
  obtain ⟨no_copies, no_cols, no_dyns, no_ops⟩ := idle
  have groups : (indexed s.groups).map (fun e => { e.2 with ops := if List.contains mats e.1 then e.2.ops.take 1 else [] }) = s.groups := by
    have same : ∀ g : Group, g.ops = [] → { g with ops := [] } = g := by
      rintro ⟨⟩ rfl
      rfl
    refine (List.map_congr_left fun e he => ?_).trans (map_snd_indexed s.groups)
    have none_left := no_ops e.2 (List.mem_of_getElem? (mem_indexed.1 he))
    rw [none_left, List.take_nil, ite_self, same e.2 none_left]
  rw [groups] at kept
  rw [kept]
  exact ⟨⟨List.eq_nil_iff_forall_not_mem.2 fun c hc => by simpa [no_copies] using sub1 c hc, List.eq_nil_iff_forall_not_mem.2 fun c hc => by
    simpa [no_cols] using sub2 c hc, List.eq_nil_iff_forall_not_mem.2 fun c hc => by simpa [no_dyns] using sub3 c hc, no_ops⟩, rfl⟩

/-- What a fatal error leaves (R386, R413): at once where no engine is at a command, else behind the commands that the engines are at. -/
structure FatallyStopped (s t : State) (cause : Nat) : Prop where
  shown : t.fatal = cause
  boot : t.mgmt.boot = .fatal
  copies : ∀ c ∈ t.copies, c ∈ s.copies
  owes : ¬ EnginesIdle t → t.dumpOwed = true ∧ t.mem = s.mem ∧ t.outbox = s.outbox
  done : EnginesIdle s → t.dumpOwed = false ∧ t.mgmt.err = BitVec.ofNat 8 cause ∧ t.groups = s.groups
  told : EnginesIdle s → s.hostLines = [] → t.outbox = eventMsg 2 :: eventMsg 0 :: s.outbox
  without_region : s.dumpBase = 0 → t.mem = s.mem
  outside_region : s.dumpBase ≠ 0 → s.mem.wf = true → ∀ a, a < s.dumpBase ∨ s.dumpBase + s.dumpSize ≤ a → t.mem.get a = s.mem.get a

theorem dumpBytes_length_le (s : State) (cause : Nat) : (dumpBytes s cause).length ≤ s.dumpSize := by
  dsimp only [dumpBytes]
  refine (List.length_take_le ..).trans ?_
  split_ifs <;> omega

/-- A dump that is written lies in its region. -/
theorem get_write_dump {s : State} (m : Mem) (wf : m.wf = true) (cause a : Nat) (out : a < s.dumpBase ∨ s.dumpBase + s.dumpSize ≤ a) :
    (m.write s.dumpBase (dumpBytes s cause)).get a = m.get a := by
  have := dumpBytes_length_le s cause
  rw [Mem.get_write _ _ _ _ wf, if_neg (by omega)]

theorem fatalDump_now {u : State} (h : dumpDue u = true) (untracked : ∀ c ∈ u.ctxs, c.shadow = 0) :
    ∃ m ws bad lines recalls told, fatalDump u = { u with
        mem := m, memBad := bad, woas := ws, hostLines := lines, recalls := recalls, dumpOwed := false,
        mgmt := { u.mgmt with boot := .fatal, err := BitVec.ofNat 8 u.fatal }, outbox := eventMsg 2 :: eventMsg 0 :: (told ++ u.outbox) }
      ∧ (u.hostLines = [] → told = []) ∧ (u.dumpBase = 0 → m = u.mem)
      ∧ (u.dumpBase ≠ 0 → m = u.mem.write u.dumpBase (dumpBytes u u.fatal)) := by
  have run : fatalDump u = deviceEvent (enterBoot { (if u.dumpBase = 0 then u else u.outsideWrite u.dumpBase (dumpBytes u u.fatal)) with dumpOwed := false } .fatal
      (if u.dumpBase = 0 then u else u.outsideWrite u.dumpBase (dumpBytes u u.fatal)).fatal) 2 := if_neg (by simp [h])
  rw [enterBoot_eq, deviceEvent_eq _ (by decide)] at run
  rw [run]
  by_cases base : u.dumpBase = 0
  · rw [if_pos base]
    exact ⟨_, _, _, _, _, [], rfl, fun _ => rfl, fun _ => rfl, fun ne => absurd base ne⟩
  · rw [if_neg base]
    by_cases held : u.hostLines = []
    · obtain ⟨ws, bad, written⟩ := outsideWrite_unshared ⟨held, untracked⟩ u.dumpBase (dumpBytes u u.fatal)
      rw [written]
      exact ⟨_, _, _, _, _, [], rfl, fun _ => rfl, fun e => absurd e base, fun _ => rfl⟩
    · obtain ⟨ws, bad, lines, recalls, told, written⟩ := outsideWrite_untracked untracked u.dumpBase (dumpBytes u u.fatal)
      rw [written]
      exact ⟨_, _, _, _, _, told, rfl, fun none_held => absurd none_held held, fun e => absurd e base, fun _ => rfl⟩

theorem fatalStop_stops {s : State} (ready : s.mgmt.boot = .ready) (untracked : ∀ c ∈ s.ctxs, c.shadow = 0) (cause : Nat) :
    FatallyStopped s (fatalStop s cause) cause := by
  obtain ⟨d, copies, cols, dyns, mats, kept, sub, -, -⟩ := keepCurrent_eq s
  have idles := keepCurrent_idle (s := s)
  rw [kept] at idles
  have run : fatalStop s cause = fatalDump { (keepCurrent s).setMgmt fun m => { m with boot := .fatal } with fatal := cause, dumpOwed := true } :=
    if_neg (not_not_intro ready)
  rw [kept] at run
  rw [run]
  generalize hu : ({ State.setMgmt _ _ with fatal := cause, dumpOwed := true } : State) = u
  by_cases due : dumpDue u = true
  · obtain ⟨m, ws, bad, lines, recalls, told, dumped, quiet, without, within⟩ := fatalDump_now due (by subst hu; exact untracked)
    rw [dumped]
    have idle := ((dumpDue_iff u).1 due).2
    subst hu
    exact {
      shown := rfl, boot := rfl, copies := sub
      owes := fun busy => absurd idle busy
      done := fun idle => ⟨rfl, rfl, (idles idle).2⟩
      told := fun _ none_held => by rw [quiet none_held]; rfl
      without_region := without
      outside_region := fun base wf a out => (congrArg (Mem.get · a) (within base)).trans (get_write_dump _ wf cause a out) }
  · have stays : fatalDump u = u := if_pos (by simp [due])
    rw [stays]
    subst hu
    have busy : ¬ EnginesIdle s := fun idle => due ((dumpDue_iff _).2 ⟨rfl, (idles idle).1⟩)
    exact {
      shown := rfl, boot := rfl, copies := sub
      owes := fun _ => ⟨rfl, rfl, rfl⟩
      done := fun idle => absurd idle busy
      told := fun idle => absurd idle busy
      without_region := fun _ => rfl
      outside_region := fun _ _ _ _ => rfl }

/-- A write from outside, with what it does to race records (R241): what it may change of the state. -/
def WroteOutside (s t : State) : Prop :=
  ∃ m ws bad lines recalls told, t = { s with mem := m, memBad := bad, woas := ws, hostLines := lines, recalls := recalls, outbox := told ++ s.outbox }

theorem resetLine_mem (s : State) (pasid pa : Nat) (clears : Bool) : ∃ m, resetLine s pasid pa clears = { s with mem := m } := by
  have kill : ∃ m, syncKill s pasid (pa / 64 * 64) 64 = { s with mem := m } := by
    unfold syncKill
    split
    · exact ⟨_, rfl⟩
    · exact ⟨_, rfl⟩
  obtain ⟨m, killed⟩ := kill
  unfold resetLine
  dsimp only
  rw [killed]
  split
  · exact ⟨_, rfl⟩
  · exact ⟨_, rfl⟩

theorem foldl_mem {α : Type} (f : State → α → State) (one : ∀ s x, ∃ m, f s x = { s with mem := m }) (xs : List α) (s : State) :
    ∃ m, xs.foldl f s = { s with mem := m } := by
  induction xs generalizing s with
  | nil => exact ⟨_, rfl⟩
  | cons x xs ih =>
    obtain ⟨m, h⟩ := one s x
    rw [List.foldl_cons, h]
    obtain ⟨n, h⟩ := ih { s with mem := m }
    exact ⟨n, h⟩

theorem outsideWrite_wrote (s : State) (pa : Nat) (bs : List Byte) : WroteOutside s (s.outsideWrite pa bs) := by
  have reset : ∃ m, resetLines s pa bs.length = { s with mem := m } := by
    refine foldl_mem _ (fun s c => ?_) s.ctxs s
    split
    · exact ⟨_, rfl⟩
    · exact foldl_mem _ (fun s k => resetLine_mem ..) _ s
  obtain ⟨m, reset⟩ := reset
  rw [State.outsideWrite, reset]
  exact ⟨_, _, _, _, _, _, rfl⟩

theorem fatalStop_fatal {s : State} (ready : s.mgmt.boot = .ready) (cause : Nat) : (fatalStop s cause).fatal = cause ∧ (fatalStop s cause).mgmt.boot = .fatal := by
  have run : fatalStop s cause = fatalDump { (keepCurrent s).setMgmt fun m => { m with boot := .fatal } with fatal := cause, dumpOwed := true } :=
    if_neg (not_not_intro ready)
  rw [run]
  generalize hu : ({ State.setMgmt _ _ with fatal := cause, dumpOwed := true } : State) = u
  have fatal : u.fatal = cause := hu ▸ rfl
  have boot : u.mgmt.boot = .fatal := hu ▸ rfl
  by_cases due : dumpDue u = true
  · have dumped : fatalDump u = deviceEvent (enterBoot { (if u.dumpBase = 0 then u else u.outsideWrite u.dumpBase (dumpBytes u u.fatal)) with dumpOwed := false }
        .fatal (if u.dumpBase = 0 then u else u.outsideWrite u.dumpBase (dumpBytes u u.fatal)).fatal) 2 := if_neg (by simp [due])
    rw [dumped, enterBoot_eq, deviceEvent_eq _ (by decide)]
    refine ⟨?_, rfl⟩
    by_cases base : u.dumpBase = 0
    · rw [if_pos base]
      exact fatal
    · rw [if_neg base]
      obtain ⟨_, _, _, _, _, _, written⟩ := outsideWrite_wrote u u.dumpBase (dumpBytes u u.fatal)
      rw [written]
      exact fatal
  · have stays : fatalDump u = u := if_pos (by simp [due])
    rw [stays]
    exact ⟨fatal, boot⟩

/-! ### Power and clocks (R22, R23, R34, R375, R428) -/

/-- The clock that firmware has pinned for a core: 0 when the core is not reserved. -/
def corePin (s : State) (c : Nat) : Nat := if (s.reserved[c]?).join = none then 0 else s.pinned[c]?.getD 0

theorem lt_corePin {s : State} {c n : Nat} : n < corePin s c ↔ (s.reserved[c]?).join ≠ none ∧ n < s.pinned[c]?.getD 0 := by
  unfold corePin
  split
  next free => simp [free]
  next owned => simp [owned]

theorem lt_pinOf {s : State} {cl n : Nat} : n < pinOf s cl ↔ ∃ c, c / 4 = cl ∧ n < corePin s c := by
  have step : ∀ m k, (if ((s.reserved[4 * cl + k]?).join).isSome && decide (m < s.pinned[4 * cl + k]?.getD 0) then s.pinned[4 * cl + k]?.getD 0 else m)
      = max m (corePin s (4 * cl + k)) := by
    intro m k
    unfold corePin
    cases (s.reserved[4 * cl + k]?).join with
    | none => simp
    | some x =>
      simp only [Option.isSome_some, Bool.true_and, decide_eq_true_eq, reduceCtorEq, if_false]
      split <;> omega
  have four : pinOf s cl = max (max (max (max 0 (corePin s (4 * cl + 0))) (corePin s (4 * cl + 1))) (corePin s (4 * cl + 2))) (corePin s (4 * cl + 3)) := by
    rw [← step, ← step, ← step, ← step]
    rfl
  constructor
  · intro lt
    by_contra none_above
    have le : ∀ k, k < 4 → corePin s (4 * cl + k) ≤ n := fun k hk => Nat.le_of_not_lt fun above => none_above ⟨4 * cl + k, by omega, above⟩
    have := le 0 (by decide)
    have := le 1 (by decide)
    have := le 2 (by decide)
    have := le 3 (by decide)
    omega
  · rintro ⟨c, rfl, lt⟩
    obtain ⟨k, hk, e⟩ : ∃ k, k < 4 ∧ c = 4 * (c / 4) + k := ⟨c % 4, Nat.mod_lt _ (by decide), by omega⟩
    rw [e] at lt
    generalize c / 4 = cl at *
    rw [four]
    interval_cases k <;> omega

theorem corePin_le_pinOf (s : State) (c : Nat) : corePin s c ≤ pinOf s (c / 4) :=
  Nat.le_of_not_lt fun lt => absurd (lt_pinOf.2 ⟨c, rfl, lt⟩) (Nat.lt_irrefl _)

/-- Some clock is lower than it is pinned to be. -/
def BelowPin (s : State) : Prop := ∃ c, c < 64 ∧ s.clock[c / 4]?.getD 0 < corePin s c

theorem belowPin_iff (s : State) : belowPin s = true ↔ BelowPin s := by
  rw [belowPin, List.any_eq_true]
  constructor
  · rintro ⟨cl, hcl, lt⟩
    obtain ⟨c, rfl, lt⟩ := lt_pinOf.1 (of_decide_eq_true lt)
    have := List.mem_range.1 hcl
    exact ⟨c, by omega, lt⟩
  · rintro ⟨c, hc, lt⟩
    exact ⟨c / 4, List.mem_range.2 (by omega), decide_eq_true (lt_pinOf.2 ⟨c, rfl, lt⟩)⟩

/-- What a change of clocks leaves: clocks, the phases of cycles, trace units and the count of draws alone may differ. -/
def Clocked (s t : State) : Prop := t = { s with clock := t.clock, phase := t.phase, traces := t.traces, draws := t.draws }

theorem Clocked.trans {s t u : State} (h : Clocked s t) (k : Clocked t u) : Clocked s u := by
  rw [Clocked, h] at k
  exact k

theorem Packeted.foldl {α : Type} {f : State → α → State} (one : ∀ s x, Packeted s (f s x)) (xs : List α) (s : State) : Packeted s (xs.foldl f s) := by
  induction xs generalizing s with
  | nil => exact ⟨_, _, rfl⟩
  | cons x xs ih =>
    obtain ⟨ts, n, h⟩ := one s x
    obtain ⟨us, k, h'⟩ := ih (f s x)
    rw [List.foldl_cons, h', h]
    exact ⟨_, _, rfl⟩

theorem setClock_eq (s : State) (cl mhz : Nat) : Clocked s (setClock s cl mhz) ∧ (setClock s cl mhz).clock = setAt s.clock cl mhz := by
  obtain ⟨ts, n, told⟩ := Packeted.foldl (fun u p => State.packet_eq u cl _)
    (tracedCtxs { s with clock := setAt s.clock cl mhz, phase := setAt s.phase cl 0 } cl) { s with clock := setAt s.clock cl mhz, phase := setAt s.phase cl 0 }
    (f := fun s' p => unitPacket s' cl p 0x0D (leBytes 8 s'.time ++ leBytes 8 (s.cyc[cl]?.getD 0) ++ leBytes 2 mhz))
  unfold setClock
  dsimp only
  rw [told]
  exact ⟨rfl, rfl⟩

/-- Clusters of a list take new clocks. -/
theorem setClocks_eq (new : Nat → Nat) (cls : List Nat) (s : State) :
    let t := cls.foldl (fun s cl => if new cl = clockOf s cl then s else setClock s cl (new cl)) s
    Clocked s t ∧ t.clock.length = s.clock.length
      ∧ ∀ k, k < s.clock.length → clockOf t k = if k ∈ cls then new k else clockOf s k := by
  induction cls generalizing s with
  | nil => exact ⟨rfl, rfl, fun _ _ => rfl⟩
  | cons cl cls ih =>
    have one : ∃ u, (if new cl = clockOf s cl then s else setClock s cl (new cl)) = u ∧ Clocked s u ∧ u.clock.length = s.clock.length
        ∧ ∀ k, k < s.clock.length → clockOf u k = if k = cl then new k else clockOf s k := by
      by_cases stays : new cl = clockOf s cl
      · refine ⟨_, if_pos stays, rfl, rfl, fun k _ => ?_⟩
        split_ifs with here
        · rw [here, stays]
        · rfl
      · obtain ⟨clocked, clock⟩ := setClock_eq s cl (new cl)
        refine ⟨_, if_neg stays, clocked, by rw [clock, length_setAt], fun k hk => ?_⟩
        rw [clockOf, clock, getElem?_setAt]
        split_ifs with here
        · rw [List.getElem?_eq_getElem hk]
          exact (congrArg new here).symm
        · rfl
    obtain ⟨u, step, clocked, length, clock⟩ := one
    obtain ⟨rest, length', clock'⟩ := ih u
    intro t
    have ran : t = cls.foldl (fun s cl => if new cl = clockOf s cl then s else setClock s cl (new cl)) u := congrArg (List.foldl _ · cls) step
    rw [ran]
    refine ⟨clocked.trans rest, length'.trans length, fun k hk => ?_⟩
    rw [clock' k (by omega), clock k hk]
    by_cases later : k ∈ cls
    · rw [if_pos later, if_pos (List.mem_cons_of_mem cl later)]
    · rw [if_neg later]
      exact if_congr (by simp [later]) rfl rfl

section
variable (s : State) (f : Nat → Nat)

theorem clockFloor_hot {s : State} (hot : 110 ≤ s.mgmt.temp.toNat) (cl : Nat) : clockFloor s cl = 1 := by
  rw [clockFloor, if_pos hot]
  rfl

theorem clockFloor_cold {s : State} (cold : s.mgmt.temp.toNat < 110) (cl : Nat) : clockFloor s cl = max 1 (min (clockOf s cl) (pinOf s cl)) := by
  have floor : clockFloor s cl = (if (if clockOf s cl < pinOf s cl then clockOf s cl else pinOf s cl) = 0 then 1 else
      if clockOf s cl < pinOf s cl then clockOf s cl else pinOf s cl) := by
    simp only [clockFloor, show ¬ 110 ≤ s.mgmt.temp.toNat by omega, if_false]
  rw [floor]
  split_ifs <;> omega

/-- A cluster whose clock may fall further. -/
theorem mem_able (cl : Nat) : cl ∈ (List.range 16).filter (fun k => decide (clockFloor s k < clockOf s k)) ↔ cl < 16 ∧ clockFloor s cl < clockOf s cl := by
  rw [List.mem_filter, List.mem_range, decide_eq_true_eq]

/-- A clock falls below its pin at 110 °C, or to its floor at most, or stays. -/
theorem cooler_cases (cl : Nat) :
    (110 ≤ s.mgmt.temp.toNat ∧ 1 < pinOf s cl ∧ pinOf s cl ≤ clockOf s cl ∧ cooler s f cl < pinOf s cl)
    ∨ (¬ (110 ≤ s.mgmt.temp.toNat ∧ 1 < pinOf s cl ∧ pinOf s cl ≤ clockOf s cl) ∧ clockFloor s cl ≤ cooler s f cl ∧ cooler s f cl < clockOf s cl)
    ∨ (¬ (110 ≤ s.mgmt.temp.toNat ∧ 1 < pinOf s cl ∧ pinOf s cl ≤ clockOf s cl) ∧ cooler s f cl = clockOf s cl) := by
  have value : cooler s f cl = (if 110 ≤ s.mgmt.temp.toNat ∧ 1 < pinOf s cl ∧ pinOf s cl ≤ clockOf s cl then 1 + f cl % (pinOf s cl - 1)
      else if ((List.range 16).filter fun k => decide (clockFloor s k < clockOf s k))[f 16 % ((List.range 16).filter fun k => decide (clockFloor s k < clockOf s k)).length]?
        = some cl then clockFloor s cl + f cl % (clockOf s cl - clockFloor s cl) else clockOf s cl) := rfl
  rw [value]
  split_ifs with under able
  · have := Nat.mod_lt (f cl) (show 0 < pinOf s cl - 1 by omega)
    exact .inl ⟨under.1, under.2.1, under.2.2, by omega⟩
  · have falls := ((mem_able s cl).1 (List.mem_of_getElem? able)).2
    have := Nat.mod_lt (f cl) (show 0 < clockOf s cl - clockFloor s cl by omega)
    exact .inr (.inl ⟨under, by omega, by omega⟩)
  · exact .inr (.inr ⟨under, rfl⟩)

theorem cooler_le (cl : Nat) : cooler s f cl ≤ clockOf s cl := by
  rcases cooler_cases s f cl with h | h | h <;> omega

/-- Where a clock may fall, one does. -/
theorem cooler_lt {cl : Nat} (hcl : cl < 16) (able : clockFloor s cl < clockOf s cl) : ∃ k, k < 16 ∧ cooler s f k < clockOf s k := by
  have some_able := List.length_pos_of_mem ((mem_able s cl).2 ⟨hcl, able⟩)
  have place := Nat.mod_lt (f 16) some_able
  obtain ⟨hk, falls⟩ := (mem_able s _).1 (List.getElem_mem place)
  refine ⟨_, hk, ?_⟩
  have chosen := List.getElem?_eq_getElem place
  generalize ((List.range 16).filter fun k => decide (clockFloor s k < clockOf s k))[f 16 % _] = k at *
  rcases cooler_cases s f k with h | h | ⟨under, -⟩
  · omega
  · exact h.2.2
  · have value : cooler s f k = clockFloor s k + f k % (clockOf s k - clockFloor s k) := (if_neg under).trans (if_pos chosen)
    have := Nat.mod_lt (f k) (show 0 < clockOf s k - clockFloor s k by omega)
    omega

end

/-- The device lowers clocks: those of the clusters that it cools. -/
theorem lowerClocks_eq (s : State) : ∃ f, Clocked s (lowerClocks s) ∧ (s.clock.length = 16 → ∀ cl, cl < 16 → clockOf (lowerClocks s) cl = cooler s f cl) := by
  let f := (s.drawMany 17).2
  let u := (s.drawMany 17).1
  obtain ⟨clocked, -, clock⟩ := setClocks_eq (fun cl => ((List.range 16).map (cooler u f))[cl]?.getD 0) (List.range 16) u
  refine ⟨f, Clocked.trans (t := u) rfl clocked, fun sized cl hcl => ?_⟩
  refine (clock cl (by show cl < s.clock.length; omega)).trans ?_
  rw [if_pos (List.mem_range.2 hcl), List.getElem?_map, List.getElem?_range hcl]
  rfl

/-- The hottest junction stands at a temperature. -/
def atTemp (s : State) (on : Bool) (temp : Nat) : State :=
  s.setMgmt fun m => { m with temp := BitVec.ofNat 8 (capAt temp 255), throttling := on || decide (105 < temp) }

/-- Clocks are lowered for the temperature, or as the device chooses. -/
def cooled (s : State) (on : Bool) (temp : Nat) : State :=
  if on || decide (105 < temp) then lowerClocks (atTemp s on temp) else atTemp s on temp

/-- The device event that 110 °C raises, once (R428). -/
def hotMsgs (s : State) (temp : Nat) : List Msg := if 110 ≤ temp ∧ s.mgmt.pinnedLow = false then [eventMsg 1] else []

/-- The device at a temperature, but for a thermal trip. -/
def warmed (s : State) (on : Bool) (temp : Nat) : State :=
  let u := cooled s on temp
  { u with mgmt := { u.mgmt with pinnedLow := decide (110 ≤ temp) || (s.mgmt.pinnedLow && belowPin u) }, outbox := hotMsgs s temp ++ s.outbox }

theorem cooled_clocked (s : State) (on : Bool) (temp : Nat) : Clocked (atTemp s on temp) (cooled s on temp) := by
  unfold cooled
  split
  · obtain ⟨-, clocked, -⟩ := lowerClocks_eq (atTemp s on temp)
    exact clocked
  · rfl

theorem heat_eq (s : State) (on : Bool) (temp : Nat) : heat s on temp = if 115 ≤ temp then fatalStop (warmed s on temp) 3 else warmed s on temp := by
  have low : (cooled s on temp).mgmt.pinnedLow = s.mgmt.pinnedLow := (congrArg (fun u => u.mgmt.pinnedLow) (cooled_clocked s on temp) :)
  have box : (cooled s on temp).outbox = s.outbox := (congrArg State.outbox (cooled_clocked s on temp) :)
  have told : (if decide (110 ≤ temp) && !s.mgmt.pinnedLow then
        deviceEvent ((cooled s on temp).setMgmt fun m => { m with pinnedLow := decide (110 ≤ temp) || (m.pinnedLow && belowPin (cooled s on temp)) }) 1
      else (cooled s on temp).setMgmt fun m => { m with pinnedLow := decide (110 ≤ temp) || (m.pinnedLow && belowPin (cooled s on temp)) }) = warmed s on temp := by
    unfold warmed hotMsgs
    rw [deviceEvent_eq _ (by decide), ← low, ← box]
    by_cases rises : 110 ≤ temp ∧ (cooled s on temp).mgmt.pinnedLow = false
    · rw [if_pos (by simp [rises]), if_pos rises]
      rfl
    · rw [if_neg (by simpa using rises), if_neg rises]
      rfl
  rw [← told]
  rfl

/-- What a temperature changes: the thermal fields, clocks with what follows them, and the messages told (R23, R428). -/
def Warmed (s t : State) (on : Bool) (temp : Nat) (told : List Msg) : Prop :=
  t = { s with mgmt := t.mgmt, clock := t.clock, phase := t.phase, traces := t.traces, draws := t.draws, outbox := told ++ s.outbox }
  ∧ t.mgmt = { s.mgmt with temp := BitVec.ofNat 8 temp, throttling := on || decide (105 < temp), pinnedLow := t.mgmt.pinnedLow }
  ∧ (t.mgmt.pinnedLow = true ↔ 110 ≤ temp ∨ (s.mgmt.pinnedLow = true ∧ BelowPin t))
  ∧ (on = false → temp ≤ 105 → t.clock = s.clock ∧ t.traces = s.traces)
  ∧ (s.clock.length = 16 → (∀ cl, cl < 16 → t.clock[cl]?.getD 0 ≤ s.clock[cl]?.getD 0)
      ∧ (on = true ∨ 105 < temp → (∃ cl, cl < 16 ∧ 1 < s.clock[cl]?.getD 0 ∧ ∀ c, c / 4 = cl → corePin s c < s.clock[cl]?.getD 0) → t.clock ≠ s.clock)
      ∧ ∀ c, c < 64 → corePin s c ≤ s.clock[c / 4]?.getD 0 → 1 < corePin s c →
          if temp < 110 then corePin s c ≤ t.clock[c / 4]?.getD 0 else BelowPin t)

/-- What the device's choice among clocks leaves (log entry 34): none rises, one falls where one may, and pins hold below 110 °C and at least one gives way at it. -/
theorem lowerClocks_bounds {v : State} (sized : v.clock.length = 16) :
    (∀ cl, cl < 16 → clockOf (lowerClocks v) cl ≤ clockOf v cl)
    ∧ ((∃ cl, cl < 16 ∧ 1 < clockOf v cl ∧ ∀ c, c / 4 = cl → corePin v c < clockOf v cl) → (lowerClocks v).clock ≠ v.clock)
    ∧ ∀ c, c < 64 → corePin v c ≤ clockOf v (c / 4) → 1 < corePin v c →
        if v.mgmt.temp.toNat < 110 then corePin v c ≤ clockOf (lowerClocks v) (c / 4) else clockOf (lowerClocks v) (c / 4) < pinOf v (c / 4) := by
  obtain ⟨f, -, clock⟩ := lowerClocks_eq v
  have clock := clock sized
  refine ⟨fun cl hcl => (clock cl hcl).trans_le (cooler_le v f cl), ?_, fun c hc holds one => ?_⟩
  · rintro ⟨cl, hcl, runs, above⟩ same
    have pin : pinOf v cl < clockOf v cl := Nat.lt_of_not_le fun le => by
      obtain ⟨c, here, lt⟩ := lt_pinOf.1 (Nat.sub_one_lt_of_le (by omega) le)
      have := above c here
      omega
    have floor : clockFloor v cl < clockOf v cl := by
      by_cases hot : 110 ≤ v.mgmt.temp.toNat
      · rw [clockFloor_hot hot]
        exact runs
      · rw [clockFloor_cold (by omega)]
        omega
    obtain ⟨k, hk, falls⟩ := cooler_lt v f hcl floor
    rw [← clock k hk, clockOf, same] at falls
    exact absurd falls (Nat.lt_irrefl _)
  · have pin := corePin_le_pinOf v c
    rw [clock _ (by omega)]
    split_ifs with cold
    · rcases cooler_cases v f (c / 4) with h | ⟨-, floor, -⟩ | h
      · omega
      · rw [clockFloor_cold cold] at floor
        omega
      · omega
    · rcases cooler_cases v f (c / 4) with h | h | h <;> omega

theorem warmed_heats (s : State) (on : Bool) {temp : Nat} (cap : temp ≤ 255) : Warmed s (warmed s on temp) on temp (hotMsgs s temp) := by
  have clocked := cooled_clocked s on temp
  have capped : capAt temp 255 = temp := by
    unfold capAt
    split <;> omega
  have temperature : (atTemp s on temp).mgmt.temp.toNat = temp := by
    show (BitVec.ofNat 8 (capAt temp 255)).toNat = temp
    rw [capped, BitVec.toNat_ofNat]
    omega
  have reserved : (cooled s on temp).reserved = s.reserved := (congrArg State.reserved clocked :)
  have pinned : (cooled s on temp).pinned = s.pinned := (congrArg State.pinned clocked :)
  have pin : corePin (cooled s on temp) = corePin s := by
    funext c
    rw [corePin, corePin, reserved, pinned]
  have frame : ∀ u, Clocked (atTemp s on temp) u → ∀ (m : Mgmt) (box : List Msg), ({ u with mgmt := m, outbox := box } : State)
      = { s with mgmt := m, clock := u.clock, phase := u.phase, traces := u.traces, draws := u.draws, outbox := box } := by
    intro u h m box
    rw [h]
    rfl
  have mgmt : (cooled s on temp).mgmt = { s.mgmt with temp := BitVec.ofNat 8 (capAt temp 255), throttling := on || decide (105 < temp) } :=
    (congrArg State.mgmt clocked :)
  rw [capped] at mgmt
  refine ⟨frame _ clocked _ _, ?_, ?_, fun off cool => ?_, fun sized => ?_⟩
  · exact congrArg (fun m : Mgmt => { m with pinnedLow := (warmed s on temp).mgmt.pinnedLow }) mgmt
  · show (decide (110 ≤ temp) || (s.mgmt.pinnedLow && belowPin (cooled s on temp))) = true ↔ _
    rw [Bool.or_eq_true, Bool.and_eq_true, decide_eq_true_eq, belowPin_iff]
    rfl
  · have stays : cooled s on temp = atTemp s on temp := if_neg (by simp [off, cool])
    show (cooled s on temp).clock = s.clock ∧ (cooled s on temp).traces = s.traces
    rw [stays]
    exact ⟨rfl, rfl⟩
  · have below : BelowPin (warmed s on temp) ↔ ∃ c, c < 64 ∧ clockOf (cooled s on temp) (c / 4) < corePin s c := by
      rw [← pin]
      rfl
    have given : ∀ c, c < 64 → clockOf (cooled s on temp) (c / 4) < pinOf s (c / 4) → BelowPin (warmed s on temp) := by
      intro c hc lt
      obtain ⟨d, same, lt⟩ := lt_pinOf.1 lt
      exact below.2 ⟨d, by omega, same ▸ lt⟩
    by_cases low : on = true ∨ 105 < temp
    · have lowers : cooled s on temp = lowerClocks (atTemp s on temp) := if_pos (by simpa using low)
      obtain ⟨falls, one_falls, pins⟩ := lowerClocks_bounds (v := atTemp s on temp) sized
      rw [← lowers, temperature] at *
      refine ⟨falls, fun _ => one_falls, fun c hc holds one => ?_⟩
      have pins := pins c hc holds one
      split_ifs at pins ⊢
      · exact pins
      · exact given c hc pins
    · have stays : cooled s on temp = atTemp s on temp := if_neg (by simpa using low)
      have clock : (warmed s on temp).clock = s.clock := by
        show (cooled s on temp).clock = _
        rw [stays]
        rfl
      rw [clock]
      refine ⟨fun _ _ => Nat.le_refl _, fun on => absurd on low, fun c hc holds one => ?_⟩
      rw [if_pos (by omega)]
      exact holds

theorem exec_throttle {s : State} (on : Bool) {temp : Nat} (cool : temp < 115) :
    exec (.throttle on temp) s = .next (warmed s on temp) :=
  congrArg Host.Outcome.next ((heat_eq s on temp).trans (if_neg (by omega)))

theorem exec_throttle_trip {s : State} (on : Bool) {temp : Nat} (hot : 115 ≤ temp) (ready : s.mgmt.boot = .ready) :
    ∃ t, exec (.throttle on temp) s = .next t ∧ t.fatal = 3 ∧ t.mgmt.boot = .fatal := by
  have boot : (warmed s on temp).mgmt.boot = s.mgmt.boot := (congrArg (fun u => u.mgmt.boot) (cooled_clocked s on temp) :)
  exact ⟨_, congrArg Host.Outcome.next ((heat_eq s on temp).trans (if_pos hot)), fatalStop_fatal (boot.trans ready) 3⟩

theorem Warmed.tell {s t : State} {on : Bool} {temp : Nat} (h : Warmed s t on temp []) (m : Msg) :
    Warmed s { t with outbox := m :: t.outbox } on temp [m] := by
  obtain ⟨frame, rest⟩ := h
  have box : t.outbox = s.outbox := (congrArg State.outbox frame :)
  rw [box]
  exact ⟨congrArg (fun u : State => { u with outbox := m :: s.outbox }) frame, rest⟩

/-- A pinned clock is lowered: the temperature is 110 °C at least, and device event 1 tells it each time. -/
theorem exec_pinnedClockLower {s : State} (cool : s.mgmt.temp.toNat < 115) :
    ∃ t, exec .pinnedClockLower s = .next t ∧ Warmed s t true (if s.mgmt.temp.toNat < 110 then 110 else s.mgmt.temp.toNat) [eventMsg 1] := by
  generalize ht : (if s.mgmt.temp.toNat < 110 then 110 else s.mgmt.temp.toNat) = temp
  have range : 110 ≤ temp ∧ temp < 115 := by
    subst ht
    split <;> omega
  have run : exec .pinnedClockLower s = .next (if s.mgmt.pinnedLow then deviceEvent (warmed s true temp) 1 else warmed s true temp) := by
    have heats : heat s true temp = warmed s true temp := (heat_eq s true temp).trans (if_neg (by omega))
    rw [← heats, ← ht]
    rfl
  have warm := warmed_heats s true (temp := temp) (by omega)
  cases low : s.mgmt.pinnedLow with
  | true =>
    rw [low, if_pos rfl, deviceEvent_eq _ (by decide)] at run
    have silent : hotMsgs s temp = [] := if_neg (by simp [low])
    rw [silent] at warm
    exact ⟨_, run, warm.tell _⟩
  | false =>
    rw [low, if_neg (by decide)] at run
    have told : hotMsgs s temp = [eventMsg 1] := if_pos ⟨range.1, low⟩
    rw [told] at warm
    exact ⟨_, run, warm⟩

/-- A thermal trip is a fatal error behind what 115 °C changes. -/
theorem exec_thermalTrip (s : State) : ∃ u, exec .thermalTrip s = .next (fatalStop u 3)
    ∧ u = { s with mgmt := u.mgmt, clock := u.clock, phase := u.phase, traces := u.traces, draws := u.draws,
                   outbox := (if s.mgmt.pinnedLow then [] else [eventMsg 1]) ++ s.outbox } ∧ u.mgmt.boot = s.mgmt.boot := by
  generalize ht : (if s.mgmt.temp.toNat < 115 then 115 else s.mgmt.temp.toNat) = temp
  have range : 115 ≤ temp ∧ temp ≤ 255 := by
    have := s.mgmt.temp.isLt
    subst ht
    split <;> omega
  have run : exec .thermalTrip s = .next (heat s true temp) := by
    rw [← ht]
    rfl
  rw [heat_eq, if_pos range.1] at run
  obtain ⟨frame, mgmt, -⟩ := warmed_heats s true range.2
  have told : hotMsgs s temp = if s.mgmt.pinnedLow then [] else [eventMsg 1] := by
    unfold hotMsgs
    cases s.mgmt.pinnedLow with
    | true => exact if_neg (by simp)
    | false => exact if_pos ⟨by omega, rfl⟩
  rw [told] at frame
  exact ⟨_, run, frame, (congrArg Mgmt.boot mgmt :)⟩

/-! ### CLOCK_CHANGE (R23, R375) -/

theorem exec_clockChange_refused {cl mhz : Nat} {s : State} (h : 16 ≤ cl ∨ 2200 < mhz ∨ mhz < clockFloor s cl) : exec (.clockChange cl mhz) s = .next s :=
  congrArg Host.Outcome.next (if_pos h)

/-- A cluster without traced contexts takes a clock. -/
theorem exec_clockChange {cl mhz : Nat} {s : State} (hcl : cl < 16) (untraced : tracedCtxs s cl = []) (cap : mhz ≤ 2200) (floor : clockFloor s cl ≤ mhz) :
    ∃ t, exec (.clockChange cl mhz) s = .next t ∧ t = { s with
        clock := setAt s.clock cl mhz, phase := setAt s.phase cl 0, traces := modAt s.traces cl fun u => { u with lastSync := s.cyc[cl]?.getD 0 }
        mgmt := { s.mgmt with pinnedLow := t.mgmt.pinnedLow } }
      ∧ (t.mgmt.pinnedLow = true ↔ s.mgmt.pinnedLow = true ∧ (110 ≤ s.mgmt.temp.toNat ∨ BelowPin t)) := by
  have clocked : setClock s cl mhz = { s with
      clock := setAt s.clock cl mhz, phase := setAt s.phase cl 0, traces := modAt s.traces cl fun u => { u with lastSync := s.cyc[cl]?.getD 0 } } := by
    have none_traced : tracedCtxs { s with clock := setAt s.clock cl mhz, phase := setAt s.phase cl 0 } cl = [] := untraced
    unfold setClock
    dsimp only
    rw [none_traced]
    rfl
  have run : exec (.clockChange cl mhz) s = .next ((setClock s cl mhz).setMgmt fun m =>
      { m with pinnedLow := m.pinnedLow && (decide (110 ≤ m.temp.toNat) || belowPin (setClock s cl mhz)) }) := congrArg Host.Outcome.next (if_neg (by omega))
  rw [clocked] at run
  refine ⟨_, run, rfl, ?_⟩
  refine (Bool.and_eq_true ..).to_iff.trans (and_congr Iff.rfl ?_)
  rw [Bool.or_eq_true, decide_eq_true_eq, belowPin_iff]
  rfl

/-- A clock that no pin of the cluster exceeds, or one not below the present clock, or any at 110 °C, is not below the floor. -/
theorem clockFloor_le {cl mhz : Nat} {s : State} (runs : 1 ≤ mhz)
    (h : (∀ c, c / 4 = cl → corePin s c ≤ mhz) ∨ 110 ≤ s.mgmt.temp.toNat ∨ clockOf s cl ≤ mhz) : clockFloor s cl ≤ mhz := by
  by_cases hot : 110 ≤ s.mgmt.temp.toNat
  · rw [clockFloor_hot hot]
    exact runs
  · rw [clockFloor_cold (by omega)]
    rcases h with unpinned | cold | slower
    · have : pinOf s cl ≤ mhz := Nat.le_of_not_lt fun lt => by
        obtain ⟨c, here, lt⟩ := lt_pinOf.1 lt
        exact absurd (unpinned c here) (Nat.not_le_of_lt lt)
      omega
    · exact absurd cold hot
    · omega

/-- Below 110 °C a clock falls below no pin. -/
theorem lt_clockFloor {cl mhz c : Nat} {s : State} (cold : s.mgmt.temp.toNat < 110) (falls : mhz < clockOf s cl) (here : c / 4 = cl) (pinned : mhz < corePin s c) :
    mhz < clockFloor s cl := by
  have := lt_pinOf.2 ⟨c, here, pinned⟩
  rw [clockFloor_cold cold]
  omega

/-- Settles O54: each clause by the equation of its event above. -/
theorem deviceActs : Obligations.DeviceActs := by
  unfold Obligations.DeviceActs
  intro ev enter calm open_ inside home
  have takes {s : State} {src : Party} {pa n : Nat} (h : home s src pa n) : linkTakes s src = true ∧ homeTakes s src pa n = true := by
    obtain ⟨opened, first, last, within⟩ := h
    exact ⟨(linkTakes_iff s src).2 opened, (homeTakes_iff s src pa n).2 ⟨first, last, within⟩⟩
  refine ⟨fun s => exec_powerOn_reset, fun s h wf => ⟨_, exec_powerOn h, rfl, rfl, rfl, rfl, rfl, rfl, fun a lo => ?_, fun a hi => ?_, rfl⟩, fun s => exec_rom,
    fun s h => ⟨fun whole fails => ?_, fun cut => exec_verify_open h cut, fun whole passes => ?_⟩, imageError_eq_zero, fun s => exec_fwinit, exec_drvring,
    fun v s => ⟨fun no => ?_, fun key bit => ?_⟩, fun v s => exec_invalCtl v, fun s due unwatched => ?_, fun v s => exec_fresp, fun v s => exec_power,
    fun v s h => ⟨exec_mgmtRegisterWrite_invalVa h, exec_mgmtRegisterWrite_peerWin h⟩, fun off v s => exec_mgmtRegisterWrite_mailbox v s,
    fun off v s h => exec_mgmtRegisterWrite_other v s (h.imp_right .inr), fun v off s h => exec_mgmtRegisterWrite_hold v h, fun len s => exec_mbxBootImage,
    fun len s free => ⟨exec_mbxQuote_early free, exec_mbxQuote free⟩, fun a s => ⟨fun opened => ?_, fun shut => ?_⟩,
    fun s ready up => ⟨exec_peerTimeExchange_ask ready up, fun h d1 d2 t => exec_peerTimeExchange_answer ready up⟩,
    fun src pa len s lo hi h => exec_rd (takes h).1 lo hi (takes h).2, fun src pa bs s lo hi h => exec_wr (takes h).1 lo hi (takes h).2,
    fun src op pa v c s aligned h => exec_atm (takes h).1 aligned (takes h).2, fun src pa s opened remote => ?_,
    fun pa len bs op v c s up running outside sized atoms => ?_, fun pa s => exec_own, fun pa s h => ?_, fun up s => exec_peerLinkChange,
    fun s ready untracked => ?_, ⟨fun on temp s => ⟨fun cool => ⟨_, exec_throttle on cool, warmed_heats s on (by omega)⟩, exec_throttle_trip on⟩,
      fun s => exec_pinnedClockLower⟩, fun cl mhz s hcl untraced => ⟨fun runs cap free => ?_, fun bad => ?_⟩⟩
  case refine_1 =>
    exact (Mem.get_filter wf a).trans (if_neg (by omega))
  case refine_2 =>
    exact (Mem.get_filter wf a).trans (if_pos hi)
  case refine_3 =>
    rw [exec_verify h whole, if_neg fails, enterBoot_eq]
    rfl
  case refine_4 =>
    have run := exec_verify h whole
    rw [if_pos passes, enterBoot_eq] at run
    exact ⟨_, run, rfl, rfl, rfl, rfl⟩
  case refine_5 => rw [exec_ctl, if_neg no]
  case refine_6 =>
    have run := exec_ctl v s
    rw [if_pos ⟨key, bit⟩] at run
    exact ⟨_, run, rfl, rfl, rfl, rfl, rfl⟩
  case refine_7 =>
    have hit (e : TlbEntry) : (!(e.pasid == s.mgmt.invalAtPasid.toNat && invalHits s.mgmt e.vpn)) = true ↔ ¬ (e.pasid = s.mgmt.invalAtPasid.toNat
        ∧ (s.mgmt.invalAtAll = true ∨ (s.mgmt.invalAt.toNat % 2 ^ 52 / 2 ^ 12 ≤ e.vpn
            ∧ e.vpn < s.mgmt.invalAt.toNat % 2 ^ 52 / 2 ^ 12 + 2 ^ (s.mgmt.invalAt.toNat % 64)))) := by
      rw [Bool.not_eq_true', ← Bool.not_eq_true, Bool.and_eq_true, beq_iff_eq, invalHits_iff]
    refine ⟨_, exec_invalidationComplete due unwatched, rfl, fun e => ?_, fun e => ?_, fun e he => (List.mem_filter.1 he).1, fun all e he same => ?_⟩
    · exact List.mem_filter.trans (and_congr Iff.rfl (hit e))
    · exact List.mem_filter.trans (and_congr Iff.rfl (hit e))
    · have kept := (List.mem_filter.1 he).2
      simp [same, walkHits, all] at kept
  case refine_8 => rw [exec_time, if_pos ((linkTakes_iff s a.src).2 opened)]
  case refine_9 => rw [exec_time, linkTakes_eq_false shut, if_neg (by decide)]
  case refine_10 =>
    have opened := (linkTakes_iff s src).2 opened
    exact ⟨fun len => exec_rd_error opened (homeTakes_of_remote _ remote), fun bs => exec_wr_error opened (homeTakes_of_remote _ remote),
      fun op v c => exec_atm_error opened (homeTakes_of_remote _ remote)⟩
  case refine_11 =>
    have opened := (linkTakes_iff s .peer).2 ⟨running, .inr up⟩
    exact ⟨exec_rd_error opened (homeTakes_of_outside outside), exec_wr_error opened (homeTakes_of_outside (sized ▸ outside)),
      exec_atm_error opened (homeTakes_of_outside (atoms ▸ outside))⟩
  case refine_12 =>
    exact ⟨_, exec_snp h, rfl, fun l => by simp [List.mem_filter], fun l => by simp [List.mem_filter]⟩
  case refine_13 =>
    intro engines Stops
    have busy (u : State) : engines u ↔ ¬ EnginesIdle u := by
      show (u.copies ≠ [] ∨ u.cols ≠ [] ∨ u.dyns ≠ [] ∨ ∃ g ∈ u.groups, g.ops ≠ []) ↔ _
      simp only [EnginesIdle, not_and_or, not_forall, exists_prop]
    have stops {x : Instr} {u : State} {cause : Nat} {told : List Msg} (run : exec x s = .next (fatalStop u cause))
        (frame : u = { s with mgmt := u.mgmt, clock := u.clock, phase := u.phase, traces := u.traces, draws := u.draws, outbox := told ++ s.outbox })
        (boot : u.mgmt.boot = .ready) : Stops x cause told := by
      have ctxs : u.ctxs = s.ctxs := (congrArg State.ctxs frame :)
      have mem : u.mem = s.mem := (congrArg State.mem frame :)
      have box : u.outbox = told ++ s.outbox := (congrArg State.outbox frame :)
      have base : u.dumpBase = s.dumpBase := (congrArg State.dumpBase frame :)
      have size : u.dumpSize = s.dumpSize := (congrArg State.dumpSize frame :)
      have copies : u.copies = s.copies := (congrArg State.copies frame :)
      have groups : u.groups = s.groups := (congrArg State.groups frame :)
      have lines : u.hostLines = s.hostLines := (congrArg State.hostLines frame :)
      have idle : EnginesIdle u ↔ EnginesIdle s := by
        rw [frame]
        rfl
      have stopped := fatalStop_stops boot (ctxs ▸ untracked) cause
      refine ⟨_, run, stopped.shown, stopped.boot, copies ▸ stopped.copies, fun works => ?_, fun rests => ?_, fun rests unheld => ?_,
        fun bare => mem ▸ stopped.without_region (base.trans bare), fun region wf a out => ?_⟩
      · obtain ⟨owed, same, told⟩ := stopped.owes ((busy _).1 works)
        exact ⟨owed, same.trans mem, told.trans box⟩
      · obtain ⟨done, err, same⟩ := stopped.done (idle.2 (not_not.1 (mt (busy s).2 rests)))
        exact ⟨done, err, same.trans groups⟩
      · rw [stopped.told (idle.2 (not_not.1 (mt (busy s).2 rests))) (lines.trans unheld), box]
        rfl
      · exact (stopped.outside_region (base ▸ region) (mem ▸ wf) a (base ▸ size ▸ out)).trans (congrArg (Mem.get · a) mem)
    refine ⟨fun cause lo hi => stops (u := s) (congrArg Host.Outcome.next (if_neg (by omega))) rfl ready, stops (u := s) rfl rfl ready, ?_⟩
    obtain ⟨u, run, frame, boot⟩ := exec_thermalTrip s
    exact stops run frame (boot.trans ready)
  case refine_14 =>
    have unpinned_le (c : Nat) (unpinned : ¬ (c / 4 = cl ∧ (s.reserved[c]?).join ≠ none ∧ mhz < s.pinned[c]?.getD 0)) (here : c / 4 = cl) : corePin s c ≤ mhz :=
      Nat.le_of_not_lt fun above => unpinned ⟨here, lt_corePin.1 above⟩
    obtain ⟨t, run, frame, low⟩ := exec_clockChange hcl untraced cap (clockFloor_le runs (free.imp_left fun unpinned c => unpinned_le c (unpinned c)))
    have reserved : t.reserved = s.reserved := (congrArg State.reserved frame :)
    have pinned : t.pinned = s.pinned := (congrArg State.pinned frame :)
    refine ⟨t, run, frame, low.trans (and_congr Iff.rfl (or_congr Iff.rfl ?_))⟩
    simp only [BelowPin, lt_corePin, reserved, pinned]
  case refine_15 =>
    refine exec_clockChange_refused (.inr ?_)
    rcases bad with stops | fast | ⟨cold, falls, c, here, reserved, pinned⟩
    · have one : 1 ≤ clockFloor s cl := by
        by_cases hot : 110 ≤ s.mgmt.temp.toNat
        · rw [clockFloor_hot hot]
        · rw [clockFloor_cold (by omega)]
          omega
      exact .inr (by omega)
    · exact .inl fast
    · exact .inr (lt_clockFloor cold falls here (lt_corePin.2 ⟨reserved, pinned⟩))

end Sys2Proof.Machine
end

section
/-! PROOFS. Translations depend on a few parts of the state alone; the packets of Table 18-4 (O52). -/

namespace Sys2Proof.Machine

open Sys2Proof

/-! ### What translations depend on (R416 to R420) -/

/-- Two states translate alike: they have the same memory, contexts, TLBs, walk caches, management window and step number. -/
structure SameMaps (s t : State) : Prop where
  mem : t.mem = s.mem
  ctxs : t.ctxs = s.ctxs
  tlb : t.tlb = s.tlb
  tlb2 : t.tlb2 = s.tlb2
  walks : t.walks = s.walks
  mgmt : t.mgmt = s.mgmt
  steps : t.steps = s.steps

section
variable {s t : State} (h : SameMaps s t)
include h

theorem SameMaps.ctx (pasid : Nat) : t.ctx pasid = s.ctx pasid := by
  simp only [State.ctx, State.ctxAt, h.ctxs]

theorem SameMaps.walkFrom (held : Nat → Nat → Nat) (va : Nat) (ls : List (Nat × Nat × Nat)) (base : Nat) : walkFrom t held va ls base = walkFrom s held va ls base := by
  have entry (b e : Nat) : contEntry t b va e = contEntry s b va e := by
    unfold contEntry State.oracle
    rw [h.mem, h.steps]
  induction ls generalizing base with
  | nil => rfl
  | cons l ls ih =>
    obtain ⟨level, low, k⟩ := l
    simp only [Machine.walkFrom, entry, ih, h.mem]

theorem SameMaps.walkNow (pasid va : Nat) : walkNow t pasid va = walkNow s pasid va := by
  unfold Machine.walkNow walkWith walkHeld State.oracle
  rw [h.walks, h.steps, h.ctx, h.walkFrom]

theorem SameMaps.xlate (core pasid va : Nat) : xlate t core pasid va = xlate s core pasid va := by
  unfold Machine.xlate tlbHit State.oracle
  rw [h.walkNow, h.ctx, h.tlb, h.tlb2, h.mgmt, h.steps]

theorem SameMaps.access (core pasid va : Nat) (k : AccKind) : access t core pasid va k = access s core pasid va k := by
  unfold Machine.access peerRefuses State.oracle
  rw [h.xlate, h.ctx, h.steps]

theorem SameMaps.chovisPa (pasid va : Nat) (k : AccKind) : chovisPa t pasid va k = chovisPa s pasid va k := by
  simp only [Machine.chovisPa, h.access, h.ctx]

theorem SameMaps.chovisRead (pasid va n : Nat) : chovisRead t pasid va n = chovisRead s pasid va n := by
  simp only [Machine.chovisRead, h.chovisPa, h.mem]

theorem SameMaps.reached (pasid : Nat) (n : Need) : reached t pasid n = reached s pasid n := by
  simp only [Machine.reached, h.chovisPa]

end

theorem SameMaps.refl (s : State) : SameMaps s s := ⟨rfl, rfl, rfl, rfl, rfl, rfl, rfl⟩

/-- Queues take no part in translation. -/
theorem SameMaps.modQ (s : State) (q : Nat) (f : Queue → Queue) : SameMaps s (s.modQ q f) := ⟨rfl, rfl, rfl, rfl, rfl, rfl, rfl⟩

/-- An operand that translates. -/
theorem chovisPa_of_access {s : State} {pasid va pa : Nat} {k : AccKind} (alive : (s.ctx pasid).alive = true) (finds : ∃ x, access s 64 pasid va k = .ok (pa, x)) :
    chovisPa s pasid va k = some pa := by
  obtain ⟨x, ok⟩ := finds
  rw [chovisPa, chovisCore, ok, if_neg (by rw [alive]; decide)]

theorem reached_of_chovisPa {s : State} {pasid va pa : Nat} {k : AccKind} (h : chovisPa s pasid va k = some pa) : reached s pasid ⟨va, k⟩ = true := by
  rw [reached, h]
  rfl

theorem chovisWrite_of_chovisPa {s : State} {pasid va pa : Nat} (h : chovisPa s pasid va .write = some pa) (bs : List Byte) :
    chovisWrite s pasid va bs = some (s.outsideWrite pa bs) := by
  rw [chovisWrite, h]
  rfl

/-! ### Queues in the state -/

theorem find?_setAssoc_self {α : Type} (xs : List (Nat × α)) (k : Nat) (v : α) : (setAssoc xs k v).find? (fun e => e.1 == k) = some (k, v) := by
  induction xs with
  | nil => simp [setAssoc]
  | cons x xs ih =>
    obtain ⟨j, w⟩ := x
    rw [setAssoc]
    split_ifs with before here
    · simp
    · simp
    · rw [List.find?_cons_of_neg (by simpa using fun e => here e.symm)]
      exact ih

@[simp] theorem State.queue_setQueue (s : State) (q : Nat) (v : Queue) : (s.setQueue q v).queue q = v := by
  have found := find?_setAssoc_self s.queues q v
  simp only [State.queue, State.setQueue, found]

@[simp] theorem State.queue_modQ (s : State) (q : Nat) (f : Queue → Queue) : (s.modQ q f).queue q = f (s.queue q) :=
  State.queue_setQueue s q _

theorem State.queue_congr {s t : State} (h : t.queues = s.queues) (q : Nat) : t.queue q = s.queue q := by
  simp only [State.queue, h]

/-! ### What the service of a queue changes -/

/-- The service of queues changes queues, memory with what follows its writes, and the messages told. -/
def Served (s t : State) : Prop := ∃ qs m ws bad lines recalls box,
  t = { s with queues := qs, mem := m, memBad := bad, woas := ws, hostLines := lines, recalls := recalls, outbox := box }

theorem Served.refl (s : State) : Served s s := ⟨_, _, _, _, _, _, _, rfl⟩

theorem Served.trans {s t u : State} (h : Served s t) (k : Served t u) : Served s u := by
  obtain ⟨_, _, _, _, _, _, _, rfl⟩ := h
  obtain ⟨_, _, _, _, _, _, _, rfl⟩ := k
  exact ⟨_, _, _, _, _, _, _, rfl⟩

theorem Served.modQ (s : State) (q : Nat) (f : Queue → Queue) : Served s (s.modQ q f) := ⟨_, _, _, _, _, _, _, rfl⟩

theorem WroteOutside.served {s t : State} (h : WroteOutside s t) : Served s t := by
  obtain ⟨_, _, _, _, _, _, rfl⟩ := h
  exact ⟨_, _, _, _, _, _, _, rfl⟩

theorem WroteOutside.queues {s t : State} (h : WroteOutside s t) : t.queues = s.queues := by
  obtain ⟨_, _, _, _, _, _, rfl⟩ := h
  rfl

/-- A write of Chovis, whether or not its address translates. -/
theorem chovisWrite_wrote (s : State) (pasid va : Nat) (bs : List Byte) : WroteOutside s ((chovisWrite s pasid va bs).getD s) := by
  unfold chovisWrite
  cases chovisPa s pasid va .write with
  | none => exact ⟨_, _, _, _, _, [], rfl⟩
  | some pa => exact outsideWrite_wrote s pa bs

theorem putDesc_wrote (s : State) (q off n v : Nat) : WroteOutside s (putDesc s q off n v) := chovisWrite_wrote ..

/-- A queue whose flights and DONE alone have changed. -/
def Advances (q : Nat) (s t : State) : Prop := Served s t ∧ ∃ fs d, t.queue q = { s.queue q with flights := fs, done := d }

theorem Advances.trans {q : Nat} {s t u : State} (h : Advances q s t) (k : Advances q t u) : Advances q s u := by
  obtain ⟨served, fs, d, queue⟩ := h
  obtain ⟨served', fs', d', queue'⟩ := k
  exact ⟨served.trans served', fs', d', by rw [queue', queue]⟩

theorem WroteOutside.advances {s t : State} (h : WroteOutside s t) (q : Nat) : Advances q s t := ⟨h.served, _, _, State.queue_congr h.queues q⟩

theorem interrupt_advances (s : State) (src vec pasid q : Nat) : Advances q s (s.interrupt src vec pasid) :=
  ⟨⟨_, _, _, _, _, _, _, rfl⟩, _, _, rfl⟩

theorem advanceDone_advances (q n : Nat) (s : State) : Advances q s (advanceDone q n s) := by
  induction n generalizing s with
  | zero => exact ⟨.refl s, _, _, rfl⟩
  | succ n ih =>
    rw [advanceDone]
    split
    · exact ⟨.refl s, _, _, rfl⟩
    next f fs flights =>
      split
      · exact ⟨.refl s, _, _, rfl⟩
      · have passed : Advances q s (s.modQ q fun x => { x with flights := fs, done := (f.index + f.units) % 2 ^ 64 }) := ⟨.modQ .., _, _, State.queue_modQ ..⟩
        have shown := passed.trans ((putDesc_wrote _ q 32 8 ((f.index + f.units) % 2 ^ 64)).advances q)
        refine Advances.trans ?_ (ih _)
        split
        · exact shown.trans (interrupt_advances ..)
        · exact shown

theorem partDone_advances (s : State) (q index : Nat) : Advances q s (partDone s q index) :=
  Advances.trans ⟨.modQ .., _, _, State.queue_modQ ..⟩ (advanceDone_advances ..)

/-- The queue when a packet of its ring has ended. -/
def Queue.endedRing (x : Queue) : Queue :=
  { x with
    proc := .idle, xtok := none, ridx := (x.ridx + x.units) % 2 ^ 64, win := x.win.drop x.units,
    winDesc := x.winDesc.filter (fun d => decide (x.ridx + x.units ≤ d.1)), flights := modAt x.flights (x.flights.length - 1) fun f => { f with ended := true } }

/-- The header word of the packet in processing is zeroed, and nothing waits for it. -/
def headerZeroed (s : State) (q va : Nat) : State :=
  let u := { s with woas := s.woas.filter fun w => w.who != Waiter.queue q }
  (chovisWrite u (s.queue q).pasid va (leBytes 4 0)).getD u

theorem headerZeroed_wrote (s : State) (q va : Nat) : WroteOutside s (headerZeroed s q va) := by
  obtain ⟨m, ws, bad, lines, recalls, told, e⟩ := chovisWrite_wrote { s with woas := s.woas.filter fun w => w.who != Waiter.queue q } (s.queue q).pasid va (leBytes 4 0)
  exact ⟨m, ws, bad, lines, recalls, told, e⟩

theorem endPacket_ring {s : State} {q : Nat} (h : (s.queue q).calls = []) :
    let u := (headerZeroed s q ((s.queue q).unitVa (s.queue q).ridx)).modQ q Queue.endedRing
    endPacket s q = advanceDone q (u.queue q).flights.length (putDesc u q 8 8 (((s.queue q).ridx + (s.queue q).units) % 2 ^ 64)) := by
  have same : (headerZeroed s q ((s.queue q).unitVa (s.queue q).ridx)).queue q = s.queue q := State.queue_congr (headerZeroed_wrote ..).queues q
  have ended : (headerZeroed s q ((s.queue q).unitVa (s.queue q).ridx)).modQ q Queue.endedRing
      = (headerZeroed s q ((s.queue q).unitVa (s.queue q).ridx)).modQ q fun x => { x with
        proc := .idle, xtok := none, ridx := ((s.queue q).ridx + (s.queue q).units) % 2 ^ 64, win := x.win.drop x.units,
        winDesc := x.winDesc.filter (fun d => decide (x.ridx + x.units ≤ d.1)),
        flights := modAt x.flights (x.flights.length - 1) fun f => { f with ended := true } } := by
    rw [State.modQ, State.modQ, same]
    rfl
  rw [ended, endPacket]
  split
  · rfl
  next called => rw [h] at called; cases called

theorem endPacket_call {s : State} {q : Nat} {f : CallFrame} {fs : List CallFrame} (h : (s.queue q).calls = f :: fs) :
    endPacket s q = (headerZeroed s q (f.addr + 16 * f.pos)).modQ q fun x => { x with
      proc := .idle, xtok := none, calls := { f with pos := f.pos + x.units } :: fs } := by
  rw [endPacket]
  split
  next empty => rw [h] at empty; cases empty
  next g gs called =>
    rw [h] at called
    cases called
    rfl

/-- The end of a packet serves its queue, which is idle behind it. -/
theorem endPacket_served (s : State) (q : Nat) : Served s (endPacket s q) ∧ ((endPacket s q).queue q).proc = .idle := by
  cases h : (s.queue q).calls with
  | nil =>
    rw [endPacket_ring h]
    generalize hu : (headerZeroed s q ((s.queue q).unitVa (s.queue q).ridx)).modQ q Queue.endedRing = u
    have served : Served s u := hu ▸ (headerZeroed_wrote ..).served.trans (.modQ ..)
    have idle : (u.queue q).proc = .idle := by rw [← hu, State.queue_modQ]; rfl
    obtain ⟨served', _, _, queue⟩ := ((putDesc_wrote u q 8 8 (((s.queue q).ridx + (s.queue q).units) % 2 ^ 64)).advances q).trans
      (advanceDone_advances q (u.queue q).flights.length _)
    exact ⟨served.trans served', by rw [queue]; exact idle⟩
  | cons f fs =>
    rw [endPacket_call h]
    exact ⟨(headerZeroed_wrote ..).served.trans (.modQ ..), by rw [State.queue_modQ]⟩

theorem finishPacket_served (s : State) (q : Nat) : Served s (finishPacket s q) ∧ ((finishPacket s q).queue q).proc = .idle := by
  obtain ⟨served, idle⟩ := endPacket_served s q
  obtain ⟨served', _, _, queue⟩ := partDone_advances (endPacket s q) q (s.queue q).lastIndex
  exact ⟨served.trans served', (congrArg Queue.proc queue :).trans idle⟩

/-- The queue behind the end of a ring packet, its flights and DONE left open. -/
theorem endPacket_queue {s : State} {q : Nat} (h : (s.queue q).calls = []) : ∃ fs d, (endPacket s q).queue q = { (s.queue q).endedRing with flights := fs, done := d } := by
  have same : (headerZeroed s q ((s.queue q).unitVa (s.queue q).ridx)).queue q = s.queue q := State.queue_congr (headerZeroed_wrote ..).queues q
  rw [endPacket_ring h]
  generalize hu : (headerZeroed s q ((s.queue q).unitVa (s.queue q).ridx)).modQ q Queue.endedRing = u
  have ended : u.queue q = (s.queue q).endedRing := by rw [← hu, State.queue_modQ, same]
  obtain ⟨-, fs, d, queue⟩ := ((putDesc_wrote u q 8 8 (((s.queue q).ridx + (s.queue q).units) % 2 ^ 64)).advances q).trans
    (advanceDone_advances q (u.queue q).flights.length _)
  exact ⟨fs, d, by rw [queue, ended]⟩

/-- The queue behind the end of a packet in a buffer. -/
theorem endPacket_calls {s : State} {q : Nat} {f : CallFrame} {fs : List CallFrame} (h : (s.queue q).calls = f :: fs) :
    ((endPacket s q).queue q).calls = { f with pos := f.pos + (s.queue q).units } :: fs ∧ ((endPacket s q).queue q).ridx = (s.queue q).ridx := by
  have same : (headerZeroed s q (f.addr + 16 * f.pos)).queue q = s.queue q := State.queue_congr (headerZeroed_wrote ..).queues q
  rw [endPacket_call h, State.queue_modQ, same]
  exact ⟨rfl, rfl⟩

/-- The end of a packet leaves the queue's priority. -/
theorem finishPacket_prio (s : State) (q : Nat) : ((finishPacket s q).queue q).prio = (s.queue q).prio := by
  obtain ⟨-, _, _, done⟩ := partDone_advances (endPacket s q) q (s.queue q).lastIndex
  have ended : ((endPacket s q).queue q).prio = (s.queue q).prio := by
    cases h : (s.queue q).calls with
    | nil =>
      obtain ⟨fs, d, queue⟩ := endPacket_queue h
      rw [queue]
      rfl
    | cons f fs =>
      rw [endPacket_call h, State.queue_modQ, State.queue_congr (headerZeroed_wrote ..).queues]
  rw [finishPacket, done]
  exact ended

/-- The end of a ring packet that is alone in flight (R392). -/
theorem finishPacket_alone {s : State} {q : Nat} {x : Flight} (ring : (s.queue q).calls = []) (flights : (s.queue q).flights = [x]) (parts : x.parts = 1) :
    ((finishPacket s q).queue q).ridx = ((s.queue q).ridx + (s.queue q).units) % 2 ^ 64
    ∧ ((finishPacket s q).queue q).win = (s.queue q).win.drop (s.queue q).units
    ∧ (reached (endPacket s q) (s.queue q).pasid (s.queue q).descNeed = true →
        ((finishPacket s q).queue q).done = (x.index + x.units) % 2 ^ 64 ∧ ((finishPacket s q).queue q).flights = []) := by
  have same : (headerZeroed s q ((s.queue q).unitVa (s.queue q).ridx)).queue q = s.queue q := State.queue_congr (headerZeroed_wrote ..).queues q
  have last : (s.queue q).lastIndex = x.index := by rw [Queue.lastIndex, flights]; rfl
  have ended : ∃ v, endPacket s q = v ∧ v.queue q = (s.queue q).endedRing := by
    rw [endPacket_ring ring]
    generalize hu : (headerZeroed s q ((s.queue q).unitVa (s.queue q).ridx)).modQ q Queue.endedRing = u
    have queue : (putDesc u q 8 8 (((s.queue q).ridx + (s.queue q).units) % 2 ^ 64)).queue q = (s.queue q).endedRing := by
      rw [State.queue_congr (putDesc_wrote ..).queues, ← hu, State.queue_modQ, same]
    have one : (s.queue q).endedRing.flights = [{ x with ended := true }] := by rw [Queue.endedRing, flights]; rfl
    refine ⟨_, ?_, queue⟩
    have length : (u.queue q).flights.length = 1 := by rw [← hu, State.queue_modQ, same, one]; rfl
    rw [length, advanceDone, queue, one]
    simp [parts]
  obtain ⟨v, ends, queue⟩ := ended
  have one : (v.queue q).flights = [{ x with ended := true }] := by rw [queue, Queue.endedRing, flights]; rfl
  obtain ⟨-, fs, d, done⟩ := partDone_advances v q x.index
  have finish : finishPacket s q = partDone v q x.index := by rw [finishPacket, last, ends]
  rw [finish, ends]
  refine ⟨by rw [done, queue]; rfl, by rw [done, queue]; rfl, fun reaches => ?_⟩
  have desc : (v.queue q).pasid = (s.queue q).pasid ∧ (v.queue q).descNeed = (s.queue q).descNeed := by rw [queue]; exact ⟨rfl, rfl⟩
  let w := v.modQ q fun y => { y with flights := y.flights.map fun f => if f.index = x.index then { f with parts := f.parts - 1 } else f }
  have complete : (w.queue q).flights = [{ x with ended := true, parts := 0 }] := by
    show ((v.modQ q _).queue q).flights = _
    rw [State.queue_modQ, one]
    simp [parts]
  have own : (w.queue q).pasid = (s.queue q).pasid ∧ (w.queue q).descNeed = (s.queue q).descNeed := by
    show ((v.modQ q _).queue q).pasid = _ ∧ ((v.modQ q _).queue q).descNeed = _
    rw [State.queue_modQ]
    exact desc
  have reaches' : reached w (w.queue q).pasid (w.queue q).descNeed = true := by
    rw [own.1, own.2, ← reaches]
    exact (SameMaps.modQ v q _).reached _ _
  have ran : partDone v q x.index = advanceDone q (w.queue q).flights.length w := rfl
  rw [ran, complete, List.length_singleton, advanceDone, complete]
  dsimp only
  rw [reaches', if_neg (by decide), advanceDone]
  generalize hu : putDesc _ q 32 8 _ = u
  have passed : (u.queue q).done = (x.index + x.units) % 2 ^ 64 ∧ (u.queue q).flights = [] := by
    rw [← hu, State.queue_congr (putDesc_wrote ..).queues, State.queue_modQ]
    exact ⟨rfl, rfl⟩
  split
  · exact passed
  · exact passed

/-! ### A packet whose fields are right begins (R391 to R394) -/

theorem leNat_lt (bs : List Byte) : leNat bs < 256 ^ bs.length := by
  induction bs with
  | nil => exact Nat.one_pos
  | cons b bs ih =>
    have := b.isLt
    rw [leNat, List.length_cons, Nat.pow_succ]
    omega

theorem fieldAt_lt (p : List Byte) (off n : Nat) : fieldAt p off n < 256 ^ n :=
  (leNat_lt _).trans_le (Nat.pow_le_pow_right (by decide) (List.length_take_le ..))

/-- A packet that its thread begins, with a header in which no reserved bit is set, and whose end translates. -/
structure ReadyPacket (s : State) (q : Nat) (p : List Byte) (type : Nat) : Prop where
  next : nextPacket s q = some p
  typed : fieldAt p 0 1 = type
  header : fieldAt p 0 4 < 2 ^ 18
  unlogged : (s.ctx (s.queue q).pasid).replay = false
  ends : type ≤ 0x0D → (endNeeds (s.queue q)).all (reached s (s.queue q).pasid) = true

/-- The state in which a packet of some units is in processing; bit 17 of its header is INTR. -/
def begunPacket (s : State) (q : Nat) (p : List Byte) : State := beginPacket s q (fieldAt p 1 1) (fieldAt p 2 1 / 2 % 2 == 1)

theorem intr_bit (p : List Byte) : bitsOf (fieldAt p 0 4) 17 17 = fieldAt p 2 1 / 2 % 2 := by
  unfold bitsOf fieldAt
  match p with
  | [] => rfl
  | [a] =>
    have := a.isLt
    simp [leNat]
    omega
  | [a, b] =>
    have := a.isLt
    have := b.isLt
    simp [leNat]
    omega
  | [a, b, c] =>
    have := a.isLt
    have := b.isLt
    simp [leNat]
    omega
  | a :: b :: c :: d :: _ =>
    have := a.isLt
    have := b.isLt
    have := c.isLt
    simp [leNat]
    omega

theorem logPacket_unlogged {s : State} {q : Nat} (h : (s.ctx (s.queue q).pasid).replay = false) (p : List Byte) : logPacket s q p = s :=
  State.replayLog_of_not_replay h ..

theorem takeUp_eq {s : State} {q : Nat} {p : List Byte} (h : (s.ctx (s.queue q).pasid).replay = false) (size : fieldAt p 1 1 ≠ 0) :
    takeUp s q p = begunPacket s q p := by
  rw [takeUp, logPacket_unlogged h, begunPacket, intr_bit, packetUnits, unitSize, if_neg size]

theorem begunPacket_maps (s : State) (q : Nat) (p : List Byte) : SameMaps s (begunPacket s q p) := by
  rw [begunPacket, beginPacket]
  exact .modQ ..

theorem begunPacket_queue (s : State) (q : Nat) (p : List Byte) : ∃ fs, (begunPacket s q p).queue q
    = { s.queue q with units := fieldAt p 1 1, xtok := none, lag := none, flights := fs } :=
  ⟨_, State.queue_modQ ..⟩

/-- A ring packet with none in flight is alone. -/
theorem begunPacket_flights {s : State} {q : Nat} (ring : (s.queue q).calls = []) (p : List Byte) : (begunPacket s q p).queue q
    = { s.queue q with units := fieldAt p 1 1, xtok := none, lag := none, flights := (s.queue q).flights
        ++ [{ index := (s.queue q).ridx, units := fieldAt p 1 1, intr := fieldAt p 2 1 / 2 % 2 == 1, parts := 1 }] } := by
  rw [begunPacket, beginPacket, State.queue_modQ, ring, List.isEmpty_nil]
  simp only [if_true, ring]

theorem withNeeds_reached {s : State} {q : Nat} {ns : List Need} {k : State → State} (h : ns.all (reached s (s.queue q).pasid) = true) :
    withNeeds s q ns k = k s := if_pos h

section
variable {s : State} {q type : Nat} {p : List Byte} (h : ReadyPacket s q p type)
include h

/-- A packet whose SIZE, reserved fields and own fields are right goes on (R394). -/
theorem packet_begins {x : Instr} {types : List Nat} {size : Option Nat} {zero : List (Nat × Nat)} {bad : Option Nat} {k : State → State}
    (op : exec x s = packetOp q p types size zero bad s k) (listed : type ≤ 0x0D) (own : types.contains type = true)
    (sized : fieldAt p 1 1 ≠ 0 ∧ ∀ n ∈ size, fieldAt p 1 1 = n) (zeros : ∀ z ∈ zero, fieldAt p z.1 z.2 = 0) (good : bad = none) :
    exec x s = .next (k s) := by
  obtain ⟨nonzero, sized⟩ := sized
  have typed : unitType p = type := h.typed
  have reserved_zero : (decide (2 ^ 18 ≤ fieldAt p 0 4) || zero.any (fun z => fieldAt p z.1 z.2 != 0)) = false := by
    rw [Bool.or_eq_false_iff, decide_eq_false (Nat.not_le_of_lt h.header)]
    exact ⟨rfl, by simpa using zeros⟩
  rw [op]
  unfold packetOp
  rw [if_neg (by rw [h.next, typed, own]; simp), good, reserved_zero, if_neg Bool.false_ne_true]
  dsimp only
  rw [withNeeds_reached (h.ends listed)]
  cases size with
  | none => exact congrArg _ (if_neg (by simpa [unitSize] using nonzero))
  | some n => exact congrArg _ (if_neg (by simpa [unitSize, sized n rfl] using sized n rfl ▸ nonzero))

theorem ReadyPacket.takeUp (size : fieldAt p 1 1 ≠ 0) : takeUp s q p = begunPacket s q p := takeUp_eq h.unlogged size

/-- NOP. -/
theorem exec_nopPacket (listed : type = 12) (size : fieldAt p 1 1 ≠ 0) : exec (.nopPacket q p) s = .next (finishPacket (begunPacket s q p) q) := by
  subst listed
  have typed : unitType p = 12 := h.typed
  have run : exec (.nopPacket q p) s = execNopPacket q p s := rfl
  rw [run, execNopPacket, if_neg (by rw [h.next, typed]; simp), if_neg (by rw [typed]; decide), if_neg (show ¬ unitSize p = 0 from size), if_neg (Nat.not_le_of_lt h.header),
    withNeeds_reached (h.ends (by decide)), h.takeUp size]

/-- A TYPE that is not listed stops the queue (R394). -/
theorem exec_nopPacket_unlisted (unlisted : 0x0D < type) : exec (.nopPacket q p) s = .next (stopQueue s q 1) := by
  have typed : unitType p = type := h.typed
  have run : exec (.nopPacket q p) s = execNopPacket q p s := rfl
  have no : ¬ (nextPacket s q != some p || (unitType p != 0x0C && decide (1 ≤ unitType p) && decide (unitType p ≤ 0x0D))) = true := by
    rw [h.next, typed]
    simp
    omega
  rw [run, execNopPacket, if_neg no, if_pos (by omega), refuse, logPacket_unlogged h.unlogged]

/-- SIGNAL. -/
theorem exec_signal {pa : Nat} (listed : type = 4) (size : fieldAt p 1 1 = 2) (zeros : fieldAt p 24 8 = 0) (op : fieldAt p 4 4 < 4)
    (aligned : fieldAt p 8 8 % (if fieldAt p 4 4 % 2 = 1 then 8 else 4) = 0) (write : chovisPa s (s.queue q).pasid (fieldAt p 8 8) .write = some pa)
    (atomic : 2 ≤ fieldAt p 4 4 → chovisPa s (s.queue q).pasid (fieldAt p 8 8) .atomic = some pa) :
    exec (.signal q p) s = .next (finishPacket ((begunPacket s q p).outsideWrite pa (leBytes (if fieldAt p 4 4 % 2 = 1 then 8 else 4)
      (fieldAt p 16 8 + if 2 ≤ fieldAt p 4 4 then s.mem.le pa (if fieldAt p 4 4 % 2 = 1 then 8 else 4) else 0))) q) := by
  subst listed
  have op : exec (.signal q p) s = execSignal q p s := rfl
  unfold execSignal at op
  refine (packet_begins h op (by decide) rfl ⟨by omega, by simpa using size⟩ (by simpa using zeros) (if_neg (by omega))).trans
    (congrArg Host.Outcome.next ?_)
  refine (withNeeds_reached ?_).trans ?_
  · rw [List.all_cons, List.all_nil, Bool.and_true]
    by_cases adds : 2 ≤ fieldAt p 4 4
    · rw [if_pos adds]
      exact reached_of_chovisPa (atomic adds)
    · rw [if_neg adds]
      exact reached_of_chovisPa write
  · rw [write, h.takeUp (by omega)]
    rfl

/-- TIMESTAMP. -/
theorem exec_timestamp {pa : Nat} (listed : type = 8) (size : fieldAt p 1 1 = 1) (zeros : fieldAt p 4 4 = 0) (aligned : fieldAt p 8 8 % 8 = 0)
    (write : chovisPa s (s.queue q).pasid (fieldAt p 8 8) .write = some pa) :
    exec (.timestamp q p) s = .next (finishPacket ((begunPacket s q p).outsideWrite pa (leBytes 8 s.time)) q) := by
  subst listed
  have op : exec (.timestamp q p) s = execTimestamp q p s := rfl
  unfold execTimestamp at op
  refine (packet_begins h op (by decide) rfl ⟨by omega, by simpa using size⟩ (by simpa using zeros) (if_neg (by omega))).trans
    (congrArg Host.Outcome.next ?_)
  obtain ⟨fs, own⟩ := begunPacket_queue s q p
  have found : chovisPa (begunPacket s q p) ((begunPacket s q p).queue q).pasid (fieldAt p 8 8) .write = some pa := by
    rw [(begunPacket_maps s q p).chovisPa, own]
    exact write
  refine (withNeeds_reached ?_).trans ?_
  · rw [List.all_cons, List.all_nil, Bool.and_true]
    exact reached_of_chovisPa write
  · rw [h.takeUp (by omega)]
    dsimp only
    rw [chovisWrite_of_chovisPa found]
    rfl

/-- EVENT with an address. -/
theorem exec_event {pa : Nat} (listed : type = 11) (size : fieldAt p 1 1 = 2) (zeros : fieldAt p 24 8 = 0) (vec : fieldAt p 4 4 < 256)
    (aligned : fieldAt p 8 8 % 8 = 0) (nonzero : fieldAt p 8 8 ≠ 0) (write : chovisPa s (s.queue q).pasid (fieldAt p 8 8) .write = some pa) :
    exec (.event q p) s
      = .next (finishPacket (((begunPacket s q p).outsideWrite pa (leBytes 8 (fieldAt p 16 8))).interrupt 0 (fieldAt p 4 4) (s.queue q).pasid) q) := by
  subst listed
  have op : exec (.event q p) s = execEvent q p s := rfl
  unfold execEvent at op
  refine (packet_begins h op (by decide) rfl ⟨by omega, by simpa using size⟩ (by simpa using zeros) (if_neg (by omega))).trans
    (congrArg Host.Outcome.next ?_)
  obtain ⟨fs, own⟩ := begunPacket_queue s q p
  have found : chovisPa (begunPacket s q p) ((begunPacket s q p).queue q).pasid (fieldAt p 8 8) .write = some pa := by
    rw [(begunPacket_maps s q p).chovisPa, own]
    exact write
  have context : (((begunPacket s q p).outsideWrite pa (leBytes 8 (fieldAt p 16 8))).queue q).pasid = (s.queue q).pasid := by
    rw [State.queue_congr (outsideWrite_wrote ..).queues, own]
  refine (withNeeds_reached ?_).trans ?_
  · rw [if_neg nonzero, List.all_cons, List.all_nil, Bool.and_true]
    exact reached_of_chovisPa write
  · dsimp only
    rw [h.takeUp (by omega), if_neg nonzero, chovisWrite_of_chovisPa found, Option.getD_some, context]

/-- FETCH_FENCE in a ring. -/
theorem exec_fetchFence (listed : type = 5) (size : fieldAt p 1 1 = 1) (zeros : fieldAt p 4 12 = 0) (ring : (s.queue q).calls = []) :
    exec (.fetchFence q p) s = .next (finishPacket ((begunPacket s q p).modQ q fun x => { x with win := x.win.take 1, winDesc := [] }) q) := by
  subst listed
  have op : exec (.fetchFence q p) s = execFetchFence q p s := rfl
  unfold execFetchFence at op
  refine (packet_begins h op (by decide) rfl ⟨by omega, by simpa using size⟩ (by simpa using zeros) rfl).trans (congrArg Host.Outcome.next ?_)
  obtain ⟨fs, own⟩ := begunPacket_queue s q p
  have empty : ((begunPacket s q p).queue q).calls.isEmpty = true := by
    rw [own, ring]
    rfl
  rw [h.takeUp (by omega)]
  show finishPacket ((begunPacket s q p).setQueue q (if ((begunPacket s q p).queue q).calls.isEmpty then _ else _)) q = _
  rw [if_pos empty]
  rfl

/-- CALL. -/
theorem exec_callPacket (listed : type = 6) (size : fieldAt p 1 1 = 2) (zeros : fieldAt p 4 4 = 0) (zeros' : fieldAt p 20 12 = 0) (aligned : fieldAt p 8 8 % 16 = 0)
    (some_units : 0 < fieldAt p 16 4) (units : fieldAt p 16 4 ≤ 2 ^ 24) (depth : (s.queue q).calls.length < 4) :
    exec (.callPacket q p) s = .next ((endPacket (begunPacket s q p) q).modQ q fun x =>
      { x with calls := { addr := fieldAt p 8 8, units := fieldAt p 16 4 } :: x.calls }) := by
  subst listed
  have op : exec (.callPacket q p) s = execCallPacket q p s := rfl
  unfold execCallPacket at op
  refine (packet_begins h op (by decide) rfl ⟨by omega, by simpa using size⟩ (by simpa using ⟨zeros, zeros'⟩) (if_neg (by omega))).trans
    (congrArg Host.Outcome.next ?_)
  rw [if_neg (by omega), h.takeUp (by omega)]

/-- RETURN leaves the innermost buffer. -/
theorem exec_returnPacket {c : CallFrame} {cs : List CallFrame} (listed : type = 7) (size : fieldAt p 1 1 = 1) (zeros : fieldAt p 4 12 = 0)
    (buffer : (s.queue q).calls = c :: cs) :
    ∃ t, exec (.returnPacket q p) s = .next t ∧ (t.queue q).calls = cs ∧ (t.queue q).proc = .idle ∧ (t.queue q).ridx = (s.queue q).ridx := by
  subst listed
  have op : exec (.returnPacket q p) s = execReturnPacket q p s := rfl
  unfold execReturnPacket at op
  refine ⟨_, packet_begins h op (by decide) rfl ⟨by omega, by simpa using size⟩ (by simpa using zeros) rfl, ?_⟩
  rw [buffer, List.isEmpty_cons, if_neg Bool.false_ne_true, h.takeUp (by omega)]
  obtain ⟨fs, own⟩ := begunPacket_queue s q p
  have called : ((begunPacket s q p).queue q).calls = c :: cs := by rw [own, buffer]
  obtain ⟨calls, ridx⟩ := endPacket_calls called
  obtain ⟨-, idle⟩ := finishPacket_served (begunPacket s q p) q
  obtain ⟨-, _, _, done⟩ := partDone_advances (endPacket (begunPacket s q p) q) q ((begunPacket s q p).queue q).lastIndex
  obtain ⟨-, _, _, left⟩ := partDone_advances ((finishPacket (begunPacket s q p) q).modQ q fun x => { x with calls := x.calls.drop 1 }) q
    ((finishPacket (begunPacket s q p) q).queue q).lastIndex
  rw [leaveBuffer, left, State.queue_modQ]
  refine ⟨?_, idle, ?_⟩
  · show ((finishPacket (begunPacket s q p) q).queue q).calls.drop 1 = cs
    rw [finishPacket, done]
    show ((endPacket (begunPacket s q p) q).queue q).calls.drop 1 = cs
    rw [calls]
    rfl
  · show ((finishPacket (begunPacket s q p) q).queue q).ridx = _
    rw [finishPacket, done]
    show ((endPacket (begunPacket s q p) q).queue q).ridx = _
    rw [ridx, own]

/-- PRIORITY. -/
theorem exec_priority {pa pb : Nat} (listed : type = 9) (size : fieldAt p 1 1 = 1) (zeros : fieldAt p 8 8 = 0) (prio : fieldAt p 4 4 < 128)
    (level : fieldAt p 4 4 < 112 ∨ (s.queue q).rt = true) (read : chovisPa s (s.queue q).pasid ((s.queue q).desc + 24) .read = some pa)
    (write : chovisPa s (s.queue q).pasid ((s.queue q).desc + 24) .write = some pb) :
    ∃ t, exec (.priority q p) s = .next t ∧ (t.queue q).prio = fieldAt p 4 4 ∧ (t.queue q).proc = .idle := by
  subst listed
  have op : exec (.priority q p) s = execPriority q p s := rfl
  unfold execPriority at op
  refine ⟨_, packet_begins h op (by decide) rfl ⟨by omega, by simpa using size⟩ (by simpa using zeros) (if_neg (by omega)), ?_⟩
  have allowed : ¬ (112 ≤ fieldAt p 4 4 ∧ (!(s.queue q).rt) = true) := by
    rintro ⟨high, no⟩
    rcases level with low | rt
    · omega
    · rw [rt] at no
      cases no
  rw [if_neg allowed]
  dsimp only
  rw [withNeeds_reached (by
    rw [List.all_cons, List.all_cons, List.all_nil, Bool.and_true, reached_of_chovisPa read, reached_of_chovisPa write]
    rfl), h.takeUp (by omega)]
  generalize hu : putDesc _ q 24 4 _ = u
  have set : (u.queue q).prio = fieldAt p 4 4 := by
    rw [← hu, State.queue_congr (putDesc_wrote ..).queues, State.queue_modQ]
  exact ⟨(finishPacket_prio u q).trans set, (finishPacket_served u q).2⟩

/-- The wait that a WAIT packet registers for the word at a place. -/
def packetWoa (s : State) (q : Nat) (p : List Byte) (pa : Nat) : Woa :=
  { n := s.woaNo + 1, who := .queue q, pa := pa, va := fieldAt p 8 8, mask := BitVec.ofNat 32 (fieldAt p 20 4), cmp := waitCmp (fieldAt p 4 4),
    exp := BitVec.ofNat 32 (fieldAt p 16 4), polls := polledWord s pa, nextPoll := s.time + 512, outer := true }

/-- WAIT whose word is right ends at once; else the word is watched (R395). -/
theorem exec_wait {pa : Nat} (listed : type = 3) (size : fieldAt p 1 1 = 2) (cmp : fieldAt p 4 4 < 4) (aligned : fieldAt p 8 8 % 4 = 0)
    (read : chovisPa s (s.queue q).pasid (fieldAt p 8 8) .read = some pa) :
    exec (.wait q p) s = .next (
      if (waitCmp (fieldAt p 4 4)).holds (s.word pa) (BitVec.ofNat 32 (fieldAt p 16 4)) (BitVec.ofNat 32 (fieldAt p 20 4)) then finishPacket (begunPacket s q p) q
      else ({ begunPacket s q p with woas := s.woas ++ [packetWoa s q p pa], woaNo := s.woaNo + 1 } : State).modQ q fun x =>
        { x with proc := .wait s.time (fieldAt p 24 8) }) := by
  subst listed
  have op : exec (.wait q p) s = execWait q p s := rfl
  unfold execWait at op
  refine (packet_begins h op (by decide) rfl ⟨by omega, by simpa using size⟩ (by simp) (if_neg (by omega))).trans (congrArg Host.Outcome.next ?_)
  refine (withNeeds_reached ?_).trans ?_
  · rw [List.all_cons, List.all_nil, Bool.and_true]
    exact reached_of_chovisPa read
  · dsimp only
    rw [h.takeUp (by omega), read]
    rfl

end

theorem waitCmp_holds {a e m c : Nat} (ha : a < 2 ^ 32) (he : e < 2 ^ 32) (hm : m < 2 ^ 32) (hc : c < 4) :
    (waitCmp c).holds (BitVec.ofNat 32 a) (BitVec.ofNat 32 e) (BitVec.ofNat 32 m) = true ↔
      (c = 0 ∧ a &&& m = e &&& m) ∨ (c = 1 ∧ a &&& m ≠ e &&& m) ∨ (c = 2 ∧ a &&& m < e &&& m) ∨ (c = 3 ∧ e &&& m ≤ a &&& m) := by
  have masked {x : Nat} (hx : x < 2 ^ 32) : (BitVec.ofNat 32 x &&& BitVec.ofNat 32 m).toNat = x &&& m := by
    rw [BitVec.toNat_and, BitVec.toNat_ofNat, BitVec.toNat_ofNat, Nat.mod_eq_of_lt hx, Nat.mod_eq_of_lt hm]
  have same : BitVec.ofNat 32 a &&& BitVec.ofNat 32 m = BitVec.ofNat 32 e &&& BitVec.ofNat 32 m ↔ a &&& m = e &&& m := by
    rw [← BitVec.toNat_inj, masked ha, masked he]
  interval_cases c
  · simp [waitCmp, WoaCmp.holds, same]
  · simp [waitCmp, WoaCmp.holds, same]
  · simp [waitCmp, WoaCmp.holds, masked ha, masked he]
  · simp [waitCmp, WoaCmp.holds, masked ha, masked he]

theorem Mem.le_lt (m : Mem) (a n : Nat) : m.le a n < 256 ^ n := by
  have := leNat_lt (m.read a n)
  rwa [Mem.length_read] at this

theorem exec_waitTimeout {q since n : Nat} {s : State} (serving : (s.queue q).serving = true) (waits : (s.queue q).proc = .wait since n) (limit : n ≠ 0)
    (late : n ≤ s.since since) (unhit : ∀ w ∈ s.woas, w.who = .queue q → w.hit = none) : exec (.waitTimeout q) s = .next (stopQueue s q 5) := by
  have none_hit : (s.woas.any fun w => w.who == Waiter.queue q && w.hit.isSome) = false := by
    rw [List.any_eq_false]
    intro w hw both
    rw [Bool.and_eq_true, beq_iff_eq] at both
    rw [unhit w hw both.1] at both
    exact absurd both.2 (by decide)
  refine congrArg Host.Outcome.next (if_pos ?_)
  rw [waitLate, serving, waits, none_hit]
  simp [limit, late]

theorem showState_stopped (s : State) (q err st : Nat) : ((showState s q err st).queue q).stopped = (s.queue q).stopped := by
  unfold showState
  dsimp only
  rw [State.queue_modQ, State.queue_congr (putDesc_wrote ..).queues]

theorem stopQueue_stops (s : State) (q err : Nat) : ((stopQueue s q err).queue q).stopped = true := by
  unfold stopQueue
  dsimp only
  generalize hv : State.interrupt _ 0 _ _ = v
  obtain ⟨-, _, _, queue⟩ := advanceDone_advances q (v.queue q).flights.length v
  rw [queue]
  show (v.queue q).stopped = true
  rw [← hv]
  refine (showState_stopped _ q err 3).trans ?_
  rw [State.queue_modQ]

/-! ### Packets that other parts of the device act on -/

/-- The command that a COPY packet gives to the cluster's copy engine (log entry 72). -/
def packetCopy (s : State) (q : Nat) (p : List Byte) : CopyCmd :=
  { queue := q, ctx := (s.queue q).pasid, core := 4 * (q % 16), kind := 8, race := .report, clk := 0xFFFFFF, know := KVec.top, gaddr := fieldAt p 8 8,
    data := fieldAt p 16 8, bytes := fieldAt p 24 4, slot := (s.queue q).ridx }

/-- A feed takes the one record of its packet, which ends with it. -/
theorem feedMore_one {s : State} {q pa : Nat} {h : Word} {r : List Byte} (proc : (s.queue q).proc = .feed h [r])
    (room : ¬ (s.feedQ (hIndex h)).size ≤ (s.feedQ (hIndex h)).count) (unlogged : (s.ctx (s.queue q).pasid).replay = false)
    (write : chovisPa s (s.queue q).pasid ((s.feedQ (hIndex h)).at (s.feedQ (hIndex h)).tail) .write = some pa) :
    ∃ v, feedMore q 2 s = finishPacket v q ∧ v.feeds = modAt s.feeds (hIndex h) fun f => { f with tail := f.tail + 1, vecs := f.vecs ++ [none] } := by
  have wrote := outsideWrite_wrote s pa r
  have feeds : (s.outsideWrite pa r).feeds = s.feeds := by
    obtain ⟨_, _, _, _, _, _, e⟩ := wrote
    rw [e]
  have context : ((s.outsideWrite pa r).ctx (s.queue q).pasid).replay = false := by
    obtain ⟨_, _, _, _, _, _, e⟩ := wrote
    rw [e]
    exact unlogged
  have needs : [(⟨(s.feedQ (hIndex h)).at (s.feedQ (hIndex h)).tail, .write⟩ : Need)].all (reached s (s.queue q).pasid) = true := by
    rw [List.all_cons, List.all_nil, Bool.and_true]
    exact reached_of_chovisPa write
  rw [feedMore, proc]
  dsimp only
  rw [if_neg room, withNeeds_reached needs, chovisWrite_of_chovisPa write, Option.getD_some, State.replayLog_of_not_replay context, feedMore, State.queue_modQ]
  refine ⟨_, rfl, ?_⟩
  show modAt (s.outsideWrite pa r).feeds _ _ = _
  rw [feeds]

section
variable {s : State} {q type : Nat} {p : List Byte} (h : ReadyPacket s q p type)
include h

/-- FEED of one record. -/
theorem exec_feed {pa : Nat} (listed : type = 2) (zeros : fieldAt p 12 4 = 0) (one : fieldAt p 8 4 = 1)
    (size : fieldAt p 1 1 = 1 + (s.feedQ (hIndex (BitVec.ofNat 32 (fieldAt p 4 4)))).bytes / 16)
    (named : s.feedNamed (s.queue q).pasid (BitVec.ofNat 32 (fieldAt p 4 4)) = true)
    (room : ¬ (s.feedQ (hIndex (BitVec.ofNat 32 (fieldAt p 4 4)))).size ≤ (s.feedQ (hIndex (BitVec.ofNat 32 (fieldAt p 4 4)))).count)
    (write : chovisPa s (s.queue q).pasid
      ((s.feedQ (hIndex (BitVec.ofNat 32 (fieldAt p 4 4)))).at (s.feedQ (hIndex (BitVec.ofNat 32 (fieldAt p 4 4)))).tail) .write = some pa) :
    ∃ t, exec (.feed q p) s = .next t ∧ (t.queue q).proc = .idle
      ∧ t.feeds = modAt s.feeds (hIndex (BitVec.ofNat 32 (fieldAt p 4 4))) fun f => { f with tail := f.tail + 1, vecs := f.vecs ++ [none] } := by
  subst listed
  have op : exec (.feed q p) s = execFeed q p s := rfl
  unfold execFeed at op
  have run := packet_begins h op (by decide) rfl ⟨by omega, by simp⟩ (by simpa using zeros) rfl
  dsimp only at run
  rw [named, Bool.not_true, if_neg Bool.false_ne_true, one, Nat.one_mul, if_neg (by rw [unitSize, size]; simp), h.takeUp (by omega)] at run
  obtain ⟨fs, own⟩ := begunPacket_queue s q p
  let w := (begunPacket s q p).modQ q fun x => { x with
    proc := .feed (BitVec.ofNat 32 (fieldAt p 4 4)) ((List.range 1).map fun k =>
      ((p.drop (16 + (s.feedQ (hIndex (BitVec.ofNat 32 (fieldAt p 4 4)))).bytes * k)).take (s.feedQ (hIndex (BitVec.ofNat 32 (fieldAt p 4 4)))).bytes)) }
  have context : (w.queue q).pasid = (s.queue q).pasid := by
    show ((State.modQ _ q _).queue q).pasid = _
    rw [State.queue_modQ, own]
  have maps : SameMaps s w := ⟨rfl, rfl, rfl, rfl, rfl, rfl, rfl⟩
  obtain ⟨v, ends, feeds⟩ := feedMore_one (s := w) (q := q) (pa := pa) (congrArg Queue.proc (State.queue_modQ ..) :) room (by rw [context]; exact h.unlogged)
    (by rw [context, maps.chovisPa]; exact write)
  obtain ⟨served, idle⟩ := finishPacket_served v q
  have kept : (finishPacket v q).feeds = v.feeds := by
    obtain ⟨_, _, _, _, _, _, _, e⟩ := served
    rw [e]
  exact ⟨_, run.trans (congrArg Host.Outcome.next ends), idle, kept.trans feeds⟩

/-- COPY in a ring: the command of the cluster's copy engine. -/
theorem exec_copy (listed : type = 10) (size : fieldAt p 1 1 = 3) (zeros : fieldAt p 4 4 = 0) (zeros' : fieldAt p 28 20 = 0) (src : fieldAt p 8 8 % 16 = 0)
    (dst : fieldAt p 16 8 % 16 = 0) (bytes : fieldAt p 24 4 % 16 = 0) (some_bytes : fieldAt p 24 4 ≠ 0) (ring : (s.queue q).calls = []) :
    ∃ t, exec (.copy q p) s = .next t ∧ t.copies = s.copies ++ [packetCopy s q p] ∧ (t.queue q).ridx = ((s.queue q).ridx + 3) % 2 ^ 64 := by
  subst listed
  have op : exec (.copy q p) s = execCopy q p s := rfl
  unfold execCopy at op
  have run := packet_begins h op (by decide) rfl ⟨by omega, by simpa using size⟩ (by simpa using ⟨zeros, zeros'⟩) (if_neg (by omega))
  have own := begunPacket_flights ring p
  have last : ((begunPacket s q p).queue q).lastIndex = (s.queue q).ridx := by simp [Queue.lastIndex, own]
  have context : ((begunPacket s q p).queue q).pasid = (s.queue q).pasid := by rw [own]
  dsimp only at run
  rw [h.takeUp (by omega), last, context] at run
  refine ⟨_, run, ?_, ?_⟩
  · obtain ⟨⟨_, _, _, _, _, _, _, e⟩, -⟩ := endPacket_served { begunPacket s q p with copies := s.copies ++ [packetCopy s q p] } q
    exact (congrArg State.copies e :)
  · have calls : (State.queue { begunPacket s q p with copies := s.copies ++ [packetCopy s q p] } q).calls = [] := (congrArg Queue.calls own :).trans ring
    obtain ⟨fs, d, queue⟩ := endPacket_queue calls
    refine (congrArg Queue.ridx queue).trans ?_
    show (((begunPacket s q p).queue q).ridx + ((begunPacket s q p).queue q).units) % 2 ^ 64 = _
    rw [own, size]

end

/-- The priority of a kernel descriptor is its field (Table 18-5). -/
theorem Kernel.ofBytes_prio {bs : List Byte} {k : Kernel} (h : Kernel.ofBytes bs = some k) : bitsOf (fieldAt bs 20 4) 6 0 = k.prio := by
  unfold Kernel.ofBytes at h
  obtain ⟨good, h⟩ := Option.ite_none_left_eq_some.1 h
  cases Option.some.inj h
  have small : ¬ 128 ≤ fieldAt bs 20 4 := fun big => good (by simp [big])
  show bitsOf _ 6 0 = fieldAt bs 20 4
  unfold bitsOf
  omega

/-- The launch that a packet begins. -/
def packetLaunch (s : State) (q : Nat) (p : List Byte) (k : Kernel) (level : Nat) : Launch :=
  { lid := s.lid + 1, ctx := (s.queue q).pasid, level := level, kernel := k, karg := BitVec.ofNat 64 (fieldAt p 16 8), nblk := BitVec.ofNat 32 (fieldAt p 24 4),
    evt := fieldAt p 32 8, eval := BitVec.ofNat 64 (fieldAt p 40 8), stat := fieldAt p 48 8, rsv := fieldAt p 5 1 % 2 == 1, queue := q, packet := (s.queue q).ridx }

/-- Byte 0 and byte 1 of a word. -/
theorem fieldAt_low (p : List Byte) (off : Nat) : fieldAt p off 4 % 256 = fieldAt p off 1 ∧ fieldAt p off 4 / 256 % 256 = fieldAt p (off + 1) 1 := by
  unfold fieldAt
  rw [← List.drop_drop]
  match p.drop off with
  | [] => exact ⟨rfl, rfl⟩
  | [a] =>
    have := a.isLt
    simp [leNat]
    omega
  | [a, b] =>
    have := a.isLt
    have := b.isLt
    simp [leNat]
    omega
  | a :: b :: c :: d =>
    have := a.isLt
    have := b.isLt
    simp only [List.take_succ_cons, List.take_zero, List.drop_succ_cons, List.drop_zero, leNat]
    omega

section
variable {s : State} {q : Nat} {p : List Byte} (h : ReadyPacket s q p 1)
include h

/-- LAUNCH in a ring whose descriptor stands in the window: the launch begins (R400). -/
theorem exec_launch {d : Nat × List Byte} {k : Kernel} (size : fieldAt p 1 1 = 4) (zeros : fieldAt p 28 4 = 0) (zeros' : fieldAt p 56 8 = 0) (flags : fieldAt p 4 4 < 2 ^ 9)
    (desc : fieldAt p 8 8 % 128 = 0) (evt : fieldAt p 32 8 % 8 = 0) (stat : fieldAt p 48 8 % 16 = 0) (ring : (s.queue q).calls = [])
    (window : (s.queue q).winDesc.find? (fun e => e.1 == (s.queue q).ridx) = some d) (kernel : Kernel.ofBytes d.2 = some k) (blocks : fieldAt p 24 4 ≠ 0)
    (lid : s.lid ≠ 0xFFFFFFFF) {level : Nat}
    (hl : level = min (if fieldAt p 4 1 / 128 = 1 then fieldAt p 4 1 % 128 else k.prio) (s.queue q).prio) (allowed : level < 112 ∨ (s.queue q).rt = true)
    (fits : launchFails { begunPacket { s with lid := s.lid + 1 } q p with launches := s.launches ++ [packetLaunch s q p k level] } s.launches.length = 0) :
    exec (.launch q p) s = .next (State.modQ { begunPacket { s with lid := s.lid + 1 } q p with launches := s.launches ++ [packetLaunch s q p k level] } q
      fun x => { x with proc := .launch s.launches.length }) := by
  have op : exec (.launch q p) s = execLaunch q p s := rfl
  unfold execLaunch at op
  have run := packet_begins h op (by decide) rfl ⟨by omega, by simpa using size⟩ (by simpa using ⟨zeros, zeros'⟩) (if_neg (by omega))
  have found : ((s.queue q).winDesc.find? fun d => (s.queue q).calls.isEmpty && d.1 == (s.queue q).ridx) = some d := by
    rw [ring]
    exact window
  rw [found] at run
  refine run.trans (congrArg Host.Outcome.next ?_)
  dsimp only
  obtain ⟨low, high⟩ := fieldAt_low p 4
  have wanted : (if bitsOf (fieldAt p 4 4) 7 7 = 1 then fieldAt p 4 4 % 128 else bitsOf (fieldAt d.2 20 4) 6 0)
      = if fieldAt p 4 1 / 128 = 1 then fieldAt p 4 1 % 128 else k.prio := by
    rw [Kernel.ofBytes_prio kernel]
    unfold bitsOf
    exact if_congr (by omega) (by omega) rfl
  have rsv : bitsOf (fieldAt p 4 4) 8 8 = fieldAt p 5 1 % 2 := by
    unfold bitsOf
    rw [← high]
    omega
  have leveled : (if (if bitsOf (fieldAt p 4 4) 7 7 = 1 then fieldAt p 4 4 % 128 else bitsOf (fieldAt d.2 20 4) 6 0) < (s.queue q).prio then
      (if bitsOf (fieldAt p 4 4) 7 7 = 1 then fieldAt p 4 4 % 128 else bitsOf (fieldAt d.2 20 4) 6 0) else (s.queue q).prio) = level := by
    rw [wanted, hl]
    generalize (if fieldAt p 4 1 / 128 = 1 then fieldAt p 4 1 % 128 else k.prio) = n
    split <;> omega
  have next_lid : (if s.lid + 1 = 0 then 1 else s.lid + 1) = s.lid + 1 := if_neg fun zero => lid (by
    rw [← BitVec.add_sub_cancel s.lid 1, zero]
    rfl)
  have permitted : ¬ (112 ≤ level ∧ (!(s.queue q).rt) = true) := by
    rintro ⟨high, no⟩
    rcases allowed with low | rt
    · omega
    · rw [rt] at no
      cases no
  have counted : ¬ BitVec.ofNat 32 (fieldAt p 24 4) = 0 := fun zero => blocks (by
    have small : fieldAt p 24 4 < 2 ^ 32 := (fieldAt_lt p 24 4).trans_eq (by norm_num)
    have value := congrArg BitVec.toNat zero
    rw [BitVec.toNat_ofNat, Nat.mod_eq_of_lt small] at value
    exact value)
  have own : (begunPacket { s with lid := s.lid + 1 } q p).queue q = { s.queue q with units := fieldAt p 1 1, xtok := none, lag := none, flights := (s.queue q).flights
      ++ [{ index := (s.queue q).ridx, units := fieldAt p 1 1, intr := fieldAt p 2 1 / 2 % 2 == 1, parts := 1 }] } := begunPacket_flights ring p
  have last : ((begunPacket { s with lid := s.lid + 1 } q p).queue q).lastIndex = (s.queue q).ridx := by
    unfold Queue.lastIndex
    rw [own]
    simp
  unfold launchPacket
  dsimp only
  rw [leveled, if_neg permitted, kernel, next_lid]
  dsimp only
  rw [if_neg counted, takeUp_eq (s := { s with lid := s.lid + 1 }) h.unlogged (by omega), last, rsv]
  exact if_neg (not_not_intro fits)

end

/-! ### RESERVE_CORES (R34, R395) -/

theorem join_foldl_setAt {α : Type} (cores : List Nat) (x : Option α) (xs : List (Option α)) (c : Nat) :
    (cores.foldl (fun xs c => setAt xs c x) xs)[c]?.join = if c ∈ cores ∧ c < xs.length then x else (xs[c]?).join := by
  induction cores generalizing xs with
  | nil => simp
  | cons d cores ih =>
    rw [List.foldl_cons, ih, length_setAt, getElem?_setAt]
    by_cases hc : c < xs.length
    · by_cases here : c = d
      · subst here
        simp [hc]
      · rw [if_neg here]
        exact if_congr (by simp [here]) rfl rfl
    · simp [hc]

theorem mem_maskCores {m c : Nat} : c ∈ maskCores m ↔ c < 64 ∧ m / 2 ^ c % 2 = 1 := by
  rw [maskCores, List.mem_filter, List.mem_range, decide_eq_true_eq]

theorem requestBlock_reserved (reason : Nat) (s : State) (bi : Nat) : (requestBlock reason s bi).reserved = s.reserved := by
  have quiesced (s : State) (gi : Nat) : (quiesceGroup (dropWoas s gi) gi).reserved = s.reserved := by
    obtain ⟨_, _, flushed⟩ := State.flushGroup_eq (dropWoas s gi) gi
    unfold quiesceGroup State.standStill
    rw [flushed]
    rfl
  unfold requestBlock
  split
  · exact foldl_keeps State.reserved _ _ fun s gi => quiesced s gi
  · exact foldl_keeps State.reserved _ _ fun _ _ => rfl

section
variable {s : State} {q : Nat} {p : List Byte} (h : ReadyPacket s q p 13) (size : fieldAt p 1 1 = 2) (zeros : fieldAt p 18 2 = 0) (zeros' : fieldAt p 20 12 = 0)
  (rt : (s.queue q).rt = true)
include h size zeros zeros' rt

/-- RESERVE_CORES of cores that no other context holds. -/
theorem exec_reserveCores (form : fieldAt p 4 4 = 0)
    (free : ∀ c, c ∈ maskCores (fieldAt p 8 8) → (s.reserved[c]?).join = none ∨ (s.reserved[c]?).join = some (s.queue q).pasid) :
    ∃ t, exec (.reserveCores q p) s = .next t
      ∧ t.reserved = (maskCores (fieldAt p 8 8)).foldl (fun xs c => setAt xs c (some (s.queue q).pasid)) s.reserved ∧ (t.queue q).proc = .reserve (fieldAt p 8 8) := by
  have rel : ¬ bitsOf (fieldAt p 4 4) 0 0 ≠ 0 := by
    rw [form]
    decide
  have op : exec (.reserveCores q p) s = execReserveCores q p s := rfl
  unfold execReserveCores reserveOp at op
  rw [if_neg Bool.false_ne_true, if_neg rel] at op
  have run := packet_begins h op (by decide) rfl ⟨by omega, by simpa using size⟩ (by simpa using ⟨zeros, zeros'⟩) (if_neg (by omega))
  rw [rt, Bool.not_true, if_neg Bool.false_ne_true] at run
  refine ⟨_, run, ?_⟩
  dsimp only
  split
  next taken =>
    obtain ⟨c, hc, other⟩ := List.any_eq_true.1 taken
    rcases free c hc with e | e <;> simp [e] at other
  next =>
    rw [h.takeUp (by omega)]
    refine ⟨?_, congrArg Queue.proc (State.queue_modQ ..)⟩
    exact foldl_keeps State.reserved _ _ fun s bi => requestBlock_reserved 3 s bi

/-- RESERVE_CORES with REL = 1. -/
theorem exec_releaseCores (form : fieldAt p 4 4 = 1) :
    ∃ t, exec (.releaseCores q p) s = .next t ∧ (t.queue q).proc = .idle
      ∧ t.reserved = ((maskCores (fieldAt p 8 8)).filter fun c => (s.reserved[c]?).join == some (s.queue q).pasid).foldl (fun xs c => setAt xs c none) s.reserved := by
  have rel : ¬ bitsOf (fieldAt p 4 4) 0 0 ≠ 1 := by
    rw [form]
    decide
  have op : exec (.releaseCores q p) s = execReleaseCores q p s := rfl
  unfold execReleaseCores reserveOp at op
  rw [if_pos rfl, if_neg rel] at op
  have run := packet_begins h op (by decide) rfl ⟨by omega, by simpa using size⟩ (by simpa using ⟨zeros, zeros'⟩) (if_neg (by omega))
  rw [rt, Bool.not_true, if_neg Bool.false_ne_true] at run
  dsimp only at run
  refine ⟨_, run, (finishPacket_served _ q).2, ?_⟩
  rw [h.takeUp (by omega)]
  obtain ⟨⟨_, _, _, _, _, _, _, e⟩, -⟩ := finishPacket_served (setReserved (begunPacket s q p)
    ((maskCores (fieldAt p 8 8)).filter fun c => ((begunPacket s q p).reserved[c]?).join == some (s.queue q).pasid) none 0) q
  exact (congrArg State.reserved e :)

end

/-! ### Threads are given and taken (R388) -/

theorem exec_queueMap {q : Nat} {s : State} (due : mapDue s q = true) (free : mappedCount s < 32) :
    exec (.queueMap q) s = .next (s.modQ q fun x => { x with mapped := true, thread := freeThread s, since := none }) := by
  have run : exec (.queueMap q) s = .next (if !mapDue s q then s else State.modQ (if mappedCount s < 32 then s else
      match mapVictim s (s.queue q) with | some v => unmap s v | none => s) q fun x => { x with
        mapped := true, thread := freeThread (if mappedCount s < 32 then s else match mapVictim s (s.queue q) with | some v => unmap s v | none => s), since := none }) := rfl
  rw [run, due, if_pos free]
  rfl

/-- Settles O52: each packet by the equation of its meaning above. -/
theorem packetsAreProcessed : Obligations.PacketsAreProcessed := by
  unfold Obligations.PacketsAreProcessed
  intro f ready begun finds
  have readied {s : State} {q type : Nat} {p : List Byte} (h : ready s q p type) : ReadyPacket s q p type := by
    obtain ⟨next, typed, header, unlogged, ends⟩ := h
    exact ⟨next, typed, header, unlogged, ends⟩
  have found {s : State} {q va pa : Nat} {k : AccKind} (h : finds s q va k pa) : chovisPa s (s.queue q).pasid va k = some pa := chovisPa_of_access h.1 h.2
  refine ⟨fun s q x => ?_, fun q p s d k h => ?_, fun q p s pa h => ?_, fun q p s pa h size cmp aligned read => ?_, fun q s since n serving waits limit late unhit =>
      exec_waitTimeout serving waits limit late unhit, fun q p s pa h size zeros op => ?_, fun q p s h size zeros ring => ?_,
    fun q p s h size zeros zeros' aligned lo hi depth => ?_, fun q p s c cs h size zeros buffer => ?_, fun q p s pa h size zeros aligned write => ?_,
    fun q p s pa pb h size zeros prio level read write => ?_, fun q p s h size zeros zeros' src dst bytes some_bytes ring => ?_,
    fun q p s pa h size zeros vec aligned nonzero write => ?_, fun q p s h size => ?_, fun q p s type h unlisted => ?_, fun q p s h size zeros zeros' rt => ?_,
    fun q s due free => exec_queueMap due free, fun q s due => ⟨congrArg Host.Outcome.next (if_pos due), ?_⟩⟩
  case refine_1 =>
    intro r ring flights parts _ t
    obtain ⟨served, idle⟩ := finishPacket_served s q
    obtain ⟨ridx, win, done⟩ := finishPacket_alone ring flights parts
    have groups : t.groups = s.groups := by
      obtain ⟨_, _, _, _, _, _, _, e⟩ := served
      exact (congrArg State.groups e :)
    exact ⟨idle, ridx, win, groups, done⟩
  case refine_2 =>
    intro size zeros zeros' flags desc evt stat ring window kernel blocks lid prio level l allowed _ fits
    exact ⟨_, exec_launch (readied h) size zeros zeros' flags desc evt stat ring window kernel blocks lid rfl allowed fits, rfl, rfl,
      congrArg Queue.proc (State.queue_modQ ..), rfl⟩
  case refine_3 =>
    intro word x zeros one size named room write
    obtain ⟨t, run, idle, feeds⟩ := exec_feed (readied h) rfl zeros one size named (Nat.not_le_of_lt room) (found write)
    have bound : x.bound = true := by
      simp only [State.feedNamed, Bool.and_eq_true] at named
      exact named.1.1.2
    have within : hIndex word < s.feeds.length := Nat.lt_of_not_le fun out => by
      have unbound : x = {} := by
        show (s.feeds[hIndex word]?).getD {} = {}
        rw [List.getElem?_eq_none out]
        rfl
      rw [unbound] at bound
      cases bound
    refine ⟨t, run, ?_, idle⟩
    change t.feeds = modAt s.feeds (hIndex word) _ at feeds
    show (t.feeds[hIndex word]?).getD {} = _
    rw [feeds, getElem?_modAt, if_pos rfl]
    have place : s.feeds[hIndex word]? = some x := by
      show _ = some ((s.feeds[hIndex word]?).getD {})
      rw [List.getElem?_eq_getElem within]
      rfl
    rw [place]
    rfl
  case refine_4 =>
    have run := exec_wait (readied h) rfl size cmp aligned (found read)
    intro m x e holds
    have decides : (waitCmp (fieldAt p 4 4)).holds (s.word pa) (BitVec.ofNat 32 (fieldAt p 16 4)) (BitVec.ofNat 32 (fieldAt p 20 4)) = true ↔ holds := by
      have small (off : Nat) : fieldAt p off 4 < 2 ^ 32 := (fieldAt_lt p off 4).trans_eq (by norm_num)
      exact waitCmp_holds ((Mem.le_lt s.mem pa 4).trans_eq (by norm_num)) (small 16) (small 20) cmp
    refine ⟨fun yes => run.trans (congrArg Host.Outcome.next (if_pos (decides.2 yes))), fun no => ?_⟩
    rw [if_neg (mt decides.1 no)] at run
    obtain ⟨fs, own⟩ := begunPacket_queue s q p
    refine ⟨_, packetWoa s q p pa, run, rfl, rfl, rfl, rfl, ?_, ?_, rfl⟩
    · exact congrArg Queue.proc (State.queue_modQ ..)
    · rw [State.queue_modQ]
      exact (congrArg Queue.ridx own :)
  case refine_5 =>
    intro n aligned write atomic
    exact exec_signal (readied h) rfl size zeros op aligned (found write) fun adds => found (atomic adds)
  case refine_6 => exact exec_fetchFence (readied h) rfl size zeros ring
  case refine_7 => exact exec_callPacket (readied h) rfl size zeros zeros' aligned lo hi depth
  case refine_8 => exact exec_returnPacket (readied h) rfl size zeros buffer
  case refine_9 => exact exec_timestamp (readied h) rfl size zeros aligned (found write)
  case refine_10 => exact exec_priority (readied h) rfl size zeros prio level (found read) (found write)
  case refine_11 =>
    obtain ⟨t, run, copies, ridx⟩ := exec_copy (readied h) rfl size zeros zeros' src dst bytes some_bytes ring
    exact ⟨t, _, run, copies, rfl, rfl, rfl, rfl, rfl, rfl, rfl, rfl, ridx⟩
  case refine_12 => exact exec_event (readied h) rfl size zeros vec aligned nonzero (found write)
  case refine_13 => exact exec_nopPacket (readied h) rfl size
  case refine_14 => exact ⟨exec_nopPacket_unlisted (readied h) unlisted, stopQueue_stops s q 1⟩
  case refine_15 =>
    intro masked owner sized
    refine ⟨fun form free => ?_, fun form => ?_⟩
    · obtain ⟨t, run, reserved, proc⟩ := exec_reserveCores (readied h) size zeros zeros' rt form fun c hc => free c (mem_maskCores.1 hc)
      have owns (c : Nat) : owner t c = if c ∈ maskCores (fieldAt p 8 8) ∧ c < s.reserved.length then some (s.queue q).pasid else owner s c := by
        show (t.reserved[c]?).join = _
        rw [reserved]
        exact join_foldl_setAt ..
      refine ⟨t, run, fun c hc hm => ?_, fun c hm => ?_, proc⟩
      · rw [owns, if_pos ⟨mem_maskCores.2 hm, by omega⟩]
      · rw [owns, if_neg fun both => hm (mem_maskCores.1 both.1)]
    · obtain ⟨t, run, idle, reserved⟩ := exec_releaseCores (readied h) size zeros zeros' rt form
      have owns (c : Nat) : owner t c = if c ∈ (maskCores (fieldAt p 8 8)).filter (fun c => (s.reserved[c]?).join == some (s.queue q).pasid) ∧ c < s.reserved.length
          then none else owner s c := by
        show (t.reserved[c]?).join = _
        rw [reserved]
        exact join_foldl_setAt ..
      refine ⟨t, run, fun c hc hm own => ?_, fun c no => ?_, idle⟩
      · rw [owns, if_pos ⟨List.mem_filter.2 ⟨mem_maskCores.2 hm, by simpa using own⟩, by omega⟩]
      · rw [owns, if_neg fun both => no ⟨mem_maskCores.1 (List.mem_filter.1 both.1).1, by simpa using (List.mem_filter.1 both.1).2⟩]
  case refine_16 =>
    rw [unmap, State.queue_modQ]
    exact ⟨rfl, rfl, rfl⟩

end Sys2Proof.Machine
end

section
/-! PROOFS. Chapter 14, what its instructions share: objects in their lists, the state behind an instruction whose group has changed, the checks of register
blocks, and a unit's reads and writes (R318, R319). -/

namespace Sys2Proof.Machine

open Sys2Proof

/-! ### An object in its list -/

theorem getD_modAt {α : Type} (xs : List α) (n j : Nat) (f : α → α) (d : α) :
    (modAt xs n f)[j]?.getD d = if j = n ∧ n < xs.length then f (xs[n]?.getD d) else xs[j]?.getD d := by
  rw [getElem?_modAt]
  by_cases same : j = n
  · subst same
    by_cases inside : j < xs.length
    · simp [inside]
    · simp [inside]
  · simp [same]

/-- One object has changed, and no other. -/
theorem modAt_only {α : Type} {xs : List α} {n : Nat} (h : n < xs.length) (f : α → α) (d : α) :
    (modAt xs n f)[n]?.getD d = f (xs[n]?.getD d) ∧ ∀ j, j ≠ n → (modAt xs n f)[j]?.getD d = xs[j]?.getD d :=
  ⟨by rw [getD_modAt, if_pos ⟨rfl, h⟩], fun j hj => by rw [getD_modAt, if_neg fun both => hj both.1]⟩

/-- What stands in a list in place of the default stands inside it. -/
theorem lt_of_getD_ne {α : Type} {xs : List α} {n : Nat} {d : α} (h : xs[n]?.getD d ≠ d) : n < xs.length := by
  refine Nat.lt_of_not_le fun out => h ?_
  rw [List.getElem?_eq_none out]
  rfl

/-! ### Behind an instruction -/

/-- `t` is behind an instruction of `size` bytes of the fragment `i` in `s` that has made `y` of its group, but for what an issue counts, and `f` of its
fragment. -/
structure Behind (s t : State) (i : Iss) (size : Nat) (y : Group) (f : Frag) : Prop where
  group : ∃ issued skid now frags, t.group i.gi = { y with issued := issued, skid := skid, issuedNow := now, frags := frags }
  pc : ((t.group i.gi).frag i.fi).pc = i.f.pc + BitVec.ofNat 52 size
  acquired : ((t.group i.gi).frag i.fi).acquired = f.acquired
  others : ∀ k, k ≠ i.gi → t.groups[k]? = s.groups[k]?

theorem Became.behind {s u : State} {i : Iss} {y : Group} {f : Frag} (h : Became s u i y f) (size : Nat) (noisy : Bool) :
    Behind s (u.advance i size noisy) i size y f := by
  let pc := i.f.pc + BitVec.ofNat 52 size
  have issued := h.modG (F := advGroup u i pc noisy none) (y' := advGroup u i pc noisy none y)
    fun frags hf => ⟨modAt frags i.fi (advFrag u i pc noisy none), rfl, by rw [getElem?_modAt, if_pos rfl, hf]; rfl⟩
  have advanced : (u.advance i size noisy).groups = (u.modG i.gi (advGroup u i pc noisy none)).groups :=
    (congrArg State.groups (advanceTo_eq u i pc noisy none)).trans rfl
  obtain ⟨⟨frags, hg, hf⟩, others⟩ := issued.congr advanced
  have frag : ((u.advance i size noisy).group i.gi).frag i.fi = advFrag u i pc noisy none f := by
    rw [hg, Group.frag, hf]
    rfl
  exact ⟨⟨_, _, _, _, hg⟩, (congrArg Frag.pc frag).trans rfl, (congrArg Frag.acquired frag).trans (advFrag_keeps u i pc noisy none f).1, others⟩

section
variable {s t : State} {i : Iss} {y : Group} {f : Frag}

/-- What an issue does not count is as the instruction made it. -/
theorem Behind.keeps {size : Nat} (h : Behind s t i size y f) {α : Type} (F : Group → α)
    (hF : ∀ issued skid now frags, F { y with issued := issued, skid := skid, issuedNow := now, frags := frags } = F y) : F (t.group i.gi) = F y := by
  obtain ⟨issued, skid, now, frags, e⟩ := h.group
  rw [e, hF]

theorem Behind.goes (h : Behind s t i 4 y f) (hm : t.mem = s.mem) {reg : Nat → Nat → Word} {pred : Nat → Nat → Bool}
    (hr : ∀ p l, p < i.N → l < 16 → y.lane p l = reg p l) (hp : ∀ p l, p < 8 → l < 16 → (y.pred p).has l = pred p l) : Goes s t i reg pred := by
  refine ⟨h.pc, fun p l p_lt l_lt => ?_, fun p l p_lt l_lt => ?_, hm, fun k _ hk => h.others k hk⟩
  · exact (h.keeps (fun g => g.lane p l) fun _ _ _ _ => rfl).trans (hr p l p_lt l_lt)
  · exact (h.keeps (fun g => (g.pred p).has l) fun _ _ _ _ => rfl).trans (hp p l p_lt l_lt)

end

/-! ### Changes of the group on the way -/

section
variable {s u : State} {i : Iss} {y : Group} {f : Frag} (h : Became s u i y f)
include h

/-- A change that leaves the fragments alone. -/
theorem Became.modAll {F : Group → Group} (hF : ∀ g frags, F { g with frags := frags } = { F g with frags := frags }) : Became s (u.modG i.gi F) i (F y) f :=
  h.modG fun frags hf => ⟨frags, hF y frags, hf⟩

theorem Became.tick : Became s (tickG u i.gi) i y.tick f := h.modAll fun _ _ => rfl

theorem Became.putReg (d : Nat) (w : Nat → Word) : Became s (u.putReg i d w) i (y.setReg (i.phys d) i.lanes w) f := h.modAll fun _ _ => rfl

theorem Became.putPred (p : Nat) (b : Nat → Bool) : Became s (u.putPred i p b) i (y.setPred p i.lanes b) f := h.modAll fun _ _ => rfl

theorem Became.putPair (d : Nat) (w : Nat → Word64) : Became s (u.putPair i d w) i
    ((y.setReg (i.phys d) i.lanes fun l => lo32 (w l)).setReg (i.phys (d + 1)) i.lanes fun l => hi32 (w l)) f := (h.putReg d _).putReg (d + 1) _

theorem Became.commit : Became s (u.commit i) i y f := h.congr rfl

theorem Became.owe (p : Path) (ws : List RegWrite) (poison : List Poison) (act : OutAct) (preds : List (Nat × Nat × Bool)) :
    Became s (u.owe i p ws poison act preds) i
      { y with outst := y.outst ++ [{ path := p, seq := u.seq + 1, fid := i.f.fid, writes := ws, preds := preds, poison := poison, act := act }] } f :=
  h.modAll fun _ _ => rfl

/-- An acquire of `.dev` scope (R208): all fills so far count. -/
theorem Became.acquireDev : ∃ mark, Became s (acquireFills u i.gi i.fi 2) i { y with acquired := mark } { f with acquired := u.fillNo, caps := [] } := by
  obtain ⟨mark, a, e, wide⟩ := acquireFills_eq u i.gi i.fi 2
  rw [e]
  have made := (h.modAll (F := fun g => { g with acquired := mark }) fun _ _ => rfl).modF fun f => { f with acquired := a f.acquired, caps := [] }
  rw [wide (by decide)] at made
  exact ⟨mark, made⟩

end

theorem acquireFills_rest (u : State) (gi fi : Nat) (sc : BitVec 2) : ∃ gs, acquireFills u gi fi sc = { u with groups := gs } := by
  obtain ⟨_, _, e, -⟩ := acquireFills_eq u gi fi sc
  exact ⟨_, e⟩

/-- Changes of one group, one after another, are one change of it. -/
theorem foldl_modG_one {β : Type} (F : β → Group → Group) (gi : Nat) (bs : List β) (u : State) :
    bs.foldl (fun u b => u.modG gi (F b)) u = u.modG gi fun g => bs.foldl (fun g b => F b g) g := by
  induction bs generalizing u with
  | nil => exact (State.modG_id u gi).symm
  | cons b bs ih => exact (ih (u.modG gi (F b))).trans (State.modG_modG ..)

theorem foldl_frags {β : Type} {F : β → Group → Group} (hF : ∀ b g frags, F b { g with frags := frags } = { F b g with frags := frags }) (bs : List β)
    (g : Group) (frags : List Frag) : bs.foldl (fun g b => F b g) { g with frags := frags } = { bs.foldl (fun g b => F b g) g with frags := frags } := by
  induction bs generalizing g with
  | nil => rfl
  | cons b bs ih => rw [List.foldl_cons, hF, ih, List.foldl_cons]

/-- The two words of a pair, as the words from its field on. -/
theorem setPair_after (i : Iss) (d : Nat) (w : Nat → Word64) {p l : Nat} (hp : p < i.N) (hl : l < 16) :
    ((i.g.setReg (i.phys d) i.lanes fun l => lo32 (w l)).setReg (i.phys (d + 1)) i.lanes fun l => hi32 (w l)).lane p l
      = i.after d (fun l => [lo32 (w l), hi32 (w l)]) p l :=
  setReg_after_snoc i d (fun l => [lo32 (w l)]) 1 (fun _ => rfl) _ _ (by simp [Iss.N]) (fun p l hp hl => setReg_after i d _ p l hp hl) p l hp hl

theorem lo32_mk64 (a b : Word) : lo32 (mk64 a b) = a := by
  refine BitVec.eq_of_toNat_eq ?_
  simp only [lo32, mk64, BitVec.truncate_eq_setWidth, BitVec.toNat_setWidth, BitVec.toNat_append]
  rw [← Nat.shiftLeft_add_eq_or_of_lt a.isLt, Nat.shiftLeft_eq]
  have := a.isLt
  omega

theorem hi32_mk64 (a b : Word) : hi32 (mk64 a b) = b := by
  refine BitVec.eq_of_toNat_eq ?_
  simp only [hi32, mk64, BitVec.truncate_eq_setWidth, BitVec.toNat_setWidth, BitVec.toNat_ushiftRight, BitVec.toNat_append]
  rw [← Nat.shiftLeft_add_eq_or_of_lt a.isLt, Nat.shiftLeft_eq, Nat.shiftRight_eq_div_pow]
  have := a.isLt
  have := b.isLt
  omega

/-! ### What takes no part in the replay log and in translation -/

theorem State.pasidOf_commit (s : State) (i : Iss) (g : Group) : (s.commit i).pasidOf g = s.pasidOf g := by
  have launch : ((s.commit i).blockOf g).launch = (s.blockOf g).launch := by
    unfold State.blockOf State.block State.commit State.modB
    dsimp only
    rw [getD_modAt]
    split
    · next same => rw [same.1]
    · rfl
  unfold State.pasidOf State.launchOf
  rw [launch]
  rfl

/-- A context without the replay grant logs no order. -/
theorem logOrder_unlogged {s u : State} {i : Iss} (h : (s.ctx (s.pasidOf i.g)).replay = false) (hc : u.ctxs = s.ctxs) (hp : u.pasidOf i.g = s.pasidOf i.g)
    (object : Nat) : logOrder u i object = u :=
  State.replayLog_of_not_replay (by
    rw [hp, ← h]
    simp only [State.ctx, State.ctxAt, hc]) ..

/-- Committing a block takes no part in translation. -/
theorem SameMaps.commit (s : State) (i : Iss) : SameMaps s (s.commit i) := ⟨rfl, rfl, rfl, rfl, rfl, rfl, rfl⟩

/-! ### Register blocks (R319, Table 14-6) -/

theorem CanIssue.narrow {s : State} {g : Bool} {rs ws ps ds rs' ws' : List Nat} {i : Iss} (h : CanIssue s g rs ws ps i ds) (hr : rs' ⊆ rs) (hw : ws' ⊆ ws) :
    CanIssue s g rs' ws' ps i ds where
  toIssuing := h.toIssuing
  held r hm := h.held r (List.mem_append.2 ((List.mem_append.1 hm).imp (@hr r) (@hw r)))
  free l hl r hm := h.free l hl r (by
    simp only [List.map_append, List.mem_append] at hm ⊢
    exact hm.imp_left (Or.imp_left (Or.imp (List.map_subset i.phys hr ·) (List.map_subset i.phys hw ·))))
  clean p hp hm := h.clean p hp (List.map_subset i.phys hr hm)
  cleanGuard := h.cleanGuard
  cleanPred := h.cleanPred
  sound := h.sound

theorem map_flatMap_runOf_subset {i : Iss} {bs : List (Nat × Nat)} {rs : List Nat} (h : ∀ b ∈ bs, runOf b.1 b.2 ⊆ rs) :
    (bs.flatMap fun b => runOf b.1 b.2).map i.phys ⊆ rs.map i.phys := by
  refine List.map_subset i.phys fun r hr => ?_
  obtain ⟨b, b_mem, r_mem⟩ := List.mem_flatMap.1 hr
  exact h b b_mem r_mem

/-- The blocks of an instruction that can issue pass their checks. -/
theorem withBlocks_go {s : State} {g : Bool} {rs ws ps ds : List Nat} {i : Iss} (h : CanIssue s g rs ws ps i ds) {reads writes : List (Nat × Nat)}
    (inside : ∀ b ∈ reads ++ writes, b.1 + b.2 ≤ 128 ∧ 0 < b.2) (hr : ∀ b ∈ reads, runOf b.1 b.2 ⊆ rs) (hw : ∀ b ∈ writes, runOf b.1 b.2 ⊆ ws) (k : State) :
    withBlocks s i reads writes [] none k = k := by
  have held : ((reads ++ writes).any fun b => decide (128 < b.1 + b.2) || decide (i.N < i.phys (b.1 + b.2))) = false := by
    refine List.any_eq_false.2 fun b hb => ?_
    obtain ⟨fits, some_register⟩ := inside b hb
    have last : b.1 + (b.2 - 1) ∈ runOf b.1 b.2 := List.mem_map.2 ⟨_, List.mem_range.2 (by omega), rfl⟩
    have named : b.1 + (b.2 - 1) ∈ rs ++ ws :=
      List.mem_append.2 ((List.mem_append.1 hb).imp (fun hb => hr b hb last) fun hb => hw b hb last)
    have allocated := h.held _ named
    have ends : i.phys (b.1 + b.2) = i.phys (b.1 + (b.2 - 1)) + 1 := by
      simp only [Iss.phys]
      omega
    rw [ends, decide_eq_false (Nat.not_lt.2 fits), decide_eq_false (Nat.not_lt.2 allocated)]
    decide
  have dests : (i.lanes.lanes.any fun l => ((writes.flatMap fun b : Nat × Nat => runOf b.1 b.2).map i.phys ++ ([] : List Nat).map (512 + ·)).any
      fun r => i.g.owes r l) = false := owes_none h fun r hr => by
      rw [List.map_nil, List.append_nil] at hr
      rw [List.map_append]
      exact List.mem_append_left _ (List.mem_append_left _ (List.mem_append_right _ (map_flatMap_runOf_subset hw hr)))
  have sources : (i.lanes.lanes.any fun l => ((reads.flatMap fun b : Nat × Nat => runOf b.1 b.2).map i.phys).any fun r => i.g.owes r l) = false :=
    owes_none h fun r hm => by
      rw [List.map_append]
      exact List.mem_append_left _ (List.mem_append_left _ (List.mem_append_left _ (map_flatMap_runOf_subset hr hm)))
  have clean : i.g.poisonIn ((reads.flatMap fun b => runOf b.1 b.2).map i.phys) i.lanes = none :=
    Group.poisonIn_none fun p hp hm => h.clean p hp (map_flatMap_runOf_subset hr hm)
  unfold withBlocks
  simp only [held, dests, sources, clean, Bool.false_eq_true, if_false]

/-! ### A unit's accesses (R318, R422) -/

theorem ask_go {s : State} {a : Asker} {needs : List Need} (hn : ∀ n ∈ needs, ∃ y, access s a.core a.pasid n.va n.kind = .ok y) :
    ask s a [] needs = (s, .go) := by
  unfold ask
  rw [failures_nil hn]
  rfl

/-- A unit whose addresses all translate goes on, unless it waits for a fault record. -/
theorem withUnit_go {s : State} {i : Iss} {source : Nat} {needs : List Need} (hs : ∀ t, i.f.stall ≠ some (.xlate t))
    (hn : ∀ n ∈ needs, ∃ y, access s i.g.core (s.pasidOf i.g) n.va n.kind = .ok y) (k : State → State) : withUnit s i source needs k = k s := by
  have alive : (match i.f.stall with | some (.xlate t) => s.xfaults.any fun x => x.token == t && x.failed | _ => false) = false := by
    split
    · next t waits => exact absurd waits (hs t)
    · rfl
  unfold withUnit
  rw [ask_go (a := askerOf s i.g source) hn]
  exact if_neg (ne_true_of_eq_false alive)

theorem unitRead_ok {s : State} {core pasid va pa n : Nat} (h : ∃ x, access s core pasid va .read = .ok (pa, x)) :
    unitRead s core pasid va n = s.mem.read pa n := by
  obtain ⟨x, ok⟩ := h
  rw [unitRead, ok]

/-- A unit's write to an untracked page writes its bytes; caches, host lines and satisfied waits change with it. -/
theorem unitWrite_ok {s : State} {core pasid va pa : Nat} (h : ∃ x, access s core pasid va .write = .ok (pa, x) ∧ isTracked s pasid x = false)
    (bs : List Byte) : ∃ l1 l2 bad woas lines recalls out, unitWrite s core pasid va bs
      = { s with mem := s.mem.write pa bs, l1 := l1, l2 := l2, memBad := bad, woas := woas, hostLines := lines, recalls := recalls, outbox := out } := by
  obtain ⟨x, ok, untracked⟩ := h
  obtain ⟨l2, touched⟩ := touchL2_eq s pasid 0 true pa
  have kept : isTracked (dropL1 ((touchL2 s pasid 0 true pa).writeMem pa bs) core pa bs.length) pasid x = false := by
    rw [touched]
    exact untracked
  rw [unitWrite, ok]
  dsimp only
  rw [kept, touched]
  exact ⟨_, _, _, _, _, _, _, rfl⟩

/-- What stands beside memory and the caches is as before a unit's write. -/
theorem unitWrite_keeps {s : State} {core pasid va pa : Nat} (h : ∃ x, access s core pasid va .write = .ok (pa, x) ∧ isTracked s pasid x = false)
    (bs : List Byte) {u : State} (hu : u = unitWrite s core pasid va bs) : u.mem = s.mem.write pa bs ∧ u.groups = s.groups ∧ u.ctxs = s.ctxs
      ∧ (∀ g, u.pasidOf g = s.pasidOf g) ∧ u.feeds = s.feeds ∧ u.pools = s.pools := by
  obtain ⟨l1, l2, bad, woas, lines, recalls, out, written⟩ := unitWrite_ok h bs
  rw [hu, written]
  exact ⟨rfl, rfl, rfl, fun _ => rfl, rfl, rfl⟩

end Sys2Proof.Machine
end

section
/-! PROOFS. Feeds (R326 to R328): records leave in index order, one a lane, and a push stores one behind the last. -/

namespace Sys2Proof.Machine

open Sys2Proof

/-! ### Words of a row in consecutive registers of one lane -/

theorem has_twoPowMask {l m : Nat} (h : m < 16) : (twoPowMask l).has m = true ↔ m = l := by
  simp [twoPowMask, Mask.has, h, eq_comm]

/-- The words `w 0` to `w (n - 1)` written to lane `l` of the registers from `b` on. -/
def setRow (b n l : Nat) (w : Nat → Word) (g : Group) : Group := (List.range n).foldl (fun g j => g.setReg (b + j) (twoPowMask l) fun _ => w j) g

theorem setRow_succ (b n l : Nat) (w : Nat → Word) (g : Group) : setRow b (n + 1) l w g = (setRow b n l w g).setReg (b + n) (twoPowMask l) fun _ => w n := by
  rw [setRow, List.range_succ, List.foldl_append]
  rfl

/-- Registers change, and marks that the writes clear. -/
theorem setRow_eq (b n l : Nat) (w : Nat → Word) (g : Group) :
    ∃ rs po, setRow b n l w g = { g with regs := rs, poison := po } ∧ rs.length = g.regs.length := by
  induction n with
  | zero => exact ⟨_, _, rfl, rfl⟩
  | succ n ih =>
    obtain ⟨rs, po, e, len⟩ := ih
    rw [setRow_succ, e]
    exact ⟨_, _, rfl, (length_modAt ..).trans len⟩

theorem setRow_frags (b n l : Nat) (w : Nat → Word) (g : Group) (frags : List Frag) :
    setRow b n l w { g with frags := frags } = { setRow b n l w g with frags := frags } := foldl_frags (fun _ _ _ => rfl) _ g frags

theorem setRow_lane {b n l : Nat} {w : Nat → Word} {g : Group} {p m : Nat} (hp : p < g.regs.length) (hm : m < 16) :
    (setRow b n l w g).lane p m = if m = l ∧ b ≤ p ∧ p < b + n then w (p - b) else g.lane p m := by
  induction n with
  | zero => rw [if_neg (by omega)]; rfl
  | succ n ih =>
    obtain ⟨rs, po, e, len⟩ := setRow_eq b n l w g
    rw [setRow_succ, Group.setReg_lane _ _ _ _ _ _ (by rw [e]; exact len ▸ hp) hm, ih]
    simp only [has_twoPowMask hm]
    by_cases own : m = l
    · by_cases last : p = b + n
      · subst last
        rw [if_pos ⟨rfl, own⟩, if_pos ⟨own, by omega, by omega⟩]
        exact congrArg w (by omega)
      · rw [if_neg fun both => last both.1]
        exact if_congr (by omega) rfl rfl
    · rw [if_neg fun both => own both.2, if_neg fun all => own all.1, if_neg fun all => own all.1]

/-! ### One row for each of the first lanes -/

/-- Row j goes to the j-th lane of `xs`. -/
def setRows (b k n : Nat) (xs : List Nat) (w : Nat → Nat → Word) (g : Group) : Group :=
  (List.range n).foldl (fun g j => setRow b k (xs[j]?.getD 0) (w j) g) g

theorem setRows_succ (b k n : Nat) (xs : List Nat) (w : Nat → Nat → Word) (g : Group) :
    setRows b k (n + 1) xs w g = setRow b k (xs[n]?.getD 0) (w n) (setRows b k n xs w g) := by
  rw [setRows, List.range_succ, List.foldl_append]
  rfl

theorem setRows_eq (b k n : Nat) (xs : List Nat) (w : Nat → Nat → Word) (g : Group) :
    ∃ rs po, setRows b k n xs w g = { g with regs := rs, poison := po } ∧ rs.length = g.regs.length := by
  induction n with
  | zero => exact ⟨_, _, rfl, rfl⟩
  | succ n ih =>
    obtain ⟨rs, po, e, len⟩ := ih
    rw [setRows_succ, e]
    obtain ⟨rs', po', e', len'⟩ := setRow_eq b k (xs[n]?.getD 0) (w n) { g with regs := rs, poison := po }
    exact ⟨rs', po', e', len'.trans len⟩

theorem setRows_frags (b k n : Nat) (xs : List Nat) (w : Nat → Nat → Word) (g : Group) (frags : List Frag) :
    setRows b k n xs w { g with frags := frags } = { setRows b k n xs w g with frags := frags } := foldl_frags (fun _ _ _ => setRow_frags ..) _ g frags

section
variable {b k n : Nat} {xs : List Nat} {w : Nat → Nat → Word} {g : Group} {p m : Nat}

theorem setRows_other (hn : n ≤ xs.length) (hp : p < g.regs.length) (hm : m < 16) (absent : m ∉ xs) : (setRows b k n xs w g).lane p m = g.lane p m := by
  induction n with
  | zero => rfl
  | succ n ih =>
    obtain ⟨rs, po, e, len⟩ := setRows_eq b k n xs w g
    have other : m ≠ xs[n]?.getD 0 := fun same => absent (by
      rw [same, List.getElem?_eq_getElem hn]
      exact List.getElem_mem _)
    rw [setRows_succ, setRow_lane (by rw [e]; exact len ▸ hp) hm, if_neg fun all => other all.1, ih (by omega)]

theorem setRows_lane (distinct : xs.Nodup) (hn : n ≤ xs.length) (hp : p < g.regs.length) (hm : m < 16) {j : Nat} (hj : xs[j]? = some m) :
    (setRows b k n xs w g).lane p m = if j < n ∧ b ≤ p ∧ p < b + k then w j (p - b) else g.lane p m := by
  obtain ⟨j_lt, at_j⟩ := List.getElem?_eq_some_iff.1 hj
  induction n with
  | zero => rw [if_neg (by omega)]; rfl
  | succ n ih =>
    obtain ⟨rs, po, e, len⟩ := setRows_eq b k n xs w g
    have last : m = xs[n]?.getD 0 ↔ j = n := by
      rw [List.getElem?_eq_getElem hn, ← at_j]
      exact distinct.getElem_inj_iff
    rw [setRows_succ, setRow_lane (by rw [e]; exact len ▸ hp) hm, ih (by omega)]
    simp only [last]
    by_cases own : j = n
    · subst own
      rw [if_neg (c := j < j ∧ _) (by omega)]
      exact if_congr (by omega) rfl rfl
    · rw [if_neg fun all => own all.1]
      exact if_congr (by omega) rfl rfl

end

theorem Mask.nodup_lanes (m : Mask) : m.lanes.Nodup := List.Nodup.filter _ (by decide)

theorem findAt_some {α : Type} {p : α → Bool} {xs : List α} {n : Nat} (h : findAt p xs = some n) : ∃ x, xs[n]? = some x ∧ p x = true := by
  induction xs generalizing n with
  | nil => cases h
  | cons x xs ih =>
    rw [findAt] at h
    split at h
    · next holds => cases h; exact ⟨x, rfl, holds⟩
    · obtain ⟨m, hm, rfl⟩ := Option.map_eq_some_iff.1 h
      exact ih hm

theorem findAt_none {α : Type} {p : α → Bool} {xs : List α} (h : findAt p xs = none) : ∀ x ∈ xs, p x = false := by
  induction xs with
  | nil => exact fun _ hx => absurd hx List.not_mem_nil
  | cons x xs ih =>
    rw [findAt] at h
    split at h
    · cases h
    · next fails => exact List.forall_mem_cons.2 ⟨Bool.eq_false_iff.2 fails, ih (Option.map_eq_none_iff.1 h)⟩

/-! ### Records read -/

theorem Mem.read_slice (m : Mem) {pa k a n : Nat} (h : a + n ≤ k) : ((m.read pa k).drop a).take n = m.read (pa + a) n := by
  refine List.ext_getElem? fun j => ?_
  by_cases hj : j < n
  · rw [List.getElem?_take_of_lt hj, List.getElem?_drop, Mem.read_getElem? _ _ _ _ (by omega), Mem.read_getElem? _ _ _ _ hj, Nat.add_assoc]
  · rw [List.getElem?_eq_none (by simp; omega), List.getElem?_eq_none (by rw [Mem.length_read]; omega)]

theorem zip_take_map_range {α : Type} {xs : List Nat} {n : Nat} (h : n ≤ xs.length) (r : Nat → α) :
    (xs.take n).zip ((List.range n).map r) = (List.range n).map fun j => (xs[j]?.getD 0, r j) := by
  refine List.ext_getElem? fun j => ?_
  by_cases hj : j < n
  · simp [hj, Nat.lt_of_lt_of_le hj h]
  · rw [List.getElem?_eq_none (by simp; omega), List.getElem?_eq_none (by simp; omega)]

/-! ### Named feeds -/

/-- A feed that a handle names stands in its list. -/
theorem feedNamed_lt {s : State} {pasid : Nat} {h : Word} (named : s.feedNamed pasid h = true) : hIndex h < s.feeds.length := by
  refine lt_of_getD_ne (d := {}) fun absent => ?_
  unfold State.feedNamed State.feedQ at named
  rw [absent] at named
  simp at named

/-- An instruction on a named feed goes on, its register block checked. -/
theorem feedOp_next {s : State} {g : Bool} {a : Fld} {ws ds rs' ws' : List Nat} {i : Iss} (h : CanIssue s g rs' ws' [] i ds) (ha : a.toNat ∈ rs')
    (hws : ws ⊆ ws') (hl : i.lanes ≠ 0) (named : s.feedNamed (s.pasidOf i.g) (i.reg a.toNat i.lo) = true) (k : Iss → Word → Feed → State)
    (block : Option (Fld × Bool))
    (hb : ∀ b w, block = some (b, w) → b.toNat + (s.feedQ (hIndex (i.reg a.toNat i.lo))).words ≤ 128 ∧ 0 < (s.feedQ (hIndex (i.reg a.toNat i.lo))).words
      ∧ runOf b.toNat (s.feedQ (hIndex (i.reg a.toNat i.lo))).words ⊆ if w then ws' else rs') :
    feedOp s g a ws ds block k = .next (k i (i.reg a.toNat i.lo) (s.feedQ (hIndex (i.reg a.toNat i.lo)))) := by
  rw [feedOp, withOperands_next (h.narrow (List.cons_subset.2 ⟨ha, List.nil_subset _⟩) hws), once_active hl]
  simp only [named, Bool.not_true, Bool.false_eq_true, if_false]
  cases block with
  | none => rfl
  | some bw =>
    obtain ⟨b, w⟩ := bw
    obtain ⟨fits, some_word, registers⟩ := hb b w rfl
    refine congrArg Host.Outcome.next (withBlocks_go h (fun e he => ?_) (fun e he => ?_) (fun e he => ?_) _)
    all_goals cases w <;> simp_all

/-! ### Records removed (R326) -/

/-- What the pusher of a record knew is learnt, if it is known. -/
def learnRecord (v : Option KVec) (g : Group) : Group := { g with know := match v with | some v => g.know.merge v | none => g.know }

theorem learnRecords_eq (vs : List (Option KVec)) (g : Group) :
    vs.foldl (fun g v => learnRecord v g) g = { g with know := vs.foldl (fun v x => match x with | some y => v.merge y | none => v) g.know } := by
  induction vs generalizing g with
  | nil => rfl
  | cons v vs ih => rw [List.foldl_cons, ih, learnRecord.eq_def, List.foldl_cons]

theorem setRow_read {m : Mem} {pa k bytes : Nat} (h : 4 * k ≤ bytes) (b l : Nat) (g : Group) :
    setRow b k l (fun j => BitVec.ofNat 32 (leNat (((m.read pa bytes).drop (4 * j)).take 4))) g = setRow b k l (fun j => BitVec.ofNat 32 (m.le (pa + 4 * j) 4)) g := by
  refine List.foldl_ext _ _ _ fun g j hj => ?_
  rw [List.mem_range] at hj
  dsimp only
  rw [Mem.read_slice _ (by omega)]
  rfl

/-- The records' words reach the registers of the lanes that got them. -/
theorem popRows_eq {s : State} {i : Iss} {n k bytes : Nat} (hn : n ≤ i.lanes.lanes.length) (hk : 4 * k ≤ bytes) (d : Nat) (place : Nat → Nat) :
    ((i.lanes.lanes.take n).zip ((List.range n).map fun j => s.mem.read (place j) bytes)).foldl (fun u x => (List.range k).foldl (fun u j =>
        u.modG i.gi fun g => g.setReg (i.phys (d + j)) (twoPowMask x.1) fun _ => BitVec.ofNat 32 (leNat ((x.2.drop (4 * j)).take 4))) u) s
      = s.modG i.gi (setRows (i.phys d) k n i.lanes.lanes fun j c => BitVec.ofNat 32 (s.mem.le (place j + 4 * c) 4)) := by
  have row (x : Nat × List Byte) (u : State) : (List.range k).foldl (fun u j =>
      u.modG i.gi fun g => g.setReg (i.phys (d + j)) (twoPowMask x.1) fun _ => BitVec.ofNat 32 (leNat ((x.2.drop (4 * j)).take 4))) u
      = u.modG i.gi (setRow (i.phys d) k x.1 fun j => BitVec.ofNat 32 (leNat ((x.2.drop (4 * j)).take 4))) := by
    rw [foldl_modG_one fun j g => g.setReg (i.phys (d + j)) (twoPowMask x.1) fun _ => BitVec.ofNat 32 (leNat ((x.2.drop (4 * j)).take 4))]
    refine congrArg (u.modG i.gi ·) (funext fun g => List.foldl_ext _ _ _ fun g j _ => ?_)
    rw [Iss.phys, Iss.phys, Nat.add_assoc]
  simp only [row]
  rw [zip_take_map_range hn, List.foldl_map,
    foldl_modG_one fun j => setRow (i.phys d) k (i.lanes.lanes[j]?.getD 0) fun c => BitVec.ofNat 32 (leNat (((s.mem.read (place j) bytes).drop (4 * c)).take 4))]
  refine congrArg (s.modG i.gi ·) (funext fun g => List.foldl_ext _ _ _ fun g j _ => ?_)
  exact setRow_read hk ..

/-- What the records' pushers knew is learnt. -/
theorem popLearn_eq {F : State → Option KVec → State} {gi : Nat} (vs : List (Option KVec)) (hF : ∀ u v, F u v = u.modG gi (learnRecord v)) (u : State) :
    vs.foldl F u = u.modG gi fun g => vs.foldl (fun g v => learnRecord v g) g :=
  (List.foldl_ext _ _ _ fun u v _ => hF u v).trans (foldl_modG_one learnRecord gi vs u)

/-- The change of the group: the words, the predicate, the vectors. -/
def popChange (s : State) (i : Iss) (d : Fld) (f : Feed) (n : Nat) (place : Nat → Nat) (g : Group) : Group :=
  let got := setRows (i.phys d.toNat) f.words n i.lanes.lanes (fun j k => BitVec.ofNat 32 (s.mem.le (place j + 4 * k) 4)) g
  (f.vecs.take n).foldl (fun g v => learnRecord v g) (got.setPred 0 i.lanes fun l => (i.lanes.lanes.take n).contains l)

theorem popped_eq {s : State} {i : Iss} {f : Feed} {F : State → Option KVec → State} {n bytes : Nat} (hn : n ≤ i.lanes.lanes.length) (hk : 4 * f.words ≤ bytes)
    (d : Fld) (place : Nat → Nat) (hF : ∀ u v, F u v = u.modG i.gi (learnRecord v)) :
    (f.vecs.take n).foldl F ((((i.lanes.lanes.take n).zip ((List.range n).map fun j => s.mem.read (place j) bytes)).foldl (fun u x =>
        (List.range f.words).foldl (fun u j => u.modG i.gi fun g => g.setReg (i.phys (d.toNat + j)) (twoPowMask x.1) fun _ =>
          BitVec.ofNat 32 (leNat ((x.2.drop (4 * j)).take 4))) u) s).putPred i 0 fun l => (i.lanes.lanes.take n).contains l)
      = s.modG i.gi (popChange s i d f n place) := by
  rw [popRows_eq hn hk, popLearn_eq (gi := i.gi) _ hF, State.putPred, State.modG_modG, State.modG_modG]
  rfl

theorem popped_became {s : State} {g : Bool} {i : Iss} (h : Issuing s g i) (d : Fld) (f : Feed) (n : Nat) (place : Nat → Nat) :
    Became s (s.modG i.gi (popChange s i d f n place)) i (popChange s i d f n place i.g) i.f := by
  refine h.became.modAll fun g frags => ?_
  unfold popChange
  rw [setRows_frags]
  exact foldl_frags (fun _ _ _ => rfl) _ ((setRows _ _ _ _ _ g).setPred ..) frags

/-- The acquire of a pop that got a record (R326). -/
theorem popAcquired {s u : State} {i : Iss} {y : Group} (h : Became s u i y i.f) (n : Nat) :
    ∃ v mark f, (if n = 0 then u else acquireFills u i.gi i.fi 2) = v ∧ (∃ gs, v = { u with groups := gs }) ∧ Became s v i { y with acquired := mark } f
      ∧ (0 < n → f.acquired = u.fillNo) := by
  by_cases none_got : n = 0
  · rw [if_pos none_got]
    exact ⟨u, y.acquired, i.f, rfl, ⟨_, rfl⟩, h, fun some_got => absurd none_got some_got.ne'⟩
  · rw [if_neg none_got]
    obtain ⟨mark, became⟩ := h.acquireDev
    obtain ⟨_, _, e, -⟩ := acquireFills_eq u i.gi i.fi 2
    exact ⟨_, mark, _, rfl, ⟨_, e⟩, became, fun _ => rfl⟩

/-- Records leave a feed from its head on, one for each of the first lanes, with what their pushers knew. -/
theorem popRecords_gives {s : State} {g : Bool} {i : Iss} (h : Issuing s g i) (unlogged : (s.ctx (s.pasidOf i.g)).replay = false)
    (hs : ∀ t, i.f.stall ≠ some (.xlate t)) (k : Word) {d : Fld} {f : Feed} (hb : f.bytes % 4 = 0)
    {place : Nat → Nat} {n : Nat} (hn : n = min (f.tail - f.head) i.lanes.count)
    (reached : ∀ j, j < n → ∃ x, access s i.g.core (s.pasidOf i.g) (f.at (f.head + j)) .read = .ok (place j, x)) :
    ∃ mark f', Behind s (popRecords s i d k f) i 4 { popChange s i d f n place i.g with acquired := mark } f' ∧ (0 < n → f'.acquired = s.fillNo)
      ∧ (popRecords s i d k f).mem = s.mem
      ∧ (popRecords s i d k f).feeds = modAt s.feeds (hIndex k) fun f => { f with head := f.head + n, vecs := f.vecs.drop n } := by
  have count : (if f.count < i.lanes.count then f.count else i.lanes.count) = n := by
    rw [hn, Feed.count]
    split <;> omega
  have needs : ∀ m ∈ (List.range n).map fun j => (⟨f.at (f.head + j), .read⟩ : Need), ∃ y, access s i.g.core (s.pasidOf i.g) m.va m.kind = .ok y := by
    intro m hm
    obtain ⟨j, hj, rfl⟩ := List.mem_map.1 hm
    obtain ⟨x, ok⟩ := reached j (List.mem_range.1 hj)
    exact ⟨_, ok⟩
  have records : ((List.range n).map fun j => unitRead s i.g.core (s.pasidOf i.g) (f.at (f.head + j)) f.bytes)
      = (List.range n).map fun j => s.mem.read (place j) f.bytes :=
    List.map_congr_left fun j hj => unitRead_ok (reached j (List.mem_range.1 hj))
  obtain ⟨v, mark, f', acquired, groups_only, became, fills⟩ := popAcquired (popped_became h d f n place) n
  obtain ⟨gs, rfl⟩ : ∃ gs, v = { s with groups := gs } := groups_only
  refine ⟨mark, f', ?_⟩
  unfold popRecords
  simp only [count]
  rw [withUnit_go hs needs]
  rw [records, popped_eq (by rw [hn]; exact Nat.min_le_right ..) (by rw [Feed.words]; omega) d place ?learns, acquired]
  rw [logOrder_unlogged unlogged ?ctxs ?pasid]
  · exact ⟨(became.congr (by exact rfl)).behind 4 true, fills, rfl, rfl⟩
  case ctxs => rfl
  case pasid => exact State.pasidOf_commit ..
  case learns =>
    intro u v
    cases v with
    | none => exact (State.modG_id u i.gi).symm
    | some v => rfl

/-- One feed has changed, and no other. -/
theorem feeds_only {s t : State} {k : Nat} {F : Feed → Feed} (h : k < s.feeds.length) (e : t.feeds = modAt s.feeds k F) :
    t.feedQ k = F (s.feedQ k) ∧ ∀ j, j ≠ k → t.feedQ j = s.feedQ j := by
  unfold State.feedQ
  rw [e]
  exact modAt_only h F {}

section
variable {s : State} {i : Iss} {d : Fld} {f : Feed} {n : Nat} {place : Nat → Nat}

/-- What a removal of records makes of the group: registers, predicates, knowledge. -/
theorem popChange_eq : ∃ rs po, setRows (i.phys d.toNat) f.words n i.lanes.lanes (fun j k => BitVec.ofNat 32 (s.mem.le (place j + 4 * k) 4)) i.g
    = { i.g with regs := rs, poison := po } ∧ rs.length = i.g.regs.length := setRows_eq ..

theorem popChange_lane (p l : Nat) : (popChange s i d f n place i.g).lane p l
    = (setRows (i.phys d.toNat) f.words n i.lanes.lanes (fun j k => BitVec.ofNat 32 (s.mem.le (place j + 4 * k) 4)) i.g).lane p l := by
  rw [popChange, learnRecords_eq]
  rfl

theorem popChange_pred {p : Nat} (l : Nat) (hp : p < 8) :
    ((popChange s i d f n place i.g).pred p).has l = i.afterPred 0 (fun l => (i.lanes.lanes.take n).contains l) p l := by
  obtain ⟨rs, po, e, -⟩ := popChange_eq (s := s) (i := i) (d := d) (f := f) (n := n) (place := place)
  rw [popChange, learnRecords_eq, e]
  exact setPred_after i 0 _ p l hp

theorem popChange_know : (popChange s i d f n place i.g).know
    = (f.vecs.take n).foldl (fun v x => match x with | some y => v.merge y | none => v) i.g.know := by
  obtain ⟨rs, po, e, -⟩ := popChange_eq (s := s) (i := i) (d := d) (f := f) (n := n) (place := place)
  rw [popChange, learnRecords_eq, e]
  rfl

end

/-! ### A record stored (R327) -/

/-- The record of a push: the words of its lane. -/
def pushRecord (i : Iss) (b : Fld) (k l : Nat) : List Byte := (List.range k).flatMap fun j => leBytes 4 (i.reg (b.toNat + j) l).toNat

/-- The feed after n records of a push. -/
def pushFeed (i : Iss) (n : Nat) (f : Feed) : Feed := { f with tail := f.tail + n, vecs := f.vecs ++ List.replicate n (some i.g.know) }

/-- The end of a push of the lanes `put`: the feed knows its records, p0 tells which lanes got in, and the group's clock ticks. -/
def pushEnd (i : Iss) (h : Word) (n : Nat) (put : List Nat) (s : State) : State :=
  (tickG (logOrder (((s.modFeed (hIndex h) (pushFeed i n)).putPred i 0 fun l => put.contains l).commit i) i h.toNat) i.gi).advance i 4 true

theorem pushEnd_behind {s u : State} {g : Bool} {i : Iss} (h : Issuing s g i) (unlogged : (s.ctx (s.pasidOf i.g)).replay = false) (hg : u.groups = s.groups)
    (hc : u.ctxs = s.ctxs) (hp : u.pasidOf i.g = s.pasidOf i.g) (k : Word) (n : Nat) (put : List Nat) :
    Behind s (pushEnd i k n put u) i 4 (i.g.setPred 0 i.lanes fun l => put.contains l).tick i.f ∧ (pushEnd i k n put u).mem = u.mem
      ∧ (pushEnd i k n put u).feeds = modAt u.feeds (hIndex k) (pushFeed i n) := by
  have kept := logOrder_unlogged (u := ((u.modFeed (hIndex k) (pushFeed i n)).putPred i 0 fun l => put.contains l).commit i) unlogged hc
    ((State.pasidOf_commit ..).trans hp) k.toNat
  have became : Became s (u.modFeed (hIndex k) (pushFeed i n)) i i.g i.f := h.became.congr hg
  have behind := (became.putPred 0 fun l => put.contains l).commit.tick.behind 4 true
  rw [pushEnd, kept]
  exact ⟨behind, State.advance_mem .., State.advance_feeds ..⟩

section
variable {s : State} {g : Bool} {a b : Fld} {i : Iss} {l : Nat} {f : Feed}
  (ci : CanIssue s g (a.toNat :: runOf b.toNat f.words) [] [] i [0]) (hf : f = s.feedQ (hIndex (i.reg a.toNat i.lo)))
  (active : i.lanes ≠ 0) (unlogged : (s.ctx (s.pasidOf i.g)).replay = false) (named : s.feedNamed (s.pasidOf i.g) (i.reg a.toNat i.lo) = true)
  (stands : ∀ t, i.f.stall ≠ some (.xlate t)) (quiet : Quiet s i) (fits : b.toNat + f.words ≤ 128) (some_word : 0 < f.words) (single : i.lanes.lanes = [l])
include ci hf active named quiet fits some_word single

/-- A push of one lane stores its record, or none into a full feed. -/
theorem fdPush_runs (n : Nat) (hn : n = if f.size - f.count < 1 then f.size - f.count else 1) : exec (.fdPush g a b) s
    = .next (withUnit s i 4 ((List.range n).map fun j => ⟨f.at (f.tail + j), .write⟩) fun s => pushEnd i (i.reg a.toNat i.lo) n ([l].take n)
        ((indexed ([l].take n)).foldl (fun s x => unitWrite s i.g.core (s.pasidOf i.g) (f.at (f.tail + x.1)) (pushRecord i b f.words x.2)) s)) := by
  subst hf
  have run : exec (.fdPush g a b) s = execFdPush g a b s := rfl
  unfold execFdPush at run
  rw [feedOp_next ci List.mem_cons_self (List.nil_subset _) active named _ (some (b, false))
    fun b w e => by cases e; exact ⟨fits, some_word, List.subset_cons_self ..⟩, owesAccess_of_quiet quiet] at run
  have one : i.lanes.count = 1 := by rw [Mask.count, single]; rfl
  simp only [one, single, Bool.false_eq_true, if_false, ← hn] at run
  exact run

include unlogged stands

theorem fdPush_full (full : 2 ^ f.n ≤ f.tail - f.head) : ∃ t, exec (.fdPush g a b) s = .next t
    ∧ Behind s t i 4 (i.g.setPred 0 i.lanes fun _ => false).tick i.f ∧ t.mem = s.mem
    ∧ t.feeds = modAt s.feeds (hIndex (i.reg a.toNat i.lo)) (pushFeed i 0) := by
  have none_fits : 0 = if f.size - f.count < 1 then f.size - f.count else 1 := by
    rw [Feed.size, Feed.count, if_pos (by omega)]
    omega
  have run := fdPush_runs ci hf active named quiet fits some_word single 0 none_fits
  rw [withUnit_go stands (by simp)] at run
  exact ⟨_, run, pushEnd_behind ci.toIssuing unlogged rfl rfl rfl _ 0 []⟩

/-- The record stands behind the last. -/
theorem fdPush_stored {pa : Nat} (room : f.tail - f.head < 2 ^ f.n)
    (reached : ∃ x, access s i.g.core (s.pasidOf i.g) (f.at f.tail) .write = .ok (pa, x) ∧ isTracked s (s.pasidOf i.g) x = false) :
    ∃ t, exec (.fdPush g a b) s = .next t ∧ Behind s t i 4 (i.g.setPred 0 i.lanes fun m => [l].contains m).tick i.f
    ∧ t.mem = s.mem.write pa (pushRecord i b f.words l) ∧ t.feeds = modAt s.feeds (hIndex (i.reg a.toNat i.lo)) (pushFeed i 1) := by
  have one_fits : 1 = if f.size - f.count < 1 then f.size - f.count else 1 := by
    rw [Feed.size, Feed.count, if_neg (by omega)]
  have run := fdPush_runs ci hf active named quiet fits some_word single 1 one_fits
  have needs : ∀ m ∈ (List.range 1).map fun j => (⟨f.at (f.tail + j), .write⟩ : Need), ∃ y, access s i.g.core (s.pasidOf i.g) m.va m.kind = .ok y := by
    obtain ⟨x, ok, -⟩ := reached
    exact List.forall_mem_singleton.2 ⟨_, ok⟩
  rw [withUnit_go stands needs] at run
  obtain ⟨u, written⟩ : ∃ u, u = unitWrite s i.g.core (s.pasidOf i.g) (f.at f.tail) (pushRecord i b f.words l) := ⟨_, rfl⟩
  have run : exec (.fdPush g a b) s = .next (pushEnd i (i.reg a.toNat i.lo) 1 [l] u) := run.trans (by rw [written]; rfl)
  obtain ⟨mem, groups, ctxs, pasid, feeds, -⟩ := unitWrite_keeps reached _ written
  rw [← mem, ← feeds]
  exact ⟨_, run, pushEnd_behind ci.toIssuing unlogged groups ctxs (pasid _) _ 1 [l]⟩

end

/-- Settles O45: both removals by `popRecords_gives`, a push by what a unit's write does. -/
theorem feedInstructions : Obligations.FeedInstructions := by
  unfold Obligations.FeedInstructions
  intro ready only at_ Pops
  have pops {mk : Bool → Fld → Fld → Instr} {waits : Bool} {K : State → Fld → Iss → Word → Feed → State}
      (hx : ∀ g d a s, exec (mk g d a) s = feedOp s g a [] [0] (some (d, true)) (K s d))
      (hK : ∀ s d i h f, (waits = true → f.head < f.tail) → K s d i h f = popRecords s i d h f) : Pops mk waits := by
    intro g d a s i place h f n ci hr fits words some_word found reached
    obtain ⟨active, unlogged, named, stands⟩ := hr
    have a_word : 0 < f.words := Nat.div_pos (by omega) (by decide)
    have run := (hx g d a s).trans (feedOp_next ci (List.mem_singleton_self _) (List.nil_subset _) active named (K s d) (some (d, true))
      fun b w e => by cases e; exact ⟨fits, a_word, List.Subset.refl _⟩)
    rw [hK s d i h f found] at run
    obtain ⟨mark, f', behind, fills, mem, feeds⟩ := popRecords_gives ci.toIssuing unlogged stands h (d := d) words rfl reached
    have taken : n ≤ i.lanes.lanes.length := Nat.min_le_right ..
    refine ⟨_, run, behind.goes mem (fun p l hp hl => ?_) (fun p l hp _ => popChange_pred l hp), ?_, fun got => behind.acquired.trans (fills got), ?_⟩
    · refine (popChange_lane p l).trans ?_
      split
      · next j at_j =>
        obtain ⟨m, hm, own⟩ := findAt_some at_j
        cases beq_iff_eq.1 own
        exact setRows_lane (Mask.nodup_lanes _) taken hp hl hm
      · next none_at => exact setRows_other taken hp hl fun l_mem => by simpa using findAt_none none_at l l_mem
    · exact (behind.keeps Group.know fun _ _ _ _ => rfl).trans popChange_know
    · exact feeds_only (feedNamed_lt named) feeds
  refine ⟨?pop, ?attempt, ?push, ?stat⟩
  case pop =>
    refine pops (K := fun s d i h f => if f.count = 0 then (s.commit i).wait i (.feed h) else popRecords s i d h f) (fun _ _ _ _ => rfl)
      fun s d i h f found => if_neg ?_
    have := found rfl
    rw [Feed.count]
    omega
  case attempt => exact pops (K := fun s d i h f => popRecords s i d h f) (fun _ _ _ _ => rfl) fun _ _ _ _ _ _ => rfl
  case push =>
    intro g a b s i l pa h f ci hr quiet fits some_word single _
    obtain ⟨active, unlogged, named, stands⟩ := hr
    refine ⟨fun room reached => ?_, fun full => ?_⟩
    · obtain ⟨t, run, behind, mem, feeds⟩ := fdPush_stored ci rfl active unlogged named stands quiet fits some_word single room reached
      refine ⟨t, run, mem, feeds_only (feedNamed_lt named) feeds, behind.keeps Group.clk fun _ _ _ _ => rfl, behind.keeps Group.regs fun _ _ _ _ => rfl,
        fun p m hp hm => ?_, behind.pc⟩
      refine (behind.keeps (fun g => (g.pred p).has m) fun _ _ _ _ => rfl).trans ((setPred_after i 0 _ p m hp).trans ?_)
      unfold Iss.afterPred
      split
      · next active_lane =>
        have own : m ∈ i.lanes.lanes := (Mask.mem_lanes ..).2 active_lane.2
        rw [single] at own
        exact List.contains_iff_mem.2 own
      · rfl
    · obtain ⟨t, run, behind, mem, feeds⟩ := fdPush_full ci rfl active unlogged named stands quiet fits some_word single full
      obtain ⟨this_feed, other_feeds⟩ := feeds_only (feedNamed_lt named) feeds
      refine ⟨t, run, behind.goes mem (fun _ _ _ _ => rfl) (fun p m hp _ => setPred_after i 0 _ p m hp), this_feed.trans ?_, other_feeds⟩
      rw [pushFeed, List.replicate_zero, List.append_nil]
      rfl
  case stat =>
    intro g d a s i ci h f hr
    obtain ⟨active, unlogged, named, -⟩ := hr
    have run : exec (.fdStat g d a) s = execFdStat g d a s := rfl
    unfold execFdStat at run
    rw [feedOp_next ci (List.mem_singleton_self _) (List.Subset.refl _) active named _ none nofun,
      logOrder_unlogged (u := s.commit i) unlogged rfl (State.pasidOf_commit ..)] at run
    have behind := (ci.toIssuing.became.commit.putPair (pairFld d).toNat fun _ => mk64 (BitVec.ofNat 32 f.count) (BitVec.ofNat 32 (f.size - f.count))).behind 4 true
    refine ⟨_, run, State.advance_feeds .., behind.goes (State.advance_mem ..) (fun p l hp hl => (setPair_after i _ _ hp hl).trans ?_) fun _ _ _ _ => rfl⟩
    simp only [lo32_mk64, hi32_mk64]
    rfl

end Sys2Proof.Machine
end

section
/-! PROOFS. Pools (R315 to R317): the grants of an allocation, a node given back, the reset. -/

namespace Sys2Proof.Machine

open Sys2Proof

/-! ### Named pools -/

theorem poolNamed_lt {s : State} {pasid : Nat} {h : Word} (named : s.poolNamed pasid h = true) : hIndex h < s.pools.length := by
  refine lt_of_getD_ne (d := {}) fun absent => ?_
  unfold State.poolNamed State.pool at named
  rw [absent] at named
  simp at named

/-- One pool has changed, and no other. -/
theorem pools_only {s t : State} {k : Nat} {F : Pool → Pool} (h : k < s.pools.length) (e : t.pools = modAt s.pools k F) :
    t.pool k = F (s.pool k) ∧ ∀ j, j ≠ k → t.pool j = s.pool j := by
  unfold State.pool
  rw [e]
  exact modAt_only h F {}

theorem poolOp_next {s : State} {g : Bool} {a : Fld} {rs ws ds : List Nat} {i : Iss} (ci : CanIssue s g (a.toNat :: rs) ws [] i ds) (active : i.lanes ≠ 0)
    (named : s.poolNamed (s.pasidOf i.g) (i.reg a.toNat i.lo) = true) (k : Iss → Word → Pool → State → State) :
    poolOp s g a rs ws ds k = .next (k i (i.reg a.toNat i.lo) (s.pool (hIndex (i.reg a.toNat i.lo))) (s.commit i)) := by
  rw [poolOp, withOperands_next ci, once_active active]
  exact congrArg Host.Outcome.next (if_pos named)

/-! ### Grants (R315) -/

/-- From an empty free list, nodes never granted before, as long as there are some. -/
theorem grants_fresh (s : State) (core pasid n : Nat) (p : Pool) (empty : p.head = 0) : grants s core pasid n p
    = .ok ({ p with bump := p.bump + min n (p.cap - p.bump), free := p.free - min n (p.cap - p.bump) },
        (List.range n).map fun j => if p.bump + j < p.cap then p.base + (p.bump + j) * p.nodeb else 0) := by
  induction n generalizing p with
  | zero =>
    rw [Nat.zero_min]
    rfl
  | succ n ih =>
    rw [grants, if_neg (not_not.2 empty), List.range_succ_eq_map, List.map_cons, List.map_map]
    by_cases left : p.bump < p.cap
    · rw [if_pos left, ih _ (by exact empty)]
      have taken : min (n + 1) (p.cap - p.bump) = min n (p.cap - (p.bump + 1)) + 1 := by omega
      refine congrArg Except.ok (Prod.ext ?_ ?_)
      · simp only [taken, Nat.sub_sub]
        rw [Nat.add_assoc, Nat.add_comm 1]
      · refine congrArg₂ List.cons (if_pos left).symm (List.map_congr_left fun j _ => ?_)
        simp only [Function.comp_apply, Nat.succ_eq_add_one, Nat.add_assoc, Nat.add_comm 1]
    · rw [if_neg left, ih p empty]
      have taken : min (n + 1) (p.cap - p.bump) = min n (p.cap - p.bump) := by omega
      refine congrArg Except.ok (Prod.ext ?_ ?_)
      · simp only [taken]
      · refine congrArg₂ List.cons (if_neg left).symm (List.map_congr_left fun j _ => ?_)
        rw [Function.comp_apply, if_neg (by omega), if_neg (by omega)]

/-- The head of the free list, whose node holds the next. -/
theorem grants_head {s : State} {core pasid pa : Nat} {p : Pool} (list : p.head ≠ 0) (found : ∃ x, access s core pasid p.head .read = .ok (pa, x)) :
    grants s core pasid 1 p = .ok ({ p with head := s.mem.le pa 8, free := p.free - 1 }, [p.head]) := by
  obtain ⟨x, ok⟩ := found
  rw [grants, if_pos list, ok]
  rfl

theorem zip_map_range {α : Type} (xs : List Nat) (f : Nat → α) : xs.zip ((List.range xs.length).map f) = (indexed xs).map fun e => (e.2, f e.1) := by
  refine List.ext_getElem? fun j => ?_
  by_cases hj : j < xs.length
  · simp [indexed, hj]
  · rw [List.getElem?_eq_none (by simp; omega), List.getElem?_eq_none (by simp [indexed]; omega)]

/-- The group with the grants owed. -/
def grantedGroup (s : State) (i : Iss) (d : BitVec 6) (vec : KVec) (mark : Nat) (f : Nat → Nat) : Group :=
  { i.g with
    outst := i.g.outst ++ [{
      path := .at, seq := s.seq + 1, fid := i.f.fid, writes := (indexed i.lanes.lanes).flatMap fun e => laneWrites i (pairFld d).toNat e.2 2 (f e.1),
      preds := (indexed i.lanes.lanes).map fun e => (0, e.2, f e.1 != 0) }]
    know := i.g.know.merge vec, acquired := mark }

theorem granted_behind {s : State} {g : Bool} {i : Iss} (h : Issuing s g i) (unlogged : (s.ctx (s.pasidOf i.g)).replay = false) (d : BitVec 6) (k : Word)
    (p : Pool) {f : Nat → Nat} {ns : List Nat} (hns : ns = (List.range i.lanes.lanes.length).map f) :
    ∃ t mark f', granted (s.commit i) i d k p ns = t ∧ Behind s t i 4 (grantedGroup s i d p.vec mark f) f' ∧ f'.acquired = s.fillNo ∧ t.mem = s.mem
      ∧ t.pools = modAt s.pools (hIndex k) fun _ => p := by
  have kept := logOrder_unlogged (u := (s.commit i).modPool (hIndex k) fun _ => p) unlogged rfl (State.pasidOf_commit s i i.g) k.toNat
  have became : Became s ((s.commit i).modPool (hIndex k) fun _ => p) i i.g i.f := h.became.congr rfl
  unfold granted
  rw [kept, hns, zip_map_range]
  dsimp only
  rw [List.flatMap_map, List.map_map]
  have owed := (became.owe .at ((indexed i.lanes.lanes).flatMap fun e => laneWrites i (pairFld d).toNat e.2 2 (f e.1)) [] .none
    ((indexed i.lanes.lanes).map fun e => (0, e.2, f e.1 != 0))).learn p.vec
  obtain ⟨mark, acquired⟩ := owed.acquireDev
  have behind := acquired.behind 4 true
  obtain ⟨gs, rest⟩ := acquireFills_rest (mergeG (((s.commit i).modPool (hIndex k) fun _ => p).owe i .at
    ((indexed i.lanes.lanes).flatMap fun e => laneWrites i (pairFld d).toNat e.2 2 (f e.1)) [] .none
    ((indexed i.lanes.lanes).map fun e => (0, e.2, f e.1 != 0))) i.gi p.vec) i.gi i.fi 2
  exact ⟨_, mark, _, rfl, behind, rfl, (State.advance_mem ..).trans (congrArg State.mem rest :), (State.advance_pools ..).trans (congrArg State.pools rest :)⟩

/-! ### Nodes given back (R316, R317) -/

/-- The pool after a release of the group's knowledge to it. -/
def releasedTo (i : Iss) (p : Pool) : Pool := { p with vec := p.vec.merge i.g.know }

theorem poolRelease_behind {s u : State} {g : Bool} {i : Iss} (h : Issuing s g i) (unlogged : (s.ctx (s.pasidOf i.g)).replay = false)
    (hg : u.groups = s.groups) (hc : u.ctxs = s.ctxs) (hp : u.pasidOf i.g = s.pasidOf i.g) (k : Word) (F : Pool → Pool) :
    ∃ t, (poolRelease (u.modPool (hIndex k) F) i k).advance i 4 true = t ∧ Behind s t i 4 i.g.tick i.f ∧ t.mem = u.mem
      ∧ t.pools = modAt u.pools (hIndex k) fun p => releasedTo i (F p) := by
  have became : Became s (u.modPool (hIndex k) fun p => releasedTo i (F p)) i i.g i.f := h.became.congr hg
  have know : ((u.modPool (hIndex k) F).group i.gi).know = i.g.know := by
    rw [h.eq.1]
    exact congrArg (fun gs : List Group => (gs[i.gi]?.getD {}).know) hg
  have released : (u.modPool (hIndex k) F).modPool (hIndex k) (fun p => { p with vec := p.vec.merge i.g.know })
      = u.modPool (hIndex k) fun p => releasedTo i (F p) := congrArg (fun ps => { u with pools := ps }) (modAt_modAt ..)
  have kept := logOrder_unlogged (u := u.modPool (hIndex k) fun p => releasedTo i (F p)) unlogged hc hp k.toNat
  have behind := became.tick.behind 4 true
  rw [poolRelease, know, released, kept]
  exact ⟨_, rfl, behind, State.advance_mem .., State.advance_pools ..⟩

/-- A node of a pool passes the check of R316. -/
theorem isNode_iff (p : Pool) (n : Nat) : p.isNode n = true ↔ p.base ≤ n ∧ n < p.base + p.bump * p.nodeb ∧ (n - p.base) % p.nodeb = 0 := by
  simp [Pool.isNode, and_assoc]

theorem nfree_gives {s : State} {g : Bool} {i : Iss} {a : BitVec 6} {b : Fld} {l : Nat} (ci : CanIssue s g (b.toNat :: pairOf a) [] [] i) (active : i.lanes ≠ 0)
    (unlogged : (s.ctx (s.pasidOf i.g)).replay = false) (named : s.poolNamed (s.pasidOf i.g) (i.reg b.toNat i.lo) = true) (stands : i.f.stall = none)
    (quiet : Quiet s i) (single : i.lanes.lanes = [l]) {n : Nat} (hn : n = (i.pair (pairFld a).toNat l).toNat) {p : Pool}
    (hp : p = s.pool (hIndex (i.reg b.toNat i.lo))) {pa : Nat} (some_node : n ≠ 0) (node : p.isNode n = true)
    (reached : ∃ x, access s i.g.core (s.pasidOf i.g) n .write = .ok (pa, x) ∧ isTracked s (s.pasidOf i.g) x = false) :
    ∃ t, exec (.nfree g a b) s = .next t ∧ Behind s t i 4 i.g.tick i.f ∧ t.mem = s.mem.write pa (leBytes 8 p.head)
      ∧ t.pools = modAt s.pools (hIndex (i.reg b.toNat i.lo)) fun _ => releasedTo i { p with head := n, free := p.free + 1 } := by
  have run : exec (.nfree g a b) s = execNfree g a b s := rfl
  have maps := SameMaps.commit s i
  have pasid : (s.commit i).pasidOf i.g = s.pasidOf i.g := State.pasidOf_commit ..
  have nodes : (i.lanes.lanes.map fun l => (i.pair (pairFld a).toNat l).toNat).filter (· != 0) = [n] := by
    rw [single, List.map_singleton, ← hn, List.filter_cons_of_pos (by simpa using some_node)]
    rfl
  have reached' : ∃ x, access (s.commit i) i.g.core (s.pasidOf i.g) n .write = .ok (pa, x) ∧ isTracked (s.commit i) (s.pasidOf i.g) x = false := by
    obtain ⟨x, ok, untracked⟩ := reached
    refine ⟨x, (maps.access ..).trans ok, ?_⟩
    rw [isTracked, maps.ctx]
    exact untracked
  have needs : ∀ m ∈ ([n].map fun n => ⟨n, .write⟩ : List Need), ∃ y, access (s.commit i) i.g.core ((s.commit i).pasidOf i.g) m.va m.kind = .ok y := by
    obtain ⟨x, ok, -⟩ := reached'
    rw [pasid]
    exact List.forall_mem_singleton.2 ⟨_, ok⟩
  have owes : owesAccess (s.commit i) i = false := owesAccess_of_quiet quiet
  unfold execNfree at run
  rw [poolOp_next ci active named, ← hp] at run
  simp only [nodes, List.any_cons, List.any_nil, node, owes, Bool.not_true, Bool.or_self, Bool.false_eq_true, if_false] at run
  rw [withUnit_go (by rw [stands]; nofun) needs] at run
  obtain ⟨u, written⟩ : ∃ u, u = unitWrite (s.commit i) i.g.core (s.pasidOf i.g) n (leBytes 8 p.head) := ⟨_, rfl⟩
  obtain ⟨mem, groups, ctxs, same_pasid, -, pools⟩ := unitWrite_keeps reached' _ written
  obtain ⟨t, released, behind, mem', pools'⟩ := poolRelease_behind ci.toIssuing unlogged groups ctxs ((same_pasid _).trans pasid) (i.reg b.toNat i.lo)
    fun _ => { p with head := n, free := p.free + 1 }
  refine ⟨t, run.trans ?_, behind, mem'.trans mem, pools'.trans (congrArg (modAt · _ _) pools)⟩
  rw [← released, written, ← pasid]
  rfl

/-- Settles O43: the allocations by `granted_behind` with the grants of an empty and of a standing free list, the others by `poolRelease_behind`. -/
theorem poolInstructions : Obligations.PoolInstructions := by
  unfold Obligations.PoolInstructions
  intro ready at_ only Grants Alloc
  have alloc {mk : Bool → BitVec 6 → Fld → Instr} {whole : Bool} (hx : ∀ g d a s, exec (mk g d a) s = allocOp s g d a whole) : Alloc mk whole := by
    intro g d a s i ci hr room k p n whole_free
    obtain ⟨active, unlogged, named, stands⟩ := hr
    have run := (hx g d a s).trans (poolOp_next ci active named _)
    have enough : ¬(whole = true ∧ p.free < n) := fun short => absurd (whole_free short.1) (Nat.not_le.2 short.2)
    have gives {p' : Pool} {f : Nat → Nat}
        (made : grants (s.commit i) i.g.core ((s.commit i).pasidOf i.g) n p = .ok (p', (List.range n).map f)) (vec : p'.vec = p.vec) :
        ∃ t, exec (mk g d a) s = .next t ∧ Grants s t i d p f ∧ only s t k p' := by
      obtain ⟨t, mark, f', e, behind, acquired, mem, pools⟩ := granted_behind ci.toIssuing unlogged d (i.reg a.toNat i.lo) p' (f := f) rfl
      refine ⟨t, run.trans ?_, ⟨behind.goes mem (fun _ _ _ _ => rfl) fun _ _ _ _ => rfl, ?_, behind.acquired.trans acquired, ?_⟩,
        pools_only (poolNamed_lt named) pools⟩
      · rw [← e]
        exact congrArg Host.Outcome.next ((if_neg enough).trans ((if_neg (by rw [pathFull_eq_false room]; decide)).trans (by rw [made]; rfl)))
      · exact (behind.keeps Group.know fun _ _ _ _ => rfl).trans (congrArg i.g.know.merge vec)
      · exact behind.keeps Group.outst fun _ _ _ _ => rfl
    refine ⟨fun empty => gives (grants_fresh _ _ _ n p empty) rfl, fun list one pa found => ?_⟩
    obtain ⟨x, ok, -⟩ := found
    have head := grants_head list ⟨x, ((SameMaps.commit s i).access ..).trans ok⟩
    rw [← State.pasidOf_commit s i, ← one] at head
    exact gives (f := fun _ => p.head) (head.trans (by rw [one]; rfl)) rfl
  refine ⟨alloc fun _ _ _ _ => rfl, alloc fun _ _ _ _ => rfl, ?nfree, ?nreset, ?ninfo⟩
  case nfree =>
    intro g a b s i l ci hr quiet single _ k p n pa some_node from_base below aligned reached
    obtain ⟨active, unlogged, named, stands⟩ := hr
    obtain ⟨t, run, behind, mem, pools⟩ := nfree_gives ci active unlogged named stands quiet single rfl rfl some_node
      ((isNode_iff ..).2 ⟨from_base, below, aligned⟩) reached
    exact ⟨t, run, mem, pools_only (poolNamed_lt named) pools, behind.keeps Group.clk fun _ _ _ _ => rfl, behind.keeps Group.regs fun _ _ _ _ => rfl,
      behind.keeps Group.preds fun _ _ _ _ => rfl, behind.pc⟩
  case nreset =>
    intro g a s i ci hr quiet k p
    obtain ⟨active, unlogged, named, -⟩ := hr
    have owes : owesAccess (s.commit i) i = false := owesAccess_of_quiet quiet
    obtain ⟨t, released, behind, mem, pools⟩ := poolRelease_behind (u := s.commit i) ci.toIssuing unlogged rfl rfl (State.pasidOf_commit ..)
      (i.reg a.toNat i.lo) fun p => { p with head := 0, bump := 0, free := p.cap }
    have run : exec (.nreset g a) s = execNreset g a s := rfl
    unfold execNreset at run
    rw [poolOp_next ci active named, owes, if_neg Bool.false_ne_true, released] at run
    exact ⟨t, run, behind.goes mem (fun _ _ _ _ => rfl) fun _ _ _ _ => rfl, behind.keeps Group.clk fun _ _ _ _ => rfl, pools_only (poolNamed_lt named) pools⟩
  case ninfo =>
    intro g d a s i ci hr p
    obtain ⟨active, unlogged, named, -⟩ := hr
    have run : exec (.ninfo g d a) s = execNinfo g d a s := rfl
    unfold execNinfo at run
    rw [poolOp_next ci active named, logOrder_unlogged (u := s.commit i) unlogged rfl (State.pasidOf_commit ..)] at run
    have behind := (ci.toIssuing.became.commit.putPair (pairFld d).toNat fun _ =>
      mk64 (BitVec.ofNat 32 p.free) (BitVec.ofNat 32 ((p.cap - 1) % 2 ^ 24 + (p.nodeb / 64 - 1) * 2 ^ 24))).behind 4 true
    refine ⟨_, run, State.advance_pools .., behind.goes (State.advance_mem ..) (fun q l hq hl => (setPair_after i _ _ hq hl).trans ?_) fun _ _ _ _ => rfl⟩
    simp only [lo32_mk64, hi32_mk64]

end Sys2Proof.Machine
end

section
/-! PROOFS. Spawn and subtrees (R306 to R313): a child on its parent's core, what the tree instructions make of their subtree, and the groups that a
cancellation strikes. -/

namespace Sys2Proof.Machine

open Sys2Proof

/-! ### What striking a group leaves alone -/

/-- How a group stands: what a cancellation of another group does not change. -/
def Group.stand (g : Group) : GState × List Frag × Mask × Bool := (g.state, g.frags, g.exited, g.struck)

/-- A group that a cancellation has struck while it stood in a slot. -/
def Group.isStruck (g : Group) : Prop := g.frags = [] ∧ g.state = .retiring ∧ g.exited = 0xFFFF ∧ g.struck = true

theorem Group.isStruck_congr {g g' : Group} (h : g'.stand = g.stand) (struck : g.isStruck) : g'.isStruck := by
  obtain ⟨state, rest⟩ := Prod.mk.inj h
  obtain ⟨frags, rest⟩ := Prod.mk.inj rest
  obtain ⟨exited, was⟩ := Prod.mk.inj rest
  obtain ⟨no_frags, retiring, all_lanes, is⟩ := struck
  exact ⟨frags.trans no_frags, state.trans retiring, exited.trans all_lanes, was.trans is⟩

/-- `t` is `s` but for groups that may have changed, queues of rows and trace packets. -/
structure Apart (s t : State) (touched : Nat → Prop) : Prop where
  mem : t.mem = s.mem
  ctxs : t.ctxs = s.ctxs
  trees : t.trees = s.trees
  length : t.groups.length = s.groups.length
  stand : ∀ m, ¬touched m → (t.group m).stand = (s.group m).stand

theorem Apart.refl (s : State) (touched : Nat → Prop) : Apart s s touched := ⟨rfl, rfl, rfl, rfl, fun _ _ => rfl⟩

theorem Apart.trans {s t u : State} {touched : Nat → Prop} (h : Apart s t touched) (h' : Apart t u touched) : Apart s u touched :=
  ⟨h'.mem.trans h.mem, h'.ctxs.trans h.ctxs, h'.trees.trans h.trees, h'.length.trans h.length, fun m hm => (h'.stand m hm).trans (h.stand m hm)⟩

theorem Apart.mono {s t : State} {p q : Nat → Prop} (h : Apart s t p) (hpq : ∀ m, p m → q m) : Apart s t q :=
  { h with stand := fun m hm => h.stand m fun hp => hm (hpq m hp) }

theorem Apart.modG {s t : State} {p : Nat → Prop} (h : Apart s t p) (gi : Nat) (F : Group → Group) (hF : p gi ∨ ∀ g, (F g).stand = g.stand) : Apart s (t.modG gi F) p where
  mem := h.mem
  ctxs := h.ctxs
  trees := h.trees
  length := (State.modG_length ..).trans h.length
  stand m hm := by
    rw [← h.stand m hm, State.group, State.modG_groups]
    split
    · next same =>
      subst same
      have keeps := hF.resolve_left hm
      unfold State.group
      cases t.groups[m]? with
      | none => rfl
      | some g => exact keeps g
    · rfl

theorem voidFuture_apart (s : State) (gi k : Nat) (p : Nat → Prop) : Apart s (voidFuture s gi k) p := by
  unfold voidFuture
  refine Apart.modG ⟨?_, ?_, ?_, ?_, fun m _ => ?_⟩ gi _ (.inr fun g => ?_)
  all_goals rfl

theorem Apart.foldl {β : Type} {F : State → β → State} {p : Nat → Prop} (hF : ∀ u b, Apart u (F u b) p) (bs : List β) (s : State) : Apart s (bs.foldl F s) p := by
  induction bs generalizing s with
  | nil => exact .refl s p
  | cons b bs ih => exact (hF s b).trans (ih _)

theorem abandonWork_apart (s : State) (gi : Nat) (p : Nat → Prop) : Apart s (abandonWork s gi) p := by
  refine Apart.modG ?_ gi _ (.inr fun _ => rfl)
  unfold dropRows
  extract_lets owners dropped
  have first : Apart s dropped p := ⟨rfl, rfl, rfl, rfl, fun _ _ => rfl⟩
  clear_value dropped owners
  have rest := Apart.foldl (F := fun u o => voidFuture u o.1 o.2) (p := p) (fun u o => voidFuture_apart u o.1 o.2 p) owners dropped
  exact first.trans rest

theorem dropWoas_apart (s : State) (gi : Nat) : Apart s (dropWoas s gi) (· = gi) := by
  unfold dropWoas
  refine Apart.modG ⟨?_, ?_, ?_, ?_, fun m _ => ?_⟩ gi _ (.inl rfl)
  all_goals rfl

theorem flushGroup_apart (s : State) (gi : Nat) : Apart s (s.flushGroup gi) (· = gi) := by
  obtain ⟨ts, n, e⟩ := s.flushGroup_eq gi
  rw [e]
  refine Apart.modG ⟨?_, ?_, ?_, ?_, fun m _ => ?_⟩ gi _ (.inl rfl)
  all_goals rfl

theorem strikeGroup_apart (s : State) (gi : Nat) : Apart s (strikeGroup s gi) (· = gi) := by
  unfold strikeGroup
  cases (s.group gi).state with
  | retired => exact .refl ..
  | retiring => exact abandonWork_apart ..
  | parked | saved => exact (abandonWork_apart ..).modG gi _ (.inl rfl)
  | resident => exact (((flushGroup_apart s gi).trans (dropWoas_apart ..)).trans (abandonWork_apart ..)).modG gi _ (.inl rfl)

/-- A group in a slot is struck. -/
theorem strikeGroup_strikes {s : State} {gi : Nat} (h : gi < s.groups.length) (resident : (s.group gi).state = .resident) :
    ((strikeGroup s gi).group gi).isStruck := by
  unfold strikeGroup
  simp only [resident]
  have left := ((flushGroup_apart s gi).trans (dropWoas_apart ..)).trans (abandonWork_apart _ gi _)
  rw [State.modG_self _ _ _ (left.length ▸ h)]
  exact ⟨rfl, rfl, rfl, rfl⟩

/-- What has been struck stays so. -/
theorem strikeGroup_keeps (s : State) (gi : Nat) {m : Nat} (struck : (s.group m).isStruck) : ((strikeGroup s gi).group m).isStruck := by
  by_cases same : m = gi
  · subst same
    have abandoned : strikeGroup s m = abandonWork s m := by
      unfold strikeGroup
      rw [struck.2.1]
    rw [abandoned]
    exact Group.isStruck_congr ((abandonWork_apart s m fun _ => False).stand m not_false) struck
  · exact Group.isStruck_congr ((strikeGroup_apart s gi).stand m same) struck

/-! ### A subtree is struck (R310, R313) -/

/-- `t` is behind the cancellation of subtrees in `s`. -/
structure Strikes (s t : State) : Prop where
  mem : t.mem = s.mem
  ctxs : t.ctxs = s.ctxs
  owner : ∀ j, (t.tree j).ctx = (s.tree j).ctx
  cancelled : ∀ j, (s.tree j).st = .cancelled → (t.tree j).st = .cancelled
  struck : ∀ m, (s.group m).isStruck → (t.group m).isStruck

theorem Strikes.trans {s t u : State} (h : Strikes s t) (h' : Strikes t u) : Strikes s u :=
  ⟨h'.mem.trans h.mem, h'.ctxs.trans h.ctxs, fun j => (h'.owner j).trans (h.owner j), fun j hj => h'.cancelled j (h.cancelled j hj),
    fun m hm => h'.struck m (h.struck m hm)⟩

/-- The members of a subtree are struck one after another. -/
theorem strikeMembers {s : State} {pasid : Nat} (unlogged : (s.ctx pasid).replay = false) (id : State → Nat → BitVec 18) (bs : State → Nat → List Byte)
    (ms : List Nat) : let t := ms.foldl (fun s gi => strikeGroup (s.replayLog pasid 4 (id s gi) (bs s gi)) gi) s
    Apart s t (· ∈ ms) ∧ (∀ m, (s.group m).isStruck → (t.group m).isStruck)
      ∧ ∀ m ∈ ms, m < s.groups.length → (s.group m).state = .resident → (t.group m).isStruck := by
  induction ms generalizing s with
  | nil => exact ⟨.refl .., fun _ h => h, fun _ h => absurd h List.not_mem_nil⟩
  | cons gi ms ih =>
    have apart := strikeGroup_apart s gi
    obtain ⟨rest, keeps, strikes⟩ := ih (s := strikeGroup s gi) (by rw [State.ctx, State.ctxAt, apart.ctxs]; exact unlogged)
    rw [List.foldl_cons, State.replayLog_of_not_replay unlogged]
    refine ⟨(apart.mono fun _ h => h ▸ List.mem_cons_self).trans (rest.mono fun _ h => List.mem_cons_of_mem _ h),
      fun m h => keeps m (strikeGroup_keeps s gi h), fun m hm m_lt resident => ?_⟩
    by_cases same : m = gi
    · subst same
      exact keeps m (strikeGroup_strikes m_lt resident)
    · have stands := (Prod.mk.inj (apart.stand m same)).1
      exact strikes m ((List.mem_cons.1 hm).resolve_left same) (apart.length ▸ m_lt) (stands.trans resident)

theorem State.tree_modTree (s : State) (k j : Nat) (F : Subtree → Subtree) :
    (s.modTree k F).tree j = if j = k ∧ k < s.trees.length then F (s.tree k) else s.tree j := getD_modAt ..

/-- The groups that a strike of subtree k reaches in their slots. -/
def Reached (s : State) (k m : Nat) : Prop :=
  ∃ y, s.groups[m]? = some y ∧ y.member = treeHandle s k ∧ s.pasidOf y = (s.tree k).ctx ∧ y.state = .resident ∧ y.struck = false

theorem strikeOne_strikes {s : State} {k : Nat} (unlogged : (s.ctx (s.tree k).ctx).replay = false) :
    Strikes s (strikeOne s k) ∧ (k < s.trees.length → ((strikeOne s k).tree k).st = .cancelled) ∧ ∀ m, Reached s k m → ((strikeOne s k).group m).isStruck := by
  unfold strikeOne
  extract_lets t h s1 s2 members
  obtain ⟨apart, keeps, strikes⟩ := strikeMembers (s := s2) (pasid := t.ctx) unlogged (fun s gi => (s.group gi).id)
    (fun s gi => leBytes 8 h.toNat ++ leBytes 8 (s.group gi).issued) members
  have trees (j : Nat) : (List.foldl (fun s gi => strikeGroup (s.replayLog t.ctx 4 (s.group gi).id
      (leBytes 8 h.toNat ++ leBytes 8 (s.group gi).issued)) gi) s2 members).tree j = if j = k ∧ k < s.trees.length then { s.tree k with st := .cancelled } else s.tree j := by
    unfold State.tree
    rw [apart.trees]
    exact s.tree_modTree k j _
  refine ⟨⟨apart.mem, apart.ctxs, fun j => ?_, fun j hj => ?_, keeps⟩, fun inside => ?_, fun m ⟨y, hy, member, owner, resident, unstruck⟩ => ?_⟩
  · refine (congrArg Subtree.ctx (trees j)).trans ?_
    split
    · next same => rw [same.1]
    · rfl
  · refine (congrArg Subtree.st (trees j)).trans ?_
    split
    · rfl
    · exact hj
  · exact (congrArg Subtree.st (trees k)).trans (congrArg Subtree.st (if_pos ⟨rfl, inside⟩))
  · have m_lt := (List.getElem?_eq_some_iff.1 hy).1
    refine strikes m (List.mem_filterMap.2 ⟨(m, y), mem_indexed.2 hy, if_pos ?_⟩) m_lt ?_
    · simp [h, t, member, resident, unstruck]
      exact owner
    · exact (congrArg (fun g : Option Group => (g.getD {}).state) hy).trans resident

/-- The open subtrees right below a set. -/
def childTrees (s : State) (xs : List Nat) : List Nat :=
  (List.range 256).filter fun j => !xs.contains j && (s.tree j).st == .open && xs.any fun x => (s.tree j).parent == treeHandle s x && (s.tree j).ctx == (s.tree x).ctx

theorem cancelSet_succ (s : State) (n : Nat) (xs : List Nat) :
    cancelSet s (n + 1) xs = if (childTrees s xs).isEmpty then xs else cancelSet s n (xs ++ childTrees s xs) := rfl

theorem childTrees_ctx {s : State} {xs : List Nat} {j : Nat} (h : j ∈ childTrees s xs) : ∃ x ∈ xs, (s.tree j).ctx = (s.tree x).ctx := by
  have parent := (Bool.and_eq_true_iff.1 (List.mem_filter.1 h).2).2
  obtain ⟨x, hx, holds⟩ := List.any_eq_true.1 parent
  exact ⟨x, hx, beq_iff_eq.1 (Bool.and_eq_true_iff.1 holds).2⟩

/-- A cancellation starts with the subtree itself, and reaches subtrees of its context only. -/
theorem cancelSet_eq (s : State) (n : Nat) (xs : List Nat) :
    ∃ ys, cancelSet s n xs = xs ++ ys ∧ ∀ j ∈ ys, ∃ x ∈ xs, (s.tree j).ctx = (s.tree x).ctx := by
  induction n generalizing xs with
  | zero => exact ⟨[], (List.append_nil _).symm, fun _ h => absurd h List.not_mem_nil⟩
  | succ n ih =>
    rw [cancelSet_succ]
    split
    · exact ⟨[], (List.append_nil _).symm, fun _ h => absurd h List.not_mem_nil⟩
    · obtain ⟨ys, e, below⟩ := ih (xs ++ childTrees s xs)
      refine ⟨childTrees s xs ++ ys, by rw [e, List.append_assoc], fun j hj => (List.mem_append.1 hj).elim childTrees_ctx fun hj => ?_⟩
      obtain ⟨x, hx, same⟩ := below j hj
      refine (List.mem_append.1 hx).elim (fun hx => ⟨x, hx, same⟩) fun hx => ?_
      obtain ⟨z, hz, same'⟩ := childTrees_ctx hx
      exact ⟨z, hz, same.trans same'⟩

theorem strikeAll_strikes {s : State} (ks : List Nat) (unlogged : ∀ k ∈ ks, (s.ctx (s.tree k).ctx).replay = false) : Strikes s (ks.foldl strikeOne s) := by
  induction ks generalizing s with
  | nil => exact ⟨rfl, rfl, fun _ => rfl, fun _ h => h, fun _ h => h⟩
  | cons k ks ih =>
    have first := (strikeOne_strikes (unlogged k List.mem_cons_self)).1
    refine first.trans (ih fun j hj => ?_)
    rw [first.owner, State.ctx, State.ctxAt, first.ctxs]
    exact unlogged j (List.mem_cons_of_mem _ hj)

/-- The cancellation of an open subtree: it is CANCELLED, memory is as it was, and its members in slots have stopped for good. -/
theorem strikeTree_strikes {s : State} {k : Nat} (is_open : (s.tree k).st = .open) (unlogged : (s.ctx (s.tree k).ctx).replay = false) (inside : k < s.trees.length) :
    ((strikeTree s k).tree k).st = .cancelled ∧ (strikeTree s k).mem = s.mem ∧ ∀ m, Reached s k m → ((strikeTree s k).group m).isStruck := by
  obtain ⟨ys, e, below⟩ := cancelSet_eq s 256 [k]
  obtain ⟨first, cancelled, reached⟩ := strikeOne_strikes unlogged
  have rest := strikeAll_strikes (s := strikeOne s k) ys fun j hj => by
    obtain ⟨x, hx, same⟩ := below j hj
    rw [first.owner, same, List.mem_singleton.1 hx, State.ctx, State.ctxAt, first.ctxs]
    exact unlogged
  have struck : strikeTree s k = ys.foldl strikeOne (strikeOne s k) := by
    rw [strikeTree, is_open, e]
    rfl
  rw [struck]
  exact ⟨rest.cancelled k (cancelled inside), rest.mem.trans first.mem, fun m hm => rest.struck m (reached m hm)⟩

/-! ### Named subtrees -/

theorem State.tree_lt {s : State} {k : Nat} (h : (s.tree k).st ≠ .free) : k < s.trees.length :=
  lt_of_getD_ne (d := {}) fun absent => h (congrArg Subtree.st absent)

theorem treeNamed_taken {s : State} {pasid : Nat} {h : Word} (named : s.treeNamed pasid h = true) :
    (s.tree (hIndex h)).st ≠ .free ∧ (s.tree (hIndex h)).ctx = pasid := by
  unfold State.treeNamed at named
  simp only [Bool.and_eq_true, bne_iff_ne, beq_iff_eq] at named
  obtain ⟨⟨taken, owner⟩, -⟩ := named
  exact ⟨taken, owner⟩

/-- One subtree has changed, and no other. -/
theorem trees_only {s t : State} {k : Nat} {F : Subtree → Subtree} (h : k < s.trees.length) (e : t.trees = modAt s.trees k F) :
    t.tree k = F (s.tree k) ∧ ∀ j, j ≠ k → t.tree j = s.tree j := by
  unfold State.tree
  rw [e]
  exact modAt_only h F {}

theorem logOrder_commit {s : State} {i : Iss} (h : (s.ctx (s.pasidOf i.g)).replay = false) (object : Nat) : logOrder (s.commit i) i object = s.commit i :=
  logOrder_unlogged (u := s.commit i) h rfl (State.pasidOf_commit ..) object

theorem treeOp_next {s : State} {g : Bool} {a : Fld} {rs ws : List Nat} {i : Iss} (ci : CanIssue s g (a.toNat :: rs) ws [] i) (active : i.lanes ≠ 0)
    (unlogged : (s.ctx (s.pasidOf i.g)).replay = false) (named : s.treeNamed (s.pasidOf i.g) (i.reg a.toNat i.lo) = true)
    (k : Iss → Word → Nat → State → State) :
    treeOp s g a rs ws k = .next (k i (i.reg a.toNat i.lo) (hIndex (i.reg a.toNat i.lo)) (s.commit i)) := by
  rw [treeOp, withOperands_next ci, once_active active]
  refine congrArg Host.Outcome.next ((if_pos named).trans ?_)
  rw [logOrder_commit unlogged]

/-! ### The groups that a cancellation reaches, once the cancelling instruction has issued -/

theorem State.pasidOf_advance (v : State) (i : Iss) (size : Nat) (noisy : Bool) (y : Group) : (v.advance i size noisy).pasidOf y = v.pasidOf y := by
  rw [State.advance, advanceTo_eq]
  rfl

theorem State.tree_advance (v : State) (i : Iss) (size : Nat) (noisy : Bool) (k : Nat) : (v.advance i size noisy).tree k = v.tree k := by
  rw [State.tree, State.advance_trees]
  rfl

theorem reached_advance {s v : State} {i : Iss} {k m : Nat} (hg : v.groups = s.groups) (hp : ∀ y, v.pasidOf y = s.pasidOf y)
    (hgen : (v.tree k).gen = (s.tree k).gen) (hctx : (v.tree k).ctx = (s.tree k).ctx) (h : Reached s k m) (size : Nat) (noisy : Bool) :
    Reached (v.advance i size noisy) k m := by
  obtain ⟨y, hy, member, owner, resident, unstruck⟩ := h
  have issued : (v.advance i size noisy).groups[m]?
      = some (if m = i.gi then advGroup v i (i.f.pc + BitVec.ofNat 52 size) noisy none y else y) := by
    rw [State.advance, advanceTo_eq]
    dsimp only
    rw [getElem?_modAt, hg, hy]
    split <;> rfl
  have same {α : Type} (F : Group → α) (hF : ∀ pc, F (advGroup v i pc noisy none y) = F y) :
      F (if m = i.gi then advGroup v i (i.f.pc + BitVec.ofNat 52 size) noisy none y else y) = F y := by
    split
    · exact hF _
    · rfl
  refine ⟨_, issued, (same Group.member fun _ => rfl).trans ?_, ?_, (same Group.state fun _ => rfl).trans resident, (same Group.struck fun _ => rfl).trans unstruck⟩
  · rw [member, treeHandle, treeHandle, State.tree_advance, hgen]
  · rw [State.pasidOf_advance, State.tree_advance, hctx, ← owner, ← hp]
    exact congrArg (fun b => (v.launch (v.block b).launch).ctx) (same Group.block fun _ => rfl)

/-- A cancellation by an instruction: what it reaches is said of the state before. -/
theorem cancel_strikes {s v : State} {i : Iss} {k : Nat} (hg : v.groups = s.groups) (hp : ∀ y, v.pasidOf y = s.pasidOf y) (hm : v.mem = s.mem)
    (hc : v.ctxs = s.ctxs) (hgen : (v.tree k).gen = (s.tree k).gen) (hctx : (v.tree k).ctx = (s.tree k).ctx) (is_open : (v.tree k).st = .open)
    (unlogged : (s.ctx (s.tree k).ctx).replay = false) :
    let t := strikeTree (v.advance i 4 true) k
    (t.tree k).st = .cancelled ∧ t.mem = s.mem ∧ ∀ m, Reached s k m → (t.group m).isStruck := by
  have kept := State.tree_advance v i 4 true k
  obtain ⟨cancelled, mem, struck⟩ := strikeTree_strikes (s := v.advance i 4 true) (k := k) (by rw [kept, is_open])
    (by rw [kept, hctx, State.ctx, State.ctxAt, State.advance_ctxs, hc]; exact unlogged)
    (State.tree_lt (by rw [kept, is_open]; decide))
  exact ⟨cancelled, mem.trans ((State.advance_mem ..).trans hm), fun m hm => struck m (reached_advance hg hp hgen hctx hm 4 true)⟩

/-! ### What `tree.stat` and `dl.chk` read -/

theorem treeWord_commit (s : State) (i : Iss) (k : Nat) : treeWord (s.commit i) k = treeWord s k := by
  have members (pasid : Nat) (h : Word) : memberCount (s.commit i) pasid h = memberCount s pasid h := by
    unfold memberCount
    simp only [State.pasidOf_commit]
    rfl
  have count : treeCount (s.commit i) k = treeCount s k := by
    unfold treeCount
    dsimp only
    rw [members]
    rfl
  unfold treeWord
  rw [count]
  rfl

theorem dlLeft_word (s : State) (t : Subtree) : BitVec.ofNat 32 (dlLeft s t)
    = if t.st ≠ .open then 0 else if t.deadline = 0 then 0xFFFFFFFF else BitVec.ofNat 32 (min (t.deadline - s.time) (2 ^ 32 - 1)) := by
  have capped : capAt (t.deadline - s.time) (2 ^ 32 - 1) = min (t.deadline - s.time) (2 ^ 32 - 1) := by
    rw [capAt]
    split <;> omega
  unfold dlLeft
  by_cases closed : t.st = .open
  · by_cases never : t.deadline = 0
    · simp [closed, never]
    · simp only [closed, never, if_false, capped, bne_self_eq_false, Bool.false_eq_true, ne_eq, not_true_eq_false]
  · simp [closed]

/-! ### A child finds room on a core (R26, R306) -/

theorem getElem?_indexed {α : Type} (xs : List α) (k : Nat) : (indexed xs)[k]? = xs[k]?.map fun x => (k, x) := by
  by_cases h : k < xs.length
  · simp [indexed, h]
  · rw [List.getElem?_eq_none (by simp [indexed]; omega), List.getElem?_eq_none (by omega)]
    rfl

theorem indexed_modAt {α : Type} (xs : List α) (n : Nat) (f : α → α) :
    indexed (modAt xs n f) = (indexed xs).map fun e => (e.1, if e.1 = n then f e.2 else e.2) := by
  refine List.ext_getElem? fun k => ?_
  rw [getElem?_indexed, getElem?_modAt, List.getElem?_map, getElem?_indexed]
  cases xs[k]? with
  | none => split <;> rfl
  | some x =>
    dsimp only [Option.map_some]
    split <;> rfl

/-- Committing a block leaves its footprint and its cores. -/
theorem coreBlocks_commit (s : State) (i : Iss) (core : Nat) : ∃ bs : List (Nat × Block), coreBlocks s core = bs.map Prod.snd
    ∧ coreBlocks (s.commit i) core = bs.map fun e : Nat × Block => if e.1 = i.g.block then { e.2 with committed := true } else e.2 := by
  refine ⟨_, rfl, ?_⟩
  unfold coreBlocks
  rw [show (s.commit i).blocks = modAt s.blocks i.g.block fun b => { b with committed := true } from rfl, indexed_modAt, List.filter_map, List.map_map]
  refine congrArg₂ List.map rfl (List.filter_congr fun e _ => ?_)
  simp only [Function.comp_apply]
  split <;> rfl

theorem spFits_commit (p : Plan) (s : State) (i : Iss) (core c : Nat) : p.spFits (s.commit i) core c = p.spFits s core c := by
  obtain ⟨bs, before, after⟩ := coreBlocks_commit s i core
  have used : spUsed (s.commit i) core = spUsed s core := by
    unfold spUsed
    rw [before, after, List.foldl_map, List.foldl_map]
    refine List.foldl_ext _ _ _ fun n e _ => ?_
    split <;> rfl
  unfold Plan.spFits
  rw [used, before, after, List.isEmpty_map, List.isEmpty_map]
  rfl

theorem fits_commit (p : Plan) (s : State) (i : Iss) (cores : List Nat) : p.fits (s.commit i) cores = p.fits s cores := by
  unfold Plan.fits
  simp only [spFits_commit]
  rfl

/-- A core on which one group fits has a free slot. -/
theorem room_of_fits {p : Plan} {s : State} {core : Nat} (one : p.groups = 1) (h : p.fits s [core] = true) : 1 ≤ p.room s core := by
  have enough := of_decide_eq_true (Bool.and_eq_true_iff.1 h).2
  rw [one, List.foldl_cons, List.foldl_nil, Nat.zero_add] at enough
  exact enough

theorem most_le_slots (p : Plan) (slots regs tiles : Nat) : p.most slots regs tiles ≤ slots := by
  have least (a b : Nat) : (if a < b then a else b) ≤ b := by split <;> omega
  have by_regs : (if p.nreg = 0 then slots else if regs / p.nreg < slots then regs / p.nreg else slots) ≤ slots := by
    split
    · exact Nat.le_refl _
    · exact least ..
  unfold Plan.most
  dsimp only
  split
  · exact by_regs
  · exact (least ..).trans by_regs

/-! ### A child takes a slot (R37, R248) -/

/-- A group as it is seated. -/
def Group.seated (g : Group) (s : State) (core slot : Nat) (id : BitVec 18) : Group :=
  { g with
    core := core, slot := slot, id := id, placedAt := s.cycle core, acquired := s.fillNo,
    frags := g.frags.map fun f => { f with lastIssue := s.seq, readyAt := s.cycle core, acquired := s.fillNo } }

theorem slotFor_core {p : Plan} {s : State} {core : Nat} (room : 1 ≤ p.room s core) :
    ∃ d slot, p.slotFor s [core] = ({ s with draws := d }, core, slot) := by
  have slots : freeSlots s core ≠ [] := fun none_free => by
    have most := most_le_slots p (freeSlots s core).length (regsFree s core) (tilesFree s core)
    rw [none_free] at most
    have : p.room s core ≤ 0 := by
      unfold Plan.room
      rw [none_free]
      exact most
    omega
  have places : ([core].flatMap fun c => if p.room s c = 0 then [] else (freeSlots s c).map fun k => (c, k)) = (freeSlots s core).map fun k => (core, k) := by
    rw [List.flatMap_singleton, if_neg (by omega)]
  unfold Plan.slotFor
  dsimp only
  rw [places]
  obtain ⟨d, k, chosen, k_lt⟩ := chooseOf_lt s (n := ((freeSlots s core).map fun k => (core, k)).length) (by
    rw [List.length_map]
    exact List.length_pos_of_ne_nil slots)
  rw [chosen]
  refine ⟨d, (freeSlots s core)[k]'(by simpa using k_lt), ?_⟩
  dsimp only
  rw [List.getElem?_eq_getElem k_lt, List.getElem_map]
  rfl

/-- The start of a group that is not traced does not reach the trace. -/
theorem start_untraced {v : State} {gi : Nat} (h : (v.group gi).traced = false) (reason : Nat) : traceStart (traceGain v gi) gi reason = v := by
  have gained : traceGain v gi = v := by
    unfold traceGain
    dsimp only
    rw [h]
    rfl
  rw [gained, traceStart]
  refine List.foldl_fixed' (fun f => ?_) _
  unfold State.trace
  dsimp only
  rw [h]
  rfl

/-- A group that is not traced takes a slot of the core, and nothing of it reaches the trace. -/
theorem seat_eq {p : Plan} {s : State} {core : Nat} {g : Group} (room : 1 ≤ p.room s core) (untraced : g.traced = false) :
    ∃ d gens slot id, p.seat s [core] g = { s with draws := d, slotGens := gens, groups := s.groups ++ [g.seated s core slot id] } := by
  obtain ⟨d, slot, seat⟩ := slotFor_core room
  unfold Plan.seat
  rw [seat]
  unfold takeSlot
  dsimp only
  refine ⟨d, _, slot, _, start_untraced ?_ 0⟩
  simp [State.group, untraced]

/-- A block of one such group is placed on a core with room. -/
theorem place_gives {p : Plan} {s : State} {core : Nat} {g : Group} (room : 1 ≤ p.room s core) (untraced : g.traced = false) (b : Block) :
    ∃ slot id, (p.place s [core] b [g]).groups = s.groups ++ [({ g with block := s.blocks.length } : Group).seated s core slot id]
      ∧ (p.place s [core] b [g]).blocks = s.blocks ++ [{ b with place := .placed, cores := [core], btag := s.btags + 1 }]
      ∧ (p.place s [core] b [g]).mem = s.mem := by
  unfold Plan.place Plan.placeAs Plan.setSplits
  dsimp only
  generalize hv : ({ s with split := _, btags := _, blocks := _ } : State) = v
  obtain ⟨d, gens, slot, id, seated⟩ := seat_eq (s := v) (g := { g with block := s.blocks.length }) (by rw [← hv]; exact room) untraced
  have placed : (indexed [g]).foldl (fun s' e => p.seat s' (match ([] : List Nat)[e.1]? with | some c => [c] | none => [core])
      { e.2 with block := s.blocks.length }) v = _ := seated
  exact ⟨slot, id, (congrArg State.groups placed).trans (by rw [← hv]; rfl), (congrArg State.blocks placed).trans (by rw [← hv]),
    (congrArg State.mem placed).trans (by rw [← hv])⟩

/-! ### `spawn` of one lane on its own core -/

/-- How many lanes a child runs (R306). -/
def childLanes (w : Word) : Nat := min (w.toNat % 32) 16

/-- The child of lane l of a `spawn`. -/
def laneChild (s : State) (i : Iss) (d a k l : Nat) : Child :=
  { parent := i.gi, launch := (s.blockOf i.g).launch, entry := (i.pair a l).truncate 52, lanes := BitVec.ofNat 16 (2 ^ childLanes (i.reg d l) - 1),
    args := (List.range k).map fun j => i.reg (a + 2 + j) l, fmt := i.f.fmt, prio := i.g.prio, race := i.g.race, member := i.g.subt, know := i.g.know,
    traced := i.g.traced, optLc := i.g.optLc, optSt := i.g.optSt, optTs := i.g.optTs }

theorem childLanes_eq (w : Word) : (if 16 < w.toNat % 32 then 16 else w.toNat % 32) = childLanes w := by
  rw [childLanes]
  split <;> omega

theorem blockOf_commit_launch (s : State) (i : Iss) (g : Group) : ((s.commit i).blockOf g).launch = (s.blockOf g).launch := by
  unfold State.blockOf State.block State.commit State.modB
  dsimp only
  rw [getD_modAt]
  split
  · next same => rw [same.1]
  · rfl

/-- A lane whose child fits on its own core places it there, and the group's clock ticks. -/
theorem spawnLane_own {s : State} {g : Bool} {i : Iss} (h : Issuing s g i) {d a : Fld} {k l : Nat} (some_lane : 0 < childLanes (i.reg d.toNat l))
    (no_subtree : i.g.subt = 0) (fits : ((laneChild s i d.toNat a.toNat k l).plan s).fits s [i.g.core] = true) :
    spawnLane (s.commit i) i d a k l = (tickG (placeChild (s.commit i) (laneChild s i d.toNat a.toNat k l) i.g.core) i.gi, 1) := by
  have group : (s.commit i).group i.gi = i.g := h.eq.1.symm
  have child : (Child.mk i.gi ((s.commit i).blockOf i.g).launch ((i.pair a.toNat l).truncate 52) (BitVec.ofNat 16 (2 ^ childLanes (i.reg d.toNat l) - 1))
      ((List.range k).map fun j => i.reg (a.toNat + 2 + j) l) i.f.fmt i.g.prio i.g.race i.g.subt i.g.know i.g.traced i.g.optLc i.g.optSt i.g.optTs)
      = laneChild s i d.toNat a.toNat k l := by
    rw [blockOf_commit_launch]
    rfl
  have alive : deadSubtree (s.commit i) i.g = false := by
    rw [deadSubtree, no_subtree]
    rfl
  have fits' : ((laneChild s i d.toNat a.toNat k l).plan (s.commit i)).fits (s.commit i) [i.g.core] = true := (fits_commit ..).trans fits
  unfold spawnLane
  dsimp only
  rw [group, childLanes_eq, if_neg (by rw [alive]; simp only [Bool.false_eq_true, or_false]; omega), child]
  unfold spawnChild
  dsimp only
  rw [if_pos fits']
  rfl

/-- The registers of a child: its arguments in all lanes, then zeros. -/
theorem child_regs {c : Child} {s : State} (fits : c.args.length ≤ (s.launch c.launch).kernel.nreg) :
    (c.group s).regs.length = (s.launch c.launch).kernel.nreg
      ∧ ∀ j m, j < (s.launch c.launch).kernel.nreg → m < 16 → (c.group s).lane j m = (c.args[j]?).getD 0 := by
  have regs : (c.group s).regs = (c.args.map fun v => (Vector.replicate 16 v : LaneVec)) ++ (List.replicate (s.launch c.launch).kernel.nreg zeroVec).drop c.args.length := rfl
  refine ⟨?_, fun j m hj hm => ?_⟩
  · rw [regs]
    simp
    omega
  · rw [Group.lane, regs]
    by_cases given : j < c.args.length
    · rw [List.getElem?_append_left (by simpa using given), List.getElem?_map, List.getElem?_eq_getElem given]
      simp [hm]
    · rw [List.getElem?_append_right (by simpa using Nat.le_of_not_lt given), List.getElem?_eq_none (Nat.le_of_not_lt given), List.getElem?_drop, List.length_map,
        List.getElem?_replicate]
      rw [if_pos (by omega)]
      simp [zeroVec, hm]

/-- The lanes of a child are the lowest ones. -/
theorem has_lowLanes {n m : Nat} (hm : m < 16) : Mask.has (BitVec.ofNat 16 (2 ^ n - 1)) m = true ↔ m < n := by
  rw [Mask.has, BitVec.getLsbD_ofNat, Nat.testBit_two_pow_sub_one]
  simp only [Bool.and_eq_true, decide_eq_true_eq]
  omega

/-- Only the active lanes of a write count. -/
theorem State.putReg_congr {s : State} {i : Iss} {d : Nat} {f f' : Nat → Word} (h : ∀ m, i.lanes.has m = true → f m = f' m) : s.putReg i d f = s.putReg i d f' := by
  have same (v : LaneVec) : putLanes v i.lanes f = putLanes v i.lanes f' := by
    unfold putLanes
    refine congrArg Vector.ofFn (funext fun m => ?_)
    split
    · next active => exact h m active
    · rfl
  unfold State.putReg Group.setReg
  simp only [same]

theorem State.putPred_congr {s : State} {i : Iss} {p : Nat} {f f' : Nat → Bool} (h : ∀ m, i.lanes.has m = true → f m = f' m) : s.putPred i p f = s.putPred i p f' := by
  unfold State.putPred Group.setPred
  refine congrArg (s.modG i.gi ·) (funext fun g => ?_)
  refine congrArg (fun ps => { g with preds := ps, poison := clearPoison g.poison (512 + p) i.lanes }) (congrArg Vector.ofFn (funext fun q => ?_))
  split
  · refine congrArg Mask.of (funext fun m => ?_)
    split
    · next active => exact h m active
    · rfl
  · rfl

/-- A group placed behind the others leaves them as they are. -/
theorem placed_became {s u : State} {g : Bool} {i : Iss} (h : Issuing s g i) {c : Group} (groups : u.groups = s.groups ++ [c]) :
    Became { s with groups := s.groups ++ [c] } u i i.g i.f := by
  obtain ⟨frags, hg, hf⟩ := h.became.group
  refine ⟨⟨frags, ?_, hf⟩, fun k _ => by rw [groups]⟩
  rw [← hg, State.group, groups, List.getElem?_append_left h.gi]
  rfl

section
variable {s : State} {g : Bool} {i : Iss} {d : Fld} {a : BitVec 6} {k : BitVec 4} {l : Nat}
  (ci : CanIssue s g (d.toNat :: runOf (pairFld a).toNat (2 + k.toNat)) [d.toNat] [] i [0]) (single : i.lanes.lanes = [l]) (quiet : Quiet s i)
  (untraced : i.g.traced = false) (aligned : (i.pair (pairFld a).toNat l).toNat % 4 = 0) (inside : (i.pair (pairFld a).toNat l).toNat < 2 ^ 52)
  (some_lane : 0 < childLanes (i.reg d.toNat l)) (no_subtree : i.g.subt = 0)
  (fits : ((laneChild s i d.toNat (pairFld a).toNat k.toNat l).plan s).fits s [i.g.core] = true)
include ci single quiet untraced aligned inside some_lane no_subtree fits

/-- The child that a `spawn` of one lane places, and the block that it makes. -/
theorem spawn_places : ∃ t, exec (.spawn g d a k) s = .next t ∧ t.mem = s.mem ∧ t.groups.length = s.groups.length + 1
    ∧ ∃ slot id cyc, let c := ({ (laneChild s i d.toNat (pairFld a).toNat k.toNat l).group s with block := s.blocks.length } : Group).seated cyc i.g.core slot id
      Behind { s with groups := s.groups ++ [c] } t i 4 ((i.g.tick.setReg (i.phys d.toNat) i.lanes fun _ => 1).setPred 0 i.lanes fun _ => true) i.f
        ∧ ∃ b, t.blocks[s.blocks.length]? = some b ∧ b.child = true ∧ b.launch = (s.blockOf i.g).launch := by
  have active : i.lanes ≠ 0 := fun none_active => by
    rw [none_active] at single
    cases single
  have own_lane (m : Nat) (hm : i.lanes.has m = true) : m = l := by
    have := (Mask.mem_lanes ..).2 hm
    rw [single] at this
    exact List.mem_singleton.1 this
  have good : badTarget (i.pair (pairFld a).toNat l) = none := by
    rw [badTarget, if_neg (by omega), if_neg (by omega)]
  have room := room_of_fits (p := (laneChild s i d.toNat (pairFld a).toNat k.toNat l).plan s) (s := s) rfl fits
  obtain ⟨slot, id, groups, blocks, mem⟩ := place_gives (p := (laneChild s i d.toNat (pairFld a).toNat k.toNat l).plan s) (s := s.commit i) (core := i.g.core)
    (g := (laneChild s i d.toNat (pairFld a).toNat k.toNat l).group s) room untraced
    { launch := (laneChild s i d.toNat (pairFld a).toNat k.toNat l).launch, bid := 0xFFFFFFFF, child := true }
  have run : exec (.spawn g d a k) s = execSpawn g d a k s := rfl
  unfold execSpawn at run
  dsimp only at run
  rw [withOperands_next ci, once_active active, single] at run
  simp only [List.find?_cons, List.find?_nil, good, Option.isSome_none, owesAccess_of_quiet quiet, Bool.false_eq_true, if_false, List.foldl_cons, List.foldl_nil,
    spawnLane_own ci.toIssuing some_lane no_subtree fits] at run
  rw [State.putPred_congr (f' := fun _ => true) fun m hm => by rw [own_lane m hm]; simp,
    State.putReg_congr (f' := fun _ => 1) fun m hm => by rw [own_lane m hm]; simp] at run
  obtain ⟨u, hu⟩ : ∃ u, u = placeChild (s.commit i) (laneChild s i d.toNat (pairFld a).toNat k.toNat l) i.g.core := ⟨_, rfl⟩
  rw [← hu] at run
  have groups : u.groups = _ := (congrArg State.groups hu).trans groups
  have blocks : u.blocks = _ := (congrArg State.blocks hu).trans blocks
  have mem : u.mem = s.mem := (congrArg State.mem hu).trans mem
  clear hu
  have blocks_length : (s.commit i).blocks.length = s.blocks.length := length_modAt ..
  rw [blocks_length] at groups
  have became := placed_became ci.toIssuing groups
  have behind := ((became.tick.putReg d.toNat fun _ => 1).putPred 0 fun _ => true).behind 4 true
  refine ⟨_, run, (State.advance_mem ..).trans mem, ?_, slot, id, s.commit i, behind, ?_⟩
  · rw [State.advance, advanceTo_eq]
    simp [State.putPred, State.putReg, tickG, groups]
  · have kept : ((((tickG u i.gi).putReg i d.toNat fun _ => 1).putPred i 0 fun _ => true).advance i 4 true).blocks = u.blocks := State.advance_blocks ..
    have found := List.getElem?_concat_length (l := (s.commit i).blocks) (a := ({
      launch := (laneChild s i d.toNat (pairFld a).toNat k.toNat l).launch, bid := 0xFFFFFFFF, child := true, place := .placed, cores := [i.g.core],
      btag := (s.commit i).btags + 1 } : Block))
    rw [← blocks, ← kept, blocks_length] at found
    exact ⟨_, found, rfl, rfl⟩

end

theorem goes_beside {s t : State} {i : Iss} {c : Group} {reg : Nat → Nat → Word} {pred : Nat → Nat → Bool}
    (h : Goes { s with groups := s.groups ++ [c] } t i reg pred) : Goes s t i reg pred := by
  obtain ⟨pc, regs, preds, mem, others⟩ := h
  refine ⟨pc, regs, preds, mem, fun k hk other => (others k ?_ other).trans (List.getElem?_append_left hk)⟩
  simp
  omega

/-- What `tree.open` makes of the subtree that it takes. -/
def openedTree (s : State) (i : Iss) (k : Nat) : Subtree :=
  { st := .open, gen := nextGen (s.tree k).gen, ctx := s.pasidOf i.g, hold := true, opener := i.gi,
    parent := if i.g.subt = 0 ∨ deadSubtree s i.g = true then 0 else i.g.subt }

theorem deadSubtree_iff (s : State) (g : Group) : deadSubtree s g = true
    ↔ g.subt ≠ 0 ∧ ¬(s.treeNamed (s.pasidOf g) g.subt = true ∧ (s.tree (hIndex g.subt)).st = .open) := by
  rw [deadSubtree, Bool.and_eq_true, bne_iff_ne, Bool.not_eq_true', ← Bool.not_eq_true, Bool.and_eq_true, beq_iff_eq]

theorem parent_eq (s : State) (g : Group) : (if g.subt = 0 ∨ deadSubtree s g = true then 0 else g.subt)
    = if s.treeNamed (s.pasidOf g) g.subt = true ∧ (s.tree (hIndex g.subt)).st = .open then g.subt else 0 := by
  have dead_iff := deadSubtree_iff s g
  by_cases none : g.subt = 0
  · rw [if_pos (.inl none), none, ite_self]
  · by_cases alive : s.treeNamed (s.pasidOf g) g.subt = true ∧ (s.tree (hIndex g.subt)).st = .open
    · rw [if_pos alive, if_neg fun dead => dead.elim none fun dead => (dead_iff.1 dead).2 alive]
    · rw [if_neg alive, if_pos (.inr (dead_iff.2 ⟨none, alive⟩))]

/-- The free subtrees. -/
def freeTrees (s : State) : List Nat := (List.range 256).filter fun k => (s.tree k).st == .free

theorem mem_freeTrees {s : State} {k : Nat} : k ∈ freeTrees s ↔ k < 256 ∧ (s.tree k).st = .free := by
  simp [freeTrees]

theorem treeOpen_takes {s : State} {g : Bool} {d : Fld} {i : Iss} (ci : CanIssue s g [] [d.toNat] [] i) (active : i.lanes ≠ 0)
    (unlogged : (s.ctx (s.pasidOf i.g)).replay = false) (some_free : freeTrees s ≠ []) :
    ∃ t k, exec (.treeOpen g d) s = .next t ∧ k ∈ freeTrees s
      ∧ Behind s t i 4 (({ i.g with subt := mkHandle k (nextGen (s.tree k).gen) } : Group).setReg (i.phys d.toNat) i.lanes fun _ => mkHandle k (nextGen (s.tree k).gen)) i.f
      ∧ t.mem = s.mem ∧ t.trees = modAt s.trees k fun _ => openedTree s i k := by
  have run : exec (.treeOpen g d) s = execTreeOpen g d s := rfl
  unfold execTreeOpen at run
  rw [withOperands_next ci, once_active active] at run
  dsimp only at run
  have free : ((List.range 256).filter fun k => ((s.commit i).tree k).st == .free) = freeTrees s := rfl
  obtain ⟨dr, c, chosen, c_lt⟩ := chooseOf_lt (s.commit i) (List.length_pos_of_ne_nil some_free)
  have pasid : (s.commit i).pasidOf i.g = s.pasidOf i.g := State.pasidOf_commit ..
  rw [free, if_neg (by simpa using some_free), chosen] at run
  obtain ⟨k, hk⟩ : ∃ k, k = (freeTrees s)[c]?.getD 0 := ⟨_, rfl⟩
  have k_free : k ∈ freeTrees s := by
    rw [hk, List.getElem?_eq_getElem c_lt]
    exact List.getElem_mem _
  rw [← hk] at run
  obtain ⟨u, hu⟩ : ∃ u : State, u = { s.commit i with draws := dr } := ⟨_, rfl⟩
  have opened : openedTree u i k = openedTree s i k := by
    have same : u.pasidOf i.g = s.pasidOf i.g := by rw [hu]; exact pasid
    have dead : deadSubtree u i.g = deadSubtree s i.g := by
      rw [deadSubtree, deadSubtree, same, hu]
      rfl
    rw [openedTree, openedTree, dead, same, hu]
    rfl
  have gen : (u.tree k).gen = (s.tree k).gen := by rw [hu]; rfl
  have kept := logOrder_unlogged (s := s) (u := u.modTree k fun _ => openedTree u i k) (i := i) unlogged (by rw [hu]; rfl) (by rw [hu]; exact pasid)
    (mkHandle k (nextGen (u.tree k).gen)).toNat
  have opens : exec (.treeOpen g d) s = .next ((((logOrder (u.modTree k fun _ => openedTree u i k) i (mkHandle k (nextGen (u.tree k).gen)).toNat).modG i.gi
      fun g => { g with subt := mkHandle k (nextGen (u.tree k).gen) }).putReg i d.toNat fun _ => mkHandle k (nextGen (u.tree k).gen)).advance i 4 true) := by
    rw [hu]
    exact run
  rw [kept, opened, gen] at opens
  have became : Became s (u.modTree k fun _ => openedTree s i k) i i.g i.f := ci.toIssuing.became.congr (by rw [hu]; rfl)
  have behind := ((became.modAll (F := fun g => { g with subt := mkHandle k (nextGen (s.tree k).gen) }) fun _ _ => rfl).putReg d.toNat
    fun _ => mkHandle k (nextGen (s.tree k).gen)).behind 4 true
  refine ⟨_, k, opens, k_free, behind, (State.advance_mem ..).trans ?_, (State.advance_trees ..).trans ?_⟩
  · show u.mem = s.mem
    rw [hu]
    rfl
  · show modAt u.trees k _ = _
    rw [hu]
    rfl

theorem tree_commit_modTree {s : State} {i : Iss} {k : Nat} (h : k < s.trees.length) (F : Subtree → Subtree) :
    ((s.commit i).modTree k F).tree k = F (s.tree k) := ((s.commit i).tree_modTree k k F).trans (if_pos ⟨rfl, h⟩)

theorem pasidOf_commit_modTree (s : State) (i : Iss) (k : Nat) (F : Subtree → Subtree) (y : Group) : ((s.commit i).modTree k F).pasidOf y = s.pasidOf y :=
  State.pasidOf_commit s i y

/-- A subtree that its opener no longer holds. -/
def closedTree (free : Bool) (t : Subtree) : Subtree := { t with hold := false, relReq := t.relReq || free }

/-- A subtree with a deadline. -/
def timedTree (v : Nat) (t : Subtree) : Subtree := { t with deadline := v }

/-- A tree instruction that leaves its group and every subtree but its own as they are. -/
theorem tree_goes {s v : State} {g : Bool} {i : Iss} (h : Issuing s g i) (hg : v.groups = s.groups) (hm : v.mem = s.mem) :
    Goes s (v.advance i 4 true) i i.g.lane i.preds :=
  ((h.became.congr hg).behind 4 true).goes ((State.advance_mem ..).trans hm) (fun _ _ _ _ => rfl) fun _ _ _ _ => rfl

/-- Settles O42: `spawn` by `spawn_places`, the tree instructions each on the subtree that its handle names, the cancellations by `cancel_strikes`. -/
theorem spawnAndSubtrees : Obligations.SpawnAndSubtrees := by
  unfold Obligations.SpawnAndSubtrees
  intro ready On only Closes Struck
  have struck_of_cancel {s v : State} {i : Iss} {h : Word} (named : s.treeNamed (s.pasidOf i.g) h = true) (unlogged : (s.ctx (s.pasidOf i.g)).replay = false)
      (hg : v.groups = s.groups) (hp : ∀ y, v.pasidOf y = s.pasidOf y) (hm : v.mem = s.mem) (hc : v.ctxs = s.ctxs)
      (hgen : (v.tree (hIndex h)).gen = (s.tree (hIndex h)).gen) (hctx : (v.tree (hIndex h)).ctx = (s.tree (hIndex h)).ctx)
      (is_open : (v.tree (hIndex h)).st = .open) : Struck s (strikeTree (v.advance i 4 true) (hIndex h)) (hIndex h) := by
    obtain ⟨cancelled, mem, struck⟩ := cancel_strikes (i := i) hg hp hm hc hgen hctx is_open (by rw [(treeNamed_taken named).2]; exact unlogged)
    exact ⟨cancelled, mem, fun m y hy member owner resident unstruck => struck m ⟨y, hy, member, owner, resident, unstruck⟩⟩
  have closes {x : Instr} {g : Bool} {a : Fld} {free : Bool} (hx : ∀ s, exec x s = treeClose s g a free) : Closes x g a free := by
    intro s i ci hr named
    obtain ⟨active, unlogged, -⟩ := hr
    obtain ⟨taken, -⟩ := treeNamed_taken named
    have run : exec x s = treeClose s g a free := hx s
    unfold treeClose at run
    rw [treeOp_next ci active unlogged named] at run
    obtain ⟨u, hu⟩ : ∃ u, u = (s.commit i).modTree (hIndex (i.reg a.toNat i.lo)) (closedTree free) := ⟨_, rfl⟩
    have parent : (u.tree (hIndex (i.reg a.toNat i.lo))).parent = (s.tree (hIndex (i.reg a.toNat i.lo))).parent := by
      rw [hu, tree_commit_modTree (State.tree_lt taken)]
      rfl
    have closed : exec x s = .next ((if i.g.subt = i.reg a.toNat i.lo then u.modG i.gi fun x =>
        { x with subt := (u.tree (hIndex (i.reg a.toNat i.lo))).parent } else u).advance i 4 true) := by
      rw [hu]
      exact run
    rw [parent] at closed
    have trees : u.trees = modAt s.trees (hIndex (i.reg a.toNat i.lo)) (closedTree free) := (congrArg State.trees hu :)
    have mem : u.mem = s.mem := (congrArg State.mem hu :)
    have became : Became s u i i.g i.f := ci.toIssuing.became.congr ((congrArg State.groups hu :))
    refine ⟨_, closed, ?_⟩
    beta_reduce
    by_cases current : i.g.subt = i.reg a.toNat i.lo
    · rw [if_pos current, if_pos current]
      have behind := (became.modAll (F := fun x => { x with subt := (s.tree (hIndex (i.reg a.toNat i.lo))).parent }) fun _ _ => rfl).behind 4 true
      exact ⟨behind.goes ((State.advance_mem (u.modG i.gi _) i 4 true).trans mem) (fun _ _ _ _ => rfl) fun _ _ _ _ => rfl,
        trees_only (State.tree_lt taken) ((State.advance_trees (u.modG i.gi _) i 4 true).trans trees), behind.keeps Group.subt fun _ _ _ _ => rfl⟩
    · rw [if_neg current, if_neg current]
      have behind := became.behind 4 true
      exact ⟨behind.goes ((State.advance_mem ..).trans mem) (fun _ _ _ _ => rfl) fun _ _ _ _ => rfl,
        trees_only (State.tree_lt taken) ((State.advance_trees ..).trans trees), behind.keeps Group.subt fun _ _ _ _ => rfl⟩
  refine ⟨?spawn, ?takes, ?none_free, ?close, ?closeFree, ?cancel, ?stat, ?dlSet, ?dlGet, ?dlChk, ?expire⟩
  case spawn =>
    intro g d a k s i l e ker n ci single quiet untraced aligned inside some_lane no_subtree args_fit fits
    obtain ⟨t, run, mem, length, slot, id, v, behind, b, at_b, child, launch⟩ :=
      spawn_places ci single quiet untraced aligned inside some_lane no_subtree fits
    have seated := behind.others s.groups.length (Nat.ne_of_gt ci.gi)
    rw [List.getElem?_concat_length] at seated
    obtain ⟨count, lanes⟩ := child_regs (c := laneChild s i d.toNat e k.toNat l) (s := s)
      (le_of_eq_of_le (by simp [laneChild]) args_fit)
    have block : t.block s.blocks.length = b := by rw [State.block, at_b]; rfl
    refine ⟨t, run, goes_beside (behind.goes mem (fun p m hp hm => ?_) fun p m hp _ => ?_), behind.keeps Group.clk fun _ _ _ _ => rfl, length, ?_⟩
    · exact setReg_after i d.toNat _ p m hp hm
    · exact setPred_after i 0 _ p m hp
    · have here : t.group s.groups.length = _ := congrArg (·.getD {}) seated
      rw [here]
      refine ⟨rfl, rfl, count, List.length_replicate .., rfl, no_subtree, no_subtree, rfl, rfl, ⟨_, rfl, rfl, rfl, fun m hm => ?_⟩, fun j m hj hm => ?_, ?_, ?_⟩
      · exact has_lowLanes hm
      · refine (lanes j m hj hm).trans ?_
        by_cases given : j < k.toNat
        · simp [laneChild, given]
        · simp [laneChild, given]
      · exact (congrArg Block.child block).trans child
      · exact (congrArg Block.launch block).trans launch
  case takes =>
    intro g d s i ci hr ⟨k, k_lt, k_free⟩
    obtain ⟨active, unlogged, length⟩ := hr
    obtain ⟨t, k, run, taken, behind, mem, trees⟩ := treeOpen_takes ci active unlogged
      (List.ne_nil_of_mem (mem_freeTrees.2 ⟨k_lt, k_free⟩))
    obtain ⟨k_lt, k_free⟩ := mem_freeTrees.1 taken
    refine ⟨t, k, run, k_lt, k_free, behind.goes mem (fun p m hp hm => setReg_after i d.toNat _ p m hp hm) fun _ _ _ _ => rfl,
      behind.keeps Group.subt fun _ _ _ _ => rfl, ?_⟩
    obtain ⟨this_tree, others⟩ := trees_only (length ▸ k_lt) trees
    refine ⟨this_tree.trans ?_, others⟩
    rw [openedTree, parent_eq]
    rfl
  case none_free =>
    intro g d s i ci hr taken
    obtain ⟨active, -, -⟩ := hr
    have none_free : freeTrees s = [] := List.eq_nil_iff_forall_not_mem.2 fun k hk => taken k (mem_freeTrees.1 hk).1 (mem_freeTrees.1 hk).2
    have run : exec (.treeOpen g d) s = execTreeOpen g d s := rfl
    unfold execTreeOpen at run
    rw [withOperands_next ci, once_active active] at run
    have full : exec (.treeOpen g d) s = .next (((s.commit i).putReg i d.toNat fun _ => 0).advance i 4 true) :=
      run.trans (congrArg Host.Outcome.next (if_pos (by rw [List.isEmpty_iff]; exact none_free)))
    have behind := (ci.toIssuing.became.commit.putReg d.toNat fun _ => 0).behind 4 true
    exact ⟨_, full, behind.goes (State.advance_mem ..) (fun p m hp hm => setReg_after i d.toNat _ p m hp hm) fun _ _ _ _ => rfl, State.advance_trees ..⟩
  case close => exact fun g a => closes (free := false) fun s => rfl
  case closeFree => exact fun g a => closes (free := true) fun s => rfl
  case cancel =>
    intro g a s i ci hr named
    obtain ⟨active, unlogged, -⟩ := hr
    have run : exec (.treeCancel g a) s = execTreeCancel g a s := rfl
    unfold execTreeCancel at run
    rw [treeOp_next ci active unlogged named] at run
    refine ⟨_, run, fun is_open => ?_, fun closed => ?_⟩
    · exact struck_of_cancel named unlogged rfl (fun _ => State.pasidOf_commit ..) rfl rfl rfl rfl is_open
    · have idle : strikeTree ((s.commit i).advance i 4 true) (hIndex (i.reg a.toNat i.lo)) = (s.commit i).advance i 4 true := by
        rw [strikeTree, if_pos (by rw [State.tree_advance]; exact bne_iff_ne.2 closed)]
      rw [idle]
      exact ⟨tree_goes ci.toIssuing rfl rfl, State.advance_trees ..⟩
  case stat =>
    intro g d a s i ci hr h
    obtain ⟨active, unlogged, -⟩ := hr
    have run : exec (.treeStat g d a) s = execTreeStat g d a s := rfl
    unfold execTreeStat at run
    rw [withOperands_next ci, once_active active] at run
    dsimp only at run
    rw [logOrder_commit unlogged, ite_self, treeWord_commit] at run
    have behind := (ci.toIssuing.became.commit.putPair (pairFld d).toNat fun _ => if s.treeNamed (s.pasidOf i.g) h = true then
      mk64 (BitVec.ofNat 32 (treeWord s (hIndex h))) (s.tree (hIndex h)).parent else 0).behind 4 true
    refine ⟨_, run, State.advance_trees .., behind.goes (State.advance_mem ..) (fun p m hp hm => (setPair_after i _ _ hp hm).trans ?_) fun _ _ _ _ => rfl⟩
    refine congrArg (fun ws => i.after (pairFld d).toNat ws p m) (funext fun _ => ?_)
    split
    · rw [lo32_mk64, hi32_mk64]
    · rfl
  case dlSet =>
    intro g a b s i ci hr named
    obtain ⟨active, unlogged, -⟩ := hr
    obtain ⟨taken, owner⟩ := treeNamed_taken named
    have run : exec (.dlSet g a b) s = execDlSet g a b s := rfl
    unfold execDlSet at run
    rw [treeOp_next ci active unlogged named] at run
    obtain ⟨v, hv⟩ : ∃ v, v = (i.pair (pairFld b).toNat i.lo).toNat := ⟨_, rfl⟩
    obtain ⟨u, hu⟩ : ∃ u, u = (s.commit i).modTree (hIndex (i.reg a.toNat i.lo)) (timedTree v) := ⟨_, rfl⟩
    have this_tree : u.tree (hIndex (i.reg a.toNat i.lo)) = timedTree v (s.tree (hIndex (i.reg a.toNat i.lo))) := by
      rw [hu, tree_commit_modTree (State.tree_lt taken)]
    have sets : exec (.dlSet g a b) s = .next (if ((s.commit i).tree (hIndex (i.reg a.toNat i.lo))).st != .open then (s.commit i).advance i 4 true
        else if v != 0 && decide (v ≤ (u.advance i 4 true).time) then strikeTree (u.advance i 4 true) (hIndex (i.reg a.toNat i.lo)) else u.advance i 4 true) := by
      rw [hu, hv]
      exact run
    have time : (u.advance i 4 true).time = s.time := (State.advance_time ..).trans ((congrArg State.time hu :))
    have groups : u.groups = s.groups := (congrArg State.groups hu :)
    have mem : u.mem = s.mem := (congrArg State.mem hu :)
    rw [time] at sets
    refine ⟨_, sets, ?_⟩
    beta_reduce
    rw [← hv]
    refine ⟨fun is_open later => ?_, fun is_open some_time due => ?_, fun closed => ?_⟩
    · rw [if_neg (by rw [bne_iff_ne, not_not]; exact is_open), if_neg (by simp; omega)]
      exact ⟨tree_goes ci.toIssuing groups mem, trees_only (State.tree_lt taken) ((State.advance_trees ..).trans ((congrArg State.trees hu :)))⟩
    · rw [if_neg (by rw [bne_iff_ne, not_not]; exact is_open), if_pos (by simp; omega)]
      refine struck_of_cancel named unlogged groups (fun y => ?_) mem ((congrArg State.ctxs hu :)) ?_ ?_ ?_
      · rw [hu]
        exact pasidOf_commit_modTree ..
      · exact (congrArg Subtree.gen this_tree :)
      · exact (congrArg Subtree.ctx this_tree :)
      · exact (congrArg Subtree.st this_tree).trans is_open
    · rw [if_pos (by exact bne_iff_ne.2 closed)]
      exact ⟨tree_goes ci.toIssuing rfl rfl, State.advance_trees ..⟩
  case dlGet =>
    intro g d a s i ci hr named
    obtain ⟨active, unlogged, -⟩ := hr
    have run : exec (.dlGet g d a) s = execDlGet g d a s := rfl
    unfold execDlGet at run
    rw [treeOp_next ci active unlogged named] at run
    have behind := (ci.toIssuing.became.commit.putPair (pairFld d).toNat fun _ => BitVec.ofNat 64 (s.tree (hIndex (i.reg a.toNat i.lo))).deadline).behind 4 true
    exact ⟨_, run, behind.goes (State.advance_mem ..) (fun p m hp hm => setPair_after i _ _ hp hm) fun _ _ _ _ => rfl, State.advance_trees ..⟩
  case dlChk =>
    intro g d a s i ci hr named
    obtain ⟨active, unlogged, -⟩ := hr
    have run : exec (.dlChk g d a) s = execDlChk g d a s := rfl
    unfold execDlChk at run
    rw [treeOp_next ci active unlogged named] at run
    dsimp only at run
    rw [State.replayLog_of_not_replay (by rw [State.pasidOf_commit]; exact unlogged), dlLeft_word] at run
    have behind (w : Nat → Word) := (ci.toIssuing.became.commit.putReg d.toNat w).behind 4 true
    exact ⟨_, run, (behind _).goes (State.advance_mem ..) (fun p m hp hm => setReg_after i d.toNat _ p m hp hm) fun _ _ _ _ => rfl, State.advance_trees ..⟩
  case expire =>
    intro n s is_open set due unlogged _ _
    have expires : exec (.deadlineExpire n) s = .next (strikeTree s n) := by
      refine congrArg Host.Outcome.next (if_pos ?_)
      simp [is_open, set, due]
    obtain ⟨cancelled, mem, struck⟩ := strikeTree_strikes is_open unlogged (State.tree_lt (by rw [is_open]; decide))
    exact ⟨_, expires, cancelled, mem, fun m y hy member owner resident unstruck => struck m ⟨y, hy, member, owner, resident, unstruck⟩⟩

end Sys2Proof.Machine
end

section
/-! PROOFS. Syzygy queues (R319 to R325): rows pushed into a buffer, a buffer taken into a tile, results put back to the lanes that pushed. -/

namespace Sys2Proof.Machine

open Sys2Proof

/-! ### Named queues and their buffers -/

theorem syzNamed_lt {s : State} {pasid : Nat} {h : Word} (named : s.syzNamed pasid h = true) : hIndex h < s.syzygy.length := by
  refine lt_of_getD_ne (d := {}) fun absent => ?_
  unfold State.syzNamed State.syz at named
  rw [absent] at named
  simp at named

/-- One queue has changed, and no other. -/
theorem queues_only {s t : State} {k : Nat} {F : Syzygy → Syzygy} (h : k < s.syzygy.length) (e : t.syzygy = modAt s.syzygy k F) :
    t.syz k = F (s.syz k) ∧ ∀ j, j ≠ k → t.syz j = s.syz j := by
  unfold State.syz
  rw [e]
  exact modAt_only h F {}

theorem cqOp_next {s : State} {g : Bool} {a : Fld} {rs ws rs' ws' : List Nat} {i : Iss} (ci : CanIssue s g rs' ws' [] i) (hrs : a.toNat :: rs ⊆ rs')
    (hws : ws ⊆ ws') (active : i.lanes ≠ 0) (named : s.syzNamed (s.pasidOf i.g) (i.reg a.toNat i.lo) = true) (k : Iss → Word → Syzygy → State) :
    cqOp s g a rs ws k = .next (k i (i.reg a.toNat i.lo) (s.syz (hIndex (i.reg a.toNat i.lo)))) := by
  rw [cqOp, withOperands_next (ci.narrow hrs hws), once_active active]
  exact congrArg Host.Outcome.next (if_pos named)

theorem modAt_eq_setAt {α : Type} (xs : List α) (n : Nat) (f : α → α) (d : α) : modAt xs n f = setAt xs n (f (xs[n]?.getD d)) := by
  refine List.ext_getElem? fun k => ?_
  rw [getElem?_modAt, getElem?_setAt]
  split
  · next same =>
    subst same
    cases xs[k]? <;> rfl
  · rfl

theorem setAt_setAt {α : Type} (xs : List α) (n : Nat) (x y : α) : setAt (setAt xs n x) n y = setAt xs n y := by
  refine List.ext_getElem? fun k => ?_
  simp only [getElem?_setAt]
  split
  · rw [Option.map_map]
    rfl
  · rfl

theorem Syzygy.filling_buf {q : Syzygy} {k : Nat} (h : q.filling = some k) : q.bufs[k]? = some (q.buf k) ∧ (q.buf k).st = .filling := by
  obtain ⟨b, at_k, fills⟩ := findAt_some h
  rw [Syzygy.buf, at_k]
  exact ⟨rfl, beq_iff_eq.1 fills⟩

theorem findAt_setAt {α : Type} {p : α → Bool} {xs : List α} {n : Nat} (h : findAt p xs = some n) {x : α} (hx : p x = true) : findAt p (setAt xs n x) = some n := by
  induction xs generalizing n with
  | nil => cases h
  | cons y ys ih =>
    rw [findAt] at h
    split at h
    · cases h
      rw [setAt, findAt, if_pos hx]
    · next fails =>
      obtain ⟨m, hm, rfl⟩ := Option.map_eq_some_iff.1 h
      rw [setAt, findAt, if_neg fails, ih hm]
      rfl

/-- A buffer in place of the filling one. -/
def Syzygy.withBuf (q : Syzygy) (k : Nat) (b : Buf) : Syzygy := { q with bufs := setAt q.bufs k b }

theorem Syzygy.withBuf_withBuf (q : Syzygy) (k : Nat) (b c : Buf) : (q.withBuf k b).withBuf k c = q.withBuf k c := by
  rw [withBuf, withBuf, withBuf, setAt_setAt]

theorem Syzygy.modBuf_eq (q : Syzygy) (k : Nat) (f : Buf → Buf) : q.modBuf k f = q.withBuf k (f (q.buf k)) := by
  rw [modBuf, withBuf, modAt_eq_setAt q.bufs k f {}]
  rfl

theorem Syzygy.buf_withBuf {q : Syzygy} {k : Nat} (h : k < q.bufs.length) (b : Buf) : (q.withBuf k b).buf k = b := by
  rw [buf, withBuf, getElem?_setAt, if_pos rfl, List.getElem?_eq_getElem h]
  rfl

/-- A buffer with a row that is valid and not put stays as it is. -/
theorem Buf.settle_of_open {b : Buf} (h : ∃ r ∈ b.rows, r.valid = true ∧ r.put = false) : b.settle = b := by
  obtain ⟨r, hr, valid, waits⟩ := h
  have not_all : (b.rows.all fun r => !r.valid || r.put) = false := List.all_eq_false.2 ⟨r, hr, by simp [valid, waits]⟩
  rw [Buf.settle, not_all, Bool.and_false]
  rfl

/-- The ready buffer that takes the place of the filling one. -/
def Syzygy.readied (q : Syzygy) (k : Nat) (b : Buf) : Syzygy :=
  { q with bufs := setAt q.bufs k { b with st := .ready, order := q.order + 1 }, order := q.order + 1 }

theorem Syzygy.makeReady_eq {q : Syzygy} {k : Nat} (h : ∃ r ∈ (q.buf k).rows, r.valid = true ∧ r.put = false) : q.makeReady k = q.readied k (q.buf k) := by
  have open_buf := Buf.settle_of_open (b := { q.buf k with st := .ready, order := q.order + 1 }) h
  rw [makeReady, modBuf_eq, open_buf]
  rfl

/-! ### Rows pushed (R320) -/

/-- A buffer that is full becomes ready. -/
def Syzygy.checkFull (q : Syzygy) (k : Nat) : Syzygy := if q.rows ≤ (q.buf k).rows.length then q.makeReady k else q

/-- The buffer that takes a row. -/
def Syzygy.target (q : Syzygy) : Nat := (q.filling.orElse fun _ => findAt (fun b => b.st == .free) q.bufs).getD 0

theorem Syzygy.push_target (q : Syzygy) (now : Nat) (r : Row) : q.push now r
    = (q.modBuf q.target fun b => if b.st == .filling then { b with rows := b.rows ++ [r] } else { st := .filling, rows := [r], since := now }).checkFull q.target := rfl

section
variable {q : Syzygy} {k : Nat} (filling : q.filling = some k)
include filling

/-- A row is appended to the filling buffer. -/
theorem Syzygy.push_eq (now : Nat) (r : Row) : q.push now r
    = if q.rows ≤ (q.buf k).rows.length + 1 then (q.withBuf k { q.buf k with rows := (q.buf k).rows ++ [r] }).makeReady k
      else q.withBuf k { q.buf k with rows := (q.buf k).rows ++ [r] } := by
  obtain ⟨at_k, fills⟩ := Syzygy.filling_buf filling
  have k_lt : k < q.bufs.length := (List.getElem?_eq_some_iff.1 at_k).1
  have target : q.target = k := by rw [Syzygy.target, filling]; rfl
  rw [push_target, target, modBuf_eq, if_pos (by rw [fills]; rfl), checkFull, buf_withBuf k_lt, List.length_append]
  rfl

/-- The queue after the rows of a push that fit: its filling buffer holds them, and is ready when it is full. -/
theorem Syzygy.pushAll_eq (now : Nat) (rs : List Row) (some_row : rs ≠ []) (fit : (q.buf k).rows.length + rs.length ≤ q.rows)
    (open_ : ∀ r ∈ rs, r.valid = true ∧ r.put = false) :
    rs.foldl (fun q r => q.push now r) q
      = if ((q.buf k).rows ++ rs).length = q.rows then q.readied k { q.buf k with rows := (q.buf k).rows ++ rs }
        else q.withBuf k { q.buf k with rows := (q.buf k).rows ++ rs } := by
  induction rs generalizing q with
  | nil => exact absurd rfl some_row
  | cons r rs ih =>
    obtain ⟨at_k, fills⟩ := Syzygy.filling_buf filling
    have k_lt : k < q.bufs.length := (List.getElem?_eq_some_iff.1 at_k).1
    rw [List.length_cons] at fit
    rw [List.foldl_cons, push_eq filling]
    by_cases last : rs = []
    · subst last
      rw [List.foldl_nil]
      refine if_congr (by simp at fit ⊢; omega) ?_ rfl
      have row_open : ∃ r' ∈ ((q.withBuf k { q.buf k with rows := (q.buf k).rows ++ [r] }).buf k).rows, r'.valid = true ∧ r'.put = false := by
        rw [buf_withBuf k_lt]
        exact ⟨r, List.mem_append_right _ List.mem_cons_self, open_ r List.mem_cons_self⟩
      rw [makeReady_eq row_open, buf_withBuf k_lt]
      unfold readied withBuf
      rw [setAt_setAt]
    · have more : 0 < rs.length := List.length_pos_of_ne_nil last
      rw [if_neg (by omega)]
      have still : (q.withBuf k { q.buf k with rows := (q.buf k).rows ++ [r] }).filling = some k :=
        findAt_setAt filling (by rw [fills]; rfl)
      have fit_rest : ((q.buf k).rows ++ [r]).length + rs.length ≤ q.rows := by
        rw [List.length_append, List.length_singleton]
        omega
      rw [ih still last (by rw [buf_withBuf k_lt]; exact fit_rest) fun r hr => open_ r (List.mem_cons_of_mem _ hr), buf_withBuf k_lt, withBuf_withBuf, List.append_assoc]
      refine if_congr Iff.rfl ?_ rfl
      unfold readied withBuf
      rw [setAt_setAt]
      rfl

end

/-- A queue whose filling buffer has room has room. -/
theorem Syzygy.room_le {q : Syzygy} {k : Nat} (filling : q.filling = some k) : q.rows - (q.buf k).rows.length ≤ q.room := by
  obtain ⟨at_k, fills⟩ := Syzygy.filling_buf filling
  have grows (bs : List Buf) (n : Nat) : n ≤ bs.foldl (fun n b => match b.st with | .filling => n + (q.rows - b.rows.length) | .free => n + q.rows | _ => n) n := by
    induction bs generalizing n with
    | nil => exact Nat.le_refl _
    | cons b bs ih =>
      refine Nat.le_trans ?_ (ih _)
      beta_reduce
      split <;> omega
  obtain ⟨before, after, split⟩ := List.append_of_mem (List.mem_of_getElem? at_k)
  unfold Syzygy.room
  rw [split, List.foldl_append, List.foldl_cons, fills]
  exact Nat.le_trans (Nat.le_add_left ..) (grows after _)

/-! ### `cq.push` -/

theorem Syzygy.rowWords_pos (q : Syzygy) : 0 < q.rowWords := Nat.mul_pos (by decide) (Nat.succ_pos _)
theorem Syzygy.resWords_pos (q : Syzygy) : 0 < q.resWords := Nat.succ_pos _

/-- The row that lane l pushes. -/
def pushedRow (i : Iss) (a n fut l : Nat) : Row :=
  { gi := i.gi, lane := l, fut := fut, words := (List.range n).map fun j => i.reg (a + 1 + j) l, vec := i.g.know }

/-- The future that a push reserves its result registers under. -/
def pushFuture (i : Iss) (d n : Nat) : Future := { st := .pending, lanes := i.lanes, first := i.phys d, count := n }

theorem logOrder_over_commit {s u : State} {i : Iss} (h : (s.ctx (s.pasidOf i.g)).replay = false) (hc : u.ctxs = s.ctxs)
    (hp : u.pasidOf i.g = (s.commit i).pasidOf i.g) (object : Nat) : logOrder u i object = u :=
  logOrder_unlogged h hc (hp.trans (State.pasidOf_commit ..)) object

theorem cqPush_gives {s : State} {g : Bool} {d a : Fld} {f : BitVec 5} {i : Iss} {k : Nat} {q : Syzygy}
    (hq : q = s.syz (hIndex (i.reg a.toNat i.lo))) (ci : CanIssue s g (a.toNat :: runOf (a.toNat + 1) q.rowWords) (runOf d.toNat q.resWords) [] i)
    (active : i.lanes ≠ 0) (unlogged : (s.ctx (s.pasidOf i.g)).replay = false) (named : s.syzNamed (s.pasidOf i.g) (i.reg a.toNat i.lo) = true) (quiet : Quiet s i)
    (row_fits : a.toNat + 1 + q.rowWords ≤ 128) (res_fits : d.toNat + q.resWords ≤ 128) (free : (i.g.fut f.toNat).st = .free) (filling : q.filling = some k)
    (fit : (q.buf k).rows.length + i.lanes.count ≤ q.rows) : ∃ t, exec (.cqPush g d a f) s = .next t
      ∧ Behind s t i 4 ({ i.g with futures := setAt i.g.futures f.toNat (pushFuture i d.toNat q.resWords) } : Group).tick i.f ∧ t.mem = s.mem
      ∧ t.syzygy = modAt s.syzygy (hIndex (i.reg a.toNat i.lo)) fun q' =>
          (i.lanes.lanes.map (pushedRow i a.toNat q.rowWords f.toNat)).foldl (fun q r => q.push s.time r) q' := by
  have room : ¬q.room < i.lanes.count := by
    have := q.room_le filling
    omega
  have run : exec (.cqPush g d a f) s = execCqPush g d a f s := rfl
  unfold execCqPush at run
  rw [cqOp_next ci (List.cons_subset_cons _ (List.nil_subset _)) (List.nil_subset _) active named, ← hq] at run
  dsimp only at run
  rw [if_pos free, withBlocks_go ci (by simp [row_fits, res_fits, q.rowWords_pos, q.resWords_pos]) (by simp) (by simp), if_neg room,
    owesAccess_of_quiet quiet, if_neg Bool.false_ne_true] at run
  obtain ⟨u, hu⟩ : ∃ u, u = ((s.commit i).modSyz (hIndex (i.reg a.toNat i.lo)) fun q' =>
      (i.lanes.lanes.map (pushedRow i a.toNat q.rowWords f.toNat)).foldl (fun q r => q.push s.time r) q').modG i.gi fun g =>
        { g with futures := setAt g.futures f.toNat (pushFuture i d.toNat q.resWords) } := ⟨_, rfl⟩
  have kept := logOrder_over_commit (s := s) (u := u) (i := i) unlogged (by rw [hu]; rfl) (by rw [hu]; rfl) (i.reg a.toNat i.lo).toNat
  have pushes : exec (.cqPush g d a f) s = .next ((tickG (logOrder u i (i.reg a.toNat i.lo).toNat) i.gi).advance i 4 true) := by
    rw [hu]
    simp only [List.foldl_map]
    exact run
  rw [kept] at pushes
  have became : Became s u i { i.g with futures := setAt i.g.futures f.toNat (pushFuture i d.toNat q.resWords) } i.f := by
    have pushed : Became s ((s.commit i).modSyz (hIndex (i.reg a.toNat i.lo)) fun q' =>
      (i.lanes.lanes.map (pushedRow i a.toNat q.rowWords f.toNat)).foldl (fun q r => q.push s.time r) q') i i.g i.f := ci.toIssuing.became.congr rfl
    rw [hu]
    exact pushed.modAll (F := fun g => { g with futures := setAt g.futures f.toNat (pushFuture i d.toNat q.resWords) }) fun _ _ => rfl
  refine ⟨_, pushes, became.tick.behind 4 true, (State.advance_mem ..).trans ?_, (State.advance_syzygy ..).trans ?_⟩
  · rw [hu]
    rfl
  · rw [hu]
    rfl

/-! ### Flush, configuration, status and timeout (R322, R325) -/

/-- An instruction that leaves its group as it was has not changed registers, predicates or memory. -/
theorem Behind.goes_still {s t : State} {i : Iss} (h : Behind s t i 4 i.g i.f) (hm : t.mem = s.mem) : Goes s t i i.g.lane i.preds :=
  h.goes hm (fun _ _ _ _ => rfl) fun _ _ _ _ => rfl

section
variable {s : State} {g : Bool} {i : Iss} (active : i.lanes ≠ 0) (unlogged : (s.ctx (s.pasidOf i.g)).replay = false)
include active unlogged

/-- A flush makes the filling buffer ready. -/
theorem cqFlush_gives {a : Fld} {k : Nat} (ci : CanIssue s g [a.toNat] [] [] i) (named : s.syzNamed (s.pasidOf i.g) (i.reg a.toNat i.lo) = true)
    {q : Syzygy} (hq : q = s.syz (hIndex (i.reg a.toNat i.lo))) (filling : q.filling = some k) (waits : ∃ r ∈ (q.buf k).rows, r.valid = true ∧ r.put = false) :
    ∃ t, exec (.cqFlush g a) s = .next t ∧ Goes s t i i.g.lane i.preds ∧ t.syzygy = modAt s.syzygy (hIndex (i.reg a.toNat i.lo)) (Syzygy.makeReady · k) := by
  have some_valid : (q.buf k).rows.any (·.valid) = true := by
    obtain ⟨r, r_mem, valid, -⟩ := waits
    exact List.any_eq_true.2 ⟨r, r_mem, valid⟩
  have run : exec (.cqFlush g a) s = execCqFlush g a s := rfl
  unfold execCqFlush at run
  rw [cqOp_next ci (List.Subset.refl _) (List.nil_subset _) active named, ← hq, filling] at run
  dsimp only at run
  rw [if_pos some_valid] at run
  obtain ⟨u, hu⟩ : ∃ u, u = (s.modSyz (hIndex (i.reg a.toNat i.lo)) (Syzygy.makeReady · k)).commit i := ⟨_, rfl⟩
  have run : exec (.cqFlush g a) s = .next ((logOrder u i (i.reg a.toNat i.lo).toNat).advance i 4 true) := by
    rw [hu]
    exact run
  rw [logOrder_over_commit (s := s) (u := u) (i := i) unlogged (by rw [hu]; rfl)
    (by rw [hu]; exact (State.pasidOf_commit ..).trans (State.pasidOf_commit ..).symm)] at run
  have became : Became s u i i.g i.f := ci.toIssuing.became.congr (by rw [hu]; rfl)
  refine ⟨_, run, (became.behind 4 true).goes_still ((State.advance_mem ..).trans ?_), (State.advance_syzygy ..).trans ?_⟩ <;> (rw [hu]; rfl)

theorem cqCfg_gives {a b : Fld} (ci : CanIssue s g [a.toNat, b.toNat] [] [] i) (named : s.syzNamed (s.pasidOf i.g) (i.reg a.toNat i.lo) = true)
    (listed : (i.reg b.toNat i.lo).toNat % 4 ≠ 3) (free : ∀ x ∈ (s.syz (hIndex (i.reg a.toNat i.lo))).bufs, x.st = .free)
    (nobody : ∀ y ∈ s.groups, ∀ f ∈ y.frags, ∀ n, f.stall ≠ some (.room (i.reg a.toNat i.lo) n)) :
    ∃ t, exec (.cqCfg g a b) s = .next t ∧ Goes s t i i.g.lane i.preds
      ∧ t.syzygy = modAt s.syzygy (hIndex (i.reg a.toNat i.lo)) fun q => { q with cfg := i.reg b.toNat i.lo } := by
  have run : exec (.cqCfg g a b) s = execCqCfg g a b s := rfl
  unfold execCqCfg at run
  rw [cqOp_next ci (List.Subset.refl _) (List.nil_subset _) active named] at run
  dsimp only at run
  rw [if_neg ?allowed] at run
  case allowed =>
    rintro (bad | waiting | used)
    · exact listed bad
    · obtain ⟨y, y_mem, f_waits⟩ := List.any_eq_true.1 waiting
      obtain ⟨f, f_mem, room⟩ := List.any_eq_true.1 f_waits
      split at room
      · next x n stalled => exact nobody y y_mem f f_mem n (stalled.trans (by rw [beq_iff_eq.1 room]))
      · cases room
    · obtain ⟨x, x_mem, not_free⟩ := List.any_eq_true.1 used
      rw [free x x_mem] at not_free
      cases not_free
  obtain ⟨u, hu⟩ : ∃ u, u = (s.commit i).modSyz (hIndex (i.reg a.toNat i.lo)) fun q => { q with cfg := i.reg b.toNat i.lo } := ⟨_, rfl⟩
  rw [← hu, logOrder_over_commit (s := s) (u := u) (i := i) unlogged (by rw [hu]; rfl) (by rw [hu]; rfl)] at run
  have became : Became s u i i.g i.f := ci.toIssuing.became.congr (by rw [hu]; rfl)
  refine ⟨_, run, (became.behind 4 true).goes_still ((State.advance_mem ..).trans ?_), (State.advance_syzygy ..).trans ?_⟩ <;> (rw [hu]; rfl)

/-- The status of a queue without a filling buffer. -/
theorem cqStat_gives {d : BitVec 6} {a : Fld} (ci : CanIssue s g [a.toNat] (pairOf d) [] i) (named : s.syzNamed (s.pasidOf i.g) (i.reg a.toNat i.lo) = true)
    {q : Syzygy} (hq : q = s.syz (hIndex (i.reg a.toNat i.lo))) (none_fills : q.filling = none) :
    ∃ t, exec (.cqStat g d a) s = .next t ∧ t.syzygy = s.syzygy
      ∧ Goes s t i (i.after (pairFld d).toNat fun _ => [BitVec.ofNat 32 ((q.bufs.filter fun b => b.st == .taken).length * 2 ^ 11
          + (q.bufs.filter fun b => b.st == .ready).length * 2 ^ 8), q.cfg]) i.preds := by
  have run : exec (.cqStat g d a) s = execCqStat g d a s := rfl
  unfold execCqStat at run
  rw [cqOp_next ci (List.Subset.refl _) (List.Subset.refl _) active named, ← hq, none_fills] at run
  dsimp only at run
  rw [logOrder_over_commit (u := s.commit i) unlogged rfl rfl, Nat.add_zero] at run
  refine ⟨_, run, State.advance_syzygy ..,
    ((ci.toIssuing.became.commit.putPair _ _).behind 4 true).goes (State.advance_mem ..) (fun p l hp hl => ?_) fun _ _ _ _ => rfl⟩
  rw [setPair_after i _ _ hp hl, lo32_mk64, hi32_mk64]

end

/-- A filling buffer that has waited for its timeout becomes ready. -/
theorem syzygyTimeout_gives {s : State} {qi k : Nat} (filling : (s.syz qi).filling = some k) (bound : (s.syz qi).bound = true) (timed : (s.syz qi).timeout ≠ 0)
    (due : (s.syz qi).timeout ≤ s.since ((s.syz qi).buf k).since) : exec (.syzygyTimeout qi) s = .next (s.modSyz qi (Syzygy.makeReady · k)) := by
  have run : exec (.syzygyTimeout qi) s = execSyzygyTimeout qi s := rfl
  unfold execSyzygyTimeout at run
  dsimp only at run
  rw [filling] at run
  dsimp only at run
  rw [if_pos (by simp [bound, timed, due])] at run
  exact run
/-! ### A buffer written into a tile (R321) -/

theorem getElem?_flatMap_leBytes {ws : List Word} {j k : Nat} {w : Word} (hw : ws[j]? = some w) (hk : k < 4) :
    (ws.flatMap fun w => leBytes 4 w.toNat)[4 * j + k]? = (leBytes 4 w.toNat)[k]? := by
  induction ws generalizing j with
  | nil => cases hw
  | cons v ws ih =>
    rw [List.flatMap_cons]
    cases j with
    | zero =>
      cases hw
      rw [Nat.mul_zero, Nat.zero_add, List.getElem?_append_left (by rw [length_leBytes]; exact hk)]
    | succ j =>
      rw [List.getElem?_append_right (by rw [length_leBytes]; omega), length_leBytes, show 4 * (j + 1) + k - 4 = 4 * j + k by omega]
      exact ih hw

theorem length_flatMap_leBytes (ws : List Word) : (ws.flatMap fun w => leBytes 4 w.toNat).length = 4 * ws.length := by
  simp [List.length_flatMap, Nat.mul_comm]

/-- What a take writes: the bytes of each valid row at its place. -/
def takePieces (rb : Nat) (rows : List Row) : List (Nat × List Byte) :=
  ((indexed rows).filter (·.2.valid)).map fun e => (e.1 * rb, e.2.words.flatMap fun w => leBytes 4 w.toNat)

/-- The tile's bytes behind a take. -/
def takenData (m : Mem) (rb height : Nat) (rows : List Row) : Mem := (m.write 0 (List.replicate (height * rb) 0)).puts (takePieces rb rows)

theorem takeTile_eq (t : Tile) (q : Syzygy) (b : Buf) : takeTile t q b = { t with
    data := takenData t.data (4 * q.rowWords) q.rows b.rows, rowMask := BitVec.ofNat 256 b.validMask, colMask := BitVec.allOnes 256, emask := true, bad := false } := by
  unfold takeTile takenData Mem.puts takePieces
  rw [List.foldl_map, List.foldl_filter]

section
variable {m : Mem} {rb height : Nat} {rows : List Row} (wf : m.wf = true) (whole : ∀ r ∈ rows, 4 * r.words.length = rb)
include whole

/-- A piece that holds a byte of a row's place is the row's. -/
theorem takePieces_at {p : Nat} {w : Nat × List Byte} (hw : w ∈ takePieces rb rows) (hp : covers p w = true) :
    ∃ r row, rows[r]? = some row ∧ row.valid = true ∧ w = (r * rb, row.words.flatMap fun w => leBytes 4 w.toNat) ∧ r * rb ≤ p ∧ p < r * rb + rb := by
  obtain ⟨⟨r, row⟩, he, rfl⟩ := List.mem_map.1 hw
  obtain ⟨he, valid⟩ := List.mem_filter.1 he
  have at_r : rows[r]? = some row := mem_indexed.1 he
  obtain ⟨lo, hi⟩ := covers_iff.1 hp
  rw [length_flatMap_leBytes, whole row (List.mem_of_getElem? at_r)] at hi
  exact ⟨r, row, at_r, valid, rfl, lo, hi⟩

omit whole in
theorem place_row_unique {r r' p : Nat} (lo : r * rb ≤ p) (hi : p < r * rb + rb) (lo' : r' * rb ≤ p) (hi' : p < r' * rb + rb) : r = r' := by
  have below {x y : Nat} (h1 : x * rb ≤ p) (h2 : p < y * rb + rb) : x ≤ y := by
    refine Nat.lt_succ_iff.1 (Nat.lt_of_mul_lt_mul_right (a := rb) (Nat.lt_of_le_of_lt h1 ?_))
    rwa [Nat.succ_mul]
  exact Nat.le_antisymm (below lo hi') (below lo' hi)

include wf

/-- Where no valid row stands, the rows of the tile are zero and the bytes behind them stay. -/
theorem takenData_unfilled {p : Nat} (free : ∀ r row, rows[r]? = some row → row.valid = true → r * rb ≤ p → ¬p < r * rb + rb) :
    (takenData m rb height rows).get p = if p < height * rb then 0 else m.get p := by
  rw [takenData, Mem.get_puts_of_uncovered (Mem.write_wf _ _ _ wf) fun w hw => ?_, Mem.get_write _ _ _ _ wf]
  · simp only [List.length_replicate, Nat.zero_le, true_and, Nat.zero_add, Nat.sub_zero]
    refine if_ctx_congr Iff.rfl (fun h => ?_) fun _ => rfl
    rw [List.getElem?_replicate, if_pos h]
    rfl
  · refine Bool.eq_false_iff.2 fun hp => ?_
    obtain ⟨r, row, at_r, valid, -, lo, hi⟩ := takePieces_at whole hw hp
    exact free r row at_r valid lo hi

/-- The words of a valid row stand in its place, and a void row is zero. -/
theorem takenData_word {r j : Nat} {row : Row} {w : Word} (at_r : rows[r]? = some row) (at_j : row.words[j]? = some w) (inside : rows.length ≤ height) :
    Mem.le (takenData m rb height rows) (r * rb + 4 * j) 4 = if row.valid = true then w.toNat else 0 := by
  obtain ⟨r_lt, -⟩ := List.getElem?_eq_some_iff.1 at_r
  obtain ⟨j_lt, -⟩ := List.getElem?_eq_some_iff.1 at_j
  have wide := whole row (List.mem_of_getElem? at_r)
  have this_row {k r' : Nat} (hk : k < 4) (lo : r' * rb ≤ r * rb + 4 * j + k) (hi : r * rb + 4 * j + k < r' * rb + rb) : r' = r :=
    place_row_unique lo hi (by omega) (by omega)
  split
  · next valid =>
    refine (le_of_bytes fun k hk => ?_).trans (Nat.mod_eq_of_lt w.isLt)
    have mine : (r * rb, row.words.flatMap fun w => leBytes 4 w.toNat) ∈ takePieces rb rows :=
      List.mem_map.2 ⟨(r, row), List.mem_filter.2 ⟨mem_indexed.2 at_r, valid⟩, rfl⟩
    refine Mem.get_puts_of_covered (Mem.write_wf _ _ _ wf) ⟨_, mine, ?_⟩ fun v hv hp => ?_
    · rw [covers_iff, length_flatMap_leBytes, wide]
      dsimp only
      omega
    · obtain ⟨r', row', at_r', -, rfl, lo, hi⟩ := takePieces_at whole hv hp
      cases this_row hk lo hi
      cases at_r.symm.trans at_r'
      rw [show r * rb + 4 * j + k - r * rb = 4 * j + k by omega, getElem?_flatMap_leBytes at_j hk]
  · next void =>
    refine (le_of_bytes (v := 0) fun k hk => ?_).trans (Nat.zero_mod _)
    rw [takenData_unfilled wf whole fun r' row' at_r' valid lo hi => ?_, if_pos ?_]
    · have zeros : leBytes 4 0 = List.replicate 4 0 := by decide
      rw [zeros, List.getElem?_replicate, if_pos hk]
      rfl
    · have ends : (r + 1) * rb ≤ height * rb := Nat.mul_le_mul_right rb (by omega)
      rw [Nat.succ_mul] at ends
      omega
    · cases this_row hk lo hi
      cases at_r.symm.trans at_r'
      exact void valid

/-- Rows never filled are zero, and the bytes beyond the rows stay. -/
theorem takenData_behind {p : Nat} (behind : rows.length * rb ≤ p) : (takenData m rb height rows).get p = if p < height * rb then 0 else m.get p := by
  refine takenData_unfilled wf whole fun r row at_r _ lo hi => ?_
  have ends : (r + 1) * rb ≤ rows.length * rb := Nat.mul_le_mul_right rb (List.getElem?_eq_some_iff.1 at_r).1
  rw [Nat.succ_mul] at ends
  omega

end

theorem indexed_concat {α : Type} (xs : List α) (x : α) : indexed (xs ++ [x]) = indexed xs ++ [(xs.length, x)] := by
  unfold indexed
  rw [List.length_append, List.length_singleton, List.range_succ, List.zip_append (by rw [List.length_range])]
  rfl

theorem getElem?_concat {α : Type} (xs : List α) (x : α) (r : Nat) : (xs ++ [x])[r]? = if r = xs.length then some x else xs[r]? := by
  rw [List.getElem?_append]
  split
  · next inside => rw [if_neg inside.ne]
  · next outside =>
    rw [List.getElem?_singleton, List.getElem?_eq_none (Nat.le_of_not_lt outside)]
    exact if_congr (by omega) rfl rfl

/-- The mask of the valid rows of a list. -/
def validRows (rows : List Row) : Nat := (indexed rows).foldl (fun m e => if e.2.valid then m + 2 ^ e.1 else m) 0

theorem validRows_concat (rows : List Row) (x : Row) : validRows (rows ++ [x]) = if x.valid then validRows rows + 2 ^ rows.length else validRows rows := by
  rw [validRows, indexed_concat, List.foldl_append]
  rfl

theorem validRows_lt (rows : List Row) : validRows rows < 2 ^ rows.length := by
  induction rows using List.reverseRecOn with
  | nil => exact Nat.one_pos
  | append_singleton rows x ih =>
    rw [validRows_concat, List.length_append, List.length_singleton, Nat.pow_succ]
    split <;> omega

/-- The mask names the valid rows. -/
theorem validRows_testBit (rows : List Row) (r : Nat) : (validRows rows).testBit r = true ↔ ∃ row, rows[r]? = some row ∧ row.valid = true := by
  induction rows using List.reverseRecOn with
  | nil => simp [validRows, indexed]
  | append_singleton rows x ih =>
    rw [validRows_concat, getElem?_concat]
    have high : (validRows rows).testBit rows.length = false := Nat.testBit_lt_two_pow (validRows_lt rows)
    by_cases valid : x.valid = true
    · have joined : validRows rows + 2 ^ rows.length = 2 ^ rows.length ||| validRows rows := by
        have := Nat.two_pow_add_eq_or_of_lt (validRows_lt rows) 1
        rwa [Nat.mul_one, Nat.add_comm] at this
      rw [if_pos valid, joined, Nat.testBit_or, Nat.testBit_two_pow]
      split
      · next last => simp [last, valid]
      · next other => simp [Ne.symm other, ih]
    · rw [if_neg valid]
      split
      · next last => simp [last, high, valid]
      · exact ih
/-! ### `cq.take` -/

theorem stampIn_off {s : State} {gi : Nat} (h : (s.group gi).optTs = false) (t : Nat) : stampIn s gi t = s := by
  unfold stampIn
  rw [h]
  rfl

/-- A group has learnt what the pushers of the valid rows knew. -/
def learnValid (rows : List Row) (g : Group) : Group := { g with know := (rows.filter (·.valid)).foldl (fun v r => v.merge r.vec) g.know }

theorem learnValid_valid {r : Row} (valid : r.valid = true) (rows : List Row) : learnValid (r :: rows) = fun g => learnValid rows (g.learn r.vec) := by
  funext g
  simp only [learnValid, List.filter_cons_of_pos valid, List.foldl_cons, Group.learn]

theorem learnValid_void {r : Row} (void : ¬r.valid = true) (rows : List Row) : learnValid (r :: rows) = learnValid rows := by
  funext g
  unfold learnValid
  rw [List.filter_cons_of_neg void]

theorem learnValid_eq (rows : List Row) (gi : Nat) (u : State) :
    rows.foldl (fun s r => if r.valid then mergeG s gi r.vec else s) u = u.modG gi (learnValid rows) := by
  induction rows generalizing u with
  | nil => exact (State.modG_id u gi).symm
  | cons r rows ih =>
    refine (ih _).trans ?_
    beta_reduce
    by_cases valid : r.valid = true
    · rw [if_pos valid, learnValid_valid valid, mergeG, State.modG_modG]
    · rw [if_neg valid, learnValid_void valid]

/-- The group behind a take: its tile holds the buffer's rows, and it knows what their pushers knew. -/
def takeGroup (i : Iss) (x : Nat) (q : Syzygy) (b : Buf) : Group := learnValid b.rows { i.g with tiles := setAt i.g.tiles x (takeTile (i.g.tile x) q b) }

/-- The queue behind the take of a buffer. -/
def Syzygy.takeBuf (q : Syzygy) (k gi : Nat) : Syzygy := { q.modBuf k fun b => { b with st := .taken, seq := q.seq, taker := gi } with seq := q.seq + 1 }

/-- The state once a buffer stands in the tile: the tile's stamp is told, and the buffer is taken. -/
def takeState (u : State) (i : Iss) (x : Nat) (q : Syzygy) (b : Buf) (F : Stamp → Stamp) (hi k : Nat) : State :=
  (stampMod (u.modTile i.gi x fun y => takeTile y q b) i.gi x F).modSyz hi (Syzygy.takeBuf · k i.gi)

theorem takeState_rest (u : State) (i : Iss) (x : Nat) (q : Syzygy) (b : Buf) (F : Stamp → Stamp) (hi k : Nat) :
    ∃ gs, takeState u i x q b F hi k = { u with groups := gs, syzygy := modAt u.syzygy hi (Syzygy.takeBuf · k i.gi) } := ⟨_, rfl⟩

theorem takeState_became {s u : State} {i : Iss} {x : Nat} {q : Syzygy} {b : Buf} {f : Frag} (h : Became s u i i.g f) (unstamped : (i.g.tile x).stamp = none)
    (F : Stamp → Stamp) (hi k : Nat) : Became s ((takeState u i x q b F hi k).modG i.gi (learnValid b.rows)) i (takeGroup i x q b) f := by
  have tiles := (h.modAll (F := fun g => { g with tiles := modAt g.tiles x fun y => takeTile y q b }) fun _ _ => rfl).modAll
    (F := fun g => { g with tiles := modAt g.tiles x fun y => { y with stamp := y.stamp.map F } }) fun _ _ => rfl
  have known := (tiles.congr (v := takeState u i x q b F hi k) rfl).modAll (F := learnValid b.rows) fun _ _ => rfl
  have same : modAt (modAt i.g.tiles x fun y => takeTile y q b) x (fun y => { y with stamp := y.stamp.map F }) = setAt i.g.tiles x (takeTile (i.g.tile x) q b) := by
    rw [modAt_modAt, modAt_eq_setAt _ _ _ ({} : Tile)]
    have kept : ({ takeTile (i.g.tile x) q b with stamp := (takeTile (i.g.tile x) q b).stamp.map F } : Tile) = takeTile (i.g.tile x) q b := by
      rw [takeTile_eq, unstamped]
      rfl
    exact congrArg (setAt i.g.tiles x) kept
  rw [takeGroup, ← same]
  exact known

/-- The end of a take: the group acquires, and the pair of its result stands. -/
def takeEnd (i : Iss) (d : Nat) (w : Word64) (u : State) : State := ((acquireFills u i.gi i.fi 2).putPair i d fun _ => w).advance i 4 true

theorem takeEnd_gives {s u : State} {i : Iss} {y : Group} {f : Frag} (h : Became s u i y f) (d : Nat) (w : Word64) : ∃ mark f',
    Behind s (takeEnd i d w u) i 4 (({ y with acquired := mark }.setReg (i.phys d) i.lanes fun _ => lo32 w).setReg (i.phys (d + 1)) i.lanes fun _ => hi32 w) f'
      ∧ f'.acquired = u.fillNo ∧ (takeEnd i d w u).mem = u.mem ∧ (takeEnd i d w u).syzygy = u.syzygy := by
  obtain ⟨mark, acquired⟩ := h.acquireDev
  obtain ⟨gs, rest⟩ := acquireFills_rest u i.gi i.fi 2
  refine ⟨mark, _, (acquired.putPair d _).behind 4 true, rfl, (State.advance_mem ..).trans ?_, (State.advance_syzygy ..).trans ?_⟩ <;> (rw [rest]; rfl)

section
variable {s : State} {g : Bool} {d : BitVec 6} {a : Fld} {x : BitVec 6} {i : Iss} {k : Nat} {q : Syzygy}

/-- What a take names: the batch, its buffer and its queue, and the valid rows. -/
def takeResult (q : Syzygy) (k hi : Nat) : Word64 :=
  mk64 (BitVec.ofNat 32 (q.seq % 2 ^ 22 * 2 ^ 10 + k * 256 + hi)) (BitVec.ofNat 32 (q.buf k).validMask)

theorem cqTake_gives (hq : q = s.syz (hIndex (i.reg a.toNat i.lo))) (ci : CanIssue s g [a.toNat] (pairOf d) [] i) (active : i.lanes ≠ 0)
    (unlogged : (s.ctx (s.pasidOf i.g)).replay = false) (named : s.syzNamed (s.pasidOf i.g) (i.reg a.toNat i.lo) = true) (x_lt : x.toNat < i.g.tiles.length)
    (shaped : (i.g.tile x.toNat).shaped = true) (height : (i.g.tile x.toNat).height = q.rows) (row_bytes : (i.g.tile x.toNat).rb = 4 * q.rowWords)
    (unused : i.g.tileUsed x.toNat = false) (untimed : i.g.optTs = false) (unstamped : (i.g.tile x.toNat).stamp = none) (oldest : q.oldest = some k) :
    ∃ u, exec (.cqTake g d a x) s = .next (takeEnd i (pairFld d).toNat (takeResult q k (hIndex (i.reg a.toNat i.lo))) u)
      ∧ Became s u i (takeGroup i x.toNat q (q.buf k)) i.f ∧ u.fillNo = s.fillNo ∧ u.mem = s.mem
      ∧ u.syzygy = modAt s.syzygy (hIndex (i.reg a.toNat i.lo)) (Syzygy.takeBuf · k i.gi) := by
  have own : (s.commit i).group i.gi = i.g := ci.toIssuing.eq.1.symm
  have run : exec (.cqTake g d a x) s = execCqTake g d a x s := rfl
  unfold execCqTake at run
  rw [withTile_next ci.toIssuing ?held x_lt ?unshaped, cqOp_next ci (List.Subset.refl _) (List.Subset.refl _) active named, ← hq] at run
  case held => exact fun r hr => ci.held r hr
  case unshaped => exact fun wanted => absurd wanted Bool.false_ne_true
  dsimp only at run
  rw [shaped, if_neg (by decide), if_neg (by simp [height, row_bytes]), tileWait_of_unused unused, oldest] at run
  dsimp only at run
  rw [learnValid_eq, stampIn_off (by rw [own]; exact untimed)] at run
  obtain ⟨F, hF⟩ : ∃ F : Stamp → Stamp, F = fun y => if y.opi = 0 then { y with in1 := s.time } else y := ⟨_, rfl⟩
  obtain ⟨v, hv⟩ : ∃ v, v = takeState (s.commit i) i x.toNat q (q.buf k) F (hIndex (i.reg a.toNat i.lo)) k := ⟨_, rfl⟩
  have taken : exec (.cqTake g d a x) s = .next (takeEnd i (pairFld d).toNat (takeResult q k (hIndex (i.reg a.toNat i.lo)))
      ((logOrder v i (i.reg a.toNat i.lo).toNat).modG i.gi (learnValid (q.buf k).rows))) := by
    rw [hv, hF]
    exact run
  have became := takeState_became (u := s.commit i) (q := q) (b := q.buf k) (ci.toIssuing.became.congr rfl) unstamped F (hIndex (i.reg a.toNat i.lo)) k
  obtain ⟨gs, rest⟩ := takeState_rest (s.commit i) i x.toNat q (q.buf k) F (hIndex (i.reg a.toNat i.lo)) k
  rw [← hv] at became rest
  rw [logOrder_over_commit unlogged (by rw [rest]; rfl) (by rw [rest]; rfl)] at taken
  refine ⟨_, taken, became, ?_, ?_, ?_⟩ <;> (rw [rest]; rfl)

end

/-! ### `cq.put` (R323) -/

/-- A row of a buffer of a queue, by its indices. -/
def RowAt (s : State) (qi k r : Nat) (x : Row) : Prop := ∃ q b, s.syzygy[qi]? = some q ∧ q.bufs[k]? = some b ∧ b.rows[r]? = some x

theorem rowAt_iff {s : State} {qi k r : Nat} {x : Row} :
    RowAt s qi k r x ↔ qi < s.syzygy.length ∧ k < (s.syz qi).bufs.length ∧ ((s.syz qi).buf k).rows[r]? = some x := by
  have buffer (q : Syzygy) : (∃ b, q.bufs[k]? = some b ∧ b.rows[r]? = some x) ↔ k < q.bufs.length ∧ (q.buf k).rows[r]? = some x := by
    unfold Syzygy.buf
    by_cases inside : k < q.bufs.length
    · simp [inside]
    · simp [inside]
  unfold RowAt State.syz
  by_cases inside : qi < s.syzygy.length
  · simp [inside, buffer]
  · simp [inside]

/-- A push of the group has a row that is still to be put. -/
def RowLeft (gi fut : Nat) (x : Row) : Prop := x.valid = true ∧ x.wanted = true ∧ x.put = false ∧ x.gi = gi ∧ x.fut = fut

theorem exists_mem_iff_getElem? {α : Type} {xs : List α} {p : α → Prop} : (∃ x ∈ xs, p x) ↔ ∃ (n : Nat) (x : α), xs[n]? = some x ∧ p x :=
  ⟨fun ⟨x, x_mem, h⟩ => have ⟨n, at_n⟩ := List.getElem?_of_mem x_mem; ⟨n, x, at_n, h⟩, fun ⟨_, x, at_n, h⟩ => ⟨x, List.mem_of_getElem? at_n, h⟩⟩

theorem rowsLeft_iff {s : State} {gi fut : Nat} : rowsLeft s gi fut = true ↔ ∃ qi k r x, RowAt s qi k r x ∧ RowLeft gi fut x := by
  have left (x : Row) : (x.valid && x.wanted && !x.put && x.gi == gi && x.fut == fut) = true ↔ RowLeft gi fut x := by
    simp [RowLeft, and_assoc]
  unfold rowsLeft
  simp only [List.any_eq_true, left, exists_mem_iff_getElem?]
  constructor
  · rintro ⟨qi, q, at_q, k, b, at_k, r, x, at_r, h⟩
    exact ⟨qi, k, r, x, ⟨q, b, at_q, at_k, at_r⟩, h⟩
  · rintro ⟨qi, k, r, x, ⟨q, b, at_q, at_k, at_r⟩, h⟩
    exact ⟨qi, q, at_q, k, b, at_k, r, x, at_r, h⟩

theorem getElem?_modAt_eq_some {α : Type} {xs : List α} {n j : Nat} {f : α → α} {y : α} :
    (modAt xs n f)[j]? = some y ↔ ∃ x, xs[j]? = some x ∧ (if j = n then f x else x) = y := by
  rw [getElem?_modAt]
  split <;> simp

/-- One row of the queues changed. -/
def markRow (s : State) (qi k r : Nat) (F : Row → Row) : State := s.modSyz qi fun q => q.modBuf k fun b => { b with rows := modAt b.rows r F }

theorem rowAt_markRow {s : State} {qi k r q' k' r' : Nat} {F : Row → Row} {x : Row} :
    RowAt (markRow s qi k r F) q' k' r' x ↔ ∃ y, RowAt s q' k' r' y ∧ (if (q', k', r') = (qi, k, r) then F y else y) = x := by
  unfold RowAt markRow State.modSyz Syzygy.modBuf
  simp only [getElem?_modAt_eq_some, Prod.mk.injEq]
  constructor
  · rintro ⟨_, _, ⟨q, at_q, rfl⟩, at_k, at_r⟩
    by_cases same_q : q' = qi
    · rw [if_pos same_q] at at_k
      obtain ⟨b, at_b, rfl⟩ := getElem?_modAt_eq_some.1 at_k
      by_cases same_k : k' = k
      · rw [if_pos same_k] at at_r
        obtain ⟨y, at_y, rfl⟩ := getElem?_modAt_eq_some.1 at_r
        exact ⟨y, ⟨q, b, at_q, at_b, at_y⟩, if_congr (by simp [same_q, same_k]) rfl rfl⟩
      · rw [if_neg same_k] at at_r
        exact ⟨x, ⟨q, b, at_q, at_b, at_r⟩, if_neg fun all => same_k all.2.1⟩
    · rw [if_neg same_q] at at_k
      exact ⟨x, ⟨q, _, at_q, at_k, at_r⟩, if_neg fun all => same_q all.1⟩
  · rintro ⟨y, ⟨q, b, at_q, at_k, at_r⟩, rfl⟩
    refine ⟨_, if k' = k ∧ q' = qi then { b with rows := modAt b.rows r F } else b, ⟨q, at_q, rfl⟩, ?_, ?_⟩
    · by_cases same_q : q' = qi
      · simp [same_q, getElem?_modAt, at_k]
        split <;> rfl
      · simp [same_q, at_k]
    · by_cases same : k' = k ∧ q' = qi
      · simp [same, getElem?_modAt, at_r]
        split <;> rfl
      · rw [if_neg same, at_r, if_neg fun all => same ⟨all.2.1, all.1⟩]

/-- The row has been put. -/
def markPut (s : State) (qi k r : Nat) : State := markRow s qi k r fun x => { x with put := true }

/-- No row is left behind a put exactly when every other row of the push has been put. -/
theorem rowsLeft_markPut {s : State} {qi k r gi fut : Nat} : rowsLeft (markPut s qi k r) gi fut = false
    ↔ ∀ (q' k' r' : Nat) (x : Row), (q', k', r') ≠ (qi, k, r) → RowAt s q' k' r' x → x.gi = gi → x.fut = fut →
      x.valid = true → x.wanted = true → x.put = true := by
  rw [← Bool.not_eq_true, rowsLeft_iff]
  constructor
  · intro none_left q' k' r' x other at_x own_gi own_fut valid wanted
    by_contra waits
    exact none_left ⟨q', k', r', x, rowAt_markRow.2 ⟨x, at_x, if_neg other⟩, valid, wanted, Bool.eq_false_iff.2 waits, own_gi, own_fut⟩
  · rintro all_put ⟨q', k', r', x, at_x, valid, wanted, waits, own_gi, own_fut⟩
    obtain ⟨y, at_y, rfl⟩ := rowAt_markRow.1 at_x
    by_cases same : (q', k', r') = (qi, k, r)
    · rw [if_pos same] at waits
      cases waits
    · rw [if_neg same] at valid wanted waits own_gi own_fut
      exact absurd (all_put q' k' r' y same at_y own_gi own_fut valid wanted) (Bool.eq_false_iff.1 waits)

theorem indexed_map_range {α : Type} (n : Nat) (w : Nat → α) : indexed ((List.range n).map w) = (List.range n).map fun j => (j, w j) := by
  refine List.ext_getElem? fun j => ?_
  by_cases inside : j < n
  · simp [indexed, inside]
  · rw [List.getElem?_eq_none (by simp [indexed]; omega), List.getElem?_eq_none (by simp; omega)]

/-- The owner of a row: its lane has received the words, and its future has changed. -/
def putGroup (row : Row) (first n : Nat) (w : Nat → Word) (F : Future → Future) (g : Group) : Group :=
  let g' := (setRow first n row.lane w g).roused g
  { g' with futures := modAt g'.futures row.fut F }

theorem putGroup_eq (row : Row) (first n : Nat) (w : Nat → Word) (F : Future → Future) (g : Group) : ∃ rs po frags,
    putGroup row first n w F g = { g with regs := rs, poison := po, frags := frags, futures := modAt g.futures row.fut F }
      ∧ frags.length = g.frags.length
      ∧ ∀ p m, p < g.regs.length → m < 16 → (putGroup row first n w F g).lane p m
          = if m = row.lane ∧ first ≤ p ∧ p < first + n then w (p - first) else g.lane p m := by
  obtain ⟨rs, po, e, -⟩ := setRow_eq first n row.lane w g
  unfold putGroup
  refine ⟨rs, po, ((setRow first n row.lane w g).roused g).frags, ?_, ?_, fun p m hp hm => ?_⟩
  · rw [e]
    rfl
  · rw [e, Group.roused, List.length_map]
  · exact (setRow_lane hp hm :)

/-- The future of a put's row: one more vector, and READY with the push's last row. -/
def putFuture (vec : KVec) (done : Bool) (f : Future) : Future := { f with vecs := f.vecs ++ [vec], st := if done then .ready else f.st }

theorem putRow_eq {u : State} {qi k r n : Nat} {w : Nat → Word} {vec : KVec} {row : Row} (at_r : ((u.syz qi).buf k).rows[r]? = some row) (wanted : row.wanted = true)
    (pending : ((u.group row.gi).fut row.fut).st = .pending) : putRow u qi k r ((List.range n).map w) vec
      = (markPut u qi k r).modG row.gi (putGroup row ((u.group row.gi).fut row.fut).first n w
          (putFuture vec (!rowsLeft (markPut u qi k r) row.gi row.fut))) := by
  obtain ⟨v, hv⟩ : ∃ v, v = markPut u qi k r := ⟨_, rfl⟩
  have unfolded : putRow u qi k r ((List.range n).map w) vec = if !row.wanted || ((u.group row.gi).fut row.fut).st != .pending then v else
      (v.modG row.gi fun g => ((indexed ((List.range n).map w)).foldl (fun g w =>
          g.setReg (((u.group row.gi).fut row.fut).first + w.1) (twoPowMask row.lane) fun _ => w.2) g).roused g).modG
        row.gi fun g => { g with futures := modAt g.futures row.fut (putFuture vec (!rowsLeft v row.gi row.fut)) } := by
    rw [hv]
    unfold putRow
    rw [at_r]
    rfl
  rw [unfolded, wanted, pending, if_neg (by decide), ← hv, State.modG_modG, indexed_map_range]
  refine congrArg (v.modG row.gi) (funext fun g => ?_)
  rw [List.foldl_map]
  rfl

section
variable {s : State} {g : Bool} {a : BitVec 6} {b : Fld} {i : Iss} {l w r k qi : Nat} {row : Row}

/-- A put of one lane delivers its words. -/
theorem cqPut_gives (hw : w = (i.reg (pairFld a).toNat i.lo).toNat) (hr : r = (i.reg ((pairFld a).toNat + 1) i.lo).toNat + l) (hqi : qi = w % 128) (hk : k = w / 256 % 4)
    (ci : CanIssue s g (pairOf a ++ runOf b.toNat (s.syz qi).resWords) [] [] i) (single : i.lanes.lanes = [l]) (quiet : Quiet s i)
    (unlogged : (s.ctx (s.pasidOf i.g)).replay = false) (fits : b.toNat + (s.syz qi).resWords ≤ 128) (bound : (s.syz qi).bound = true)
    (own : (s.syz qi).ctx = s.pasidOf i.g) (plain : w / 128 % 2 = 0) (taken : ((s.syz qi).buf k).st = .taken)
    (batch : ((s.syz qi).buf k).seq % 2 ^ 22 = w / 2 ^ 10) (at_r : ((s.syz qi).buf k).rows[r]? = some row)
    (r_lt : r < (s.syz qi).rows) (valid : row.valid = true) (waits : row.put = false) (wanted : row.wanted = true)
    (pending : ((s.group row.gi).fut row.fut).st = .pending) :
    ∃ v, exec (.cqPut g a b) s = .next ((tickG v i.gi).advance i 4 true) ∧ v.mem = s.mem
      ∧ v.groups = modAt s.groups row.gi (putGroup row ((s.group row.gi).fut row.fut).first (s.syz qi).resWords (fun j => i.reg (b.toNat + j) l)
          (putFuture i.g.know (!rowsLeft (markPut s qi k r) row.gi row.fut))) := by
  have active : i.lanes ≠ 0 := fun none_active => by
    rw [none_active] at single
    have one : (0 : Mask).lanes.length = 1 := congrArg List.length single
    exact absurd one (by decide)
  have run : exec (.cqPut g a b) s = execCqPut g a b s := rfl
  unfold execCqPut at run
  rw [withOperands_next (ci.narrow (List.subset_append_left _ _) (List.nil_subset _)), once_active active] at run
  dsimp only at run
  rw [← hw, ← hqi, show bitsOf w 9 8 = k from hk.symm, if_neg (by simp [bound, own]), if_neg (by simp [show bitsOf w 7 7 = 0 from plain, taken]; exact batch),
    withBlocks_go ci (by simp [fits, Syzygy.resWords_pos]) (by simp) (by simp), owesAccess_of_quiet quiet, if_neg Bool.false_ne_true, single] at run
  have opens : (match ((s.syz qi).buf k).rows[r]? with | some y => decide (r < (s.syz qi).rows) && y.valid && !y.put | none => false) = true := by
    rw [at_r]
    simp [r_lt, valid, waits]
  rw [List.filter_cons_of_pos (by rw [← hr]; exact opens), List.filter_nil, List.foldl_cons, List.foldl_nil, ← hr,
    putRow_eq (u := s.commit i) at_r wanted pending] at run
  obtain ⟨v, hv⟩ : ∃ v, v = ((markPut (s.commit i) qi k r).modG row.gi (putGroup row ((s.group row.gi).fut row.fut).first
      (s.syz qi).resWords (fun j => i.reg (b.toNat + j) l) (putFuture i.g.know (!rowsLeft (markPut s qi k r) row.gi row.fut)))).modSyz qi fun q => q.modBuf k Buf.settle :=
    ⟨_, rfl⟩
  have puts : exec (.cqPut g a b) s = .next ((tickG (logOrder v i (mkHandle qi (s.syz qi).gen).toNat) i.gi).advance i 4 true) := by
    rw [hv]
    exact run
  rw [logOrder_over_commit unlogged (by rw [hv]; rfl) (by rw [hv]; rfl)] at puts
  exact ⟨v, puts, by rw [hv]; rfl, by rw [hv]; rfl⟩

end

theorem Became.of_lt {v : State} {i : Iss} (h : i.fi < (v.group i.gi).frags.length) : ∃ f, Became v v i (v.group i.gi) f :=
  ⟨_, ⟨_, rfl, List.getElem?_eq_getElem h⟩, fun _ _ => rfl⟩

/-- Behind a put: the owner group, the issuing group and every other. -/
theorem put_behind {s v : State} {g : Bool} {i : Iss} (h : Issuing s g i) {ri : Nat} (ri_lt : ri < s.groups.length) {row : Row}
    {first n : Nat} {w : Nat → Word} {F : Future → Future} (hv : v.groups = modAt s.groups ri (putGroup row first n w F)) {t : State} (ht : t = (tickG v i.gi).advance i 4 true) :
    ((t.group i.gi).frag i.fi).pc = i.f.pc + 4 ∧ (t.group i.gi).clk = ticked i.g.clk ∧ t.mem = v.mem
      ∧ (∀ m, m ≠ i.gi → m ≠ ri → t.groups[m]? = s.groups[m]?)
      ∧ (t.group ri).regs = (putGroup row first n w F (s.group ri)).regs ∧ (t.group ri).futures = modAt (s.group ri).futures row.fut F := by
  subst ht
  obtain ⟨rs, po, frags, e, length, -⟩ := putGroup_eq row first n w F (s.group ri)
  have owner : v.group ri = putGroup row first n w F (s.group ri) := by
    unfold State.group
    rw [hv]
    exact (modAt_only ri_lt _ _).1
  have other {m : Nat} (hm : m ≠ ri) : v.groups[m]? = s.groups[m]? := by
    rw [hv, getElem?_modAt, if_neg hm]
  have issuer : (v.group i.gi).clk = i.g.clk ∧ (v.group i.gi).frags.length = i.g.frags.length := by
    rw [h.eq.1]
    by_cases same : i.gi = ri
    · rw [same, owner, e]
      exact ⟨rfl, length⟩
    · unfold State.group
      rw [other same]
      exact ⟨rfl, rfl⟩
  obtain ⟨f, became⟩ := Became.of_lt (v := v) (i := i) (by rw [issuer.2]; exact h.fi)
  have behind := became.tick.behind 4 true
  have kept {α : Type} (X : Group → α)
      (hX : ∀ y issued skid now frags, X { y with issued := issued, skid := skid, issuedNow := now, frags := frags } = X y) (tick : ∀ y, X y.tick = X y) :
      X (((tickG v i.gi).advance i 4 true).group ri) = X (putGroup row first n w F (s.group ri)) := by
    rw [← owner]
    by_cases same : ri = i.gi
    · rw [same]
      exact (behind.keeps X fun _ _ _ _ => hX ..).trans (tick _)
    · unfold State.group
      rw [behind.others ri same]
  refine ⟨behind.pc, (behind.keeps Group.clk fun _ _ _ _ => rfl).trans ?_, State.advance_mem .., fun m hi hr => (behind.others m hi).trans (other hr),
    kept Group.regs (fun _ _ _ _ _ => rfl) fun _ => rfl, (kept Group.futures (fun _ _ _ _ _ => rfl) fun _ => rfl).trans (by rw [e])⟩
  rw [← issuer.1]
  rfl

/-- The queue behind a push, as one record. -/
theorem Syzygy.filled_eq (q : Syzygy) (k : Nat) (rows : List Row) (full : Prop) [Decidable full] :
    (if full then q.readied k { q.buf k with rows := rows } else q.withBuf k { q.buf k with rows := rows })
      = { q with
          bufs := setAt q.bufs k (if full then { q.buf k with rows := rows, st := .ready, order := q.order + 1 } else { q.buf k with rows := rows }),
          order := if full then q.order + 1 else q.order } := by
  split <;> rfl

/-- Settles O44: each instruction by what it makes of its queue and its group; a push row by row, a take byte by byte, a put by its row. -/
theorem syzygyQueues : Obligations.SyzygyQueues := by
  unfold Obligations.SyzygyQueues
  intro ready only
  refine ⟨?push, ?take, ?put, ?flush, ?cfg, ?stat, ?timeout⟩
  case push =>
    intro g d a f s i k h q b ci hr quiet row_fits res_fits free filling fit
    obtain ⟨active, unlogged, named⟩ := hr
    obtain ⟨t, run, behind, mem, queues⟩ := cqPush_gives rfl ci active unlogged named quiet row_fits res_fits free filling fit
    obtain ⟨this_queue, other_queues⟩ := queues_only (syzNamed_lt named) queues
    refine ⟨t, run, behind.goes mem (fun _ _ _ _ => rfl) fun _ _ _ _ => rfl, behind.keeps Group.clk fun _ _ _ _ => rfl, behind.keeps Group.futures fun _ _ _ _ => rfl,
      this_queue.trans ?_, other_queues⟩
    rw [Syzygy.pushAll_eq filling s.time _ (by simpa using Mask.lanes_ne_nil active) (by rw [List.length_map]; exact fit) (by simp [pushedRow])]
    exact Syzygy.filled_eq q k ((q.buf k).rows ++ i.lanes.lanes.map (pushedRow i a.toNat q.rowWords f.toNat)) _
  case take =>
    intro g d a x s i k h q b tl ci hr x_lt shaped height row_bytes unused untimed unstamped wf oldest rows_le words
    obtain ⟨active, unlogged, named⟩ := hr
    obtain ⟨u, run, became, fills, mem, queues⟩ := cqTake_gives rfl ci active unlogged named x_lt shaped height row_bytes unused untimed unstamped oldest
    obtain ⟨mark, f, behind, acquired, mem', queues'⟩ := takeEnd_gives became (pairFld d).toNat (takeResult q k (hIndex h))
    have whole : ∀ r ∈ b.rows, 4 * r.words.length = 4 * q.rowWords := fun r hr => by rw [words r hr]
    refine ⟨_, takenData tl.data (4 * q.rowWords) q.rows b.rows, b.validMask, run,
      behind.goes (mem'.trans mem) (fun p l hp hl => (setPair_after i _ (fun _ => takeResult q k (hIndex h)) hp hl).trans ?_) fun _ _ _ _ => rfl,
      validRows_testBit b.rows, (behind.keeps Group.tiles fun _ _ _ _ => rfl).trans ?_, fun r row j w at_r at_j => ?_, fun p lo hi => ?_, fun p lo => ?_,
      behind.keeps Group.know fun _ _ _ _ => rfl, behind.acquired.trans (acquired.trans fills), ?_⟩
    · unfold takeResult
      rw [lo32_mk64, hi32_mk64]
    · exact congrArg (setAt i.g.tiles x.toNat) (takeTile_eq tl q b)
    · rw [row_bytes]
      exact takenData_word wf whole at_r at_j rows_le
    · rw [row_bytes] at lo hi
      rw [takenData_behind wf whole lo, if_pos hi]
    · rw [row_bytes] at lo
      rw [takenData_behind wf whole ((Nat.mul_le_mul_right _ rows_le).trans lo), if_neg (Nat.not_lt.2 lo)]
    · obtain ⟨this_queue, other_queues⟩ := queues_only (syzNamed_lt named) (queues'.trans queues)
      refine ⟨this_queue.trans ?_, other_queues⟩
      rw [Syzygy.takeBuf, Syzygy.modBuf_eq]
      rfl
  case put =>
    intro g a b s i l row w r qi k q own fut ci single quiet unlogged fits bound own_ctx plain taken batch at_r r_lt valid waits wanted pending ri_lt lane_lt inside
    obtain ⟨v, run, mem, groups⟩ := cqPut_gives rfl rfl rfl rfl ci single quiet unlogged fits bound own_ctx plain taken batch at_r r_lt valid waits wanted pending
    obtain ⟨pc, clk, mem', others, regs, futures⟩ := put_behind ci.toIssuing ri_lt groups rfl
    have future : (((tickG v i.gi).advance i 4 true).group row.gi).fut row.fut
        = putFuture i.g.know (!rowsLeft (markPut s qi k r) row.gi row.fut) fut := by
      unfold Group.fut
      rw [futures]
      refine (modAt_only (lt_of_getD_ne (d := {}) fun absent => ?_) _ _).1
      have free : fut.st = .free := congrArg Future.st absent
      rw [pending] at free
      cases free
    refine ⟨_, run, pc, clk, mem'.trans mem, fun p m hp hm => ?_, others, ?_, ?_⟩
    · obtain ⟨rs, po, frags, e, length, lane⟩ := putGroup_eq row fut.first q.resWords (fun j => i.reg (b.toNat + j) l)
        (putFuture i.g.know (!rowsLeft (markPut s qi k r) row.gi row.fut)) own
      refine Eq.trans ?_ (lane p m hp hm)
      unfold Group.lane
      rw [regs]
    · rw [future]
      rfl
    · have done : ((putFuture i.g.know (!rowsLeft (markPut s qi k r) row.gi row.fut) fut).st = .ready)
          ↔ rowsLeft (markPut s qi k r) row.gi row.fut = false := by
        rw [putFuture, pending]
        cases rowsLeft (markPut s qi k r) row.gi row.fut <;> simp
      rw [future, done, rowsLeft_markPut]
      exact ⟨fun all_put q' k' r' x other q_lt k_lt at_x => all_put q' k' r' x other (rowAt_iff.2 ⟨q_lt, k_lt, at_x⟩),
        fun all_put q' k' r' x other at_x => have ⟨q_lt, k_lt, at_x⟩ := rowAt_iff.1 at_x; all_put q' k' r' x other q_lt k_lt at_x⟩
  case flush =>
    intro g a s i k ci h q hr filling waits
    obtain ⟨active, unlogged, named⟩ := hr
    obtain ⟨t, run, goes, queues⟩ := cqFlush_gives active unlogged ci named rfl filling waits
    obtain ⟨this_queue, other_queues⟩ := queues_only (syzNamed_lt named) queues
    exact ⟨t, run, goes, this_queue.trans (Syzygy.makeReady_eq waits), other_queues⟩
  case cfg =>
    intro g a b s i ci h hr listed free nobody
    obtain ⟨active, unlogged, named⟩ := hr
    obtain ⟨t, run, goes, queues⟩ := cqCfg_gives active unlogged ci named listed free nobody
    exact ⟨t, run, goes, queues_only (syzNamed_lt named) queues⟩
  case stat =>
    intro g d a s i ci h q n hr none_fills
    obtain ⟨active, unlogged, named⟩ := hr
    exact cqStat_gives active unlogged ci named rfl none_fills
  case timeout =>
    intro qi s k q filling bound timed due waits
    have qi_lt : qi < s.syzygy.length := lt_of_getD_ne (d := {}) fun absent => by
      have unbound : q.bound = false := congrArg Syzygy.bound absent
      rw [bound] at unbound
      cases unbound
    obtain ⟨this_queue, other_queues⟩ := queues_only (t := s.modSyz qi (Syzygy.makeReady · k)) qi_lt rfl
    exact ⟨_, syzygyTimeout_gives filling bound timed due, rfl, this_queue.trans (Syzygy.makeReady_eq waits), other_queues⟩

end Sys2Proof.Machine
end

section
/-! PROOFS. Commands of the collision and dynamics engines (R329 to R335, R339): a command taken with its lanes' records, and what ends it. -/

namespace Sys2Proof.Machine

open Sys2Proof

/-! ### What an engine leaves alone

The groups and the engines' lists of commands: an engine's accesses change memory, caches, waits on addresses, race records and rings. -/

/-- The groups and the commands of both engines are as in `s₀`. -/
structure State.SameJobs (s₀ s : State) : Prop where
  groups : s.groups = s₀.groups
  cols : s.cols = s₀.cols
  dyns : s.dyns = s₀.dyns

section
variable {s₀ s : State}

theorem State.SameJobs.refl (s : State) : s.SameJobs s := ⟨rfl, rfl, rfl⟩

/-- A change of other fields. -/
theorem State.SameJobs.other {u : State} (h : s₀.SameJobs s) (groups : u.groups = s.groups) (cols : u.cols = s.cols) (dyns : u.dyns = s.dyns) : s₀.SameJobs u :=
  ⟨groups.trans h.groups, cols.trans h.cols, dyns.trans h.dyns⟩

theorem State.SameJobs.withMem {m : Mem} (h : s₀.SameJobs s) : s₀.SameJobs { s with mem := m } := h.other rfl rfl rfl

theorem State.SameJobs.foldl {α : Type} {f : State → α → State} {xs : List α} (h : s₀.SameJobs s)
    (hf : ∀ u, s₀.SameJobs u → ∀ x, s₀.SameJobs (f u x)) : s₀.SameJobs (xs.foldl f s) := foldl_holds (P := s₀.SameJobs) h hf

theorem State.SameJobs.ite {c : Prop} [Decidable c] {t u : State} (ht : s₀.SameJobs t) (hu : s₀.SameJobs u) : s₀.SameJobs (if c then t else u) :=
  ite_holds (P := s₀.SameJobs) ht hu

theorem State.SameJobs.modC {pasid : Nat} {f : Ctx → Ctx} (h : s₀.SameJobs s) : s₀.SameJobs (s.modC pasid f) := by
  unfold State.modC
  split
  · exact h.other rfl rfl rfl
  · exact h

theorem State.SameJobs.writeMem {pa : Nat} {bs : List Byte} (h : s₀.SameJobs s) : s₀.SameJobs (s.writeMem pa bs) := h.other rfl rfl rfl

theorem State.SameJobs.dropL1 {core pa len : Nat} (h : s₀.SameJobs s) : s₀.SameJobs (dropL1 s core pa len) := h.other rfl rfl rfl

theorem State.SameJobs.updateL1 {core pa : Nat} {bs : List Byte} (h : s₀.SameJobs s) : s₀.SameJobs (updateL1 s core pa bs) := h.other rfl rfl rfl

theorem State.SameJobs.putRec {a m : Nat} (h : s₀.SameJobs s) : s₀.SameJobs (s.putRec a m) := .withMem h

theorem State.SameJobs.replayPut {pasid : Nat} {bs : List Byte} (h : s₀.SameJobs s) : s₀.SameJobs (replayPut s pasid bs) :=
  .ite (h.other rfl rfl rfl) (.writeMem (.foldl h fun _ h1 _ => .writeMem h1))

theorem State.SameJobs.replayLog {pasid ty : Nat} {id : BitVec 18} {payload : List Byte} (h : s₀.SameJobs s) : s₀.SameJobs (s.replayLog pasid ty id payload) :=
  .ite h (.foldl h fun _ h1 _ => .replayPut h1)

theorem State.SameJobs.touchL2 {pasid cls pa : Nat} {store : Bool} (h : s₀.SameJobs s) : s₀.SameJobs (touchL2 s pasid cls store pa) := by
  obtain ⟨l2, touched⟩ := touchL2_eq s pasid cls store pa
  rw [touched]
  exact h.other rfl rfl rfl

theorem State.SameJobs.setRstate {pasid pa st : Nat} (h : s₀.SameJobs s) : s₀.SameJobs (setRstate s pasid pa st) := by
  unfold Machine.setRstate
  split
  · exact .putRec h
  · exact h

theorem State.SameJobs.syncKill {pasid pa len : Nat} (h : s₀.SameJobs s) : s₀.SameJobs (syncKill s pasid pa len) := by
  unfold Machine.syncKill
  split
  · exact h.other rfl rfl rfl
  · exact h

theorem State.SameJobs.syncStore {pasid pa len : Nat} {vec : KVec} {clk : BitVec 24} {scope : BitVec 2} {id : BitVec 18} {btag : BitVec 16} (h : s₀.SameJobs s) :
    s₀.SameJobs (syncStore s pasid pa len vec clk scope id btag) := by
  unfold Machine.syncStore
  split
  · exact h
  · extract_lets old s1 w x s2
    have h1 : s₀.SameJobs s1 := .ite (.setRstate h) h
    have h2 : s₀.SameJobs s2 := .withMem h1
    split
    · exact .ite (.setRstate h2) h2
    · exact h2

theorem State.SameJobs.performLane {e : Store} {x : LaneAcc} (h : s₀.SameJobs s) : s₀.SameJobs (performLane s e x) := by
  unfold Machine.performLane
  extract_lets old new bs s1 s2 s3
  have h2 : s₀.SameJobs s2 := .foldl (.writeMem (.touchL2 h)) fun _ h1 _ => .ite (.dropL1 h1) (.updateL1 h1)
  have h3 : s₀.SameJobs s3 := .ite (.syncKill h2) h2
  refine .ite h (.ite h2 ?_)
  split
  · exact .syncStore h3
  · exact h3

theorem State.SameJobs.drainCmd {p : CmdParty} {pa len : Nat} (h : s₀.SameJobs s) : s₀.SameJobs (drainCmd s p pa len) :=
  .foldl (h.other rfl rfl rfl) fun _ h1 _ => .foldl h1 fun _ h2 _ => .performLane h2

theorem State.SameJobs.recordAccs {p : RaceParty} {xs : List RaceAcc} (h : s₀.SameJobs s) : s₀.SameJobs (recordAccs s p xs) := by
  refine .foldl h fun _ h1 _ => ?_
  split
  · exact .putRec h1
  · exact h1

theorem State.SameJobs.raceRecord {p : RaceParty} {x : RaceAcc} {hit : RaceHit} {pc : BitVec 52} {lanes : Mask} {lid : Word} {trap eng : Bool} (h : s₀.SameJobs s) :
    s₀.SameJobs (raceRecord s p x hit pc lanes lid trap eng).1 :=
  ite_holds (P := fun r : State × _ => s₀.SameJobs r.1) h (ite_holds (P := fun r : State × _ => s₀.SameJobs r.1) (.writeMem (.modC h)) (.modC (.writeMem (.writeMem h))))

theorem State.SameJobs.mixed {α : Type} {xs : List α} (h : s₀.SameJobs s) : s₀.SameJobs (s.mixed xs).1 := by
  unfold State.mixed
  split
  · exact h
  · exact h.other rfl rfl rfl

end

/-! ### Engine accesses -/

section
variable {s₀ : State} {r : CmdRun} {p : CmdParty} (h : s₀.SameJobs r.s)
include h

theorem sameJobs_engineRace {x : Xlate} {va pa len cls : Nat} {write : Bool} : s₀.SameJobs (engineRace r p x va pa len write cls).s := by
  unfold engineRace
  split
  · exact h
  · refine .recordAccs ?_
    split
    · exact h
    · exact .raceRecord h

theorem sameJobs_engineRead {va len cls : Nat} : s₀.SameJobs (engineRead r p va len cls).1.s := by
  unfold engineRead
  split
  · exact h
  · have drained : s₀.SameJobs (drainCmd r.s p ‹_› len) := .drainCmd h
    exact ite_holds (P := fun r : CmdRun × _ => s₀.SameJobs r.1.s) drained.touchL2 (sameJobs_engineRace drained.touchL2)

theorem sameJobs_engineWrite {va cls : Nat} {bs : List Byte} : s₀.SameJobs (engineWrite r p va cls bs).1.s := by
  unfold engineWrite
  split
  · exact h
  · next pa x _ =>
    have drained : s₀.SameJobs (drainCmd r.s p pa bs.length) := .drainCmd h
    have raced := sameJobs_engineRace (r := ({ r with s := drainCmd r.s p pa bs.length } : CmdRun).l2 p x true pa) (p := p) (x := x) (va := va)
      (pa := pa) (len := bs.length) (write := true) (cls := cls) drained.touchL2
    exact .ite (.syncKill (.dropL1 (.writeMem raced))) (.dropL1 (.writeMem raced))

end

section
variable {s₀ : State} {x : LaneRun} (h : s₀.SameJobs x.r.s)
include h

theorem sameJobs_laneGet1 {p : CmdParty} {va len cls : Nat} {k : AccKind} : s₀.SameJobs (laneGet1 x p va len cls k).1.r.s := by
  unfold laneGet1
  split
  · exact h
  · dsimp only
    split <;> exact sameJobs_engineRead h

theorem sameJobs_laneGet {p : CmdParty} {cls fuel va len : Nat} : s₀.SameJobs (laneGet x p cls fuel va len).1.r.s := by
  induction fuel generalizing x va len with
  | zero => exact h
  | succ fuel ih =>
    unfold laneGet
    split
    · exact h
    · have piece := sameJobs_laneGet1 h (p := p) (va := va) (len := if len < 16 then len else 16) (cls := cls) (k := .read)
      split
      next e => exact (e ▸ piece :)
      next e =>
        have rest := ih (e ▸ piece :) (va := (va + 16) % 2 ^ 64) (len := len - 16)
        split <;> next e => exact (e ▸ rest :)

theorem sameJobs_lanePut {p : CmdParty} {va : Nat} {bs : List Byte} : s₀.SameJobs (lanePut x p va bs).r.s := by
  unfold lanePut
  dsimp only
  split
  · exact h
  · exact foldl_holds (P := fun r : CmdRun => s₀.SameJobs r.s) h fun _ h1 _ => sameJobs_engineWrite h1

theorem sameJobs_puts {α : Type} {ps : α → CmdParty} {vas : α → Nat} {bs : List Byte} {recs : List α} :
    s₀.SameJobs (recs.foldl (fun x l => lanePut x (ps l) (vas l) bs) x).r.s :=
  foldl_holds (P := fun x : LaneRun => s₀.SameJobs x.r.s) h fun _ h1 _ => sameJobs_lanePut h1

theorem sameJobs_dynLane {c : LaneCmd} {head js : List Byte} {p : CmdParty} {b : Nat} : s₀.SameJobs (dynLane c head js x p b).1.r.s := by
  unfold dynLane
  dsimp only
  have state := sameJobs_laneGet h (p := p) (cls := 2) (fuel := 256) (va := b) (len := 4 * dynReads c.op (modelNq head) (modelNv head))
  split
  · exact h
  · split
    next e => exact (e ▸ state :)
    next e => exact ite_holds (P := fun r : LaneRun × _ => s₀.SameJobs r.1.r.s) (e ▸ state :) (e ▸ state :)

theorem sameJobs_readNode {p : CmdParty} {m : Map} {ix level : Nat} : s₀.SameJobs (readNode x p m ix level).1.r.s := by
  unfold readNode
  have node := sameJobs_laneGet1 h (p := p) (va := (m.nodes + 64 * ix) % 2 ^ 64) (len := 8) (cls := 1) (k := .read)
  split
  · exact h
  · split
    next e => exact (e ▸ node :)
    next e => exact ite_holds (P := fun r : LaneRun × _ => s₀.SameJobs r.1.r.s) (e ▸ node :) (e ▸ node :)

end

/-- A walk from a node on. -/
theorem sameJobs_walkNode {s₀ : State} {w : Walk} (h : s₀.SameJobs w.x.r.s) {p : CmdParty} {m : Map} {q : Query} {fuel ix level : Nat} {key : List Nat} :
    s₀.SameJobs (walkNode p m q fuel ix level key w).x.r.s := by
  induction fuel generalizing w ix level key with
  | zero => exact h
  | succ fuel ih =>
    unfold walkNode
    have node := sameJobs_readNode h (p := p) (m := m) (ix := ix) (level := level)
    split
    next e => exact (e ▸ node :)
    next e =>
      refine foldl_holds (P := fun w : Walk => s₀.SameJobs w.x.r.s) (e ▸ node :) fun w hw _ => ?_
      refine ite_holds (P := fun w : Walk => s₀.SameJobs w.x.r.s) hw ?_
      refine ite_holds (P := fun w : Walk => s₀.SameJobs w.x.r.s) (ite_holds (P := fun w : Walk => s₀.SameJobs w.x.r.s) hw (ih hw)) ?_
      exact ite_holds (P := fun w : Walk => s₀.SameJobs w.x.r.s) hw hw

section
variable {s₀ : State} {x : LaneRun} (h : s₀.SameJobs x.r.s)
include h

theorem sameJobs_queryLane {c : LaneCmd} {m : Map} {head : List Byte} {p : CmdParty} {b : Nat} : s₀.SameJobs (queryLane c m head x p b).1.r.s := by
  unfold queryLane
  have record := sameJobs_laneGet h (p := p) (cls := 2) (fuel := 4) (va := b) (len := 32)
  split
  next e => exact (e ▸ record :)
  next e =>
    split
    · exact (e ▸ record :)
    · dsimp only
      split
      · exact sameJobs_walkNode (e ▸ record :)
      · split <;> exact sameJobs_walkNode (e ▸ record :)

theorem sameJobs_walkUpd {p : CmdParty} {m : Map} {key : List Nat} {fuel ix level : Nat} : s₀.SameJobs (walkUpd p m key fuel ix level x).1.r.s := by
  induction fuel generalizing x ix level with
  | zero => exact h
  | succ fuel ih =>
    unfold walkUpd
    have node := sameJobs_readNode h (p := p) (m := m) (ix := ix) (level := level)
    split
    next e => exact (e ▸ node :)
    next e =>
      refine ite_holds (P := fun r : LaneRun × _ => s₀.SameJobs r.1.r.s) (e ▸ node :) ?_
      exact ite_holds (P := fun r : LaneRun × _ => s₀.SameJobs r.1.r.s) (e ▸ node :) (ih (e ▸ node :))

theorem sameJobs_setChild {p : CmdParty} {m : Map} {ix w c st : Nat} : s₀.SameJobs (setChild x p m ix w c st).1.r.s := by
  unfold setChild
  dsimp only
  split
  · exact h
  · exact .replayLog (.dropL1 (.writeMem (.touchL2 (sameJobs_engineRace h))))

theorem sameJobs_updLane {m : Map} {p : CmdParty} {b : Nat} : s₀.SameJobs (updLane m x p b).1.r.s := by
  unfold updLane
  have record := sameJobs_laneGet1 h (p := p) (va := b) (len := 8) (cls := 2) (k := .read)
  split
  next e => exact (e ▸ record :)
  next y _ e =>
    have hy : s₀.SameJobs y.r.s := (e ▸ record :)
    extract_lets key st
    split
    · exact hy
    · have walked := sameJobs_walkUpd hy (p := p) (m := m) (key := key) (fuel := m.depth) (ix := 0) (level := 0)
      split
      next e => exact (e ▸ walked :)
      next e => exact sameJobs_setChild (e ▸ walked :)

end

/-- A collision command leaves the groups and both lists of commands alone. -/
theorem sameJobs_runCollision (s : State) (c : LaneCmd) : s.SameJobs (runCollision s c).r.s := by
  unfold runCollision
  extract_lets p0
  split
  next s1 recs e1 =>
  have mixed : s.SameJobs s1 := (e1 ▸ ite_holds (P := fun r : State × _ => s.SameJobs r.1) (.refl s) (.mixed (.refl s)) :)
  have header := sameJobs_laneGet (x := { r := { s := s1 } }) mixed (p := p0) (cls := 2) (fuel := 4) (va := c.head) (len := 64)
  split
  next e => exact sameJobs_puts (e ▸ header :)
  next e =>
    split
    · exact sameJobs_puts (e ▸ header :)
    · exact foldl_holds (P := fun x : LaneRun => s.SameJobs x.r.s) (e ▸ header :) fun x h1 _ => sameJobs_lanePut
        (ite_holds (P := fun r : LaneRun × _ => s.SameJobs r.1.r.s) (sameJobs_updLane h1) (sameJobs_queryLane h1))

/-- A dynamics command does, too. -/
theorem sameJobs_runDynamics (s : State) (c : LaneCmd) : s.SameJobs (runDynamics s c).r.s := by
  unfold runDynamics
  extract_lets p0
  split
  next s1 recs e1 =>
  have mixed : s.SameJobs s1 := (e1 ▸ State.SameJobs.mixed (.refl s) :)
  have header := sameJobs_laneGet (x := { r := { s := s1 } }) mixed (p := p0) (cls := 2) (fuel := 4) (va := c.head) (len := 64)
  extract_lets all
  have keep {x : LaneRun} {bs : List Byte} (h : s.SameJobs x.r.s) : s.SameJobs (all x bs).r.s := sameJobs_puts h
  split
  next e => exact keep (e ▸ header :)
  next x head e =>
    have hx : s.SameJobs x.r.s := (e ▸ header :)
    have joints := sameJobs_laneGet hx (p := p0) (cls := 2) (fuel := 512) (va := (c.head + 64) % 2 ^ 64) (len := 128 * modelNj head)
    refine ite_holds (P := fun x : LaneRun => s.SameJobs x.r.s) (keep hx) ?_
    split
    next e => exact keep (e ▸ joints :)
    next e => exact ite_holds (P := fun x : LaneRun => s.SameJobs x.r.s) (keep (e ▸ joints :)) (foldl_holds (P := fun x : LaneRun => s.SameJobs x.r.s) (e ▸ joints :)
        fun _ h1 _ => sameJobs_lanePut (sameJobs_dynLane h1))

/-! ### A command taken (R330) -/

theorem laneAddrFault_none {head : Nat} {recs : List (Nat × Nat × Nat)} (head_aligned : head % 64 = 0) (head_lt : head < 2 ^ 52)
    (right : ∀ r ∈ recs, (r.2.1 % 16 = 0 ∧ r.2.1 < 2 ^ 52) ∧ r.2.2 % 16 = 0 ∧ r.2.2 < 2 ^ 52) : laneAddrFault head recs = none := by
  have sound : ∀ x ∈ ((head, 64, (0x60 : Word)) :: recs.flatMap fun r => [(r.2.1, 16, (0x40 : Word)), (r.2.2, 16, 0x41)] : List (Nat × Nat × Word)),
      x.1 % x.2.1 = 0 ∧ x.1 < 2 ^ 52 := by
    refine List.forall_mem_cons.2 ⟨⟨head_aligned, head_lt⟩, fun x hx => ?_⟩
    obtain ⟨r, r_mem, hx⟩ := List.mem_flatMap.1 hx
    obtain ⟨record, result⟩ := right r r_mem
    rcases List.mem_pair.1 hx with rfl | rfl
    · exact record
    · exact result
  unfold laneAddrFault
  extract_lets all
  have aligned : all.find? (fun x => x.1 % x.2.1 != 0) = none := List.find?_eq_none.2 fun x hx => by simp [(sound x hx).1]
  have canonical : all.find? (fun x => decide (2 ^ 52 ≤ x.1)) = none := List.find?_eq_none.2 fun x hx => by simpa using (sound x hx).2
  rw [aligned, canonical]
  rfl

/-- The command that an instruction gives its engine. -/
def laneCmdOf (s : State) (i : Iss) (op : Nat) (d a b : BitVec 6) (sc : BitVec 2) (e : BitVec 1) (k body : Nat) : LaneCmd :=
  let addr (x : BitVec 6) (l : Nat) : Nat := (i.pair (pairFld x).toNat l).toNat
  { gi := i.gi, ctx := s.pasidOf i.g, core := i.g.core, op := op, lanes := i.lanes, head := addr a i.lo, fut := k, body := body, race := i.g.race,
    recs := i.lanes.lanes.map fun l => (l, addr b l, addr d l), fids := i.f.fid :: i.f.before, since := s.seq, rel := e == 1, scope := sc, id := i.g.id,
    clk := i.g.clk, know := i.g.know, pc := i.f.pc }

/-- A command more for the engine. -/
def withCmd (dyn : Bool) (c : LaneCmd) (s : State) : State := if dyn then { s with dyns := s.dyns ++ [c] } else { s with cols := s.cols ++ [c] }

theorem withCmd_eq (dyn : Bool) (c : LaneCmd) (s : State) :
    withCmd dyn c s = { s with cols := if dyn then s.cols else s.cols ++ [c], dyns := if dyn then s.dyns ++ [c] else s.dyns } := by
  cases dyn <;> rfl

/-- A command whose addresses are right is taken, and its future is reserved. -/
theorem laneCmdOp_gives {s : State} {g dyn : Bool} {op : Nat} {d a b : BitVec 6} {sc : BitVec 2} {e : BitVec 1} {k : BitVec 5} {body : Nat} {i : Iss}
    (ci : CanIssue s g (pairOf d ++ pairOf a ++ pairOf b) [] [] i) (active : i.lanes ≠ 0) (free : (i.g.fut k.toNat).st = .free)
    (right : laneAddrFault (i.pair (pairFld a).toNat i.lo).toNat
      (i.lanes.lanes.map fun l => (l, (i.pair (pairFld b).toNat l).toNat, (i.pair (pairFld d).toNat l).toNat)) = none)
    (room : ((if dyn then s.dyns else s.cols).filter fun c => c.core == i.g.core).length < 32) : ∃ t, laneCmdOp s g dyn op d a b sc e k body = .next t
      ∧ Behind s t i 8 ({ i.g with futures := setAt i.g.futures k.toNat { st := .pending, lanes := i.lanes } } : Group).tick i.f ∧ t.mem = s.mem
      ∧ t.cols = (if dyn then s.cols else s.cols ++ [laneCmdOf s i op d a b sc e k.toNat body])
      ∧ t.dyns = (if dyn then s.dyns ++ [laneCmdOf s i op d a b sc e k.toNat body] else s.dyns) := by
  obtain ⟨r, hr⟩ : ∃ r, laneCmdOp s g dyn op d a b sc e k body = r := ⟨_, rfl⟩
  have run := hr
  rw [laneCmdOp, withOperands_next ci, once_active active] at run
  dsimp only at run
  rw [if_neg (not_not_intro free), right] at run
  dsimp only at run
  rw [if_neg (Nat.not_le.2 room)] at run
  obtain ⟨v, hv⟩ : ∃ v, v = withCmd dyn (laneCmdOf s i op d a b sc e k.toNat body) (s.commit i) := ⟨_, rfl⟩
  have taken : r = .next ((tickG (v.modG i.gi fun g =>
      { g with futures := setAt g.futures k.toNat { st := .pending, lanes := i.lanes } }) i.gi).advance i 8 true) := by
    rw [hv]
    exact run.symm
  rw [hr]
  rw [withCmd_eq] at hv
  have became : Became s v i i.g i.f := ci.toIssuing.became.congr (by rw [hv]; rfl)
  have reserved := became.modAll (F := fun g => { g with futures := setAt g.futures k.toNat { st := .pending, lanes := i.lanes } }) fun _ _ => rfl
  refine ⟨_, taken, reserved.tick.behind 8 true, (State.advance_mem ..).trans ?_, ?_, ?_⟩
  · rw [hv]
    rfl
  · rw [State.advance_cols, hv]
    rfl
  · rw [State.advance_dyns, hv]
    rfl

/-! ### A command that has run (R331, R332) -/

/-- The future of a command that has run. -/
def doneFuture (x : LaneRun) (c : LaneCmd) (f : Future) : Future := if f.st == .pending then { f with st := .ready, err := x.deferred, vecs := [c.know] } else f

theorem finishLane_eq {x : LaneRun} {c : LaneCmd} (here : issuerGone x.r.s c.gi = false) :
    finishLane x c = x.r.s.modG c.gi fun g => { g with futures := modAt g.futures c.fut (doneFuture x c) } := by
  rw [finishLane, here]
  rfl

/-- Without its issuer a command changes no group. -/
theorem sameJobs_finishLane {s : State} {x : LaneRun} {c : LaneCmd} (h : s.SameJobs x.r.s) (gone : issuerGone x.r.s c.gi = true) : s.SameJobs (finishLane x c) := by
  rw [finishLane, gone, if_pos rfl]
  split
  · exact .ite (h.other rfl rfl rfl) h
  · exact h

theorem ask_nothing (s : State) (a : Asker) (held : List Word) : ask s a held [] = (s, .go) := by
  unfold ask
  rw [failures_nil fun _ none_in => absurd none_in List.not_mem_nil]
  rfl

theorem runLaneCmd_done {s : State} {c : LaneCmd} {run : State → LaneCmd → LaneRun} (translated : (run s c).miss = []) (source : Nat) :
    runLaneCmd s c source run = (finishLane (run s c) c, none) := by
  unfold runLaneCmd
  dsimp only
  rw [translated, ask_nothing]

/-- The engine's list without the n-th command. -/
def withoutCmd (dyn : Bool) (n : Nat) (s : State) : State := if dyn then { s with dyns := dropAt s.dyns n } else { s with cols := dropAt s.cols n }

theorem collision_done {s : State} {n : Nat} {c : LaneCmd} (at_n : s.cols[n]? = some c) (translated : (runCollision s c).miss = []) :
    exec (.collisionCommandComplete n) s = .next (dropFailed (withoutCmd false n (finishLane (runCollision s c) c))) := by
  have run : exec (.collisionCommandComplete n) s = execCollisionCommandComplete n s := rfl
  rw [run, execCollisionCommandComplete, at_n]
  dsimp only
  rw [runLaneCmd_done translated]
  rfl

theorem dynamics_done {s : State} {n : Nat} {c : LaneCmd} (at_n : s.dyns[n]? = some c) (translated : (runDynamics s c).miss = []) :
    exec (.dynamicsCommandComplete n) s = .next (dropFailed (withoutCmd true n (finishLane (runDynamics s c) c))) := by
  have run : exec (.dynamicsCommandComplete n) s = execDynamicsCommandComplete n s := rfl
  rw [run, execDynamicsCommandComplete, at_n]
  dsimp only
  rw [runLaneCmd_done translated]
  rfl

/-- What a command that has run leaves: its engine without it, its future done, and registers and other groups as they were. -/
structure Ended (s t : State) (c : LaneCmd) (dyn : Bool) (n : Nat) : Prop where
  cols : t.cols = if dyn then s.cols else dropAt s.cols n
  dyns : t.dyns = if dyn then dropAt s.dyns n else s.dyns
  regs : (t.group c.gi).regs = (s.group c.gi).regs
  others : ∀ k, k ≠ c.gi → t.groups[k]? = s.groups[k]?

theorem withoutCmd_eq (dyn : Bool) (n : Nat) (s : State) :
    withoutCmd dyn n s = { s with cols := if dyn then s.cols else dropAt s.cols n, dyns := if dyn then dropAt s.dyns n else s.dyns } := by
  cases dyn <;> rfl

section
variable {s t : State} {x : LaneRun} {c : LaneCmd} {dyn : Bool} {n : Nat} (h : s.SameJobs x.r.s) (ht : t = dropFailed (withoutCmd dyn n (finishLane x c)))
include h ht

theorem ended_here (gi_lt : c.gi < s.groups.length) (here : issuerGone x.r.s c.gi = false) : Ended s t c dyn n
    ∧ (t.group c.gi).futures = modAt (s.group c.gi).futures c.fut (doneFuture x c) := by
  rw [finishLane_eq here, withoutCmd_eq] at ht
  have groups : t.groups = (s.modG c.gi fun g => { g with futures := modAt g.futures c.fut (doneFuture x c) }).groups := by
    rw [ht]
    exact congrArg (modAt · c.gi fun g => { g with futures := modAt g.futures c.fut (doneFuture x c) }) h.groups
  have own : t.group c.gi = { s.group c.gi with futures := modAt (s.group c.gi).futures c.fut (doneFuture x c) } := by
    unfold State.group
    rw [groups]
    exact (modAt_only gi_lt _ _).1
  refine ⟨⟨?_, ?_, by rw [own], fun k hk => ?_⟩, by rw [own]⟩
  · rw [ht, ← h.cols]
    rfl
  · rw [ht, ← h.dyns]
    rfl
  · rw [groups, State.modG_groups, if_neg hk]

theorem ended_gone (gone : issuerGone x.r.s c.gi = true) : Ended s t c dyn n := by
  have finished := sameJobs_finishLane h gone
  rw [withoutCmd_eq] at ht
  have groups : t.groups = s.groups := by
    rw [ht]
    exact finished.groups
  refine ⟨?_, ?_, by rw [State.group, groups]; rfl, fun k _ => by rw [groups]⟩
  · rw [ht, ← finished.cols]
    rfl
  · rw [ht, ← finished.dyns]
    rfl

end

theorem issuerGone_resident {s u : State} {gi : Nat} (groups : u.groups = s.groups) (resident : (s.group gi).state = .resident) : issuerGone u gi = false := by
  have same : u.group gi = s.group gi := by rw [State.group, groups]; rfl
  rw [issuerGone, same, resident]
  rfl

/-- A command whose addresses translate ends. -/
theorem cmd_ends {s t : State} {x : LaneRun} {c : LaneCmd} {dyn : Bool} {n : Nat} (h : s.SameJobs x.r.s) (ht : t = dropFailed (withoutCmd dyn n (finishLane x c)))
    (gi_lt : c.gi < s.groups.length) : Ended s t c dyn n
      ∧ ((s.group c.gi).state = .resident → c.fut < (s.group c.gi).futures.length → ((s.group c.gi).fut c.fut).st = .pending →
          ((t.group c.gi).fut c.fut).st = .ready ∧ ((t.group c.gi).fut c.fut).vecs = [c.know]) := by
  by_cases gone : issuerGone x.r.s c.gi = true
  · refine ⟨ended_gone h ht gone, fun resident => ?_⟩
    rw [issuerGone_resident h.groups resident] at gone
    cases gone
  · obtain ⟨ended, futures⟩ := ended_here h ht gi_lt (Bool.eq_false_iff.2 gone)
    refine ⟨ended, fun _ fut_lt pending => ?_⟩
    have done : (t.group c.gi).fut c.fut = doneFuture x c ((s.group c.gi).fut c.fut) := by
      unfold Group.fut
      rw [futures]
      exact (modAt_only fut_lt _ _).1
    rw [done, doneFuture, pending]
    exact ⟨rfl, rfl⟩

/-! ### A command without a valid header (R334, R339) -/

/-- A run that has met nothing and changed nothing but L2. -/
def quietRun (s : State) (l2 : List L2Line) : LaneRun := { r := { s := { s with l2 := l2 } } }

theorem SameMaps.l2 (s : State) (l2 : List L2Line) : SameMaps s { s with l2 := l2 } := ⟨rfl, rfl, rfl, rfl, rfl, rfl, rfl⟩

section
variable {s : State} {p : CmdParty} (performed : s.unperf = []) (off : p.race = .off) (alive : p.dead = [])
include performed off alive

theorem laneGet1_quiet {va pa len cls : Nat} (sound : s.memBad = []) (reached : ∃ x, access s p.core p.pasid va .read = .ok (pa, x)) (l2 : List L2Line) :
    ∃ l2', laneGet1 (quietRun s l2) p va len cls = (quietRun s l2', .ok (s.mem.read pa len)) := by
  obtain ⟨x, ok⟩ := reached
  have found : chunkCode { s with l2 := l2 } p va .read = .ok (pa, x) := chunkCode_of_access (((SameMaps.l2 s l2).access ..).trans ok) alive
  have drained : drainCmd { s with l2 := l2 } p pa len = { s with l2 := l2 } := drainHit_of_no_hit (by rw [performed]; exact fun _ he => absurd he List.not_mem_nil)
  obtain ⟨l2', touched⟩ := touchL2_eq { s with l2 := l2 } p.pasid (if x.cpol = 2 then 1 else p.lcls) false pa
  have clean : State.badAt { s with l2 := l2' } pa len = false := by simp [State.badAt, sound]
  unfold laneGet1 quietRun
  simp only [found, engineRead, drained, CmdRun.l2, touched, clean, engineRace, off, decide_true, Bool.true_or, if_true, Bool.false_eq_true, if_false]
  exact ⟨l2', rfl⟩

/-- Bytes that are zero, read in pieces of 16. -/
theorem laneGet_zeros {cls va n : Nat} {place : Nat → Nat} (sound : s.memBad = []) (inside : va + 16 * n ≤ 2 ^ 52)
    (reached : ∀ k, k < n → ∃ x, access s p.core p.pasid (va + 16 * k) .read = .ok (place k, x)) (zero : ∀ k j, k < n → j < 16 → s.mem.get (place k + j) = 0)
    (l2 : List L2Line) : ∃ l2', laneGet (quietRun s l2) p cls n va (16 * n) = (quietRun s l2', .ok (List.replicate (16 * n) 0)) := by
  induction n generalizing va place l2 with
  | zero => exact ⟨l2, rfl⟩
  | succ n ih =>
    obtain ⟨l2₁, first⟩ := laneGet1_quiet performed off alive (len := 16) (cls := cls) sound (reached 0 (Nat.succ_pos n)) l2
    have zeros : s.mem.read (place 0) 16 = List.replicate 16 0 := by
      refine List.ext_getElem? fun j => ?_
      rw [List.getElem?_replicate]
      split
      · next hj => rw [Mem.read_getElem? _ _ _ _ hj, zero 0 j (Nat.succ_pos n) hj]
      · next hj => exact List.getElem?_eq_none (by rw [Mem.length_read]; omega)
    obtain ⟨l2₂, rest⟩ := ih (va := va + 16) (place := fun k => place (k + 1)) (by omega)
      (fun k hk => by rw [Nat.add_assoc, Nat.add_comm 16, ← Nat.mul_succ]; exact reached (k + 1) (by omega)) (fun k j hk => zero (k + 1) j (by omega)) l2₁
    refine ⟨l2₂, ?_⟩
    have next_va : (va + 16) % 2 ^ 64 = va + 16 := Nat.mod_eq_of_lt (by omega)
    have next_len : 16 * (n + 1) - 16 = 16 * n := by omega
    rw [laneGet, if_neg (by omega), if_neg (by omega), next_va, next_len]
    rw [Nat.mul_zero, Nat.add_zero] at first
    rw [first, zeros]
    dsimp only
    rw [rest]
    dsimp only
    rw [List.replicate_append_replicate, Nat.mul_succ, Nat.add_comm]

/-- A record of 16 bytes written. -/
theorem lanePut_quiet {va pa : Nat} {bs : List Byte} (size : bs.length = 16) (va_lt : va < 2 ^ 52)
    (reached : ∃ x, access s p.core p.pasid va .write = .ok (pa, x) ∧ isTracked s p.pasid x = false) (l2 : List L2Line) :
    ∃ u : State, lanePut (quietRun s l2) p va bs = { r := { s := u } } ∧ u.mem = s.mem.write pa bs := by
  obtain ⟨x, ok, untracked⟩ := reached
  have found : chunkCode { s with l2 := l2 } p va .write = .ok (pa, x) := chunkCode_of_access (((SameMaps.l2 s l2).access ..).trans ok) alive
  have drained : drainCmd { s with l2 := l2 } p pa bs.length = { s with l2 := l2 } := drainHit_of_no_hit (by rw [performed]; exact fun _ he => absurd he List.not_mem_nil)
  obtain ⟨l2', touched⟩ := touchL2_eq { s with l2 := l2 } p.pasid (if x.cpol = 2 then 1 else p.lcls) true pa
  have kept : isTracked (dropL1 ({ s with l2 := l2' }.writeMem pa bs) p.core pa bs.length) p.pasid x = false := untracked
  have written : engineWrite (quietRun s l2).r p va 2 bs = ({ s := dropL1 ({ s with l2 := l2' }.writeMem pa bs) p.core pa bs.length }, true) := by
    unfold engineWrite quietRun
    simp only [found, drained, CmdRun.l2, touched, engineRace, off, decide_true, Bool.true_or, if_true, kept, Bool.false_eq_true, if_false]
  have in_range : (va + 16 * 0) % 2 ^ 64 = va := Nat.mod_eq_of_lt (by omega)
  have whole : (bs.drop (16 * 0)).take 16 = bs := List.take_of_length_le (Nat.le_of_eq size)
  have pieces : List.range ((bs.length + 15) / 16) = [0] := by rw [size]; rfl
  unfold lanePut
  simp only [pieces, List.findSome?_cons, List.findSome?_nil, List.foldl_cons, List.foldl_nil, in_range, whole]
  have right : chunkCode (quietRun s l2).r.s p va .write = .ok (pa, x) := found
  rw [right, written]
  exact ⟨_, rfl, rfl⟩

end

theorem mapOf_zeros : mapOf (List.replicate 64 0) = none := by
  have no_nodes : leAt (List.replicate 64 0) 24 4 = 0 := by decide
  unfold mapOf
  exact if_pos (.inr (.inr (.inr (.inr (.inr (.inr no_nodes))))))

theorem headerOk_zeros : headerOk (List.replicate 64 0) = false := by decide

theorem dynCount_zeros (op : Nat) : dynCount op (modelNq (List.replicate 64 0)) (modelNv (List.replicate 64 0)) (modelNj (List.replicate 64 0)) = 0 := by
  have none_in : modelNq (List.replicate 64 0) = 0 ∧ modelNv (List.replicate 64 0) = 0 ∧ modelNj (List.replicate 64 0) = 0 := by decide
  obtain ⟨nq, nv, nj⟩ := none_in
  rw [nq, nv, nj]
  unfold dynCount
  split <;> rfl

theorem deadPages_nil (s : State) : deadPages s [] = [] := by simp [deadPages]

theorem State.mixed_singleton {α : Type} (s : State) (x : α) : s.mixed [x] = (s, [x]) := rfl

section
variable {s : State} {c : LaneCmd} {l b r : Nat} {place : Nat → Nat} (off : c.race = .off) (held : c.waits = [])
  (performed : s.unperf = []) (sound : s.memBad = []) (inside : c.head + 64 ≤ 2 ^ 52)
  (reached : ∀ k, k < 4 → ∃ y, access s c.core c.ctx (c.head + 16 * k) .read = .ok (place k, y)) (zero : ∀ k j, k < 4 → j < 16 → s.mem.get (place k + j) = 0)
include off held performed sound inside reached zero

theorem header_zeros : ∃ l2, laneGet { r := { s := s } } (c.party s (lowLane c.lanes)) 2 4 c.head 64 = (quietRun s l2, .ok (List.replicate 64 0)) :=
  laneGet_zeros (p := c.party s (lowLane c.lanes)) performed off ((congrArg (deadPages s) held).trans (deadPages_nil s)) (n := 4) sound inside reached zero s.l2

variable (single : c.recs = [(l, b, r)])
include single

theorem runCollision_invalid : ∃ l2, runCollision s c = lanePut (quietRun s l2) (c.party s l) r (leBytes 16 1) := by
  obtain ⟨l2, header⟩ := header_zeros off held performed sound inside reached zero
  refine ⟨l2, ?_⟩
  unfold runCollision
  simp only [single, State.mixed_singleton, ite_self, header, mapOf_zeros]
  rfl

theorem runDynamics_invalid : ∃ l2, runDynamics s c = lanePut (quietRun s l2) (c.party s l) r (leBytes 16 1) := by
  obtain ⟨l2, header⟩ := header_zeros off held performed sound inside reached zero
  refine ⟨l2, ?_⟩
  unfold runDynamics
  simp only [single, State.mixed_singleton, header, headerOk_zeros, dynCount_zeros]
  rfl

end

/-- What a command without a valid header gives its lane: the status 1. -/
theorem invalid_record {s : State} {c : LaneCmd} {l r pr : Nat} (off : c.race = .off) (held : c.waits = []) (performed : s.unperf = []) (r_lt : r < 2 ^ 52)
    (reached : ∃ y, access s c.core c.ctx r .write = .ok (pr, y) ∧ isTracked s c.ctx y = false) (l2 : List L2Line) :
    ∃ u : State, lanePut (quietRun s l2) (c.party s l) r (leBytes 16 1) = { r := { s := u } } ∧ u.mem = s.mem.write pr (leBytes 16 1) :=
  lanePut_quiet (p := c.party s l) performed off ((congrArg (deadPages s) held).trans (deadPages_nil s)) rfl r_lt reached l2

/-- A command that ends with one record written and nothing met: its future is READY without an error. -/
theorem cmd_done {s t u : State} {x : LaneRun} {c : LaneCmd} {dyn : Bool} {n : Nat} (hx : x = { r := { s := u } }) (h : s.SameJobs x.r.s)
    (ht : t = dropFailed (withoutCmd dyn n (finishLane x c))) (gi_lt : c.gi < s.groups.length) (resident : (s.group c.gi).state = .resident)
    (pending : ((s.group c.gi).fut c.fut).st = .pending) : t.mem = u.mem ∧ Ended s t c dyn n
      ∧ (t.group c.gi).futures = setAt (s.group c.gi).futures c.fut { (s.group c.gi).fut c.fut with st := .ready, err := none, vecs := [c.know] } := by
  have here := issuerGone_resident h.groups resident
  obtain ⟨ended, futures⟩ := ended_here h ht gi_lt here
  have done : doneFuture x c ((s.group c.gi).fut c.fut) = { (s.group c.gi).fut c.fut with st := .ready, err := none, vecs := [c.know] } := by
    rw [doneFuture, pending, hx]
    rfl
  refine ⟨?_, ended, futures.trans ?_⟩
  · rw [ht, finishLane_eq here, withoutCmd_eq, hx]
    rfl
  · rw [modAt_eq_setAt _ _ _ ({} : Future), ← done]
    rfl

/-- The completion events of an engine whose commands `run` says: one whose addresses translate ends, and a run leaves groups and commands alone. -/
structure EngineRuns (x : Nat → Instr) (dyn : Bool) (run : State → LaneCmd → LaneRun) : Prop where
  jobs : ∀ s c, State.SameJobs s (run s c).r.s
  runs : ∀ n (s : State) c, (if dyn then s.dyns else s.cols)[n]? = some c → (run s c).miss = [] →
    exec (x n) s = .next (dropFailed (withoutCmd dyn n (finishLane (run s c) c)))

theorem collision_runs : EngineRuns .collisionCommandComplete false runCollision := ⟨sameJobs_runCollision, fun _ _ _ => collision_done⟩
theorem dynamics_runs : EngineRuns .dynamicsCommandComplete true runDynamics := ⟨sameJobs_runDynamics, fun _ _ _ => dynamics_done⟩

/-- Settles O46: a command taken by `laneCmdOp_gives`, one that ends by what its engine leaves alone, one without a header by its one record. -/
theorem laneCommands : Obligations.LaneCommands := by
  unfold Obligations.LaneCommands
  intro Issues Query Completes Ends
  have issues {x : Instr} {g dyn : Bool} {op : Nat} {d a b : BitVec 6} {sc : BitVec 2} {e : BitVec 1} {k : BitVec 5} {body : Nat}
      (hx : ∀ s, exec x s = laneCmdOp s g dyn op d a b sc e k body) : Issues x g dyn op d a b sc e k body := by
    intro s i ci active free addr head_aligned head_lt records room c
    have right : laneAddrFault (addr a i.lo) (i.lanes.lanes.map fun l => (l, addr b l, addr d l)) = none := by
      refine laneAddrFault_none head_aligned head_lt fun r hr => ?_
      obtain ⟨l, l_mem, rfl⟩ := List.mem_map.1 hr
      obtain ⟨b_aligned, b_lt, d_aligned, d_lt⟩ := records l ((Mask.mem_lanes ..).1 l_mem)
      exact ⟨⟨b_aligned, b_lt⟩, d_aligned, d_lt⟩
    obtain ⟨t, run, behind, mem, cols, dyns⟩ := laneCmdOp_gives (op := op) (sc := sc) (e := e) (body := body) ci active free right room
    exact ⟨t, (hx s).trans run, cols, dyns, behind.keeps Group.futures fun _ _ _ _ => rfl, behind.keeps Group.clk fun _ _ _ _ => rfl, behind.pc,
      behind.keeps Group.regs fun _ _ _ _ => rfl, behind.keeps Group.preds fun _ _ _ _ => rfl, mem, behind.others⟩
  have ends {x : Nat → Instr} {dyn : Bool} {run : State → LaneCmd → LaneRun} (eng : EngineRuns x dyn run) :
      Ends x dyn run := by
    intro n s c at_n translated gi_lt
    obtain ⟨ended, done⟩ := cmd_ends (eng.jobs s c) rfl gi_lt
    exact ⟨_, eng.runs n s c at_n translated, ended.cols, ended.dyns, done, ended.regs, ended.others⟩
  have completes {x : Nat → Instr} {dyn : Bool} {run : State → LaneCmd → LaneRun} (eng : EngineRuns x dyn run)
      (invalid : ∀ {s : State} {c : LaneCmd} {l b r : Nat} {place : Nat → Nat}, c.race = .off → c.waits = [] → s.unperf = [] → s.memBad = [] → c.head + 64 ≤ 2 ^ 52 →
        (∀ k, k < 4 → ∃ y, access s c.core c.ctx (c.head + 16 * k) .read = .ok (place k, y)) → (∀ k j, k < 4 → j < 16 → s.mem.get (place k + j) = 0) →
        c.recs = [(l, b, r)] → ∃ l2, run s c = lanePut (quietRun s l2) (c.party s l) r (leBytes 16 1)) : Completes x dyn := by
    intro n s c l b r pr place at_n single off held performed sound inside reached zero r_lt result gi_lt resident pending
    obtain ⟨l2, whole⟩ := invalid off held performed sound inside reached zero single
    obtain ⟨u, put, mem⟩ := invalid_record (l := l) off held performed r_lt result l2
    have ran : run s c = { r := { s := u } } := whole.trans put
    obtain ⟨written, ended, futures⟩ := cmd_done ran (eng.jobs s c) rfl gi_lt resident pending
    exact ⟨_, eng.runs n s c at_n (by rw [ran]), written.trans mem, ended.cols, ended.dyns, futures, ended.regs⟩
  refine ⟨?ray, ?sph, ?box, ?sweep, ?dist, ?upd, ?fk, ?id, ?fd, ?step, ?mass, ?jac, ?colEnds, ?dynEnds, ?colInvalid, ?dynInvalid⟩
  case colEnds => exact ends collision_runs
  case dynEnds => exact ends dynamics_runs
  case colInvalid => exact completes collision_runs runCollision_invalid
  case dynInvalid => exact completes dynamics_runs runDynamics_invalid
  case jac => exact fun _ _ _ _ _ _ _ _ _ => issues fun _ => rfl
  all_goals exact fun _ _ _ _ _ _ _ _ => issues fun _ => rfl

end Sys2Proof.Machine
end
